-- ==== Sys2Proof/Word.lean ====
section
/-! DEFINITION. The word types of the KQ1640 and the sparse table that holds numbered parts. -/

namespace Sys2Proof

/-- One byte (R7, R8: little-endian, bit 0 least significant). -/
abbrev Byte := BitVec 8

/-- A 32-bit register (R458). -/
abbrev Word := BitVec 32

/-- An FP32 bit pattern (IEEE 754 binary32). -/
abbrev F32 := BitVec 32

/-- A BF16 bit pattern. -/
abbrev B16 := BitVec 16

/-- Numbered parts, held sparsely: pairs of a number and what that part holds, numbers rising.
A number that is not listed holds the part's default. -/
abbrev Table (α : Type) := List (Nat × α)

end Sys2Proof
end

