-- ==== Sys2Proof/Syntax.lean ====
section
/-! DEFINITION. The commands of the block: one constructor of Instr for each row of the table of operations and events,
and the plain data that rows carry. What the device cannot know by itself (bytes read from host memory, the outcome of a
physical read, a sensor's reading, a packet from a peer) is an operand of the row it arrives with (DESIGN CHOICE, log entry 5). -/

namespace Sys2Proof

/-- The two PCIe ports (R4, R474). -/
inductive PortId where
  | p0 | p1
  deriving DecidableEq, Repr, Inhabited

/-- The completion statuses (R497, R525). -/
inductive Status where
  | success | shortResult | truncated | busyRetry | aborted
  | invalidOpcode | invalidField | duplicateTag | lengthError | accessError | invalidVector | noCollection
  | collectionBusy | collectionParked | snapshotUnavailable | idExists | idNotFound | idExhausted | epochExhausted
  | objectBusy | noSpace | scheduleInfeasible
  | dataError | tierLate | numericFault | scheduleFault | coreFault | hostFault | hostAbort | peerLost
  | fwImageInvalid | fwRollback | fwSequence | fwNoImage | fwActivationBusy | notMember | attestUnavailable
  deriving DecidableEq, Repr, Inhabited

/-- The objects of a collection that tiers hold (R397), with the schedule's and the host's kinds (R676). -/
inductive ObjKind where
  | index | vectors | tokens | weights | region
  deriving DecidableEq, Repr, Inhabited

/-- Where an admin command comes from (R518, R603): an entry fetched from queue pair 0 of a port with the bytes of its
input buffer, a request the firmware owns in a mailbox with the bytes of a named (not inline) input buffer, or the
sideband mailbox. -/
inductive AdminSrc where
  | queue (p : PortId) (e : BitVec 1024) (inp : List Byte)
  | mailbox (p : PortId) (m : Nat) (inp : List Byte)
  | sideband
  deriving DecidableEq, Repr, Inhabited

/-- What a member answers in phase 1 of a fanned-out creation (R569): a refusal, or the INDEX values it reports free. -/
structure MemberReply where
  device : Nat
  refusal : Option Status
  freeIdx : List Nat
  deriving DecidableEq, Repr, Inhabited

/-- Who writes a register of the control processor's space (R315, R542). -/
inductive Writer where
  | firmware | host | testPort
  deriving DecidableEq, Repr, Inhabited

/-- A register write that has no row of its own (R15): bytes to a BAR offset of a port (R458), or a 32-bit write in the
control processor's register space. -/
inductive RegTarget where
  | bar0 (p : PortId) (off : Nat) (bytes : List Byte)
  | bar2 (p : PortId) (off : Nat) (bytes : List Byte)
  | block (addr : Nat) (v : Word) (w : Writer)
  deriving DecidableEq, Repr, Inhabited

/-- A write that has no row of its own, and the RW1C bits of it whose events come in the same cycle (R16). -/
structure RegWrite where
  target : RegTarget
  arising : BitVec 64
  deriving DecidableEq, Repr, Inhabited

/-- What an MSI-X unmasking write clears (R470): one vector's mask bit or the Function Mask. -/
inductive Unmask where
  | vector (n : Nat)
  | function
  deriving DecidableEq, Repr, Inhabited

/-- The owner code of a stream (R333). -/
inductive Owner where
  | firmware | queueEngine | scheduler | square
  deriving DecidableEq, Repr, Inhabited

/-- A write of a stream's registers, and who makes it: the owner's is taken (R319). -/
structure StreamWrite where
  stream : Nat
  by_ : Owner
  deriving DecidableEq, Repr, Inhabited

/-- One stream of an ARM (R335): its number, ring and priority. -/
structure ArmStream where
  stream : Nat
  base : Nat
  region : Nat
  hostRing : Bool
  hostPort : PortId
  sizeLog2 : Nat
  prio : Nat
  tail : Nat
  deriving DecidableEq, Repr, Inhabited

/-- The buffer of a stream pair (R334): its size in 64 KiB units and where it lies. -/
structure PairBuffer where
  units : Nat
  inT1 : Bool
  slice : Nat
  block : Nat
  deriving DecidableEq, Repr, Inhabited

/-- An ARM (R335): a single stream, or a fill and a drain stream with their buffer. -/
structure ArmReq where
  owner : Owner
  fill : ArmStream
  drain : Option (ArmStream × PairBuffer)
  deriving DecidableEq, Repr, Inhabited

/-- Failing data and check lanes that a training measures (R294): the half of the channel, 0 to 3, and the lane within it. -/
abbrev Lanes := List (Nat × Nat)

/-- Who starts a traffic-generator run (R317): the firmware during step 4 of R296, HBM_DIAG or the firmware otherwise, or
the test port while the control processor is held in reset, with what the training it makes finds: the failing lanes, or none where
command or address lanes fail. -/
inductive TgSrc where
  | startup | normal | testPort (lanes : Option Lanes)
  deriving DecidableEq, Repr, Inhabited

/-- A sector of which a checker reads wrong symbols (R318): granule, sector, and the data lanes of the two pseudo-channels that
differed. -/
structure Mismatch where
  granule : Nat
  sector : Nat
  lanesLo : Word
  lanesHi : Word
  deriving DecidableEq, Repr, Inhabited

/-- What a core program of a LAYER step has its units do, on local-store offsets of a core (R196 to R203): one output element of the matrix unit,
from two rows of k elements and their block scales; a row of FP32 results converted to a format; a row summed; partial results added
slot by slot; a special function of one value. The programs' own encoding is the compiler's, so these are operands (DESIGN CHOICE, log entry 141). -/
inductive UnitOp where
  | dot (core fa fb k a b sa sb out : Nat)
  | convert (core f n src dst scales : Nat)
  | row (core n src dst : Nat)
  | slots (core n : Nat) (srcs : List Nat) (dst : Nat)
  | function (core fn src dst : Nat)
  deriving DecidableEq, Repr, Inhabited

/-- A write of TG_CTRL with START (R316, R317): who makes it, and the value. -/
structure TgStart where
  src : TgSrc
  ctrl : Word
  deriving DecidableEq, Repr, Inhabited

/-- A write of TG_CTRL with STOP (R316, R318): the channel, the value, and what the run has done by then: how many sectors, and which its checker
read wrong. -/
structure TgStopped where
  ch : Nat
  ctrl : Word
  written : Nat
  raw : List Mismatch
  deriving DecidableEq, Repr, Inhabited

/-- What a read of a sector meets (R286, R289): the symbols that have gone wrong in it since they were written, and the reads that arrive at the
controller before it: address and level of each. -/
structure ReadMeets where
  wrong : List Nat
  arrivals : List (Nat × Nat)
  deriving DecidableEq, Repr, Inhabited

/-- A piece of a migration's copy (R299, R304): the granule that it has got to, and those of it that could not be read. -/
structure CopyPiece where
  upTo : Nat
  bad : List Nat
  deriving DecidableEq, Repr, Inhabited

/-- What retraining, hard repair and test of a released source find (R294, R299): the failing lanes, or none where command or address lanes fail;
whether every row could be repaired; and the sectors that the test reads wrong. -/
structure SourceRepair where
  lanes : Option Lanes
  repaired : Bool
  raw : List Mismatch
  deriving DecidableEq, Repr, Inhabited

/-- A run's arrival at an input of a square; whether a word of the square's SRAM is lost then (R145, R632). -/
structure SquareInput where
  input : Nat
  bad : Bool
  deriving DecidableEq, Repr, Inhabited

/-- A reference's tile that lands, with the bytes that come from outside the device (R212). -/
structure LandedTile where
  ref : Nat
  bytes : List Byte
  deriving DecidableEq, Repr, Inhabited

/-- Where a completion goes (R494, R518): to a CQ or into a mailbox. -/
inductive PostTo where
  | cq (q : Nat)
  | mailbox (m : Nat)
  deriving DecidableEq, Repr, Inhabited

/-- Why a migration aborts (R303). -/
inductive MigAbort where
  | firmware | readBack | trainingLoss
  deriving DecidableEq, Repr, Inhabited

/-- What the flash profile of the fitted part gives (R421, R437, R439, R441, R444): pages of 16 KiB in a block, entries of the
retry table, rated cycles, read-disturb limit, corrected bits that call for refresh, least good spare blocks, T_READ and
T_SUSP in ns; and the garbage-collection reserve in bytes (R424, R429), whose size the manual leaves open (DESIGN CHOICE, log entry 69). -/
structure FlashProfile where
  pagesPerBlock : Nat
  retryEntries : Nat
  ratedCycles : Nat
  disturbLimit : Nat
  refreshBits : Nat
  spareMin : Nat
  tReadNs : Nat
  tSuspNs : Nat
  gcReserve : Nat
  deriving DecidableEq, Repr, Inhabited

/-- The board as the straps and the configuration record give it at start-up (R564, R584, R664), and what training and
self-tests find (R276, R294, R422, R622). -/
structure BootInputs where
  noFlash : Bool
  port1Off : Bool
  sris : Bool
  strap3 : Bool
  refclk : Bool
  installId : BitVec 64
  deviceNumber : Nat
  soleMember : Bool
  /-- ports whose link does not train or whose PERST# stays asserted (R475). -/
  untrained : List PortId
  boardRecord : List Byte
  sbAddress : Option Nat
  certOk : Bool
  /-- what training finds at a rate, by device channel * 4 + PIN_RATE code: the failing lanes, or none where command or address lanes
  fail; no failing lane where unlisted (R294, R296). What the checkers of step 4 read wrong, by device channel (R296). -/
  training : Table (Option Lanes)
  checks : Table (List Mismatch)
  /-- logical cores that fail the self-test (R622 step 6). -/
  failedCores : List Nat
  /-- flash: populated channels, smallest raw GiB among the dies, rate code, targets and LUNs per target, blocks of a LUN and the
  part's profile (R420 to R437). -/
  flashChannels : List Nat
  /-- populated channels that fail training at 1,600 MT/s (R422), and targets that fail Read ID or their parameter page (R421, R669). -/
  flashFailed : List Nat
  badTargets : List (Nat × Nat)
  flashDieGiB : Nat
  flashRate : Nat
  flashTargets : Nat
  flashLuns : Nat
  lunBlocks : Nat
  profile : FlashProfile
  /-- whether a valid system area exists (R446). -/
  systemArea : Bool
  deriving DecidableEq, Repr, Inhabited

/-- What manufacture writes into OTP and the boot flash (R584, R587, R596, R598): the device secret, the key digests of each algorithm,
the first image, and the certificate store. -/
structure Manufacture where
  uds : BitVec 256
  edKeys : List (BitVec 384)
  mldsaKeys : List (BitVec 384)
  image : List Byte
  certs : List Byte
  deriving DecidableEq, Repr, Inhabited

/-- What starts a device reset (R620). -/
inductive ResetCause where
  | pin (lowNs : Nat)
  | firmware
  deriving DecidableEq, Repr, Inhabited

/-- A configuration request of a port (R451, R452, R456): a read of a dword, or a write of one of the control fields the
manual gives a meaning to. -/
inductive CfgReq where
  | read (dword : Nat)
  | ats (on : Bool)
  | pri (on : Bool) (allocation : Nat)
  | msixEnable (on : Bool)
  | functionMask (on : Bool)
  | maxPayload (bytes : Nat)
  | maxReadRequest (bytes : Nat)
  deriving DecidableEq, Repr, Inhabited

/-- A completion that arrives for a device read of host memory (R343, R455). -/
inductive HostCpl where
  | data (bytes : List Byte)
  | poisoned | unsupported | completerAbort
  deriving DecidableEq, Repr, Inhabited

/-- One translation that ATS returns for a 4 KiB page of a block (R370, R371): log2 of the size it covers, the translated
address, rights, and Untranslated Only. -/
structure AtsEntry where
  size : Nat
  addr : Nat
  read : Bool
  write : Bool
  untranslated : Bool
  deriving DecidableEq, Repr, Inhabited

/-- A PRG Response code (R375). -/
inductive PrgCode where
  | success | invalidRequest | responseFailure
  deriving DecidableEq, Repr, Inhabited

/-- The physical outcome of a slice access (R632 to R635). -/
inductive SliceOutcome where
  | clean | corrected | uncorrectable
  deriving DecidableEq, Repr, Inhabited

/-- Who makes an access to device memory through a slice (R263, R269): a core's sequencer, a mover, a queue engine, a
batch scheduler, a square or a peer. -/
inductive Source where
  | core (n : Nat)
  | mover (quarter : Nat)
  | queueEngine (p : PortId)
  | scheduler (die : Nat)
  | square (die : Nat)
  | peer (device : Nat)
  deriving DecidableEq, Repr, Inhabited

/-- The hints of a cache access (R256). -/
inductive Hint where
  | keep | stream | lastUse | reserved
  deriving DecidableEq, Repr, Inhabited

/-- An atomic's issuer, address, width (64 bits or 32), operand and form (R262). -/
structure AtomicArgs where
  src : Source
  addr : Nat
  wide : Bool
  operand : BitVec 64
  fetching : Bool
  deriving DecidableEq, Repr, Inhabited

/-- A square of the tree (R35, R143): core-pair squares 0 to 2,047, quarter squares 0 to 63, die squares 0 to 7, and the
device square. -/
inductive SquareId where
  | pair (n : Nat) | quarter (n : Nat) | die (n : Nat) | device
  deriving DecidableEq, Repr, Inhabited

/-- What holds or releases a held block (R253). -/
inductive BlockOwner where
  | control
  | region (entry : Nat)
  | run (id : Nat)
  | tables (die : Nat)
  | squares
  | pairBuffer (quarter stream : Nat)
  deriving DecidableEq, Repr, Inhabited

/-- What training of a Denop port finds (R551 to R555): for each physical receive lane the logical lane its frames name (none
when it shows no signal, fails to lock or names no valid lane), whether it is inverted and whether its frame errors exceed
10^-6; logical transmit lanes the far end reports unusable; the far end's identity; the one-way delay. -/
structure TrainObs where
  laneNames : List (Option Nat)
  inverted : List Bool
  noisy : List Bool
  anySignal : Bool
  txUnusable : List Nat
  peerInstall : BitVec 64
  peerDevice : Nat
  delayNs : Nat
  deriving DecidableEq, Repr, Inhabited

/-- A packet between devices (R561, R562): the header fields and the payload. LENGTH counts the payload's bytes; in a READ_REQ, which has
no payload, the bytes it asks for. -/
structure Packet where
  length : Nat
  type : Nat
  cls : Nat
  prio : Nat
  dest : Nat
  src : Nat
  hops : Nat
  window : Nat
  gen : Nat
  offset : Nat
  txn : Nat
  pcrcOk : Bool
  payload : List Byte
  deriving DecidableEq, Repr, Inhabited

/-- A flit as it arrives (R558, R559): its number, whether FLIT_CHECK passes, the FEC codewords that were corrected and that were not,
and its 252 bytes. -/
structure Flit where
  number : Nat
  good : Bool
  corrected : Nat
  uncorrected : Nat
  bytes : List Byte
  deriving DecidableEq, Repr, Inhabited

/-- A result entry as a shard sends it (R149, R152). -/
structure ShardEntry where
  key : BitVec 32
  vid : BitVec 48
  attr : BitVec 64
  deriving DecidableEq, Repr, Inhabited

/-- A sharded search as a shard receives it (R572): the exchange, the coordinator, collection, snapshot, the submission
entry, the FP32 query, the filter terms, and the round's probe count and budget. -/
structure ShardReq where
  coordinator : Nat
  txn : Nat
  handle : BitVec 32
  snapshot : Nat
  entry : BitVec 1024
  query : List F32
  terms : List (BitVec 64)
  probes : Nat
  budget : Nat
  deriving DecidableEq, Repr, Inhabited

/-- A LEASE packet (R412 to R414, R576). -/
inductive LeaseMsg where
  | request (borrower hops : Nat)
  | grant (lender lease window gen : Nat)
  | revoke (lender lease : Nat)
  | release (borrower lease : Nat)
  deriving DecidableEq, Repr, Inhabited

/-- A RUN_CTL packet of a sliced run (R233, R234). -/
inductive RunCtl where
  | start (coordinator run : Nat) (setId cls : Nat)
  | startReport (run slice : Nat)
  | go (coordinator run : Nat)
  | finish (device run : Nat) (coordinates : Bool)
  deriving DecidableEq, Repr, Inhabited

/-- A link of the installation as a flooded TOPOLOGY packet reports it (R566): two devices and whether the link carries
traffic. -/
structure LinkInfo where
  a : Nat
  aPort : Nat
  b : Nat
  bPort : Nat
  up : Bool
  deriving DecidableEq, Repr, Inhabited

/-- Why a core is spared (R636). -/
inductive CoreFailure where
  | uncorrectable | corrected8 | confirmedFault | selfTest
  deriving DecidableEq, Repr, Inhabited

/-- What goes wrong on a core while its program runs: the program itself (R246), an uncorrectable word of its local store at an offset, a table
bank that holds tables of batch members, its program memory (R632). -/
inductive CoreEvent where
  | program
  | localStore (off : Nat)
  | tableBank (members : List Nat)
  | programMemory
  deriving DecidableEq, Repr, Inhabited

/-- A core that ends a tile, or meets an event of its own while it scores it (R121, R246, R632). -/
structure ScoredTile where
  core : Nat
  fault : Option CoreEvent
  deriving DecidableEq, Repr, Inhabited

/-- What a LAYER step does (R212): the run, its units' work, or an event of a core. -/
structure LayerWork where
  run : Nat
  ops : List UnitOp
  fault : Option (Nat × CoreEvent)
  deriving DecidableEq, Repr, Inhabited

/-- The commands of the block: one constructor a row. -/
inductive Instr where
  -- data-path commands (R490): port, pair, the 128-byte entry, the bytes of the input buffer
  | search (p : PortId) (q : Nat) (e : BitVec 1024) (inp : List Byte)
  | insert (p : PortId) (q : Nat) (e : BitVec 1024) (inp : List Byte)
  | upsert (p : PortId) (q : Nat) (e : BitVec 1024) (inp : List Byte)
  | delete (p : PortId) (q : Nat) (e : BitVec 1024) (inp : List Byte)
  | fetch (p : PortId) (q : Nat) (e : BitVec 1024) (inp : List Byte)
  | flush (p : PortId) (q : Nat) (e : BitVec 1024) (inp : List Byte)
  | abort (p : PortId) (q : Nat) (e : BitVec 1024) (inp : List Byte)
  | tierMove (p : PortId) (q : Nat) (e : BitVec 1024) (inp : List Byte)
  | park (p : PortId) (q : Nat) (e : BitVec 1024) (inp : List Byte)
  | wake (p : PortId) (q : Nat) (e : BitVec 1024) (inp : List Byte)
  -- admin commands
  | identify (src : AdminSrc)
  | getLogPage (src : AdminSrc)
  | getFeatures (src : AdminSrc)
  | setFeatures (src : AdminSrc)
  | queueCreate (src : AdminSrc)
  | queueDelete (src : AdminSrc)
  | queueResume (src : AdminSrc)
  | fwDownload (src : AdminSrc)
  | fwCommit (src : AdminSrc)
  | fwActivate (src : AdminSrc)
  | attest (src : AdminSrc)
  | collectionCreate (src : AdminSrc) (replies : List MemberReply)
  | collectionSet (src : AdminSrc)
  | collectionDelete (src : AdminSrc)
  | collectionRetrain (src : AdminSrc)
  | collectionRebuild (src : AdminSrc)
  | listSplit (src : AdminSrc)
  | scheduleLoad (src : AdminSrc)
  | scheduleUnload (src : AdminSrc)
  | scheduleBind (src : AdminSrc)
  | regionAlloc (src : AdminSrc)
  | regionFree (src : AdminSrc)
  | hbmMigrate (src : AdminSrc)
  | hbmDiag (src : AdminSrc)
  | diagRead (src : AdminSrc)
  -- host register writes and reads
  | sqTail (p : PortId) (q : Nat) (v : Word) (narrow : Bool)
  | cqHead (p : PortId) (q : Nat) (v : Word) (narrow : Bool)
  | enable (p : PortId)
  | queueReset (p : PortId)
  | quiesce (p : PortId) (v : Bool)
  | eventStatusClear (p : PortId) (mask : Word) (arising : BitVec 6)
  | eventMaskWrite (p : PortId) (mask : Word)
  | islandCountLoRead (p : PortId)
  | mailboxSubmit (p : PortId) (m : Nat) (ctrl : Word)
  | msixUnmask (p : PortId) (what : Unmask)
  | registerWrite (w : RegWrite)
  -- control-processor registers with rows of their own
  | streamArm (q : Nat) (a : ArmReq)
  | streamStop (q : Nat) (w : StreamWrite)
  | streamResume (q : Nat) (w : StreamWrite)
  | ringTailWrite (q : Nat) (w : StreamWrite) (tail : Nat)
  | tgRunStart (ch : Nat) (w : TgStart)
  | tgStop (w : TgStopped)
  | tgRunDone (ch : Nat) (raw : List Mismatch)
  | migrationStart (ch : Nat) (ctrl : Word)
  | migrationAbort (ch : Nat) (why : MigAbort)
  | peakClear (c : Nat)
  -- sideband
  | sbSetOffset (w : BitVec 16)
  | sbBlockWrite (bytes : List Byte)
  | sbBlockRead (n : Nat)
  | sbSubmit (len : BitVec 16)
  | sbReadStatus
  | powerLimitSet (w : BitVec 16)
  | powerRead
  | sbDeviceReset (w : BitVec 16)
  | railFaultRead
  | sbBusTimeout
  -- power, resets and link events of a port
  | startUp (b : BootInputs)
  | powerDown
  | railFault (rail : Nat) (above : Bool)
  | deviceReset (cause : ResetCause)
  | fundamentalReset (p : PortId)
  | hotReset (p : PortId)
  | dlDown (p : PortId)
  | functionLevelReset (p : PortId)
  | portResetEnd (p : PortId)
  | configRequest (p : PortId) (r : CfgReq)
  | d3hotEntry (p : PortId)
  | d0Return (p : PortId)
  | busMasterEnable (p : PortId) (on : Bool)
  | poisonedWrite (p : PortId)
  | unsupportedRequest (p : PortId)
  | completionTimeout (p : PortId) (piece : Nat)
  | hostCompletion (p : PortId) (piece : Nat) (c : HostCpl)
  -- host translation
  | translationCompletion (p : PortId) (block : Nat) (ts : List AtsEntry)
  | invalidateRequest (p : PortId) (itag base size : Nat)
  | invalidateCompletion (p : PortId) (itag : Nat)
  | prgResponse (p : PortId) (index : Nat) (code : PrgCode)
  | priTimeout (p : PortId) (index : Nat)
  | hotPeriod (p : PortId)
  -- admission and completion
  | commandAdmit (cmd : Nat)
  | completionPost (cmd : Nat) (p : PortId) (place : PostTo)
  | aggTime (p : PortId) (q : Nat)
  | sqFetchFailure (p : PortId) (q : Nat) (fault : Bool)
  -- commits and maintenance
  | commitWindowExpiry (coll group : Nat)
  | commit (coll group : Nat)
  | stagedAppend (coll list : Nat)
  | ceilingRaise (coll : Nat)
  | idCeilingRaise (coll : Nat)
  | imageWrite (coll : Nat)
  | compaction (coll list : Nat)
  | cutover (coll : Nat)
  -- search
  | coarsePass (die coll : Nat)
  | batchLaunch (batch : Nat) (cores grants : List Nat)
  | batchHoldExpiry (batch : Nat) (cores grants : List Nat)
  | tileScored (x : ScoredTile)
  | squareRun (cmd : Nat) (sq : SquareId) (x : SquareInput)
  | squareEnd (cmd : Nat) (sq : SquareId) (input : Nat)
  | tileBoundExpiry (tile : Nat)
  -- model runs
  | runLaunch (run : Nat) (quarters grants : List Nat)
  | runHoldExpiry (run : Nat) (quarters grants : List Nat)
  | tileIssue (run : Nat)
  | tileLanded (run : Nat) (x : LandedTile)
  | tokenise (run : Nat)
  | layer (x : LayerWork)
  | peerReduce (run : Nat)
  | output (run : Nat)
  | deadlineMiss (run ref : Nat)
  | stepCycleOverrun (run core : Nat)
  -- boulevards
  | descriptorFetch (q s : Nat) (bytes : List Byte)
  | copy (q s : Nat)
  | fill (q s : Nat)
  | marker (q s : Nat)
  | pieceIssue (q s : Nat)
  | pieceComplete (piece : Nat)
  -- alleys
  | alleyWrite (core slot : Nat) (hdr : BitVec 256)
  | alleyRead (core slot : Nat) (hdr : BitVec 256)
  | alleyComplete (core slot : Nat) (data : List Byte) (ok : Bool)
  -- shared cache
  | fence (core : Nat)
  | add (a : AtomicArgs)
  | fadd (a : AtomicArgs)
  | minUnsigned (a : AtomicArgs)
  | maxUnsigned (a : AtomicArgs)
  | minSigned (a : AtomicArgs)
  | maxSigned (a : AtomicArgs)
  | or (a : AtomicArgs)
  | cas (a : AtomicArgs) (compare : BitVec 64)
  | cacheRead (src : Source) (addr len : Nat) (hint : Hint) (o : SliceOutcome)
  | cacheWrite (src : Source) (addr : Nat) (bytes : List Byte) (hint : Hint)
  | granuleProbe (quarter addr : Nat) (keep : Bool)
  | wcEntryDrain (slice line : Nat)
  | blockGrant (slice block : Nat) (owner : BlockOwner)
  | blockRelease (slice block : Nat)
  -- HBM
  | hbmRead (addr level : Nat) (x : ReadMeets)
  | hbmWrite (addr level : Nat) (data : BitVec 256) (mask : BitVec 32)
  | patrolScrub (ch granule : Nat) (wrong : Table (List Nat))
  | rowRemap (ch bank row : Nat)
  | pageRetire (page : Nat) (lost : BitVec 2)
  | migrationCopyDone (ch : Nat) (x : CopyPiece)
  | drainMarker (ch unit : Nat)
  | migrationRepair (ch : Nat) (x : SourceRepair)
  | channelLost (ch : Nat)
  | repairRecordWrite
  -- tiers
  | evictionSwitch (coll : Nat) (obj : ObjKind)
  | moveSwitch (cmd : Nat)
  | wakeSwitch (coll : Nat)
  | deferLimitExpiry (cmd : Nat)
  | moveDeadline (cmd : Nat)
  | t4BackingWrite (tile : Nat)
  | revokeGraceExpiry (lease : Nat)
  -- flash
  | flashRead (page level : Nat) (tries : Nat) (corrected : List Nat) (softOk : Bool)
  | flashProgram (tile : Nat) (loc : Nat) (pass : Bool)
  | flashErase (block : Nat) (pass : Bool)
  | pageRecovery (page : Nat) (ok : Bool)
  | flashRefresh (block : Nat)
  | flashPatrol (block : Nat) (retries : Nat) (corrected : List Nat)
  | garbageCollection (lun : Nat)
  | wearLevelling (die : Nat)
  | flashChannelRetrain (ch : Nat) (rate : Option Nat)
  -- Denop links
  | linkTraining (port : Nat) (o : TrainObs)
  | laneFailure (port lane : Nat)
  | retrainTimer (port : Nat)
  | linkTimeout (port : Nat)
  | flitReceive (port : Nat) (f : Flit)
  | sendKeepalive (port : Nat)
  | peerTimeout (txn : Nat)
  | routeSwitch (device port : Nat)
  | packetForward (port : Nat) (k : Packet)
  | readReq (k : Packet)
  | writeReq (k : Packet)
  | atomicReq (k : Packet)
  | readRsp (txn : Nat) (bytes : List Byte)
  | writeAck (txn : Nat)
  | atomicRsp (txn : Nat) (old : BitVec 64)
  | windowFault (txn : Nat)
  | shardReq (r : ShardReq)
  | shardRun (cmd device : Nat) (es : List ShardEntry)
  | shardEnd (cmd device : Nat) (st : Status) (lists matches_ : Nat)
  | shardCancel (coordinator txn : Nat)
  | forwardCmd (src txn : Nat) (e : BitVec 1024) (inp : List Byte)
  | forwardCpl (cmd device : Nat) (cpl : BitVec 256) (result : List Byte)
  | epochBeacon (handle : BitVec 32) (epoch : Nat)
  | runCtl (m : RunCtl)
  | adminFan (src : Nat) (e : BitVec 1024) (inp : List Byte) (idx : Nat)
  | lease (m : LeaseMsg)
  | shardRerank (coordinator txn : Nat) (cross : Bool) (ids : List (Nat × BitVec 48))
  | shardRerankRsp (cmd device : Nat) (st : Status) (ds : List (Nat × F32)) (toks : List (Nat × List (BitVec 32)))
  | ack (port n : Nat)
  | nak (port n : Nat)
  | credit (port vc flits : Nat)
  | keepalive (port : Nat)
  | topology (links : List LinkInfo)
  -- islands and power
  | pllLoss (island : Nat)
  | crossingParityError (c : Nat)
  | dp1Entry
  | dp1Exit
  | dp2Entry
  | dp3Entry
  | dpEntryComplete
  | dpExit
  | thermalSample (readings : List Int)
  | throttleStep (sensor : Nat)
  | powerLimitStep
  | telemetryPoll (rails : List (Option (Nat × Nat))) (estimates : List Nat)
  -- repair
  | coreSpare (core : Nat) (why : CoreFailure)
  | quarterRepair (quarter : Nat) (badCores : List Nat) (pass : Bool)
  | collectionRepair (coll : Nat)
  | watchdogExpiry
  | pllLock (island : Nat)
  | devrstNRelease
  | pmbAlert
  | testPortAccess
  | provisioning (m : Manufacture)
  | securityBlockFault
  deriving DecidableEq, Repr, Inhabited

end Sys2Proof
end

