-- ==== Sys2Proof/Config.lean ====
section
/-! DEFINITION. What an implementation fixes and what the manual leaves free: constants without a body, of which
nothing can be proved but what holds of every value (DESIGN CHOICE, log entries 9 and 10). -/

namespace Sys2Proof.Config

/-- PCI-SIG vendor identifier of Calsity (R451, R527): the manual names it and gives no value. -/
opaque vendorId : BitVec 16

/-- Device Serial Number (R452, R527). -/
opaque serial : BitVec 64

/-- Silicon stepping (R451, R527). -/
opaque stepping : BitVec 8

/-- Configuration-space dwords the manual leaves to the base specification (R452): by dword number. -/
opaque cfgDword : Nat → BitVec 32

/-- The choice of pseudo-LRU (R251), whose tree the manual does not give: by a running count of choices. -/
opaque victim : Nat → Nat

/-- The set of the DTC in which a translation lies (R369), whose index the manual does not give: by base address and size. -/
opaque dtcSet : Nat → Nat → Nat

/-- The boot ROM's version, which MEAS0 covers (R594): the manual gives no value. -/
opaque romVersion : BitVec 32

/-- SHA-384 of a byte string (R582, FIPS 180-4). -/
opaque sha384 : List Byte → BitVec 384

/-- Ed25519 verification of a 64-byte signature by a 32-byte key over a message (R582, RFC 8032). -/
opaque edVerify : List Byte → List Byte → List Byte → Bool

/-- ML-DSA-65 verification of a 3,309-byte signature by a 1,952-byte key over a message (R582, FIPS 204). -/
opaque mldsaVerify : List Byte → List Byte → List Byte → Bool

/-- The Ed25519 identity signature made from the device secret over a message (R597, R601): 64 bytes. -/
opaque edSign : BitVec 256 → List Byte → List Byte

/-- The ML-DSA-65 identity signature made from the device secret over a message (R597, R601): 3,309 bytes. -/
opaque mldsaSign : BitVec 256 → List Byte → List Byte

/-- The Ed25519 identity public key derived from the device secret (R597): 32 bytes. -/
opaque edPublic : BitVec 256 → List Byte

/-- The ML-DSA-65 identity public key derived from the device secret (R597): 1,952 bytes. -/
opaque mldsaPublic : BitVec 256 → List Byte

/-- The tokens of a text under a schedule's vocabulary (R221: the format is the compiler's): vocabulary, text. -/
opaque tokens : List Byte → List Byte → List (BitVec 32)

/-- The vector an embedding schedule gives for one token sequence (R204: a function of the sequence, the image and the
firmware major version): image, major version, tokens. -/
opaque embed : List Byte → Nat → List (BitVec 32) → List F32

/-- The relevance a cross-encoder schedule gives for one pair (R204, R231): image, major version, query tokens,
candidate tokens. -/
opaque relevance : List Byte → Nat → List (BitVec 32) → List (BitVec 32) → F32

/-- The sector that a traffic generator writes in the modes WALK1 and PRBS31 (R316, R318), whose bit patterns the manual does not
give: mode, seed, sector number. -/
opaque tgPattern : Nat → BitVec 32 → Nat → BitVec 256

/-- The order in which a run with ADDR_MODE LFSR reaches the sectors of its range (R316), which the manual does not give: seed, sector. -/
opaque tgOrder : BitVec 32 → Nat → Nat

/-- The E2M1 pattern of a NaN, the E8M0 scale of a block of zeros in an MX format (R201), and a special function of the vector unit (R202): firmware
major version, function, argument. -/
opaque nanE2m1 : BitVec 32 → BitVec 4
opaque mxZeroScale : Nat → BitVec 8
opaque vecFunction : Nat → Nat → BitVec 32 → BitVec 32

/-- A scalar register of a core as its last user left it (R242, R245): a running count, the register. -/
opaque scalar : Nat → Nat → BitVec 64

/-- The number of the window that a device opens for the partial sums of other slices (R576), which the manual does not give: by device. -/
opaque sliceWindow : Nat → Nat

/-- Values the manual leaves undefined or states no result for, one for each running count: bytes of a result range whose
write failed (R673), log details no rule gives. -/
opaque freeByte : Nat → Byte

/-- What a byte of a core's program area holds after a batch or a run, on which its next user cannot rely (R242): a running count,
and the byte's place in the local stores. -/
opaque localByte : Nat → Nat → Byte

/-- A 64-bit value the manual does not give, one for each running count. -/
opaque freeWord : Nat → BitVec 64

end Sys2Proof.Config
end

