-- ==== Sys2Proof/Machine/State.lean ====
section
/-! DEFINITION. The state of the block as plain data, and the state right after a power-on reset. Each field's docstring names
the rule that gives it and its reset value; a value without a rule of its own is the model's choice (DESIGN CHOICE, log entry 1). -/

namespace Sys2Proof.Machine

open Sys2Proof

/-- Byte memory: addresses strictly rising, no entry equal to what an unlisted address reads as (zero, DESIGN CHOICE, log entry 2). -/
abbrev Memory := List Host.Cell

/-! ## Host ports (13_host_interface.md) -/

/-- STATE of a queue pair (R467). -/
inductive QState where
  | absent | active | frozen | deleting
  deriving DecidableEq, Repr, Inhabited

/-- A queue pair of a port (R464, R467, R481 to R487). -/
structure QueuePair where
  /-- STATE (R467). Reset: ABSENT. -/
  state : QState := .absent
  /-- Host address of the SQ (R483). Reset: 0. -/
  sqBase : Nat := 0
  /-- Host address of the CQ (R483). Reset: 0. -/
  cqBase : Nat := 0
  /-- Entries of the SQ (R481). Reset: 0. -/
  sqEntries : Nat := 0
  /-- Entries of the CQ (R481). Reset: 0. -/
  cqEntries : Nat := 0
  /-- SQ_HEAD, 16 bits (R467). Reset: 0. -/
  sqHead : Nat := 0
  /-- SQ_TAIL, 16 bits (R467). Reset: 0. -/
  sqTail : Nat := 0
  /-- CQ_HEAD, 16 bits (R467). Reset: 0. -/
  cqHead : Nat := 0
  /-- CQ_TAIL, 16 bits (R467). Reset: 0. -/
  cqTail : Nat := 0
  /-- OUTSTANDING, 16 bits (R467). Reset: 0. -/
  outstanding : Nat := 0
  /-- CQ_FULL (R467). Reset: 0. -/
  cqFull : Bool := false
  /-- DB_ERROR, RW1C (R467). Reset: 0. -/
  dbError : Bool := false
  /-- FREEZE_INFO.STATUS (R467). Reset: 0. -/
  freezeStatus : BitVec 16 := 0
  /-- FREEZE_INFO.TAG (R467). Reset: 0. -/
  freezeTag : BitVec 16 := 0
  /-- COMPLETED, wrapping (R467). Reset: 0. -/
  completed : BitVec 32 := 0
  /-- MSI-X vector (R468). Reset: 0. -/
  vector : Nat := 0
  /-- IEN (R483). Reset: 0. -/
  ien : Bool := false
  /-- AGG_COUNT (R469). Reset: 0. -/
  aggCount : Nat := 0
  /-- AGG_TIME in µs (R469). Reset: 0. -/
  aggTime : Nat := 0
  /-- URGENT (R485). Reset: 0. -/
  urgent : Bool := false
  /-- PHASE of the pass through the CQ (R495). Reset: 1. -/
  phase : Bool := true
  /-- Entries written and not yet signalled (R469). Reset: 0. -/
  unsignalled : Nat := 0
  /-- The command whose CQ write failed and is repeated after QUEUE_RESUME (R482). Reset: none. -/
  heldWrite : Option Nat := none
  /-- Replays in a row of its next fetch that faulted (R376). Reset: 0. -/
  replays : Nat := 0
  /-- The READ right of its next entry cannot be obtained: the fetch ends with HOST_FAULT (R482). Reset: no. -/
  fetchErr : Bool := false
  /-- The QUEUE_DELETE commands that wait for the pair's commands (R484). Reset: none. -/
  deleteCmds : List Nat := []
  deriving DecidableEq, Repr, Inhabited

/-- An MSI-X table entry with its pending bit (R452, R470). -/
structure MsixEntry where
  /-- Message Address (R452). Reset: 0. -/
  addr : BitVec 64 := 0
  /-- Message Data (R452). Reset: 0. -/
  data : Word := 0
  /-- The vector's mask bit (R470). Reset: 1 (the base specification's, PRESUMED, log entry 13). -/
  masked : Bool := true
  /-- The PBA bit (R470). Reset: 0. -/
  pending : Bool := false
  deriving DecidableEq, Repr, Inhabited

/-- A mailbox (R471, R472). -/
structure Mailbox where
  /-- MB_CTRL.VECTOR (R471). Reset: 0. -/
  vector : Nat := 0
  /-- MB_CTRL.INTR_EN (R471). Reset: 0. -/
  intrEn : Bool := false
  /-- MB_STATUS.SEQ, wrapping (R471). Reset: 0. -/
  seq : BitVec 16 := 0
  /-- MB_STATUS.REFUSED, RW1C (R471). Reset: 0. -/
  refused : Bool := false
  /-- MB_STATUS.DONE, RW1C (R471). Reset: 0. -/
  done : Bool := false
  /-- MB_STATUS.OWNER, true for FIRMWARE (R471). Reset: HOST. -/
  firmware : Bool := false
  /-- Whether the firmware has started the request it owns (R522). Reset: no. -/
  started : Bool := false
  /-- A port reset came while the firmware owned it: the request is served and its response discarded (R477). Reset: no. -/
  discard : Bool := false
  /-- MB_REQ_LEN (R471). Reset: 0. -/
  reqLen : Nat := 0
  /-- MB_RSP_LEN (R471). Reset: 0. -/
  rspLen : Nat := 0
  /-- The 4 KiB data buffer (R471). Reset: zeros (DESIGN CHOICE, log entry 2). -/
  buf : Memory := []
  deriving DecidableEq, Repr, Inhabited

/-- A host translation held in a DTC (R370). -/
structure DtcEntry where
  base : Nat
  sizeLog2 : Nat
  addr : Nat
  read : Bool
  write : Bool
  untranslated : Bool
  deriving DecidableEq, Repr, Inhabited

/-- An outstanding Translation Request: its 64 KiB block, whether an invalidation made it stale, the accesses that wait on it,
and the page requests it serves the replay of (R371, R375, R381). -/
structure TransReq where
  block : Nat
  stale : Bool
  waiters : List Nat
  deriving DecidableEq, Repr, Inhabited

/-- An open page-request entry (R374): its 4 KiB page, the waiting pieces, whether a write right is asked, and whether its
waiters have already failed by PRI_TIMEOUT (R377). -/
structure PageReq where
  page : Nat
  waiters : List Nat
  write : Bool
  expired : Bool
  deriving DecidableEq, Repr, Inhabited

/-- An invalidation whose drain is in progress (R380): its ITag, the generation it started. -/
structure Invalidation where
  itag : Nat
  gen : Nat
  deriving DecidableEq, Repr, Inhabited

/-- An access counter of a 2 MiB host page (R390, R391). -/
structure HotCounter where
  count : Nat
  marked : Bool
  deriving DecidableEq, Repr, Inhabited

/-- A hot-page record (R391, R533). -/
structure HotRecord where
  addr : Nat
  count : Nat
  stamp : Nat
  deriving DecidableEq, Repr, Inhabited

/-- Host translation of a port and the registers of its translation block (R367 to R383, R394). -/
structure Xlt where
  /-- XLT_STATUS.ATS_ON (R394). Reset: 0. -/
  atsOn : Bool := false
  /-- XLT_STATUS.PRI_ON (R394). Reset: 0. -/
  priOn : Bool := false
  /-- XLT_STATUS.PRI_STOPPED (R375, R394). Reset: 0. -/
  priStopped : Bool := false
  /-- Outstanding Page Request Allocation the host grants (R374). Reset: 0. -/
  allocation : Nat := 0
  /-- Host entries of the DTC (R369, R370). Reset: empty. -/
  dtc : List DtcEntry := []
  /-- Translation Requests outstanding (R371). Reset: none. -/
  reqs : List TransReq := []
  /-- Blocks that wait, 64 requests being outstanding, with who asked (R371). Reset: none. -/
  asks : List (Nat × Nat) := []
  /-- Page-request table by PRG index (R374). Reset: empty. -/
  pages : Table PageReq := []
  /-- Pieces whose fault waits for the allocation (R374). Reset: none. -/
  starved : List Nat := []
  /-- Translation generation (R380). Reset: 0. -/
  gen : Nat := 0
  /-- Invalidations awaiting their drain (R380, R383). Reset: none. -/
  invs : List Invalidation := []
  /-- DTC_HITS, wrapping (R394). Reset: 0. -/
  hits : BitVec 32 := 0
  /-- DTC_MISSES, wrapping (R394). Reset: 0. -/
  misses : BitVec 32 := 0
  /-- PR_SENT, wrapping (R394). Reset: 0. -/
  prSent : BitVec 32 := 0
  /-- PR_MERGED, wrapping (R394). Reset: 0. -/
  prMerged : BitVec 32 := 0
  /-- INV_DONE, wrapping (R394). Reset: 0. -/
  invDone : BitVec 32 := 0
  /-- Access counters by 2 MiB page (R390). Reset: none. -/
  counters : Table HotCounter := []
  /-- HOT_DROPPED, saturating (R394). Reset: 0. -/
  hotDropped : Nat := 0
  /-- Hot-page log, oldest first, at most 1,024 records (R391, R533). Reset: empty. -/
  hotLog : List HotRecord := []
  /-- RECORDS appended since reset, wrapping (R533). Reset: 0. -/
  hotTotal : BitVec 64 := 0
  deriving DecidableEq, Repr, Inhabited

/-- What a port sends to its host, in posted order (R343, R454): result bytes, completion entries, MSI-X messages,
read requests, ATS messages, register reads and configuration answers. -/
inductive PortOut where
  | result (addr : Nat) (bytes : List Byte) (translated : Bool)
  | cqe (q index : Nat) (entry : BitVec 256)
  | msix (vector : Nat)
  | write (piece addr : Nat) (bytes : List Byte) (translated : Bool)
  | readReq (piece addr len : Nat) (translated : Bool)
  | transReq (block : Nat)
  | pageReq (index page : Nat) (write : Bool)
  | invalidateCompletion (itag : Nat)
  | regRead (v : Word)
  | cfgRead (v : Option Word)
  | cfgRetry
  | unsupported
  deriving DecidableEq, Repr, Inhabited

/-- Errors that AER reports (R455). -/
inductive AerError where
  | poisonedTlp | completion | timeout
  deriving DecidableEq, Repr, Inhabited

/-- A PCIe port (R460, R471, R476 to R480). -/
structure Port where
  /-- PORT_STATUS.READY (R460). Reset: 0. -/
  ready : Bool := false
  /-- Configuration space answers without retry (R456). Reset: no. -/
  configReady : Bool := false
  /-- A port reset is in progress (R476, R479). Reset: no. -/
  inReset : Bool := false
  /-- Held in reset by PORT1_OFF or an untrained link (R475, R664). Reset: no. -/
  heldOff : Bool := false
  /-- PORT_CTRL.QUIESCE (R460). Reset: 0. -/
  quiesce : Bool := false
  /-- PORT_CTRL.ENABLE, the last value written (R15, R460). Reset: 0. -/
  enable : Bool := false
  /-- PORT_STATUS.ENABLED (R460, R463). Reset: 0. -/
  enabled : Bool := false
  /-- PORT_STATUS.CONFIG_ERROR (R460). Reset: 0. -/
  configError : Bool := false
  /-- ADMIN_SQ base, 64 bits with [11:0] zero (R460). Reset: 0. -/
  adminSq : BitVec 64 := 0
  /-- ADMIN_CQ base (R460). Reset: 0. -/
  adminCq : BitVec 64 := 0
  /-- ADMIN_QSIZE.ASQ_ENTRIES_M1 (R460). Reset: 0. -/
  asqM1 : Nat := 0
  /-- ADMIN_QSIZE.ACQ_ENTRIES_M1 (R460). Reset: 0. -/
  acqM1 : Nat := 0
  /-- EVENT_STATUS, RW1C (R460). Reset: 0. -/
  eventStatus : BitVec 6 := 0
  /-- EVENT_MASK (R460). Reset: 0. -/
  eventMask : BitVec 6 := 0
  /-- Event bits that set while masked and have not signalled (R462). Reset: 0. -/
  eventOwed : BitVec 6 := 0
  /-- EVENT_VECTOR (R460). Reset: 0. -/
  eventVector : Nat := 0
  /-- ISLAND_COUNT_HI as latched (R461). Reset: 0. -/
  countHi : Word := 0
  /-- BUSY_RETRY_COUNT, saturating (R460). Reset: 0. -/
  busyRetry : Nat := 0
  /-- DOORBELL_ERRORS.COUNT, saturating 16 bits (R460). Reset: 0. -/
  dbErrors : Nat := 0
  /-- DOORBELL_ERRORS.LAST_QUEUE (R460). Reset: 0. -/
  dbLast : Nat := 0
  /-- Queue pairs by number (R481). Reset: all ABSENT. -/
  pairs : Table QueuePair := []
  /-- The URGENT pair and the other pair that the fetch serves, with the entries taken in the turn (R486; DESIGN CHOICE, log entry 127).
  Reset: pair 0, none taken. -/
  turnUrgent : Nat × Nat := (0, 0)
  turnOther : Nat × Nat := (0, 0)
  /-- MSI-X table and PBA by vector (R452). Reset: all masked, none pending. -/
  msix : Table MsixEntry := []
  /-- MSI-X Enable (R470). Reset: 0 (the base specification's, PRESUMED, log entry 13). -/
  msixEnable : Bool := false
  /-- MSI-X Function Mask (R470). Reset: 0 (the base specification's, PRESUMED, log entry 13). -/
  functionMask : Bool := false
  /-- Bus Master Enable (R480). Reset: 0 (the base specification's, PRESUMED, log entry 13). -/
  busMaster : Bool := false
  /-- The port is in D3hot (R480). Reset: D0. -/
  d3hot : Bool := false
  /-- Max_Payload_Size in bytes (R454). Reset: 128 (the base specification's, PRESUMED, log entry 13). -/
  maxPayload : Nat := 128
  /-- Max_Read_Request_Size in bytes (R454). Reset: 512 (the base specification's, PRESUMED, log entry 13). -/
  maxRead : Nat := 512
  /-- Errors AER has reported, oldest first (R455). Reset: none. -/
  aer : List AerError := []
  /-- Mailboxes 0 to 15 (R471). Reset: HOST, zeros. -/
  mailboxes : Table Mailbox := []
  /-- Host translation (R367 to R394). Reset: as Xlt. -/
  xlt : Xlt := {}
  /-- Port tags in use (R342). Reset: 0. -/
  tags : Nat := 0
  /-- PRI_TIMEOUT in ms, feature 0x03 (R534). Reset: 100. -/
  priTimeout : Nat := 100
  /-- HOT_THRESHOLD, feature 0x04 (R534). Reset: 128. -/
  hotThreshold : Nat := 128
  /-- HOT_PERIOD in ms, feature 0x05 (R534). Reset: 100. -/
  hotPeriod : Nat := 100
  /-- HOT_PERIOD that applies from the next period (R534). Reset: 100. -/
  hotPeriodNext : Nat := 100
  /-- The port's 64 MiB download buffer (R543). Reset: empty. -/
  download : List Byte := []
  /-- Everything the port has sent, oldest first (R343, R454; DESIGN CHOICE, log entry 6). Reset: nothing. -/
  sent : List PortOut := []
  /-- Writes and requests that wait in D3hot or without Bus Master Enable, oldest first (R480). Reset: none. -/
  waiting : List PortOut := []
  deriving DecidableEq, Repr, Inhabited

/-! ## Commands (14_command_queues.md) -/

/-- Where a command's completion goes (R495, R519, R574, R603): nowhere for a wake or a park that maintenance of a template makes of a
collection that references it (R195). -/
inductive Origin where
  | sq (p : PortId) (q : Nat)
  | mailbox (p : PortId) (m : Nat)
  | sideband
  | forwarded (src txn : Nat)
  | shard (coordinator txn : Nat)
  | firmware
  deriving DecidableEq, Repr, Inhabited

/-- The state word of an outstanding command (R513). -/
inductive CmdWord where
  | running | committing | ending
  deriving DecidableEq, Repr, Inhabited

/-- How far a command has come (R499, R516): checked and waiting for its reservations, admitted, decided (its completion is
fixed and not yet posted). -/
inductive Stage where
  | waiting | admitted | decided
  deriving DecidableEq, Repr, Inhabited

/-- The command-specific part of a completion entry (R494, R496). -/
structure Completion where
  epoch : Nat := 0
  dw2 : Nat := 0
  dw3 : Nat := 0
  resultLength : Nat := 0
  status : Status := .success
  logged : Bool := false
  logDropped : Bool := false
  clipped : Bool := false
  deriving DecidableEq, Repr, Inhabited

/-- Where a candidate's record lies (R137): a staging entry, a tile and slot, or a peer's entry with its attribute word
(R149). -/
inductive Loc where
  | staged (entry : Nat)
  | slot (tile slot : Nat)
  | peer (attr : BitVec 64)
  deriving DecidableEq, Repr, Inhabited

/-- A candidate: distance key, vector ID, location (R133, R137), and the distance itself once it is re-ranked (R151). -/
structure Cand where
  key : BitVec 32
  vid : BitVec 48
  loc : Loc
  dist : Option F32 := none
  deriving DecidableEq, Repr, Inhabited

/-- A square's work for one query (R144, R145). -/
structure SquareNode where
  /-- The running result R (R145). Reset: empty. -/
  running : List Cand := []
  /-- Inputs on which END has arrived (R144). Reset: none. -/
  ended : List Nat := []
  /-- Whether the square has sent its output run and END (R144). Reset: no. -/
  done : Bool := false
  deriving DecidableEq, Repr, Inhabited

/-- A run on its way to an input of a square (R142, R144). -/
structure Flight where
  square : SquareId
  input : Nat
  run : List Cand
  /-- its place in the order of arrivals (R148). -/
  arrived : Nat := 0
  deriving DecidableEq, Repr, Inhabited

/-- A distance table after quantisation (R103): entries by subquantiser and centroid, delta, base. -/
structure DistTable where
  e : List (List Nat) := []
  delta : F32 := 0
  base : F32 := 0
  deriving DecidableEq, Repr, Inhabited

/-- How far a search has come (R36, R572). -/
inductive SearchPhase where
  | idle | embedding | coarse | scanning | reranking | ready
  deriving DecidableEq, Repr, Inhabited

/-- The work of a search (R36, R93 to R156, R572). -/
structure SearchWork where
  /-- Step of R36 the search is in. Reset: idle. -/
  phase : SearchPhase := .idle
  /-- FP32 working query (R97). Reset: empty. -/
  query : List F32 := []
  /-- Filter terms (R96). Reset: none. -/
  terms : List (BitVec 64) := []
  /-- Text of a TEXT query or of the re-rank block (R97, R228). Reset: empty. -/
  text : List Byte := []
  /-- Number of the directory version it holds (R79). Reset: 0. -/
  dir : Nat := 0
  /-- LIST_COUNT at its snapshot (R95). Reset: 0. -/
  listCount : Nat := 0
  /-- Its place in the order of arrivals at the coarse stage (R101). Reset: 0. -/
  arrived : Nat := 0
  /-- Distance tables built for it, in the home dies' slices: by list, or under 2^20 the one that all lists share (R103, R106). Reset: none. -/
  tables : Table DistTable := []
  /-- Pages of T2 reserved as its scratch: the first and their number (R138, R147). Reset: none. -/
  scratch : Option (Nat × Nat) := none
  /-- Partial probe orders by die (R100). Reset: none. -/
  partials : Table (List (BitVec 32 × Nat)) := []
  /-- The first P' lists of the probe order (R100). Reset: empty. -/
  order : List Nat := []
  /-- Widening round (R129). Reset: 0. -/
  round : Nat := 0
  /-- Lists of the scanned sets so far (R109, R129). Reset: none. -/
  scanned : List Nat := []
  /-- Batches that hold the query and have not ended (R112). Reset: none. -/
  batches : List Nat := []
  /-- Squares' work, by square number (R144). Reset: none. -/
  squares : Table SquareNode := []
  /-- Runs on their way (R142). Reset: none. -/
  flights : List Flight := []
  /-- The merged run of the device square (R150). Reset: empty. -/
  merged : List Cand := []
  /-- On a shard, the round's P_r and B_r as the coordinator sent them (R132). Reset: none. -/
  given : Option (Nat × Nat) := none
  /-- Shards whose END has not arrived (R150, R572). Reset: none. -/
  shards : List Nat := []
  /-- Largest LISTS_SCANNED among the shards (R110). Reset: 0. -/
  shardLists : Nat := 0
  /-- Members whose re-rank answer has not arrived (R575). Reset: none. -/
  rerankWait : List Nat := []
  /-- Distances of re-ranked candidates by position in the merged run (R151, R575). Reset: none. -/
  dists : Table F32 := []
  /-- Token sequences of candidates by position (R230, R575). Reset: none. -/
  candTokens : Table (List (BitVec 32)) := []
  /-- Logical pages of T4 that have been read for its re-rank (R225). Reset: none. -/
  pagesRead : List Nat := []
  /-- Its cross-encoder pairs have joined their runs (R231). Reset: no. -/
  paired : Bool := false
  /-- On a shard, the positions on the coordinator of the candidates it re-ranks (R575). Reset: none. -/
  asked : List Nat := []
  deriving DecidableEq, Repr, Inhabited

/-- A prepared item of a mutation (R158 to R168): its ID once known, attribute word, input vector or text, stored vector,
working vector, and the tokens it keeps. -/
structure Item where
  attr : BitVec 64 := 0
  vid : BitVec 48 := 0
  data : List Byte := []
  full : List Byte := []
  working : List F32 := []
  /-- lists it goes to, nearest first (R80, R166), and its code for each. -/
  lists : List Nat := []
  codes : List (List Nat) := []
  tokens : List (BitVec 32) := []
  /-- staging entry that holds it (R167). -/
  entry : Nat := 0
  deriving DecidableEq, Repr, Inhabited

/-- The work of a mutation, FETCH, FLUSH, placement command or admin command. -/
structure OtherWork where
  /-- Items or IDs (R159). Reset: none. -/
  items : List Item := []
  /-- Staging bytes reserved (R168). Reset: 0. -/
  staged : Nat := 0
  /-- Items whose embedding has arrived (R164). Reset: 0. -/
  embedded : Nat := 0
  /-- The commit group it has joined, by number (R170). Reset: none. -/
  group : Option Nat := none
  /-- Groups a FLUSH waits for: collection INDEX and group (R182). Reset: none. -/
  flushOf : List (Nat × Nat) := []
  /-- Epochs a durable FLUSH or a PARK waits to become durable: collection INDEX and epoch (R183, R408). Reset: none. -/
  durableOf : List (Nat × Nat) := []
  /-- Members that have not answered a fanned-out or forwarded command (R411, R574). Reset: none. -/
  members : List Nat := []
  /-- Tiles a move copies (R405). Reset: none. -/
  tiles : List Nat := []
  /-- Places reserved for them in the target tier, as LOCATION holds them, and T4 tiles reserved as their backing, each in the order
  of `tiles` (R405). Reset: none. -/
  places : List Nat := []
  backing : List (Option Nat) := []
  /-- Object a placement command moves (R404). Reset: INDEX. -/
  obj : ObjKind := .index
  /-- Tier the object is moved to (R404). Reset: 0. -/
  target : Nat := 0
  /-- HBM channel of an HBM_MIGRATE (R542). Reset: none. -/
  channel : Option Nat := none
  /-- This device's part of a command that goes to every member is done (R411, R574). Reset: no. -/
  localDone : Bool := false
  /-- Command an ABORT waits for (R513). Reset: none. -/
  victim : Option Nat := none
  /-- PUBLISHED as a FLUSH has read it from the epoch home (R182). Reset: none. -/
  homeEpoch : Option Nat := none
  /-- What the members answered to a fanned-out creation (R569). Reset: none. -/
  replies : List MemberReply := []
  deriving DecidableEq, Repr, Inhabited

/-- A fetched command (R488, R499, R503). -/
structure Cmd where
  origin : Origin
  entry : BitVec 1024
  input : List Byte
  /-- Stage (R499). -/
  stage : Stage := .waiting
  /-- State word (R513). -/
  word : CmdWord := .running
  /-- Pins held: INDEX, VECTORS, TOKENS (R401). -/
  pinIndex : Bool := false
  pinVectors : Bool := false
  pinTokens : Bool := false
  /-- It waits for a wake (R409). -/
  waitsWake : Bool := false
  /-- It was fetched during the entry to a power state, or of class 0 in DP1: it is admitted, and its completion posted, in DP0
  (R515, R616). -/
  heldDp : Bool := false
  /-- A port reset detached it: its completion is discarded (R477). -/
  detached : Bool := false
  /-- The collection's EMBED and CROSS schedules and KEEP_TOKENS when it was fetched, which it keeps (R223). -/
  embed : BitVec 32 := 0
  cross : BitVec 32 := 0
  keepTokens : Bool := false
  /-- Tokens of its text were dropped (R221): TOKENS_CLIPPED. -/
  clipped : Bool := false
  /-- Snapshot, once taken (R37, R89). -/
  snapshot : Option Nat := none
  /-- Its completion, once decided. -/
  completion : Option Completion := none
  /-- Its result bytes, once decided (R506). -/
  result : List Byte := []
  /-- Replays in a row of its host access that faulted (R376). -/
  hostReplays : Nat := 0
  /-- The WRITE right of its result buffer, and of its completion entry, cannot be obtained (R482, R673). -/
  resultErr : Bool := false
  cqeErr : Bool := false
  /-- Its work as a SEARCH (R94). -/
  search : SearchWork := {}
  /-- Its work as another opcode (R159, R167). -/
  work : OtherWork := {}
  deriving DecidableEq, Repr, Inhabited

/-! ## Collections (02_collections_and_index.md, 05_ingest_and_maintenance.md) -/

/-- METRIC (R50, R536). -/
inductive Metric where
  | l2sq | ip | cosine
  deriving DecidableEq, Repr, Inhabited

/-- FULL_FORMAT (R50, R55). -/
inductive FullFormat where
  | none | fp32 | bf16 | fp16 | fp8e4m3 | int8
  deriving DecidableEq, Repr, Inhabited

/-- SPILL_MODE (R50, R80). -/
inductive SpillMode where
  | off | always | margin
  deriving DecidableEq, Repr, Inhabited

/-- RESIDENCY (R400). -/
inductive Residency where
  | resident | parking | parkedT3 | parkedT4 | waking
  deriving DecidableEq, Repr, Inhabited

/-- The attributes of a collection (R50, R536). -/
structure Attrs where
  session : Bool := false
  metric : Metric := .l2sq
  dim : Nat := 1
  fullFormat : FullFormat := .bf16
  int8Scale : F32 := 0x3F800000#32
  codeBits : Nat := 4
  codeBytes : Nat := 64
  residual : Bool := true
  listCount : Nat := 1
  spillMode : SpillMode := .off
  spillMargin : F32 := 0x3DCCCCCD#32
  hostIds : Bool := false
  localLimit : Nat := 1048576
  codebookSource : BitVec 32 := 0
  compactThreshold : Nat := 75
  /-- explicit RETAIN_FLOOR, or none for AUTO (R90). -/
  retainFloor : Option Nat := none
  stagingMiB : Nat := 16
  deriving DecidableEq, Repr, Inhabited

/-- A record in a segment (R72). -/
structure Rec where
  code : List Nat
  attr : BitVec 64
  vid : BitVec 48
  insLo : BitVec 16
  deriving DecidableEq, Repr, Inhabited

/-- A segment: its header's fields, records, tombstone block and origin block (R71 to R78, R92). -/
structure Segment where
  list : Nat
  base : Nat
  sealEpoch : Nat := 0
  cbGen : Nat
  recs : List Rec := []
  /-- delete epochs by slot, when TOMB_PRESENT (R78); none in an entry is infinity. -/
  tomb : Option (List (Option Nat)) := none
  /-- original insert epochs by slot, when ORIGIN_PRESENT (R92). -/
  origin : Option (List Nat) := none
  /-- first page of T2 of the tombstone block and of the origin block: TOMB_BLOCK and ORIGIN_BLOCK (R75). -/
  tombAt : Option Nat := none
  originAt : Option Nat := none
  deriving DecidableEq, Repr, Inhabited

/-- A staging entry (R167): its epochs (no insert epoch before the commit; no delete epoch is infinity), ID, attribute word,
lists, a code for each list and the stored full vector, the lists whose copy is appended with the number of the first directory
version that covers it (R118), and the tokens (R229). -/
structure Staged where
  cmd : Nat
  insE : Option Nat
  delE : Option Nat
  vid : BitVec 48
  attr : BitVec 64
  lists : List Nat
  codes : List (List Nat)
  full : List Byte
  working : List F32
  appended : List (Nat × Nat)
  tokens : List (BitVec 32)
  bytes : Nat
  deriving DecidableEq, Repr, Inhabited

/-- A version of the list directory (R79, R118): the segments of each list in order, the tail's slot limit of each list, the
codebook generation and LIST_COUNT it names, and the epoch from which it is used (R193). -/
structure DirVersion where
  number : Nat
  segs : Table (List Nat)
  limits : Table Nat
  cbGen : Nat
  listCount : Nat
  fromEpoch : Nat
  deriving DecidableEq, Repr, Inhabited

/-- A commit group (R170): its members in preparation order and whether it is closed. -/
structure Group where
  members : List Nat
  closed : Bool
  deriving DecidableEq, Repr, Inhabited

/-- An ID map entry (R65): the version's insert epoch, its staging entry, and its slots (tile, slot). -/
structure IdEntry where
  ins : Nat
  staged : Option Nat
  slots : List (Nat × Nat)
  deriving DecidableEq, Repr, Inhabited

/-- A version-log entry (R181): the ID, the commit that replaced the version, and where the old version lies. -/
structure VersionEntry where
  vid : BitVec 48
  epoch : Nat
  old : IdEntry
  deriving DecidableEq, Repr, Inhabited

/-- Which maintenance command is in progress (R190). -/
inductive MaintKind where
  | retrain | rebuild | split (list : Nat)
  deriving DecidableEq, Repr, Inhabited

/-- A maintenance command in progress (R190 to R195): its command, kind, new codebook, centroids and LIST_COUNT, the generation
it installs, the shadow's tiles, and, on a template, the collections that have not cut over yet. -/
structure Maint where
  cmd : Nat
  kind : MaintKind
  codebook : List B16
  centroids : List B16
  gen : Nat
  listCount : Nat
  tiles : List Nat
  waits : List Nat
  deriving DecidableEq, Repr, Inhabited

/-- A record as the T4 image and journal hold it (R184). -/
structure DurRec where
  vid : BitVec 48
  attr : BitVec 64
  ins : Nat
  lists : List Nat
  codes : List (List Nat)
  full : List Byte
  tokens : List (BitVec 32)
  deriving DecidableEq, Repr, Inhabited

/-- The T4 image with its journal (R184): the epoch they reach, the epoch the image alone reaches, their records, the
collection's attributes and books, and the logical tiles of T4 that hold the first and the second copy (R430). -/
structure Image where
  epoch : Nat
  imageEpoch : Nat
  recs : List DurRec
  attrs : Attrs
  codebook : List B16
  centroids : List B16
  cbGen : Nat
  tiles : List Nat
  mirrors : List Nat
  /-- how many of the tiles hold the image; the others hold the journal. -/
  imageTiles : Nat
  deriving DecidableEq, Repr, Inhabited

/-- A commit of a sharded collection that this member makes through its epoch home (R570): the group, the step (0 acquiring the
word, 1 reading PUBLISHED, 2 writing PUBLISHED, 3 releasing the word), and the completions that wait for the publication. -/
structure RemoteCommit where
  group : Nat
  phase : Nat
  done : List (Nat × Completion × List Byte)
  deriving DecidableEq, Repr, Inhabited

/-- A pin word of the control line (R400): EVICTED and PINS. -/
structure PinWord where
  evicted : Bool := false
  pins : Nat := 0
  deriving DecidableEq, Repr, Inhabited

/-- A collection (R46 to R92, R158 to R195, R400) (DESIGN CHOICE, log entry 11). -/
structure Collection where
  /-- GENERATION of the handle (R47). -/
  gen : Nat := 1
  /-- Attributes (R50). -/
  attrs : Attrs := {}
  /-- Attributes that a COLLECTION_SET has set and the next commit puts in force (R538). At creation none. -/
  newAttrs : Option Attrs := none
  /-- The COLLECTION_DELETE that has made its handle stale (R539). At creation none. -/
  deleting : Option Nat := none
  /-- The tier to which the cutover of its template's maintenance parks it again (R195). At creation none. -/
  repark : Option Nat := none
  /-- Member devices, empty for this device alone (R49, R536). -/
  members : List Nat := []
  /-- PUBLISHED (R82, R400). At creation 0. -/
  published : Nat := 0
  /-- COMMIT_WORD held (R172, R400). -/
  commitWord : Bool := false
  /-- PIN_INDEX (R400). -/
  pinIndex : PinWord := {}
  /-- PIN_VECTORS (R400). -/
  pinVectors : PinWord := {}
  /-- PIN_TOKENS (R400). -/
  pinTokens : PinWord := {}
  /-- RESIDENCY (R400). -/
  residency : Residency := .resident
  /-- CEILING (R186, R400). At creation 2^32. -/
  ceiling : Nat := 4294967296
  /-- The durable ceiling (R185, R186). -/
  durableCeiling : Nat := 4294967296
  /-- LOCAL counter (R63). -/
  nextLocal : Nat := 0
  /-- ID ceiling (R674). At creation 2^20. -/
  idCeiling : Nat := 1048576
  /-- Codebook (R69), empty when a template supplies it. -/
  codebook : List B16 := []
  /-- Coarse centroids (R69). -/
  centroids : List B16 := []
  /-- CODEBOOK_GEN (R75). At creation 1. -/
  cbGen : Nat := 1
  /-- Codebooks and centroids beside the current ones, by generation times 2^21 plus LIST_COUNT: older ones kept for snapshots
  below a cutover, and a new one before its cutover (R193, R195). -/
  oldBooks : Table (List B16 × List B16) := []
  /-- Segments by tile number (R71). -/
  segs : Table Segment := []
  /-- Directory versions, oldest first; the last is the newest (R79). -/
  dirs : List DirVersion := []
  /-- Staging entries by index (R167). -/
  staging : Table Staged := []
  /-- Next staging index. -/
  nextStaged : Nat := 0
  /-- Staging bytes reserved or used (R168). -/
  stagingUsed : Nat := 0
  /-- ID map by vector ID, with the spill map's copies as further slots (R65). -/
  idMap : Table IdEntry := []
  /-- Version log, oldest first (R181). -/
  versions : List VersionEntry := []
  /-- Size log of each list, oldest pair first: epoch, scan size (R108). -/
  sizeLogs : Table (List (Nat × Nat)) := []
  /-- Full vectors by vector ID and insert epoch (R56, R178): ID times 2^64 plus epoch; the tile each lies in, its offset there, and its
  bytes. -/
  fulls : Table (Nat × Nat × List Byte) := []
  /-- Token store, keyed as `fulls` (R229). -/
  tokens : Table (Nat × Nat × List (BitVec 32)) := []
  /-- Bytes used in the last tile of VECTORS and of TOKENS. At creation 0. -/
  vecUsed : Nat := 0
  tokUsed : Nat := 0
  /-- Commit groups by number (R170). -/
  groups : Table Group := []
  /-- Next group number. -/
  nextGroup : Nat := 0
  /-- The commit in progress through the epoch home (R570). At creation none. -/
  remote : Option RemoteCommit := none
  /-- Maintenance command in progress (R194). -/
  maint : Option Maint := none
  /-- T4 image and journal; its epoch is the durable epoch (R184, R529). At creation none. -/
  image : Option Image := none
  /-- An image or journal append whose tiles are not all programmed yet (R183, R428). -/
  pendingImage : Option Image := none
  /-- T2 pages of the staging buffer: the first and their number; none while the INDEX is parked (R167, R410). -/
  stage : Option (Nat × Nat) := none
  /-- Tiles of INDEX, VECTORS and TOKENS beside the segments (R397). -/
  vecTiles : List Nat := []
  tokTiles : List Nat := []
  indexTiles : List Nat := []
  /-- Tiles of the ID map by page, and from page 2^21 up of the spill map's; each is in indexTiles (R65). At creation none. -/
  idPages : Table Nat := []
  /-- Tiles that tombstone and origin blocks share, each also in indexTiles, and the pages of 4 KiB used in the last one (R78, R92). At
  creation none. -/
  blockTiles : List Nat := []
  blockUsed : Nat := 0
  /-- What CODEBOOK_GEN of the collection's segments counts from: its template's generation at its creation less 1 (R75). -/
  bookBase : Nat := 0
  /-- Shadow copies of records inserted while a shadow exists, keyed as `fulls`: list and code of each (R167, R192). At creation none. -/
  prepared : Table (List (Nat × List Nat)) := []
  /-- Its control line was lost and the restore has not run (R634). At creation no. -/
  restoring : Bool := false
  /-- DAMAGED (R642, R643), and the INDEX tiles lost. -/
  damaged : Bool := false
  lostTiles : List Nat := []
  /-- A lost INDEX tile held records committed after the durable epoch: the collection stays DAMAGED (R643). At creation no. -/
  unrepairable : Bool := false
  /-- EMBED and CROSS schedule handles and KEEP_TOKENS (R222). -/
  embed : BitVec 32 := 0
  cross : BitVec 32 := 0
  keepTokens : Bool := false
  /-- Epochs learned from beacons, newest first: island-counter time and epoch (R571). -/
  beacons : List (Nat × Nat) := []
  /-- The command the wake in progress serves, and its class; none for no wake (R409, R410). -/
  wakeCmds : List Nat := []
  /-- INDEX tiles that the wake brings back, each with its reserved place in T2 (R410). At creation none. -/
  wakeTiles : List (Nat × Nat) := []
  /-- Tile limit of evictions and moves in progress: their commands (R402, R403). -/
  evictions : List Nat := []
  promotions : List Nat := []
  deriving DecidableEq, Repr, Inhabited

/-! ## Search (03_search_scan.md, 04_selection_and_merge.md) -/

/-- What a core scans in one go (R117, R118): a segment up to a slot limit, or the list's staged copies. -/
inductive TileWork where
  | segment (tile limit : Nat)
  | staged (entries : List Nat)
  deriving DecidableEq, Repr, Inhabited

/-- A select buffer with its threshold (R137, R139). -/
structure SelBuf where
  entries : List Cand := []
  tau : Option Nat := none
  deriving DecidableEq, Repr, Inhabited

/-- A core's work for a batch (R117): the tile it scores and a select buffer for each member. -/
structure Worker where
  tile : TileWork
  bufs : Table SelBuf := []
  deriving DecidableEq, Repr, Inhabited

/-- A list batch (R112 to R118). -/
structure Batch where
  coll : Nat
  list : Nat
  dir : Nat
  /-- member commands in order of joining. -/
  members : List Nat
  launched : Bool := false
  /-- place in the order of launches (R116). -/
  launchNo : Nat := 0
  /-- base + bias by member, once launched (R104, R106). -/
  biased : Table F32 := []
  /-- HBM level and boulevard stream priority of its tile reads, once launched (R116). -/
  level : Nat := 3
  /-- Tiles that no core has taken yet (R116). -/
  undealt : List TileWork := []
  /-- Tiles that each of its cores has taken (R116). -/
  workers : Table Worker := []
  deriving DecidableEq, Repr, Inhabited

/-- A logical core (R29, R237, R247, R248). -/
structure Core where
  /-- Marked absent (R248). Reset: no. -/
  absent : Bool := false
  /-- The batch it serves (R242). Reset: none. -/
  batch : Option Nat := none
  /-- The run it serves (R242). Reset: none. -/
  run : Option Nat := none
  /-- ALLEY_DONE (R352). Reset: 0 (DESIGN CHOICE, log entry 1). -/
  alleyDone : BitVec 64 := 0
  /-- ALLEY_ERR (R352). Reset: 0 (DESIGN CHOICE, log entry 1). -/
  alleyErr : BitVec 64 := 0
  /-- Region entries of its program's grant set, at most 16 (R365). Reset: none. -/
  grants : List Nat := []
  /-- The count of free values when its last batch or run left it: its program area then holds nothing to rely on (R242); none where no
  batch or run has left it since its local store was empty (R247). Reset: none. -/
  forgot : Option Nat := none
  /-- The count of free values when its local store last lost power or was reset (R613, R620): its select area then holds nothing to rely
  on; none where its local store started empty (R247). Reset: none. -/
  selectForgot : Option Nat := none
  /-- Table bank: the member whose table a slot of 2 KiB holds (R243, R244). Reset: all empty. -/
  bank : Table Nat := []
  /-- Compiled predicates of the filter stage, by member position (R128, R237). Reset: none. -/
  preds : Table (List (BitVec 64)) := []
  /-- The select unit's 256-bin histogram as its last pass left it (R140, R237). Reset: empty (DESIGN CHOICE, log entry 1). -/
  hist : List Nat := []
  /-- Program memory: the step's core program, where a schedule's image gives it (R207, R245). Reset: empty. -/
  program : List Byte := []
  /-- The 32 scalar registers of the sequencer (R245), on which a new user cannot rely (R242). Reset: 0 (DESIGN CHOICE, log entry 1). -/
  scalars : List (BitVec 64) := []
  /-- A program fault awaits the sparing check (R246). Reset: no. -/
  faulted : Bool := false
  deriving DecidableEq, Repr, Inhabited

/-- A quarter (R28, R247, R637, R638). -/
structure Quarter where
  /-- In service (R637). Reset: yes. -/
  inService : Bool := true
  /-- Its spare core is in use (R247). Reset: no. -/
  spareUsed : Bool := false
  /-- The quarter whose slice serves as the home of this quarter's granules (R638). Reset: none, its own. -/
  substitute : Option Nat := none
  /-- CAP in units of 50 MHz (R607, R610). Reset: 21. -/
  cap : Nat := 21
  /-- The power-limit part of CAP (R619). Reset: 21. -/
  powerCap : Nat := 21
  /-- The thermal part of CAP (R625). Reset: 21. -/
  thermalCap : Nat := 21
  /-- Clock in units of 50 MHz (R607, R610). Reset: 0 until started. -/
  clock : Nat := 0
  /-- When a word of one of its squares was last lost (R637). Reset: never. -/
  squareErr : Option Nat := none
  deriving DecidableEq, Repr, Inhabited

/-! ## Model engine (06_model_engine.md) -/

/-- A step record (R207). -/
structure StepRec where
  op : Nat
  format : Nat
  tileFirst : Nat
  tileCount : Nat
  lead : Nat
  drain : Nat
  maxK : Nat
  programOffset : Nat
  programBytes : Nat
  inAct : Nat
  outAct : Nat
  outBytes : Nat
  deriving DecidableEq, Repr, Inhabited

/-- A tile reference (R208). -/
structure TileRef where
  object : Nat
  source : Nat
  kind : Nat
  slot : Nat
  deadline : Nat
  work : Nat
  peerSlice : Nat
  deriving DecidableEq, Repr, Inhabited

/-- The fields of a schedule header (R206). -/
structure SchedHeader where
  kind : Nat := 0
  sliced : Bool := false
  stepCount : Nat := 0
  tileCount : Nat := 0
  maxTokens : Nat := 0
  queryTokensMax : Nat := 0
  outDim : Nat := 0
  batchMax : Nat := 1
  quarters : Nat := 1
  checkClock : Nat := 7
  sliceCount : Nat := 1
  sliceIndex : Nat := 0
  runBound : Nat := 0
  poolSlots : Nat := 1
  localBytes : Nat := 0
  actBytes : Nat := 0
  stepOffset : Nat := 0
  tileOffset : Nat := 0
  weightOffset : Nat := 0
  weightBytes : Nat := 0
  vocabOffset : Nat := 0
  vocabBytes : Nat := 0
  setId : Nat := 0
  deriving DecidableEq, Repr, Inhabited

/-- A schedule slot (R205). -/
structure Sched where
  gen : Nat := 0
  loaded : Bool := false
  header : SchedHeader := {}
  steps : List StepRec := []
  refs : List TileRef := []
  image : List Byte := []
  members : List Nat := []
  /-- a SCHEDULE_UNLOAD waits for the last run (R223). -/
  unloadCmd : Option Nat := none
  /-- the LOC of an unload that the firmware is still to begin (R639, R642). -/
  failing : Option Nat := none
  /-- the firmware has unloaded it, and it goes with its last run (R236). -/
  going : Bool := false
  /-- tiles of its weights (R209, R397). -/
  weightTiles : List Nat := []
  deriving DecidableEq, Repr, Inhabited

/-- One sequence of a run (R217): the command and the item, query or candidate it belongs to. -/
structure Seq where
  cmd : Nat
  item : Nat
  deriving DecidableEq, Repr, Inhabited

/-- A model run (R210 to R218). -/
structure Run where
  sched : Nat
  seqs : List Seq
  launched : Bool := false
  /-- whether it has started in the sense of R210, and when. -/
  begun : Bool := false
  start : Nat := 0
  /-- on a slice that does not coordinate: the coordinator and its run (R233). -/
  slice : Option (Nat × Nat) := none
  /-- the class of the coordinator's run, on such a slice. -/
  sliceClass : Nat := 3
  quarters : List Nat := []
  /-- references issued, in order; landed; finished (R211, R212). -/
  issued : Nat := 0
  landed : List Nat := []
  worked : Nat := 0
  /-- step in progress, and whether it has begun (R212). -/
  step : Nat := 0
  /-- slices whose start report has arrived (R233). -/
  reports : List Nat := []
  /-- boulevard streams reserved for its reads: quarter and stream (R215). -/
  streams : List (Nat × Nat) := []
  deriving DecidableEq, Repr, Inhabited

/-! ## Data movement (09_data_movement.md) -/

/-- STATE of a stream (R321). -/
inductive StreamState where
  | idle | armed | draining | faultWait | error | stopping
  deriving DecidableEq, Repr, Inhabited

/-- A descriptor (R327). -/
structure Desc where
  opcode : Nat
  notify : Bool
  order : Bool
  endOfJob : Bool
  srcHint : Nat
  dstHint : Nat
  srcSpace : Nat
  dstSpace : Nat
  length : Nat
  srcAddr : Nat
  dstAddr : Nat
  srcSel : Nat
  dstSel : Nat
  jobTag : Nat
  pattern : BitVec 64
  rows : Nat
  srcStride : Nat
  dstStride : Nat
  reservedZero : Bool
  deriving DecidableEq, Repr, Inhabited

/-- A piece of a descriptor (R330): its source and destination, length and pattern. -/
structure PieceSpec where
  srcSpace : Nat
  srcSel : Nat
  src : Nat
  dstSpace : Nat
  dstSel : Nat
  dst : Nat
  len : Nat
  fill : Option (BitVec 64)
  deriving DecidableEq, Repr, Inhabited

/-- A descriptor that the engine works on (R331): its ring index, itself, pieces not yet issued, pieces in flight, and the
error code it has failed with. -/
structure Active where
  index : Nat
  desc : Desc
  todo : List PieceSpec
  flying : Nat
  failed : Option Nat
  deriving DecidableEq, Repr, Inhabited

/-- A stream (R321, R333 to R347). -/
structure Stream where
  /-- STATE (R333). Reset: IDLE. -/
  state : StreamState := .idle
  /-- RING_BASE (R333). Reset: 0. -/
  base : Nat := 0
  /-- RING_CFG.REGION (R333). Reset: 0. -/
  region : Nat := 0
  /-- RING_CFG.OWNER (R333). Reset: FIRMWARE. -/
  owner : Owner := .firmware
  /-- RING_CFG.PRIORITY (R333). Reset: 0. -/
  prio : Nat := 0
  /-- RING_CFG.HOST_PORT (R333). Reset: 0. -/
  hostPort : PortId := .p0
  /-- RING_CFG.LOCATION (R333). Reset: DEVICE. -/
  hostRing : Bool := false
  /-- RING_CFG.SIZE_LOG2, 16 for 0 (R333). Reset: 4. -/
  sizeLog2 : Nat := 4
  /-- RING_TAIL (R333). Reset: 0. -/
  tail : Nat := 0
  /-- RING_HEAD.FETCH (R333). Reset: 0. -/
  fetch : Nat := 0
  /-- RING_HEAD.HEAD (R333). Reset: 0. -/
  head : Nat := 0
  /-- ERR_CODE (R333). Reset: 0. -/
  errCode : Nat := 0
  /-- ARM_RESULT (R333, R336). Reset: 0. -/
  armResult : Nat := 0
  /-- ERROR, RW1C (R333). Reset: 0. -/
  error : Bool := false
  /-- DONE, RW1C (R333). Reset: 0. -/
  done : Bool := false
  /-- ERR_DESC (R333). Reset: 0. -/
  errDesc : Nat := 0
  /-- STREAM_TAGS.IN_USE (R333). Reset: 0. -/
  tags : Nat := 0
  /-- STREAM_DONE, wrapping (R333). Reset: 0. -/
  count : BitVec 32 := 0
  /-- Descriptors fetched and not started (R326). Reset: none. -/
  buffered : List (Nat × Desc) := []
  /-- Descriptors in work, in ring order (R331). Reset: none. -/
  active : List Active := []
  /-- The queued re-arm (R339). Reset: none. -/
  rearm : Option ArmStream := none
  /-- The other stream of a pair, with its buffer (R334, R335). Reset: none. -/
  pair : Option (Nat × PairBuffer) := none
  /-- Whether it is the fill stream of its pair (R334). Reset: no. -/
  isFill : Bool := false
  /-- Full cells of the pair buffer, kept at the fill stream (R334). Reset: 0. -/
  fullCells : Nat := 0
  deriving DecidableEq, Repr, Inhabited

/-- How a piece stands (R344, R372): waiting for a translation, waiting on a page request, or issued. -/
inductive PieceState where
  | missed | faulted | issued
  deriving DecidableEq, Repr, Inhabited

/-- A piece in flight (R330, R341). -/
structure Piece where
  quarter : Nat
  stream : Nat
  index : Nat
  spec : PieceSpec
  state : PieceState
  /-- translation generation it was issued under (R380). -/
  gen : Nat
  /-- faults in a row, the first and those of its replays (R376). -/
  replays : Nat
  /-- the data read, once it has arrived. -/
  data : Option (List Byte)
  /-- the error it ends with (R345). -/
  err : Option Nat
  /-- port tags it holds (R342). -/
  portTags : Nat
  deriving DecidableEq, Repr, Inhabited

/-- An engine's registers (R333). -/
structure Engine where
  /-- ENG_TAGS.IN_USE (R333). Reset: 0. -/
  tags : Nat := 0
  /-- ENG_TAGS.PEAK (R333). Reset: 0. -/
  peak : Nat := 0
  /-- Bytes moved since reset; ENG_BYTES is this divided by 1,024, wrapping (R333). Reset: 0. -/
  bytes : Nat := 0
  /-- Turns left to priorities 1, 2 and 3 in this round (R322; DESIGN CHOICE, log entry 127). Reset: 8, 4, 1. -/
  turns : List Nat := [8, 4, 1]
  /-- The stream that each priority served last (R322). Reset: none. -/
  last : Table Nat := []
  /-- Boulevard transfers at the quarter's crossing since the alley's last turn, up to 3 (R355). Reset: 0. -/
  share : Nat := 0
  deriving DecidableEq, Repr, Inhabited

/-- An event a stream sends to its owner (R347). -/
structure StreamEvent where
  quarter : Nat
  stream : Nat
  owner : Owner
  jobTag : Nat
  errCode : Nat
  deriving DecidableEq, Repr, Inhabited

/-- A launched alley transfer (R350): its header, the data it writes or has read, the host port it uses, whether its request is
out, the error code it ends with, its faults in a row (R376), the translation generation it was sent under (R380), and the port
tags it holds (R342). -/
structure Alley where
  op : Nat
  hint : Nat
  space : Nat
  prio : Nat
  len : Nat
  sel : Nat
  ls : Nat
  target : Nat
  data : List Byte
  port : PortId
  sent : Bool
  err : Option Nat
  replays : Nat
  gen : Nat := 0
  tags : Nat := 0
  /-- while it waits at its quarter's alley port, its place in the order of launches (R354). -/
  waits : Option Nat := none
  deriving DecidableEq, Repr, Inhabited

/-! ## Shared cache (07_core_and_cache.md) -/

/-- A sector (R249). -/
structure Sector where
  valid : Bool := false
  dirty : Bool := false
  data : BitVec 256 := 0
  deriving DecidableEq, Repr, Inhabited

/-- A line in a way (R249): its line number (address divided by 128) and sectors 0 to 3. -/
structure Line where
  line : Nat
  sectors : List Sector
  deriving DecidableEq, Repr, Inhabited

/-- An entry of a write-combining buffer (R266), with the sources that wrote it (R267). -/
structure WcEntry where
  line : Nat
  data : BitVec 1024
  mask : BitVec 128
  srcs : List Source
  deriving DecidableEq, Repr, Inhabited

/-- The shared cache (R249 to R274). -/
structure Cache where
  /-- Lines by slice * 32,768 + set * 16 + way (R249). Reset: none valid. -/
  lines : Table Line := []
  /-- The way that a STREAM fill made a set's next victim, by slice * 2,048 + set (R257). Reset: none. -/
  nextVictim : Table Nat := []
  /-- The most recent way of a set (R257). Reset: none. -/
  recent : Table Nat := []
  /-- Choices of replacement made so far (R251; the model's own, DESIGN CHOICE, log entry 8). Reset: 0. -/
  choices : Nat := 0
  /-- Write-combining entries of each slice, oldest first (R266). Reset: none. -/
  wc : Table (List WcEntry) := []
  /-- Held blocks beside 0 and 1, by slice * 64 + block (R252, R253). Reset: none. -/
  held : Table BlockOwner := []
  /-- Contents of held blocks, by address less 0xF000_0000_0000 (R255). Reset: zeros (DESIGN CHOICE, log entry 2). -/
  t1 : Memory := []
  /-- Disabled lines, as keys of `lines` (R635). Reset: none. -/
  disabled : List Nat := []
  /-- Blocks no longer granted once released (R635). Reset: none. -/
  retired : List Nat := []
  /-- Corrected events of a line (R635). Reset: none. -/
  corrected : Table Nat := []
  /-- The value the last read or fetching atomic returned (DESIGN CHOICE, log entry 6). Reset: none. -/
  returned : List Byte := []
  deriving DecidableEq, Repr, Inhabited

/-! ## HBM (08_hbm_memory.md) -/

/-- STATE of a channel (R293). -/
inductive ChState where
  | untrained | active | spare | migSource | migTarget | repair | failed | lost
  deriving DecidableEq, Repr, Inhabited

/-- PHASE of a migration (R316). -/
inductive MigPhase where
  | idle | copy | alias_
  deriving DecidableEq, Repr, Inhabited

/-- A write in a controller's write queue (R286): local granule, sector of the granule, bytes, mask and level (R285), none where the manual
gives the write no level. -/
structure QWrite where
  granule : Nat
  sector : Nat
  data : BitVec 256
  mask : BitVec 32
  level : Option Nat := none
  deriving DecidableEq, Repr, Inhabited

/-- A read that waits in a controller's read queue (R286): address, level, and when it came. -/
structure HbmReq where
  addr : Nat
  level : Nat
  time : Nat
  deriving DecidableEq, Repr, Inhabited

/-- The arbiter of a pseudo-channel (R286). -/
structure HbmArb where
  /-- Waiting reads of all levels, oldest first. Reset: none. -/
  reads : List HbmReq := []
  /-- The write queue drains and yields to level-0 reads. Reset: no. -/
  draining : Bool := false
  /-- Turns left to levels 1, 2 and 3 in this round (DESIGN CHOICE, log entry 127). Reset: 8, 4, 1. -/
  turns : List Nat := [8, 4, 1]
  /-- The open row of each bank. Reset: none. -/
  openRow : Table Nat := []
  deriving DecidableEq, Repr, Inhabited

/-- What a traffic generator left in the granules from lo up to hi (R318): DATA_MODE, SEED and the USER pattern of its run. -/
structure Fill where
  lo : Nat
  hi : Nat
  mode : Nat
  seed : Word
  user : BitVec 64
  deriving DecidableEq, Repr, Inhabited

/-- A channel with its register block (R293, R316). -/
structure Channel where
  /-- CH_STATUS.STATE (R316). Reset: UNTRAINED. -/
  state : ChState := .untrained
  /-- The lanes that spare lanes replace (R294); SPARE_LANES_USED is their number (R316). Reset: none. -/
  spareLanes : Lanes := []
  /-- PIN_RATE (R316). Reset: 0. -/
  pinRate : Nat := 0
  /-- MIG_CTRL.TARGET (R316). Reset: 0. -/
  migTarget : Nat := 0
  /-- MIG_CTRL.SHARE (R316). Reset: 10. -/
  share : Nat := 10
  /-- MIG_STATUS.PHASE (R316). Reset: IDLE. -/
  phase : MigPhase := .idle
  /-- MIG_STATUS.DONE, RW1C (R316). Reset: 0. -/
  migDone : Bool := false
  /-- MIG_STATUS.ABORTED, RW1C (R316). Reset: 0. -/
  migAborted : Bool := false
  /-- MIG_STATUS.WATERMARK (R316). Reset: 0. -/
  watermark : Nat := 0
  /-- Map units whose drain marker has arrived (R302). Reset: none. -/
  markers : List Nat := []
  /-- TG_CTRL.DATA_MODE (R316). Reset: 0. -/
  dataMode : Nat := 0
  /-- TG_CTRL.ADDR_MODE (R316). Reset: 0. -/
  addrMode : Nat := 0
  /-- TG_CTRL.OP_MODE (R316). Reset: 0. -/
  opMode : Nat := 0
  /-- TG_CTRL.TEST_RATE (R316). Reset: 3. -/
  testRate : Nat := 3
  /-- TG_STATUS.TRAIN_FAIL, RW1C (R316). Reset: 0. -/
  trainFail : Bool := false
  /-- TG_STATUS.REFUSED, RW1C (R316). Reset: 0. -/
  refused : Bool := false
  /-- TG_STATUS.FAIL, RW1C (R316). Reset: 0. -/
  fail : Bool := false
  /-- TG_STATUS.DONE, RW1C (R316). Reset: 0. -/
  done : Bool := false
  /-- TG_STATUS.BUSY (R316). Reset: 0. -/
  busy : Bool := false
  /-- TG_SEED (R316). Reset: 1. -/
  seed : Word := 1
  /-- TG_START.GRANULE (R316). Reset: 0. -/
  start : Nat := 0
  /-- TG_LENGTH.COUNT (R316). Reset: 0x10_0000. -/
  length : Nat := 0x100000
  /-- TG_PASSES (R316). Reset: 1. -/
  passes : Nat := 1
  /-- TG_USER_LO (R316). Reset: 0. -/
  userLo : Word := 0
  /-- TG_USER_HI (R316). Reset: 0. -/
  userHi : Word := 0
  /-- CHK_ERRORS, saturating (R316). Reset: 0. -/
  chkErrors : Nat := 0
  /-- CHK_FIRST: sector and granule of the first mismatch (R316). Reset: none. -/
  chkFirst : Option (Nat × Nat) := none
  /-- CHK_LANE_LO (R316). Reset: 0. -/
  laneLo : Word := 0
  /-- CHK_LANE_HI (R316). Reset: 0. -/
  laneHi : Word := 0
  /-- ECC_CORRECTED, saturating (R316). Reset: 0. -/
  eccCorrected : Nat := 0
  /-- ECC_UNCORRECTED, saturating (R316). Reset: 0. -/
  eccUncorrected : Nat := 0
  /-- Row-remap entries: pseudo-channel * 64 + bank, row, spare row (R307). Reset: none. -/
  remaps : List (Nat × Nat × Nat) := []
  /-- When errors of a row were corrected, by (pseudo-channel * 64 + bank) * 16,384 + row (R280, R307). Reset: none. -/
  rowErrors : Table (List Nat) := []
  /-- Rows in which a lane was corrected, and when, by pseudo-channel * 256 + lane (R295). Reset: none. -/
  laneRows : Table (List (Nat × Nat)) := []
  /-- Write queues of pseudo-channels 0 and 1, oldest first (R286). Reset: empty. -/
  wq0 : List QWrite := []
  wq1 : List QWrite := []
  /-- Read queues and arbitration of pseudo-channels 0 and 1 (R286). Reset: idle. -/
  arb0 : HbmArb := {}
  arb1 : HbmArb := {}
  /-- Symbols that stored sectors hold wrong, by local granule * 64 + sector: what the check bits tell of them (R289). Reset: none. -/
  flips : Table (List Nat) := []
  /-- What generator runs left, the latest first (R318). Reset: none. -/
  fills : List Fill := []
  /-- The channel was lost and its granules are lost but for those written whole since (R306). Reset: no. -/
  lostMap : Bool := false
  rewritten : List Nat := []
  /-- Sectors of a granule written since the loss, as a mask, until it is whole (R306). Reset: none. -/
  partWritten : Table (BitVec 64) := []
  /-- The channel whose contents this one takes in a migration (R299). Reset: none. -/
  migFrom : Option Nat := none
  /-- The HBM_MIGRATE that asked for the migration of this channel (R542). Reset: none. -/
  migCmd : Option Nat := none
  deriving DecidableEq, Repr, Inhabited

/-- An entry of the retirement table (R309), with the granules that failed, as the firmware keeps them for R313. -/
structure RtEntry where
  valid : Bool := false
  releasing : Bool := false
  failed : BitVec 2 := 0
  lost : BitVec 2 := 0
  moved : BitVec 2 := 0
  slot : Nat := 0
  page : Nat := 0
  deriving DecidableEq, Repr, Inhabited

/-- The HBM system (R275 to R318). -/
structure Hbm where
  /-- Channels by device channel number (R26). Reset: all UNTRAINED. -/
  channels : Table Channel := []
  /-- PERM, identical in all map units (R279, R281). Reset: empty. -/
  perm : List Nat := []
  /-- Retirement table by entry number (R309). Reset: empty. -/
  rt : Table RtEntry := []
  /-- Cells by channel * 2^31 + local granule * 2,048 + offset (R280), each as its difference, bit by bit, from what generator runs left
  (`Channel.fills`). Reset: zeros (DESIGN CHOICE, log entry 2). -/
  cells : Memory := []
  /-- Spare channel of each stack (R297). Reset: none. -/
  spares : Table Nat := []
  /-- HBM is open to traffic (R296 step 7). Reset: no. -/
  isOpen : Bool := false
  /-- The firmware runs step 4 of R296 (R317). Reset: no. -/
  testing : Bool := false
  /-- The repair record has changes not yet written (R314). Reset: no. -/
  recordDirty : Bool := false
  /-- The repair record in the flash system area (R314): remaps by channel, retirement table, failed channels, spares.
  Reset: none (it survives resets, DESIGN CHOICE, log entry 1). -/
  record : Table (List (Nat × Nat × Nat)) := []
  recordRt : Table RtEntry := []
  recordFailed : List Nat := []
  recordSpares : Table Nat := []
  /-- Spare-lane choices in the repair record, by channel (R314). Reset: none (it survives resets, DESIGN CHOICE, log entry 1). -/
  recordLanes : Table Lanes := []
  /-- Pages due for retirement, with the granules to mark lost, that wait for the firmware (R45, R291). Reset: none. -/
  dueRetire : List (Nat × BitVec 2) := []
  /-- Targets of migrations whose retirement entries wait for the firmware to release them (R305, R313). Reset: none. -/
  dueRelease : List Nat := []
  /-- MIGRATE_SHARE, feature 0x02 (R534). Reset: 10. -/
  migrateShare : Nat := 10
  /-- MIGRATIONS completed since reset, wrapping (R533). Reset: 0. -/
  migrations : BitVec 32 := 0
  /-- The data the last HBM_READ returned (DESIGN CHOICE, log entry 6). Reset: none. -/
  returned : Option (BitVec 256) := none
  deriving DecidableEq, Repr, Inhabited

/-! ## Translation (10_address_translation.md) -/

/-- A region entry (R360). OWNER: 0 DEVICE, 1 PORT0, 2 PORT1, 3 BOTH. -/
structure Region where
  base : Nat := 0
  last : Nat := 0
  read : Bool := false
  write : Bool := false
  atomic : Bool := false
  valid : Bool := false
  owner : Nat := 0
  /-- allocated by REGION_ALLOC and not yet freed (R362, R672). -/
  allocated : Bool := false
  /-- freed, and draining the accesses that passed it (R366, R392). -/
  draining : Bool := false
  deriving DecidableEq, Repr, Inhabited

/-- An outbound window (R384). -/
structure OutWindow where
  target : Nat := 0
  valid : Bool := false
  remote : Nat := 0
  read : Bool := false
  write : Bool := false
  atomic : Bool := false
  tiles : Nat := 0
  gen : Nat := 0
  deriving DecidableEq, Repr, Inhabited

/-- An inbound window (R385). -/
structure InWindow where
  table : Nat := 0
  tiles : Nat := 0
  source : Nat := 0
  anyMember : Bool := false
  read : Bool := false
  write : Bool := false
  atomic : Bool := false
  valid : Bool := false
  gen : Nat := 0
  deriving DecidableEq, Repr, Inhabited

/-- Region table, windows and the peer side of the translation blocks (R360, R384 to R389, R394). -/
structure Protect where
  /-- Region table by entry (R360). Reset: none valid. -/
  regions : Table Region := []
  /-- Outbound windows by number (R384). Reset: none valid. -/
  outbound : Table OutWindow := []
  /-- Inbound windows by number (R385). Reset: none valid. -/
  inbound : Table InWindow := []
  /-- Peer ways of the DTCs: I/O die * 2^37 + window * 2^23 + page, page entry (R388). Reset: none. -/
  peerDtc : Table (BitVec 64) := []
  /-- WALKS of each I/O die, wrapping (R394). Reset: 0. -/
  walks : Table (BitVec 32) := []
  /-- PEER_REFUSED of each I/O die, saturating (R394). Reset: 0. -/
  refused : Table Nat := []
  /-- Next free byte of T2 for REGION_ALLOC areas and tiles, in 4 KiB pages, and pages freed (R362). Reset: 0. -/
  t2Next : Nat := 0
  t2Free : List (Nat × Nat) := []
  deriving DecidableEq, Repr, Inhabited

/-! ## Tiers (11_tiers_and_parking.md) -/

/-- A tile map entry (R398). TIER: 0 FREE, 2 T2, 3 T3, 4 T4. -/
structure TileEntry where
  backed : Bool := false
  backing : Nat := 0
  tier : Nat := 0
  dirty : Bool := false
  lost : Bool := false
  /-- T2 and T4: device-physical address bits [47:16]. T3: window * 2^23 + page. -/
  location : Nat := 0
  /-- object that owns it: collection or schedule INDEX and kind. -/
  owner : Nat := 0
  kind : ObjKind := .index
  deriving DecidableEq, Repr, Inhabited

/-- A lease this device has granted (R412): its borrower, inbound window, and first T2 pages of the lease and of the window's table. -/
structure LentLease where
  borrower : Nat
  window : Nat
  page : Nat
  table : Nat
  /-- revoked, and its notice runs (R414). -/
  revoking : Bool
  deriving DecidableEq, Repr, Inhabited

/-- A lease this device holds (R413). -/
structure BorrowedLease where
  lender : Nat
  number : Nat
  window : Nat
  port : Nat
  revoked : Bool
  deriving DecidableEq, Repr, Inhabited

/-- Tiers (R395 to R418). -/
structure Tiers where
  /-- Tile map by tile number (R398). Reset: all FREE. -/
  map : Table TileEntry := []
  /-- Pages of the map in T2, by page number: device-physical address bits [47:16] (R398). Reset: none. -/
  mapPages : Table Nat := []
  /-- Places in T3 that an upward move left, each with the commands that held a pin at its switch: it is free once they have ended
  (R405). Reset: none. -/
  releasing : List (Nat × List Nat) := []
  /-- T4 writes of T3 tiles that have been asked for (R399). Reset: none. -/
  backingQueue : List Nat := []
  /-- Leases granted, by lease number (R412). Reset: none. -/
  lent : Table LentLease := []
  /-- Leases held, by number (R413). Reset: none. -/
  borrowed : Table BorrowedLease := []
  /-- LEND_QUOTA in GiB, feature 0x06 (R534). Reset: 0. -/
  lendQuota : Nat := 0
  /-- REVOKE_GRACE in ms, feature 0x07 (R534). Reset: 1,000. -/
  revokeGrace : Nat := 1000
  deriving DecidableEq, Repr, Inhabited

/-! ## Flash (12_flash_tier.md) -/

/-- T4_STATE (R444, R449). -/
inductive T4State where
  | absent | normal | degraded | readOnly
  deriving DecidableEq, Repr, Inhabited

/-- CH_STATE of a flash channel (R449). -/
inductive FlashChState where
  | unpopulated | active | retraining | failed
  deriving DecidableEq, Repr, Inhabited

/-- A flash channel with its counters (R449). -/
structure FlashCh where
  state : FlashChState := .unpopulated
  rate : Nat := 0
  targets : Nat := 0
  luns : Nat := 0
  retries : Nat := 0
  correctedBits : Nat := 0
  readFails : Nat := 0
  lostPages : Nat := 0
  /-- the LUN whose read was transferred last (R436). -/
  lastLun : Nat := 0
  deriving DecidableEq, Repr, Inhabited

/-- A page read that waits at its LUN: the logical page and its priority level (R436). -/
structure FlashRead where
  page : Nat
  level : Nat
  deriving DecidableEq, Repr, Inhabited

/-- A flash block (R439 to R441), by I/O die * 2^32 plus the CHANNEL, TARGET and LUN bits of R425 plus its number in the LUN. -/
structure FlashBlock where
  erases : Nat := 0
  reads : Nat := 0
  /-- Pages programmed since its last erase. -/
  next : Nat := 0
  bad : Bool := false
  retryHint : Nat := 0
  /-- a refresh is due (R439). -/
  refreshDue : Bool := false
  /-- to be retired once relocated (R441). -/
  retireAfter : Bool := false
  deriving DecidableEq, Repr, Inhabited

/-- The flash tier (R419 to R449). -/
structure Flash where
  /-- T4_STATE (R444). Reset: ABSENT until start-up. -/
  state : T4State := .absent
  /-- T4 is open (R445 step 7). Reset: no. -/
  isOpen : Bool := false
  /-- Flash channels (R419, R449). Reset: all UNPOPULATED. -/
  channels : Table FlashCh := []
  /-- FLASH_TOP in bytes (R424). Reset: 0. -/
  top : Nat := 0
  /-- BOUND_4 in ns, WINDOW_4, FLOOR_4 in bytes per second (R437, R438). Reset: 0. -/
  bound : Nat := 0
  window : Nat := 0
  floor : Nat := 0
  /-- RETRY_LIMIT in force (R433, R534). Reset: 3. -/
  retryLimit : Nat := 3
  /-- FLASH_WBUF in MiB in force (R427, R534). Reset: 1,024. -/
  wbufMiB : Nat := 1024
  /-- The map: logical page to location; unlisted is UNMAPPED; 0xFFFF_FFFE is LOST (R425). Reset: empty (DESIGN CHOICE, log entry 1). -/
  map : Table Nat := []
  /-- Data of programmed pages by die * 2^46 + location * 16,384 + offset (R423, R425). Reset: zeros (DESIGN CHOICE, log entry 2). -/
  pages : Memory := []
  /-- Tiles in the write buffer, oldest first (R427). Reset: none. -/
  wbuf : List Nat := []
  /-- Bytes of the write buffer, by flash-tier offset (R427). Reset: none. -/
  wdata : Memory := []
  /-- Offsets the write buffer holds (R427). Reset: none. -/
  wheld : Table Unit := []
  /-- Blocks (R439 to R441). Reset: factory state (DESIGN CHOICE, log entry 1). -/
  blocks : Table FlashBlock := []
  /-- Profile of the part (R421). Reset: zeros until start-up. -/
  profile : FlashProfile := ⟨1, 0, 1, 0, 0, 0, 0, 0, 0⟩
  /-- Blocks of a LUN (R421). Reset: 0. -/
  lunBlocks : Nat := 0
  /-- Counters of the health page (R449). Reset: 0. -/
  tilesWritten : Nat := 0
  pagesProgrammed : Nat := 0
  grownBad : Nat := 0
  readFails : Nat := 0
  lostPages : Nat := 0
  refreshes : Nat := 0
  /-- Pages whose recovery is due (R434). Reset: none. -/
  recoverDue : List Nat := []
  /-- Page reads that wait at their LUNs, in order of arrival (R436). Reset: none. -/
  reads : List FlashRead := []
  /-- Tiles whose program, and blocks whose erase, had been issued when an activation began (R448; DESIGN CHOICE, log entry 145). Reset: none. -/
  issued : List Nat := []
  erasing : List Nat := []
  /-- Blocks whose program or erase has failed during an activation, to be retired after it (R448). Reset: none. -/
  dueBlocks : List Nat := []
  /-- LUNs that have failed, by key (R443, R669). Reset: none. -/
  failedLuns : List Nat := []
  /-- Logical tiles that objects, images and journals hold (R424). Reset: none. -/
  used : List Nat := []
  deriving DecidableEq, Repr, Inhabited

/-! ## Denop links (16_peer_links.md) -/

/-- STATE of a Denop port (R556). -/
inductive LinkState where
  | unpopulated | training | up | degraded | down | mismatch | failed | tooLong
  deriving DecidableEq, Repr, Inhabited

/-- What a Denop port sends to its neighbour beside packets (R559, R560, R562). -/
inductive LinkCtl where
  | ack (n : Nat) | nak (n : Nat) | credit (vc flits : Nat) | keepalive | topology (up : Bool) | replay (fromFlit : Nat)
  deriving DecidableEq, Repr, Inhabited

/-- A Denop port (R549 to R560). -/
structure Link where
  /-- STATE (R556). Reset: UNPOPULATED. -/
  state : LinkState := .unpopulated
  /-- LANES_ACTIVE (R556). Reset: 0. -/
  lanes : Nat := 0
  /-- POLARITY (R556). Reset: 0. -/
  polarity : BitVec 8 := 0
  /-- EXCLUDED (R556). Reset: 0. -/
  excluded : BitVec 8 := 0
  /-- PEER_DEVICE, 0xFFFF when unknown (R556). Reset: 0xFFFF. -/
  peer : Nat := 0xFFFF
  /-- LANE_MAP (R556). Reset: all 0xF. -/
  laneMap : List Nat := [15, 15, 15, 15, 15, 15, 15, 15]
  /-- FEC_CORRECTED, FEC_UNCORRECTED, saturating (R556). Reset: 0. -/
  fecCorrected : Nat := 0
  fecUncorrected : Nat := 0
  /-- RETRAINS (R556). Reset: 0. -/
  retrains : Nat := 0
  /-- Training attempts in a row below 4 usable lanes (R556). Reset: 0. -/
  attempts : Nat := 0
  /-- Number of the next flit to send, 16 bits wrapping (R558). Reset: 0. -/
  txNext : BitVec 16 := 0
  /-- Number of the next flit expected (R558). Reset: 0. -/
  rxNext : BitVec 16 := 0
  /-- Flits sent and not acknowledged, oldest first, at most 2,048 (R559). Reset: none. -/
  replay : List (BitVec 16) := []
  /-- The flit resent last and how often in a row (R559). Reset: none. -/
  resent : Option (BitVec 16 × Nat) := none
  /-- The receiver discards until the replay arrives (R559). Reset: no. -/
  discarding : Bool := false
  /-- Credits of the seven virtual channels, CTL first (R560). Reset: 64 and six times 672. -/
  credits : List Nat := [64, 672, 672, 672, 672, 672, 672]
  /-- Bytes of the packet stream received (R558). Reset: none. -/
  stream : List Byte := []
  /-- Packets waiting for credits, oldest first (R560). Reset: none. -/
  waiting : List Packet := []
  /-- Packets and control words sent, oldest first (DESIGN CHOICE, log entry 6). Reset: none. -/
  packets : List Packet := []
  ctl : List LinkCtl := []
  /-- Port tags in use (R342). Reset: 0. -/
  tags : Nat := 0
  /-- When it last received a flit (R577). Reset: 0. -/
  lastFlit : Nat := 0
  deriving DecidableEq, Repr, Inhabited

/-- An entry of the route table (R566). -/
structure Route where
  primary : Nat
  alternate : Option Nat
  hops : Nat
  /-- a shorter route's port and hops, to which it switches once nothing awaits a response on the old one (R567). -/
  next : Option (Nat × Nat) := none
  /-- new packets to the device, which wait for that. -/
  queue : List Packet := []
  deriving DecidableEq, Repr, Inhabited

/-- What waits on an outstanding peer request (R343, R578). -/
inductive PeerWaiter where
  | piece (n : Nat)
  | alley (core slot : Nat)
  | command (n : Nat)
  | commit (coll : Nat)
  | candidate (cmd pos : Nat)
  | weight (tile : Nat)
  | partialSum (run : Nat)
  deriving DecidableEq, Repr, Inhabited

/-- An outstanding peer request (R342, R578). -/
structure PeerReq where
  dest : Nat
  port : Nat
  waiter : PeerWaiter
  deriving DecidableEq, Repr, Inhabited

/-- The Denop side of the device (R548 to R581). -/
structure Net where
  /-- INSTALL_ID (R564). Reset: 0 until start-up. -/
  installId : BitVec 64 := 0
  /-- DEVICE_NUMBER of the board record (R564). Reset: 0 until start-up. -/
  deviceNumber : Nat := 0
  /-- The device has joined its installation (R564). Reset: no. -/
  joined : Bool := false
  /-- Denop ports 0 to 5. Reset: UNPOPULATED. -/
  links : Table Link := []
  /-- Route table (R566). Reset: empty. -/
  routes : Table Route := []
  /-- Links of the installation as last reported (R566). Reset: none. -/
  topology : List LinkInfo := []
  /-- Outstanding peer requests by transaction (R561, R578). Reset: none. -/
  peers : Table PeerReq := []
  /-- Collection commands owed to members that no route reaches: the device and the command with its data (R570). Reset: none. -/
  owed : List (Nat × List Byte) := []
  /-- Next transaction number. Reset: 0. -/
  nextTxn : Nat := 0
  deriving DecidableEq, Repr, Inhabited

/-! ## Security (17_security_and_boot_trust.md) -/

/-- Lifecycle state (R596, R599). -/
inductive Lifecycle where
  | manufacture | production | retired
  deriving DecidableEq, Repr, Inhabited

/-- An entry of the measurement log (R595). -/
structure MeasEntry where
  seq : Nat
  register : Nat
  event : Nat
  detail : Nat
  digest : BitVec 384
  deriving DecidableEq, Repr, Inhabited

/-- A boot record (R585): SEQUENCE, SELECTED, and whether its digest is right. -/
structure BootRecord where
  seq : Nat := 0
  selected : Nat := 0
  valid : Bool := false
  deriving DecidableEq, Repr, Inhabited

/-- An error-log entry (R532). -/
structure LogEntry where
  seq : Nat
  stamp : Nat
  island : Nat
  port : Option PortId
  /-- ORIGIN: 0 SQ, 1 MAILBOX, 2 DEVICE. -/
  origin : Nat
  queue : Nat
  tag : BitVec 16
  status : Option Status
  opcode : Nat
  kind : Nat
  coll : BitVec 32
  epoch : Nat
  location : Nat
  detail : Nat
  deriving DecidableEq, Repr, Inhabited

/-- The security block and the boot flash (R582 to R603). -/
structure Security where
  /-- MEAS0 to MEAS4, 48 bytes each (R594). Reset: 48 zero bytes. -/
  meas : List (BitVec 384) := [0, 0, 0, 0, 0]
  /-- Measurement log (R595). Reset: empty. -/
  log : List MeasEntry := []
  /-- Extends made (R601). Reset: 0. -/
  extends_ : Nat := 0
  /-- LOG_OVERFLOW (R595). Reset: 0. -/
  overflow : Bool := false
  /-- Entries of the rollback counters of slots 0 and 1 (R589). Survives resets; as made: none. -/
  counter0 : List (BitVec 16) := []
  counter1 : List (BitVec 16) := []
  /-- Key manifest: digests and revoke fuses of each algorithm (R587). Survives; as made: empty (DESIGN CHOICE, log entry 1). -/
  edKeys : List (BitVec 384 × Bool) := []
  mldsaKeys : List (BitVec 384 × Bool) := []
  /-- Lifecycle state (R596). Survives; as made: MANUFACTURE. -/
  lifecycle : Lifecycle := .manufacture
  /-- UDS, once blown (R596). Survives; as made: none. -/
  uds : Option (BitVec 256) := none
  /-- The identity public keys have been exported (R598). -/
  exported : Bool := false
  /-- TEST_PORT: the test port has been used since power-on reset (R594). Reset: 0. -/
  testPort : Bool := false
  /-- Images in slots 0 and 1, none when empty (R584). Survives; as made: empty. -/
  slot0 : Option (List Byte) := none
  slot1 : Option (List Byte) := none
  /-- Boot records A and B (R585). Survives; as made: invalid. -/
  recA : BootRecord := {}
  recB : BootRecord := {}
  /-- Slot of the running image (R527). Reset: none. -/
  active : Option Nat := none
  /-- Header bytes of the running image (R586). Reset: none. -/
  running : List Byte := []
  /-- Recovery (R593). Reset: no. -/
  recovery : Bool := false
  /-- The certificate store is valid (R598). Reset: no. -/
  certValid : Bool := false
  /-- Certificate store bytes (R584). Survives; as made: empty. -/
  certs : List Byte := []
  /-- FW_ACTIVATE in progress: its command (R545). Reset: none. -/
  activating : Option Nat := none
  /-- When it ends, on the model's clock (R546; DESIGN CHOICE, log entry 31). Reset: 0. -/
  activateEnd : Nat := 0
  /-- Time of the last watchdog expiry (R646). Reset: none. -/
  watchdog : Option Nat := none
  /-- The error-log entry of a FATAL event, kept until the error page is read (R629). Survives resets; as made: none. -/
  fatalKept : Option LogEntry := none
  deriving DecidableEq, Repr, Inhabited

/-- The sideband mailbox (R603). -/
structure Sideband where
  /-- SB_OFFSET (R603). Reset: 0 (DESIGN CHOICE, log entry 1). -/
  offset : Nat := 0
  /-- The 4 KiB buffer (R603). Reset: zeros (DESIGN CHOICE, log entry 2). -/
  buf : Memory := []
  /-- OWNER is FIRMWARE (R603). Reset: HOST. -/
  firmware : Bool := false
  started : Bool := false
  /-- DONE (R603). Reset: 0. -/
  done : Bool := false
  /-- REFUSED (R603). Reset: 0. -/
  refused : Bool := false
  reqLen : Nat := 0
  /-- Response length (R603). Reset: 0. -/
  rspLen : Nat := 0
  /-- SMBus address (R603). Reset: 0x4A. -/
  addr : Nat := 0x4A
  /-- What the last read transaction returned (DESIGN CHOICE, log entry 6). Reset: none. -/
  returned : List Byte := []
  deriving DecidableEq, Repr, Inhabited

/-! ## Clocks, power, logs (15, 18, 19, 21) -/

/-- STATE of an island (R610). -/
inductive IslState where
  | off | reset | run | gated | retention
  deriving DecidableEq, Repr, Inhabited

/-- An island (R604, R610, R611). -/
structure Island where
  /-- ISL_STATUS.STATE (R610). Reset: RESET. -/
  state : IslState := .reset
  /-- ISL_RATE in MHz (R610). Reset: 0. -/
  rate : Nat := 0
  /-- When its counter started (R611). Reset: not started, 0. -/
  started : Option Nat := none
  /-- ISL_COUNT_HI as latched (R610). Reset: 0. -/
  countHi : Word := 0
  /-- PLL in lock (R605). Reset: no. -/
  locked : Bool := false
  deriving DecidableEq, Repr, Inhabited

/-- STATE of a crossing (R608, R610). -/
inductive CxState where
  | run | isolated | reset
  deriving DecidableEq, Repr, Inhabited

/-- A crossing (R608, R610) (DESIGN CHOICE, log entry 109). -/
structure Crossing where
  /-- CX_STATUS.STATE (R610). Reset: RESET. -/
  state : CxState := .reset
  /-- CX_OCC and its peaks (R610). Reset: 0. -/
  peakBA : Nat := 0
  occBA : Nat := 0
  peakAB : Nat := 0
  occAB : Nat := 0
  /-- CX_XFER_AB and _BA, wrapping (R610). Reset: 0. -/
  xferAB : BitVec 32 := 0
  xferBA : BitVec 32 := 0
  /-- CX_FULL_AB and _BA, saturating (R610). Reset: 0. -/
  fullAB : Nat := 0
  fullBA : Nat := 0
  /-- CX_ISOLATIONS, saturating (R610). Reset: 0. -/
  isolations : Nat := 0
  deriving DecidableEq, Repr, Inhabited

/-- A thermal sensor (R533, R623 to R627). -/
structure Sensor where
  /-- TEMP and MAX in 1/8 °C (R533). Reset: 0 (DESIGN CHOICE, log entry 1). -/
  temp : Int := 0
  max : Int := 0
  /-- THROTTLE_EVENTS, THROTTLE_MS (R533). Reset: 0. -/
  events : Nat := 0
  ms : Nat := 0
  /-- At or above its throttle threshold, with hysteresis (R624, R625). Reset: no. -/
  throttling : Bool := false
  /-- At or above its alarm threshold, with hysteresis (R624, R626). Reset: no. -/
  alarm : Bool := false
  deriving DecidableEq, Repr, Inhabited

/-- How the device as a whole stands (R608, R620, R622, R627, R645). -/
inductive Phase where
  | powerOff       -- PWROK low: power-on reset is held
  | waitDevrst     -- PWROK high, DEVRST_N low: start-up waits (R665)
  | waitPll        -- the PLLs do not lock: start-up waits at step 1 (R669)
  | strapHold      -- STRAP3 is 1: the device stays in power-on reset (R664)
  | recovery       -- no slot passes (R593)
  | running        -- start-up is complete
  | fatal          -- FATAL (R645)
  | thermalStop    -- thermal shutdown (R627)
  deriving DecidableEq, Repr, Inhabited

/-- Device power states (R613). -/
inductive Dp where
  | dp0 | dp1 | dp2 | dp3
  deriving DecidableEq, Repr, Inhabited

/-- Power, pins and the power controller (R606, R613 to R619, R657 to R665). -/
structure Power where
  phase : Phase := .powerOff
  /-- PWROK and DEVRST_N as driven (R665). Reset: low, high. -/
  pwrok : Bool := false
  devrstN : Bool := true
  /-- Board inputs as sampled when PWROK rose (R664), kept for start-up. Reset: none. -/
  board : Option BootInputs := none
  /-- Power state (R613). Reset: DP0 (R460). -/
  dp : Dp := .dp0
  /-- State whose entry is in progress (R515, R615). Reset: none. -/
  entering : Option Dp := none
  /-- A command arrived during the entry (R515). Reset: no. -/
  entryCmd : Bool := false
  /-- POWER_LIMIT in W, 0 for none (R618). Reset: 0. -/
  limit : Nat := 0
  /-- LIMIT_UNMET (R619). Reset: 0. -/
  limitUnmet : Bool := false
  /-- Package power in W averaged over 10 ms (R618, R661). Reset: 0. -/
  watts : Nat := 0
  /-- Rail telemetry: the product of voltage and current in µW, by rail (R661). Reset: none. -/
  rails : Table Nat := []
  /-- Package power in µW at the last ten polls, newest first (R618, R661). Reset: none. -/
  samples : List Nat := []
  /-- Rails whose regulator has not answered for 10 ms and has been logged (R661). Reset: none. -/
  silent : List Nat := []
  /-- Rail-fault register: VALID, OVER, index (R660). Reset: cleared (DESIGN CHOICE, log entry 1); survives resets. -/
  railFault : Option (Bool × Nat) := none
  /-- THERMTRIP_N asserted (R627, R665). Reset: no. -/
  thermtrip : Bool := false
  /-- ALERT_N asserted (R626, R645). Reset: no. -/
  alert : Bool := false
  /-- The sensor of a thermal shutdown and its reading, to be logged at the next start-up (R627). Survives; none. -/
  shutdownSensor : Option (Nat × Int) := none
  /-- WP_n asserted on the flash targets, XSPI_RESET_N driven low (R419, R659). Reset: asserted. -/
  flashProtect : Bool := true
  xspiReset : Bool := true
  /-- Patrol scrub runs (R296, R615). Reset: no. -/
  scrub : Bool := false
  /-- PMB_ALERT_N inputs logged (R661). Reset: 0. -/
  pmbAlerts : Nat := 0
  deriving DecidableEq, Repr, Inhabited

/-- An event whose requests end, while its row acts (R629). -/
structure Event where
  /-- Whether its entry is kept (R517). -/
  kept : Bool
  /-- The entries of the requests it has ended so far, of which it will have one (R629). -/
  ended : List LogEntry
  deriving DecidableEq, Repr, Inhabited

/-- The error log and the health page (R517, R532, R533). -/
structure Logs where
  /-- Entries kept, oldest first, at most 4,096 (R532). Reset: none. -/
  entries : List LogEntry := []
  /-- TOTAL (R532). Reset: 0. -/
  total : Nat := 0
  /-- LOST (R532). Reset: 0. -/
  lost : Nat := 0
  /-- Entries held during firmware activation, at most 256 (R517). Reset: none. -/
  held : List LogEntry := []
  /-- CRITICAL (R533). Reset: 0. -/
  critical : BitVec 32 := 0
  /-- NOTICE (R533). Reset: 0. -/
  notice : BitVec 32 := 0
  /-- The event that ends requests, while its row acts: none between rows (R629). Reset: none. -/
  event : Option Event := none
  deriving DecidableEq, Repr, Inhabited

/-- Device-scope features with saved and pending values (R534, R535). -/
structure Features where
  /-- COMMIT_WINDOW of classes 0 to 3 in µs (R171, R534). Reset: 0, 20, 200, 1,000. -/
  commitWindow : List Nat := [0, 20, 200, 1000]
  /-- Saved values by FID * 4 + SEL, and 1,024 more for port 1 (R535). Survives; none. -/
  saved : Table Nat := []
  /-- Pending values of FLASH_WBUF and RETRY_LIMIT, held in VDD_SB (R535). Survives resets; none. -/
  pendingWbuf : Option Nat := none
  pendingRetry : Option Nat := none
  deriving DecidableEq, Repr, Inhabited

/-- The class-0 admission bucket (R500), in units of 1/25,000 of a token: one ns of island time refills one unit. -/
structure Bucket where
  /-- Tokens times 25,000 (R500). Reset: 256 tokens. -/
  level : Nat := 6400000
  /-- Island time of the last draw (R500). Reset: 0. -/
  last : Nat := 0
  deriving DecidableEq, Repr, Inhabited

/-- The state of the block. -/
structure State where
  /-- Commands that wait, first in, first out. Reset: empty. -/
  pending : List Instr := []
  /-- Nanoseconds that have passed, the model's own clock from which island counters are read (R611; DESIGN CHOICE, log entry 4). Reset: 0. -/
  time : Nat := 0
  /-- Power, pins, phase. -/
  power : Power := {}
  /-- Islands by number (R604). Reset: all in RESET. -/
  islands : Table Island := []
  /-- Crossings by number (R609). Reset: all in RESET. -/
  crossings : Table Crossing := []
  /-- Thermal sensors (R623). Reset: as Sensor. -/
  sensors : Table Sensor := []
  /-- Port 0 (R460). -/
  port0 : Port := {}
  /-- Port 1 (R460). -/
  port1 : Port := {}
  /-- Commands fetched and not yet posted, by serial number in fetch order (R487, R503). Reset: none. -/
  cmds : Table Cmd := []
  /-- Next serial number. Reset: 0. -/
  nextCmd : Nat := 0
  /-- Class-0 admission bucket (R500). Reset: full. -/
  bucket : Bucket := {}
  /-- Collection slots by INDEX (R46, R47). Reset: none. -/
  colls : Table Collection := []
  /-- GENERATION last used by each slot (R47). Reset: none used. -/
  gens : Table Nat := []
  /-- Arrivals at the coarse stage and at squares so far, the model's own count by which R101 and R148 order them. Reset: 0. -/
  arrivals : Nat := 0
  /-- HBM level of the last coarse pass's centroid reads, by die (R101). Reset: none. -/
  coarseLevels : Table Nat := []
  /-- Open and launched batches (R112). Reset: none. -/
  batches : Table Batch := []
  nextBatch : Nat := 0
  /-- Logical cores (R29). Reset: as Core. -/
  cores : Table Core := []
  /-- Quarters (R28). Reset: as Quarter. -/
  quarters : Table Quarter := []
  /-- Schedule slots by INDEX (R205). Reset: none. -/
  scheds : Table Sched := []
  /-- Runs by number (R217). Reset: none. -/
  runs : Table Run := []
  nextRun : Nat := 0
  /-- Streams by quarter * 16 + stream (R319). Reset: IDLE. -/
  streams : Table Stream := []
  /-- Engines by quarter (R333). Reset: as Engine. -/
  engines : Table Engine := []
  /-- Pieces in flight by number (R330). Reset: none. -/
  pieces : Table Piece := []
  nextPiece : Nat := 0
  /-- Events sent to stream owners, oldest first (R347). Reset: none. -/
  events : List StreamEvent := []
  /-- Alley transfers outstanding, by core * 64 + slot (R349). Reset: none. -/
  alleys : Table Alley := []
  /-- Local stores by core * 2^18 + offset (R238). Reset: zeros (DESIGN CHOICE, log entry 2). -/
  localStore : Memory := []
  /-- Shared cache (R249). -/
  cache : Cache := {}
  /-- HBM (R275). -/
  hbm : Hbm := {}
  /-- Region table and windows (R360, R384). -/
  protect : Protect := {}
  /-- Tiers (R395). -/
  tiers : Tiers := {}
  /-- Flash (R419). -/
  flash : Flash := {}
  /-- Denop links (R548). -/
  net : Net := {}
  /-- Security block and boot flash (R582). -/
  security : Security := {}
  /-- Sideband mailbox (R603). -/
  sideband : Sideband := {}
  /-- Error log and health (R532). -/
  logs : Logs := {}
  /-- Features (R534). -/
  features : Features := {}
  /-- Free values used so far (the model's own, DESIGN CHOICE, log entry 9). Reset: 0. -/
  free : Nat := 0
  deriving DecidableEq, Repr, Inhabited

/-- Right after a power-on reset: nothing started, PWROK not yet sampled, every register at its reset value (R620, R622)
(DESIGN CHOICE, log entry 52). -/
def State.reset : State := {}

/-- The fault reasons. No rule of the manual stops the block: errors are statuses, log entries and the FATAL state, each a next
state. The one reason is kept for a state that no run reaches. -/
inductive Fault where
  /-- Raised by nothing in this model (safe: a stop where the device goes on proves nothing false). -/
  | unreachable
  deriving DecidableEq, Repr

/-- The refusal reasons. -/
inductive Refusal where
  /-- Raised by exec for a row that has no meaning yet (safe: nothing can be proved of such a row). -/
  | notModelled (mnemonic : String)
  deriving DecidableEq, Repr

end Sys2Proof.Machine
end

