-- ==== Sys2Proof/Machine/Flags.lean ====
section
/-! DEFINITION. Status codes and which of them freeze (R497, R525), the kinds of error-log entries (R628), event bits
(R460) and health bits (R533). -/

namespace Sys2Proof.Machine

open Sys2Proof

/-- The 16-bit code of a status (R497, R525). -/
def statusCode : Status → Nat
  | .success => 0x0000 | .shortResult => 0x0001 | .truncated => 0x0002 | .busyRetry => 0x0003 | .aborted => 0x0004
  | .invalidOpcode => 0x0100 | .invalidField => 0x0101 | .duplicateTag => 0x0102 | .lengthError => 0x0103
  | .accessError => 0x0104 | .invalidVector => 0x0105 | .noCollection => 0x0106 | .collectionBusy => 0x0107
  | .collectionParked => 0x0108 | .snapshotUnavailable => 0x0109 | .idExists => 0x010A | .idNotFound => 0x010B
  | .idExhausted => 0x010C | .epochExhausted => 0x010D | .objectBusy => 0x010E | .noSpace => 0x010F
  | .scheduleInfeasible => 0x0110
  | .dataError => 0x0200 | .tierLate => 0x0201 | .numericFault => 0x0202 | .scheduleFault => 0x0203
  | .coreFault => 0x0204 | .hostFault => 0x0205 | .hostAbort => 0x0206 | .peerLost => 0x0207
  | .fwImageInvalid => 0x0300 | .fwRollback => 0x0301 | .fwSequence => 0x0302 | .fwNoImage => 0x0303
  | .fwActivationBusy => 0x0304 | .notMember => 0x0305 | .attestUnavailable => 0x0306

/-- Whether a status freezes its SQ (R497, R525): every code from 0x0100 up. -/
def freezes (st : Status) : Bool := decide (0x0100 ≤ statusCode st)

/-- Whether a result of the command stands (R21): success or an informational status. -/
def informational (st : Status) : Bool := decide (statusCode st ≤ 2)

/-- What an error-log entry says of its cause (R628): KIND, LOCATION, DETAIL. -/
structure Cause where
  kind : Nat := 0
  loc : Nat := 0
  detail : Nat := 0
  deriving DecidableEq, Repr, Inhabited

/-- The KIND codes of R628. -/
def kindCommand : Nat := 0x00
def kindHbmData : Nat := 0x01
def kindHbmRepair : Nat := 0x02
def kindCache : Nat := 0x03
def kindCore : Nat := 0x04
def kindSquare : Nat := 0x05
def kindTier : Nat := 0x06
def kindFlash : Nat := 0x07
def kindHost : Nat := 0x08
def kindPeer : Nat := 0x09
def kindLink : Nat := 0x0A
def kindIsland : Nat := 0x0B
def kindThermal : Nat := 0x0C
def kindSparing : Nat := 0x0D
def kindLostObject : Nat := 0x0E
def kindFirmware : Nat := 0x0F

/-- The cause of KIND PEER: the device; the window and the packet's TYPE in 4 bytes each (R628; DESIGN CHOICE, log entry 64). -/
def peerCause (device window type : Nat) : Cause := { kind := kindPeer, loc := device, detail := window + type * 2 ^ 32 }

/-- The KIND of a status that a cause does not name otherwise (R628). -/
def statusKind : Status → Nat
  | .tierLate | .scheduleFault => kindTier
  | .coreFault => kindCore
  | .hostFault | .hostAbort => kindHost
  | .peerLost => kindPeer
  | .dataError => kindHbmData
  | _ => 0

/-- Bits of EVENT_STATUS (R460). -/
def evErrorLog : Nat := 0
def evQueueFrozen : Nat := 1
def evHotPage : Nat := 2
def evHealth : Nat := 3
def evFwActivated : Nat := 4
def evOtherPortReset : Nat := 5

/-- Bits of CRITICAL (R533). -/
def critHbm : Nat := 0
def critT4ReadOnly : Nat := 1
def critThermal : Nat := 2
def critPortDown : Nat := 3
def critQuarter : Nat := 4
def critFatal : Nat := 5

/-- Log page numbers (R531), and the bit of NOTICE that says identify data changed (R533). -/
def lidError : Nat := 1
def lidHealth : Nat := 2
def lidHbm : Nat := 3
def lidLink : Nat := 4
def lidFlash : Nat := 5
def lidThermal : Nat := 6
def lidHot : Nat := 7
def noticeIdentify : Nat := 15

/-- A word with bit i set, and with it cleared. -/
def setBit {w : Nat} (v : BitVec w) (i : Nat) : BitVec w := v ||| BitVec.twoPow w i
def clearBit {w : Nat} (v : BitVec w) (i : Nat) : BitVec w := v &&& ~~~ BitVec.twoPow w i

/-- A bit as a number. -/
def b2n (b : Bool) : Nat := if b then 1 else 0

/-- Codes of register fields. -/
def qstateCode : QState → Nat | .absent => 0 | .active => 1 | .frozen => 2 | .deleting => 3
def dpCode : Dp → Nat | .dp0 => 0 | .dp1 => 1 | .dp2 => 2 | .dp3 => 3
def residencyCode : Residency → Nat | .resident => 0 | .parking => 1 | .parkedT3 => 2 | .parkedT4 => 3 | .waking => 4
def portNum : PortId → Nat | .p0 => 0 | .p1 => 1
def otherPort : PortId → PortId | .p0 => .p1 | .p1 => .p0

end Sys2Proof.Machine
end

