-- ==== Sys2Proof/Machine/Table.lean ====
section
/-! DEFINITION. Operations on the sparse tables that hold numbered parts: entries with rising numbers, no number twice. -/

namespace Sys2Proof.Machine.Tab

variable {α β : Type}

/-- The entry of number k, if listed. -/
def get? : Table α → Nat → Option α
  | [], _ => none
  | (j, a) :: t, k => if j = k then some a else get? t k

/-- The entry of number k, or d where it is not listed. -/
def getD (t : Table α) (k : Nat) (d : α) : α := (get? t k).getD d

/-- Whether number k is listed. -/
def has (t : Table α) (k : Nat) : Bool := (get? t k).isSome

/-- Lists a under number k, in the place of an entry already there. -/
def set : Table α → Nat → α → Table α
  | [], k, a => [(k, a)]
  | (j, b) :: t, k, a =>
    if k < j then (k, a) :: (j, b) :: t
    else if k = j then (k, a) :: t
    else (j, b) :: set t k a

/-- Takes number k off the table. -/
def erase : Table α → Nat → Table α
  | [], _ => []
  | (j, b) :: t, k => if j = k then t else (j, b) :: erase t k

/-- Changes the listed entry k by f; nothing where k is not listed. -/
def adjust : Table α → Nat → (α → α) → Table α
  | [], _, _ => []
  | (j, b) :: t, k, f => if j = k then (j, f b) :: t else (j, b) :: adjust t k f

/-- Changes entry k by f, starting from d where k is not listed. -/
def modify (t : Table α) (k : Nat) (d : α) (f : α → α) : Table α := set t k (f (getD t k d))

/-- The numbers listed. -/
def keys (t : Table α) : List Nat := t.map (·.1)

/-- What is listed. -/
def vals (t : Table α) : List α := t.map (·.2)

/-- Changes every entry by f. -/
def map (t : Table α) (f : α → β) : Table β := t.map fun (k, a) => (k, f a)

/-- Changes every entry by f, which sees its number. -/
def mapKeys (t : Table α) (f : Nat → α → β) : Table β := t.map fun (k, a) => (k, f k a)

/-- Keeps the entries that p accepts. -/
def keep (t : Table α) (p : Nat → α → Bool) : Table α := t.filter fun (k, a) => p k a

/-- Numbers rise along the table. -/
def wf : Table α → Bool
  | [] => true
  | [_] => true
  | (j, _) :: (k, b) :: t => decide (j < k) && wf ((k, b) :: t)

/-- The least number from lo to lo + n - 1 that passes a test. -/
def firstNat (p : Nat → Bool) (lo : Nat) : Nat → Option Nat
  | 0 => none
  | n + 1 => if p lo then some lo else firstNat p (lo + 1) n

/-- The least number from lo to lo + n - 1 that is not listed. -/
def firstFree (t : Table α) (lo : Nat) : Nat → Option Nat
  | 0 => none
  | n + 1 => if has t lo then firstFree t (lo + 1) n else some lo

end Sys2Proof.Machine.Tab
end

