-- ==== Sys2Proof/Machine/Bits.lean ====
section
/-! DEFINITION. Byte strings and words: little-endian numbers (R7), byte memory in its canonical form, CRC-32. -/

namespace Sys2Proof.Machine

open Sys2Proof

/-! ## Byte strings -/

/-- The number that bytes spell, least significant first (R7). -/
def leNat : List Byte → Nat
  | [] => 0
  | b :: t => b.toNat + 256 * leNat t

/-- The n bytes of a number, least significant first (R7). -/
def leBytes : Nat → Nat → List Byte
  | 0, _ => []
  | n + 1, v => BitVec.ofNat 8 v :: leBytes n (v / 256)

/-- The n bytes at offset i of a byte string; zero past its end. -/
def slice (l : List Byte) (i n : Nat) : List Byte :=
  let t := (l.drop i).take n
  t ++ List.replicate (n - t.length) 0

/-- The little-endian number in the n bytes at offset i. -/
def field (l : List Byte) (i n : Nat) : Nat := leNat ((l.drop i).take n)

/-- Bits hi to lo of a number. -/
def bitsOf (v hi lo : Nat) : Nat := (v >>> lo) % 2 ^ (hi - lo + 1)

/-- Bit i of a number. -/
def bitOf (v i : Nat) : Bool := v.testBit i

/-- A byte string with the given bytes laid over it from offset i. -/
def patch (l : List Byte) (i : Nat) (b : List Byte) : List Byte := l.take i ++ b ++ l.drop (i + b.length)

/-- Cuts a byte string into pieces of n bytes (the fuel is the string's length). -/
def chunks {α : Type} (n : Nat) (l : List α) : List (List α) :=
  if n = 0 then [] else (List.range ((l.length + n - 1) / n)).map fun i => (l.drop (i * n)).take n

/-- Whether all bytes are zero. -/
def allZero (l : List Byte) : Bool := l.all (· == 0)

/-- Bytes of an ASCII string. -/
def ascii (cs : List Char) : List Byte := cs.map fun c => BitVec.ofNat 8 c.toNat

/-- A byte string cut or filled with zeros to n bytes. -/
def pad (n : Nat) (l : List Byte) : List Byte := slice l 0 n

/-- Whether a number is a multiple of m. -/
def aligned (a m : Nat) : Bool := a % m == 0

/-- Division rounding up. -/
def ceilDiv (a b : Nat) : Nat := (a + b - 1) / b

/-- Adds without passing the top value (R11: a counter that holds at its maximum). -/
def satAdd (top a b : Nat) : Nat := min top (a + b)

/-! ## Byte memory -/

namespace Mem

/-- The byte at address a; an unlisted address reads zero (DESIGN CHOICE, log entry 2). -/
def read (m : List (Nat × Byte)) (a : Nat) : Byte := Tab.getD m a 0

/-- The memory with byte b at address a, in its canonical form: a zero is not listed. -/
def write (m : List (Nat × Byte)) (a : Nat) (b : Byte) : List (Nat × Byte) :=
  if b = 0 then Tab.erase m a else Tab.set m a b

/-- The n bytes from address a. -/
def readN (m : List (Nat × Byte)) (a : Nat) : Nat → List Byte
  | 0 => []
  | n + 1 => read m a :: readN m (a + 1) n

/-- The memory with bytes laid from address a. -/
def writeN (m : List (Nat × Byte)) (a : Nat) : List Byte → List (Nat × Byte)
  | [] => m
  | b :: t => writeN (write m a b) (a + 1) t

/-- Replaces the n bytes from an address by given ones, and zero after them. -/
def fill (m : List (Nat × Byte)) (a n : Nat) (b : List Byte) : List (Nat × Byte) :=
  (m.filter fun x => decide (x.1 < a)) ++ (((b.take n).zipIdx.filter fun x => !(x.1 == 0)).map fun (v, i) => (a + i, v))
    ++ m.filter fun x => decide (a + n ≤ x.1)

/-- The canonical form: addresses rise and no listed byte is zero. -/
def wf (m : List (Nat × Byte)) : Bool := Tab.wf m && m.all fun c => !(c.2 == 0)

end Mem

/-! ## CRC-32 (R558, R561) -/

/-- One bit of the reflected CRC-32 of polynomial 0x04C11DB7. -/
def crcBit (c : BitVec 32) : BitVec 32 := if c.getLsbD 0 then (c >>> 1) ^^^ 0xEDB88320#32 else c >>> 1

/-- n bits. -/
def crcBits : Nat → BitVec 32 → BitVec 32
  | 0, c => c
  | n + 1, c => crcBits n (crcBit c)

/-- CRC-32 over bytes from a running value. -/
def crcRun : List Byte → BitVec 32 → BitVec 32
  | [], c => c
  | b :: t, c => crcRun t (crcBits 8 (c ^^^ b.setWidth 32))

/-- CRC-32, all ones in, all ones XOR out. -/
def crc32 (l : List Byte) : BitVec 32 := ~~~ crcRun l (~~~ 0#32)

end Sys2Proof.Machine
end

