-- ==== Sys2Proof/Machine/Float.lean ====
section
/-! DEFINITION. FP32 arithmetic, computed exactly on integers and rounded once to nearest even, subnormals kept (R200); the
narrower formats (R55); the clamp of R59 and the distance key (R57); the fixed orders of summation (R198, R202). -/

namespace Sys2Proof.Machine

open Sys2Proof

/-- A value before rounding: not a number, an infinity, or a sign with m * 2 ^ e. -/
inductive FVal where
  | nan
  | inf (neg : Bool)
  | fin (neg : Bool) (m : Nat) (e : Int)
  deriving DecidableEq, Repr, Inhabited

/-- Rounds m / 2 ^ sh to the nearest integer, ties to even. -/
def roundShift (m sh : Nat) : Nat :=
  let q := m >>> sh
  let r := m - q <<< sh
  let h := 2 ^ sh
  if 2 * r < h then q else if h < 2 * r then q + 1 else if sh = 0 then q else q + q % 2

/-- Rounds n / d to the nearest integer, ties to even. -/
def roundDiv (n d : Nat) : Nat :=
  let q := n / d
  let r := n % d
  if 2 * r < d then q else if d < 2 * r then q + 1 else q + q % 2

/-- m * 2 ^ e rounded to p bits with no exponent below lo: the pair of the new m and e. -/
def roundTo (p : Nat) (lo : Int) (m : Nat) (e : Int) : Nat × Int :=
  let len : Int := Nat.log2 m + 1
  let e' : Int := max lo (e + len - p)
  if e' ≤ e then (m <<< (e - e').toNat, e') else (roundShift m (e' - e).toNat, e')

/-- The bits of a rounded magnitude in a format of p significant bits whose least exponent is lo: exponent field and
fraction, subnormals included. A carry out of the fraction raises the exponent. -/
def packBits (p : Nat) (lo : Int) (r : Nat × Int) : Nat := (r.2 - lo).toNat * 2 ^ (p - 1) + r.1

/-! ## FP32 -/

/-- +MAX_FINITE and -MAX_FINITE (R57). -/
def maxFinite : F32 := 0x7F7FFFFF#32
def minFinite : F32 := 0xFF7FFFFF#32

/-- The value of an FP32 pattern. -/
def f32Val (b : F32) : FVal :=
  let n := b.toNat
  let ex := bitsOf n 30 23
  let fr := bitsOf n 22 0
  let neg := bitOf n 31
  if ex = 255 then (if fr = 0 then .inf neg else .nan)
  else if ex = 0 then .fin neg fr (-149)
  else .fin neg (fr + 2 ^ 23) ((ex : Int) - 150)

/-- The pattern of sign and magnitude bits. -/
def signed32 (neg : Bool) (mag : Nat) : F32 := BitVec.ofNat 32 (mag + if neg then 2 ^ 31 else 0)

/-- The FP32 pattern nearest to a value, ties to even; a magnitude past the range is an infinity. -/
def toF32 : FVal → F32
  | .nan => 0x7FC00000#32
  | .inf neg => signed32 neg 0x7F800000
  | .fin neg m e =>
    if m = 0 then signed32 neg 0
    else signed32 neg (min 0x7F800000 (packBits 24 (-149) (roundTo 24 (-149) m e)))

/-- The value of the integer i times 2 ^ e; an exact zero takes the sign z. -/
def ofSigned (z : Bool) (i : Int) (e : Int) : FVal :=
  if i = 0 then .fin z 0 e else .fin (decide (i < 0)) i.natAbs e

/-- The signed integer of a magnitude. -/
def sgn (neg : Bool) (m : Nat) : Int := if neg then -(m : Int) else m

/-- The exact sum of two values (a sum of opposite equal values is +0, nearest even). -/
def addVal : FVal → FVal → FVal
  | .nan, _ => .nan
  | _, .nan => .nan
  | .inf a, .inf b => if a = b then .inf a else .nan
  | .inf a, .fin .. => .inf a
  | .fin .., .inf b => .inf b
  | .fin s m e, .fin t n f =>
    let g := min e f
    ofSigned (s && t) (sgn s (m <<< (e - g).toNat) + sgn t (n <<< (f - g).toNat)) g

/-- The exact product of two values. -/
def mulVal : FVal → FVal → FVal
  | .nan, _ => .nan
  | _, .nan => .nan
  | .inf a, .inf b => .inf (a != b)
  | .inf a, .fin t n _ => if n = 0 then .nan else .inf (a != t)
  | .fin s m _, .inf b => if m = 0 then .nan else .inf (s != b)
  | .fin s m e, .fin t n f => .fin (s != t) (m * n) (e + f)

/-- The negation of a value. -/
def negVal : FVal → FVal
  | .nan => .nan
  | .inf a => .inf (!a)
  | .fin s m e => .fin (!s) m e

/-- The quotient of two values, with 64 bits beyond the divisor and a sticky bit below them. -/
def divVal : FVal → FVal → FVal
  | .nan, _ => .nan
  | _, .nan => .nan
  | .inf _, .inf _ => .nan
  | .inf a, .fin t _ _ => .inf (a != t)
  | .fin s _ _, .inf b => .fin (s != b) 0 0
  | .fin s m e, .fin t n f =>
    if n = 0 then (if m = 0 then .nan else .inf (s != t))
    else
      let q := (m <<< 64) / n
      let r := (m <<< 64) % n
      .fin (s != t) (2 * q + if r = 0 then 0 else 1) (e - f - 65)

/-- The integer square root of n, bit by bit from 2 ^ (k - 1). -/
def isqrt (n : Nat) : Nat → Nat → Nat
  | 0, r => r
  | k + 1, r => let c := r + 2 ^ k; isqrt n k (if c * c ≤ n then c else r)

/-- The square root of a value, with a sticky bit. -/
def sqrtVal : FVal → FVal
  | .nan => .nan
  | .inf a => if a then .nan else .inf false
  | .fin s m e =>
    if m = 0 then .fin s 0 0
    else if s then .nan
    else
      let odd := (e % 2).toNat
      let n := m <<< (64 + odd)
      let r := isqrt n 48 0
      .fin false (2 * r + if r * r = n then 0 else 1) ((e - odd - 64) / 2 - 1)

/-- FP32 operations, each rounded once to nearest even. -/
def fadd32 (a b : F32) : F32 := toF32 (addVal (f32Val a) (f32Val b))
def fneg32 (a : F32) : F32 := a ^^^ 0x80000000#32
def fsub32 (a b : F32) : F32 := toF32 (addVal (f32Val a) (negVal (f32Val b)))
def fmul32 (a b : F32) : F32 := toF32 (mulVal (f32Val a) (f32Val b))
def fma32 (a b c : F32) : F32 := toF32 (addVal (mulVal (f32Val a) (f32Val b)) (f32Val c))
def fdiv32 (a b : F32) : F32 := toF32 (divVal (f32Val a) (f32Val b))
def fsqrt32 (a : F32) : F32 := toF32 (sqrtVal (f32Val a))

/-- The FP32 value of a natural number. -/
def natF32 (n : Nat) : F32 := toF32 (.fin false n 0)

/-- Whether a pattern is NaN, and whether it is NaN or an infinity. -/
def isNan32 (a : F32) : Bool := f32Val a == .nan
def notFinite32 (a : F32) : Bool := bitsOf a.toNat 30 23 == 255

/-- The replacement of R59. -/
def clamp59 (a : F32) : F32 :=
  match f32Val a with
  | .nan => maxFinite
  | .inf neg => if neg then minFinite else maxFinite
  | .fin .. => a

/-- The distance after the clamping of R57. -/
def clampDist (a : F32) : F32 := let c := clamp59 a; if c = 0x80000000#32 then 0 else c

/-- The distance key (R57). -/
def distKey (a : F32) : BitVec 32 :=
  let b := clampDist a
  if b.getLsbD 31 then ~~~ b else b ^^^ 0x80000000#32

/-- Whether one finite distance is below another (R58: keys compare as the distances do). -/
def fless (a b : F32) : Bool := decide ((distKey a).toNat < (distKey b).toNat)

/-- A non-negative FP32 value rounded to the nearest integer, ties to even (rni of R103). -/
def rni (a : F32) : Nat :=
  match f32Val a with
  | .fin _ m e => if 0 ≤ e then m <<< e.toNat else roundShift m (-e).toNat
  | _ => 0

/-! ## Narrower formats (R55, R56) -/

/-- BF16 widened exactly. -/
def bf16To32 (b : B16) : F32 := b ++ 0#16

/-- FP32 to BF16, nearest even. -/
def toBf16 (a : F32) : B16 :=
  match f32Val a with
  | .nan => 0x7FC0#16
  | .inf neg => if neg then 0xFF80#16 else 0x7F80#16
  | .fin neg m e =>
    let mag := if m = 0 then 0 else min 0x7F80 (packBits 8 (-133) (roundTo 8 (-133) m e))
    BitVec.ofNat 16 (mag + if neg then 2 ^ 15 else 0)

/-- FP16 widened exactly. -/
def fp16To32 (b : BitVec 16) : F32 :=
  let n := b.toNat
  let ex := bitsOf n 14 10
  let fr := bitsOf n 9 0
  let neg := bitOf n 15
  if ex = 31 then (if fr = 0 then toF32 (.inf neg) else toF32 .nan)
  else if ex = 0 then toF32 (.fin neg fr (-24))
  else toF32 (.fin neg (fr + 2 ^ 10) ((ex : Int) - 25))

/-- FP32 to FP16, nearest even, saturating at 65,504. -/
def toFp16 (a : F32) : BitVec 16 :=
  match f32Val a with
  | .nan => 0x7E00#16
  | .inf neg => if neg then 0xFBFF#16 else 0x7BFF#16
  | .fin neg m e =>
    let mag := if m = 0 then 0 else min 0x7BFF (packBits 11 (-24) (roundTo 11 (-24) m e))
    BitVec.ofNat 16 (mag + if neg then 2 ^ 15 else 0)

/-- FP8 E4M3 widened exactly. -/
def e4m3To32 (b : Byte) : F32 :=
  let n := b.toNat
  let ex := bitsOf n 6 3
  let fr := bitsOf n 2 0
  let neg := bitOf n 7
  if ex = 15 && fr == 7 then toF32 .nan
  else if ex = 0 then toF32 (.fin neg fr (-9))
  else toF32 (.fin neg (fr + 8) ((ex : Int) - 10))

/-- FP32 to FP8 E4M3, nearest even, saturating at 448. -/
def toE4m3 (a : F32) : Byte :=
  match f32Val a with
  | .nan => 0x7F#8
  | .inf neg => if neg then 0xFE#8 else 0x7E#8
  | .fin neg m e =>
    let mag := if m = 0 then 0 else min 0x7E (packBits 4 (-9) (roundTo 4 (-9) m e))
    BitVec.ofNat 8 (mag + if neg then 128 else 0)

/-- FP32 to INT8: the exact quotient by the scale, rounded once to nearest even, saturated to -127 to 127 (R55). -/
def toInt8 (scale a : F32) : Byte :=
  match f32Val a, f32Val scale with
  | .fin neg m e, .fin _ n f =>
    if n = 0 then 0
    else
      let g := min e f
      let q := min 127 (roundDiv (m <<< (e - g).toNat) (n <<< (f - g).toNat))
      BitVec.ofInt 8 (sgn neg q)
  | _, _ => 0

/-- INT8 widened: k times the scale, one FP32 multiplication (R56). -/
def int8To32 (scale : F32) (b : Byte) : F32 := fmul32 (toF32 (ofSigned false b.toInt 0)) scale

/-! ## Summation orders -/

/-- One level of the pairwise tree of R198. -/
def pairUp (f : F32 → F32 → F32) : List F32 → List F32
  | a :: b :: t => f a b :: pairUp f t
  | l => l

/-- n levels of the pairwise tree. -/
def treeSum (f : F32 → F32 → F32) : Nat → List F32 → F32
  | 0, l => l.headD 0
  | n + 1, l => treeSum f n (pairUp f l)

/-- One row of up to 64 elements into the lanes (R202). -/
def laneRow (f : F32 → F32 → F32 → F32) : List F32 → List F32 → List F32 → List F32
  | p :: ps, a :: as, b :: bs => f a b p :: laneRow f ps as bs
  | ps, _, _ => ps

/-- The lanes after all rows, in increasing order of element (R202). -/
def lanes (f : F32 → F32 → F32 → F32) : Nat → List F32 → List F32 → List F32 → List F32
  | 0, ps, _, _ => ps
  | n + 1, ps, as, bs => lanes f n (laneRow f ps (as.take 64) (bs.take 64)) (as.drop 64) (bs.drop 64)

/-- The clamped addition, subtraction, multiplication, division and fma of the search, insert and re-rank paths (R59). -/
def cadd (a b : F32) : F32 := clamp59 (fadd32 a b)
def csub (a b : F32) : F32 := clamp59 (fsub32 a b)
def cmul (a b : F32) : F32 := clamp59 (fmul32 a b)
def cdiv (a b : F32) : F32 := clamp59 (fdiv32 a b)
def cfma (a b c : F32) : F32 := clamp59 (fma32 a b c)

/-- The lane reduction of R202 with lane step f, clamped (R59). -/
def reduce64 (f : F32 → F32 → F32 → F32) (as bs : List F32) : F32 :=
  treeSum cadd 6 (lanes f (as.length / 64 + 1) (List.replicate 64 0) as bs)

/-- The squared norm of a vector (R53 step 1). -/
def sqNorm (x : List F32) : F32 := reduce64 (fun a b p => cfma a b p) x x

/-- The normalised vector (R53), none when the squared norm is zero (R54). -/
def normalise (x : List F32) : Option (List F32) :=
  let s := sqNorm x
  if s = 0 then none
  else let n := clamp59 (fsqrt32 s); some (x.map fun v => cdiv v n)

/-- One chunk of 32 products of the matrix unit, padded with zeros (R198). -/
def chunkDot (as bs : List F32) : F32 :=
  let ps := List.zipWith cmul as bs
  treeSum cadd 5 (ps ++ List.replicate (32 - ps.length) 0)

/-- The matrix unit's dot product in chunks of 32, clamped at every step (R198, R59). -/
def matDot : Nat → F32 → List F32 → List F32 → F32
  | 0, acc, _, _ => acc
  | n + 1, acc, as, bs => matDot n (cadd acc (chunkDot (as.take 32) (bs.take 32))) (as.drop 32) (bs.drop 32)

/-- A chain of fma in increasing order of dimension (R102). -/
def fmaChain (f : F32 → F32 → F32 → F32) : F32 → List F32 → List F32 → F32
  | p, a :: as, b :: bs => fmaChain f (f a b p) as bs
  | p, _, _ => p

/-- The lane step of a squared distance: d rounded, then fma (R102, R226). -/
def sqStep (a b p : F32) : F32 := let d := csub a b; cfma d d p

/-- The squared distance of two subvectors as one chain (R70, R102). -/
def chainSq (a b : List F32) : F32 := fmaChain sqStep 0 a b

/-- The inner product of two subvectors as one chain (R102). -/
def chainDot (a b : List F32) : F32 := fmaChain cfma 0 a b

end Sys2Proof.Machine
end

