-- ==== Sys2Proof/Machine/Operands.lean ====
section
/-! DEFINITION. The operand forms of commands: fields of the 128-byte submission entry (R488 to R493, and the admin areas of
R483, R526, R531, R534, R538 to R545), its defined bits (R17), filter terms (R124 to R127), items and ID lists (R159), the
attribute record (R536), handles and vector IDs (R47, R60). -/

namespace Sys2Proof.Machine

open Sys2Proof

/-! ## The submission entry (R488) -/

/-- The n bytes of an entry from byte offset off, as a number. -/
def ef (e : BitVec 1024) (off n : Nat) : Nat := (e.toNat >>> (8 * off)) % 2 ^ (8 * n)

/-- Bits hi to lo of the 4 bytes at offset off. -/
def efb (e : BitVec 1024) (off hi lo : Nat) : Nat := bitsOf (ef e off 4) hi lo

def eOpcode (e : BitVec 1024) : Nat := ef e 0x00 1
def eClass (e : BitVec 1024) : Nat := bitsOf (ef e 0x01 1) 1 0
def eExpert (e : BitVec 1024) : Bool := bitOf (ef e 0x01 1) 2
def eTag (e : BitVec 1024) : Nat := ef e 0x02 2
def eHandle (e : BitVec 1024) : Nat := ef e 0x04 4
def eIndex (e : BitVec 1024) : Nat := eHandle e % 65536
def eInAddr (e : BitVec 1024) : Nat := ef e 0x08 8
def eInLen (e : BitVec 1024) : Nat := ef e 0x10 4
def eInRegion (e : BitVec 1024) : Bool := bitOf (ef e 0x14 2) 15
def eInSel (e : BitVec 1024) : Nat := ef e 0x14 2 % 4096
def eOutAddr (e : BitVec 1024) : Nat := ef e 0x18 8
def eOutLen (e : BitVec 1024) : Nat := ef e 0x20 4
def eOutRegion (e : BitVec 1024) : Bool := bitOf (ef e 0x24 2) 15
def eOutSel (e : BitVec 1024) : Nat := ef e 0x24 2 % 4096

/-! ### SEARCH (R491) -/

def eSnapshot (e : BitVec 1024) : Nat := ef e 0x28 8
def eScanBudget (e : BitVec 1024) : Nat := ef e 0x30 4
def eQueryLen (e : BitVec 1024) : Nat := ef e 0x34 4
def eK (e : BitVec 1024) : Nat := efb e 0x38 20 0
def eRerankDepth (e : BitVec 1024) : Nat := efb e 0x3C 20 0
def eRerank (e : BitVec 1024) : Nat := efb e 0x3C 22 21
def eNprobe (e : BitVec 1024) : Nat := efb e 0x40 16 0
def eTerms (e : BitVec 1024) : Nat := efb e 0x40 21 17
def eQueryFormat (e : BitVec 1024) : Nat := efb e 0x40 24 22
def eSnapValid (e : BitVec 1024) : Bool := efb e 0x40 25 25 == 1
def eWidenLimit (e : BitVec 1024) : Nat := efb e 0x44 16 0
def eBatchHold (e : BitVec 1024) : Nat := ef e 0x48 2

/-! ### INSERT, UPSERT, DELETE, FETCH (R492) and the rest (R493) -/

def eCount (e : BitVec 1024) : Nat := efb e 0x30 16 0
def eInputFormat (e : BitVec 1024) : Nat := efb e 0x30 19 17
def eOutputFp32 (e : BitVec 1024) : Bool := efb e 0x30 20 20 == 1
def eFetchSnapValid (e : BitVec 1024) : Bool := efb e 0x30 21 21 == 1
def eDurable (e : BitVec 1024) : Bool := bitOf (ef e 0x28 1) 0
def eTargetTag (e : BitVec 1024) : Nat := ef e 0x28 2
def eTargetQp (e : BitVec 1024) : Nat := ef e 0x2A 2 % 2048
def eObject (e : BitVec 1024) : Nat := efb e 0x28 2 0
def eTarget (e : BitVec 1024) : Nat := efb e 0x28 5 3
def eWithData (e : BitVec 1024) : Bool := efb e 0x28 6 6 == 1
def eDeferLimit (e : BitVec 1024) : Nat := ef e 0x2C 2

/-! ### Admin areas -/

def eQp (e : BitVec 1024) : Nat := ef e 0x3C 2
def eMode (e : BitVec 1024) : Nat := ef e 0x40 1
def eFid (e : BitVec 1024) : Nat := ef e 0x28 1
def eSel (e : BitVec 1024) : Nat := ef e 0x29 1
def eFlags (e : BitVec 1024) : Nat := ef e 0x2A 1
def eValue (e : BitVec 1024) : Nat := ef e 0x30 8
def eCns (e : BitVec 1024) : Nat := ef e 0x28 1
def eLid (e : BitVec 1024) : Nat := ef e 0x28 1
def eOffset (e : BitVec 1024) : Nat := ef e 0x30 8
def eSlot (e : BitVec 1024) : Nat := ef e 0x28 1
def eSlotFlag (e : BitVec 1024) : Bool := bitOf (ef e 0x29 1) 0
def eChannel (e : BitVec 1024) : Nat := ef e 0x28 2
def eSetMask (e : BitVec 1024) : Nat := ef e 0x28 4

/-- A feature of R534: its least and greatest value, whether it is an expert feature, whether it belongs to a port, and its default;
COMMIT_WINDOW has one for each class. -/
structure FeatureSpec where
  lo : Nat
  hi : Nat
  expert : Bool
  port : Bool
  default : Nat
  deriving DecidableEq, Repr, Inhabited

/-- The feature that FID and SEL name, if there is one (R534). -/
def featureSpec (fid sel : Nat) : Option FeatureSpec :=
  if fid = 1 then
    if sel < 4 then some { lo := 0, hi := 10000, expert := false, port := false, default := ([0, 20, 200, 1000][sel]?).getD 0 }
    else none
  else if sel != 0 then none
  else match fid with
    | 2 => some { lo := 10, hi := 50, expert := true, port := false, default := 10 }
    | 3 => some { lo := 1, hi := 10000, expert := true, port := true, default := 100 }
    | 4 => some { lo := 1, hi := 255, expert := false, port := true, default := 128 }
    | 5 => some { lo := 1, hi := 1000, expert := false, port := true, default := 100 }
    | 6 => some { lo := 0, hi := 512, expert := false, port := false, default := 0 }
    | 7 => some { lo := 10, hi := 60000, expert := true, port := false, default := 1000 }
    | 8 => some { lo := 256, hi := 8192, expert := true, port := false, default := 1024 }
    | 9 => some { lo := 1, hi := 15, expert := true, port := false, default := 3 }
    | _ => none

/-- The size of a log page, none for an undefined LID (R531). -/
def pageSize : Nat → Option Nat
  | 1 => some 262208 | 2 => some 512 | 3 => some 41024 | 4 => some 832 | 5 => some 1088 | 6 => some 512 | 7 => some 24640
  | _ => none

/-! ## Opcodes (R490) -/

/-- The data-path opcodes. -/
def dataOpcode (op : Nat) : Bool := decide (0x01 ≤ op) && decide (op ≤ 0x0A)

/-- The admin opcodes. -/
def adminOpcode (op : Nat) : Bool :=
  [0x80, 0x81, 0x82, 0x83, 0x84, 0x85, 0x86, 0x88, 0x89, 0x8A, 0x8C, 0x90, 0x91, 0x92, 0x93, 0x94, 0x95, 0x98, 0x99,
    0x9A, 0xA0, 0xA1, 0xA8, 0xA9, 0xAA].contains op

/-- Whether an opcode is defined for queue q: ABORT for all, data-path for 1 to 2,047, admin for 0. -/
def opcodeFor (q op : Nat) : Bool :=
  op == 0x07 || (if q = 0 then adminOpcode op else dataOpcode op)

/-- Whether the header's COLLECTION names a collection in a command (R677). -/
def namesCollection (e : BitVec 1024) : Bool :=
  let op := eOpcode e
  [0x01, 0x02, 0x03, 0x04, 0x05, 0x06, 0x08, 0x09, 0x0A, 0x91, 0x92, 0x93, 0x94, 0x95, 0x9A].contains op
    || (op == 0x80 && ef e 0x28 1 == 1)

/-- Whether a command is a mutation, and whether it reads a snapshot (R175). -/
def isMutation (op : Nat) : Bool := op == 2 || op == 3 || op == 4
def isReader (op : Nat) : Bool := op == 1 || op == 5

/-! ## Defined bits and reserved values (R17, check 2 of R498) -/

/-- The command-specific fields of an opcode, as pairs of first bit and width. -/
def specificFields (e : BitVec 1024) : List (Nat × Nat) :=
  let at_ (off lo w : Nat) := (8 * off + lo, w)
  match eOpcode e with
  | 0x01 => [at_ 0x28 0 64, at_ 0x30 0 32, at_ 0x34 0 32, at_ 0x38 0 21, at_ 0x3C 0 23, at_ 0x40 0 26, at_ 0x44 0 17,
      at_ 0x48 0 16]
  | 0x02 | 0x03 => [at_ 0x30 0 13, at_ 0x30 17 3]
  | 0x04 => [at_ 0x30 0 17]
  | 0x05 => [at_ 0x28 0 64, at_ 0x30 0 17, at_ 0x30 20 2]
  | 0x06 => [at_ 0x28 0 1]
  | 0x07 => [at_ 0x28 0 16, at_ 0x2A 0 11]
  | 0x08 => [at_ 0x28 0 6, at_ 0x2C 0 16]
  | 0x09 => [at_ 0x28 3 4, at_ 0x2C 0 16]
  | 0x0A => []
  | 0x80 => [at_ 0x28 0 8] ++ if ef e 0x28 1 = 2 then [at_ 0x2C 0 32] else []
  | 0x81 => [at_ 0x28 0 8, at_ 0x30 0 64]
  | 0x82 => [at_ 0x28 0 16, at_ 0x2A 0 2, at_ 0x30 0 64]
  | 0x83 => [at_ 0x28 0 16, at_ 0x2A 0 1, at_ 0x30 0 64]
  | 0x84 => [at_ 0x28 0 64, at_ 0x30 0 64, at_ 0x38 0 32, at_ 0x3C 0 11, at_ 0x3E 0 11, at_ 0x40 0 18]
  | 0x85 => [at_ 0x3C 0 16]
  | 0x86 => [at_ 0x3C 0 16, at_ 0x40 0 8]
  | 0x88 => [at_ 0x28 0 64]
  | 0x89 | 0x8A => [at_ 0x28 0 8, at_ 0x29 0 1]
  | 0x8C => [at_ 0x28 0 8] ++ (if ef e 0x28 1 = 0 then [at_ 0x30 0 256, at_ 0x50 0 256] else [at_ 0x70 0 32])
  | 0x91 => [at_ 0x28 0 32]
  | 0x95 => [at_ 0x28 0 32]
  | 0x98 => [at_ 0x28 0 16, at_ 0x30 0 64]
  | 0x99 => [at_ 0x28 0 32]
  | 0x9A => [at_ 0x28 0 32, at_ 0x2C 0 32, at_ 0x30 0 1]
  | 0xA0 => [at_ 0x28 0 64, at_ 0x30 0 24]
  | 0xA1 | 0xA8 => [at_ 0x28 0 16]
  | 0xA9 => [at_ 0x28 0 24, at_ 0x2C 0 64]
  | 0xAA => [at_ 0x28 0 48]
  | _ => []

/-- The header's defined bits for a command: buffers it may name, the region entries where the form is a region (R489), and
COLLECTION where the command names one (R677). -/
def headerFields (e : BitVec 1024) : List (Nat × Nat) :=
  let op := eOpcode e
  let none_ := [0x06, 0x07, 0x08, 0x09, 0x0A].contains op
  [(0, 8), (8, 3), (16, 16)]
    ++ (if namesCollection e then [(32, 32)] else [])
    ++ (if none_ then [] else [(64, 64), (128, 32), (175, 1)] ++ if eInRegion e then [(160, 12)] else [])
    ++ (if none_ || op == 0x04 then []
        else [(192, 64), (256, 32), (303, 1)] ++ if eOutRegion e then [(288, 12)] else [])

/-- The bits that a list of fields covers. -/
def fieldMask : List (Nat × Nat) → Nat
  | [] => 0
  | (lo, w) :: t => (2 ^ w - 1) <<< lo ||| fieldMask t

/-- Whether every reserved bit of an entry is zero (R17). -/
def reservedZero (e : BitVec 1024) : Bool :=
  (e.toNat ||| fieldMask (headerFields e ++ specificFields e)) == fieldMask (headerFields e ++ specificFields e)

/-- Whether no field holds a reserved value (check 2): QUERY_FORMAT and RERANK of a SEARCH (R93), INPUT_FORMAT (R158), OBJECT
and TARGET (R404), MODE (R510). -/
def reservedValues (e : BitVec 1024) : Bool :=
  match eOpcode e with
  | 0x01 => decide (eQueryFormat e ≤ 3) && decide (eRerank e ≤ 2)
  | 0x02 | 0x03 => [0, 1, 3].contains (eInputFormat e)
  | 0x08 => [2, 3].contains (eObject e) && [2, 3, 4].contains (eTarget e)
  | 0x09 => [3, 4].contains (eTarget e)
  | 0x86 => decide (eMode e ≤ 1)
  | _ => true

/-! ## Filters (R124 to R127) -/

def termOp (t : BitVec 64) : Nat := bitsOf t.toNat 3 0
def termGroup (t : BitVec 64) : Nat := bitsOf t.toNat 7 6
def termNegate (t : BitVec 64) : Bool := bitOf t.toNat 5
def termMask (t : BitVec 64) : Nat := bitsOf t.toNat 63 32
def termHi (t : BitVec 64) : Nat := bitsOf t.toNat 63 48
def termLo (t : BitVec 64) : Nat := bitsOf t.toNat 47 32

/-- Whether a term is well formed (R126). -/
def termOk (t : BitVec 64) : Bool :=
  bitsOf t.toNat 31 8 == 0 && !bitOf t.toNat 4 &&
    (if termOp t = 1 || termOp t = 2 then termMask t != 0
     else if termOp t = 3 || termOp t = 4 then decide (termLo t ≤ termHi t)
     else false)

/-- The test of a term on an attribute word (R74, R125). -/
def termTest (t a : BitVec 64) : Bool :=
  let tags := bitsOf a.toNat 63 32
  let rb := bitsOf a.toNat 31 16
  let ra := bitsOf a.toNat 15 0
  match termOp t with
  | 1 => (tags &&& termMask t) != 0
  | 2 => (tags &&& termMask t) == termMask t
  | 3 => decide (termLo t ≤ ra) && decide (ra ≤ termHi t)
  | 4 => decide (termLo t ≤ rb) && decide (rb ≤ termHi t)
  | _ => false

/-- Whether the predicate of terms ts passes an attribute word (R127). -/
def filterPass (ts : List (BitVec 64)) (a : BitVec 64) : Bool :=
  (List.range 4).all fun g =>
    let here := ts.filter fun t => termGroup t == g
    here.isEmpty || here.any fun t => termTest t a != termNegate t

/-- The filter terms of a query buffer (R96). -/
def filterTerms (e : BitVec 1024) (inp : List Byte) : List (BitVec 64) :=
  (List.range (eTerms e)).map fun i => BitVec.ofNat 64 (field inp (8 * i) 8)

/-! ## IDs and handles (R47, R60, R62) -/

def idDevice (v : BitVec 48) : Nat := v.toNat / 2 ^ 34
def idLocal (v : BitVec 48) : Nat := v.toNat % 2 ^ 34
def makeId (device loc : Nat) : BitVec 48 := BitVec.ofNat 48 (device * 2 ^ 34 + loc)
def sentinelId : BitVec 48 := 0xFFFFFFFFFFFF#48
def handleOf (gen index : Nat) : BitVec 32 := BitVec.ofNat 32 (gen * 65536 + index)

/-- The next GENERATION of a slot (R47). -/
def nextGen (g : Nat) : Nat := if g ≥ 65535 then 1 else g + 1

/-! ## Formats (R50, R55) -/

def metricOf : Nat → Option Metric
  | 0 => some .l2sq | 1 => some .ip | 2 => some .cosine | _ => none
def fullFormatOf : Nat → Option FullFormat
  | 0 => some .none | 1 => some .fp32 | 2 => some .bf16 | 3 => some .fp16 | 4 => some .fp8e4m3 | 5 => some .int8 | _ => none
def spillModeOf : Nat → Option SpillMode
  | 0 => some .off | 1 => some .always | 2 => some .margin | _ => none
def metricCode : Metric → Nat | .l2sq => 0 | .ip => 1 | .cosine => 2
def fullFormatCode : FullFormat → Nat
  | .none => 0 | .fp32 => 1 | .bf16 => 2 | .fp16 => 3 | .fp8e4m3 => 4 | .int8 => 5
def spillModeCode : SpillMode → Nat | .off => 0 | .always => 1 | .margin => 2

/-- Bytes of an element of a full vector (R55). -/
def elemBytes : FullFormat → Nat
  | .none => 0 | .fp32 => 4 | .bf16 => 2 | .fp16 => 2 | .fp8e4m3 => 1 | .int8 => 1

/-- Bytes of a stored full vector, a multiple of 64 (R56). -/
def fullBytes (a : Attrs) : Nat := ceilDiv (a.dim * elemBytes a.fullFormat) 64 * 64

/-- M, DPAD and the dimensions of a subquantiser (R66, R67). -/
def subM (a : Attrs) : Nat := 8 * a.codeBytes / a.codeBits
def dpad (a : Attrs) : Nat := subM a * ceilDiv a.dim (subM a)
def subDims (a : Attrs) : Nat := dpad a / subM a

/-- Slots of a segment (R73). -/
def slotCount (a : Attrs) : Nat := 65280 / (a.codeBytes + 16)

/-- Tables that a core's table bank holds (R113 and the table of R70): at most 32. -/
def tableLimit (a : Attrs) : Nat := min 32 (65536 / (subM a * 2 ^ a.codeBits))

/-- A vector filled with zeros to n elements (R67). -/
def padVec (n : Nat) (x : List F32) : List F32 := x ++ List.replicate (n - x.length) 0

/-- Elements from bytes: FP32, BF16, FP16, E4M3, INT8 widened (R56). -/
def widen (f : FullFormat) (scale : F32) (n : Nat) (l : List Byte) : List F32 :=
  (List.range n).map fun i =>
    match f with
    | .none => 0
    | .fp32 => BitVec.ofNat 32 (field l (4 * i) 4)
    | .bf16 => bf16To32 (BitVec.ofNat 16 (field l (2 * i) 2))
    | .fp16 => fp16To32 (BitVec.ofNat 16 (field l (2 * i) 2))
    | .fp8e4m3 => e4m3To32 (l.getD i 0)
    | .int8 => int8To32 scale (l.getD i 0)

/-- A vector converted to FULL_FORMAT (R55), with its padding (R56). -/
def narrow (a : Attrs) (x : List F32) : List Byte :=
  pad (fullBytes a) (x.flatMap fun v =>
    match a.fullFormat with
    | .none => []
    | .fp32 => leBytes 4 v.toNat
    | .bf16 => leBytes 2 (toBf16 v).toNat
    | .fp16 => leBytes 2 (toFp16 v).toNat
    | .fp8e4m3 => [toE4m3 v]
    | .int8 => [toInt8 a.int8Scale v])

/-- RERANK_DEPTH in force (R93). -/
def rerankDepth (e : BitVec 1024) : Nat := if eRerankDepth e = 0 then min (4 * eK e) 1048576 else eRerankDepth e

/-- K_eff (R135). -/
def kEff (e : BitVec 1024) : Nat := if eRerank e = 0 then eK e else rerankDepth e

/-- Capacity of a select buffer (R137). -/
def bufCapacity (k : Nat) : Nat := ceilDiv (2 * k) 16 * 16

/-- Pages of T2 that a SEARCH needs as scratch (R138, R147): 32 bytes an entry for the running result of each of the 2,121 squares where K_eff
exceeds 4,096, and a select buffer for each core where 32 members with such buffers would pass the select area (DESIGN CHOICE, log entry 143). -/
def scratchPages (e : BitVec 1024) : Nat :=
  ceilDiv ((if 4096 < kEff e then 2121 * 32 * kEff e else 0) + (if 4096 < 32 * bufCapacity (kEff e) then 4096 * 16 * bufCapacity (kEff e) else 0)) 4096

/-- Slots of 2 KiB that one distance table takes in a core's table bank (R243). -/
def tableSlots (a : Attrs) : Nat := ceilDiv (subM a * 2 ^ a.codeBits) 2048

/-- A code as its subcodes, packed by R68 into bytes. -/
def packCode (a : Attrs) (c : List Nat) : List Byte :=
  if a.codeBits = 8 then c.map (BitVec.ofNat 8)
  else (List.range (c.length / 2)).map fun i => BitVec.ofNat 8 (c.getD (2 * i) 0 + 16 * c.getD (2 * i + 1) 0)

/-! ## Items and ID lists (R159) -/

/-- The items of an INSERT or UPSERT: each starts on a 64-byte boundary after the one before. Answers each item's offset. -/
def itemOffsets (inp : List Byte) : Nat → Nat → List Nat
  | 0, _ => []
  | n + 1, o => o :: itemOffsets inp n (ceilDiv (o + 32 + field inp (o + 16) 4) 64 * 64)

/-- Bytes that the items occupy, up to the end of the last. -/
def itemsEnd (inp : List Byte) (n : Nat) : Nat :=
  match (itemOffsets inp n 0).getLast? with
  | some o => o + 32 + field inp (o + 16) 4
  | none => 0

/-- Whether an item's reserved bytes are zero (R159). -/
def itemReserved (inp : List Byte) (o : Nat) : Bool := field inp (o + 14) 2 == 0 && field inp (o + 20) 12 == 0

/-- An item as it arrives. -/
def readItem (inp : List Byte) (o : Nat) : Item :=
  { attr := BitVec.ofNat 64 (field inp o 8), vid := BitVec.ofNat 48 (field inp (o + 8) 6)
    data := (inp.drop (o + 32)).take (field inp (o + 16) 4) }

/-- The entries of an ID list. -/
def readIds (inp : List Byte) (n : Nat) : List (BitVec 64) :=
  (List.range n).map fun i => BitVec.ofNat 64 (field inp (8 * i) 8)

/-! ## The attribute record (R536) -/

/-- Whether the record's reserved bytes are zero. -/
def recordReserved (l : List Byte) : Bool := allZero (slice l 0x32 6) && allZero (slice l 0x50 48)

/-- INT8_SCALE is judged only for INT8, LOCAL_LIMIT only in HOST mode (R536). -/
def scaleOk (v : F32) : Bool := !notFinite32 v && decide (v.toNat < 2 ^ 31) && v != 0
def marginOk (v : F32) : Bool := !notFinite32 v && (v == 0x80000000#32 || decide (v.toNat ≤ 0x3F800000))

/-- The attributes of a record, none where one is outside its range (R50, R536). -/
def readAttrs (l : List Byte) : Option Attrs :=
  match metricOf (field l 1 1), fullFormatOf (field l 2 1), spillModeOf (field l 9 1) with
  | some m, some f, some sp =>
    let host := field l 10 1 == 1
    let scale : F32 := BitVec.ofNat 32 (field l 0x0C 4)
    let margin : F32 := BitVec.ofNat 32 (field l 0x14 4)
    let cb := field l 6 2
    let th := field l 0x0B 1
    if decide (field l 0 1 ≤ 1) && (field l 3 1 == 4 || field l 3 1 == 8) && decide (1 ≤ field l 4 2)
        && decide (field l 4 2 ≤ 4096) && decide (8 ≤ cb) && decide (cb ≤ 256) && aligned cb 8
        && decide (field l 8 1 ≤ 1) && decide (field l 10 1 ≤ 1) && decide (50 ≤ th) && decide (th ≤ 95) && aligned th 5
        && decide (1 ≤ field l 0x10 4) && decide (field l 0x10 4 ≤ 1048576) && marginOk margin
        && decide (1 ≤ field l 0x24 4) && decide (field l 0x24 4 ≤ 1024)
        && (f != .int8 || scaleOk scale)
        && (!host || (decide (1 ≤ field l 0x18 8) && decide (field l 0x18 8 ≤ 2 ^ 34)))
    then some
      { session := field l 0 1 == 1, metric := m, dim := field l 4 2, fullFormat := f
        int8Scale := if f = .int8 then scale else 0x3F800000#32
        codeBits := field l 3 1, codeBytes := cb, residual := field l 8 1 == 1, listCount := field l 0x10 4
        spillMode := sp, spillMargin := margin, hostIds := host
        localLimit := if host then field l 0x18 8 else 1048576
        codebookSource := BitVec.ofNat 32 (field l 0x20 4), compactThreshold := th
        retainFloor := if field l 0x28 8 = 2 ^ 64 - 1 then none else some (field l 0x28 8)
        stagingMiB := field l 0x24 4 }
    else none
  | _, _, _ => none

/-- The record of a collection's attributes (R529). -/
def attrRecord (a : Attrs) (members : List Nat) : List Byte :=
  leBytes 1 (b2n a.session) ++ leBytes 1 (metricCode a.metric) ++ leBytes 1 (fullFormatCode a.fullFormat)
    ++ leBytes 1 a.codeBits ++ leBytes 2 a.dim ++ leBytes 2 a.codeBytes ++ leBytes 1 (b2n a.residual)
    ++ leBytes 1 (spillModeCode a.spillMode) ++ leBytes 1 (b2n a.hostIds) ++ leBytes 1 a.compactThreshold
    ++ leBytes 4 a.int8Scale.toNat ++ leBytes 4 a.listCount ++ leBytes 4 a.spillMargin.toNat
    ++ leBytes 8 a.localLimit ++ leBytes 4 a.codebookSource.toNat ++ leBytes 4 a.stagingMiB
    ++ leBytes 8 (a.retainFloor.getD (2 ^ 64 - 1)) ++ leBytes 2 members.length ++ List.replicate 78 0

/-- BF16 elements from bytes, n of them from offset o (R69). -/
def readB16 (l : List Byte) (o n : Nat) : List B16 := (List.range n).map fun i => BitVec.ofNat 16 (field l (o + 2 * i) 2)

/-- Elements of the codebook and of one coarse centroid (R69). -/
def bookElems (a : Attrs) : Nat := 2 ^ a.codeBits * dpad a

end Sys2Proof.Machine
end

