-- ==== Sys2Proof/Machine/Memory.lean ====
section
/-! DEFINITION. Device memory: the interleave and the tables that change it (R278 to R282, R309), cells and write queues
(R286), lost granules (R306, R311), home slices (R250), lines, held blocks and write-combining entries of the shared cache
(R249 to R269), and reads and writes of bytes as every source sees them (R269). -/

namespace Sys2Proof.Machine

open Sys2Proof

/-! ## Contents of the tiles of INDEX (R65, R68, R71 to R75, R78, R92) -/

/-- Bytes of a record: its packed code, its attribute word, its ID and the low bits of its insert epoch (R68, R72). -/
def recBytes (a : Attrs) (r : Rec) : List Byte :=
  packCode a r.code ++ leBytes 8 r.attr.toNat ++ leBytes 6 r.vid.toNat ++ leBytes 2 r.insLo.toNat

/-- CODEBOOK_GEN of a segment, which counts from 1 at the collection's creation (R75). -/
def headerGen (c : Collection) (g : Segment) : Nat := (g.cbGen + 65534 - c.bookBase % 65535) % 65535 + 1

/-- The listed bytes of a segment's header (R75): slot i is the collection's. -/
def segHeader (c : Collection) (i : Nat) (g : Segment) : List Byte :=
  let none_ : Nat := 0xFFFFFFFF
  leBytes 4 (handleOf c.gen i).toNat ++ leBytes 4 g.list ++ leBytes 8 g.base ++ leBytes 8 g.sealEpoch ++ leBytes 4 (g.tombAt.getD none_)
    ++ leBytes 2 g.recs.length ++ leBytes 2 (((g.tomb.getD []).filter (·.isSome)).length) ++ leBytes 2 (headerGen c g)
    ++ leBytes 1 ((if g.sealEpoch ≠ 0 then 1 else 0) + (if g.tomb.isSome then 2 else 0) + (if g.origin.isSome then 4 else 0))
    ++ leBytes 1 0 ++ leBytes 4 (g.originAt.getD none_)

/-- A byte of a segment's tile: its header, its records from offset 256, and zero after them (R71, R73). -/
def segByte (c : Collection) (i : Nat) (g : Segment) (off : Nat) : Byte :=
  let w := c.attrs.codeBytes + 16
  if off < 256 then (segHeader c i g).getD off 0
  else match g.recs[(off - 256) / w]? with
    | some r => (recBytes c.attrs r).getD ((off - 256) % w) 0
    | none => 0

/-- A byte of a block of epochs, 8 bytes a slot: all ones where a slot has none (R78, R92). -/
def blockByte (l : List (Option Nat)) (off : Nat) : Byte :=
  match l.getD (off / 8) none with
  | some e => (leBytes 8 e).getD (off % 8) 0
  | none => 0xFF#8

/-- The bytes at a place of a tile that blocks share, where the tombstone or origin block of a segment lies there: a locator is the tile number
times 16 and the block's first page of 4 KiB within the tile (DESIGN CHOICE, log entry 134). -/
def blockAt (c : Collection) (t off : Nat) (g : Segment) : Option Byte :=
  let n := 8 * slotCount c.attrs
  let at_ (b : Option Nat) (l : List (Option Nat)) : Option Byte :=
    match b with
    | some b => if b / 16 = t ∧ b % 16 * 4096 ≤ off ∧ off < b % 16 * 4096 + n then some (blockByte l (off - b % 16 * 4096)) else none
    | none => none
  match at_ g.tombAt (g.tomb.getD []) with
  | some x => some x
  | none => at_ g.originAt ((g.origin.getD []).map some)

/-- An entry of the ID map, or with k = 1 of the map of spill copies: in use in bit 63, and in [47:0] the copy's place as R137 writes it
(R65; DESIGN CHOICE, log entry 157). -/
def idEntryNat (c : Collection) (e : IdEntry) (k : Nat) : Nat :=
  match e.slots[k]? with
  | some (t, i) => 2 ^ 63 + t * 4096 + i
  | none => match e.staged with
    | some n => if k < max 1 (((Tab.get? c.staging n).map (·.lists.length)).getD 0) then 2 ^ 63 + 2 ^ 47 + n else 0
    | none => 0

/-- A byte of a page of the ID map or, from page 2^21 up, of the spill map: 8 bytes for each LOCAL value (R65). -/
def idMapByte (c : Collection) (p off : Nat) : Byte :=
  let l := p % 2 ^ 21 * 8192 + off / 8
  match c.idMap.find? fun (v, _) => v % 2 ^ 34 == l with
  | some (_, e) => (leBytes 8 (idEntryNat c e (p / 2 ^ 21))).getD (off % 8) 0
  | none => 0

/-- A byte of a tile of INDEX, where the tile is a segment, a tile of blocks or a page of the ID map. -/
def indexByte (c : Collection) (i t off : Nat) : Option Byte :=
  match Tab.get? c.segs t with
  | some g => some (segByte c i g off)
  | none => match c.segs.findSome? fun (_, g) => blockAt c t off g with
    | some b => some b
    | none => (c.idPages.find? fun (_, u) => u == t).map fun (p, _) => idMapByte c p off

/-- A byte of a tile of VECTORS or TOKENS, of whose contents some are given: the tile they lie in, their offset, their bytes (R56, R229). -/
def storeByte (l : List (Nat × Nat × List Byte)) (t off : Nat) : Option Byte :=
  l.findSome? fun (u, o, b) => if u = t ∧ o ≤ off then b[off - o]? else none

/-- The weight tiles of a source, each once, in order of first reference. -/
def weightsOf (rs : List TileRef) (source : Nat) : List Nat :=
  ((rs.filter fun r => r.kind == 0 && r.source == source).map (·.object)).eraseDups

/-- The objects of a schedule's weights, in the order of `weightTiles`: T2's, then T3's, then T4's. -/
def weightObjs (d : Sched) : List Nat := weightsOf d.refs 2 ++ weightsOf d.refs 3 ++ weightsOf d.refs 4

/-- A byte of a schedule's weight tile: of the image's weight area (R206, R209). -/
def weightByte (d : Sched) (t off : Nat) : Option Byte :=
  ((d.weightTiles.zip (weightObjs d)).find? fun x => x.1 == t).map fun x => d.image.getD (d.header.weightOffset + x.2 * 65536 + off) 0

/-- A byte of a tile's object: the device's own structures are their own home, and the bytes of their tiles are read from them (DESIGN CHOICE, log
entry 11). -/
def tileByte (s : State) (t : Nat) (e : TileEntry) (off : Nat) : Option Byte :=
  match e.kind with
  | .index => (Tab.get? s.colls e.owner).bind fun c => indexByte c e.owner t off
  | .vectors => (Tab.get? s.colls e.owner).bind fun c => storeByte (Tab.vals c.fulls) t off
  | .tokens => (Tab.get? s.colls e.owner).bind fun c =>
      storeByte ((Tab.vals c.tokens).map fun (u, o, ts) => (u, o, ts.flatMap fun x => leBytes 4 x.toNat)) t off
  | .weights => (Tab.get? s.scheds e.owner).bind fun d => weightByte d t off
  | .region => none

/-- A tile map entry as its 16 bytes hold it (R398). -/
def tileEntryNat (e : TileEntry) : Nat :=
  b2n e.backed * 2 ^ 127 + e.backing % 2 ^ 32 * 2 ^ 64 + e.tier % 8 * 2 ^ 61 + b2n e.dirty * 2 ^ 60 + b2n e.lost * 2 ^ 59 + e.location % 2 ^ 37

/-- A byte of a page of the tile map (R398). -/
def mapPageByte (s : State) (page off : Nat) : Byte :=
  (leBytes 16 (tileEntryNat (Tab.getD s.tiers.map (page * 4096 + off / 16) {}))).getD (off % 16) 0

/-- A byte at an address of T2 that an object of the device, or its tile map, holds there. -/
def objByte (s : State) (a : Nat) : Option Byte :=
  match s.tiers.map.find? fun (_, e) => e.tier == 2 && e.location == a / 65536 with
  | some (t, e) => tileByte s t e (a % 65536)
  | none => (s.tiers.mapPages.find? fun (_, p) => p == a / 65536).map fun (k, _) => mapPageByte s k (a % 65536)

/-! ## HBM -/

/-- N, HBM_TOP, and RETIRE_BASE, which is HBM_TOP less 16 MiB (R278, R279). -/
def activeN (s : State) : Nat := s.hbm.perm.length
def hbmTop (s : State) : Nat := 2 ^ 31 * activeN s
def retireBase (s : State) : Nat := 0x1000000 * (128 * activeN s - 1)

/-- A channel, and a change to one. -/
def State.chan (s : State) (c : Nat) : Channel := Tab.getD s.hbm.channels c {}
def State.modHbm (s : State) (f : Hbm → Hbm) : State := { s with hbm := f s.hbm }
def State.modChan (s : State) (c : Nat) (f : Channel → Channel) : State :=
  s.modHbm fun h => { h with channels := Tab.modify h.channels c {} f }

/-- The retirement entry in force for a device page (R309). -/
def rtFind (s : State) (page : Nat) : Option (Nat × RtEntry) :=
  s.hbm.rt.find? fun (_, r) => r.valid && r.page == page

/-- The address after the retirement redirect (R279). -/
def redirect (s : State) (a : Nat) : Nat :=
  match rtFind s (a / 4096) with
  | some (_, r) => if bitOf r.moved.toNat (a / 2048 % 2) then retireBase s + r.slot * 4096 + a % 4096 else a
  | none => a

/-- The channel, local granule and offset of an HBM address (R279). -/
def mapAddr (s : State) (a : Nat) : Option (Nat × Nat × Nat) :=
  if activeN s = 0 ∨ hbmTop s ≤ a then none
  else
    let g := redirect s a / 2048
    let n := activeN s
    some (s.hbm.perm.getD ((g % n + g / n) % n) 0, g / n, a % 2048)

/-- The cause of a failed HBM read: the device-physical address; channel and row in 2 bytes each, and the sector (R628; DESIGN CHOICE, log entry 151:
R628 gives no layout). -/
def hbmCause (s : State) (a : Nat) : Cause :=
  { kind := kindHbmData, loc := a
    detail := match mapAddr s a with | some (c, r, off) => c + r / 64 * 2 ^ 16 + off / 32 * 2 ^ 48 | none => 0 }

/-- The channel that serves a request addressed to channel c: the target while its migration is in ALIAS (R301). -/
def servedBy (s : State) (c : Nat) : Nat :=
  if (s.chan c).phase = .alias_ then (s.chan c).migTarget else c

/-- The key of a cell (State.hbm.cells). -/
def cellKey (c r off : Nat) : Nat := c * 2 ^ 31 + r * 2048 + off

/-- Whether a local granule of a channel is lost with the channel (R306). -/
def granuleLost (s : State) (c r : Nat) : Bool :=
  (s.chan c).state == .lost || ((s.chan c).lostMap && !(s.chan c).rewritten.contains r)

/-- Whether the page's retirement entry says that the granule at a is lost (R311). -/
def rtLost (s : State) (a : Nat) : Bool :=
  match rtFind s (a / 4096) with
  | some (_, r) => bitOf r.lost.toNat (a / 2048 % 2)
  | none => false

/-- The write queue of a pseudo-channel (R286). -/
def wqOf (c : Channel) (pc : Nat) : List QWrite := if pc = 0 then c.wq0 else c.wq1

/-- The byte of a cell that a queued write of it would leave, the newest first. -/
def queued (q : List QWrite) (r sector i : Nat) (d : Byte) : Byte :=
  match q.reverse.find? fun w => w.granule == r && w.sector == sector && bitOf w.mask.toNat i with
  | some w => BitVec.ofNat 8 (w.data.toNat >>> (8 * i))
  | none => d

/-- One sector of a generator's pattern, n being granule * 64 + sector (R316, R318). ADDR holds the sector's address in its channel, in
each of its four 8-byte words; WALK1 and PRBS31 are free (DESIGN CHOICE, log entry 75). -/
def tgPattern (mode : Nat) (seed : Word) (user : BitVec 64) (n : Nat) : BitVec 256 :=
  let four (v : Nat) : BitVec 256 := BitVec.ofNat 256 ((List.range 4).foldl (fun a i => a + v * 2 ^ (64 * i)) 0)
  match mode with
  | 0 => 0
  | 1 => BitVec.allOnes 256
  | 3 => four (n * 32)
  | 5 => four user.toNat
  | m => Config.tgPattern m (if seed = 0 then 1 else seed) n

/-- What generator runs left in a byte of a channel: the latest run that covers its granule; zero where none does. -/
def fillByte (fs : List Fill) (r off : Nat) : Byte :=
  match fs.find? fun f => decide (f.lo ≤ r) && decide (r < f.hi) with
  | some f => BitVec.ofNat 8 ((tgPattern f.mode f.seed f.user (r * 64 + off / 32)).toNat >>> (8 * (off % 32)))
  | none => 0

/-- A byte as the controller reads it: the queued writes of the channel and its cells. -/
def chanByte (s : State) (c r off : Nat) : Byte :=
  let c := servedBy s c
  queued (wqOf (s.chan c) (off / 32 % 2)) r (off / 32) (off % 32)
    (Mem.read s.hbm.cells (cellKey c r off) ^^^ fillByte (s.chan c).fills r off)

/-- Lays the masked bytes of a write over the cells of channel c (DEDUCED, log entry 74). -/
def applyWrite (fs : List Fill) (m : Memory) (c : Nat) (w : QWrite) : Memory :=
  (List.range 32).foldl (fun m i =>
    if bitOf w.mask.toNat i then
      let off := w.sector * 32 + i
      Mem.write m (cellKey c w.granule off) (BitVec.ofNat 8 (w.data.toNat >>> (8 * i)) ^^^ fillByte fs w.granule off)
    else m) m

/-- Drains the oldest n writes of a pseudo-channel's queue into the cells. -/
def drainQueue (s : State) (c pc n : Nat) : State :=
  let q := wqOf (s.chan c) pc
  let fs := (s.chan c).fills
  let s := s.modHbm fun h => { h with cells := (q.take n).foldl (fun m w => applyWrite fs m c w) h.cells }
  s.modChan c fun ch => if pc = 0 then { ch with wq0 := q.drop n } else { ch with wq1 := q.drop n }

/-- The arbiter of a pseudo-channel, and a change to one. -/
def arbOf (c : Channel) (pc : Nat) : HbmArb := if pc = 0 then c.arb0 else c.arb1
def Channel.modArb (c : Channel) (pc : Nat) (f : HbmArb → HbmArb) : Channel :=
  if pc = 0 then { c with arb0 := f c.arb0 } else { c with arb1 := f c.arb1 }

/-- A drain goes on until 16 entries remain; while level-0 reads wait it yields to them after every 8 writes (R286). -/
def drainOn (s : State) (c pc : Nat) : State :=
  let x := s.chan c
  let n := (wqOf x pc).length
  let yields := (arbOf x pc).reads.any fun q => q.level == 0
  let k := if yields then min 8 (n - 16) else n - 16
  (drainQueue s c pc k).modChan c fun y => y.modArb pc fun a => { a with draining := decide (16 < n - k) }

/-- Queues one sector write at channel c; at 48 entries the queue drains (R286). A whole sector written has no wrong symbol left (R289). A
LOST channel takes none. -/
def enqueueWrite (s : State) (c : Nat) (w : QWrite) : State :=
  if (s.chan c).state = .lost then s else
  let pc := w.sector % 2
  let s := s.modChan c fun ch => if pc = 0 then { ch with wq0 := ch.wq0 ++ [w] } else { ch with wq1 := ch.wq1 ++ [w] }
  let s := if w.mask = BitVec.allOnes 32 then s.modChan c fun ch => { ch with flips := Tab.erase ch.flips (w.granule * 64 + w.sector) } else s
  if 48 ≤ (wqOf (s.chan c) pc).length then drainOn s c pc else s

/-- The mask of a sector of a granule, in 64 bits. -/
def sectorBit (sector : Nat) : BitVec 64 := BitVec.twoPow 64 sector

/-- A page's retirement entry with the LOST bit of the granule at a clear (R311). -/
def clearRtLost (s : State) (a : Nat) : State :=
  match rtFind s (a / 4096) with
  | some (n, r) =>
    s.modHbm fun h => { h with
      recordDirty := true
      rt := Tab.set h.rt n { r with lost := r.lost &&& ~~~ BitVec.twoPow 2 (a / 2048 % 2) } }
  | none => s

/-- A whole granule written since a loss is no longer lost (R306, R311). Whole sectors gather until all 64 are written. -/
def noteWritten (s : State) (a c r sector : Nat) (mask : BitVec 32) : State :=
  if mask = BitVec.allOnes 32 ∧ (rtLost s a ∨ granuleLost s c r) then
    let got := Tab.getD (s.chan c).partWritten r 0 ||| sectorBit sector
    if got = BitVec.allOnes 64 then
      clearRtLost (s.modChan c fun ch => { ch with
        rewritten := if ch.lostMap then r :: ch.rewritten else ch.rewritten, partWritten := Tab.erase ch.partWritten r }) a
    else s.modChan c fun ch => { ch with partWritten := Tab.set ch.partWritten r got }
  else s

/-- A sector write at an HBM address, with the level it carries where the manual gives one (R285): queued at its channel, and below WATERMARK of a
COPY at the target as well (R300). -/
def hbmPutAt (s : State) (a : Nat) (data : BitVec 256) (mask : BitVec 32) (level : Option Nat) : State :=
  match mapAddr s a with
  | none => s
  | some (c, r, off) =>
    let c' := servedBy s c
    let w : QWrite := { granule := r, sector := off / 32, data := data, mask := mask, level := level }
    let s := noteWritten (enqueueWrite s c' w) a c' r (off / 32) mask
    if (s.chan c').state = .migSource ∧ (s.chan c').phase = .copy ∧ r < (s.chan c').watermark
    then enqueueWrite s (s.chan c').migTarget w else s

/-- A stored sector holds two wrong symbols or more: a read of it is uncorrectable (R289, R291). -/
def sectorBad (s : State) (c r sector : Nat) : Bool := decide (2 ≤ (Tab.getD (s.chan c).flips (r * 64 + sector) []).length)

/-- A read of the sector at an address returns no data: its granule is lost, or the sector is uncorrectable (R291, R306, R311). -/
def unreadable (s : State) (a c r off : Nat) : Bool :=
  granuleLost s (servedBy s c) r || rtLost s a || sectorBad s (servedBy s c) r (off / 32)

/-- A byte of HBM: of the device's own structures where one lies there, else of the channel. -/
def heldByte (s : State) (a c r off : Nat) : Byte := (objByte s a).getD (chanByte s c r off)

/-- A byte of HBM as memory holds it; none where a read returns no data. -/
def hbmByte (s : State) (a : Nat) : Option Byte :=
  match mapAddr s a with
  | none => none
  | some (c, r, off) => if unreadable s a c r off then none else some (heldByte s a c r off)

/-- Whether an address lies on a LOST channel, every request to which ends with DATA_ERROR (R306). -/
def onLost (s : State) (a : Nat) : Bool :=
  match mapAddr s a with
  | some (c, _, _) => (s.chan (servedBy s c)).state == .lost
  | none => false

/-- A read of the sector at an address of HBM returns no data. -/
def addrLost (s : State) (a : Nat) : Bool :=
  match mapAddr s a with
  | some (c, r, off) => unreadable s a c r off
  | none => true

/-- A sector write of a memory client. -/
def hbmPut (s : State) (a : Nat) (data : BitVec 256) (mask : BitVec 32) : State := hbmPutAt s a data mask none

/-- A sector of HBM, none where a read returns no data. -/
def hbmSector (s : State) (a : Nat) : Option (BitVec 256) :=
  match mapAddr s a with
  | none => none
  | some (c, r, off) =>
    if unreadable s a c r off then none
    else some (BitVec.ofNat 256 (leNat ((List.range 32).map fun i => heldByte s (a / 32 * 32 + i) c r (off / 32 * 32 + i))))

/-! ## Address ranges (R358) -/

def flashBase : Nat := 0x200000000000
def heldBase : Nat := 0xF00000000000
def isHbm (s : State) (a : Nat) : Bool := decide (a < hbmTop s)
def isFlash (s : State) (a : Nat) : Bool := decide (flashBase ≤ a) && decide (a < flashBase + s.flash.top)
def isHeld (a : Nat) : Bool := decide (heldBase ≤ a) && decide (a < heldBase + 0x10000000)

/-! ## Home slices (R250, R637, R638) -/

/-- The XOR of the 6-bit fields of an address from bit 11. -/
def xorFields : Nat → Nat → Nat
  | 0, _ => 0
  | n + 1, g => (g % 64) ^^^ xorFields n (g / 64)

/-- The slice that R250 gives an address: A[16:11] to A[46:41], and A[47]. -/
def homeOf (a : Nat) : Nat := xorFields 7 ((a % 2 ^ 48) / 2048)

/-- A quarter. -/
def State.quarter (s : State) (n : Nat) : Quarter := Tab.getD s.quarters n {}

/-- The slice that now serves slice n (R637). -/
def serving (s : State) (n : Nat) : Nat := (s.quarter n).substitute.getD n

/-- The slice that serves an address. -/
def homeSlice (s : State) (a : Nat) : Nat := serving s (homeOf a)

/-! ## Lines of the cache (R249, R252) -/

def setOf (line : Nat) : Nat := line % 2048
def lineKey (slice set way : Nat) : Nat := slice * 32768 + set * 16 + way
def blockOf (set way : Nat) : Nat := way * 4 + set / 512
def blockKey (slice block : Nat) : Nat := slice * 64 + block

/-- Whether block b of a slice is held: 0 and 1 at all times, others while granted (R253). -/
def blockHeld (s : State) (slice block : Nat) : Bool := decide (block < 2) || Tab.has s.cache.held (blockKey slice block)

/-- A change to the cache. -/
def State.modCache (s : State) (f : Cache → Cache) : State := { s with cache := f s.cache }

/-- The way of a slice's set that holds a line. -/
def findWay (s : State) (slice line : Nat) : Option Nat :=
  (List.range 16).find? fun w =>
    match Tab.get? s.cache.lines (lineKey slice (setOf line) w) with
    | some l => l.line == line
    | none => false

/-- The ways of a set that may be replaced: not held, not disabled (R251, R635). -/
def freeWays (s : State) (slice set : Nat) : List Nat :=
  (List.range 16).filter fun w =>
    !(decide (w < 12) && blockHeld s slice (blockOf set w)) && !s.cache.disabled.contains (lineKey slice set w)

def emptySectors : List Sector := List.replicate 4 {}

/-- Byte i of a 32-byte sector. -/
def byteOf (d : BitVec 256) (i : Nat) : Byte := BitVec.ofNat 8 (d.toNat >>> (8 * i))

/-- Writes a line's dirty sectors back to memory. -/
def writeBack (s : State) (l : Line) : State :=
  (List.range 4).foldl (fun s i =>
    let x := l.sectors.getD i {}
    if x.valid && x.dirty then hbmPut s (l.line * 128 + i * 32) x.data (BitVec.allOnes 32) else s) s

/-- Takes the line at a key out of the cache, writing its dirty sectors back. -/
def evictKey (s : State) (k : Nat) : State :=
  match Tab.get? s.cache.lines k with
  | none => s
  | some l => (writeBack s l).modCache fun c => { c with lines := Tab.erase c.lines k }

/-- The ways among which pseudo-LRU chooses: all that may be replaced but the most recent (R251). -/
def lruWays (s : State) (slice set : Nat) : List Nat :=
  let ws := freeWays s slice set
  let old := ws.filter fun w => Tab.get? s.cache.recent (slice * 2048 + set) != some w
  if old.isEmpty then ws else old

/-- The way that an allocation takes: an empty way, the way marked as the next victim, or the choice of pseudo-LRU, whose tree the
manual does not give (R251, R257; DESIGN CHOICE, log entry 8). -/
def victimWay (s : State) (slice set : Nat) : Option Nat :=
  let ws := freeWays s slice set
  let old := lruWays s slice set
  match ws.find? fun w => !Tab.has s.cache.lines (lineKey slice set w) with
  | some w => some w
  | none =>
    match Tab.get? s.cache.nextVictim (slice * 2048 + set) with
    | some w => if ws.contains w then some w else old[Config.victim s.cache.choices % old.length]?
    | none => old[Config.victim s.cache.choices % old.length]?

/-- Marks a way most recent, or as the set's next victim (R257). -/
def markRecent (s : State) (slice set way : Nat) : State :=
  s.modCache fun c => { c with
    recent := Tab.set c.recent (slice * 2048 + set) way
    nextVictim := if Tab.get? c.nextVictim (slice * 2048 + set) = some way
      then Tab.erase c.nextVictim (slice * 2048 + set) else c.nextVictim }
def markVictim (s : State) (slice set way : Nat) : State :=
  s.modCache fun c => { c with nextVictim := Tab.set c.nextVictim (slice * 2048 + set) way }

/-- Puts a line into the cache as most recent, or as the next victim; nowhere when every way is held or disabled. -/
def allocLine (s : State) (slice line : Nat) (sectors : List Sector) (recent : Bool) : State :=
  let set := setOf line
  match findWay s slice line with
  | some w =>
    let s := s.modCache fun c => { c with lines := Tab.set c.lines (lineKey slice set w) { line := line, sectors := sectors } }
    if recent then markRecent s slice set w else s
  | none =>
    match victimWay s slice set with
    | none => s
    | some w =>
      let s := evictKey s (lineKey slice set w)
      let s := s.modCache fun c => { c with
        choices := c.choices + 1
        lines := Tab.set c.lines (lineKey slice set w) { line := line, sectors := sectors } }
      if recent then markRecent s slice set w else markVictim s slice set w

/-! ## Write-combining entries (R266 to R268) -/

def wcOf (s : State) (slice : Nat) : List WcEntry := Tab.getD s.cache.wc slice []
def wcFind (s : State) (slice line : Nat) : Option WcEntry := (wcOf s slice).find? fun w => w.line == line

/-- The 32 bytes and the mask of a sector of an entry. -/
def wcSector (w : WcEntry) (i : Nat) : BitVec 256 := BitVec.ofNat 256 (w.data.toNat >>> (256 * i))
def wcMask (w : WcEntry) (i : Nat) : BitVec 32 := BitVec.ofNat 32 (w.mask.toNat >>> (32 * i))

/-- Takes the entry of a line out of the buffer and writes its sectors to memory, a partly written one by read-modify-write at
the controller (R268). -/
def drainWc (s : State) (slice line : Nat) : State :=
  match wcFind s slice line with
  | none => s
  | some w =>
    let s := (List.range 4).foldl (fun s i =>
      if wcMask w i = 0 then s else hbmPut s (line * 128 + i * 32) (wcSector w i) (wcMask w i)) s
    s.modCache fun c => { c with wc := Tab.modify c.wc slice [] fun l => l.filter fun x => !(x.line == line) }

/-- Lays bytes over the 128 bytes of an entry from offset off. -/
def wcMerge (w : WcEntry) (off : Nat) (bytes : List Byte) (src : Source) : WcEntry :=
  let d := patch (leBytes 128 w.data.toNat) off bytes
  { w with
    data := BitVec.ofNat 1024 (leNat d)
    mask := w.mask ||| BitVec.ofNat 128 ((2 ^ bytes.length - 1) <<< off)
    srcs := if w.srcs.contains src then w.srcs else w.srcs ++ [src] }

/-- A partial write into the buffer: it merges, or opens an entry, the oldest draining first when all 64 are open; a complete
entry drains (R266, R267). Entries stand in the order in which they were opened. -/
def wcWrite (s : State) (slice line off : Nat) (bytes : List Byte) (src : Source) : State :=
  let s := match wcFind s slice line with
    | some _ => s
    | none => if 64 ≤ (wcOf s slice).length
        then (match (wcOf s slice).head? with | some w => drainWc s slice w.line | none => s) else s
  let w := (wcFind s slice line).getD { line := line, data := 0, mask := 0, srcs := [] }
  let w := wcMerge w off bytes src
  let put (l : List WcEntry) : List WcEntry :=
    if l.any (fun x => x.line == line) then l.map (fun x => if x.line == line then w else x) else l ++ [w]
  let s := s.modCache fun c => { c with wc := Tab.modify c.wc slice [] put }
  if w.mask = BitVec.allOnes 128 then drainWc s slice line else s

/-! ## Bytes as every source sees them (R269) -/

/-- The flash location of a logical page, none where it is UNMAPPED (R425). -/
def flashLoc (s : State) (page : Nat) : Option Nat := Tab.get? s.flash.map page

/-- The location that says LOST (R425). -/
def lostLoc : Nat := 0xFFFFFFFE

/-- A byte of flash-tier space that a tile of VECTORS, TOKENS or WEIGHTS has there: its data, or the copy at BACKING (R398). -/
def t4ObjByte (s : State) (off : Nat) : Option Byte :=
  let loc := flashBase / 65536 + off / 65536
  match s.tiers.map.find? fun (_, e) => e.kind != .index && ((e.tier == 4 && e.location == loc) || (e.backed && !e.dirty && e.backing == loc)) with
  | some (t, e) => tileByte s t e (off % 65536)
  | none => none

/-- A byte of flash-tier space at an offset: from the write buffer, of an object, or from its page; zero where the page is unmapped, none
where it is LOST (R425, R427). -/
def flashByte (s : State) (off : Nat) : Option Byte :=
  let page := flashLoc s (off / 16384)
  if Tab.has s.flash.wheld off then some (Mem.read s.flash.wdata off)
  else if page = some lostLoc then none
  else match t4ObjByte s off, page with
    | some b, _ => some b
    | none, none => some 0
    | none, some l => some (Mem.read s.flash.pages (off / 65536 % 4 * 2 ^ 46 + l * 16384 + off % 16384))

/-- A pin word: EVICTED and PINS (R400). -/
def pinNat (w : PinWord) : Nat := (if w.evicted then 2 ^ 31 else 0) + w.pins % 2 ^ 31

/-- A collection's control line (R400); the commit word is 1 while a commit holds it (R172). -/
def controlLine (c : Collection) : List Byte :=
  let res : Nat := match c.residency with | .resident => 0 | .parking => 1 | .parkedT3 => 2 | .parkedT4 => 3 | .waking => 4
  leBytes 8 c.published ++ leBytes 8 (if c.commitWord then 1 else 0) ++ leBytes 4 (pinNat c.pinIndex) ++ leBytes 4 (pinNat c.pinVectors)
    ++ leBytes 4 (pinNat c.pinTokens) ++ leBytes 4 res ++ leBytes 8 c.ceiling ++ List.replicate 88 0

/-- The INDEX whose control line holds an offset of held space: INDEX i has block offset (i div 64) * 128 of slice i mod 64 (R253; the place
within the area is the model's, DESIGN CHOICE, log entry 21). -/
def controlIndex (o : Nat) : Nat := o % 0x400000 / 128 * 64 + o / 0x400000

/-- An offset of held space holds a field of a collection's control line (R400). -/
def isControl (s : State) (o : Nat) : Bool := Tab.has s.colls (controlIndex o) && decide (o % 128 < 0x28)

/-- A byte of the control area at an offset of held space: of a collection's line, or as it was written (R259). -/
def controlByte (s : State) (o : Nat) : Byte :=
  match Tab.get? s.colls (controlIndex o) with
  | some c => if o % 128 < 0x28 then (controlLine c).getD (o % 128) 0 else Mem.read s.cache.t1 o
  | none => Mem.read s.cache.t1 o

/-- A pin word from its number. -/
def pinOfNat (n : Nat) : PinWord := { evicted := bitOf n 31, pins := n % 2 ^ 31 }

/-- The attributes that a COLLECTION_SET has set take effect (R538). -/
def applyAttrs (c : Collection) : Collection :=
  match c.newAttrs with
  | some a => { c with attrs := { a with listCount := c.attrs.listCount }, newAttrs := none }
  | none => c

/-- A write to the control area, within a line: the fields of a control line take their bytes (R400), and the others are written in place
(R259). A commit that another member publishes here puts new attributes in force (R538, R570). -/
def controlPut (s : State) (o : Nat) (b : List Byte) : State :=
  let put (c : Collection) : Collection :=
    let l := pad 128 (patch (controlLine c) (o % 128) b)
    let res : Residency := match field l 0x1C 1 with
      | 0 => .resident | 1 => .parking | 2 => .parkedT3 | 3 => .parkedT4 | 4 => .waking | _ => c.residency
    let c := if c.published < field l 0 8 then applyAttrs c else c
    { c with
      published := field l 0 8, commitWord := field l 8 8 != 0, pinIndex := pinOfNat (field l 0x10 4)
      pinVectors := pinOfNat (field l 0x14 4), pinTokens := pinOfNat (field l 0x18 4), residency := res, ceiling := field l 0x20 8 }
  let s : State := { s with colls := Tab.adjust s.colls (controlIndex o) put }
  s.modCache fun c => { c with t1 := (List.range b.length).foldl (fun m i =>
    if isControl s (o + i) then m else Mem.write m (o + i) (b.getD i 0)) c.t1 }

/-- A byte at a device-physical address: the control area's, a held block's (zero where it is not held, R255), flash-tier space's, or HBM's with the
write-combining entry and the line that cover it; none where it is lost or there is no such address. -/
def devByte (s : State) (a : Nat) : Option Byte :=
  if isHeld a then
    let o := a - heldBase
    if o % 0x400000 < 0x20000 then some (controlByte s o)
    else if blockHeld s (o / 0x400000) (o % 0x400000 / 0x10000) then some (Mem.read s.cache.t1 o) else some 0
  else if isFlash s a then flashByte s (a - flashBase)
  else if (objByte s a).isSome then hbmByte s a
  else
    let slice := homeSlice s a
    let line := a / 128
    match wcFind s slice line with
    | some w => if bitOf w.mask.toNat (a % 128) then some (BitVec.ofNat 8 (w.data.toNat >>> (8 * (a % 128)))) else hbmByte s a
    | none =>
      match findWay s slice line with
      | some way =>
        let l := Tab.getD s.cache.lines (lineKey slice (setOf line) way) ⟨line, []⟩
        let x := l.sectors.getD (a % 128 / 32) {}
        if x.valid then some (byteOf x.data (a % 32)) else hbmByte s a
      | none => hbmByte s a

/-- The n bytes from an address, none where one of them is lost. -/
def devRead (s : State) (a : Nat) : Nat → Option (List Byte)
  | 0 => some []
  | n + 1 => match devByte s a, devRead s (a + 1) n with
    | some b, some t => some (b :: t)
    | _, _ => none

/-- The cause of a read of n bytes that fails: its first sector that is lost. -/
def readCause (s : State) (a n : Nat) : Cause :=
  hbmCause s ((((List.range (ceilDiv (a % 32 + n) 32)).map fun i => a / 32 * 32 + 32 * i).find? fun b => (devByte s b).isNone).getD a)

/-- The n bytes from an address, zero in the place of one that is lost. -/
def devReadZ (s : State) (a n : Nat) : List Byte := (List.range n).map fun i => (devByte s (a + i)).getD 0

/-- The sectors of a line as memory holds them (zero where lost), to fill the ones a line lacks. -/
def memSector (s : State) (a : Nat) : BitVec 256 := (hbmSector s a).getD 0

/-- A sector of a line that a write from offset off touches in part, that is not valid in the line and whose memory is lost: it cannot
be fetched. -/
def cannotFetch (s : State) (line off n : Nat) (old : List Sector) (i : Nat) : Bool :=
  let lo := max off (i * 32)
  let hi := min (off + n) (i * 32 + 32)
  decide (lo < hi) && decide (hi - lo < 32) && !(old.getD i {}).valid && (hbmSector s (line * 128 + i * 32)).isNone

/-- The parts of a write in sectors that cannot be fetched are performed in memory, and leave the granule lost (R311). -/
def putUnfetched (s : State) (line off : Nat) (bytes : List Byte) (old : List Sector) : State :=
  (List.range 4).foldl (fun s i =>
    if cannotFetch s line off bytes.length old i then
      let lo := max off (i * 32)
      let hi := min (off + bytes.length) (i * 32 + 32)
      hbmPut s (line * 128 + i * 32) (BitVec.ofNat 256 (leNat (patch (List.replicate 32 0) (lo - i * 32) ((bytes.drop (lo - off)).take (hi - lo)))))
        (BitVec.ofNat 32 ((2 ^ (hi - lo) - 1) <<< (lo - i * 32)))
    else s) s

/-- The sectors of a line after bytes are laid over it from offset off: touched sectors valid and dirty, fetched first where
they are written in part (R249: only the sectors needed); a sector that cannot be fetched stays out of the line. -/
def mergeSectors (s : State) (line off : Nat) (bytes : List Byte) (old : List Sector) : List Sector :=
  (List.range 4).map fun i =>
    let x := old.getD i {}
    let lo := max off (i * 32)
    let hi := min (off + bytes.length) (i * 32 + 32)
    let base := if x.valid then x.data else memSector s (line * 128 + i * 32)
    if cannotFetch s line off bytes.length old i then x
    else if lo < hi then
      { valid := true, dirty := true
        data := BitVec.ofNat 256 (leNat (patch (leBytes 32 base.toNat) (lo - i * 32) ((bytes.drop (lo - off)).take (hi - lo)))) }
    else x

/-- One write that lies within a line, at its home slice, by its hint (R257, R259). Where every way of the set is held or disabled (R252,
R635) nothing can be allocated, and the write goes to memory as with STREAM (DEDUCED, log entry 51). -/
def cachePut (s : State) (src : Source) (a : Nat) (bytes : List Byte) (hint : Hint) : State :=
  if isHeld a then
    let o := a - heldBase
    if o % 0x400000 < 0x20000 then controlPut s o bytes
    else if blockHeld s (o / 0x400000) (o % 0x400000 / 0x10000)
    then s.modCache fun c => { c with t1 := Mem.writeN c.t1 o bytes } else s
  else
    let slice := homeSlice s a
    let line := a / 128
    let off := a % 128
    match findWay s slice line with
    | some way =>
      let old := (Tab.getD s.cache.lines (lineKey slice (setOf line) way) ⟨line, []⟩).sectors
      let new := mergeSectors s line off bytes old
      let s := (putUnfetched s line off bytes old).modCache fun c => { c with lines := Tab.set c.lines (lineKey slice (setOf line) way) ⟨line, new⟩ }
      if hint = .keep then markRecent s slice (setOf line) way else s
    | none =>
      if hint = .keep ∧ (victimWay s slice (setOf line)).isSome then
        -- a waiting entry of the line reaches memory before the line is fetched (R267)
        let s := drainWc s slice line
        let new := mergeSectors s line off bytes emptySectors
        allocLine (putUnfetched s line off bytes emptySectors) slice line new true
      else if bytes.length = 128 then
        let s := drainWc s slice line
        (List.range 4).foldl (fun s i =>
          hbmPut s (a + i * 32) (BitVec.ofNat 256 (leNat ((bytes.drop (i * 32)).take 32))) (BitVec.allOnes 32)) s
      else wcWrite s slice line off bytes src

/-- A write of any length: one write a line, in rising order. The fuel bounds the number of lines. -/
def cachePutAll : Nat → State → Source → Nat → List Byte → Hint → State
  | 0, s, _, _, _, _ => s
  | n + 1, s, src, a, bytes, hint =>
    if bytes.isEmpty then s
    else
      let k := 128 - a % 128
      cachePutAll n (cachePut s src a (bytes.take k) hint) src (a + k) (bytes.drop k) hint

/-- Writes bytes at a device-physical address through their home slices. -/
def devWrite (s : State) (src : Source) (a : Nat) (bytes : List Byte) (hint : Hint) : State :=
  cachePutAll (bytes.length / 128 + 2) s src a bytes hint

end Sys2Proof.Machine
end

