-- ==== Sys2Proof/Machine/Ops.lean ====
section
/-! DEFINITION. Operations that many commands share: a row that occurs or does not, parts of the state, what a port sends,
events and interrupts (R461, R462, R468 to R470), the error log (R532, R517), freezing (R508), the decision and the delivery
of a completion (R495, R519), and what a completion releases (R401, R484, R513). -/

namespace Sys2Proof.Machine

open Sys2Proof

/-- A row occurs where its condition g holds, with effect t; elsewhere the state stays as it is (DESIGN CHOICE, log entry 3). -/
def occurs (g : Bool) (t s : State) : Host.Outcome State Fault Refusal := .next (if g then t else s)

/-! ## Parts of the state -/

def State.port (s : State) : PortId → Port
  | .p0 => s.port0
  | .p1 => s.port1

def State.modPort (s : State) (p : PortId) (f : Port → Port) : State :=
  match p with
  | .p0 => { s with port0 := f s.port0 }
  | .p1 => { s with port1 := f s.port1 }

def State.pair (s : State) (p : PortId) (q : Nat) : QueuePair := Tab.getD (s.port p).pairs q {}
def State.modPair (s : State) (p : PortId) (q : Nat) (f : QueuePair → QueuePair) : State :=
  s.modPort p fun x => { x with pairs := Tab.modify x.pairs q {} f }

def State.mailbox (s : State) (p : PortId) (m : Nat) : Mailbox := Tab.getD (s.port p).mailboxes m {}
def State.modMailbox (s : State) (p : PortId) (m : Nat) (f : Mailbox → Mailbox) : State :=
  s.modPort p fun x => { x with mailboxes := Tab.modify x.mailboxes m {} f }

def State.modXlt (s : State) (p : PortId) (f : Xlt → Xlt) : State := s.modPort p fun x => { x with xlt := f x.xlt }

def State.cmd? (s : State) (n : Nat) : Option Cmd := Tab.get? s.cmds n
def State.modCmd (s : State) (n : Nat) (f : Cmd → Cmd) : State := { s with cmds := Tab.adjust s.cmds n f }
def State.modSearch (s : State) (n : Nat) (f : SearchWork → SearchWork) : State :=
  s.modCmd n fun c => { c with search := f c.search }
def State.modWork (s : State) (n : Nat) (f : OtherWork → OtherWork) : State :=
  s.modCmd n fun c => { c with work := f c.work }

def State.coll? (s : State) (i : Nat) : Option Collection := Tab.get? s.colls i
def State.modColl (s : State) (i : Nat) (f : Collection → Collection) : State := { s with colls := Tab.adjust s.colls i f }

def State.core (s : State) (n : Nat) : Core := Tab.getD s.cores n {}
def State.modCore (s : State) (n : Nat) (f : Core → Core) : State := { s with cores := Tab.modify s.cores n {} f }
def State.modQuarter (s : State) (n : Nat) (f : Quarter → Quarter) : State :=
  { s with quarters := Tab.modify s.quarters n {} f }

def State.island (s : State) (n : Nat) : Island := Tab.getD s.islands n {}
def State.modIsland (s : State) (n : Nat) (f : Island → Island) : State := { s with islands := Tab.modify s.islands n {} f }
def State.crossing (s : State) (n : Nat) : Crossing := Tab.getD s.crossings n {}
def State.modCrossing (s : State) (n : Nat) (f : Crossing → Crossing) : State :=
  { s with crossings := Tab.modify s.crossings n {} f }
def State.modPower (s : State) (f : Power → Power) : State := { s with power := f s.power }
def State.modLogs (s : State) (f : Logs → Logs) : State := { s with logs := f s.logs }
def State.modSec (s : State) (f : Security → Security) : State := { s with security := f s.security }
def State.modSb (s : State) (f : Sideband → Sideband) : State := { s with sideband := f s.sideband }
def State.modNet (s : State) (f : Net → Net) : State := { s with net := f s.net }
def State.modFlash (s : State) (f : Flash → Flash) : State := { s with flash := f s.flash }
def State.modTiers (s : State) (f : Tiers → Tiers) : State := { s with tiers := f s.tiers }
def State.modProtect (s : State) (f : Protect → Protect) : State := { s with protect := f s.protect }
def State.link (s : State) (n : Nat) : Link := Tab.getD s.net.links n {}
def State.modLink (s : State) (n : Nat) (f : Link → Link) : State :=
  s.modNet fun x => { x with links := Tab.modify x.links n {} f }
def State.stream (s : State) (q n : Nat) : Stream := Tab.getD s.streams (q * 16 + n) {}
def State.modStream (s : State) (q n : Nat) (f : Stream → Stream) : State :=
  { s with streams := Tab.modify s.streams (q * 16 + n) {} f }
def State.engine (s : State) (q : Nat) : Engine := Tab.getD s.engines q {}
def State.modEngine (s : State) (q : Nat) (f : Engine → Engine) : State := { s with engines := Tab.modify s.engines q {} f }
def State.region (s : State) (n : Nat) : Region := Tab.getD s.protect.regions n {}

/-! ## Phases and counters -/

/-- The device serves: start-up is complete and it is not FATAL (R456, R645). -/
def live (s : State) : Bool := s.power.phase == .running

/-- The firmware serves admin work: started, and no activation in progress (R45, R546). -/
def fwServes (s : State) : Bool := live s && s.security.activating.isNone

/-- Cores, slices and HBM work: DP0 and DP1 (R613). -/
def awake (s : State) : Bool := s.power.dp == .dp0 || s.power.dp == .dp1

/-- An island's 64-bit counter in ns (R611). -/
def islandCount (s : State) (i : Nat) : Nat :=
  match (s.island i).started with
  | none => 0
  | some t => (s.time - t) % 2 ^ 64

/-- The island whose counter stamps a port's entries (R461). -/
def hostIsland (p : PortId) : Nat := 92 + portNum p

/-- The next value of the model's count of free values (DESIGN CHOICE, log entry 9). -/
def State.useFree (s : State) : State := { s with free := s.free + 1 }

/-- The next place in the order of arrivals. -/
def State.arrive (s : State) : State := { s with arrivals := s.arrivals + 1 }

/-! ## Weighted round robin (R286, R322) -/

/-- The level among 1 to 3 whose turn it is, with the turns that remain after it: a waiting level that has turns left, a new round of 8, 4 and 1
where none has (the order within a round is a DESIGN CHOICE, log entry 127). -/
def pickTurn (waits : Nat → Bool) (turns : List Nat) : Option (Nat × List Nat) :=
  let pick (t : List Nat) : Option (Nat × List Nat) :=
    ([1, 2, 3].find? fun l => waits l && decide (0 < t.getD (l - 1) 0)).map fun l => (l, t.set (l - 1) (t.getD (l - 1) 0 - 1))
  match pick turns with
  | some x => some x
  | none => pick [8, 4, 1]

/-! ## Crossings (R608, R610) -/

/-- Transfers of 64 bytes pass a crossing from side A, or from side B: the counts rise, and how many entries were held at once is a free value from 1
to their number, 32 at most (DESIGN CHOICE, log entry 109). -/
def passCrossing (s : State) (c : Nat) (ab : Bool) (bytes : Nat) : State :=
  let n := ceilDiv bytes 64
  let held := 1 + (Config.freeWord s.free).toNat % min n 32
  if n = 0 then s
  else (s.modCrossing c fun x =>
    if ab then { x with xferAB := x.xferAB + BitVec.ofNat 32 n, peakAB := max x.peakAB held }
    else { x with xferBA := x.xferBA + BitVec.ofNat 32 n, peakBA := max x.peakBA held }).useFree

/-! ## What a port sends (R454, R480) -/

/-- Sends on a port, or holds it while the port issues no request (R480) (DEDUCED, log entry 82). -/
def emit (s : State) (p : PortId) (o : PortOut) : State :=
  s.modPort p fun x =>
    if x.d3hot || !x.busMaster then { x with waiting := x.waiting ++ [o] } else { x with sent := x.sent ++ [o] }

/-- Answers a request of the host: a completion, which needs no bus mastering. -/
def answer (s : State) (p : PortId) (o : PortOut) : State := s.modPort p fun x => { x with sent := x.sent ++ [o] }

/-- An MSI-X entry of a port. -/
def msixEntry (s : State) (p : PortId) (v : Nat) : MsixEntry := Tab.getD (s.port p).msix v {}

/-- Signals a vector: nothing when MSI-X is off, the pending bit while masked, else one message (R470). -/
def signal (s : State) (p : PortId) (v : Nat) : State :=
  if !(s.port p).msixEnable then s
  else if (s.port p).functionMask || (msixEntry s p v).masked then
    s.modPort p fun x => { x with msix := Tab.modify x.msix v {} fun m => { m with pending := true } }
  else emit s p (.msix v)

/-- Sets an EVENT_STATUS bit; one that was clear signals, or owes its message while it is masked (R462). -/
def raiseEvent (s : State) (p : PortId) (bit : Nat) : State :=
  let x := s.port p
  if x.eventStatus.getLsbD bit then s
  else
    let s := s.modPort p fun x => { x with eventStatus := setBit x.eventStatus bit }
    if x.eventMask.getLsbD bit then s.modPort p fun x => { x with eventOwed := setBit x.eventOwed bit }
    else signal s p x.eventVector

/-! ## Logs and notices -/

/-- Appends an entry to the error log: the ring of the newest 4,096 (R532). -/
def appendLog (s : State) (e : LogEntry) : State :=
  s.modLogs fun l =>
    let all := l.entries ++ [{ e with seq := l.total + 1 }]
    { l with entries := all.drop (all.length - 4096), total := l.total + 1 }

/-- Entries that may be held besides the one that an event now acting will have (R517). -/
def heldRoom (s : State) : Nat := if s.logs.event.any (·.kept) then 255 else 256

/-- An entry that falls due during a firmware activation is held, up to 256, and beyond them counted in LOST (R517). -/
def recordLog (s : State) (e : LogEntry) : State :=
  if s.security.activating.isSome then
    if s.logs.held.length < heldRoom s then s.modLogs fun l => { l with held := l.held ++ [e] }
    else s.modLogs fun l => { l with lost := l.lost + 1 }
  else appendLog s e

/-- Whether an entry that falls due now is kept (R517). -/
def logKept (s : State) : Bool := s.security.activating.isNone || decide (s.logs.held.length < heldRoom s)

/-- The ports whose ERROR_LOG an entry sets: its own, or both for device work (DEDUCED, log entry 14). -/
def logPorts (e : LogEntry) : List PortId := match e.port with | some p => [p] | none => [.p0, .p1]

/-- Records an entry and sets ERROR_LOG on ports. -/
def writeLog (s : State) (e : LogEntry) (ps : List PortId) : State := ps.foldl (fun s p => raiseEvent s p evErrorLog) (recordLog s e)

/-- An entry of device work, stamped by the control island (R532). -/
def deviceEntry (s : State) (kind loc detail : Nat) : LogEntry :=
  { seq := 0, stamp := islandCount s 102, island := 102, port := none, origin := 2, queue := 0, tag := 0xFFFF#16
    status := none, opcode := 0, kind := kind, coll := 0, epoch := 0, location := loc, detail := detail }
def deviceLog (s : State) (kind loc detail : Nat) : State := writeLog s (deviceEntry s kind loc detail) [.p0, .p1]

/-- A page of the log has a new notice (R533). -/
def notice (s : State) (lid : Nat) : State :=
  let s := s.modLogs fun l => { l with notice := setBit l.notice (lid - 1) }
  raiseEvent (raiseEvent s .p0 evHealth) .p1 evHealth

/-- Identify data changed (R528) (DEDUCED, log entry 95). -/
def noticeId (s : State) : State :=
  let s := s.modLogs fun l => { l with notice := setBit l.notice noticeIdentify }
  raiseEvent (raiseEvent s .p0 evHealth) .p1 evHealth

/-- Sets or clears a bit of CRITICAL, of which the HEALTH page then has a notice (R533). -/
def critical (s : State) (bit : Nat) (on : Bool) : State :=
  let v := if on then setBit s.logs.critical bit else clearBit s.logs.critical bit
  if v = s.logs.critical then s else notice (s.modLogs fun l => { l with critical := v }) lidHealth

/-- A repair of HBM: an entry, and notices of the pages HBM_REPAIR and HEALTH, which show it (R533, R628, R629). -/
def repairLog (s : State) (c detail : Nat) : State := notice (notice (deviceLog s kindHbmRepair c detail) lidHbm) lidHealth

/-! ## Freezing (R508) -/

/-- Freezes an SQ that is ACTIVE; one that is FROZEN keeps its first FREEZE_INFO, one that is DELETING stays so. -/
def freezeQueue (s : State) (p : PortId) (q st tag : Nat) : State :=
  if (s.pair p q).state = .active then
    let s := s.modPair p q fun x => { x with
      state := .frozen, freezeStatus := BitVec.ofNat 16 st, freezeTag := BitVec.ofNat 16 tag }
    raiseEvent s p evQueueFrozen
  else s

/-- A port's entry for a command or a queue (R532). -/
def portEntry (s : State) (p : PortId) (origin queue tag : Nat) (st : Option Status) (opcode : Nat) (coll : BitVec 32)
    (epoch : Nat) (c : Cause) : LogEntry :=
  { seq := 0, stamp := islandCount s (hostIsland p), island := hostIsland p, port := some p, origin := origin
    queue := queue, tag := BitVec.ofNat 16 tag, status := st, opcode := opcode, kind := c.kind, coll := coll, epoch := epoch
    location := c.loc, detail := c.detail }
def portLog (s : State) (p : PortId) (origin queue tag : Nat) (st : Option Status) (opcode : Nat) (coll : BitVec 32)
    (epoch : Nat) (c : Cause) : State := writeLog s (portEntry s p origin queue tag st opcode coll epoch c) [p]

/-! ### One entry for an event (R629) -/

/-- What DETAIL adds for the other requests of an event in its upper 8 bytes: the tags of three more, 0xFFFF where there are fewer, and how many
there are beyond the first four (DESIGN CHOICE, log entry 151: R629 asks for them and gives no layout). -/
def othersDetail (l : List LogEntry) : Nat :=
  if l.isEmpty then 0
  else
    let tag (i : Nat) : Nat := (l[i]?.map fun e => e.tag.toNat).getD 0xFFFF
    (tag 0 + tag 1 * 2 ^ 16 + tag 2 * 2 ^ 32 + min 0xFFFF (l.length - 3) * 2 ^ 48) * 2 ^ 64

/-- The entry of an event: of the first request that it ended, with the others in DETAIL; of device work where it ended none and is logged all the
same. -/
def closeEvent (s : State) (always : Bool) (z : Cause) : State :=
  match s.logs.event with
  | none => s
  | some v =>
    let s := s.modLogs fun l => { l with event := none }
    match v.ended with
    | [] => if always then deviceLog s z.kind z.loc z.detail else s
    | e :: rest =>
      writeLog s { e with detail := e.detail % 2 ^ (if rest.isEmpty then 128 else 64) + othersDetail rest } ((e :: rest).flatMap logPorts).eraseDups

/-- What f ends is one event, with one entry (R629); within another event, f is part of that. -/
def oneEvent (s : State) (always : Bool) (z : Cause) (f : State → State) : State :=
  if s.logs.event.isSome then f s
  else closeEvent (f (s.modLogs fun l => { l with event := some { kept := logKept s, ended := [] } })) always z

/-- Logs a request's end: at once, or with the event that ends it. -/
def logEnd (s : State) (e : LogEntry) : State :=
  match s.logs.event with
  | none => writeLog s e (logPorts e)
  | some v => s.modLogs fun l => { l with event := some { v with ended := v.ended ++ [e] } }

/-! ## Deciding a completion -/

/-- The entry of R494 as 32 bytes: its fields, SQ_HEAD, SQ_ID, TAG, STATUS and CFLAGS. -/
def cqeBytes (c : Completion) (sqHead sqId tag : Nat) (phase : Bool) : List Byte :=
  leBytes 8 c.epoch ++ leBytes 4 c.dw2 ++ leBytes 4 c.dw3 ++ leBytes 4 c.resultLength ++ leBytes 2 sqHead ++ leBytes 2 sqId
    ++ leBytes 2 tag ++ leBytes 2 (statusCode c.status)
    ++ leBytes 4 (b2n phase * 2 ^ 31 + b2n c.logged * 2 ^ 30 + b2n c.logDropped * 2 ^ 29 + b2n c.clipped)

/-- Entry size e of R506: the bytes of one result entry of a command. -/
def resultUnit (e : BitVec 1024) (fetchEntry : Nat) : Nat :=
  match eOpcode e with
  | 0x01 => 24
  | 0x02 | 0x03 => 8
  | 0x05 => max 1 fetchEntry
  | _ => 1

/-- The bytes that the buffer takes of a result: whole entries within its length (R506). -/
def clipResult (len unit : Nat) (r : List Byte) : List Byte := r.take (min (len / unit * unit) r.length)

/-- The completion with TRUNCATED where the buffer is shorter than the result (R506, R507). -/
def truncateTo (len : Nat) (c : Completion) : Completion :=
  if informational c.status && decide (len < c.resultLength) then { c with status := .truncated } else c

/-- Where the buffer of a command's result begins and how many bytes it holds: a host address, a region's address, or the
inline area of a mailbox response (R489, R520). -/
inductive OutBuf where
  | host (p : PortId) (addr len : Nat)
  | device (addr len : Nat)
  | inline_ (len : Nat)
  | none
  deriving DecidableEq, Repr, Inhabited

/-- The port a command came by, where it has one. -/
def originPort : Origin → Option PortId
  | .sq p _ => some p
  | .mailbox p _ => some p
  | _ => none

/-- A command's result buffer. -/
def outBuf (s : State) (c : Cmd) : OutBuf :=
  let named : OutBuf :=
    if eOutRegion c.entry then .device ((s.region (eOutSel c.entry)).base + eOutAddr c.entry) (eOutLen c.entry)
    else match originPort c.origin with
      | some p => .host p (eOutAddr c.entry) (eOutLen c.entry)
      | none => .none
  match c.origin with
  | .sq .. => named
  | .mailbox .. => if eOutLen c.entry = 0 then .inline_ 4064 else named
  | .sideband => .inline_ 4064
  | _ => .inline_ (2 ^ 32)

/-- Bytes of a result buffer. -/
def outBufLen : OutBuf → Nat
  | .host _ _ n => n
  | .device _ n => n
  | .inline_ n => n
  | .none => 0

/-- Bytes of a result go to host memory before the command's completion. -/
def hostResult (s : State) (c : Cmd) (res : List Byte) : Bool :=
  !res.isEmpty && match outBuf s c with | .host .. => true | _ => false

/-- Writes a response into a mailbox and hands it back to the host (R472 step 4, R519). -/
def mailboxRespond (s : State) (p : PortId) (m : Nat) (c : Cmd) (k : Completion) (out : List Byte) : State :=
  let bytes := cqeBytes k m 0 (eTag c.entry) true ++ out
  let s := s.modMailbox p m fun x => { x with
    buf := Mem.writeN x.buf 0 bytes, rspLen := bytes.length, seq := x.seq + 1, firmware := false, started := false, done := true }
  if (s.mailbox p m).intrEn then signal s p (s.mailbox p m).vector else s

/-- The same for the sideband mailbox (R603). -/
def sidebandRespond (s : State) (c : Cmd) (k : Completion) (out : List Byte) : State :=
  let bytes := cqeBytes k 0 0 (eTag c.entry) true ++ out
  s.modSb fun x => { x with
    buf := Mem.writeN x.buf 0 bytes, rspLen := bytes.length, firmware := false, started := false, done := true }

/-- The virtual channel of a packet: CTL, then REQ, RSP and CMD, each for priority 0 and for the others (R560). -/
def channelOfPacket (k : Packet) : Nat := if k.cls = 3 then 0 else 1 + 2 * k.cls + min k.prio 1

/-- Flits that a packet takes: its header and payload, 252 bytes to a flit, each packet beginning a flit of its own (the manual packs
packets end to end; DEDUCED, log entry 40). -/
def packetFlits (k : Packet) : Nat := ceilDiv (32 + k.payload.length) 252

/-- The packets at a port that may go, with the channels that an earlier packet of theirs blocks: a packet goes when its channel holds
credits for all of it and the replay buffer has room for its flits (R559, R560). -/
def pumpOne (blocked : List Nat) (l : Link) (k : Packet) : List Nat × Link :=
  let v := channelOfPacket k
  let n := packetFlits k
  let have_ := l.credits.getD v 0
  if blocked.contains v || decide (have_ < n) || decide (2048 < l.replay.length + n) then
    (v :: blocked, { l with waiting := l.waiting ++ [k] })
  else
    let flits := (List.range n).map fun i => l.txNext + BitVec.ofNat 16 i
    (blocked, { l with
      credits := l.credits.set v (have_ - n), packets := l.packets ++ [k], txNext := l.txNext + BitVec.ofNat 16 n
      replay := l.replay ++ flits })

/-- Sends what may go at a port, oldest first in each channel. -/
def pumpLink (l : Link) : Link := (l.waiting.foldl (fun (a : List Nat × Link) k => pumpOne a.1 a.2 k) ([], { l with waiting := [] })).2

/-- Sends a packet to a device at the port of its route (R560, R566); while the route is to switch, the packet is held (R567). -/
def sendPacket (s : State) (k : Packet) : State :=
  match Tab.get? s.net.routes k.dest with
  | some r =>
    if r.next.isSome then s.modNet fun x => { x with routes := Tab.set x.routes k.dest { r with queue := r.queue ++ [k] } }
    else s.modLink r.primary fun l => pumpLink { l with waiting := l.waiting ++ [k] }
  | none => s

/-- A packet of this device (R561). -/
def mkPacket (s : State) (type dest txn : Nat) (payload : List Byte) : Packet :=
  { length := payload.length, type := type, cls := 2, prio := 0, dest := dest, src := s.net.deviceNumber, hops := 0, window := 0, gen := 0, offset := 0
    txn := txn, pcrcOk := true, payload := payload }

/-- Link that carries a request to a device (R566). -/
def linkTo (s : State) (d : Nat) : Option Nat := (Tab.get? s.net.routes d).map (·.primary)

/-- Records a peer request under the next transaction number (R342, R561). -/
def openPeer (s : State) (dest : Nat) (w : PeerWaiter) : State :=
  let port := (linkTo s dest).getD 0
  let s := s.modNet fun x => { x with
    peers := Tab.set x.peers x.nextTxn { dest := dest, port := port, waiter := w }, nextTxn := x.nextTxn + 1 }
  s.modLink port fun l => { l with tags := l.tags + 1 }

/-- Data of any length to a device, in packets of at most 2,048 bytes (R562). -/
def sendData (s : State) (type dest txn : Nat) (payload : List Byte) : State :=
  if payload.isEmpty then sendPacket s (mkPacket s type dest txn [])
  else (chunks 2048 payload).foldl (fun s b => sendPacket s (mkPacket s type dest txn b)) s

/-- The entry that a freezing status writes, and LOGGED or LOG_DROPPED in the completion (R497, R517). -/
def logStatus (s : State) (c : Cmd) (k : Completion) (z : Cause) : State × Completion :=
  if freezes k.status then
    let kept := match s.logs.event with | some v => v.kept | none => logKept s
    let k' := { k with logged := kept, logDropped := !kept }
    let z := if z.kind = 0 then { z with kind := statusKind k.status } else z
    let entry (p : PortId) (o q : Nat) : LogEntry :=
      portEntry s p o q (eTag c.entry) (some k.status) (eOpcode c.entry) (BitVec.ofNat 32 (eHandle c.entry)) k.epoch z
    match c.origin with
    | .sq p q => (logEnd s (entry p 0 q), k')
    | .mailbox p m => (logEnd s (entry p 1 m), k')
    | _ => (logEnd s (deviceEntry s z.kind z.loc z.detail), k')
  else (s, k)

/-- Releases a command's pins (R401) and its scratch in T2 (R147). -/
def unpin (w : PinWord) : PinWord := { w with pins := w.pins - 1 }
def releasePins (s : State) (c : Cmd) : State :=
  let s := match c.search.scratch with
    | some (p, n) => s.modProtect fun x => { x with t2Free := (p, n) :: x.t2Free }
    | none => s
  s.modColl (eIndex c.entry) fun x => { x with
    pinIndex := if c.pinIndex then unpin x.pinIndex else x.pinIndex
    pinVectors := if c.pinVectors then unpin x.pinVectors else x.pinVectors
    pinTokens := if c.pinTokens then unpin x.pinTokens else x.pinTokens }

/-- Takes a command out of every batch it is a member of; the others are unaffected (R119, R155). A batch that has not launched
and holds no member any more is gone. -/
def leaveBatches (s : State) (n : Nat) : State :=
  let bs := Tab.map s.batches fun b => { b with
    members := b.members.filter (· != n), biased := Tab.erase b.biased n
    workers := Tab.map b.workers fun w => { w with bufs := Tab.erase w.bufs n } }
  { s with batches := Tab.keep bs fun _ b => b.launched || !b.members.isEmpty }

/-- Staging bytes and entries that a command reserved and no commit has taken are free again (R168, R177). -/
def releaseStaging (s : State) (n : Nat) (c : Cmd) : State :=
  s.modColl (eIndex c.entry) fun x => { x with
    staging := Tab.keep x.staging fun _ e => !(e.cmd == n && e.insE.isNone)
    stagingUsed := x.stagingUsed - c.work.staged
    groups := Tab.map x.groups fun g => { g with members := g.members.filter (· != n) } }

/-- Commands that wait for the free space, runs and messages of an ended one let go of it. -/
def dropRuns (s : State) (n : Nat) : State :=
  let rs := Tab.map s.runs fun r => { r with seqs := r.seqs.filter fun x => x.cmd != n }
  { s with runs := Tab.keep rs fun _ r => r.launched || r.slice.isSome || !r.seqs.isEmpty }

/-- Fixes a command's completion and delivers it where it needs no row of its own: a mailbox, the sideband mailbox, or the
device that forwarded it (R519, R574, R603). A completion for an SQ, and a response with a result in host memory, wait for COMPLETION_POST (R495); one that a port reset has
detached is discarded (R477). -/
def deliver (s : State) (n : Nat) (c : Cmd) (k : Completion) (res : List Byte) : State :=
  if c.detached then
    let s := releasePins { s with cmds := Tab.erase s.cmds n } c
    match c.origin with
    | .mailbox p m => if (s.mailbox p m).discard then s.modMailbox p m fun _ => {} else s
    | _ => s
  else match c.origin with
  | .sq p q =>
    let s := if freezes k.status then freezeQueue s p q (statusCode k.status) (eTag c.entry) else s
    s.modCmd n fun c => { c with
      stage := .decided, completion := some k, result := res, word := .committing }
  | .mailbox p m =>
    if hostResult s c res then s.modCmd n fun c => { c with stage := .decided, completion := some k, result := res, word := .committing }
    else
    let s := releasePins { s with cmds := Tab.erase s.cmds n } c
    match outBuf s c with
    | .device a _ => mailboxRespond (devWrite s (.queueEngine p) a res .stream) p m c k []
    | _ => mailboxRespond s p m c k res
  | .sideband => sidebandRespond (releasePins { s with cmds := Tab.erase s.cmds n } c) c k res
  | .forwarded src txn =>
    let s := releasePins { s with cmds := Tab.erase s.cmds n } c
    sendData s 0x26 src txn (cqeBytes k 0 0 (eTag c.entry) true ++ res)
  | .firmware => releasePins { s with cmds := Tab.erase s.cmds n } c
  | .shard co txn =>
    let s := releasePins { s with cmds := Tab.erase s.cmds n } c
    if c.search.phase = .reranking then sendData s 0x2C co txn (leBytes 2 (statusCode k.status))
    else sendData s 0x23 co txn (leBytes 2 (statusCode k.status) ++ leBytes 4 k.dw3 ++ leBytes 4 k.dw2)

/-- The coordinator of a sharded search ends every shard's request when the search ends, for any reason (R575). -/
def cancelShards (s : State) (n : Nat) (c : Cmd) : State :=
  match c.origin, Tab.get? s.colls (eIndex c.entry) with
  | .shard .., _ | _, none => s
  | _, some y =>
    if eOpcode c.entry = 1 ∧ c.snapshot.isSome
    then (y.members.filter (· != s.net.deviceNumber)).foldl (fun s d => sendPacket s (mkPacket s 0x24 d n [])) s
    else s

/-- FLUSH, PARK and WAKE of a sharded collection, which every member completes (R411, R574). -/
def fannedOut (op : Nat) : Bool := op == 0x06 || op == 0x09 || op == 0x0A

/-- The first error of any member decides a fanned-out command's status (R574): an error kept from a member goes before `k`. -/
def firstError (c : Cmd) (k : Completion) : Completion :=
  match c.completion with
  | some f => if f.status != .success && c.stage != .decided then { k with status := f.status } else k
  | none => k

/-- Decides a completion: the status that truncation leaves, the log, the freeze, and its delivery (R495, R497, R506, R508).
A command that is already decided keeps its completion; one whose members have not all answered keeps this device's part until
they have. A detached command's completion is discarded later (R477). -/
def decide_ (s : State) (n : Nat) (k : Completion) (res : List Byte) (unit : Nat) (z : Cause) : State :=
  match s.cmd? n with
  | none => s
  | some c =>
    if c.stage = .decided then s
    else if fannedOut (eOpcode c.entry) && !c.work.members.isEmpty then
      s.modCmd n fun c => { c with completion := some (firstError c k), work := { c.work with localDone := true } }
    else
      let k := firstError c k
      let len := outBufLen (outBuf s c)
      let k := if (eOpcode c.entry = 2 ∨ eOpcode c.entry = 3) ∧ eOutLen c.entry = 0 then { k with resultLength := 0 }
        else truncateTo len k
      let k := { k with clipped := c.clipped }
      let res := if informational k.status then clipResult len unit res else []
      let s := dropRuns (leaveBatches (cancelShards s n c) n) n
      let s := if informational k.status then s else releaseStaging s n c
      let (s, k) := logStatus s c k z
      deliver s n c k res

/-- Ends a command with a status and nothing else. -/
def fail (s : State) (n : Nat) (st : Status) (z : Cause) : State :=
  let k : Completion := { status := st }
  let k := match (s.cmd? n) with
    | some c =>
      let op := eOpcode c.entry
      let k := if isReader op then { k with epoch := c.snapshot.getD 0 } else k
      if isMutation op then { k with dw3 := 0xFFFFFFFF } else k
    | none => k
  decide_ s n k [] 1 z

/-- Ends every command of a list, as one event (R629). -/
def failAll (s : State) (ns : List Nat) (st : Status) (z : Cause) : State :=
  oneEvent s false z fun s => ns.foldl (fun s n => fail s n st z) s

/-- Completes a command with success. -/
def succeed (s : State) (n : Nat) (k : Completion) : State := decide_ s n k [] 1 {}

/-- Completes a command with success and result bytes, whose length RESULT_LENGTH reports. -/
def succeedWith (s : State) (n : Nat) (k : Completion) (res : List Byte) : State :=
  decide_ s n { k with resultLength := res.length } res 1 {}

/-! ## After a completion is posted -/

/-- ABORT commands that wait for the completion of command n report FOUND and its status (R513). -/
def settleAborts (s : State) (n : Nat) (st : Status) : State :=
  ((s.cmds.filter fun (_, a) => a.work.victim == some n).map (·.1)).foldl
    (fun s a => succeed s a { dw2 := 1, dw3 := statusCode st }) s

/-- A DELETING pair whose commands have all been posted becomes ABSENT, and its QUEUE_DELETE completes (R484). -/
def settleDelete (s : State) (p : PortId) (q : Nat) : State :=
  let x := s.pair p q
  if x.state = .deleting ∧ x.outstanding = 0 then
    let s := s.modPort p fun y => { y with pairs := Tab.erase y.pairs q }
    x.deleteCmds.foldl (fun s d => succeed s d {}) s
  else s

/-- A serial number that no command has. -/
def noCmd : Nat := 2 ^ 64

/-- Adds a fetched command with the next serial number. -/
def addCmd (s : State) (c : Cmd) : State := { s with cmds := Tab.set s.cmds s.nextCmd c, nextCmd := s.nextCmd + 1 }

end Sys2Proof.Machine
end

