-- ==== Sys2Proof/Machine/Coherence.lean ====
section
/-! DEFINITION. Accesses that pass through a home slice: reads by their hints (R257, R259), granule probes (R261), atomics (R262
to R264), region checks (R364, R365), held blocks (R254), local stores (R238), and writes to flash-tier space (R427). -/

namespace Sys2Proof.Machine

open Sys2Proof

/-! ## Region checks -/

/-- The rights of R364. -/
inductive Right where
  | read | write | atomic
  deriving DecidableEq, Repr

def hasRight (r : Region) : Right → Bool
  | .read => r.read
  | .write => r.write
  | .atomic => r.atomic

/-- passes(E, A, n, X) of R364. -/
def passes (r : Region) (a n : Nat) (x : Right) : Bool :=
  r.valid && decide (r.base ≤ a) && decide (a + n ≤ r.last + 1) && hasRight r x

/-- A sequencer access passes some entry of the core's grant set (R365); it never reaches flash-tier space (R359). -/
def coreMay (s : State) (n a len : Nat) (x : Right) : Bool :=
  !isFlash s a && (s.core n).grants.any fun g => passes (s.region g) a len x

/-- Whether an issuer may make an access: cores by their grant set, the device's other agents and peers, whose own checks come
before, always. -/
def sourceMay (s : State) (src : Source) (a len : Nat) (x : Right) : Bool :=
  match src with
  | .core n => coreMay s n a len x
  | _ => true

/-! ## Reads (R257, R259) -/

/-- The sectors that n bytes from offset off of a line touch. -/
def touched (off n i : Nat) : Bool := decide (i * 32 < off + n) && decide (off < i * 32 + 32)

/-- The line at a way. -/
def lineAt (s : State) (slice line way : Nat) : Line := Tab.getD s.cache.lines (lineKey slice (setOf line) way) ⟨line, []⟩

/-- Puts a line's sectors at its way; a line with no valid sector is not there any more. -/
def putLine (s : State) (slice line way : Nat) (x : List Sector) : State :=
  let k := lineKey slice (setOf line) way
  s.modCache fun c => { c with lines := if x.any (·.valid) then Tab.set c.lines k ⟨line, x⟩ else Tab.erase c.lines k }

/-- Whether a read of n bytes from offset off finds all the sectors it touches in the line. -/
def readHits (off n : Nat) (x : List Sector) : Bool := (List.range 4).all fun i => !touched off n i || (x.getD i {}).valid

/-- The line's sectors with those touched fetched where they are not valid. -/
def fetchSectors (s : State) (line off n : Nat) (x : List Sector) : List Sector :=
  (List.range 4).map fun i =>
    let y := x.getD i {}
    if y.valid || !touched off n i then y else { valid := true, dirty := false, data := memSector s (line * 128 + i * 32) }

/-- The line's sectors with those touched invalid: a dirty one is dropped (R257, R258). -/
def dropSectors (off n : Nat) (x : List Sector) : List Sector :=
  (List.range 4).map fun i => if touched off n i then {} else x.getD i {}

/-- A read within a line: the data, none where a byte is lost, and what it does to the slice. A read that misses a sector of a line that is
there is a read miss: the sector is fetched, and the line placed as its hint says. -/
def cacheGet (s : State) (a n : Nat) (hint : Hint) : State × Option (List Byte) :=
  let d := devRead s a n
  if isHeld a || d.isNone || !isHbm s a then (s, d)
  else
    let slice := homeSlice s a
    let line := a / 128
    let off := a % 128
    if (wcFind s slice line).isSome then (drainWc s slice line, d)
    else match findWay s slice line with
      | some way =>
        let x := (lineAt s slice line way).sectors
        match hint with
        | .lastUse => (putLine s slice line way (dropSectors off n x), d)
        | .keep => (markRecent (putLine s slice line way (fetchSectors s line off n x)) slice (setOf line) way, d)
        | _ =>
          let t := putLine s slice line way (fetchSectors s line off n x)
          (if readHits off n x then t else markVictim t slice (setOf line) way, d)
      | none =>
        match hint with
        | .lastUse => (s, d)
        | .keep => (allocLine s slice line (fetchSectors s line off n emptySectors) true, d)
        | _ => (allocLine s slice line (fetchSectors s line off n emptySectors) false, d)

/-- Reads of any length, one a line, in rising order; the fuel bounds the number of lines. -/
def cacheGetAll : Nat → State → Nat → Nat → Hint → State × Option (List Byte)
  | 0, s, _, _, _ => (s, some [])
  | f + 1, s, a, n, hint =>
    if n = 0 then (s, some [])
    else
      let k := min n (128 - a % 128)
      let (s, d) := cacheGet s a k hint
      let (s, t) := cacheGetAll f s (a + k) (n - k) hint
      (s, match d, t with | some d, some t => some (d ++ t) | _, _ => none)

/-- A granule probe (R261): the current data, every pending entry of the granule drained (R267), and with KEEP its lines
allocated. -/
def granuleGet (s : State) (a : Nat) (keep : Bool) : State × Option (List Byte) :=
  let d := devRead s a 2048
  let slice := homeSlice s a
  let s := (List.range 16).foldl (fun s i => drainWc s slice (a / 128 + i)) s
  if keep && d.isSome && isHbm s a then
    ((List.range 16).foldl (fun s i =>
      let line := a / 128 + i
      let x := match findWay s slice line with
        | some w => (lineAt s slice line w).sectors
        | none => emptySectors
      allocLine s slice line (fetchSectors s line 0 128 x) true) s, d)
  else (s, d)

/-- A boulevard's read of a piece: a granule probe for a whole granule, else the slice's reads (R261, R332). -/
def pieceGet (s : State) (a n : Nat) (hint : Hint) : State × Option (List Byte) :=
  if n = 2048 ∧ a % 2048 = 0 ∧ isHbm s a then granuleGet s a (hint == .keep)
  else cacheGetAll (n / 128 + 2) s a n hint

def hintOf : Nat → Hint
  | 0 => .keep
  | 1 => .stream
  | 2 => .lastUse
  | _ => .reserved

/-! ## Atomics (R262) -/

/-- The operations of R262. -/
inductive AtomicOp where
  | add | fadd | minU | maxU | minS | maxS | or | cas
  deriving DecidableEq, Repr

/-- The word that an operation leaves, from the old word, the operand and the compare value, on w bits. -/
def atomicResult (w : Nat) (op : AtomicOp) (old v cmp : BitVec w) : BitVec w :=
  match op with
  | .add => old + v
  | .fadd => (fadd32 (old.setWidth 32) (v.setWidth 32)).setWidth w
  | .minU => if v.toNat < old.toNat then v else old
  | .maxU => if old.toNat < v.toNat then v else old
  | .minS => if v.toInt < old.toInt then v else old
  | .maxS => if old.toInt < v.toInt then v else old
  | .or => old ||| v
  | .cas => if old = cmp then v else old

/-- The new value of the word at an address as bytes, in 64 or 32 bits. -/
def atomicBytes (op : AtomicOp) (wide : Bool) (old operand cmp : BitVec 64) : List Byte :=
  if wide then leBytes 8 (atomicResult 64 op old operand cmp).toNat
  else leBytes 4 (atomicResult 32 op (old.setWidth 32) (operand.setWidth 32) (cmp.setWidth 32)).toNat

/-- Width of an atomic in bytes. -/
def atomicWidth (wide : Bool) : Nat := if wide then 8 else 4

/-- The word an atomic finds, none where it is lost or there is no such address. -/
def atomicOld (s : State) (a : Nat) (wide : Bool) : Option (BitVec 64) :=
  if isHbm s a || isHeld a then (devRead s a (atomicWidth wide)).map fun b => BitVec.ofNat 64 (leNat b) else none

/-- An atomic at its home slice: the line allocates as KEEP (R260), the word takes its new value, and a fetching form returns the
old one. -/
def atomicEffect (s : State) (op : AtomicOp) (g : AtomicArgs) (cmp : BitVec 64) : State :=
  match atomicOld s g.addr g.wide with
  | none => s
  | some old =>
    let s := cachePut s g.src g.addr (atomicBytes op g.wide old g.operand cmp) .keep
    if g.fetching then s.modCache fun c => { c with returned := leBytes (atomicWidth g.wide) old.toNat } else s

/-! ## Held blocks (R252 to R254) -/

/-- Lines of a block: its way over its 512 sets. -/
def blockKeys (slice block : Nat) : List Nat := (List.range 512).map fun i => lineKey slice (512 * (block % 4) + i) (block / 4)

/-- Grants a block: its lines are written back and invalid, then it is held (R254); its contents start as zeros. -/
def grantBlock (s : State) (slice block : Nat) (o : BlockOwner) : State :=
  let s := (blockKeys slice block).foldl evictKey s
  s.modCache fun c => { c with held := Tab.set c.held (blockKey slice block) o }

/-- Whether a block may be granted: 2 to 47, not held, not retired (R253, R635). -/
def blockFree (s : State) (slice block : Nat) : Bool :=
  decide (2 ≤ block) && decide (block ≤ 47) && !Tab.has s.cache.held (blockKey slice block)
    && !s.cache.retired.contains (blockKey slice block)

/-- Offset of a block in held space (R255). -/
def blockOffset (slice block : Nat) : Nat := slice * 0x400000 + block * 0x10000

/-- Releases a block: its lines are invalid and return to replacement, its contents are gone (R254). A line of it that was to be
disabled is disabled now, and the block is granted no more (R635). -/
def releaseBlock (s : State) (slice block : Nat) : State :=
  let bad := (blockKeys slice block).filter fun k => Tab.has s.cache.corrected k && Tab.getD s.cache.corrected k 0 % 2 == 1
  s.modCache fun c => { c with
    held := Tab.erase c.held (blockKey slice block)
    t1 := c.t1.filter fun (a, _) => !(decide (blockOffset slice block ≤ a) && decide (a < blockOffset slice block + 0x10000))
    disabled := if bad.isEmpty then c.disabled else c.disabled ++ bad
    retired := if bad.isEmpty then c.retired else blockKey slice block :: c.retired }

/-- The lowest run of n free blocks of a slice (R671). -/
def freeRun (s : State) (slice n : Nat) : Option Nat :=
  (List.range 46).find? fun i => decide (i + n ≤ 46) && (List.range n).all fun k => blockFree s slice (2 + i + k)

/-- The lowest slice and block with a free run of n blocks (R671). -/
def placeRun (s : State) (n : Nat) : Option (Nat × Nat) :=
  (List.range 64).findSome? fun sl => (freeRun s sl n).map fun b => (sl, b + 2)

/-! ## Areas of region entries (R362, R366, R392, R671) -/

/-- Pieces and alley transfers in flight that passed a region entry. -/
def regionBusy (s : State) (n : Nat) : Bool :=
  (s.pieces.any fun (_, x) => (x.spec.srcSpace == 0 && x.spec.srcSel == n) || (x.spec.dstSpace == 0 && x.spec.dstSel == n))
    || s.alleys.any fun (_, x) => x.space == 0 && x.sel == n && x.sent

/-- A region entry is free and its area with it: the held blocks of an area in T1, the pages of one in T2. -/
def dropRegion (s : State) (n : Nat) (r : Region) : State :=
  let s := s.modProtect fun x => { x with regions := Tab.erase x.regions n }
  if isHeld r.base then
    let o := r.base - heldBase
    (List.range ((r.last + 1 - r.base) / 0x10000)).foldl (fun s i =>
      releaseBlock s (o / 0x400000) (o % 0x400000 / 0x10000 + i)) s
  else s.modProtect fun x => { x with t2Free := (r.base / 4096, (r.last + 1 - r.base) / 4096) :: x.t2Free }

/-- The firmware frees an entry: VALID clears at once, and the area is free when the accesses that passed the entry have completed
(R366). -/
def freeRegion (s : State) (n : Nat) (r : Region) : State :=
  if regionBusy s n then
    s.modProtect fun x => { x with regions := Tab.set x.regions n { r with valid := false, draining := true } }
  else dropRegion s n r

/-! ## Local stores (R238) -/

def localKey (core off : Nat) : Nat := core * 2 ^ 18 + off

/-- What a byte of a local store reads as where nothing has written it: after the core's last user, in the program area, and after a
reset or a loss of power, everywhere, a value that nobody can rely on; in a local store that started empty, zero (R238, R242, R247, R620;
DESIGN CHOICE, log entries 2 and 9). -/
def localRest (s : State) (core off : Nat) : Byte :=
  match if off < 0x30000 then (s.core core).forgot else (s.core core).selectForgot with
  | some k => Config.localByte k (localKey core off)
  | none => 0

/-- LOC of a candidate, and its 16-byte entry (R137). -/
def locNat : Loc → Nat
  | .staged k => 2 ^ 47 + k
  | .slot t k => t * 4096 + k
  | .peer _ => 0
def candNat (x : Cand) : Nat := locNat x.loc * 2 ^ 80 + x.key.toNat * 2 ^ 48 + x.vid.toNat

/-- Members of a batch with K_eff, in member order. -/
def memberKs (s : State) (b : Batch) : List (Nat × Nat) := b.members.filterMap fun n => (s.cmd? n).map fun x => (n, kEff x.entry)

/-- Moves buffers out, those of the largest K_eff first and then the first member's, until the remaining capacities sum to at most 4,096 entries
(R138). The fuel is the number of members. -/
def placeBufs : Nat → List (Nat × Nat) → List (Nat × Nat)
  | 0, l => l
  | f + 1, l =>
    if (l.map fun x => bufCapacity x.2).sum ≤ 4096 then l
    else
      let k := (l.map (·.2)).foldl max 0
      match l.findIdx? fun x => x.2 == k with
      | some i => placeBufs f (l.eraseIdx i)
      | none => l

/-- Select buffers of a batch that lie in the select area: the member, and the first entry of its buffer. -/
def placedBufs (s : State) (b : Batch) : List (Nat × Nat) :=
  let l := placeBufs b.members.length (memberKs s b)
  (l.foldl (fun (acc : List (Nat × Nat) × Nat) x => (acc.1 ++ [(x.1, acc.2)], acc.2 + bufCapacity x.2)) ([], 0)).1

/-- A byte of a core's select area that an entry of a select buffer holds (R137, R138). -/
def selectByte (s : State) (core off : Nat) : Option Byte :=
  match (s.core core).batch.bind (Tab.get? s.batches ·) with
  | none => none
  | some b =>
    match Tab.get? b.workers core with
    | none => none
    | some w =>
      let i := (off - 0x30000) / 16
      (placedBufs s b).findSome? fun (n, base) =>
        if base ≤ i then ((Tab.getD w.bufs n {}).entries[i - base]?).map fun x => (leBytes 16 (candNat x)).getD (off % 16) 0 else none

/-- A byte of a local store. `State.localStore` lists how it differs from `localRest`. -/
def localByte (s : State) (core off : Nat) : Byte :=
  match (if off < 0x30000 then none else selectByte s core off) with
  | some b => b
  | none => Mem.read s.localStore (localKey core off) ^^^ localRest s core off
def localRead (s : State) (core off n : Nat) : List Byte := (List.range n).map fun i => localByte s core (off + i)
def localWrite (s : State) (core off : Nat) (b : List Byte) : State :=
  { s with localStore :=
      Mem.writeN s.localStore (localKey core off) (b.zipIdx.map fun (x, i) => x ^^^ localRest s core (off + i)) }

/-! ## Flash-tier writes (R427) -/

/-- Tiles that the write buffer can hold. -/
def wbufTiles (s : State) : Nat := s.flash.wbufMiB * 16

/-- A write to flash-tier space: accepted by the write buffer, whose tile waits for its program (R427). -/
def flashPut (s : State) (off : Nat) (b : List Byte) : State :=
  s.modFlash fun f => { f with
    wdata := Mem.writeN f.wdata off b
    wheld := (List.range b.length).foldl (fun t i => Tab.set t (off + i) ()) f.wheld
    tilesWritten := if f.wbuf.contains (off / 65536) then f.tilesWritten else f.tilesWritten + 1
    wbuf := if f.wbuf.contains (off / 65536) then f.wbuf else f.wbuf ++ [off / 65536] }

/-- Whether the write buffer accepts a write of a tile. -/
def flashAccepts (s : State) (off : Nat) : Bool :=
  s.flash.wbuf.contains (off / 65536) || decide (s.flash.wbuf.length < wbufTiles s)

end Sys2Proof.Machine
end

