-- ==== Sys2Proof/Machine/Objects.lean ====
section
/-! DEFINITION. Space for objects: pages of T2 (R278, R362), tiles and the tile map (R397, R398), logical tiles of T4 (R424,
R429, R430); the structure of a collection: books (R69, R193), segments and their epochs (R71 to R92), directory versions (R79,
R118), the retain floor (R90), the ID map (R65), size logs (R108), what is released when nothing reads it (R79, R118, R181), and
the image in T4 (R184). -/

namespace Sys2Proof.Machine

open Sys2Proof

/-! ## Pages of T2 -/

/-- Allocatable pages of 4 KiB: HBM without the retirement region and the flash map (R278, R425). -/
def t2Limit (s : State) : Nat := (hbmTop s - 0x1000000 - s.flash.top / 4096) / 4096

/-- n pages from a multiple of align: the first freed run that fits, else the next pages never used; none when there is no room.
The manual leaves the choice of place to the device (DESIGN CHOICE, log entry 68). -/
def takePages (s : State) (n align : Nat) : Option (Nat × State) :=
  match s.protect.t2Free.find? fun (p, c) => aligned p align && decide (n ≤ c) with
  | some (p, c) =>
    let rest := s.protect.t2Free.filter fun x => x != (p, c)
    some (p, s.modProtect fun x => { x with t2Free := if c = n then rest else (p + n, c - n) :: rest })
  | none =>
    let p := ceilDiv s.protect.t2Next align * align
    if p + n ≤ t2Limit s then
      some (p, s.modProtect fun x => { x with
        t2Next := p + n, t2Free := if p = x.t2Next then x.t2Free else (x.t2Next, p - x.t2Next) :: x.t2Free })
    else none

/-- Gives n pages back. -/
def givePages (s : State) (p n : Nat) : State := s.modProtect fun x => { x with t2Free := (p, n) :: x.t2Free }

/-! ## Tiles (R397, R398) -/

/-- The least tile number not in use. -/
def freeTile (s : State) : Nat := (Tab.firstFree s.tiers.map 0 (s.tiers.map.length + 1)).getD 0

/-! ## Reads that wait at a LUN (R436) -/

/-- The I/O die whose channels store a logical tile (R423). -/
def flashDie (tile : Nat) : Nat := tile % 4

/-- CHANNEL of a location: the device channel (R425). -/
def locChannel (die loc : Nat) : Nat := 4 * die + bitsOf loc 31 30

/-- The key of the LUN that holds a location: die, CHANNEL, TARGET and LUN. -/
def lunKey (die loc : Nat) : Nat := die * 2 ^ 32 + loc / 2 ^ 23 * 2 ^ 23

/-- The LUN that holds a logical page: none where it is unmapped or LOST. -/
def pageLun (s : State) (page : Nat) : Option Nat :=
  match flashLoc s page with
  | some l => if l = lostLoc then none else some (lunKey (flashDie (page / 4)) l)
  | none => none

/-- Reads of levels 0 and 1 that wait on a LUN, in order of arrival. -/
def lunReads (s : State) (lun : Nat) : List FlashRead := s.flash.reads.filter fun r => decide (r.level ≤ 1) && pageLun s r.page == some lun

/-- A read of a page arrives at its LUN, unless the same one waits already. -/
def queueFlash (s : State) (page level : Nat) : State :=
  if s.flash.reads.contains ⟨page, level⟩ then s else s.modFlash fun f => { f with reads := f.reads ++ [⟨page, level⟩] }

/-! ## The tile map -/

/-- Sets a tile map entry. -/
def setTile (s : State) (t : Nat) (e : TileEntry) : State := s.modTiers fun x => { x with map := Tab.set x.map t e }

/-- A schedule slot's contents. -/
def State.sched (s : State) (i : Nat) : Sched := Tab.getD s.scheds i {}

/-- The tile that holds a weight reference's object. -/
def weightTile (d : Sched) (f : TileRef) : Option Nat := if f.kind = 0 then d.weightTiles[(weightObjs d).idxOf f.object]? else none

/-- A tile map entry. -/
def State.tile (s : State) (t : Nat) : TileEntry := Tab.getD s.tiers.map t {}

/-- The cause of a read of a tile that fails: where it lies in HBM, or its number and its tier (R628). -/
def tileCause (s : State) (t : Nat) : Cause :=
  if (s.tile t).tier = 2 then hbmCause s ((s.tile t).location * 65536) else { kind := kindTier, loc := t, detail := (s.tile t).tier }

/-- The page of the tile map that holds a tile's entry is there: allocated in T2 with the first of its tile numbers (R398). -/
def withMapPage (s : State) (t : Nat) : Option State :=
  if Tab.has s.tiers.mapPages (t / 4096) then some s
  else (takePages s 16 16).map fun (p, s) => s.modTiers fun x => { x with mapPages := Tab.set x.mapPages (t / 4096) (p / 16) }

/-- n tiles in T2 for an object, none when there is no room for all of them. -/
def addTiles : Nat → State → Nat → ObjKind → Option (List Nat × State)
  | 0, s, _, _ => some ([], s)
  | n + 1, s, owner, kind =>
    let t := freeTile s
    match (withMapPage s t).bind fun s => takePages s 16 16 with
    | none => none
    | some (p, s1) =>
      match addTiles n (setTile s1 t { tier := 2, location := p / 16, owner := owner, kind := kind }) owner kind with
      | none => none
      | some (ts, s2) => some (t :: ts, s2)

/-- A logical tile of T4 is free again: its pages are unmapped and any data that waits is dropped. -/
def freeT4 (s : State) (t : Nat) : State :=
  s.modFlash fun f => { f with
    used := f.used.filter (· != t), wbuf := f.wbuf.filter (· != t)
    map := Tab.keep f.map fun p _ => p / 4 != t
    wheld := Tab.keep f.wheld fun o _ => o / 65536 != t
    wdata := f.wdata.filter fun (o, _) => o / 65536 != t }

/-- The logical tile of T4 that flash-tier device address bits [47:16] name. -/
def t4TileOf (loc : Nat) : Nat := loc - flashBase / 65536

/-- The address bits of a logical tile of T4. -/
def t4Loc (t : Nat) : Nat := flashBase / 65536 + t

/-- Takes a tile off the map and gives back its space in T2 and T4; a parked INDEX lies on its image (R408), which stays. -/
def dropTile (s : State) (t : Nat) : State :=
  match Tab.get? s.tiers.map t with
  | none => s
  | some e =>
    let s := if e.tier = 2 then givePages s (e.location * 16) 16 else s
    let s := if e.tier = 4 ∧ e.kind ≠ .index then freeT4 s (t4TileOf e.location) else s
    let s := if e.backed then freeT4 s (t4TileOf e.backing) else s
    s.modTiers fun x => { x with map := Tab.erase x.map t, backingQueue := x.backingQueue.filter (· != t) }

def dropTiles (s : State) (ts : List Nat) : State := ts.foldl dropTile s

/-! ## Space of T4 (R424, R429, R430) -/

/-- The key of the block that holds a location. -/
def blockKeyOf (s : State) (die loc : Nat) : Nat := lunKey die loc + loc % 2 ^ 23 / max 1 s.flash.profile.pagesPerBlock

/-- The LUN of a block. -/
def lunOf (b : Nat) : Nat := b / 2 ^ 23 * 2 ^ 23

/-- Blocks of a LUN that are bad. -/
def badIn (s : State) (lun : Nat) : Nat := (s.flash.blocks.filter fun (b, x) => x.bad && lunOf b == lun).length

/-- Spare blocks of a LUN at format: the quarter of its blocks that R424 keeps beside FLASH_TOP (DEDUCED, log entry 29). -/
def sparesAtFormat (s : State) : Nat := s.flash.lunBlocks / 4

/-- Good spare blocks of a LUN, and whether it is read-only (R444). -/
def goodSpares (s : State) (lun : Nat) : Nat := sparesAtFormat s - badIn s lun
def lunReadOnly (s : State) (lun : Nat) : Bool :=
  s.flash.failedLuns.contains lun || decide (goodSpares s lun < s.flash.profile.spareMin)

/-- LUNs that have failed or have bad blocks and are read-only. -/
def closedLuns (s : State) : List Nat :=
  let bad : Table FlashBlock := s.flash.blocks.filter fun (_, x) => x.bad
  (s.flash.failedLuns ++ (Tab.keys bad).map lunOf).eraseDups.filter (lunReadOnly s)

/-- A channel in service. -/
def flashServes (c : FlashCh) : Bool := c.state == .active || c.state == .retraining

/-- The channel of a LUN or a block. -/
def channelOf (b : Nat) : Nat := locChannel (b / 2 ^ 32) (b % 2 ^ 32)

/-- Pages of 16 KiB of the LUNs that take programs, on the channels in service (R443, R444: FLASH_TOP does not change, the writable space falls). -/
def physPages (s : State) : Nat :=
  if sparesAtFormat s < s.flash.profile.spareMin then 0
  else
    let luns := (s.flash.channels.map fun (_, c) => if flashServes c then c.targets * c.luns else 0).foldl (· + ·) 0
    let closed := ((closedLuns s).filter fun l => flashServes (Tab.getD s.flash.channels (channelOf l) {})).length
    (luns - closed) * s.flash.lunBlocks * s.flash.profile.pagesPerBlock

/-- PHYS_FREE: writable free bytes (R449). -/
def physFree (s : State) : Nat :=
  let closed := closedLuns s
  let bad := (s.flash.blocks.filter fun (b, x) => x.bad && !closed.contains (lunOf b)).length * s.flash.profile.pagesPerBlock
  let mapped := (s.flash.map.filter fun (p, l) => l != lostLoc && !closed.contains (lunKey (flashDie (p / 4)) l)).length
  (physPages s - bad - mapped) * 16384

/-- A T4 reservation of n tiles is granted (R429, R444). -/
def t4Grants (s : State) (n : Nat) : Bool :=
  s.flash.isOpen && (s.flash.state == .normal || s.flash.state == .degraded)
    && decide (n * 65536 + s.flash.profile.gcReserve ≤ physFree s)
    && decide (s.flash.used.length + n ≤ s.flash.top / 65536)

/-- The least free logical tile from t on whose die passes a test. -/
def findT4 (s : State) (ok : Nat → Bool) : Nat → Nat → Option Nat
  | 0, _ => none
  | n + 1, t => if ok (t % 4) && !s.flash.used.contains t && decide (t < s.flash.top / 65536) then some t else findT4 s ok n (t + 1)

/-- A free logical tile, on a die that passes the test (R430: the two copies lie on different dies). -/
def takeT4 (s : State) (ok : Nat → Bool) : Option (Nat × State) :=
  match findT4 s ok (4 * s.flash.used.length + 8) 0 with
  | some t => some (t, s.modFlash fun f => { f with used := f.used ++ [t] })
  | none => none

/-- n mirrored logical tiles: the first copies and the second ones. -/
def takeMirrored : Nat → State → Option (List Nat × List Nat × State)
  | 0, s => some ([], [], s)
  | n + 1, s =>
    match takeT4 s fun _ => true with
    | none => none
    | some (t, s1) =>
      match takeT4 s1 fun d => d != t % 4 with
      | none => none
      | some (u, s2) =>
        match takeMirrored n s2 with
        | none => none
        | some (ts, us, s3) => some (t :: ts, u :: us, s3)

/-- Queues whole tiles for their program (R427, R428). -/
def queueT4 (s : State) (ts : List Nat) : State :=
  s.modFlash fun f => { f with
    wbuf := f.wbuf ++ ts.filter fun t => !f.wbuf.contains t, tilesWritten := f.tilesWritten + ts.length
    map := Tab.keep f.map fun p l => !(l == lostLoc && ts.contains (p / 4)) }

/-- A write of a VECTORS or TOKENS tile where it lies: in T3 it makes the tile DIRTY and asks for its T4 write (R399), in T4 it is a write
of its logical tile, and in T2 a T4 copy that it leaves behind is given up (DEDUCED, log entry 85). -/
def noteTileWrite (s : State) (t : Nat) : State :=
  match Tab.get? s.tiers.map t with
  | none => s
  | some e =>
    if e.tier = 3 then
      let s := setTile s t { e with dirty := true }
      s.modTiers fun x => { x with backingQueue := if x.backingQueue.contains t then x.backingQueue else x.backingQueue ++ [t] }
    else if e.tier = 4 then queueT4 s [t4TileOf e.location]
    else if e.backed then setTile (freeT4 s (t4TileOf e.backing)) t { e with backed := false, backing := 0 }
    else s

/-! ## Books (R69, R75, R193, R195) -/

def bookKey (gen lc : Nat) : Nat := gen * 2 ^ 21 + lc

/-- The collection whose codebook and centroids a collection uses: its template, or itself (R51). -/
def bookOwner (s : State) (c : Collection) : Collection :=
  if c.attrs.codebookSource = 0 then c
  else (s.coll? (c.attrs.codebookSource.toNat % 65536)).getD c

/-- Codebook and centroids of a generation and LIST_COUNT. -/
def bookOf (s : State) (c : Collection) (gen lc : Nat) : List B16 × List B16 :=
  let o := bookOwner s c
  if gen = o.cbGen ∧ lc = o.attrs.listCount then (o.codebook, o.centroids)
  else Tab.getD o.oldBooks (bookKey gen lc) ([], [])

/-- Centroid L, widened. -/
def centroid (a : Attrs) (book : List B16) (l : Nat) : List F32 := ((book.drop (l * dpad a)).take (dpad a)).map bf16To32

/-- Centroid v of subquantiser j of a codebook, widened (R69). -/
def codeword (a : Attrs) (book : List B16) (j v : Nat) : List F32 :=
  ((book.drop ((j * 2 ^ a.codeBits + v) * subDims a)).take (subDims a)).map bf16To32

/-! ## Records and epochs (R76, R78, R85, R86, R92) -/

/-- The insert epoch that a segment gives a record (R86). -/
def recIns (g : Segment) (r : Rec) : Nat := g.base + (r.insLo.toNat + 65536 - g.base % 65536) % 65536

/-- The insert epoch as committed: from the origin block where there is one (R92). -/
def recOrigin (g : Segment) (r : Rec) (i : Nat) : Nat :=
  match g.origin with
  | some l => l.getD i (recIns g r)
  | none => recIns g r

/-- The delete epoch of a slot; none is infinity (R78, R83). -/
def recDel (g : Segment) (i : Nat) : Option Nat :=
  match g.tomb with
  | some l => l.getD i none
  | none => none

/-- The visibility test (R85). -/
def sees (snap ins : Nat) (del : Option Nat) : Bool :=
  decide (ins ≤ snap) && match del with | none => true | some d => decide (snap < d)

/-- Whether a delete epoch lies at or below a floor (R91). -/
def deadAt (floor : Nat) (del : Option Nat) : Bool := match del with | none => false | some d => decide (d ≤ floor)

/-- Writes a delete epoch to a slot; a segment gains its tombstone block with the first (R78). -/
def markDeleted (g : Segment) (i e : Nat) : Segment :=
  let l := g.tomb.getD (List.replicate g.recs.length none)
  let l := l ++ List.replicate (g.recs.length - l.length) none
  { g with tomb := some (l.set i (some e)) }

/-! ## Directory versions (R79, R118, R193) -/

def emptyDir : DirVersion := { number := 0, segs := [], limits := [], cbGen := 1, listCount := 1, fromEpoch := 0 }

/-- A segment of a list without records. -/
def noSegment (l : Nat) : Segment := { list := l, base := 0, cbGen := 0 }

/-- The newest directory version. -/
def latestDir (c : Collection) : DirVersion := c.dirs.getLast?.getD emptyDir

/-- The version that a snapshot uses: the newest of those in use from an epoch at or below it (R193). -/
def dirFor (c : Collection) (snap : Nat) : DirVersion :=
  ((c.dirs.filter fun v => decide (v.fromEpoch ≤ snap)).getLast?).getD (latestDir c)

/-- The version of a number. -/
def dirNum (c : Collection) (n : Nat) : DirVersion := (c.dirs.find? fun v => v.number == n).getD (latestDir c)

/-- Segments of a list in a version, in order. -/
def listSegs (v : DirVersion) (l : Nat) : List Nat := Tab.getD v.segs l []

/-- The slot limit of a segment in a version: the recorded limit for the tail, RECORD_COUNT otherwise (R118, R121). -/
def slotLimit (c : Collection) (v : DirVersion) (l t : Nat) : Nat :=
  let n := (Tab.getD c.segs t (noSegment l)).recs.length
  if (listSegs v l).getLast? = some t then min n (Tab.getD v.limits l n) else n

/-- Whether a version covers the copy of a staged record on a list: the append had published it by then (R118). -/
def covers118 (v : DirVersion) (e : Staged) (l : Nat) : Bool := e.appended.any fun (m, n) => m == l && decide (n ≤ v.number)

/-- Staged copies that a version reads from staging on a list (R118). -/
def stagedOf (c : Collection) (v : DirVersion) (l : Nat) : List Nat :=
  (c.staging.filter fun (_, e) => e.insE.isSome && e.lists.contains l && !covers118 v e l).map (·.1)

/-! ## The retain floor (R90) -/

/-- The slot that a handle names, and its collection (R48): none where it is free, another GENERATION or being deleted. -/
def collOf (s : State) (h : Nat) : Option (Nat × Collection) :=
  match s.coll? (h % 65536) with
  | some c => if h = (handleOf c.gen (h % 65536)).toNat ∧ c.deleting.isNone then some (h % 65536, c) else none
  | none => none

/-- Whether a command names the collection in slot i. -/
def onColl (i : Nat) (c : Cmd) : Bool := namesCollection c.entry && eIndex c.entry == i

def minOf (d : Nat) (l : List Nat) : Nat := l.foldl min d

/-- The last epoch that a beacon told at least 10 ms ago, by the control island's counter (R571). -/
def learned (s : State) (c : Collection) : Nat :=
  ((c.beacons.find? fun (t, _) => decide (t + 10000000 ≤ islandCount s 102)).map (·.2)).getD 0

/-- The retain floor in force (R90); on a member of a sharded collection no more than the epoch it has learned (R571). -/
def retainFloor (s : State) (i : Nat) (c : Collection) : Nat :=
  match c.attrs.retainFloor with
  | some f => f
  | none =>
    let f := minOf c.published (s.cmds.filterMap fun (_, x) => if onColl i x then x.snapshot else none)
    if c.members.isEmpty then f else min f (learned s c)

/-! ## The ID map and the version log (R65, R181) -/

/-- The delete epoch of a version. -/
def entryDel (c : Collection) (e : IdEntry) : Option Nat :=
  match e.staged with
  | some k => match Tab.get? c.staging k with
    | some x => x.delE
    | none => none
  | none => match e.slots.head? with
    | some (t, i) => match Tab.get? c.segs t with
      | some g => recDel g i
      | none => none
    | none => none

/-- The version visible at the latest epoch. -/
def current (c : Collection) (v : BitVec 48) : Option IdEntry :=
  match Tab.get? c.idMap v.toNat with
  | some e => if (entryDel c e).isNone then some e else none
  | none => none

/-- The version of an ID that a snapshot sees, through the version log where the snapshot is below a replacement (R178, R181). -/
def versionAt (c : Collection) (v : BitVec 48) (snap : Nat) : Option IdEntry :=
  let olds := (c.versions.filter fun x => x.vid == v).reverse.map (·.old)
  let all := match Tab.get? c.idMap v.toNat with | some e => e :: olds | none => olds
  all.find? fun e => sees snap e.ins (entryDel c e)

/-- The attribute word of a version. -/
def entryAttr (c : Collection) (e : IdEntry) : BitVec 64 :=
  match e.staged.bind (Tab.get? c.staging ·) with
  | some x => x.attr
  | none => match e.slots.head? with
    | some (t, i) => match Tab.get? c.segs t with
      | some g => (g.recs.getD i ⟨[], 0, 0, 0⟩).attr
      | none => 0
    | none => 0

/-- The key of `fulls` and `tokens`. -/
def fullKey (v : BitVec 48) (ins : Nat) : Nat := v.toNat * 2 ^ 64 + ins

/-- The stored full vector of a version: from the staging entry while it is staged (R178). -/
def entryFull (c : Collection) (v : BitVec 48) (e : IdEntry) : List Byte :=
  match e.staged.bind (Tab.get? c.staging ·) with
  | some x => x.full
  | none => ((Tab.get? c.fulls (fullKey v e.ins)).map (·.2.2)).getD []

/-- Tokens kept for a version (R229). -/
def entryTokens (c : Collection) (v : BitVec 48) (e : IdEntry) : List (BitVec 32) :=
  ((Tab.get? c.tokens (fullKey v e.ins)).map (·.2.2)).getD []

/-- Whether the tiles that hold a version's full vector, and its tokens, are readable (R642). -/
def fullLost (s : State) (c : Collection) (v : BitVec 48) (ins : Nat) : Bool :=
  match Tab.get? c.fulls (fullKey v ins) with
  | some (t, _) => (s.tile t).lost
  | none => false
def tokensLost (s : State) (c : Collection) (v : BitVec 48) (ins : Nat) : Bool :=
  match Tab.get? c.tokens (fullKey v ins) with
  | some (t, _) => (s.tile t).lost
  | none => false

/-! ## Size logs (R108) -/

/-- The scan size of a list at a snapshot: the latest pair at or below it. -/
def scanSize (c : Collection) (l snap : Nat) : Nat :=
  (((Tab.getD c.sizeLogs l []).filter fun (e, _) => decide (e ≤ snap)).getLast?.map (·.2)).getD 0

/-- Appends a pair that changes the latest size by d. -/
def logSize (c : Collection) (l e : Nat) (d : Int) : Collection :=
  let last := ((Tab.getD c.sizeLogs l []).getLast?.map (·.2)).getD 0
  let h := (Tab.getD c.sizeLogs l []).filter fun (x, _) => x != e
  { c with sizeLogs := Tab.set c.sizeLogs l (h ++ [(e, ((last : Int) + d).toNat)]) }

/-- Prunes a log below a floor, keeping the latest pair at or below it. -/
def pruneLog (floor : Nat) (l : List (Nat × Nat)) : List (Nat × Nat) :=
  let low := l.filter fun (e, _) => decide (e ≤ floor)
  (match low.getLast? with | some x => [x] | none => []) ++ l.filter fun (e, _) => decide (floor < e)

/-! ## Release (R79, R118, R169, R181) -/

/-- Numbers of directory versions that commands and batches hold. -/
def heldDirs (s : State) (i : Nat) : List Nat :=
  (s.cmds.filterMap fun (_, x) => if onColl i x && x.snapshot.isSome && eOpcode x.entry == 1 then some x.search.dir else none)
    ++ (s.batches.filterMap fun (_, b) => if b.coll = i then some b.dir else none)

/-- A version is kept: it is the newest, it is held, or a snapshot at the floor still uses it (R193). -/
def keepDir (c : Collection) (held : List Nat) (floor : Nat) (v : DirVersion) : Bool :=
  v.number == (latestDir c).number || held.contains v.number || v.number == (dirFor c floor).number
    || (decide (floor < v.fromEpoch) && !c.dirs.any fun w => w.fromEpoch == v.fromEpoch && decide (v.number < w.number))

/-- Lets a staged copy's ID map entry name only its slots (R169). -/
def forgetStaged (k : Nat) (e : IdEntry) : IdEntry := if e.staged = some k then { e with staged := none } else e

/-- An ID map entry without the slots of segments that are released. -/
def dropSlots (gone : List Nat) (e : IdEntry) : IdEntry := { e with slots := e.slots.filter fun (t, _) => !gone.contains t }

/-- A block of a segment lies in tile t. -/
def blockIn (t : Nat) (g : Segment) : Bool := g.tombAt.map (· / 16) == some t || g.originAt.map (· / 16) == some t

/-- Releases what nothing reads: directory versions and their segments with their blocks, staged copies, version-log entries at or below the
floor, versions that no slot holds any more, full vectors and tokens of versions that no longer exist, and emptied tiles. -/
def gcColl (s : State) (i : Nat) : State :=
  match s.coll? i with
  | none => s
  | some c =>
    let floor := retainFloor s i c
    let dirs := c.dirs.filter (keepDir c (heldDirs s i) floor)
    let named := dirs.flatMap fun v => (Tab.vals v.segs).flatten
    let goneSegs := (Tab.keys c.segs).filter fun t => !named.contains t
    let done := c.staging.filter fun (_, e) => e.insE.isSome
      && e.lists.all (fun l => dirs.all fun v => covers118 v e l)
    let goneStaged := done.map (·.1)
    let versions := c.versions.filter fun x => decide (floor < x.epoch)
    let forget (e : IdEntry) : IdEntry := dropSlots goneSegs (goneStaged.foldl (fun e k => forgetStaged k e) e)
    let held (e : IdEntry) : Bool := (forget e).staged.isSome || !(forget e).slots.isEmpty || e.slots.isEmpty
    let segs := Tab.keep c.segs fun t _ => !goneSegs.contains t
    let blocks := c.blockTiles.filter fun t => c.blockTiles.getLast? == some t || segs.any fun (_, g) => blockIn t g
    let c1 : Collection := { c with
      dirs := dirs
      segs := segs, blockTiles := blocks
      indexTiles := c.indexTiles.filter fun t => blocks.contains t || !c.blockTiles.contains t
      staging := Tab.keep c.staging fun k _ => !goneStaged.contains k
      stagingUsed := c.stagingUsed - (done.map fun (_, e) => e.bytes).foldl (· + ·) 0
      idMap := Tab.map (Tab.keep c.idMap fun _ e => held e) forget
      versions := (versions.filter fun x => held x.old).map fun x => { x with old := forget x.old }
      sizeLogs := Tab.map c.sizeLogs (pruneLog floor) }
    let live (k : Nat) : Bool :=
      let v := BitVec.ofNat 48 (k / 2 ^ 64)
      (match Tab.get? c1.idMap (k / 2 ^ 64) with | some e => e.ins == k % 2 ^ 64 | none => false)
        || c1.versions.any fun x => x.vid == v && x.old.ins == k % 2 ^ 64
    let fulls := Tab.keep c1.fulls fun k _ => live k
    let toks := Tab.keep c1.tokens fun k _ => live k
    let vt := c1.vecTiles.filter fun t => fulls.any (fun (_, x) => x.1 == t) || c1.vecTiles.getLast? == some t
    let tt := c1.tokTiles.filter fun t => toks.any (fun (_, x) => x.1 == t) || c1.tokTiles.getLast? == some t
    let c2 : Collection := { c1 with fulls := fulls, tokens := toks, vecTiles := vt, tokTiles := tt }
    let gone := goneSegs ++ (c.blockTiles.filter fun t => !blocks.contains t) ++ (c1.vecTiles.filter fun t => !vt.contains t) ++ (c1.tokTiles.filter fun t => !tt.contains t)
    dropTiles { s with colls := Tab.set s.colls i c2 } gone

/-! ## New segments, vectors and tokens -/

/-- Room for a tombstone or origin block of slot i's collection, in whole pages of 4 KiB: in the last tile of blocks while it has room, else in a
new one; none when T2 has no room (R78, R92). -/
def newBlock (s : State) (i : Nat) : Option (Nat × State) :=
  match s.coll? i with
  | none => none
  | some c =>
    let n := ceilDiv (8 * slotCount c.attrs) 4096
    match c.blockTiles.getLast?, decide (c.blockUsed + n ≤ 16) with
    | some t, true => some (t * 16 + c.blockUsed, s.modColl i fun c => { c with blockUsed := c.blockUsed + n })
    | _, _ =>
      match addTiles 1 s i .index with
      | some ([t], s) => some (t * 16, s.modColl i fun c => { c with
          blockTiles := c.blockTiles ++ [t], indexTiles := c.indexTiles ++ [t], blockUsed := n })
      | _ => none

/-- Gives the segment in tile t the blocks it needs and lacks: a tombstone block with its first delete (R78), an origin block where an insert epoch
was replaced (R92). -/
def growSegment (s : State) (i t : Nat) : Option State :=
  match (s.coll? i).bind fun c => Tab.get? c.segs t with
  | none => some s
  | some g =>
    let put (s : State) (b : Nat) (f : Segment → Nat → Segment) : State :=
      s.modColl i fun c => { c with segs := Tab.adjust c.segs t fun g => f g b }
    let s1 := if g.tomb.isSome && g.tombAt.isNone
      then (newBlock s i).map fun (b, s) => put s b fun g b => { g with tombAt := some b } else some s
    if g.origin.isSome && g.originAt.isNone
    then (s1.bind fun s => newBlock s i).map fun (b, s) => put s b fun g b => { g with originAt := some b } else s1

/-- Gives every segment of slot i the blocks it needs. -/
def growBlocks (s : State) (i : Nat) : Option State :=
  (Tab.keys (((s.coll? i).map (·.segs)).getD [])).foldl (fun s t => s.bind fun s => growSegment s i t) (some s)

/-- Adds a segment to slot i's collection with the blocks it needs: a tile of INDEX, none when T2 has no room. -/
def newSegment (s : State) (i : Nat) (g : Segment) : Option (Nat × State) :=
  match addTiles 1 s i .index with
  | some ([t], s) => (growSegment (s.modColl i fun c => { c with segs := Tab.set c.segs t g }) i t).map fun s => (t, s)
  | _ => none

/-- Where the next full vector starts in its tile, which has `used` bytes in use: one of at most 4,096 bytes lies within one codeword of its flash
page (R650; DEDUCED, log entry 153). -/
def vecStart (used n : Nat) : Nat :=
  if n ≤ 4096 ∧ used / 4096 ≠ (used + n - 1) / 4096 then ceilDiv used 4096 * 4096 else used

/-- Puts a full vector into VECTORS: into the last tile while it has room, else into a new one; none when T2 has no room. -/
def putFull (s : State) (i : Nat) (c : Collection) (k : Nat) (b : List Byte) : Option State :=
  if b.isEmpty || Tab.has c.fulls k then some s
  else
    let at_ := vecStart c.vecUsed b.length
    match c.vecTiles.getLast?, decide (at_ + b.length ≤ 65536) with
    | some t, true => some ((noteTileWrite s t).modColl i fun c => { c with fulls := Tab.set c.fulls k (t, at_, b), vecUsed := at_ + b.length })
    | _, _ =>
      match addTiles 1 s i .vectors with
      | some ([t], s) => some (s.modColl i fun c => { c with
          fulls := Tab.set c.fulls k (t, 0, b), vecTiles := c.vecTiles ++ [t], vecUsed := b.length })
      | _ => none

/-- Puts tokens into TOKENS, 4 bytes each, in the same way. -/
def putTokens (s : State) (i : Nat) (c : Collection) (k : Nat) (ts : List (BitVec 32)) : Option State :=
  if ts.isEmpty || Tab.has c.tokens k then some s
  else match c.tokTiles.getLast?, decide (c.tokUsed + 4 * ts.length ≤ 65536) with
    | some t, true => some ((noteTileWrite s t).modColl i fun c => { c with tokens := Tab.set c.tokens k (t, c.tokUsed, ts), tokUsed := c.tokUsed + 4 * ts.length })
    | _, _ =>
      match addTiles 1 s i .tokens with
      | some ([t], s) => some (s.modColl i fun c => { c with
          tokens := Tab.set c.tokens k (t, 0, ts), tokTiles := c.tokTiles ++ [t], tokUsed := 4 * ts.length })
      | _ => none

/-! ## Sorting -/

/-- Puts x into an ascending list, after those it does not precede. -/
def insSorted {α : Type} (lt : α → α → Bool) (x : α) : List α → List α
  | [] => [x]
  | y :: t => if lt x y then x :: y :: t else y :: insSorted lt x t

/-- Insertion sort; equal elements keep their order. -/
def isort {α : Type} (lt : α → α → Bool) (l : List α) : List α := l.foldl (fun acc x => insSorted lt x acc) []

/-! ## Packing records into segments (R76, R77, R91, R189) -/

/-- A record on its way into a segment: its insert epoch as stored and as committed, its delete epoch. -/
structure Packed where
  rec_ : Rec
  ins : Nat
  orig : Nat
  del : Option Nat
  deriving DecidableEq, Repr, Inhabited

/-- Cuts records, in insert-epoch order, into runs that fit a segment: the slot count, and 65,535 epochs from the first. -/
def packRuns (slots : Nat) : Nat → List Packed → List (List Packed)
  | 0, _ => []
  | n + 1, l =>
    match l with
    | [] => []
    | x :: _ =>
      let run := (l.take slots).takeWhile fun y => decide (y.ins ≤ x.ins + 65535)
      run :: packRuns slots n (l.drop run.length)

/-- The segment of a run; an origin block where an insert epoch is replaced (R92). -/
def packSegment (list gen sealE : Nat) (run : List Packed) : Segment :=
  { list := list, base := (run.head?.map (·.ins)).getD 0, sealEpoch := sealE, cbGen := gen
    recs := run.map fun x => { x.rec_ with insLo := BitVec.ofNat 16 x.ins }
    tomb := if run.any fun x => x.del.isSome then some (run.map (·.del)) else none
    origin := if run.any fun x => x.orig != x.ins then some (run.map (·.orig)) else none }

/-! ## The image (R184, R185) -/

/-- The records of a collection that its latest epoch sees. -/
def durRecs (c : Collection) : List DurRec :=
  c.idMap.filterMap fun (v, e) =>
    if (entryDel c e).isNone then
      let vid := BitVec.ofNat 48 v
      let (lists, codes) := match e.staged.bind (Tab.get? c.staging ·) with
        | some x => (x.lists, x.codes)
        | none => (e.slots.map fun (t, _) => (Tab.getD c.segs t (noSegment 0)).list,
            e.slots.map fun (t, i) => ((Tab.getD c.segs t (noSegment 0)).recs.getD i ⟨[], 0, 0, 0⟩).code)
      some { vid := vid, attr := entryAttr c e, ins := e.ins, lists := lists, codes := codes, full := entryFull c vid e
             tokens := entryTokens c vid e }
    else none

/-- The image of a collection as it is now, in given tiles. -/
def imageOf (c : Collection) (imageEpoch : Nat) (tiles mirrors : List Nat) : Image :=
  { epoch := c.published, imageEpoch := imageEpoch, recs := durRecs c, attrs := c.attrs, codebook := c.codebook
    centroids := c.centroids, cbGen := c.cbGen, tiles := tiles, mirrors := mirrors, imageTiles := tiles.length }

/-- Tiles that records take in the image or journal: 64 bytes each, and their codes, full vectors and tokens (DESIGN CHOICE, log entry 135). -/
def recTiles (c : Collection) (rs : List DurRec) : Nat :=
  max 1 (ceilDiv ((rs.map fun r => 64 + r.full.length + c.attrs.codeBytes * r.codes.length + 4 * r.tokens.length).sum) 65536)

/-- Tiles that an image takes (DESIGN CHOICE, log entry 135). -/
def imageTiles (c : Collection) : Nat := recTiles c (durRecs c)

/-- Tiles that a journal append takes: the records committed after the durable epoch (DESIGN CHOICE, log entry 135). -/
def journalTiles (c : Collection) (durable : Nat) : Nat := recTiles c ((durRecs c).filter fun r => decide (durable < r.ins))

end Sys2Proof.Machine
end

