-- ==== Sys2Proof/Machine/Index.lean ====
section
/-! DEFINITION. The numbers of search and ingest: coarse distances and probe order (R98, R99), list assignment and spill (R80,
R166), preparing a vector (R53 to R56, R165), encoding (R70), distance tables (R102, R103), scores (R104) and exact distances
(R226). -/

namespace Sys2Proof.Machine

open Sys2Proof

def two32 : F32 := 0x40000000#32

/-! ## Coarse distances (R98) -/

/-- A vector rounded to BF16, as it enters the matrix unit. -/
def roundB16 (x : List F32) : List F32 := x.map fun v => bf16To32 (toBf16 v)

/-- The coarse distance of a query to a centroid; qb is the query rounded to BF16 and qn its squared norm. -/
def coarseDist (m : Metric) (qb : List F32) (qn : F32) (c : List F32) : F32 :=
  let dot := matDot (c.length / 32 + 1) 0 qb c
  match m with
  | .l2sq => csub (cadd qn (sqNorm c)) (cmul two32 dot)
  | _ => fneg32 dot

/-- The order of R99: key of the distance, then list number. -/
def probeLt (x y : F32 × Nat) : Bool :=
  decide ((distKey x.1).toNat < (distKey y.1).toNat) || (distKey x.1 == distKey y.1 && decide (x.2 < y.2))

/-- Distances to given lists, in probe order. -/
def coarseOrder (a : Attrs) (book : List B16) (q : List F32) (ls : List Nat) : List (F32 × Nat) :=
  let q := padVec (dpad a) q
  let qb := roundB16 q
  let qn := sqNorm q
  isort probeLt (ls.map fun l => (coarseDist a.metric qb qn (centroid a book l), l))

/-! ## Assignment (R80, R166) -/

/-- The lists a record goes to: the nearest, and by SPILL_MODE the second. -/
def assignLists (a : Attrs) (order : List (F32 × Nat)) : List Nat :=
  match order with
  | (d1, l1) :: (d2, l2) :: _ =>
    match a.spillMode with
    | .off => [l1]
    | .always => [l1, l2]
    | .margin => if fless (cmul a.spillMargin (d1 &&& 0x7FFFFFFF#32)) (csub d2 d1) then [l1] else [l1, l2]
  | [(_, l1)] => [l1]
  | [] => []

/-! ## Encoding (R70) -/

/-- The index of the smallest value, the first among equals. -/
def argMin (l : List F32) : Nat :=
  ((l.zipIdx).foldl (fun (best : F32 × Nat) x => if fless x.1 best.1 then x else best) (l.headD 0, 0)).2

/-- The vector to encode for list L. -/
def residualOf (a : Attrs) (cents : List B16) (x : List F32) (l : Nat) : List F32 :=
  if a.residual then List.zipWith csub x (centroid a cents l) else x

/-- The code of a vector for list L. -/
def encode70 (a : Attrs) (book cents : List B16) (x : List F32) (l : Nat) : List Nat :=
  let y := residualOf a cents (padVec (dpad a) x) l
  (List.range (subM a)).map fun j =>
    let sub := (y.drop (j * subDims a)).take (subDims a)
    argMin ((List.range (2 ^ a.codeBits)).map fun v => chainSq sub (codeword a book j v))

/-- The vector that a code stands for, where no full vector is kept (R191). -/
def reconstruct (a : Attrs) (book cents : List B16) (code : List Nat) (l : Nat) : List F32 :=
  let y := (List.range (subM a)).flatMap fun j => codeword a book j (code.getD j 0)
  let x := if a.residual then List.zipWith cadd y (centroid a cents l) else y
  x.take a.dim

/-! ## Preparing a vector (R54, R165) -/

/-- The stored form and the working vector of an FP32 vector; none where R54 refuses it. -/
def prepareVec (a : Attrs) (x : List F32) : Option (List Byte × List F32) :=
  if x.any notFinite32 then none
  else
    match (if a.metric = .cosine then normalise x else some x) with
    | none => none
    | some y =>
      if a.fullFormat = .none then some ([], y)
      else let b := narrow a y; some (b, widen a.fullFormat a.int8Scale a.dim b)

/-! ## Distance tables (R102, R103) -/

/-- One entry before quantisation. -/
def tableEntry (a : Attrs) (book : List B16) (q r : List F32) (j v : Nat) : F32 :=
  let c := codeword a book j v
  let cut (x : List F32) := (x.drop (j * subDims a)).take (subDims a)
  match a.metric with
  | .l2sq => chainSq (cut r) c
  | _ => fneg32 (chainDot (cut q) c)

/-- The list bias b_L. -/
def listBias (a : Attrs) (cents : List B16) (q : List F32) (l : Nat) : F32 :=
  if a.metric = .l2sq ∨ !a.residual then 0 else fneg32 (chainDot q (centroid a cents l))

/-- Whether each probed list has a table of its own (R102). -/
def residualTables (a : Attrs) : Bool := a.metric == .l2sq && a.residual

/-- The smallest of a row. -/
def minF (l : List F32) : F32 := l.foldl (fun m x => if fless x m then x else m) (l.headD 0)
def maxF (l : List F32) : F32 := l.foldl (fun m x => if fless m x then x else m) (l.headD 0)

/-- E_MAX of R103. -/
def eMax (m : Nat) : Nat := min 255 (65535 / m)

/-- The quantised table of a query for list L. -/
def buildTable (a : Attrs) (book cents : List B16) (q : List F32) (l : Nat) : DistTable :=
  let q := padVec (dpad a) q
  let r := residualOf a cents q l
  let t := (List.range (subM a)).map fun j => (List.range (2 ^ a.codeBits)).map fun v => tableEntry a book q r j v
  let m := t.map minF
  let g := List.zipWith (fun row x => row.map fun y => csub y x) t m
  let w := maxF g.flatten
  let e := eMax (subM a)
  let base := match m with | [] => 0 | x :: xs => xs.foldl cadd x
  if w = 0 then { e := g.map fun row => row.map fun _ => 0, delta := 0x3F800000#32, base := base }
  else
    let k := cdiv (natF32 e) w
    { e := g.map fun row => row.map fun y => min e (rni (cmul y k)), delta := cdiv w (natF32 e), base := base }

/-- The sum of a code's entries, 16 bits saturating (R104). -/
def codeSum (t : DistTable) (code : List Nat) : Nat :=
  (List.zipWith (fun row v => row.getD v 0) t.e code).foldl (satAdd 65535) 0

/-- The distance key of a record (R104). -/
def scoreKey (t : DistTable) (biased : F32) (code : List Nat) : BitVec 32 :=
  distKey (cfma t.delta (natF32 (codeSum t code)) biased)

/-! ## Exact distances (R226) -/

/-- The exact distance of a query to a stored vector. -/
def exactDist (m : Metric) (q x : List F32) : F32 :=
  match m with
  | .l2sq => reduce64 sqStep q x
  | _ => fneg32 (reduce64 (fun a b p => cfma a b p) q x)

end Sys2Proof.Machine
end

