-- ==== Sys2Proof/WellFormed.lean ====
section
/-! DEFINITION. Well-formed commands: every number an operand gives lies in the range the manual gives it. A command that is not
well formed does not occur (DESIGN CHOICE, log entry 3). -/

namespace Sys2Proof

/-- Ranges of the numbers that operands carry: queue pairs (R481), mailboxes (R471), vectors (R468), stack channels (R26), cores,
quarters and slices (R28, R29, R249), blocks (R252), dies (R25), streams (R319), Denop ports (R549), flash channels (R419), islands
(R604), crossings (R609), rails (R657), sensors (R623), devices (R3). -/
def okPair (q : Nat) : Bool := decide (q < 2048)
def okMailbox (m : Nat) : Bool := decide (m < 16)
def okVector (v : Nat) : Bool := decide (v < 2048)
def okChannel (c : Nat) : Bool := decide (c < 512)
def okCore (c : Nat) : Bool := decide (c < 4096)
def okQuarter (q : Nat) : Bool := decide (q < 64)
def okBlock (b : Nat) : Bool := decide (b < 64)
def okDie (d : Nat) : Bool := decide (d < 8)
/-- A grant set: up to 16 region entry numbers (R365). -/
def okGrants (l : List Nat) : Bool := decide (l.length ≤ 16) && l.all fun n => decide (n < 4096)
def okStream (n : Nat) : Bool := decide (n < 16)
def okLink (n : Nat) : Bool := decide (n < 6)
def okFlash (n : Nat) : Bool := decide (n < 16)
def okIsland (i : Nat) : Bool := decide (i < 103)
def okCrossing (c : Nat) : Bool := decide (c < 105)
def okRail (r : Nat) : Bool := decide (r < 17)
def okSensor (n : Nat) : Bool := decide (n < 28)
def okDevice (d : Nat) : Bool := decide (d < 2048)
def okIndex (i : Nat) : Bool := decide (i < 65536)
def okLevel (l : Nat) : Bool := decide (l < 4)
def okSlot (n : Nat) : Bool := decide (n < 64)
def okTag (n : Nat) : Bool := decide (n < 1024)
def okAddress (a : Nat) : Bool := decide (a < 2 ^ 48)
def okHostAddress (a : Nat) : Bool := decide (a < 2 ^ 64)
def okLine (slice line : Nat) : Bool := decide (slice < 64) && decide (line < 2 ^ 41)

/-- What a checker or a training reports lies in a channel (R294, R316). -/
def okMismatch (m : Mismatch) : Bool := decide (m.granule < 2 ^ 20) && decide (m.sector < 64)
def okTrained (l : Option Lanes) : Bool := (l.getD []).all fun x => decide (x.1 < 4)

/-- The mailbox that an admin command comes from exists. -/
def AdminSrc.ok : AdminSrc → Bool
  | .queue .. => true
  | .mailbox _ m _ => okMailbox m
  | .sideband => true

/-- The issuer of an access exists. -/
def Source.ok : Source → Bool
  | .core n => okCore n
  | .mover q => okQuarter q
  | .queueEngine _ => true
  | .scheduler d => okDie d
  | .square d => okDie d
  | .peer d => okDevice d

/-- The formats that one matrix operation may take together (R197): one code, or the two FP8 codes, or the two MXFP8 codes. -/
def formatsPair (a b : Nat) : Bool :=
  decide (1 ≤ a) && decide (a ≤ 7) && (a == b || (a == 3 && b == 4) || (a == 4 && b == 3) || (a == 5 && b == 6) || (a == 6 && b == 5))

/-- The core and the places of a unit's work exist, and the formats of a matrix operation pair (R197, R238). -/
def UnitOp.ok : UnitOp → Bool
  | .dot c fa fb k a b sa sb out =>
    okCore c && formatsPair fa fb && decide (k ≤ 16777216) && [a, b, sa, sb, out].all fun o => decide (o < 0x30000)
  | .convert c f n src dst sc =>
    okCore c && decide (1 ≤ f) && decide (f ≤ 7) && f != 2 && decide (n ≤ 0x10000) && [src, dst, sc].all fun o => decide (o < 0x30000)
  | .row c n src dst => okCore c && decide (n ≤ 0x10000) && decide (src < 0x30000) && decide (dst < 0x30000)
  | .slots c n srcs dst => okCore c && decide (n ≤ 0x10000) && srcs.all (fun o => decide (o < 0x30000)) && decide (dst < 0x30000)
  | .function c fn src dst => okCore c && decide (fn < 5) && decide (src < 0x30000) && decide (dst < 0x30000)

/-- The square exists (R143). -/
def SquareId.ok : SquareId → Bool
  | .pair n => decide (n < 2048)
  | .quarter n => okQuarter n
  | .die n => okDie n
  | .device => true

/-- A register write names a BAR offset (R457) or an aligned register of the control processor's space. -/
def RegTarget.ok : RegTarget → Bool
  | .bar0 _ off _ => decide (off < 0x40000)
  | .bar2 _ off _ => decide (off < 0x20000)
  | .block addr _ _ => decide (addr < 2 ^ 32) && addr % 4 == 0

/-- A command is well formed. -/
def Instr.wf : Instr → Bool
  | .search _ q _ _ => okPair q
  | .insert _ q _ _ => okPair q
  | .upsert _ q _ _ => okPair q
  | .delete _ q _ _ => okPair q
  | .fetch _ q _ _ => okPair q
  | .flush _ q _ _ => okPair q
  | .abort _ q _ _ => okPair q
  | .tierMove _ q _ _ => okPair q
  | .park _ q _ _ => okPair q
  | .wake _ q _ _ => okPair q
  | .identify src => src.ok
  | .getLogPage src => src.ok
  | .getFeatures src => src.ok
  | .setFeatures src => src.ok
  | .queueCreate src => src.ok
  | .queueDelete src => src.ok
  | .queueResume src => src.ok
  | .fwDownload src => src.ok
  | .fwCommit src => src.ok
  | .fwActivate src => src.ok
  | .attest src => src.ok
  | .collectionCreate src rs => src.ok && rs.all fun r => okDevice r.device
  | .collectionSet src => src.ok
  | .collectionDelete src => src.ok
  | .collectionRetrain src => src.ok
  | .collectionRebuild src => src.ok
  | .listSplit src => src.ok
  | .scheduleLoad src => src.ok
  | .scheduleUnload src => src.ok
  | .scheduleBind src => src.ok
  | .regionAlloc src => src.ok
  | .regionFree src => src.ok
  | .hbmMigrate src => src.ok
  | .hbmDiag src => src.ok
  | .diagRead src => src.ok
  | .sqTail _ q _ _ => okPair q
  | .cqHead _ q _ _ => okPair q
  | .enable _ => true
  | .queueReset _ => true
  | .quiesce _ _ => true
  | .eventStatusClear _ _ _ => true
  | .eventMaskWrite _ _ => true
  | .islandCountLoRead _ => true
  | .mailboxSubmit _ m _ => okMailbox m
  | .msixUnmask _ w => match w with
    | .vector n => okVector n
    | .function => true
  | .registerWrite w => w.target.ok
  | .streamArm q a => okQuarter q && okStream a.fill.stream
  | .streamStop q w => okQuarter q && okStream w.stream
  | .streamResume q w => okQuarter q && okStream w.stream
  | .ringTailWrite q w t => okQuarter q && okStream w.stream && decide (t < 65536)
  | .tgRunStart c w => okChannel c && (match w.src with | .testPort l => okTrained l | _ => true)
  | .tgStop w => okChannel w.ch && decide (w.written ≤ 2 ^ 26) && w.raw.all okMismatch
  | .tgRunDone c ms => okChannel c && ms.all okMismatch
  | .migrationStart c _ => okChannel c
  | .migrationAbort c _ => okChannel c
  | .peakClear c => okCrossing c
  | .sbSetOffset _ => true
  | .sbBlockWrite b => decide (b.length ≤ 32)
  | .sbBlockRead n => decide (n ≤ 32)
  | .sbSubmit _ => true
  | .sbReadStatus => true
  | .powerLimitSet _ => true
  | .powerRead => true
  | .sbDeviceReset _ => true
  | .railFaultRead => true
  | .sbBusTimeout => true
  | .startUp b => (b.training.all fun x => decide (x.1 < 2048) && okTrained x.2) && (b.checks.all fun x => okChannel x.1 && x.2.all okMismatch) && b.failedCores.all okCore && b.flashChannels.all okFlash
      && decide (b.deviceNumber < 2048)
  | .powerDown => true
  | .railFault r _ => okRail r
  | .deviceReset _ => true
  | .fundamentalReset _ => true
  | .hotReset _ => true
  | .dlDown _ => true
  | .functionLevelReset _ => true
  | .portResetEnd _ => true
  | .configRequest _ _ => true
  | .d3hotEntry _ => true
  | .d0Return _ => true
  | .busMasterEnable _ _ => true
  | .poisonedWrite _ => true
  | .unsupportedRequest _ => true
  | .completionTimeout _ _ => true
  | .hostCompletion _ _ _ => true
  | .translationCompletion _ b ts => okHostAddress b && decide (ts.length ≤ 16)
  | .invalidateRequest _ i b _ => decide (i < 32) && okHostAddress b
  | .invalidateCompletion _ i => decide (i < 32)
  | .prgResponse _ i _ => decide (i < 512)
  | .priTimeout _ i => decide (i < 512)
  | .hotPeriod _ => true
  | .commandAdmit _ => true
  | .completionPost _ _ _ => true
  | .aggTime _ q => okPair q
  | .sqFetchFailure _ q _ => okPair q
  | .commitWindowExpiry c _ => okIndex c
  | .commit c _ => okIndex c
  | .stagedAppend c _ => okIndex c
  | .ceilingRaise c => okIndex c
  | .idCeilingRaise c => okIndex c
  | .imageWrite c => okIndex c
  | .compaction c _ => okIndex c
  | .cutover c => okIndex c
  | .coarsePass d c => okDie d && okIndex c
  | .batchLaunch _ cs gs => cs.all okCore && okGrants gs
  | .batchHoldExpiry _ cs gs => cs.all okCore && okGrants gs
  | .tileScored x => okCore x.core
  | .squareRun _ sq _ => sq.ok
  | .squareEnd _ sq _ => sq.ok
  | .tileBoundExpiry _ => true
  | .runLaunch _ qs gs => qs.all okQuarter && okGrants gs
  | .runHoldExpiry _ qs gs => qs.all okQuarter && okGrants gs
  | .tileIssue _ => true
  | .tileLanded _ x => decide (x.bytes.length ≤ 65536)
  | .tokenise _ => true
  | .layer x => x.ops.all UnitOp.ok && x.fault.all fun f => okCore f.1
  | .peerReduce _ => true
  | .output _ => true
  | .deadlineMiss _ _ => true
  | .stepCycleOverrun _ c => okCore c
  | .descriptorFetch q n b => okQuarter q && okStream n && b.length % 64 == 0
  | .copy q n => okQuarter q && okStream n
  | .fill q n => okQuarter q && okStream n
  | .marker q n => okQuarter q && okStream n
  | .pieceIssue q n => okQuarter q && okStream n
  | .pieceComplete _ => true
  | .alleyWrite c n _ => okCore c && okSlot n
  | .alleyRead c n _ => okCore c && okSlot n
  | .alleyComplete c n d _ => okCore c && okSlot n && decide (d.length ≤ 256)
  | .fence c => okCore c
  | .add a => a.src.ok && okAddress a.addr
  | .fadd a => a.src.ok && okAddress a.addr && !a.wide
  | .minUnsigned a => a.src.ok && okAddress a.addr
  | .maxUnsigned a => a.src.ok && okAddress a.addr
  | .minSigned a => a.src.ok && okAddress a.addr
  | .maxSigned a => a.src.ok && okAddress a.addr
  | .or a => a.src.ok && okAddress a.addr
  | .cas a _ => a.src.ok && okAddress a.addr
  | .cacheRead src a n _ _ => src.ok && okAddress a && decide (1 ≤ n) && decide (a % 128 + n ≤ 128)
  | .cacheWrite src a b _ => src.ok && okAddress a && decide (1 ≤ b.length) && decide (a % 128 + b.length ≤ 128)
  | .granuleProbe q a _ => okQuarter q && okAddress a && a % 2048 == 0
  | .wcEntryDrain n l => okLine n l
  | .blockGrant n b _ => okQuarter n && okBlock b
  | .blockRelease n b => okQuarter n && okBlock b
  | .hbmRead a l x => okAddress a && a % 32 == 0 && okLevel l && x.arrivals.all fun y => okAddress y.1 && y.1 % 32 == 0 && okLevel y.2
  | .hbmWrite a l _ _ => okAddress a && a % 32 == 0 && okLevel l
  | .patrolScrub c g w => okChannel c && decide (g < 2 ^ 20) && w.all fun x => decide (x.1 < 64)
  | .rowRemap c b r => okChannel c && decide (b < 128) && decide (r < 16384)
  | .pageRetire p _ => decide (p < 2 ^ 28)
  | .migrationCopyDone c x => okChannel c && decide (x.upTo ≤ 2 ^ 20) && x.bad.all fun g => decide (g < x.upTo)
  | .drainMarker c u => okChannel c && okDie u
  | .migrationRepair c x => okChannel c && okTrained x.lanes && x.raw.all okMismatch
  | .channelLost c => okChannel c
  | .repairRecordWrite => true
  | .evictionSwitch c _ => okIndex c
  | .moveSwitch _ => true
  | .wakeSwitch c => okIndex c
  | .deferLimitExpiry _ => true
  | .moveDeadline _ => true
  | .t4BackingWrite t => decide (t < 2 ^ 32)
  | .revokeGraceExpiry _ => true
  | .flashRead p l t b _ => decide (p < 2 ^ 32) && okLevel l && decide (t ≤ 16) && decide (b.length ≤ 4)
  | .flashProgram t l _ => decide (t < 2 ^ 30) && decide (l < 2 ^ 32)
  | .flashErase _ _ => true
  | .pageRecovery p _ => decide (p < 2 ^ 32)
  | .flashRefresh _ => true
  | .flashPatrol _ _ b => decide (b.length ≤ 4)
  | .garbageCollection _ => true
  | .wearLevelling d => decide (d < 4)
  | .flashChannelRetrain c _ => okFlash c
  | .linkTraining n o => okLink n && o.laneNames.length == 8 && o.inverted.length == 8 && o.noisy.length == 8
  | .laneFailure n l => okLink n && decide (l < 8)
  | .retrainTimer n => okLink n
  | .linkTimeout n => okLink n
  | .flitReceive n f => okLink n && decide (f.number < 65536) && f.bytes.length == 252
  | .sendKeepalive n => okLink n
  | .peerTimeout _ => true
  | .routeSwitch d n => okDevice d && okLink n
  | .packetForward n k => okLink n && decide (k.length ≤ 2048)
  | .readReq k => okDevice k.src && decide (1 ≤ k.length) && decide (k.length ≤ 2048)
  | .writeReq k => okDevice k.src && k.length == k.payload.length && decide (1 ≤ k.length) && decide (k.length ≤ 2048)
  | .atomicReq k => okDevice k.src && decide (6 ≤ k.payload.length) && decide (k.payload.length ≤ 18)
  | .readRsp _ b => decide (b.length ≤ 2048)
  | .writeAck _ => true
  | .atomicRsp _ _ => true
  | .windowFault _ => true
  | .shardReq r => okDevice r.coordinator
  | .shardRun _ d es => okDevice d && decide (es.length ≤ 85)
  | .shardEnd _ d _ _ _ => okDevice d
  | .shardCancel d _ => okDevice d
  | .forwardCmd d _ _ _ => okDevice d
  | .forwardCpl _ d _ _ => okDevice d
  | .epochBeacon _ e => decide (e < 2 ^ 64)
  | .runCtl _ => true
  | .adminFan d _ _ i => okDevice d && okIndex i
  | .lease _ => true
  | .shardRerank d _ _ _ => okDevice d
  | .shardRerankRsp _ d _ _ _ => okDevice d
  | .ack n k => okLink n && decide (k < 65536)
  | .nak n k => okLink n && decide (k < 65536)
  | .credit n vc _ => okLink n && decide (vc < 7)
  | .keepalive n => okLink n
  | .topology ls => ls.all fun l => okDevice l.a && okDevice l.b
  | .pllLoss i => okIsland i
  | .crossingParityError c => okCrossing c
  | .dp1Entry => true
  | .dp1Exit => true
  | .dp2Entry => true
  | .dp3Entry => true
  | .dpEntryComplete => true
  | .dpExit => true
  | .thermalSample rs => rs.length == 28
  | .throttleStep n => okSensor n
  | .powerLimitStep => true
  | .telemetryPoll rs es => rs.length == 17 && es.length == 17
  | .coreSpare c _ => okCore c
  | .quarterRepair q cs _ => okQuarter q && cs.all okCore
  | .collectionRepair c => okIndex c
  | .watchdogExpiry => true
  | .pllLock i => okIsland i
  | .devrstNRelease => true
  | .pmbAlert => true
  | .testPortAccess => true
  | .provisioning m => decide (m.edKeys.length ≤ 4) && decide (m.mldsaKeys.length ≤ 4)
  | .securityBlockFault => true

end Sys2Proof
end

