-- ==== Sys2Proof/Machine/Registers.lean ====
section
/-! DEFINITION. The host's registers: BAR0 and BAR2 (R458 to R473), doorbells (R464 to R466), MSI-X (R468 to R470), and the
register writes that have a row of their own. -/

namespace Sys2Proof.Machine

open Sys2Proof

/-- The BARs of a port answer: the device has started and the port is out of reset. -/
def barUp (s : State) (p : PortId) : Bool :=
  (s.power.phase == .running || s.power.phase == .recovery || s.power.phase == .fatal) && !(s.port p).inReset && !(s.port p).heldOff

/-! ## Doorbells -/

/-- The conditions of R466: the pair is ABSENT or DELETING, the write is narrow, or the value is not below the queue's size. -/
def doorbellBad (x : QueuePair) (entries v : Nat) (narrow : Bool) : Bool :=
  narrow || x.state == .absent || x.state == .deleting || decide (entries ≤ v)

/-- A doorbell error: counted, DB_ERROR set where the queue exists, and logged with the queue and the value (R466). -/
def doorbellError (s : State) (p : PortId) (q v : Nat) : State :=
  let s := s.modPort p fun x => { x with dbErrors := satAdd 0xFFFF x.dbErrors 1, dbLast := q }
  let s := if (s.pair p q).state = .absent then s else s.modPair p q fun x => { x with dbError := true }
  portLog s p 0 q 0xFFFF none 0 0 0 { kind := 0, loc := q, detail := v }

/-- SQ_TAIL (R465): the accepted tail. -/
def sqTailEffect (s : State) (p : PortId) (q v : Nat) (narrow : Bool) : State :=
  let x := s.pair p q
  if doorbellBad x x.sqEntries v narrow then doorbellError s p q v
  else s.modPair p q fun x => { x with sqTail := v }

/-- Distance from index a forward to index b in a ring of n entries. -/
def ringDist (n a b : Nat) : Nat := (b + n - a) % n

/-- CQ_HEAD (R465, R466): it returns entries that the device has posted, and the CQ is no longer full. -/
def cqHeadEffect (s : State) (p : PortId) (q v : Nat) (narrow : Bool) : State :=
  let x := s.pair p q
  if doorbellBad x x.cqEntries v narrow || decide (ringDist x.cqEntries x.cqHead x.cqTail < ringDist x.cqEntries x.cqHead v)
  then doorbellError s p q v
  else s.modPair p q fun x => { x with cqHead := v, cqFull := x.cqFull && v == x.cqHead }

/-- SQ_TAIL, a write of queue pair q's doorbell (R464 to R466); [31:16] is reserved. -/
def execSqTail (p : PortId) (q : Nat) (v : Word) (narrow : Bool) (s : State) : Host.Outcome State Fault Refusal :=
  occurs (barUp s p && okPair q) (sqTailEffect s p q (v.toNat % 65536) narrow) s

/-- CQ_HEAD, a write of queue pair q's doorbell (R464 to R466). -/
def execCqHead (p : PortId) (q : Nat) (v : Word) (narrow : Bool) (s : State) : Host.Outcome State Fault Refusal :=
  occurs (barUp s p && okPair q) (cqHeadEffect s p q (v.toNat % 65536) narrow) s

/-! ## ENABLE and QUIESCE -/

/-- Queue pair 0 as ENABLE creates it from the admin queue registers: ACTIVE, vector 0 (R463, R468). -/
def adminPair (x : Port) : QueuePair :=
  { state := .active, sqBase := x.adminSq.toNat, cqBase := x.adminCq.toNat, sqEntries := x.asqM1 + 1, cqEntries := x.acqM1 + 1
    vector := 0, ien := true }

/-- The admin queue registers are in range (R460). -/
def adminSizesOk (x : Port) : Bool := decide (1 ≤ x.asqM1) && decide (x.asqM1 ≤ 4095) && decide (1 ≤ x.acqM1) && decide (x.acqM1 ≤ 4095)

/-- ENABLE (R463): a write of 1 while READY is 1. A port that is enabled already stays so (DEDUCED, log entry 16). -/
def enableEffect (s : State) (p : PortId) : State :=
  s.modPort p fun x =>
    let x := { x with enable := true }
    if x.enabled then x
    else if adminSizesOk x then
      { x with enabled := true, configError := false, pairs := Tab.set x.pairs 0 (adminPair x) }
    else { x with configError := true }

def execEnable (p : PortId) (s : State) : Host.Outcome State Fault Refusal :=
  occurs (barUp s p && (s.port p).ready) (enableEffect s p) s

/-- QUIESCE, a write of PORT_CTRL.QUIESCE (R460). -/
def execQuiesce (p : PortId) (v : Bool) (s : State) : Host.Outcome State Fault Refusal :=
  occurs (barUp s p) (s.modPort p fun x => { x with quiesce := v }) s

/-! ## Events -/

/-- EVENT_STATUS_CLEAR (R16, R462): bits written 1 clear, but for those that hardware sets in the same cycle; a cleared bit owes no
message. -/
def eventClearEffect (s : State) (p : PortId) (mask : BitVec 6) (arising : BitVec 6) : State :=
  let gone := mask &&& ~~~ arising
  let s := s.modPort p fun x => { x with eventStatus := x.eventStatus &&& ~~~ gone, eventOwed := x.eventOwed &&& ~~~ gone }
  (List.range 6).foldl (fun s b => if arising.getLsbD b then raiseEvent s p b else s) s

def execEventStatusClear (p : PortId) (mask : Word) (arising : BitVec 6) (s : State) : Host.Outcome State Fault Refusal :=
  occurs (barUp s p) (eventClearEffect s p (mask.setWidth 6) arising) s

/-- EVENT_MASK (R462): a bit that set while it was masked signals when its mask bit clears. -/
def eventMaskEffect (s : State) (p : PortId) (mask : BitVec 6) : State :=
  let owed := (s.port p).eventOwed &&& ~~~ mask
  let s := s.modPort p fun x => { x with eventMask := mask, eventOwed := x.eventOwed &&& mask }
  (List.range 6).foldl (fun s b => if owed.getLsbD b then signal s p (s.port p).eventVector else s) s

def execEventMaskWrite (p : PortId) (mask : Word) (s : State) : Host.Outcome State Fault Refusal :=
  occurs (barUp s p) (eventMaskEffect s p (mask.setWidth 6)) s

/-- A read of ISLAND_COUNT_LO: it answers bits [31:0] and latches bits [63:32] (R461). -/
def islandReadEffect (s : State) (p : PortId) : State :=
  let n := islandCount s (hostIsland p)
  answer (s.modPort p fun x => { x with countHi := BitVec.ofNat 32 (n / 2 ^ 32) }) p (.regRead (BitVec.ofNat 32 n))

def execIslandCountLoRead (p : PortId) (s : State) : Host.Outcome State Fault Refusal :=
  occurs (barUp s p) (islandReadEffect s p) s

/-! ## Mailboxes -/

/-- SUBMIT (R472): refused while the firmware owns the mailbox or the length is out of range, and then nothing else changes. -/
def submitEffect (s : State) (p : PortId) (m : Nat) (ctrl : Word) : State :=
  s.modMailbox p m fun x =>
    if x.firmware || x.reqLen == 0 || decide (4096 < x.reqLen) then { x with refused := true }
    else { x with firmware := true, started := false, vector := bitsOf ctrl.toNat 26 16, intrEn := ctrl.getLsbD 1 }

def execMailboxSubmit (p : PortId) (m : Nat) (ctrl : Word) (s : State) : Host.Outcome State Fault Refusal :=
  occurs (barUp s p && okMailbox m && ctrl.getLsbD 0) (submitEffect s p m ctrl) s

/-! ## MSI-X -/

/-- Sends the messages that are pending and no longer masked (R470). -/
def sendPending (s : State) (p : PortId) (vs : List Nat) : State :=
  vs.foldl (fun s v =>
    let m := msixEntry s p v
    if m.pending && !m.masked && !(s.port p).functionMask && (s.port p).msixEnable then
      emit (s.modPort p fun x => { x with msix := Tab.modify x.msix v {} fun m => { m with pending := false } }) p (.msix v)
    else s) s

/-- MSIX_UNMASK (R470): one vector, or the Function Mask. -/
def unmaskEffect (s : State) (p : PortId) : Unmask → State
  | .vector v => sendPending (s.modPort p fun x => { x with msix := Tab.modify x.msix v {} fun m => { m with masked := false } }) p [v]
  | .function => let s := s.modPort p fun x => { x with functionMask := false }
    sendPending s p (Tab.keys (s.port p).msix)

def okUnmask : Unmask → Bool
  | .vector v => okVector v
  | .function => true

def execMsixUnmask (p : PortId) (what : Unmask) (s : State) : Host.Outcome State Fault Refusal :=
  occurs (barUp s p && okUnmask what) (unmaskEffect s p what) s

/-- AGG_TIME (R469): the oldest unsignalled entry has waited, and the CQ's message goes. -/
def execAggTime (p : PortId) (q : Nat) (s : State) : Host.Outcome State Fault Refusal :=
  occurs (live s && okPair q && decide (0 < (s.pair p q).unsignalled))
    (signal (s.modPair p q fun x => { x with unsignalled := 0 }) p (s.pair p q).vector) s

/-! ## Reads of the map (R460, R464, R467) -/

def frozenWord (s : State) (p : PortId) (n : Nat) : Nat :=
  leNat ((List.range 4).map fun k => BitVec.ofNat 8 (((List.range 8).filter fun b =>
    (s.pair p (32 * n + 8 * k + b)).state == .frozen).foldl (fun a b => a + 2 ^ b) 0))

/-- QUIESCED (R460): QUIESCE is 1 and no fetched command of the port is outstanding. -/
def quiesced (s : State) (p : PortId) : Bool :=
  (s.port p).quiesce && (s.port p).pairs.all fun (_, x) => x.outstanding == 0

/-- A dword of the MSI-X table, or of the PBA, as the base specification lays them out (R452, R457; PRESUMED, log entry 13). -/
def msixRead (s : State) (p : PortId) (off : Nat) : Nat :=
  let m := msixEntry s p (off / 16)
  match off % 16 with
  | 0x0 => m.addr.toNat % 2 ^ 32
  | 0x4 => m.addr.toNat / 2 ^ 32
  | 0x8 => m.data.toNat
  | _ => b2n m.masked
def pbaRead (s : State) (p : PortId) (off : Nat) : Nat :=
  (List.range 32).foldl (fun a b => a + b2n (msixEntry s p (off / 4 * 32 + b)).pending * 2 ^ b) 0

/-- What a read of an aligned 32-bit register of BAR0 returns (R457, R460, R464, R467); reserved offsets and write-only doorbells read
zero. -/
def bar0Read (s : State) (p : PortId) (off : Nat) : Nat :=
  let x := s.port p
  if off = 0x000 then 0x01000000 + (if s.net.joined then s.net.deviceNumber * 8 else 0) + portNum p
  else if off = 0x004 then 0x7FF * 65536 + 0xFFFF
  else if off = 0x008 then b2n x.quiesce * 2 + b2n x.enable
  else if off = 0x00C then
    dpCode s.power.dp * 256 + b2n (s.power.phase == .fatal) * 64 + b2n (s.port (otherPort p)).enabled * 32
      + b2n s.security.activating.isSome * 16 + b2n x.configError * 8 + b2n (quiesced s p) * 4 + b2n x.enabled * 2 + b2n x.ready
  else if off = 0x010 then x.adminSq.toNat % 2 ^ 32
  else if off = 0x014 then x.adminSq.toNat / 2 ^ 32
  else if off = 0x018 then x.adminCq.toNat % 2 ^ 32
  else if off = 0x01C then x.adminCq.toNat / 2 ^ 32
  else if off = 0x020 then x.acqM1 * 65536 + x.asqM1
  else if off = 0x024 then x.eventStatus.toNat
  else if off = 0x028 then x.eventMask.toNat
  else if off = 0x02C then x.eventVector
  else if off = 0x030 then islandCount s (hostIsland p) % 2 ^ 32
  else if off = 0x034 then x.countHi.toNat
  else if off = 0x038 then 1000000
  else if off = 0x040 then x.busyRetry
  else if off = 0x044 then x.dbLast * 65536 + x.dbErrors
  else if 0x100 ≤ off ∧ off ≤ 0x1FC then frozenWord s p ((off - 0x100) / 4)
  else if 0x10000 ≤ off ∧ off < 0x20000 then
    let q := s.pair p ((off - 0x10000) / 32)
    match off % 32 with
    | 0x00 => q.sqHead * 65536 + q.sqTail
    | 0x04 => q.cqTail * 65536 + q.cqHead
    | 0x08 => q.outstanding * 65536 + b2n q.cqFull * 32 + b2n q.dbError * 16 + qstateCode q.state
    | 0x0C => q.freezeStatus.toNat * 65536 + q.freezeTag.toNat
    | 0x10 => q.completed.toNat
    | _ => 0
  else if 0x20000 ≤ off ∧ off < 0x28000 then msixRead s p (off - 0x20000)
  else if 0x28000 ≤ off ∧ off < 0x28100 then pbaRead s p (off - 0x28000)
  else 0

/-- Whether a size is a power of two up to 64 that the offset is a multiple of. -/
def bufAccessOk (off n : Nat) : Bool := [1, 2, 4, 8, 16, 32, 64].contains n && aligned off n

/-- What a read of an aligned 32-bit register of a mailbox's control block returns (R471). -/
def mbCtrlRead (x : Mailbox) (off : Nat) : Nat :=
  match off with
  | 0x00 => x.vector * 65536 + b2n x.intrEn * 2
  | 0x04 => x.seq.toNat * 65536 + b2n x.refused * 8 + b2n x.done * 4 + b2n x.firmware
  | 0x08 => x.reqLen
  | 0x0C => x.rspLen
  | _ => 0

/-- What a read of BAR2 returns: a data buffer, which reads zero while the firmware owns it (R472), or the control blocks; an access of
another size or alignment reads zero (R458). -/
def bar2Read (s : State) (p : PortId) (off n : Nat) : List Byte :=
  if off < 0x10000 then
    let x := s.mailbox p (off / 0x1000)
    if x.firmware || !bufAccessOk off n then List.replicate n 0 else Mem.readN x.buf (off % 0x1000) n
  else if off < 0x10400 then
    let x := s.mailbox p ((off - 0x10000) / 0x40)
    if n = 4 ∧ off % 4 = 0 then leBytes 4 (mbCtrlRead x (off % 0x40))
    else if n = 8 ∧ off % 8 = 0 then leBytes 4 (mbCtrlRead x (off % 0x40)) ++ leBytes 4 (mbCtrlRead x (off % 0x40 + 4))
    else List.replicate n 0
  else List.replicate n 0

/-! ## Register writes without a row of their own (R15, R458) -/

/-- An RW1C bit after a write of w, whose bit i clears it, in a cycle in which the hardware sets the bits of `arising` (R15, R16). -/
def rw1c (x : Bool) (w arising i : Nat) : Bool := (x && !bitOf w i) || bitOf arising i

/-- Bits hi to lo of a 64-bit register replaced from a 32-bit write of its low or high word. -/
def putLow (v : BitVec 64) (w : Nat) : BitVec 64 := BitVec.ofNat 64 (v.toNat / 2 ^ 32 * 2 ^ 32 + w)
def putHigh (v : BitVec 64) (w : Nat) : BitVec 64 := BitVec.ofNat 64 (w * 2 ^ 32 + v.toNat % 2 ^ 32)

/-- One aligned 32-bit write of BAR0. PORT_CTRL's ENABLE with its QUIESCE and its queue reset, EVENT_STATUS, EVENT_MASK, the doorbells and a clear of
a vector's mask bit have rows of their own; read-only registers and reserved offsets ignore it. The hardware sets the RW1C bits of `arising` in the same cycle. -/
def bar0Write (s : State) (p : PortId) (off w arising : Nat) : State :=
  s.modPort p fun x =>
    if off = 0x008 then (if x.enabled || bitOf w 0 then x else { x with enable := false, quiesce := bitOf w 1 })
    else if off = 0x010 then (if x.enabled then x else { x with adminSq := putLow x.adminSq (w / 4096 * 4096) })
    else if off = 0x014 then (if x.enabled then x else { x with adminSq := putHigh x.adminSq w })
    else if off = 0x018 then (if x.enabled then x else { x with adminCq := putLow x.adminCq (w / 4096 * 4096) })
    else if off = 0x01C then (if x.enabled then x else { x with adminCq := putHigh x.adminCq w })
    else if off = 0x020 then (if x.enabled then x else { x with asqM1 := bitsOf w 11 0, acqM1 := bitsOf w 27 16 })
    else if off = 0x02C then { x with eventVector := bitsOf w 10 0 }
    else if 0x10000 ≤ off ∧ off < 0x20000 ∧ off % 32 = 8 then
      { x with pairs := Tab.adjust x.pairs ((off - 0x10000) / 32) fun q => { q with dbError := rw1c q.dbError w arising 4 } }
    else if 0x20000 ≤ off ∧ off < 0x28000 then
      { x with msix := Tab.modify x.msix ((off - 0x20000) / 16) {} fun m =>
          match off % 16 with
          | 0x0 => { m with addr := putLow m.addr w }
          | 0x4 => { m with addr := putHigh m.addr w }
          | 0x8 => { m with data := BitVec.ofNat 32 w }
          | _ => if bitOf w 0 then { m with masked := true } else m }
    else x

/-- One aligned 32-bit write of a mailbox's control block (R471); a write of SUBMIT has a row of its own. -/
def mbCtrlWrite (s : State) (p : PortId) (m off w arising : Nat) : State :=
  s.modMailbox p m fun x =>
    match off with
    | 0x00 => if bitOf w 0 then x else { x with vector := bitsOf w 26 16, intrEn := bitOf w 1 }
    | 0x04 => { x with refused := rw1c x.refused w arising 3, done := rw1c x.done w arising 2 }
    | 0x08 => { x with reqLen := bitsOf w 12 0 }
    | _ => x

/-- An aligned access of 1 to 64 bytes to a mailbox's data buffer; discarded while the firmware owns it (R458, R472). -/
def mbBufWrite (s : State) (p : PortId) (m off : Nat) (bytes : List Byte) : State :=
  s.modMailbox p m fun x => if x.firmware then x else { x with buf := Mem.writeN x.buf off bytes }

/-- A BAR0 write: 32 bits, or 64 as two, lower address first; any other size or alignment is ignored (R458). -/
def bar0Effect (s : State) (p : PortId) (off : Nat) (bytes : List Byte) (arising : Nat) : State :=
  if bytes.length = 4 ∧ off % 4 = 0 then bar0Write s p off (leNat bytes) (arising % 2 ^ 32)
  else if bytes.length = 8 ∧ off % 8 = 0 then
    bar0Write (bar0Write s p off (field bytes 0 4) (arising % 2 ^ 32)) p (off + 4) (field bytes 4 4) (arising / 2 ^ 32)
  else s

/-- A BAR2 write (R458, R471). -/
def bar2Effect (s : State) (p : PortId) (off : Nat) (bytes : List Byte) (arising : Nat) : State :=
  if off < 0x10000 then (if bufAccessOk off bytes.length then mbBufWrite s p (off / 0x1000) (off % 0x1000) bytes else s)
  else if off < 0x10400 then
    let m := (off - 0x10000) / 0x40
    if bytes.length = 4 ∧ off % 4 = 0 then mbCtrlWrite s p m (off % 0x40) (leNat bytes) (arising % 2 ^ 32)
    else if bytes.length = 8 ∧ off % 8 = 0 then
      mbCtrlWrite (mbCtrlWrite s p m (off % 0x40) (field bytes 0 4) (arising % 2 ^ 32)) p m (off % 0x40 + 4) (field bytes 4 4) (arising / 2 ^ 32)
    else s
  else s

/-- A write of a channel's register block (R316): TG_CTRL's modes, seed, range, passes and pattern, MIG_CTRL's fields, and the
RW1C bits. What START, STOP and ABORT do is in rows of their own. -/
def chanWrite (s : State) (c off : Nat) (v : Word) (arising : Nat) : State :=
  let w := v.toNat
  s.modChan c fun x =>
    match off with
    | 0x004 => { x with migTarget := bitsOf w 24 16, share := bitsOf w 14 8 }
    | 0x008 => { x with migDone := rw1c x.migDone w arising 25, migAborted := rw1c x.migAborted w arising 24 }
    | 0x010 => { x with dataMode := bitsOf w 23 20, addrMode := bitsOf w 19 18, opMode := bitsOf w 17 16, testRate := bitsOf w 15 14 }
    | 0x014 => { x with trainFail := rw1c x.trainFail w arising 4, refused := rw1c x.refused w arising 3
                        fail := rw1c x.fail w arising 2, done := rw1c x.done w arising 1 }
    | 0x018 => { x with seed := v }
    | 0x01C => { x with start := bitsOf w 19 0 }
    | 0x020 => { x with length := bitsOf w 20 0 }
    | 0x024 => { x with passes := bitsOf w 15 0 }
    | 0x028 => { x with userLo := v }
    | 0x02C => { x with userHi := v }
    | _ => x

/-- A write of a stream's registers (R333); ARM, STOP, RESUME and RING_TAIL have rows of their own. -/
def streamWrite (s : State) (q n off : Nat) (v : Word) (arising : Nat) : State :=
  let w := v.toNat
  s.modStream q n fun x =>
    match off with
    | 0x00 => { x with base := x.base / 2 ^ 32 * 2 ^ 32 + w / 1024 * 1024 }
    | 0x04 => { x with base := w % 65536 * 2 ^ 32 + x.base % 2 ^ 32 }
    | 0x08 => { x with
        region := bitsOf w 29 18
        owner := match bitsOf w 17 16 with | 0 => .firmware | 1 => .queueEngine | 2 => .scheduler | _ => .square
        prio := bitsOf w 11 10, hostPort := if bitOf w 9 then .p1 else .p0, hostRing := bitOf w 8
        sizeLog2 := if bitsOf w 3 0 = 0 then 16 else bitsOf w 3 0 }
    | 0x18 => { x with error := rw1c x.error w arising 5, done := rw1c x.done w arising 4 }
    | _ => x

/-- Whether the control processor is held in reset, so that the test port reaches the registers (R315, R317): from the rise of PWROK or a
device reset until start-up releases it (R592, R664, R665, R669). -/
def controlHeldInReset (s : State) : Bool :=
  [Phase.strapHold, .waitDevrst, .waitPll].contains s.power.phase || (s.power.phase == .powerOff && s.power.pwrok)

/-- Who may write the control processor's space now: the firmware while it runs, the test port while the control processor is
held in reset; host writes are refused (R315, R333, R394, R610). -/
def writerMay (s : State) : Writer → Bool
  | .firmware => fwServes s || s.power.phase == .recovery
  | .host => false
  | .testPort => controlHeldInReset s

/-- A 32-bit write in the control processor's register space. -/
def blockWrite (s : State) (addr : Nat) (v : Word) (arising : Nat) : State :=
  if 0x01000000 ≤ addr ∧ addr < 0x01080000 then chanWrite s ((addr - 0x01000000) / 0x400) (addr % 0x400) v arising
  else if 0x02000000 ≤ addr ∧ addr < 0x02040000 ∧ addr % 0x1000 < 0x800 then
    streamWrite s ((addr - 0x02000000) / 0x1000) (addr % 0x1000 / 0x80) (addr % 0x80) v arising
  else s

/-- REGISTER_WRITE: a register write that has no row of its own (R15, R458). `arising` are the RW1C bits of the register written that the hardware
sets in the same cycle (R16). -/
def registerWriteEffect (s : State) (arising : Nat) : RegTarget → State
  | .bar0 p off bytes => if barUp s p then bar0Effect s p off bytes arising else s
  | .bar2 p off bytes => if barUp s p then bar2Effect s p off bytes arising else s
  | .block addr v w => if writerMay s w then blockWrite s addr v arising else s

def execRegisterWrite (w : RegWrite) (s : State) : Host.Outcome State Fault Refusal :=
  occurs w.target.ok (registerWriteEffect s w.arising.toNat w.target) s

end Sys2Proof.Machine
end

