-- ==== Sys2Proof/Machine/Ports.lean ====
section
/-! DEFINITION. Events of a PCIe port: port resets and their end (R476 to R479, R392), configuration requests (R451 to R456),
D3hot and bus mastering (R480), and the errors of R455. -/

namespace Sys2Proof.Machine

open Sys2Proof

/-! ## Port resets -/

/-- Fetched commands that came by port p. -/
def portCmds (s : State) (p : PortId) : List (Nat × Cmd) := s.cmds.filter fun (_, c) => originPort c.origin == some p

/-- QUEUE_CREATE, QUEUE_DELETE and QUEUE_RESUME end without effect (R477). -/
def queueAdmin (op : Nat) : Bool := op == 0x84 || op == 0x85 || op == 0x86

/-- A command of the port: one of its SQs that is not admitted is discarded without effect; an admitted one, and one of a mailbox, runs
on with its completion discarded; one whose completion is decided is gone (R477). -/
def resetCmd (s : State) (n : Nat) (c : Cmd) : State :=
  let mailbox := match c.origin with | .mailbox .. => true | _ => false
  if (c.stage = .admitted ∨ mailbox = true ∧ c.stage ≠ Stage.decided) ∧ ¬ queueAdmin (eOpcode c.entry) then s.modCmd n fun c => { c with detached := true, heldDp := false }
  else
    let s := releaseStaging (dropRuns (leaveBatches s n) n) n c
    let s := if c.stage = .decided then releasePins s c else s
    let s := match c.origin with
      | .mailbox q m => if c.stage = Stage.decided then s.modMailbox q m fun _ => {} else s
      | _ => s
    { s with cmds := Tab.erase s.cmds n }

/-- The region entries of port p are freed: at once where nothing that passed them is in flight, else after the drain (R366,
R392). -/
def freePortRegions (s : State) (p : PortId) : State :=
  let mine : Table Region := s.protect.regions.filter fun (n, r) => decide (1024 ≤ n) && r.owner == portNum p + 1
  mine.foldl (fun s (n, r) => freeRegion s n r) s

/-- A piece that gave its tags up when it faulted holds them again, for the moment it fails or faults anew (R344). -/
def replayTags (s : State) (x : Piece) : State :=
  (s.modEngine x.quarter fun e => { e with tags := e.tags + 1 }).modStream x.quarter x.stream fun y => { y with tags := y.tags + 1 }

/-- Pieces to the port's host memory end with HOST_ABORT (R348, R392). -/
def abortHostPieces (s : State) (p : PortId) : State :=
  let hit (x : Piece) := (x.spec.srcSpace == 1 || x.spec.dstSpace == 1) && (s.stream x.quarter x.stream).hostPort == p
  let s := (s.pieces.filter fun (_, x) => hit x && x.state == .faulted).foldl (fun s (_, x) => replayTags s x) s
  let hitA (x : Alley) := x.space == 1 && x.port == p
  { s with
    pieces := Tab.map s.pieces fun x => if hit x then { x with err := some 6, data := none, portTags := 0, state := .issued } else x
    alleys := Tab.map s.alleys fun x => if hitA x then { x with err := some 6, tags := 0 } else x }

/-- The translation state of a port after its reset: host entries, requests, page requests and counters are gone (R392). A queue
reset leaves the configuration, and with it ATS and PRI, as it is (R476; DEDUCED, log entry 15). -/
def resetXlt (x : Xlt) (queueOnly : Bool) : Xlt :=
  { x with
    dtc := [], reqs := [], asks := [], pages := [], starved := [], invs := [], counters := []
    atsOn := x.atsOn && queueOnly, priOn := x.priOn && queueOnly, priStopped := x.priStopped && queueOnly
    allocation := if queueOnly then x.allocation else 0 }

/-- A mailbox after a reset of its port: one that the firmware owns is served first, with its response discarded, unless its request
administers queues; every other one is back at its reset values (R477) (DEDUCED, log entry 118). -/
def resetMailbox (x : Mailbox) : Option Mailbox :=
  if x.firmware && !queueAdmin (leNat (Mem.readN x.buf 0 1)) then
    some { firmware := true, started := x.started, discard := true, reqLen := x.reqLen, buf := x.buf }
  else none

/-- The port's own registers and queues after a reset (R459, R477); a queue reset leaves the link, the configuration space and the
MSI-X table (R476). -/
def resetPort (x : Port) (queueOnly : Bool) : Port :=
  let base : Port :=
    { xlt := resetXlt x.xlt queueOnly, inReset := true, heldOff := x.heldOff, sent := x.sent, aer := x.aer
      mailboxes := x.mailboxes.filterMap fun (m, y) => (resetMailbox y).map fun z => (m, z)
      priTimeout := x.priTimeout, hotThreshold := x.hotThreshold, hotPeriod := x.hotPeriod, hotPeriodNext := x.hotPeriodNext }
  if queueOnly then
    { base with
      configReady := x.configReady, msix := x.msix, msixEnable := x.msixEnable, functionMask := x.functionMask
      busMaster := x.busMaster, d3hot := x.d3hot, maxPayload := x.maxPayload, maxRead := x.maxRead }
  else base

/-- A port reset of p (R477, R392, R418) (DEDUCED, log entry 119). -/
def portReset (s : State) (p : PortId) (queueOnly : Bool) : State :=
  let s := (portCmds s p).foldl (fun s (n, c) => resetCmd s n c) s
  let s := abortHostPieces s p
  let s := freePortRegions s p
  s.modPort p fun x => resetPort x queueOnly

/-- The port has power and is not held in reset. -/
def portPowered (s : State) (p : PortId) : Bool := s.power.phase != .powerOff && !(s.port p).heldOff

/-- FUNDAMENTAL_RESET (PERST#), HOT_RESET, DL_DOWN and FUNCTION_LEVEL_RESET: port resets that reset the link, the configuration
space and the MSI-X table as well (R476). -/
def execFundamentalReset (p : PortId) (s : State) : Host.Outcome State Fault Refusal :=
  occurs (portPowered s p) (portReset s p false) s
def execHotReset (p : PortId) (s : State) : Host.Outcome State Fault Refusal :=
  occurs (portPowered s p) (portReset s p false) s
def execDlDown (p : PortId) (s : State) : Host.Outcome State Fault Refusal :=
  occurs (portPowered s p) (portReset s p false) s
def execFunctionLevelReset (p : PortId) (s : State) : Host.Outcome State Fault Refusal :=
  occurs (portPowered s p) (portReset s p false) s

/-- QUEUE_RESET: a write of 0 to ENABLE while ENABLED is 1 (R463, R476). -/
def execQueueReset (p : PortId) (s : State) : Host.Outcome State Fault Refusal :=
  occurs (barUp s p && (s.port p).enabled) (portReset s p true) s

/-- PORT_RESET_END: READY returns when start-up is complete, and the other port sees OTHER_PORT_RESET (R478, R479). -/
def portResetEndEffect (s : State) (p : PortId) : State :=
  let s := s.modPort p fun x => { x with inReset := false, configReady := true, ready := live s }
  if (s.port (otherPort p)).inReset || (s.port (otherPort p)).heldOff then s else raiseEvent s (otherPort p) evOtherPortReset

def execPortResetEnd (p : PortId) (s : State) : Host.Outcome State Fault Refusal :=
  occurs ((s.port p).inReset && (s.island (hostIsland p)).state == .run) (portResetEndEffect s p) s

/-! ## Configuration space (R451 to R456) -/

/-- A dword of configuration space: the identifiers of R451, BAR4 and BAR5 as zero (R457), no interrupt pin; the rest is the base
specification's and the implementation's. -/
def cfgDword (n : Nat) : Word :=
  if n = 0 then BitVec.ofNat 32 (0x1640 * 65536 + Config.vendorId.toNat)
  else if n = 2 then BitVec.ofNat 32 (0x120000 * 256 + Config.stepping.toNat)
  else if n = 3 then Config.cfgDword n &&& 0xFF00FFFF#32
  else if n = 8 ∨ n = 9 then 0
  else if n = 15 then Config.cfgDword n &&& 0xFFFF00FF#32
  else Config.cfgDword n

/-- A configuration request: retried until the space is ready (R456), else a read or a write of a control field. Leaving ATS
drops the port's entries (R367); PRI switched on again clears PRI Stopped (R375). -/
def configEffect (s : State) (p : PortId) (r : CfgReq) : State :=
  if !(s.port p).configReady then answer s p .cfgRetry
  else match r with
    | .read n => answer s p (.cfgRead (some (cfgDword n)))
    | .ats on => s.modXlt p fun x => { x with atsOn := on, dtc := if on then x.dtc else [] }
    | .pri on a => s.modXlt p fun x => { x with priOn := on, priStopped := x.priStopped && !(on && !x.priOn), allocation := a }
    | .msixEnable on =>
      let s := s.modPort p fun x => { x with msixEnable := on }
      if on then sendPending s p (Tab.keys (s.port p).msix) else s
    | .functionMask on =>
      let s := s.modPort p fun x => { x with functionMask := on }
      if on then s else sendPending s p (Tab.keys (s.port p).msix)
    | .maxPayload n => s.modPort p fun x => { x with maxPayload := n }
    | .maxReadRequest n => s.modPort p fun x => { x with maxRead := n }

/-- Sizes that the control fields can hold: Max Payload Size Supported is 512 (R452). -/
def cfgReqOk : CfgReq → Bool
  | .read n => decide (n < 1024)
  | .ats _ => true
  | .pri _ a => decide (a ≤ 512)
  | .msixEnable _ => true
  | .functionMask _ => true
  | .maxPayload n => [128, 256, 512].contains n
  | .maxReadRequest n => [128, 256, 512, 1024, 2048, 4096].contains n

def execConfigRequest (p : PortId) (r : CfgReq) (s : State) : Host.Outcome State Fault Refusal :=
  occurs (portPowered s p && cfgReqOk r) (configEffect s p r) s

/-! ## D3hot and bus mastering (R480) -/

/-- The waiting requests issue, in order, once the port is in D0 with bus mastering. -/
def releaseWaiting (s : State) (p : PortId) : State :=
  s.modPort p fun x => if x.d3hot || !x.busMaster then x else { x with sent := x.sent ++ x.waiting, waiting := [] }

def execD3hotEntry (p : PortId) (s : State) : Host.Outcome State Fault Refusal :=
  occurs (portPowered s p && !(s.port p).inReset) (s.modPort p fun x => { x with d3hot := true }) s

def execD0Return (p : PortId) (s : State) : Host.Outcome State Fault Refusal :=
  occurs ((s.port p).d3hot) (releaseWaiting (s.modPort p fun x => { x with d3hot := false }) p) s

def execBusMasterEnable (p : PortId) (on : Bool) (s : State) : Host.Outcome State Fault Refusal :=
  occurs (portPowered s p && !(s.port p).inReset) (releaseWaiting (s.modPort p fun x => { x with busMaster := on }) p) s

/-! ## Link errors (R455) -/

/-- A poisoned write to a BAR is discarded and reported. -/
def execPoisonedWrite (p : PortId) (s : State) : Host.Outcome State Fault Refusal :=
  occurs (portPowered s p) (s.modPort p fun x => { x with aer := x.aer ++ [.poisonedTlp] }) s

/-- A BAR access outside a decoded BAR is an Unsupported Request. -/
def execUnsupportedRequest (p : PortId) (s : State) : Host.Outcome State Fault Refusal :=
  occurs (portPowered s p) (answer s p .unsupported) s

end Sys2Proof.Machine
end

