-- ==== Sys2Proof/Machine/Translate.lean ====
section
/-! DEFINITION. Host translation through ATS and PRI (R367 to R383), access counters and the hot-page log (R390, R391), and the
windows of peer memory (R384 to R388). -/

namespace Sys2Proof.Machine

open Sys2Proof

/-! ## Lookups -/

/-- What a lookup of the DTC finds (R367, R370, R373). -/
inductive Lookup where
  | pass | miss | noRight
  deriving DecidableEq, Repr

/-- An entry covers an address. -/
def covers (e : DtcEntry) (a : Nat) : Bool := a / 2 ^ e.sizeLog2 == e.base / 2 ^ e.sizeLog2

/-- The entry that covers an address, the larger sizes tried with the smaller in one lookup (R372). -/
def dtcFind (x : Xlt) (a : Nat) : Option DtcEntry := x.dtc.find? fun e => covers e a

/-- The lookup of a host access of port p: with ATS off every access is sent untranslated (R367). -/
def xltLookup (s : State) (p : PortId) (a : Nat) (write : Bool) : Lookup :=
  let x := (s.port p).xlt
  if !x.atsOn then .pass
  else match dtcFind x a with
    | none => .miss
    | some e => if cond write e.write e.read then .pass else .noRight

/-- The lookups of the host pages that n bytes from an address touch: the first that is not a hit, and where; else the address. -/
def xltRange (s : State) (p : PortId) (a n : Nat) (write : Bool) : Nat × Lookup :=
  let pages := (List.range ((a + n - 1) / 4096 + 1 - a / 4096)).map fun i => max a ((a / 4096 + i) * 4096)
  match pages.find? fun x => xltLookup s p x write != .pass with
  | some x => (x, xltLookup s p x write)
  | none => (a, .pass)

/-- DTC_HITS and DTC_MISSES (R394). -/
def countLookup (s : State) (p : PortId) (r : Lookup) : State :=
  if !(s.port p).xlt.atsOn then s
  else s.modXlt p fun x => if r = .miss then { x with misses := x.misses + 1 } else { x with hits := x.hits + 1 }

/-- The 64 KiB block of an address. -/
def blk (a : Nat) : Nat := a / 65536

/-- A miss asks for its block, or waits on a request for it that is outstanding; while 64 are outstanding it waits to ask (R371). -/
def askTranslation (s : State) (p : PortId) (a n : Nat) : State :=
  let x := (s.port p).xlt
  if x.reqs.any fun r => r.block == blk a && !r.stale then
    let join (r : TransReq) : TransReq :=
      if r.block == blk a && !r.stale then { r with waiters := r.waiters ++ [n] } else r
    s.modXlt p fun x => { x with reqs := x.reqs.map join }
  else if 64 ≤ x.reqs.length then s.modXlt p fun x => { x with asks := x.asks ++ [(a, n)] }
  else
    emit (s.modXlt p fun x => { x with reqs := x.reqs ++ [{ block := blk a, stale := false, waiters := [n] }] }) p (.transReq (blk a))

/-- Whoever waited to ask for a block asks (R371). -/
def askNext (s : State) (p : PortId) : State :=
  (s.port p).xlt.asks.foldl (fun s (a, n) => askTranslation s p a n) (s.modXlt p fun x => { x with asks := [] })

/-- The least free PRG index. -/
def freePrg (x : Xlt) : Option Nat := Tab.firstFree x.pages 0 512

/-! ## Faults (R373 to R378) -/

/-- The number under which the host accesses of command n are named, those of alley transfer k (core * 64 + slot), and the entry fetches of pair q of
a port; pieces come below them (DESIGN CHOICE, log entry 19). -/
def commandNum (n : Nat) : Nat := 2 ^ 32 + n
def alleyNum (k : Nat) : Nat := 2 ^ 33 + k
def fetchNum (q : Nat) : Nat := 2 ^ 34 + q

/-- Whose host access a number names. -/
inductive Asker where
  | piece (n : Nat)
  | command (n : Nat)
  | alley (k : Nat)
  | fetch (q : Nat)
  deriving DecidableEq, Repr

def askerOf (n : Nat) : Asker :=
  if n < 2 ^ 32 then .piece n else if n < 2 ^ 33 then .command (n - 2 ^ 32) else if n < 2 ^ 34 then .alley (n - 2 ^ 33) else .fetch (n - 2 ^ 34)

/-- A piece fails with an error code: its data is dropped, its port tags return, and PIECE_COMPLETE ends it (R345). An alley transfer
fails in the same way, and ALLEY_COMPLETE ends it (R352). -/
def pieceErr (s : State) (n code : Nat) : State :=
  if 2 ^ 33 ≤ n then { s with alleys := Tab.adjust s.alleys (n - 2 ^ 33) fun x => { x with err := some code } }
  else match Tab.get? s.pieces n with
    | none => s
    | some x =>
      let s := s.modPort (s.stream x.quarter x.stream).hostPort fun p => { p with tags := p.tags - x.portTags }
      { s with pieces := Tab.set s.pieces n { x with err := some code, data := none, portTags := 0, state := .issued } }

/-- A fault on a page joins its open page request, opens one, or waits for the allocation (R374). -/
def joinPage (s : State) (p : PortId) (n a : Nat) (write : Bool) : State :=
  let xl := (s.port p).xlt
  match xl.pages.find? fun (_, g) => g.page == a / 4096 && !g.expired with
  | some (i, _) => s.modXlt p fun y => { y with
      pages := Tab.adjust y.pages i fun g => { g with waiters := g.waiters ++ [n], write := g.write || write }
      prMerged := y.prMerged + 1 }
  | none =>
    match freePrg xl with
    | some i =>
      if xl.pages.length < xl.allocation then
        emit (s.modXlt p fun y => { y with
          pages := Tab.set y.pages i { page := a / 4096, waiters := [n], write := write, expired := false }
          prSent := y.prSent + 1 }) p (.pageReq i (a / 4096) write)
      else s.modXlt p fun y => { y with starved := y.starved ++ [n] }
    | none => s.modXlt p fun y => { y with starved := y.starved ++ [n] }

/-- An alley transfer to the host faults (R373 to R378). -/
def alleyFault (s : State) (p : PortId) (k a : Nat) (write : Bool) : State :=
  match Tab.get? s.alleys k with
  | none => s
  | some x =>
    let xl := (s.port p).xlt
    if !xl.priOn || xl.priStopped || decide (4 ≤ x.replays) then pieceErr s (alleyNum k) 3
    else joinPage { s with alleys := Tab.set s.alleys k { x with replays := x.replays + 1 } } p (alleyNum k) a write

/-- A stream that waits for the replay of a faulted piece (R344). -/
def enterFaultWait (s : State) (q n : Nat) : State :=
  s.modStream q n fun x => if x.state = .armed then { x with state := .faultWait } else x

/-- A piece of port p faults on its page: it releases its tags, its stream enters FAULT_WAIT, and it joins or opens a page request
(R344, R373, R374). With PRI off, stopped, or after four faulting replays in a row it fails with HOST_FAULT (R375, R376, R378). -/
def pieceFault (s : State) (p : PortId) (n a : Nat) (write : Bool) : State :=
  match Tab.get? s.pieces n with
  | none => s
  | some x =>
    let xl := (s.port p).xlt
    if !xl.priOn || xl.priStopped || decide (4 ≤ x.replays) then pieceErr s n 3
    else
      let s := { s with pieces := Tab.adjust s.pieces n fun y =>
        { y with state := .faulted, portTags := 0, replays := y.replays + 1 } }
      let s := s.modEngine x.quarter fun e => { e with tags := e.tags - 1 }
      let s := s.modStream x.quarter x.stream fun y => { y with tags := y.tags - 1 }
      let s := enterFaultWait s x.quarter x.stream
      joinPage s p n a write

/-! ## Storing translations (R370, R371) -/

/-- Whether sixteen translations merge into one 64 KiB entry (R371). -/
def mergeable (ts : List AtsEntry) : Bool :=
  match ts with
  | [] => false
  | t :: _ => ts.length == 16 && t.addr % 65536 == 0 &&
      (List.range 16).all fun i =>
        let u := ts.getD i t
        u.size == 12 && u.addr == t.addr + i * 4096 && u.read == t.read && u.write == t.write && u.untranslated == t.untranslated

/-- The size an entry is stored at (R370). -/
def storedSize (n : Nat) : Nat := if n < 16 then 12 else if n < 21 then 16 else if n < 30 then 21 else 30

/-- The entries to store for a block: one merged entry, or each translation's own; for those below 64 KiB only the pages that a
waiting piece needs; none without READ or WRITE (R370). -/
def storeEntries (block : Nat) (ts : List AtsEntry) (need : List Nat) : List DtcEntry :=
  match ts with
  | [] => []
  | t :: _ =>
    let mk (a sz : Nat) (u : AtsEntry) : DtcEntry :=
      { base := a / 2 ^ sz * 2 ^ sz, sizeLog2 := sz
        addr := u.addr / 2 ^ u.size * 2 ^ u.size + a / 2 ^ sz * 2 ^ sz % 2 ^ u.size, read := u.read, write := u.write, untranslated := u.untranslated }
    if mergeable ts then (if t.read || t.write then [mk (block * 65536) 16 t] else [])
    else
      (List.range ts.length).filterMap fun i =>
        let u := ts.getD i t
        let a := block * 65536 + i * 4096
        let sz := storedSize u.size
        if !(u.read || u.write) then none
        else if sz == 12 && !need.contains (a / 4096) then none
        else some (mk a sz u)

/-- The set of an entry among the 512 of a DTC (R369). -/
def dtcSetOf (e : DtcEntry) : Nat := Config.dtcSet e.base e.sizeLog2 % 512

/-- The port has 12 ways of each set of the DTC, 6,144 entries in all; a set whose ways are full gives up the choice of pseudo-LRU.
The manual gives neither that choice nor the index of a set (R369, R372; DESIGN CHOICE, log entry 8). -/
def addDtc (s : State) (p : PortId) (e : DtcEntry) : State :=
  let l := (s.port p).xlt.dtc.filter fun y => !(y.base == e.base && y.sizeLog2 == e.sizeLog2)
  let ways := l.filter fun y => dtcSetOf y == dtcSetOf e
  if decide (l.length < 12) || decide (ways.length < 12) then s.modXlt p fun x => { x with dtc := l ++ [e] }
  else
    let gone := ways[Config.victim s.cache.choices % ways.length]?
    (s.modXlt p fun x => { x with dtc := (l.filter fun y => some y != gone) ++ [e] }).modCache fun c => { c with choices := c.choices + 1 }

/-! ## Hot pages (R390, R391) -/

/-- Appends a hot-page record: the log keeps the newest 1,024 (R533), and HOT_PAGE is set. -/
def appendHot (s : State) (p : PortId) (page count : Nat) : State :=
  let r : HotRecord := { addr := page * 2 ^ 21, count := count, stamp := islandCount s (hostIsland p) }
  let s := s.modXlt p fun x => { x with
    hotLog := (x.hotLog ++ [r]).drop ((x.hotLog ++ [r]).length - 1024), hotTotal := x.hotTotal + 1 }
  raiseEvent s p evHotPage

/-- One host read request or posted write counts against its 2 MiB page (R390); a counter that reaches HOT_THRESHOLD is recorded
once a period (R391). -/
def hotCount (s : State) (p : PortId) (a : Nat) : State :=
  let page := a / 2 ^ 21
  let x := (s.port p).xlt
  if !Tab.has x.counters page && decide (262144 ≤ x.counters.length) then
    s.modXlt p fun x => { x with hotDropped := satAdd (2 ^ 32 - 1) x.hotDropped 1 }
  else
    let c := Tab.getD x.counters page ⟨0, false⟩
    let n := min 255 (c.count + 1)
    let hit := !c.marked && decide ((s.port p).hotThreshold ≤ n)
    let s := s.modXlt p fun x => { x with counters := Tab.set x.counters page ⟨n, c.marked || hit⟩ }
    if hit then appendHot s p page n else s

/-- The most bytes of one request: 512, Max_Read_Request_Size for a read and Max_Payload_Size for a write (R454). -/
def reqBytes (s : State) (p : PortId) (write : Bool) : Nat :=
  max 1 (min 512 (if write then (s.port p).maxPayload else (s.port p).maxRead))

/-- Cuts n bytes from an address into requests of at most k bytes; `pages` cuts them at every 4 KiB boundary as well. The fuel bounds their number. -/
def cutRequests (k : Nat) (pages : Bool) : Nat → Nat → Nat → List (Nat × Nat)
  | 0, _, _ => []
  | f + 1, a, n =>
    if n = 0 then []
    else
      let m := min (min k n) (if pages then 4096 - a % 4096 else n)
      (a, m) :: cutRequests k pages f (a + m) (n - m)

/-- The requests that an access of n bytes makes (R342, R454); where addresses are translated, none crosses a page, whose translation ends with it
(DEDUCED, log entry 148). -/
def hostPieces (s : State) (p : PortId) (write : Bool) (a n : Nat) : List (Nat × Nat) :=
  let k := reqBytes s p write
  cutRequests k (s.port p).xlt.atsOn (n / k + n / 4096 + 3) a n

/-- The address that a request carries, and whether it is a translated one: a hit's is translated, an UNTRANSLATED page's and every address of a port
without ATS are not (R367, R370). -/
def busAddr (s : State) (p : PortId) (a : Nat) : Nat × Bool :=
  if !(s.port p).xlt.atsOn then (a, false)
  else match dtcFind (s.port p).xlt a with
    | some e => if e.untranslated then (a, false) else (e.addr + a % 2 ^ e.sizeLog2, true)
    | none => (a, false)

/-- Counts every request of an access. -/
def hotCountAll (s : State) (p : PortId) (write : Bool) (a n : Nat) : State :=
  (hostPieces s p write a n).foldl (fun s (x, _) => hotCount s p x) s

/-- Sends the writes of bytes from an address. -/
def emitWrites (s : State) (p : PortId) (w : Nat → List Byte → Bool → PortOut) (a : Nat) (b : List Byte) : State :=
  (hostPieces s p true a b.length).foldl (fun s (x, m) => emit s p (w (busAddr s p x).1 ((b.drop (x - a)).take m) (busAddr s p x).2)) s

/-- Sends the reads of bytes from an address. -/
def emitReads (s : State) (p : PortId) (n a len : Nat) : State :=
  (hostPieces s p false a len).foldl (fun s (x, m) => emit s p (.readReq n (busAddr s p x).1 m (busAddr s p x).2)) s

/-- The same for boulevards and alleys, whose requests count (R390). -/
def sendWrites (s : State) (p : PortId) (n a : Nat) (b : List Byte) : State :=
  emitWrites (hotCountAll s p true a b.length) p (.write n) a b
def sendReads (s : State) (p : PortId) (n a len : Nat) : State := emitReads (hotCountAll s p false a len) p n a len

/-- Port tags of an alley transfer to the host: one a request (R342). -/
def alleyTags (s : State) (x : Alley) : Nat := (hostPieces s x.port (x.op == 1) x.target x.len).length

/-- Sends the host request of an alley transfer whose translation is at hand; it takes its port tags now (R342, R372, R390). -/
def sendAlleyHost (s : State) (k : Nat) : State :=
  match Tab.get? s.alleys k with
  | none => s
  | some x =>
    let t := alleyTags s x
    let s := s.modPort x.port fun p => { p with tags := p.tags + t }
    let s := { s with alleys := Tab.set s.alleys k { x with sent := true, replays := 0, tags := t, gen := (s.port x.port).xlt.gen } }
    if x.op = 1 then sendWrites s x.port (alleyNum k) x.target x.data else sendReads s x.port (alleyNum k) x.target x.len

/-- Looks up the address of an alley transfer to the host: it goes out, asks for its translation, or faults (R367, R371, R373). -/
def routeAlley (s : State) (k : Nat) : State :=
  match Tab.get? s.alleys k with
  | none => s
  | some x =>
    let (a, r) := xltRange s x.port x.target x.len (x.op == 1)
    let s := countLookup s x.port r
    match r with
    | .pass => sendAlleyHost s k
    | .miss => askTranslation s x.port a (alleyNum k)
    | .noRight => alleyFault s x.port k a (x.op == 1)

/-! ## The host accesses of the queue engine (R367, R373, R482, R489) -/

/-- The write of a command's result still needs its translation. -/
def resultPending (s : State) (p : PortId) (c : Cmd) : Bool :=
  match outBuf s c with
  | .host _ a _ => !c.result.isEmpty && !c.resultErr && (xltRange s p a c.result.length true).2 != .pass
  | _ => false

/-- The host access of a command: the read of its input buffer while it waits, the write of its result once it is decided, then that of its
completion entry (R373, R489, R673; DEDUCED, log entry 152). -/
def commandAccess (s : State) (p : PortId) (c : Cmd) : Option (Nat × Nat × Bool) :=
  match c.stage with
  | .waiting => if eInLen c.entry = 0 ∨ eInRegion c.entry = true then none else some (eInAddr c.entry, eInLen c.entry, false)
  | .admitted => none
  | .decided =>
    if resultPending s p c then some (eOutAddr c.entry, c.result.length, true)
    else match c.origin with
      | .sq _ q => if c.cqeErr then none else some ((s.pair p q).cqBase + 32 * (s.pair p q).cqTail, 32, true)
      | _ => none

/-- The host address and the right that a piece needs. -/
def pieceHost (k : PieceSpec) : Nat × Bool := if k.srcSpace = 1 then (k.src, false) else (k.dst, true)

/-- The host bytes that an access of port p covers, and whether it writes them. -/
def accessOf (s : State) (p : PortId) (n : Nat) : Option (Nat × Nat × Bool) :=
  match askerOf n with
  | .piece n => (Tab.get? s.pieces n).map fun x => ((pieceHost x.spec).1, x.spec.len, (pieceHost x.spec).2)
  | .command n => (s.cmd? n).bind fun c => commandAccess s p c
  | .alley k => (Tab.get? s.alleys k).map fun x => (x.target, x.len, x.op == 1)
  | .fetch q => some ((s.pair p q).sqBase + 128 * (s.pair p q).sqHead, 128, false)

/-- The access has its translation. -/
def accessPasses (s : State) (p : PortId) (n : Nat) : Bool :=
  match accessOf s p n with
  | some (a, len, w) => (xltRange s p a len w).2 == .pass
  | none => true

/-- The access waits on a Translation Request or a page request. -/
def accessWaits (s : State) (p : PortId) (n : Nat) : Bool :=
  let x := (s.port p).xlt
  x.reqs.any (fun r => r.waiters.contains n) || x.asks.any (fun a => a.2 == n)
    || x.pages.any (fun (_, g) => !g.expired && g.waiters.contains n) || x.starved.contains n

/-- HOT_PERIOD: every counter halves, the marks clear, counters at zero are freed, and the next period's length applies (R391,
R534). -/
def hotPeriodEffect (s : State) (p : PortId) : State :=
  let s := s.modXlt p fun x => { x with
    counters := Tab.keep (Tab.map x.counters fun c => { c with count := c.count / 2, marked := false }) fun _ c => c.count != 0 }
  s.modPort p fun x => { x with hotPeriod := x.hotPeriodNext }

def execHotPeriod (p : PortId) (s : State) : Host.Outcome State Fault Refusal :=
  occurs (live s) (hotPeriodEffect s p) s

/-! ## Windows (R384 to R388) -/

def outWindow (s : State) (w : Nat) : OutWindow := Tab.getD s.protect.outbound w {}
def inWindow (s : State) (w : Nat) : InWindow := Tab.getD s.protect.inbound w {}

/-- A read of peer memory, and a write of it, sent through an outbound window (R384, R562). -/
def peerRead (s : State) (w off len : Nat) (k : PeerWaiter) : State :=
  let o := outWindow s w
  let p := { mkPacket s 0x01 o.target s.net.nextTxn [] with length := len, cls := 0, window := o.remote, gen := o.gen, offset := off }
  sendPacket (openPeer s o.target k) p
def peerWrite (s : State) (w off : Nat) (b : List Byte) (k : PeerWaiter) : State :=
  let o := outWindow s w
  let p := { mkPacket s 0x02 o.target s.net.nextTxn b with cls := 0, window := o.remote, gen := o.gen, offset := off }
  sendPacket (openPeer s o.target k) p

/-- The sender's check of an outbound window (R384). -/
def outWindowOk (s : State) (w off n : Nat) (x : Right) : Bool :=
  let o := outWindow s w
  o.valid && decide (off + n ≤ o.tiles * 65536) &&
    (match x with | .read => o.read | .write => o.write | .atomic => o.atomic)

/-- The I/O die of a Denop port: ports 0 and 1 lie on dies 0 and 1, ports 2 and 3 on die 2, ports 4 and 5 on die 3. -/
def dieOfPort (p : Nat) : Nat := if p < 2 then p else 2 + (p - 2) / 2

/-- The I/O die at which requests of a device arrive: that of its route (DEDUCED, log entry 30). -/
def peerDie (s : State) (src : Nat) : Nat :=
  match Tab.get? s.net.routes src with
  | some r => dieOfPort r.primary
  | none => 0

/-- The page entry of an inbound window, from the DTC's peer ways or by a walk of its table in HBM (R386, R388). -/
def pageEntry (s : State) (d w off : Nat) : BitVec 64 :=
  let page := off / 65536
  match Tab.get? s.protect.peerDtc (d * 2 ^ 37 + w * 2 ^ 23 + page) with
  | some e => e
  | none => BitVec.ofNat 64 (leNat (devReadZ s ((inWindow s w).table + 8 * page) 8))

/-- The peer ways of a set: 4 where the die has a PCIe port, else 16 (R369). -/
def peerWays (d : Nat) : Nat := if d < 2 then 4 else 16

/-- The set of the 512 of its die's DTC in which the peer entry of a page lies. The manual gives no index (R369; DESIGN CHOICE, log entry 8). -/
def peerSetOf (page : Nat) : Nat := Config.dtcSet (page % 2 ^ 37) 16 % 512

/-- A walk stores the page entry, keyed by window and page, and counts (R388, R394); a set whose peer ways are full gives up the choice of
pseudo-LRU (R372; DESIGN CHOICE, log entry 8). -/
def notePage (s : State) (d w off : Nat) : State :=
  let page := d * 2 ^ 37 + w * 2 ^ 23 + off / 65536
  if Tab.has s.protect.peerDtc page then s
  else
    let ways := (Tab.keys s.protect.peerDtc).filter fun k => k / 2 ^ 37 == d && peerSetOf k == peerSetOf page
    let full := decide (peerWays d ≤ ways.length)
    let gone := if full then ways[Config.victim s.cache.choices % ways.length]? else none
    let t := s.modProtect fun x => { x with
      peerDtc := Tab.set (Tab.keep x.peerDtc fun k _ => some k != gone) page (pageEntry s d w off), walks := Tab.modify x.walks d 0 (· + 1) }
    if full then t.modCache fun c => { c with choices := c.choices + 1 } else t

/-- Whether a device is a member of the installation, as the route table and this device's own number give it (R566). -/
def isMember (s : State) (d : Nat) : Bool := d == s.net.deviceNumber || Tab.has s.net.routes d

/-- The five checks of R387, in order; the answer is the number of the first that fails, none when all hold. -/
def windowCheck (s : State) (src w gen off n : Nat) (x : Right) : Option Nat :=
  let i := inWindow s w
  let e := (pageEntry s (peerDie s src) w off).toNat
  let right (r wr at_ : Bool) := match x with | .read => r | .write => wr | .atomic => at_
  if !(i.valid && i.gen == gen) then some 1
  else if !(i.source == src || (i.anyMember && isMember s src)) then some 2
  else if !(decide (off + n ≤ i.tiles * 65536) && decide (off % 65536 + n ≤ 65536)) then some 3
  else if !bitOf e 63 then some 4
  else if !(right i.read i.write i.atomic && right (bitOf e 62) (bitOf e 61) (bitOf e 60)) then some 5
  else none

/-- The device-physical address of an accepted request (R387). -/
def windowAddr (s : State) (src w off : Nat) : Nat :=
  bitsOf (pageEntry s (peerDie s src) w off).toNat 47 16 * 65536 + off % 65536

end Sys2Proof.Machine
end

