-- ==== Sys2Proof/Machine/Faults.lean ====
section
/-! DEFINITION. What failures do that several rows share: ending runs and batches (R120, R213, R246), lost tiles and objects (R415,
R642, R676), page retirement (R309 to R311), quarters that leave service (R637 to R639), FATAL (R645), and restoring a collection
from its image (R185, R634). -/

namespace Sys2Proof.Machine

open Sys2Proof

/-! ## Log entries about objects -/

/-- A device entry that names a collection or schedule and an epoch (R532). -/
def objectLog (s : State) (kind : Nat) (handle : BitVec 32) (epoch loc detail : Nat) : State :=
  writeLog s { deviceEntry s kind loc detail with coll := handle, epoch := epoch } [.p0, .p1]

/-- OBJECT of R676. -/
def objCode : ObjKind → Nat | .index => 0 | .vectors => 1 | .tokens => 2 | .weights => 3 | .region => 4

/-- DETAIL of a LOST_OBJECT entry (R676). -/
def lostDetail (owner : Nat) (k : ObjKind) (event tiles : Nat) : Nat :=
  owner % 2 ^ 32 + objCode k * 2 ^ 32 + event * 2 ^ 40 + tiles * 2 ^ 64

/-- The handle of a collection slot. -/
def collHandle (s : State) (i : Nat) : BitVec 32 :=
  match s.coll? i with
  | some c => handleOf c.gen i
  | none => 0

/-- The handle of a schedule slot. -/
def schedHandle (s : State) (i : Nat) : BitVec 32 := handleOf (Tab.getD s.scheds i {}).gen i

def State.modSched (s : State) (i : Nat) (f : Sched → Sched) : State := { s with scheds := Tab.adjust s.scheds i f }
def State.modRun (s : State) (r : Nat) (f : Run → Run) : State := { s with runs := Tab.adjust s.runs r f }

/-! ## Runs (R213, R219) -/

/-- Held blocks of an owner. -/
def blocksOf (s : State) (o : BlockOwner) : List (Nat × Nat) :=
  (s.cache.held.filter fun (_, x) => x == o).map fun (k, _) => (k / 64, k % 64)

/-- Releases every block of an owner. -/
def releaseBlocks (s : State) (o : BlockOwner) : State := (blocksOf s o).foldl (fun s (sl, b) => releaseBlock s sl b) s

/-- DEMAND of R607 in units of 50 MHz: 1.05 GHz, or 0.35 GHz in DP1. -/
def clockDemand (s : State) : Nat := if s.power.dp = .dp1 then 7 else 21

/-- The largest CHECK_CLOCK of the runs in progress on a quarter (R216). -/
def checkFloor (s : State) (q : Nat) : Nat :=
  ((s.runs.filter fun (_, r) => r.launched && r.quarters.contains q).map fun (_, r) =>
    (Tab.getD s.scheds r.sched {}).header.checkClock).foldl max 0

/-- CAP: the smaller of its thermal and power parts, and never below 0.55 GHz (R607) (DEDUCED, log entry 108). -/
def capOf (x : Quarter) : Nat := max 11 (min x.thermalCap x.powerCap)

/-- The power controller sets the clock of every quarter that runs (R606, R607) (DEDUCED, log entry 107). -/
def State.settleClocks (s : State) : State :=
  let clock (q : Nat) (x : Quarter) : Nat := max (min (clockDemand s) (capOf x)) (checkFloor s q)
  let runs (q : Nat) : Bool := (s.island q).state == .run
  { s with
    quarters := s.quarters.map fun (q, x) => (q, { x with cap := capOf x, clock := if runs q then clock q x else x.clock })
    islands := s.islands.map fun (i, y) =>
      (i, if decide (i < 64) && runs i then { y with rate := 50 * clock i (Tab.getD s.quarters i {}) } else y) }

/-- A core that serves nothing again: its tables, predicates and program are gone, and its scalar registers hold nothing that the next user can
rely on (R242, R244). -/
def idleAgain (free : Nat) (c : Core) : Core :=
  { c with
    batch := none, run := none, grants := [], forgot := some free, bank := [], preds := [], program := []
    scalars := (List.range 32).map (Config.scalar free) }

/-- Cores of a batch or a run are free; their program areas hold nothing that the next user can rely on (R242). -/
def freeCores (s : State) (mine : Core → Bool) : State :=
  let ns := (s.cores.filter fun (_, c) => mine c).map (·.1)
  ({ s with
    cores := Tab.map s.cores fun c => if mine c then idleAgain s.free c else c
    localStore := s.localStore.filter fun (a, _) => !(ns.contains (a / 2 ^ 18) && decide (a % 2 ^ 18 < 0x30000)) } : State).useFree

def freeOne (s : State) (n : Nat) : State :=
  ({ s.modCore n (idleAgain s.free) with
    localStore := s.localStore.filter fun (a, _) => !(a / 2 ^ 18 == n && decide (a % 2 ^ 18 < 0x30000)) } : State).useFree

/-- Takes a run off: its cores, streams, pool and activation space are free (R219, R242). -/
def dropRun (s : State) (r : Nat) : State :=
  let streams := ((Tab.get? s.runs r).map (·.streams)).getD []
  let s := streams.foldl (fun s (q, n) => s.modStream q n fun x => { x with state := .idle }) (releaseBlocks s (.run r))
  (freeCores { s with runs := Tab.erase s.runs r } fun c => c.run == some r).settleClocks

/-- Commands with a sequence in a run. -/
def runCmds (x : Run) : List Nat := (x.seqs.map (·.cmd)).eraseDups

/-- Ends a run: every command with a sequence in it ends with the status (R213, R218). -/
def endRun (s : State) (r : Nat) (st : Status) (z : Cause) : State :=
  match Tab.get? s.runs r with
  | some x => dropRun (failAll s (runCmds x) st z) r
  | none => s

/-! ## RUN_CTL and the end of a run (R213, R219, R233, R235) -/

/-- Sends a RUN_CTL packet: its kind, and two or three numbers (DESIGN CHOICE, log entry 27). -/
def sendRunCtl (s : State) (d kind a b h : Nat) : State :=
  sendPacket s (mkPacket s 0x28 d a (leBytes 1 kind ++ leBytes 8 a ++ leBytes 8 b ++ leBytes 4 h))

/-- The other slice devices of a schedule. -/
def sliceOthers (s : State) (d : Sched) : List Nat := d.members.filter (· != s.net.deviceNumber)

/-- Tells the other slices that a run has ended (R235). -/
def tellFinish (s : State) (k : Nat) (r : Run) : State :=
  match r.slice with
  | some (co, n) => sendRunCtl s co 3 s.net.deviceNumber n 0
  | none =>
    if (s.sched r.sched).header.sliced then (sliceOthers s (s.sched r.sched)).foldl (fun s d => sendRunCtl s d 3 s.net.deviceNumber k 1) s
    else s

/-- The schedule, step and tile of a run's failure (R213). -/
def runCause (s : State) (r : Run) (kind ref : Nat) : Cause :=
  let d := s.sched r.sched
  let tile := match d.refs[ref]? with | some f => (weightTile d f).getD f.object | none => 0
  { kind := kind, loc := tile, detail := (schedHandle s r.sched).toNat + r.step * 2 ^ 32 + ref * 2 ^ 48 }

/-- Ends a run on every slice; the log names its failure where no command of the run does (R213, R235). -/
def endEverywhere (s : State) (k : Nat) (st : Status) (z : Cause) : State :=
  match Tab.get? s.runs k with
  | some r => oneEvent s r.seqs.isEmpty z fun s => endRun (tellFinish s k r) k st z
  | none => s

/-! ## The end of a schedule (R223, R236, R639, R642) -/

/-- A schedule that a command keeps is still needed: a run of it is there, or a fetched command that keeps it has not ended
(R223). -/
def schedKept (s : State) (i : Nat) : Bool :=
  let h := schedHandle s i
  s.runs.any (fun (_, r) => r.sched == i)
    || s.cmds.any fun (_, c) => c.stage != .decided && (c.embed == h || c.cross == h)

/-- Takes a schedule's handle out of every binding. -/
def clearBindings (s : State) (h : BitVec 32) : State :=
  { s with colls := Tab.map s.colls fun c => { c with
      embed := if c.embed = h then 0 else c.embed
      keepTokens := c.keepTokens && c.cross != h
      cross := if c.cross = h then 0 else c.cross } }

/-- A schedule goes: its weights' tiles are free, and a SCHEDULE_UNLOAD that waits for it completes. -/
def releaseSched (s : State) (i : Nat) (d : Sched) : State :=
  let s := dropTiles s d.weightTiles
  let s := { s with scheds := Tab.set s.scheds i { gen := d.gen } }
  match d.unloadCmd with | some n => succeed s n {} | none => s

/-- A schedule that is to go is released once nothing needs it any more and the firmware serves (R223, R236). -/
def settleUnload (s : State) (i : Nat) : State :=
  match Tab.get? s.scheds i with
  | some d => if fwServes s && (d.unloadCmd.isSome || d.going) && !schedKept s i then releaseSched s i d else s
  | none => s

/-- Schedules that are to go and that nothing needs are released. -/
def settleUnloads (s : State) : State := (Tab.keys s.scheds).foldl settleUnload s

/-- The firmware unloads a schedule: its bindings clear and the log names it at once, its runs go on, and it is released with the last of them;
while the firmware does not serve, the unload waits (R236, R639, R642) (DEDUCED, log entry 72). -/
def unloadSched (s : State) (i loc : Nat) : State :=
  match Tab.get? s.scheds i with
  | none => s
  | some d =>
    if d.going then s
    else if !fwServes s then s.modSched i fun d => { d with failing := some loc }
    else
      let h := schedHandle s i
      let s := (clearBindings s h).modSched i fun d => { d with failing := none, going := true }
      settleUnload (objectLog s kindLostObject h 0 loc (lostDetail h.toNat .weights 3 0)) i

/-! ## Batches and core faults (R120, R246) -/

/-- Takes a launched batch off its cores. -/
def dropBatch (s : State) (b : Nat) : State :=
  freeCores (leaveAll { s with batches := Tab.erase s.batches b }) fun c => c.batch == some b
where
  /-- The batch is in no search's list any more. -/
  leaveAll (s : State) : State :=
    { s with cmds := Tab.map s.cmds fun c => { c with search := { c.search with batches := c.search.batches.filter (· != b) } } }

/-- Ends every member of a batch (R120, R246). -/
def endBatch (s : State) (b : Nat) (st : Status) (z : Cause) : State :=
  match Tab.get? s.batches b with
  | some x => dropBatch (failAll s x.members st z) b
  | none => s

/-- DETAIL of an event of a core: its unit, and the offset in the local store (R628; DESIGN CHOICE, log entry 151). -/
def coreDetail : CoreEvent → Nat
  | .program => 0
  | .localStore off => 1 + off % 2 ^ 18 * 2 ^ 32
  | .tableBank _ => 2
  | .programMemory => 3

/-- An event of a core: its program's fault and a lost word of its program memory end its batch's members with CORE_FAULT and its run with
SCHEDULE_FAULT, and the firmware will check the core for sparing (R246); a lost word of its local store ends them with DATA_ERROR, a table bank the
members whose tables it holds (R632). -/
def coreEvent (s : State) (n : Nat) (e : CoreEvent) : State :=
  let c := s.core n
  let z : Cause := { kind := kindCore, loc := n, detail := coreDetail e }
  let work (s : State) (b r : Status) : State :=
    let s := match c.batch with | some k => endBatch s k b z | none => s
    match c.run with | some k => endEverywhere s k r z | none => s
  match e with
  | .localStore _ => oneEvent s true z fun s => work s .dataError .dataError
  | .tableBank ms =>
    let hit := ms.filter fun m => ((c.batch.bind (Tab.get? s.batches ·)).map fun b => b.members.contains m).getD false
    oneEvent s true z fun s => failAll s hit .dataError z
  | _ => (oneEvent s true z fun s => work s .coreFault .scheduleFault).modCore n fun c => { c with faulted := true }

/-- A core program faults (R246). -/
def programFault (s : State) (n : Nat) : State := coreEvent s n .program

/-! ## Readers of a tile (R120, R213, R227) -/

/-- The tile, the offset there and the length of what a search reads for a candidate, its full vector or its tokens: none where it has none, or
where the LOC names a staging entry, which holds the vector (R225, R229). -/
def candPlace (c : Collection) (snap : Nat) (k : ObjKind) (y : Cand) : Option (Nat × Nat × Nat) :=
  let staged := match y.loc with | .staged _ => true | _ => false
  match versionAt c y.vid snap with
  | none => none
  | some e =>
    if k = .tokens then (Tab.get? c.tokens (fullKey y.vid e.ins)).map fun (t, o, l) => (t, o, 4 * l.length)
    else if staged then none
    else (Tab.get? c.fulls (fullKey y.vid e.ins)).map fun (t, o, l) => (t, o, l.length)

/-- A candidate waits for its read: it is of this collection's device, and has neither a distance nor tokens yet (R575). -/
def candWaits (s : State) (c : Collection) (x : Cmd) (y : Cand) (k : Nat) : Bool :=
  let shard := match x.origin with | .shard .. => true | _ => false
  (shard || c.members.isEmpty || idDevice y.vid == s.net.deviceNumber) && !Tab.has x.search.dists k && !Tab.has x.search.candTokens k

/-- Searches of a collection that re-rank and wait for a candidate whose vector, or tokens, the tile holds (R227). -/
def rerankReaders (s : State) (i : Nat) (k : ObjKind) (t : Nat) : List Nat :=
  match s.coll? i with
  | none => []
  | some c =>
    (s.cmds.filter fun (_, x) => onColl i x && x.stage == .admitted && x.search.phase == .reranking
      && eRerank x.entry == (if k = .vectors then 1 else 2)
      && x.search.merged.zipIdx.any fun (y, p) => candWaits s c x y p
        && (candPlace c (x.snapshot.getD 0) k y).map (·.1) == some t).map (·.1)

/-- The first reference of a run that reads a tile: issued, and not landed. -/
def runReads (s : State) (r : Run) (t : Nat) : Option Nat :=
  let d := s.sched r.sched
  if r.launched then (List.range r.issued).find? fun j =>
    !r.landed.contains j && (match d.refs[j]? with | some f => weightTile d f == some t | none => false)
  else none

/-- Runs that wait for a tile, each with the reference (R416). -/
def runsWaiting (s : State) (t : Nat) : List (Nat × Run × Nat) := s.runs.filterMap fun (k, r) => (runReads s r t).map fun j => (k, r, j)

/-- Ends every command that needs a tile's data, as its kind says. -/
def endReaders (s : State) (t : Nat) (st : Status) (z : Cause) : State :=
  oneEvent s false z fun s =>
  match Tab.get? s.tiers.map t with
  | none => s
  | some e =>
    match e.kind with
    | .index =>
      let bs := s.batches.filter fun (_, b) => b.launched && b.workers.any fun (_, w) =>
        match w.tile with | .segment u _ => u == t | .staged _ => false
      bs.foldl (fun s (b, _) => endBatch s b st z) s
    | .weights => (runsWaiting s t).foldl (fun s (k, r, j) => endEverywhere s k st (runCause s r z.kind j)) s
    | .region => s
    | k => failAll s (rerankReaders s e.owner k t) st z

/-! ## Lost tiles and objects (R415, R642) -/

/-- A tile becomes LOST: its object is handled by kind, and the log names it. VECTORS and TOKENS with a current T4 copy are rewritten
from it. -/
def loseTile (s : State) (t : Nat) : State :=
  match Tab.get? s.tiers.map t with
  | none => s
  | some e =>
    let log (s : State) (h : BitVec 32) : State := objectLog s kindLostObject h 0 t (lostDetail h.toNat e.kind 0 1)
    match e.kind with
    | .index =>
      let s := log (setTile s t { e with lost := true }) (collHandle s e.owner)
      s.modColl e.owner fun c => { c with damaged := true, lostTiles := if c.lostTiles.contains t then c.lostTiles else c.lostTiles ++ [t] }
    | .vectors | .tokens =>
      log (if e.backed && !e.dirty && e.tier != 4 then s else setTile s t { e with lost := true }) (collHandle s e.owner)
    | .weights => unloadSched (log s (schedHandle s e.owner)) e.owner t
    | .region => s

/-- The tile that lies in T2 at an address. -/
def tileAt (s : State) (a : Nat) : Option Nat :=
  (s.tiers.map.find? fun (_, e) => e.tier == 2 && e.location == a / 65536).map (·.1)

/-- Region entries whose area covers an address. -/
def regionsAt (s : State) (a : Nat) : List Nat :=
  (s.protect.regions.filter fun (_, r) => r.valid && r.allocated && decide (r.base ≤ a) && decide (a ≤ r.last)).map (·.1)

/-- The object whose granule is lost at an address (R642). -/
def loseAddress (s : State) (a : Nat) : State :=
  match tileAt s a with
  | some t => loseTile s t
  | none => (regionsAt s a).foldl (fun s n => objectLog s kindLostObject 0 0 (a / 65536) (lostDetail n .region 0 1)) s

/-- Pieces whose source covers a sector end with DATA_ERROR (R345). -/
def failSourceReads (s : State) (a : Nat) : State :=
  let hit (base n : Nat) : Bool := decide (base < a + 32) && decide (a < base + n)
  let ps := s.pieces.filter fun (_, x) => x.spec.srcSpace == 0 && x.err.isNone && x.data.isNone && hit x.spec.src x.spec.len
  ps.foldl (fun s (n, _) => pieceErr s n 4) s

/-! ## Page retirement (R309 to R312) -/

/-- The least entry of the table, and the least slot, not in use (DESIGN CHOICE, log entry 128: the manual does not say which). -/
def freeRt (s : State) : Option Nat := Tab.firstFree s.hbm.rt 0 4096
def freeSlot (s : State) : Option Nat :=
  (List.range 4096).find? fun n => !s.hbm.rt.any fun (_, r) => r.valid && r.slot == n

/-- The device page that a local granule of a channel holds: the page of its address, or the page whose slot it is (R309). -/
def pageOf (s : State) (c r : Nat) : Option (Nat × Nat) :=
  let n := activeN s
  match (List.range n).find? fun e => s.hbm.perm.getD e 512 == c with
  | none => none
  | some e =>
    let a := (r * n + (e + n - r % n) % n) * 2048
    if a < retireBase s then some (a / 4096, a / 2048 % 2)
    else (s.hbm.rt.find? fun (_, x) => x.valid && x.slot == (a - retireBase s) / 4096).map fun (_, x) => (x.page, a / 2048 % 2)

/-- Copies a granule from one device address to another through the map. -/
def copyGranule (s : State) (fromA toA : Nat) : State :=
  (List.range 64).foldl (fun s i =>
    match hbmSector s (fromA + i * 32) with
    | some d => hbmPut s (toA + i * 32) d (BitVec.allOnes 32)
    | none => s) s

/-- The channel and local granule of an address without the retirement redirect. -/
def homePlace (s : State) (a : Nat) : Nat × Nat :=
  let n := activeN s
  let g := a / 2048
  (s.hbm.perm.getD ((g % n + g / n) % n) 0, g / n)

/-- The row of a local granule in a pseudo-channel, as State keys it: (pseudo-channel * 64 + bank) * 16,384 + row (R280). -/
def rowKey (pc r : Nat) : Nat := (pc * 64 + r % 64) * 16384 + r / 64

/-- A row fails: 4 corrected errors within 24 hours (R307). -/
def rowFails (s : State) (c key : Nat) : Bool :=
  decide (4 ≤ ((Tab.getD (s.chan c).rowErrors key []).filter fun t => decide (s.time < t + 86400000000000)).length)

/-- A granule's row fails in either pseudo-channel. -/
def granuleFails (s : State) (c r : Nat) : Bool := rowFails s c (rowKey 0 r) || rowFails s c (rowKey 1 r)

/-- Granules of a page whose home lies in a failing row. -/
def failingGranules (s : State) (page : Nat) : BitVec 2 :=
  (List.range 2).foldl (fun (m : BitVec 2) g =>
    let (c, r) := homePlace s (page * 4096 + g * 2048)
    if granuleFails s c r then m ||| BitVec.twoPow 2 g else m) 0

/-- Retires a page: the granules of `lost` get LOST, the others are copied to the slot, and both are served from it (R310, R311).
A page that has an entry gains LOST bits, and moves to another slot, where one is free: a granule of its slot has failed (R309). -/
def retirePage (s : State) (page : Nat) (lost : BitVec 2) : State :=
  let put (s : State) (n slot : Nat) (old : RtEntry) : State :=
    let bad := old.failed ||| lost ||| failingGranules s page
    let gone := old.lost ||| lost
    let copied := (List.range 2).foldl (fun s g =>
      if bitOf gone.toNat g then s
      else copyGranule s (page * 4096 + g * 2048) (retireBase s + slot * 4096 + g * 2048)) s
    copied.modHbm fun h => { h with
      recordDirty := true
      rt := Tab.set h.rt n
        { valid := true, releasing := false, failed := bad, lost := gone, moved := 3, slot := slot, page := page } }
  match rtFind s page, freeSlot s with
  | some (n, old), some k => put s n k old
  | some (n, old), none => s.modHbm fun h => { h with recordDirty := true, rt := Tab.set h.rt n { old with lost := old.lost ||| lost } }
  | none, slot =>
    match freeRt s, slot with
    | some n, some k => put s n k {}
    | _, _ => critical s critHbm true

/-- Retires a page and logs it; a lost granule is its object's loss (R311, R312, R642). -/
def retireLogged (s : State) (page : Nat) (lost : BitVec 2) : State :=
  let s' := retirePage s page lost
  let s' := match rtFind s' page with
    | some (n, _) => repairLog s' (match mapAddr s (page * 4096) with | some (c, _, _) => c | none => 0) n
    | none => s'
  (List.range 2).foldl (fun s g => if bitOf lost.toNat g then loseAddress s (page * 4096 + g * 2048) else s) s'

/-- The page whose granule lies at an address: of a slot, the page that it holds (R309). -/
def pageAt (s : State) (a : Nat) : Option Nat :=
  if a < retireBase s then some (a / 4096)
  else (s.hbm.rt.find? fun (_, x) => x.valid && x.slot == (a - retireBase s) / 4096).map fun (_, x) => x.page

/-- A page is retired with granules lost, as soon as the firmware serves (R45, R291, R311). -/
def retireWhenServed (s : State) (page : Nat) (lost : BitVec 2) : State :=
  if fwServes s then retireLogged s page lost else s.modHbm fun h => { h with dueRetire := h.dueRetire ++ [(page, lost)] }

/-- The page of an uncorrectable sector is retired with its granule lost. -/
def retireLost (s : State) (a : Nat) : State :=
  match pageAt s a with
  | some page => retireWhenServed s page (BitVec.twoPow 2 (a / 2048 % 2))
  | none => s

/-- An uncorrectable read of the sector at an address, or a read of a LOST granule: every request that needs it ends with DATA_ERROR,
and the log names channel, row and sector (R291, R306, R311). -/
def sectorFails (s : State) (a : Nat) : State :=
  oneEvent s true (hbmCause s a) fun s =>
    failSourceReads (match tileAt s a with | some t => endReaders s t .dataError (hbmCause s a) | none => s) a

/-! ## FATAL (R645) -/

/-- The device stops serving: the event has one entry, kept in the security block until it is read (R629); no fetch and no completion follow, its Denop ports go down (R579), CRITICAL bit 5 and ALERT_N. -/
def fatal (s : State) (kind loc detail : Nat) : State :=
  let s := deviceLog s kind loc detail
  let s := s.modSec fun x => { x with fatalKept := (s.logs.entries ++ s.logs.held).getLast? }
  let s := s.modPower fun p => { p with phase := .fatal, alert := true }
  let s := s.modNet fun n => { n with links := Tab.map n.links fun l => if l.state = .unpopulated then l else { l with state := .down } }
  raiseEvent (raiseEvent (critical s critFatal true) .p0 evHealth) .p1 evHealth

/-! ## Islands and crossings (R604 to R611) -/

/-- The islands of a crossing's sides A and B (R609). -/
def crossingSides (c : Nat) : Nat × Nat :=
  let order (a b : Nat) : Nat × Nat := (min a b, max a b)
  if c < 64 then order c (64 + c / 8)
  else if c < 80 then order (76 + (c - 64)) (64 + (c - 64) / 2)
  else if c < 83 then order (64 + (c - 80)) (65 + (c - 80))
  else if c < 86 then order (68 + (c - 83)) (69 + (c - 83))
  else if c < 90 then order (64 + (c - 86)) (68 + (c - 86))
  else if c < 94 then order (72 + (c - 90)) (64 + (match c - 90 with | 0 => 0 | 1 => 4 | 2 => 3 | _ => 7))
  else if c < 96 then order (92 + (c - 94)) (72 + (c - 94))
  else if c < 100 then order (94 + (c - 96)) (72 + (c - 96))
  else if c < 104 then order (98 + (c - 100)) (72 + (c - 100))
  else order 102 72

/-- Working clock of an island in MHz when it runs (R604); quarters follow R607. -/
def islandRate (s : State) (i : Nat) : Nat :=
  if i < 64 then 1050
  else if i < 76 then 2000
  else if i < 92 then (match (s.chan (32 * (i - 76))).pinRate with | 0 => 800 | 1 => 1000 | 2 => 1100 | _ => 1200)
  else if i < 94 then 1000
  else if i < 98 then 1750
  else if i < 102 then 900
  else 2000

/-- An island runs: its PLL is in lock, and its counter starts when it first leaves reset (R611). -/
def runIsland (s : State) (i : Nat) : State :=
  let rate := islandRate s i
  s.modIsland i fun x => { x with state := .run, rate := rate, locked := true, started := some (x.started.getD s.time) }

/-- A crossing as its two sides leave it: RUN, and empty, when both run; RESET when both are in reset; else ISOLATED (R608). -/
def settleCrossing (s : State) (c : Nat) : State :=
  let (a, b) := crossingSides c
  let up (i : Nat) : Bool := (s.island i).state != .reset
  let st : CxState := if up a && up b then .run else if up a || up b then .isolated else .reset
  s.modCrossing c fun x =>
    if x.state = st then x
    else { x with
      state := st, occAB := 0, occBA := 0
      isolations := if st = .isolated then satAdd (2 ^ 32 - 1) x.isolations 1 else x.isolations }

/-- Crossings with an island at one side. -/
def crossingsOf (i : Nat) : List Nat := (List.range 105).filter fun c => (crossingSides c).1 == i || (crossingSides c).2 == i

/-- Islands leave reset, and the crossings between islands that run return to RUN. -/
def runIslands (s : State) (is : List Nat) : State :=
  let s := is.foldl runIsland s
  (List.range 105).foldl settleCrossing s

/-! ## Quarters (R637 to R639) -/

/-- A core is usable: present, in a quarter that is in service (R248, R637). -/
def coreUsable (s : State) (n : Nat) : Bool := !(s.core n).absent && (s.quarter (n / 64)).inService

/-- Quarters in service with all 64 cores. -/
def completeQuarters (s : State) : List Nat :=
  (List.range 64).filter fun q => (s.quarter q).inService && (List.range 64).all fun k => !(s.core (q * 64 + k)).absent

/-- The order in which substitutes are tried (R638). -/
def subOrder : List Nat := [32, 16, 48, 8, 40, 24, 56] ++ (List.range 63).map (· + 1)

/-- The substitute of slice n: the first of the order that is in service and stands in for no other slice (DEDUCED, log entry 125). -/
def substituteOf (s : State) (n : Nat) : Option Nat :=
  (subOrder.map fun m => n ^^^ m).find? fun q =>
    (s.quarter q).inService && !(List.range 64).any fun k => k != n && (s.quarter k).substitute == some q

/-- Writes back and empties a slice: every pending entry and every line (R274) (DEDUCED, log entry 71). -/
def flushSlice (s : State) (n : Nat) : State :=
  let s := (wcOf s n).foldl (fun s w => drainWc s n w.line) s
  let ks := (Tab.keys s.cache.lines).filter fun k => k / 32768 == n
  ks.foldl evictKey s

/-- Gives every slice that has no serving quarter its substitute, in order of number; FATAL when one has none (R638). -/
def assignSubs : List Nat → State → State
  | [], s => s
  | n :: t, s =>
    match substituteOf s n with
    | some q => assignSubs t (s.modQuarter n fun x => { x with substitute := some q })
    | none => fatal s kindSparing n 0

/-- Unloads schedules that need more complete quarters than are in service (R639). -/
def unloadUnfit (s : State) : State :=
  let n := (completeQuarters s).length
  (s.scheds.filter fun (_, d) => d.loaded && decide (n < d.header.quarters)).foldl (fun s (i, _) => unloadSched s i 0) s

/-- Streams of a quarter and their pieces are gone. -/
def dropStreams (s : State) (q : Nat) : State :=
  let ps := s.pieces.filter fun (_, x) => x.quarter == q
  let s := ps.foldl (fun s (_, x) =>
    if x.portTags = 0 then s
    else s.modPort (s.stream x.quarter x.stream).hostPort fun p => { p with tags := p.tags - x.portTags }) s
  let bs := s.cache.held.filter fun (_, o) => match o with | .pairBuffer k _ => k == q | _ => false
  let s := bs.foldl (fun s (k, _) => releaseBlock s (k / 64) (k % 64)) s
  { s with
    pieces := Tab.keep s.pieces fun _ x => x.quarter != q
    streams := Tab.keep s.streams fun k _ => k / 16 != q
    engines := Tab.adjust s.engines q fun e => { e with tags := 0 } }

/-- Ends what still runs on a quarter with CORE_FAULT (R640 step 2). -/
def endQuarterWork (s : State) (q : Nat) : State :=
  let z : Cause := { kind := kindSparing, loc := q, detail := 0 }
  let s := oneEvent s false z fun s =>
    let bs := s.batches.filter fun (_, b) => b.workers.any fun (c, _) => c / 64 == q
    let s := bs.foldl (fun s (b, _) => endBatch s b .coreFault z) s
    let rs := s.runs.filter fun (_, r) => r.launched && r.quarters.contains q
    rs.foldl (fun s (r, _) => endEverywhere s r .coreFault z) s
  dropStreams s q

/-- A quarter leaves service (R637): its work ends, its slice is written back, its slice and every slice it stood in for move to
substitutes (R638), schedules that no longer fit are unloaded (R639), and the host is told. -/
def quarterOut (s : State) (q : Nat) : State :=
  if !(s.quarter q).inService then s
  else
    let s := flushSlice (endQuarterWork s q) q
    let s := s.modQuarter q fun x => { x with inService := false }
    let moved := ((List.range 64).filter fun n => n != q && (s.quarter n).substitute == some q) ++ [q]
    let s := moved.foldl (fun s n => s.modQuarter n fun x => { x with substitute := none }) s
    let s := assignSubs moved s
    let s := deviceLog (critical s critQuarter true) kindSparing q 0
    noticeId (notice (unloadUnfit s) lidHealth)

/-- What takes a core out of its quarter: more than 8 absent cores take the quarter out (R637). -/
def absentCores (s : State) (q : Nat) : Nat := ((List.range 64).filter fun k => (s.core (q * 64 + k)).absent).length

/-! ## Restoring a collection (R185, R634, R674) -/

/-- Opens the segments of a list for records in insert-epoch order: their tiles, in order, and each record's slot. Without space in
T2 the records stay out. -/
def placeRuns : List (List Packed) → State → Nat → Nat → Nat → Bool → State × List Nat
  | [], s, _, _, _, _ => (s, [])
  | run :: rest, s, i, list, gen, seal1 =>
    let full := match s.coll? i with | some c => decide (slotCount c.attrs ≤ run.length) | none => false
    match newSegment s i (packSegment list gen (if seal1 || full || !rest.isEmpty then (run.getLast?.map (·.ins)).getD 0 else 0) run) with
    | none => (s, [])
    | some (t, s) => let (s, ts) := placeRuns rest s i list gen seal1; (s, t :: ts)

/-- Slots of the records of new segments, for the ID map. -/
def slotsIn (c : Collection) (ts : List Nat) : List (BitVec 48 × Nat × Nat) :=
  ts.flatMap fun t => match Tab.get? c.segs t with
    | some g => (g.recs.zipIdx).map fun (r, k) => (r.vid, t, k)
    | none => []

/-- Adds a slot to an ID map entry. -/
def addSlot (m : Table IdEntry) (ins : Nat) (x : BitVec 48 × Nat × Nat) : Table IdEntry :=
  Tab.modify m x.1.toNat { ins := ins, staged := none, slots := [] } fun e => { e with slots := e.slots ++ [(x.2.1, x.2.2)] }

/-- The records that a list holds in an image, as packed records. -/
def listRecs (img : Image) (l : Nat) : List Packed :=
  isort (fun x y => decide (x.ins < y.ins)) (img.recs.filterMap fun r =>
    ((r.lists.zip r.codes).find? fun x => x.1 == l).map fun x =>
      { rec_ := { code := x.2, attr := r.attr, vid := r.vid, insLo := 0 }, ins := r.ins, orig := r.ins, del := none })

/-- Puts the contents of an image into slot i: segments list by list, full vectors and tokens. -/
def loadImage (s : State) (i : Nat) (img : Image) : State :=
  let lists := ((img.recs.flatMap (·.lists)).eraseDups)
  let s := lists.foldl (fun s l =>
    let ps := listRecs img l
    let (s, ts) := placeRuns (packRuns (slotCount img.attrs) ps.length ps) s i l img.cbGen false
    let insOf (v : BitVec 48) : Nat := ((img.recs.find? fun r => r.vid == v).map (·.ins)).getD 0
    let place (c : Collection) (v : DirVersion) : DirVersion :=
      { v with
        segs := Tab.set v.segs l ts
        limits := Tab.set v.limits l (((ts.getLast?.bind (Tab.get? c.segs ·)).map (·.recs.length)).getD 0) }
    s.modColl i fun c => { c with
      dirs := c.dirs.map (place c)
      sizeLogs := Tab.set c.sizeLogs l [(c.published, ps.length)]
      idMap := (slotsIn c ts).foldl (fun m x => addSlot m (insOf x.1) x) c.idMap }) s
  img.recs.foldl (fun s r =>
    match s.coll? i with
    | none => s
    | some c =>
      let s := (putFull s i c (fullKey r.vid r.ins) r.full).getD s
      match s.coll? i with
      | some c => (putTokens s i c (fullKey r.vid r.ins) r.tokens).getD s
      | none => s) s

/-- Every tile of a collection. -/
def collTiles (c : Collection) : List Nat := Tab.keys c.segs ++ c.vecTiles ++ c.tokTiles ++ c.indexTiles

/-- Tiles of the shadow space of maintenance in progress. -/
def maintTiles (c : Collection) : List Nat := (c.maint.map (·.tiles)).getD []

/-- Gives the staging buffer's pages back (step 1 of R408). -/
def dropStage (s : State) (i : Nat) : State :=
  match (s.coll? i).bind (·.stage) with
  | some (p, k) => (givePages s p k).modColl i fun c => { c with stage := none }
  | none => s

/-- Pages of a staging buffer: STAGING_SIZE in 4 KiB pages (R50). -/
def stagePages (a : Attrs) : Nat := a.stagingMiB * 256

/-- Tiles of the codebook, the centroids and the directory. -/
def bookTiles (a : Attrs) : Nat :=
  if a.codebookSource = 0 then max 1 (ceilDiv (2 * (bookElems a + a.listCount * dpad a)) 65536) else 1

/-- Copies that an ID map entry names. -/
def copiesOf (c : Collection) (e : IdEntry) : Nat :=
  match e.staged.bind (Tab.get? c.staging ·) with
  | some x => x.lists.length
  | none => e.slots.length

/-- Pages of 8,192 entries that the ID map uses, and from 2^21 up those of the map of spill copies (R65). -/
def idPagesUsed (c : Collection) : List Nat :=
  (c.idMap.flatMap fun (v, e) =>
    let p := v % 2 ^ 34 / 8192
    if 1 < copiesOf c e then [p, 2 ^ 21 + p] else [p]).eraseDups

/-- A page of the ID map takes a tile of INDEX when the first of its entries is used; none when T2 has no room for them all (R65; DEDUCED, log
entry 39). -/
def growIdMap (s : State) (i : Nat) : Option State :=
  match s.coll? i with
  | none => some s
  | some c =>
    let new := (idPagesUsed c).filter fun p => !Tab.has c.idPages p
    match addTiles new.length s i .index with
    | some (ts, s) => some (s.modColl i fun c => { c with
        idPages := (new.zip ts).foldl (fun m (p, t) => Tab.set m p t) c.idPages, indexTiles := c.indexTiles ++ ts })
    | none => none

/-- The pages of the ID map and the blocks of slot i's segments that are now in use have their place; none when T2 has no room for them. -/
def growIndex (s : State) (i : Nat) : Option State := (growIdMap s i).bind fun s => growBlocks s i

/-- A restored collection holds its book, directory and ID map tiles again, and its staging buffer where its INDEX is to lie in T2. -/
def holdIndex (s : State) (i : Nat) (parked : Bool) : State :=
  match s.coll? i with
  | none => s
  | some c =>
    let s := match addTiles (bookTiles c.attrs) s i .index with
      | some (ts, s) => s.modColl i fun c => { c with indexTiles := c.indexTiles ++ ts }
      | none => s
    let s := (growIndex s i).getD s
    if parked then s
    else match takePages s (stagePages c.attrs) 16 with
      | some (p, s) => s.modColl i fun c => { c with stage := some (p, stagePages c.attrs) }
      | none => s

/-- Restores a collection's contents from its image and journal, at its durable ceiling (R185): the control line is new, the LOCAL
counter stands at its recorded ceiling (R674). Without image and journal it is not restored, and its GENERATION advances
(DEDUCED, log entry 70). -/
def restoreColl (s : State) (i : Nat) : State :=
  match s.coll? i with
  | none => s
  | some c =>
    match c.image with
    | none =>
      let old := handleOf c.gen i
      let s := dropTiles s (collTiles c ++ maintTiles c)
      let waiting := (s.cmds.filter fun (_, x) => x.stage == .waiting && onColl i x && eHandle x.entry == old.toNat).map (·.1)
      let s := failAll { s with colls := Tab.erase s.colls i } waiting .noCollection {}
      objectLog s kindLostObject old 0 0 (lostDetail old.toNat .index 2 0)
    | some img =>
      let parked := c.residency = .parkedT3 ∨ c.residency = .parkedT4 ∨ c.residency = .waking
      let s := dropTiles s (collTiles c ++ maintTiles c)
      let dir : DirVersion :=
        { number := (latestDir c).number + 1, segs := [], limits := [], cbGen := img.cbGen, listCount := img.attrs.listCount
          fromEpoch := 0 }
      let new : Collection :=
        { gen := c.gen, deleting := c.deleting.map fun _ => noCmd, attrs := { img.attrs with retainFloor := img.attrs.retainFloor.map fun _ => c.durableCeiling }
          members := c.members
          published := c.durableCeiling, ceiling := c.durableCeiling, durableCeiling := c.durableCeiling
          nextLocal := if c.attrs.hostIds then c.nextLocal else c.idCeiling, idCeiling := c.idCeiling
          codebook := img.codebook, centroids := img.centroids, cbGen := img.cbGen, dirs := [dir]
          image := some img, embed := c.embed, cross := c.cross, keepTokens := c.keepTokens }
      let s := holdIndex (loadImage { s with colls := Tab.set s.colls i new } i img) i (decide parked)
      let s := if parked then
          (((s.coll? i).map fun c => Tab.keys c.segs ++ c.indexTiles).getD []).foldl (fun s t =>
            let e := s.tile t
            setTile (givePages s (e.location * 16) 16) t { e with tier := 4, location := t4Loc (img.tiles.headD 0) })
            (s.modColl i fun c => { c with residency := .parkedT4, pinIndex := { c.pinIndex with evicted := true } })
        else s
      objectLog s kindLostObject (handleOf c.gen i) img.epoch c.durableCeiling (lostDetail (handleOf c.gen i).toNat .index 1 0)

/-- Advances a slot's GENERATION (R47): every command that is not admitted and names the old handle ends with NO_COLLECTION (R634). -/
def advanceGen (s : State) (i : Nat) : State :=
  match s.coll? i with
  | none => s
  | some c =>
    let old := handleOf c.gen i
    let s := { s with gens := Tab.set s.gens i (nextGen c.gen) }
    let s := s.modColl i fun c => { c with gen := nextGen c.gen }
    let waiting := (s.cmds.filter fun (_, x) => x.stage == .waiting && onColl i x && eHandle x.entry == old.toNat).map (·.1)
    failAll s waiting .noCollection {}

/-- The restore of R634, once the firmware runs: contents, then GENERATION, then the entry that names the new handle and the durable
epoch. -/
def restoreLine (s : State) (i : Nat) : State :=
  match s.coll? i with
  | none => s
  | some c =>
    if !c.restoring then s
    else
      let e := (c.image.map (·.epoch)).getD 0
      let s := advanceGen (restoreColl (dropStage s i) i) i
      let h := collHandle s i
      objectLog s kindCache h e 0 (h.toNat + e * 2 ^ 32)

/-- An uncorrectable control line (R634): every admitted command of the collection ends with DATA_ERROR, and the restore begins as
soon as the firmware serves. -/
def controlLineLost (s : State) (i a : Nat) : State :=
  match s.coll? i with
  | none => s
  | some _ =>
    let cs := (s.cmds.filter fun (_, x) => x.stage == .admitted && onColl i x).map (·.1)
    let z : Cause := { kind := kindCache, loc := a, detail := 0 }
    let s := oneEvent s true z fun s => failAll s cs .dataError z
    let s := s.modColl i fun c => { c with restoring := true }
    if fwServes s then restoreLine s i else s

end Sys2Proof.Machine
end

