-- ==== Sys2Proof/Machine/Movement.lean ====
section
/-! DEFINITION. Boulevards (R319 to R348): arming, rings, descriptors, pieces and their completion; the rows of host translation
that pieces wait on (R371 to R383); and the host's completions (R455). -/

namespace Sys2Proof.Machine

open Sys2Proof

/-! ## Descriptors (R327 to R329) -/

/-- A descriptor from its 64 bytes. -/
def readDesc (l : List Byte) : Desc :=
  { opcode := field l 0 1, notify := bitOf (field l 1 1) 0, order := bitOf (field l 1 1) 1, endOfJob := bitOf (field l 1 1) 2
    srcHint := bitsOf (field l 2 1) 1 0, dstHint := bitsOf (field l 2 1) 3 2
    srcSpace := bitsOf (field l 3 1) 2 0, dstSpace := bitsOf (field l 3 1) 6 4
    length := field l 4 4, srcAddr := field l 8 8, dstAddr := field l 0x10 8, srcSel := field l 0x18 2, dstSel := field l 0x1A 2
    jobTag := field l 0x1C 4, pattern := BitVec.ofNat 64 (field l 0x20 8), rows := field l 0x28 2
    srcStride := field l 0x2C 4, dstStride := field l 0x30 4
    reservedZero := bitsOf (field l 1 1) 7 3 == 0 && bitsOf (field l 2 1) 7 4 == 0 && !bitOf (field l 3 1) 3 && !bitOf (field l 3 1) 7
      && field l 0x2A 2 == 0 && field l 0x34 12 == 0 }

/-- A selector and the rows of one side lie in their space (R328, R329). -/
def sideOk (s : State) (q space sel addr len rows stride : Nat) : Bool :=
  match space with
  | 0 => decide (sel < 4096)
  | 1 => sel == 0
  | 2 => decide (sel < 16384)
  | 3 => decide (sel < 64) && !(s.core (q * 64 + sel)).absent && decide (addr + (rows - 1) * stride + len ≤ 0x40000)
  | _ => false

/-- A descriptor is valid (R329). -/
def descOk (s : State) (q : Nat) (d : Desc) : Bool :=
  let srcZero := d.srcSpace == 0 && d.srcAddr == 0 && d.srcSel == 0 && d.srcStride == 0 && d.srcHint == 0
  let dstZero := d.dstSpace == 0 && d.dstAddr == 0 && d.dstSel == 0 && d.dstStride == 0 && d.dstHint == 0
  let size := decide (1 ≤ d.length) && decide (d.length ≤ 16777216) && decide (1 ≤ d.rows) && decide (d.rows ≤ 4096)
    && decide (d.rows * d.length ≤ 268435456)
  let strideOk := d.rows == 1 || decide (d.length ≤ d.dstStride)
  d.reservedZero && d.srcHint != 3 && d.dstHint != 3 &&
  match d.opcode with
  | 1 => size && strideOk && d.pattern == 0
      && sideOk s q d.srcSpace d.srcSel d.srcAddr d.length d.rows d.srcStride
      && sideOk s q d.dstSpace d.dstSel d.dstAddr d.length d.rows d.dstStride
  | 2 => size && strideOk && srcZero && sideOk s q d.dstSpace d.dstSel d.dstAddr d.length d.rows d.dstStride
  | 3 => srcZero && dstZero && d.length == 0 && d.rows == 0 && d.pattern == 0
  | _ => false

/-- The address whose 2 KiB boundaries cut a row (R330). -/
def cutAddr (d : Desc) (src dst : Nat) : Nat :=
  if d.opcode = 2 then dst
  else if d.srcSpace = 0 then src
  else if d.dstSpace = 0 then dst
  else if d.srcSpace = 3 then src
  else if d.dstSpace = 3 then dst
  else src

/-- The pieces of one row from offset o (R330); the fuel bounds their number. -/
def rowPieces (d : Desc) (src dst : Nat) : Nat → Nat → List PieceSpec
  | 0, _ => []
  | f + 1, o =>
    if d.length ≤ o then []
    else
      let n := min (d.length - o) (2048 - (cutAddr d src dst + o) % 2048)
      { srcSpace := if d.opcode = 2 then 4 else d.srcSpace, srcSel := d.srcSel, src := src + o
        dstSpace := d.dstSpace, dstSel := d.dstSel, dst := dst + o, len := n
        fill := if d.opcode = 2 then some d.pattern else none } :: rowPieces d src dst f (o + n)

/-- All pieces of a descriptor, row by row (DEDUCED, log entry 120). -/
def descPieces (d : Desc) : List PieceSpec :=
  (List.range d.rows).flatMap fun r => rowPieces d (d.srcAddr + r * d.srcStride) (d.dstAddr + r * d.dstStride) (d.length / 2048 + 2) 0

/-! ## Completion of descriptors (R331, R346, R347) -/

def ringSize (x : Stream) : Nat := 2 ^ x.sizeLog2
def ringNext (x : Stream) (i : Nat) : Nat := (i + 1) % ringSize x

/-- Takes the ring and the fields of an ARM (R335). -/
def armFields (x : Stream) (o : Owner) (a : ArmStream) : Stream :=
  { x with
    state := .armed, base := a.base, region := a.region, owner := o, prio := a.prio, hostPort := a.hostPort
    hostRing := a.hostRing, sizeLog2 := a.sizeLog2, tail := a.tail, fetch := 0, head := 0, buffered := [], active := []
    errCode := 0, errDesc := 0, rearm := none }

/-- Completes the oldest descriptors whose pieces are all done, in ring order; stops at one that has failed (R331, R346). A stream
that has nothing left sets DONE; a queued re-arm then takes effect (R339). -/
def settleStream : Nat → State → Nat → Nat → State
  | 0, s, _, _ => s
  | f + 1, s, q, n =>
    let x := s.stream q n
    match x.active with
    | a :: rest =>
      if a.todo.isEmpty && a.flying == 0 && a.failed.isNone && x.state != .stopping then
        let s := s.modStream q n fun x => { x with active := rest, head := ringNext x x.head, count := x.count + 1 }
        let s := if a.desc.notify then
            { s with events := s.events ++ [{ quarter := q, stream := n, owner := x.owner, jobTag := a.desc.jobTag, errCode := 0 }] }
          else s
        settleStream f s q n
      else s
    | [] =>
      match x.rearm with
      | some r =>
        if x.state = .draining ∨ x.state = .armed then
          s.modStream q n fun x => { armFields { x with done := true } x.owner r with armResult := x.armResult }
        else s
      | none =>
      if x.state = .armed ∧ x.head = x.tail then s.modStream q n fun x => { x with done := true }
      else s

/-- The status that an error code ends a request with (R345). -/
def errStatus : Nat → Status
  | 1 => .invalidField
  | 2 => .accessError
  | 3 => .hostFault
  | 4 => .dataError
  | 5 => .peerLost
  | _ => .hostAbort

/-- The KIND of such a failure (R628). -/
def errKind : Nat → Nat
  | 3 | 6 => kindHost
  | 4 => kindHbmData
  | 5 => kindPeer
  | _ => kindCore

/-- What the log says of a transfer that failed with an error code at an address of a space (R628); `other` where the failure has no place there. -/
def moveCause (s : State) (p : PortId) (code space sel addr : Nat) (other : Cause) : Cause :=
  match errKind code, space with
  | 8, 1 => { kind := kindHost, loc := addr, detail := portNum p }
  | 1, _ => hbmCause s addr
  | 9, 2 => peerCause (outWindow s sel).target sel 0
  | _, _ => other

/-- The owner of a failed descriptor's stream ends the request of its job (R345). JOB_TAG is the number of a batch where a batch scheduler owns the
stream, of a command where a queue engine or a square does (DESIGN CHOICE, log entry 150: the manual calls it the owner's identifier). -/
def ownerEnds (s : State) (o : Owner) (tag code : Nat) (z : Cause) : State :=
  match o with
  | .firmware => s
  | .scheduler => match Tab.get? s.batches tag with
    | some b => if b.launched then endBatch s tag (errStatus code) z else s
    | none => s
  | _ => match s.cmd? tag with
    | some c => if c.stage == .admitted then fail s tag (errStatus code) z else s
    | none => s

/-- A descriptor fails: the stream enters ERROR, issues nothing more, and its owner hears of it (R345 to R347). -/
def failDesc (s : State) (q n index code : Nat) : State :=
  let x := s.stream q n
  let s := s.modStream q n fun x => { x with
    state := if x.state = .stopping then x.state else .error
    error := true, errCode := code, errDesc := index
    active := x.active.map fun a =>
      let a := if a.index = index then { a with failed := some code } else a
      { a with todo := [] } }
  match x.active.find? fun a => a.index == index with
  | some a => if a.desc.notify then
      { s with events := s.events ++ [{ quarter := q, stream := n, owner := x.owner, jobTag := a.desc.jobTag, errCode := code }] }
    else s
  | none => s

/-- A descriptor fails, and the request of its job ends (R345). -/
def failJob (s : State) (q n index code : Nat) (z : Cause) : State :=
  let x := s.stream q n
  let s := failDesc s q n index code
  match x.active.find? fun a => a.index == index with
  | some a => ownerEnds s x.owner a.desc.jobTag code z
  | none => s

/-- A fetched descriptor that is invalid fails once every earlier one has completed (R329). -/
def checkBuffered (s : State) (q n : Nat) : State :=
  let x := s.stream q n
  match x.buffered, x.active with
  | (i, d) :: rest, [] =>
    if x.state = .armed ∧ !descOk s q d then
      failJob (s.modStream q n fun x => { x with
        buffered := rest, active := [{ index := i, desc := d, todo := [], flying := 0, failed := none }] }) q n i 1
        { kind := kindCommand, loc := 0, detail := i }
    else s
  | _, _ => s

/-- Both. -/
def settle (s : State) (q n : Nat) : State := checkBuffered (settleStream 64 s q n) q n

/-! ## Arming (R334 to R340) -/

/-- The fields of one stream of an ARM are in range (R324, R333). -/
def armStreamOk (a : ArmStream) : Bool :=
  okStream a.stream && decide (4 ≤ a.sizeLog2) && decide (a.sizeLog2 ≤ 16) && aligned a.base 1024 && decide (a.base < 2 ^ 48)
    && decide (a.region < 4096) && decide (a.prio < 4) && decide (a.tail < 2 ^ a.sizeLog2)

/-- The blocks of T1 that one slice can grant are 2 to 47, 46 of them (R253). A pair buffer in T1 takes its units' blocks one after another from its
first, over slices in order of number (DESIGN CHOICE, log entry 149). -/
def pairBlocks (b : PairBuffer) : List (Nat × Nat) :=
  if b.inT1 then (List.range b.units).map fun i => (b.slice + (b.block - 2 + i) / 46, 2 + (b.block - 2 + i) % 46) else []

/-- The buffer of a pair is in range: 1 to 256 units of 64 KiB in T1, or in a local store of the engine's quarter (R334). -/
def pairBufOk (q : Nat) (b : PairBuffer) : Bool :=
  decide (1 ≤ b.units) && decide (b.units ≤ 256) &&
    (if b.inT1 then decide (2 ≤ b.block) && decide (b.block < 48) && (pairBlocks b).all fun x => decide (x.1 < 64)
     else decide (b.slice / 64 = q) && decide (b.units * 65536 ≤ 0x40000))

/-- The whole buffer can be reserved now: its blocks are free, or the local store has the space beside other pairs' buffers (R335). -/
def pairFree (s : State) (b : PairBuffer) : Bool :=
  if b.inT1 then (pairBlocks b).all fun x => blockFree s x.1 x.2
  else
    let held := (List.range 16).map fun n =>
      let x := s.stream (b.slice / 64) n
      match x.pair with
      | some (_, y) => if x.isFill && !y.inT1 && y.slice == b.slice then y.units else 0
      | none => 0
    decide (held.foldl (· + ·) b.units ≤ 4)

/-- Whether every field of an ARM is in range. -/
def armOk (q : Nat) (a : ArmReq) : Bool :=
  armStreamOk a.fill && (match a.drain with
    | none => true
    | some (d, b) => armStreamOk d && d.stream != a.fill.stream && pairBufOk q b)

/-- Sets ARM_RESULT of every stream an ARM names (R336). -/
def armResult (s : State) (q : Nat) (a : ArmReq) (code : Nat) : State :=
  let s := s.modStream q a.fill.stream fun x => { x with armResult := code }
  match a.drain with
  | some (d, _) => s.modStream q d.stream fun x => { x with armResult := code }
  | none => s

/-- Grants an ARM: the buffer is reserved, and every named stream is ARMED (R335). -/
def grantArm (s : State) (q : Nat) (a : ArmReq) : State :=
  match a.drain with
  | none => s.modStream q a.fill.stream fun x => { armFields x a.owner a.fill with pair := none, isFill := false }
  | some (d, b) =>
    let s := (pairBlocks b).foldl (fun s k => grantBlock s k.1 k.2 (.pairBuffer q a.fill.stream)) s
    let s := s.modStream q a.fill.stream fun x =>
      { armFields x a.owner a.fill with pair := some (d.stream, b), isFill := true, fullCells := 0 }
    s.modStream q d.stream fun x => { armFields x a.owner d with pair := some (a.fill.stream, b), isFill := false }

/-- A re-arm names the reservation that the stream has, which is its owner's (R319, R339). -/
def sameReservation (x : Stream) (a : ArmReq) : Bool :=
  x.owner == a.owner && match a.drain with
  | none => x.pair == none
  | some (d, b) => x.pair == some (d.stream, b)

/-- Every descriptor of a stream has completed. -/
def streamIdle (x : Stream) : Bool := x.active.isEmpty && x.buffered.isEmpty && x.head == x.tail

/-- A re-arm of one stream: at once where it has nothing left, else queued (R339) (DEDUCED, log entry 17). -/
def rearmStream (s : State) (q : Nat) (o : Owner) (a : ArmStream) : State :=
  s.modStream q a.stream fun x =>
    if streamIdle x then { armFields x o a with pair := x.pair, isFill := x.isFill, fullCells := x.fullCells }
    else { x with state := .draining, rearm := some a }

/-- ARM (R335, R336, R339, R340). -/
def armEffect (s : State) (q : Nat) (a : ArmReq) : State :=
  let f := s.stream q a.fill.stream
  let drains : List Stream := match a.drain with | some (d, _) => [s.stream q d.stream] | none => []
  if !armOk q a then armResult s q a 5
  else if (f :: drains).any fun x => x.state == .draining then armResult s q a 3
  else if (f :: drains).all fun x => x.state == .idle then
    if (match a.drain with | some (_, b) => pairFree s b | none => true)
    then armResult (grantArm s q a) q a 1 else armResult s q a 4
  else if (f :: drains).all fun x => x.state == .armed then
    if !sameReservation f a then armResult s q a 5
    else
      let code := if (f :: drains).all streamIdle then 1 else 2
      let s := rearmStream s q a.owner a.fill
      let s := match a.drain with | some (d, _) => rearmStream s q a.owner d | none => s
      armResult s q a code
  else armResult s q a 4

def execStreamArm (q : Nat) (a : ArmReq) (s : State) : Host.Outcome State Fault Refusal :=
  occurs (live s && okQuarter q && okStream a.fill.stream && (s.quarter q).inService) (armEffect s q a) s

/-- A stopped stream with nothing in flight is IDLE; it holds no reservation, a pair's buffer once both are (R338). -/
def releaseStream (s : State) (q n : Nat) : State :=
  let x := s.stream q n
  if x.state = .stopping ∧ (x.active.all fun a => a.flying == 0) then
    let s : State := match x.pair with
      | some (m, b) => if (s.stream q m).state = .idle then (pairBlocks b).foldl (fun s k => releaseBlock s k.1 k.2) s else s
      | none => s
    s.modStream q n fun x => { x with state := .idle, active := [], buffered := [], rearm := none, pair := none, fullCells := 0 }
  else s

/-- STOP of one stream: issue ends, the queued re-arm is gone, pieces in flight complete unreported (R338). -/
def stopOne (s : State) (q n : Nat) : State :=
  let s := s.modStream q n fun x =>
    if x.state = .idle then x
    else { x with state := .stopping, rearm := none, buffered := [], active := x.active.map fun a => { a with todo := [] } }
  releaseStream s q n

/-- STOP on either stream of a pair stops both (R338). -/
def stopEffect (s : State) (q n : Nat) : State :=
  match (s.stream q n).pair with
  | some (m, _) => stopOne (stopOne s q n) q m
  | none => stopOne s q n

/-- STREAM_STOP by the owner (R319). -/
def execStreamStop (q : Nat) (w : StreamWrite) (s : State) : Host.Outcome State Fault Refusal :=
  occurs (live s && okQuarter q && okStream w.stream && (s.stream q w.stream).state != .idle && (s.stream q w.stream).owner == w.by_)
    (stopEffect s q w.stream) s

/-- The descriptors an ERROR stream knows of from the failed one on, oldest first. -/
def knownDescs (x : Stream) : List (Nat × Desc) := x.active.map (fun a => (a.index, a.desc)) ++ x.buffered

/-- RESUME (R346): HEAD moves to the descriptor after the next one with END_OF_JOB, and the stream is ARMED. While no fetched
descriptor carries END_OF_JOB the stream drops what it has and stays in ERROR, and fetching goes on (DEDUCED, log entry 18). -/
def resumeEffect (s : State) (q n : Nat) : State :=
  let x := s.stream q n
  let ds := knownDescs x
  match ds.find? fun (_, d) => d.endOfJob with
  | some (i, _) =>
    let rest := (ds.dropWhile fun (j, _) => j != i).drop 1
    settle (s.modStream q n fun x => { x with state := .armed, head := ringNext x i, active := [], buffered := rest }) q n
  | none =>
    s.modStream q n fun x => { x with
      head := x.fetch, active := [], buffered := [], state := if x.fetch = x.tail then .armed else .error }

/-- STREAM_RESUME by the owner (R319). -/
def execStreamResume (q : Nat) (w : StreamWrite) (s : State) : Host.Outcome State Fault Refusal :=
  occurs (live s && okQuarter q && okStream w.stream && (s.stream q w.stream).state == .error && (s.stream q w.stream).owner == w.by_
    && (s.stream q w.stream).active.all fun a => a.flying == 0) (resumeEffect s q w.stream) s

/-- RING_TAIL: the owner extends the valid descriptors within the ring (R319, R324, R325); while the stream is IDLE the register takes what is
written (R15). -/
def execRingTailWrite (q : Nat) (w : StreamWrite) (tail : Nat) (s : State) : Host.Outcome State Fault Refusal :=
  let x := s.stream q w.stream
  occurs (live s && okQuarter q && okStream w.stream && decide (tail < 65536)
      && (x.state == .idle || (x.owner == w.by_ && decide (tail < ringSize x))))
    (s.modStream q w.stream fun x => { x with tail := tail }) s

/-! ## Fetching descriptors (R326) -/

/-- How many descriptors the next fetch reads: up to the boundary of 1,024 bytes and up to TAIL. -/
def fetchCount (x : Stream) : Nat := min (16 - x.fetch % 16) (ringDist (ringSize x) x.fetch x.tail)

/-- The bytes of a fetch: from the ring in device memory, through its region entry, or as the host returned them. -/
def fetchBytes (s : State) (x : Stream) (bytes : List Byte) : Option (List Byte) :=
  if x.hostRing then some bytes else devRead s (x.base + 64 * x.fetch) (64 * fetchCount x)

/-- A fetch: the descriptors enter the stream's buffer; a ring outside its region entry, or an unreadable one, fails the descriptor
that was to come (R324, R345). -/
def fetchEffect (s : State) (q n : Nat) (bytes : List Byte) : State :=
  let x := s.stream q n
  let k := fetchCount x
  let badAt (code : Nat) : State :=
    s.modStream q n fun x => { x with state := .error, error := true, errCode := code, errDesc := x.fetch }
  if !x.hostRing && !passes (s.region x.region) (x.base + 64 * x.fetch) (64 * k) .read then badAt 2
  else match fetchBytes s x bytes with
    | none => badAt 4
    | some l =>
      let ds := (List.range k).map fun i => ((x.fetch + i) % ringSize x, readDesc ((l.drop (64 * i)).take 64))
      settle (s.modStream q n fun x => { x with buffered := x.buffered ++ ds, fetch := (x.fetch + k) % ringSize x }) q n

def execDescriptorFetch (q n : Nat) (bytes : List Byte) (s : State) : Host.Outcome State Fault Refusal :=
  let x := s.stream q n
  occurs (live s && okQuarter q && okStream n && (x.state == .armed || x.state == .error) && decide (x.buffered.length ≤ 16)
    && decide (0 < fetchCount x) && (!x.hostRing || bytes.length == 64 * fetchCount x)) (fetchEffect s q n bytes) s

/-! ## Starting a descriptor -/

/-- The next buffered descriptor may start: it is of the opcode, it is valid, and with ORDER every earlier one has completed (R332). -/
def mayStart (s : State) (q n op : Nat) : Bool :=
  let x := s.stream q n
  x.state == .armed &&
    match x.buffered with
    | (_, d) :: _ => d.opcode == op && descOk s q d && (!d.order || x.active.isEmpty)
    | [] => false

/-- Starts it: its pieces are ready to issue (R330). -/
def startDesc (s : State) (q n : Nat) : State :=
  let x := s.stream q n
  match x.buffered with
  | (i, d) :: rest =>
    settle (s.modStream q n fun x => { x with
      buffered := rest
      active := x.active ++ [{ index := i, desc := d, todo := descPieces d, flying := 0, failed := none }] }) q n
  | [] => s

/-- COPY moves rows from source to destination; FILL repeats a pattern; MARKER completes when every earlier descriptor has (R327,
R347). -/
def execCopy (q n : Nat) (s : State) : Host.Outcome State Fault Refusal :=
  occurs (live s && okQuarter q && okStream n && mayStart s q n 1) (startDesc s q n) s
def execFill (q n : Nat) (s : State) : Host.Outcome State Fault Refusal :=
  occurs (live s && okQuarter q && okStream n && mayStart s q n 2) (startDesc s q n) s
def execMarker (q n : Nat) (s : State) : Host.Outcome State Fault Refusal :=
  occurs (live s && okQuarter q && okStream n && mayStart s q n 3) (startDesc s q n) s

/-! ## Issuing a piece (R322, R334, R341, R342) -/

/-- Whether an engine tag and port tags are free for a piece of a priority (R341, R342). -/
def engineTagFree (s : State) (q prio : Nat) : Bool := decide ((s.engine q).tags < if prio = 0 then 512 else 448)
def portTagsFree (used need prio : Nat) : Bool := decide (used + need ≤ if prio = 0 then 1024 else 896)

/-- Cells of a pair buffer, and pieces of a stream in flight. -/
def pairCells (b : PairBuffer) : Nat := b.units * 32
def inFlight (x : Stream) : Nat := (x.active.map (·.flying)).foldl (· + ·) 0

/-- The cell that a piece of a pair needs is free, or full (R334). -/
def cellReady (s : State) (q n : Nat) : Bool :=
  let x := s.stream q n
  match x.pair with
  | none => true
  | some (m, b) =>
    if x.isFill then decide (x.fullCells + inFlight x < pairCells b)
    else decide (inFlight x < (s.stream q m).fullCells)

/-- The port tags a piece needs on its host port. -/
def hostTags (s : State) (p : PortId) (k : PieceSpec) : Nat :=
  max (if k.srcSpace = 1 then (hostPieces s p false k.src k.len).length else 0)
    (if k.dstSpace = 1 then (hostPieces s p true k.dst k.len).length else 0)

/-- The region and window checks of both sides of a piece (R364, R384). -/
def pieceChecks (s : State) (k : PieceSpec) : Bool :=
  (k.srcSpace != 0 || (passes (s.region k.srcSel) k.src k.len .read))
    && (k.dstSpace != 0 || (passes (s.region k.dstSel) k.dst k.len .write))
    && (k.srcSpace != 2 || outWindowOk s k.srcSel k.src k.len .read)
    && (k.dstSpace != 2 || outWindowOk s k.dstSel k.dst k.len .write)

/-- A fill pattern over n bytes from offset o of a row (R327: repeated from DST_ADDR). -/
def fillBytes (p : BitVec 64) (n : Nat) : List Byte := (List.range n).map fun i => BitVec.ofNat 8 (p.toNat >>> (8 * (i % 8)))

/-- The data of a piece is at hand: to peer memory it is sent at once, elsewhere it waits for PIECE_COMPLETE. -/
def haveData (s : State) (n : Nat) (b : List Byte) : State :=
  let s := { s with pieces := Tab.adjust s.pieces n fun x => { x with data := some b } }
  match Tab.get? s.pieces n with
  | some x => if x.spec.dstSpace = 2 then peerWrite s x.spec.dstSel x.spec.dst b (.piece n) else s
  | none => s

/-- Sends a piece whose translations are at hand: the reads of host or peer memory go out; a device, local or filled source has its
data now (R261, R332). An unreadable source fails with DATA_ERROR (R345). -/
def sendPiece (s : State) (n : Nat) : State :=
  match Tab.get? s.pieces n with
  | none => s
  | some x =>
    let k := x.spec
    let p := (s.stream x.quarter x.stream).hostPort
    let s := { s with pieces := Tab.adjust s.pieces n fun y =>
      { y with state := .issued, gen := (s.port p).xlt.gen, portTags := hostTags s p k } }
    let s := s.modPort p fun y => { y with tags := y.tags + hostTags s p k }
    match k.srcSpace with
    | 1 =>
      sendReads s p n k.src k.len
    | 2 => peerRead s k.srcSel k.src k.len (.piece n)
    | 3 => haveData s n (localRead s (x.quarter * 64 + k.srcSel) k.src k.len)
    | 0 =>
      let (s, d) := pieceGet s k.src k.len (match (s.stream x.quarter x.stream).active.find? fun a => a.index == x.index with
        | some a => hintOf a.desc.srcHint
        | none => .keep)
      match d with
      | some b => haveData s n b
      | none => pieceErr s n 4
    | _ => haveData s n (fillBytes (k.fill.getD 0) k.len)

/-- A host side is looked up before a piece goes out: a hit sends it, a miss waits in the miss buffer for its block, a lacking right
faults (R367, R371 to R373). -/
def routePiece (s : State) (n : Nat) : State :=
  match Tab.get? s.pieces n with
  | none => s
  | some x =>
    let k := x.spec
    let p := (s.stream x.quarter x.stream).hostPort
    if k.srcSpace = 1 ∨ k.dstSpace = 1 then
      let (b, w) := pieceHost k
      let (a, r) := xltRange s p b k.len w
      let s := countLookup s p r
      match r with
      | .pass => sendPiece s n
      | .miss => askTranslation { s with pieces := Tab.adjust s.pieces n fun y => { y with state := .missed } } p a n
      | .noRight => pieceFault s p n a w
    else sendPiece s n

/-- An access that waits in the miss buffer: a piece's or an alley transfer's, none of the queue engine's (R372). -/
def inMissBuffer (n : Nat) : Bool := match askerOf n with | .piece _ | .alley _ => true | _ => false

/-- What waits in a port's miss buffer: on a request that is outstanding, or to ask (R372). -/
def missed (x : Xlt) : Nat := ((x.reqs.flatMap fun r => r.waiters) ++ x.asks.map (·.2)).countP inMissBuffer

/-- The miss buffer of a port holds 256 pieces, and 64 requests are outstanding at most (R371, R372). -/
def missRoom (s : State) (p : PortId) (a n : Nat) (w : Bool) : Bool :=
  let (a, r) := xltRange s p a n w
  if r = .miss then
    decide (missed (s.port p).xlt < 256)
      && ((s.port p).xlt.reqs.any (fun r => r.block == blk a && !r.stale) || decide ((s.port p).xlt.reqs.length < 64))
  else true

/-- Whether a piece can go out now: its tags, its ports and its misses have room. -/
def pieceRoom (s : State) (q n : Nat) (k : PieceSpec) : Bool :=
  let x := s.stream q n
  engineTagFree s q x.prio && cellReady s q n
    && (k.srcSpace != 1 || (portTagsFree (s.port x.hostPort).tags (hostTags s x.hostPort k) x.prio && missRoom s x.hostPort k.src k.len false))
    && (k.dstSpace != 1 || (portTagsFree (s.port x.hostPort).tags (hostTags s x.hostPort k) x.prio && missRoom s x.hostPort k.dst k.len true))
    && (k.srcSpace != 2 || portTagsFree (s.link ((linkTo s (outWindow s k.srcSel).target).getD 0)).tags 1 x.prio)
    && (k.dstSpace != 2 || portTagsFree (s.link ((linkTo s (outWindow s k.dstSel).target).getD 0)).tags 1 x.prio)

/-- The next piece of a stream: of the oldest descriptor with pieces to issue. -/
def nextPieceOf (x : Stream) : Option (Active × PieceSpec) :=
  x.active.findSome? fun a => match a.todo with | k :: _ => some (a, k) | [] => none

/-- Takes a piece off its descriptor. -/
def takePiece (s : State) (q n index : Nat) : State :=
  s.modStream q n fun x => { x with
    tags := x.tags + 1
    active := x.active.map fun a => if a.index = index then { a with todo := a.todo.drop 1, flying := a.flying + 1 } else a }

/-- Streams of a quarter with a piece that could go out now. -/
def readyStreams (s : State) (q : Nat) : List Nat :=
  (List.range 16).filter fun m =>
    let x := s.stream q m
    (x.state == .armed || x.state == .draining) && match nextPieceOf x with
      | some (_, k) => pieceRoom s q m k
      | none => false

/-- The stream of a priority that an engine serves next: round robin in stream number order (R322). -/
def streamAt (s : State) (q prio : Nat) (l : List Nat) : Option Nat :=
  let mine := l.filter fun m => (s.stream q m).prio == prio
  match Tab.get? (s.engine q).last prio with
  | some k => (mine.find? fun m => decide (k < m)).or mine.head?
  | none => mine.head?

/-- The stream whose piece an engine issues next, with the turns that remain: priority 0 first, then 1, 2 and 3 by weighted round robin (R322). -/
def nextStream (s : State) (q : Nat) : Option (Nat × List Nat) :=
  let l := readyStreams s q
  match streamAt s q 0 l with
  | some m => some (m, (s.engine q).turns)
  | none => match pickTurn (fun p => l.any fun m => (s.stream q m).prio == p) (s.engine q).turns with
    | some (p, t) => (streamAt s q p l).map fun m => (m, t)
    | none => none

/-- A tag of the transfer's port is free (R342). -/
def alleyTag (s : State) (x : Alley) : Bool :=
  match x.space with
  | 0 => true
  | 1 => portTagsFree (s.port x.port).tags (alleyTags s x) x.prio
  | _ => portTagsFree (s.link ((linkTo s (outWindow s x.sel).target).getD 0)).tags 1 x.prio

/-- The crossing takes a piece: no alley transfer of a lower level number waits there, and of one level the boulevard has three slots in four while
the alley port waits (R355). -/
def pieceCrosses (s : State) (q prio : Nat) : Bool :=
  s.alleys.all fun (k, y) =>
    k / 4096 != q || y.waits.isNone || !alleyTag s y || decide (prio < y.prio) || (y.prio == prio && decide ((s.engine q).share < 3))

/-- A piece that leaves a quarter for its destination, or comes to it from its source, passes the quarter's crossing. -/
def crossPiece (s : State) (q : Nat) (k : PieceSpec) : State :=
  let s := if k.srcSpace < 3 then passCrossing s q false k.len else s
  if k.dstSpace < 3 then passCrossing s q true k.len else s

/-- PIECE_ISSUE: the stream's next piece goes out under one engine tag; one that fails its checks fails its descriptor with
REGION_VIOLATION (R341, R345, R364, R384). -/
def pieceIssueEffect (s : State) (q n : Nat) : State :=
  let x := s.stream q n
  match nextPieceOf x with
  | none => s
  | some (a, k) =>
    if !pieceChecks s k then failJob s q n a.index 2 { kind := kindCommand, loc := 0, detail := a.index }
    else
      let id := s.nextPiece
      let turns := match nextStream s q with | some (_, t) => t | none => (s.engine q).turns
      let s := (takePiece s q n a.index).modEngine q fun e => { e with
        tags := e.tags + 1, peak := max e.peak (e.tags + 1), turns := turns, last := Tab.set e.last x.prio n, share := min 3 (e.share + 1) }
      let s := crossPiece s q k
      let s := { s with
        nextPiece := id + 1
        pieces := Tab.set s.pieces id
          { quarter := q, stream := n, index := a.index, spec := k, state := .issued, gen := 0, replays := 0, data := none
            err := none, portTags := 0 } }
      routePiece s id

def execPieceIssue (q n : Nat) (s : State) : Host.Outcome State Fault Refusal :=
  occurs (live s && okQuarter q && okStream n && (nextStream s q).map (·.1) == some n && pieceCrosses s q (s.stream q n).prio)
    (pieceIssueEffect s q n) s

/-! ## Completing a piece (R272, R331, R343, R345) -/

/-- Region entries that were freed while pieces used them are gone once none does (R366). -/
def settleDrains (s : State) : State :=
  let done : Table Region := s.protect.regions.filter fun (n, r) => r.draining && !regionBusy s n
  done.foldl (fun s (n, r) => dropRegion s n r) s

/-- Invalidations whose generation has drained are acknowledged (R380). -/
def drainedBefore (s : State) (p : PortId) (gen : Nat) : Bool :=
  (s.pieces.all fun (_, x) => !(x.portTags != 0 && (s.stream x.quarter x.stream).hostPort == p && decide (x.gen < gen)))
    && s.alleys.all fun (_, x) => !(x.space == 1 && x.port == p && x.sent && x.op == 2 && x.err.isNone && decide (x.gen < gen))

/-- Writes a piece's data at its destination (R343). -/
def landPiece (s : State) (x : Piece) (b : List Byte) : State :=
  let k := x.spec
  let st := s.stream x.quarter x.stream
  match k.dstSpace with
  | 0 =>
    if isFlash s k.dst then flashPut s (k.dst - flashBase) b
    else
      let h := match st.active.find? fun a => a.index == x.index with
        | some a => hintOf a.desc.dstHint
        | none => .keep
      devWrite s (.mover x.quarter) k.dst b h
  | 1 =>
    sendWrites s st.hostPort 0 k.dst b
  | 3 => localWrite s (x.quarter * 64 + k.dstSel) k.dst b
  | _ => s

/-- A write of a VECTORS, TOKENS or WEIGHTS tile in T3 makes it DIRTY, and its T4 write follows (R399). -/
def noteT3Write (s : State) (window off : Nat) : State :=
  let loc := window * 2 ^ 23 + off / 65536
  (s.tiers.map.filter fun (_, t) => t.tier == 3 && t.location == loc && t.kind != .index).foldl (fun s (n, t) =>
    s.modTiers fun x => { x with
      map := Tab.set x.map n { t with dirty := true }
      backingQueue := if x.backingQueue.contains n then x.backingQueue else x.backingQueue ++ [n] }) s

/-- What the log says of a piece that failed: the side of it that did (R345, R628). -/
def pieceCause (s : State) (p : PortId) (k : PieceSpec) (code index : Nat) : Cause :=
  let src := match code with
    | 4 => true
    | 5 => k.srcSpace == 2
    | _ => k.srcSpace == 1
  let other : Cause := { kind := kindCommand, loc := 0, detail := index }
  if src then moveCause s p code k.srcSpace k.srcSel k.src other else moveCause s p code k.dstSpace k.dstSel k.dst other

/-- The end of a piece: its tags return, its descriptor has one piece fewer in flight, a failure fails the descriptor. -/
def endPiece (s : State) (n : Nat) (x : Piece) : State :=
  let p := (s.stream x.quarter x.stream).hostPort
  let s := { s with pieces := Tab.erase s.pieces n }
  let s := if x.portTags = 0 then s else s.modPort p fun y => { y with tags := y.tags - x.portTags }
  let s := s.modEngine x.quarter fun e => { e with
    tags := e.tags - 1, bytes := if x.err.isNone then e.bytes + x.spec.len else e.bytes }
  let s := s.modStream x.quarter x.stream fun y => { y with
    tags := y.tags - 1
    fullCells := if y.isFill && x.err.isNone then y.fullCells + 1 else y.fullCells
    active := y.active.map fun a => if a.index = x.index then { a with flying := a.flying - 1 } else a }
  let s := match (s.stream x.quarter x.stream).pair with
    | some (m, _) => if (s.stream x.quarter x.stream).isFill then s
        else s.modStream x.quarter m fun y => { y with fullCells := y.fullCells - 1 }
    | none => s
  let s := match x.err with
    | some code =>
      if (s.stream x.quarter x.stream).active.all fun a => a.failed.isNone then failJob s x.quarter x.stream x.index code (pieceCause s p x.spec code x.index)
      else s
    | none => s
  settleDrains (releaseStream (settle s x.quarter x.stream) x.quarter x.stream)

/-- Whether a piece is ready to end: it has failed, or its data is at hand, its destination accepts it, and it is not to peer memory
(whose acknowledgement ends it, R343). -/
def pieceReady (s : State) (x : Piece) : Bool :=
  x.err.isSome ||
    match x.data with
    | none => false
    | some b => x.spec.dstSpace != 2 && b.length == x.spec.len && x.state == .issued
        && (!(x.spec.dstSpace == 0 && isFlash s x.spec.dst) || flashAccepts s (x.spec.dst - flashBase))

/-- A piece's write goes to a LOST channel, past the cache: it ends with DATA_ERROR (R306). -/
def landsOnLost (s : State) (k : PieceSpec) : Bool :=
  k.dstSpace == 0 && isHbm s k.dst && (List.range (ceilDiv (k.dst % 32 + k.len) 32)).any fun i =>
    let a := k.dst / 32 * 32 + 32 * i
    onLost s a && (findWay s (homeSlice s a) (a / 128)).isNone

/-- PIECE_COMPLETE: the data is written at the destination and the piece ends (R272, R331, R343). -/
def pieceCompleteEffect (s : State) (n : Nat) (x : Piece) : State :=
  let x := if x.err.isNone && landsOnLost s x.spec then { x with err := some 4 } else x
  let s := match x.err, x.data with
    | none, some b => landPiece s x b
    | _, _ => s
  endPiece s n x

def execPieceComplete (piece : Nat) (s : State) : Host.Outcome State Fault Refusal :=
  match Tab.get? s.pieces piece with
  | some x => occurs (live s && pieceReady s x) (pieceCompleteEffect s piece x) s
  | none => occurs false s s

/-! ## Completions from the host (R343, R455) -/

/-- A failed read of the host: the piece, or the command whose input it was, ends with HOST_ABORT, and AER reports the error. -/
def hostReadFails (s : State) (p : PortId) (piece : Nat) (e : AerError) : State :=
  let s := s.modPort p fun x => { x with aer := x.aer ++ [e] }
  if 2 ^ 32 ≤ piece then fail s (piece - 2 ^ 32) .hostAbort { kind := kindHost, loc := piece - 2 ^ 32, detail := portNum p }
  else pieceErr s piece 6

/-- A piece of port p that waits for the host, or a command whose input it fetches. -/
def awaitsHost (s : State) (p : PortId) (piece : Nat) : Bool :=
  if 2 ^ 32 ≤ piece then
    match s.cmd? (piece - 2 ^ 32) with
    | some c => originPort c.origin == some p && c.stage == .waiting && eInLen c.entry != 0 && !eInRegion c.entry
    | none => false
  else match Tab.get? s.pieces piece with
    | some x => x.spec.srcSpace == 1 && x.state == .issued && x.err.isNone && (s.stream x.quarter x.stream).hostPort == p
        && (match x.data with | some b => decide (b.length < x.spec.len) | none => true)
    | none => false

/-- COMPLETION_TIMEOUT: no completion came within the Completion Timeout (R455). -/
def execCompletionTimeout (p : PortId) (piece : Nat) (s : State) : Host.Outcome State Fault Refusal :=
  occurs (live s && awaitsHost s p piece) (hostReadFails s p piece .timeout) s

/-- HOST_COMPLETION: data for a read, or a poisoned, UR or CA completion (R343, R455). -/
def hostCompletionEffect (s : State) (p : PortId) (piece : Nat) (c : HostCpl) : State :=
  match c with
  | .data b =>
    match Tab.get? s.pieces piece with
    | some x =>
      let all := x.data.getD [] ++ b
      if all.length < x.spec.len then { s with pieces := Tab.adjust s.pieces piece fun y => { y with data := some all } }
      else haveData s piece (all.take x.spec.len)
    | none => s
  | _ => hostReadFails s p piece .completion

def execHostCompletion (p : PortId) (piece : Nat) (c : HostCpl) (s : State) : Host.Outcome State Fault Refusal :=
  occurs (live s && awaitsHost s p piece) (hostCompletionEffect s p piece c) s

/-! ## Translations, invalidations and page requests -/

/-- A waiting piece goes on with a fresh lookup: it takes its tags again where a fault released them (R344, R375). -/
def replayPiece (s : State) (n : Nat) : State :=
  match Tab.get? s.pieces n with
  | none => s
  | some x =>
    let s := if x.state = .faulted then replayTags s x else s
    routePiece s n

/-- A stream none of whose pieces waits on a fault, or on the translation of its replay, is ARMED again; DRAINING where a re-arm is queued (R321,
R344, R375). -/
def wakeStream (s : State) (q n : Nat) : State :=
  let waiting := s.pieces.any fun (_, x) =>
    x.quarter == q && x.stream == n && (x.state == .faulted || (x.state == .missed && decide (0 < x.replays)))
  s.modStream q n fun x =>
    if x.state = .faultWait ∧ ¬ waiting then { x with state := if x.rearm.isSome then .draining else .armed } else x

/-- A host access whose right cannot be obtained fails with HOST_FAULT: the piece or transfer, the command whose input it reads, the write of a
result or of a completion entry, the fetch of an SQ (R345, R375 to R378, R482, R673). -/
def failAccess (s : State) (p : PortId) (n : Nat) : State :=
  match askerOf n with
  | .piece m => match Tab.get? s.pieces m with
    | some x => pieceErr (if x.state = .faulted then replayTags s x else s) m 3
    | none => s
  | .alley _ => pieceErr s n 3
  | .fetch q => s.modPair p q fun x => { x with fetchErr := true, replays := 0 }
  | .command m => match s.cmd? m with
    | none => s
    | some c =>
      if c.stage = .waiting then fail s m .hostFault { kind := kindHost, loc := eInAddr c.entry, detail := portNum p }
      else if resultPending s p c then s.modCmd m fun c => { c with resultErr := true, hostReplays := 0 }
      else s.modCmd m fun c => { c with cqeErr := true, hostReplays := 0 }

/-- The access of a command or of an SQ faults: it joins or opens a page request, or fails, as a piece does (R373 to R378). -/
def queueFault (s : State) (p : PortId) (n a : Nat) (write : Bool) : State :=
  let replays := match askerOf n with
    | .command m => ((s.cmd? m).map (·.hostReplays)).getD 0
    | .fetch q => (s.pair p q).replays
    | _ => 0
  let x := (s.port p).xlt
  if !x.priOn || x.priStopped || decide (4 ≤ replays) then failAccess s p n
  else
    let s := match askerOf n with
      | .command m => s.modCmd m fun c => { c with hostReplays := replays + 1 }
      | .fetch q => s.modPair p q fun y => { y with replays := replays + 1 }
      | _ => s
    joinPage s p n a write

/-- An access faults on a page (R373). -/
def accessFault (s : State) (p : PortId) (n a : Nat) (write : Bool) : State :=
  match askerOf n with
  | .piece m => pieceFault s p m a write
  | .alley k => alleyFault s p k a write
  | _ => queueFault s p n a write

/-- The access has its translation: the piece or the transfer goes out; a command reads its input; an SQ's fetch, and a write of a decided command, go on
with their row. -/
def accessGoes (s : State) (p : PortId) (n : Nat) : State :=
  match askerOf n with
  | .piece m => match Tab.get? s.pieces m with
    | some x => wakeStream (replayPiece { s with pieces := Tab.set s.pieces m { x with replays := 0 } } m) x.quarter x.stream
    | none => s
  | .alley k => sendAlleyHost s k
  | .fetch q => s.modPair p q fun x => { x with replays := 0 }
  | .command m => match s.cmd? m with
    | some c =>
      let s := s.modCmd m fun c => { c with hostReplays := 0 }
      if c.stage = .waiting then emitReads s p n (eInAddr c.entry) (eInLen c.entry) else s
    | none => s

/-- An access of the queue engine is looked up: it goes on, asks for its translation, or faults (R367, R371, R373). -/
def routeAccess (s : State) (p : PortId) (n : Nat) : State :=
  match accessOf s p n with
  | none => s
  | some (b, len, w) =>
    let (a, r) := xltRange s p b len w
    let s := countLookup s p r
    match r with
    | .pass => accessGoes s p n
    | .miss => askTranslation s p a n
    | .noRight => accessFault s p n a w

/-- After the answer for a block, a waiting access goes on, asks for another block that it touches, or, where its right is missing or the host gave no
translation, faults (R373). -/
def afterTranslation (s : State) (p : PortId) (block n : Nat) : State :=
  match accessOf s p n with
  | none => s
  | some (b, len, w) =>
    let (a, r) := xltRange s p b len w
    if r = .pass then accessGoes s p n
    else if r = .miss ∧ blk a ≠ block then askTranslation s p a n
    else accessFault s p n a w

/-- TRANSLATION_COMPLETION: the block's translations are stored, and every waiting piece goes on; a stale request's are discarded and
its pieces ask again (R370, R371, R381). -/
def translationEffect (s : State) (p : PortId) (block : Nat) (ts : List AtsEntry) : State :=
  match (s.port p).xlt.reqs.find? fun r => r.block == block with
  | none => s
  | some r =>
    let s := s.modXlt p fun x => { x with reqs := x.reqs.erase r }
    let s := if r.stale then s else storeAll s p r block ts
    let s := r.waiters.foldl (fun s n => if r.stale then askTranslation s p (block * 65536) n else afterTranslation s p block n) s
    askNext s p
where
  /-- The answer's translations are stored, those of small pages where a waiter needs them (R370). -/
  storeAll (s : State) (p : PortId) (r : TransReq) (block : Nat) (ts : List AtsEntry) : State :=
    let pages (a len : Nat) : List Nat := (List.range ((a + len - 1) / 4096 + 1 - a / 4096)).map (a / 4096 + ·)
    let need := r.waiters.flatMap fun n => ((accessOf s p n).map fun (a, len, _) => pages a len).getD []
    (storeEntries block ts need).foldl (fun s e => addDtc s p e) s

/-- TRANSLATION_COMPLETION (R371, R372): the walk ends with it, so that no walker is seen busy (DESIGN CHOICE, log entry 101). -/
def execTranslationCompletion (p : PortId) (block : Nat) (ts : List AtsEntry) (s : State) : Host.Outcome State Fault Refusal :=
  occurs (live s && (s.port p).xlt.reqs.any fun r => r.block == block) (translationEffect s p block ts) s

/-- INVALIDATE_REQUEST: entries that overlap the range go, requests that overlap it are stale, the generation advances, and the
drain begins (R380); open page requests stay (R382). -/
def invalidateEffect (s : State) (p : PortId) (itag base size : Nat) : State :=
  let hits (lo n : Nat) := decide (lo < base + size) && decide (base < lo + n)
  s.modXlt p fun x => { x with
    dtc := x.dtc.filter fun e => !hits e.base (2 ^ e.sizeLog2)
    reqs := x.reqs.map fun r => if hits (r.block * 65536) 65536 then { r with stale := true } else r
    gen := x.gen + 1, invs := x.invs ++ [{ itag := itag, gen := x.gen + 1 }] }

def execInvalidateRequest (p : PortId) (itag base size : Nat) (s : State) : Host.Outcome State Fault Refusal :=
  occurs (live s && decide (itag < 32) && decide ((s.port p).xlt.invs.length < 32)
    && (s.port p).xlt.invs.all fun i => i.itag != itag) (invalidateEffect s p itag base size) s

/-- INVALIDATE_COMPLETION: every request of an earlier generation has been sent and answered (R380, R383). -/
def execInvalidateCompletion (p : PortId) (itag : Nat) (s : State) : Host.Outcome State Fault Refusal :=
  let ok := match (s.port p).xlt.invs.find? fun i => i.itag == itag with
    | some i => drainedBefore s p i.gen
    | none => false
  occurs (live s && ok)
    (emit (s.modXlt p fun x => { x with invs := x.invs.filter fun i => i.itag != itag, invDone := x.invDone + 1 }) p
      (.invalidateCompletion itag)) s

/-- One fault that found the allocation used up: it joins or opens a request, waits on, or fails where requests are off (R374, R375, R378). -/
def faultAgain (s : State) (p : PortId) (n : Nat) : State :=
  if !(s.port p).xlt.priOn || (s.port p).xlt.priStopped then failAccess s p n
  else match accessOf s p n with
    | some (b, len, w) => joinPage s p n (xltRange s p b len w).1 w
    | none => s

/-- Faults that found the allocation used up open their requests when an entry closes, in their order (R374). -/
def unstarve (s : State) (p : PortId) : State :=
  (s.port p).xlt.starved.foldl (fun s n => faultAgain s p n) (s.modXlt p fun x => { x with starved := [] })

/-- Fails every waiter with HOST_FAULT. -/
def failWaiters (s : State) (p : PortId) (ns : List Nat) : State := ns.foldl (fun s n => failAccess s p n) s

/-- A waiter replays: it asks for a fresh translation; a piece holds its tags again (R344, R375). -/
def replayAccess (s : State) (p : PortId) (page n : Nat) : State :=
  let s := match askerOf n with
    | .piece m => match Tab.get? s.pieces m with
      | some x => let s := replayTags s x; { s with pieces := Tab.adjust s.pieces m fun y => { y with state := .missed } }
      | none => s
    | _ => s
  if (accessOf s p n).isSome then askTranslation s p (page * 4096) n else s

/-- PRG_RESPONSE (R375): Success replays every waiter through a fresh translation; Invalid Request fails them; Response Failure fails
every waiter of the port and stops page requests. A response for an entry that has timed out only frees its index (R377). -/
def prgEffect (s : State) (p : PortId) (i : Nat) (code : PrgCode) : State :=
  match Tab.get? (s.port p).xlt.pages i with
  | none => s
  | some g =>
    let s := s.modXlt p fun x => { x with pages := Tab.erase x.pages i }
    if g.expired then unstarve s p
    else match code with
      | .success =>
        let s := s.modXlt p fun x => { x with dtc := x.dtc.filter fun e => !covers e (g.page * 4096) }
        unstarve (g.waiters.foldl (fun s n => replayAccess s p g.page n) s) p
      | .invalidRequest => unstarve (failWaiters s p g.waiters) p
      | .responseFailure =>
        let all := (s.port p).xlt.pages.flatMap fun (_, h) => if h.expired then [] else h.waiters
        let s := failWaiters s p (g.waiters ++ all ++ (s.port p).xlt.starved)
        s.modXlt p fun x => { x with pages := Tab.keep x.pages fun _ h => h.expired, starved := [], priStopped := true }

def execPrgResponse (p : PortId) (index : Nat) (code : PrgCode) (s : State) : Host.Outcome State Fault Refusal :=
  occurs (live s && Tab.has (s.port p).xlt.pages index) (prgEffect s p index code) s

/-- PRI_TIMEOUT: the waiters of an entry fail with HOST_FAULT, and its index stays in use until its response (R377). -/
def priTimeoutEffect (s : State) (p : PortId) (i : Nat) : State :=
  match Tab.get? (s.port p).xlt.pages i with
  | none => s
  | some g =>
    failWaiters (s.modXlt p fun x => { x with pages := Tab.set x.pages i { g with waiters := [], expired := true } }) p g.waiters

def execPriTimeout (p : PortId) (index : Nat) (s : State) : Host.Outcome State Fault Refusal :=
  occurs (live s && (match Tab.get? (s.port p).xlt.pages index with | some g => !g.expired | none => false))
    (priTimeoutEffect s p index) s

end Sys2Proof.Machine
end

