-- ==== Sys2Proof/Machine/Cache.lean ====
section
/-! DEFINITION. Rows of the shared cache (R249 to R274): reads, writes, granule probes, atomics, FENCE, the write-combining buffer and
held blocks, with the slice errors of R633 to R635; and the alleys of cores (R349 to R354). -/

namespace Sys2Proof.Machine

open Sys2Proof

/-! ## What an access of a core may do -/

/-- The core runs a program: it is in service and serves a batch or a run (R242). -/
def coreRuns (s : State) (n : Nat) : Bool := coreUsable s n && ((s.core n).batch.isSome || (s.core n).run.isSome)

/-- Ends the batch and the run of a core with a status (R120, R213, R352). -/
def coreWorkEnds (s : State) (n : Nat) (st : Status) (z : Cause) : State :=
  let c := s.core n
  oneEvent s false z fun s =>
    let s := match c.batch with | some b => endBatch s b st z | none => s
    match c.run with | some r => endEverywhere s r st z | none => s

/-- The issuer can issue now: a core that runs a program, any other agent while the device serves. -/
def issuerUp (s : State) : Source → Bool
  | .core n => live s && coreRuns s n
  | .mover q => live s && (s.quarter q).inService
  | .peer d => live s && isMember s d
  | _ => live s

/-- The address lies in memory a slice reaches: HBM or held-block space (R358). -/
def reachable (s : State) (a : Nat) : Bool := isHbm s a || isHeld a

/-- A read by an issuer of a sector that is lost: the requests that need it end with DATA_ERROR (R291, R306, R311). -/
def readFails (s : State) (src : Source) (a : Nat) : State :=
  let z := hbmCause s (a / 32 * 32)
  oneEvent s true z fun s =>
    let s := sectorFails s (a / 32 * 32)
    match src with
    | .core n => coreWorkEnds s n .dataError z
    | _ => s

/-! ## Slice errors (R633 to R635) -/

def dayNs : Nat := 86400000000000

/-- Ends a quarter's service when its slice would need a seventeenth disabled line, else disables the line (R635). -/
def disableLine (s : State) (k : Nat) : State :=
  if (s.cache.disabled.filter fun x => x / 32768 == k / 32768).length < 16 then
    let s := evictKey s k
    s.modCache fun c => { c with disabled := c.disabled ++ [k] }
  else quarterOut s (k / 32768)

/-- A corrected event of a line: the second within 24 hours disables it, or, in a granted block, marks it to be disabled when the block
is released (R635). The key holds twice the time of the last event plus 2, and 1 more for a line so marked. -/
def correctedEvent (s : State) (k : Nat) : State :=
  let last := Tab.get? s.cache.corrected k
  let again := match last with
    | some v => decide (s.time + 1 - v / 2 < dayNs)
    | none => false
  let granted := Tab.has s.cache.held (blockKey (k / 32768) (blockOf (k % 32768 / 16) (k % 16)))
  let mark := granted && (again || (match last with | some v => v % 2 == 1 | none => false))
  let s := s.modCache fun c => { c with corrected := Tab.set c.corrected k (2 * (s.time + 1) + b2n mark) }
  if again && !granted then disableLine s k else s

/-- The way that holds an address: of a held block, or of the line that covers it. -/
def keyOf (s : State) (a : Nat) : Option Nat :=
  if isHeld a then
    let o := a - heldBase
    let b := o % 0x400000 / 0x10000
    some (lineKey (serving s (o / 0x400000)) (512 * (b % 4) + o % 0x10000 / 128) (b / 4))
  else (findWay s (homeSlice s a) (a / 128)).map fun w => lineKey (homeSlice s a) (setOf (a / 128)) w

/-- Ends the commands of a block's owner with DATA_ERROR (R633). -/
def ownerLoses (s : State) (o : BlockOwner) (a : Nat) : State :=
  let z : Cause := { kind := kindCache, loc := a, detail := 0 }
  match o with
  | .run r => endEverywhere s r .dataError z
  | .tables d =>
    let bs := s.batches.filter fun (_, b) => b.launched && (b.coll + b.list) % 8 == d
    bs.foldl (fun s (b, _) => endBatch s b .dataError z) s
  | .squares => failAll s ((s.cmds.filter fun (_, c) => c.stage == .admitted && !c.search.squares.isEmpty).map (·.1)) .dataError z
  | .pairBuffer q n =>
    match (s.stream q n).active with
    | x :: _ => failJob s q n x.index 4 z
    | [] => s
  | _ => s

/-- The 32 bytes of a lost sector of a held block: values the manual does not give (DESIGN CHOICE, log entry 9). -/
def loseHeldSector (s : State) (o : Nat) : State :=
  let b := (List.range 32).map fun i => Config.freeByte (s.free * 32 + i)
  (s.modCache fun c => { c with t1 := Mem.writeN c.t1 (o / 32 * 32) b }).useFree

/-- An uncorrectable slice read of the sector at an address, by the state of its line (R633, R634). Answers the state after it. -/
def sliceLost (s : State) (a : Nat) : State :=
  if isHeld a then
    let o := a - heldBase
    if o % 0x400000 < 0x20000 then controlLineLost s (controlIndex o) a
    else
      let s := loseHeldSector s o
      match Tab.get? s.cache.held (blockKey (o / 0x400000) (o % 0x400000 / 0x10000)) with
      | some w => oneEvent s true { kind := kindCache, loc := a, detail := 0 } fun s => ownerLoses s w a
      | none => s
  else
    let slice := homeSlice s a
    let line := a / 128
    match findWay s slice line with
    | none => s
    | some w =>
      let x := (lineAt s slice line w).sectors
      let dirty := (x.getD (a % 128 / 32) {}).dirty
      let s := putLine s slice line w (dropSectors (a % 128 / 32 * 32) 32 x)
      if dirty then
        retireLost (deviceLog s kindCache a 0) a
      else correctedEvent s (lineKey slice (setOf line) w)

/-- What the outcome of the slice's own access does before the read is served. -/
def sliceOutcome (s : State) (a : Nat) : SliceOutcome → State
  | .clean => s
  | .corrected => match keyOf s a with | some k => correctedEvent s k | none => s
  | .uncorrectable => sliceLost s a

/-! ## Reads and writes (R257, R259) -/

/-- CACHE_READ: the slice's own outcome, then the read by its hint. -/
def cacheReadEffect (s : State) (src : Source) (a n : Nat) (hint : Hint) (o : SliceOutcome) : State :=
  let s := sliceOutcome s a o
  let (s, d) := cacheGet s a n hint
  match d with
  | some b => s.modCache fun c => { c with returned := b }
  | none => readFails s src a

/-- An access of a core that its program may not make: HINT 3, or no grant (R246, R256, R365). -/
def coreViolates (s : State) (src : Source) (a n : Nat) (x : Right) (bad : Bool) : Option Nat :=
  match src with
  | .core c => if bad || !coreMay s c a n x then some c else none
  | _ => none

def execCacheRead (src : Source) (addr len : Nat) (hint : Hint) (o : SliceOutcome) (s : State) : Host.Outcome State Fault Refusal :=
  match coreViolates s src addr len .read (hint == .reserved) with
  | some c => occurs (issuerUp s src) (programFault s c) s
  | none =>
    occurs (issuerUp s src && reachable s addr && hint != .reserved && decide (1 ≤ len) && decide (addr % 128 + len ≤ 128))
      (cacheReadEffect s src addr len hint o) s

def execCacheWrite (src : Source) (addr : Nat) (bytes : List Byte) (hint : Hint) (s : State) : Host.Outcome State Fault Refusal :=
  match coreViolates s src addr bytes.length .write (hint == .reserved) with
  | some c => occurs (issuerUp s src) (programFault s c) s
  | none =>
    occurs (issuerUp s src && reachable s addr && hint != .reserved && !bytes.isEmpty && decide (addr % 128 + bytes.length ≤ 128))
      (cachePut s src addr bytes hint) s

/-- GRANULE_PROBE: a boulevard's read of a whole granule (R261). -/
def granuleProbeEffect (s : State) (quarter a : Nat) (keep : Bool) : State :=
  let (s, d) := granuleGet s a keep
  match d with
  | some b => s.modCache fun c => { c with returned := b }
  | none => readFails s (.mover quarter) a

def execGranuleProbe (quarter addr : Nat) (keep : Bool) (s : State) : Host.Outcome State Fault Refusal :=
  occurs (issuerUp s (.mover quarter) && isHbm s addr && aligned addr 2048) (granuleProbeEffect s quarter addr keep) s

/-! ## FENCE and the write-combining buffer (R266, R267, R271) -/

/-- Lines of a slice whose entries a source has written. -/
def wcLinesOf (s : State) (slice : Nat) (src : Source) : List Nat :=
  ((wcOf s slice).filter fun w => w.srcs.contains src).map (·.line)

/-- FENCE: every entry that the core's writes touched drains; its writes and atomics are performed as they are issued (R271). -/
def fenceEffect (s : State) (core : Nat) : State :=
  (List.range 64).foldl (fun s sl => (wcLinesOf s sl (.core core)).foldl (fun s l => drainWc s sl l) s) s

def execFence (core : Nat) (s : State) : Host.Outcome State Fault Refusal :=
  occurs (live s && coreRuns s core) (fenceEffect s core) s

/-- WC_ENTRY_DRAIN: an entry has not been written for 256 cycles (R267). -/
def execWcEntryDrain (slice line : Nat) (s : State) : Host.Outcome State Fault Refusal :=
  occurs (live s && (wcFind s slice line).isSome) (drainWc s slice line) s

/-! ## Atomics (R262 to R264) -/

/-- Who issues atomics: every source but movers (R263). -/
def atomicSource : Source → Bool
  | .mover _ => false
  | _ => true

/-- An atomic at its home slice, or the fault of a core's program that misaligns it or lacks the right; `form` is false for a form that
the operation does not have (R246, R262, R263). -/
def atomicRow (op : AtomicOp) (g : AtomicArgs) (cmp : BitVec 64) (form : Bool) (s : State) : Host.Outcome State Fault Refusal :=
  let w := atomicWidth g.wide
  match coreViolates s g.src g.addr w .atomic (!aligned g.addr w || !form) with
  | some c => occurs (issuerUp s g.src) (programFault s c) s
  | none =>
    let t := if (atomicOld s g.addr g.wide).isSome then atomicEffect s op g cmp else readFails s g.src g.addr
    occurs (issuerUp s g.src && atomicSource g.src && reachable s g.addr && aligned g.addr w && form) t s

def execAdd (g : AtomicArgs) (s : State) : Host.Outcome State Fault Refusal := atomicRow .add g 0 true s
def execFadd (g : AtomicArgs) (s : State) : Host.Outcome State Fault Refusal := atomicRow .fadd g 0 (!g.wide) s
def execMinUnsigned (g : AtomicArgs) (s : State) : Host.Outcome State Fault Refusal := atomicRow .minU g 0 true s
def execMaxUnsigned (g : AtomicArgs) (s : State) : Host.Outcome State Fault Refusal := atomicRow .maxU g 0 true s
def execMinSigned (g : AtomicArgs) (s : State) : Host.Outcome State Fault Refusal := atomicRow .minS g 0 true s
def execMaxSigned (g : AtomicArgs) (s : State) : Host.Outcome State Fault Refusal := atomicRow .maxS g 0 true s
def execOr (g : AtomicArgs) (s : State) : Host.Outcome State Fault Refusal := atomicRow .or g 0 true s

/-- CAS has no reduction form. -/
def execCas (g : AtomicArgs) (compare : BitVec 64) (s : State) : Host.Outcome State Fault Refusal := atomicRow .cas g compare g.fetching s

/-! ## Held blocks (R253, R254) -/

/-- A reservation asks for a block: the run is there, the stream holds its pair. An area in T1 has its blocks from its allocation, within the
limit of R671, and asks for none. -/
def ownerUp (s : State) : BlockOwner → Bool
  | .control => false
  | .region _ => false
  | .run r => Tab.has s.runs r
  | .tables _ => true
  | .squares => true
  | .pairBuffer q n => (s.stream q n).state != .idle

/-- A reservation still uses its blocks. -/
def ownerUses (s : State) : BlockOwner → Bool
  | .control => true
  | .region e => (s.region e).allocated || (s.region e).draining
  | .run r => Tab.has s.runs r
  | .tables d => s.batches.any fun (_, b) => b.launched && (b.coll + b.list) % 8 == d
  | .squares => s.cmds.any fun (_, c) => !c.search.squares.isEmpty
  | .pairBuffer q n => (List.range 16).any fun m => (s.stream q m).state != .idle && (m == n || ((s.stream q m).pair.map (·.1)) == some n)

def execBlockGrant (slice block : Nat) (owner : BlockOwner) (s : State) : Host.Outcome State Fault Refusal :=
  occurs (live s && okQuarter slice && blockFree s slice block && ownerUp s owner) (grantBlock s slice block owner) s

def execBlockRelease (slice block : Nat) (s : State) : Host.Outcome State Fault Refusal :=
  match Tab.get? s.cache.held (blockKey slice block) with
  | some o => occurs (live s && decide (block < 64) && !ownerUses s o) (releaseBlock s slice block) s
  | none => occurs false s s

/-! ## Alleys (R349 to R353) -/

/-- A slot header's fields (R350). -/
def readAlley (h : BitVec 256) (p : PortId) : Alley :=
  let n := h.toNat
  { op := bitsOf n 7 0, hint := bitsOf n 9 8, space := bitsOf n 11 10, prio := bitsOf n 13 12, len := bitsOf n 31 16
    sel := bitsOf n 47 32, ls := bitsOf n 81 64, target := bitsOf n 191 128, data := [], port := p, sent := false, err := none
    replays := 0 }

/-- Reserved bits of a header are zero and its fields in range (R350, R351). -/
def alleyOk (h : BitVec 256) : Bool :=
  let n := h.toNat
  let x := readAlley h .p0
  bitsOf n 15 14 == 0 && bitsOf n 63 48 == 0 && bitsOf n 95 82 == 0 && bitsOf n 127 96 == 0 && bitsOf n 255 192 == 0
    && (x.op == 1 || x.op == 2) && x.hint != 3 && x.space != 3 && decide (1 ≤ x.len) && decide (x.len ≤ 256)
    && (match x.space with | 0 => decide (x.sel < 4096) | 1 => x.sel == 0 | _ => decide (x.sel < 16384))
    && decide (x.target % 2048 + x.len ≤ 2048) && decide (x.ls + x.len ≤ 0x40000)

/-- The port of a core's host transfers: that of the first command its batch or run serves; port 0 where none came by a port (the manual
names no port in the header; DESIGN CHOICE, log entry 20). -/
def corePort (s : State) (n : Nat) : PortId :=
  let c := s.core n
  let ms : List Nat := match c.batch, c.run with
    | some b, _ => (Tab.getD s.batches b default).members
    | none, some r => ((Tab.get? s.runs r).map runCmds).getD []
    | none, none => []
  (ms.findSome? fun m => (s.cmd? m).bind fun c => originPort c.origin).getD .p0

/-- The transfer's own check: a region entry, or an outbound window (R359, R364, R384). -/
def alleyMay (s : State) (x : Alley) : Bool :=
  let r := if x.op = 1 then Right.write else Right.read
  match x.space with
  | 0 => !isFlash s x.target && passes (s.region x.sel) x.target x.len r
  | 1 => true
  | _ => outWindowOk s x.sel x.target x.len r

/-- Two transfers of one core touch one 128-byte line (R353). -/
def sameLine (x y : Alley) : Bool :=
  x.space == y.space && x.sel == y.sel && decide (x.target / 128 ≤ (y.target + y.len - 1) / 128)
    && decide (y.target / 128 ≤ (x.target + x.len - 1) / 128)

/-- A core's transfer that waits at its quarter's port goes next: none launched before it by the core to a line of it waits (R353), one of priority 0
goes before any of lower priority that waits there, and otherwise they go in order of launch among those whose tags are free (R354). -/
def alleyTurn (s : State) (core : Nat) (x : Alley) : Bool :=
  alleyTag s x && s.alleys.all fun (k, y) =>
    k / 4096 != core / 64 || match y.waits, x.waits with
      | some a, some b =>
        if decide (a < b) && k / 64 == core && sameLine x y then false
        else if (y.prio == 0) == (x.prio == 0) then decide (b ≤ a) || !alleyTag s y || blocked k y
        else x.prio == 0 || blocked k y
      | _, _ => true
where
  /-- Transfer k waits for an earlier one of its core to the same line. -/
  blocked (k : Nat) (y : Alley) : Bool :=
    s.alleys.any fun (j, z) => j / 64 == k / 64 && sameLine y z && match z.waits, y.waits with
      | some a, some b => decide (a < b)
      | _, _ => false

/-- The crossing takes a transfer of the alley port: no boulevard piece of a lower level number waits, and of one level the alley has one slot in
four while pieces wait (R355). -/
def alleyCrosses (s : State) (q : Nat) (x : Alley) : Bool :=
  (readyStreams s q).all fun m => decide (x.prio < (s.stream q m).prio) || ((s.stream q m).prio == x.prio && (s.engine q).share == 3)

/-- A launched transfer goes out: a device access is performed at its slice in launch order (R353), a host one is translated and
sent, a peer one leaves by its window. -/
def sendAlley (s : State) (core slot : Nat) (x : Alley) : State :=
  let k := core * 64 + slot
  let x := { x with waits := none, data := if x.op = 1 then localRead s core x.ls x.len else x.data }
  let s := (passCrossing s (core / 64) (x.op == 1) x.len).modEngine (core / 64) fun e => { e with share := 0 }
  let put (s : State) (x : Alley) : State := { s with alleys := Tab.set s.alleys k x }
  if !alleyMay s x then put s { x with err := some 2 }
  else match x.space with
    | 0 =>
      if x.op = 1 then put (devWrite s (.core core) x.target x.data (hintOf x.hint)) { x with sent := true }
      else
        let (s, d) := cacheGetAll (x.len / 128 + 2) s x.target x.len (hintOf x.hint)
        match d with
        | some b => put s { x with data := b, sent := true }
        | none => put (sectorFails s (x.target / 32 * 32)) { x with err := some 4 }
    | 1 => routeAlley (put s x) k
    | _ =>
      let s := put s { x with sent := true }
      if x.op = 1 then peerWrite s x.sel x.target x.data (.alley core slot) else peerRead s x.sel x.target x.len (.alley core slot)

/-- A transfer that waits goes out once the port and the crossing let it. -/
def tryAlley (s : State) (core slot : Nat) (x : Alley) : State :=
  if alleyTurn s core x && alleyCrosses s (core / 64) x then sendAlley s core slot x else s

/-- A transfer is launched: its slot's bits clear, and it goes out, or waits at its quarter's port. -/
def launchAlley (s : State) (core slot : Nat) (x : Alley) : State :=
  let s := s.arrive.modCore core fun c => { c with alleyDone := clearBit c.alleyDone slot, alleyErr := clearBit c.alleyErr slot }
  let x := { x with waits := some s.arrivals }
  tryAlley { s with alleys := Tab.set s.alleys (core * 64 + slot) x } core slot x

/-- A header stored to a slot: it launches a transfer and clears the slot's bits, or faults (R349 to R352). -/
def alleyRow (op core slot : Nat) (h : BitVec 256) (s : State) : Host.Outcome State Fault Refusal :=
  let x := readAlley h (corePort s core)
  let up := live s && coreRuns s core && okSlot slot
  if alleyOk h && !Tab.has s.alleys (core * 64 + slot) then
    occurs (up && x.op == op) (launchAlley s core slot x) s
  else occurs (up && (x.op == op || x.op == 0 || decide (2 < x.op))) (programFault s core) s

def execAlleyWrite (core slot : Nat) (hdr : BitVec 256) (s : State) : Host.Outcome State Fault Refusal := alleyRow 1 core slot hdr s
def execAlleyRead (core slot : Nat) (hdr : BitVec 256) (s : State) : Host.Outcome State Fault Refusal := alleyRow 2 core slot hdr s

/-- The end of a transfer: its bits are set, a read's data is in the local store, and a failure ends the core's batch or run (R352). -/
def endAlley (s : State) (core slot : Nat) (x : Alley) (err : Option Nat) : State :=
  let s := settleDrains { s with alleys := Tab.erase s.alleys (core * 64 + slot) }
  let s := s.modPort x.port fun p => { p with tags := p.tags - x.tags }
  let s := if err.isNone && x.op == 2 then localWrite s core x.ls x.data else s
  let s := s.modCore core fun c => { c with
    alleyDone := setBit c.alleyDone slot, alleyErr := if err.isSome then setBit c.alleyErr slot else c.alleyErr }
  match err with
  | some e => coreWorkEnds s core (errStatus e) (moveCause s x.port e x.space x.sel x.target { kind := kindCore, loc := core, detail := e })
  | none => s

/-- ALLEY_COMPLETE (R272, R343, R352): a transfer that waits at its port goes out when its turn comes (DESIGN CHOICE, log entry 146); a host transfer
ends with what the host answered, a peer transfer once its response is in, a device transfer at once. -/
def execAlleyComplete (core slot : Nat) (data : List Byte) (ok : Bool) (s : State) : Host.Outcome State Fault Refusal :=
  match Tab.get? s.alleys (core * 64 + slot) with
  | none => occurs false s s
  | some x =>
    let waits := s.net.peers.any fun (_, r) => r.waiter == .alley core slot
    let x' := if x.space = 1 && x.op == 2 then { x with data := data } else x
    let err := if x.err.isSome then x.err else if x.space = 1 && !ok then some 6 else none
    let ready := x.err.isSome ||
      (match x.space with
        | 0 => true
        | 1 => x.sent && (!ok || x.op == 1 || data.length == x.len)
        | _ => !waits)
    if x.waits.isSome then
      occurs (live s && okSlot slot && alleyTurn s core x && alleyCrosses s (core / 64) x) (sendAlley s core slot x) s
    else occurs (live s && okSlot slot && ready) (endAlley s core slot x' err) s

end Sys2Proof.Machine
end

