-- ==== Sys2Proof/Machine/Hbm.lean ====
section
/-! DEFINITION. Rows of the HBM system (R275 to R318): reads and writes at a controller, patrol scrub, row remap and page retirement,
live channel migration, a lost channel, the repair record, and the traffic generators. -/

namespace Sys2Proof.Machine

open Sys2Proof

/-! ## Arbitration (R286) -/

/-- The channel and pseudo-channel that serve a sector, and its bank and row (R279, R280). -/
def hbmPort (s : State) (a : Nat) : Option (Nat × Nat) := (mapAddr s a).map fun (c, _, off) => (servedBy s c, off / 32 % 2)
def bankRow (s : State) (a : Nat) : Option (Nat × Nat) := (mapAddr s a).map fun (_, r, _) => (r % 64, r / 64)

/-- A read joins the queue of its pseudo-channel. -/
def queueRead (s : State) (a level : Nat) : State :=
  match hbmPort s a with
  | some (c, pc) => s.modChan c fun x => x.modArb pc fun q => { q with reads := q.reads ++ [⟨a, level, s.time⟩] }
  | none => s

/-- The queues when a read is served: the reads that came meanwhile, and this one where it does not wait yet. -/
def arrive (s : State) (a level : Nat) (arrivals : List (Nat × Nat)) : State :=
  let s := arrivals.foldl (fun s (b, l) => queueRead s b l) s
  match hbmPort s a with
  | some (c, pc) => if (arbOf (s.chan c) pc).reads.any fun q => q.addr == a && q.level == level then s else queueRead s a level
  | none => s

/-- The row of a request is open in its bank. -/
def rowHit (s : State) (q : HbmArb) (r : HbmReq) : Bool :=
  match bankRow s r.addr with
  | some (b, row) => Tab.get? q.openRow b == some row
  | none => false

/-- The next read of a level: one older than 2 µs, else a row hit, else the oldest. -/
def levelNext (s : State) (q : HbmArb) (level : Nat) : Option HbmReq :=
  let l := q.reads.filter fun r => r.level == level
  match l.find? (fun r => decide (r.time + 2000 < s.time)) with
  | some r => some r
  | none => match l.find? (rowHit s q) with
    | some r => some r
    | none => l.head?

/-- The level whose turn it is (R286). -/
def levelTurn (q : HbmArb) : Option (Nat × List Nat) := pickTurn (fun l => q.reads.any fun r => r.level == l) q.turns

/-- The read that a pseudo-channel issues next: a level-0 read, the oldest first; then levels 1 to 3 by weighted round robin. -/
def readNext (s : State) (q : HbmArb) : Option (HbmReq × List Nat) :=
  match q.reads.find? fun r => r.level == 0 with
  | some r => some (r, q.turns)
  | none => match levelTurn q with
    | some (l, t) => (levelNext s q l).map fun r => (r, t)
    | none => none

/-- The read leaves its queue, its row stays open, and a drain that yielded to it goes on. -/
def issueRead (s : State) (a level : Nat) : State :=
  match hbmPort s a, bankRow s a with
  | some (c, pc), some (b, row) =>
    let t := match readNext s (arbOf (s.chan c) pc) with | some (_, t) => t | none => []
    let s := s.modChan c fun x => x.modArb pc fun q => { q with
      reads := q.reads.eraseP fun r => r.addr == a && r.level == level, turns := t, openRow := Tab.set q.openRow b row }
    if (arbOf (s.chan c) pc).draining then drainOn s c pc else s
  | _, _ => s

/-- Whether the read is the one its pseudo-channel issues next. -/
def readIssues (s : State) (a level : Nat) : Bool :=
  match hbmPort s a with
  | some (c, pc) => match readNext s (arbOf (s.chan c) pc) with
    | some (r, _) => r.addr == a && r.level == level
    | none => false
  | none => false

/-! ## Reads, writes, scrub (R289 to R292) -/

/-- A corrected error: the corrected sector is written back, and the event counted for the channel, its row and its lane (R290, R295,
R307). -/
def countCorrected (s : State) (c r sector lane : Nat) : State :=
  let key := rowKey (sector % 2) r
  s.modChan c fun x => { x with
    eccCorrected := satAdd (2 ^ 32 - 1) x.eccCorrected 1
    flips := Tab.erase x.flips (r * 64 + sector)
    rowErrors := Tab.modify x.rowErrors key [] fun l => l ++ [s.time]
    laneRows := Tab.modify x.laneRows (sector % 2 * 256 + lane) [] fun l => l ++ [(key, s.time)] }

/-- An uncorrectable error of a channel (R316). -/
def countUncorrected (s : State) (c : Nat) : State :=
  s.modChan c fun x => { x with eccUncorrected := satAdd (2 ^ 32 - 1) x.eccUncorrected 1 }

/-- The symbols that a read of a sector finds wrong: those stored wrong and those that went wrong since. -/
def wrongSymbols (s : State) (c r sector : Nat) (since : List Nat) : List Nat :=
  ((Tab.getD (s.chan c).flips (r * 64 + sector) []) ++ since).eraseDups

/-- The check code at a read of a sector: no error, one symbol corrected, or two detected; whether data is returned. The manual says nothing
of three wrong symbols, which are taken as detected (DESIGN CHOICE, log entry 129). -/
def eccRead (s : State) (c r sector : Nat) (since : List Nat) : State × Bool :=
  match wrongSymbols s c r sector since with
  | [] => (s, true)
  | [lane] => (countCorrected s c r sector lane, true)
  | l => (countUncorrected (s.modChan c fun x => { x with flips := Tab.set x.flips (r * 64 + sector) l }) c, false)

/-- HBM_READ of a sector at its controller. -/
def hbmReadEffect (s : State) (a : Nat) (since : List Nat) : State :=
  let none_ (s : State) : State := s.modHbm fun h => { h with returned := none }
  match mapAddr s a with
  | none => none_ (sectorFails s a)
  | some (c, r, off) =>
    let c := servedBy s c
    if granuleLost s c r || rtLost s a then none_ (sectorFails s a)
    else
      let (t, ok) := eccRead s c r (off / 32) since
      if ok then t.modHbm fun h => { h with returned := hbmSector t a } else none_ (retireLost (sectorFails t a) a)

/-- HBM_READ: reads that came since the last join the queues, and the read is the next that its pseudo-channel issues (R286). -/
def execHbmRead (addr level : Nat) (m : ReadMeets) (s : State) : Host.Outcome State Fault Refusal :=
  let t := arrive s addr level m.arrivals
  occurs (live s && s.hbm.isOpen && isHbm s addr && aligned addr 32 && okLevel level
    && (m.arrivals.all fun x => isHbm s x.1 && okLevel x.2) && readIssues t addr level)
    (hbmReadEffect (issueRead t addr level) addr m.wrong) s

/-- The level at which a write is handled: level 0 as level 1 (R285). -/
def writeLevel (level : Nat) : Nat := max 1 level

/-- HBM_WRITE of a sector under its byte mask (R286); to a LOST channel it ends with DATA_ERROR (R306). -/
def execHbmWrite (addr level : Nat) (data : BitVec 256) (mask : BitVec 32) (s : State) : Host.Outcome State Fault Refusal :=
  occurs (live s && s.hbm.isOpen && isHbm s addr && aligned addr 32 && okLevel level)
    (if onLost s addr then sectorFails s addr else hbmPutAt s addr data mask (some (writeLevel level))) s

/-- A sector that patrol reads. -/
def patrolSector (g c : Nat) (s : State) (x : Nat × List Nat) : State :=
  let (t, ok) := eccRead s c g x.1 x.2
  if ok then t
  else
    let d := c + (g / 64) * 2 ^ 16 + x.1 * 2 ^ 48
    match pageOf t c g with
    | none => deviceLog t kindHbmData 0 d
    | some (page, k) => retireWhenServed (deviceLog t kindHbmData (page * 4096 + k * 2048 + x.1 * 32) d) page (BitVec.twoPow 2 k)

/-- PATROL_SCRUB of a granule of an active or spare channel: each of its 64 sectors is read (R292). -/
def patrolEffect (s : State) (c g : Nat) (wrong : Table (List Nat)) : State :=
  (List.range 64).foldl (fun s i => patrolSector g c s (i, Tab.getD wrong i [])) s

def execPatrolScrub (ch granule : Nat) (wrong : Table (List Nat)) (s : State) : Host.Outcome State Fault Refusal :=
  let st := (s.chan ch).state
  occurs (live s && s.power.scrub && okChannel ch && decide (granule < 2 ^ 20) && (wrong.all fun x => decide (x.1 < 64))
    && (st == .active || st == .spare || st == .migSource)) (patrolEffect s ch granule wrong) s

/-! ## Row remap and page retirement (R307 to R312) -/

/-- The spare row of a bank of a pseudo-channel that a failing row may take: the first while neither is used, the other after it (R308). -/
def nextSpare (x : Channel) (bank : Nat) : Option Nat :=
  let used := (x.remaps.filter fun (b, _, _) => b == bank).map fun (_, _, n) => n
  if used.contains 1 then none else if used.contains 0 then some 1 else some 0

/-- A remap is possible: a spare row of the bank is left, and the table has room or the row has an entry already. -/
def remapOk (x : Channel) (bank row : Nat) : Bool :=
  (nextSpare x bank).isSome && (decide (x.remaps.length < 64) || x.remaps.any fun (b, r, _) => b == bank && r == row)

/-- A row's data is intact: its granule is not lost, and none of its sectors is uncorrectable (R307). -/
def rowIntact (s : State) (c bank row : Nat) : Bool :=
  let r := row * 64 + bank % 64
  !granuleLost s c r && (List.range 32).all fun k => !sectorBad s c r (2 * k + bank / 64)

/-- ROW_REMAP: the row is copied to the spare row, whose entry is in the table; its errors are counted anew (R307, R308). -/
def remapEffect (s : State) (c bank row : Nat) : State :=
  let n := (nextSpare (s.chan c) bank).getD 0
  let s := s.modChan c fun x => { x with
    remaps := (x.remaps.filter fun (b, r, _) => !(b == bank && r == row)) ++ [(bank, row, n)]
    rowErrors := Tab.erase x.rowErrors (bank * 16384 + row) }
  repairLog (s.modHbm fun h => { h with recordDirty := true }) c row

/-- Bank is pseudo-channel * 64 + bank. Row repair is the firmware's (R43). -/
def execRowRemap (ch bank row : Nat) (s : State) : Host.Outcome State Fault Refusal :=
  let x := s.chan ch
  occurs (fwServes s && okChannel ch && decide (bank < 128) && decide (row < 16384)
    && [ChState.active, .spare, .migSource, .migTarget].contains x.state
    && rowFails s ch (bank * 16384 + row) && rowIntact s ch bank row && remapOk x bank row) (remapEffect s ch bank row) s

/-- A granule lies in a failing row, in its home or in its page's slot, that cannot be remapped (R308). -/
def granuleStuck (s : State) (a : Nat) : Bool :=
  match mapAddr s a with
  | some (c, r, _) => (List.range 2).any fun pc => rowFails s (servedBy s c) (rowKey pc r) && !remapOk (s.chan (servedBy s c)) (pc * 64 + r % 64) (r / 64)
  | none => false

/-- PAGE_RETIRE: a page with an uncorrectable granule, or with one in a failing row that cannot be remapped (R308, R310, R311). -/
def execPageRetire (page : Nat) (lost : BitVec 2) (s : State) : Host.Outcome State Fault Refusal :=
  let stuck := granuleStuck s (page * 4096) || granuleStuck s (page * 4096 + 2048)
  occurs (fwServes s && s.hbm.isOpen && decide (page * 4096 < retireBase s) && (lost != 0 || stuck)) (retireLogged s page lost) s

/-! ## Training and traffic generators (R294, R316 to R318) -/

/-- Training passes: command and address lanes work, and no half has more failing lanes than its one spare replaces (R294). -/
def trains (l : Option Lanes) : Bool :=
  match l with
  | none => false
  | some l => (List.range 4).all fun h => decide ((l.filter fun x => x.1 == h).length ≤ 1)

/-- The TG_CTRL word of step 4 of R296: WRITE_READ_CHECK with a DATA_MODE, and START. -/
def testCtrl (mode : Nat) : Word := BitVec.ofNat 32 (mode * 2 ^ 20 + 2 * 2 ^ 16 + 3 * 2 ^ 14 + 1)

/-- A START is performed (R317). -/
def tgMay (s : State) (c : Nat) : TgSrc → Bool
  | .startup => s.hbm.testing
  | .normal => [ChState.spare, .repair, .failed].contains (s.chan c).state
  | .testPort _ => controlHeldInReset s

/-- The controller trains a channel through the test port at TEST_RATE, its stack out of reset first; the run begins when training
passes (R317). -/
def tgTrain (s : State) (c : Nat) (l : Option Lanes) : State :=
  let s := if (s.island (76 + c / 32)).state == .reset then runIslands s [76 + c / 32] else s
  s.modChan c fun x =>
    if trains l then { x with busy := true, chkErrors := 0, pinRate := x.testRate, spareLanes := l.getD [] }
    else { x with trainFail := true, done := true, chkErrors := 0 }

/-- START: TG_CTRL takes its fields (R316); the run begins, is ignored while BUSY, or is refused. START clears CHK_ERRORS alone (DESIGN CHOICE, log
entry 121). -/
def tgStartEffect (s : State) (c : Nat) (src : TgSrc) (ctrl : Word) : State :=
  let s := chanWrite s c 0x010 ctrl 0
  if (s.chan c).busy then s
  else if !tgMay s c src then s.modChan c fun x => { x with refused := true }
  else match src with
    | .testPort l => tgTrain s c l
    | _ => s.modChan c fun x => { x with busy := true, chkErrors := 0 }

/-- Who may start a run now: the firmware while it runs, the test port while the control processor is held in reset. -/
def tgCaller (s : State) : TgSrc → Bool
  | .testPort _ => controlHeldInReset s
  | _ => fwServes s || s.hbm.testing

def execTgRunStart (ch : Nat) (w : TgStart) (s : State) : Host.Outcome State Fault Refusal :=
  occurs (okChannel ch && w.ctrl.getLsbD 0 && tgCaller s w.src) (tgStartEffect s ch w.src w.ctrl) s

/-- The pattern of the run that the registers describe, over granules from lo up to hi. -/
def tgFill (x : Channel) (lo hi : Nat) : Fill :=
  { lo := lo, hi := hi, mode := x.dataMode, seed := x.seed, user := BitVec.ofNat 64 (x.userLo.toNat + x.userHi.toNat * 2 ^ 32) }

/-- n granules from GRANULE, wrapping at 2^20: the ranges they make. -/
def tgRanges (x : Channel) (n : Nat) : List (Nat × Nat) :=
  let a := x.start % 2 ^ 20
  if a + n ≤ 2 ^ 20 then [(a, a + n)] else [(a, 2 ^ 20), (0, a + n - 2 ^ 20)]

/-- Granules of the range of a run: COUNT, 2^20 at most. -/
def tgCount (x : Channel) : Nat := min x.length (2 ^ 20)

/-- Whether the key of a cell lies in the granules from lo up to hi of channel c. -/
def cellIn (c lo hi a : Nat) : Bool := a / 2 ^ 31 == c && decide (lo ≤ a % 2 ^ 31 / 2048) && decide (a % 2 ^ 31 / 2048 < hi)

/-- The run has written the first k sectors of its range (R318): whole granules, and part of the next. -/
def tgWrite (s : State) (c k : Nat) : State :=
  let x := s.chan c
  let rs := (tgRanges x (k / 64)).filter fun r => decide (r.1 < r.2)
  let s := s.modHbm fun h => { h with cells := h.cells.filter fun (a, _) => !rs.any fun r => cellIn c r.1 r.2 a }
  let s := s.modChan c fun y => { y with
    fills := rs.map (fun r => tgFill x r.1 r.2) ++ y.fills
    flips := Tab.keep y.flips fun n _ => !rs.any fun r => decide (r.1 ≤ n / 64) && decide (n / 64 < r.2) }
  let g := (x.start + k / 64) % 2 ^ 20
  let f := tgFill x g (g + 1)
  s.modHbm fun h => { h with cells := (List.range (k % 64)).foldl (fun m i =>
    applyWrite (s.chan c).fills m c { granule := g, sector := i, data := tgPattern f.mode f.seed f.user (g * 64 + i), mask := BitVec.allOnes 32 }) h.cells }

/-- The lanes of a sector whose bytes differ from the pattern: lane i of a pseudo-channel carries byte i (DESIGN CHOICE, log entry 131). -/
def tgLanes (s : State) (c g k : Nat) : Word :=
  let f := tgFill (s.chan c) g (g + 1)
  let want := tgPattern f.mode f.seed f.user (g * 64 + k)
  BitVec.ofNat 32 ((List.range 32).foldl (fun a i => if chanByte s c g (k * 32 + i) = byteOf want i then a else a + 2 ^ i) 0)

/-- What READ_CHECK finds different from the pattern in the first k sectors of its range. -/
def tgDiffs (s : State) (c k : Nat) : List Mismatch :=
  let x := s.chan c
  (List.range (min k (tgCount x * 64))).filterMap fun j =>
    let g := (x.start + j / 64) % 2 ^ 20
    let l := tgLanes s c g (j % 64)
    if l = 0 then none else some { granule := g, sector := j % 64, lanesLo := if j % 2 = 0 then l else 0, lanesHi := if j % 2 = 0 then 0 else l }

/-- Lanes of a sector whose raw symbols differed. -/
def rawLanes (m : Mismatch) : Nat :=
  ((List.range 32).filter fun i => bitOf (if m.sector % 2 = 0 then m.lanesLo else m.lanesHi).toNat i).length

/-- The sectors that count as mismatches after correction: those that differ, each once a pass, and those with two wrong symbols or more. -/
def tgErrors (s : State) (c k : Nat) (raw : List Mismatch) : List Mismatch :=
  let diffs := if (s.chan c).opMode = 1 then tgDiffs s c k else []
  (List.replicate (max 1 (s.chan c).passes) diffs).flatten
    ++ raw.filter fun m => decide (2 ≤ rawLanes m) && !diffs.any fun d => d.granule == m.granule && d.sector == m.sector

/-- When a run reaches a sector: in rising order; with ROW_STRESS alternating between rows 8,192 apart; with LFSR in an order that is free
(DESIGN CHOICE, log entry 75). -/
def tgPos (x : Channel) (m : Mismatch) : Nat :=
  let g := (m.granule + 2 ^ 20 - x.start % 2 ^ 20) % 2 ^ 20
  match x.addrMode with
  | 0 => g * 64 + m.sector
  | 2 => (g % 2 ^ 19 * 2 + g / 2 ^ 19) * 64 + m.sector
  | _ => Config.tgOrder x.seed (g * 64 + m.sector)

/-- The first of the mismatches that a run meets. -/
def tgFirst (x : Channel) (l : List Mismatch) : Option Mismatch :=
  l.foldl (fun b m => match b with | some y => if tgPos x m < tgPos x y then some m else b | none => some m) none

/-- The checker records mismatches and the lanes whose raw symbols differed, of corrected sectors too (R318). CHK_FIRST keeps the first since
reset (DESIGN CHOICE, log entry 121). -/
def tgRecord (s : State) (c : Nat) (errs raw : List Mismatch) : State :=
  s.modChan c fun x => { x with
    fail := x.fail || !errs.isEmpty
    chkErrors := satAdd (2 ^ 32 - 1) x.chkErrors errs.length
    chkFirst := match x.chkFirst with | some f => some f | none => (tgFirst x errs).map fun m => (m.sector, m.granule)
    laneLo := (errs ++ raw).foldl (fun a m => a ||| m.lanesLo) x.laneLo
    laneHi := (errs ++ raw).foldl (fun a m => a ||| m.lanesHi) x.laneHi
    eccCorrected := satAdd (2 ^ 32 - 1) x.eccCorrected (raw.countP fun m => rawLanes m == 1)
    eccUncorrected := satAdd (2 ^ 32 - 1) x.eccUncorrected (raw.countP fun m => decide (2 ≤ rawLanes m)) }

/-- A run ends with its first k sectors done: written unless it only checks, and checked unless it only writes (R318). -/
def tgEnds (s : State) (c k : Nat) (raw : List Mismatch) : State :=
  let x := s.chan c
  let s := if x.opMode = 1 then s else tgWrite s c (min k (tgCount x * 64))
  let s := if x.opMode = 0 then s else tgRecord s c (tgErrors s c k raw) raw
  s.modChan c fun x => { x with busy := false, done := true }

/-- TG_RUN_DONE: the last pass ends. -/
def tgDoneEffect (s : State) (c : Nat) (raw : List Mismatch) : State := tgEnds s c (tgCount (s.chan c) * 64) raw

def execTgRunDone (ch : Nat) (raw : List Mismatch) (s : State) : Host.Outcome State Fault Refusal :=
  occurs (okChannel ch && (s.chan ch).busy) (tgDoneEffect s ch raw) s

/-- STOP: the run ends at the next burst with what it has written and found, and TG_CTRL takes its fields (R316, R318). The order of its
writes is taken as rising (DESIGN CHOICE, log entry 75). -/
def tgStopEffect (s : State) (c : Nat) (ctrl : Word) (k : Nat) (raw : List Mismatch) : State :=
  chanWrite (if (s.chan c).busy then tgEnds s c k raw else s) c 0x010 ctrl 0

def execTgStop (w : TgStopped) (s : State) : Host.Outcome State Fault Refusal :=
  occurs (okChannel w.ch && w.ctrl.getLsbD 1) (tgStopEffect s w.ch w.ctrl w.written w.raw) s

/-- Step 4 of R296 on a channel: WRITE_READ_CHECK with ADDR, then with PRBS31, whose checker reads `raw` wrong. -/
def channelTest (s : State) (c : Nat) (raw : List Mismatch) : State :=
  let run (s : State) (mode : Nat) (raw : List Mismatch) : State :=
    tgDoneEffect (tgStartEffect (s.modHbm fun h => { h with testing := true }) c .startup (testCtrl mode)) c raw
  (run (run s 3 []) 4 raw).modHbm fun h => { h with testing := false }

/-- No sector of a test mismatches after correction. -/
def testPasses (raw : List Mismatch) : Bool := raw.all fun m => decide (rawLanes m < 2)

/-! ## Migration (R298 to R306) -/

def stackOf (c : Nat) : Nat := c / 32

/-- Channels under migration. -/
def migrating (s : State) : List Nat := (s.hbm.channels.filter fun (_, x) => x.phase != .idle).map (·.1)

/-- Whether a migration of c to t may start: t is the stack's spare, idle, and the limits of R298 hold. -/
def mayMigrate (s : State) (c t : Nat) : Bool :=
  let x := s.chan c
  (x.state == .active || x.state == .lost) && x.phase == .idle && Tab.get? s.hbm.spares (stackOf c) == some t
    && (s.chan t).state == .spare
    && !(migrating s).any (fun m => stackOf m == stackOf c) && decide ((migrating s).length < 4)

/-- The firmware names the target in the PERM entry of the source, in all eight map units (R282, R299 step 4). -/
def switchPerm (s : State) (c : Nat) : State :=
  s.modHbm fun h => { h with perm := h.perm.map fun e => if e = c then (s.chan c).migTarget else e }

/-- Step 3: the controller serves both channels' requests from the target (R301); step 4 follows as soon as the firmware serves. -/
def enterAlias (s : State) (c : Nat) : State :=
  let s := s.modChan c fun x => { x with phase := .alias_, watermark := 2 ^ 20 }
  if fwServes s then switchPerm s c else s

/-- The firmware writes STOP to a generator before a migration to its channel (R317): how far the run has come is free (DESIGN CHOICE, log
entry 75). -/
def stopGenerator (s : State) (c : Nat) : State :=
  if (s.chan c).busy then (tgEnds s c ((Config.freeWord s.free).toNat % (tgCount (s.chan c) * 64 + 1)) []).useFree else s

/-- Steps 1 and 2 of R299; a LOST source goes to ALIAS without a copy, with every granule of the target lost (R306). -/
def startMigration (s : State) (c t share : Nat) (cmd : Option Nat) : State :=
  let lost := (s.chan c).state == .lost
  let s := stopGenerator s t
  let s := s.modChan t fun x => { x with
    state := .migTarget, migFrom := some c, lostMap := lost, rewritten := [], partWritten := [], wq0 := [], wq1 := [] }
  -- a LOST source shows MIG_SOURCE as well (DESIGN CHOICE, log entry 132)
  let s := s.modChan c fun x => { x with
    state := .migSource, migTarget := t, share := share, phase := .copy, watermark := 0, migCmd := cmd }
  let s := s.modHbm fun h => { h with spares := Tab.erase h.spares (stackOf c), recordDirty := true }
  let s := repairLog s c t
  if lost then enterAlias s c else s

/-- A lane of a channel is judged failing: its symbol was corrected in 3 or more distinct rows within one hour (R295). -/
def laneFails (s : State) (c : Nat) : Bool :=
  (s.chan c).laneRows.any fun (_, l) =>
    decide (3 ≤ ((l.filter fun (_, t) => decide (s.time < t + 3600000000000)).map (·.1)).eraseDups.length)

/-- Retirement entries that name granules on a channel. -/
def entriesOn (s : State) (c : Nat) : Nat :=
  s.hbm.rt.countP fun (_, r) => r.valid && (List.range 2).any fun g => (homePlace s (r.page * 4096 + g * 2048)).1 == c

/-- The firmware starts a migration of a channel on its own (R298), of a LOST channel (R306), and, with the retirement table full, of
the channel with the most entries (R312). -/
def mustMigrate (s : State) (c : Nat) : Bool :=
  (s.chan c).state == .lost || laneFails s c || decide (56 ≤ (s.chan c).remaps.length) || decide (256 ≤ entriesOn s c)
    || ((freeRt s).isNone && (List.range 512).all fun k => decide (entriesOn s k ≤ entriesOn s c))

/-- MIGRATION_START: the firmware writes MIG_CTRL with START (R299, R316). -/
def execMigrationStart (ch : Nat) (ctrl : Word) (s : State) : Host.Outcome State Fault Refusal :=
  let t := bitsOf ctrl.toNat 24 16
  let share := bitsOf ctrl.toNat 14 8
  occurs (fwServes s && okChannel ch && ctrl.getLsbD 0 && decide (10 ≤ share) && decide (share ≤ 50) && mustMigrate s ch
      && mayMigrate s ch t)
    (startMigration s ch t share none) s

/-- An abort before step 3: mirrored writes stop, the source stays ACTIVE, the target becomes REPAIR (R303). An HBM_MIGRATE ends with
ABORTED, as MIG_STATUS reports (DEDUCED, log entry 22). -/
def abortMigration (s : State) (c : Nat) : State :=
  let x := s.chan c
  let s := s.modChan x.migTarget fun y => { y with state := .repair, migFrom := none, wq0 := [], wq1 := [] }
  let s := s.modChan c fun y => { y with state := .active, phase := .idle, migAborted := true, migCmd := none }
  let s := repairLog s c x.migTarget
  match x.migCmd with
  | some n => fail s n .aborted {}
  | none => s

def execMigrationAbort (ch : Nat) (why : MigAbort) (s : State) : Host.Outcome State Fault Refusal :=
  let x := s.chan ch
  occurs (live s && okChannel ch && x.state == .migSource && x.phase == .copy && (why != .firmware || fwServes s)) (abortMigration s ch) s

/-- The cells with those of the granules from lo up to hi of channel t replaced by channel c's. -/
def copyCells (m : Memory) (c t lo hi : Nat) : Memory :=
  (m.filter fun (a, _) => cellIn c lo hi a).foldl (fun m (a, b) => Tab.set m (t * 2 ^ 31 + a % 2 ^ 31) b) (m.filter fun (a, _) => !cellIn t lo hi a)

/-- The part of a channel's fills that lies in the granules from lo up to hi, zeros behind it. -/
def clipFills (fs : List Fill) (lo hi : Nat) : List Fill :=
  (fs.filterMap fun f => if max f.lo lo < min f.hi hi then some { f with lo := max f.lo lo, hi := min f.hi hi } else none)
    ++ [{ lo := lo, hi := hi, mode := 0, seed := 0, user := 0 }]

/-- Granules from lo up to hi of a channel that hold an uncorrectable sector. -/
def badGranules (s : State) (c lo hi : Nat) : List Nat :=
  (((s.chan c).flips.filter fun (k, l) => decide (2 ≤ l.length) && decide (lo ≤ k / 64) && decide (k / 64 < hi)).map (·.1 / 64)).eraseDups

/-- The page of a local granule of channel c is retired with that granule lost (R304) (DEDUCED, log entry 67). -/
def retireGranule (s : State) (c g : Nat) : State :=
  match pageOf s c g with
  | some (page, k) => retireWhenServed s page (BitVec.twoPow 2 k)
  | none => s

/-- The copy has reached granule n: the granules from WATERMARK on are in the target (DESIGN CHOICE, log entry 12), and writes below n go to
both channels from now on (R300). Granules whose copy read was uncorrectable are lost (R304). Past the last granule step 3 follows. -/
def copyTo (s : State) (c n : Nat) (bad : List Nat) : State :=
  let t := (s.chan c).migTarget
  let s := drainQueue (drainQueue s c 0 64) c 1 64
  let x := s.chan c
  let lo := x.watermark
  let wrong := (bad ++ badGranules s c lo n).eraseDups
  let s := s.modHbm fun h => { h with cells := copyCells h.cells c t lo n }
  let s := s.modChan t fun y => { y with
    fills := clipFills x.fills lo n ++ y.fills
    flips := (Tab.keep y.flips fun k _ => decide (k / 64 < lo) || decide (n ≤ k / 64)).foldl (fun m (k, l) => Tab.set m k l)
      (Tab.keep x.flips fun k l => decide (2 ≤ l.length) && decide (lo ≤ k / 64) && decide (k / 64 < n))
    lostMap := x.lostMap, rewritten := x.rewritten, partWritten := x.partWritten }
  let s := s.modChan c fun y => { y with watermark := n }
  let s := wrong.foldl (fun s g => retireGranule (countUncorrected s c) c g) s
  if n = 2 ^ 20 then enterAlias s c else s

/-- MIGRATION_COPY_DONE: the copy has got as far as granule upTo, at 2^20 to its end (R299, R300). -/
def execMigrationCopyDone (ch : Nat) (m : CopyPiece) (s : State) : Host.Outcome State Fault Refusal :=
  let x := s.chan ch
  occurs (live s && okChannel ch && x.state == .migSource && x.phase == .copy && decide (x.watermark < m.upTo) && decide (m.upTo ≤ 2 ^ 20)
      && m.bad.all fun g => decide (x.watermark ≤ g) && decide (g < m.upTo))
    (copyTo s ch m.upTo m.bad) s

/-- R313: an entry whose granules failed only on the migrated source is copied back to its home and cleared; not one with a LOST bit. -/
def releaseEntry (s : State) (t : Nat) (n : Nat) (r : RtEntry) : State :=
  let here := (List.range 2).all fun g =>
    !bitOf r.failed.toNat g || (homePlace s (r.page * 4096 + g * 2048)).1 == t
  if r.valid && r.lost == 0 && r.failed != 0 && here then
    let s := s.modHbm fun h => { h with rt := Tab.set h.rt n { r with releasing := true } }
    let data := (List.range 2).map fun g => (List.range 64).map fun i => memSector s (r.page * 4096 + g * 2048 + i * 32)
    let s := s.modHbm fun h => { h with rt := Tab.erase h.rt n, recordDirty := true }
    (List.range 2).foldl (fun s g => (List.range 64).foldl (fun s i =>
      hbmPut s (r.page * 4096 + g * 2048 + i * 32) ((data.getD g []).getD i 0) (BitVec.allOnes 32)) s) s
  else s

/-- Step 7: the firmware releases the retirement entries of a migration to t (R313). -/
def releaseEntries (s : State) (t : Nat) : State := s.hbm.rt.foldl (fun s (n, r) => releaseEntry s t n r) s

/-- Step 6: the target is ACTIVE, the source REPAIR (R299); step 7 follows as soon as the firmware serves (R305). A target lost in ALIAS stays
LOST (DEDUCED, log entry 130). -/
def endMigration (s : State) (c : Nat) : State :=
  let t := (s.chan c).migTarget
  let s := s.modChan t fun y => { y with state := if y.state = .lost then .lost else .active, migFrom := none }
  let s := s.modChan c fun y => { y with
    state := .repair, phase := .idle, migDone := true, markers := [], lostMap := false, rewritten := [], partWritten := []
    wq0 := [], wq1 := [] }
  let s := s.modHbm fun h => { h with migrations := h.migrations + 1, recordDirty := true }
  let s := if fwServes s then releaseEntries s t else s.modHbm fun h => { h with dueRelease := h.dueRelease ++ [t] }
  noticeId (repairLog s c t)

/-- DRAIN_MARKER of a map unit (R302); step 4 comes first where the firmware has not made it yet. -/
def markerEffect (s : State) (c unit : Nat) : State :=
  let s := if s.hbm.perm.contains c then switchPerm s c else s
  let s := s.modChan c fun x => { x with markers := if x.markers.contains unit then x.markers else x.markers ++ [unit] }
  if 8 ≤ (s.chan c).markers.length then endMigration s c else s

/-- The firmware sends the markers after step 4; one that is on its way arrives during an activation as well (R305). -/
def execDrainMarker (ch unit : Nat) (s : State) : Host.Outcome State Fault Refusal :=
  occurs (live s && (fwServes s || !s.hbm.perm.contains ch) && okChannel ch && okDie unit && (s.chan ch).phase == .alias_)
    (markerEffect s ch unit) s

/-- Steps 8 and 9: the released channel is retrained, its remapped rows are repaired for good, and it is tested; it is SPARE, or FAILED
when that fails (R299). The HBM_MIGRATE that asked for it completes (R542). -/
def repairEffect (s : State) (c : Nat) (lanes : Option Lanes) (repaired : Bool) (raw : List Mismatch) : State :=
  let cmd := (s.chan c).migCmd
  let t := (s.chan c).migTarget
  let pass := trains lanes && repaired && testPasses raw
  let s := if trains lanes then s.modChan c fun x => { x with spareLanes := lanes.getD [] } else s
  let s := if trains lanes && repaired then channelTest s c raw else s
  let s := s.modChan c fun x => { x with
    state := if pass then .spare else .failed, migCmd := none
    remaps := if pass then [] else x.remaps, rowErrors := [], laneRows := [] }
  let s := s.modHbm fun h => { h with
    recordDirty := true, spares := if pass then Tab.set h.spares (stackOf c) c else h.spares }
  let s := noticeId s
  match cmd with
  | some n => succeed s n { dw2 := t }
  | none => s

def execMigrationRepair (ch : Nat) (m : SourceRepair) (s : State) : Host.Outcome State Fault Refusal :=
  occurs (fwServes s && okChannel ch && (s.chan ch).state == .repair) (repairEffect s ch m.lanes m.repaired m.raw) s

/-- Tiles of T2 with a granule on a channel. -/
def tilesOn (s : State) (c : Nat) : List Nat :=
  (s.tiers.map.filter fun (_, e) => e.tier == 2 && (List.range 32).any fun g =>
    match mapAddr s (e.location * 65536 + g * 2048) with | some (k, _, _) => servedBy s k == c | none => false).map (·.1)

/-- A channel is LOST: every request to it ends with DATA_ERROR, and the objects on it are lost (R306, R642). A migration that was
copying it ends, with its target in REPAIR (DEDUCED, log entry 23). -/
def channelLostEffect (s : State) (c : Nat) : State :=
  let s := if (s.chan c).phase = .copy then abortMigration s c else s
  let ts := tilesOn s c
  let s := s.modChan c fun x => { x with state := .lost, lostMap := true, rewritten := [], partWritten := [], wq0 := [], wq1 := [], arb0 := {}, arb1 := {} }
  let s := repairLog s c 0
  let z (t : Nat) : Cause := { kind := kindHbmData, loc := (s.tile t).location * 65536, detail := c }
  let s := oneEvent s false {} fun s => ts.foldl (fun s t => loseTile (endReaders s t .dataError (z t)) t) s
  notice s lidHealth

/-- The channel serves: it is ACTIVE, the source of a copy, or the target that serves an alias (R293, R301). -/
def channelServes (s : State) (c : Nat) : Bool :=
  let x := s.chan c
  x.state == .active || (x.state == .migSource && x.phase == .copy)
    || (x.state == .migTarget && match x.migFrom with | some k => (s.chan k).phase == .alias_ | none => false)

def execChannelLost (ch : Nat) (s : State) : Host.Outcome State Fault Refusal :=
  occurs (live s && okChannel ch && channelServes s ch) (channelLostEffect s ch) s

/-- REPAIR_RECORD_WRITE: the record in the flash system area takes the tables as they stand (R314). -/
def recordEffect (s : State) : State :=
  s.modHbm fun h => { h with
    recordDirty := false
    record := Tab.map h.channels (·.remaps)
    recordLanes := Tab.map h.channels (·.spareLanes)
    recordRt := h.rt
    recordFailed := (h.channels.filter fun (_, x) => x.state == .failed).map (·.1)
    recordSpares := h.spares }

def execRepairRecordWrite (s : State) : Host.Outcome State Fault Refusal :=
  occurs (fwServes s && s.hbm.recordDirty && s.flash.state != .absent) (recordEffect s) s

end Sys2Proof.Machine
end

