-- ==== Sys2Proof/Machine/Ingest.lean ====
section
/-! DEFINITION. Inserts, deletes and index maintenance (R158 to R195, R674, R675): preparing and grouping mutations, commits, appends,
compaction, the ceilings, the image and journal, and the cutover of a maintenance command. -/

namespace Sys2Proof.Machine

open Sys2Proof

/-! ## Members of a collection (R49, R569 to R571) -/

/-- The lowest-numbered member is the epoch home; a collection of this device alone is its own (R569). -/
def epochHome (s : State) (c : Collection) : Nat := minOf s.net.deviceNumber c.members

def isHome (s : State) (c : Collection) : Bool := c.members.isEmpty || c.members.all fun m => decide (s.net.deviceNumber ≤ m)

/-- The other members. -/
def others (s : State) (c : Collection) : List Nat := c.members.filter (· != s.net.deviceNumber)

/-- A member learns an epoch: the newest first, and beside those of the last 10 ms the newest one before (R571). -/
def learnEpoch (s : State) (i e : Nat) : State :=
  let now := islandCount s 102
  s.modColl i fun c =>
    let old := c.beacons.filter fun (t, _) => decide (t + 10000000 ≤ now)
    let new := c.beacons.filter fun (t, _) => !decide (t + 10000000 ≤ now)
    { c with beacons := (now, e) :: new ++ old.take 1 }

/-- The epoch home sends the published epoch to every other member, and learns it itself (R571). -/
def sendBeacons (s : State) (i : Nat) : State :=
  match s.coll? i with
  | none => s
  | some c =>
    if isHome s c && !c.members.isEmpty then
      learnEpoch ((others s c).foldl (fun s d =>
        sendPacket s (mkPacket s 0x27 d 0 (leBytes 4 (handleOf c.gen i).toNat ++ leBytes 8 c.published))) s) i c.published
    else s

/-! ## Order within a queue (R175) -/

def sqOf (c : Cmd) : Option (PortId × Nat) := match c.origin with | .sq p q => some (p, q) | _ => none

/-- Commands of the same queue and collection placed before command n. -/
def earlier (s : State) (n : Nat) (c : Cmd) : List (Nat × Cmd) :=
  match sqOf c with
  | none => []
  | some k => s.cmds.filter fun (m, x) => decide (m < n) && sqOf x == some k && onColl (eIndex c.entry) x

/-- A reader that has not taken its snapshot. -/
def unread (x : Cmd) : Bool := isReader (eOpcode x.entry) && x.stage != .decided && x.snapshot.isNone

/-! ## Preparing (R164, R165, R168) -/

/-- The maintenance that slot i is to cut over with, and the slot that holds it: its own, or its template's while it still waits (R192,
R195). -/
def maintOf (s : State) (i : Nat) (c : Collection) : Option (Nat × Maint) :=
  match c.maint with
  | some m => some (i, m)
  | none =>
    let t := c.attrs.codebookSource.toNat % 65536
    if c.attrs.codebookSource = 0 then none
    else match (s.coll? t).bind (·.maint) with
      | some m => if m.waits.contains i then some (t, m) else none
      | none => none

/-- A shadow exists for slot i. -/
def shadowed (s : State) (i : Nat) (c : Collection) : Bool := (maintOf s i c).isSome

/-- The shadow affects a list (R192). -/
def affected (s : State) (i : Nat) (c : Collection) (l : Nat) : Bool :=
  match maintOf s i c with
  | some (_, m) => (match m.kind with | .split x => x == l | _ => true)
  | none => false

/-- The lists a record's copy goes to in the shadow: its own under RETRAIN, R80 over all lists under REBUILD, R80 over the two lists
under LIST_SPLIT; a copy of a record that has its other copy elsewhere goes to the nearer of the two (DESIGN CHOICE, log entry 25). -/
def shadowTargets (a : Attrs) (m : Maint) (l : Nat) (spilled : Bool) (x : List F32) : List Nat :=
  match m.kind with
  | .retrain => [l]
  | .rebuild => assignLists a (coarseOrder a m.centroids x (List.range m.listCount))
  | .split k =>
    let order := coarseOrder a m.centroids x [k, m.listCount - 1]
    if spilled then (order.head?.map fun y => [y.2]).getD [k] else assignLists a order

/-- The shadow's copies of an insert into given lists: each of their list and code, from the working vector (R192). -/
def preparedCopies (a : Attrs) (m : Maint) (lists : List Nat) (x : List F32) : List (Nat × List Nat) :=
  let a := { a with listCount := m.listCount }
  let from_ := match m.kind with
    | .retrain => lists
    | .rebuild => lists.take 1
    | .split k => lists.filter (· == k)
  (from_.flatMap fun l => shadowTargets a m l (decide (1 < lists.length)) x).map fun t => (t, encode70 a m.codebook m.centroids x t)

def ceil64 (n : Nat) : Nat := ceilDiv n 64 * 64

/-- Bytes that an item's staging entry needs before its lists are known (R168). -/
def itemNeed (a : Attrs) (shadow : Bool) (text : Bool) (len : Nat) : Nat :=
  let codes := 1 + b2n (a.spillMode != .off) + b2n shadow
  ceil64 (64 + codes * a.codeBytes + fullBytes a) + if text then ceil64 len else 0

/-- Bytes that it takes once they are, with one more code where a shadow exists, as R168 counts it (R167; DEDUCED, log entry 136). -/
def entryBytes (a : Attrs) (copies : Nat) (shadow : Bool) : Nat := ceil64 (64 + (copies + b2n shadow) * a.codeBytes + fullBytes a)

/-- The staging space of a whole INSERT or UPSERT. -/
def mutationNeed (s : State) (i : Nat) (c : Collection) (e : BitVec 1024) (inp : List Byte) : Nat :=
  ((itemOffsets inp (eCount e) 0).map fun o =>
    itemNeed c.attrs (shadowed s i c) (eInputFormat e == 3) (field inp (o + 16) 4)).foldl (· + ·) 0

/-- An item in its stored and working forms; a TEXT item stays as it is until it is embedded. -/
def prepareItem (a : Attrs) (fmt : Nat) (x : Item) : Item :=
  if fmt = 3 then x
  else
    let v := widen (if fmt = 0 then .fp32 else a.fullFormat) a.int8Scale a.dim x.data
    match prepareVec a v with
    | some (full, w) => { x with full := full, working := w }
    | none => x

/-- IDs that a mutation names: those of its items that carry one, or of its list (R170). -/
def namedIds (c : Collection) (x : Cmd) : List (BitVec 48) :=
  if eOpcode x.entry = 2 ∧ c.attrs.hostIds = false then [] else x.work.items.map (·.vid)

/-! ## Commit groups (R170, R171) -/

/-- Closes a group: from here its members can no longer be aborted (R177, R512). -/
def closeGroup (s : State) (i g : Nat) : State :=
  match (s.coll? i).bind fun c => Tab.get? c.groups g with
  | none => s
  | some x =>
    if x.closed then s
    else
      let s := s.modColl i fun c => { c with groups := Tab.set c.groups g { x with closed := true } }
      x.members.foldl (fun s n => s.modCmd n fun c => { c with word := if c.word = .running then .committing else c.word }) s

/-- The group that is open. -/
def openGroup (c : Collection) : Option (Nat × Group) := c.groups.find? fun (_, g) => !g.closed

def groupIds (s : State) (c : Collection) (g : Group) : List (BitVec 48) :=
  g.members.flatMap fun n => match s.cmd? n with | some x => namedIds c x | none => []

def groupCount (s : State) (g : Group) : Nat :=
  (g.members.map fun n => match s.cmd? n with | some x => x.work.items.length | none => 0).foldl (· + ·) 0

/-- The commit window of a class (R171). -/
def windowOf (s : State) (cls : Nat) : Nat := s.features.commitWindow.getD cls 0

/-- A prepared mutation joins the open group of its collection, or opens the next; the group closes at once where R170 says so. -/
def joinGroup (s : State) (n : Nat) : State :=
  match s.cmd? n with
  | none => s
  | some x =>
    let i := eIndex x.entry
    match s.coll? i with
    | none => s
    | some c =>
      let ids := namedIds c x
      let k := x.work.items.length
      let fits (g : Group) : Bool :=
        !(groupIds s c g).any (ids.contains ·) && decide (groupCount s g + k ≤ 16384)
      let s := match openGroup c with
        | some (g, y) => if fits y then s else closeGroup s i g
        | none => s
      let put (g : Nat) (y : Group) (s : State) : State :=
        let s := s.modColl i fun c => { c with groups := Tab.set c.groups g { y with members := y.members ++ [n] } }
        let s := s.modWork n fun w => { w with group := some g }
        let full := decide (16384 ≤ groupCount s { y with members := y.members ++ [n] })
        let reader := match sqOf x with
          | some q => s.cmds.any fun (m, z) => decide (n < m) && sqOf z == some q && onColl i z && unread z
          | none => false
        if full || reader || windowOf s (eClass x.entry) == 0 then closeGroup s i g else s
      match (s.coll? i).bind openGroup with
      | some (g, y) => put g y s
      | none =>
        let g := c.nextGroup
        put g { members := [], closed := false } (s.modColl i fun c => { c with nextGroup := g + 1 })

/-- A SEARCH or FETCH fetched from a queue closes the groups that hold a member of it (R170). -/
def closeForReader (s : State) (i : Nat) (k : PortId × Nat) : State :=
  match s.coll? i with
  | none => s
  | some c =>
    (c.groups.filter fun (_, g) => g.members.any fun m => match s.cmd? m with | some x => sqOf x == some k | none => false).foldl
      (fun s (g, _) => closeGroup s i g) s

/-- A FLUSH closes every group of slot i; answers those it waits for (R182). -/
def closeForFlush (s : State) (i : Nat) : State × List (Nat × Nat) :=
  match s.coll? i with
  | none => (s, [])
  | some c =>
    let gs := (c.groups.filter fun (_, g) => !g.members.isEmpty).map (·.1)
    (gs.foldl (fun s g => closeGroup s i g) s, gs.map fun g => (i, g))

/-- COMMIT_WINDOW_EXPIRY of a group with a member. -/
def execCommitWindowExpiry (coll group : Nat) (s : State) : Host.Outcome State Fault Refusal :=
  let ok := match (s.coll? coll).bind fun c => Tab.get? c.groups group with
    | some g => !g.closed && !g.members.isEmpty
    | none => false
  occurs (live s && ok) (closeGroup s coll group) s

/-! ## Staging at admission (R167, R168) -/

/-- Stages the prepared items of command n, without an epoch. -/
def stageItems (s : State) (n i : Nat) (items : List Item) (need : Nat) : State :=
  match s.coll? i with
  | none => s
  | some c =>
    let base := c.nextStaged
    let numbered := (items.zipIdx).map fun (x, k) => { x with entry := base + k }
    let mk (x : Item) : Staged :=
      { cmd := n, insE := none, delE := none, vid := x.vid, attr := x.attr, lists := [], codes := [], full := x.full
        working := x.working, appended := [], tokens := x.tokens, bytes := 0 }
    let s := s.modColl i fun c => { c with
      staging := numbered.foldl (fun t x => Tab.set t x.entry (mk x)) c.staging
      nextStaged := base + items.length, stagingUsed := c.stagingUsed + need }
    s.modWork n fun w => { w with items := numbered, staged := need }

/-! ## Commit (R172) -/

/-- The failure of a mutation at an item: FAILED_ITEM in DW3 (R496). -/
def failItem (s : State) (n : Nat) (st : Status) (item : Nat) : State :=
  decide_ s n { status := st, dw3 := item } [] 1 {}

/-- Lists that hold copies of a version: those of its slots once every staged copy has one, which a cutover moves, else those it was staged for. -/
def entryLists (c : Collection) (e : IdEntry) : List Nat :=
  match e.staged.bind (Tab.get? c.staging ·), decide (copiesOf c e ≤ e.slots.length) with
  | some x, false => x.lists
  | _, _ => e.slots.map fun (t, _) => (Tab.getD c.segs t (noSegment 0)).list

/-- Writes a delete epoch to every copy that an ID map entry names, and to the size logs of its lists. -/
def deleteVersion (c : Collection) (v : IdEntry) (e : Nat) : Collection :=
  let lists := entryLists c v
  let c := match v.staged with
    | some k => { c with staging := Tab.adjust c.staging k fun x => { x with delE := some e } }
    | none => c
  let c := v.slots.foldl (fun (c : Collection) (t, i) => { c with segs := Tab.adjust c.segs t fun g => markDeleted g i e }) c
  lists.foldl (fun c l => logSize c l e (-1)) c

/-- The checks of a command against the latest state: status and item (R63, R64, R162). -/
def commitCheck (c : Collection) (x : Cmd) : Option (Status × Nat) :=
  let its := x.work.items.zipIdx
  match eOpcode x.entry with
  | 0x02 =>
    if c.attrs.hostIds then
      (its.find? fun (y, _) => (current c y.vid).isSome).map fun (_, k) => (.idExists, k)
    else if 2 ^ 34 < c.nextLocal + x.work.items.length then some (.idExhausted, 2 ^ 34 - c.nextLocal) else none
  | 0x03 =>
    if c.attrs.hostIds then none
    else (its.find? fun (y, _) => (current c y.vid).isNone).map fun (_, k) => (.idNotFound, k)
  | _ => none

/-- Inserts one item at epoch e: its lists and codes by the books in force, its copies for a shadow m, its staging entry, its ID map entry
(R166, R172, R192). -/
def insertItem (c : Collection) (book cents : List B16) (m : Option Maint) (dev : Nat) (insert : Bool) (e : Nat) (x : Item) :
    Collection × BitVec 48 :=
  let a := c.attrs
  let vid := if insert && !a.hostIds then makeId dev c.nextLocal else x.vid
  let c := if insert && !a.hostIds then { c with nextLocal := c.nextLocal + 1 } else c
  let old := Tab.get? c.idMap vid.toNat
  let c := match old with
    | some o => if (entryDel c o).isNone then deleteVersion c o e else c
    | none => c
  let lists := assignLists a (coarseOrder a cents x.working (List.range a.listCount))
  let codes := lists.map fun l => encode70 a book cents x.working l
  let c : Collection := { c with
    staging := Tab.adjust c.staging x.entry fun y => { y with
      insE := some e, vid := vid, lists := lists, codes := codes, full := x.full, working := x.working, tokens := x.tokens
      bytes := entryBytes a lists.length m.isSome }
    prepared := match m with
      | some m => Tab.set c.prepared (fullKey vid e) (preparedCopies a m lists x.working)
      | none => c.prepared
    idMap := Tab.set c.idMap vid.toNat { ins := e, staged := some x.entry, slots := [] }
    versions := match old with
      | some o => c.versions ++ [{ vid := vid, epoch := e, old := o }]
      | none => c.versions
    stagingUsed := c.stagingUsed + entryBytes a lists.length m.isSome }
  (lists.foldl (fun c l => logSize c l e 1) c, vid)

/-- Inserts items in order; answers their IDs. -/
def insertAll (book cents : List B16) (m : Option Maint) (dev : Nat) (insert : Bool) (e : Nat) : List Item → Collection → Collection × List (BitVec 48)
  | [], c => (c, [])
  | x :: t, c =>
    let (c, v) := insertItem c book cents m dev insert e x
    let (c, vs) := insertAll book cents m dev insert e t c
    (c, v :: vs)

/-- What a commit leaves of a member: the collection, and the member's completion with its result; a completion of none says that it
changed nothing, so that it makes no commit (R163). -/
structure Committed where
  coll : Collection
  changed : Bool
  done : List (Nat × Completion × List Byte)

/-- Performs one member at epoch e. -/
def commitMember (s : State) (dev e : Nat) (acc : Committed) (n : Nat) : Committed :=
  match s.cmd? n with
  | none => acc
  | some x =>
    let c := acc.coll
    match commitCheck c x with
    | some (st, item) => { acc with done := acc.done ++ [(n, { status := st, dw3 := item }, [])] }
    | none =>
      if eOpcode x.entry = 4 then
        let hit := x.work.items.filter fun y => (current c y.vid).isSome
        let c := hit.foldl (fun c y => match current c y.vid with | some v => deleteVersion c v e | none => c) c
        let k : Completion := { epoch := if hit.isEmpty then c.published else e, dw2 := hit.length, dw3 := 0xFFFFFFFF }
        { coll := c, changed := acc.changed || !hit.isEmpty, done := acc.done ++ [(n, k, [])] }
      else
        let v := dirFor c c.published
        let (book, cents) := bookOf s c v.cbGen v.listCount
        let c := { c with stagingUsed := c.stagingUsed - x.work.staged }
        let m := (maintOf s (eIndex x.entry) c).map (·.2)
        let (c, vs) := insertAll book cents m dev (eOpcode x.entry == 2) e x.work.items c
        let res := vs.flatMap fun v => leBytes 8 v.toNat
        let k : Completion := { epoch := e, dw2 := vs.length, dw3 := 0xFFFFFFFF, resultLength := res.length }
        { coll := c, changed := true, done := acc.done ++ [(n, k, res)] }

/-- LOCAL values that the inserts of a group need (R674). -/
def localNeed (s : State) (c : Collection) (g : Group) : Nat :=
  if c.attrs.hostIds then 0
  else (g.members.map fun n => match s.cmd? n with
    | some x => if eOpcode x.entry = 2 then x.work.items.length else 0
    | none => 0).foldl (· + ·) 0

/-- The commit waits on the ID ceiling. -/
def idCeilingWaits (s : State) (c : Collection) (g : Group) : Bool :=
  decide (c.idCeiling < 2 ^ 34) && decide (c.idCeiling < c.nextLocal + localNeed s c g) && decide (0 < localNeed s c g)

def lastEpoch : Nat := 2 ^ 64 - 1

/-- A member's turn has come: every mutation placed before it in its queue has committed, failed or is in the group, and every reader
placed before it has its snapshot (R175). -/
def memberReady (s : State) (g : Group) (n : Nat) : Bool :=
  match s.cmd? n with
  | none => true
  | some x => (earlier s n x).all fun (m, y) =>
      !(isMutation (eOpcode y.entry) && y.stage != .decided && !g.members.contains m) && !unread y

/-- Delivers the completions that a commit leaves. -/
def deliverDone (s : State) (l : List (Nat × Completion × List Byte)) : State :=
  l.foldl (fun s (n, k, r) =>
    decide_ (if informational k.status then s.modWork n fun w => { w with staged := 0 } else s) n k r 8 {}) s

/-! ### FLUSH (R182, R183) -/

/-- The durable epoch of a slot (R529). -/
def durableEpoch (s : State) (i : Nat) : Nat := (((s.coll? i).bind (·.image)).map (·.epoch)).getD 0

/-- Tiles of an image whose data is not all on flash yet. -/
def unprogrammed (s : State) (img : Image) : List Nat :=
  (img.tiles ++ img.mirrors).filter fun t => s.flash.wbuf.contains t

/-- A record committed after the last image or journal entry lies where it cannot be read, so that no image can take it (R630, R631). -/
def imageUnreadable (s : State) (c : Collection) : Bool :=
  let floor := (c.image.map (·.epoch)).getD 0
  c.idMap.any fun (v, e) =>
    decide (floor < e.ins) && (entryDel c e).isNone &&
      ((e.slots.any fun (t, _) => (s.tile t).lost) || fullLost s c (BitVec.ofNat 48 v) e.ins || tokensLost s c (BitVec.ofNat 48 v) e.ins)

/-- The cause of an image that lost tiles do not allow (R628, R676). -/
def lostCause (s : State) (i : Nat) (c : Collection) : Cause :=
  let ts := (collTiles c).filter fun t => (s.tile t).lost
  { kind := kindLostObject, loc := ts.headD 0, detail := lostDetail (collHandle s i).toNat (s.tile (ts.headD 0)).kind 0 0 }

/-- Begins to bring the T4 image and journal of slot i to the published epoch: an append of the missing commits, or a whole image where
there is none or `whole` says so (R184). None when T4 grants no space (R429). -/
def startImage (s : State) (i : Nat) (whole : Bool) : Option State :=
  match s.coll? i with
  | none => none
  | some c =>
    let old := c.image
    let n := imageTiles c
    let append := old.isSome && !whole
    let k := if append then journalTiles c (durableEpoch s i) else n
    if !t4Grants s (2 * k) then none
    else match takeMirrored k s with
      | none => none
      | some (ts, us, s) =>
        let img := imageOf c c.published ts us
        let img := match old, append with
          | some o, true => { img with
              imageEpoch := o.imageEpoch, tiles := o.tiles ++ ts, mirrors := o.mirrors ++ us, imageTiles := o.imageTiles }
          | _, _ => img
        some (queueT4 (s.modColl i fun c => { c with pendingImage := some img }) (ts ++ us))

/-- What a FLUSH still waits for of its durable targets. -/
def durableLeft (s : State) (l : List (Nat × Nat)) : List (Nat × Nat) :=
  l.filter fun (i, e) => (s.coll? i).isSome && decide (durableEpoch s i < e)

/-- Sends a request to the control line of slot i at its epoch home (R570): by its device-physical address, under no window. -/
def homeRequest (s : State) (i : Nat) (w : PeerWaiter) (type off len : Nat) (payload : List Byte) : State :=
  match s.coll? i with
  | none => s
  | some c =>
    let dest := epochHome s c
    let a := heldBase + i % 64 * 0x400000 + i / 64 * 128 + off
    sendPacket (openPeer s dest w) { mkPacket s type dest s.net.nextTxn payload with length := len, cls := 0, offset := a }

/-- A FLUSH of a collection whose epoch home is another member needs the published epoch of that home (R182). -/
def needsHome (s : State) (x : Cmd) : Bool :=
  eHandle x.entry != 0 && (match s.coll? (eIndex x.entry) with | some c => !isHome s c | none => false)

/-- Completes a FLUSH whose groups are published and whose targets are durable; where another member is the epoch home, PUBLISHED is read
there first. -/
def settleFlush (s : State) (n : Nat) : State :=
  match s.cmd? n with
  | none => s
  | some x =>
    if eOpcode x.entry != 6 || x.stage != .admitted || !x.work.flushOf.isEmpty || !x.work.members.isEmpty then s
    else
      let left := durableLeft s x.work.durableOf
      if left.isEmpty && needsHome s x && x.work.homeEpoch.isNone then
        if s.net.peers.any fun (_, r) => r.waiter == .command n then s
        else homeRequest s (eIndex x.entry) (.command n) 0x01 0 8 []
      else if left.isEmpty then
        let i := eIndex x.entry
        let named := eHandle x.entry != 0
        let e := if named then ((s.coll? i).map (·.published)).getD 0 else 0
        let e := match x.work.durableOf with | [(_, t)] => if named then t else e | _ => e
        let e := x.work.homeEpoch.getD e
        let d := if eDurable x.entry && named then durableEpoch s i else 0
        succeed s n { epoch := e, dw2 := d % 2 ^ 32, dw3 := d / 2 ^ 32 }
      else s.modWork n fun w => { w with durableOf := left ++ (w.durableOf.filter fun t => !left.contains t) }

/-- A T4 write cannot be made: a durable FLUSH ends with a status and reports what did become durable (R183). -/
def failDurable (s : State) (n : Nat) (st : Status) (z : Cause) : State :=
  match s.cmd? n with
  | none => s
  | some x =>
    let d := if eHandle x.entry = 0 then 0 else durableEpoch s (eIndex x.entry)
    decide_ s n { status := st, dw2 := d % 2 ^ 32, dw3 := d / 2 ^ 32 } [] 1 z

/-- Starts the journal writes that a durable FLUSH needs, as soon as the firmware serves (R184, R187). -/
def startDurable (s : State) (n : Nat) : State :=
  match s.cmd? n with
  | none => s
  | some x =>
    if !fwServes s then s
    else (durableLeft s x.work.durableOf).foldl (fun s (i, _) =>
      match s.coll? i with
      | none => s
      | some c =>
        if c.pendingImage.isSome then s
        else if imageUnreadable s c then failDurable s n .dataError (lostCause s i c)
        else match startImage s i false with
          | some s => s
          | none => failDurable s n .noSpace { kind := kindTier, loc := i, detail := 4 }) s

/-- Once its groups are published, a durable FLUSH takes its targets: the published epoch of each collection it names (R183). -/
def flushTargets (s : State) (n : Nat) : State :=
  match s.cmd? n with
  | none => s
  | some x =>
    if eOpcode x.entry != 6 || x.stage != .admitted || !x.work.flushOf.isEmpty || !eDurable x.entry || !x.work.durableOf.isEmpty then s
    else
      let is := if eHandle x.entry = 0 then Tab.keys s.colls else [eIndex x.entry]
      let ts := is.filterMap fun i => (s.coll? i).map fun c => (i, c.published)
      startDurable (s.modWork n fun w => { w with durableOf := ts }) n

/-- A group is gone: FLUSH commands that waited for it go on. -/
def groupGone (s : State) (i g : Nat) : State :=
  let ns := (s.cmds.filter fun (_, x) => x.work.flushOf.contains (i, g)).map (·.1)
  ns.foldl (fun s n =>
    let s := s.modWork n fun w => { w with flushOf := w.flushOf.filter (· != (i, g)) }
    settleFlush (flushTargets s n) n) s

/-! ### The commit itself -/

/-- The tokens of the records inserted at epoch e go to the token store (R229); none when T2 has no room. -/
def storeTokens (s : State) (i e : Nat) : Option State :=
  (((s.coll? i).map (·.staging)).getD []).foldl (fun s (_, x) =>
    if x.insE = some e then s.bind fun s => (s.coll? i).bind fun c => putTokens s i c (fullKey x.vid e) x.tokens else s) (some s)

/-- Performs a group at epoch e on slot i: writes first, then the published epoch (R84, R172); none while T2 has no room for a page of the ID map,
a tombstone block or tokens that it needs (DEDUCED, log entry 39). -/
def performGroup (s : State) (i g e : Nat) : Option (State × List (Nat × Completion × List Byte)) :=
  match s.coll? i with
  | none => none
  | some c =>
    match Tab.get? c.groups g with
    | none => none
    | some x =>
      let r := x.members.foldl (commitMember s s.net.deviceNumber e) { coll := applyAttrs c, changed := false, done := [] }
      let c' := { r.coll with groups := Tab.erase r.coll.groups g, published := if r.changed then e else c.published }
      ((growIndex { s with colls := Tab.set s.colls i c' } i).bind fun s => storeTokens s i e).map fun s => (s, r.done)

/-- Acquires the commit word of the epoch home by a compare-and-swap (R570): CAS of 1 against 0. -/
def acquireHome (s : State) (i : Nat) : State := homeRequest s i (.commit i) 0x03 8 18 (leBytes 1 8 ++ leBytes 1 8 ++ leBytes 8 1 ++ leBytes 8 0)

/-- COMMIT of a closed group on this device's own words (R172). A group whose epoch would be the last ends with EPOCH_EXHAUSTED. -/
def commitHere (s : State) (i g : Nat) (c : Collection) (x : Group) : State :=
  if c.published + 1 = lastEpoch then
    let s := s.modColl i fun c => { c with groups := Tab.erase c.groups g }
    groupGone (x.members.foldl (fun s n => failItem s n .epochExhausted 0xFFFFFFFF) s) i g
  else
    match performGroup s i g (c.published + 1) with
    | some (s, done) => groupGone (sendBeacons (deliverDone s done) i) i g
    | none => s

/-- COMMIT (R172, R570): where the epoch home is another member, the commit begins by acquiring its word. -/
def commitEffect (s : State) (i g : Nat) : State :=
  match s.coll? i with
  | none => s
  | some c =>
    match Tab.get? c.groups g with
    | none => s
    | some x =>
      if isHome s c then commitHere s i g c x
      else acquireHome (s.modColl i fun c => { c with remote := some { group := g, phase := 0, done := [] } }) i

/-- The conditions under which a closed group commits now. Where another member is the epoch home, its CEILING is read there, with the word
held (R186, R570). -/
def commitReady (s : State) (i g : Nat) : Bool :=
  match s.coll? i with
  | none => false
  | some c =>
    match Tab.get? c.groups g with
    | none => false
    | some x =>
      x.closed && !c.commitWord && c.remote.isNone && x.members.all (memberReady s x)
        && (if isHome s c then c.published + 1 == lastEpoch || (decide (c.published + 1 < c.ceiling) && !idCeilingWaits s c x
              && (performGroup s i g (c.published + 1)).isSome)
            else !idCeilingWaits s c x)

def execCommit (coll group : Nat) (s : State) : Host.Outcome State Fault Refusal :=
  occurs (live s && awake s && commitReady s coll group) (commitEffect s coll group) s

/-! ## Appends (R169) -/

/-- Appends one staged copy to a list of the version being built: into the tail while it has room and epochs, else the tail is sealed
and a new one opened; a tail that is full now is sealed (R77). None when T2 has no room. -/
def appendCopy (s : State) (i list k : Nat) (v : DirVersion) : Option (State × DirVersion) :=
  match s.coll? i with
  | none => none
  | some c =>
    match Tab.get? c.staging k with
    | none => some (s, v)
    | some e =>
      let ins := e.insE.getD 0
      let code := (((e.lists.zip e.codes).find? fun x => x.1 == list).map (·.2)).getD []
      let rec_ : Rec := { code := code, attr := e.attr, vid := e.vid, insLo := BitVec.ofNat 16 ins }
      let fits (t : Nat) : Bool := match Tab.get? c.segs t with
        | some g => g.sealEpoch == 0 && decide (g.recs.length < slotCount c.attrs) && decide (ins ≤ g.base + 65535) && g.cbGen == v.cbGen
        | none => false
      let tail := (listSegs v list).getLast?
      let place : Option (Nat × State × DirVersion) :=
        match tail with
        | some t =>
          if fits t then some (t, s, v)
          else
            let s := s.modColl i fun c => { c with
              segs := Tab.adjust c.segs t fun g => { g with sealEpoch := if g.sealEpoch = 0 then c.published else g.sealEpoch } }
            (newSegment s i { list := list, base := ins, cbGen := v.cbGen }).map fun (u, s) =>
              (u, s, { v with segs := Tab.set v.segs list (listSegs v list ++ [u]) })
        | none => (newSegment s i { list := list, base := ins, cbGen := v.cbGen }).map fun (u, s) =>
              (u, s, { v with segs := Tab.set v.segs list [u] })
      match place with
      | none => none
      | some (t, s, v) =>
        let key := fullKey e.vid ins
        match (putFull s i c key e.full).bind fun s => (s.coll? i).bind fun c => putTokens s i c key e.tokens with
        | none => none
        | some s =>
          let slot := (((s.coll? i).bind fun c => Tab.get? c.segs t).map (·.recs.length)).getD 0
          let name (x : IdEntry) : IdEntry := if x.staged = some k then { x with slots := x.slots ++ [(t, slot)] } else x
          let s := s.modColl i fun c => { c with
            segs := Tab.adjust c.segs t fun g =>
              let full := decide (slotCount c.attrs ≤ g.recs.length + 1)
              let g := { g with recs := g.recs ++ [rec_], sealEpoch := if full then c.published else g.sealEpoch }
              match e.delE with | some d => markDeleted g slot d | none => g
            idMap := Tab.map c.idMap name
            versions := c.versions.map fun x => { x with old := name x.old }
            staging := Tab.adjust c.staging k fun x => { x with appended := x.appended ++ [(list, v.number)] } }
          some (s, { v with limits := Tab.set v.limits list (slot + 1) })

/-- Appends copies in order. -/
def appendAll : List Nat → State → Nat → Nat → DirVersion → Option (State × DirVersion)
  | [], s, _, _, v => some (s, v)
  | k :: t, s, i, list, v => match appendCopy s i list k v with
    | some (s, v) => appendAll t s i list v
    | none => none

/-- Staged copies of a list that the newest version reads from staging, in insert-epoch order. -/
def toAppend (c : Collection) (list : Nat) : List Nat :=
  let ks := stagedOf c (latestDir c) list
  let ins (k : Nat) : Nat := ((Tab.get? c.staging k).bind (·.insE)).getD 0
  isort (fun a b => decide (ins a < ins b)) ks

/-- STAGED_APPEND: the staged copies of a list go to their slots, and a new directory version covers them; none when T2 has no room. -/
def appendList (s : State) (i list : Nat) : Option State :=
  match s.coll? i with
  | none => none
  | some c =>
    let v := latestDir c
    match appendAll (toAppend c list) s i list { v with number := v.number + 1 } with
    | none => none
    | some (s, v) => (growBlocks s i).map fun s => gcColl (s.modColl i fun c => { c with dirs := c.dirs ++ [v] }) i

/-- Lists with staged copies to append. -/
def listsToAppend (c : Collection) : List Nat :=
  ((Tab.vals c.staging).flatMap fun e => if e.insE.isSome then e.lists else []).eraseDups.filter fun l => !(toAppend c l).isEmpty

/-- Appends every staged copy of a collection (step 1 of R408). -/
def appendEvery (s : State) (i : Nat) : Option State :=
  match s.coll? i with
  | none => none
  | some c => (listsToAppend c).foldl (fun s l => s.bind fun s => appendList s i l) (some s)

/-- The INDEX lies in T2. -/
def inT2 (c : Collection) : Bool := c.residency == .resident || c.residency == .parking

def execStagedAppend (coll list : Nat) (s : State) : Host.Outcome State Fault Refusal :=
  let ok := match s.coll? coll with
    | some c => inT2 c && !c.restoring && !(toAppend c list).isEmpty
    | none => false
  match appendList s coll list with
  | some t => occurs (live s && awake s && ok) t s
  | none => occurs false s s

/-! ## Ceilings (R186, R674) -/

/-- CEILING_RAISE: both copies of the record are programmed, and CEILING takes the new value. -/
def ceilingEffect (s : State) (i : Nat) : State :=
  s.modColl i fun c =>
    let v := min lastEpoch (c.published + 2 ^ 32)
    { c with ceiling := v, durableCeiling := v }

def t4Writes (s : State) : Bool := s.flash.isOpen && (s.flash.state == .normal || s.flash.state == .degraded)

def execCeilingRaise (coll : Nat) (s : State) : Host.Outcome State Fault Refusal :=
  let ok := match s.coll? coll with
    | some c => isHome s c && decide (c.ceiling ≤ c.published + 2 ^ 31) && decide (c.ceiling < lastEpoch)
    | none => false
  occurs (fwServes s && t4Writes s && ok) (ceilingEffect s coll) s

/-- ID_CEILING_RAISE. -/
def execIdCeilingRaise (coll : Nat) (s : State) : Host.Outcome State Fault Refusal :=
  let ok := match s.coll? coll with
    | some c => !c.attrs.hostIds && decide (c.idCeiling ≤ c.nextLocal + 2 ^ 19) && decide (c.idCeiling < 2 ^ 34)
    | none => false
  occurs (fwServes s && t4Writes s && ok) (s.modColl coll fun c => { c with idCeiling := min (2 ^ 34) (c.nextLocal + 2 ^ 20) }) s

/-! ## Image and journal (R183, R184) -/

/-- Commands that wait for slot i to become durable. -/
def durableWaiters (s : State) (i : Nat) : List Nat :=
  (s.cmds.filter fun (_, x) => x.stage == .admitted && (durableLeft s x.work.durableOf).any fun t => t.1 == i).map (·.1)

/-- The journal's tiles exceed a quarter of the image's (R184). -/
def journalLong (c : Collection) : Bool :=
  match c.image with
  | some g => decide (g.imageTiles < 4 * (g.tiles.length - g.imageTiles))
  | none => false

/-- A placement command's reservation is free again (R405, R406). -/
def freeMove (s : State) (x : Cmd) : State :=
  let s := (x.work.backing.filterMap id).foldl freeT4 s
  if x.work.target = 2 then x.work.places.foldl (fun s p => givePages s (p * 16) 16) s else s

/-- A placement command that ends before its switch holds nothing and changes nothing (R406, R407). -/
def endMove (s : State) (n : Nat) (st : Status) (z : Cause) : State :=
  match s.cmd? n with
  | none => s
  | some x =>
    let s := freeMove s x
    let s := s.modWork n fun w => { w with tiles := [], places := [], backing := [] }
    let s := s.modColl (eIndex x.entry) fun c => { c with
      residency := if eOpcode x.entry = 9 ∧ c.evictions.contains n ∧ c.residency = .parking then .resident else c.residency
      evictions := c.evictions.filter (· != n), promotions := c.promotions.filter (· != n) }
    fail s n st z

/-- A PARK waits for slot i's image: one to T4 for an image of the published epoch, one to T3 for the journal to reach it (R408). -/
def parkWaits (s : State) (i : Nat) (c : Collection) (n : Nat) : Bool :=
  match s.cmd? n with
  | some x => eOpcode x.entry == 9 && c.residency == .parking &&
      (if x.work.target = 4 then ((c.image.map (·.imageEpoch)).getD 0 != c.published || c.image.isNone)
       else durableEpoch s i != c.published || c.image.isNone)
  | none => false

def parkersOf (s : State) (i : Nat) : List Nat :=
  match s.coll? i with
  | some c => c.evictions.filter (parkWaits s i c)
  | none => []

/-- Whether the image to be written is a whole one: the journal is long, or a PARK to T4 makes it the parked copy (R184, R408). -/
def wholeDue (s : State) (i : Nat) (c : Collection) : Bool :=
  journalLong c || (parkersOf s i).any fun n => match s.cmd? n with | some x => x.work.target == 4 | none => false

/-- IMAGE_WRITE: a whole image, or the append that a durable command or a PARK waits for. Where T4 grants no space, the PARK ends with
NO_SPACE (R405) (DEDUCED, log entry 117). -/
def imageWriteEffect (s : State) (i : Nat) : State :=
  match s.coll? i with
  | none => s
  | some c =>
    if imageUnreadable s c then
      (parkersOf s i).foldl (fun s n => endMove s n .dataError (lostCause s i c)) s
    else match startImage s i (wholeDue s i c) with
    | some s => s
    | none => (parkersOf s i).foldl (fun s n => endMove s n .noSpace { kind := kindTier, loc := i, detail := 4 }) s

def execImageWrite (coll : Nat) (s : State) : Host.Outcome State Fault Refusal :=
  let ok := match s.coll? coll with
    | some c => c.pendingImage.isNone && inT2 c
        && (journalLong c || !(durableWaiters s coll).isEmpty || !(parkersOf s coll).isEmpty)
    | none => false
  occurs (fwServes s && t4Writes s && ok) (imageWriteEffect s coll) s

/-- An image whose tiles are all programmed is in force; the tiles of the one before it that it does not use are free, and the commands
that waited go on (R428). -/
def settleImage (s : State) (i : Nat) : State :=
  match s.coll? i with
  | none => s
  | some c =>
    match c.pendingImage with
    | none => s
    | some p =>
      if !(unprogrammed s p).isEmpty then s
      else
        let waiters := durableWaiters s i
        let gone := match c.image with
          | some o => (o.tiles ++ o.mirrors).filter fun t => !(p.tiles ++ p.mirrors).contains t
          | none => []
        let s := s.modColl i fun c => { c with image := some p, pendingImage := none }
        let s := gone.foldl freeT4 s
        waiters.foldl (fun s n => settleFlush (startDurable s n) n) s

def settleImages (s : State) : State := (Tab.keys s.colls).foldl settleImage s

/-! ## Compaction (R188, R189) -/

/-- Sealed segments of a list. -/
def sealedSegs (c : Collection) (l : Nat) : List Nat :=
  (listSegs (latestDir c) l).filter fun t => match Tab.get? c.segs t with | some g => g.sealEpoch != 0 | none => false

/-- Records of segments with their epochs, in order; those whose delete epoch is at or below the floor are left out
(DEDUCED, log entry 76). -/
def keptRecs (c : Collection) (floor : Nat) (ts : List Nat) : List Packed :=
  ts.flatMap fun t => match Tab.get? c.segs t with
    | none => []
    | some g => (g.recs.zipIdx).filterMap fun (r, k) =>
        if deadAt floor (recDel g k) then none
        else some { rec_ := r, ins := max (min floor (recIns g r)) (if recIns g r ≤ floor then floor else recIns g r)
                    orig := recOrigin g r k, del := recDel g k }

/-- Slots and kept records of sealed segments: the live fill in percent is their quotient (R188). -/
def slotsOf (c : Collection) (ts : List Nat) : Nat := ts.length * slotCount c.attrs

/-- Packed records in the order of their stored insert epochs (R76). -/
def byEpoch (ps : List Packed) : List Packed := isort (fun x y => decide (x.ins < y.ins)) ps

/-- A list is due: its live fill is below COMPACT_THRESHOLD, and the rewrite lowers its number of segments. -/
def compactionDue (s : State) (i : Nat) (c : Collection) (l : Nat) : Bool :=
  let ts := sealedSegs c l
  let ps := byEpoch (keptRecs c (retainFloor s i c) ts)
  decide (ps.length * 100 < c.attrs.compactThreshold * slotsOf c ts)
    && decide ((packRuns (slotCount c.attrs) ps.length ps).length < ts.length)

/-- The slots of a record after a rewrite: the new slots of the same record in place of those that were rewritten. A record that has none, being
deleted, keeps its old slots as long as their segments are kept. -/
def moveSlots (gone : List Nat) (new : List (BitVec 48 × Nat × Nat × Nat)) (v : BitVec 48) (ins : Nat) (e : IdEntry) : IdEntry :=
  let kept := e.slots.filter fun (t, _) => !gone.contains t
  let put := (new.filter fun x => x.1 == v && x.2.2.2 == ins).map fun x => (x.2.1, x.2.2.1)
  if put.isEmpty then e else { e with slots := kept ++ put }

/-- Slots of records in new segments, with each record's insert epoch as committed. -/
def slotsWith (c : Collection) (ts : List Nat) : List (BitVec 48 × Nat × Nat × Nat) :=
  ts.flatMap fun t => match Tab.get? c.segs t with
    | some g => (g.recs.zipIdx).map fun (r, k) => (r.vid, t, k, recOrigin g r k)
    | none => []

/-- COMPACTION: the sealed segments of a list are rewritten in one step, so that no delete falls between its steps (R189). -/
def compactEffect (s : State) (i l : Nat) : State :=
  match s.coll? i with
  | none => s
  | some c =>
    let ts := sealedSegs c l
    let ps := byEpoch (keptRecs c (retainFloor s i c) ts)
    let v := latestDir c
    let (s', us) := placeRuns (packRuns (slotCount c.attrs) ps.length ps) s i l v.cbGen true
    let rest := (listSegs v l).filter fun t => !ts.contains t
    let fix (c : Collection) : Collection :=
      let new := slotsWith c us
      { c with
        idMap := c.idMap.map fun (k, e) => (k, moveSlots ts new (BitVec.ofNat 48 k) e.ins e)
        versions := c.versions.map fun x => { x with old := moveSlots ts new x.vid x.old.ins x.old }
        dirs := c.dirs ++ [{ v with
          number := v.number + 1, segs := Tab.set v.segs l (us ++ rest)
          limits := match rest.getLast? with | some _ => v.limits | none => Tab.erase v.limits l }] }
    if us.length < (packRuns (slotCount c.attrs) ps.length ps).length then s else gcColl (s'.modColl i fix) i

/-- A list may be compacted now: no shadow affects it (R192), and the commit word is free (R189). -/
def compactReady (s : State) (i l : Nat) : Bool :=
  match s.coll? i with
  | some c => c.residency == .resident && !c.restoring && !affected s i c l && !c.commitWord && c.remote.isNone
      && compactionDue s i c l && (sealedSegs c l).all fun t => !(s.tile t).lost
  | none => false

/-- The number under which the compaction of a list goes through the epoch home, which no commit group has (R189, R570). -/
def compactGroup (l : Nat) : Nat := 2 ^ 65 + l

/-- COMPACTION: here, or, where another member is the epoch home, by first acquiring its word (R570). -/
def compactionEffect (s : State) (i l : Nat) : State :=
  match s.coll? i with
  | none => s
  | some c =>
    if isHome s c then compactEffect s i l
    else acquireHome (s.modColl i fun c => { c with remote := some { group := compactGroup l, phase := 0, done := [] } }) i

def execCompaction (coll list : Nat) (s : State) : Host.Outcome State Fault Refusal :=
  occurs (fwServes s && awake s && compactReady s coll list) (compactionEffect s coll list) s

/-! ## Cutover of a maintenance command (R190 to R195) -/

/-- Lists that the shadow covers, in the old structures. -/
def shadowLists (m : Maint) (lc : Nat) : List Nat := match m.kind with | .split l => [l] | _ => List.range lc

/-- The working vector of a record: of its stored full vector, or the reconstruction of its old code (R191). -/
def recVector (c : Collection) (book cents : List B16) (r : Rec) (ins l : Nat) : List F32 :=
  match Tab.get? c.fulls (fullKey r.vid ins) with
  | some (_, _, b) => widen c.attrs.fullFormat c.attrs.int8Scale c.attrs.dim b
  | none => reconstruct c.attrs book cents r.code l

/-- Undeleted records of a list, with their vectors. -/
def shadowRecs (c : Collection) (book cents : List B16) (v : DirVersion) (l : Nat) : List (Packed × List F32) :=
  (listSegs v l).flatMap fun t => match Tab.get? c.segs t with
    | none => []
    | some g => (g.recs.zipIdx).filterMap fun (r, k) =>
        if (recDel g k).isSome then none
        else
          let o := recOrigin g r k
          some ({ rec_ := r, ins := recIns g r, orig := o, del := none }, recVector c book cents r o l)

/-- Every copy of the shadow: its list, record and code; of a record inserted while the shadow exists, the copies prepared then (R192). Under
REBUILD each record is taken once, from its copy in the lowest-numbered of its lists, whose code is reconstructed where no full vector is kept
(DESIGN CHOICE, log entry 137). -/
def shadowCopies (c : Collection) (book cents : List B16) (v : DirVersion) (m : Maint) : List (Nat × Packed) :=
  let a := { c.attrs with listCount := m.listCount }
  let all : List (Nat × (Packed × List F32)) :=
    (shadowLists m v.listCount).flatMap fun l => (shadowRecs c book cents v l).map fun y => (l, y)
  let once : List (Nat × (Packed × List F32)) := match m.kind with
    | .rebuild =>
      all.foldl (fun (acc : List (Nat × (Packed × List F32))) y =>
        if acc.any fun z => z.2.1.rec_.vid == y.2.1.rec_.vid then acc else acc ++ [y]) []
    | _ => all
  once.flatMap fun y =>
    let l := y.1
    let p : Packed := y.2.1
    let x := y.2.2
    let spilled := match Tab.get? c.idMap p.rec_.vid.toNat with | some e => decide (1 < (entryLists c e).length) | none => false
    let copies : List (Nat × List Nat) := match Tab.get? c.prepared (fullKey p.rec_.vid p.orig), m.kind with
      | some ps, .retrain => ps.filter fun z => z.1 == l
      | some ps, _ => ps
      | none, _ => (shadowTargets a m l spilled x).map fun t => (t, encode70 a m.codebook m.centroids x t)
    copies.map fun (t, code) =>
      let r : Rec := { p.rec_ with code := code }
      (t, ({ p with rec_ := r } : Packed))

/-- Places the shadow of each list; answers the new tiles by list, none when T2 has no room. -/
def placeShadow (i gen slots : Nat) (copies : List (Nat × Packed)) : List Nat → State → Option (State × List (Nat × List Nat))
  | [], s => some (s, [])
  | l :: t, s =>
    let ps := isort (fun x y => decide (x.ins < y.ins)) ((copies.filter fun x => x.1 == l).map (·.2))
    let runs := packRuns slots ps.length ps
    let (s, us) := placeRuns runs s i l gen false
    if us.length < runs.length then none
    else (placeShadow i gen slots copies t s).map fun (s, r) => (s, (l, us) :: r)

end Sys2Proof.Machine
end

