-- ==== Sys2Proof/Machine/Runs.lean ====
section
/-! DEFINITION. What commands share with model runs: schedules by handle (R205, R223), sequences that join runs (R217), text
(R221, R228). -/

namespace Sys2Proof.Machine

open Sys2Proof

/-- The slot of a loaded schedule that a handle names (R205). -/
def schedOf (s : State) (h : BitVec 32) : Option Nat :=
  let i := h.toNat % 65536
  match Tab.get? s.scheds i with
  | some d => if decide (i < 256) && d.loaded && d.gen == h.toNat / 65536 then some i else none
  | none => none

/-- The vocabulary of a schedule (R206, R221). -/
def vocabOf (d : Sched) : List Byte := (d.image.drop d.header.vocabOffset).take d.header.vocabBytes

/-- A sequence joins a run of its schedule that has room and has not launched, or opens one (R217). -/
def enqueueSeq (s : State) (i cmd item : Nat) : State :=
  let room (r : Run) : Bool :=
    r.sched == i && !r.launched && r.slice.isNone && decide (r.seqs.length < (s.sched i).header.batchMax)
  match s.runs.find? fun (_, r) => room r with
  | some (k, _) => s.modRun k fun r => { r with seqs := r.seqs ++ [⟨cmd, item⟩] }
  | none => { s with runs := Tab.set s.runs s.nextRun { sched := i, seqs := [⟨cmd, item⟩] }, nextRun := s.nextRun + 1 }

/-- Sequences for a list of items. -/
def enqueueAll (s : State) (i cmd : Nat) (items : List Nat) : State := items.foldl (fun s k => enqueueSeq s i cmd k) s

/-- A command has sequences in runs that have not ended. -/
def inRuns (s : State) (n : Nat) : Bool := s.runs.any fun (_, r) => r.seqs.any fun x => x.cmd == n

/-! ## Reservations (R215, R216) -/

/-- A core of a die that is usable and serves nothing (R114, R242). -/
def idleCore (s : State) (n : Nat) : Bool := coreUsable s n && (s.core n).batch.isNone && (s.core n).run.isNone

/-- The least stream of a quarter that is not in use. -/
def idleStream (s : State) (q : Nat) : Option Nat := (List.range 16).find? fun n => (s.stream q n).state == .idle

/-- A quarter can be given to a run: complete, idle, at or above the clock of the check, and with a stream for the run's reads. -/
def quarterFree (s : State) (clock q : Nat) : Bool :=
  decide (q < 64) && (s.quarter q).inService && decide (clock ≤ (s.quarter q).clock) && (idleStream s q).isSome && (List.range 64).all fun k => idleCore s (q * 64 + k)

/-- The first n free blocks of T1, slice by slice. -/
def freeBlocks (s : State) (n : Nat) : List (Nat × Nat) :=
  ((List.range 64).flatMap fun sl => ((List.range 46).filter fun b => blockFree s sl (b + 2)).map fun b => (sl, b + 2)).take n

/-- Blocks of T1 that a run takes: its pool and its activation space. -/
def runBlocks (h : SchedHeader) : Nat := h.poolSlots + ceilDiv h.actBytes 65536

/-- A run of a schedule could reserve what it needs now: enough quarters, and room in T1 (R215). -/
def runCouldStart (s : State) (i : Nat) : Bool :=
  let h := (s.sched i).header
  decide (h.quarters ≤ ((List.range 64).filter (quarterFree s h.checkClock)).length) && (freeBlocks s (runBlocks h)).length == runBlocks h

/-- The quarters named are what the schedule asks for, and T1 has room (R215, R216). -/
def canReserve (s : State) (h : SchedHeader) (qs : List Nat) : Bool :=
  qs.length == h.quarters && qs.eraseDups.length == qs.length && qs.all (quarterFree s h.checkClock)
    && (freeBlocks s (runBlocks h)).length == runBlocks h

/-! ## UTF-8 (R221) -/

/-- The length of the sequence that a lead byte begins, and the range of its second byte; none for no lead byte. -/
def utf8Lead (b : Nat) : Option (Nat × Nat × Nat) :=
  if b < 0x80 then some (1, 0, 0)
  else if 0xC2 ≤ b ∧ b ≤ 0xDF then some (2, 0x80, 0xBF)
  else if b = 0xE0 then some (3, 0xA0, 0xBF)
  else if b = 0xED then some (3, 0x80, 0x9F)
  else if 0xE1 ≤ b ∧ b ≤ 0xEF then some (3, 0x80, 0xBF)
  else if b = 0xF0 then some (4, 0x90, 0xBF)
  else if 0xF1 ≤ b ∧ b ≤ 0xF3 then some (4, 0x80, 0xBF)
  else if b = 0xF4 then some (4, 0x80, 0x8F)
  else none

/-- Whether bytes are valid UTF-8: rest counts the continuation bytes still due, the first of them from lo to hi. -/
def utf8Run : List Byte → Nat → Nat → Nat → Bool
  | [], rest, _, _ => rest == 0
  | b :: t, rest, lo, hi =>
    match rest with
    | 0 => match utf8Lead b.toNat with
      | some (n, l, h) => utf8Run t (n - 1) l h
      | none => false
    | r + 1 => decide (lo ≤ b.toNat) && decide (b.toNat ≤ hi) && utf8Run t r 0x80 0xBF

def utf8Ok (l : List Byte) : Bool := utf8Run l 0 0 0

/-! ## Text of a command -/

/-- The query data of a SEARCH (R96). -/
def queryData (c : Cmd) : List Byte := (c.input.drop 128).take (eQueryLen c.entry)

/-- The offset of the re-rank text block (R228). -/
def textBlock (e : BitVec 1024) : Nat := ceil64 (128 + eQueryLen e)

/-- The query text of a SEARCH with RERANK CROSS (R228). -/
def queryText (c : Cmd) : List Byte :=
  if eQueryFormat c.entry = 3 then queryData c
  else (c.input.drop (textBlock c.entry + 8)).take (field c.input (textBlock c.entry) 4)

end Sys2Proof.Machine
end

