-- ==== Sys2Proof/Machine/Search.lean ====
section
/-! DEFINITION. The work of a SEARCH (R93 to R157): probing, scan budgets, batches, scoring, selection, the square tree, widening,
exact re-rank and the result. -/

namespace Sys2Proof.Machine

open Sys2Proof

/-! ## Parameters in force (R93, R95, R129, R135) -/

/-- NPROBE in force for a LIST_COUNT (R93, R95). -/
def nprobe (e : BitVec 1024) (lc : Nat) : Nat := min lc (if eNprobe e = 0 then 64 else eNprobe e)

/-- WIDEN_LIMIT in force (R95). -/
def widenLimit (e : BitVec 1024) (lc : Nat) : Nat := min lc (eWidenLimit e)

/-- P_r (R129). -/
def probes (e : BitVec 1024) (lc r : Nat) : Nat :=
  if eWidenLimit e = 0 then nprobe e lc else min (nprobe e lc * 2 ^ r) (widenLimit e lc)

/-- B_r; 0 for no budget (R129). -/
def budget (e : BitVec 1024) (r : Nat) : Nat := eScanBudget e * 2 ^ r

/-- Lists of the probe order that are kept: P' of R100. -/
def probeKeep (e : BitVec 1024) (lc : Nat) : Nat := max (nprobe e lc) (widenLimit e lc)

/-! ## Homes (R111) -/

/-- The compute die that homes list L of slot i. -/
def homeDie (i l : Nat) : Nat := (i + l) % 8

/-- The die of a core. -/
def coreDie (n : Nat) : Nat := n / 512

/-! ## Coarse passes (R98 to R101) -/

def partialLt (x y : BitVec 32 × Nat) : Bool :=
  decide (x.1.toNat < y.1.toNat) || (x.1 == y.1 && decide (x.2 < y.2))

/-- Queries of slot i that wait for a pass on a die, in order of class and then arrival, at most 32 (R101). -/
def passQueries (s : State) (die i : Nat) : List (Nat × Cmd) :=
  let q := s.cmds.filter fun (_, c) =>
    onColl i c && c.stage == .admitted && c.search.phase == .coarse && !Tab.has c.search.partials die
  let before (x y : Nat × Cmd) : Bool :=
    decide (eClass x.2.entry < eClass y.2.entry) || (eClass x.2.entry == eClass y.2.entry && decide (x.2.search.arrived < y.2.search.arrived))
  (isort before q).take 32

/-- The HBM priority level at which a pass reads the centroids: the lowest class among its queries (R101). -/
def passLevel (q : List (Nat × Cmd)) : Nat := minOf 3 (q.map fun x => eClass x.2.entry)

/-- The longest prefix of lists whose scan sizes fit a budget (R109). -/
def budgetPrefix (c : Collection) (snap : Nat) : List Nat → Nat → List Nat
  | [], _ => []
  | l :: t, left =>
    let n := scanSize c l snap
    if n ≤ left then l :: budgetPrefix c snap t (left - n) else []

/-- The scanned set of a round (R109, R129); a shard takes P_r and B_r as they were sent (R132). -/
def scannedSet (c : Collection) (x : Cmd) (r : Nat) : List Nat :=
  let (p, b) := x.search.given.getD (probes x.entry x.search.listCount r, budget x.entry r)
  let ls := x.search.order.take p
  if b = 0 then ls else budgetPrefix c (x.snapshot.getD 0) ls b

/-- The command is a shard's part of a search. -/
def isShard (x : Cmd) : Bool := match x.origin with | .shard .. => true | _ => false

/-- A query joins the open batch of a list, or opens one (R112, R113). -/
def joinBatch (s : State) (n i dir limit l : Nat) : State :=
  let room (b : Batch) : Bool :=
    b.coll == i && b.list == l && b.dir == dir && !b.launched && decide (b.members.length < limit)
  match s.batches.find? fun (_, b) => room b with
  | some (k, b) =>
    let s := { s with batches := Tab.set s.batches k { b with members := b.members ++ [n] } }
    s.modSearch n fun w => { w with batches := w.batches ++ [k] }
  | none =>
    let k := s.nextBatch
    let s := { s with
      batches := Tab.set s.batches k { coll := i, list := l, dir := dir, members := [n] }, nextBatch := k + 1 }
    s.modSearch n fun w => { w with batches := w.batches ++ [k] }

/-- Begins a round: the query joins batches of the lists of its scanned set that earlier rounds did not scan, and every square waits
for END again (R129, R144). A shard may have sent runs of the round already: they stay on their way (R132). -/
def startRound (s : State) (n r : Nat) : State :=
  match s.cmd? n with
  | none => s
  | some x =>
    let i := eIndex x.entry
    match s.coll? i with
    | none => s
    | some c =>
      let set := scannedSet c x r
      let new := set.filter fun l => !x.search.scanned.contains l
      let s := s.modSearch n fun w => { w with
        phase := .scanning, round := r, scanned := set, squares := [] }
      new.foldl (fun s l => joinBatch s n i x.search.dir (tableLimit c.attrs) l) s

/-- All eight partial orders are there: the batch scheduler of the home die merges them (R100), and the first round begins. -/
def mergeOrders (s : State) (n : Nat) : State :=
  match s.cmd? n with
  | none => s
  | some x =>
    if x.search.partials.length < 8 then s
    else
      let all := isort partialLt (Tab.vals x.search.partials).flatten
      let order := (all.take (probeKeep x.entry x.search.listCount)).map (·.2)
      startRound (s.modSearch n fun w => { w with order := order, partials := [] }) n x.search.round

/-- The partial order of a query on a die: the first P' lists of the die's stripe. -/
def stripeOrder (s : State) (c : Collection) (x : Cmd) (die : Nat) : List (BitVec 32 × Nat) :=
  let v := dirNum c x.search.dir
  let cents := (bookOf s c v.cbGen v.listCount).2
  let ls := (List.range x.search.listCount).filter fun l => l % 8 == die
  ((coarseOrder c.attrs cents x.search.query ls).take (probeKeep x.entry x.search.listCount)).map fun y => (distKey y.1, y.2)

/-- COARSE_PASS (R101). -/
def coarseEffect (s : State) (die i : Nat) : State :=
  match s.coll? i with
  | none => s
  | some c =>
    let q := passQueries s die i
    q.foldl (fun s (n, x) =>
      mergeOrders (s.modSearch n fun w => { w with partials := Tab.set w.partials die (stripeOrder s c x die) }) n)
      { s with coarseLevels := Tab.set s.coarseLevels die (passLevel q) }

def execCoarsePass (die coll : Nat) (s : State) : Host.Outcome State Fault Refusal :=
  occurs (live s && awake s && okDie die && !(passQueries s die coll).isEmpty) (coarseEffect s die coll) s

/-! ## Batches (R112 to R118) -/

/-- What a batch scans: the segments of its list, and the copies that its directory version reads from staging (R117, R118). -/
def batchTiles (c : Collection) (v : DirVersion) (l : Nat) : List TileWork :=
  let segs := (listSegs v l).map fun t => TileWork.segment t (slotLimit c v l t)
  let st := stagedOf c v l
  segs ++ if st.isEmpty then [] else [.staged st]

/-- The most urgent class of a batch's members (R116). -/
def batchClass (s : State) (b : Batch) : Nat :=
  minOf 3 (b.members.filterMap fun n => (s.cmd? n).map fun x => eClass x.entry)

/-- A launched batch that still waits for cores. -/
def coreless (b : Batch) : Bool := b.launched && b.workers.isEmpty && !b.undealt.isEmpty

def batchDie (b : Batch) : Nat := homeDie b.coll b.list

/-- Batch b takes cores before every other launched batch of its die that waits for them: by class, then by launch (R116). -/
def batchTurn (s : State) (k : Nat) (b : Batch) : Bool :=
  s.batches.all fun (j, o) =>
    j == k || !coreless o || batchDie o != batchDie b || decide (batchClass s b < batchClass s o)
      || (batchClass s b == batchClass s o && b.launched && decide (b.launchNo < o.launchNo))

/-- No launched batch of the die waits for cores (R114). -/
def noneWaits (s : State) (b : Batch) : Bool := s.batches.all fun (_, o) => !coreless o || batchDie o != batchDie b

/-- The next place in the order of launches. -/
def nextLaunch (s : State) : Nat := ((Tab.vals s.batches).map (·.launchNo)).foldl max 0 + 1

/-- Idle cores of the batch's home die, each named once. -/
def coresFor (s : State) (b : Batch) (cores : List Nat) : Bool :=
  cores.all (fun n => decide (n < 4096) && idleCore s n && coreDie n == batchDie b) && cores.length == cores.eraseDups.length

/-- A batch is full (R113). -/
def batchFull (s : State) (b : Batch) : Bool :=
  match s.coll? b.coll with
  | some c => decide (tableLimit c.attrs ≤ b.members.length)
  | none => false

/-- The batch has an urgent member (R114). -/
def batchUrgent (s : State) (b : Batch) : Bool := decide (batchClass s b ≤ 1)

/-- The place of a query's table for a list: its own for L2SQ with residual codes, else the one that all lists share (R102, R106). -/
def tableKey (a : Attrs) (l : Nat) : Nat := if residualTables a then l else 2 ^ 20

/-- Builds the tables of a batch's members that are not built yet, each once for the query and list, or once for the query (R103, R106). -/
def buildTables (s : State) (c : Collection) (b : Batch) : State :=
  let v := dirNum c b.dir
  let (book, cents) := bookOf s c v.cbGen v.listCount
  let key := tableKey c.attrs b.list
  b.members.foldl (fun s n => match s.cmd? n with
    | some x =>
      if Tab.has x.search.tables key then s
      else s.modSearch n fun w => { w with tables := Tab.set w.tables key (buildTable c.attrs book cents x.search.query b.list) }
    | none => s) s

/-- A member's table for the batch's list. -/
def memberTable (c : Collection) (b : Batch) (x : Cmd) : DistTable := Tab.getD x.search.tables (tableKey c.attrs b.list) {}

/-- A batch as it launches: its place in the order of launches, the level of its tile reads (R116), its members' biased bases (R104) and its tiles. -/
def launchBatch (s : State) (c : Collection) (b : Batch) : Batch :=
  let v := dirNum c b.dir
  let cents := (bookOf s c v.cbGen v.listCount).2
  let biased := b.members.filterMap fun n => (s.cmd? n).map fun x =>
    (n, cadd (memberTable c b x).base (listBias c.attrs cents (padVec (dpad c.attrs) x.search.query) b.list))
  { b with
    launched := true, launchNo := nextLaunch s, level := batchClass s b, undealt := batchTiles c v b.list
    biased := biased.foldl (fun (t : Table F32) y => Tab.set t y.1 y.2) [] }

/-- The table bank of a core that serves a batch: the table of each member in consecutive slots from a multiple of their number (R243). -/
def bankOf (a : Attrs) (b : Batch) : Table Nat :=
  let k := tableSlots a
  (b.members.zipIdx).foldl (fun t (n, p) => (List.range k).foldl (fun t i => Tab.set t (p * k + i) n) t) []

/-- The compiled predicates of a batch, one for each member (R128). -/
def predsOf (s : State) (b : Batch) : Table (List (BitVec 64)) :=
  (b.members.zipIdx).foldl (fun t (n, p) => Tab.set t p (((s.cmd? n).map (·.search.terms)).getD [])) []

/-- Deals tiles to cores, one each, whose programs carry the grant set that the batch scheduler supplies (R117, R365); the scheduler writes the
members' tables into the cores' free table banks (R244). -/
def dealTiles (s : State) (k : Nat) (c : Collection) (b : Batch) (cores grants : List Nat) : State :=
  let dealt := cores.zip b.undealt
  let ws : Table Worker := dealt.foldl (fun (t : Table Worker) y => Tab.set t y.1 { tile := y.2 }) b.workers
  let bank := bankOf c.attrs b
  let preds := predsOf s b
  let s := { s with batches := Tab.set s.batches k { b with undealt := b.undealt.drop dealt.length, workers := ws } }
  dealt.foldl (fun s y => s.modCore y.1 fun x => { x with batch := some k, grants := grants, bank := bank, preds := preds }) s

/-- Launches a batch, or gives cores to one that is launched. A batch with nothing to scan has ended. -/
def launchEffect (s : State) (k : Nat) (cores grants : List Nat) : State :=
  match Tab.get? s.batches k with
  | none => s
  | some b =>
    match s.coll? b.coll with
    | none => s
    | some c =>
      let s := if b.launched then s else buildTables s c b
      let b := if b.launched then b else launchBatch s c b
      if b.undealt.isEmpty then dropBatch { s with batches := Tab.set s.batches k b } k
      else dealTiles s k c b cores grants

/-- BATCH_LAUNCH: the batch is full, or has a member of class 0 or 1 and an idle core that no launched batch waits for; or it is launched
and takes cores in its turn (R114, R116) (DESIGN CHOICE, log entry 80). -/
def execBatchLaunch (batch : Nat) (cores grants : List Nat) (s : State) : Host.Outcome State Fault Refusal :=
  let ok := match Tab.get? s.batches batch with
    | some b => coresFor s b cores && (cores.isEmpty || batchTurn s batch b)
        && ((coreless b && !cores.isEmpty)
          || (!b.launched && !b.members.isEmpty && (batchFull s b || (batchUrgent s b && !cores.isEmpty && noneWaits s b))))
    | none => false
  occurs (live s && awake s && ok && okGrants grants) (launchEffect s batch cores grants) s

/-- BATCH_HOLD_EXPIRY: the hold of a member ends (R114, R115). -/
def execBatchHoldExpiry (batch : Nat) (cores grants : List Nat) (s : State) : Host.Outcome State Fault Refusal :=
  let ok := match Tab.get? s.batches batch with
    | some b => !b.launched && !b.members.isEmpty && coresFor s b cores && (cores.isEmpty || batchTurn s batch b)
    | none => false
  occurs (live s && awake s && ok && okGrants grants) (launchEffect s batch cores grants) s

/-! ## Selection in a core (R133 to R142) -/

/-- The 80-bit sort key (R133). -/
def sortKey (x : Cand) : Nat := x.key.toNat * 2 ^ 48 + x.vid.toNat

def candLt (x y : Cand) : Bool := decide (sortKey x < sortKey y)

/-- The n smallest of a list, ascending (R140, R142). -/
def selectN (n : Nat) (l : List Cand) : List Cand := (isort candLt l).take n

/-- Digit d of a sort key (R140). -/
def keyDigit (d : Nat) (x : Cand) : Nat := sortKey x / 256 ^ d % 256

/-- The 256-bin histogram of a digit. -/
def histOf (d : Nat) (l : List Cand) : List Nat := (List.range 256).map fun b => (l.filter fun x => keyDigit d x == b).length

/-- The histogram of the last pass that the select unit makes over a buffer of which it selects n (R140): the digits from d - 1 down, the candidates
that are left and how many of them are needed. -/
def lastHist (all : List Cand) : Nat → List Cand → Nat → List Nat → List Nat
  | 0, _, _, h => h
  | d + 1, cand, need, h =>
    if all.all fun x => some (keyDigit d x) == all.head?.map (keyDigit d) then lastHist all d cand need h
    else
      let h := histOf d cand
      let below (b : Nat) : Nat := (h.take b).sum
      match (List.range 256).find? fun b => decide (need ≤ below (b + 1)) with
      | none => h
      | some b =>
        let left := cand.filter fun x => keyDigit d x == b
        if left.length = need - below b then h else lastHist all d left (need - below b) h

/-- The select unit's histogram after it selects n entries of a buffer: no pass is made where they all stay (R140). -/
def selectHist (n : Nat) (l : List Cand) (h : List Nat) : List Nat := if l.length ≤ n then h else lastHist l 10 l n h

/-- An offer (R139). -/
def offer (k : Nat) (b : SelBuf) (x : Cand) : SelBuf :=
  let pass := match b.tau with | some t => decide (sortKey x ≤ t) | none => true
  if !pass then b
  else
    let l := b.entries ++ [x]
    if l.length = bufCapacity k then
      let l := selectN k l
      { entries := l, tau := l.getLast?.map sortKey }
    else { b with entries := l }

/-- A record as a core meets it in a tile: attribute word, epochs, code, ID, place. -/
structure Met where
  attr : BitVec 64
  ins : Nat
  del : Option Nat
  code : List Nat
  vid : BitVec 48
  loc : Loc
  deriving DecidableEq, Repr, Inhabited

/-- The records of a tile, in slot order (R121). -/
def tileRecords (c : Collection) (list : Nat) : TileWork → List Met
  | .segment t limit =>
    match Tab.get? c.segs t with
    | some g => ((g.recs.take limit).zipIdx).map fun (r, k) =>
        { attr := r.attr, ins := recIns g r, del := recDel g k, code := r.code, vid := r.vid, loc := .slot t k }
    | none => []
  | .staged es => es.filterMap fun k => (Tab.get? c.staging k).map fun e =>
      { attr := e.attr, ins := e.insE.getD (2 ^ 64), del := e.delE, vid := e.vid, loc := .staged k
        code := (((e.lists.zip e.codes).find? fun y => y.1 == list).map (·.2)).getD [] }

/-- Scores a tile for one member (R121). -/
def scoreTile (x : Cmd) (t : DistTable) (biased : F32) (rs : List Met) (b : SelBuf) : SelBuf :=
  rs.foldl (fun b r =>
    if filterPass x.search.terms r.attr && sees (x.snapshot.getD 0) r.ins r.del then
      offer (kEff x.entry) b { key := scoreKey t biased r.code, vid := r.vid, loc := r.loc }
    else b) b

/-- Scores a worker's tile for every member of the batch. -/
def scoreAll (s : State) (c : Collection) (b : Batch) (rs : List Met) (w : Worker) : Worker :=
  { w with bufs := b.members.foldl (fun t n =>
      match s.cmd? n with
      | some x => Tab.modify t n {} (scoreTile x (memberTable c b x) (Tab.getD b.biased n 0) rs)
      | none => t) w.bufs }

/-! ## Squares (R143 to R146) -/

/-- A square's number in a search's table. -/
def squareNum : SquareId → Nat
  | .pair n => n
  | .quarter n => 2048 + n
  | .die n => 2112 + n
  | .device => 2120

/-- The square and input that a square's output goes to; none for the device square. -/
def squareNext : SquareId → Option (SquareId × Nat)
  | .pair n => some (.quarter (n / 32), n % 32)
  | .quarter n => some (.die (n / 8), n % 8)
  | .die n => some (.device, n)
  | .device => none

/-- Inputs of a square: 2, 32, 8, and 8 with one for each shard on the device square (R143). -/
def squareInputs (s : State) (x : Cmd) : SquareId → List Nat
  | .pair _ => [0, 1]
  | .quarter _ => List.range 32
  | .die _ => List.range 8
  | .device =>
    List.range 8 ++ (match x.origin, s.coll? (eIndex x.entry) with
      | .shard .., _ => []
      | _, some c => (others s c).map (8 + ·)
      | _, none => [])

def squareNode (x : Cmd) (q : SquareId) : SquareNode := Tab.getD x.search.squares (squareNum q) {}

/-- Inserts one entry of an arriving run (R145); none once the run's rest cannot enter. -/
def mergeOne (k : Nat) (r : List Cand) (x : Cand) : Option (List Cand) :=
  let follows := match r.getLast? with | some y => candLt y x | none => false
  if r.length = k && follows then none
  else
    match r.find? fun y => y.vid == x.vid with
    | some y => if candLt x y then some (insSorted candLt x (r.filter fun z => z.vid != x.vid)) else some r
    | none => some ((insSorted candLt x r).take k)

/-- Merges an arriving run into a running result (R145). -/
def mergeRun (k : Nat) : List Cand → List Cand → List Cand
  | r, [] => r
  | r, x :: t => match mergeOne k r x with
    | some r => mergeRun k r t
    | none => r

/-- A run is on its way to an input of a square, behind every input that has arrived so far. -/
def sendFlight (s : State) (n : Nat) (q : SquareId) (input : Nat) (run : List Cand) : State :=
  s.arrive.modSearch n fun y => { y with flights := y.flights ++ [{ square := q, input := input, run := run, arrived := s.arrivals + 1 }] }

/-- A core's runs of a batch go to its core-pair square (R142, R143). -/
def emitRuns (s : State) (core : Nat) (w : Worker) : State :=
  w.bufs.foldl (fun s (n, b) =>
    match s.cmd? n with
    | some x =>
      let s := s.modCore core fun y => { y with hist := selectHist (kEff x.entry) b.entries y.hist }
      sendFlight s n (.pair (core / 2)) (core % 2) (selectN (kEff x.entry) b.entries)
    | none => s) s

/-! ## TILE_SCORED -/

/-- Whether a tile's data is lost (R415, R642). -/
def workLost (s : State) : TileWork → Option Nat
  | .segment t _ => if (s.tile t).lost then some t else none
  | .staged _ => none

/-- A core has scored its tile: it takes the next tile of the batch, or sends its runs and is idle; the batch ends with its last
worker (R117, R142). A lost tile ends every member (R120). -/
def tileScoredEffect (s : State) (core k : Nat) (b : Batch) (w : Worker) (c : Collection) : State :=
  match workLost s w.tile with
  | some t => endBatch s k .dataError (tileCause s t)
  | none =>
    let w := scoreAll s c b (tileRecords c b.list w.tile) w
    match b.undealt with
    | t :: rest =>
      { s with batches := Tab.set s.batches k { b with undealt := rest, workers := Tab.set b.workers core { w with tile := t } } }
    | [] =>
      let ws := Tab.erase b.workers core
      let s := emitRuns { s with batches := Tab.set s.batches k { b with workers := ws } } core w
      let s := freeOne s core
      if ws.isEmpty then gcColl (dropBatch s k) b.coll else s

/-- TILE_SCORED, or something goes wrong on the core: its batch program faults, or a word of its storage is lost (R246, R632). -/
def execTileScored (x : ScoredTile) (s : State) : Host.Outcome State Fault Refusal :=
  match (s.core x.core).batch with
  | none => occurs false s s
  | some k =>
    match Tab.get? s.batches k with
    | none => occurs false s s
    | some b =>
      match Tab.get? b.workers x.core, s.coll? b.coll with
      | some w, some c =>
        occurs (live s && awake s && okCore x.core)
          (match x.fault with | some e => coreEvent s x.core e | none => tileScoredEffect s x.core k b w c) s
      | _, _ => occurs false s s

/-! ## SQUARE_RUN -/

/-- The first run on its way to an input, and the others. -/
def takeFlight (q : SquareId) (input : Nat) : List Flight → Option (Flight × List Flight)
  | [] => none
  | f :: t =>
    if f.square == q && f.input == input then some (f, t)
    else (takeFlight q input t).map fun (g, r) => (g, f :: r)

/-- A search whose squares work. -/
def scanningCmd (s : State) (n : Nat) : Option Cmd :=
  match s.cmd? n with
  | some x => if x.stage == .admitted && x.search.phase == .scanning then some x else none
  | none => none

/-- The device that an input of the device square brings entries of: a shard's, or this one. -/
def inputDevice (s : State) (input : Nat) : Nat := if input < 8 then s.net.deviceNumber else input - 8

/-- The inputs of the device square merge in order of device: every input of a smaller device number has ended (R146). -/
def inputTurn (s : State) (x : Cmd) (q : SquareId) (input : Nat) : Bool :=
  q != .device || (squareInputs s x q).all fun i =>
    decide (inputDevice s input ≤ inputDevice s i) || (squareNode x q).ended.contains i

/-- The earliest arrival among the inputs that a search has pending at a square and that may merge; none without one. -/
def firstArrival (s : State) (x : Cmd) (q : SquareId) : Option Nat :=
  ((x.search.flights.filter fun f => f.square == q && inputTurn s x q f.input).map (·.arrived)).min?

/-- A square works on a query: of the highest class that has input pending there, and among those of its class the one whose input arrived first
(R148). -/
def squareTurn (s : State) (n : Nat) (x : Cmd) (q : SquareId) : Bool :=
  s.cmds.all fun (m, y) =>
    m == n || (scanningCmd s m).isNone ||
      match firstArrival s x q, firstArrival s y q with
      | some a, some b => decide (eClass x.entry < eClass y.entry) || (eClass x.entry == eClass y.entry && decide (a < b))
      | _, none => true
      | none, _ => false

/-- Entries that a square merges before it may turn to another query (R148). -/
def squareBurst : Nat := 64

/-- The rest of a run cannot enter a full running result once its last entry follows the result's (R145). -/
def runStops (k : Nat) (r run : List Cand) : Bool :=
  r.length == k && match run.getLast?, r.getLast? with | some x, some y => candLt y x | _, _ => false

/-- SQUARE_RUN: a run at an input merges, at most 64 entries of it (R145, R148); the rest stays at the input, in its place. -/
def squareRunEffect (s : State) (n : Nat) (x : Cmd) (q : SquareId) (f : Flight) (rest : List Flight) : State :=
  let node := squareNode x q
  let part := f.run.take squareBurst
  let r := mergeRun (kEff x.entry) node.running part
  let left := f.run.drop squareBurst
  let rest := if left.isEmpty || runStops (kEff x.entry) r part then rest else { f with run := left } :: rest
  s.modSearch n fun w => { w with flights := rest, squares := Tab.set w.squares (squareNum q) { node with running := r } }

/-- Searches that merge in a square. -/
def mergingAt (s : State) (q : SquareId) : List Nat :=
  (s.cmds.filter fun (_, x) => Tab.has x.search.squares (squareNum q) || x.search.flights.any fun f => f.square == q).map (·.1)

/-- The quarter that a square belongs to. -/
def squareQuarter : SquareId → Option Nat
  | .pair n => some (n / 32)
  | .quarter n => some n
  | _ => none

/-- A word of a square's SRAM is lost: the searches that merge there end with DATA_ERROR (R632); the second time within 24 hours, its quarter leaves
service (R637). -/
def squareLost (s : State) (n : Nat) (x : Cmd) (q : SquareId) : State :=
  let z : Cause := { kind := kindSquare, loc := squareNum q, detail := eTag x.entry }
  let s := oneEvent s true z fun s => failAll s ((mergingAt s q).filter fun m => m == n || (s.cmd? m).any fun y => y.stage == .admitted) .dataError z
  match squareQuarter q with
  | none => s
  | some k =>
    let again := (s.quarter k).squareErr.any fun t => decide (s.time < t + 86400000000000)
    let s := s.modQuarter k fun y => { y with squareErr := some s.time }
    if again then quarterOut s k else s

def execSquareRun (cmd : Nat) (sq : SquareId) (i : SquareInput) (s : State) : Host.Outcome State Fault Refusal :=
  match scanningCmd s cmd with
  | none => occurs false s s
  | some x =>
    match takeFlight sq i.input x.search.flights with
    | none => occurs false s s
    | some (f, rest) =>
      occurs (live s && awake s && sq.ok && squareTurn s cmd x sq && inputTurn s x sq i.input)
        (if i.bad then squareLost s cmd x sq else squareRunEffect s cmd x sq f rest) s

/-! ## The result (R151 to R154) -/

/-- The attribute word of an entry, read at its LOC (R137, R149). -/
def candAttr (c : Collection) (x : Cand) : BitVec 64 :=
  match x.loc with
  | .peer a => a
  | .staged k => match Tab.get? c.staging k with | some e => e.attr | none => 0
  | .slot t k => match Tab.get? c.segs t with | some g => (g.recs.getD k ⟨[], 0, 0, 0⟩).attr | none => 0

/-- The distance whose key a candidate carries (R57, R152). -/
def keyDist (k : BitVec 32) : F32 := if k.getLsbD 31 then k ^^^ 0x80000000#32 else ~~~ k

/-- A result entry (R152). -/
def resultEntry (c : Collection) (reranked : Bool) (x : Cand) : List Byte :=
  leBytes 4 x.key.toNat ++ leBytes 4 (keyDist x.key).toNat ++ leBytes 6 x.vid.toNat ++ leBytes 2 (b2n reranked)
    ++ leBytes 8 (candAttr c x).toNat

/-- A sentinel record (R62, R152). -/
def sentinelEntry : List Byte := List.replicate 14 0xFF#8 ++ leBytes 2 2 ++ List.replicate 8 0

/-- Ends a search with a status (R572, R580). -/
def failSearch (s : State) (n : Nat) (st : Status) (z : Cause) : State := fail s n st z

/-- Decides a search from its final candidates (R153, R154). -/
def finishSearch (s : State) (n : Nat) (l : List Cand) : State :=
  match s.cmd? n with
  | none => s
  | some x =>
    match s.coll? (eIndex x.entry) with
    | none => s
    | some c =>
      let k := eK x.entry
      let l := l.take k
      let bytes := l.flatMap (resultEntry c (eRerank x.entry != 0)) ++ (List.replicate (k - l.length) sentinelEntry).flatten
      let lists := max x.search.scanned.length x.search.shardLists
      let d : Completion :=
        { epoch := x.snapshot.getD 0, dw2 := l.length, dw3 := x.search.round * 2 ^ 27 + lists, resultLength := 24 * k
          status := if l.length < k then .shortResult else .success, clipped := x.clipped }
      decide_ s n d bytes 24 {}

/-- The merged run keyed anew by its exact or re-ranked distances (R151). -/
def rekey (l : List Cand) (ds : Table F32) : List Cand :=
  (l.zipIdx).map fun (x, k) => let d := Tab.getD ds k maxFinite; { x with key := distKey d, dist := some d }

/-! ## Re-rank: what is read for each candidate (R225 to R231, R575) -/

/-- What is read for a candidate where it lies: its full vector, of the staging entry where its LOC says so, or its tokens (R225, R229). -/
def candBytes (c : Collection) (snap : Nat) (k : ObjKind) (y : Cand) : List Byte :=
  match k, y.loc with
  | .tokens, _ => match versionAt c y.vid snap with
    | some e => (entryTokens c y.vid e).flatMap fun t => leBytes 4 t.toNat
    | none => []
  | _, .staged n => ((Tab.get? c.staging n).map (·.full)).getD []
  | _, _ => match versionAt c y.vid snap with
    | some e => ((Tab.get? c.fulls (fullKey y.vid e.ins)).map (·.2.2)).getD []
    | none => []

/-- The kind of object that a search re-ranks from (R225, R229). -/
def rerankObj (x : Cmd) : ObjKind := if eRerank x.entry = 1 then .vectors else .tokens

/-- Puts a distance at a position of the merged run. -/
def setDist (s : State) (n k : Nat) (d : F32) : State := s.modSearch n fun w => { w with dists := Tab.set w.dists k d }

/-- Puts a token sequence at a position of the merged run. -/
def setTokens (s : State) (n k : Nat) (ts : List (BitVec 32)) : State := s.modSearch n fun w => { w with candTokens := Tab.set w.candTokens k ts }

/-- A candidate's data is at hand: its exact distance is computed (R226), or its tokens wait for their pair (R230). -/
def candArrives (s : State) (n : Nat) (x : Cmd) (c : Collection) (k : Nat) (b : List Byte) : State :=
  if eRerank x.entry = 1 then
    setDist s n k (if b.isEmpty then maxFinite
      else exactDist c.attrs.metric x.search.query (widen c.attrs.fullFormat c.attrs.int8Scale c.attrs.dim b))
  else setTokens s n k ((chunks 4 b).map fun w => BitVec.ofNat 32 (leNat w))

/-- Logical pages of T4 that hold n bytes at an offset of a tile. -/
def t4Pages (e : TileEntry) (off n : Nat) : List Nat :=
  let t := t4TileOf (if e.tier = 4 then e.location else e.backing)
  (List.range (ceilDiv (off % 16384 + n) 16384)).map fun i => 4 * t + off / 16384 + i

/-- Pages of a range that a FLASH_READ must fetch: they lie on the medium, and no write of them waits (R427). -/
def pagesToRead (s : State) (e : TileEntry) (off n : Nat) : List Nat :=
  (t4Pages e off n).filter fun p => (flashLoc s p).isSome && !s.flash.wbuf.contains (p / 4)

/-- Sectors of HBM that hold n bytes at an offset of a tile of T2 can be read. -/
def t2Readable (s : State) (e : TileEntry) (off n : Nat) : Bool :=
  let a := (e.location * 65536 + off) / 32
  (List.range (ceilDiv (off % 32 + n) 32)).all fun i => !addrLost s ((a + i) * 32)

/-- Reads what a candidate needs in the tier where it lies: T2 answers at once, T3 by a READ_REQ to the lender, T4 by reads of its pages (R225);
data that is lost or unreadable ends the search with DATA_ERROR (R227). -/
def readCand (s : State) (n : Nat) (c : Collection) (y : Cand) (k : Nat) : State :=
  match s.cmd? n with
  | none => s
  | some x =>
    if x.stage != .admitted || !candWaits s c x y k then s
    else
      let snap := x.snapshot.getD 0
      let b := candBytes c snap (rerankObj x) y
      match candPlace c snap (rerankObj x) y with
      | none => candArrives s n x c k b
      | some (t, off, len) =>
        let e := s.tile t
        let gone (s : State) : State := failSearch s n .dataError (tileCause s t)
        if e.lost then gone s
        else if e.tier = 3 then peerRead s (e.location / 2 ^ 23) (e.location % 2 ^ 23 * 65536 + off) len (.candidate n k)
        else if e.tier = 4 then
          (if (pagesToRead s e off len).isEmpty then candArrives s n x c k b
           else (pagesToRead s e off len).foldl (fun s p => queueFlash s p (eClass x.entry)) s)
        else if t2Readable s e off len then candArrives s n x c k b else gone s

/-- Pairs, in order, in groups of BATCH_MAX; each group joins a run that has room for all of it, or opens one (R217, R231). -/
def enqueueGroups (s : State) (i n : Nat) (ks : List Nat) : State :=
  let most := (s.sched i).header.batchMax
  (chunks most ks).foldl (fun s g =>
    let room (r : Run) : Bool := r.sched == i && !r.launched && r.slice.isNone && decide (r.seqs.length + g.length ≤ most)
    let new := g.map fun k => (⟨n, k⟩ : Seq)
    match s.runs.find? fun (_, r) => room r with
    | some (k, _) => s.modRun k fun r => { r with seqs := r.seqs ++ new }
    | none => { s with runs := Tab.set s.runs s.nextRun { sched := i, seqs := new }, nextRun := s.nextRun + 1 }) s

/-- The tokens of every candidate are there: those with tokens form pairs, in the order of the merged run; a candidate with none is not scored
(R230, R231). -/
def joinPairs (s : State) (n : Nat) (x : Cmd) : State :=
  match schedOf s x.cross with
  | none => failSearch s n .dataError { kind := kindLostObject, loc := 0, detail := 0 }
  | some i =>
    let s := s.modSearch n fun w => { w with paired := true }
    let tokensAt (k : Nat) : List (BitVec 32) := Tab.getD x.search.candTokens k []
    let ks := List.range x.search.merged.length
    let s := (ks.filter fun k => (tokensAt k).isEmpty).foldl (fun s k => setDist s n k maxFinite) s
    enqueueGroups s i n (ks.filter fun k => !(tokensAt k).isEmpty)

/-- A shard answers its coordinator: distances with EXACT, stored tokens with CROSS, by the coordinator's positions (R575). -/
def sendRerank (s : State) (n co txn : Nat) (x : Cmd) : State :=
  let w := x.search
  let body := (w.asked.zipIdx).flatMap fun (p, k) =>
    if eRerank x.entry = 1 then leBytes 4 p ++ leBytes 4 (Tab.getD w.dists k maxFinite).toNat
    else
      let ts := Tab.getD w.candTokens k []
      leBytes 4 p ++ leBytes 4 ts.length ++ ts.flatMap fun t => leBytes 4 t.toNat
  (sendData s 0x2C co txn (leBytes 2 0 ++ body)).modSearch n fun w => { w with phase := .ready }

/-- No read of a candidate is outstanding. -/
def allRead (s : State) (c : Collection) (x : Cmd) : Bool := !x.search.merged.zipIdx.any fun (y, k) => candWaits s c x y k

/-- Goes on with a re-rank as far as it can: with every read and every member's answer there, a shard answers, cross-encoder pairs join their
runs, and a search whose candidates all have their distances selects and ends (R151). -/
def settleRerank (s : State) (n : Nat) : State :=
  match s.cmd? n with
  | none => s
  | some x =>
    match s.coll? (eIndex x.entry) with
    | none => s
    | some c =>
      if x.search.phase != .reranking || x.stage != .admitted || !x.search.rerankWait.isEmpty || !allRead s c x then s
      else match x.origin with
        | .shard co txn => sendRerank s n co txn x
        | _ =>
          let s := if eRerank x.entry = 2 ∧ !x.search.paired then joinPairs s n x else s
          match s.cmd? n with
          | none => s
          | some x =>
            if x.search.dists.length == x.search.merged.length then
              finishSearch s n (selectN (eK x.entry) (rekey x.search.merged x.search.dists))
            else s

/-- A candidate that another member stores: its device (R575). -/
def remoteOf (s : State) (c : Collection) (x : Cand) : Option Nat :=
  if c.members.isEmpty || idDevice x.vid == s.net.deviceNumber then none else some (idDevice x.vid)

/-- Asks each other member that owns candidates for their distances or tokens (R575). -/
def askShards (s : State) (n : Nat) (c : Collection) (l : List Cand) (cross : Bool) : State :=
  let ps := (l.zipIdx).filterMap fun (x, k) => (remoteOf s c x).map fun d => (d, k, x.vid)
  let ds := (ps.map (·.1)).eraseDups
  ds.foldl (fun s d =>
    let mine := ps.filter fun y => y.1 == d
    let s := sendData s 0x2B d n
      (leBytes 1 (b2n cross) ++ mine.flatMap fun y => leBytes 6 y.2.2.toNat ++ leBytes 4 y.2.1)
    s.modSearch n fun w => { w with rerankWait := w.rerankWait ++ [d] }) s

/-- Begins the re-rank of a run: other members are asked for their candidates, and this device reads its own. -/
def startRerank (s : State) (n : Nat) (l : List Cand) : State :=
  match s.cmd? n with
  | none => s
  | some x =>
    match s.coll? (eIndex x.entry) with
    | none => s
    | some c =>
      let s := s.modSearch n fun w => { w with
        phase := .reranking, merged := l, dists := [], candTokens := [], pagesRead := [], paired := false }
      let s := if isShard x then s else askShards s n c l (eRerank x.entry == 2)
      settleRerank ((l.zipIdx).foldl (fun s (y, k) => readCand s n c y k) s) n

/-- A read of peer memory or of T4 has brought a candidate's data. -/
def candRead (s : State) (n k : Nat) (b : Option (List Byte)) : State :=
  match s.cmd? n with
  | none => s
  | some x =>
    match s.coll? (eIndex x.entry), x.search.merged[k]? with
    | some c, some y =>
      if x.search.phase == .reranking && x.stage == .admitted && candWaits s c x y k then
        settleRerank (candArrives s n x c k (b.getD (candBytes c (x.snapshot.getD 0) (rerankObj x) y))) n
      else s
    | _, _ => s

/-- The tile that a waiting candidate of a command is read from. -/
def candTile (s : State) (n k : Nat) : Option Nat :=
  (s.cmd? n).bind fun x => (s.coll? (eIndex x.entry)).bind fun c => (x.search.merged[k]?).bind fun y =>
    (candPlace c (x.snapshot.getD 0) (rerankObj x) y).map (·.1)

/-- A page of T4 has been read: the candidates whose pages are now all there have their data (R225). -/
def pageArrives (s : State) (page : Nat) : State :=
  let needs (c : Collection) (x : Cmd) (y : Cand) (k : Nat) : Option (TileEntry × Nat × Nat) :=
    if candWaits s c x y k then
      match candPlace c (x.snapshot.getD 0) (rerankObj x) y with
      | some (t, off, len) => if (t4Pages (s.tile t) off len).contains page then some (s.tile t, off, len) else none
      | none => none
    else none
  let readers := s.cmds.filter fun (_, x) => x.stage == .admitted && x.search.phase == .reranking
  readers.foldl (fun s (n, x) => match s.coll? (eIndex x.entry) with
    | none => s
    | some c =>
      let hits := x.search.merged.zipIdx.filterMap fun (y, k) => (needs c x y k).map fun p => (k, p)
      if hits.isEmpty then s
      else
        let got := page :: x.search.pagesRead
        let s := s.modSearch n fun w => { w with pagesRead := got }
        hits.foldl (fun s (k, e, off, len) => if (pagesToRead s e off len).all (got.contains ·) then candRead s n k none else s) s) s

/-! ## The end of a round -/

/-- Sends a round to every other member (R132, R572). -/
def sendRound (s : State) (n : Nat) : State :=
  match s.cmd? n with
  | none => s
  | some x =>
    match s.coll? (eIndex x.entry) with
    | none => s
    | some c =>
      if (others s c).isEmpty || isShard x then s
      else
        let w := x.search
        let body := leBytes 128 x.entry.toNat ++ w.query.flatMap (fun v => leBytes 4 v.toNat)
          ++ w.terms.flatMap (fun t => leBytes 8 t.toNat)
          ++ leBytes 4 (probes x.entry w.listCount w.round) ++ leBytes 8 (budget x.entry w.round)
        let s := (others s c).foldl (fun s d =>
          (chunks 2048 body).foldl (fun s b =>
            sendPacket s { mkPacket s 0x21 d n b with
              prio := min 3 (eClass x.entry), gen := eHandle x.entry, offset := x.snapshot.getD 0 }) s) s
        s.modSearch n fun w => { w with shards := others s c }

/-- A shard sends its output to the coordinator, and keeps what it holds until SHARD_CANCEL (R149, R575). -/
def sendShard (s : State) (n co txn : Nat) (l : List Cand) : State :=
  match s.cmd? n with
  | none => s
  | some x =>
    match s.coll? (eIndex x.entry) with
    | none => s
    | some c =>
      let s := (List.range (ceilDiv l.length 85)).foldl (fun s i =>
        sendPacket s (mkPacket s 0x22 co txn (((l.drop (85 * i)).take 85).flatMap (resultEntry c false)))) s
      let s := sendData s 0x23 co txn (leBytes 2 0 ++ leBytes 4 x.search.scanned.length ++ leBytes 4 l.length)
      s.modSearch n fun w => { w with phase := .ready, merged := l }

/-- The device square has END on every input: the shard answers; the coordinator widens, re-ranks or ends (R130, R150). -/
def roundDone (s : State) (n : Nat) (l : List Cand) : State :=
  match s.cmd? n with
  | none => s
  | some x =>
    match x.origin with
    | .shard co txn => sendShard s n co txn l
    | _ =>
      let w := x.search
      let more := eWidenLimit x.entry != 0 && decide (l.length < eK x.entry)
        && decide (probes x.entry w.listCount w.round < widenLimit x.entry w.listCount)
      if more then
        let s := startRound (s.modSearch n fun w => { w with merged := l }) n (w.round + 1)
        let s := s.modSearch n fun w => { w with squares := Tab.set w.squares (squareNum .device) { running := l } }
        sendRound s n
      else if eRerank x.entry = 0 then finishSearch s n l
      else startRerank s n l

/-! ## SQUARE_END -/

/-- Whether a core has sent all its runs of a query: no batch of the query on its die is unlaunched, undealt or at work on the core
(R144). -/
def coreClosed (s : State) (x : Cmd) (core : Nat) : Bool :=
  x.search.batches.all fun k => match Tab.get? s.batches k with
    | some b => batchDie b != coreDie core || (b.launched && b.undealt.isEmpty && !Tab.has b.workers core)
    | none => true

/-- END is due on an input: what feeds it has ended for the query, and no run is on its way (R144). -/
def endDue (s : State) (x : Cmd) (q : SquareId) (input : Nat) : Bool :=
  (takeFlight q input x.search.flights).isNone &&
    match q with
    | .pair p => coreClosed s x (2 * p + input)
    | .quarter n => (squareNode x (.pair (32 * n + input))).done
    | .die n => (squareNode x (.quarter (8 * n + input))).done
    | .device => if input < 8 then (squareNode x (.die input)).done else !x.search.shards.contains (input - 8)

/-- An END arrives; after the last one the square sends its output run, or the device square ends the round (R144, R150). -/
def squareEndEffect (s : State) (n : Nat) (x : Cmd) (q : SquareId) (input : Nat) : State :=
  let node := squareNode x q
  let node := { node with ended := node.ended ++ [input] }
  let full := (squareInputs s x q).all (node.ended.contains ·)
  let node := { node with done := full }
  let s := s.modSearch n fun w => { w with squares := Tab.set w.squares (squareNum q) node }
  if !full then s
  else match squareNext q with
    | some (u, i) =>
      if node.running.isEmpty then s
      else sendFlight s n u i node.running
    | none => roundDone s n node.running

def execSquareEnd (cmd : Nat) (sq : SquareId) (input : Nat) (s : State) : Host.Outcome State Fault Refusal :=
  match scanningCmd s cmd with
  | none => occurs false s s
  | some x =>
    let ok := (squareInputs s x sq).contains input && !(squareNode x sq).ended.contains input && endDue s x sq input
    occurs (live s && awake s && sq.ok && ok) (settleUnloads (squareEndEffect s cmd x sq input)) s

/-! ## TILE_BOUND_EXPIRY (R227) -/

/-- A full-vector read has missed the published bound of its tier: the searches that need the tile end with TIER_LATE. -/
def boundEffect (s : State) (t : Nat) (e : TileEntry) : State :=
  let z : Cause := { kind := kindTier, loc := t, detail := e.tier }
  failAll s (rerankReaders s e.owner .vectors t) .tierLate z

def execTileBoundExpiry (tile : Nat) (s : State) : Host.Outcome State Fault Refusal :=
  match Tab.get? s.tiers.map tile with
  | some e => occurs (live s && e.kind == .vectors && !(rerankReaders s e.owner .vectors tile).isEmpty) (boundEffect s tile e) s
  | none => occurs false s s

/-! ## Starting a search (R36 steps 3 to 5, R97) -/

/-- The FP32 query of a SEARCH that carries numbers (R97); not yet normalised. -/
def numericQuery (a : Attrs) (c : Cmd) : List F32 :=
  widen (match eQueryFormat c.entry with | 0 => .fp32 | 1 => .bf16 | _ => .fp16) 0 a.dim (queryData c)

/-- The working query (R97); none where R54 refuses it. -/
def workingQuery (a : Attrs) (x : List F32) : Option (List F32) :=
  if x.any notFinite32 then none else if a.metric = .cosine then normalise x else some x

/-- The query's vector is known: coarse probing begins, here and on every shard. -/
def startCoarse (s : State) (n : Nat) (q : List F32) : State :=
  sendRound (s.arrive.modSearch n fun w => { w with phase := .coarse, query := q, arrived := s.arrivals + 1 }) n

/-- A search takes its snapshot: the directory version and LIST_COUNT that go with it (R79, R95), the filter, and the query or its
embedding. -/
def startSearch (s : State) (n snap : Nat) : State :=
  match s.cmd? n with
  | none => s
  | some x =>
    match s.coll? (eIndex x.entry) with
    | none => s
    | some c =>
      let v := dirFor c snap
      let s := s.modCmd n fun y => { y with snapshot := some snap }
      let s := s.modSearch n fun w => { w with
        dir := v.number, listCount := v.listCount, terms := filterTerms x.entry x.input }
      if eQueryFormat x.entry = 3 then
        match schedOf s x.embed with
        | some d => enqueueSeq (s.modSearch n fun w => { w with phase := .embedding }) d n 0
        | none => failSearch s n .dataError { kind := kindLostObject, loc := 0, detail := 0 }
      else
        match workingQuery c.attrs (numericQuery c.attrs x) with
        | some q => startCoarse s n q
        | none => failSearch s n .invalidVector {}

end Sys2Proof.Machine
end

