-- ==== Sys2Proof/Machine/Tiers.lean ====
section
/-! DEFINITION. Tiers (R395 to R418): reserving and switching the tiles of a placement command, parking, waking, T4 backing writes, and
leases that end. -/

namespace Sys2Proof.Machine

open Sys2Proof

/-! ## Objects and their tiles (R397) -/

/-- Tiles of an object of a collection. -/
def objTiles (c : Collection) : ObjKind → List Nat
  | .index => Tab.keys c.segs ++ c.indexTiles
  | .vectors => c.vecTiles
  | .tokens => c.tokTiles
  | _ => []

/-- The object that OBJECT of a TIER_MOVE names (R404). -/
def objOf (n : Nat) : ObjKind := if n = 3 then .tokens else .vectors

/-- The objects that a placement command moves. -/
def movedObjs (x : Cmd) : List ObjKind :=
  if eOpcode x.entry = 8 then [objOf (eObject x.entry)]
  else if eOpcode x.entry = 9 then .index :: (if eWithData x.entry then [.vectors, .tokens] else [])
  else [.index]

/-- Commands in a list that move one of some objects. -/
def movers (s : State) (l : List Nat) (os : List ObjKind) : List Nat :=
  l.filter fun n => match s.cmd? n with | some x => (movedObjs x).any (os.contains ·) | none => false

/-! ## Space (R405, R413) -/

/-- A place of T3, as LOCATION holds it: window and page. -/
def t3Loc (window page : Nat) : Nat := window * 2 ^ 23 + page

/-- A place of T3 is in use: by a tile, by a reservation, or by a copy that commands may still read (R405). -/
def t3Used (s : State) (loc : Nat) : Bool :=
  s.tiers.map.any (fun (_, e) => e.tier == 3 && e.location == loc)
    || s.cmds.any (fun (_, x) => x.work.target == 3 && x.work.places.contains loc)
    || s.tiers.releasing.any fun (l, ns) => l == loc && ns.any (Tab.has s.cmds ·)

/-- The least free page of a lease from page p on: a lease has 16,384 pages of 64 KiB. -/
def freeT3 (s : State) (taken : List Nat) (window : Nat) : Nat → Nat → Option Nat
  | 0, _ => none
  | n + 1, p =>
    if p < 16384 ∧ !t3Used s (t3Loc window p) ∧ !taken.contains (t3Loc window p) then some (t3Loc window p)
    else freeT3 s taken window n (p + 1)

/-- Leases that may take tiles, in order of number. -/
def openLeases (s : State) : List BorrowedLease := (s.tiers.borrowed.filter fun (_, l) => !l.revoked).map (·.2)

/-- A place in T3 for tile t: the leases in turn by tile number, the next with room where one is full (R413). -/
def placeT3 (s : State) (taken : List Nat) (t : Nat) : Option Nat :=
  let ls := openLeases s
  let k := t % max 1 ls.length
  let fuel := s.tiers.map.length + s.tiers.releasing.length + taken.length + 16385
  (ls.drop k ++ ls.take k).findSome? fun l => freeT3 s taken l.window fuel 0

/-- Reserves the target place of one tile, with the T4 tile that it needs beside a copy it has: a move into T3 needs a backing (R399),
a move into T4 uses an existing copy. -/
def reserveOne (s : State) (taken : List Nat) (target t : Nat) : Option (Nat × Option Nat × State) :=
  let e := s.tile t
  if target = 2 then (takePages s 16 16).map fun (p, s) => (p / 16, none, s)
  else if target = 3 then
    match placeT3 s taken t with
    | none => none
    | some l =>
      if e.kind == .index || e.backed || e.tier == 4 then some (l, none, s)
      else (takeT4 s fun _ => true).map fun (u, s) => (l, some u, s)
  else if e.backed then some (e.backing, none, s)
  else (takeT4 s fun _ => true).map fun (u, s) => (t4Loc u, some u, s)

/-- Reserves the places of all tiles as one unit, or none of them. -/
def reserveAll (target : Nat) : List Nat → State → List Nat → Option (List Nat × List (Option Nat) × State)
  | [], s, _ => some ([], [], s)
  | t :: ts, s, taken =>
    match reserveOne s taken target t with
    | none => none
    | some (l, b, s) =>
      match reserveAll target ts s (l :: taken) with
      | none => none
      | some (ls, bs, s) => some (l :: ls, b :: bs, s)

/-- Tiles that need a new tile of T4. -/
def newT4 (s : State) (target : Nat) (ts : List Nat) : Nat :=
  if target = 2 then 0
  else (ts.filter fun t =>
    let e := s.tile t
    !e.backed && !(target == 3 && (e.kind == .index || e.tier == 4))).length

/-- Reserves space for tiles, with T4's own grant (R429). -/
def reserveTiles (s : State) (target : Nat) (ts : List Nat) : Option (List Nat × List (Option Nat) × State) :=
  let k := newT4 s target ts
  if k != 0 && !t4Grants s k then none else reserveAll target ts s []

/-! ## Switching tiles (R402, R405) -/

/-- The upper or lower copy that a tile leaves: T2 pages are free at once, a place in T3 once the commands that hold a pin end. -/
def leaveCopy (s : State) (e : TileEntry) (holders : List Nat) : State :=
  if e.tier = 2 then givePages s (e.location * 16) 16
  else if e.tier = 3 && !holders.isEmpty then s.modTiers fun x => { x with
    releasing := (x.releasing.filter fun r => r.2.any (Tab.has s.cmds ·)) ++ [(e.location, holders)] }
  else s

/-- Sets a tile's entry to its copy in the target tier (R398). A T4 copy stays as BACKING, unless a write to T3 has left it behind. -/
def switchTile (s : State) (target : Nat) (holders : List Nat) (t place : Nat) (b : Option Nat) : State :=
  let e := s.tile t
  let s := leaveCopy s e holders
  let s := match b with | some u => queueT4 s [u] | none => s
  let s := s.modTiers fun x => { x with backingQueue := x.backingQueue.filter (· != t) }
  let old := if e.tier = 4 then e.location else e.backing
  let kept := e.kind != .index && (e.tier == 4 || e.backed)
  if target = 2 then
    let s := if kept && e.dirty then freeT4 s (t4TileOf old) else s
    let keep := kept && !e.dirty
    setTile s t { e with tier := 2, location := place, dirty := false, backed := keep, backing := if keep then old else 0 }
  else if target = 3 then
    let back := match b with | some u => t4Loc u | none => old
    setTile s t { e with
      tier := 3, location := place, dirty := false, backed := e.kind != .index, backing := if e.kind = .index then 0 else back }
  else
    let s := if e.dirty then queueT4 s [t4TileOf place] else s
    setTile s t { e with tier := 4, location := place, dirty := false, backed := false, backing := 0 }

/-- Switches tiles to their places, in order. -/
def switchTiles (target : Nat) (holders : List Nat) : List Nat → List Nat → List (Option Nat) → State → State
  | t :: ts, p :: ps, b :: bs, s => switchTiles target holders ts ps bs (switchTile s target holders t p b)
  | _, _, _, s => s

/-- Whether one of the tiles is lost: its copy cannot be read, so that the move ends with DATA_ERROR (R416). -/
def anyLost (s : State) (ts : List Nat) : Bool := ts.any fun t => (s.tile t).lost

/-- The tiles of an object that do not lie in a tier, and those that lie above it. -/
def notIn (s : State) (target : Nat) (ts : List Nat) : List Nat := ts.filter fun t => (s.tile t).tier != target
def above (s : State) (target : Nat) (ts : List Nat) : List Nat := ts.filter fun t => decide ((s.tile t).tier < target)

/-! ## TIER_MOVE (R403, R405) -/

/-- Ends every command of a list of evictions with OBJECT_BUSY (R403). -/
def cancelEvictions (s : State) (ns : List Nat) : State := ns.foldl (fun s n => endMove s n .objectBusy {}) s

/-- A TIER_MOVE at its admission (DEDUCED, log entry 83). -/
def startMove (s : State) (n i : Nat) (c : Collection) (x : Cmd) : State :=
  let o := objOf (eObject x.entry)
  let target := eTarget x.entry
  let ts := notIn s target (objTiles c o)
  let down := !(above s target ts).isEmpty
  let evs := movers s c.evictions [o]
  if !evs.isEmpty then
    if down then fail s n .objectBusy {} else succeed (cancelEvictions s evs) n {}
  else if ts.isEmpty then succeed s n {}
  else match reserveTiles s target ts with
    | none => fail s n .noSpace { kind := kindTier, loc := i, detail := target }
    | some (ps, bs, s) =>
      let s := s.modWork n fun w => { w with obj := o, target := target, tiles := ts, places := ps, backing := bs }
      s.modColl i fun c => if down then { c with evictions := c.evictions ++ [n] } else { c with promotions := c.promotions ++ [n] }

/-! ## PARK (R408) -/

/-- A collection that a resident collection names as its template. -/
def isTemplate (s : State) (i : Nat) (c : Collection) : Bool :=
  s.colls.any fun (_, y) => y.attrs.codebookSource == handleOf c.gen i && inT2 y

/-- The tier in which a parked INDEX lies. -/
def parkedTier (s : State) (c : Collection) : Nat := (s.tile ((objTiles c .index).headD 0)).tier

/-- VECTORS and TOKENS tiles that a PARK with WITH_DATA moves. -/
def dataTiles (s : State) (c : Collection) (x : Cmd) : List Nat :=
  if eWithData x.entry then above s (eTarget x.entry) (c.vecTiles ++ c.tokTiles) else []

/-- The INDEX of a collection lies on the tiles of its image (R408). -/
def indexToImage (s : State) (c : Collection) : State :=
  match c.image with
  | none => s
  | some g =>
    ((objTiles c .index).zipIdx).foldl (fun s (t, k) =>
      let e := s.tile t
      let s := leaveCopy s e []
      setTile s t { e with
        tier := 4, location := t4Loc ((g.tiles.getD (k % max 1 g.imageTiles) 0)), dirty := false, backed := false, backing := 0 }) s

/-- A PARK at its admission: it ends at once, or reserves its space and copies (DEDUCED, log entry 81). -/
def startPark (s : State) (n i : Nat) (c : Collection) (x : Cmd) : State :=
  let target := eTarget x.entry
  let done (s : State) : State := succeed s n { epoch := c.published }
  if isTemplate s i c || !(movers s c.evictions (movedObjs x)).isEmpty || c.residency == .parking then fail s n .objectBusy {}
  else
    let resident := c.residency == .resident
    let s := if resident then (appendEvery s i).getD s else s
    let c := (s.coll? i).getD c
    let data := dataTiles s c x
    let index := if target = 3 ∧ (resident ∨ c.residency = .parkedT4) then objTiles c .index else []
    if !resident && data.isEmpty && ((c.residency == .parkedT3 && target == 3) || (c.residency == .parkedT4 && target == 4)) then done s
    else if c.residency == .parkedT3 && target == 4 && data.isEmpty then
      done ((indexToImage s c).modColl i fun c => { c with residency := .parkedT4 })
    else match reserveTiles s target (index ++ data) with
      | none => fail s n .noSpace { kind := kindTier, loc := i, detail := target }
      | some (ps, bs, s) =>
        let s := s.modWork n fun w => { w with
          obj := .index, target := target, tiles := index ++ data, places := ps, backing := bs }
        s.modColl i fun c => { c with
          evictions := c.evictions ++ [n], residency := if resident then .parking else c.residency }

/-! ## EVICTION_SWITCH (R402, R408) -/

/-- The eviction in progress of an object. -/
def evictionOf (s : State) (c : Collection) (o : ObjKind) : Option Nat :=
  c.evictions.find? fun n => match s.cmd? n with | some x => x.work.obj == o | none => false

/-- The commit word can be acquired. -/
def wordFree (c : Collection) : Bool := !c.commitWord && c.remote.isNone

/-- Tiles that an eviction switches now: those it copied and those written or added since (R402). -/
def switchSet (s : State) (c : Collection) (x : Cmd) : List Nat :=
  if eOpcode x.entry = 9 then
    (if x.work.target = 3 ∧ c.residency ≠ .parkedT3 then objTiles c .index else []) ++ dataTiles s c x
  else notIn s x.work.target (objTiles c x.work.obj)

/-- Whether the objects' pins are zero, so that the compare-and-swap succeeds. -/
def pinsZero (s : State) (c : Collection) (x : Cmd) : Bool :=
  if eOpcode x.entry = 9 then
    (c.residency != .parking || c.pinIndex.pins == 0)
      && ((dataTiles s c x).isEmpty || (c.pinVectors.pins == 0 && c.pinTokens.pins == 0))
  else if x.work.obj = .tokens then c.pinTokens.pins == 0 else c.pinVectors.pins == 0

/-- A PARK of a resident collection has what its parked copy needs: every staged copy appended, and the image or the journal at the
published epoch. -/
def parkCopied (s : State) (i n : Nat) (c : Collection) : Bool :=
  c.residency != .parking ||
    (c.pendingImage.isNone && !parkWaits s i c n && (listsToAppend c).isEmpty && !c.staging.any (fun (_, e) => e.insE.isNone))

/-- The switch of an eviction: under the commit word every tile takes its lower copy, and the upper ones are free. -/
def evictEffect (s : State) (i n : Nat) (c : Collection) (x : Cmd) : State :=
  let ts := switchSet s c x
  let index := objTiles c .index
  let park := eOpcode x.entry == 9
  if anyLost s (if park ∧ c.residency = .parking then index ++ ts else ts) then
    endMove s n .dataError { kind := kindTier, loc := i, detail := x.work.target }
  else match reserveTiles (freeMove s x) x.work.target ts with
    | none => endMove s n .noSpace { kind := kindTier, loc := i, detail := x.work.target }
    | some (ps, bs, s) =>
      let s := switchTiles x.work.target [] ts ps bs s
      let s := s.modWork n fun w => { w with tiles := [], places := [], backing := [] }
      let s := s.modColl i fun c => { c with evictions := c.evictions.filter (· != n) }
      if !park then succeed s n { dw2 := ts.length }
      else
        let toImage := x.work.target == 4 && c.residency != .parkedT4
        let s := if toImage then indexToImage s c else s
        let s := if c.residency = .parking then dropStage s i else s
        let s := s.modColl i fun c => { c with
          residency := if x.work.target = 4 then .parkedT4 else .parkedT3
          pinIndex := { evicted := true, pins := if c.residency = .parking then 0 else c.pinIndex.pins } }
        let k := ts.length + if toImage ∧ c.residency = .parking then index.length else 0
        succeed s n { epoch := c.published, dw2 := k }

/-- The conditions of the switch; a PARK to T4 waits for the firmware (R417). -/
def evictReady (s : State) (i n : Nat) (c : Collection) (x : Cmd) : Bool :=
  wordFree c && pinsZero s c x && x.word != .ending && parkCopied s i n c
    && (eOpcode x.entry != 9 || x.work.target != 4 || fwServes s) && x.work.members.isEmpty

def execEvictionSwitch (coll : Nat) (obj : ObjKind) (s : State) : Host.Outcome State Fault Refusal :=
  match s.coll? coll with
  | none => occurs false s s
  | some c =>
    match evictionOf s c obj with
    | none => occurs false s s
    | some n =>
      match s.cmd? n with
      | none => occurs false s s
      | some x => occurs (live s && awake s && evictReady s coll n c x) (evictEffect s coll n c x) s

/-! ## MOVE_SWITCH (R405) -/

/-- Commands that hold a pin of an object. -/
def pinHolders (s : State) (i : Nat) (o : ObjKind) : List Nat :=
  (s.cmds.filter fun (_, y) => onColl i y && (if o = .tokens then y.pinTokens else y.pinVectors)).map (·.1)

/-- The switch of an upward move: under the commit word every moved tile takes its upper copy. -/
def moveEffect (s : State) (n i : Nat) (x : Cmd) : State :=
  let ts := x.work.tiles.filter fun t => Tab.has s.tiers.map t
  if anyLost s ts then endMove s n .dataError { kind := kindTier, loc := i, detail := x.work.target }
  else match reserveTiles (freeMove s x) x.work.target ts with
    | none => endMove s n .noSpace { kind := kindTier, loc := i, detail := x.work.target }
    | some (ps, bs, s) =>
      let s := switchTiles x.work.target (pinHolders s i x.work.obj) ts ps bs s
      let s := s.modWork n fun w => { w with tiles := [], places := [], backing := [] }
      let s := s.modColl i fun c => { c with promotions := c.promotions.filter (· != n) }
      succeed s n { dw2 := ts.length }

def execMoveSwitch (cmd : Nat) (s : State) : Host.Outcome State Fault Refusal :=
  match s.cmd? cmd with
  | none => occurs false s s
  | some x =>
    let i := eIndex x.entry
    let ok := match s.coll? i with
      | some c => c.promotions.contains cmd && wordFree c && x.word != .ending
      | none => false
    occurs (live s && awake s && ok) (moveEffect s cmd i x) s

/-! ## Waking (R409, R410) -/

/-- n places of one tile in T2, as one unit. -/
def takeT2 : Nat → State → Option (List Nat × State)
  | 0, s => some ([], s)
  | n + 1, s =>
    match takePages s 16 16 with
    | none => none
    | some (p, s) => (takeT2 n s).map fun (ps, s) => (p / 16 :: ps, s)

/-- Step 1 of a wake that command n starts or joins; it ends with NO_SPACE where T2 has no room, and the collection stays parked. -/
def startWake (s : State) (n i : Nat) (c : Collection) : State :=
  if c.residency = .waking then
    (s.modColl i fun c => { c with wakeCmds := c.wakeCmds ++ [n] }).modCmd n fun y => { y with waitsWake := true }
  else
    let s := cancelEvictions s (movers s c.evictions [.index])
    let ts := objTiles c .index
    match takeT2 ts.length s with
    | none => fail s n .noSpace { kind := kindTier, loc := i, detail := 2 }
    | some (ps, s') =>
      match takePages s' (stagePages c.attrs) 16 with
      | none => fail s n .noSpace { kind := kindTier, loc := i, detail := 2 }
      | some (p, s') =>
        (s'.modColl i fun c => { c with
          residency := .waking, wakeCmds := [n], wakeTiles := ts.zip ps, stage := some (p, stagePages c.attrs) }).modCmd n
            fun y => { y with waitsWake := true }

/-- A WAKE at its admission: of a resident collection it completes at once; a PARK that is copying ends with OBJECT_BUSY (R403). -/
def wakeCommand (s : State) (n i : Nat) (c : Collection) : State :=
  match c.residency with
  | .resident => succeed s n {}
  | .parking => succeed (cancelEvictions s (movers s c.evictions [.index])) n {}
  | _ => startWake s n i c

/-- Ends a maintenance command before its cutover: the shadow is released (R194). -/
def dropMaint (s : State) (i : Nat) : State :=
  match (s.coll? i).bind (·.maint) with
  | some m =>
    let s := (dropTiles s m.tiles).modColl i fun c => { c with
      maint := none, oldBooks := Tab.erase c.oldBooks (bookKey m.gen m.listCount) }
    (i :: m.waits).foldl (fun s j => s.modColl j fun c => { c with prepared := [] }) s
  | none => s

/-- A wake that fails ends every command that waits on it, and the collection stays parked where it was (R410). -/
def endWake (s : State) (i : Nat) (st : Status) (z : Cause) : State :=
  match s.coll? i with
  | none => s
  | some c =>
    if c.residency ≠ .waking then s
    else
      let s := c.wakeTiles.foldl (fun s (_, p) => givePages s (p * 16) 16) s
      let s := dropStage s i
      let r : Residency := if parkedTier s c = 3 then .parkedT3 else .parkedT4
      let s := s.modColl i fun c => { c with residency := r, wakeCmds := [], wakeTiles := [] }
      let s := match c.maint with | some m => if c.wakeCmds.contains m.cmd then dropMaint s i else s | none => s
      failAll s c.wakeCmds st z

/-- Step 3 and 4: the INDEX lies in T2, PIN_INDEX counts the waiting commands, and the WAKE commands complete. -/
def wakeEffect (s : State) (i : Nat) (c : Collection) : State :=
  let ns := c.wakeCmds.filter fun n => match s.cmd? n with | some x => x.stage != .decided | none => false
  let wakes := ns.filter fun n => match s.cmd? n with | some x => eOpcode x.entry == 10 | none => false
  let rest := ns.filter fun n => !wakes.contains n
  let s := c.wakeTiles.foldl (fun s (t, p) =>
    let e := s.tile t
    setTile (leaveCopy s e []) t { e with tier := 2, location := p, dirty := false, backed := false, backing := 0 }) s
  let s := s.modColl i fun c => { c with
    residency := .resident, pinIndex := { evicted := false, pins := rest.length }, wakeCmds := [], wakeTiles := [] }
  let s := rest.foldl (fun s n => s.modCmd n fun y => { y with waitsWake := false, pinIndex := true }) s
  wakes.foldl (fun s n => succeed s n { dw2 := c.wakeTiles.length }) s

/-- WAKE_SWITCH: a tile that cannot be read ends the wake (R416). -/
def wakeSwitchEffect (s : State) (i : Nat) (c : Collection) : State :=
  if anyLost s (c.wakeTiles.map (·.1)) then endWake s i .dataError { kind := kindTier, loc := i, detail := parkedTier s c }
  else wakeEffect s i c

def execWakeSwitch (coll : Nat) (s : State) : Host.Outcome State Fault Refusal :=
  match s.coll? coll with
  | none => occurs false s s
  | some c => occurs (live s && awake s && c.residency == .waking && wordFree c) (wakeSwitchEffect s coll c) s

/-! ## Limits (R406, R407) -/

/-- A TIER_MOVE or PARK whose switch has not taken place. -/
def beforeSwitch (x : Cmd) : Bool := (eOpcode x.entry == 8 || eOpcode x.entry == 9) && x.stage != .decided

def execDeferLimitExpiry (cmd : Nat) (s : State) : Host.Outcome State Fault Refusal :=
  match s.cmd? cmd with
  | none => occurs false s s
  | some x => occurs (live s && beforeSwitch x && x.word != .ending && eDeferLimit x.entry != 0) (endMove s cmd .objectBusy {}) s

/-- MOVE_DEADLINE: a move of class 0 or 1, or the wake that such a command started, has not landed in time. -/
def execMoveDeadline (cmd : Nat) (s : State) : Host.Outcome State Fault Refusal :=
  match s.cmd? cmd with
  | none => occurs false s s
  | some x =>
    let i := eIndex x.entry
    let z : Cause := { kind := kindTier, loc := i, detail := x.work.target }
    let wakes := match s.coll? i with
      | some c => c.residency == .waking && c.wakeCmds.head? == some cmd
      | none => false
    let moves := beforeSwitch x && x.stage == .admitted && !x.work.tiles.isEmpty && x.word != .ending
    occurs (live s && decide (eClass x.entry ≤ 1) && (wakes || moves))
      (if wakes then endWake s i .tierLate z else endMove s cmd .tierLate z) s

/-! ## T4_BACKING_WRITE (R399) -/

/-- The T4 write of a T3 tile, or of a T2 tile whose T4 copy was lost (R443): the write buffer takes it; DIRTY clears when it is programmed (R399, R428). -/
def backingEffect (s : State) (t : Nat) (e : TileEntry) : State :=
  let s := queueT4 s [t4TileOf e.backing]
  s.modTiers fun x => { x with backingQueue := x.backingQueue.filter (· != t) }

def execT4BackingWrite (tile : Nat) (s : State) : Host.Outcome State Fault Refusal :=
  match Tab.get? s.tiers.map tile with
  | none => occurs false s s
  | some e =>
    occurs (fwServes s && awake s && t4Writes s && s.tiers.backingQueue.contains tile && e.backed
      && (e.tier == 2 || (e.tier == 3 && e.dirty)))
      (backingEffect s tile e) s

/-! ## Leases that end (R389, R414, R415) -/

/-- Tiles that lie in a window. -/
def tilesInWindow (s : State) (w : Nat) : List Nat :=
  (s.tiers.map.filter fun (_, e) => e.tier == 3 && e.location / 2 ^ 23 == w).map (·.1)

/-- A collection parked in a lease becomes PARKED_T4 on its image and journal; a wake that reads it goes on from there. -/
def parkOnImage (s : State) (i : Nat) : State :=
  match s.coll? i with
  | none => s
  | some c => (indexToImage s c).modColl i fun c => { c with
      residency := if c.residency = .parkedT3 then .parkedT4 else c.residency }

/-- A tile of a lease goes to its T4 copy. Within a notice a DIRTY one is written first; of a lost lender it is LOST, and logged. -/
def leaveLease (s : State) (lost : Bool) (t : Nat) : State :=
  let e := s.tile t
  match e.kind with
  | .index => parkOnImage s e.owner
  | _ =>
    let s := if e.dirty && !lost then queueT4 s [t4TileOf e.backing] else s
    let s := s.modTiers fun x => { x with backingQueue := x.backingQueue.filter (· != t) }
    let s := setTile s t { e with
      tier := 4, location := e.backing, backed := false, backing := 0, dirty := false, lost := e.lost || (e.dirty && lost) }
    if e.dirty && lost then
      let h := if e.kind = .weights then schedHandle s e.owner else collHandle s e.owner
      objectLog s kindLostObject h 0 t (lostDetail h.toNat e.kind 0 1)
    else s

/-- Runs that wait for a tile of a lease: a weight read that is issued and has not landed. -/
def runsReading (s : State) (ts : List Nat) : List Nat :=
  (s.runs.filter fun (_, r) =>
    let d := s.sched r.sched
    r.launched && (List.range r.issued).any fun k =>
      !r.landed.contains k && (match d.refs[k]? with
        | some f => f.source == 3 && (match weightTile d f with | some t => ts.contains t | none => false)
        | none => false)).map (·.1)

/-! ## Peer requests that end (R577, R578, R580) -/

/-- A commit through the epoch home ends because the home is lost: before PUBLISHED is known its group has no effect; after its writes the
commit stands, and its completions carry PEER_LOST (R580). -/
def commitLost (s : State) (i d : Nat) : State :=
  match s.coll? i with
  | none => s
  | some c =>
    match c.remote with
    | none => s
    | some r =>
      let z : Cause := (peerCause d 0 0)
      let s := s.modColl i fun c => { c with remote := none, groups := Tab.erase c.groups r.group }
      let ms := if r.phase ≤ 1 then (Tab.getD c.groups r.group ⟨[], true⟩).members else r.done.map (·.1)
      groupGone (failAll s ms .peerLost z) i r.group

/-- An outstanding peer request ends with PEER_FAILURE: its port tag is free (R345, R578). -/
def peerFails (s : State) (txn : Nat) : State :=
  match Tab.get? s.net.peers txn with
  | none => s
  | some r =>
    let s := s.modNet fun x => { x with peers := Tab.erase x.peers txn }
    let s := s.modLink r.port fun l => { l with tags := l.tags - 1 }
    match r.waiter with
    | .piece n => pieceErr s n 5
    | .alley core slot => { s with alleys := Tab.adjust s.alleys (core * 64 + slot) fun x => { x with err := some 5 } }
    | .command n => fail s n .peerLost (peerCause r.dest 0 0)
    | .commit i => commitLost s i r.dest
    | .candidate n _ => failSearch s n .peerLost (peerCause r.dest 0 0x01)
    | .weight t => oneEvent s false {} fun s => (runsReading s [t]).foldl (fun s k => endEverywhere s k .peerLost (peerCause r.dest 0 0x01)) s
    | .partialSum k => endEverywhere s k .peerLost (peerCause r.dest 0 0x02)

/-- Requests outstanding to a window. -/
def readsOf (s : State) (window : Nat) : List Nat :=
  (s.net.peers.filter fun (_, r) => match r.waiter with
    | .piece n => match Tab.get? s.pieces n with
      | some x => (x.spec.srcSpace == 2 && x.spec.srcSel == window) || (x.spec.dstSpace == 2 && x.spec.dstSel == window)
      | none => false
    | .alley core slot => match Tab.get? s.alleys (core * 64 + slot) with
      | some x => x.space == 2 && x.sel == window
      | none => false
    | .candidate n j => (candTile s n j).any fun t => (s.tile t).tier == 3 && (s.tile t).location / 2 ^ 23 == window
    | .weight t => (s.tile t).tier == 3 && (s.tile t).location / 2 ^ 23 == window
    | _ => false).map (·.1)

/-- A lease is gone: its tiles take their T4 copies, and it is off the list. Reads outstanding to a lost lender end with PEER_LOST. -/
def dropLease (s : State) (k : Nat) (lost : Bool) : State :=
  match Tab.get? s.tiers.borrowed k with
  | none => s
  | some l =>
    let ts := tilesInWindow s l.window
    let z : Cause := (peerCause l.lender l.window 0)
    let s :=
      if lost then oneEvent s false z fun s =>
        let s := (readsOf s l.window).foldl peerFails s
        let s := (runsReading s ts).foldl (fun s r => endEverywhere s r .peerLost z) s
        let moves := (s.cmds.filter fun (_, x) => beforeSwitch x && x.stage == .admitted
          && (x.work.tiles.any (ts.contains ·) || (x.work.target == 3 && x.work.places.any fun p => p / 2 ^ 23 == l.window))).map (·.1)
        let s := moves.foldl (fun s n => endMove s n .peerLost z) s
        let wakes := (s.colls.filter fun (_, c) => c.residency == .waking && c.wakeTiles.any fun (t, _) => ts.contains t).map (·.1)
        wakes.foldl (fun s i => endWake s i .peerLost z) s
      else s
    let s := ts.foldl (fun s t => if (s.tile t).tier = 3 then leaveLease s lost t else s) s
    (s.modTiers fun x => { x with borrowed := Tab.erase x.borrowed k }).modProtect fun x => { x with
      outbound := Tab.adjust x.outbound l.window fun w => { w with valid := false } }

/-- The lender closes the window of a lease: GEN advances, and the lease's space is its own again (R389, R412). -/
def closeLease (s : State) (k : Nat) : State :=
  match Tab.get? s.tiers.lent k with
  | none => s
  | some l =>
    let s := givePages (givePages s l.page 262144) l.table 32
    let s := s.modProtect fun x => { x with
      inbound := Tab.adjust x.inbound l.window fun w => { w with valid := false, gen := w.gen + 1 }
      peerDtc := Tab.keep x.peerDtc fun a _ => a / 2 ^ 23 % 2 ^ 14 != l.window }
    s.modTiers fun x => { x with lent := Tab.erase x.lent k }

/-- REVOKE_GRACE_EXPIRY: numbers from 2^16 on name leases this device holds (DESIGN CHOICE, log entry 26). A notice is extended by the length of a
firmware activation (R417). -/
def execRevokeGraceExpiry (lease : Nat) (s : State) : Host.Outcome State Fault Refusal :=
  if lease < 65536 then
    match Tab.get? s.tiers.lent lease with
    | some l => occurs (fwServes s && l.revoking) (closeLease s lease) s
    | none => occurs false s s
  else
    match Tab.get? s.tiers.borrowed (lease - 65536) with
    | some l => occurs (live s && s.security.activating.isNone && l.revoked) (dropLease s (lease - 65536) true) s
    | none => occurs false s s

end Sys2Proof.Machine
end

