-- ==== Sys2Proof/Machine/Commands.lean ====
section
/-! DEFINITION. Fetching and checking commands (R485 to R493, R498 to R505), ABORT (R512 to R514), and the rows of the data-path
commands. -/

namespace Sys2Proof.Machine

open Sys2Proof

/-! ## Fetching (R480, R486, R487) -/

/-- Commands that came by the submission queues of port p and have not completed (DEDUCED, log entry 90). -/
def heldOf (s : State) (p : PortId) : Nat :=
  (s.cmds.filter fun (_, c) => match c.origin with | .sq q _ => q == p | _ => false).length

/-- The queue engine may fetch the next entry of a pair. -/
def canFetch (s : State) (p : PortId) (q : Nat) : Bool :=
  let x := s.port p
  let y := s.pair p q
  live s && x.enabled && !x.inReset && !x.quiesce && !x.d3hot && x.busMaster
    && y.state == .active && y.sqHead != y.sqTail && decide (y.outstanding < 65535)
    && decide (heldOf s p < if y.urgent then 262144 else 253952)

/-- The fetch of a pair's next entry is not waiting for its translation, and has not failed (R482). -/
def fetchOpen (s : State) (p : PortId) (q : Nat) : Bool := !accessWaits s p (fetchNum q) && !(s.pair p q).fetchErr

/-- The pairs of a port, URGENT or not, of which an entry can be fetched. -/
def fetchable (s : State) (p : PortId) (urgent : Bool) : List Nat :=
  (Tab.keys (s.port p).pairs).filter fun k => (s.pair p k).urgent == urgent && canFetch s p k && fetchOpen s p k

/-- The pair that a round robin serves: the one whose turn it is while it has an entry and less than its share is taken, else the next one in the order
of numbers (R486; DESIGN CHOICE, log entry 127). -/
def robinPair (l : List Nat) (turn : Nat × Nat) (share : Nat) : Option Nat :=
  if l.contains turn.1 && decide (turn.2 < share) then some turn.1 else (l.find? fun k => decide (turn.1 < k)).or l.head?

/-- The pair of which the queue engine fetches next: URGENT SQs before all others, up to 8 entries of one a turn; up to 32 of the others (R486). -/
def nextFetch (s : State) (p : PortId) : Option Nat :=
  (robinPair (fetchable s p true) (s.port p).turnUrgent 8).or (robinPair (fetchable s p false) (s.port p).turnOther 32)

/-- It is a pair's turn. -/
def fetchTurn (s : State) (p : PortId) (q : Nat) : Bool := nextFetch s p == some q

/-- One more entry of a pair is taken in its turn. -/
def noteTurn (s : State) (p : PortId) (q : Nat) : State :=
  let next (t : Nat × Nat) (share : Nat) : Nat × Nat := if t.1 = q ∧ t.2 < share then (q, t.2 + 1) else (q, 1)
  let urgent := (s.pair p q).urgent
  s.modPort p fun x => if urgent then { x with turnUrgent := next x.turnUrgent 8 } else { x with turnOther := next x.turnOther 32 }

/-! ## Failing checks (R498) -/

/-- How a check fails: the status, the field's offset in the entry and its value (R628), and FAILED_ITEM (R675). -/
structure Failure where
  status : Status
  off : Nat := 0
  value : Nat := 0
  item : Nat := 0xFFFFFFFF
  deriving DecidableEq, Repr, Inhabited

/-- The first check of a list that does not hold. -/
def firstFailure (l : List (Bool × Failure)) : Option Failure := (l.find? fun x => !x.1).map (·.2)

/-- The byte of an entry that holds its lowest nonzero reserved bit, for the log (DEDUCED, log entry 89). -/
def reservedByte (e : BitVec 1024) : Nat :=
  let m := fieldMask (headerFields e ++ specificFields e)
  ((List.range 128).find? fun i => ef e i 1 != (ef e i 1 &&& (m >>> (8 * i)) % 256)).getD 0

/-- Checks 1 to 4: opcode, reserved fields and values, class, tag. -/
def checksA (s : State) (p : PortId) (q : Nat) (e : BitVec 1024) : Option Failure :=
  let op := eOpcode e
  let urgent := (s.pair p q).urgent
  let busy := s.cmds.any fun (_, c) => c.origin == .sq p q && eTag c.entry == eTag e
  firstFailure
    [(opcodeFor q op, { status := .invalidOpcode, off := 0, value := op }),
     (reservedZero e, { status := .invalidField, off := reservedByte e, value := ef e (reservedByte e) 1 }),
     (reservedValues e, { status := .invalidField, off := 0x28, value := ef e 0x28 4 }),
     (urgent == (eClass e == 0), { status := .invalidField, off := 1, value := eClass e }),
     (!busy, { status := .duplicateTag, off := 2, value := eTag e })]

/-! ### Check 5 (R500) -/

/-- The bucket's level now, in units of 1/25,000 token: 40,000 tokens a second, at most 256. -/
def bucketLevel (s : State) : Nat := min 6400000 (s.bucket.level + (islandCount s 72 - s.bucket.last))

/-- Draws one token where there is one. -/
def drawToken (s : State) : State × Bool :=
  let n := bucketLevel s
  let ok := decide (25000 ≤ n)
  ({ s with bucket := { level := if ok then n - 25000 else n, last := islandCount s 72 } }, ok)

/-! ### Check 6 (R93, R94, R158, R228, R504, R505) -/

/-- Ranges that need the entry alone. -/
def rangeChecks (e : BitVec 1024) : Option Failure :=
  let bad (off v : Nat) : Failure := { status := .invalidField, off := off, value := v }
  let buffers : List (Bool × Failure) :=
    [(eInLen e != 0xFFFFFFFF, bad 0x10 (eInLen e)), (eOutLen e != 0xFFFFFFFF, bad 0x20 (eOutLen e))]
  match eOpcode e with
  | 0x01 => firstFailure (buffers ++
      [(decide (1 ≤ eK e) && decide (eK e ≤ 1048576), bad 0x38 (eK e)),
       (decide (eNprobe e ≤ 65536), bad 0x40 (eNprobe e)),
       (eRerankDepth e == 0 || (decide (eK e ≤ eRerankDepth e) && decide (eRerankDepth e ≤ 1048576)), bad 0x3C (eRerankDepth e)),
       (decide (eWidenLimit e ≤ 65536), bad 0x44 (eWidenLimit e)),
       (eExpert e || eWidenLimit e == 0, bad 0x44 (eWidenLimit e)),
       (eExpert e || eBatchHold e == 0, bad 0x48 (eBatchHold e)),
       (decide (eTerms e ≤ 16), bad 0x40 (eTerms e)),
       (eScanBudget e != 0xFFFFFFFF, bad 0x30 (eScanBudget e)),
       (eQueryLen e != 0xFFFFFFFF, bad 0x34 (eQueryLen e)),
       (decide (128 + eQueryLen e ≤ eInLen e), bad 0x10 (eInLen e))])
  | 0x02 | 0x03 => firstFailure (buffers ++ [(decide (1 ≤ eCount e) && decide (eCount e ≤ 4096), bad 0x30 (eCount e))])
  | 0x04 | 0x05 => firstFailure (buffers ++
      [(decide (1 ≤ eCount e) && decide (eCount e ≤ 65536), bad 0x30 (eCount e)),
       (decide (8 * eCount e ≤ eInLen e), bad 0x10 (eInLen e))])
  | _ => firstFailure buffers

/-- Ranges of an admin command, with the bytes of its input buffer (R483, R484, R526, R531, R534, R536, R541 to R545, R600, R672). -/
def adminRanges (p : PortId) (e : BitVec 1024) (inLen : Nat) : Option Failure :=
  let bad (off v : Nat) : Failure := { status := .invalidField, off := off, value := v }
  let qp : Bool × Failure := (decide (1 ≤ eQp e) && decide (eQp e < 2048), bad 0x3C (eQp e))
  match eOpcode e with
  | 0x80 => firstFailure [(decide (eCns e ≤ 2), bad 0x28 (eCns e))]
  | 0x81 => firstFailure
      [((pageSize (eLid e)).isSome, bad 0x28 (eLid e)),
       (decide (eOffset e % 4 = 0) && decide (eOffset e ≤ (pageSize (eLid e)).getD 0), bad 0x30 (eOffset e))]
  | 0x82 => firstFailure
      [((featureSpec (eFid e) 0).isSome, bad 0x28 (eFid e)), ((featureSpec (eFid e) (eSel e)).isSome, bad 0x29 (eSel e))]
  | 0x83 => firstFailure
      [((featureSpec (eFid e) 0).isSome, bad 0x28 (eFid e)), ((featureSpec (eFid e) (eSel e)).isSome, bad 0x29 (eSel e)),
       (eExpert e || !((featureSpec (eFid e) (eSel e)).map (·.expert)).getD false, bad 0x01 (eClass e)),
       (match featureSpec (eFid e) (eSel e) with
          | some f => decide (f.lo ≤ eValue e) && decide (eValue e ≤ f.hi)
          | none => true, bad 0x30 (eValue e))]
  | 0x84 => firstFailure
      [qp, (decide (ef e 0x28 8 % 4096 = 0), bad 0x28 (ef e 0x28 8)), (decide (ef e 0x30 8 % 4096 = 0), bad 0x30 (ef e 0x30 8)),
       (decide (1 ≤ ef e 0x38 2), bad 0x38 (ef e 0x38 2)), (decide (1 ≤ ef e 0x3A 2), bad 0x3A (ef e 0x3A 2))]
  | 0x85 => firstFailure [qp]
  | 0x86 => firstFailure [(decide (eQp e < 2048), bad 0x3C (eQp e))]
  | 0x88 => firstFailure
      [(decide (inLen % 4 = 0) && decide (4 ≤ inLen) && decide (inLen ≤ 2 ^ 24), bad 0x10 inLen)]
  | 0x89 | 0x8A => firstFailure [(decide (eSlot e ≤ 1), bad 0x28 (eSlot e))]
  | 0x8C => firstFailure [(decide (ef e 0x28 1 ≤ 2), bad 0x28 (ef e 0x28 1))]
  | 0x90 | 0x91 => firstFailure [(decide (128 ≤ inLen), bad 0x10 inLen)]
  | 0x93 | 0x94 | 0x95 => firstFailure [(decide (2 ≤ eClass e), bad 0x01 (eClass e))]
  | 0x98 => firstFailure [(decide (256 ≤ inLen), bad 0x10 inLen)]
  | 0xA0 =>
    let size := ef e 0x28 8
    let tier := ef e 0x30 1
    let unit := if tier = 1 then 65536 else 4096
    let most := if tier = 1 then 46 * 65536 else 2 ^ 36
    firstFailure
      [(decide (tier = 1) || decide (tier = 2), bad 0x30 tier),
       (decide (size % unit = 0) && decide (unit ≤ size) && decide (size ≤ most), bad 0x28 size),
       (decide (ef e 0x31 1 < 8), bad 0x31 (ef e 0x31 1)),
       (ef e 0x32 1 == portNum p + 1 || ef e 0x32 1 == 3, bad 0x32 (ef e 0x32 1))]
  | 0xA1 => firstFailure [(decide (1024 ≤ ef e 0x28 2) && decide (ef e 0x28 2 < 4096), bad 0x28 (ef e 0x28 2))]
  | 0xA8 => firstFailure [(decide (eChannel e < 512), bad 0x28 (eChannel e))]
  | 0xA9 => firstFailure
      [(decide (eChannel e < 512), bad 0x28 (eChannel e)), (decide (ef e 0x2A 1 ≤ 1), bad 0x2A (ef e 0x2A 1)),
       (decide (ef e 0x2C 4 % 4 = 0) && decide (ef e 0x2C 4 < 0x400), bad 0x2C (ef e 0x2C 4))]
  | 0xAA => firstFailure
      [(decide (ef e 0x28 4 % 4 = 0), bad 0x28 (ef e 0x28 4)),
       (decide (1 ≤ ef e 0x2C 2) && decide (ef e 0x2C 2 ≤ 1024), bad 0x2C (ef e 0x2C 2))]
  | _ => none

/-- A SEARCH with RERANK CROSS carries its text in a block of its own (R228). -/
def hasTextBlock (e : BitVec 1024) : Bool := eRerank e == 2 && eQueryFormat e != 3

/-- Conditions on what the input buffer holds. -/
def contentChecks (e : BitVec 1024) (inp : List Byte) : Option Failure :=
  let bad (off v : Nat) : Failure := { status := .invalidField, off := off, value := v }
  match eOpcode e with
  | 0x01 =>
    let b := textBlock e
    let n := field inp b 4
    firstFailure
      [((filterTerms e inp).all termOk, bad 0x40 (eTerms e)),
       (!hasTextBlock e || (decide (b + 8 ≤ inp.length) && decide (1 ≤ n) && decide (n ≤ 65536) && field inp (b + 4) 4 == 0
          && decide (b + 8 + n ≤ inp.length)), bad 0x34 n)]
  | 0x02 | 0x03 => firstFailure [(decide (itemsEnd inp (eCount e) ≤ eInLen e), bad 0x10 (eInLen e))]
  | _ => none

/-! ### Checks 7 and 8 (R363, R364) -/

/-- A named entry is the port's or both ports', and grants the right. -/
def entryOwned (s : State) (p : PortId) (sel : Nat) (x : Right) : Bool :=
  let r := s.region sel
  r.valid && (r.owner == portNum p + 1 || r.owner == 3) && hasRight r x

def bufferChecks (s : State) (p : PortId) (e : BitVec 1024) : Option Failure :=
  let inR := s.region (eInSel e)
  let outR := s.region (eOutSel e)
  firstFailure
    [(!eInRegion e || entryOwned s p (eInSel e) .read, { status := .accessError, off := 0x14, value := ef e 0x14 2 }),
     (!eOutRegion e || entryOwned s p (eOutSel e) .write, { status := .accessError, off := 0x24, value := ef e 0x24 2 }),
     (!eInRegion e || eInLen e == 0 || passes inR (inR.base + eInAddr e) (eInLen e) .read,
       { status := .lengthError, off := 0x10, value := eInLen e }),
     (!eOutRegion e || eOutLen e == 0 || passes outR (outR.base + eOutAddr e) (eOutLen e) .write,
       { status := .lengthError, off := 0x20, value := eOutLen e })]

/-! ### Check 9 (R48, R182, R677) -/

/-- The handle names the collection in its slot. A stale handle of an IDENTIFY is judged by R526, and no handle at all by R677
(DEDUCED, log entry 96). -/
def handleOk (s : State) (e : BitVec 1024) : Bool :=
  !namesCollection e || (eOpcode e == 6 && eHandle e == 0) || (eOpcode e == 0x80 && eHandle e != 0)
    || (collOf s (eHandle e)).isSome

/-! ### Check 10 -/

/-- The devices of a collection. -/
def memberList (s : State) (c : Collection) : List Nat := if c.members.isEmpty then [s.net.deviceNumber] else c.members

/-- Bytes of a query element (R93). -/
def queryElem (e : BitVec 1024) : Nat := if eQueryFormat e = 0 then 4 else 2

/-- SEARCH (R54, R94, R95, R224, R228). R95 compares under the LIST_COUNT at the command's snapshot, which is taken after this check: the model
judges under the snapshot that the entry names, else under the epoch published at the check (DESIGN CHOICE, log entry 147). -/
def searchCheck (s : State) (c : Collection) (x : Cmd) : Option Failure :=
  let e := x.entry
  let bad (off v : Nat) : Failure := { status := .invalidField, off := off, value := v }
  let lc := (dirFor c (if eSnapValid e then eSnapshot e else c.published)).listCount
  firstFailure
    [(eWidenLimit e == 0 || decide (nprobe e lc ≤ widenLimit e lc), bad 0x44 (eWidenLimit e)),
     (eQueryFormat e == 3 || eQueryLen e == c.attrs.dim * queryElem e, bad 0x34 (eQueryLen e)),
     (eRerank e != 1 || c.attrs.fullFormat != .none, bad 0x3C (eRerank e)),
     (eRerank e != 2 || (schedOf s x.cross).isSome, bad 0x3C (eRerank e)),
     (eQueryFormat e != 3 || (schedOf s x.embed).isSome, bad 0x40 (eQueryFormat e)),
     (eQueryFormat e == 3 || (workingQuery c.attrs (numericQuery c.attrs x)).isSome,
       { status := .invalidVector, off := 0x34, value := eQueryLen e })]

/-- Whether an ID names a member, and the same device as the first ID (R60, R160). -/
def idOk (s : State) (c : Collection) (first v : BitVec 48) : Bool :=
  (memberList s c).contains (idDevice v) && idDevice v == idDevice first

/-- The status with which item k of an INSERT or UPSERT fails, if it does (R54, R64, R160, R161, R675) (DEDUCED, log entry 91). -/
def itemStatus (s : State) (c : Collection) (e : BitVec 1024) (inp : List Byte) (its : List (Nat × Item)) (k : Nat) : Option Status :=
  match its[k]? with
  | none => none
  | some (o, x) =>
    let a := c.attrs
    let fmt := eInputFormat e
    let insert := eOpcode e == 2
    let named := !(insert && !a.hostIds)
    let first := ((its.head?).map (·.2.vid)).getD 0
    let len := field inp (o + 16) 4
    let want := a.dim * (if fmt = 0 then 4 else elemBytes a.fullFormat)
    let lenOk := if fmt = 3 then decide (1 ≤ len) && decide (len ≤ 65536) else len == want
    if !itemReserved inp o || !lenOk || (!named && x.vid != 0) then some .invalidField
    else if named && !idOk s c first x.vid then some .invalidField
    else if insert && a.hostIds && decide (a.localLimit ≤ idLocal x.vid) then some .invalidField
    else if insert && a.hostIds && idDevice x.vid == s.net.deviceNumber && (current c x.vid).isSome then some .idExists
    else if named && (its.take k).any fun y => y.2.vid == x.vid then some .invalidField
    else if fmt != 3 && (prepareVec a (widen (if fmt = 0 then .fp32 else a.fullFormat) a.int8Scale a.dim x.data)).isNone
    then some .invalidVector
    else none

/-- INSERT and UPSERT (R158, R168, R224, R675). -/
def mutationCheck (s : State) (i : Nat) (c : Collection) (x : Cmd) : Option Failure :=
  let e := x.entry
  let fmt := eInputFormat e
  let bad (off v : Nat) : Failure := { status := .invalidField, off := off, value := v }
  let its := (itemOffsets x.input (eCount e) 0).map fun o => (o, readItem x.input o)
  match firstFailure
    [(fmt != 1 || c.attrs.fullFormat != .none, bad 0x30 fmt),
     (fmt != 3 || (schedOf s x.embed).isSome, bad 0x30 fmt),
     (decide (mutationNeed s i c e x.input ≤ c.attrs.stagingMiB * 2 ^ 20), bad 0x30 (eCount e))] with
  | some f => some f
  | none => (List.range (eCount e)).findSome? fun k => (itemStatus s c e x.input its k).map fun st =>
      { status := st, off := 0x08, value := k, item := k }

/-- The status with which entry k of an ID list fails, if it does (R160, R161, R675). -/
def idStatus (s : State) (c : Collection) (dups : Bool) (ids : List (BitVec 64)) (k : Nat) : Option Status :=
  match ids[k]? with
  | none => none
  | some v =>
    let first := ((ids.head?).map fun (w : BitVec 64) => w.setWidth 48).getD 0
    if bitsOf v.toNat 63 48 != 0 || !idOk s c first (v.setWidth 48) then some .invalidField
    else if dups && (ids.take k).any (· == v) then some .invalidField
    else none

/-- DELETE and FETCH. -/
def idsCheck (s : State) (c : Collection) (x : Cmd) : Option Failure :=
  let del := eOpcode x.entry == 4
  let ids := readIds x.input (eCount x.entry)
  (List.range (eCount x.entry)).findSome? fun k => (idStatus s c del ids k).map fun st =>
    { status := st, off := 0x08, value := k, item := if del then k else 0xFFFFFFFF }

/-- Check 10 of a data-path command. -/
def homeCheck (s : State) (x : Cmd) : Option Failure :=
  let i := eIndex x.entry
  match s.coll? i with
  | none => none
  | some c =>
    match eOpcode x.entry with
    | 0x01 => searchCheck s c x
    | 0x02 | 0x03 => mutationCheck s i c x
    | 0x04 | 0x05 => idsCheck s c x
    | 0x08 =>
      let has := if eObject x.entry = 2 then c.attrs.fullFormat != .none else c.keepTokens || !c.tokTiles.isEmpty
      if has then none else some { status := .invalidField, off := 0x28, value := eObject x.entry }
    | _ => none

/-! ## Taking an entry -/

/-- The input buffer as the device reads it: its region's bytes, or those the host answered; none where a byte is lost. -/
def inputOf (s : State) (e : BitVec 1024) (inp : List Byte) : Option (List Byte) :=
  if eInLen e = 0 then some []
  else if eInRegion e && eOpcode e == 0x01 then
    -- the bytes between the last filter term and offset 128 are not read (R96)
    let a := (s.region (eInSel e)).base + eInAddr e
    let n := min (8 * eTerms e) 128
    match devRead s a n, devRead s (a + 128) (eInLen e - 128) with
    | some t, some q => some ((pad 128 t ++ q).take (eInLen e))
    | _, _ => none
  else if eInRegion e then devRead s ((s.region (eInSel e)).base + eInAddr e) (eInLen e)
  else some (pad (eInLen e) inp)

/-- The answer of the host has the length that was read, where the input is host memory. -/
def inputGiven (e : BitVec 1024) (inp : List Byte) : Bool := eInRegion e || inp.length == eInLen e

/-- The entry is fetched: SQ_HEAD and OUTSTANDING advance, and the command keeps the bindings of its collection (R223). A command
fetched during an entry to a power state, or of class 0 while the device rests in DP1, is held (R515, R616). -/
def takeEntry (s : State) (p : PortId) (q : Nat) (e : BitVec 1024) (inp : List Byte) (word : CmdWord) : State :=
  let c := s.coll? (eIndex e)
  let named := namesCollection e
  let cmd : Cmd :=
    { origin := .sq p q, entry := e, input := inp, word := word
      heldDp := s.power.entering.isSome || (s.power.dp == .dp1 && eClass e == 0)
      embed := if named then (c.map (·.embed)).getD 0 else 0
      cross := if named then (c.map (·.cross)).getD 0 else 0
      keepTokens := named && (c.map (·.keepTokens)).getD false }
  let s := s.modPair p q fun x => { x with sqHead := (x.sqHead + 1) % max 1 x.sqEntries, outstanding := x.outstanding + 1 }
  let s := if s.power.entering.isSome then s.modPower fun w => { w with entryCmd := true } else s
  addCmd s cmd

/-- A command ends at a failing check (R498). -/
def failCheck (s : State) (n : Nat) (f : Failure) : State :=
  let z : Cause := { kind := 0, loc := f.off, detail := f.value }
  match s.cmd? n with
  | some c =>
    if isMutation (eOpcode c.entry) then decide_ s n { status := f.status, dw3 := f.item } [] 1 z else fail s n f.status z
  | none => s

/-- A refusal by the bucket raises BUSY_RETRY_COUNT; its completion waits for DP0 only where the command was fetched during an entry (R24,
R501). -/
def refuseToken (s : State) (p : PortId) (n : Nat) : State :=
  let s := s.modCmd n fun c => { c with heldDp := s.power.entering.isSome }
  fail (s.modPort p fun x => { x with busyRetry := satAdd 0xFFFFFFFF x.busyRetry 1 }) n .busyRetry {}

/-- The state word at fetch: FLUSH, WAKE, ABORT and admin commands have passed their commit point, but for those that R194 and
R303 let an ABORT end (R512). -/
def fetchWord (op : Nat) : CmdWord :=
  if [0x06, 0x07, 0x0A].contains op || (decide (0x80 ≤ op) && !([0x93, 0x94, 0x95, 0x98, 0xA8].contains op)) then .committing else .running

/-- The outcome of checks 5 to 10: a failure, an input buffer in device memory that cannot be read, or none. -/
inductive Checked where
  | fails (f : Failure)
  | lost
  | passes
  deriving DecidableEq, Repr, Inhabited

/-- Checks 5 to 10, with the input as read. -/
def checksB (s : State) (p : PortId) (x : Cmd) (input : Option (List Byte)) : Checked :=
  let e := x.entry
  let inLen := match x.origin with | .mailbox .. => x.input.length | _ => eInLen e
  match firstFailureOf [rangeChecks e, adminRanges p e inLen, (input.bind fun l => contentChecks e l), bufferChecks s p e] with
  | some f => .fails f
  | none =>
    if !handleOk s e then .fails { status := .noCollection, off := 4, value := eHandle e }
    else match input with
      | none => .lost
      | some _ => match homeCheck s x with | some f => .fails f | none => .passes
where
  /-- The first failure of a list. -/
  firstFailureOf (l : List (Option Failure)) : Option Failure := l.findSome? id

/-- A command that has passed its checks reads its input buffer in host memory; `after` is what it does then, unless the read has failed (R367, R373,
R489). -/
def readInput (s : State) (p : PortId) (n : Nat) (after : State → Nat → State) : State :=
  let s := routeAccess s p (commandNum n)
  if (s.cmd? n).any fun c => c.stage == .waiting then after s n else s

/-- Fetches an entry and checks it; `after` is what the command does once it has passed. -/
def fetchChecked (s : State) (p : PortId) (q : Nat) (e : BitVec 1024) (inp : List Byte) (after : State → Nat → State) : State :=
  let n := s.nextCmd
  let early := checksA s p q e
  let usable := (bufferChecks s p e).isNone
  let input := if usable then inputOf s e inp else none
  let s := takeEntry s p q e (input.getD []) (fetchWord (eOpcode e))
  match early with
  | some f => failCheck s n f
  | none =>
    let (s, token) := if eClass e = 0 then drawToken s else (s, true)
    if !token then refuseToken s p n
    else match s.cmd? n with
      | none => s
      | some x =>
        match checksB s p x input with
        | .fails f => failCheck s n f
        | .lost => fail s n .dataError (readCause s ((s.region (eInSel e)).base + eInAddr e) (eInLen e))
        | .passes => readInput s p n after

/-- Whether a row takes an entry: the entry's opcode is the row's, or one that the queue does not have, which any row refuses. -/
def rowTakes (q op : Nat) (e : BitVec 1024) : Bool := eOpcode e == op || !opcodeFor q (eOpcode e)

/-- The host has answered the reads that the entry's checks need (DEDUCED, log entry 77). -/
def inputReady (s : State) (p : PortId) (q : Nat) (e : BitVec 1024) (inp : List Byte) : Bool :=
  inputGiven e inp || (checksA s p q e).isSome || (bufferChecks s p e).isSome || (rangeChecks e).isSome
    || (adminRanges p e (eInLen e)).isSome

/-- The queue engine turns to a pair's next entry: it takes it, or asks for the translation of its place, or faults on it (R367, R482). -/
def turnTo (s : State) (p : PortId) (q : Nat) (e : BitVec 1024) (inp : List Byte) (after : State → Nat → State) : State :=
  let ready := accessPasses s p (fetchNum q)
  let s := routeAccess s p (fetchNum q)
  if ready then fetchChecked (noteTurn s p q) p q e inp after else s

/-- The row of a data-path command. -/
def fetchRow (op : Nat) (p : PortId) (q : Nat) (e : BitVec 1024) (inp : List Byte) (after : State → Nat → State) (s : State) :
    Host.Outcome State Fault Refusal :=
  occurs (canFetch s p q && decide (q < 2048) && fetchTurn s p q && rowTakes q op e && inputReady s p q e inp)
    (turnTo s p q e inp after) s

/-! ## ABORT (R512 to R514) -/

/-- Ends command m, which an ABORT has won (R119, R155, R177, R194, R303, R406). -/
def endAborted (s : State) (m : Nat) (x : Cmd) : State :=
  let s := s.modCmd m fun y => { y with word := .ending }
  match eOpcode x.entry with
  | 0x01 => failSearch s m .aborted {}
  | 0x08 | 0x09 => endMove s m .aborted {}
  | 0x93 | 0x94 | 0x95 =>
    let i := eIndex x.entry
    let mine := match (s.coll? i).bind (·.maint) with | some w => w.cmd == m | none => false
    fail (if mine then dropMaint s i else s) m .aborted {}
  | 0xA8 => match x.work.channel with
    | some c => abortMigration s c
    | none => fail s m .aborted {}
  | _ => fail s m .aborted {}

/-- The command of a pair of port p with a tag, beside command n (DEDUCED, log entry 79). -/
def targetOf (s : State) (p : PortId) (n q tag : Nat) : Option (Nat × Cmd) :=
  s.cmds.find? fun (m, x) => m != n && x.origin == .sq p q && eTag x.entry == tag

/-- ABORT finds its target, ends it if it is still RUNNING, and waits until its completion entry is posted (DEDUCED, log entry 86). -/
def abortEffect (s : State) (n : Nat) : State :=
  match s.cmd? n with
  | none => s
  | some a =>
    match a.origin with
    | .sq p _ =>
      match targetOf s p n (eTargetQp a.entry) (eTargetTag a.entry) with
      | none => succeed s n {}
      | some (m, x) =>
        let s := if x.word = .running then endAborted s m x else s
        (s.modWork n fun w => { w with victim := some m }).modCmd n fun y => { y with stage := .admitted }
    | _ => s

/-! ## The rows -/

/-- A reader closes the groups that hold a mutation of its queue (R170). -/
def closeReader (p : PortId) (q : Nat) (s : State) (n : Nat) : State :=
  match s.cmd? n with
  | some x => closeForReader s (eIndex x.entry) (p, q)
  | none => s

/-- A FLUSH closes the groups of the collections it names, and waits for them (R170, R182). -/
def closeFlush (s : State) (n : Nat) : State :=
  match s.cmd? n with
  | none => s
  | some x =>
    let is := if eHandle x.entry = 0 then Tab.keys s.colls else [eIndex x.entry]
    let r := is.foldl (fun (acc : State × List (Nat × Nat)) i =>
      let (s, l) := closeForFlush acc.1 i
      (s, acc.2 ++ l)) (s, [])
    r.1.modWork n fun w => { w with flushOf := r.2 }

/-- A command that has passed its checks waits for its admission (R499). -/
def waitAdmission (s : State) (_ : Nat) : State := s

/-- SEARCH (R93). -/
def execSearch (p : PortId) (q : Nat) (e : BitVec 1024) (inp : List Byte) (s : State) : Host.Outcome State Fault Refusal :=
  fetchRow 0x01 p q e inp (closeReader p q) s

/-- INSERT (R158). -/
def execInsert (p : PortId) (q : Nat) (e : BitVec 1024) (inp : List Byte) (s : State) : Host.Outcome State Fault Refusal :=
  fetchRow 0x02 p q e inp waitAdmission s

/-- UPSERT (R158, R162). -/
def execUpsert (p : PortId) (q : Nat) (e : BitVec 1024) (inp : List Byte) (s : State) : Host.Outcome State Fault Refusal :=
  fetchRow 0x03 p q e inp waitAdmission s

/-- DELETE (R158, R163). -/
def execDelete (p : PortId) (q : Nat) (e : BitVec 1024) (inp : List Byte) (s : State) : Host.Outcome State Fault Refusal :=
  fetchRow 0x04 p q e inp waitAdmission s

/-- FETCH (R158, R178). -/
def execFetch (p : PortId) (q : Nat) (e : BitVec 1024) (inp : List Byte) (s : State) : Host.Outcome State Fault Refusal :=
  fetchRow 0x05 p q e inp (closeReader p q) s

/-- FLUSH (R182, R183) (DEDUCED, log entry 87). -/
def execFlush (p : PortId) (q : Nat) (e : BitVec 1024) (inp : List Byte) (s : State) : Host.Outcome State Fault Refusal :=
  fetchRow 0x06 p q e inp closeFlush s

/-- ABORT (R512), from any queue. -/
def execAbort (p : PortId) (q : Nat) (e : BitVec 1024) (inp : List Byte) (s : State) : Host.Outcome State Fault Refusal :=
  fetchRow 0x07 p q e inp abortEffect s

/-- TIER_MOVE (R404). -/
def execTierMove (p : PortId) (q : Nat) (e : BitVec 1024) (inp : List Byte) (s : State) : Host.Outcome State Fault Refusal :=
  fetchRow 0x08 p q e inp waitAdmission s

/-- PARK (R404, R408). -/
def execPark (p : PortId) (q : Nat) (e : BitVec 1024) (inp : List Byte) (s : State) : Host.Outcome State Fault Refusal :=
  fetchRow 0x09 p q e inp waitAdmission s

/-- WAKE (R404, R410). -/
def execWake (p : PortId) (q : Nat) (e : BitVec 1024) (inp : List Byte) (s : State) : Host.Outcome State Fault Refusal :=
  fetchRow 0x0A p q e inp waitAdmission s

end Sys2Proof.Machine
end

