-- ==== Sys2Proof/Machine/Admission.lean ====
section
/-! DEFINITION. Admission of data-path commands (R175, R401, R409, R499, R515, R616): pins, snapshots, staging, forwarding, and FETCH
(R178 to R180). -/

namespace Sys2Proof.Machine

open Sys2Proof

/-! ## Pins (R401, R403) -/

/-- The objects that a command pins. -/
def pinsOf (c : Collection) (x : Cmd) : List ObjKind :=
  let vec : List ObjKind := if c.attrs.fullFormat = .none then [] else [.vectors]
  match eOpcode x.entry with
  | 0x01 => .index :: (if eRerank x.entry = 1 then [.vectors] else if eRerank x.entry = 2 then [.tokens] else [])
  | 0x02 | 0x03 => .index :: (vec ++ if x.keepTokens then [.tokens] else [])
  | 0x04 => [.index]
  | 0x05 => [.index, .vectors]
  | 0x06 => if eHandle x.entry = 0 then [] else [.index]
  | _ => []

def addPin (w : PinWord) : PinWord := { w with pins := w.pins + 1 }

/-- Takes the pins of a command; the pin of INDEX that a wake has given it stands (R410). -/
def takePins (s : State) (n i : Nat) (os : List ObjKind) : State :=
  match s.cmd? n with
  | none => s
  | some x =>
    let a := os.contains .index && !x.pinIndex
    let b := os.contains .vectors && !x.pinVectors
    let d := os.contains .tokens && !x.pinTokens
    let s := s.modColl i fun c => { c with
      pinIndex := if a then addPin c.pinIndex else c.pinIndex
      pinVectors := if b then addPin c.pinVectors else c.pinVectors
      pinTokens := if d then addPin c.pinTokens else c.pinTokens }
    s.modCmd n fun y => { y with
      pinIndex := y.pinIndex || a, pinVectors := y.pinVectors || b, pinTokens := y.pinTokens || d }

/-! ## Forwarding (R160, R574) -/

/-- The device that a command's IDs name, where that is another one. -/
def forwardTo (s : State) (c : Collection) (x : Cmd) : Option Nat :=
  let e := x.entry
  let first : Option (BitVec 48) :=
    match eOpcode e with
    | 0x02 => if c.attrs.hostIds then some (readItem x.input 0).vid else none
    | 0x03 => some (readItem x.input 0).vid
    | 0x04 | 0x05 => (readIds x.input 1).head?.map fun (w : BitVec 64) => w.setWidth 48
    | _ => none
  match first with
  | some v => if idDevice v = s.net.deviceNumber then none else some (idDevice v)
  | none => none

/-- Sends a command to another device under its own serial number as the transaction (R574). -/
def sendForward (s : State) (n d : Nat) (x : Cmd) : State := sendData s 0x25 d n (leBytes 128 x.entry.toNat ++ x.input)

/-- A command goes to the device of its IDs; an ABORT no longer ends it here. -/
def forwardCommand (s : State) (n d : Nat) (x : Cmd) : State :=
  let s := s.modCmd n fun y => { y with
    stage := .admitted, word := .committing, work := { y.work with members := [d] } }
  sendForward s n d x

/-- A command goes to every other member as well (R182, R411); one that was forwarded does not. -/
def fanOut (s : State) (n : Nat) (c : Collection) (x : Cmd) : State :=
  match x.origin with
  | .forwarded .. => s
  | _ =>
    let ds := others s c
    if ds.isEmpty then s
    else (ds.foldl (fun s d => sendForward s n d x) s).modWork n fun w => { w with members := ds }

/-! ## FETCH (R178 to R180) -/

/-- Bytes of the vector of a FETCH entry, padded to a multiple of 32. -/
def fetchVecBytes (a : Attrs) (fp32 : Bool) : Nat :=
  if a.fullFormat = .none then 0 else ceilDiv (a.dim * (if fp32 then 4 else elemBytes a.fullFormat)) 32 * 32

/-- The entry of one ID at a snapshot; whether it was found, and whether its data is lost. -/
def fetchEntry (s : State) (c : Collection) (fp32 : Bool) (snap : Nat) (v : BitVec 48) : List Byte × Bool × Bool :=
  let n := fetchVecBytes c.attrs fp32
  match versionAt c v snap with
  | none => (leBytes 6 v.toNat ++ List.replicate (26 + n) 0, false, false)
  | some e =>
    let b := entryFull c v e
    let vec := if fp32 then (widen c.attrs.fullFormat c.attrs.int8Scale c.attrs.dim b).flatMap fun x => leBytes 4 x.toNat
      else b.take (c.attrs.dim * elemBytes c.attrs.fullFormat)
    let lost := e.staged.isNone && ((e.slots.head?.map fun (t, _) => (s.tile t).lost).getD false
      || (c.attrs.fullFormat != .none && fullLost s c v e.ins))
    (leBytes 6 v.toNat ++ leBytes 2 (1 + 2 * b2n e.staged.isSome) ++ leBytes 8 (entryAttr c e).toNat ++ leBytes 8 e.ins
      ++ List.replicate 8 0 ++ pad n vec, true, lost)

/-- The tile that a FETCH entry whose data is lost needs: that of its record, or of its full vector. -/
def fetchTile (s : State) (c : Collection) (snap : Nat) (v : BitVec 48) : Nat :=
  match versionAt c v snap with
  | none => 0
  | some e => match e.slots.find? fun (t, _) => (s.tile t).lost with
    | some (t, _) => t
    | none => ((Tab.get? c.fulls (fullKey v e.ins)).map (·.1)).getD 0

/-- A FETCH at its snapshot reads every entry and is decided; a lost tile ends it with DATA_ERROR. -/
def fetchAll (s : State) (n snap : Nat) (c : Collection) (x : Cmd) : State :=
  let fp32 := eOutputFp32 x.entry
  let rs := (readIds x.input (eCount x.entry)).map fun w => fetchEntry s c fp32 snap (w.setWidth 48)
  let s := s.modCmd n fun y => { y with snapshot := some snap }
  match ((readIds x.input (eCount x.entry)).zip rs).find? fun y => y.2.2.2 with
  | some (w, _) => fail s n .dataError (tileCause s (fetchTile s c snap (w.setWidth 48)))
  | none =>
    let found := (rs.filter (·.2.1)).length
    let unit := 32 + fetchVecBytes c.attrs fp32
    let k : Completion :=
      { epoch := snap, dw2 := found, resultLength := eCount x.entry * unit
        status := if found < eCount x.entry then .shortResult else .success }
    decide_ s n k (rs.flatMap (·.1)) unit {}

/-! ## Snapshots (R37, R89, R572) -/

/-- A shard begins its part with the query that the coordinator sent (R572 step 4). -/
def startShard (s : State) (n snap : Nat) (c : Collection) : State :=
  let v := dirFor c snap
  let s := s.modCmd n fun y => { y with snapshot := some snap }
  s.arrive.modSearch n fun w => { w with phase := .coarse, dir := v.number, listCount := v.listCount, arrived := s.arrivals + 1 }

/-- A reader takes its snapshot where `top` is the published epoch: the one it names, if it may, or `top` itself (R89). -/
def takeSnapshot (s : State) (n top : Nat) : State :=
  match s.cmd? n with
  | none => s
  | some x =>
    let i := eIndex x.entry
    match s.coll? i with
    | none => s
    | some c =>
      let search := eOpcode x.entry == 1
      let named := if search then eSnapValid x.entry else eFetchSnapValid x.entry
      let snap := if named then eSnapshot x.entry else top
      if named && !(decide (retainFloor s i c ≤ snap) && (isShard x || decide (snap ≤ top))) then
        fail s n .snapshotUnavailable { kind := 0, loc := 0x28, detail := eSnapshot x.entry }
      else if isShard x then startShard s n snap c
      else if search then startSearch s n snap
      else fetchAll s n snap c x

/-- A reader asks for its snapshot: of a sharded collection the epoch home's PUBLISHED is read first (R572) (DEDUCED, log entry 88). -/
def askSnapshot (s : State) (n i : Nat) (c : Collection) (x : Cmd) : State :=
  if isHome s c || isShard x then takeSnapshot s n c.published
  else
    let a := heldBase + i % 64 * 0x400000 + i / 64 * 128
    let dest := epochHome s c
    let k := { mkPacket s 0x01 dest s.net.nextTxn [] with length := 8, cls := 0, offset := a }
    sendPacket (openPeer s dest (.command n)) k

/-! ## Readiness -/

/-- The device's power state lets a fetched command be admitted (R515, R616). -/
def powerAdmits (s : State) (x : Cmd) : Bool :=
  s.power.entering.isNone &&
    (s.power.dp == .dp0 || (s.power.dp == .dp1 && !x.heldDp && eClass x.entry != 0))

/-- A promotion of an object that a command needs is in progress; the command joins it and goes on at its switch (R403)
(DEDUCED, log entry 84). -/
def promoting (s : State) (c : Collection) (os : List ObjKind) : Bool := !(movers s c.promotions os).isEmpty

/-- Mutations placed before it in its queue have all committed or failed (R175). -/
def mutationsDone (s : State) (n : Nat) (x : Cmd) : Bool :=
  (earlier s n x).all fun (_, y) => !isMutation (eOpcode y.entry) || y.stage == .decided

/-- Staging space for a whole INSERT or UPSERT is free (R168). -/
def stagingFree (s : State) (i : Nat) (c : Collection) (x : Cmd) : Bool :=
  decide (c.stagingUsed + mutationNeed s i c x.entry x.input ≤ c.attrs.stagingMiB * 2 ^ 20)

/-- The scratch of a SEARCH, as one unit: none while T2 has no room for it (R147). -/
def takeScratch (s : State) (n : Nat) (x : Cmd) : Option State :=
  if eOpcode x.entry != 1 || scratchPages x.entry == 0 then some s
  else (takePages s (scratchPages x.entry) 1).map fun (p, s) => s.modSearch n fun w => { w with scratch := some (p, scratchPages x.entry) }

/-- A command that is to be embedded waits in its queue while its schedule's runs could not reserve what they need (R215). -/
def modelReady (s : State) (x : Cmd) : Bool :=
  let text := if eOpcode x.entry = 1 then eQueryFormat x.entry == 3 && !isShard x else (eOpcode x.entry == 2 || eOpcode x.entry == 3) && eInputFormat x.entry == 3
  !text || match schedOf s x.embed with
    | some i => runCouldStart s i
    | none => true

/-- The reservations that a command takes at admission can be granted now (R499). A command of a parked collection is ready for what
R409 gives it. -/
def reservable (s : State) (n : Nat) (x : Cmd) : Bool :=
  let op := eOpcode x.entry
  let i := eIndex x.entry
  if op = 6 ∧ eHandle x.entry = 0 then true
  else match s.coll? i with
    | none => true
    | some c =>
      let order := if isReader op then mutationsDone s n x
        else if isMutation op && (forwardTo s c x).isSome then mutationsDone s n x && (earlier s n x).all fun (_, y) => !unread y
        else true
      !c.restoring && order &&
        (if op = 8 then !promoting s c [objOf (eObject x.entry)]
         else if op = 9 then c.residency != .waking && !promoting s c (movedObjs x)
         else if op = 10 then true
         else if (forwardTo s c x).isSome || !inT2 c then true
         else !promoting s c (pinsOf c x) && ((op != 2 && op != 3) || stagingFree s i c x) && (takeScratch s n x).isSome && modelReady s x)

/-- The command's input buffer is not waiting for its translation (R373). -/
def inputHere (s : State) (n : Nat) (x : Cmd) : Bool := (originPort x.origin).all fun p => !accessWaits s p (commandNum n)

/-- A data-path command that waits and may be admitted now. -/
def admissible (s : State) (n : Nat) (x : Cmd) : Bool :=
  x.stage == .waiting && !x.waitsWake && inputHere s n x && dataOpcode (eOpcode x.entry) && powerAdmits s x && reservable s n x

/-- Lower class numbers first, and within a class in fetch order, among the commands of one queue engine (R499). -/
def admitTurn (s : State) (n : Nat) (x : Cmd) : Bool :=
  !s.cmds.any fun (m, y) => m != n && originPort y.origin == originPort x.origin && admissible s m y
    && (decide (eClass y.entry < eClass x.entry) || (eClass y.entry == eClass x.entry && decide (m < n)))

/-! ## Admission -/

/-- An INSERT or UPSERT reserves its staging space and copies its items; TEXT items join runs of the schedule (R164, R168). -/
def admitItems (s : State) (n i : Nat) (c : Collection) (x : Cmd) : State :=
  let fmt := eInputFormat x.entry
  let its := (itemOffsets x.input (eCount x.entry) 0).map fun o => prepareItem c.attrs fmt (readItem x.input o)
  let s := stageItems s n i its (mutationNeed s i c x.entry x.input)
  if fmt = 3 then
    match schedOf s x.embed with
    | some d => enqueueAll s d n (List.range its.length)
    | none => fail s n .dataError { kind := kindLostObject, loc := 0, detail := 0 }
  else joinGroup s n

/-- A DELETE joins a group with the IDs it names. -/
def admitDelete (s : State) (n : Nat) (x : Cmd) : State :=
  let its : List Item := (readIds x.input (eCount x.entry)).map fun (w : BitVec 64) => { vid := w.setWidth 48 }
  joinGroup (s.modWork n fun w => { w with items := its }) n

/-- A FLUSH waits for the groups that are still there, on this device and every other member (R182). -/
def admitFlush (s : State) (n : Nat) (x : Cmd) : State :=
  let s := match s.coll? (eIndex x.entry) with
    | some c => if eHandle x.entry = 0 then s else fanOut s n c x
    | none => s
  let there (k : Nat × Nat) : Bool := match s.coll? k.1 with | some c => Tab.has c.groups k.2 | none => false
  let s := s.modWork n fun w => { w with flushOf := w.flushOf.filter there }
  settleFlush (flushTargets s n) n

/-- The command runs: it holds its reservations. -/
def runCommand (s : State) (n i : Nat) (c : Collection) (x : Cmd) : State :=
  let s := takePins (s.modCmd n fun y => { y with stage := .admitted }) n i (pinsOf c x)
  let s := (takeScratch s n x).getD s
  match eOpcode x.entry with
  | 0x01 | 0x05 => askSnapshot s n i c x
  | 0x02 | 0x03 => admitItems s n i c x
  | 0x04 => admitDelete s n x
  | _ => admitFlush s n x

/-- A placement command runs, on every member where it is to (R404 to R411). -/
def runPlacement (s : State) (n i : Nat) (c : Collection) (x : Cmd) : State :=
  let s := s.modCmd n fun y => { y with stage := .admitted }
  match eOpcode x.entry with
  | 0x08 => startMove s n i c x
  | 0x09 => startPark (fanOut s n c x) n i c x
  | _ => wakeCommand (fanOut s n c x) n i c

/-- A data-path command is admitted (R499); one whose collection is parked starts or joins a wake, or ends (R409). -/
def admitData (s : State) (n : Nat) (x : Cmd) : State :=
  let op := eOpcode x.entry
  let i := eIndex x.entry
  if op = 6 ∧ eHandle x.entry = 0 then admitFlush (s.modCmd n fun y => { y with stage := .admitted }) n x
  else match s.coll? i with
    | none => fail s n .noCollection { kind := 0, loc := 4, detail := eHandle x.entry }
    | some c =>
      if 8 ≤ op then runPlacement s n i c x
      else match forwardTo s c x with
        | some d => forwardCommand s n d x
        | none =>
          if inT2 c then runCommand s n i c x
          else if c.residency != .waking && !c.attrs.session then fail s n .collectionParked { kind := 0, loc := 4, detail := eHandle x.entry }
          else startWake s n i c

end Sys2Proof.Machine
end

