-- ==== Sys2Proof/Machine/Flash.lean ====
section
/-! DEFINITION. The flash tier's rows (R419 to R449): page reads with their retries, programs, erases, recovery, refresh,
garbage collection, wear levelling, channel retraining, and the state and figures of T4 that follow from them. -/

namespace Sys2Proof.Machine

open Sys2Proof

/-! ## Places on the medium (R425, R426) -/

/-- The die of a block. -/
def dieOf (b : Nat) : Nat := b / 2 ^ 32

/-- A flash channel and a block. -/
def flashCh (s : State) (c : Nat) : FlashCh := Tab.getD s.flash.channels c {}
def flashBlock (s : State) (b : Nat) : FlashBlock := Tab.getD s.flash.blocks b {}
def modFlashCh (s : State) (c : Nat) (f : FlashCh → FlashCh) : State :=
  s.modFlash fun x => { x with channels := Tab.modify x.channels c {} f }
def modFlashBlock (s : State) (b : Nat) (f : FlashBlock → FlashBlock) : State :=
  s.modFlash fun x => { x with blocks := Tab.modify x.blocks b {} f }

/-- The blocks of every LUN whose channel is in service. -/
def allLuns (s : State) : List Nat :=
  s.flash.channels.flatMap fun (c, x) =>
    if x.state = .active ∨ x.state = .retraining then
      (List.range x.targets).flatMap fun t => (List.range x.luns).map fun l =>
        c / 4 * 2 ^ 32 + c % 4 * 2 ^ 30 + t * 2 ^ 27 + l * 2 ^ 23
    else []

/-- Mapped pages of a die's locations in a block: the valid pages (R440). -/
def validPages (s : State) (b : Nat) : List Nat :=
  (s.flash.map.filter fun (p, l) => l != lostLoc && blockKeyOf s (flashDie (p / 4)) l == b).map (·.1)

/-- A block that garbage collection can reclaim: programmed, not bad, and with pages that a later write has replaced. -/
def reclaimable (s : State) (b : Nat) (x : FlashBlock) : Bool :=
  !x.bad && decide ((validPages s b).length < x.next)

/-! ## T4_STATE and the published figures (R437, R438, R444) -/

/-- Sum of the erase counts over the blocks of a channel or of a die. -/
def eraseSum (s : State) (ok : Nat → Bool) : Nat :=
  ((s.flash.blocks.filter fun (b, _) => ok b).map fun (_, x) => x.erases).foldl (· + ·) 0

/-- Blocks on a channel. -/
def channelBlocks (s : State) (c : Nat) : Nat := (flashCh s c).targets * (flashCh s c).luns * s.flash.lunBlocks

/-- Average erase count of a die, in percent of the rated cycles. -/
def dieWear (s : State) (d : Nat) : Nat :=
  let n := ((List.range 4).map fun k => channelBlocks s (4 * d + k)).foldl (· + ·) 0
  100 * eraseSum s (fun b => dieOf b == d) / (max 1 n * max 1 s.flash.profile.ratedCycles)

/-- PERCENT_USED of the most worn die, saturating at 255 (R444). -/
def percentUsed (s : State) : Nat := min 255 (((List.range 4).map (dieWear s)).foldl max 0)

/-- SPARE_PERCENT (R449). -/
def sparePercent (s : State) : Nat :=
  let ls := allLuns s
  100 * (ls.map (goodSpares s)).foldl (· + ·) 0 / max 1 (ls.length * sparesAtFormat s)

/-- The state that R444 gives T4 now; ABSENT stays. -/
def t4StateNow (s : State) : T4State :=
  if s.flash.state = .absent then .absent
  else if physFree s < s.flash.profile.gcReserve ∧ !(s.flash.blocks.any fun (b, x) => reclaimable s b x) then .readOnly
  else if (s.flash.channels.any fun (_, x) => x.state == .failed) || (allLuns s).any (lunReadOnly s) || decide (100 ≤ percentUsed s)
  then .degraded else .normal

/-- T4 takes the state that R444 gives it; a change is noticed in the health page and in the identify data (R528, R533). -/
def updateT4 (s : State) : State :=
  let st := t4StateNow s
  if st = s.flash.state then s
  else
    let s := s.modFlash fun f => { f with state := st }
    let s := critical s critT4ReadOnly (st == .readOnly)
    noticeId (notice (notice s lidFlash) lidHealth)

/-- Bytes per microsecond of a rate code (R449). -/
def flashRateMBs (code : Nat) : Nat := match code with | 0 => 1600 | 1 => 2400 | 2 => 3200 | _ => 3600

/-- BOUND_4 in ns for a channel rate code and a number of retries (R437): whole ns, rounded up. -/
def bound4 (p : FlashProfile) (rate retries : Nat) : Nat :=
  let r := flashRateMBs rate
  let attempt := p.tReadNs * r + 4608 * 1000 + 4 * 73728 * 1000 + 1800 * r
  p.tSuspNs + ceilDiv (2 * (retries + 1) * attempt) r + 1000

/-! ## What an object loses with a logical tile (R443, R642) -/

/-- Tiles whose data lies in a logical tile of T4, and those that it backs. -/
def tilesAtT4 (s : State) (t : Nat) : List Nat :=
  (s.tiers.map.filter fun (_, e) => e.tier == 4 && e.location == t4Loc t).map (·.1)
def backedBy (s : State) (t : Nat) : List Nat :=
  (s.tiers.map.filter fun (_, e) => e.tier != 4 && e.backed && e.backing == t4Loc t).map (·.1)

/-- A collection's image or journal loses one copy of a tile: a new copy is written from the other; with both lost, a collection parked in
T4 gets a new GENERATION and is logged (R443). -/
def imageLoses (s : State) (i t : Nat) (c : Collection) : State :=
  match c.image with
  | none => s
  | some img =>
    let twin := ((img.tiles.zip img.mirrors).find? fun (a, b) => a == t || b == t).map fun (a, b) => if a = t then b else a
    match twin with
    | none => s
    | some u =>
      let gone := (List.range 4).any fun k => flashLoc s (4 * u + k) == some lostLoc
      if !gone then queueT4 s [t]
      else if c.residency = .parkedT4 then
        let old := collHandle s i
        objectLog (advanceGen s i) kindLostObject old img.epoch t (lostDetail old.toNat .index 0 1)
      else s

/-- A logical tile has lost pages: what R443 has the firmware do for each object. -/
def logicalLost (s : State) (t : Nat) : State :=
  let s := (tilesAtT4 s t).foldl loseTile s
  let s := (backedBy s t).foldl (fun s u =>
    s.modTiers fun x => { x with
      map := Tab.adjust x.map u fun e => if e.tier = 3 then { e with dirty := true } else e
      backingQueue := if x.backingQueue.contains u then x.backingQueue else x.backingQueue ++ [u] }) s
  (Tab.keys s.colls).foldl (fun s i => match s.coll? i with | some c => imageLoses s i t c | none => s) s

/-- Pages become LOST (R434, R443): counted on their channel, and the objects they belong to are handled. -/
def losePages (s : State) (ps : List Nat) : State :=
  let s := ps.foldl (fun s p =>
    match flashLoc s p with
    | none => s
    | some l =>
      if l = lostLoc then s
      else
        let s := modFlashCh s (locChannel (flashDie (p / 4)) l) fun x => { x with lostPages := satAdd 0xFFFFFFFF x.lostPages 1 }
        s.modFlash fun f => { f with map := Tab.set f.map p lostLoc, lostPages := satAdd 0xFFFFFFFF f.lostPages 1 }) s
  let ts := (ps.map (· / 4)).eraseDups
  notice (ts.foldl logicalLost s) lidFlash

/-- DETAIL of a flash entry: channel, target, LUN in a byte each, and the block in 4 bytes (R628; DESIGN CHOICE, log entry 151). -/
def flashDetail (b : Nat) : Nat :=
  channelOf b + bitsOf (b % 2 ^ 32) 29 27 * 2 ^ 8 + bitsOf (b % 2 ^ 32) 26 23 * 2 ^ 16 + b % 2 ^ 23 * 2 ^ 32

/-- A block is retired (R441): its valid pages are due for relocation. -/
def retireBlock (s : State) (b : Nat) : State :=
  if (flashBlock s b).bad then s
  else
    let valid := validPages s b
    let s := modFlashBlock s b fun x => { x with bad := true, refreshDue := !valid.isEmpty, retireAfter := false }
    let s := s.modFlash fun f => { f with grownBad := satAdd 0xFFFFFFFF f.grownBad 1 }
    updateT4 (notice (deviceLog s kindFlash ((valid.head?).getD 0) (flashDetail b)) lidFlash)

/-! ## FLASH_READ (R432, R433, R439) -/

/-- What a read of a block counts, and whether it makes a refresh due (R439, R449). -/
def countRead (s : State) (b retries : Nat) (corrected : List Nat) : State :=
  let p := s.flash.profile
  let s := modFlashCh s (channelOf b) fun x => { x with
    retries := satAdd (2 ^ 64 - 1) x.retries retries
    correctedBits := satAdd (2 ^ 64 - 1) x.correctedBits (corrected.foldl (· + ·) 0) }
  modFlashBlock s b fun x => { x with
    reads := x.reads + 1
    refreshDue := x.refreshDue || decide (p.disturbLimit ≤ x.reads + 1) || decide (2 ≤ retries)
      || corrected.any fun n => decide (p.refreshBits < n) }

/-- Retries a read may make at a level, and whether it then tries soft decoding (R433). -/
def retriesAt (s : State) (level : Nat) : Nat :=
  if level ≤ 1 then min s.flash.retryLimit s.flash.profile.retryEntries else s.flash.profile.retryEntries

/-- The commands and pieces that needed a page end with DATA_ERROR (R416, R425, R433). -/
def endPageReaders (s : State) (page b : Nat) : State :=
  let z : Cause := { kind := kindFlash, loc := page, detail := flashDetail b }
  oneEvent s true z fun s => failSourceReads ((tilesAtT4 s (page / 4)).foldl (fun s t => endReaders s t .dataError z) s) (flashBase + page * 16384)

def readEffect (s : State) (page level tries : Nat) (corrected : List Nat) (softOk : Bool) : State :=
  match flashLoc s page with
  | none => s
  | some l =>
    let b := blockKeyOf s (flashDie (page / 4)) l
    if l = lostLoc then endPageReaders s page 0
    else
      let most := retriesAt s level
      let s := countRead s b (min tries most) corrected
      if tries ≤ most then
        pageArrives (if tries = 0 then s else modFlashBlock s b fun x => { x with retryHint := tries }) page
      else if 2 ≤ level ∧ softOk then pageArrives s page
      else
        let s := if level ≤ 1 then
            let s := modFlashCh s (channelOf b) fun x => { x with readFails := satAdd 0xFFFFFFFF x.readFails 1 }
            s.modFlash fun f => { f with
              readFails := satAdd 0xFFFFFFFF f.readFails 1
              recoverDue := if f.recoverDue.contains page then f.recoverDue else f.recoverDue ++ [page] }
          else s
        endPageReaders (notice s lidFlash) page b

/-- LUNs of a channel on which a read of level 0 or 1 waits. -/
def busyLuns (s : State) (c : Nat) : List Nat :=
  ((s.flash.reads.filter fun r => decide (r.level ≤ 1)).filterMap fun r => pageLun s r.page).eraseDups.filter fun l => channelOf l == c

/-- The LUN whose read the channel's bus transfers next: round robin in order of number; every read that waits counts as ready (R436;
DESIGN CHOICE, log entry 145). -/
def busTurn (s : State) (c : Nat) : Option Nat :=
  let l := isort (fun a b => decide (a < b)) (busyLuns s c)
  (l.find? fun k => decide ((flashCh s c).lastLun < k)).or l.head?

/-- A read is the next of its LUN: one of level 0 or 1 in order of arrival, when the bus comes to its LUN; one of level 2 or 3 when no such read waits
there (R436). A LOST page lies on no LUN. -/
def readTurn (s : State) (page level : Nat) : Bool :=
  match pageLun s page with
  | none => true
  | some l =>
    if level ≤ 1 then (lunReads s l).head? == some ⟨page, level⟩ && busTurn s (channelOf l) == some l else (lunReads s l).isEmpty

/-- The read leaves its LUN's queue. -/
def takeRead (s : State) (page level : Nat) : State :=
  let s' := s.modFlash fun f => { f with reads := f.reads.erase ⟨page, level⟩ }
  match pageLun s page with
  | some l => if level ≤ 1 then modFlashCh s' (channelOf l) fun x => { x with lastLun := l } else s'
  | none => s'

/-- No read of level 0 or 1 waits on the LUN, so that a program or an erase there goes on (R436). -/
def lunQuiet (s : State) (lun : Nat) : Bool := (lunReads s lun).isEmpty

/-- A page on flash that no write waits for, on a channel that serves. -/
def readable (s : State) (page : Nat) : Bool :=
  match flashLoc s page with
  | none => false
  | some l => l == lostLoc || (flashCh s (locChannel (flashDie (page / 4)) l)).state == .active

/-- FLASH_READ: a page is read at a level, having arrived at its LUN before or now; `tries` retries would be needed, or none of the table succeeds. -/
def execFlashRead (page level tries : Nat) (corrected : List Nat) (softOk : Bool) (s : State) :
    Host.Outcome State Fault Refusal :=
  occurs (live s && s.flash.isOpen && decide (page < s.flash.top / 16384) && !s.flash.wbuf.contains (page / 4) && readable s page
      && decide (level ≤ 3) && decide (corrected.length ≤ 4) && readTurn (queueFlash s page level) page level)
    (readEffect (takeRead (queueFlash s page level) page level) page level tries corrected softOk) s

/-! ## FLASH_PROGRAM (R426, R428, R431) -/

/-- Moves the bytes of a page of the medium to another. -/
def movePage (m : Memory) (src dst : Nat) : Memory :=
  let old := m.filter fun (a, _) => decide (src ≤ a) && decide (a < src + 16384)
  old.foldl (fun m (a, b) => Mem.write m (a - src + dst) b) m

/-- Where the bytes of a page lie. -/
def pageCell (die loc : Nat) : Nat := die * 2 ^ 46 + loc * 16384

/-- Offsets of a page that the write buffer holds. -/
def heldOfPage (s : State) (page : Nat) : List Nat := (Tab.keys s.flash.wheld).filter fun o => o / 16384 == page

/-- Programs one page of a tile at a location: the bytes it had, with those that the write buffer holds over them (R426). A LOST page
that was not written whole stays LOST. -/
def programPage (s : State) (page loc : Nat) : State :=
  let die := flashDie (page / 4)
  let held := heldOfPage s page
  let old := flashLoc s page
  if old = some lostLoc ∧ held.length < 16384 then s
  else s.modFlash fun f =>
    let m := match old with
      | some l => if l = lostLoc then f.pages else movePage f.pages (pageCell die l) (pageCell die loc)
      | none => f.pages
    { f with
      pages := held.foldl (fun m o => Mem.write m (pageCell die loc + o % 16384) (Mem.read f.wdata o)) m
      map := Tab.set f.map page loc, pagesProgrammed := satAdd (2 ^ 64 - 1) f.pagesProgrammed 1 }

/-- DIRTY clears for a T3 tile whose T4 write is done, unless another write has arrived (R399). -/
def clearDirty (s : State) (tile : Nat) : State :=
  (backedBy s tile).foldl (fun s t =>
    if s.tiers.backingQueue.contains t then s
    else s.modTiers fun x => { x with map := Tab.adjust x.map t fun e => if e.tier = 3 then { e with dirty := false } else e }) s

/-- A program or an erase of a block has failed: it is retired, after an activation where one is in progress (R441, R448). -/
def blockFails (s : State) (b : Nat) : State :=
  if fwServes s then retireBlock s b
  else s.modFlash fun f => { f with dueBlocks := if f.dueBlocks.contains b then f.dueBlocks else f.dueBlocks ++ [b] }

/-- The program status of a tile: a pass makes its pages durable and switches its map entries; a failure keeps them in the write
buffer and retires the block. -/
def programEffect (s : State) (tile loc : Nat) (pass : Bool) : State :=
  let b := blockKeyOf s (flashDie tile) loc
  let first := loc % 2 ^ 23 % max 1 s.flash.profile.pagesPerBlock
  let s := modFlashBlock s b fun x => { x with next := first + 4 }
  if !pass then blockFails s b
  else
    let s := (List.range 4).foldl (fun s k => programPage s (4 * tile + k) (loc + k)) s
    let s := s.modFlash fun f => { f with
      wbuf := f.wbuf.filter (· != tile)
      issued := f.issued.filter (· != tile)
      wheld := Tab.keep f.wheld fun o _ => o / 65536 != tile
      wdata := f.wdata.filter fun (o, _) => o / 65536 != tile }
    let s := updateT4 (clearDirty s tile)
    if fwServes s then settleImages s else s

/-- A block may be begun when no free block of its LUN has been erased less (R441). -/
def leastWorn (s : State) (b : Nat) : Bool :=
  let x := flashBlock s b
  x.next != 0 || (List.range s.flash.lunBlocks).all fun k =>
    let y := flashBlock s (lunOf b + k)
    y.bad || y.next != 0 || decide (x.erases ≤ y.erases)

/-- A group of four pages at one multi-plane place that can be programmed (R426, R441, R443, R444). -/
def placeOk (s : State) (die loc : Nat) : Bool :=
  let c := flashCh s (locChannel die loc)
  let b := blockKeyOf s die loc
  let ppb := max 1 s.flash.profile.pagesPerBlock
  decide (loc % 4 = 0) && decide (loc < 0xFFFFFFFC) && c.state == .active && decide (bitsOf loc 29 27 < c.targets)
    && decide (bitsOf loc 26 23 < c.luns) && decide (loc % 2 ^ 23 < s.flash.lunBlocks * ppb)
    && !(flashBlock s b).bad && decide ((flashBlock s b).next ≤ loc % 2 ^ 23 % ppb) && leastWorn s b
    && !lunReadOnly s (lunOf b)

/-- FLASH_PROGRAM: a program status, while no read of level 0 or 1 holds the LUN's program suspended (R436); during an activation only of a program that
had been issued (R448). -/
def execFlashProgram (tile loc : Nat) (pass : Bool) (s : State) : Host.Outcome State Fault Refusal :=
  occurs (live s && s.flash.isOpen && s.flash.wbuf.contains tile && placeOk s (flashDie tile) loc && lunQuiet s (lunKey (flashDie tile) loc)
      && (fwServes s || s.flash.issued.contains tile)) (programEffect s tile loc pass) s

/-! ## FLASH_ERASE (R435, R441) -/

/-- Every byte of a block is gone. -/
def clearBlock (s : State) (b : Nat) : Memory :=
  let ppb := max 1 s.flash.profile.pagesPerBlock
  let lo := pageCell (dieOf b) (lunOf b % 2 ^ 32 + b % 2 ^ 23 * ppb)
  s.flash.pages.filter fun (a, _) => decide (a < lo) || decide (lo + ppb * 16384 ≤ a)

def eraseEffect (s : State) (b : Nat) (pass : Bool) : State :=
  if !pass then blockFails s b
  else
    let s := s.modFlash fun f => { f with pages := clearBlock s b }
    let retire := (flashBlock s b).retireAfter
    let s := s.modFlash fun f => { f with erasing := f.erasing.filter (· != b) }
    let s := modFlashBlock s b fun x => { x with erases := x.erases + 1, reads := 0, next := 0, refreshDue := false }
    updateT4 (if retire then blockFails s b else s)

/-- A block that holds no valid page is erased, no read waiting on its LUN; during an activation only where the erase had been issued (R448); once the reads of its old pages have completed. -/
def execFlashErase (block : Nat) (pass : Bool) (s : State) : Host.Outcome State Fault Refusal :=
  occurs (live s && s.flash.isOpen && (flashCh s (channelOf block)).state == .active && !(flashBlock s block).bad
      && decide (0 < (flashBlock s block).next) && (validPages s block).isEmpty && lunQuiet s (lunOf block)
      && (fwServes s || s.flash.erasing.contains block))
    (eraseEffect s block pass) s

/-! ## PAGE_RECOVERY (R434) -/

/-- Relocates tiles: they are programmed again elsewhere, and each map entry switches when its program passes (R435). -/
def relocate (s : State) (ts : List Nat) : State :=
  s.modFlash fun f => { f with wbuf := f.wbuf ++ ts.filter fun t => !f.wbuf.contains t }

def recoveryEffect (s : State) (page : Nat) (ok : Bool) : State :=
  let s := s.modFlash fun f => { f with recoverDue := f.recoverDue.filter (· != page) }
  match flashLoc s page with
  | none => s
  | some l =>
    if l = lostLoc then s
    else
      let b := blockKeyOf s (flashDie (page / 4)) l
      let s := modFlashBlock s b fun x => { x with retireAfter := true, refreshDue := true }
      let s := deviceLog s kindFlash page (flashDetail b)
      if ok then relocate s [page / 4] else losePages s [page]

def execPageRecovery (page : Nat) (ok : Bool) (s : State) : Host.Outcome State Fault Refusal :=
  occurs (fwServes s && s.flash.isOpen && s.flash.recoverDue.contains page) (recoveryEffect s page ok) s

/-! ## FLASH_REFRESH, GARBAGE_COLLECTION, WEAR_LEVELLING (R435, R439 to R441) -/

/-- The tiles of a block's valid pages. -/
def tilesOfBlock (s : State) (b : Nat) : List Nat := ((validPages s b).map (· / 4)).eraseDups

/-- FLASH_REFRESH: every valid page of the block is relocated. -/
def refreshEffect (s : State) (b : Nat) : State :=
  let s := relocate s (tilesOfBlock s b)
  let s := modFlashBlock s b fun x => { x with refreshDue := false }
  s.modFlash fun f => { f with refreshes := satAdd 0xFFFFFFFF f.refreshes 1 }

def execFlashRefresh (block : Nat) (s : State) : Host.Outcome State Fault Refusal :=
  occurs (fwServes s && s.flash.isOpen && (flashBlock s block).refreshDue) (refreshEffect s block) s

/-- FLASH_PATROL: a programmed block is read at level 3, and a refresh falls due by the same rules (R439). -/
def execFlashPatrol (block retries : Nat) (corrected : List Nat) (s : State) : Host.Outcome State Fault Refusal :=
  occurs (fwServes s && s.flash.isOpen && (flashCh s (channelOf block)).state == .active && decide (0 < (flashBlock s block).next)
      && decide (retries ≤ s.flash.profile.retryEntries) && decide (corrected.length ≤ 4) && lunQuiet s (lunOf block))
    (countRead s block retries corrected) s

/-- The block of a list with the least measure, the lowest-numbered among equals. -/
def leastBlock (f : Nat → Nat) : List Nat → Option Nat
  | [] => none
  | b :: t => match leastBlock f t with
    | none => some b
    | some c => if f c < f b then some c else some b

/-- The block that garbage collection reclaims on a LUN: the one with the fewest valid pages (R440). -/
def gcBlock (s : State) (lun : Nat) : Option Nat :=
  leastBlock (fun b => (validPages s b).length)
    ((s.flash.blocks.filter fun (b, x) => lunOf b == lun && reclaimable s b x).map (·.1))

def execGarbageCollection (lun : Nat) (s : State) : Host.Outcome State Fault Refusal :=
  match gcBlock s lun with
  | some b => occurs (fwServes s && s.flash.isOpen && (flashCh s (channelOf lun)).state == .active) (relocate s (tilesOfBlock s b)) s
  | none => occurs false s s

/-- Erase counts of a die's blocks that are in service: those listed, and zero where some block of the die has never been touched. -/
def eraseSpread (s : State) (die : Nat) : Nat :=
  let mine := (s.flash.blocks.filter fun (b, x) => dieOf b == die && !x.bad).map fun (_, x) => x.erases
  let all := ((List.range 4).map fun k => channelBlocks s (4 * die + k)).foldl (· + ·) 0
  let low := if (s.flash.blocks.filter fun (b, _) => dieOf b == die).length < all then 0 else minOf 0 mine
  mine.foldl max 0 - low

/-- The coldest block of a die: programmed, with the fewest erases. -/
def coldestBlock (s : State) (die : Nat) : Option Nat :=
  leastBlock (fun b => (flashBlock s b).erases)
    ((s.flash.blocks.filter fun (b, x) => dieOf b == die && !x.bad && decide (0 < x.next)).map (·.1))

/-- WEAR_LEVELLING: the erase counts of a die differ by more than a tenth of the rated cycles. -/
def execWearLevelling (die : Nat) (s : State) : Host.Outcome State Fault Refusal :=
  match coldestBlock s die with
  | some b => occurs (fwServes s && s.flash.isOpen && decide (s.flash.profile.ratedCycles < 10 * eraseSpread s die))
      (relocate s (tilesOfBlock s b)) s
  | none => occurs false s s

/-! ## FLASH_CHANNEL_RETRAIN (R442, R443) -/

/-- Pages on a channel. -/
def pagesOn (s : State) (c : Nat) : List Nat :=
  (s.flash.map.filter fun (p, l) => l != lostLoc && locChannel (flashDie (p / 4)) l == c).map (·.1)

/-- A channel fails: every page on it is LOST. -/
def channelFails (s : State) (c : Nat) : State :=
  let s := modFlashCh s c fun x => { x with state := .failed }
  updateT4 (notice (losePages s (pagesOn s c)) lidFlash)

/-- All channels run at the lowest rate that any populated channel reaches (R422). -/
def commonRate (s : State) (r : Nat) : State :=
  s.modFlash fun f => { f with channels := Tab.map f.channels fun x =>
    if x.state = .active ∨ x.state = .retraining then { x with rate := min x.rate r } else x }

/-- A channel that stops responding enters retraining; a channel in retraining comes back at a rate, or fails. -/
def flashRetrainEffect (s : State) (c : Nat) (rate : Option Nat) : State :=
  if (flashCh s c).state = .active then notice (modFlashCh s c fun x => { x with state := .retraining }) lidFlash
  else match rate with
    | some r => notice (modFlashCh (commonRate s r) c fun x => { x with state := .active }) lidFlash
    | none => channelFails s c

def execFlashChannelRetrain (ch : Nat) (rate : Option Nat) (s : State) : Host.Outcome State Fault Refusal :=
  occurs (live s && s.flash.isOpen && decide (ch < 16) && (s.island (98 + ch / 4)).state == .run
      && ((flashCh s ch).state == .active || (flashCh s ch).state == .retraining)
      && (match rate with | some r => decide (r ≤ 3) | none => true))
    (flashRetrainEffect s ch rate) s

end Sys2Proof.Machine
end

