-- ==== Sys2Proof/Machine/Formats.lean ====
section
/-! DEFINITION. The formats of the matrix unit (R196, R197), its reduction along K (R198 to R200), the conversions and the special functions of
the vector unit (R201 to R203). The encodings of the MX specification that R196 names
are from outside the manual (PRESUMED, log entry 140). -/

namespace Sys2Proof.Machine

open Sys2Proof

/-! ## Elements and block scales (R196, R200) -/

/-- FP8 E5M2 widened exactly. -/
def e5m2To32 (b : Byte) : F32 :=
  let n := b.toNat
  let ex := bitsOf n 6 2
  let fr := bitsOf n 1 0
  let neg := bitOf n 7
  if ex = 31 then toF32 (if fr = 0 then .inf neg else .nan)
  else if ex = 0 then toF32 (.fin neg fr (-16))
  else toF32 (.fin neg (fr + 4) ((ex : Int) - 17))

/-- E2M1 widened exactly; it has no NaN and no infinity. -/
def e2m1To32 (n : Nat) : F32 :=
  let ex := bitsOf n 2 1
  let fr := bitsOf n 0 0
  if ex = 0 then toF32 (.fin (bitOf n 3) fr (-1)) else toF32 (.fin (bitOf n 3) (fr + 2) ((ex : Int) - 2))

/-- An INT4 element, -8 to 7. -/
def int4Val (n : Nat) : Int := (BitVec.ofNat 4 n).toInt

/-- A format has a block scale. -/
def isMx (f : Nat) : Bool := f == 1 || f == 5 || f == 6

/-- Bits of an element. -/
def elemBits (f : Nat) : Nat := if f ≤ 2 then 4 else if f = 7 then 16 else 8

/-- An element of a floating-point format, widened exactly. -/
def elem32 (f n : Nat) : F32 :=
  match f with
  | 1 => e2m1To32 n
  | 3 | 5 => e4m3To32 (BitVec.ofNat 8 n)
  | 4 | 6 => e5m2To32 (BitVec.ofNat 8 n)
  | _ => bf16To32 (BitVec.ofNat 16 n)

/-- Bytes of k elements of a format; elements of 4 bits lie two to a byte, the first in the low half (DESIGN CHOICE, log entry 141). -/
def rowBytes (f k : Nat) : Nat := (k * elemBits f + 7) / 8

/-- The bits of element i of a row. -/
def elemAt (f : Nat) (l : List Byte) (i : Nat) : Nat :=
  if elemBits f = 4 then (l.getD (i / 2) 0).toNat / 16 ^ (i % 2) % 16
  else if elemBits f = 8 then (l.getD i 0).toNat
  else (l.getD (2 * i) 0).toNat + 256 * (l.getD (2 * i + 1) 0).toNat

/-! ## The reduction along K (R198, R199) -/

/-- The sum of a chunk of 32 products, padded with zeros, in the pairwise tree. -/
def chunkSum (as bs : List F32) : F32 :=
  let ps := List.zipWith fmul32 as bs
  treeSum fadd32 5 (ps ++ List.replicate (32 - ps.length) 0)

/-- A chunk sum times 2 ^ (sa + sb - 254), rounded to nearest even; a scale of 0xFF makes every element of its block NaN (R198, R200). -/
def scaleChunk (c : F32) (sa sb : Nat) : F32 :=
  if sa = 255 ∨ sb = 255 then toF32 .nan
  else match f32Val c with
    | .fin neg m e => toF32 (.fin neg m (e + sa + sb - 254))
    | v => toF32 v

/-- The dot product of two rows in chunks of 32, with the block scales of MX formats; n bounds the number of chunks. -/
def matReduce (mx : Bool) : Nat → F32 → List F32 → List F32 → List Nat → List Nat → F32
  | 0, acc, _, _, _, _ => acc
  | n + 1, acc, as, bs, sa, sb =>
    let c := chunkSum (as.take 32) (bs.take 32)
    let c := if mx then scaleChunk c (sa.headD 0) (sb.headD 0) else c
    matReduce mx n (fadd32 acc c) (as.drop 32) (bs.drop 32) (sa.drop 1) (sb.drop 1)

/-- The exact sum of INT4 products, as INT32 (R199). -/
def int4Reduce (as bs : List Int) : BitVec 32 := BitVec.ofInt 32 (List.zipWith (· * ·) as bs).sum

/-- One output element of the matrix unit: rows of k elements, with a scale byte for every 32 of an MX row. -/
def matElement (fa fb k : Nat) (a b sa sb : List Byte) : BitVec 32 :=
  if fa = 2 then int4Reduce ((List.range k).map fun i => int4Val (elemAt 2 a i)) ((List.range k).map fun i => int4Val (elemAt 2 b i))
  else
    matReduce (isMx fa) ((k + 31) / 32) 0 ((List.range k).map fun i => elem32 fa (elemAt fa a i))
      ((List.range k).map fun i => elem32 fb (elemAt fb b i)) (sa.map (·.toNat)) (sb.map (·.toNat))

/-! ## Conversion (R201) -/

/-- FP32 to E5M2, nearest even: a magnitude past the range is an infinity. -/
def toE5m2 (a : F32) : Byte :=
  match f32Val a with
  | .nan => 0x7F#8
  | .inf neg => if neg then 0xFC#8 else 0x7C#8
  | .fin neg m e =>
    let mag := if m = 0 then 0 else min 0x7C (packBits 3 (-16) (roundTo 3 (-16) m e))
    BitVec.ofNat 8 (mag + if neg then 128 else 0)

/-- FP32 to E2M1, nearest even, saturating at 6; E2M1 has no pattern for NaN, and the manual gives none (DESIGN CHOICE, log entry 154). -/
def toE2m1 (a : F32) : Nat :=
  match f32Val a with
  | .nan => (Config.nanE2m1 a).toNat
  | .inf neg => if neg then 15 else 7
  | .fin neg m e => (if m = 0 then 0 else min 7 (packBits 2 (-1) (roundTo 2 (-1) m e))) + if neg then 8 else 0

/-- An element in a format. -/
def toElem (f : Nat) (a : F32) : Nat :=
  match f with
  | 1 => toE2m1 a
  | 3 | 5 => (toE4m3 a).toNat
  | 4 | 6 => (toE5m2 a).toNat
  | _ => (toBf16 a).toNat

/-- The greatest exponent of an element of an MX format. -/
def emaxOf (f : Nat) : Int := if f = 1 then 2 else if f = 5 then 8 else 15

/-- The exponent of the greatest power of two at or below a magnitude. -/
def floorLog (m : Nat) (e : Int) : Int := e + Nat.log2 m

/-- The shared scale of an output block of an MX format: its largest magnitude's exponent less the format's greatest, in E8M0 (R201). A block
with a NaN or an infinity takes 0xFF; the scale of a block of zeros is free (DESIGN CHOICE, log entry 154). -/
def mxScale (f : Nat) (l : List F32) : Nat :=
  if l.any notFinite32 then 255
  else
    match (l.map fun v => match f32Val v with | .fin _ m e => (m, e) | _ => (0, 0)).filter (fun x => x.1 != 0) with
    | [] => (Config.mxZeroScale f).toNat
    | x :: t => (min 254 (max 0 ((t.foldl (fun k y => max k (floorLog y.1 y.2)) (floorLog x.1 x.2)) - emaxOf f + 127))).toNat

/-- A value over a scale of 2 ^ (s - 127). -/
def unscale (s : Nat) (v : F32) : F32 :=
  match f32Val v with
  | .fin neg m e => toF32 (.fin neg m (e - s + 127))
  | x => toF32 x

/-- Elements packed into bytes. -/
def packElems (f : Nat) (l : List Nat) : List Byte :=
  if elemBits f = 4 then (List.range ((l.length + 1) / 2)).map fun i => BitVec.ofNat 8 (l.getD (2 * i) 0 + 16 * l.getD (2 * i + 1) 0)
  else l.flatMap fun n => leBytes (elemBits f / 8) n

/-- FP32 results in a format: the elements, and for an MX format the scale of each 32 of them. -/
def convertRow (f : Nat) (l : List F32) : List Byte × List Byte :=
  if isMx f then
    let bs := chunks 32 l
    let ss := bs.map (mxScale f)
    (packElems f ((bs.zip ss).flatMap fun (b, s) => b.map fun v => toElem f (unscale s v)), ss.map (BitVec.ofNat 8))
  else (packElems f (l.map (toElem f)), [])

/-! ## The vector unit (R202, R203) -/

/-- A row of FP32 elements added in the lane order of R202. -/
def rowSum (l : List F32) : F32 := treeSum fadd32 6 (lanes (fun a _ p => fadd32 p a) (l.length / 64 + 1) (List.replicate 64 0) l l)

/-- A pattern moved by at most two units in its last place (R202). -/
def nudge (a d : F32) : F32 := a + BitVec.ofNat 32 (d.toNat % 5) - 2

/-- A special function of an FP32 value: 0 exponential, 1 hyperbolic tangent, 2 error function, 3 reciprocal, 4 reciprocal square root. Each is one
algorithm of the firmware's major version, which the manual does not give; of the last two the result lies within 2 units in the last place of
the value rounded to FP32 (R202; DESIGN CHOICE, log entry 142). -/
def vecFunction (major fn : Nat) (a : F32) : F32 :=
  let free := Config.vecFunction major fn a
  let exact := if fn = 3 then fdiv32 0x3F800000#32 a else toF32 (divVal (f32Val 0x3F800000#32) (sqrtVal (f32Val a)))
  if fn < 3 then free else if notFinite32 exact ∨ exact.toNat % 2 ^ 31 = 0 then exact else nudge exact free

/-- The sum of slots, element by element, in order of contributor position from 0 (R203). -/
def addSlots : List (List F32) → List F32
  | [] => []
  | x :: t => t.foldl (fun acc y => List.zipWith fadd32 acc y) x

end Sys2Proof.Machine
end

