-- ==== Sys2Proof/Machine/ModelEngine.lean ====
section
/-! DEFINITION. Model runs (R204 to R221, R229 to R235): launching, the steps of a schedule, their ends, and what their outputs do. -/

namespace Sys2Proof.Machine

open Sys2Proof

/-! ## Launching (R216, R217) -/

/-- The most urgent class among a run's commands. -/
def runClass (s : State) (r : Run) : Nat :=
  if r.slice.isSome then r.sliceClass else minOf 3 (r.seqs.filterMap fun x => (s.cmd? x.cmd).map fun c => eClass c.entry)

/-- A run that launches as soon as its reservation can be granted: full, with a class-0 or class-1 command (R217), or a slice's part. -/
def runDue (s : State) (r : Run) : Bool :=
  !r.launched && (r.slice.isSome || r.seqs.length == (s.sched r.sched).header.batchMax || (!r.seqs.isEmpty && decide (runClass s r ≤ 1)))

/-- Runs take cores in order of class (R216). -/
def runTurn (s : State) (k : Nat) (r : Run) : Bool :=
  s.runs.all fun (j, o) => j == k || !runDue s o || decide (runClass s r ≤ runClass s o)

/-! ## The end of a run -/

/-- Ends a run on every slice, and releases the schedules whose last run that was (R213, R235). -/
def endSliced (s : State) (k : Nat) (st : Status) (z : Cause) : State := settleUnloads (endEverywhere s k st z)

/-! ## Steps (R211, R212) -/

/-- The step a run is in. -/
def stepOf (s : State) (r : Run) : Option StepRec := (s.sched r.sched).steps[r.step]?

/-- Works on the tiles of the step in order, as far as they have landed. -/
def workTiles (last : Nat) (landed : List Nat) : Nat → Nat → Nat
  | 0, w => w
  | n + 1, w => if w < last ∧ landed.contains w then workTiles last landed n (w + 1) else w

/-- The run's work with what has landed. -/
def advance (s : State) (k : Nat) : State :=
  match Tab.get? s.runs k with
  | none => s
  | some r =>
    match stepOf s r with
    | none => s
    | some p =>
      let last := p.tileFirst + p.tileCount
      s.modRun k fun r => { r with worked := workTiles last r.landed (last - r.worked) r.worked }

/-- A step may end: the run has begun, and every tile of the step is worked. -/
def stepReady (s : State) (r : Run) (op : Nat) : Bool :=
  r.begun && match stepOf s r with
    | some p => p.op == op && decide (p.tileFirst + p.tileCount ≤ r.worked)
    | none => false

/-- The cores of a run hold the core program of its step (R207, R245). -/
def loadProgram (s : State) (k : Nat) : State :=
  match (Tab.get? s.runs k).bind fun r => (stepOf s r).map fun p => (r, p) with
  | none => s
  | some (r, p) =>
    let b := ((s.sched r.sched).image.drop p.programOffset).take p.programBytes
    { s with cores := Tab.map s.cores fun c => if c.run == some k then { c with program := b } else c }

/-! ## The run's part of T1: pool slots and activation space (R206, R215) -/

/-- Where block j of a run lies in held space: its pool slots come first, and the activation space after them. -/
def runBlock (s : State) (k j : Nat) : Option Nat := ((blocksOf s (.run k))[j]?).map fun (sl, b) => sl * 0x400000 + b * 0x10000

/-- A byte of the activation space. -/
def actByte (s : State) (k off : Nat) : Byte :=
  match (Tab.get? s.runs k).bind fun r => runBlock s k ((s.sched r.sched).header.poolSlots + off / 65536) with
  | some o => Mem.read s.cache.t1 (o + off % 65536)
  | none => 0

/-- Writes a byte of the activation space. -/
def actPut (s : State) (k off : Nat) (b : Byte) : State :=
  match (Tab.get? s.runs k).bind fun r => runBlock s k ((s.sched r.sched).header.poolSlots + off / 65536) with
  | some o => s.modCache fun c => { c with t1 := Mem.write c.t1 (o + off % 65536) b }
  | none => s

def actRead (s : State) (k off n : Nat) : List Byte := (List.range n).map fun i => actByte s k (off + i)
def actWrite (s : State) (k off : Nat) (b : List Byte) : State := b.zipIdx.foldl (fun s (x, i) => actPut s k (off + i) x) s

/-- A tile lands in a pool slot. -/
def landSlot (s : State) (k slot : Nat) (b : List Byte) : State :=
  match runBlock s k slot with
  | some o => s.modCache fun c => { c with t1 := Mem.fill c.t1 o 65536 b }
  | none => s

/-- The first n bytes of a pool slot. -/
def slotRead (s : State) (k slot n : Nat) : List Byte :=
  match runBlock s k slot with
  | some o => (List.range n).map fun i => Mem.read s.cache.t1 (o + i)
  | none => []

/-! ## Partial sums (R203, R235) -/

/-- Output tiles of a PEER_REDUCE step, with the bytes of each (R207, R208). -/
def outTiles (p : StepRec) : List (Nat × Nat) := (List.range (ceilDiv p.outBytes 65536)).map fun j => (j, min 65536 (p.outBytes - j * 65536))

/-- Sends this slice's partial tiles to every other slice, at the priority of the run: WRITE_REQ packets to the window that each opens, at the place
of this slice's tile there (DESIGN CHOICE, log entry 28). -/
def sendPartials (s : State) (k : Nat) (r : Run) (p : StepRec) : State :=
  let h := (s.sched r.sched).header
  let tiles := outTiles p
  let prio := minOf 3 ((s.stream (r.streams.headD (0, 0)).1 (r.streams.headD (0, 0)).2).prio :: [])
  (sliceOthers s (s.sched r.sched)).foldl (fun s d => tiles.foldl (fun s (j, n) =>
    ((chunks 2048 (actRead s k (p.inAct + j * 65536) n)).zipIdx).foldl (fun s (b, i) =>
      let q := { mkPacket s 0x02 d s.net.nextTxn b with
        cls := 0, prio := prio, window := Config.sliceWindow d, offset := (h.sliceIndex * tiles.length + j) * 65536 + i * 2048 }
      sendPacket (openPeer s d (.partialSum k)) q) s) s) s

/-- A step begins: the cores take its program, and a PEER_REDUCE step sends the partial tiles. -/
def beginStep (s : State) (k : Nat) : State :=
  let s := loadProgram s k
  match (Tab.get? s.runs k).bind fun r => (stepOf s r).map fun p => (r, p) with
  | some (r, p) => if p.op = 3 then sendPartials s k r p else s
  | none => s

/-- The partial tile of a slice for an output tile: its own in the activation space, another's in the slot that a reference of the step names. -/
def partialOf (s : State) (k : Nat) (r : Run) (p : StepRec) (j n i : Nat) : List F32 :=
  let d := s.sched r.sched
  let refs := (d.refs.drop p.tileFirst).take p.tileCount
  let b := if i = d.header.sliceIndex then actRead s k (p.inAct + j * 65536) n
    else match refs.find? fun f => f.kind == 1 && f.object == j && f.peerSlice == i with
      | some f => slotRead s k f.slot n
      | none => []
  (chunks 4 b).map fun w => BitVec.ofNat 32 (leNat w)

/-- Adds the partial tiles of each output tile in SLICE_INDEX order from 0, into the step's output (R203, R235). -/
def reduceTiles (s : State) (k : Nat) (r : Run) (p : StepRec) : State :=
  let slices := List.range (s.sched r.sched).header.sliceCount
  (outTiles p).foldl (fun s (j, n) =>
    actWrite s k (p.outAct + j * 65536) ((addSlots (slices.map (partialOf s k r p j n))).flatMap fun v => leBytes 4 v.toNat)) s

/-- A step ends, and the next begins. -/
def endStep (s : State) (k : Nat) : State := advance (beginStep (s.modRun k fun r => { r with step := r.step + 1 }) k) k

/-! ## RUN_LAUNCH, RUN_HOLD_EXPIRY (R215 to R217) -/

/-- The run's cores, blocks, streams and start: one stream in each of its quarters is armed for its reads at the run's class (R216; DESIGN CHOICE, log
entry 139); a sliced run first asks the other slices, and a slice reports its start (R233). -/
def launchRun (s : State) (k : Nat) (r : Run) (qs grants : List Nat) : State :=
  let d := s.sched r.sched
  let h := d.header
  let s := (freeBlocks s (runBlocks h)).foldl (fun s (sl, b) => grantBlock s sl b (.run k)) s
  let s := qs.foldl (fun s q => (List.range 64).foldl (fun s c => s.modCore (q * 64 + c) fun x => { x with run := some k, grants := grants }) s) s
  let waits := r.slice.isSome || (h.sliced && !(sliceOthers s d).isEmpty)
  let streams := qs.filterMap fun q => (idleStream s q).map fun n => (q, n)
  let prio := runClass s r
  let s := streams.foldl (fun s (q, n) => s.modStream q n fun x => { x with state := .armed, owner := .scheduler, prio := prio }) s
  let s := s.modRun k fun x => { x with launched := true, begun := !waits, start := s.time, quarters := qs, streams := streams }
  let s := loadProgram s k
  let s := match r.slice with
    | some (co, n) => sendRunCtl s co 1 n h.sliceIndex 0
    | none => if h.sliced then (sliceOthers s d).foldl (fun s e => sendRunCtl s e 0 k (runClass s r) h.setId) s else s
  if waits then s else advance s k

/-- RUN_LAUNCH. -/
def execRunLaunch (run : Nat) (quarters grants : List Nat) (s : State) : Host.Outcome State Fault Refusal :=
  match Tab.get? s.runs run with
  | none => occurs false s s
  | some r =>
    occurs (live s && awake s && runDue s r && runTurn s run r && canReserve s (s.sched r.sched).header quarters
        && okGrants grants)
      (launchRun s run r quarters grants) s

/-- RUN_HOLD_EXPIRY: the hold of one of the run's commands is over (DEDUCED, log entry 122). -/
def execRunHoldExpiry (run : Nat) (quarters grants : List Nat) (s : State) : Host.Outcome State Fault Refusal :=
  match Tab.get? s.runs run with
  | none => occurs false s s
  | some r =>
    occurs (live s && awake s && !r.launched && !r.seqs.isEmpty && runTurn s run r && canReserve s (s.sched r.sched).header quarters
        && okGrants grants)
      (launchRun s run r quarters grants) s

/-! ## Tiles (R211 to R213) -/

/-- WINDOW of a source (R395, R438). -/
def windowOfSource (s : State) (src : Nat) : Nat := if src = 4 then s.flash.window else 16

/-- Whether a run's next reference may issue. -/
def mayIssue (s : State) (r : Run) : Bool :=
  let refs := (s.sched r.sched).refs
  match refs[r.issued]? with
  | none => false
  | some f =>
    let open_ := (List.range r.issued).filter fun i => !r.landed.contains i && (match refs[i]? with | some g => g.source == f.source | none => false)
    let slotBusy := (List.range r.issued).any fun i => decide (r.worked ≤ i) && (match refs[i]? with | some g => g.slot == f.slot | none => false)
    r.begun && decide (open_.length < windowOfSource s f.source) && !slotBusy

/-- Pages of T4 that a read of a reference's tile fetches. -/
def refPages (s : State) (d : Sched) (f : TileRef) : List Nat :=
  match weightTile d f with
  | some t => if (s.tile t).tier = 4 then pagesToRead s (s.tile t) 0 65536 else []
  | none => []

/-- A run's next tile read issues; the pages of a tile of T4 go to their LUNs at the run's level (R216, R436). -/
def issueTile (s : State) (k : Nat) (r : Run) : State :=
  let d := s.sched r.sched
  let s := s.modRun k fun r => { r with issued := r.issued + 1 }
  match d.refs[r.issued]? with
  | some f => (refPages s d f).foldl (fun s p => queueFlash s p (runClass s r)) s
  | none => s

/-- TILE_ISSUE. -/
def execTileIssue (run : Nat) (s : State) : Host.Outcome State Fault Refusal :=
  match Tab.get? s.runs run with
  | none => occurs false s s
  | some r => occurs (live s && awake s && mayIssue s r) (issueTile s run r) s

/-- The data of a reference as it lands: a weight tile's from T2 or T4; what the operand brings from another device. None where the tile is lost. -/
def landedBytes (s : State) (d : Sched) (f : TileRef) (bytes : List Byte) : Option (List Byte) :=
  match weightTile d f with
  | none => some bytes
  | some t =>
    let e := s.tile t
    if e.lost || (e.tier == 2 && !t2Readable s e 0 65536) then none
    else if e.tier = 3 then some bytes
    else some ((d.image.drop (d.header.weightOffset + f.object * 65536)).take 65536)

/-- A tile lands in its pool slot, and the step goes on as far as it can; an unreadable tile ends the run with DATA_ERROR (R213). -/
def landEffect (s : State) (k : Nat) (r : Run) (ref : Nat) (bytes : List Byte) : State :=
  let d := s.sched r.sched
  match d.refs[ref]? with
  | none => s
  | some f =>
    match landedBytes s d f bytes with
    | none => endSliced s k .dataError (runCause s r kindTier ref)
    | some b => advance (landSlot (s.modRun k fun r => { r with landed := r.landed ++ [ref] }) k f.slot b) k

/-- No page of a reference's tile still waits at its LUN. -/
def refRead (s : State) (r : Run) (ref : Nat) : Bool :=
  let d := s.sched r.sched
  match d.refs[ref]? with
  | some f => (refPages s d f).all fun p => !s.flash.reads.any fun q => q.page == p
  | none => true

/-- TILE_LANDED. -/
def execTileLanded (run : Nat) (x : LandedTile) (s : State) : Host.Outcome State Fault Refusal :=
  match Tab.get? s.runs run with
  | none => occurs false s s
  | some r =>
    occurs (live s && awake s && r.begun && decide (x.ref < r.issued) && !r.landed.contains x.ref && refRead s r x.ref)
      (landEffect s run r x.ref x.bytes) s

/-- DEADLINE_MISS: a tile has not landed at its DEADLINE (DEDUCED, log entry 93). -/
def execDeadlineMiss (run ref : Nat) (s : State) : Host.Outcome State Fault Refusal :=
  match Tab.get? s.runs run with
  | none => occurs false s s
  | some r =>
    occurs (live s && r.begun && decide (ref < (s.sched r.sched).refs.length) && !r.landed.contains ref)
      (endSliced s run .tierLate (runCause s r kindTier ref)) s

/-- STEP_CYCLE_OVERRUN: a step uses more than its cycles on a core. -/
def execStepCycleOverrun (run core : Nat) (s : State) : Host.Outcome State Fault Refusal :=
  match Tab.get? s.runs run with
  | none => occurs false s s
  | some r =>
    occurs (live s && awake s && r.begun && decide (core < 4096) && (s.core core).run == some run)
      (endSliced s run .scheduleFault (runCause s r kindTier r.worked)) s

/-! ## Text (R221, R229, R230) -/

/-- The text of a sequence. -/
def seqText (s : State) (x : Seq) : List Byte :=
  match s.cmd? x.cmd with
  | none => []
  | some c =>
    if eOpcode c.entry = 1 then (if c.search.phase = .embedding then queryData c else queryText c)
    else ((c.work.items[x.item]?).map (·.data)).getD []

/-- Tokens of a text, and whether some are dropped. -/
def embedTokens (d : Sched) (t : List Byte) : List (BitVec 32) × Bool :=
  let ts := Config.tokens (vocabOf d) t
  (ts.take d.header.maxTokens, decide (d.header.maxTokens < ts.length))

/-- TOKENISE: text that is not valid UTF-8 ends its command; dropped tokens set TOKENS_CLIPPED. A run whose commands have all ended
is over. -/
def tokeniseEffect (s : State) (k : Nat) (r : Run) : State :=
  let d := s.sched r.sched
  let bad := (r.seqs.filter fun x => !utf8Ok (seqText s x)).map (·.cmd)
  let clipped := (r.seqs.filter fun x => d.header.kind == 1 && (embedTokens d (seqText s x)).2).map (·.cmd)
  let s := clipped.foldl (fun s n => s.modCmd n fun c => { c with clipped := true }) s
  let s := bad.eraseDups.foldl (fun s n => match s.cmd? n with
    | some c => if eOpcode c.entry = 1 then failSearch s n .invalidField {} else fail s n .invalidField {}
    | none => s) s
  match Tab.get? s.runs k with
  | some r' => if r'.seqs.isEmpty && r'.slice.isNone then settleUnloads (dropRun s k) else endStep s k
  | none => s

def execTokenise (run : Nat) (s : State) : Host.Outcome State Fault Refusal :=
  match Tab.get? s.runs run with
  | none => occurs false s s
  | some r => occurs (live s && awake s && stepReady s r 1) (tokeniseEffect s run r) s

/-! ## The work of a LAYER step (R196 to R203) -/

/-- The firmware's major version (R204, R586). -/
def fwMajor (s : State) : Nat := field s.security.running 0x0B 1

/-- FP32 elements in a local store. -/
def localF32 (s : State) (core off n : Nat) : List F32 := (chunks 4 (localRead s core off (4 * n))).map fun w => BitVec.ofNat 32 (leNat w)

/-- The core whose unit works. -/
def opCore : UnitOp → Nat
  | .dot c .. | .convert c .. | .row c .. | .slots c .. | .function c .. => c

/-- One piece of a unit's work. -/
def performOp (s : State) : UnitOp → State
  | .dot c fa fb k a b sa sb out =>
    let scales (o : Nat) : List Byte := if isMx fa then localRead s c o (ceilDiv k 32) else []
    localWrite s c out (leBytes 4
      (matElement fa fb k (localRead s c a (rowBytes fa k)) (localRead s c b (rowBytes fb k)) (scales sa) (scales sb)).toNat)
  | .convert c f n src dst scales =>
    let (es, ss) := convertRow f (localF32 s c src n)
    localWrite (localWrite s c dst es) c scales ss
  | .row c n src dst => localWrite s c dst (leBytes 4 (rowSum (localF32 s c src n)).toNat)
  | .slots c n srcs dst => localWrite s c dst ((addSlots (srcs.map fun o => localF32 s c o n)).flatMap fun v => leBytes 4 v.toNat)
  | .function c fn src dst =>
    localWrite s c dst (leBytes 4 (vecFunction (fwMajor s) fn ((localF32 s c src 1).headD 0)).toNat)

/-- The last place in the local store that a piece of work touches, plus one. -/
def opTop : UnitOp → Nat
  | .dot _ fa fb k a b sa sb out =>
    [a + rowBytes fa k, b + rowBytes fb k, sa + ceilDiv k 32, sb + ceilDiv k 32, out + 4].foldl max 0
  | .convert _ f n src dst sc => [src + 4 * n, dst + rowBytes f n, sc + ceilDiv n 32].foldl max 0
  | .row _ n src dst => max (src + 4 * n) (dst + 4)
  | .slots _ n srcs dst => (srcs.map (· + 4 * n)).foldl max (dst + 4 * n)
  | .function _ _ src dst => max (src + 4) (dst + 4)

/-- A piece of work is one that the run's step may do: on a core of the run, within LOCAL_BYTES; a matrix operation has the step's FORMAT on one
side at least (R197, R207) and at most MAX_K elements. -/
def opFits (s : State) (k : Nat) (h : SchedHeader) (p : StepRec) (o : UnitOp) : Bool :=
  (s.core (opCore o)).run == some k && decide (opTop o ≤ h.localBytes) &&
    match o with
    | .dot _ fa fb n .. => (fa == p.format || fb == p.format) && decide (n ≤ p.maxK)
    | _ => true

/-- LAYER: the units' work is done, and the step ends once its outputs are written; or something goes wrong on a core of the run: the step's program
faults, or a word of its storage is lost (R246, R632). -/
def execLayer (x : LayerWork) (s : State) : Host.Outcome State Fault Refusal :=
  match Tab.get? s.runs x.run with
  | none => occurs false s s
  | some r =>
    match stepOf s r, x.fault with
    | none, _ => occurs false s s
    | some p, none =>
      occurs (live s && awake s && stepReady s r 2 && x.ops.all (opFits s x.run (s.sched r.sched).header p))
        (endStep (x.ops.foldl performOp s) x.run) s
    | some p, some (c, e) =>
      occurs (live s && awake s && r.begun && p.op == 2 && okCore c && (s.core c).run == some x.run) (settleUnloads (coreEvent s c e)) s

/-- PEER_REDUCE: the partial tiles of every slice have landed, and the step adds them in SLICE_INDEX order (R235). -/
def execPeerReduce (run : Nat) (s : State) : Host.Outcome State Fault Refusal :=
  match Tab.get? s.runs run with
  | none => occurs false s s
  | some r =>
    match stepOf s r with
    | none => occurs false s s
    | some p => occurs (live s && awake s && stepReady s r 3) (endStep (reduceTiles s run r p) run) s

/-! ## OUTPUT (R165, R220, R224, R231) -/

/-- An embedding: OUT_DIM elements. -/
def embedOut (s : State) (d : Sched) (t : List Byte) : List F32 :=
  (padVec d.header.outDim (Config.embed d.image (fwMajor s) (embedTokens d t).1)).take d.header.outDim

/-- A relevance score of a pair: the query's first tokens, and as many of the candidate's as fit (R230). -/
def pairOut (s : State) (d : Sched) (query : List Byte) (cand : List (BitVec 32)) : F32 :=
  let q := (Config.tokens (vocabOf d) query).take d.header.queryTokensMax
  Config.relevance d.image (fwMajor s) q (cand.take (d.header.maxTokens - q.length))

/-- Tokens that a TEXT item keeps for cross-encoding (R229). -/
def keptTokens (s : State) (c : Cmd) (t : List Byte) : List (BitVec 32) :=
  if !c.keepTokens then []
  else match schedOf s c.cross with
    | some i => (Config.tokens (vocabOf (s.sched i)) t).take ((s.sched i).header.maxTokens - 1)
    | none => []

/-- An item is embedded: it is prepared, the bytes of its text are free (R168), and the command joins a group with its last one (R164, R165). -/
def itemEmbedded (s : State) (n k : Nat) (c : Cmd) (a : Attrs) (v : List F32) : State :=
  match prepareVec a v with
  | none => decide_ s n { status := .invalidVector, dw3 := k } [] 1 {}
  | some (full, w) =>
    let put (x : Item) : Item := { x with full := full, working := w, tokens := keptTokens s c x.data }
    let text := ceil64 ((c.work.items.map (·.data.length)).getD k 0)
    let s := s.modWork n fun o => { o with items := o.items.modify k put, embedded := o.embedded + 1, staged := o.staged - text }
    let s := s.modColl (eIndex c.entry) fun y => { y with stagingUsed := y.stagingUsed - text }
    if c.work.embedded + 1 = c.work.items.length then joinGroup s n else s

/-- A sequence's output reaches its command; NaN or infinity ends the command (R220). -/
def deliverSeq (s : State) (d : Sched) (x : Seq) : State :=
  match s.cmd? x.cmd with
  | none => s
  | some c =>
    if c.stage = .decided then s
    else match s.coll? (eIndex c.entry) with
      | none => s
      | some y =>
        if d.header.kind = 1 then
          let v := embedOut s d (seqText s x)
          if v.any notFinite32 then
            (if eOpcode c.entry = 1 then failSearch s x.cmd .numericFault {} else fail s x.cmd .numericFault {})
          else if eOpcode c.entry = 1 then
            match workingQuery y.attrs v with
            | some q => startCoarse s x.cmd q
            | none => failSearch s x.cmd .invalidVector {}
          else itemEmbedded s x.cmd x.item c y.attrs v
        else
          let r := pairOut s d (queryText c) (Tab.getD c.search.candTokens x.item [])
          if notFinite32 r then failSearch s x.cmd .numericFault {}
          else settleRerank (setDist s x.cmd x.item (fneg32 r)) x.cmd

/-- OUTPUT: the run's outputs are written, and it ends. -/
def outputEffect (s : State) (k : Nat) (r : Run) : State :=
  let d := s.sched r.sched
  let s := dropRun s k
  settleUnloads (r.seqs.foldl (fun s x => deliverSeq s d x) s)

def execOutput (run : Nat) (s : State) : Host.Outcome State Fault Refusal :=
  match Tab.get? s.runs run with
  | none => occurs false s s
  | some r => occurs (live s && awake s && stepReady s r 4) (outputEffect s run r) s

/-! ## A sliced run on another device's word (R233 to R235) -/

/-- RUN_CTL arrives. A start opens this slice's run; a slice that holds no such schedule answers with a finish, which ends the coordinator's run
(DESIGN CHOICE, log entry 155: the manual does not say); a report counts, and the last one sends GO; GO starts the run; a finish ends it. -/
def runCtlEffect (s : State) : RunCtl → State
  | .start co run setId cls =>
    let fits (d : Sched) : Bool := d.loaded && d.header.sliced && d.header.setId == setId && d.members.contains co
    match s.scheds.find? fun (_, d) => fits d with
    | some (i, _) =>
      { s with
        runs := Tab.set s.runs s.nextRun { sched := i, seqs := [], slice := some (co, run), sliceClass := cls }
        nextRun := s.nextRun + 1 }
    | none => sendRunCtl s co 3 s.net.deviceNumber run 0
  | .startReport run slice =>
    match Tab.get? s.runs run with
    | none => s
    | some r =>
      if !r.launched || r.begun || r.slice.isSome || r.reports.contains slice then s
      else
        let s := s.modRun run fun r => { r with reports := r.reports ++ [slice] }
        if r.reports.length + 1 < (sliceOthers s (s.sched r.sched)).length then s
        else
          let s := (sliceOthers s (s.sched r.sched)).foldl (fun s d => sendRunCtl s d 2 s.net.deviceNumber run 0) s
          advance (s.modRun run fun r => { r with begun := true, start := s.time }) run
  | .go co run =>
    match s.runs.find? fun (_, r) => r.slice == some (co, run) && r.launched && !r.begun with
    | some (k, _) => advance (s.modRun k fun r => { r with begun := true, start := s.time }) k
    | none => s
  | .finish device run true =>
    match s.runs.find? fun (_, r) => r.slice == some (device, run) with
    | some (k, _) => settleUnloads (dropRun s k)
    | none => s
  | .finish device run false =>
    match Tab.get? s.runs run with
    | some r =>
      if r.slice.isNone && (sliceOthers s (s.sched r.sched)).contains device then
        endSliced s run .tierLate (peerCause device 0 0x28)
      else s
    | none => s

end Sys2Proof.Machine
end

