-- ==== Sys2Proof/Machine/Reports.lean ====
section
/-! DEFINITION. What the device reports of itself: identify data (R527 to R530), log pages (R449, R532, R533, R556), and the
registers that DIAG_READ reads (R316, R333, R394, R610). -/

namespace Sys2Proof.Machine

open Sys2Proof

/-- Bytes laid out one after another: pairs of a width and a value; widths of reserved bytes carry zero. -/
def layout (l : List (Nat × Nat)) : List Byte := l.flatMap fun (n, v) => leBytes n v

/-- A value saturating at n bytes. -/
def sat (n v : Nat) : Nat := min v (2 ^ (8 * n) - 1)

/-- A register word from its fields: pairs of a lowest bit and a value (each within its field's width). -/
def regWord (l : List (Nat × Nat)) : Nat := (l.map fun (lo, v) => v * 2 ^ lo).foldl (· + ·) 0

/-! ## Codes -/

def chStateCode : ChState → Nat
  | .untrained => 0 | .active => 1 | .spare => 2 | .migSource => 3 | .migTarget => 4 | .repair => 5 | .failed => 6 | .lost => 7
def phaseCode : MigPhase → Nat | .idle => 0 | .copy => 1 | .alias_ => 2
def streamCode : StreamState → Nat
  | .idle => 0 | .armed => 1 | .draining => 2 | .faultWait => 3 | .error => 4 | .stopping => 5
def ownerCode : Owner → Nat | .firmware => 0 | .queueEngine => 1 | .scheduler => 2 | .square => 3
def t4Code : T4State → Nat | .absent => 0 | .normal => 1 | .degraded => 2 | .readOnly => 3
def flashChCode : FlashChState → Nat | .unpopulated => 0 | .active => 1 | .retraining => 2 | .failed => 3
def linkCode : LinkState → Nat
  | .unpopulated => 0 | .training => 1 | .up => 2 | .degraded => 3 | .down => 4 | .mismatch => 5 | .failed => 6 | .tooLong => 7
def islCode : IslState → Nat | .off => 0 | .reset => 1 | .run => 2 | .gated => 3 | .retention => 4
def cxCode : CxState → Nat | .run => 0 | .isolated => 1 | .reset => 2

/-! ## Identify (R527 to R530) -/

/-- Version of the running firmware, 0 in recovery (R593), and of a slot's image, 0 when the slot is empty (R586). -/
def fwActive (s : State) : Nat := if s.security.recovery then 0 else field s.security.running 8 4
def slotVersion (l : Option (List Byte)) : Nat := match l with | some b => field b 8 4 | none => 0

/-- The slot that the boot records select (R585). -/
def selectedSlot (s : State) : Nat :=
  let a := s.security.recA
  let b := s.security.recB
  if a.valid && (!b.valid || decide (b.seq ≤ a.seq)) then a.selected else if b.valid then b.selected else 0

/-- The value of a rollback counter (R589), and ROLLBACK_MIN. -/
def counterValue (l : List (BitVec 16)) : Nat := match l.getLast? with | some v => v.toNat | none => 0
def rollbackMin (s : State) : Nat := min (counterValue s.security.counter0) (counterValue s.security.counter1) * 2 ^ 16

/-- DEVICE_NUMBER as identify reports it (R527). -/
def reportedNumber (s : State) : Nat := if s.net.joined then s.net.deviceNumber else 0xFFFF

/-- Cores in service (R248), and spare cores in use. -/
def enabledCores (s : State) : Nat := (List.range 4096).countP (coreUsable s)
def sparesUsed (s : State) : Nat := (List.range 64).countP fun q => (s.quarter q).spareUsed

/-- Tier record s of R527: BOUND_NS, WINDOW, FLOOR (R395, R437, R438). -/
def tierRecord (s : State) (t : Nat) : Nat × Nat × Nat :=
  match t with
  | 0 => (0, 0, 0)
  | 1 => (2000, 64, 0)
  | 2 => (8000, 16, 17500000000000)
  | 3 => (20000, 16, 150000000000)
  | 4 => (s.flash.bound, s.flash.window, s.flash.floor)
  | _ => (9000, 16, 0)

/-- The device identify data (R527). -/
def identifyDevice (s : State) : List Byte :=
  pad 4096 (layout
    ([(2, Config.vendorId.toNat), (2, 0x1640), (1, Config.stepping.toNat), (3, 0), (8, Config.serial.toNat), (4, fwActive s),
      (4, slotVersion s.security.slot0), (4, slotVersion s.security.slot1),
      (1, s.security.active.getD 0 + 2 * selectedSlot s), (3, 0), (4, rollbackMin s), (2, reportedNumber s),
      (2, s.net.routes.length + 1), (4, 65536), (2, 256), (2, enabledCores s), (4, 1048576), (2, 4096), (2, 2048), (4, 65536),
      (4, 40000), (4, 500000), (2, activeN s), (1, t4Code s.flash.state), (1, s.flash.retryLimit), (8, hbmTop s),
      (8, hbmTop s - 0x1000000), (8, s.flash.top), (8, 96 * 2 ^ 30), (4, 1000), (4, 0)]
     ++ (List.range 16).map (fun k => (1, (s.chan (32 * k)).pinRate))
     ++ [(0x80, 0)]
     ++ (List.range 6).flatMap fun t => [(4, (tierRecord s t).1), (4, (tierRecord s t).2.1), (8, (tierRecord s t).2.2)]))

/-- Records of a collection visible at an epoch on this device. -/
def visibleAt (c : Collection) (e : Nat) : Nat :=
  let ids := (Tab.keys c.idMap ++ c.versions.map fun (v : VersionEntry) => v.vid.toNat).eraseDups
  ids.countP fun v => (versionAt c (BitVec.ofNat 48 v) e).isSome

/-- DURABLE_EPOCH (R529): all ones while no commit has been written to T4. -/
def reportedDurable (c : Collection) : Nat :=
  match c.image with
  | some i => if i.epoch = 0 then 2 ^ 64 - 1 else i.epoch
  | none => 2 ^ 64 - 1

/-- The collection identify data (R529). -/
def identifyCollection (s : State) (i : Nat) (c : Collection) : List Byte :=
  pad 256 (attrRecord c.attrs c.members ++ layout
    [(4, (handleOf c.gen i).toNat), (1, residencyCode c.residency), (1, 0), (2, c.cbGen), (8, c.published),
     (8, retainFloor s i c), (8, reportedDurable c), (8, visibleAt c c.published), (4, c.embed.toNat), (4, c.cross.toNat),
     (1, b2n c.keepTokens + 2 * b2n c.maint.isSome + 4 * b2n c.damaged)])

/-- Weight bytes of a schedule that lie in a tier. -/
def weightsIn (s : State) (d : Sched) (tier : Nat) : Nat := d.weightTiles.countP (fun t => (s.tile t).tier == tier) * 65536

/-- The schedule identify data (R530). -/
def identifySchedule (s : State) (d : Sched) : List Byte :=
  pad 256 (d.image.take 256) ++ layout [(8, weightsIn s d 2), (8, weightsIn s d 3), (8, weightsIn s d 4)]

/-! ## Log pages (R531 to R533) -/

/-- An error-log entry (R532). -/
def logBytes (e : LogEntry) : List Byte :=
  layout [(8, e.seq), (8, e.stamp), (2, e.island), (1, match e.port with | some p => portNum p | none => 0xFF), (1, e.origin),
    (2, e.queue), (2, e.tag.toNat), (2, match e.status with | some st => statusCode st | none => 0), (1, e.opcode), (1, e.kind),
    (4, e.coll.toNat), (8, e.epoch), (8, e.location), (16, e.detail)]

/-- Entry p of a ring of n of which the newest `l.length` of `total` are kept, the first of the list being the oldest. -/
def ringEntry {α : Type} (n total : Nat) (l : List α) (p : Nat) : Option α := l[(p + n - (total - l.length) % n) % n]?

def errorPage (s : State) : List Byte :=
  let l := s.logs
  pad 64 (layout [(8, l.total), (4, sat 4 l.lost), (4, 0), (8, max 1 (l.total - 4095))])
    ++ (List.range 4096).flatMap fun p =>
      match ringEntry 4096 l.total l.entries p with
      | some e => logBytes e
      | none => List.replicate 64 0

/-- Entries of the retirement table in use (R309). -/
def rtUsed (s : State) : Nat := (Tab.vals s.hbm.rt).countP (·.valid)

/-- Channels in a state. -/
def channelsIn (s : State) (st : ChState) : Nat := (Tab.vals s.hbm.channels).countP fun c => c.state == st

def healthPage (s : State) : List Byte :=
  pad 512 (layout
    [(4, s.logs.critical.toNat), (4, s.logs.notice.toNat), (2, enabledCores s), (2, sparesUsed s), (2, activeN s),
     (2, channelsIn s .spare), (2, rtUsed s), (1, t4Code s.flash.state), (1, dpCode s.power.dp), (4, s.hbm.migrations.toNat)])

/-- Retirement entry i as R309 lays it out. -/
def rtWord (r : RtEntry) : Nat :=
  regWord [(63, b2n r.valid), (62, b2n r.releasing), (60, r.lost.toNat), (58, r.moved.toNat), (28, r.slot), (0, r.page)]

/-- The channel on which a granule of a page lies (R279). -/
def pageChannels (s : State) (page : Nat) : List Nat :=
  [page * 4096, page * 4096 + 2048].filterMap fun a => (mapAddr s a).map (·.1)

/-- Retirement entries whose page has a granule on a channel. -/
def rtNaming (s : State) (c : Nat) : Nat :=
  (Tab.vals s.hbm.rt).countP fun r => r.valid && (pageChannels s r.page).contains c

def hbmPage (s : State) : List Byte :=
  pad 64 (layout [(2, rtUsed s), (2, channelsIn s .migSource)])
    ++ (List.range 512).flatMap (fun c =>
      let x := s.chan c
      layout [(1, chStateCode x.state), (1, x.pinRate), (1, x.spareLanes.length), (1, x.remaps.length), (4, sat 4 x.eccCorrected),
        (4, sat 4 x.eccUncorrected), (2, rtNaming s c), (2, 0)])
    ++ (List.range 4096).flatMap fun i => leBytes 8 (rtWord (Tab.getD s.hbm.rt i {}))

def linkPage (s : State) : List Byte :=
  List.replicate 64 0 ++ (List.range 6).flatMap fun p =>
    let x := s.link p
    pad 128 (layout ([(1, linkCode x.state), (1, x.lanes), (1, x.polarity.toNat), (1, x.excluded.toNat), (2, x.peer), (2, 0)]
      ++ x.laneMap.map (fun l => (1, l)) ++ [(8, sat 8 x.fecCorrected), (8, sat 8 x.fecUncorrected), (4, sat 4 x.retrains)]))

/-- Blocks of a flash channel that are listed, and what R449 reports of them. -/
def blocksOn (s : State) (c : Nat) : List FlashBlock := (s.flash.blocks.filter fun (b, _) => channelOf b == c).map (·.2)

def flashPage (s : State) : List Byte :=
  let f := s.flash
  let act := (f.channels.filter fun (_, c) => c.state == .active).length
  pad 64 (layout
    [(1, t4Code f.state), (1, act), (1, percentUsed s), (1, sparePercent s), (1, f.retryLimit), (3, 0), (8, f.top), (8, physFree s),
     (8, sat 8 f.tilesWritten), (8, sat 8 f.pagesProgrammed), (4, sat 4 f.grownBad), (4, sat 4 f.readFails),
     (4, sat 4 f.lostPages), (4, sat 4 f.refreshes)])
    ++ (List.range 16).flatMap fun c =>
      let x := flashCh s c
      let bs := blocksOn s c
      pad 64 (layout
        [(1, flashChCode x.state), (1, x.rate), (1, x.targets), (1, x.luns), (4, bs.countP (·.bad)),
         (4, sat 4 ((bs.map (·.erases)).foldl max 0)), (4, sat 4 (eraseSum s (fun b => channelOf b == c) / max 1 (channelBlocks s c))),
         (8, sat 8 x.retries), (8, sat 8 x.correctedBits), (4, sat 4 x.readFails), (4, sat 4 x.lostPages)])

/-- A signed 16-bit value. -/
def signed16 (v : Int) : Nat := (v % 65536).toNat

def thermalPage (s : State) : List Byte :=
  List.replicate 64 0 ++ (List.range 28).flatMap fun t =>
    let x := Tab.getD s.sensors t {}
    layout [(2, signed16 x.temp), (2, signed16 x.max), (4, sat 4 x.events), (4, sat 4 x.ms), (4, 0)]

def hotPage (s : State) (p : PortId) : List Byte :=
  let x := (s.port p).xlt
  pad 64 (leBytes 8 x.hotTotal.toNat) ++ (List.range 1024).flatMap fun k =>
    match ringEntry 1024 (x.hotTotal.toNat + 2 ^ 64) x.hotLog k with
    | some r => layout [(8, r.addr), (1, r.count), (7, 0), (8, r.stamp)]
    | none => List.replicate 24 0

/-- A log page as it stands, for a port. -/
def logPage (s : State) (p : PortId) : Nat → List Byte
  | 1 => errorPage s | 2 => healthPage s | 3 => hbmPage s | 4 => linkPage s | 5 => flashPage s | 6 => thermalPage s
  | _ => hotPage s p

/-! ## Registers that DIAG_READ opens (R542) -/

/-- A register of a channel's block (R316). -/
def channelReg (s : State) (c off : Nat) : Nat :=
  let x := s.chan c
  match off with
  | 0x000 => regWord [(20, x.spareLanes.length), (16, x.pinRate), (8, x.remaps.length), (0, chStateCode x.state)]
  | 0x004 => regWord [(16, x.migTarget), (8, x.share)]
  | 0x008 => regWord [(28, phaseCode x.phase), (25, b2n x.migDone), (24, b2n x.migAborted), (0, x.watermark)]
  | 0x010 => regWord [(20, x.dataMode), (18, x.addrMode), (16, x.opMode), (14, x.testRate)]
  | 0x014 => regWord [(4, b2n x.trainFail), (3, b2n x.refused), (2, b2n x.fail), (1, b2n x.done), (0, b2n x.busy)]
  | 0x018 => x.seed.toNat
  | 0x01C => x.start
  | 0x020 => x.length
  | 0x024 => x.passes
  | 0x028 => x.userLo.toNat
  | 0x02C => x.userHi.toNat
  | 0x030 => sat 4 x.chkErrors
  | 0x034 => match x.chkFirst with | some (sec, g) => regWord [(31, 1), (20, sec), (0, g)] | none => 0
  | 0x038 => x.laneLo.toNat
  | 0x03C => x.laneHi.toNat
  | 0x040 => sat 4 x.eccCorrected
  | 0x044 => sat 4 x.eccUncorrected
  | _ => 0

/-- A register of a boulevard's block (R333). -/
def boulevardReg (s : State) (q off : Nat) : Nat :=
  if 0x800 ≤ off then
    let e := s.engine q
    match off with
    | 0x800 => regWord [(16, e.peak), (0, e.tags)]
    | 0x804 => e.bytes / 1024 % 2 ^ 32
    | _ => 0
  else
    let x := s.stream q (off / 0x80)
    match off % 0x80 with
    | 0x00 => x.base % 2 ^ 32 / 1024 * 1024
    | 0x04 => x.base / 2 ^ 32 % 65536
    | 0x08 => regWord [(18, x.region), (16, ownerCode x.owner), (10, x.prio), (9, portNum x.hostPort), (8, b2n x.hostRing), (0, x.sizeLog2 % 16)]
    | 0x0C => x.tail
    | 0x10 => regWord [(16, x.fetch), (0, x.head)]
    | 0x18 => regWord [(16, x.errCode), (8, x.armResult), (5, b2n x.error), (4, b2n x.done), (0, streamCode x.state)]
    | 0x1C => x.errDesc
    | 0x20 => x.tags
    | 0x24 => x.count.toNat
    | _ => 0

/-- A register of an address-translation block (R394); the host-port fields of dies 2 and 3 read 0. Walks complete within the request
that needs them, so no walker is ever seen busy. -/
def xltReg (s : State) (d off : Nat) : Nat :=
  let x : Xlt := if d = 0 then s.port0.xlt else if d = 1 then s.port1.xlt else {}
  match off with
  | 0x000 => regWord [(2, b2n x.priStopped), (1, b2n x.priOn), (0, b2n x.atsOn)]
  | 0x004 => x.hits.toNat
  | 0x008 => x.misses.toNat
  | 0x00C => x.reqs.length
  | 0x010 => x.pages.length
  | 0x014 => x.prSent.toNat
  | 0x018 => x.prMerged.toNat
  | 0x01C => x.invDone.toNat
  | 0x020 => x.invs.length
  | 0x024 => (Tab.getD s.protect.walks d 0).toNat
  | 0x02C => sat 4 x.hotDropped
  | 0x030 => sat 4 (Tab.getD s.protect.refused d 0)
  | _ => 0

/-- A register of a crossing's block (R610). -/
def crossingReg (s : State) (c off : Nat) : Nat :=
  let x := s.crossing c
  match off with
  | 0x00 => regWord [(16, (crossingSides c).2), (8, (crossingSides c).1), (0, cxCode x.state)]
  | 0x04 => regWord [(24, x.peakBA), (16, x.occBA), (8, x.peakAB), (0, x.occAB)]
  | 0x08 => x.xferAB.toNat
  | 0x0C => x.xferBA.toNat
  | 0x10 => sat 4 x.fullAB
  | 0x14 => sat 4 x.fullBA
  | 0x18 => sat 4 x.isolations
  | _ => 0

/-- A register of an island's block (R610). -/
def islandReg (s : State) (i off : Nat) : Nat :=
  let x := s.island i
  match off with
  | 0x00 => regWord [(8, if i < 64 then (s.quarter i).clock else 0), (0, islCode x.state)]
  | 0x04 => x.rate
  | 0x08 => islandCount s i % 2 ^ 32
  | 0x0C => x.countHi.toNat
  | 0x10 => if i < 64 then (s.quarter i).cap else 0
  | _ => 0

/-- The register at an address of the control processor's space, none outside the blocks that the host may read (R542). -/
def diagReg (s : State) (a : Nat) : Option Nat :=
  if 0x01000000 ≤ a ∧ a < 0x01000000 + 512 * 0x400 then some (channelReg s ((a - 0x01000000) / 0x400) (a % 0x400))
  else if 0x02000000 ≤ a ∧ a < 0x02000000 + 64 * 0x1000 then some (boulevardReg s ((a - 0x02000000) / 0x1000) (a % 0x1000))
  else if 0x03000000 ≤ a ∧ a < 0x03000000 + 4 * 0x1000 then some (xltReg s ((a - 0x03000000) / 0x1000) (a % 0x1000))
  else if 0x04000000 ≤ a ∧ a < 0x04000000 + 105 * 0x40 then some (crossingReg s ((a - 0x04000000) / 0x40) (a % 0x40))
  else if 0x05000000 ≤ a ∧ a < 0x05000000 + 103 * 0x20 then some (islandReg s ((a - 0x05000000) / 0x20) (a % 0x20))
  else none

/-- A read of ISL_COUNT_LO latches ISL_COUNT_HI (R610, R611). -/
def diagLatch (s : State) (a : Nat) : State :=
  if 0x05000000 ≤ a ∧ a < 0x05000000 + 103 * 0x20 ∧ a % 0x20 = 0x08 then
    let i := (a - 0x05000000) / 0x20
    s.modIsland i fun x => { x with countHi := BitVec.ofNat 32 (islandCount s i / 2 ^ 32) }
  else s

/-- Reads n registers from an address up, in order. -/
def diagRead : Nat → State → Nat → State × List Byte
  | 0, s, _ => (s, [])
  | n + 1, s, a =>
    let b := leBytes 4 ((diagReg s a).getD 0)
    let r := diagRead n (diagLatch s a) (a + 4)
    (r.1, b ++ r.2)

/-- Every address of a DIAG_READ lies in a block that it opens. -/
def diagOpen (s : State) (a n : Nat) : Bool := (List.range n).all fun k => (diagReg s (a + 4 * k)).isSome

end Sys2Proof.Machine
end

