-- ==== Sys2Proof/Machine/Admin.lean ====
section
/-! DEFINITION. Admin commands: how they arrive on queue pair 0, in a mailbox or in the sideband mailbox, how the firmware starts them
(R518 to R524, R603), and the commands that report, set features, administer queues, region entries and HBM (R483, R484, R510,
R526 to R535, R541, R542, R671, R672). -/

namespace Sys2Proof.Machine

open Sys2Proof

/-! ## Starting (R522) -/

/-- An admin effect: what the firmware does once it has started command n. -/
abbrev AdminEffect := State → Nat → State

/-- Admin commands that the firmware runs now: at most 16. -/
def adminRunning (s : State) : Nat :=
  (s.cmds.filter fun (_, x) => adminOpcode (eOpcode x.entry) && x.stage == .admitted).length

/-- A waiting admin command of the same pair 0 that was fetched before command n. -/
def adminBefore (s : State) (n : Nat) (x : Cmd) : Bool :=
  match x.origin with
  | .sq .. => s.cmds.any fun (m, y) => decide (m < n) && y.origin == x.origin && adminOpcode (eOpcode y.entry) && y.stage == .waiting
  | _ => false

/-- The firmware may start a command now. A second FW_ACTIVATE is answered at once (R545). -/
def mayStartAdmin (s : State) (n : Nat) (x : Cmd) : Bool :=
  if !inputHere s n x then false
  else if x.origin = .sideband ∧ s.power.phase = .fatal then true
  else if eOpcode x.entry = 0x8A ∧ s.security.activating.isSome then live s
  else (fwServes s || s.power.phase == .recovery) && decide (adminRunning s < 16) && powerAdmits s x && !adminBefore s n x

/-- Starts command n where it may start; otherwise it waits for COMMAND_ADMIT. -/
def startAdmin (eff : AdminEffect) (s : State) (n : Nat) : State :=
  match s.cmd? n with
  | none => s
  | some x => if mayStartAdmin s n x then eff (s.modCmd n fun y => { y with stage := .admitted }) n else s

/-! ## Mailboxes (R518 to R521) and the sideband mailbox (R603) -/

/-- Opcodes that recovery serves (R593). -/
def recoveryServes (e : BitVec 1024) : Bool :=
  [0x88, 0x89, 0x8C].contains (eOpcode e) || (eOpcode e == 0x80 && eCns e == 0)

/-- Checks of a request before its ranges: length, opcode, reserved fields, class (R17, R518, R521, R524, R593). -/
def requestChecks (s : State) (reqLen : Nat) (ok : Bool) (e : BitVec 1024) : Option Failure :=
  let op := eOpcode e
  firstFailure
    [(decide (128 ≤ reqLen), { status := .invalidField, off := 0, value := reqLen }),
     (adminOpcode op && ok && (s.power.phase != .recovery || recoveryServes e), { status := .invalidOpcode, off := 0, value := op }),
     (reservedZero e, { status := .invalidField, off := reservedByte e, value := ef e (reservedByte e) 1 }),
     (reservedValues e, { status := .invalidField, off := 0x28, value := ef e 0x28 4 }),
     (eClass e != 0, { status := .invalidField, off := 1, value := eClass e })]

/-- Takes a request: its command is added, checked and, where it passes, started. -/
def takeRequest (s : State) (p : PortId) (origin : Origin) (reqLen : Nat) (ok : Bool) (e : BitVec 1024)
    (input : Option (List Byte)) (start : AdminEffect) : State :=
  let n := s.nextCmd
  let gone := match origin with | .mailbox q m => (s.mailbox q m).discard | _ => false
  let x : Cmd := { origin := origin, entry := e, input := input.getD [], word := fetchWord (eOpcode e), detached := gone }
  let s := addCmd s x
  match requestChecks s reqLen ok e with
  | some f => failCheck s n f
  | none =>
    match checksB s p x input with
    | .fails f => failCheck s n f
    | .lost => fail s n .dataError (readCause s ((s.region (eInSel e)).base + eInAddr e) (eInLen e))
    | .passes => readInput s p n start

/-- The entry of a request, and its inline input (R518, R520). -/
def requestEntry (m : Memory) : BitVec 1024 := BitVec.ofNat 1024 (leNat (Mem.readN m 0 128))
def inlineInput (m : Memory) (reqLen : Nat) : List Byte := Mem.readN m 128 (reqLen - 128)

/-- The input buffer of a mailbox request: inline, a region's, or the host's (R520). -/
def requestInput (s : State) (p : PortId) (m : Memory) (reqLen : Nat) (inp : List Byte) : Option (List Byte) :=
  let e := requestEntry m
  if eInLen e = 0 then some (inlineInput m reqLen)
  else if (bufferChecks s p e).isSome then some []
  else inputOf s e inp

/-- The firmware, or in recovery the boot ROM, takes the request of a mailbox that it owns; where a reset of the port has ended its reads
of host memory, the request ends with HOST_ABORT (R348, R477). -/
def mailboxFetch (s : State) (p : PortId) (m : Nat) (inp : List Byte) (start : AdminEffect) : State :=
  let x := s.mailbox p m
  let e := requestEntry x.buf
  let s := s.modMailbox p m fun y => { y with started := true }
  let input := requestInput s p x.buf x.reqLen inp
  if x.discard && eInLen e != 0 && !eInRegion e then
    fail (addCmd s { origin := .mailbox p m, entry := e, input := [], detached := true }) s.nextCmd .hostAbort
      { kind := kindHost, loc := eInAddr e, detail := portNum p }
  else takeRequest s p (.mailbox p m) x.reqLen true e input start

/-- What the sideband mailbox accepts (R603): other opcodes are INVALID_OPCODE, other pages and data INVALID_FIELD (DEDUCED, log entry 32). -/
def sidebandOpcode (e : BitVec 1024) : Bool := [0x80, 0x81, 0x8C].contains (eOpcode e)
def sidebandTakes (e : BitVec 1024) : Bool :=
  match eOpcode e with
  | 0x80 => eCns e == 0
  | 0x81 => eLid e == lidHealth || eLid e == lidThermal
  | _ => true

def sidebandFetch (s : State) (start : AdminEffect) : State :=
  let x := s.sideband
  let e := requestEntry x.buf
  let s := s.modSb fun y => { y with started := true }
  let n := s.nextCmd
  if decide (128 ≤ x.reqLen) && sidebandOpcode e && !sidebandTakes e then
    failCheck (addCmd s { origin := .sideband, entry := e, input := [], word := .committing }) n
      { status := .invalidField, off := 0x28, value := ef e 0x28 1 }
  else takeRequest s .p0 .sideband x.reqLen (sidebandOpcode e) e (some []) start

/-! ## The row of an admin command -/

/-- The firmware can take one more request now. -/
def takesRequests (s : State) : Bool :=
  (fwServes s || s.power.phase == .recovery) && decide (adminRunning s < 16) && s.power.entering.isNone
    && (s.power.dp == .dp0 || s.power.dp == .dp1)

/-- In FATAL the sideband keeps serving IDENTIFY and GET_LOG_PAGE while the control island runs (R645). -/
def fatalServes (s : State) (e : BitVec 1024) : Bool :=
  s.power.phase == .fatal && (s.island 102).state == .run && (eOpcode e == 0x80 || eOpcode e == 0x81)

/-- The row of an admin command of opcode op that starts by a given operation. -/
def adminRowBy (op : Nat) (start : AdminEffect) (src : AdminSrc) (s : State) : Host.Outcome State Fault Refusal :=
  match src with
  | .queue p e inp => occurs (canFetch s p 0 && fetchTurn s p 0 && rowTakes 0 op e && inputReady s p 0 e inp)
      (turnTo s p 0 e inp start) s
  | .mailbox p m inp =>
    let x := s.mailbox p m
    let e := requestEntry x.buf
    occurs ((barUp s p || x.discard) && okMailbox m && x.firmware && !x.started && takesRequests s
        && (eOpcode e == op || !adminOpcode (eOpcode e))
        && (eInLen e == 0 || inputGiven e inp || (adminRanges p e (eInLen e)).isSome))
      (mailboxFetch s p m inp start) s
  | .sideband =>
    let x := s.sideband
    let e := requestEntry x.buf
    occurs (x.firmware && !x.started && (takesRequests s || fatalServes s e) && (eOpcode e == op || !sidebandOpcode e)) (sidebandFetch s start) s

/-- The row of an admin command of opcode op. -/
def adminRow (op : Nat) (eff : AdminEffect) (src : AdminSrc) (s : State) : Host.Outcome State Fault Refusal :=
  adminRowBy op (startAdmin eff) src s

/-- The port that issued a command; the sideband mailbox has none. -/
def issuer (x : Cmd) : PortId := (originPort x.origin).getD .p0

/-- Ends a command for a field (R525, R628). -/
def refuse (s : State) (n : Nat) (st : Status) (off v : Nat) : State := fail s n st { kind := 0, loc := off, detail := v }

/-- Runs an effect on a command that is still there. -/
def withCmd (s : State) (n : Nat) (f : Cmd → State) : State :=
  match s.cmd? n with
  | some x => f x
  | none => s

/-! ## IDENTIFY (R526 to R530) -/

def identifyEffect (s : State) (n : Nat) : State :=
  withCmd s n fun x =>
    match eCns x.entry with
    | 0 => succeedWith s n {} (identifyDevice s)
    | 1 => match collOf s (eHandle x.entry) with
      | some (i, c) => succeedWith s n {} (identifyCollection s i c)
      | none => refuse s n .invalidField 4 (eHandle x.entry)
    | _ => match schedOf s (BitVec.ofNat 32 (ef x.entry 0x2C 4)) with
      | some d => succeedWith s n {} (identifySchedule s (s.sched d))
      | none => refuse s n .invalidField 0x2C (ef x.entry 0x2C 4)

/-- IDENTIFY. -/
def execIdentify (src : AdminSrc) (s : State) : Host.Outcome State Fault Refusal := adminRow 0x80 identifyEffect src s

/-! ## GET_LOG_PAGE (R531 to R533) -/

/-- A read of a page by a port clears the page's NOTICE bit (R533); a read of the error page, the entry that the security block keeps of a
FATAL event (R629). -/
def clearNotice (s : State) (x : Cmd) (lid : Nat) : State :=
  if x.origin = .sideband then s
  else
    let s := s.modLogs fun l => { l with notice := clearBit l.notice (lid - 1) }
    if lid = lidError then s.modSec fun y => { y with fatalKept := none } else s

def logPageEffect (s : State) (n : Nat) : State :=
  withCmd s n fun x =>
    let lid := eLid x.entry
    let bytes := (logPage s (issuer x) lid).drop (eOffset x.entry)
    if bytes.isEmpty then succeed s n {} else succeedWith (clearNotice s x lid) n {} bytes

/-- GET_LOG_PAGE. -/
def execGetLogPage (src : AdminSrc) (s : State) : Host.Outcome State Fault Refusal := adminRow 0x81 logPageEffect src s

/-! ## Features (R534, R535) -/

/-- Where a saved value is kept. -/
def savedKey (p : PortId) (fid sel : Nat) : Nat :=
  fid * 4 + sel + (if ((featureSpec fid sel).map (·.port)).getD false && p == .p1 then 1024 else 0)

/-- The default, the saved value or the default, the value the next device reset applies, and the value in force; HOT_PERIOD's is
the setting, which the next period takes (DEDUCED, log entry 33). -/
def defaultFeature (fid sel : Nat) : Nat := ((featureSpec fid sel).map (·.default)).getD 0
def savedFeature (s : State) (p : PortId) (fid sel : Nat) : Nat :=
  Tab.getD s.features.saved (savedKey p fid sel) (defaultFeature fid sel)
def pendingFeature (s : State) (p : PortId) (fid sel : Nat) : Nat :=
  let set := if fid = 8 then s.features.pendingWbuf else if fid = 9 then s.features.pendingRetry else none
  set.getD (savedFeature s p fid sel)
def currentFeature (s : State) (p : PortId) (fid sel : Nat) : Nat :=
  match fid with
  | 1 => (s.features.commitWindow[sel]?).getD 0
  | 2 => s.hbm.migrateShare
  | 3 => (s.port p).priTimeout
  | 4 => (s.port p).hotThreshold
  | 5 => (s.port p).hotPeriodNext
  | 6 => s.tiers.lendQuota
  | 7 => s.tiers.revokeGrace
  | 8 => s.flash.wbufMiB
  | _ => s.flash.retryLimit

/-- A feature's value in DW2 and DW3. -/
def featureValue (v : Nat) : Completion := { dw2 := v % 2 ^ 32, dw3 := v / 2 ^ 32 }

def getFeatureEffect (s : State) (n : Nat) : State :=
  withCmd s n fun x =>
    let fid := eFid x.entry
    let sel := eSel x.entry
    let p := issuer x
    let v := match eFlags x.entry % 4 with
      | 0 => currentFeature s p fid sel
      | 1 => defaultFeature fid sel
      | 2 => savedFeature s p fid sel
      | _ => pendingFeature s p fid sel
    succeed s n (featureValue v)

/-- GET_FEATURES. -/
def execGetFeatures (src : AdminSrc) (s : State) : Host.Outcome State Fault Refusal := adminRow 0x82 getFeatureEffect src s

/-- The payload of a LEASE packet (R576): its kind and its numbers (DESIGN CHOICE, log entry 34). -/
def leasePayload : LeaseMsg → List Byte
  | .request b h => layout [(1, 0), (3, 0), (4, b), (4, h)]
  | .grant l k w p => layout [(1, 1), (3, 0), (4, l), (4, k), (4, w), (4, p)]
  | .revoke l k => layout [(1, 2), (3, 0), (4, l), (4, k)]
  | .release b k => layout [(1, 3), (3, 0), (4, b), (4, k)]
def sendLease (s : State) (d : Nat) (m : LeaseMsg) : State := sendPacket s (mkPacket s 0x2A d 0 (leasePayload m))

/-- Gives notice of one lease to its borrower (R414). -/
def revokeLease (s : State) (k : Nat) : State :=
  match Tab.get? s.tiers.lent k with
  | some l =>
    if l.revoking then s
    else sendLease (s.modTiers fun x => { x with lent := Tab.set x.lent k { l with revoking := true } }) l.borrower
      (.revoke s.net.deviceNumber k)
  | none => s

/-- Leases that are granted and not revoked, and the revocation of the highest of them until n are left (R414). -/
def openLent (s : State) : List Nat := (s.tiers.lent.filter fun (_, l) => !l.revoking).map (·.1)
def revokeDownTo (s : State) (n : Nat) : State :=
  let ls := openLent s
  (ls.drop n).foldr (fun k s => revokeLease s k) s

/-- Sets a feature, on its port where it belongs to one. -/
def setFeature (s : State) (p : PortId) (fid sel v : Nat) : State :=
  match fid with
  | 1 => { s with features := { s.features with commitWindow := s.features.commitWindow.set sel v } }
  | 2 => s.modHbm fun h => { h with migrateShare := v }
  | 3 => s.modPort p fun x => { x with priTimeout := v }
  | 4 => s.modPort p fun x => { x with hotThreshold := v }
  | 5 => s.modPort p fun x => { x with hotPeriodNext := v }
  | 6 => revokeDownTo (s.modTiers fun x => { x with lendQuota := v }) v
  | 7 => s.modTiers fun x => { x with revokeGrace := v }
  | 8 => { s with features := { s.features with pendingWbuf := some v } }
  | _ => { s with features := { s.features with pendingRetry := some v } }

def setFeatureEffect (s : State) (n : Nat) : State :=
  withCmd s n fun x =>
    let fid := eFid x.entry
    let sel := eSel x.entry
    let p := issuer x
    let save := bitOf (eFlags x.entry) 0
    if save && s.flash.state == .absent then refuse s n .noSpace 0x2A (eFlags x.entry)
    else
      let s := setFeature s p fid sel (eValue x.entry)
      let s : State := if save then
          { s with features := { s.features with saved := Tab.set s.features.saved (savedKey p fid sel) (eValue x.entry) } }
        else s
      succeed s n (featureValue (currentFeature s p fid sel))

/-- SET_FEATURES. -/
def execSetFeatures (src : AdminSrc) (s : State) : Host.Outcome State Fault Refusal := adminRow 0x83 setFeatureEffect src s

/-! ## Queue administration (R483, R484, R510) -/

def queueCreateEffect (s : State) (n : Nat) : State :=
  withCmd s n fun x =>
    let e := x.entry
    let p := issuer x
    if (s.pair p (eQp e)).state != .absent then refuse s n .invalidField 0x3C (eQp e)
    else
      let y : QueuePair :=
        { state := .active, sqBase := ef e 0x28 8, cqBase := ef e 0x30 8, sqEntries := ef e 0x38 2 + 1, cqEntries := ef e 0x3A 2 + 1
          vector := ef e 0x3E 2 % 2048, ien := bitOf (ef e 0x42 1) 1, urgent := bitOf (ef e 0x42 1) 0
          aggCount := ef e 0x40 1, aggTime := ef e 0x41 1 }
      succeed (s.modPort p fun z => { z with pairs := Tab.set z.pairs (eQp e) y }) n {}

/-- QUEUE_CREATE. -/
def execQueueCreate (src : AdminSrc) (s : State) : Host.Outcome State Fault Refusal := adminRow 0x84 queueCreateEffect src s

/-- The pair enters DELETING; the command completes when its commands have (R484). A CQ write that a freeze held is repeated (DEDUCED, log
entry 35) (DEDUCED, log entry 102). -/
def queueDeleteEffect (s : State) (n : Nat) : State :=
  withCmd s n fun x =>
    let p := issuer x
    let q := eQp x.entry
    if (s.pair p q).state == .absent then refuse s n .invalidField 0x3C q
    else
      let s := s.modPair p q fun y => { y with state := .deleting, heldWrite := none, deleteCmds := y.deleteCmds ++ [n] }
      settleDelete s p q

/-- QUEUE_DELETE. -/
def execQueueDelete (src : AdminSrc) (s : State) : Host.Outcome State Fault Refusal := adminRow 0x85 queueDeleteEffect src s

def queueResumeEffect (s : State) (n : Nat) : State :=
  withCmd s n fun x =>
    let p := issuer x
    let q := eQp x.entry
    let y := s.pair p q
    if y.state != .frozen then succeed s n {}
    else
      let discard := eMode x.entry == 1
      let skipped := if discard then ringDist (max 1 y.sqEntries) y.sqHead y.sqTail else 0
      let s := s.modPair p q fun y => { y with
        state := .active, heldWrite := none, fetchErr := false, sqHead := if discard then y.sqTail else y.sqHead }
      succeed s n { dw2 := 1, dw3 := skipped }

/-- QUEUE_RESUME. -/
def execQueueResume (src : AdminSrc) (s : State) : Host.Outcome State Fault Refusal := adminRow 0x86 queueResumeEffect src s

/-! ## Region entries (R362, R366, R671, R672) -/

/-- The lowest free entry of the hosts' part of the region table. -/
def freeRegionEntry (s : State) : Option Nat := (List.range 3072).findSome? fun k =>
  if Tab.has s.protect.regions (1024 + k) then none else some (1024 + k)

/-- Blocks of T1 that areas hold (R671). -/
def areaBlocks (s : State) : Nat :=
  (s.protect.regions.map fun (n, r) => if 1024 ≤ n ∧ isHeld r.base then (r.last + 1 - r.base) / 0x10000 else 0).foldl (· + ·) 0

/-- Places an area: its base address, and its blocks or pages taken. -/
def placeArea (s : State) (entry tier size : Nat) : Option (Nat × State) :=
  if tier = 1 then
    let n := size / 0x10000
    if 1472 < areaBlocks s + n then none
    else (placeRun s n).map fun (sl, b) =>
      (heldBase + blockOffset sl b, (List.range n).foldl (fun s i => grantBlock s sl (b + i) (.region entry)) s)
  else (takePages s (size / 4096) 1).map fun (p, s) => (p * 4096, s)

def regionAllocEffect (s : State) (n : Nat) : State :=
  withCmd s n fun x =>
    let e := x.entry
    let size := ef e 0x28 8
    match freeRegionEntry s with
    | none => refuse s n .noSpace 0x28 size
    | some k =>
      match placeArea s k (ef e 0x30 1) size with
      | none => refuse s n .noSpace 0x28 size
      | some (base, s) =>
        let s := devWrite s (.queueEngine (issuer x)) base (List.replicate size 0) .stream
        let r : Region :=
          { base := base, last := base + size - 1, read := bitOf (ef e 0x31 1) 0, write := bitOf (ef e 0x31 1) 1
            atomic := bitOf (ef e 0x31 1) 2, valid := true, owner := ef e 0x32 1, allocated := true }
        succeed (s.modProtect fun y => { y with regions := Tab.set y.regions k r }) n { dw2 := k }

/-- REGION_ALLOC. -/
def execRegionAlloc (src : AdminSrc) (s : State) : Host.Outcome State Fault Refusal := adminRow 0xA0 regionAllocEffect src s

/-- An outstanding command beside n names a region entry (R366). -/
def regionNamed (s : State) (n k : Nat) : Bool :=
  s.cmds.any fun (m, x) => m != n
    && ((eInRegion x.entry && eInSel x.entry == k) || (eOutRegion x.entry && eOutSel x.entry == k))

def regionFreeEffect (s : State) (n : Nat) : State :=
  withCmd s n fun x =>
    let k := ef x.entry 0x28 2
    let r := s.region k
    if !(r.allocated && !r.draining) then refuse s n .invalidField 0x28 k
    else if !(r.owner == portNum (issuer x) + 1 || r.owner == 3) then refuse s n .accessError 0x28 k
    else if regionNamed s n k then refuse s n .objectBusy 0x28 k
    else succeed (freeRegion s k r) n {}

/-- REGION_FREE. -/
def execRegionFree (src : AdminSrc) (s : State) : Host.Outcome State Fault Refusal := adminRow 0xA1 regionFreeEffect src s

/-! ## HBM (R298, R541, R542) -/

/-- A migration that the host asks for: it completes with the migration (R542) (DEDUCED, log entry 97). -/
def hbmMigrateEffect (s : State) (n : Nat) : State :=
  withCmd s n fun x =>
    let c := eChannel x.entry
    let st := (s.chan c).state
    if [ChState.untrained, .spare, .migTarget, .repair, .failed].contains st then refuse s n .invalidField 0x28 c
    else match Tab.get? s.hbm.spares (stackOf c) with
      | none => refuse s n .noSpace 0x28 c
      | some t =>
        if !mayMigrate s c t then refuse s n .noSpace 0x28 c
        else startMigration (s.modWork n fun w => { w with channel := some c }) c t s.hbm.migrateShare (some n)

/-- HBM_MIGRATE. -/
def execHbmMigrate (src : AdminSrc) (s : State) : Host.Outcome State Fault Refusal := adminRow 0xA8 hbmMigrateEffect src s

/-- A write of a traffic-generator register: a write of TG_CTRL sets its fields, and then STOP or START acts (R316)
(DEDUCED, log entry 98). -/
def diagWrite (s : State) (c off : Nat) (v : Word) : State :=
  if off = 0x010 then
    let s := chanWrite (if v.getLsbD 1 then stopGenerator s c else s) c off v 0
    if v.getLsbD 0 then tgStartEffect s c .normal v else s
  else chanWrite s c off v 0

def hbmDiagEffect (s : State) (n : Nat) : State :=
  withCmd s n fun x =>
    let e := x.entry
    let c := eChannel e
    let off := ef e 0x2C 4
    if ef e 0x2A 1 = 0 then succeed s n { dw2 := channelReg s c off }
    else if 0x010 ≤ off ∧ off ≤ 0x02C then succeed (diagWrite s c off (BitVec.ofNat 32 (ef e 0x30 4))) n {}
    else refuse s n .accessError 0x2C off

/-- HBM_DIAG. -/
def execHbmDiag (src : AdminSrc) (s : State) : Host.Outcome State Fault Refusal := adminRow 0xA9 hbmDiagEffect src s

def diagReadEffect (s : State) (n : Nat) : State :=
  withCmd s n fun x =>
    let a := ef x.entry 0x28 4
    let k := ef x.entry 0x2C 2
    if !diagOpen s a k then refuse s n .accessError 0x28 a
    else
      let r := diagRead k s a
      succeedWith r.1 n {} r.2

/-- DIAG_READ. -/
def execDiagRead (src : AdminSrc) (s : State) : Host.Outcome State Fault Refusal := adminRow 0xAA diagReadEffect src s

end Sys2Proof.Machine
end

