-- ==== Sys2Proof/Machine/Schedules.lean ====
section
/-! DEFINITION. Schedule commands (R205 to R216, R222, R223, R232 to R236): reading an image, the checks of SCHEDULE_LOAD in their
order, the feasibility model, placing the weights, unloading and binding; and the measurement registers that a load extends (R594,
R595). -/

namespace Sys2Proof.Machine

open Sys2Proof

/-! ## Measurement (R594, R595) -/

/-- The 48 bytes of a digest. -/
def digestBytes (d : BitVec 384) : List Byte := leBytes 48 d.toNat

/-- Extends a measurement register with a digest, and appends the log entry where the log has room. -/
def extendMeas (s : State) (reg event detail : Nat) (d : BitVec 384) : State :=
  s.modSec fun x => { x with
    meas := x.meas.set reg (Config.sha384 (digestBytes ((x.meas[reg]?).getD 0) ++ digestBytes d))
    extends_ := x.extends_ + 1
    log := if x.log.length < 4096 then x.log ++ [⟨x.extends_ + 1, reg, event, detail, d⟩] else x.log
    overflow := x.overflow || decide (4096 ≤ x.log.length) }

/-! ## The image (R206 to R208) -/

def readHeader (b : List Byte) : SchedHeader :=
  { kind := field b 6 1, sliced := bitOf (field b 7 1) 0, stepCount := field b 0x08 4, tileCount := field b 0x0C 4
    maxTokens := field b 0x10 2, queryTokensMax := field b 0x12 2, outDim := field b 0x14 2, batchMax := field b 0x16 2
    quarters := field b 0x18 2, checkClock := field b 0x1A 1, sliceCount := field b 0x1C 2, sliceIndex := field b 0x1E 2
    runBound := field b 0x20 4, poolSlots := field b 0x24 4, localBytes := field b 0x28 4, actBytes := field b 0x2C 4
    stepOffset := field b 0x30 8, tileOffset := field b 0x38 8, weightOffset := field b 0x40 8, weightBytes := field b 0x48 8
    vocabOffset := field b 0x50 8, vocabBytes := field b 0x58 4, setId := field b 0x5C 4 }

def readStep (b : List Byte) (o : Nat) : StepRec :=
  { op := field b o 1, format := field b (o + 1) 1, tileFirst := field b (o + 4) 4, tileCount := field b (o + 8) 4
    lead := field b (o + 0x0C) 4, drain := field b (o + 0x10) 4, maxK := field b (o + 0x14) 4, programOffset := field b (o + 0x18) 8
    programBytes := field b (o + 0x20) 4, inAct := field b (o + 0x24) 4, outAct := field b (o + 0x28) 4
    outBytes := field b (o + 0x2C) 4 }

def readRef (b : List Byte) (o : Nat) : TileRef :=
  { object := field b o 4, source := field b (o + 4) 1, kind := field b (o + 5) 1, slot := field b (o + 6) 2
    deadline := field b (o + 8) 4, work := field b (o + 0x0C) 4, peerSlice := field b (o + 0x10) 2 }

/-- The steps and the tile references of an image whose header has passed its ranges. -/
def readSteps (b : List Byte) (h : SchedHeader) : List StepRec := (List.range h.stepCount).map fun i => readStep b (h.stepOffset + 64 * i)
def readRefs (b : List Byte) (h : SchedHeader) : List TileRef := (List.range h.tileCount).map fun i => readRef b (h.tileOffset + 32 * i)

/-- A part of the image lies within it. -/
def within (b : List Byte) (o n : Nat) : Bool := decide (o + n ≤ b.length)

/-- MAGIC, FORMAT_VERSION, the reserved bytes and the ranges of R206. -/
def headerOk (b : List Byte) (h : SchedHeader) : Bool :=
  field b 0 4 == 0x4C484353 && field b 4 2 == 1 && (h.kind == 1 || h.kind == 2) && decide (field b 7 1 ≤ 1)
    && decide (1 ≤ h.stepCount) && decide (h.stepCount ≤ 4096) && decide (h.tileCount ≤ 16777216)
    && decide (1 ≤ h.maxTokens) && decide (h.maxTokens ≤ 8192)
    && (if h.kind = 2 then decide (1 ≤ h.queryTokensMax) && decide (h.queryTokensMax < h.maxTokens) else h.queryTokensMax == 0)
    && (if h.kind = 2 then h.outDim == 1 else decide (1 ≤ h.outDim) && decide (h.outDim ≤ 4096))
    && decide (1 ≤ h.batchMax) && decide (h.batchMax ≤ 4096) && decide (1 ≤ h.quarters) && decide (h.quarters ≤ 64)
    && decide (7 ≤ h.checkClock) && decide (h.checkClock ≤ 21)
    && decide (1 ≤ h.sliceCount) && decide (h.sliceCount ≤ 2048) && (h.sliced || h.sliceCount == 1)
    && decide (h.sliceIndex < h.sliceCount)
    && decide (1 ≤ h.poolSlots) && decide (h.poolSlots ≤ 512) && decide (h.localBytes ≤ 196608) && h.localBytes % 4096 == 0
    && decide (h.actBytes ≤ 33554432) && h.weightOffset % 65536 == 0 && h.weightBytes % 65536 == 0
    && decide (h.vocabBytes ≤ 16777216)
    && field b 0x1B 1 == 0 && allZero (slice b 0x60 0xA0)
    && within b h.stepOffset (64 * h.stepCount) && within b h.tileOffset (32 * h.tileCount)
    && within b h.weightOffset h.weightBytes && within b h.vocabOffset h.vocabBytes

/-- The ranges and reserved bytes of a step record (R207). -/
def stepOk (b : List Byte) (o : Nat) : Bool :=
  let x := readStep b o
  decide (1 ≤ x.op) && decide (x.op ≤ 4)
    && (if x.op = 2 then decide (1 ≤ x.format) && decide (x.format ≤ 7) && decide (96 ≤ x.lead) else x.format == 0)
    && decide (1 ≤ x.programBytes) && decide (x.programBytes ≤ 65536) && within b x.programOffset x.programBytes
    && field b (o + 2) 2 == 0 && allZero (slice b (o + 0x30) 16)

/-- The ranges and reserved bytes of a tile reference (R208). -/
def refOk (b : List Byte) (h : SchedHeader) (o : Nat) : Bool :=
  let x := readRef b o
  (if x.kind = 0 then [2, 3, 4].contains x.source && x.peerSlice == 0
   else x.kind == 1 && x.source == 5 && decide (x.peerSlice < h.sliceCount))
    && decide (x.slot < h.poolSlots) && allZero (slice b (o + 0x12) 14)

/-- The first check of R209. -/
def imageOk (b : List Byte) (h : SchedHeader) : Bool :=
  headerOk b h && (List.range h.stepCount).all (fun i => stepOk b (h.stepOffset + 64 * i))
    && (List.range h.tileCount).all fun i => refOk b h (h.tileOffset + 32 * i)

/-- The steps' tile ranges follow one another and cover TILE_COUNT. -/
def rangesCover : List StepRec → Nat → Nat → Bool
  | [], next, n => next == n
  | x :: t, next, n => x.tileFirst == next && rangesCover t (next + x.tileCount) n

/-- Each weight tile has one SOURCE, and lies within the weight area. -/
def sourcesAgree (h : SchedHeader) (rs : List TileRef) : Bool :=
  rs.all fun r => r.kind != 0 || (decide (r.object < h.weightBytes / 65536)
    && rs.all fun q => q.kind != 0 || q.object != r.object || q.source == r.source)

/-- TOKENISE is step 0 and OUTPUT the last step, and neither occurs elsewhere. -/
def opsOk (ss : List StepRec) : Bool :=
  ss.zipIdx.all fun (x, i) => (x.op == 1) == (i == 0) && (x.op == 4) == (i + 1 == ss.length)

/-- R199: INT4 reductions are at most 16,777,216 long. -/
def int4Ok (ss : List StepRec) : Bool := ss.all fun x => x.format != 2 || decide (x.maxK ≤ 16777216)

/-- SOURCE 5 only in PEER_REDUCE steps of a sliced schedule. -/
def peersOk (h : SchedHeader) (ss : List StepRec) (rs : List TileRef) : Bool :=
  ss.all fun x => ((rs.drop x.tileFirst).take x.tileCount).all fun r => r.source != 5 || (x.op == 3 && h.sliced)

/-! ## Feasibility (R213, R214, R234) -/

/-- The model of R213 while it runs, in units of 1 / CHECK_CLOCK ns: the current step's time, the issue of the last tile, when each
slot is free, the landings on each source (newest first), and how it has failed. -/
structure FeasRun where
  c : Nat := 0
  issued : Nat := 0
  free : Table Nat := []
  lands : Table (List Nat) := []
  fail : Option (Nat × Nat) := none
  deriving DecidableEq, Repr, Inhabited

/-- One tile. A PEER tile counts as issued when its contributing slice has written it, at the end of the step before (DEDUCED, log entry 36), plus
RUN_SKEW, and lands BOUND_5 after that (R234). A time with a fraction of a nanosecond is reported rounded up (DESIGN CHOICE, log entry 144). -/
def feasTile (s : State) (f write : Nat) (r : TileRef) (i : Nat) (x : FeasRun) : FeasRun :=
  if x.fail.isSome then x
  else
    let (bound, window, _) := tierRecord s r.source
    let past := Tab.getD x.lands r.source []
    let back := if window = 0 then 0 else (past[window - 1]?).getD 0
    let issue := if r.source = 5 then write + 3000 * f else max (max x.issued (Tab.getD x.free r.slot 0)) back
    let land := issue + bound * f
    if r.deadline * f < land then { x with fail := some (i, ceilDiv land f) }
    else
      let c := max x.c land + 20 * r.work
      { x with c := c, issued := issue, free := Tab.set x.free r.slot c, lands := Tab.set x.lands r.source (land :: past) }

/-- The tiles of a step, in order. -/
def feasTiles (s : State) (f write : Nat) : List TileRef → Nat → FeasRun → FeasRun
  | [], _, x => x
  | r :: t, i, x => feasTiles s f write t (i + 1) (feasTile s f write r i x)

/-- The steps, in order; `t` is when the step before ended. -/
def feasSteps (s : State) (f : Nat) (rs : List TileRef) : List StepRec → Nat → Nat → FeasRun → FeasRun × Nat
  | [], _, t, x => (x, t)
  | p :: ps, k, t, x =>
    let c := if k = 0 then 0 else t + 1000 * f
    let x := feasTiles s f t ((rs.drop p.tileFirst).take p.tileCount) p.tileFirst { x with c := c + 20 * p.lead }
    feasSteps s f rs ps (k + 1) (x.c + 20 * p.drain) x

/-- FIRST_FAIL and WORST_NS of a schedule that is not feasible; none where it is. -/
def infeasible (s : State) (h : SchedHeader) (ss : List StepRec) (rs : List TileRef) : Option (Nat × Nat) :=
  let f := max 1 h.checkClock
  let r := feasSteps s f rs ss 0 0 {}
  match r.1.fail with
  | some x => some x
  | none => if h.runBound * f < r.2 then some (0xFFFFFFFF, ceilDiv r.2 f) else none

/-! ## Placing the weights (R209, R232, R399) -/

/-- Bytes of weights in T2 of the schedules that are loaded. -/
def weightsInT2 (s : State) : Nat :=
  (s.scheds.map fun (_, d) => if d.loaded then (weightsOf d.refs 2).length * 65536 else 0).foldl (· + ·) 0

/-- New tiles in T3, each with its T4 backing, and in T4. -/
def placeLower (owner source : Nat) : Nat → State → Option (List Nat × State)
  | 0, s => some ([], s)
  | n + 1, s =>
    let t := freeTile s
    match (withMapPage s t).bind fun s => takeT4 s fun _ => true with
    | none => none
    | some (u, s) =>
      let e : Option TileEntry :=
        if source = 4 then some { tier := 4, location := t4Loc u, owner := owner, kind := .weights }
        else (placeT3 s [] t).map fun l =>
          { tier := 3, location := l, backed := true, backing := t4Loc u, owner := owner, kind := .weights }
      match e with
      | none => none
      | some e =>
        match placeLower owner source n (setTile (queueT4 s [u]) t e) with
        | none => none
        | some (ts, s) => some (t :: ts, s)

/-- Places every weight tile in the tier that its references name, or none of them (DEDUCED, log entry 99). -/
def placeWeights (s : State) (i : Nat) (rs : List TileRef) : Option (List Nat × State) :=
  let n2 := (weightsOf rs 2).length
  let n3 := (weightsOf rs 3).length
  let n4 := (weightsOf rs 4).length
  if 96 * 2 ^ 30 < weightsInT2 s + n2 * 65536 then none
  else if n3 + n4 != 0 && !t4Grants s (n3 + n4) then none
  else match addTiles n2 s i .weights with
    | none => none
    | some (a, s) => match placeLower i 3 n3 s with
      | none => none
      | some (b, s) => (placeLower i 4 n4 s).map fun (c, s) => (a ++ b ++ c, s)

/-! ## SCHEDULE_LOAD (R209, R234, R541) -/

/-- The members that a load names. -/
def loadMembers (x : Cmd) : List Nat :=
  (List.range (ef x.entry 0x28 2)).map fun i => field x.input (ef x.entry 0x30 8 + 2 * i) 2

/-- Route hops to a device. -/
def hopsTo (s : State) (d : Nat) : Nat :=
  if d = s.net.deviceNumber then 0 else ((Tab.get? s.net.routes d).map (·.hops)).getD 0xFFFF

/-- What is wrong with the members of a load: their number and place, devices outside the installation, or beyond 3 hops (R234, R525,
R541). -/
def membersFail (s : State) (x : Cmd) (h : SchedHeader) : Option Failure :=
  let n := ef x.entry 0x28 2
  let ms := loadMembers x
  firstFailure
    [(n == (if h.sliced then h.sliceCount else 0), { status := .invalidField, off := 0x28, value := n }),
     (decide (ef x.entry 0x30 8 + 2 * n ≤ x.input.length), { status := .invalidField, off := 0x30, value := ef x.entry 0x30 8 }),
     (!h.sliced || s.net.joined && ms.all (isMember s), { status := .notMember, off := 0x30, value := n }),
     (!h.sliced || ms[h.sliceIndex]? == some s.net.deviceNumber, { status := .invalidField, off := 0x30, value := h.sliceIndex }),
     (!h.sliced || ms.all fun d => decide (hopsTo s d ≤ 3), { status := .invalidField, off := 0x30, value := n })]

/-- The checks of R209 before the weights are placed. -/
def loadFails (s : State) (x : Cmd) (h : SchedHeader) (ss : List StepRec) (rs : List TileRef) : Option Failure :=
  let bad (ok : Bool) : Bool × Failure := (ok, { status := .invalidField, off := 8, value := 0 })
  (firstFailure
    [bad (imageOk x.input h), bad (rangesCover ss 0 h.tileCount), bad (sourcesAgree h rs), bad (opsOk ss), bad (int4Ok ss),
     bad (peersOk h ss rs)]).or (membersFail s x h)

/-- The lowest schedule slot that is free (R205). -/
def freeSched (s : State) : Option Nat := Tab.firstNat (fun i => !(s.sched i).loaded) 0 256

/-- Sends the weight tiles that lie in T3 to their lenders, 2,048 bytes a packet (R209, R576). -/
def sendWeights (s : State) (d : Sched) : State :=
  (d.weightTiles.zip (weightObjs d)).foldl (fun s (t, o) =>
    let e := s.tile t
    if e.tier = 3 then
      let b := (d.image.drop (d.header.weightOffset + o * 65536)).take 65536
      ((chunks 2048 b).zipIdx).foldl (fun s (x, i) => peerWrite s (e.location / 2 ^ 23) (e.location % 2 ^ 23 * 65536 + i * 2048) x (.weight t)) s
    else s) s

/-- A schedule whose weights have their tiles in state t: infeasible, or loaded under the next generation of its slot and measured. -/
def finishLoad (s t : State) (n : Nat) (x : Cmd) (h : SchedHeader) (ss : List StepRec) (rs : List TileRef) (i : Nat) (ts : List Nat) : State :=
  match infeasible s h ss rs with
  | some (i, ns) => decide_ s n { status := .scheduleInfeasible, dw2 := i, dw3 := ns } [] 1 { kind := 0, loc := 0x08, detail := i }
  | none =>
    let gen := nextGen (s.sched i).gen
    let d : Sched :=
      { gen := gen, loaded := true, header := h, steps := ss, refs := rs, image := x.input
        members := if h.sliced then loadMembers x else [], weightTiles := ts }
    let handle := handleOf gen i
    succeed (sendWeights (extendMeas { t with scheds := Tab.set t.scheds i d } 4 4 handle.toNat (Config.sha384 (x.input.take 256))) d) n
      { dw2 := handle.toNat }

/-- A command that fails a check ends with it; else it goes on. -/
def failOr (s : State) (n : Nat) (f : Option Failure) (goesOn : State) : State :=
  match f with
  | some f => failCheck s n f
  | none => goesOn

/-- A schedule whose image has been read: its checks, a slot, and places for its weights. -/
def loadParsed (s : State) (n : Nat) (x : Cmd) (h : SchedHeader) (ss : List StepRec) (rs : List TileRef) : State :=
  failOr s n (loadFails s x h ss rs)
    (match freeSched s with
    | none => refuse s n .noSpace 0x08 256
    | some i =>
      match placeWeights s i rs with
      | none => refuse s n .noSpace 0x08 h.weightBytes
      | some (ts, t) => finishLoad s t n x h ss rs i ts)

/-- The checks of R209 in their order, then the next free index; with none free the status is NO_SPACE (R205; DEDUCED, log entry 100). -/
def scheduleLoadEffect (s : State) (n : Nat) : State :=
  withCmd s n fun x =>
    let h := readHeader x.input
    let ss := if headerOk x.input h then readSteps x.input h else []
    let rs := if headerOk x.input h then readRefs x.input h else []
    loadParsed s n x h ss rs

/-- SCHEDULE_LOAD. -/
def execScheduleLoad (src : AdminSrc) (s : State) : Host.Outcome State Fault Refusal := adminRow 0x98 scheduleLoadEffect src s

/-! ## SCHEDULE_UNLOAD (R223) -/

/-- A collection is bound to a schedule. -/
def schedBound (s : State) (h : BitVec 32) : Bool := s.colls.any fun (_, c) => c.embed == h || c.cross == h

/-- A schedule that is bound, or whose release waits already, is busy (R223; DEDUCED, log entry 73); else it goes when its last use ends. -/
def scheduleUnloadEffect (s : State) (n : Nat) : State :=
  withCmd s n fun x =>
    let v := ef x.entry 0x28 4
    let h := BitVec.ofNat 32 v
    match schedOf s h with
    | none => refuse s n .invalidField 0x28 v
    | some i =>
      if schedBound s h || (s.sched i).unloadCmd.isSome || (s.sched i).going then refuse s n .objectBusy 0x28 v
      else
        settleUnload (s.modSched i fun d => { d with unloadCmd := some n }) i

/-- SCHEDULE_UNLOAD. -/
def execScheduleUnload (src : AdminSrc) (s : State) : Host.Outcome State Fault Refusal := adminRow 0x99 scheduleUnloadEffect src s

/-! ## SCHEDULE_BIND (R222) -/

/-- A handle names no schedule, or a loaded schedule of a KIND; one that is to go, whose release still waits, is no schedule to bind
(DESIGN CHOICE, log entry 156: the manual does not say). -/
def bindOk (s : State) (h : BitVec 32) (kind : Nat) : Bool :=
  h == 0 || (match schedOf s h with
    | some i => (s.sched i).header.kind == kind && (s.sched i).unloadCmd.isNone && !(s.sched i).going
    | none => false)

def scheduleBindEffect (s : State) (n : Nat) : State :=
  withCmd s n fun x =>
    let i := eIndex x.entry
    match s.coll? i with
    | none => refuse s n .noCollection 4 (eHandle x.entry)
    | some c =>
      if eHandle x.entry != (handleOf c.gen i).toNat then refuse s n .noCollection 4 (eHandle x.entry)
      else
        let embed := BitVec.ofNat 32 (ef x.entry 0x28 4)
        let cross := BitVec.ofNat 32 (ef x.entry 0x2C 4)
        let keep := bitOf (ef x.entry 0x30 1) 0
        let dimOk := match schedOf s embed with | some d => (s.sched d).header.outDim == c.attrs.dim | none => true
        match firstFailure
          [(bindOk s embed 1 && dimOk, { status := .invalidField, off := 0x28, value := embed.toNat }),
           (bindOk s cross 2, { status := .invalidField, off := 0x2C, value := cross.toNat }),
           (!(keep && cross == 0), { status := .invalidField, off := 0x30, value := ef x.entry 0x30 1 })] with
        | some f => failCheck s n f
        | none => succeed (s.modColl i fun c => { c with embed := embed, cross := cross, keepTokens := keep }) n {}

/-- SCHEDULE_BIND. -/
def execScheduleBind (src : AdminSrc) (s : State) : Host.Outcome State Fault Refusal := adminRow 0x9A scheduleBindEffect src s

end Sys2Proof.Machine
end

