-- ==== Sys2Proof/Machine/Collections.lean ====
section
/-! DEFINITION. Creating, changing and deleting collections (R46 to R51, R536 to R539, R569), and the three maintenance commands with
their cutover (R190 to R195, R540). -/

namespace Sys2Proof.Machine

open Sys2Proof

/-! ## COLLECTION_CREATE (R537, R569) -/

/-- The template of a record, and whether it may serve the attributes (R51): a SHARED collection with a codebook of its own that
matches. -/
def templateOf (s : State) (a : Attrs) : Option (Nat × Collection) := collOf s a.codebookSource.toNat

/-- CODEBOOK_SOURCE is zero, or a template that matches (R51; DEDUCED, log entry 57). -/
def templateOk (s : State) (a : Attrs) : Bool :=
  a.codebookSource == 0 || (match templateOf s a with
    | some (_, t) => !t.attrs.session && t.attrs.codebookSource == 0 && t.attrs.metric == a.metric && t.attrs.dim == a.dim
        && t.attrs.codeBits == a.codeBits && t.attrs.codeBytes == a.codeBytes && t.attrs.residual == a.residual
        && t.attrs.listCount == a.listCount
    | none => false)

/-- Whether a template has maintenance in progress (R195). -/
def templateBusy (s : State) (a : Attrs) : Bool :=
  a.codebookSource != 0 && (match templateOf s a with | some (_, t) => t.maint.isSome | none => false)

/-- The member list of a record, none where it lies outside the input (R536). -/
def recordMembers (l : List Byte) : Option (List Nat) :=
  let n := field l 0x30 2
  if n = 0 then some []
  else if within l (field l 0x48 8) (2 * n) then some ((List.range n).map fun k => field l (field l 0x48 8 + 2 * k) 2)
  else none

/-- Whether the codebook and the centroids lie in the input, or the two offsets are zero beside a template (R536, R537). -/
def booksIn (l : List Byte) (a : Attrs) : Bool :=
  if a.codebookSource = 0 then within l (field l 0x38 8) (2 * bookElems a) && within l (field l 0x40 8) (2 * a.listCount * dpad a)
  else field l 0x38 8 == 0 && field l 0x40 8 == 0

/-- The checks of a creation on this device (R50, R51, R195, R536, R537). An explicit RETAIN_FLOOR other than 0, the published epoch of a new
collection, is refused as COLLECTION_SET would refuse it (DEDUCED, log entry 138). -/
def createFails (s : State) (l : List Byte) : Option Failure :=
  let bad : Failure := { status := .invalidField, off := 0x08, value := 0 }
  if !recordReserved (l.take 128) then some bad
  else match readAttrs (l.take 128), recordMembers l with
    | some a, some ms =>
      firstFailure
        [(a.retainFloor.all (· == 0), bad), (decide (ms.length ≤ 2048), bad), (booksIn l a, bad), (templateOk s a, bad),
         (!templateBusy s a, { status := .collectionBusy, off := 0x20, value := a.codebookSource.toNat }),
         (ms.isEmpty || ms.contains s.net.deviceNumber, bad),
         (ms.isEmpty || (s.net.joined && ms.all (isMember s)), { status := .notMember, off := 0x30, value := ms.length })]
    | _, _ => some bad

/-- A new collection in slot i with its space in T2 (R46, R47, R82, R186, R674), none where the space is missing. The ceilings are
recorded before the command completes, but on a device whose T4 is ABSENT nothing is. -/
def createColl (s : State) (i gen : Nat) (a : Attrs) (ms : List Nat) (l : List Byte) : Option State :=
  match takePages s (stagePages a) 16 with
  | none => none
  | some (p, s) =>
    match addTiles (bookTiles a) s i .index with
    | none => none
    | some (ts, s) =>
      let own := a.codebookSource == 0
      let absent := s.flash.state == .absent
      -- its books go by its template's generation, of which its own CODEBOOK_GEN, 1 at creation, counts on (R75)
      let cbGen := if own then 1 else ((templateOf s a).map fun (_, t) => t.cbGen).getD 1
      let dir : DirVersion := { number := 1, segs := [], limits := [], cbGen := cbGen, listCount := a.listCount, fromEpoch := 0 }
      let top := if absent then 2 ^ 64 - 1 else 2 ^ 32
      let c : Collection :=
        { gen := gen, attrs := a, members := ms, cbGen := cbGen
          codebook := if own then readB16 l (field l 0x38 8) (bookElems a) else []
          centroids := if own then readB16 l (field l 0x40 8) (a.listCount * dpad a) else []
          dirs := [dir], stage := some (p, stagePages a), indexTiles := ts, bookBase := cbGen - 1
          ceiling := top, durableCeiling := top, idCeiling := if absent then 2 ^ 34 else 2 ^ 20 }
      some { s with colls := Tab.set s.colls i c, gens := Tab.set s.gens i gen }

/-- The lowest INDEX that is free here and that every answer reports free (R46, R569) (DEDUCED, log entry 56). -/
def freeIndex (s : State) (replies : List MemberReply) : Option Nat :=
  (List.range 65536).find? fun i => !Tab.has s.colls i && replies.all fun r => r.freeIdx.contains i

/-- The bytes of an entry with another handle. -/
def withHandle (e : BitVec 1024) (h : Nat) : List Byte := patch (leBytes 128 e.toNat) 4 (leBytes 4 h)

/-- Sends an admin command and its data to devices; a member that no route reaches gets it on its return (R562, R570). -/
def sendFan (s : State) (ds : List Nat) (bytes : List Byte) : State :=
  ds.foldl (fun s d =>
    if Tab.has s.net.routes d then sendData s 0x29 d 0 bytes else s.modNet fun x => { x with owed := x.owed ++ [(d, bytes)] }) s

/-- What the members answered in phase 1: every other member answers once; the first refusal decides (R569) (DEDUCED, log entry 59). -/
def fanRefusal (replies : List MemberReply) : Option Status := replies.findSome? (·.refusal)

def createEffect (s : State) (n : Nat) : State :=
  withCmd s n fun x =>
    match createFails s x.input with
    | some f => failCheck s n f
    | none =>
      match readAttrs (x.input.take 128), recordMembers x.input with
      | some a, some ms =>
        match fanRefusal x.work.replies with
        | some st => refuse s n st 0x30 ms.length
        | none =>
          match freeIndex s x.work.replies with
          | none => refuse s n .noSpace 0x08 65536
          | some i =>
            let gen := nextGen (Tab.getD s.gens i 0)
            match createColl s i gen a ms x.input with
            | none => refuse s n .noSpace 0x08 0
            | some s =>
              let h := (handleOf gen i).toNat
              let s := sendFan s (ms.filter (· != s.net.deviceNumber)) (withHandle x.entry h ++ x.input)
              succeed s n { dw2 := h }
      | _, _ => s

/-- The answers are those of the members the record names, each once. -/
def repliesOk (s : State) (l : List Byte) (replies : List MemberReply) : Bool :=
  let ms := ((recordMembers l).getD []).filter (· != s.net.deviceNumber)
  (createFails s l).isSome || replies.map (·.device) == ms

/-- Starts a creation with the members' answers. -/
def startCreate (replies : List MemberReply) (s : State) (n : Nat) : State :=
  startAdmin createEffect (s.modWork n fun w => { w with replies := replies }) n

/-- The bytes of the input that an admin source brings. -/
def sourceInput (s : State) : AdminSrc → List Byte
  | .queue _ e inp => (inputOf s e inp).getD []
  | .mailbox p m inp => (requestInput s p (s.mailbox p m).buf (s.mailbox p m).reqLen inp).getD []
  | .sideband => []

/-- COLLECTION_CREATE, with the members' answers of phase 1. -/
def execCollectionCreate (src : AdminSrc) (replies : List MemberReply) (s : State) : Host.Outcome State Fault Refusal :=
  if repliesOk s (sourceInput s src) replies then adminRowBy 0x90 (startCreate replies) src s else occurs false s s

/-! ## COLLECTION_SET (R538) -/

/-- The named attributes of a record put over a's: none where one of them is outside its range (R50). -/
def setAttrs (a : Attrs) (l : List Byte) (mask : Nat) : Option Attrs :=
  let has := bitOf mask
  let sp := spillModeOf (field l 9 1)
  let th := field l 0x0B 1
  let margin : F32 := BitVec.ofNat 32 (field l 0x14 4)
  let lim := field l 0x18 8
  let st := field l 0x24 4
  if (!has 0 || sp.isSome) && (!has 1 || (decide (50 ≤ th) && decide (th ≤ 95) && aligned th 5)) && (!has 2 || marginOk margin)
      && (!has 3 || !a.hostIds || (decide (a.localLimit ≤ lim) && decide (lim ≤ 2 ^ 34)))
      && (!has 4 || (decide (1 ≤ st) && decide (st ≤ 1024))) then
    some { a with
      spillMode := if has 0 then sp.getD a.spillMode else a.spillMode
      compactThreshold := if has 1 then th else a.compactThreshold
      spillMargin := if has 2 then margin else a.spillMargin
      localLimit := if has 3 ∧ a.hostIds then lim else a.localLimit
      stagingMiB := if has 4 then st else a.stagingMiB
      retainFloor := if has 5 then (if field l 0x28 8 = 2 ^ 64 - 1 then none else some (field l 0x28 8)) else a.retainFloor }
  else none

/-- An explicit floor below the current floor or above the published epoch is refused (R90). -/
def floorOk (s : State) (i : Nat) (c : Collection) (l : List Byte) (mask : Nat) : Bool :=
  !bitOf mask 5 || field l 0x28 8 == 2 ^ 64 - 1
    || (decide (retainFloor s i c ≤ field l 0x28 8) && decide (field l 0x28 8 ≤ c.published))

/-- The staging buffer of a resident collection takes its new size; none where T2 has no room. -/
def resizeStage (s : State) (i : Nat) (a : Attrs) : Option State :=
  match (s.coll? i).bind (·.stage) with
  | some (_, k) =>
    if k = stagePages a then some s
    else (takePages (dropStage s i) (stagePages a) 16).map fun (p, s) => s.modColl i fun c => { c with stage := some (p, stagePages a) }
  | none => some s

/-- The settings on one device: the new attributes are in force from the next commit (DEDUCED, log entry 54). -/
def applySet (s : State) (i : Nat) (a : Attrs) : Option State :=
  (resizeStage s i a).map fun s => s.modColl i fun c => { c with newAttrs := some a }

def setEffect (s : State) (n : Nat) : State :=
  withCmd s n fun x =>
    let l := x.input
    let mask := eSetMask x.entry
    match collOf s (eHandle x.entry) with
    | none => refuse s n .noCollection 4 (eHandle x.entry)
    | some (i, c) =>
      let was := c.newAttrs.getD c.attrs
      if mask ≥ 64 then refuse s n .invalidField 0x28 mask
      else if !recordReserved (l.take 128) || !floorOk s i c l mask then refuse s n .invalidField 0x08 0
      else match setAttrs was l mask with
        | none => refuse s n .invalidField 0x08 0
        | some a =>
          if a.stagingMiB ≠ was.stagingMiB ∧ !c.staging.isEmpty then refuse s n .collectionBusy 0x08 a.stagingMiB
          else match applySet s i a with
            | none => refuse s n .noSpace 0x08 a.stagingMiB
            | some s => succeed (sendFan s (others s c) (withHandle x.entry (eHandle x.entry) ++ l)) n {}

/-- COLLECTION_SET. -/
def execCollectionSet (src : AdminSrc) (s : State) : Host.Outcome State Fault Refusal := adminRow 0x91 setEffect src s

/-! ## COLLECTION_DELETE (R539) -/

/-- Gives back everything a collection holds in every tier and frees its slot. -/
def releaseColl (s : State) (i : Nat) : State :=
  match s.coll? i with
  | none => s
  | some c =>
    let s := dropStage (dropTiles s (collTiles c)) i
    let images := [c.image, c.pendingImage].filterMap id
    let s := (images.flatMap fun (g : Image) => g.tiles ++ g.mirrors).eraseDups.foldl freeT4 s
    { s with colls := Tab.erase s.colls i }

/-- A collection that is being deleted goes once no admitted command of it is left, and the COLLECTION_DELETE completes. -/
def settleDeleted (s : State) (i : Nat) : State :=
  match s.coll? i with
  | none => s
  | some c =>
    match c.deleting with
    | none => s
    | some n =>
      if s.cmds.any fun (m, x) => m != n && x.stage == .admitted && onColl i x then s
      else succeed (releaseColl s i) n {}

def settleAllDeleted (s : State) : State := (Tab.keys s.colls).foldl settleDeleted s

/-- What only commands without a completion of their own held is released (R79, R118, R223, R477). -/
def settleIdle (s : State) : State := settleUnloads ((Tab.keys s.colls).foldl gcColl s)

/-- A template loses a collection that references it, so its maintenance does not wait for that cutover any longer. -/
def leaveMaint (s : State) (i : Nat) : State :=
  { s with colls := Tab.map s.colls fun c => { c with maint := c.maint.map fun m => { m with waits := m.waits.filter (· != i) } } }

/-- The handle is stale at once: waiting commands end with NO_COLLECTION, maintenance ends, admitted commands run on
(DEDUCED, log entry 55) (DEDUCED, log entry 60). -/
def beginDelete (s : State) (i n : Nat) : State :=
  let s := endWake s i .noCollection {}
  let s := match (s.coll? i).bind (·.maint) with | some m => fail (dropMaint s i) m.cmd .aborted {} | none => s
  let s := (leaveMaint s i).modColl i fun c => { c with deleting := some n }
  let waiting := (s.cmds.filter fun (m, x) => m != n && x.stage == .waiting && onColl i x).map (·.1)
  settleDeleted (failAll s waiting .noCollection {}) i

/-- Whether a collection references the template (R51). -/
def referenced (s : State) (i : Nat) (c : Collection) : Bool :=
  s.colls.any fun (_, y) => y.attrs.codebookSource != 0 && y.attrs.codebookSource == handleOf c.gen i

def collDeleteEffect (s : State) (n : Nat) : State :=
  withCmd s n fun x =>
    match collOf s (eHandle x.entry) with
    | none => refuse s n .noCollection 4 (eHandle x.entry)
    | some (i, c) =>
      if referenced s i c then refuse s n .collectionBusy 4 (eHandle x.entry)
      else beginDelete (sendFan s (others s c) (leBytes 128 x.entry.toNat)) i n

/-- COLLECTION_DELETE. -/
def execCollectionDelete (src : AdminSrc) (s : State) : Host.Outcome State Fault Refusal := adminRow 0x92 collDeleteEffect src s

/-! ## Maintenance commands (R190 to R195, R540) -/

/-- The work of a maintenance command as its input gives it: kind, codebook, centroids, generation, LIST_COUNT; none where the input is
too short, the list is none of the collection's, or LIST_COUNT would pass its limit. -/
def readMaint (x : Cmd) (c : Collection) : Option Maint :=
  let a := c.attrs
  let len := x.input.length
  let m : Maint :=
    { cmd := 0, kind := .retrain, codebook := c.codebook, centroids := c.centroids, gen := c.cbGen, listCount := a.listCount
      tiles := [], waits := [] }
  match eOpcode x.entry with
  | 0x93 => if 2 * bookElems a ≤ len then some { m with codebook := readB16 x.input 0 (bookElems a), gen := nextGen c.cbGen } else none
  | 0x94 =>
    if 2 * (bookElems a + a.listCount * dpad a) ≤ len then
      some { m with
        kind := .rebuild, codebook := readB16 x.input 0 (bookElems a), gen := nextGen c.cbGen
        centroids := readB16 x.input (2 * bookElems a) (a.listCount * dpad a) }
    else none
  | _ =>
    let l := ef x.entry 0x28 4
    let d := dpad a
    if l < a.listCount ∧ a.listCount < 1048576 ∧ 4 * d ≤ len then
      some { m with
        kind := .split l, listCount := a.listCount + 1
        centroids := c.centroids.take (l * d) ++ readB16 x.input 0 d ++ c.centroids.drop ((l + 1) * d) ++ readB16 x.input (2 * d) d }
    else none

/-- Tiles of shadow space that one collection needs: as many segments as it has in the affected lists and one more for each list. -/
def shadowNeed (c : Collection) (m : Maint) : Nat :=
  let v := latestDir c
  ((shadowLists m v.listCount).map fun l => (listSegs v l).length + 1).foldl (· + ·) 1

/-- The collections that reference a template. -/
def referencing (s : State) (i : Nat) (c : Collection) : List Nat :=
  (s.colls.filter fun (_, y) => y.attrs.codebookSource != 0 && y.attrs.codebookSource == handleOf c.gen i && y.deleting.isNone).map (·.1)

/-- A command of the firmware's own on a collection: WAKE, or PARK to a tier (R195). -/
def ownCommand (s : State) (i op cls : Nat) (target : Nat) : State :=
  let h := (collHandle s i).toNat
  addCmd s
    { origin := .firmware, entry := BitVec.ofNat 1024 (op + cls * 2 ^ 8 + h * 2 ^ 32 + target * 8 * 2 ^ 320), input := []
      stage := .admitted }

/-- Wakes a parked collection at the class of its template's maintenance, and keeps the tier it is to return to. -/
def wakeForMaint (s : State) (cls j : Nat) : State :=
  match s.coll? j with
  | none => s
  | some c =>
    if c.residency = .resident then s
    else
      let n := s.nextCmd
      let s := s.modColl j fun y => { y with repark := if c.residency = .waking then y.repark else some (parkedTier s c) }
      wakeCommand (ownCommand s j 0x0A cls 0) n j c

/-- A maintenance command at its admission: it reserves its shadow space as one unit, pins the INDEX and starts the shadow, on a template
also on every collection that references it. -/
def maintEffect (s : State) (n : Nat) : State :=
  withCmd s n fun x =>
    match collOf s (eHandle x.entry) with
    | none => refuse s n .noCollection 4 (eHandle x.entry)
    | some (i, c) =>
      if c.attrs.codebookSource ≠ 0 then refuse s n .invalidField 4 (eHandle x.entry)
      else if c.maint.isSome then refuse s n .collectionBusy 4 (eHandle x.entry)
      else match readMaint x c with
        | none => refuse s n .invalidField 0x28 (ef x.entry 0x28 4)
        | some m =>
          if !inT2 c && c.residency != .waking && !c.attrs.session then refuse s n .collectionParked 4 (eHandle x.entry)
          else
            let refs := referencing s i c
            let need := shadowNeed c m + (refs.map fun j => match s.coll? j with | some y => shadowNeed y m | none => 0).foldl (· + ·) 0
            match addTiles need s i .index with
            | none => refuse s n .noSpace 0x28 need
            | some (ts, t) =>
              let t := refs.foldl (fun t j => wakeForMaint t (eClass x.entry) j) t
              if refs.any fun j => match t.coll? j with | some y => !inT2 y && y.residency != .waking | none => false then
                refuse (dropTiles t ts) n .noSpace 0x28 need
              else
                let t := t.modColl i fun y => { y with
                  maint := some { m with cmd := n, tiles := ts, waits := refs }
                  oldBooks := Tab.set y.oldBooks (bookKey m.gen m.listCount) (m.codebook, m.centroids) }
                if inT2 c then takePins t n i [.index] else startWake t n i c

/-- COLLECTION_RETRAIN (DEDUCED, log entry 58). -/
def execCollectionRetrain (src : AdminSrc) (s : State) : Host.Outcome State Fault Refusal := adminRow 0x93 maintEffect src s

/-- COLLECTION_REBUILD. -/
def execCollectionRebuild (src : AdminSrc) (s : State) : Host.Outcome State Fault Refusal := adminRow 0x94 maintEffect src s

/-- LIST_SPLIT. -/
def execListSplit (src : AdminSrc) (s : State) : Host.Outcome State Fault Refusal := adminRow 0x95 maintEffect src s

/-! ## CUTOVER (R193) -/

/-- Where the shadow stands once placed: its lists with their tiles. -/
def cutColl (c : Collection) (m : Maint) (v : DirVersion) (e : Nat) (own : Bool) (placed : List (Nat × List Nat)) : Collection :=
  let gone := (shadowLists m v.listCount).flatMap fun l => listSegs v l
  let new := slotsWith c (placed.flatMap (·.2))
  let last (us : List Nat) : Nat := ((us.getLast?.bind (Tab.get? c.segs ·)).map (·.recs.length)).getD 0
  let w : DirVersion := { v with
    number := v.number + 1, cbGen := m.gen, listCount := m.listCount, fromEpoch := e
    segs := placed.foldl (fun t (l, us) => Tab.set t l us) v.segs
    limits := placed.foldl (fun t (l, us) => Tab.set t l (last us)) v.limits }
  let c := { c with
    dirs := c.dirs ++ [w], published := e, prepared := [], attrs := { c.attrs with listCount := m.listCount }
    idMap := c.idMap.map fun (k, x) => (k, moveSlots gone new (BitVec.ofNat 48 k) x.ins x) }
  let c := match m.kind with
    | .retrain => c
    | _ => placed.foldl (fun (c : Collection) (l, us) =>
        let n := (us.map fun t => ((Tab.get? c.segs t).map (·.recs.length)).getD 0).foldl (· + ·) 0
        { c with sizeLogs := Tab.modify c.sizeLogs l [] fun h => h ++ [(e, n)] }) c
  if own then { c with
    oldBooks := Tab.set (Tab.erase c.oldBooks (bookKey m.gen m.listCount)) (bookKey v.cbGen v.listCount) (c.codebook, c.centroids)
    codebook := m.codebook, centroids := m.centroids, cbGen := m.gen, maint := none }
  else c

/-- The cutover of slot i at epoch e: the staged copies are appended to the old lists, the shadow is built from them in this one step (DESIGN CHOICE, log
entry 12), and the commit publishes it (R193). The answer names the command that then completes. None when T2 has no room. -/
def cutoverAt (s : State) (i e : Nat) : Option (State × Option Nat) :=
  match appendEvery (s.modColl i applyAttrs) i with
  | none => none
  | some s =>
    match s.coll? i with
    | none => none
    | some c =>
      match maintOf s i c with
      | none => none
      | some (t, m) =>
        let own := t == i
        let v := latestDir c
        let (book, cents) := bookOf s c v.cbGen v.listCount
        let copies := shadowCopies c book cents v m
        let lists := match m.kind with | .split l => [l, m.listCount - 1] | _ => List.range m.listCount
        let share := if own then m.tiles else m.tiles.take (shadowNeed c m)
        match placeShadow i m.gen (slotCount c.attrs) copies lists (dropTiles s share) with
        | none => none
        | some (s, placed) =>
          let s := s.modColl i fun c => cutColl c m v e own placed
          let s := if own then s
            else s.modColl t fun x => { x with
              maint := some { m with waits := m.waits.filter (· != i), tiles := m.tiles.drop share.length } }
          (growIndex s i).map fun s => (gcColl (sendBeacons s i) i, if own then some m.cmd else none)

/-- A collection that was parked before its template's maintenance is parked again to the tier it came from (R195)
(DESIGN CHOICE, log entry 61). -/
def parkAgain (s : State) (i : Nat) : State :=
  match s.coll? i with
  | none => s
  | some c =>
    match c.repark with
    | none => s
    | some tier =>
      let n := s.nextCmd
      let s := ownCommand (s.modColl i fun y => { y with repark := none }) i 0x09 3 tier
      match s.coll? i, s.cmd? n with
      | some c, some x => startPark s n i c x
      | _, _ => s

/-- A cutover may take place: the collection lies in T2 with no tile lost (R631), its commit word is free, its epoch is below the ceiling, and a template cuts
over after every collection that references it (R194, R195). -/
def cutoverReady (s : State) (i : Nat) : Bool :=
  match s.coll? i with
  | none => false
  | some c =>
    match maintOf s i c with
    | none => false
    | some (t, m) =>
      inT2 c && !c.restoring && !c.commitWord && c.remote.isNone && !anyLost s (collTiles c)
        && (!isHome s c || c.published + 1 == lastEpoch || decide (c.published + 1 < c.ceiling))
        && (t != i || m.waits.isEmpty) && (match s.cmd? m.cmd with | some x => x.word != .ending | none => true)

/-- The number under which a cutover goes through the epoch home, which no commit group has. -/
def cutoverGroup : Nat := 2 ^ 64

/-- A cutover whose epoch would be the last ends its maintenance command with EPOCH_EXHAUSTED, before any wait on the ceiling (R82, R193). -/
def cutoverExhausted (s : State) (i : Nat) : State :=
  match (s.coll? i).bind fun c => maintOf s i c with
  | some (t, m) => fail (dropMaint s t) m.cmd .epochExhausted {}
  | none => s

/-- CUTOVER: here, or, where another member is the epoch home, by first acquiring its word (R570). -/
def cutoverEffect (s : State) (i : Nat) : State :=
  match s.coll? i with
  | none => s
  | some c =>
    if isHome s c && c.published + 1 == lastEpoch then cutoverExhausted s i
    else if isHome s c then
      match cutoverAt s i (c.published + 1) with
      | some (s, some n) => succeed s n { epoch := c.published + 1 }
      | some (s, none) => parkAgain s i
      | none => s
    else acquireHome (s.modColl i fun c => { c with remote := some { group := cutoverGroup, phase := 0, done := [] } }) i

def execCutover (coll : Nat) (s : State) : Host.Outcome State Fault Refusal :=
  occurs (live s && awake s && cutoverReady s coll) (cutoverEffect s coll) s

/-! ## Commits through the epoch home (R570) -/

/-- The writes of the commit that holds the epoch home's word, at epoch e, with the completions that wait for its publication; none where it cannot
take place: its maintenance has ended, or T2 has no room. -/
def remoteWrites (s : State) (i g e : Nat) : Option (State × List (Nat × Completion × List Byte)) :=
  if g = cutoverGroup then
    match cutoverAt s i e with
    | some (s, some n) => some (s, [(n, { epoch := e }, [])])
    | some (s, none) => some (parkAgain s i, [])
    | none => none
  else performGroup s i g e

/-- Releases the epoch home's word. -/
def releaseHome (s : State) (i : Nat) (r : RemoteCommit) : State :=
  homeRequest (s.modColl i fun c => { c with remote := some { r with phase := 3, done := [] } }) i (.commit i) 0x02 8 8 (leBytes 8 0)

/-- The state word of the command that a cutover through the epoch home completes (R194). -/
def markCutover (s : State) (i g : Nat) (w : CmdWord) : State :=
  if g = cutoverGroup then
    match (s.coll? i).bind fun c => maintOf s i c with
    | some (t, m) => if t = i then s.modCmd m.cmd fun x => { x with word := if x.word = .ending then x.word else w } else s
    | none => s
  else s

/-- A commit that would reach the last epoch: its commands end with EPOCH_EXHAUSTED (R82, R172). -/
def remoteExhausted (s : State) (i g : Nat) : State :=
  if g = cutoverGroup then cutoverExhausted s i
  else
    let ms := (((s.coll? i).bind fun c => Tab.get? c.groups g).map (·.members)).getD []
    let s := ms.foldl (fun s n => failItem s n .epochExhausted 0xFFFFFFFF) s
    groupGone (s.modColl i fun c => { c with groups := Tab.erase c.groups g }) i g

/-- The answer to a request of a commit through the epoch home (R570): the old word, the control line with PUBLISHED and CEILING, or an
acknowledgement. A word that was held is asked for again. A commit that must wait, on CEILING or for room, releases the word and waits holding
nothing (R172, R186). A compaction needs the word alone (R189). -/
def remoteAnswer (s : State) (i v : Nat) : State :=
  match s.coll? i with
  | none => s
  | some c =>
    match c.remote with
    | none => s
    | some r =>
      match r.phase with
      | 0 =>
        if v ≠ 0 then acquireHome s i
        else if compactGroup 0 ≤ r.group then releaseHome (compactEffect s i (r.group - compactGroup 0)) i r
        else homeRequest ((markCutover s i r.group .committing).modColl i fun c => { c with remote := some { r with phase := 1 } }) i
          (.commit i) 0x01 0 40 []
      | 1 =>
        let p := v % 2 ^ 64
        let ceiling := v / 2 ^ 256 % 2 ^ 64
        let s := s.modColl i fun c => { c with published := p }
        if p + 1 = lastEpoch then releaseHome (remoteExhausted s i r.group) i r
        else
          match (if p + 1 < ceiling then remoteWrites s i r.group (p + 1) else none) with
          | none => releaseHome (markCutover s i r.group .running) i r
          | some (s, done) =>
            let s := s.modColl i fun c => { c with remote := some { r with phase := 2, done := done } }
            match s.coll? i with
            | some c' => homeRequest s i (.commit i) 0x02 0 8 (leBytes 8 c'.published)
            | none => s
      | 2 => releaseHome (groupGone (deliverDone s r.done) i r.group) i r
      | _ => s.modColl i fun c => { c with remote := none }

end Sys2Proof.Machine
end

