-- ==== Sys2Proof/Machine/Firmware.lean ====
section
/-! DEFINITION. Firmware update (R543 to R547), image validity and rollback counters (R585 to R591), measurement and attestation (R594
to R602), and what resumes when an activation ends. -/

namespace Sys2Proof.Machine

open Sys2Proof

/-! ## FW_DOWNLOAD (R543) -/

def downloadEffect (s : State) (n : Nat) : State :=
  withCmd s n fun x =>
    let p := issuer x
    let off := ef x.entry 0x28 8
    let have_ := (s.port p).download
    if off = 0 then succeed (s.modPort p fun y => { y with download := x.input }) n {}
    else if off != have_.length || decide (2 ^ 26 < off + x.input.length) then refuse s n .fwSequence 0x28 off
    else succeed (s.modPort p fun y => { y with download := y.download ++ x.input }) n {}

/-- FW_DOWNLOAD. -/
def execFwDownload (src : AdminSrc) (s : State) : Host.Outcome State Fault Refusal := adminRow 0x88 downloadEffect src s

/-! ## Images (R586 to R588) -/

/-- VERSION of an image, and its major and its MAJOR.MINOR value. -/
def imageVersion (b : List Byte) : Nat := field b 8 4
def imageMajor (b : List Byte) : Nat := imageVersion b / 2 ^ 24
def imageMinor (b : List Byte) : Nat := imageVersion b / 2 ^ 16

/-- A key of the image is the unrevoked manifest entry at KEY_INDEX (R587). -/
def keyKnown (keys : List (BitVec 384 × Bool)) (i : Nat) (key : List Byte) : Bool :=
  match keys[i]? with
  | some (d, revoked) => !revoked && d == Config.sha384 key
  | none => false

/-- The items of R588 in order, each with whether it holds of an image for a slot. -/
def imageItems (s : State) (b : List Byte) (slot : Nat) : List Bool :=
  let x := s.security
  let head := b.take 0x100
  let edKey := slice b 0x100 32
  let mlKey := slice b 0x160 1952
  let idx := field b 0x0E 1
  let counter := counterValue (if slot = 0 then x.counter0 else x.counter1)
  [field b 0 4 == 0x4F44485A && field b 4 2 == 1 && field b 6 2 == 0 && field b 0x0F 1 == 0 && allZero (slice b 0x54 0xAC)
      && allZero (slice b 0x15ED 0xA13) && field b 0x10 8 == b.length && field b 0x10 8 == 0x2000 + field b 0x18 8
      && field b 0x18 8 % 4 == 0 && decide (field b 0x10 8 ≤ 2 ^ 26) && decide (field b 0x0C 2 ≤ imageMinor b) && decide (idx ≤ 3),
   bitOf (field b 0x50 4) Config.stepping.toNat,
   keyKnown x.edKeys idx edKey && keyKnown x.mldsaKeys idx mlKey,
   Config.edVerify edKey (slice b 0x120 64) head && Config.mldsaVerify mlKey (slice b 0x900 3309) head,
   digestBytes (Config.sha384 (b.drop 0x2000)) == slice b 0x20 48,
   decide (counter ≤ imageMinor b)]

/-- The number of the first item that fails, from 1; none where the image is valid. -/
def imageFails (s : State) (b : List Byte) (slot : Nat) : Option Nat :=
  (((imageItems s b slot).zipIdx.find? fun (x : Bool × Nat) => !x.1)).map fun x => x.2 + 1

/-! ## FW_COMMIT (R544, R585) -/

/-- The image in a slot. -/
def slotImage (s : State) (slot : Nat) : Option (List Byte) := if slot = 0 then s.security.slot0 else s.security.slot1

/-- Selects a slot: the record with the lower SEQUENCE takes the higher one plus 1; one that is not valid is written first (DEDUCED, log entry 37). -/
def selectSlot (s : State) (slot : Nat) : State :=
  s.modSec fun x =>
    let top := max (if x.recA.valid then x.recA.seq else 0) (if x.recB.valid then x.recB.seq else 0)
    let r : BootRecord := { seq := top + 1, selected := slot, valid := true }
    if !x.recA.valid || (x.recB.valid && decide (x.recA.seq < x.recB.seq)) then { x with recA := r } else { x with recB := r }

/-- No complete image is in a download buffer: the header, or a part of the length that it names, is missing (DEDUCED, log entry 38). -/
def noImage (b : List Byte) : Bool :=
  decide (b.length < 0x2000) || (decide (field b 0x10 8 ≤ 2 ^ 26) && decide (b.length < field b 0x10 8))

def commitFwEffect (s : State) (n : Nat) : State :=
  withCmd s n fun x =>
    let slot := eSlot x.entry
    let b := (s.port (issuer x)).download
    if s.security.active == some slot then refuse s n .invalidField 0x28 slot
    else if noImage b then refuse s n .fwNoImage 0x28 slot
    else match imageFails s b slot with
      | some 6 => refuse s n .fwRollback 0x28 6
      | some k => refuse s n .fwImageInvalid 0x28 k
      | none =>
        let s := s.modSec fun y => if slot = 0 then { y with slot0 := some b } else { y with slot1 := some b }
        let s := if eSlotFlag x.entry then selectSlot s slot else s
        succeed s n { dw2 := imageVersion b }

/-- FW_COMMIT. -/
def execFwCommit (src : AdminSrc) (s : State) : Host.Outcome State Fault Refusal := adminRow 0x89 commitFwEffect src s

/-! ## FW_ACTIVATE (R545 to R547) -/

/-- Activation begins: FW_ACTIVATING on both ports. How long it takes is free, 2 s at most (R546; DESIGN CHOICE, log entry 31). -/
def beginActivation (s : State) (n : Nat) : State :=
  let empty := (s.flash.blocks.filter fun (b, x) => !x.bad && decide (0 < x.next) && (validPages s b).isEmpty).map (·.1)
  let s := s.modFlash fun f => { f with issued := f.wbuf, erasing := empty }
  (s.modSec fun y => { y with
    activating := some n, activateEnd := s.time + min 2000000000 (Config.freeWord s.free).toNat }).useFree

def activateFwEffect (s : State) (n : Nat) : State :=
  withCmd s n fun x =>
    let slot := eSlot x.entry
    if s.security.activating.isSome then refuse s n .fwActivationBusy 0x28 slot
    else if s.security.active == some slot then refuse s n .invalidField 0x28 slot
    else match slotImage s slot with
      | none => refuse s n .invalidField 0x28 slot
      | some b =>
        if imageMajor b != fwMajor s && !eSlotFlag x.entry then refuse s n .invalidField 0x29 (ef x.entry 0x29 1)
        else beginActivation s n

/-- FW_ACTIVATE (DEDUCED, log entry 94). -/
def execFwActivate (src : AdminSrc) (s : State) : Host.Outcome State Fault Refusal := adminRow 0x8A activateFwEffect src s

/-! ### Rollback counters (R589 to R591) -/

/-- Appends a value to a counter; one whose 64 entries are written keeps its value, and the log records it (DEDUCED, log entry 103). -/
def appendCounter (s : State) (slot v : Nat) : State :=
  let l := if slot = 0 then s.security.counter0 else s.security.counter1
  if 64 ≤ l.length then deviceLog s kindFirmware slot v
  else s.modSec fun y =>
    if slot = 0 then { y with counter0 := y.counter0 ++ [BitVec.ofNat 16 v] } else { y with counter1 := y.counter1 ++ [BitVec.ofNat 16 v] }

/-- The image that runs raises the counters (R590): its ROLLBACK_FLOOR goes to slot 0's and then to slot 1's, where it exceeds them
(DEDUCED, log entry 124). -/
def raiseCounters (s : State) : State :=
  let floor := field s.security.running 0x0C 2
  let s := if counterValue s.security.counter0 < floor then appendCounter s 0 floor else s
  if counterValue s.security.counter1 < floor then appendCounter s 1 floor else s

/-! ### What waits for the firmware (R45) -/

/-- The borrower vacates a lease whose revocation has been announced, and releases it (R414). -/
def vacateLease (s : State) (k : Nat) : State :=
  match Tab.get? s.tiers.borrowed k with
  | some l => sendLease (dropLease s k false) l.lender (.release s.net.deviceNumber l.number)
  | none => s

/-- Entries that an activation held are appended (R517). -/
def flushHeld (s : State) : State :=
  let l := s.logs.held
  l.foldl appendLog (s.modLogs fun x => { x with held := [] })

/-- Firmware work that an activation held goes on: PERM entries of channels in ALIAS, page
retirements, releases of retirement entries, leases to vacate, restores of lost control lines,
schedules to unload, durable FLUSH commands, images. -/
def resumeWork (s : State) : State :=
  let alias_ := (s.hbm.channels.filter fun (_, c) => c.phase == .alias_).map (·.1)
  let s := alias_.foldl (fun s c => if s.hbm.perm.contains c then switchPerm s c else s) s
  let s := s.hbm.dueRetire.foldl (fun s (p, l) => retireLogged s p l) (s.modHbm fun h => { h with dueRetire := [] })
  let s := s.hbm.dueRelease.foldl releaseEntries (s.modHbm fun h => { h with dueRelease := [] })
  let leases := (s.tiers.borrowed.filter fun (_, l) => l.revoked).map (·.1)
  let s := leases.foldl vacateLease s
  let lost := (s.colls.filter fun (_, c) => c.restoring).map (·.1)
  let s := lost.foldl restoreLine s
  let unloads := s.scheds.filterMap fun (i, d) => d.failing.map fun l => (i, l)
  let s := settleUnloads (unloads.foldl (fun s (i, l) => unloadSched s i l) s)
  let s := s.flash.dueBlocks.foldl retireBlock (s.modFlash fun f => { f with dueBlocks := [], issued := [], erasing := [] })
  let flushes := (s.cmds.filter fun (_, x) => x.stage == .admitted && !x.work.durableOf.isEmpty).map (·.1)
  settleImages (flushes.foldl startDurable s)

/-- Step 5 where the major version changed: every loaded schedule is checked again, and one that fails is unloaded (R236). -/
def recheckSchedules (s : State) : State :=
  (s.scheds.filter fun (_, d) => d.loaded && (infeasible s d.header d.steps d.refs).isSome).foldl (fun s (i, _) => unloadSched s i 0) s

/-- Step 4 fails: the running firmware resumes, and the command ends with FW_IMAGE_INVALID (R547). -/
def activationFails (s : State) (n item : Nat) : State :=
  let s := flushHeld (s.modSec fun y => { y with activating := none })
  resumeWork (refuse s n .fwImageInvalid 0x28 item)

/-- Steps 4 to 6 of R546 with a valid image. -/
def activationEnds (s : State) (n slot : Nat) (b : List Byte) : State :=
  let major := imageMajor b != fwMajor s
  let s := extendMeas s 3 3 (imageVersion b) (Config.sha384 (b.take 0x100))
  let s := selectSlot (s.modSec fun y => { y with running := b.take 0x2000, active := some slot }) slot
  let s := flushHeld (s.modSec fun y => { y with activating := none })
  let s := if major then recheckSchedules s else s
  let s := raiseEvent (raiseEvent s .p0 evFwActivated) .p1 evFwActivated
  let s := raiseCounters s
  resumeWork (succeed s n {})

/-- The end of an activation (R546, R547). -/
def finishActivation (s : State) (n : Nat) : State :=
  match s.cmd? n with
  | none => resumeWork (flushHeld (s.modSec fun y => { y with activating := none }))
  | some x =>
    let slot := eSlot x.entry
    match slotImage s slot with
    | none => activationFails s n 1
    | some b => match imageFails s b slot with
      | some k => activationFails s n k
      | none => activationEnds s n slot b

/-- What falls due as time passes: the end of an activation. -/
def timePasses (s : State) : State :=
  match s.security.activating with
  | some n => if s.security.activateEnd ≤ s.time ∧ live s then finishActivation s n else s
  | none => s

/-! ## ATTEST (R598 to R602) -/

/-- PATH of R601. -/
def attestPath (x : Cmd) : Nat := match x.origin with | .sideband => 2 | _ => portNum (issuer x)

/-- LIFECYCLE of R601. -/
def lifecycleCode : Lifecycle → Nat | .manufacture => 0 | .production => 1 | .retired => 2

/-- The signed part of a report, 352 bytes. -/
def reportSigned (s : State) (x : Cmd) : List Byte :=
  let y := s.security
  layout
    ([(4, 0x5241514B), (2, 1), (1, attestPath x), (1, b2n y.overflow + 2 * b2n y.recovery), (8, Config.serial.toNat), (4, fwActive s),
      (4, rollbackMin s), (1, Config.stepping.toNat), (1, lifecycleCode y.lifecycle), (2, reportedNumber s), (4, y.extends_),
      (32, ef x.entry 0x30 32), (32, ef x.entry 0x50 32)]
     ++ y.meas.map (fun d => (48, d.toNat)) ++ [(16, 0)])

/-- A report: the signed part with both signatures of the identity key (R597, R601). -/
def report (s : State) (x : Cmd) (uds : BitVec 256) : List Byte :=
  let b := reportSigned s x
  b ++ pad 64 ((Config.edSign uds b).take 64) ++ pad 3309 ((Config.mldsaSign uds b).take 3309)

/-- An entry of the measurement log (R595). -/
def measBytes (m : MeasEntry) : List Byte :=
  layout [(4, m.seq), (1, m.register), (1, m.event), (2, 0), (24, m.detail), (48, m.digest.toNat)]

def attestEffect (s : State) (n : Nat) : State :=
  withCmd s n fun x =>
    let start := ef x.entry 0x70 4
    let y := s.security
    match y.uds with
    | none => refuse s n .attestUnavailable 0x28 (ef x.entry 0x28 1)
    | some uds =>
      if y.lifecycle != .production then refuse s n .attestUnavailable 0x28 (ef x.entry 0x28 1)
      else match ef x.entry 0x28 1 with
        | 0 => succeedWith s n {} (report s x uds)
        | 1 =>
          let b := (y.log.drop start).flatMap measBytes
          decide_ s n { resultLength := b.length } b 80 {}
        | _ =>
          if !y.certValid then refuse s n .attestUnavailable 0x28 2
          else succeedWith s n {} (y.certs.drop start)

/-- ATTEST. -/
def execAttest (src : AdminSrc) (s : State) : Host.Outcome State Fault Refusal := adminRow 0x8C attestEffect src s

end Sys2Proof.Machine
end

