-- ==== Sys2Proof/Machine/AdmitRow.lean ====
section
/-! DEFINITION. COMMAND_ADMIT: a checked command that waits obtains its reservations and is admitted (R499); an admin command is started
by the firmware (R522, R545). -/

namespace Sys2Proof.Machine

open Sys2Proof

/-- What the firmware does with an admin command once it has started it, by opcode (R524). -/
def adminEffect (op : Nat) (s : State) (n : Nat) : State :=
  match op with
  | 0x80 => identifyEffect s n
  | 0x81 => logPageEffect s n
  | 0x82 => getFeatureEffect s n
  | 0x83 => setFeatureEffect s n
  | 0x84 => queueCreateEffect s n
  | 0x85 => queueDeleteEffect s n
  | 0x86 => queueResumeEffect s n
  | 0x88 => downloadEffect s n
  | 0x89 => commitFwEffect s n
  | 0x8A => activateFwEffect s n
  | 0x8C => attestEffect s n
  | 0x90 => createEffect s n
  | 0x91 => setEffect s n
  | 0x92 => collDeleteEffect s n
  | 0x93 => maintEffect s n
  | 0x94 => maintEffect s n
  | 0x95 => maintEffect s n
  | 0x98 => scheduleLoadEffect s n
  | 0x99 => scheduleUnloadEffect s n
  | 0x9A => scheduleBindEffect s n
  | 0xA0 => regionAllocEffect s n
  | 0xA1 => regionFreeEffect s n
  | 0xA8 => hbmMigrateEffect s n
  | 0xA9 => hbmDiagEffect s n
  | _ => diagReadEffect s n

/-- The guard of COMMAND_ADMIT for command n. -/
def mayAdmit (s : State) (n : Nat) (x : Cmd) : Bool :=
  if dataOpcode (eOpcode x.entry) then live s && admissible s n x && admitTurn s n x
  else x.stage == .waiting && mayStartAdmin s n x

/-- Its effect. -/
def admitEffect (s : State) (n : Nat) (x : Cmd) : State :=
  if dataOpcode (eOpcode x.entry) then admitData s n x else startAdmin (adminEffect (eOpcode x.entry)) s n

/-- COMMAND_ADMIT (DESIGN CHOICE, log entry 78). -/
def execCommandAdmit (cmd : Nat) (s : State) : Host.Outcome State Fault Refusal :=
  match s.cmd? cmd with
  | none => occurs false s s
  | some x => occurs (mayAdmit s cmd x) (admitEffect s cmd x) s

end Sys2Proof.Machine
end

