-- ==== Sys2Proof/Machine/Completion.lean ====
section
/-! DEFINITION. Posting completion entries (R469, R482, R494, R495, R673), and an SQ fetch that fails (R482, R508). -/

namespace Sys2Proof.Machine

open Sys2Proof

/-- The entry as the 256 bits that are written. -/
def cqeOf (k : Completion) (sqHead sqId tag : Nat) (phase : Bool) : BitVec 256 := BitVec.ofNat 256 (leNat (cqeBytes k sqHead sqId tag phase))

/-- The CQ has no free entry (R495). -/
def cqIsFull (x : QueuePair) : Bool := (x.cqTail + 1) % max 1 x.cqEntries == x.cqHead

/-- What a completion keeps when its result cannot be written: the commit of a mutation, the snapshot of a reader (R496, R673). -/
def keptFields (op : Nat) (k : Completion) (st : Status) : Completion :=
  if isMutation op then { status := st, epoch := k.epoch, dw2 := k.dw2, dw3 := 0xFFFFFFFF }
  else if isReader op then { status := st, epoch := k.epoch }
  else { status := st }

/-- Signals a completion (R469): a class-0 command's at once, others when AGG_COUNT + 1 entries are unsignalled. -/
def signalEntry (s : State) (p : PortId) (q cls : Nat) : State :=
  let x := s.pair p q
  if !x.ien then s
  else if cls = 0 ∨ x.aggCount + 1 ≤ x.unsignalled + 1 then signal (s.modPair p q fun x => { x with unsignalled := 0 }) p x.vector
  else s.modPair p q fun x => { x with unsignalled := x.unsignalled + 1 }

/-- Writes the entry and advances the CQ (R495). -/
def writeEntry (s : State) (p : PortId) (q : Nat) (c : Cmd) (k : Completion) : State :=
  let x := s.pair p q
  let s := emit s p (.cqe q x.cqTail (cqeOf k x.sqHead q (eTag c.entry) x.phase))
  let next := (x.cqTail + 1) % max 1 x.cqEntries
  let s := s.modPair p q fun x => { x with
    cqTail := next, phase := if next = 0 then !x.phase else x.phase, outstanding := x.outstanding - 1
    completed := x.completed + 1, heldWrite := none, cqFull := false }
  signalEntry s p q (eClass c.entry)

/-- What a posted completion lets go on: pins (R401), ABORT (R513), QUEUE_DELETE (R484), releases that waited (R79, R118) and
SCHEDULE_UNLOAD (R223). -/
def afterPost (s : State) (n : Nat) (c : Cmd) (p : PortId) (q : Nat) (st : Status) : State :=
  let s := releasePins { s with cmds := Tab.erase s.cmds n } c
  let s := settleDelete (settleAborts s n st) p q
  settleUnloads (if namesCollection c.entry then gcColl s (eIndex c.entry) else s)

/-- The result bytes go to their buffer. -/
def writeResult (s : State) (c : Cmd) : State :=
  if c.result.isEmpty then s
  else match outBuf s c with
    | .host p a _ => emitWrites (countLookup s p .pass) p .result a c.result
    | .device a _ => match originPort c.origin with
      | some p => devWrite s (.queueEngine p) a c.result .stream
      | none => s
    | _ => s

/-- The completion of a command whose result could not be written to host memory, and what is logged of it; else the result goes out (R673). -/
def resultStep (s : State) (c : Cmd) (k : Completion) (p : PortId) : State × Completion :=
  if c.resultErr then logStatus s c (keptFields (eOpcode c.entry) k .hostFault) { kind := kindHost, loc := eOutAddr c.entry, detail := portNum p }
  else (writeResult s c, k)

/-- The write of a completion entry fails: the pair freezes, the error log holds an entry, and the entry is kept for QUEUE_RESUME (R482). -/
def entryFails (s : State) (n : Nat) (c : Cmd) (k : Completion) (p : PortId) (q : Nat) : State :=
  let held := (s.pair p q).state != .deleting
  let s := portLog s p 0 q (eTag c.entry) (some .hostFault) (eOpcode c.entry) (BitVec.ofNat 32 (eHandle c.entry)) k.epoch
    { kind := kindHost, loc := (s.pair p q).cqBase, detail := portNum p }
  let s := freezeQueue s p q (statusCode .hostFault) (eTag c.entry)
  let s := s.modCmd n fun y => { y with completion := some k, result := [], resultErr := false, cqeErr := false }
  if held then s.modPair p q fun x => { x with heldWrite := some n } else s

/-- COMPLETION_POST of a decided command of a queue whose translations are at hand or have failed. -/
def postEffect (s : State) (n : Nat) (c : Cmd) (k : Completion) (p : PortId) (q : Nat) : State :=
  let (s, k) := resultStep s c k p
  let s := if c.resultErr then freezeQueue s p q (statusCode .hostFault) (eTag c.entry) else s
  if c.cqeErr then entryFails s n c k p q else afterPost (writeEntry s p q c k) n c p q k.status

/-- COMPLETION_POST of a command of a queue: it waits for a free entry (R495), and for the translations of what it writes (R373). -/
def postQueued (s : State) (n : Nat) (c : Cmd) (k : Completion) (p : PortId) (q : Nat) : State :=
  if cqIsFull (s.pair p q) then s.modPair p q fun x => { x with cqFull := true }
  else if !accessPasses s p (commandNum n) then routeAccess s p (commandNum n)
  else postEffect (routeAccess s p (commandNum n)) n c k p q

/-- COMPLETION_POST of a mailbox request whose result goes to host memory: the result, then the response (R519, R520). -/
def postMailbox (s : State) (n : Nat) (c : Cmd) (k : Completion) (p : PortId) (m : Nat) : State :=
  if !accessPasses s p (commandNum n) then routeAccess s p (commandNum n)
  else
    let (s, k) := resultStep s c k p
    mailboxRespond (releasePins { s with cmds := Tab.erase s.cmds n } c) p m c k []

/-- The completion may be posted now: the device is out of the power state that holds it (R515), and no failed write of the CQ waits for
QUEUE_RESUME (R482). -/
def mayPost (s : State) (c : Cmd) (p : PortId) (q : Nat) : Bool :=
  c.stage == .decided && (!c.heldDp || (s.power.dp == .dp0 && s.power.entering.isNone))
    && (s.pair p q).state != .absent && (s.pair p q).heldWrite.isNone

/-- COMPLETION_POST (R494, R495); behind a held completion write, the others of its queue wait (R482; DEDUCED, log entry 92). -/
def execCompletionPost (cmd : Nat) (port : PortId) (place : PostTo) (s : State) : Host.Outcome State Fault Refusal :=
  match s.cmd? cmd with
  | none => occurs false s s
  | some c =>
    match c.origin, c.completion with
    | .sq p q, some k =>
      occurs (live s && p == port && place == .cq q && mayPost s c p q && !accessWaits s p (commandNum cmd)) (postQueued s cmd c k p q) s
    | .mailbox p m, some k =>
      occurs (p == port && place == .mailbox m && c.stage == .decided && !accessWaits s p (commandNum cmd)) (postMailbox s cmd c k p m) s
    | _, _ => occurs false s s

/-- SQ_FETCH_FAILURE (R482): the SQ freezes with the status and TAG 0xFFFF, and the error log holds an entry (R508). HOST_FAULT is the end of a
translation that cannot be had (R373 to R378), HOST_ABORT the host's answer. -/
def execSqFetchFailure (p : PortId) (q : Nat) (fault : Bool) (s : State) : Host.Outcome State Fault Refusal :=
  let st : Status := if fault then .hostFault else .hostAbort
  let t := if fault then s else s.modPort p fun x => { x with aer := x.aer ++ [.completion] }
  let t := portLog t p 0 q 0xFFFF (some st) 0 0 0 { kind := kindHost, loc := (s.pair p q).sqBase + 128 * (s.pair p q).sqHead, detail := portNum p }
  let t := t.modPair p q fun x => { x with fetchErr := false }
  occurs (canFetch s p q && decide (q < 2048) && (s.pair p q).fetchErr == fault) (freezeQueue t p q (statusCode st) 0xFFFF) s

end Sys2Proof.Machine
end

