-- ==== Sys2Proof/Machine/Links.lean ====
section
/-! DEFINITION. The Denop links (R548 to R568, R577, R578): training, flits and credits, routes under the up/down rule, forwarding, and
what ends when a port leaves service or a device is lost (R580). -/

namespace Sys2Proof.Machine

open Sys2Proof

/-! ## Ports and what they carry -/

/-- A port carries traffic (R556). -/
def carries (l : Link) : Bool := l.state == .up || l.state == .degraded

/-- LANE_MAP as a number, byte l for logical lane l. -/
def laneNat (m : List Nat) : Nat := leNat (m.map fun l => BitVec.ofNat 8 l)

/-- An entry of KIND LINK: LANE_MAP before and after (R628). -/
def linkLog (s : State) (p : Nat) (before after : List Nat) : State := deviceLog s kindLink p (laneNat before + laneNat after * 2 ^ 64)

/-- An entry of KIND PEER (R628). -/
def peerLog (s : State) (device window type : Nat) : State := deviceLog s kindPeer device (peerCause device window type).detail

/-- An outstanding request ends with PEER_FAILURE, as one event (R345, R578, R629). -/
def peerEvent (s : State) (r : PeerReq) (txn type : Nat) : State := oneEvent s true (peerCause r.dest 0 type) fun s => peerFails s txn

/-! ## Members answer a command that went to them (R574, R580) -/

/-- A member's part of a command is done, with what it answered; the first error decides the status, and the command ends once every
member and this device are done. -/
def memberAnswers (s : State) (n d : Nat) (k : Completion) (res : List Byte) : State :=
  match s.cmd? n with
  | none => s
  | some x =>
    if !x.work.members.contains d then s
    else
      let s := s.modWork n fun w => { w with members := w.members.filter (· != d) }
      let z : Cause := { kind := if k.status = .peerLost then kindPeer else 0, loc := if k.status = .peerLost then d else 0, detail := 0 }
      if !fannedOut (eOpcode x.entry) then
        let unit := match s.coll? (eIndex x.entry) with
          | some c => resultUnit x.entry (24 + fetchVecBytes c.attrs (eOutputFp32 x.entry))
          | none => 1
        decide_ s n k res unit z
      else
        let keep : Completion := match x.completion with
          | some f => if f.status = .success then { f with status := k.status } else f
          | none => { status := k.status }
        let s := s.modCmd n fun y => { y with completion := some keep }
        if (x.work.members.filter (· != d)).isEmpty then
          if x.work.localDone then decide_ s n keep [] 1 z else settleFlush (flushTargets s n) n
        else s

/-! ## Devices that are lost (R579, R580) -/

/-- A shard request is discarded: its runs, pins and scratch (R580). -/
def dropShard (s : State) (n : Nat) : State :=
  match s.cmd? n with
  | some x => releasePins { leaveBatches s n with cmds := Tab.erase (leaveBatches s n).cmds n } x
  | none => s

/-- No route to a device is left (R579). -/
def unreachable (s : State) (d : Nat) : Bool := d != s.net.deviceNumber && !Tab.has s.net.routes d

/-- What ends where devices are lost: sharded searches, commands that went to them, shard requests they coordinate, leases they lend
(R415, R580). `cut` are the devices to which a port on the route has left service. -/
def settleLost (s : State) (cut : List Nat) : State :=
  let gone (d : Nat) : Bool := unreachable s d
  let searches := (s.cmds.filter fun (_, x) => x.stage == .admitted && !isShard x &&
    (x.search.shards.any (fun d => cut.contains d || gone d) || x.search.rerankWait.any gone)).map (·.1)
  let shards := (s.cmds.filter fun (_, x) => match x.origin with | .shard co _ => gone co | _ => false).map (·.1)
  let away := s.cmds.flatMap fun (n, x) =>
    (x.work.members.filter fun d => gone d || (eOpcode x.entry == 5 && cut.contains d)).map fun d => (n, d)
  let leases := (s.tiers.borrowed.filter fun (_, l) => gone l.lender).map (·.1)
  let lostTo (x : Cmd) : Nat := ((x.search.shards ++ x.search.rerankWait).find? fun d => cut.contains d || gone d).getD 0
  let s := oneEvent s false {} fun s =>
    let s := searches.foldl (fun s n => failSearch s n .peerLost (peerCause (((s.cmd? n).map lostTo).getD 0) 0 0x21)) s
    away.foldl (fun s (n, d) => memberAnswers s n d { status := .peerLost } []) (shards.foldl dropShard s)
  leases.foldl (fun s k => dropLease s k true) s

/-! ## Routes (R565 to R567) -/

/-- The links that carry traffic, as directed edges: device, its port, neighbour. This device's own come from its ports. -/
def edges (s : State) : List (Nat × Nat × Nat) :=
  let me := s.net.deviceNumber
  let far := (s.net.topology.filter fun l => l.up && l.a != me && l.b != me).flatMap fun l => [(l.a, l.aPort, l.b), (l.b, l.bPort, l.a)]
  let own := (List.range 6).filterMap fun p => if carries (s.link p) then some (p, (s.link p).peer) else none
  far ++ own.flatMap fun (p, d) => [(me, p, d), (d, 6, me)]

/-- Breadth-first distances from a frontier along a list of edges between numbered places. -/
def bfs (es : List (Nat × Nat)) : Nat → List Nat → Nat → Table Nat → Table Nat
  | 0, _, _, seen => seen
  | fuel + 1, front, d, seen =>
    let seen := front.foldl (fun t v => if Tab.has t v then t else Tab.set t v d) seen
    let next := ((es.filter fun (u, v) => front.contains u && !Tab.has seen v).map (·.2)).eraseDups
    if next.isEmpty then seen else bfs es fuel next (d + 1) seen

/-- The depth of every device in the breadth-first tree grown from the lowest-numbered member (R566). -/
def depths (s : State) (es : List (Nat × Nat × Nat)) : Table Nat :=
  let plain := es.map fun (u, _, v) => (u, v)
  let members := Tab.keys (bfs plain (es.length + 1) [s.net.deviceNumber] 0 [])
  bfs plain (es.length + 1) [members.headD s.net.deviceNumber] 0 []

/-- A hop is up when it moves toward the root, or at equal depth toward the lower device number (R566). -/
def hopUp (depth : Table Nat) (u v : Nat) : Bool :=
  let a := Tab.getD depth u 0
  let b := Tab.getD depth v 0
  decide (b < a) || (b == a && decide (v < u))

/-- Legal moves between places: a device with 0 before the first down hop and 1 after it (R566). -/
def legalMoves (depth : Table Nat) (es : List (Nat × Nat × Nat)) : List (Nat × Nat) :=
  es.flatMap fun (u, _, v) => if hopUp depth u v then [(2 * u, 2 * v)] else [(2 * u, 2 * v + 1), (2 * u + 1, 2 * v + 1)]

/-- The shortest legal routes of a device by its first port: port, and the places' distances from the neighbour on. -/
def byPort (depth : Table Nat) (es : List (Nat × Nat × Nat)) (u : Nat) : List (Nat × Table Nat) :=
  let moves := legalMoves depth es
  (es.filter fun (a, _, _) => a == u).map fun (_, p, v) =>
    (p, bfs moves (2 * es.length + 1) [if hopUp depth u v then 2 * v else 2 * v + 1] 0 [])

/-- Hops to a device by each first port, of at most 24 (R565). -/
def hopsBy (ways : List (Nat × Table Nat)) (d : Nat) : List (Nat × Nat) :=
  ways.filterMap fun (p, t) =>
    let h := [Tab.get? t (2 * d), Tab.get? t (2 * d + 1)].filterMap id
    match h with
    | [] => none
    | x :: r => let m := r.foldl min x + 1; if m ≤ 24 then some (p, m) else none

/-- The best of some ways: fewest hops, then the lowest-numbered port (R566) (DEDUCED, log entry 62). -/
def bestWay (l : List (Nat × Nat)) : Option (Nat × Nat) :=
  l.foldl (fun (b : Option (Nat × Nat)) (x : Nat × Nat) => match b with
    | some y => if x.2 < y.2 ∨ (x.2 = y.2 ∧ x.1 < y.1) then some x else b
    | none => some x) none

/-- Packets held for a route go out at a port. -/
def releaseHeld (s : State) (p : Nat) (ks : List Packet) : State :=
  if ks.isEmpty then s else s.modLink p fun l => pumpLink { l with waiting := l.waiting ++ ks }

def setRoute (s : State) (d : Nat) (r : Route) : State := s.modNet fun x => { x with routes := Tab.set x.routes d r }

/-- A peer request to a device awaits its response (R567). -/
def awaits (s : State) (d : Nat) : Bool := s.net.peers.any fun (_, r) => r.dest == d

/-- The route to one device as the topology gives it now. A change of port waits while packets await responses on the old route (R567). -/
def rerouteOne (ways : List (Nat × Table Nat)) (s : State) (d : Nat) : State :=
  let hs := hopsBy ways d
  match bestWay hs with
  | none => s.modNet fun x => { x with routes := Tab.erase x.routes d }
  | some (p, h) =>
    let alt (q : Nat) : Option Nat := (bestWay (hs.filter fun x => x.1 != q)).map (·.1)
    match Tab.get? s.net.routes d with
    | none => setRoute s d { primary := p, alternate := alt p, hops := h }
    | some r =>
      let old := hs.find? fun x => x.1 == r.primary
      match old with
      | some (q, g) =>
        if q = p then releaseHeld (setRoute s d { primary := p, alternate := alt p, hops := h }) p r.queue
        else if awaits s d then setRoute s d { r with alternate := alt q, hops := g, next := some (p, h) }
        else releaseHeld (setRoute s d { primary := p, alternate := alt p, hops := h }) p r.queue
      | none => releaseHeld (setRoute s d { primary := p, alternate := alt p, hops := h }) p r.queue

/-- The commands owed to members that are back (R570). -/
def payOwed (s : State) : State :=
  let due := s.net.owed.filter fun (d, _) => Tab.has s.net.routes d
  let s := s.modNet fun x => { x with owed := x.owed.filter fun (d, _) => !Tab.has x.routes d }
  due.foldl (fun s (d, b) => sendData s 0x29 d 0 b) s

/-- The firmware computes every route anew (R566). -/
def reroute (s : State) : State :=
  let es := edges s
  let depth := depths s es
  let ways := byPort depth es s.net.deviceNumber
  let ds := ((Tab.keys depth) ++ Tab.keys s.net.routes).eraseDups.filter (· != s.net.deviceNumber)
  payOwed (settleLost (ds.foldl (rerouteOne ways) s) [])

/-- A port has left service: every entry whose PRIMARY it is takes its ALTERNATE at once, or its device is unreachable (R566). -/
def switchRoutes (s : State) (p : Nat) : State :=
  s.net.routes.foldl (fun s (d, r) =>
    if r.primary = p then
      match r.next, r.alternate with
      | some (q, h), _ => releaseHeld (setRoute s d { primary := q, alternate := none, hops := h }) q r.queue
      | none, some a => setRoute s d { r with primary := a, alternate := none }
      | none, none => s.modNet fun x => { x with routes := Tab.erase x.routes d }
    else
      let s := setRoute s d { r with alternate := if r.alternate = some p then none else r.alternate }
      match r.next with
      | some (q, _) =>
        if q = p then releaseHeld (setRoute s d { r with next := none, queue := [] }) r.primary r.queue else s
      | none => s) s

/-- Floods TOPOLOGY at every port that carries traffic (R566). -/
def flood (s : State) (up : Bool) : State :=
  s.modNet fun x => { x with links := Tab.map x.links fun l => if carries l then { l with ctl := l.ctl ++ [.topology up] } else l }

/-- CRITICAL bit 3: a Denop port is DOWN (R533). -/
def settlePortDown (s : State) : State := critical s critPortDown (s.net.links.any fun (_, l) => l.state == .down)

/-- A port leaves service (R577): its routes switch, its peer requests end with PEER_FAILURE, the loss is flooded, and the work that
the loss cuts ends. What the port had not delivered is lost (DEDUCED, log entry 63). -/
def leaveService (s : State) (p : Nat) (excluded : BitVec 8) : State :=
  let l := s.link p
  let cut := (s.net.routes.filter fun (_, r) => r.primary == p).map (·.1)
  let lost := (s.net.peers.filter fun (_, r) => r.port == p).map (·.1)
  let none_ : List Nat := List.replicate 8 15
  let s := s.modLink p fun l => { l with
    state := .down, lanes := 0, excluded := excluded, laneMap := none_, waiting := [], replay := [], stream := [], discarding := false
    resent := none, attempts := 0, retrains := satAdd (2 ^ 32 - 1) l.retrains 1 }
  let s := linkLog s p l.laneMap none_
  let s := settlePortDown (notice s lidLink)
  oneEvent (flood (switchRoutes s p) false) false {} fun s => settleLost (lost.foldl peerFails s) cut

/-! ## Training (R551 to R556) -/

/-- Physical lanes whose frames name a logical lane. -/
def namedBy (o : TrainObs) (l : Nat) : List Nat := (List.range 8).filter fun k => o.laneNames.getD k none == some l

/-- A physical receive lane is excluded (R553). -/
def laneExcluded (o : TrainObs) (k : Nat) : Bool :=
  match o.laneNames.getD k none with
  | none => true
  | some l => decide (8 ≤ l) || decide (1 < (namedBy o l).length) || o.noisy.getD k false

/-- The physical lane that carries a usable logical lane. -/
def laneOf (o : TrainObs) (l : Nat) : Option Nat := (namedBy o l).find? fun k => !laneExcluded o k

/-- Usable logical lanes of the receive and of the transmit direction, lowest first. -/
def usableRx (o : TrainObs) : List Nat := (List.range 8).filter fun l => (laneOf o l).isSome
def usableTx (o : TrainObs) : List Nat := (List.range 8).filter fun l => !o.txUnusable.contains l

/-- The width: the largest of 8, 6 and 4 that neither direction falls short of; 0 below 4 (R554). -/
def widthOf (o : TrainObs) : Nat :=
  let u := min (usableRx o).length (usableTx o).length
  if 8 ≤ u then 8 else if 6 ≤ u then 6 else if 4 ≤ u then 4 else 0

/-- LANE_MAP: the physical lane of each logical lane in use, 15 for the others (R556). -/
def laneMapOf (o : TrainObs) : List Nat :=
  let used := (usableRx o).take (widthOf o)
  (List.range 8).map fun l => if used.contains l then (laneOf o l).getD 15 else 15

/-- A byte with bit k as p gives it. -/
def maskOf (p : Nat → Bool) : BitVec 8 := BitVec.ofNat 8 (((List.range 8).map fun k => if p k then 2 ^ k else 0).foldl (· + ·) 0)

/-- The result of a training: the port's state (R550, R554, R555, R556). The device has joined when the identities match (R564). -/
def trainedState (s : State) (l : Link) (o : TrainObs) : LinkState :=
  if !o.anySignal ∧ l.state = .unpopulated then .unpopulated
  else if widthOf o = 0 then (if 2 ≤ l.attempts then .failed else .training)
  else if 500 < o.delayNs then .tooLong
  else if o.peerInstall ≠ s.net.installId ∨ o.peerDevice = s.net.deviceNumber then .mismatch
  else if widthOf o = 8 then .up else .degraded

/-- The end of a training: lanes, width, counters from 0, and the log where lanes are excluded or the port does not come up (of a MISMATCH
both INSTALL_IDs, R555). A port that
comes up joins the device to its installation, and the firmware adds it to the routes (R551 step 7). -/
def trainEffect (s : State) (p : Nat) (o : TrainObs) : State :=
  let l := s.link p
  let st := trainedState s l o
  let up := st == .up || st == .degraded
  let bad := maskOf (laneExcluded o)
  let map := if up then laneMapOf o else List.replicate 8 15
  let known := widthOf o != 0
  let s := s.modLink p fun l => { l with
    state := st, lanes := if up then widthOf o else 0, polarity := maskOf fun k => o.inverted.getD k false, excluded := bad
    peer := if known then o.peerDevice else 0xFFFF, laneMap := map, attempts := if known then 0 else l.attempts + 1
    txNext := 0, rxNext := 0, replay := [], resent := none, discarding := false, stream := [], waiting := []
    credits := [64, 672, 672, 672, 672, 672, 672], lastFlit := s.time }
  let s := if st == .mismatch then notice (deviceLog s kindLink p (s.net.installId.toNat + o.peerInstall.toNat * 2 ^ 64)) lidLink
    else if o.anySignal && (bad != 0 || !up) then notice (linkLog s p l.laneMap map) lidLink
    else s
  let s := settlePortDown s
  if !up then s
  else
    let s := if s.net.joined then s else noticeId (s.modNet fun x => { x with joined := true })
    let s := flood s true
    if fwServes s then reroute s else s

def execLinkTraining (port : Nat) (o : TrainObs) (s : State) : Host.Outcome State Fault Refusal :=
  occurs (live s && okLink port && !carries (s.link port) && (s.island (94 + dieOfPort port)).state == .run) (trainEffect s port o) s

/-- LANE_FAILURE: a lane is judged failing; the port enters DOWN and retrains (R557). -/
def execLaneFailure (port lane : Nat) (s : State) : Host.Outcome State Fault Refusal :=
  occurs (live s && carries (s.link port) && (s.link port).laneMap.contains lane)
    (leaveService s port ((s.link port).excluded ||| BitVec.ofNat 8 (2 ^ lane))) s

/-- RETRAIN_TIMER: a port that is DOWN or FAILED retrains (R557) (DEDUCED, log entry 123). -/
def execRetrainTimer (port : Nat) (s : State) : Host.Outcome State Fault Refusal :=
  occurs (live s && ((s.link port).state == .down || (s.link port).state == .failed))
    (settlePortDown (s.modLink port fun l => { l with
      state := .training, attempts := 0, retrains := satAdd (2 ^ 32 - 1) l.retrains 1 })) s

/-- LINK_TIMEOUT: no flit for 10 µs (R577). -/
def execLinkTimeout (port : Nat) (s : State) : Host.Outcome State Fault Refusal :=
  occurs (live s && carries (s.link port) && decide ((s.link port).lastFlit + 10000 ≤ s.time))
    (leaveService s port (s.link port).excluded) s

/-! ## Flits (R558 to R560) -/

/-- Takes whole packets off a packet stream; answers the rest and, for each packet, its channel and flits. Zero bytes between packets are
idle fill. -/
def takePackets : Nat → List Byte → List (Nat × Nat) → List Byte × List (Nat × Nat)
  | 0, l, acc => (l, acc)
  | n + 1, l, acc =>
    let l := l.dropWhile (· == 0)
    let len := field l 2 2
    let read := field l 0 1 == 0x01
    let body := if read then 0 else len
    if l.length < 32 ∨ l.length < 32 + body then (l, acc)
    else
      let c := field l 1 1
      let v := if bitsOf c 1 0 = 3 then 0 else 1 + 2 * bitsOf c 1 0 + min (bitsOf c 3 2) 1
      takePackets n (l.drop (32 + body)) (acc ++ [(v, ceilDiv (32 + body) 252)])

/-- A flit arrives: the expected good one is accepted, acknowledged, and its packets' credits return; a bad one, and every later one until
the replay arrives, is discarded, and a NAK names the flit expected (R559). -/
def flitEffect (s : State) (p : Nat) (f : Flit) : State :=
  let l := s.link p
  let l := { l with
    lastFlit := s.time, fecCorrected := satAdd (2 ^ 64 - 1) l.fecCorrected f.corrected
    fecUncorrected := satAdd (2 ^ 64 - 1) l.fecUncorrected f.uncorrected }
  let good := f.good && f.uncorrected == 0
  let l :=
    if good && BitVec.ofNat 16 f.number == l.rxNext then
      let (rest, ks) := takePackets 8 (l.stream ++ f.bytes) []
      { l with
        rxNext := l.rxNext + 1, discarding := false, stream := rest
        ctl := l.ctl ++ [.ack f.number] ++ ks.map fun (v, n) => .credit v n }
    else if l.discarding then l
    else if good && decide (f.number < l.rxNext.toNat) then l
    else { l with discarding := true, ctl := l.ctl ++ [.nak l.rxNext.toNat] }
  s.modLink p fun _ => l

def execFlitReceive (port : Nat) (f : Flit) (s : State) : Host.Outcome State Fault Refusal :=
  occurs (live s && carries (s.link port)) (flitEffect s port f) s

/-- SEND_KEEPALIVE (R562). -/
def execSendKeepalive (port : Nat) (s : State) : Host.Outcome State Fault Refusal :=
  occurs (live s && carries (s.link port)) (s.modLink port fun l => { l with ctl := l.ctl ++ [.keepalive] }) s

/-- ACK of flit n: it and the flits before it leave the replay buffer, and packets that waited for room go (R559). -/
def ackLink (l : Link) (n : Nat) : Link :=
  if l.replay.contains (BitVec.ofNat 16 n) then
    let rest := (l.replay.dropWhile (· != BitVec.ofNat 16 n)).drop 1
    pumpLink { l with replay := rest, resent := none }
  else l

def execAck (port n : Nat) (s : State) : Host.Outcome State Fault Refusal :=
  occurs (live s && carries (s.link port)) (s.modLink port fun l => ackLink { l with lastFlit := s.time } n) s

/-- NAK of flit n: the flits before it are acknowledged, and the sender resends from it; at the eighth time in a row the port enters DOWN
(R559). -/
def nakEffect (s : State) (p n : Nat) : State :=
  let l := s.link p
  let f : BitVec 16 := BitVec.ofNat 16 n
  let times := (match l.resent with | some (g, k) => if g = f then k else 0 | none => 0) + 1
  if 8 ≤ times then leaveService s p l.excluded
  else s.modLink p fun l => { l with
    replay := l.replay.dropWhile (· != f), resent := some (f, times), ctl := l.ctl ++ [.replay n], lastFlit := s.time }

def execNak (port n : Nat) (s : State) : Host.Outcome State Fault Refusal :=
  occurs (live s && carries (s.link port) && (s.link port).replay.contains (BitVec.ofNat 16 n)) (nakEffect s port n) s

/-- CREDIT: returned credits let further packets go (R560). -/
def creditLink (l : Link) (vc n : Nat) : Link :=
  let top := if vc = 0 then 64 else 672
  pumpLink { l with credits := l.credits.set vc (min top (l.credits.getD vc 0 + n)) }

def execCredit (port vc flits : Nat) (s : State) : Host.Outcome State Fault Refusal :=
  occurs (live s && carries (s.link port)) (s.modLink port fun l => creditLink { l with lastFlit := s.time } vc flits) s

/-- KEEPALIVE: the port is alive (R577). -/
def execKeepalive (port : Nat) (s : State) : Host.Outcome State Fault Refusal :=
  occurs (live s && carries (s.link port)) (s.modLink port fun l => { l with lastFlit := s.time }) s

/-! ## Forwarding (R561, R562, R568) -/

/-- Types that R562 gives. -/
def knownType (t : Nat) : Bool :=
  [0x01, 0x02, 0x03, 0x11, 0x12, 0x13, 0x14, 0x21, 0x22, 0x23, 0x24, 0x25, 0x26, 0x27, 0x28, 0x29, 0x2A, 0x2B, 0x2C, 0x31, 0x32,
    0x33, 0x34, 0x35].contains t

/-- A packet that is discarded and counted in the error log (R561, R562). -/
def badPacket (k : Packet) : Bool := !k.pcrcOk || decide (24 ≤ k.hops) || !knownType k.type

/-- PACKET_FORWARD: a bad packet is discarded and logged; one for another device goes on with one hop more, in any power state (R616). -/
def forwardEffect (s : State) (k : Packet) : State :=
  if badPacket k then peerLog s k.src k.window k.type else sendPacket s { k with hops := k.hops + 1 }

def execPacketForward (port : Nat) (k : Packet) (s : State) : Host.Outcome State Fault Refusal :=
  occurs (live s && carries (s.link port) && (badPacket k || k.dest != s.net.deviceNumber)) (forwardEffect s k) s

/-! ## Timeouts, switches and topology -/

/-- The number under which PEER_TIMEOUT names the re-rank answers that command n waits for (R575). -/
def rerankTxn (n : Nat) : Nat := 2 ^ 64 + n

/-- PEER_TIMEOUT: no response within 2 ms (R578), also of a member that re-ranks (R575). -/
def peerTimeoutEffect (s : State) (txn : Nat) : State :=
  if txn < 2 ^ 64 then
    match Tab.get? s.net.peers txn with
    | some r => settleLost (peerEvent s r txn 0) []
    | none => s
  else failSearch s (txn - 2 ^ 64) .peerLost (peerCause 0 0 0x2B)

def timesOut (s : State) (txn : Nat) : Bool :=
  if txn < 2 ^ 64 then Tab.has s.net.peers txn
  else match s.cmd? (txn - 2 ^ 64) with
    | some x => x.search.phase == .reranking && !x.search.rerankWait.isEmpty
    | none => false

def execPeerTimeout (txn : Nat) (s : State) : Host.Outcome State Fault Refusal :=
  occurs (live s && timesOut s txn) (peerTimeoutEffect s txn) s

/-- ROUTE_SWITCH: nothing awaits a response on the old route, so the shorter one is taken, and the held packets go (R567). -/
def routeSwitchEffect (s : State) (d p h : Nat) (r : Route) : State :=
  releaseHeld (setRoute s d { primary := p, alternate := some r.primary, hops := h }) p r.queue

def execRouteSwitch (device port : Nat) (s : State) : Host.Outcome State Fault Refusal :=
  match Tab.get? s.net.routes device with
  | some r =>
    match r.next with
    | some (p, h) => occurs (live s && p == port && !awaits s device) (routeSwitchEffect s device p h r) s
    | none => occurs false s s
  | none => occurs false s s

/-- The route from one device to another as every device's table gives it, hop by hop. -/
def pathTo (depth : Table Nat) (es : List (Nat × Nat × Nat)) (d : Nat) : Nat → Nat → List (Nat × Nat)
  | 0, _ => []
  | fuel + 1, u =>
    if u = d then []
    else match bestWay (hopsBy (byPort depth es u) d) with
      | none => []
      | some (p, _) => match es.find? fun (a, q, _) => a == u && q == p with
        | some (_, _, v) => (u, v) :: pathTo depth es d fuel v
        | none => []

/-- Two descriptions of one link. -/
def sameLink (l m : LinkInfo) : Bool :=
  (l.a == m.a && l.aPort == m.aPort && l.b == m.b && l.bPort == m.bPort) || (l.a == m.b && l.aPort == m.bPort && l.b == m.a && l.bPort == m.aPort)

/-- TOPOLOGY: the reports are kept, requests and searches whose route used a link that has gone end, and routes are computed anew
(R566, R577, R580). A report that is new here is flooded on. -/
def topologyEffect (s : State) (ls : List LinkInfo) : State :=
  let es := edges s
  let depth := depths s es
  let down := ls.filter fun l => !l.up
  let cuts (d : Nat) : Bool := (pathTo depth es d 24 s.net.deviceNumber).any fun (u, v) =>
    down.any fun l => (l.a == u && l.b == v) || (l.a == v && l.b == u)
  let lost := (s.net.peers.filter fun (_, r) => cuts r.dest).map (·.1)
  let cut := ((s.cmds.flatMap fun (_, x) => x.search.shards ++ x.work.members).eraseDups).filter cuts
  let new := ls.any fun l => !s.net.topology.contains l
  let s := s.modNet fun x => { x with topology := x.topology.filter (fun m => !ls.any (sameLink m)) ++ ls }
  let s := if new then flood s (down.isEmpty) else s
  oneEvent s false {} fun s => settleLost (lost.foldl peerFails (reroute s)) cut

def execTopology (links : List LinkInfo) (s : State) : Host.Outcome State Fault Refusal :=
  occurs (fwServes s) (topologyEffect s links) s

end Sys2Proof.Machine
end

