-- ==== Sys2Proof/Machine/Peers.lean ====
section
/-! DEFINITION. Peer memory (R387 to R389, R561 to R563): inbound requests through windows and the responses to this device's own
requests; leases (R412 to R414, R576); epoch beacons (R571). -/

namespace Sys2Proof.Machine

open Sys2Proof

/-- A packet for this device is served now: it is good, and the device is in DP0 or DP1 (R561, R616). -/
def servesPacket (s : State) (k : Packet) (type : Nat) : Bool :=
  live s && awake s && k.type == type && k.dest == s.net.deviceNumber && !badPacket k

/-- A response to a request, in class RSP at the request's priority. -/
def respond (s : State) (k : Packet) (type : Nat) (b : List Byte) : State :=
  sendPacket s { mkPacket s type k.src k.txn b with cls := 1, prio := k.prio }

/-- A window fault: counted, logged, and answered with the check of R387 that failed (R387, R394, R562). -/
def refusePeer (s : State) (k : Packet) (check : Nat) : State :=
  let s := s.modProtect fun x => { x with refused := Tab.modify x.refused (peerDie s k.src) 0 fun n => satAdd (2 ^ 32 - 1) n 1 }
  respond (peerLog s k.src k.window k.type) k 0x14 (leBytes 8 check)

/-- The control line of a collection at its epoch home, which a member reaches under no window (R570; DEDUCED, log entry 24). -/
def atHome (s : State) (k : Packet) : Bool :=
  k.window == 0 && isHeld k.offset && decide ((k.offset - heldBase) % 0x400000 < 0x20000) && isMember s k.src
    && (s.coll? (controlIndex (k.offset - heldBase))).isSome

/-- The address a request reaches, or the check that refuses it. -/
def reached (s : State) (k : Packet) (n : Nat) (x : Right) : Except Nat Nat :=
  if atHome s k then .ok k.offset
  else match windowCheck s k.src k.window k.gen k.offset n x with
    | some c => .error c
    | none => .ok (windowAddr s k.src k.window k.offset)

/-- The page entry a windowed request used is kept in the DTC (R388). -/
def noteWalk (s : State) (k : Packet) : State := if atHome s k then s else notePage s (peerDie s k.src) k.window k.offset

/-- READ_REQ: the data is read at the home slice and returned; an uncorrectable read returns nothing (R387, R578)
(DEDUCED, log entry 65). -/
def readReqEffect (s : State) (k : Packet) : State :=
  match reached s k k.length .read with
  | .error c => refusePeer s k c
  | .ok a =>
    let (s, d) := cacheGetAll (k.length / 128 + 2) (noteWalk s k) a k.length .stream
    match d with
    | some b => respond s k 0x11 b
    | none => sectorFails s (a / 32 * 32)

def execReadReq (k : Packet) (s : State) : Host.Outcome State Fault Refusal :=
  occurs (servesPacket s k 0x01) (readReqEffect s k) s

/-- WRITE_REQ: the write is performed and acknowledged; one of PUBLISHED lets the epoch home send its beacons (R387, R570, R571). -/
def writeReqEffect (s : State) (k : Packet) : State :=
  match reached s k k.payload.length .write with
  | .error c => refusePeer s k c
  | .ok a =>
    let home := atHome s k
    let s := devWrite (noteWalk s k) (.peer k.src) a k.payload .stream
    let s := if home && (a - heldBase) % 128 == 0 then sendBeacons s (controlIndex (a - heldBase)) else s
    respond s k 0x12 []

def execWriteReq (k : Packet) (s : State) : Host.Outcome State Fault Refusal :=
  occurs (servesPacket s k 0x02) (writeReqEffect s k) s

/-- The operation of a code (R262). -/
def atomicOf : Nat → Option AtomicOp
  | 1 => some .add
  | 2 => some .fadd
  | 3 => some .minU
  | 4 => some .maxU
  | 5 => some .minS
  | 6 => some .maxS
  | 7 => some .or
  | 8 => some .cas
  | _ => none

/-- ATOMIC_REQ: its payload holds the code, the width, the operand and the compare value (DESIGN CHOICE, log entry 41); the old word returns
(R262, R387). -/
def atomicReqEffect (s : State) (k : Packet) : State :=
  let w := field k.payload 1 1
  match atomicOf (field k.payload 0 1), (w == 4 || (w == 8 && field k.payload 0 1 != 2)) && aligned k.offset w with
  | some op, true =>
    match reached s k w .atomic with
    | .error c => refusePeer s k c
    | .ok a =>
      let g : AtomicArgs :=
        { src := .peer k.src, addr := a, wide := w == 8, operand := BitVec.ofNat 64 (field k.payload 2 w), fetching := false }
      match atomicOld s a (w == 8) with
      | some old =>
        let s := atomicEffect (noteWalk s k) op g (BitVec.ofNat 64 (field k.payload (2 + w) w))
        respond s k 0x13 (leBytes w old.toNat)
      | none => sectorFails s (a / 32 * 32)
  | _, _ => refusePeer s k 5

def execAtomicReq (k : Packet) (s : State) : Host.Outcome State Fault Refusal :=
  occurs (servesPacket s k 0x03) (atomicReqEffect s k) s

/-! ## Responses (R343, R562) -/

/-- The request of a transaction is answered: it leaves the table and its port tag is free (R342). -/
def closePeer (s : State) (txn : Nat) (r : PeerReq) : State :=
  (s.modNet fun x => { x with peers := Tab.erase x.peers txn }).modLink r.port fun l => { l with tags := l.tags - 1 }

/-- PUBLISHED has arrived from the epoch home: a reader takes its snapshot (R572), a FLUSH its FLUSH_EPOCH (R182). -/
def commandReads (s : State) (n v : Nat) : State :=
  match s.cmd? n with
  | some x =>
    if eOpcode x.entry = 6 then settleFlush (s.modWork n fun w => { w with homeEpoch := some v }) n else takeSnapshot s n v
  | none => s

/-- READ_RSP: the data goes to what asked for it. -/
def readRspEffect (s : State) (txn : Nat) (r : PeerReq) (b : List Byte) : State :=
  let s := closePeer s txn r
  match r.waiter with
  | .piece n => haveData s n b
  | .alley core slot => { s with alleys := Tab.adjust s.alleys (core * 64 + slot) fun x => { x with data := b } }
  | .command n => commandReads s n (leNat b)
  | .commit i => remoteAnswer s i (leNat b)
  | .candidate n k => candRead s n k (some b)
  | .weight _ | .partialSum _ => s

/-- WRITE_ACK: a write to peer memory has been performed; a piece to it ends, and a tile of T3 it wrote is DIRTY (R343, R399). -/
def writeAckEffect (s : State) (txn : Nat) (r : PeerReq) : State :=
  let s := closePeer s txn r
  match r.waiter with
  | .piece n => match Tab.get? s.pieces n with
    | some x => endPiece (noteT3Write s x.spec.dstSel x.spec.dst) n x
    | none => s
  | .alley .. => s
  | .command _ => s
  | .commit i => remoteAnswer s i 0
  | .candidate .. | .weight _ | .partialSum _ => s

/-- ATOMIC_RSP: the old word, which only a commit asks for. -/
def atomicRspEffect (s : State) (txn : Nat) (r : PeerReq) (old : BitVec 64) : State :=
  let s := closePeer s txn r
  match r.waiter with
  | .commit i => remoteAnswer s i old.toNat
  | _ => s

/-- WINDOW_FAULT: the request ends with PEER_FAILURE, and the error log names the device (R387, R628). -/
def windowFaultEffect (s : State) (txn : Nat) (r : PeerReq) : State := peerEvent s r txn 0x14

/-- A row that answers an outstanding request; a response that arrives later is discarded (R578). -/
def responseRow (txn : Nat) (eff : State → PeerReq → State) (s : State) : Host.Outcome State Fault Refusal :=
  match Tab.get? s.net.peers txn with
  | some r => occurs (live s && awake s) (eff s r) s
  | none => occurs false s s

def execReadRsp (txn : Nat) (bytes : List Byte) (s : State) : Host.Outcome State Fault Refusal :=
  responseRow txn (fun s r => readRspEffect s txn r bytes) s

def execWriteAck (txn : Nat) (s : State) : Host.Outcome State Fault Refusal :=
  responseRow txn (fun s r => writeAckEffect s txn r) s

def execAtomicRsp (txn : Nat) (old : BitVec 64) (s : State) : Host.Outcome State Fault Refusal :=
  responseRow txn (fun s r => atomicRspEffect s txn r old) s

def execWindowFault (txn : Nat) (s : State) : Host.Outcome State Fault Refusal :=
  responseRow txn (fun s r => windowFaultEffect s txn r) s

/-! ## EPOCH_BEACON (R571) -/

/-- The published epoch that a beacon brings; settings that waited for a commit are in force from it (R570). -/
def beaconEffect (s : State) (i e : Nat) : State :=
  let s := learnEpoch s i e
  s.modColl i fun c => if c.published < e then applyAttrs { c with published := e } else c

def execEpochBeacon (handle : BitVec 32) (epoch : Nat) (s : State) : Host.Outcome State Fault Refusal :=
  match collOf s handle.toNat with
  | some (i, c) => occurs (live s && awake s && !c.members.isEmpty && !isHome s c) (beaconEffect s i epoch) s
  | none => occurs false s s

/-! ## LEASE (R412 to R414, R576) -/

/-- The lowest inbound window that is not VALID. -/
def freeWindow (s : State) : Option Nat := Tab.firstNat (fun w => !(inWindow s w).valid) 0 16384
def freeOutbound (s : State) : Option Nat := Tab.firstNat (fun w => !(outWindow s w).valid) 0 16384

/-- The page table of a lease: 16,384 pages of 64 KiB from its first 4 KiB page on, readable and writable (R386). -/
def leaseTable (page : Nat) : List Byte :=
  (List.range 16384).flatMap fun k => leBytes 8 (2 ^ 63 + 2 ^ 62 + 2 ^ 61 + page * 4096 + k * 65536)

/-- A lender grants a lease of 1 GiB while its quota and its T2 allow: it opens an inbound window for the borrower alone (R412). -/
def grantLease (s : State) (b : Nat) : State :=
  let lent := s.tiers.lent.length
  match freeWindow s, takePages s 262144 16 with
  | some w, some (p, t) =>
    match takePages t 32 1 with
    | some (tp, t) =>
      if lent < s.tiers.lendQuota then
        let k := (Tab.firstFree t.tiers.lent 0 (lent + 1)).getD 0
        let g := (inWindow t w).gen + 1
        let t := devWrite t (.queueEngine .p0) (tp * 4096) (leaseTable p) .stream
        let t := t.modProtect fun x => { x with
          inbound := Tab.set x.inbound w
            { table := tp * 4096, tiles := 16384, source := b, anyMember := false, read := true, write := true, atomic := false
              valid := true, gen := g } }
        let t := t.modTiers fun x => { x with
          lent := Tab.set x.lent k { borrower := b, window := w, page := p, table := tp, revoking := false } }
        sendLease t b (.grant s.net.deviceNumber k w g)
      else s
    | none => s
  | _, _ => s

/-- A borrower takes a lease: an outbound window names it (R384, R413) (DEDUCED, log entry 66). -/
def takeLease (s : State) (lender k w g : Nat) : State :=
  match freeOutbound s with
  | some o =>
    let s := s.modProtect fun x => { x with
      outbound := Tab.set x.outbound o
        { target := lender, valid := true, remote := w, read := true, write := true, atomic := false, tiles := 16384, gen := g } }
    let j := (Tab.firstFree s.tiers.borrowed 0 (s.tiers.borrowed.length + 1)).getD 0
    s.modTiers fun x => { x with
      borrowed := Tab.set x.borrowed j { lender := lender, number := k, window := o, port := (linkTo s lender).getD 0, revoked := false } }
  | none => s

def leaseEffect (s : State) : LeaseMsg → State
  | .request b _ => grantLease s b
  | .grant l k w g => takeLease s l k w g
  | .revoke l k => match s.tiers.borrowed.find? fun (_, x) => x.lender == l && x.number == k with
    | some (j, x) => vacateLease (s.modTiers fun y => { y with borrowed := Tab.set y.borrowed j { x with revoked := true } }) j
    | none => s
  | .release b k => match Tab.get? s.tiers.lent k with
    | some x => if x.borrower = b then closeLease s k else s
    | none => s

/-- LEASE waits for the firmware (R581). -/
def execLease (m : LeaseMsg) (s : State) : Host.Outcome State Fault Refusal :=
  occurs (fwServes s && awake s) (leaseEffect s m) s

end Sys2Proof.Machine
end

