-- ==== Sys2Proof/Machine/Shards.lean ====
section
/-! DEFINITION. Work across devices (R569, R572 to R575, R581): shard requests and their runs, forwarded commands, fanned-out admin
commands, and the control packets of sliced runs. -/

namespace Sys2Proof.Machine

open Sys2Proof

/-! ## SHARD_REQ (R572) -/

/-- The entry of a shard request with its snapshot named: SNAPSHOT and SNAPSHOT_VALID. -/
def shardEntry (e : BitVec 1024) (snap : Nat) : BitVec 1024 :=
  let b := patch (leBytes 128 e.toNat) 0x28 (leBytes 8 snap)
  let b := patch b 0x43 [BitVec.ofNat 8 (field b 0x43 1) ||| 2#8]
  BitVec.ofNat 1024 (leNat b)

/-- The request of an exchange that this shard already holds. -/
def shardOf (s : State) (co txn : Nat) : Option (Nat × Cmd) := s.cmds.find? fun (_, x) => x.origin == .shard co txn

/-- Answers an exchange with a status and nothing else. -/
def shardFails (s : State) (co txn : Nat) (st : Status) : State :=
  sendData s 0x23 co txn (leBytes 2 (statusCode st) ++ leBytes 4 0 ++ leBytes 4 0)

/-- A new request waits for its admission like a command, and draws no token; a further round goes on from the last (R132, R572). -/
def shardReqEffect (s : State) (r : ShardReq) : State :=
  match shardOf s r.coordinator r.txn with
  | some (n, x) =>
    let s := s.modSearch n fun w => { w with given := some (r.probes, r.budget) }
    startRound s n (x.search.round + 1)
  | none =>
    match collOf s r.handle.toNat with
    | none => shardFails s r.coordinator r.txn .noCollection
    | some _ =>
      addCmd s
        { origin := .shard r.coordinator r.txn, entry := shardEntry r.entry r.snapshot, input := []
          search := { query := r.query, terms := r.terms, given := some (r.probes, r.budget) } }

/-- A round may begin: the exchange is new, or its last round has been answered. -/
def shardReady (s : State) (r : ShardReq) : Bool :=
  match shardOf s r.coordinator r.txn with
  | some (_, x) => x.search.phase == .ready
  | none => true

def execShardReq (r : ShardReq) (s : State) : Host.Outcome State Fault Refusal :=
  occurs (live s && awake s && isMember s r.coordinator && shardReady s r) (shardReqEffect s r) s

/-! ## SHARD_RUN and SHARD_END at the coordinator (R150, R572) -/

/-- A sharded search at its coordinator that still waits for a shard's END. -/
def awaitsShard (s : State) (n d : Nat) : Bool :=
  match s.cmd? n with
  | some x => x.search.shards.contains d && !isShard x && x.stage == .admitted
  | none => false

/-- Entries of a shard arrive on its peer input of the device square. -/
def shardRunEffect (s : State) (n d : Nat) (es : List ShardEntry) : State :=
  let run := es.map fun e => ({ key := e.key, vid := e.vid, loc := .peer e.attr } : Cand)
  sendFlight s n .device (8 + d) run

def execShardRun (cmd device : Nat) (es : List ShardEntry) (s : State) : Host.Outcome State Fault Refusal :=
  occurs (live s && awake s && awaitsShard s cmd device) (shardRunEffect s cmd device es) s

/-- A shard's END; the first failing one ends the search with its status. -/
def shardEndEffect (s : State) (n d : Nat) (st : Status) (lists : Nat) : State :=
  if !informational st then failSearch s n st (peerCause d 0 0x23)
  else s.modSearch n fun w => { w with shards := w.shards.filter (· != d), shardLists := max w.shardLists lists }

def execShardEnd (cmd device : Nat) (st : Status) (lists : Nat) (_matches : Nat) (s : State) : Host.Outcome State Fault Refusal :=
  occurs (live s && awake s && awaitsShard s cmd device) (shardEndEffect s cmd device st lists) s

/-- SHARD_CANCEL: the shard discards its runs and releases what it holds (R575, R580). -/
def execShardCancel (coordinator txn : Nat) (s : State) : Host.Outcome State Fault Refusal :=
  match shardOf s coordinator txn with
  | some (n, _) => occurs (live s && awake s) (dropShard s n) s
  | none => occurs false s s

/-! ## SHARD_RERANK (R575) -/

/-- The candidates that a request names, with the LOC values of the shard's own run. -/
def askedCands (x : Cmd) (ids : List (Nat × BitVec 48)) : List Cand :=
  ids.map fun (_, v) => (x.search.merged.find? fun y => y.vid == v).getD { key := 0, vid := v, loc := .slot 0 0 }

/-- The member reads its candidates, and answers when the reads are done; an unreadable object answers DATA_ERROR. -/
def shardRerankEffect (s : State) (n : Nat) (x : Cmd) (ids : List (Nat × BitVec 48)) : State :=
  startRerank (s.modSearch n fun w => { w with asked := ids.map (·.1) }) n (askedCands x ids)

/-- SHARD_RERANK, in the mode that the entry of the shard request names. -/
def execShardRerank (coordinator txn : Nat) (cross : Bool) (ids : List (Nat × BitVec 48)) (s : State) :
    Host.Outcome State Fault Refusal :=
  match shardOf s coordinator txn with
  | some (n, x) => occurs (live s && awake s && x.search.phase == .ready && cross == (eRerank x.entry == 2)) (shardRerankEffect s n x ids) s
  | none => occurs false s s

/-- SHARD_RERANK_RSP at the coordinator: distances, or tokens for its own CROSS schedule's pairs; an error ends the command. -/
def rerankRspEffect (s : State) (n d : Nat) (st : Status) (ds : List (Nat × F32)) (toks : List (Nat × List (BitVec 32))) : State :=
  match s.cmd? n with
  | none => s
  | some _ =>
    if st ≠ .success then failSearch s n st (peerCause d 0 0x2C)
    else
      let s := s.modSearch n fun w => { w with rerankWait := w.rerankWait.filter (· != d) }
      let s := ds.foldl (fun s (k, v) => setDist s n k v) s
      settleRerank (toks.foldl (fun s (k, ts) => setTokens s n k ts) s) n

def execShardRerankRsp (cmd device : Nat) (st : Status) (ds : List (Nat × F32)) (toks : List (Nat × List (BitVec 32))) (s : State) :
    Host.Outcome State Fault Refusal :=
  match s.cmd? cmd with
  | some x => occurs (live s && awake s && x.search.phase == .reranking && x.search.rerankWait.contains device)
      (rerankRspEffect s cmd device st ds toks) s
  | none => occurs false s s

/-! ## Forwarded commands (R574) -/

/-- A forwarded command arrives: it is checked here under R498 and waits for its admission with the class it carries. -/
def forwardCmdEffect (s : State) (src txn : Nat) (e : BitVec 1024) (inp : List Byte) : State :=
  let n := s.nextCmd
  let c := (collOf s (eHandle e)).map (·.2)
  let x : Cmd :=
    { origin := .forwarded src txn, entry := e, input := inp, word := fetchWord (eOpcode e)
      embed := (c.map (·.embed)).getD 0, cross := (c.map (·.cross)).getD 0, keepTokens := (c.map (·.keepTokens)).getD false }
  let s := addCmd s x
  if c.isNone then failCheck s n { status := .noCollection, off := 4, value := eHandle e }
  else match homeCheck s x with
    | some f => failCheck s n f
    | none =>
      if eOpcode e = 6 then
        let (s, ws) := closeForFlush s (eIndex e)
        s.modWork n fun w => { w with flushOf := ws }
      else s

/-- Commands that travel as FORWARD_CMD (R160, R574). -/
def forwards (op : Nat) : Bool := [0x02, 0x03, 0x04, 0x05, 0x06, 0x09, 0x0A].contains op

def execForwardCmd (src txn : Nat) (e : BitVec 1024) (inp : List Byte) (s : State) : Host.Outcome State Fault Refusal :=
  let new := !s.cmds.any fun (_, x) => x.origin == .forwarded src txn
  occurs (live s && awake s && isMember s src && forwards (eOpcode e) && new) (forwardCmdEffect s src txn e inp) s

/-- Every status (R497, R525). -/
def allStatuses : List Status :=
  [.success, .shortResult, .truncated, .busyRetry, .aborted, .invalidOpcode, .invalidField, .duplicateTag, .lengthError, .accessError,
    .invalidVector, .noCollection, .collectionBusy, .collectionParked, .snapshotUnavailable, .idExists, .idNotFound, .idExhausted,
    .epochExhausted, .objectBusy, .noSpace, .scheduleInfeasible, .dataError, .tierLate, .numericFault, .scheduleFault, .coreFault,
    .hostFault, .hostAbort, .peerLost, .fwImageInvalid, .fwRollback, .fwSequence, .fwNoImage, .fwActivationBusy, .notMember,
    .attestUnavailable]

/-- The status of a code. -/
def statusOf (n : Nat) : Status := (allStatuses.find? fun st => statusCode st == n).getD .dataError

/-- The fields of a completion entry that a forwarded command brings back (R494). -/
def readCqe (v : BitVec 256) : Completion :=
  let n := v.toNat
  { epoch := bitsOf n 63 0, dw2 := bitsOf n 95 64, dw3 := bitsOf n 127 96, resultLength := bitsOf n 159 128
    status := statusOf (bitsOf n 223 208), clipped := bitOf n 224 }

def execForwardCpl (cmd device : Nat) (cpl : BitVec 256) (result : List Byte) (s : State) : Host.Outcome State Fault Refusal :=
  match s.cmd? cmd with
  | some x => occurs (live s && awake s && x.work.members.contains device) (memberAnswers s cmd device (readCqe cpl) result) s
  | none => occurs false s s

/-! ## RUN_CTL (R233, R234) and ADMIN_FAN (R569, R570) -/

/-- RUN_CTL waits for the firmware (R581). -/
def execRunCtl (m : RunCtl) (s : State) : Host.Outcome State Fault Refusal :=
  occurs (fwServes s && awake s) (runCtlEffect s m) s

/-- A collection or schedule command arrives at a member: a creation of phase 2, settings, a deletion, or a schedule command, which runs
here without a completion of its own. -/
def fanEffect (s : State) (e : BitVec 1024) (inp : List Byte) : State :=
  let h := eHandle e
  match eOpcode e with
  | 0x90 =>
    match readAttrs (inp.take 128), recordMembers inp with
    | some a, some ms => if Tab.has s.colls (eIndex e) then s else (createColl s (eIndex e) (h / 65536) a ms inp).getD s
    | _, _ => s
  | 0x91 =>
    match collOf s h with
    | some (i, c) => ((setAttrs (c.newAttrs.getD c.attrs) inp (eSetMask e)).bind (applySet s i)).getD s
    | none => s
  | 0x92 => match collOf s h with
    | some (i, _) => beginDelete s i noCmd
    | none => s
  | op =>
    let n := s.nextCmd
    startAdmin (adminEffect op) (addCmd s { origin := .firmware, entry := e, input := inp }) n

/-- The commands that ADMIN_FAN carries (R562). -/
def fans (op : Nat) : Bool := [0x90, 0x91, 0x92, 0x98, 0x99, 0x9A].contains op

def execAdminFan (src : Nat) (e : BitVec 1024) (inp : List Byte) (idx : Nat) (s : State) : Host.Outcome State Fault Refusal :=
  occurs (fwServes s && awake s && isMember s src && fans (eOpcode e)
      && ((eOpcode e != 0x90 && eOpcode e != 0x91 && eOpcode e != 0x92) || eIndex e == idx))
    (fanEffect s e inp) s

end Sys2Proof.Machine
end

