-- ==== Sys2Proof/Machine/Startup.lean ====
section
/-! DEFINITION. Resets of the device (R620, R621, R659, R660, R665), start-up (R592, R593, R622), what befalls islands and crossings
(R605, R608, R644, R669), and the events of the security block (R594, R596, R645, R646). -/

namespace Sys2Proof.Machine

open Sys2Proof

/-! ## What a reset keeps (R620) -/

/-- The logical tiles of T4 that images and journals hold. -/
def imageTilesOf (cs : Table Collection) : List Nat :=
  cs.flatMap fun (_, c) => match c.image with
    | some g => g.tiles ++ g.mirrors
    | none => []

/-- What the flash holds of a collection: its attributes and recorded ceilings, its image, and where it was parked (R185, R674). A
collection whose deletion had begun is gone (R539) (DEDUCED, log entry 105). -/
def durableColl (c : Collection) : Collection :=
  { gen := c.gen, attrs := c.attrs, members := c.members, image := c.image, durableCeiling := c.durableCeiling
    idCeiling := c.idCeiling, residency := c.residency, nextLocal := c.nextLocal }
def durableColls (s : State) : Table Collection :=
  (s.colls.filter fun (_, c) => c.deleting.isNone).map fun (i, c) => (i, durableColl c)

/-- T4 contents that are programmed: images and journals, the wear of the medium and its format (R428, R447). What else T4 held served
objects that the reset ends. -/
def durableFlash (f : Flash) (cs : Table Collection) : Flash :=
  let used := imageTilesOf cs
  { map := Tab.keep f.map fun p _ => used.contains (p / 4), pages := f.pages, blocks := f.blocks, top := f.top, profile := f.profile
    lunBlocks := f.lunBlocks, grownBad := f.grownBad, used := used }

/-- OTP and boot flash, and the entry of a FATAL event (R584, R589, R596, R629). TEST_PORT is cleared by a power-on reset only (R594). -/
def durableSecurity (x : Security) (powerOn : Bool) : Security :=
  { counter0 := x.counter0, counter1 := x.counter1, edKeys := x.edKeys, mldsaKeys := x.mldsaKeys, lifecycle := x.lifecycle, uds := x.uds
    exported := x.exported, testPort := x.testPort && !powerOn, slot0 := x.slot0, slot1 := x.slot1, recA := x.recA, recB := x.recB
    certs := x.certs, fatalKept := x.fatalKept }

/-- The state after a power-on reset or a device reset: every field at its reset value but what survives (R620). The port's and links'
records of what has been sent are history, not registers (DESIGN CHOICE, log entry 6). -/
def afterReset (s : State) (powerOn : Bool) : State :=
  let cs := durableColls s
  { pending := s.pending, time := s.time, free := s.free, gens := s.gens, colls := cs
    power := { pwrok := !powerOn, devrstN := s.power.devrstN, board := if powerOn then none else s.power.board
               limit := if powerOn then 0 else s.power.limit, railFault := s.power.railFault
               shutdownSensor := s.power.shutdownSensor }
    port0 := { sent := s.port0.sent }, port1 := { sent := s.port1.sent }
    flash := durableFlash s.flash cs
    hbm := {
      record := s.hbm.record, recordRt := s.hbm.recordRt, recordFailed := s.hbm.recordFailed, recordSpares := s.hbm.recordSpares
      recordLanes := s.hbm.recordLanes }
    net := { links := Tab.map s.net.links fun l => { packets := l.packets, ctl := l.ctl } }
    security := durableSecurity s.security powerOn
    features := { saved := s.features.saved, pendingWbuf := s.features.pendingWbuf, pendingRetry := s.features.pendingRetry } }

/-! ## Boot chain (R592, R593) -/

/-- The measured state of step 1: the ROM version, lifecycle, counters, revoke fuses and TEST_PORT. The manual names the items and gives
no layout (DESIGN CHOICE, log entry 42). -/
def romRecord (x : Security) : List Byte :=
  let fuses (l : List (BitVec 384 × Bool)) : Nat := ((l.zipIdx).map fun (k, i) => if k.2 then 2 ^ i else 0).foldl (· + ·) 0
  layout ([(4, Config.romVersion.toNat), (1, lifecycleCode x.lifecycle)]
    ++ (x.counter0.map fun v => (2, v.toNat)) ++ (x.counter1.map fun v => (2, v.toNat))
    ++ [(1, fuses x.edKeys), (1, fuses x.mldsaKeys), (1, b2n x.testPort)])

/-- At start-up the boot ROM appends the higher counter value to the lower counter when the two differ (R590). -/
def reconcileCounters (s : State) : State :=
  let a := counterValue s.security.counter0
  let b := counterValue s.security.counter1
  if a < b then appendCounter s 0 b else if b < a then appendCounter s 1 a else s

/-- The first failing item of a slot's image; an empty slot fails the first. -/
def slotFails (s : State) (slot : Nat) : Option Nat :=
  match slotImage s slot with
  | some b => imageFails s b slot
  | none => some 1

/-- The slot that starts: the selected one where it passes, else the other (R592). -/
def bootSlot (s : State) : Option Nat :=
  let a := selectedSlot s
  if (slotFails s a).isNone then some a else if (slotFails s (1 - a)).isNone then some (1 - a) else none

/-- Step 6: MEAS1 takes the started image's header, MEAS2 the board configuration record (R594). -/
def measureBoot (s : State) (b : BootInputs) (img : List Byte) : State :=
  extendMeas (extendMeas s 1 1 (imageVersion img) (Config.sha384 (img.take 0x100))) 2 2 0 (Config.sha384 b.boardRecord)

/-- Step 1 of R592: the measurement registers are zero, the log is empty, the counters agree, and MEAS0 is extended. -/
def bootStart (s : State) : State :=
  let s := s.modSec fun x => { x with meas := [0, 0, 0, 0, 0], log := [], extends_ := 0, overflow := false }
  let s := reconcileCounters s
  extendMeas s 0 0 0 (Config.sha384 (romRecord s.security))

/-! ## HBM start-up (R296, R297, R281) -/

/-- What training finds of a channel at a rate (R294). -/
def trainedAt (b : BootInputs) (c rate : Nat) : Option Lanes := Tab.getD b.training (c * 4 + rate) (some [])

/-- The channels of a stack. -/
def stackChannels (st : Nat) : List Nat := (List.range 32).map fun k => 32 * st + k

/-- The rate of a stack: the highest at which 31 of its channels pass, else the lowest (R276, R296). -/
def stackRate (b : BootInputs) (st : Nat) : Nat :=
  ([3, 2, 1].find? fun r => decide (31 ≤ ((stackChannels st).filter fun c => trains (trainedAt b c r)).length)).getD 0

/-- A channel has trained at its stack's rate. -/
def hasTrained (b : BootInputs) (c : Nat) : Bool := trains (trainedAt b c (stackRate b (c / 32)))

/-- The channels of a stack that pass: training and self-test, and not recorded as FAILED (DEDUCED, log entry 43). -/
def passingChannels (s : State) (b : BootInputs) (st : Nat) : List Nat :=
  (stackChannels st).filter fun c => hasTrained b c && testPasses (Tab.getD b.checks c []) && !s.hbm.recordFailed.contains c

/-- The spare of a stack: the recorded one where it passed, else the highest-numbered; none with 31 passing channels or fewer. -/
def spareOf (s : State) (b : BootInputs) (st : Nat) : Option Nat :=
  let ok := passingChannels s b st
  if ok.length < 32 then none
  else match Tab.get? s.hbm.recordSpares st with
    | some c => if ok.contains c then some c else ok.getLast?
    | none => ok.getLast?

/-- Active channels of a stack, in rising order. -/
def activeOf (s : State) (b : BootInputs) (st : Nat) : List Nat := (passingChannels s b st).filter fun c => spareOf s b st != some c

/-- PERM: active channels by (rank, stack) (R281). -/
def permOf (s : State) (b : BootInputs) : List Nat :=
  let byStack := (List.range 16).map (activeOf s b)
  (List.range 32).flatMap fun r => byStack.filterMap fun l => l[r]?

/-- Steps 2, 3 and 5 for a channel: its rate and spare lanes, where it trained, and its recorded row remaps (R294, R296). -/
def trainChannel (b : BootInputs) (s : State) (c : Nat) : State :=
  let rate := stackRate b (c / 32)
  s.modChan c fun x => { x with
    pinRate := rate, remaps := Tab.getD s.hbm.record c []
    spareLanes := if hasTrained b c then (trainedAt b c rate).getD [] else x.spareLanes }

/-- Step 4: every trained channel is tested. -/
def testChannel (b : BootInputs) (s : State) (c : Nat) : State :=
  if hasTrained b c then channelTest s c (Tab.getD b.checks c []) else s

/-- HBM comes up and opens to traffic; patrol scrub runs. Stacks with fewer than 31 passing channels are reported (R297): HBM is critical, and
the HEALTH page has a notice (DESIGN CHOICE, log entry 133). -/
def bootHbm (s : State) (b : BootInputs) : State :=
  let spares : Table Nat := (List.range 16).filterMap fun st => (spareOf s b st).map fun c => (st, c)
  let failed := (List.range 512).filter fun c => !(passingChannels s b (c / 32)).contains c
  let perm := permOf s b
  let short := (List.range 16).any fun st => decide ((passingChannels s b st).length < 31)
  let s := (List.range 512).foldl (trainChannel b) s
  let s := (List.range 512).foldl (testChannel b) s
  let lanes : Table Lanes := (List.range 512).map fun c => (c, (s.chan c).spareLanes)
  let s := s.modHbm fun h => { h with
    channels := Tab.mapKeys h.channels fun c x => { x with
      state := if failed.contains c then .failed else if spares.any (fun y => y.2 == c) then .spare else .active }
    perm := perm, rt := h.recordRt, spares := spares, isOpen := true
    recordDirty := failed != h.recordFailed || spares != h.recordSpares || lanes != h.recordLanes }
  let s := s.modPower fun p => { p with scrub := true }
  if short then notice (critical s critHbm true) lidHealth else s

/-! ## Cores (R622 step 6) -/

/-- Local stores without core n's: a spare's local store starts empty (R247). -/
def dropLocal (m : Memory) (n : Nat) : Memory := m.filter fun (a, _) => a / 2 ^ 18 != n

/-- A core fails: the quarter's spare takes its number, or it is absent where the spare is in use (R247, R248)
(DESIGN CHOICE, log entry 110). -/
def spareCore (s : State) (n : Nat) : State :=
  let q := n / 64
  let s : State := { s.modCore n fun x => { x with forgot := none, selectForgot := none } with localStore := dropLocal s.localStore n }
  let s := if (s.quarter q).spareUsed then s.modCore n fun x => { x with absent := true }
    else s.modQuarter q fun x => { x with spareUsed := true }
  deviceLog s kindSparing q (n + (if (s.core n).absent then n else 4096 + q) * 2 ^ 64)

/-- The quarters come up, the cores that failed the self-test are spared, and a quarter with more than 8 absent cores is out (R637). -/
def bootCores (s : State) (b : BootInputs) : State :=
  let s : State := { s with quarters := (List.range 64).map fun q => (q, ({} : Quarter)) }
  let s := b.failedCores.eraseDups.foldl spareCore s
  (List.range 64).foldl (fun s q => if 8 < absentCores s q then quarterOut s q else s) s.settleClocks

/-! ## Flash (R420 to R424, R445, R446) -/

/-- T4 is fitted (R420, R664). -/
def flashFitted (b : BootInputs) : Bool := !b.noFlash && !b.flashChannels.isEmpty

/-- Formatting: every block is erased and every page UNMAPPED; what the system area held is gone (R446). -/
def formatFlash (s : State) (b : BootInputs) : State :=
  let s := s.modFlash fun f => { f with
    map := [], pages := [], used := [], top := 4 * (b.flashDieGiB * 3 / 4) * 2 ^ 30, grownBad := 0
    blocks := Tab.map f.blocks fun x => { x with erases := x.erases + 1, reads := 0, next := 0, refreshDue := false } }
  { s with
    colls := Tab.map s.colls fun c => { c with image := none }
    features := { s.features with saved := [] } }

/-- The channels after training (R422). -/
def bootFlashCh (b : BootInputs) (c : Nat) : Nat × FlashCh :=
  (c, { state := if b.flashFailed.contains c then .failed else .active, rate := b.flashRate, targets := b.flashTargets, luns := b.flashLuns })

/-- The LUNs of a target, by key. -/
def targetLuns (b : BootInputs) (c t : Nat) : List Nat :=
  (List.range b.flashLuns).map fun l => c / 4 * 2 ^ 32 + c % 4 * 2 ^ 30 + t * 2 ^ 27 + l * 2 ^ 23

/-- Pages on LUNs that have failed. -/
def pagesOnLuns (s : State) (ls : List Nat) : List Nat :=
  (s.flash.map.filter fun (p, l) => l != lostLoc && ls.contains (lunKey (flashDie (p / 4)) l)).map (·.1)

/-- A target that fails Read ID is not used: its LUNs have failed, and the log names it (R421, R443, R669) (DEDUCED, log entry 116). -/
def dropTarget (b : BootInputs) (s : State) (x : Nat × Nat) : State :=
  let ls := targetLuns b x.1 x.2
  let s := s.modFlash fun f => { f with failedLuns := f.failedLuns ++ ls }
  losePages (deviceLog s kindFlash 0 (flashDetail (ls.headD 0))) (pagesOnLuns s ls)

/-- Steps 1 to 7 of R445: channels, system area, the features that take effect now (R535), the published figures, T4 open; then what the
failed channels and targets held is lost. -/
def bootFlash (s : State) (b : BootInputs) : State :=
  let s := if b.systemArea then s else formatFlash s b
  let wbuf := s.features.pendingWbuf.getD (savedFeature s .p0 8 0)
  let retry := s.features.pendingRetry.getD (savedFeature s .p0 9 0)
  let n := b.flashChannels.length
  let bnd := bound4 b.profile b.flashRate retry
  let s := s.modFlash fun f => { f with
    state := .normal, isOpen := true, channels := (b.flashChannels.mergeSort (· ≤ ·)).map (bootFlashCh b), profile := b.profile
    lunBlocks := b.lunBlocks, retryLimit := retry, wbufMiB := wbuf, bound := bnd, window := n * 4
    floor := n * 4 * 65536 * 1000000000 / max 1 bnd }
  let s : State := { s with features := { s.features with pendingWbuf := none, pendingRetry := none } }
  let lost := b.flashFailed.filter fun c => b.flashChannels.contains c
  let s := lost.foldl channelFails s
  updateT4 (b.badTargets.foldl (dropTarget b) s)

/-- Saved features take the place of defaults (R535). -/
def loadFeature (s : State) (x : Nat × Nat) : State :=
  let (k, v) := x
  let p : PortId := if k < 1024 then .p0 else .p1
  let fid := k % 1024 / 4
  if fid = 8 ∨ fid = 9 then s
  else if fid = 5 then s.modPort p fun y => { y with hotPeriod := v, hotPeriodNext := v }
  else setFeature s p fid (k % 4) v

/-- Steps 8 to 10 of R622, skipped on a device without T4, on which every collection starts empty: its slots are free (DEDUCED, log entry 44). -/
def bootStorage (s : State) (b : BootInputs) : State :=
  if flashFitted b then
    let s := bootFlash s b
    let s := s.features.saved.foldl loadFeature s
    (Tab.keys s.colls).foldl restoreColl s
  else { s with colls := [] }

/-! ## Start-up (R622) -/

/-- A port comes up: its configuration space is ready; one whose link does not train, or that PORT1_OFF names, stays in reset (R456,
R475, R664) (DEDUCED, log entry 113). -/
def bootPort (b : BootInputs) (s : State) (p : PortId) : State :=
  s.modPort p fun x => { x with
    configReady := true, heldOff := b.port1Off && p == .p1, inReset := b.untrained.contains p }
def readyPort (s : State) (p : PortId) : State :=
  s.modPort p fun x => { x with ready := !x.heldOff && !x.inReset }

/-- What the log takes from before the reset: the sensor of a thermal shutdown (R627) and the entry of a FATAL event (R629). -/
def bootLogs (s : State) : State :=
  let s := match s.power.shutdownSensor with
    | some (n, t) => (deviceLog s kindThermal n t.toNat).modPower fun p => { p with shutdownSensor := none }
    | none => s
  match s.security.fatalKept with
  | some e => appendLog s e
  | none => s

/-- The firmware has started from a slot: steps 3 to 11 (DESIGN CHOICE, log entry 53). -/
def startFirmware (s : State) (b : BootInputs) (slot : Nat) (img : List Byte) : State :=
  let s := measureBoot s b img
  let s := s.modSec fun x => { x with active := some slot, running := img.take 0x2000, recovery := false, certValid := b.certOk && !x.certs.isEmpty }
  let s := if slot = selectedSlot s then s
    else deviceLog s kindFirmware (selectedSlot s) ((slotFails s (selectedSlot s)).getD 0)
  let s := s.modPower fun p => { p with phase := .running, flashProtect := false, xspiReset := false }
  let s := bootLogs s
  let s := [PortId.p0, PortId.p1].foldl (bootPort b) s
  let s := s.modSb fun x => { x with addr := b.sbAddress.getD 0x4A }
  let s := s.modNet fun x => { x with installId := b.installId, deviceNumber := b.deviceNumber, joined := b.soleMember }
  let s := if b.systemArea && flashFitted b then s
    else s.modHbm fun h => { h with record := [], recordRt := [], recordFailed := [], recordSpares := [], recordLanes := [] }
  let s := bootHbm s b
  let s := runIslands s (List.range 103)
  let s := bootCores s b
  let s := bootStorage s b
  let s := [PortId.p0, PortId.p1].foldl readyPort s
  if s.port0.ready || s.port1.ready then raiseCounters s else s

/-- Neither slot passes: recovery, in which the boot ROM serves the mailboxes of both ports and the sideband (R593). -/
def startRecovery (s : State) (b : BootInputs) : State :=
  let s := s.modSec fun x => { x with recovery := true, active := none, running := [] }
  let s := s.modPower fun p => { p with phase := .recovery, xspiReset := false }
  let s := [PortId.p0, PortId.p1].foldl (bootPort b) s
  let s := s.modSb fun x => { x with addr := b.sbAddress.getD 0x4A }
  runIslands s [72, 73, 92, 93, 102]

/-- Start-up from step 1. -/
def runStart (s : State) (b : BootInputs) : State :=
  let s := bootStart s
  match bootSlot s with
  | some slot => startFirmware s b slot ((slotImage s slot).getD [])
  | none => startRecovery s b

/-- Start-up goes as far as the pins let it: STRAP3 keeps the device in reset (R664), a low DEVRST_N makes it wait (R665), and so do PLLs
that do not lock (R669). -/
def goOn (s : State) (b : BootInputs) : State :=
  let hold (ph : Phase) : State := s.modPower fun p => { p with phase := ph }
  if b.strap3 then hold .strapHold
  else if !s.power.devrstN then hold .waitDevrst
  else if !b.refclk then hold .waitPll
  else runStart s b

/-- The board as start-up sees it: the straps count as they were when PWROK rose (R664) (DEDUCED, log entry 115). -/
def boardNow (s : State) (b : BootInputs) : BootInputs :=
  match s.power.board with
  | some o => { b with noFlash := o.noFlash, port1Off := o.port1Off, sris := o.sris, strap3 := o.strap3 }
  | none => b

/-- START_UP: PWROK rises, or a device reset ends. -/
def startEffect (s : State) (b : BootInputs) : State :=
  let b := boardNow s b
  goOn (s.modPower fun p => { p with pwrok := true, board := some b }) b

def execStartUp (b : BootInputs) (s : State) : Host.Outcome State Fault Refusal :=
  occurs (s.power.phase == .powerOff && (Instr.startUp b).wf) (startEffect s b) s

/-- DEVRST_N_RELEASE (R665). -/
def releaseEffect (s : State) : State :=
  let s := s.modPower fun p => { p with devrstN := true }
  match s.power.phase, s.power.board with
  | .waitDevrst, some b => goOn s b
  | _, _ => s

def execDevrstNRelease (s : State) : Host.Outcome State Fault Refusal := occurs (!s.power.devrstN) (releaseEffect s) s

/-- PLL_LOCK: start-up goes on past step 1; or an island that had lost its PLL runs again, with its crossings (R605, R608, R644). -/
def lockEffect (s : State) (i : Nat) : State :=
  match s.power.phase, s.power.board with
  | .waitPll, some b => goOn (s.modPower fun p => { p with board := some { b with refclk := true } }) { b with refclk := true }
  | _, _ => ((crossingsOf i).foldl settleCrossing (runIsland s i)).settleClocks

def execPllLock (island : Nat) (s : State) : Host.Outcome State Fault Refusal :=
  occurs (okIsland island && ((s.power.phase == .waitPll && island == 102) || (live s && (s.island island).state == .reset)))
    (lockEffect s island) s

/-! ## Resets -/

/-- POWER_DOWN: PWROK falls; the flash is write-protected, XSPI_RESET_N low, every island stopped, and power-on reset holds (R659). What
the VDD_SB domain holds stays (DEDUCED, log entry 45). -/
def execPowerDown (s : State) : Host.Outcome State Fault Refusal := occurs s.power.pwrok (afterReset s true) s

/-- RAIL_FAULT: a power-on reset that the rail-fault register records (R660). Below 90% of VDD_SB, rail 16, the pending values of R535 are
lost with it. -/
def railEffect (s : State) (rail : Nat) (above : Bool) : State :=
  let s := (afterReset s true).modPower fun p => { p with railFault := some (above, rail) }
  if rail = 16 ∧ !above then { s with features := { s.features with pendingWbuf := none, pendingRetry := none } } else s

def execRailFault (rail : Nat) (above : Bool) (s : State) : Host.Outcome State Fault Refusal :=
  occurs (s.power.pwrok && okRail rail) (railEffect s rail above) s

/-- A device reset: the Denop ports go down before anything else (R621). -/
def deviceReset (s : State) : State :=
  let up := (List.range 6).filter fun p => carries (s.link p)
  afterReset (up.foldl (fun s p => leaveService s p (s.link p).excluded) s) false

/-- A device reset ends every state but power-on reset and a thermal shutdown, which only a power-on reset leaves (R627). -/
def mayReset (s : State) : Bool :=
  s.power.phase == .running || s.power.phase == .recovery || s.power.phase == .fatal || s.power.phase == .waitPll

/-- DEVICE_RESET: DEVRST_N low for 1 µs or more, or the firmware's own request (R620, R665). A low DEVRST_N while PWROK is low is seen
when PWROK rises. -/
def execDeviceReset (cause : ResetCause) (s : State) : Host.Outcome State Fault Refusal :=
  match cause with
  | .pin ns =>
    if s.power.pwrok then occurs (mayReset s && decide (1000 ≤ ns)) (deviceReset s) s
    else occurs true (s.modPower fun p => { p with devrstN := false }) s
  | .firmware => occurs (live s) (deviceReset s) s

/-! ## Island loss (R605, R644) -/

/-- What an island's loss does, by its kind. -/
def islandResponse (s : State) (i detail : Nat) : State :=
  if i < 64 then quarterOut s i
  else if i = 92 then portReset s .p0 false
  else if i = 93 then portReset s .p1 false
  else if 94 ≤ i ∧ i < 98 then
    ((List.range 6).filter fun p => dieOfPort p == i - 94 && carries (s.link p)).foldl
      (fun s p => leaveService s p (s.link p).excluded) s
  else if 98 ≤ i ∧ i < 102 then
    ((List.range 4).map fun k => 4 * (i - 98) + k).foldl (fun s c =>
      if (flashCh s c).state = .active then notice (modFlashCh s c fun x => { x with state := .retraining }) lidFlash else s) s
  else fatal s kindIsland i detail

/-- The bits of a set of crossings, as an entry of KIND ISLAND names them (DESIGN CHOICE, log entry 46). -/
def crossingBits (cs : List Nat) : Nat := (cs.map fun c => 2 ^ c).foldl (· + ·) 0

/-- An island is held in reset and its crossings are isolated; the event is logged and handled by kind. -/
def loseIsland (s : State) (i : Nat) : State :=
  let cs := (crossingsOf i).filter fun c => (s.crossing c).state == .run
  let s := s.modIsland i fun x => { x with state := .reset, rate := 0, locked := false }
  let s := (crossingsOf i).foldl settleCrossing s
  let fatalKind := !(decide (i < 64) || (decide (92 ≤ i) && decide (i < 102)))
  islandResponse (if fatalKind then s else deviceLog s kindIsland i (crossingBits cs)) i (crossingBits cs)

def execPllLoss (island : Nat) (s : State) : Host.Outcome State Fault Refusal :=
  occurs (live s && okIsland island && (s.island island).state != .reset && (s.island island).state != .off) (loseIsland s island) s

/-- The smaller island of a crossing (R632): the quarter, controller, host, link or flash island; between fabrics, and at the control
island, side A, whose loss is FATAL like that of side B. -/
def smallerIsland (c : Nat) : Nat :=
  if c < 64 then c
  else if c < 80 then 76 + (c - 64)
  else if c < 94 then (crossingSides c).1
  else if c < 96 then 92 + (c - 94)
  else if c < 100 then 94 + (c - 96)
  else if c < 104 then 98 + (c - 100)
  else 102

/-- CROSSING_PARITY_ERROR: the crossing is ISOLATED, handled as the loss of the smaller island (R632, R644). -/
def execCrossingParityError (c : Nat) (s : State) : Host.Outcome State Fault Refusal :=
  occurs (live s && okCrossing c && (s.crossing c).state == .run) (loseIsland s (smallerIsland c)) s

/-- PEAK_CLEAR: the firmware writes CX_CTRL (R610). -/
def execPeakClear (c : Nat) (s : State) : Host.Outcome State Fault Refusal :=
  occurs (fwServes s && okCrossing c) (s.modCrossing c fun x => { x with peakAB := 0, peakBA := 0 }) s

/-! ## Security block and firmware -/

/-- SECURITY_BLOCK_FAULT (R645); the manual gives it no KIND of its own (DEDUCED, log entry 47). -/
def execSecurityBlockFault (s : State) : Host.Outcome State Fault Refusal :=
  occurs (live s || s.power.phase == .recovery) (fatal s kindFirmware 0 (fwActive s)) s

/-- Admin commands in progress. -/
def adminInProgress (s : State) : List Nat :=
  (s.cmds.filter fun (_, x) => adminOpcode (eOpcode x.entry) && x.stage == .admitted).map (·.1)

/-- The firmware restarts without a hand-over record (R646): admin commands in progress end with DATA_ERROR, maintenance before its
cutover ends (R194), and firmware work goes on from its logged state. -/
def restartFirmware (s : State) : State :=
  let z : Cause := { kind := kindFirmware, loc := 0, detail := fwActive s }
  let busy := adminInProgress s
  let s := (Tab.keys s.colls).foldl dropMaint s
  let s := oneEvent (flushHeld (s.modSec fun x => { x with activating := none })) true z fun s => failAll s busy .dataError z
  reroute (resumeWork s)

/-- WATCHDOG_EXPIRY: a second one within 10 minutes is FATAL (R645, R646). -/
def watchdogEffect (s : State) : State :=
  let again := match s.security.watchdog with
    | some t => decide (s.time ≤ t + 600000000000)
    | none => false
  let s := s.modSec fun x => { x with watchdog := some s.time }
  if again then fatal s kindFirmware 0 (fwActive s) else restartFirmware s

def execWatchdogExpiry (s : State) : Host.Outcome State Fault Refusal := occurs (live s) (watchdogEffect s) s

/-- TEST_PORT_ACCESS: TEST_PORT is 1 until the next power-on reset (R594). -/
def execTestPortAccess (s : State) : Host.Outcome State Fault Refusal :=
  occurs s.power.pwrok (s.modSec fun x => { x with testPort := true }) s

/-- PROVISIONING at manufacture: the UDS is blown and never exposed, the keys' digests are in OTP, the public keys are exported, the boot
flash is written, and the lifecycle state is PRODUCTION (R587, R596, R598; DEDUCED, log entry 48). -/
def execProvisioning (m : Manufacture) (s : State) : Host.Outcome State Fault Refusal :=
  occurs (s.security.lifecycle == .manufacture && (Instr.provisioning m).wf)
    (s.modSec fun x => { x with
      uds := some m.uds, edKeys := m.edKeys.map fun k => (k, false), mldsaKeys := m.mldsaKeys.map fun k => (k, false)
      slot0 := some m.image, certs := m.certs, exported := true, lifecycle := .production }) s

/-- PMB_ALERT: PMB_ALERT_N is logged only (R661). -/
def execPmbAlert (s : State) : Host.Outcome State Fault Refusal :=
  occurs (live s) (deviceLog (s.modPower fun p => { p with pmbAlerts := p.pmbAlerts + 1 }) kindIsland 102 0) s

end Sys2Proof.Machine
end

