-- ==== Sys2Proof/Machine/Power.lean ====
section
/-! DEFINITION. Power states (R613 to R616), the power limit and its telemetry (R618, R619, R661), and thermal protection (R623 to R627).
The times of these rows are conditions on when they arrive (DESIGN CHOICE, log entry 7); what State can show of their conditions is checked. -/

namespace Sys2Proof.Machine

open Sys2Proof

/-! ## Conditions of R614 -/

/-- The device rests in a state, with no entry in progress. -/
def restsIn (s : State) (d : Dp) : Bool := live s && s.power.dp == d && s.power.entering.isNone

/-- No request of a mailbox or of the sideband is in work. -/
def mailboxesIdle (s : State) : Bool :=
  [PortId.p0, PortId.p1].all (fun p => !(s.port p).mailboxes.any fun (_, m) => m.firmware) && !s.sideband.firmware

/-- No firmware work is in progress or due: activation, migration, maintenance, deletion, restores, images, T4 writes, recovery and
refresh of pages, a change of the repair record. -/
def firmwareIdle (s : State) : Bool :=
  s.security.activating.isNone && !s.hbm.recordDirty
    && (s.hbm.channels.all fun (_, c) => c.phase == .idle)
    && (s.colls.all fun (_, c) => c.maint.isNone && c.deleting.isNone && !c.restoring && c.pendingImage.isNone && c.remote.isNone)
    && s.tiers.backingQueue.isEmpty && s.flash.recoverDue.isEmpty && (s.flash.blocks.all fun (_, b) => !b.refreshDue)

/-- The condition of DP2 that State can show. -/
def mayRest (s : State) : Bool := s.cmds.isEmpty && mailboxesIdle s && firmwareIdle s && s.tiers.lent.isEmpty && s.runs.isEmpty

/-- Both host ports are in D3hot or held in reset (R475). -/
def portsAsleep (s : State) : Bool := [PortId.p0, PortId.p1].all fun p => (s.port p).d3hot || (s.port p).heldOff || (s.port p).inReset

/-- The device is epoch home of no sharded collection. -/
def homeOfNone (s : State) : Bool := s.colls.all fun (_, c) => decide (c.members.length ≤ 1) || !isHome s c

/-! ## Entry and exit (R615) -/

def enterDp (s : State) (d : Dp) : State := s.modPower fun p => { p with entering := some d, entryCmd := false }

/-- DP1_ENTRY: no admitted run with a CHECK_CLOCK above 7. -/
def execDp1Entry (s : State) : Host.Outcome State Fault Refusal :=
  occurs (restsIn s .dp0 && (s.runs.all fun (_, r) => !r.launched || decide ((Tab.getD s.scheds r.sched {}).header.checkClock ≤ 7)))
    (enterDp s .dp1) s

/-- DP2_ENTRY. -/
def execDp2Entry (s : State) : Host.Outcome State Fault Refusal := occurs (restsIn s .dp1 && mayRest s) (enterDp s .dp2) s

/-- DP3_ENTRY. -/
def execDp3Entry (s : State) : Host.Outcome State Fault Refusal :=
  occurs (restsIn s .dp2 && mayRest s && portsAsleep s && homeOfNone s) (enterDp s .dp3) s

/-- A slice's dirty sectors are written back; its lines stay. -/
def cleanLine (s : State) (k : Nat) : State :=
  match Tab.get? s.cache.lines k with
  | none => s
  | some l => (writeBack s l).modCache fun c => { c with
      lines := Tab.set c.lines k { l with sectors := l.sectors.map fun x => { x with dirty := false } } }
def cleanSlices (s : State) : State :=
  let s := (List.range 64).foldl (fun s n => (wcOf s n).foldl (fun s w => drainWc s n w.line) s) s
  (Tab.keys s.cache.lines).foldl cleanLine s

/-- Islands stop in a state, with no working clock. -/
def stopIslands (s : State) (is : List Nat) (st : IslState) : State :=
  is.foldl (fun s i => s.modIsland i fun x => { x with state := if x.state = .run ∨ x.state = .gated then st else x.state, rate := 0 }) s

/-- Steps 2 to 6 of the entry to DP2: scrub stops, the slices are clean and in retention, the quarters are gated
(DEDUCED, log entry 106). -/
def sleepDp2 (s : State) : State :=
  stopIslands (cleanSlices (s.modPower fun p => { p with scrub := false })) (List.range 64) .gated

/-- The further steps of the entry to DP3: control areas and granted blocks are kept, lines and local stores are not; quarters, compute
fabrics and flash channels are off (DESIGN CHOICE, log entry 126). -/
def sleepDp3 (s : State) : State :=
  let s : State := { s with
    localStore := [], cores := Tab.map s.cores fun c => { c with alleyDone := 0, alleyErr := 0, forgot := some s.free, selectForgot := some s.free } }
  let s := s.useFree
  let s := s.modCache fun c => { c with lines := [], nextVictim := [], recent := [] }
  stopIslands s (List.range 72 ++ [98, 99, 100, 101]) .off

/-- The device is back in DP0: what was off or gated runs, scrub runs, and the commands that waited may go on (R515, R616). -/
def wake0 (s : State) : State :=
  let back := (s.islands.filter fun (_, x) => x.state == .gated || x.state == .off).map (·.1)
  let s := back.foldl runIsland s
  let s := s.modPower fun p => { p with dp := .dp0, entering := none, entryCmd := false, scrub := true }
  let s : State := { s with cmds := Tab.map s.cmds fun c => { c with heldDp := false } }
  s.settleClocks

/-- DP_ENTRY_COMPLETE: the entry has ended; with a command fetched meanwhile the exit begins at once (R515). -/
def entryEffect (s : State) (d : Dp) : State :=
  let t := match d with
    | .dp2 => sleepDp2 s
    | .dp3 => sleepDp3 s
    | _ => s
  let t := (t.modPower fun p => { p with dp := d, entering := none }).settleClocks
  if s.power.entryCmd then wake0 t else t

def execDpEntryComplete (s : State) : Host.Outcome State Fault Refusal :=
  match s.power.entering with
  | some d => occurs (live s && (d == .dp1 || s.flash.wbuf.isEmpty)) (entryEffect s d) s
  | none => .next s

/-- DP1_EXIT. -/
def execDp1Exit (s : State) : Host.Outcome State Fault Refusal := occurs (restsIn s .dp1) (wake0 s) s

/-- DP_EXIT: from DP2 or DP3 directly to DP0. -/
def execDpExit (s : State) : Host.Outcome State Fault Refusal := occurs (restsIn s .dp2 || restsIn s .dp3) (wake0 s) s

/-! ## Thermal protection (R623 to R627) -/

/-- Throttle, alarm and shutdown thresholds of a sensor in 1/8 °C (R624), and the hysteresis. -/
def throttleAt (n : Nat) : Int := if n < 12 then 760 else 680
def alarmAt (n : Nat) : Int := if n < 12 then 840 else 760
def shutdownAt (n : Nat) : Int := if n < 12 then 920 else 840
def hysteresis : Int := 24

/-- A threshold with its hysteresis: whether a reading is above, given that the last one was. -/
def aboveWith (th t : Int) (was : Bool) : Bool := decide (th ≤ t) || (was && decide (th - hysteresis ≤ t))

def State.sensor (s : State) (n : Nat) : Sensor := Tab.getD s.sensors n {}
def State.modSensor (s : State) (n : Nat) (f : Sensor → Sensor) : State := { s with sensors := Tab.modify s.sensors n {} f }

/-- A sensor reaches its alarm threshold (R626) (DESIGN CHOICE, log entry 104) (DEDUCED, log entry 114). -/
def alarm (s : State) (n : Nat) (t : Int) : State :=
  notice ((deviceLog (critical s critThermal true) kindThermal n t.toNat).modPower fun p => { p with alert := true }) lidHealth

/-- One sensor's reading. CRITICAL bit 2 shows whether any sensor is in alarm. -/
def sampleOne (s : State) (x : Nat × Int) : State :=
  let (n, t) := x
  let old := s.sensor n
  let thr := aboveWith (throttleAt n) t old.throttling
  let alm := aboveWith (alarmAt n) t old.alarm
  let s := s.modSensor n fun y => { y with
    temp := t, max := max y.max t, throttling := thr, alarm := alm
    events := if thr && !old.throttling then satAdd (2 ^ 32 - 1) y.events 1 else y.events }
  if alm && !old.alarm then alarm s n t else critical s critThermal (s.sensors.any fun (_, y) => y.alarm)

/-- Thermal shutdown (R627): THERMTRIP_N, every island but control stops, every transfer and the write buffer are lost, the Denop ports
drop. The next start-up logs the sensor. -/
def thermalShutdown (s : State) (n : Nat) (t : Int) : State :=
  let up := (List.range 6).filter fun p => carries (s.link p)
  let s := up.foldl (fun s p => leaveService s p (s.link p).excluded) s
  let s := s.modPower fun p => { p with phase := .thermalStop, thermtrip := true, shutdownSensor := some (n, t) }
  let s := s.modFlash fun f => { f with wbuf := [], wdata := [], wheld := [], reads := [] }
  let s := stopIslands s (List.range 102) .off
  { s with pieces := [], alleys := [] }

/-- THERMAL_SAMPLE: the power controller reads every sensor; the first at its shutdown threshold stops the device. -/
def sampleEffect (s : State) (rs : List Int) : State :=
  let xs := (List.range 28).zip rs
  let s := xs.foldl sampleOne s
  match xs.find? fun (n, t) => decide (shutdownAt n ≤ t) with
  | some (n, t) => thermalShutdown s n t
  | none => s

def execThermalSample (readings : List Int) (s : State) : Host.Outcome State Fault Refusal :=
  occurs (live s && readings.length == 28) (sampleEffect s readings) s

/-- The compute dies that a sensor throttles: its own, or for an I/O die the adjacent one (R25, R625). -/
def diesOf (n : Nat) : List Nat := if n < 8 then [n] else if n < 12 then [[0, 4, 3, 7].getD (n - 8) 0] else []

/-- A sensor that covers a die throttles. -/
def dieThrottled (s : State) (d : Nat) : Bool := s.sensors.any fun (n, x) => x.throttling && (diesOf n).contains d

/-- Changes the thermal part of CAP of a die's eight quarters. -/
def modDieCap (s : State) (d : Nat) (f : Quarter → Nat) : State :=
  (List.range 8).foldl (fun s k => s.modQuarter (8 * d + k) fun x => { x with thermalCap := f x }) s

/-- THROTTLE_STEP: one ms of a sensor. CAP falls by 50 MHz to the floor while it throttles, and rises again after (R625). -/
def throttleEffect (s : State) (n : Nat) : State :=
  if (s.sensor n).throttling then
    let s := s.modSensor n fun x => { x with ms := satAdd (2 ^ 32 - 1) x.ms 1 }
    ((diesOf n).foldl (fun s d => modDieCap s d fun x => max 11 (x.cap - 1)) s).settleClocks
  else ((diesOf n).foldl (fun s d => if dieThrottled s d then s else modDieCap s d fun x => min 21 (x.thermalCap + 1)) s).settleClocks

def execThrottleStep (sensor : Nat) (s : State) : Host.Outcome State Fault Refusal :=
  occurs (live s && okSensor sensor) (throttleEffect s sensor) s

/-! ## Package power (R619, R661) -/

/-- One rail at a poll: the product of what its regulator answers, or, where it has not answered for 10 ms, the on-die estimate raised by
10%, logged once (DEDUCED, log entry 49). -/
def pollRail (s : State) (x : Nat × Option (Nat × Nat) × Nat) : State :=
  let (r, got, est) := x
  match got with
  | some (mv, ma) => s.modPower fun p => { p with rails := Tab.set p.rails r (mv * ma), silent := p.silent.filter (· != r) }
  | none =>
    let s := if s.power.silent.contains r then s else deviceLog s kindIsland 102 r
    s.modPower fun p => { p with
      rails := Tab.set p.rails r (est + est / 10), silent := if p.silent.contains r then p.silent else p.silent ++ [r] }

/-- TELEMETRY_POLL: every rail, then the package power averaged over the last ten polls of 1 ms each (DEDUCED, log entry 112). -/
def pollEffect (s : State) (rails : List (Option (Nat × Nat))) (estimates : List Nat) : State :=
  let s := ((List.range 17).zip (rails.zip estimates)).foldl pollRail s
  s.modPower fun p =>
    let total := (Tab.vals p.rails).foldl (· + ·) 0
    let xs := (total :: p.samples).take 10
    { p with samples := xs, watts := xs.foldl (· + ·) 0 / max 1 xs.length / 1000000 }

def execTelemetryPoll (rails : List (Option (Nat × Nat))) (estimates : List Nat) (s : State) : Host.Outcome State Fault Refusal :=
  occurs (live s && rails.length == 17 && estimates.length == 17) (pollEffect s rails estimates) s

/-- POWER_LIMIT_STEP: every quarter's CAP falls while the package exceeds POWER_LIMIT, and rises while it is more than 5% below, or no
limit is set; LIMIT_UNMET (R619) (DEDUCED, log entry 111). -/
def limitEffect (s : State) : State :=
  let p := s.power
  let exceeds := p.limit != 0 && decide (p.limit < p.watts)
  let below := p.limit == 0 || decide (100 * p.watts < 95 * p.limit)
  let f (x : Quarter) : Nat := if exceeds then max 11 (x.cap - 1) else if below then min 21 (x.powerCap + 1) else x.powerCap
  let s := (List.range 64).foldl (fun s q => s.modQuarter q fun x => { x with powerCap := f x }) s
  let s := s.settleClocks
  s.modPower fun w => { w with limitUnmet := exceeds && (List.range 64).all fun q => (s.quarter q).cap == 11 }

def execPowerLimitStep (s : State) : Host.Outcome State Fault Refusal := occurs (live s) (limitEffect s) s

end Sys2Proof.Machine
end

