-- ==== Sys2Proof/Machine/Repair.lean ====
section
/-! DEFINITION. In-service repair of cores, quarters and collections (R247, R248, R636 to R643, R676). -/

namespace Sys2Proof.Machine

open Sys2Proof

/-! ## Cores (R636) -/

/-- A failure that takes a core out of service: a CORE_FAULT counts once a self-test confirms it. -/
def failureCounts (s : State) (n : Nat) : CoreFailure → Bool
  | .confirmedFault => (s.core n).faulted
  | _ => true

/-- CORE_SPARE: between batches or runs, the spare takes the core's number, or the number is absent; more than 8 absent cores take the
quarter out of service (R637). -/
def coreSpareEffect (s : State) (n : Nat) : State :=
  let old := enabledCores s
  let s := spareCore (s.modCore n fun x => { x with faulted := false, alleyDone := 0, alleyErr := 0 }) n
  let s := if 8 < absentCores s (n / 64) then quarterOut s (n / 64) else s
  let s := notice s lidHealth
  if enabledCores s = old then s else noticeId s

def execCoreSpare (core : Nat) (why : CoreFailure) (s : State) : Host.Outcome State Fault Refusal :=
  occurs (fwServes s && okCore core && coreUsable s core && (s.core core).batch.isNone && (s.core core).run.isNone
      && failureCounts s core why)
    (coreSpareEffect s core) s

/-! ## Quarters (R638, R640) -/

/-- Slices without a quarter of their own, in order: each whose substitute a quarter's return changes moves to it (R638). -/
def settleSub (s : State) (n : Nat) : State :=
  if (s.quarter n).inService then s
  else
    let new := substituteOf s n
    if (s.quarter n).substitute == new then s
    else
      let s := match (s.quarter n).substitute with
        | some q => flushSlice s q
        | none => s
      s.modQuarter n fun x => { x with substitute := new }

/-- A quarter returns to dealing: its slice moves home from its substitute. -/
def returnQuarter (s : State) (q : Nat) : State :=
  let s := match (s.quarter q).substitute with
    | some k => flushSlice s k
    | none => s
  let s := s.modQuarter q fun x => { x with inService := true, substitute := none }
  let s := (List.range 64).foldl settleSub s
  critical s critQuarter ((List.range 64).any fun n => !(s.quarter n).inService)

/-- QUARTER_REPAIR: what still runs on the quarter ends with CORE_FAULT, the slice is written back, the quarter is reset, its cores are
tested and spared, and it returns to service or is left out (R640). -/
def quarterRepairEffect (s : State) (q : Nat) (bad : List Nat) (pass : Bool) : State :=
  let was := (s.quarter q).inService
  let s := flushSlice (endQuarterWork s q) q
  let s : State := { s with
    localStore := s.localStore.filter fun (a, _) => a / 2 ^ 18 / 64 != q
    cores := s.cores.map fun (n, x) => (n, if n / 64 = q then
      { x with alleyDone := 0, alleyErr := 0, forgot := some s.free, selectForgot := some s.free, faulted := false } else x) }
  let s := s.useFree
  let s := bad.eraseDups.foldl spareCore s
  if pass && decide (absentCores s q ≤ 8) then
    if was then notice s lidHealth
    else noticeId (notice (deviceLog (returnQuarter s q).settleClocks kindSparing q 0) lidHealth)
  else quarterOut s q

def execQuarterRepair (quarter : Nat) (badCores : List Nat) (pass : Bool) (s : State) : Host.Outcome State Fault Refusal :=
  occurs (fwServes s && awake s && okQuarter quarter && (s.island quarter).state == .run
      && badCores.all fun n => decide (n / 64 = quarter) && !(s.core n).absent)
    (quarterRepairEffect s quarter badCores pass) s

/-! ## Collections (R643) -/

/-- The last commit that touched an INDEX tile: of a segment its inserts and deletes; the maps, directories and logs are touched by every
commit. -/
def touchedAt (c : Collection) (t : Nat) : Nat :=
  match Tab.get? c.segs t with
  | some g => ((g.recs.zipIdx).map fun (r, k) => max (recIns g r) ((recDel g k).getD 0)).foldl max 0
  | none => c.published

/-- A lost tile can be rebuilt: the durable epoch covers every commit that touched it. -/
def rebuildable (c : Collection) (t : Nat) : Bool :=
  match c.image with
  | some g => decide (touchedAt c t ≤ g.epoch)
  | none => false

/-- A tile is rebuilt in a new place of T2 and switched in. -/
def rebuildTile (s : State) (t : Nat) : State :=
  match Tab.get? s.tiers.map t with
  | none => s
  | some e =>
    match takePages s 16 16 with
    | none => s
    | some (p, s) =>
      let s := if e.tier = 2 then givePages s (e.location * 16) 16 else s
      setTile s t { e with tier := 2, location := p / 16, lost := false }

/-- COLLECTION_REPAIR: lost INDEX tiles that the image and journal cover are rebuilt; when none is left the collection is no longer
DAMAGED; a tile that they do not cover leaves it so (R643, R676). -/
def collRepairEffect (s : State) (i : Nat) (c : Collection) : State :=
  let h := (collHandle s i).toNat
  let good := c.lostTiles.filter (rebuildable c)
  let s := good.foldl rebuildTile s
  let left := c.lostTiles.filter fun t => (s.tile t).lost
  let done := c.lostTiles.length - left.length
  let stuck := left.any fun t => !rebuildable c t
  let s := s.modColl i fun x => { x with lostTiles := left, damaged := !left.isEmpty, unrepairable := x.unrepairable || stuck }
  if left.isEmpty then objectLog s kindLostObject (collHandle s i) 0 (c.lostTiles.headD 0) (lostDetail h .index 1 done)
  else if stuck then objectLog s kindLostObject (collHandle s i) 0 (left.headD 0) (lostDetail h .index 2 0)
  else s

def execCollectionRepair (coll : Nat) (s : State) : Host.Outcome State Fault Refusal :=
  match s.coll? coll with
  | none => .next s
  | some c =>
    if c.restoring then occurs (fwServes s) (restoreLine s coll) s
    else occurs (fwServes s && awake s && c.damaged && !c.unrepairable) (collRepairEffect s coll c) s

end Sys2Proof.Machine
end

