-- ==== Sys2Proof/Machine/Sideband.lean ====
section
/-! DEFINITION. The SMBus transactions of the sideband (R603, R618, R660, R669). A transaction that reads leaves what it returned in
`returned` (DESIGN CHOICE, log entry 6). -/

namespace Sys2Proof.Machine

open Sys2Proof

/-- The sideband answers: the control island runs (R645). -/
def sbUp (s : State) : Bool := (s.island 102).state == .run

/-- The two bytes of a word, low first. -/
def wordBytes (v : Nat) : List Byte := leBytes 2 (v % 65536)

/-- SB_SET_OFFSET, command 0x01. -/
def execSbSetOffset (w : BitVec 16) (s : State) : Host.Outcome State Fault Refusal :=
  occurs (sbUp s) (s.modSb fun x => { x with offset := w.toNat }) s

/-- The bytes of a block that fall in the 4 KiB buffer (DEDUCED, log entry 50). -/
def inBuffer (off n : Nat) : Nat := min n (4096 - off)

/-- SB_BLOCK_WRITE, command 0x02. While FIRMWARE owns the buffer, writes are ignored as those to a mailbox are (R471; DEDUCED, log entry 50). -/
def execSbBlockWrite (bytes : List Byte) (s : State) : Host.Outcome State Fault Refusal :=
  occurs (sbUp s && decide (bytes.length ≤ 32))
    (s.modSb fun x => { x with
      buf := if x.firmware then x.buf else Mem.writeN x.buf x.offset (bytes.take (inBuffer x.offset bytes.length))
      offset := x.offset + bytes.length }) s

/-- SB_BLOCK_READ, command 0x03: zeros while FIRMWARE owns the buffer, and beyond it. -/
def execSbBlockRead (n : Nat) (s : State) : Host.Outcome State Fault Refusal :=
  occurs (sbUp s && decide (n ≤ 32))
    (s.modSb fun x => { x with
      returned := if x.firmware then List.replicate n 0 else pad n (Mem.readN x.buf x.offset (inBuffer x.offset n))
      offset := x.offset + n }) s

/-- SB_SUBMIT, command 0x04: the request length, then as SUBMIT does (R472), which leaves DONE and REFUSED (DEDUCED, log entry 50). -/
def execSbSubmit (len : BitVec 16) (s : State) : Host.Outcome State Fault Refusal :=
  occurs (sbUp s)
    (s.modSb fun x =>
      if x.firmware then { x with refused := true }
      else if len = 0 ∨ 4096 < len.toNat then { x with reqLen := len.toNat, refused := true }
      else { x with reqLen := len.toNat, firmware := true, started := false }) s

/-- SB_READ_STATUS, command 0x05. -/
def execSbReadStatus (s : State) : Host.Outcome State Fault Refusal :=
  occurs (sbUp s)
    (s.modSb fun x => { x with
      returned := wordBytes (x.rspLen % 8192 * 8 + b2n x.refused * 4 + b2n x.done * 2 + b2n x.firmware) }) s

/-- POWER_LIMIT_SET, command 0x10: 0, or 600 to 2,400 W; other values are ignored (R618). -/
def execPowerLimitSet (w : BitVec 16) (s : State) : Host.Outcome State Fault Refusal :=
  occurs (sbUp s && (w.toNat == 0 || (decide (600 ≤ w.toNat) && decide (w.toNat ≤ 2400))))
    (s.modPower fun p => { p with limit := w.toNat }) s

/-- POWER_READ, command 0x11 (R618). -/
def execPowerRead (s : State) : Host.Outcome State Fault Refusal :=
  occurs (sbUp s)
    (s.modSb fun x => { x with
      returned := wordBytes (dpCode s.power.dp * 16384 + b2n s.power.limitUnmet * 8192 + min 4095 s.power.watts) }) s

/-- SB_DEVICE_RESET, command 0x12: 0x5E7A starts a device reset (R618). -/
def execSbDeviceReset (w : BitVec 16) (s : State) : Host.Outcome State Fault Refusal :=
  occurs (sbUp s && mayReset s && w.toNat == 0x5E7A) (deviceReset s) s

/-- RAIL_FAULT_READ, command 0x13: the register lies in the VDD_SB domain and answers in every phase; the read clears it (R660). -/
def execRailFaultRead (s : State) : Host.Outcome State Fault Refusal :=
  let v := match s.power.railFault with
    | some (above, r) => 32768 + b2n above * 16384 + r
    | none => 0
  occurs true ((s.modSb fun x => { x with returned := wordBytes v }).modPower fun p => { p with railFault := none }) s

/-- SB_BUS_TIMEOUT: the SMBus interface is reset; the transaction in progress returns nothing, and service continues (R669). -/
def execSbBusTimeout (s : State) : Host.Outcome State Fault Refusal := occurs (sbUp s) (s.modSb fun x => { x with returned := [] }) s

end Sys2Proof.Machine
end

