-- ==== Sys2Proof/Machine/Dispatch.lean ====
section
/-! DEFINITION. The meaning of each command: one arm a row, each one call of that row's own definition. -/

namespace Sys2Proof.Machine

open Sys2Proof

/-- What a command does to everything but the queue of waiting commands. -/
def exec (i : Instr) (s : State) : Host.Outcome State Fault Refusal :=
  match i with
  | .search p q e inp => Sys2Proof.Machine.execSearch p q e inp s
  | .insert p q e inp => Sys2Proof.Machine.execInsert p q e inp s
  | .upsert p q e inp => Sys2Proof.Machine.execUpsert p q e inp s
  | .delete p q e inp => Sys2Proof.Machine.execDelete p q e inp s
  | .fetch p q e inp => Sys2Proof.Machine.execFetch p q e inp s
  | .flush p q e inp => Sys2Proof.Machine.execFlush p q e inp s
  | .abort p q e inp => Sys2Proof.Machine.execAbort p q e inp s
  | .tierMove p q e inp => Sys2Proof.Machine.execTierMove p q e inp s
  | .park p q e inp => Sys2Proof.Machine.execPark p q e inp s
  | .wake p q e inp => Sys2Proof.Machine.execWake p q e inp s
  | .identify src => Sys2Proof.Machine.execIdentify src s
  | .getLogPage src => Sys2Proof.Machine.execGetLogPage src s
  | .getFeatures src => Sys2Proof.Machine.execGetFeatures src s
  | .setFeatures src => Sys2Proof.Machine.execSetFeatures src s
  | .queueCreate src => Sys2Proof.Machine.execQueueCreate src s
  | .queueDelete src => Sys2Proof.Machine.execQueueDelete src s
  | .queueResume src => Sys2Proof.Machine.execQueueResume src s
  | .fwDownload src => Sys2Proof.Machine.execFwDownload src s
  | .fwCommit src => Sys2Proof.Machine.execFwCommit src s
  | .fwActivate src => Sys2Proof.Machine.execFwActivate src s
  | .attest src => Sys2Proof.Machine.execAttest src s
  | .collectionCreate src replies => Sys2Proof.Machine.execCollectionCreate src replies s
  | .collectionSet src => Sys2Proof.Machine.execCollectionSet src s
  | .collectionDelete src => Sys2Proof.Machine.execCollectionDelete src s
  | .collectionRetrain src => Sys2Proof.Machine.execCollectionRetrain src s
  | .collectionRebuild src => Sys2Proof.Machine.execCollectionRebuild src s
  | .listSplit src => Sys2Proof.Machine.execListSplit src s
  | .scheduleLoad src => Sys2Proof.Machine.execScheduleLoad src s
  | .scheduleUnload src => Sys2Proof.Machine.execScheduleUnload src s
  | .scheduleBind src => Sys2Proof.Machine.execScheduleBind src s
  | .regionAlloc src => Sys2Proof.Machine.execRegionAlloc src s
  | .regionFree src => Sys2Proof.Machine.execRegionFree src s
  | .hbmMigrate src => Sys2Proof.Machine.execHbmMigrate src s
  | .hbmDiag src => Sys2Proof.Machine.execHbmDiag src s
  | .diagRead src => Sys2Proof.Machine.execDiagRead src s
  | .sqTail p q v narrow => Sys2Proof.Machine.execSqTail p q v narrow s
  | .cqHead p q v narrow => Sys2Proof.Machine.execCqHead p q v narrow s
  | .enable p => Sys2Proof.Machine.execEnable p s
  | .queueReset p => Sys2Proof.Machine.execQueueReset p s
  | .quiesce p v => Sys2Proof.Machine.execQuiesce p v s
  | .eventStatusClear p mask arising => Sys2Proof.Machine.execEventStatusClear p mask arising s
  | .eventMaskWrite p mask => Sys2Proof.Machine.execEventMaskWrite p mask s
  | .islandCountLoRead p => Sys2Proof.Machine.execIslandCountLoRead p s
  | .mailboxSubmit p m ctrl => Sys2Proof.Machine.execMailboxSubmit p m ctrl s
  | .msixUnmask p what => Sys2Proof.Machine.execMsixUnmask p what s
  | .registerWrite w => Sys2Proof.Machine.execRegisterWrite w s
  | .streamArm q a => Sys2Proof.Machine.execStreamArm q a s
  | .streamStop q w => Sys2Proof.Machine.execStreamStop q w s
  | .streamResume q w => Sys2Proof.Machine.execStreamResume q w s
  | .ringTailWrite q w tail => Sys2Proof.Machine.execRingTailWrite q w tail s
  | .tgRunStart ch w => Sys2Proof.Machine.execTgRunStart ch w s
  | .tgStop w => Sys2Proof.Machine.execTgStop w s
  | .tgRunDone ch raw => Sys2Proof.Machine.execTgRunDone ch raw s
  | .migrationStart ch ctrl => Sys2Proof.Machine.execMigrationStart ch ctrl s
  | .migrationAbort ch why => Sys2Proof.Machine.execMigrationAbort ch why s
  | .peakClear c => Sys2Proof.Machine.execPeakClear c s
  | .sbSetOffset w => Sys2Proof.Machine.execSbSetOffset w s
  | .sbBlockWrite bytes => Sys2Proof.Machine.execSbBlockWrite bytes s
  | .sbBlockRead n => Sys2Proof.Machine.execSbBlockRead n s
  | .sbSubmit len => Sys2Proof.Machine.execSbSubmit len s
  | .sbReadStatus => Sys2Proof.Machine.execSbReadStatus s
  | .powerLimitSet w => Sys2Proof.Machine.execPowerLimitSet w s
  | .powerRead => Sys2Proof.Machine.execPowerRead s
  | .sbDeviceReset w => Sys2Proof.Machine.execSbDeviceReset w s
  | .railFaultRead => Sys2Proof.Machine.execRailFaultRead s
  | .sbBusTimeout => Sys2Proof.Machine.execSbBusTimeout s
  | .startUp b => Sys2Proof.Machine.execStartUp b s
  | .powerDown => Sys2Proof.Machine.execPowerDown s
  | .railFault rail above => Sys2Proof.Machine.execRailFault rail above s
  | .deviceReset cause => Sys2Proof.Machine.execDeviceReset cause s
  | .fundamentalReset p => Sys2Proof.Machine.execFundamentalReset p s
  | .hotReset p => Sys2Proof.Machine.execHotReset p s
  | .dlDown p => Sys2Proof.Machine.execDlDown p s
  | .functionLevelReset p => Sys2Proof.Machine.execFunctionLevelReset p s
  | .portResetEnd p => Sys2Proof.Machine.execPortResetEnd p s
  | .configRequest p r => Sys2Proof.Machine.execConfigRequest p r s
  | .d3hotEntry p => Sys2Proof.Machine.execD3hotEntry p s
  | .d0Return p => Sys2Proof.Machine.execD0Return p s
  | .busMasterEnable p on => Sys2Proof.Machine.execBusMasterEnable p on s
  | .poisonedWrite p => Sys2Proof.Machine.execPoisonedWrite p s
  | .unsupportedRequest p => Sys2Proof.Machine.execUnsupportedRequest p s
  | .completionTimeout p piece => Sys2Proof.Machine.execCompletionTimeout p piece s
  | .hostCompletion p piece c => Sys2Proof.Machine.execHostCompletion p piece c s
  | .translationCompletion p block ts => Sys2Proof.Machine.execTranslationCompletion p block ts s
  | .invalidateRequest p itag base size => Sys2Proof.Machine.execInvalidateRequest p itag base size s
  | .invalidateCompletion p itag => Sys2Proof.Machine.execInvalidateCompletion p itag s
  | .prgResponse p index code => Sys2Proof.Machine.execPrgResponse p index code s
  | .priTimeout p index => Sys2Proof.Machine.execPriTimeout p index s
  | .hotPeriod p => Sys2Proof.Machine.execHotPeriod p s
  | .commandAdmit cmd => Sys2Proof.Machine.execCommandAdmit cmd s
  | .completionPost cmd p place => Sys2Proof.Machine.execCompletionPost cmd p place s
  | .aggTime p q => Sys2Proof.Machine.execAggTime p q s
  | .sqFetchFailure p q fault => Sys2Proof.Machine.execSqFetchFailure p q fault s
  | .commitWindowExpiry coll group => Sys2Proof.Machine.execCommitWindowExpiry coll group s
  | .commit coll group => Sys2Proof.Machine.execCommit coll group s
  | .stagedAppend coll list => Sys2Proof.Machine.execStagedAppend coll list s
  | .ceilingRaise coll => Sys2Proof.Machine.execCeilingRaise coll s
  | .idCeilingRaise coll => Sys2Proof.Machine.execIdCeilingRaise coll s
  | .imageWrite coll => Sys2Proof.Machine.execImageWrite coll s
  | .compaction coll list => Sys2Proof.Machine.execCompaction coll list s
  | .cutover coll => Sys2Proof.Machine.execCutover coll s
  | .coarsePass die coll => Sys2Proof.Machine.execCoarsePass die coll s
  | .batchLaunch batch cores grants => Sys2Proof.Machine.execBatchLaunch batch cores grants s
  | .batchHoldExpiry batch cores grants => Sys2Proof.Machine.execBatchHoldExpiry batch cores grants s
  | .tileScored x => Sys2Proof.Machine.execTileScored x s
  | .squareRun cmd sq x => Sys2Proof.Machine.execSquareRun cmd sq x s
  | .squareEnd cmd sq input => Sys2Proof.Machine.execSquareEnd cmd sq input s
  | .tileBoundExpiry tile => Sys2Proof.Machine.execTileBoundExpiry tile s
  | .runLaunch run quarters grants => Sys2Proof.Machine.execRunLaunch run quarters grants s
  | .runHoldExpiry run quarters grants => Sys2Proof.Machine.execRunHoldExpiry run quarters grants s
  | .tileIssue run => Sys2Proof.Machine.execTileIssue run s
  | .tileLanded run x => Sys2Proof.Machine.execTileLanded run x s
  | .tokenise run => Sys2Proof.Machine.execTokenise run s
  | .layer x => Sys2Proof.Machine.execLayer x s
  | .peerReduce run => Sys2Proof.Machine.execPeerReduce run s
  | .output run => Sys2Proof.Machine.execOutput run s
  | .deadlineMiss run ref => Sys2Proof.Machine.execDeadlineMiss run ref s
  | .stepCycleOverrun run core => Sys2Proof.Machine.execStepCycleOverrun run core s
  | .descriptorFetch q k bytes => Sys2Proof.Machine.execDescriptorFetch q k bytes s
  | .copy q k => Sys2Proof.Machine.execCopy q k s
  | .fill q k => Sys2Proof.Machine.execFill q k s
  | .marker q k => Sys2Proof.Machine.execMarker q k s
  | .pieceIssue q k => Sys2Proof.Machine.execPieceIssue q k s
  | .pieceComplete piece => Sys2Proof.Machine.execPieceComplete piece s
  | .alleyWrite core slot hdr => Sys2Proof.Machine.execAlleyWrite core slot hdr s
  | .alleyRead core slot hdr => Sys2Proof.Machine.execAlleyRead core slot hdr s
  | .alleyComplete core slot data ok => Sys2Proof.Machine.execAlleyComplete core slot data ok s
  | .fence core => Sys2Proof.Machine.execFence core s
  | .add a => Sys2Proof.Machine.execAdd a s
  | .fadd a => Sys2Proof.Machine.execFadd a s
  | .minUnsigned a => Sys2Proof.Machine.execMinUnsigned a s
  | .maxUnsigned a => Sys2Proof.Machine.execMaxUnsigned a s
  | .minSigned a => Sys2Proof.Machine.execMinSigned a s
  | .maxSigned a => Sys2Proof.Machine.execMaxSigned a s
  | .or a => Sys2Proof.Machine.execOr a s
  | .cas a compare => Sys2Proof.Machine.execCas a compare s
  | .cacheRead src addr len hint o => Sys2Proof.Machine.execCacheRead src addr len hint o s
  | .cacheWrite src addr bytes hint => Sys2Proof.Machine.execCacheWrite src addr bytes hint s
  | .granuleProbe quarter addr keep => Sys2Proof.Machine.execGranuleProbe quarter addr keep s
  | .wcEntryDrain slice line => Sys2Proof.Machine.execWcEntryDrain slice line s
  | .blockGrant slice block owner => Sys2Proof.Machine.execBlockGrant slice block owner s
  | .blockRelease slice block => Sys2Proof.Machine.execBlockRelease slice block s
  | .hbmRead addr level x => Sys2Proof.Machine.execHbmRead addr level x s
  | .hbmWrite addr level data mask => Sys2Proof.Machine.execHbmWrite addr level data mask s
  | .patrolScrub ch granule wrong => Sys2Proof.Machine.execPatrolScrub ch granule wrong s
  | .rowRemap ch bank row => Sys2Proof.Machine.execRowRemap ch bank row s
  | .pageRetire page lost => Sys2Proof.Machine.execPageRetire page lost s
  | .migrationCopyDone ch x => Sys2Proof.Machine.execMigrationCopyDone ch x s
  | .drainMarker ch unit => Sys2Proof.Machine.execDrainMarker ch unit s
  | .migrationRepair ch x => Sys2Proof.Machine.execMigrationRepair ch x s
  | .channelLost ch => Sys2Proof.Machine.execChannelLost ch s
  | .repairRecordWrite => Sys2Proof.Machine.execRepairRecordWrite s
  | .evictionSwitch coll obj => Sys2Proof.Machine.execEvictionSwitch coll obj s
  | .moveSwitch cmd => Sys2Proof.Machine.execMoveSwitch cmd s
  | .wakeSwitch coll => Sys2Proof.Machine.execWakeSwitch coll s
  | .deferLimitExpiry cmd => Sys2Proof.Machine.execDeferLimitExpiry cmd s
  | .moveDeadline cmd => Sys2Proof.Machine.execMoveDeadline cmd s
  | .t4BackingWrite tile => Sys2Proof.Machine.execT4BackingWrite tile s
  | .revokeGraceExpiry lease => Sys2Proof.Machine.execRevokeGraceExpiry lease s
  | .flashRead page level tries corrected softOk => Sys2Proof.Machine.execFlashRead page level tries corrected softOk s
  | .flashProgram tile loc pass => Sys2Proof.Machine.execFlashProgram tile loc pass s
  | .flashErase block pass => Sys2Proof.Machine.execFlashErase block pass s
  | .pageRecovery page ok => Sys2Proof.Machine.execPageRecovery page ok s
  | .flashRefresh block => Sys2Proof.Machine.execFlashRefresh block s
  | .flashPatrol block retries corrected => Sys2Proof.Machine.execFlashPatrol block retries corrected s
  | .garbageCollection lun => Sys2Proof.Machine.execGarbageCollection lun s
  | .wearLevelling die => Sys2Proof.Machine.execWearLevelling die s
  | .flashChannelRetrain ch rate => Sys2Proof.Machine.execFlashChannelRetrain ch rate s
  | .linkTraining port o => Sys2Proof.Machine.execLinkTraining port o s
  | .laneFailure port lane => Sys2Proof.Machine.execLaneFailure port lane s
  | .retrainTimer port => Sys2Proof.Machine.execRetrainTimer port s
  | .linkTimeout port => Sys2Proof.Machine.execLinkTimeout port s
  | .flitReceive port f => Sys2Proof.Machine.execFlitReceive port f s
  | .sendKeepalive port => Sys2Proof.Machine.execSendKeepalive port s
  | .peerTimeout txn => Sys2Proof.Machine.execPeerTimeout txn s
  | .routeSwitch device port => Sys2Proof.Machine.execRouteSwitch device port s
  | .packetForward port k => Sys2Proof.Machine.execPacketForward port k s
  | .readReq k => Sys2Proof.Machine.execReadReq k s
  | .writeReq k => Sys2Proof.Machine.execWriteReq k s
  | .atomicReq k => Sys2Proof.Machine.execAtomicReq k s
  | .readRsp txn bytes => Sys2Proof.Machine.execReadRsp txn bytes s
  | .writeAck txn => Sys2Proof.Machine.execWriteAck txn s
  | .atomicRsp txn old => Sys2Proof.Machine.execAtomicRsp txn old s
  | .windowFault txn => Sys2Proof.Machine.execWindowFault txn s
  | .shardReq r => Sys2Proof.Machine.execShardReq r s
  | .shardRun cmd device es => Sys2Proof.Machine.execShardRun cmd device es s
  | .shardEnd cmd device st lists matches_ => Sys2Proof.Machine.execShardEnd cmd device st lists matches_ s
  | .shardCancel coordinator txn => Sys2Proof.Machine.execShardCancel coordinator txn s
  | .forwardCmd src txn e inp => Sys2Proof.Machine.execForwardCmd src txn e inp s
  | .forwardCpl cmd device cpl result => Sys2Proof.Machine.execForwardCpl cmd device cpl result s
  | .epochBeacon handle epoch => Sys2Proof.Machine.execEpochBeacon handle epoch s
  | .runCtl m => Sys2Proof.Machine.execRunCtl m s
  | .adminFan src e inp idx => Sys2Proof.Machine.execAdminFan src e inp idx s
  | .lease m => Sys2Proof.Machine.execLease m s
  | .shardRerank coordinator txn cross ids => Sys2Proof.Machine.execShardRerank coordinator txn cross ids s
  | .shardRerankRsp cmd device st ds toks => Sys2Proof.Machine.execShardRerankRsp cmd device st ds toks s
  | .ack port n => Sys2Proof.Machine.execAck port n s
  | .nak port n => Sys2Proof.Machine.execNak port n s
  | .credit port vc flits => Sys2Proof.Machine.execCredit port vc flits s
  | .keepalive port => Sys2Proof.Machine.execKeepalive port s
  | .topology links => Sys2Proof.Machine.execTopology links s
  | .pllLoss island => Sys2Proof.Machine.execPllLoss island s
  | .crossingParityError c => Sys2Proof.Machine.execCrossingParityError c s
  | .dp1Entry => Sys2Proof.Machine.execDp1Entry s
  | .dp1Exit => Sys2Proof.Machine.execDp1Exit s
  | .dp2Entry => Sys2Proof.Machine.execDp2Entry s
  | .dp3Entry => Sys2Proof.Machine.execDp3Entry s
  | .dpEntryComplete => Sys2Proof.Machine.execDpEntryComplete s
  | .dpExit => Sys2Proof.Machine.execDpExit s
  | .thermalSample readings => Sys2Proof.Machine.execThermalSample readings s
  | .throttleStep sensor => Sys2Proof.Machine.execThrottleStep sensor s
  | .powerLimitStep => Sys2Proof.Machine.execPowerLimitStep s
  | .telemetryPoll rails estimates => Sys2Proof.Machine.execTelemetryPoll rails estimates s
  | .coreSpare core why => Sys2Proof.Machine.execCoreSpare core why s
  | .quarterRepair quarter badCores pass => Sys2Proof.Machine.execQuarterRepair quarter badCores pass s
  | .collectionRepair coll => Sys2Proof.Machine.execCollectionRepair coll s
  | .watchdogExpiry => Sys2Proof.Machine.execWatchdogExpiry s
  | .pllLock island => Sys2Proof.Machine.execPllLock island s
  | .devrstNRelease => Sys2Proof.Machine.execDevrstNRelease s
  | .pmbAlert => Sys2Proof.Machine.execPmbAlert s
  | .testPortAccess => Sys2Proof.Machine.execTestPortAccess s
  | .provisioning m => Sys2Proof.Machine.execProvisioning m s
  | .securityBlockFault => Sys2Proof.Machine.execSecurityBlockFault s

end Sys2Proof.Machine
end

