-- ==== Sys2Proof/Machine/Step.lean ====
section
/-! DEFINITION. One step: the command at the front of the queue takes effect, or, on an empty queue, one nanosecond passes (DESIGN CHOICE, log
entry 4). The host's two entries into the machine stand beside it. -/

namespace Sys2Proof.Machine

open Sys2Proof

/-- A nanosecond passes: every island counter that runs counts up by one (R611; DESIGN CHOICE, log entry 4), a firmware activation whose time is over
ends (R546), deletions with nothing left to wait for complete (R539), and
what no command holds any more is released. -/
def tick (s : State) : State :=
  let t := settleIdle (settleAllDeleted (timePasses { s with time := s.time + 1 }))
  if s.security.activating.isSome && t.security.activating.isNone then reroute t else t

/-- One step of the block. -/
def step (s : State) : Host.Outcome State Fault Refusal :=
  match s.pending with
  | [] => .next (tick s)
  | c :: rest => exec c { s with pending := rest }

/-- The state with the command that a word spells at the front of its queue; as it is where the word spells none. -/
def State.withFetchWord (s : State) (nbits w : Nat) : State :=
  match decodeTableWord nbits w with
  | some c => { s with pending := c :: s.pending }
  | none => s

end Sys2Proof.Machine
end

