-- ==== Sys2Proof/Safety.lean ====
section
/-! DEFINITION. What a safe run keeps: the facts that stay true of the block in every step. -/

namespace Sys2Proof

open Sys2Proof.Machine

/-- What outlives every reset and no command but its own may change: OTP and the record of what was measured (R589, R594, R596). -/
structure Trust where
  meas : List (BitVec 384)
  extends_ : Nat
  counter0 : List (BitVec 16)
  counter1 : List (BitVec 16)
  lifecycle : Lifecycle
  uds : Option (BitVec 256)
  deriving DecidableEq, Repr

/-- The trust state that the security block holds. -/
def Machine.Security.trust (x : Security) : Trust := ⟨x.meas, x.extends_, x.counter0, x.counter1, x.lifecycle, x.uds⟩

/-- The trust state of the block. -/
def Machine.State.trust (s : State) : Trust := s.security.trust

end Sys2Proof

/-! The vocabulary of the statements. -/

open Sys2Proof Sys2Proof.Machine

/-- Command n is decided: its completion has this status and these words, and its entry is not posted yet (R494, R499). -/
def Sys2Proof.Machine.State.decidedAs (t : State) (n : Nat) (st : Status) (dw2 dw3 : Nat) : Prop :=
  ∃ x k, t.cmd? n = some x ∧ x.stage = .decided ∧ x.completion = some k ∧ k.status = st ∧ k.dw2 = dw2 ∧ k.dw3 = dw3

/-- Command n came by a submission queue, is undecided, and completes here: no other member has a part in it. -/
def Sys2Proof.Machine.State.undecided (s : State) (n : Nat) (x : Cmd) : Prop :=
  s.cmd? n = some x ∧ (∃ p q, x.origin = .sq p q) ∧ x.detached = false ∧ x.completion = none ∧ x.stage ≠ .decided ∧
    x.work.members = [] ∧ x.word ≠ .ending

/-- No schedule is to go: none waits for its SCHEDULE_UNLOAD or for the firmware to release it (R223, R236). -/
def Sys2Proof.Machine.State.noneUnloads (s : State) : Prop := ∀ d ∈ s.scheds, d.2.unloadCmd = none ∧ d.2.going = false

/-- The device fetches entry e of opcode op from a submission queue now: the queue has an entry and its turn, the entry's place is translated, and
the host has answered the reads that the entry's checks need (R367, R485 to R487). -/
def Sys2Proof.Machine.State.fetches (s : State) (p : PortId) (q : Nat) (e : BitVec 1024) (inp : List Byte) (op : Nat) : Prop :=
  canFetch s p q = true ∧ q < 2048 ∧ fetchTurn s p q = true ∧ accessPasses s p (fetchNum q) = true ∧ inputReady s p q e inp = true ∧
    eOpcode e = op

/-- The state in which the queue engine takes the next entry of a pair: the lookup of its place and its turn are counted (R394, R486). -/
def Sys2Proof.Machine.turned (s : State) (p : PortId) (q : Nat) : State := noteTurn (routeAccess s p (fetchNum q)) p q

/-- The input buffer of an entry as the checks read it. -/
def Sys2Proof.Machine.entryInput (s : State) (p : PortId) (e : BitVec 1024) (inp : List Byte) : Option (List Byte) :=
  if (bufferChecks s p e).isNone then inputOf s e inp else none

/-- The state in which an entry's checks 5 to 10 are made: the entry is taken. -/
def Sys2Proof.Machine.entryTaken (s : State) (p : PortId) (q : Nat) (e : BitVec 1024) (inp : List Byte) : State :=
  takeEntry (turned s p q) p q e ((entryInput (turned s p q) p e inp).getD []) (fetchWord (eOpcode e))

/-- The same once a command of class 0 has drawn its token. -/
def Sys2Proof.Machine.entryDrawn (s : State) (p : PortId) (q : Nat) (e : BitVec 1024) (inp : List Byte) : State :=
  if eClass e = 0 then (drawToken (entryTaken s p q e inp)).1 else entryTaken s p q e inp

/-- The host pages of an access lack no right that it needs: it goes on, or waits for its translation (R367, R371, R373). -/
def Sys2Proof.Machine.State.mayAccess (s : State) (p : PortId) (n : Nat) : Prop :=
  ∀ a len w, accessOf s p n = some (a, len, w) → (xltRange s p a len w).2 ≠ .noRight

/-- An entry passes every check of R498, and its input buffer in host memory, if it has one, may be read. -/
def Sys2Proof.Machine.State.entryPasses (s : State) (p : PortId) (q : Nat) (e : BitVec 1024) (inp : List Byte) : Prop :=
  let v := entryDrawn s p q e inp
  checksA (turned s p q) p q e = none ∧ (eClass e = 0 → (drawToken (entryTaken s p q e inp)).2 = true) ∧
    (∀ x, v.cmd? s.nextCmd = some x → checksB v p x (entryInput (turned s p q) p e inp) = .passes) ∧ v.mayAccess p (commandNum s.nextCmd)

/-- The port whose host memory a request of the firmware names. -/
def Sys2Proof.adminPort : AdminSrc → PortId
  | .queue p .. => p
  | .mailbox p .. => p
  | .sideband => .p0

/-- The state once a request of the firmware is taken from where it came as command s.nextCmd (R518, R520, R603). -/
def Sys2Proof.Machine.adminFetched (s : State) : AdminSrc → State
  | .queue p e inp => entryDrawn s p 0 e inp
  | .mailbox p m inp =>
    let y := s.mailbox p m
    let e := requestEntry y.buf
    let r := s.modMailbox p m fun z => { z with started := true }
    addCmd r
      { origin := .mailbox p m, entry := e, input := (requestInput r p y.buf y.reqLen inp).getD [], word := fetchWord (eOpcode e) }
  | .sideband =>
    let e := requestEntry s.sideband.buf
    addCmd (s.modSb fun y => { y with started := true }) { origin := .sideband, entry := e, input := [], word := fetchWord (eOpcode e) }

/-- The same once the reads of its input buffer in host memory have been sent (R489). -/
def Sys2Proof.Machine.adminTaken (s : State) (src : AdminSrc) : State :=
  routeAccess (adminFetched s src) (adminPort src) (commandNum s.nextCmd)

/-- The state in which the effect of an admin command begins: the firmware has started it (R522). -/
def Sys2Proof.Machine.adminStarted (s : State) (src : AdminSrc) : State :=
  (adminTaken s src).modCmd s.nextCmd fun y => { y with stage := .admitted }

/-- A request of opcode op is there, passes its checks, and the firmware may start it now (R498, R518 to R524, R603); command numbers
in use lie below the next one. -/
def Sys2Proof.Machine.State.accepts (s : State) (op : Nat) (src : AdminSrc) : Prop :=
  (match src with
    | .queue p e inp => s.fetches p 0 e inp op ∧ s.entryPasses p 0 e inp
    | .mailbox p m inp =>
      let y := s.mailbox p m
      let e := requestEntry y.buf
      let r := s.modMailbox p m fun z => { z with started := true }
      barUp s p = true ∧ m < 16 ∧ y.firmware = true ∧ y.started = false ∧ y.discard = false ∧ takesRequests s = true ∧ eOpcode e = op ∧
        (eInLen e = 0 ∨ inputGiven e inp = true) ∧ requestChecks (adminFetched s src) y.reqLen true e = none ∧
        ∀ x, (adminFetched s src).cmd? s.nextCmd = some x →
          checksB (adminFetched s src) p x (requestInput r p y.buf y.reqLen inp) = .passes
    | .sideband =>
      let y := s.sideband
      let e := requestEntry y.buf
      y.firmware = true ∧ y.started = false ∧ (takesRequests s = true ∨ fatalServes s e = true) ∧ eOpcode e = op ∧ 128 ≤ y.reqLen ∧
        sidebandOpcode e = true ∧ sidebandTakes e = true ∧ requestChecks (adminFetched s src) y.reqLen true e = none ∧
        ∀ x, (adminFetched s src).cmd? s.nextCmd = some x → checksB (adminFetched s src) .p0 x (some []) = .passes) ∧
  (∃ x, (adminTaken s src).cmd? s.nextCmd = some x ∧ x.stage = .waiting ∧ mayStartAdmin (adminTaken s src) s.nextCmd x = true) ∧
  ∀ y ∈ s.cmds, y.1 < s.nextCmd

/-- The command of a source is answered (R494, R519, R603): a queue's command is decided; a mailbox's or the sideband's has its completion in
the buffer, DONE is set and the host owns it, but that a mailbox's whose result goes to host memory is decided and answered after its write
(R520, R673). -/
def Sys2Proof.Machine.State.answers (t s : State) (src : AdminSrc) (st : Status) (dw2 dw3 : Nat) : Prop :=
  match src with
  | .queue .. => t.decidedAs s.nextCmd st dw2 dw3
  | .mailbox p m _ =>
      (t.decidedAs s.nextCmd st dw2 dw3 ∧ (t.mailbox p m).firmware = true ∧ ∃ x, t.cmd? s.nextCmd = some x ∧ hostResult s x x.result = true) ∨
      (t.cmd? s.nextCmd = none ∧ (t.mailbox p m).done = true ∧ (t.mailbox p m).firmware = false ∧
        (t.mailbox p m).seq = (s.mailbox p m).seq + 1 ∧
        ∃ k tag, Mem.readN (t.mailbox p m).buf 0 32 = cqeBytes k m 0 tag true ∧ k.status = st ∧ k.dw2 = dw2 ∧ k.dw3 = dw3)
  | .sideband => t.cmd? s.nextCmd = none ∧ t.sideband.done = true ∧ t.sideband.firmware = false ∧
      ∃ k tag, Mem.readN t.sideband.buf 0 32 = cqeBytes k 0 0 tag true ∧ k.status = st ∧ k.dw2 = dw2 ∧ k.dw3 = dw3

/-- State u with the parts taken from t that an answer to a command may change: commands, batches and runs that held it, the mailboxes, and what
the ports signal. -/
def Sys2Proof.Machine.State.answering (u t : State) : State :=
  { u with
    cmds := t.cmds, batches := t.batches, runs := t.runs, sideband := t.sideband
    port0 := { u.port0 with
      mailboxes := t.port0.mailboxes, msix := t.port0.msix, sent := t.port0.sent, waiting := t.port0.waiting }
    port1 := { u.port1 with
      mailboxes := t.port1.mailboxes, msix := t.port1.msix, sent := t.port1.sent, waiting := t.port1.waiting } }

/-- Every condition of R387 on a request for n bytes with right x that arrives as packet k. -/
def Sys2Proof.Machine.State.windowAllows (s : State) (k : Packet) (n : Nat) (x : Right) : Prop :=
  let i := inWindow s k.window
  let e := (pageEntry s (peerDie s k.src) k.window k.offset).toNat
  i.valid = true ∧ i.gen = k.gen ∧ (i.source = k.src ∨ (i.anyMember = true ∧ isMember s k.src = true)) ∧
    k.offset + n ≤ i.tiles * 65536 ∧ k.offset % 65536 + n ≤ 65536 ∧ bitOf e 63 = true ∧
    (x = .read → i.read = true ∧ bitOf e 62 = true) ∧ (x = .write → i.write = true ∧ bitOf e 61 = true) ∧
    (x = .atomic → i.atomic = true ∧ bitOf e 60 = true)

/-- The commands that may extend or clear a measurement register: start-up and what it waits for, the two device-wide resets, and the commands that load a schedule
or pass on one (R594). The other extends happen as time passes, at the end of an activation. -/
def Sys2Proof.Machine.mayMeasure : Instr → Bool
  | .startUp _ | .devrstNRelease | .pllLock _ | .powerDown | .railFault .. | .deviceReset _ | .sbDeviceReset _ | .scheduleLoad ..
  | .commandAdmit _ | .adminFan .. | .provisioning _ => true
  | _ => false
end

