-- ==== Sys2Proof/Certificates/Slice0/Obligations.lean ====
section
/-! DEFINITION. The statements for the provers. Names, docstrings and OBLIGATIONS.json say what each states and the rules of spec/ it rests on. -/

open Sys2Proof Sys2Proof.Machine

/-- A step runs the command at the front of the queue, on the state with the rest of the queue. -/
def Obligations.StepRunsFront : Prop :=
  ∀ (c : Instr) (rest : List Instr) (s : State), s.pending = c :: rest → step s = exec c { s with pending := rest }

/-- Every step completes and takes exactly the front command off the queue: no command is refused, none ends in a fault, none puts a command
into the queue. -/
def Obligations.EveryStepCompletes : Prop :=
  ∀ (s : State), ∃ t, step s = .next t ∧ t.pending = s.pending.tail

/-- OTP is written as the rules say: no step changes the unique device secret or the lifecycle state but PROVISIONING, which leaves
MANUFACTURE for PRODUCTION, and a rollback counter only ever grows at its end (R589, R596). Every other command leaves the measurement
registers, their count of extends and the OTP unchanged: port resets, quarter resets and the start of a firmware activation among them
(R594, R596, R621). -/
def Obligations.TrustIsKept : Prop :=
  (∀ (s t : State), step s = .next t →
    (∃ l, t.security.counter0 = s.security.counter0 ++ l) ∧ (∃ l, t.security.counter1 = s.security.counter1 ++ l) ∧
    (t.security.lifecycle = s.security.lifecycle ∧ t.security.uds = s.security.uds ∨
      (s.security.lifecycle = .manufacture ∧ t.security.lifecycle = .production ∧ ∃ m rest, s.pending = .provisioning m :: rest))) ∧
  (∀ (c : Instr) (s t : State), mayMeasure c = false → exec c s = .next t → t.trust = s.trust)

/-- What reset leaves: PWROK is low and nothing is in work; no command waits; POWER_LIMIT is 0; the measurements are zero; a Denop port has
its full credits and carries nothing; LEND_QUOTA is 0; no memory holds anything, so each has its canonical form (R412, R560, R594, R619,
R620). The model's own conventions of an empty queue and of words: a step with nothing waiting lets one nanosecond pass and leaves the queue
empty (DESIGN CHOICE, log entry 4), and no word spells a command, since the table gives no row bits. -/
def Obligations.ResetAndIdle : Prop :=
  (State.reset.pending = [] ∧ State.reset.power.phase = .powerOff ∧ State.reset.power.pwrok = false ∧ State.reset.power.limit = 0 ∧
  State.reset.cmds = [] ∧ State.reset.colls = [] ∧ State.reset.islands = [] ∧ State.reset.security.meas = [0, 0, 0, 0, 0] ∧
  State.reset.tiers.lendQuota = 0 ∧ (∀ p, carries (State.reset.link p) = false ∧ (State.reset.link p).credits = [64, 672, 672, 672, 672, 672, 672]) ∧
  (∀ p q, (State.reset.pair p q).state = .absent) ∧ (∀ p m, (State.reset.mailbox p m).firmware = false)) ∧
  ((∀ (s : State), s.pending = [] → ∃ t, step s = .next t ∧ t.pending = []) ∧
  (∀ nbits w, decodeTableWord nbits w = none ∧ ∀ s : State, s.withFetchWord nbits w = s))

/-- A read of ISLAND_COUNT_LO answers the low half of the host island's counter and latches the upper half; AGG_TIME sends the CQ's message;
SUBMIT hands the mailbox over or is refused; unmasking a vector sends its pending message (R461, R469, R470, R472). A doorbell write that is
in range is taken: SQ_TAIL of an ACTIVE or FROZEN queue becomes the value, and CQ_HEAD, where it returns only entries that the device has
posted, becomes the value and ends CQ_FULL; nothing else changes (R465). -/
def Obligations.HostRegistersAct : Prop :=
  (∀ (p : PortId) (s : State), barUp s p = true →
    exec (.islandCountLoRead p) s = .next (s.modPort p fun x => { x with
        countHi := BitVec.ofNat 32 (islandCount s (hostIsland p) / 2 ^ 32)
        sent := x.sent ++ [.regRead (BitVec.ofNat 32 (islandCount s (hostIsland p)))] }) ∧
    (∀ (m : Nat) (ctrl : Word), m < 16 → ctrl.getLsbD 0 = true →
      ((s.mailbox p m).firmware = true ∨ (s.mailbox p m).reqLen = 0 ∨ 4096 < (s.mailbox p m).reqLen →
        exec (.mailboxSubmit p m ctrl) s = .next (s.modMailbox p m fun x => { x with refused := true })) ∧
      ((s.mailbox p m).firmware = false → 1 ≤ (s.mailbox p m).reqLen → (s.mailbox p m).reqLen ≤ 4096 →
        exec (.mailboxSubmit p m ctrl) s = .next (s.modMailbox p m fun x => { x with
          firmware := true, started := false, vector := bitsOf ctrl.toNat 26 16, intrEn := ctrl.getLsbD 1 }))) ∧
    (∀ v : Nat, v < 2048 → (msixEntry s p v).pending = true → (s.port p).functionMask = false → (s.port p).msixEnable = true →
      exec (.msixUnmask p (.vector v)) s = .next (emit (s.modPort p fun x => { x with
        msix := Tab.set x.msix v { msixEntry s p v with masked := false, pending := false } }) p (.msix v))) ∧
    (∀ q : Nat, q < 2048 → live s = true → 0 < (s.pair p q).unsignalled → (s.port p).msixEnable = true →
      (s.port p).functionMask = false → (msixEntry s p (s.pair p q).vector).masked = false →
      exec (.aggTime p q) s = .next (emit (s.modPair p q fun x => { x with unsignalled := 0 }) p (.msix (s.pair p q).vector)))) ∧
  (∀ (p : PortId) (q : Nat) (v : Word) (s : State), barUp s p = true → q < 2048 →
    (s.pair p q).state = .active ∨ (s.pair p q).state = .frozen →
    (v.toNat % 65536 < (s.pair p q).sqEntries →
      exec (.sqTail p q v false) s = .next (s.modPair p q fun x => { x with sqTail := v.toNat % 65536 })) ∧
    (v.toNat % 65536 < (s.pair p q).cqEntries →
      ringDist (s.pair p q).cqEntries (s.pair p q).cqHead (v.toNat % 65536)
        ≤ ringDist (s.pair p q).cqEntries (s.pair p q).cqHead (s.pair p q).cqTail →
      exec (.cqHead p q v false) s = .next (s.modPair p q fun x =>
        { x with cqHead := v.toNat % 65536, cqFull := x.cqFull && decide (v.toNat % 65536 = x.cqHead) })))

/-- A doorbell error is ignored but for its count, DB_ERROR where the queue exists, and a log entry that names the queue and the value; it
freezes no queue and affects only its own port (R466). -/
def Obligations.DoorbellErrors : Prop :=
  ∀ (p : PortId) (q : Nat) (v : Word) (narrow : Bool) (s : State), barUp s p = true → q < 2048 →
    ∀ (c : Instr) (size : Nat),
    ((c = .sqTail p q v narrow ∧ size = (s.pair p q).sqEntries) ∨ (c = .cqHead p q v narrow ∧ size = (s.pair p q).cqEntries)) →
    (narrow = true ∨ (s.pair p q).state = .absent ∨ (s.pair p q).state = .deleting ∨ size ≤ v.toNat % 65536 ∨
      (c = .cqHead p q v narrow ∧ ringDist size (s.pair p q).cqHead (s.pair p q).cqTail
        < ringDist size (s.pair p q).cqHead (v.toNat % 65536))) →
    ∃ t, exec c s = .next t ∧
      (t.port p).dbErrors = min 0xFFFF ((s.port p).dbErrors + 1) ∧ (t.port p).dbLast = q ∧
      (t.port p).eventStatus.getLsbD evErrorLog = true ∧
      t.pair p q = (if (s.pair p q).state = .absent then s.pair p q else { s.pair p q with dbError := true }) ∧
      (∀ r, r ≠ q → t.pair p r = s.pair p r) ∧
      (s.security.activating = none → ∃ e, t.logs.entries.getLast? = some e ∧ e.location = q ∧ e.detail = v.toNat % 65536 ∧
        e.queue = q ∧ e.port = some p) ∧
      t = { s.modPort p fun _ => t.port p with logs := t.logs }

/-- ENABLE while READY is 1 checks the admin queue sizes: in range, it makes pair 0 with vector 0; out of range, it sets CONFIG_ERROR and
ENABLED stays 0. A write of 1 while READY is 0 is ignored; while ENABLED is 1 the admin queue registers ignore writes; a write of 0 then is
the queue reset of the port (R463). QUIESCE takes the value written. -/
def Obligations.EnableMakesPairZero : Prop :=
  ∀ (p : PortId) (s : State), barUp s p = true →
    ((s.port p).ready = true → (s.port p).enabled = false →
      (1 ≤ (s.port p).asqM1 ∧ (s.port p).asqM1 ≤ 4095 ∧ 1 ≤ (s.port p).acqM1 ∧ (s.port p).acqM1 ≤ 4095 →
        ∃ t, exec (.enable p) s = .next t ∧ (t.port p).enabled = true ∧ (t.port p).configError = false ∧
          (t.pair p 0).state = .active ∧ (t.pair p 0).vector = 0 ∧
          (t.pair p 0).sqEntries = (s.port p).asqM1 + 1 ∧ (t.pair p 0).cqEntries = (s.port p).acqM1 + 1 ∧
          (t.pair p 0).sqBase = (s.port p).adminSq.toNat ∧ (t.pair p 0).cqBase = (s.port p).adminCq.toNat ∧
          (∀ q, q ≠ 0 → t.pair p q = s.pair p q) ∧
          t = s.modPort p fun x => { x with enable := true, enabled := true, configError := false, pairs := (t.port p).pairs }) ∧
      (¬ (1 ≤ (s.port p).asqM1 ∧ (s.port p).asqM1 ≤ 4095 ∧ 1 ≤ (s.port p).acqM1 ∧ (s.port p).acqM1 ≤ 4095) →
        exec (.enable p) s = .next (s.modPort p fun x => { x with enable := true, configError := true }))) ∧
    ((s.port p).ready = false → exec (.enable p) s = .next s) ∧
    ((s.port p).enabled = true →
      (∀ off, off = 0x010 ∨ off = 0x014 ∨ off = 0x018 ∨ off = 0x01C ∨ off = 0x020 →
        ∀ b0 b1 b2 b3 a, exec (.registerWrite ⟨.bar0 p off [b0, b1, b2, b3], a⟩) s = .next s) ∧
      (∃ t, exec (.queueReset p) s = .next t ∧ (t.port p).enabled = false ∧ (t.port p).pairs = [] ∧ (t.port p).inReset = true ∧
        t.port (otherPort p) = s.port (otherPort p))) ∧
    (∀ v, exec (.quiesce p v) s = .next (s.modPort p fun x => { x with quiesce := v }))

/-- No event is lost: an EVENT_STATUS bit that the host clears in the cycle in which the hardware sets it stays set; a bit cleared alone is
0, and the others keep their value or are set (R16). -/
def Obligations.EventClearLosesNone : Prop :=
  ∀ (p : PortId) (mask : Word) (arising : BitVec 6) (s : State), barUp s p = true →
    ∃ t, exec (.eventStatusClear p mask arising) s = .next t ∧
      (t.port p).eventStatus = ((s.port p).eventStatus &&& ~~~ mask.setWidth 6) ||| arising ∧
      t = s.modPort p fun x => { x with
        eventStatus := (t.port p).eventStatus, eventOwed := (t.port p).eventOwed, msix := (t.port p).msix
        sent := (t.port p).sent, waiting := (t.port p).waiting }

/-- An EVENT_STATUS bit that sets while its mask bit is 0 sends one message on the vector; a bit already set sends nothing more; a bit that
sets while it is masked signals when the host clears its mask bit (R462). A message goes out where MSI-X is on, the vector unmasked and the
port free to send. -/
def Obligations.EventsSignal : Prop :=
  (∀ (p : PortId) (b : Nat) (s : State), b < 6 →
    ((s.port p).eventStatus.getLsbD b = true → raiseEvent s p b = s) ∧
    ((s.port p).eventStatus.getLsbD b = false →
      ((raiseEvent s p b).port p).eventStatus.getLsbD b = true ∧
      ((s.port p).eventMask.getLsbD b = false → (s.port p).msixEnable = true → (s.port p).functionMask = false →
        (msixEntry s p (s.port p).eventVector).masked = false → (s.port p).busMaster = true → (s.port p).d3hot = false →
        ((raiseEvent s p b).port p).sent = (s.port p).sent ++ [.msix (s.port p).eventVector]) ∧
      ((s.port p).eventMask.getLsbD b = true → ((raiseEvent s p b).port p).sent = (s.port p).sent ∧
        ((raiseEvent s p b).port p).eventOwed.getLsbD b = true))) ∧
  (∀ (p : PortId) (mask : Word) (s : State), barUp s p = true →
    ∃ t, exec (.eventMaskWrite p mask) s = .next t ∧ (t.port p).eventMask = mask.setWidth 6 ∧
      (t.port p).eventOwed = (s.port p).eventOwed &&& mask.setWidth 6 ∧
      ((s.port p).msixEnable = true → (s.port p).functionMask = false → (msixEntry s p (s.port p).eventVector).masked = false →
        (s.port p).busMaster = true → (s.port p).d3hot = false →
        (t.port p).sent = (s.port p).sent ++
          List.replicate ((List.range 6).filter fun b => ((s.port p).eventOwed &&& ~~~ mask.setWidth 6).getLsbD b).length
            (.msix (s.port p).eventVector)) ∧
      t = s.modPort p fun x => { x with
        eventMask := mask.setWidth 6, eventOwed := (t.port p).eventOwed, msix := (t.port p).msix
        sent := (t.port p).sent, waiting := (t.port p).waiting })

/-- A port reset of p deletes its queue pairs, puts its registers at their reset values, discards its commands that are not admitted, lets
the admitted ones run on detached, and leaves the other port and its commands as they are. A queue reset leaves the configuration space and
the MSI-X table; the other kinds reset them too (R476, R477, R478). When the reset of p ends, p is out of reset, READY tells whether
start-up is complete, and the other port sees OTHER_PORT_RESET (R478, R479). -/
def Obligations.PortResetsClearTheirPort : Prop :=
  (∀ (p : PortId) (s : State) (c : Instr) (queueOnly : Bool),
    ((c = .fundamentalReset p ∨ c = .hotReset p ∨ c = .dlDown p ∨ c = .functionLevelReset p) ∧ portPowered s p = true ∧
      queueOnly = false) ∨
    (c = .queueReset p ∧ barUp s p = true ∧ (s.port p).enabled = true ∧ queueOnly = true) →
    ∃ t, exec c s = .next t ∧
      (t.port p).pairs = [] ∧ (t.port p).enable = false ∧ (t.port p).enabled = false ∧ (t.port p).ready = false ∧
      (t.port p).inReset = true ∧ (t.port p).quiesce = false ∧ (t.port p).configError = false ∧ (t.port p).adminSq = 0 ∧ (t.port p).adminCq = 0 ∧
      (t.port p).asqM1 = 0 ∧ (t.port p).acqM1 = 0 ∧ (t.port p).eventStatus = 0 ∧ (t.port p).eventMask = 0 ∧
      (t.port p).eventVector = 0 ∧ (t.port p).countHi = 0 ∧ (t.port p).busyRetry = 0 ∧ (t.port p).dbErrors = 0 ∧
      (t.port p).dbLast = 0 ∧
      (t.port p).xlt.dtc = [] ∧ (t.port p).xlt.reqs = [] ∧ (t.port p).xlt.pages = [] ∧ (t.port p).xlt.counters = [] ∧
      (∀ y ∈ (t.port p).mailboxes, y.2.firmware = true ∧ y.2.discard = true) ∧
      (queueOnly = true → (t.port p).msix = (s.port p).msix ∧ (t.port p).msixEnable = (s.port p).msixEnable ∧
        (t.port p).functionMask = (s.port p).functionMask ∧ (t.port p).busMaster = (s.port p).busMaster ∧
        (t.port p).d3hot = (s.port p).d3hot ∧ (t.port p).configReady = (s.port p).configReady) ∧
      (queueOnly = false → (t.port p).msix = [] ∧ (t.port p).msixEnable = false ∧ (t.port p).configReady = false ∧
        (t.port p).xlt.atsOn = false ∧ (t.port p).xlt.priOn = false) ∧
      (∀ n x, s.cmds.filter (fun y => y.1 == n) = [(n, x)] →
        (originPort x.origin ≠ some p → t.cmd? n = some x) ∧
        (∀ q, x.origin = .sq p q → x.stage = .waiting → t.cmd? n = none) ∧
        (originPort x.origin = some p → x.stage = .admitted → queueAdmin (eOpcode x.entry) = false →
          t.cmd? n = some { x with detached := true, heldDp := false })) ∧
      t.port (otherPort p) = s.port (otherPort p) ∧
      (∀ r, (∀ y ∈ s.protect.regions, y.1 = r → y.2.owner ≠ portNum p + 1) → t.region r = s.region r) ∧
      (∀ b B m x, Tab.get? s.batches b = some B → m ∈ B.members → s.cmds.filter (fun y => y.1 == m) = [(m, x)] → originPort x.origin ≠ some p →
        ∃ C, Tab.get? t.batches b = some C ∧ m ∈ C.members) ∧
      t = { s.modPort p fun _ => t.port p with
        cmds := t.cmds, batches := t.batches, runs := t.runs, colls := t.colls, pieces := t.pieces, alleys := t.alleys
        protect := t.protect, cache := t.cache, engines := t.engines, streams := t.streams }) ∧
  (∀ (p : PortId) (s : State), (s.port p).inReset = true → (s.island (hostIsland p)).state = .run →
    ∃ t, exec (.portResetEnd p) s = .next t ∧
      t.port p = { s.port p with inReset := false, configReady := true, ready := live s } ∧
      ((s.port (otherPort p)).inReset = false → (s.port (otherPort p)).heldOff = false →
        (t.port (otherPort p)).eventStatus = setBit (s.port (otherPort p)).eventStatus evOtherPortReset) ∧
      ((s.port (otherPort p)).inReset = true ∨ (s.port (otherPort p)).heldOff = true →
        t.port (otherPort p) = s.port (otherPort p)) ∧
      t = { s with port0 := t.port0, port1 := t.port1 })

/-- In D3hot, or without Bus Master Enable, what a port sends waits; on return to D0 with Bus Master Enable set, the waiting requests issue
in order (R480). A poisoned write is discarded and reported, and an access outside a decoded BAR is an Unsupported Request (R455).
Configuration requests retry until the space is ready; then a read of dword 0 answers the vendor and the device identifier 0x1640, and a
write of a control field sets it; leaving ATS empties the port's part of the DTC (R451, R456, R367, R375). A register write without a row of
its own takes its fields; while ENABLED is 1 the admin queue registers ignore it; a size or alignment that BAR0 does not take is ignored; a
host write of the control processor's space is refused (R315, R333, R458, R463). -/
def Obligations.PortsAndRegisters : Prop :=
  (∀ (p : PortId) (s : State),
    (portPowered s p = true → (s.port p).inReset = false →
      exec (.d3hotEntry p) s = .next (s.modPort p fun x => { x with d3hot := true }) ∧
      exec (.busMasterEnable p false) s = .next (s.modPort p fun x => { x with busMaster := false }) ∧
      ((s.port p).d3hot = true → exec (.busMasterEnable p true) s = .next (s.modPort p fun x => { x with busMaster := true })) ∧
      ((s.port p).d3hot = false → exec (.busMasterEnable p true) s = .next (s.modPort p fun x => { x with
        busMaster := true, sent := x.sent ++ x.waiting, waiting := [] }))) ∧
    ((s.port p).d3hot = true →
      ((s.port p).busMaster = true → exec (.d0Return p) s = .next (s.modPort p fun x => { x with
        d3hot := false, sent := x.sent ++ x.waiting, waiting := [] })) ∧
      ((s.port p).busMaster = false → exec (.d0Return p) s = .next (s.modPort p fun x => { x with d3hot := false }))) ∧
    (∀ o, (s.port p).d3hot = true ∨ (s.port p).busMaster = false →
      emit s p o = s.modPort p fun x => { x with waiting := x.waiting ++ [o] }) ∧
    (∀ q, (s.port p).d3hot = true ∨ (s.port p).busMaster = false → canFetch s p q = false) ∧
    (portPowered s p = true →
      exec (.poisonedWrite p) s = .next (s.modPort p fun x => { x with aer := x.aer ++ [.poisonedTlp] }) ∧
      exec (.unsupportedRequest p) s = .next (s.modPort p fun x => { x with sent := x.sent ++ [.unsupported] }))) ∧
  (∀ (p : PortId) (s : State), portPowered s p = true →
    (∀ r, cfgReqOk r = true → (s.port p).configReady = false →
      exec (.configRequest p r) s = .next (s.modPort p fun x => { x with sent := x.sent ++ [.cfgRetry] })) ∧
    ((s.port p).configReady = true →
      exec (.configRequest p (.read 0)) s = .next (s.modPort p fun x => { x with
        sent := x.sent ++ [.cfgRead (some (BitVec.ofNat 32 (0x1640 * 65536 + Config.vendorId.toNat)))] }) ∧
      exec (.configRequest p (.ats true)) s = .next (s.modPort p fun x => { x with xlt := { x.xlt with atsOn := true } }) ∧
      exec (.configRequest p (.ats false)) s = .next (s.modPort p fun x => { x with
        xlt := { x.xlt with atsOn := false, dtc := [] } }) ∧
      (∀ on a, a ≤ 512 → exec (.configRequest p (.pri on a)) s = .next (s.modPort p fun x => { x with
        xlt := { x.xlt with priOn := on, priStopped := x.xlt.priStopped && !(on && !x.xlt.priOn), allocation := a } })) ∧
      (∀ n, n = 128 ∨ n = 256 ∨ n = 512 →
        exec (.configRequest p (.maxPayload n)) s = .next (s.modPort p fun x => { x with maxPayload := n })) ∧
      (∀ n, n = 128 ∨ n = 256 ∨ n = 512 ∨ n = 1024 ∨ n = 2048 ∨ n = 4096 →
        exec (.configRequest p (.maxReadRequest n)) s = .next (s.modPort p fun x => { x with maxRead := n })) ∧
      exec (.configRequest p (.msixEnable false)) s = .next (s.modPort p fun x => { x with msixEnable := false }))) ∧
  (∀ (p : PortId) (s : State),
    (barUp s p = true →
      (∀ b0 b1 b2 b3 a, exec (.registerWrite ⟨.bar0 p 0x02C [b0, b1, b2, b3], a⟩) s
        = .next (s.modPort p fun x => { x with eventVector := leNat [b0, b1, b2, b3] % 2048 })) ∧
      (∀ b0 b1 b2 b3 a, (s.port p).enabled = false → exec (.registerWrite ⟨.bar0 p 0x020 [b0, b1, b2, b3], a⟩) s
        = .next (s.modPort p fun x => { x with
          asqM1 := leNat [b0, b1, b2, b3] % 4096, acqM1 := leNat [b0, b1, b2, b3] / 65536 % 4096 })) ∧
      (∀ off, off = 0x010 ∨ off = 0x014 ∨ off = 0x018 ∨ off = 0x01C ∨ off = 0x020 → (s.port p).enabled = true →
        ∀ b0 b1 b2 b3 a, exec (.registerWrite ⟨.bar0 p off [b0, b1, b2, b3], a⟩) s = .next s) ∧
      (∀ off bytes a, off < 0x40000 → ¬ (bytes.length = 4 ∧ off % 4 = 0) → ¬ (bytes.length = 8 ∧ off % 8 = 0) →
        exec (.registerWrite ⟨.bar0 p off bytes, a⟩) s = .next s) ∧
      (∀ m bytes a, m < 16 → (s.mailbox p m).firmware = true →
        ∃ t, exec (.registerWrite ⟨.bar2 p (m * 0x1000) bytes, a⟩) s = .next t ∧ (∀ k, t.mailbox p k = s.mailbox p k) ∧
          t = s.modPort p fun x => { x with mailboxes := (t.port p).mailboxes })) ∧
    (∀ addr v a, addr < 2 ^ 32 → addr % 4 = 0 → exec (.registerWrite ⟨.block addr v .host, a⟩) s = .next s) ∧
    (∀ ch v a, ch < 512 → fwServes s = true →
      exec (.registerWrite ⟨.block (0x01000000 + ch * 0x400 + 0x018) v .firmware, a⟩) s
        = .next (s.modChan ch fun x => { x with seed := v }) ∧
      (∀ b1 b2 b3 b4, a.getLsbD 1 = b1 → a.getLsbD 2 = b2 → a.getLsbD 3 = b3 → a.getLsbD 4 = b4 →
        exec (.registerWrite ⟨.block (0x01000000 + ch * 0x400 + 0x014) v .firmware, a⟩) s
          = .next (s.modChan ch fun x => { x with
            trainFail := (x.trainFail && !v.getLsbD 4) || b4, refused := (x.refused && !v.getLsbD 3) || b3
            fail := (x.fail && !v.getLsbD 2) || b2, done := (x.done && !v.getLsbD 1) || b1 }))))

/-- Host translation. HOT_PERIOD halves the counters and clears the marks (R391). An invalidation drops the entries it overlaps, marks the
requests of its blocks stale and starts a new generation; it is answered when what went before it has drained (R380, R383). A Translation
Completion ends its request, whatever it answers: sixteen pages that merge make one 64 KiB entry, a piece whose bytes it covers goes out, and
a request that an invalidation made stale is asked again (R371, R373, R381). Every PRG Response is taken: one of success drops the page's
entries and asks for it anew for the piece that waits, one of an invalid request fails it with HOST_FAULT, and one of failure fails every
piece of the port that waits and stops PRI (R375); a response after a timeout only frees its index (R377). PRI_TIMEOUT fails the waiters of
its page with HOST_FAULT and keeps the index in use (R377). Each row completes in every state that has the request, the invalidation or the
page that it answers. -/
def Obligations.HostTranslation : Prop :=
  (∀ (p : PortId) (s : State), live s = true →
    exec (.hotPeriod p) s = .next (s.modPort p fun x => { x with
      hotPeriod := x.hotPeriodNext
      xlt := { x.xlt with counters :=
        (x.xlt.counters.map fun c => (c.1, { count := c.2.count / 2, marked := false : HotCounter })).filter fun c => c.2.count != 0 } }) ∧
    (∀ itag base size, itag < 32 → (s.port p).xlt.invs.length < 32 → (∀ i ∈ (s.port p).xlt.invs, i.itag ≠ itag) →
      ∃ t, exec (.invalidateRequest p itag base size) s = .next t ∧
        (∀ e, e ∈ (t.port p).xlt.dtc ↔ e ∈ (s.port p).xlt.dtc ∧ ¬ (e.base < base + size ∧ base < e.base + 2 ^ e.sizeLog2)) ∧
        (∀ r ∈ (t.port p).xlt.reqs, r.block * 65536 < base + size → base < r.block * 65536 + 65536 → r.stale = true) ∧
        (t.port p).xlt.gen = (s.port p).xlt.gen + 1 ∧
        (t.port p).xlt.invs = (s.port p).xlt.invs ++ [⟨itag, (s.port p).xlt.gen + 1⟩] ∧
        t = s.modPort p fun x => { x with xlt := { x.xlt with
          dtc := (t.port p).xlt.dtc, reqs := (t.port p).xlt.reqs, gen := (t.port p).xlt.gen, invs := (t.port p).xlt.invs } }) ∧
    (∀ itag i, (s.port p).xlt.invs.find? (fun i => i.itag == itag) = some i → drainedBefore s p i.gen = true →
      exec (.invalidateCompletion p itag) s = .next (emit (s.modPort p fun x => { x with xlt := { x.xlt with
        invs := x.xlt.invs.filter fun i => i.itag != itag, invDone := x.xlt.invDone + 1 } }) p (.invalidateCompletion itag)))) ∧
  (∀ (p : PortId) (block : Nat) (r : TransReq) (s : State), live s = true →
    (s.port p).xlt.reqs.find? (fun r => r.block == block) = some r →
    (∀ ts, ∃ t, exec (.translationCompletion p block ts) s = .next t ∧ t.pending = s.pending ∧ t.trust = s.trust) ∧
    (∀ ts, r.waiters = [] → (s.port p).xlt.asks = [] → r.stale = true ∨ ts = [] →
      exec (.translationCompletion p block ts) s = .next (s.modPort p fun x => { x with xlt := { x.xlt with reqs := x.xlt.reqs.erase r } })) ∧
    (∀ u us, r.stale = false → mergeable (u :: us) = true → u.read = true ∨ u.write = true →
      ∃ t, exec (.translationCompletion p block (u :: us)) s = .next t ∧
        (t.port p).xlt.dtc.getLast? = some { base := block * 65536, sizeLog2 := 16, addr := u.addr, read := u.read, write := u.write
                                             untranslated := u.untranslated }) ∧
    (∀ u us n x, r.stale = false → mergeable (u :: us) = true → u.read = true → n < 2 ^ 32 → r.waiters = [n] →
      Tab.get? s.pieces n = some x → x.state = .missed → x.spec.srcSpace = 1 → (s.stream x.quarter x.stream).hostPort = p →
      1 ≤ x.spec.len → x.spec.src / 65536 = block → (x.spec.src + x.spec.len - 1) / 65536 = block →
      (∀ e ∈ (s.port p).xlt.dtc, ∀ a, a / 65536 = block → covers e a = false) →
      ∃ t, exec (.translationCompletion p block (u :: us)) s = .next t ∧ (Tab.get? t.pieces n).map (·.state) = some .issued ∧
        (Tab.get? t.pieces n).map (·.replays) = some 0) ∧
    (∀ ts n, (s.port p).xlt.reqs = [r] → (s.port p).xlt.asks = [] → r.stale = true → r.waiters = [n] →
      exec (.translationCompletion p block ts) s = .next (emit (s.modPort p fun x => { x with xlt := { x.xlt with
        reqs := [⟨block, false, [n]⟩] } }) p (.transReq block)))) ∧
  (∀ (p : PortId) (i : Nat) (g : PageReq) (s : State), live s = true → Tab.get? (s.port p).xlt.pages i = some g →
    (∀ code, ∃ t, exec (.prgResponse p i code) s = .next t ∧ t.pending = s.pending ∧ t.trust = s.trust) ∧
    (∀ code, g.expired = true → (s.port p).xlt.starved = [] →
      exec (.prgResponse p i code) s = .next (s.modPort p fun x => { x with
        xlt := { x.xlt with pages := Tab.erase x.xlt.pages i } })) ∧
    (g.expired = false → g.waiters = [] → (s.port p).xlt.starved = [] →
      exec (.prgResponse p i .invalidRequest) s = .next (s.modPort p fun x => { x with
        xlt := { x.xlt with pages := Tab.erase x.xlt.pages i } }) ∧
      exec (.prgResponse p i .success) s = .next (s.modPort p fun x => { x with
        xlt := { x.xlt with pages := Tab.erase x.xlt.pages i, dtc := x.xlt.dtc.filter fun e => !covers e (g.page * 4096) } })) ∧
    (∀ n x, g.expired = false → n < 2 ^ 32 → g.waiters = [n] → Tab.get? s.pieces n = some x → (s.port p).xlt.starved = [] →
      (∃ t, exec (.prgResponse p i .invalidRequest) s = .next t ∧ (Tab.get? t.pieces n).map (·.err) = some (some 3) ∧
        (∀ m, m ≠ n → Tab.get? t.pieces m = Tab.get? s.pieces m) ∧ (t.port p).xlt.pages = Tab.erase (s.port p).xlt.pages i ∧
        t = { s with port0 := t.port0, port1 := t.port1, pieces := t.pieces, engines := t.engines, streams := t.streams }) ∧
      ((s.port p).xlt.reqs.length < 64 → (∀ r ∈ (s.port p).xlt.reqs, r.block ≠ g.page * 4096 / 65536) →
        ∃ t, exec (.prgResponse p i .success) s = .next t ∧ (t.port p).xlt.pages = Tab.erase (s.port p).xlt.pages i ∧
          (∀ e, e ∈ (t.port p).xlt.dtc ↔ e ∈ (s.port p).xlt.dtc ∧ covers e (g.page * 4096) = false) ∧
          (t.port p).xlt.reqs = (s.port p).xlt.reqs ++ [⟨g.page * 4096 / 65536, false, [n]⟩] ∧
          ((s.port p).busMaster = true → (s.port p).d3hot = false →
            (t.port p).sent = (s.port p).sent ++ [.transReq (g.page * 4096 / 65536)]) ∧
          (Tab.get? t.pieces n).map (·.state) = some .missed ∧ (∀ m, m ≠ n → Tab.get? t.pieces m = Tab.get? s.pieces m) ∧
          t = { s with port0 := t.port0, port1 := t.port1, pieces := t.pieces, engines := t.engines, streams := t.streams })) ∧
    (g.expired = false →
      ∃ t, exec (.prgResponse p i .responseFailure) s = .next t ∧ (t.port p).xlt.priStopped = true ∧
        (t.port p).xlt.starved = [] ∧ (∀ h ∈ (t.port p).xlt.pages, h.2.expired = true) ∧
        ((∀ n ∈ g.waiters, n < 2 ^ 32) → (∀ n ∈ (s.port p).xlt.starved, n < 2 ^ 32) →
          (∀ h ∈ (s.port p).xlt.pages, ∀ n ∈ h.2.waiters, n < 2 ^ 32) →
          ∀ n x, Tab.get? s.pieces n = some x → n ∈ g.waiters ∨ n ∈ (s.port p).xlt.starved ∨
              (∃ j h, j ≠ i ∧ (j, h) ∈ (s.port p).xlt.pages ∧ h.expired = false ∧ n ∈ h.waiters) →
            (Tab.get? t.pieces n).map (·.err) = some (some 3))) ∧
    (g.expired = false →
      (∃ t, exec (.priTimeout p i) s = .next t ∧ t.pending = s.pending ∧ t.trust = s.trust) ∧
      ((∀ n ∈ g.waiters, n < 2 ^ 32) →
        ∃ t, exec (.priTimeout p i) s = .next t ∧
          (∀ n x, Tab.get? s.pieces n = some x → n ∈ g.waiters → (Tab.get? t.pieces n).map (·.err) = some (some 3)) ∧
          (∀ m, m ∉ g.waiters → Tab.get? t.pieces m = Tab.get? s.pieces m) ∧
          Tab.get? (t.port p).xlt.pages i = some { g with waiters := [], expired := true } ∧
          t = { s with port0 := t.port0, port1 := t.port1, pieces := t.pieces, engines := t.engines, streams := t.streams })))

/-- ARM of a single stream: an IDLE stream becomes ARMED with the ring named; a stream that is ARMED re-arms at once when its descriptors
have all completed, and else drains with the re-arm queued; a stream that drains refuses and changes nothing but ARM_RESULT (R335, R336,
R339, R340). STOP ends issue and discards a queued re-arm; a stream with nothing in flight is IDLE at once, one with pieces in flight is
STOPPING until they complete. RESUME of a failed job without END_OF_JOB in what was fetched goes on after it; RING_TAIL takes the new tail
(R333, R338, R346). Only the stream's owner does any of this to a stream in use (R319). -/
def Obligations.StreamsArmStopResume : Prop :=
  (∀ (q : Nat) (o : Owner) (f : ArmStream) (s : State), live s = true → q < 64 → armStreamOk f = true → (s.quarter q).inService = true →
    ((s.stream q f.stream).state = .idle →
      ∃ t, exec (.streamArm q ⟨o, f, none⟩) s = .next t ∧
        t.stream q f.stream = { s.stream q f.stream with
          state := .armed, base := f.base, region := f.region, owner := o, prio := f.prio, hostPort := f.hostPort, hostRing := f.hostRing
          sizeLog2 := f.sizeLog2, tail := f.tail, fetch := 0, head := 0, buffered := [], active := [], errCode := 0, errDesc := 0
          rearm := none, pair := none, isFill := false, armResult := 1 } ∧
        (∀ r n, r * 16 + n ≠ q * 16 + f.stream → t.stream r n = s.stream r n) ∧ t = { s with streams := t.streams }) ∧
    ((s.stream q f.stream).state = .draining →
      exec (.streamArm q ⟨o, f, none⟩) s = .next (s.modStream q f.stream fun x => { x with armResult := 3 })) ∧
    ((s.stream q f.stream).state = .armed → (s.stream q f.stream).pair = none → (s.stream q f.stream).owner = o →
      ∃ t, exec (.streamArm q ⟨o, f, none⟩) s = .next t ∧
        (streamIdle (s.stream q f.stream) = true → (t.stream q f.stream).state = .armed ∧ (t.stream q f.stream).base = f.base ∧
          (t.stream q f.stream).tail = f.tail ∧ (t.stream q f.stream).armResult = 1) ∧
        (streamIdle (s.stream q f.stream) = false → t.stream q f.stream = { s.stream q f.stream with
          state := .draining, rearm := some f, armResult := 2 }) ∧
        (∀ r n, r * 16 + n ≠ q * 16 + f.stream → t.stream r n = s.stream r n) ∧ t = { s with streams := t.streams }) ∧
    ((s.stream q f.stream).state = .armed → (s.stream q f.stream).pair ≠ none ∨ (s.stream q f.stream).owner ≠ o →
      exec (.streamArm q ⟨o, f, none⟩) s = .next (s.modStream q f.stream fun x => { x with armResult := 5 }))) ∧
  (∀ (q n : Nat) (s : State), live s = true → q < 64 → n < 16 →
    ((s.stream q n).state ≠ .idle → (s.stream q n).pair = none →
      ∃ t, exec (.streamStop q ⟨n, (s.stream q n).owner⟩) s = .next t ∧ (t.stream q n).rearm = none ∧ (t.stream q n).buffered = [] ∧
        (∀ a ∈ (t.stream q n).active, a.todo = []) ∧
        ((∀ a ∈ (s.stream q n).active, a.flying = 0) → (t.stream q n).state = .idle ∧ (t.stream q n).active = []) ∧
        ((∃ a ∈ (s.stream q n).active, a.flying ≠ 0) → (t.stream q n).state = .stopping) ∧
        (∀ r m, r * 16 + m ≠ q * 16 + n → t.stream r m = s.stream r m) ∧ t = { s with streams := t.streams }) ∧
    ((s.stream q n).state = .error → (∀ a ∈ (s.stream q n).active, a.flying = 0) →
      (∀ d ∈ knownDescs (s.stream q n), d.2.endOfJob = false) →
      exec (.streamResume q ⟨n, (s.stream q n).owner⟩) s = .next (s.modStream q n fun x => { x with
        head := x.fetch, active := [], buffered := [], state := if x.fetch = x.tail then .armed else .error })) ∧
    (∀ o tail, tail < 65536 → (s.stream q n).state = .idle ∨ ((s.stream q n).owner = o ∧ tail < 2 ^ (s.stream q n).sizeLog2) →
      exec (.ringTailWrite q ⟨n, o⟩ tail) s = .next (s.modStream q n fun x => { x with tail := tail })) ∧
    (∀ o, (s.stream q n).owner ≠ o →
      exec (.streamStop q ⟨n, o⟩) s = .next s ∧ exec (.streamResume q ⟨n, o⟩) s = .next s ∧
      ((s.stream q n).state ≠ .idle → ∀ tail, exec (.ringTailWrite q ⟨n, o⟩ tail) s = .next s)))

/-- The engine fetches at most 16 descriptors that lie before TAIL and within 1,024 bytes of the ring (R326); a fetch of a ring outside its
region fails the stream with REGION_VIOLATION (R345, R346). A descriptor starts in ring order: its pieces wait to issue. A MARKER with
nothing before it completes at once, HEAD passes it, and with NOTIFY its owner is told (R331, R332, R347). -/
def Obligations.DescriptorsAreFetchedAndStart : Prop :=
  (∀ (q n : Nat) (bytes : List Byte) (s : State), live s = true → q < 64 → n < 16 → (s.stream q n).state = .armed →
    (s.stream q n).buffered.length ≤ 16 → (s.stream q n).fetch ≠ (s.stream q n).tail →
    (s.stream q n).fetch < 2 ^ (s.stream q n).sizeLog2 → (s.stream q n).tail < 2 ^ (s.stream q n).sizeLog2 →
    (s.stream q n).rearm = none →
    ∃ k, 1 ≤ k ∧ k ≤ 16 ∧ (s.stream q n).fetch % 16 + k ≤ 16 ∧ k ≤ ringDist (2 ^ (s.stream q n).sizeLog2) (s.stream q n).fetch (s.stream q n).tail ∧
      ((s.stream q n).hostRing = true → bytes.length = 64 * k →
        ∃ t, exec (.descriptorFetch q n bytes) s = .next t ∧
          (t.stream q n).fetch = ((s.stream q n).fetch + k) % 2 ^ (s.stream q n).sizeLog2 ∧
          ((t.stream q n).state = .armed → t = { s with streams := t.streams, events := t.events })) ∧
      ((s.stream q n).hostRing = false →
        passes (s.region (s.stream q n).region) ((s.stream q n).base + 64 * (s.stream q n).fetch) (64 * k) .read = false →
        exec (.descriptorFetch q n bytes) s = .next (s.modStream q n fun x => { x with
          state := .error, error := true, errCode := 2, errDesc := x.fetch }))) ∧
  (∀ (q n i : Nat) (d : Desc) (rest : List (Nat × Desc)) (s : State), live s = true → q < 64 → n < 16 →
    (s.stream q n).state = .armed → (s.stream q n).buffered = (i, d) :: rest → descOk s q d = true →
    (d.order = true → (s.stream q n).active = []) →
    (∀ c, (c = .copy q n ∧ d.opcode = 1) ∨ (c = .fill q n ∧ d.opcode = 2) →
      ∃ t, exec c s = .next t ∧ (t.stream q n).buffered = rest ∧
        (t.stream q n).active.getLast? = some { index := i, desc := d, todo := descPieces d, flying := 0, failed := none } ∧
        descPieces d ≠ [] ∧ (∀ k ∈ descPieces d, 1 ≤ k.len ∧ k.len ≤ 2048) ∧
        t = { s with streams := t.streams, events := t.events }) ∧
    (d.opcode = 3 → (s.stream q n).active = [] → (s.stream q n).rearm = none → rest = [] →
      ∃ t, exec (.marker q n) s = .next t ∧ (t.stream q n).active = [] ∧ (t.stream q n).buffered = [] ∧
        (t.stream q n).head = ((s.stream q n).head + 1) % 2 ^ (s.stream q n).sizeLog2 ∧
        (t.stream q n).count = (s.stream q n).count + 1 ∧
        (d.notify = true → t.events = s.events ++ [⟨q, n, (s.stream q n).owner, d.jobTag, 0⟩]) ∧
        t = { s with streams := t.streams, events := t.events }))

/-- The engine serves its streams in turn (R322): the piece of the stream whose turn it is issues with the next number and takes a tag, where the
crossing lets it by (R355); one that its region entry or window does not allow fails the descriptor with
REGION_VIOLATION (R330, R341, R345). A FILL's piece has its pattern at once. A piece completes: its data stands at its destination, its tag
returns, and the bytes are counted (R331, R341, R343). What the host answers is a piece's data; an error of its answer fails the piece with
HOST_ABORT, and with it a command whose input it was (R345, R455). -/
def Obligations.PiecesIssueAndComplete : Prop :=
  (∀ (q n : Nat) (a : Active) (k : PieceSpec) (s : State), live s = true → q < 64 → n < 16 → (s.stream q n).state = .armed →
    (nextStream s q).map (·.1) = some n → pieceCrosses s q (s.stream q n).prio = true → nextPieceOf (s.stream q n) = some (a, k) →
    (pieceChecks s k = true → k.srcSpace = 4 → k.dstSpace = 3 →
      ∃ t, exec (.pieceIssue q n) s = .next t ∧ t.nextPiece = s.nextPiece + 1 ∧
        (∃ x, Tab.get? t.pieces s.nextPiece = some x ∧ x.quarter = q ∧ x.stream = n ∧ x.index = a.index ∧ x.spec = k ∧
          x.data = some (fillBytes (k.fill.getD 0) k.len) ∧ x.err = none) ∧
        (t.engine q).tags = (s.engine q).tags + 1 ∧ (t.stream q n).tags = (s.stream q n).tags + 1 ∧
        t = { s with streams := t.streams, engines := t.engines, pieces := t.pieces, nextPiece := t.nextPiece, port0 := t.port0, port1 := t.port1 }) ∧
    (pieceChecks s k = false →
      ∃ t, exec (.pieceIssue q n) s = .next t ∧ (t.stream q n).state = .error ∧ (t.stream q n).errCode = 2 ∧
        (t.stream q n).error = true ∧ (t.stream q n).errDesc = a.index ∧
        ((s.stream q n).owner = .firmware → t = { s with streams := t.streams, events := t.events }))) ∧
  (∀ (n : Nat) (x : Piece) (s : State), live s = true → s.pieces.filter (fun y => y.1 == n) = [(n, x)] →
    (∀ b, x.err = none → x.data = some b → x.spec.dstSpace = 3 → b.length = x.spec.len → x.state = .issued →
      ∃ t, exec (.pieceComplete n) s = .next t ∧ Tab.get? t.pieces n = none ∧
        ((s.stream x.quarter x.stream).owner ≠ .scheduler ∨ (s.stream x.quarter x.stream).buffered = [] →
          t.localStore = (localWrite s (x.quarter * 64 + x.spec.dstSel) x.spec.dst b).localStore) ∧
        (t.engine x.quarter).tags = (s.engine x.quarter).tags - 1 ∧
        (t.engine x.quarter).bytes = (s.engine x.quarter).bytes + x.spec.len ∧ t.nextPiece = s.nextPiece) ∧
    (∀ p b, n < 2 ^ 32 → x.spec.srcSpace = 1 → x.spec.dstSpace ≠ 2 → x.state = .issued → x.err = none → x.data = none →
      (s.stream x.quarter x.stream).hostPort = p → 1 ≤ x.spec.len → b.length ≤ x.spec.len →
      exec (.hostCompletion p n (.data b)) s = .next { s with pieces := Tab.adjust s.pieces n fun y => { y with data := some b } }) ∧
    (∀ p, n < 2 ^ 32 → x.spec.srcSpace = 1 → x.state = .issued → x.err = none → x.data = none →
      (s.stream x.quarter x.stream).hostPort = p →
      ∀ c e, (c = .completionTimeout p n ∧ e = .timeout) ∨ (c = .hostCompletion p n .completerAbort ∧ e = .completion) ∨
        (c = .hostCompletion p n .unsupported ∧ e = .completion) ∨ (c = .hostCompletion p n .poisoned ∧ e = .completion) →
        ∃ t, exec c s = .next t ∧ (Tab.get? t.pieces n).map (·.err) = some (some 6) ∧
          (t.port p).aer = (s.port p).aer ++ [e] ∧ (t.port p).tags = (s.port p).tags - x.portTags ∧
          t.port (otherPort p) = s.port (otherPort p) ∧ t = { s.modPort p fun _ => t.port p with pieces := t.pieces }))

/-- An atomic reads the word at its home slice, writes the operation's result, and in its fetching form returns the old word; the eight
operations compute as the table says, at 32 and 64 bits, FADD at 32 bits and CAS in the fetching form only (R262, R263). -/
def Obligations.AtomicsCompute : Prop :=
  ∀ (g : AtomicArgs) (cmp old : BitVec 64) (s : State), issuerUp s g.src = true → (∀ q, g.src ≠ .mover q) →
    (∀ n, g.src = .core n → coreMay s n g.addr (if g.wide then 8 else 4) .atomic = true) →
    reachable s g.addr = true → g.addr % (if g.wide then 8 else 4) = 0 → atomicOld s g.addr g.wide = some old →
    ∀ (answer : BitVec 64 → BitVec 32 → State),
      (∀ v64 v32, answer v64 v32 =
        (let u := cachePut s g.src g.addr (if g.wide then leBytes 8 v64.toNat else leBytes 4 v32.toNat) .keep
         if g.fetching then { u with cache := { u.cache with returned := leBytes (if g.wide then 8 else 4) old.toNat } } else u)) →
    let v := g.operand
    let old' := old.setWidth 32
    let v' := v.setWidth 32
    exec (.add g) s = .next (answer (old + v) (old' + v')) ∧
    (g.wide = false → exec (.fadd g) s = .next (answer 0 (fadd32 old' v'))) ∧
    exec (.minUnsigned g) s = .next (answer (if v.toNat < old.toNat then v else old) (if v'.toNat < old'.toNat then v' else old')) ∧
    exec (.maxUnsigned g) s = .next (answer (if old.toNat < v.toNat then v else old) (if old'.toNat < v'.toNat then v' else old')) ∧
    exec (.minSigned g) s = .next (answer (if v.toInt < old.toInt then v else old) (if v'.toInt < old'.toInt then v' else old')) ∧
    exec (.maxSigned g) s = .next (answer (if old.toInt < v.toInt then v else old) (if old'.toInt < v'.toInt then v' else old')) ∧
    exec (.or g) s = .next (answer (old ||| v) (old' ||| v')) ∧
    (g.fetching = true → exec (.cas g cmp) s = .next (answer (if old = cmp then v else old)
      (if old' = cmp.setWidth 32 then v' else old')))

/-- A cache read returns the bytes at its address, whatever the hint; a granule probe returns the granule's; a write of a held block puts
its bytes there and nowhere else (R255, R257, R261). After a FENCE no write-combining entry holds a write of the core; a drained entry
leaves the buffer (R267, R268, R273). Blocks 2 to 47 of a slice are granted, the lines that stood there leave the cache, and a released
block reads zero (R252, R253, R255). -/
def Obligations.CacheServes : Prop :=
  (∀ (src : Source) (addr : Nat) (s : State), issuerUp s src = true → reachable s addr = true →
    (∀ n hint b, 1 ≤ n → addr % 128 + n ≤ 128 → hint ≠ .reserved → (∀ c, src = .core c → coreMay s c addr n .read = true) →
      devRead s addr n = some b →
      ∃ t, exec (.cacheRead src addr n hint .clean) s = .next t ∧ t.cache.returned = b ∧ t = { s with cache := t.cache, hbm := t.hbm }) ∧
    (∀ q keep b, src = .mover q → isHbm s addr = true → addr % 2048 = 0 → devRead s addr 2048 = some b →
      ∃ t, exec (.granuleProbe q addr keep) s = .next t ∧ t.cache.returned = b ∧ t = { s with cache := t.cache, hbm := t.hbm }) ∧
    (∀ bytes hint, 1 ≤ bytes.length → addr % 128 + bytes.length ≤ 128 → hint ≠ .reserved →
      (∀ c, src = .core c → coreMay s c addr bytes.length .write = true) → isHeld addr = true →
      0x20000 ≤ (addr - heldBase) % 0x400000 → Mem.wf s.cache.t1 = true →
      blockHeld s ((addr - heldBase) / 0x400000) ((addr - heldBase) % 0x400000 / 0x10000) = true →
      ∃ t, exec (.cacheWrite src addr bytes hint) s = .next t ∧
        (∀ i (h : i < bytes.length), Mem.read t.cache.t1 (addr - heldBase + i) = bytes[i]) ∧
        (∀ a, a < addr - heldBase ∨ addr - heldBase + bytes.length ≤ a → Mem.read t.cache.t1 a = Mem.read s.cache.t1 a) ∧
        t = { s with cache := { s.cache with t1 := t.cache.t1 } })) ∧
  (∀ (s : State), live s = true →
    (∀ core, coreRuns s core = true →
      ∃ t, exec (.fence core) s = .next t ∧ (∀ slice, slice < 64 → ∀ w ∈ wcOf t slice, Source.core core ∉ w.srcs) ∧
        t = { s with cache := t.cache, hbm := t.hbm }) ∧
    (∀ slice line, (wcFind s slice line).isSome = true →
      ∃ t, exec (.wcEntryDrain slice line) s = .next t ∧ wcFind t slice line = none ∧
        (∀ k, k ≠ slice → wcOf t k = wcOf s k) ∧ t = { s with cache := t.cache, hbm := t.hbm })) ∧
  (∀ (slice block : Nat) (s : State), live s = true → slice < 64 →
    (∀ owner, 2 ≤ block → block ≤ 47 → Tab.has s.cache.held (slice * 64 + block) = false →
      s.cache.retired.contains (slice * 64 + block) = false → ownerUp s owner = true →
      ∃ t, exec (.blockGrant slice block owner) s = .next t ∧ Tab.get? t.cache.held (slice * 64 + block) = some owner ∧
        (∀ i w, i < 512 → w = block / 4 → (s.cache.lines.filter fun y => y.1 == lineKey slice (512 * (block % 4) + i) w).length ≤ 1 →
          Tab.get? t.cache.lines (lineKey slice (512 * (block % 4) + i) w) = none) ∧
        t = { s with cache := t.cache, hbm := t.hbm }) ∧
    (∀ owner, block < 64 → s.cache.held.filter (fun y => y.1 == slice * 64 + block) = [(slice * 64 + block, owner)] →
      ownerUses s owner = false →
      ∃ t, exec (.blockRelease slice block) s = .next t ∧ Tab.get? t.cache.held (slice * 64 + block) = none ∧
        (∀ o, o < 0x10000 → Mem.read t.cache.t1 (slice * 0x400000 + block * 0x10000 + o) = 0) ∧
        (∀ a, a < slice * 0x400000 + block * 0x10000 ∨ slice * 0x400000 + block * 0x10000 + 0x10000 ≤ a →
          Mem.read t.cache.t1 a = Mem.read s.cache.t1 a) ∧
        t = { s with cache := t.cache }))

/-- An alley transfer launches under its slot, whose ALLEY_DONE and ALLEY_ERR bits clear; it goes out at once where nothing is before it, and
waits at its quarter's port behind a boulevard piece of a lower level number and behind a transfer of priority 0 that waits there (R354,
R355). When it completes, ALLEY_DONE sets, and the data of a read stands in the local store (R349 to R352). -/
def Obligations.AlleysTransfer : Prop :=
  ∀ (core slot : Nat) (s : State), live s = true → coreRuns s core = true → slot < 64 →
    (∀ (hdr : BitVec 256), alleyOk hdr = true → Tab.has s.alleys (core * 64 + slot) = false →
      let x := readAlley hdr (corePort s core)
      ∀ c, (c = .alleyRead core slot hdr ∧ x.op = 2) ∨ (c = .alleyWrite core slot hdr ∧ x.op = 1) →
      (x.space = 2 → alleyMay s x = true → alleyTag s x = true → (∀ y ∈ s.alleys, y.1 / 4096 = core / 64 → y.2.waits = none) →
        readyStreams s (core / 64) = [] →
        ∃ t, exec c s = .next t ∧
          (∃ y, Tab.get? t.alleys (core * 64 + slot) = some y ∧ y.sent = true ∧ y.waits = none ∧ y.target = x.target ∧ y.len = x.len ∧
            (x.op = 1 → y.data = localRead s core x.ls x.len)) ∧
          (t.core core).alleyDone = (s.core core).alleyDone &&& ~~~ BitVec.twoPow 64 slot ∧
          (t.core core).alleyErr = (s.core core).alleyErr &&& ~~~ BitVec.twoPow 64 slot ∧
          t.net.nextTxn = s.net.nextTxn + 1 ∧
          (Tab.get? t.net.peers s.net.nextTxn).map (·.waiter) = some (.alley core slot) ∧
          t = { s with cores := t.cores, alleys := t.alleys, net := t.net, crossings := t.crossings, engines := t.engines
                       free := t.free, arrivals := t.arrivals }) ∧
      ((∃ m ∈ readyStreams s (core / 64), (s.stream (core / 64) m).prio < x.prio) ∨
          (∃ k y, (k, y) ∈ s.alleys ∧ k / 4096 = core / 64 ∧ y.waits.isSome = true ∧ y.prio = 0 ∧ x.prio ≠ 0 ∧
            k / 64 ≠ core ∧ (∀ z ∈ s.alleys, z.1 / 64 = k / 64 → z = (k, y))) →
        ∃ t, exec c s = .next t ∧ Tab.get? t.alleys (core * 64 + slot) = some { x with waits := some (s.arrivals + 1) } ∧
          (t.core core).alleyDone = (s.core core).alleyDone &&& ~~~ BitVec.twoPow 64 slot ∧
          t = { s with cores := t.cores, alleys := t.alleys, arrivals := t.arrivals })) ∧
    (∀ x data ok, s.alleys.filter (fun y => y.1 == core * 64 + slot) = [(core * 64 + slot, x)] → x.err = none → x.space = 0 → x.op = 2 →
      x.waits = none →
      ∃ t, exec (.alleyComplete core slot data ok) s = .next t ∧ Tab.get? t.alleys (core * 64 + slot) = none ∧
        (t.core core).alleyDone = (s.core core).alleyDone ||| BitVec.twoPow 64 slot ∧ (t.core core).alleyErr = (s.core core).alleyErr ∧
        t.localStore = (localWrite s core x.ls x.data).localStore)

/-- HBM returns what was written: a sector written whole reads back, from an address that is not lost and whose channel serves. A read whose
turn it is returns the sector (R286); one wrong symbol is corrected, written back and counted once against its channel (R290, R316), two and
more return no data (R289, R291). A read whose queue holds nothing else has its turn at once; while a level-0 read waits, none of another
level issues (R286). -/
def Obligations.HbmReadsWhatWasWritten : Prop :=
  ∀ (addr level c r off : Nat) (s : State), live s = true → s.hbm.isOpen = true → isHbm s addr = true → addr % 32 = 0 → level < 4 →
    mapAddr s addr = some (c, r, off) → granuleLost s (servedBy s c) r = false → rtLost s addr = false →
    Tab.wf (s.chan (servedBy s c)).flips = true →
    (∀ data, (∀ i, i < 32 → objByte s (addr + i) = none) →
      ∃ t, exec (.hbmWrite addr level data (BitVec.allOnes 32)) s = .next t ∧ hbmSector t addr = some data ∧ t = { s with hbm := t.hbm }) ∧
    ((arbOf (s.chan (servedBy s c)) (off / 32 % 2)).reads = [] → readIssues (Machine.arrive s addr level []) addr level = true) ∧
    (∀ wrong, level ≠ 0 → (∃ q ∈ (arbOf (s.chan (servedBy s c)) (off / 32 % 2)).reads, q.level = 0) →
      exec (.hbmRead addr level ⟨wrong, []⟩) s = .next s) ∧
    (∀ wrong, readIssues (Machine.arrive s addr level []) addr level = true →
      (arbOf (s.chan (servedBy s c)) (off / 32 % 2)).draining = false →
      (∀ d, hbmSector s addr = some d → wrongSymbols s (servedBy s c) r (off / 32) wrong = [] →
        ∃ t, exec (.hbmRead addr level ⟨wrong, []⟩) s = .next t ∧ t.hbm.returned = some d ∧
          (t.chan (servedBy s c)).eccCorrected = (s.chan (servedBy s c)).eccCorrected ∧
          (∀ k, k ≠ servedBy s c → t.chan k = s.chan k) ∧ t = { s with hbm := t.hbm }) ∧
      (∀ d lane, hbmSector s addr = some d → wrongSymbols s (servedBy s c) r (off / 32) wrong = [lane] →
        ∃ t, exec (.hbmRead addr level ⟨wrong, []⟩) s = .next t ∧ t.hbm.returned = some d ∧
          (t.chan (servedBy s c)).eccCorrected = min 0xFFFFFFFF ((s.chan (servedBy s c)).eccCorrected + 1) ∧
          Tab.get? (t.chan (servedBy s c)).flips (r * 64 + off / 32) = none ∧
          (∀ k, k ≠ servedBy s c → t.chan k = s.chan k) ∧ t = { s with hbm := t.hbm }) ∧
      (2 ≤ (wrongSymbols s (servedBy s c) r (off / 32) wrong).length →
        ∃ t, exec (.hbmRead addr level ⟨wrong, []⟩) s = .next t ∧ t.hbm.returned = none))

/-- Patrol counts a correctable error against its channel; a failing row whose data is intact takes the next spare row of its bank; a retired
page's entry names it and a free slot, with both granules moved and the lost ones marked; a change of the repair record is written to flash
(R295, R307, R308, R309, R311, R314). A channel that stops responding is LOST, its queued writes are gone, and the health page has a notice
(R306). The traffic generator takes START on SPARE, REPAIR and FAILED channels and is refused on others; a run that writes leaves its
pattern in its range, a run that checks records what it finds; a run stops and ends with DONE (R317, R318). -/
def Obligations.HbmIsRepaired : Prop :=
  (∀ (s : State), fwServes s = true →
    (∀ ch g sector lane, ch < 512 → g < 2 ^ 20 → sector < 64 → s.power.scrub = true →
      (s.chan ch).state = .active ∨ (s.chan ch).state = .spare ∨ (s.chan ch).state = .migSource →
      (∀ k, k < 64 → Tab.get? (s.chan ch).flips (g * 64 + k) = none) →
      ∃ t, exec (.patrolScrub ch g [(sector, [lane])]) s = .next t ∧
        (t.chan ch).eccCorrected = min 0xFFFFFFFF ((s.chan ch).eccCorrected + 1) ∧
        (∀ k, k ≠ ch → t.chan k = s.chan k) ∧ t = { s with hbm := t.hbm }) ∧
    (∀ ch bank row n, ch < 512 → bank < 128 → row < 16384 → (s.chan ch).state = .active → rowFails s ch (bank * 16384 + row) = true →
      rowIntact s ch bank row = true → nextSpare (s.chan ch) bank = some n → (s.chan ch).remaps.length < 64 →
      ∃ t, exec (.rowRemap ch bank row) s = .next t ∧ (bank, row, n) ∈ (t.chan ch).remaps ∧ n < 2 ∧
        (∀ b x k, (b, x) ≠ (bank, row) → ((b, x, k) ∈ (t.chan ch).remaps ↔ (b, x, k) ∈ (s.chan ch).remaps)) ∧
        t.hbm.recordDirty = true ∧ (∀ k, k ≠ ch → t.chan k = s.chan k) ∧
        t = { s with hbm := t.hbm, logs := t.logs, port0 := t.port0, port1 := t.port1 }) ∧
    (∀ page n k, s.hbm.isOpen = true → page * 4096 < retireBase s → rtFind s page = none → freeRt s = some n → freeSlot s = some k →
      ∀ lost : BitVec 2, lost ≠ 0 ∨ granuleStuck s (page * 4096) = true ∨ granuleStuck s (page * 4096 + 2048) = true →
      ∃ t, exec (.pageRetire page lost) s = .next t ∧
        (Tab.get? t.hbm.rt n).map (fun e => (e.valid, e.page, e.slot, e.lost, e.moved, e.releasing)) = some (true, page, k, lost, 3, false) ∧
        t.hbm.recordDirty = true ∧ (lost = 3 → ∀ m, m ≠ n → Tab.get? t.hbm.rt m = Tab.get? s.hbm.rt m)) ∧
    (s.hbm.recordDirty = true → s.flash.state ≠ .absent →
      ∃ t, exec .repairRecordWrite s = .next t ∧ t.hbm.recordDirty = false ∧ t.hbm.recordRt = s.hbm.rt ∧
        t.hbm.recordSpares = s.hbm.spares ∧
        (∀ c, Tab.get? t.hbm.record c = (Tab.get? s.hbm.channels c).map (·.remaps)) ∧
        (∀ c, Tab.get? t.hbm.recordLanes c = (Tab.get? s.hbm.channels c).map (·.spareLanes)) ∧
        t = { s with hbm := { s.hbm with
          recordDirty := false, record := t.hbm.record, recordRt := t.hbm.recordRt, recordFailed := t.hbm.recordFailed
          recordSpares := t.hbm.recordSpares, recordLanes := t.hbm.recordLanes } })) ∧
  (∀ (ch : Nat) (s : State), ch < 512 →
    (live s = true → (s.chan ch).state = .active → (s.chan ch).phase = .idle →
      ∃ t, exec (.channelLost ch) s = .next t ∧ (t.chan ch).state = .lost ∧ (t.chan ch).wq0 = [] ∧ (t.chan ch).wq1 = [] ∧
        t.logs.notice.getLsbD (lidHealth - 1) = true) ∧
    (∀ ctrl : Word, fwServes s = true → (s.chan ch).busy = false → ctrl.getLsbD 0 = true →
      ((s.chan ch).state = .spare ∨ (s.chan ch).state = .repair ∨ (s.chan ch).state = .failed →
        ∃ t, exec (.tgRunStart ch ⟨.normal, ctrl⟩) s = .next t ∧ (t.chan ch).busy = true ∧ (t.chan ch).chkErrors = 0 ∧
          (t.chan ch).opMode = ctrl.toNat / 65536 % 4 ∧ (t.chan ch).dataMode = ctrl.toNat / 2 ^ 20 % 16 ∧
          (∀ k, k ≠ ch → t.chan k = s.chan k) ∧ t = { s with hbm := { s.hbm with channels := t.hbm.channels } }) ∧
      ((s.chan ch).state = .active ∨ (s.chan ch).state = .migSource ∨ (s.chan ch).state = .migTarget →
        ∃ t, exec (.tgRunStart ch ⟨.normal, ctrl⟩) s = .next t ∧ (t.chan ch).busy = false ∧ (t.chan ch).refused = true ∧
          (∀ k, k ≠ ch → t.chan k = s.chan k) ∧ t = { s with hbm := { s.hbm with channels := t.hbm.channels } })) ∧
    ((s.chan ch).busy = true →
      (∀ ctrl : Word, ctrl.getLsbD 1 = true → ∀ k raw,
        ∃ t, exec (.tgStop ⟨ch, ctrl, k, raw⟩) s = .next t ∧ (t.chan ch).busy = false ∧ (t.chan ch).done = true ∧
          (∀ k, k ≠ ch → t.chan k = s.chan k) ∧
          t = { s with hbm := { s.hbm with channels := t.hbm.channels, cells := t.hbm.cells } }) ∧
      (∀ raw, (s.chan ch).opMode = 0 → (s.chan ch).phase ≠ .alias_ → (s.chan ch).wq0 = [] → (s.chan ch).wq1 = [] →
        (s.chan ch).start + (s.chan ch).length ≤ 2 ^ 20 → (s.chan ch).start < 2 ^ 20 →
        ∃ t, exec (.tgRunDone ch raw) s = .next t ∧ (t.chan ch).busy = false ∧ (t.chan ch).done = true ∧
          (∀ r off, (s.chan ch).start ≤ r → r < (s.chan ch).start + (s.chan ch).length → off < 2048 →
            chanByte t ch r off = byteOf (tgPattern (s.chan ch).dataMode (s.chan ch).seed
              (BitVec.ofNat 64 ((s.chan ch).userLo.toNat + (s.chan ch).userHi.toNat * 2 ^ 32)) (r * 64 + off / 32)) (off % 32))) ∧
      (∀ raw, (s.chan ch).opMode = 1 →
        ∃ t, exec (.tgRunDone ch raw) s = .next t ∧ (t.chan ch).busy = false ∧ (t.chan ch).done = true ∧
          (t.chan ch).chkErrors = min 0xFFFFFFFF ((s.chan ch).chkErrors + (tgErrors s ch (tgCount (s.chan ch) * 64) raw).length) ∧
          ((t.chan ch).fail = true ↔ (s.chan ch).fail = true ∨ tgErrors s ch (tgCount (s.chan ch) * 64) raw ≠ []) ∧
          (∀ k, k ≠ ch → t.chan k = s.chan k) ∧ t = { s with hbm := { s.hbm with channels := t.hbm.channels } })))

/-- A migration: X becomes MIG_SOURCE and its stack's spare MIG_TARGET; an abort before ALIAS leaves X ACTIVE, Y in REPAIR and ABORTED set;
when the eighth drain marker arrives Y is ACTIVE and X in REPAIR; X retrained, repaired and tested is its stack's spare with the spare lanes
of its training, and is FAILED where one of these fails (R294, R299, R302, R303). -/
def Obligations.MigrationSteps : Prop :=
  ∀ (ch : Nat) (s : State), fwServes s = true → ch < 512 →
    (∀ ctrl : Word, ctrl.getLsbD 0 = true → 10 ≤ ctrl.toNat / 256 % 128 → ctrl.toNat / 256 % 128 ≤ 50 → mustMigrate s ch = true →
      mayMigrate s ch (ctrl.toNat / 65536 % 512) = true → (s.chan ch).state = .active →
      ∃ t, exec (.migrationStart ch ctrl) s = .next t ∧ (t.chan ch).state = .migSource ∧ (t.chan ch).phase = .copy ∧
        (t.chan ch).migTarget = ctrl.toNat / 65536 % 512 ∧ (t.chan ch).share = ctrl.toNat / 256 % 128 ∧ (t.chan ch).watermark = 0 ∧
        (t.chan (ctrl.toNat / 65536 % 512)).state = .migTarget ∧ (t.chan (ctrl.toNat / 65536 % 512)).busy = false ∧
        (∀ k, k ≠ ch → k ≠ ctrl.toNat / 65536 % 512 → t.chan k = s.chan k) ∧
        t = { s with hbm := t.hbm, logs := t.logs, port0 := t.port0, port1 := t.port1, free := t.free }) ∧
    (∀ why, (s.chan ch).state = .migSource → (s.chan ch).phase = .copy → (s.chan ch).migTarget ≠ ch →
      ∃ t, exec (.migrationAbort ch why) s = .next t ∧ (t.chan ch).state = .active ∧ (t.chan ch).phase = .idle ∧
        (t.chan ch).migAborted = true ∧ (t.chan (s.chan ch).migTarget).state = .repair) ∧
    (∀ unit, unit < 8 → (s.chan ch).phase = .alias_ → (s.chan ch).migTarget ≠ ch → unit ∉ (s.chan ch).markers →
      ∃ t, exec (.drainMarker ch unit) s = .next t ∧
        ((s.chan ch).markers.length < 7 → (t.chan ch).markers = (s.chan ch).markers ++ [unit] ∧ (t.chan ch).phase = .alias_) ∧
        ((s.chan ch).markers.length = 7 → (∀ e ∈ s.hbm.rt, e.2.valid = false) → (s.chan (s.chan ch).migTarget).state ≠ .lost →
          (t.chan ch).state = .repair ∧ (t.chan ch).phase = .idle ∧ (t.chan ch).migDone = true ∧
          (t.chan (s.chan ch).migTarget).state = .active ∧ t.hbm.migrations = s.hbm.migrations + 1 ∧
          ch ∉ t.hbm.perm)) ∧
    (∀ lanes repaired raw, (s.chan ch).state = .repair → (s.chan ch).migCmd = none →
      ∃ t, exec (.migrationRepair ch ⟨lanes, repaired, raw⟩) s = .next t ∧
        (trains lanes = true → (t.chan ch).spareLanes = lanes.getD []) ∧
        (trains lanes = true ∧ repaired = true ∧ testPasses raw = true →
          (t.chan ch).state = .spare ∧ Tab.get? t.hbm.spares (ch / 32) = some ch ∧ (t.chan ch).remaps = []) ∧
        (trains lanes = false ∨ repaired = false ∨ testPasses raw = false →
          (t.chan ch).state = .failed ∧ t.hbm.spares = s.hbm.spares) ∧
        (∀ k, k ≠ ch → t.chan k = s.chan k))

/-- A copy loses nothing: when the copy of a channel reaches a granule, every byte below it reads from the target as the source holds it, given
that the bytes below WATERMARK did before and that the target's queued writes lie below it; every byte of the channel reads as before. Past
the last granule the controller is in ALIAS with WATERMARK at its end, and the channel reads from the target alone (R299, R300, R301). -/
def Obligations.MigrationKeepsEveryByte : Prop :=
  ∀ (ch upTo : Nat) (s : State), live s = true → ch < 512 → (s.chan ch).state = .migSource → (s.chan ch).phase = .copy →
    (s.chan ch).migTarget ≠ ch → (s.chan (s.chan ch).migTarget).phase = .idle → Mem.wf s.hbm.cells = true →
    (s.chan ch).watermark < upTo → upTo ≤ 2 ^ 20 →
    (s.chan ch).wq0.length ≤ 64 → (s.chan ch).wq1.length ≤ 64 →
    (∀ w ∈ (s.chan ch).wq0, w.granule < 2 ^ 20 ∧ w.sector < 64 ∧ w.sector % 2 = 0) →
    (∀ w ∈ (s.chan ch).wq1, w.granule < 2 ^ 20 ∧ w.sector < 64 ∧ w.sector % 2 = 1) →
    (∀ e ∈ (s.chan ch).flips, e.2.length < 2) →
    (∀ w ∈ (s.chan (s.chan ch).migTarget).wq0 ++ (s.chan (s.chan ch).migTarget).wq1, w.granule < (s.chan ch).watermark) →
    (∀ r off, r < (s.chan ch).watermark → off < 2048 → chanByte s (s.chan ch).migTarget r off = chanByte s ch r off) →
    ∃ t, exec (.migrationCopyDone ch ⟨upTo, []⟩) s = .next t ∧ (t.chan ch).watermark = upTo ∧
      (∀ r off, r < upTo → off < 2048 → chanByte t (s.chan ch).migTarget r off = chanByte s ch r off) ∧
      (∀ r off, r < 2 ^ 20 → off < 2048 → chanByte t ch r off = chanByte s ch r off) ∧
      (upTo = 2 ^ 20 → (t.chan ch).phase = .alias_ ∧ servedBy t ch = (s.chan ch).migTarget) ∧
      t = { s with hbm := t.hbm }

/-- A LUN serves its reads of levels 0 and 1 first: while one waits there no other read, program or erase of it ends (R436). Reads of a flash
page count against its block; a read that needed the retry table leaves the last entry as the block's hint, and two or
more retries, a count at the disturb limit or too many corrected bits schedule a refresh (R433, R439). An erase counts, and the block's
pages read zero from then on; a block whose program or erase fails is retired at once (R435, R439, R441). A page that was recovered is
written elsewhere; one that was not is LOST (R434). Refresh, garbage collection and wear levelling relocate the valid pages of their block
through the write buffer; patrol counts a read (R435, R439, R440, R441). A flash channel that stops retrains, and serves again or fails
(R442, R443). -/
def Obligations.FlashIsMaintained : Prop :=
  (∀ (page level tries l : Nat) (corrected : List Nat) (soft : Bool) (s : State), live s = true → s.flash.isOpen = true →
    page < s.flash.top / 16384 → s.flash.wbuf.contains (page / 4) = false → flashLoc s page = some l → l ≠ lostLoc → readable s page = true →
    level < 4 → corrected.length ≤ 4 → tries ≤ retriesAt s level → readTurn (queueFlash s page level) page level = true →
    ∃ t, exec (.flashRead page level tries corrected soft) s = .next t ∧
      (let b := blockKeyOf s (flashDie (page / 4)) l
       (flashBlock t b).reads = (flashBlock s b).reads + 1 ∧
       (1 ≤ tries → (flashBlock t b).retryHint = tries) ∧
       ((flashBlock t b).refreshDue = true ↔ (flashBlock s b).refreshDue = true ∨ s.flash.profile.disturbLimit ≤ (flashBlock s b).reads + 1 ∨
         2 ≤ tries ∨ ∃ n ∈ corrected, s.flash.profile.refreshBits < n) ∧
       (∀ k, k ≠ b → flashBlock t k = flashBlock s k)) ∧
      ((∀ y ∈ s.cmds, y.2.search.phase ≠ .reranking) →
        t = { s with flash := { s.flash with channels := t.flash.channels, blocks := t.flash.blocks, reads := t.flash.reads } })) ∧
  (∀ (page l : Nat) (s : State), flashLoc s page = some l → l ≠ lostLoc →
    lunReads s (lunKey (flashDie (page / 4)) l) ≠ [] →
    (∀ level tries corrected soft, 2 ≤ level → exec (.flashRead page level tries corrected soft) s = .next s) ∧
    (∀ tile loc pass, lunKey (flashDie tile) loc = lunKey (flashDie (page / 4)) l → exec (.flashProgram tile loc pass) s = .next s) ∧
    (∀ block pass, lunOf block = lunKey (flashDie (page / 4)) l → exec (.flashErase block pass) s = .next s)) ∧
  (∀ (page level : Nat) (s : State), s.flash.reads = [] → readTurn (queueFlash s page level) page level = true) ∧
  (∀ (s : State), fwServes s = true → s.flash.isOpen = true →
    (∀ block, (flashCh s (channelOf block)).state = .active → (flashBlock s block).bad = false → 0 < (flashBlock s block).next →
      validPages s block = [] → lunReads s (lunOf block) = [] →
      (∃ t, exec (.flashErase block true) s = .next t ∧
        ((flashBlock s block).retireAfter = false → flashBlock t block = { flashBlock s block with
          erases := (flashBlock s block).erases + 1, reads := 0, next := 0, refreshDue := false }) ∧
        (∀ x, x < max 1 s.flash.profile.pagesPerBlock * 16384 →
          Mem.read t.flash.pages (pageCell (dieOf block) (lunOf block % 2 ^ 32
            + block % 2 ^ 23 * max 1 s.flash.profile.pagesPerBlock) + x) = 0)) ∧
      (∃ t, exec (.flashErase block false) s = .next t ∧ (flashBlock t block).bad = true)) ∧
    (∀ page l, s.flash.recoverDue.contains page = true → flashLoc s page = some l → l ≠ lostLoc →
      (∃ t, exec (.pageRecovery page true) s = .next t ∧ page ∉ t.flash.recoverDue ∧ t.flash.wbuf.contains (page / 4) = true ∧
        (flashBlock t (blockKeyOf s (flashDie (page / 4)) l)).retireAfter = true) ∧
      (∃ t, exec (.pageRecovery page false) s = .next t ∧ page ∉ t.flash.recoverDue ∧
        t.flash.lostPages = min 0xFFFFFFFF (s.flash.lostPages + 1) ∧ t.logs.notice.getLsbD (lidFlash - 1) = true))) ∧
  (∀ (s : State), fwServes s = true → s.flash.isOpen = true →
    (∀ block, (flashBlock s block).refreshDue = true →
      ∃ t, exec (.flashRefresh block) s = .next t ∧ (∀ p ∈ validPages s block, t.flash.wbuf.contains (p / 4) = true) ∧
        (flashBlock t block).refreshDue = false ∧ t.flash.refreshes = min 0xFFFFFFFF (s.flash.refreshes + 1) ∧
        t = { s with flash := { s.flash with wbuf := t.flash.wbuf, blocks := t.flash.blocks, refreshes := t.flash.refreshes } }) ∧
    (∀ lun b, gcBlock s lun = some b → (flashCh s (channelOf lun)).state = .active →
      ∃ t, exec (.garbageCollection lun) s = .next t ∧ (∀ p ∈ validPages s b, t.flash.wbuf.contains (p / 4) = true) ∧
        (∀ k x, (k, x) ∈ s.flash.blocks → lunOf k = lunOf b → reclaimable s k x = true →
          (validPages s b).length ≤ (validPages s k).length) ∧
        t = { s with flash := { s.flash with wbuf := t.flash.wbuf } }) ∧
    (∀ die b, coldestBlock s die = some b → s.flash.profile.ratedCycles < 10 * eraseSpread s die →
      ∃ t, exec (.wearLevelling die) s = .next t ∧ (∀ p ∈ validPages s b, t.flash.wbuf.contains (p / 4) = true) ∧
        (∀ k x, (k, x) ∈ s.flash.blocks → dieOf k = die → x.bad = false → 0 < x.next →
          (flashBlock s b).erases ≤ (flashBlock s k).erases) ∧
        t = { s with flash := { s.flash with wbuf := t.flash.wbuf } }) ∧
    (∀ block retries corrected, (flashCh s (channelOf block)).state = .active → 0 < (flashBlock s block).next →
      retries ≤ s.flash.profile.retryEntries → corrected.length ≤ 4 → lunReads s (lunOf block) = [] →
      ∃ t, exec (.flashPatrol block retries corrected) s = .next t ∧ (flashBlock t block).reads = (flashBlock s block).reads + 1 ∧
        t = { s with flash := { s.flash with channels := t.flash.channels, blocks := t.flash.blocks } }) ∧
    (∀ ch, ch < 16 → (s.island (98 + ch / 4)).state = .run →
      ((flashCh s ch).state = .active →
        ∃ t, exec (.flashChannelRetrain ch none) s = .next t ∧ (flashCh t ch).state = .retraining ∧
          t.logs.notice.getLsbD (lidFlash - 1) = true ∧ t = { s with flash := t.flash, logs := t.logs, port0 := t.port0, port1 := t.port1 }) ∧
      (∀ rate, rate ≤ 3 → (flashCh s ch).state = .retraining →
        ∃ t, exec (.flashChannelRetrain ch (some rate)) s = .next t ∧ (flashCh t ch).state = .active ∧ (flashCh t ch).rate ≤ rate ∧
          t = { s with flash := t.flash, logs := t.logs, port0 := t.port0, port1 := t.port1 }) ∧
      ((flashCh s ch).state = .retraining →
        ∃ t, exec (.flashChannelRetrain ch none) s = .next t ∧ (flashCh t ch).state = .failed)))

/-- Programming a tile moves it from the write buffer to flash and loses nothing: every byte of the tile reads as before, its map entries
name the new place, and the buffer holds it no more (R427, R428, R435). -/
def Obligations.ProgrammingKeepsEveryByte : Prop :=
  ∀ (tile loc : Nat) (s : State), live s = true → s.flash.isOpen = true → s.flash.wbuf.contains tile = true →
    placeOk s (flashDie tile) loc = true → Mem.wf s.flash.pages = true → Tab.wf s.flash.wheld = true →
    lunReads s (lunKey (flashDie tile) loc) = [] → fwServes s = true ∨ s.flash.issued.contains tile = true →
    (∀ e ∈ s.tiers.map, e.2.tier = 3 → e.2.backed = true → e.2.backing = t4Loc tile → e.2.dirty = false) →
    (∀ x, x < 65536 → Tab.has s.flash.wheld (tile * 65536 + x) = true → t4ObjByte s (tile * 65536 + x) = none) →
    (∀ k, k < 4 → flashLoc s (4 * tile + k) ≠ some lostLoc) →
    (∀ k j, k < 4 → j < 4 → flashLoc s (4 * tile + k) ≠ some (loc + j)) →
    (∀ x, x < 65536 → Mem.read s.flash.pages (pageCell (flashDie tile) loc + x) = 0) →
    (∀ c ∈ s.colls, c.2.pendingImage = none) →
    ∃ t, exec (.flashProgram tile loc true) s = .next t ∧
      (∀ k, k < 4 → flashLoc t (4 * tile + k) = some (loc + k)) ∧
      (∀ x, x < 65536 → flashByte t (tile * 65536 + x) = flashByte s (tile * 65536 + x)) ∧
      t.flash.wbuf.contains tile = false ∧ (∀ u, u ≠ tile → t.flash.wbuf.contains u = s.flash.wbuf.contains u)

/-- A move that has not switched ends at its DEFER_LIMIT with OBJECT_BUSY, and one of class 0 or 1 that has not landed in time with
TIER_LATE; either leaves every tile where it was and its object free for other moves (R406, R407). The switch of a move, down or up, sets
the tile map entry of every tile it moves to the target tier at once, and the move completes with the number of tiles moved (R402, R405). -/
def Obligations.MovesEndOrSwitch : Prop :=
  (∀ (n : Nat) (x : Cmd) (s : State), live s = true → s.undecided n x → eOpcode x.entry = 8 ∨ eOpcode x.entry = 9 →
    (∀ c, s.coll? (eIndex x.entry) = some c → c.residency = .waking → c.wakeCmds.head? ≠ some n) →
    ∀ c st, (c = .deferLimitExpiry n ∧ st = .objectBusy ∧ eDeferLimit x.entry ≠ 0) ∨
      (c = .moveDeadline n ∧ st = .tierLate ∧ eClass x.entry ≤ 1 ∧ x.stage = .admitted ∧ x.work.tiles ≠ []) →
      ∃ t, exec c s = .next t ∧ t.decidedAs n st 0 0 ∧ t.tiers.map = s.tiers.map ∧
        (∀ y, t.coll? (eIndex x.entry) = some y → n ∉ y.evictions ∧ n ∉ y.promotions) ∧
        (∀ m, m ≠ n → t.cmd? m = s.cmd? m)) ∧
  (∀ (n i : Nat) (c : Collection) (x : Cmd) (s : State), live s = true → awake s = true → s.undecided n x → eOpcode x.entry = 8 →
    eIndex x.entry = i → s.coll? i = some c → wordFree c = true → x.work.target = 2 ∨ x.work.target = 3 ∨ x.work.target = 4 →
    (∀ ts, ts = x.work.tiles.filter (fun u => Tab.has s.tiers.map u) → n ∈ c.promotions → (∀ u ∈ ts, (s.tile u).lost = false) →
      (reserveTiles (freeMove s x) x.work.target ts).isSome = true →
      ∃ t, exec (.moveSwitch n) s = .next t ∧ t.decidedAs n .success ts.length 0 ∧ (∀ u ∈ ts, (t.tile u).tier = x.work.target) ∧
        (∀ u ∉ ts, t.tile u = s.tile u) ∧ (∀ y, t.coll? i = some y → n ∉ y.promotions)) ∧
    (∀ ts, ts = (objTiles c x.work.obj).filter (fun u => (s.tile u).tier != x.work.target) → evictionOf s c x.work.obj = some n →
      (if x.work.obj = .tokens then c.pinTokens.pins = 0 else c.pinVectors.pins = 0) →
      (c.residency ≠ .parking) → (∀ u ∈ ts, (s.tile u).lost = false) →
      (reserveTiles (freeMove s x) x.work.target ts).isSome = true →
      ∃ t, exec (.evictionSwitch i x.work.obj) s = .next t ∧ t.decidedAs n .success ts.length 0 ∧
        (∀ u ∈ ts, (t.tile u).tier = x.work.target) ∧ (∀ u ∉ ts, t.tile u = s.tile u) ∧
        (∀ y, t.coll? i = some y → n ∉ y.evictions)))

/-- The switch of a PARK leaves the collection PARKED_T3 or PARKED_T4 with EVICTED set, and completes with the published epoch as PARK_EPOCH
(R402, R408). The switch of a wake sets every tile of the INDEX to its place in T2 and RESIDENCY to RESIDENT, gives the waiting commands
their pin, and completes the WAKE commands (R410). -/
def Obligations.ParksAndWakes : Prop :=
  (∀ (n i : Nat) (c : Collection) (x : Cmd) (s : State), fwServes s = true → awake s = true → s.undecided n x → eOpcode x.entry = 9 →
    eWithData x.entry = false → eIndex x.entry = i → s.coll? i = some c → wordFree c = true → evictionOf s c x.work.obj = some n →
    c.residency = .parking → c.pinIndex.pins = 0 → parkCopied s i n c = true → anyLost s (objTiles c .index) = false →
    (x.work.target = 4 ∨ (x.work.target = 3 ∧ (reserveTiles (freeMove s x) 3 (objTiles c .index)).isSome = true)) →
    ∃ t y k, exec (.evictionSwitch i x.work.obj) s = .next t ∧ t.coll? i = some y ∧
      y.residency = (if x.work.target = 4 then .parkedT4 else .parkedT3) ∧ y.pinIndex = { evicted := true, pins := 0 } ∧
      y.stage = none ∧ n ∉ y.evictions ∧ y.published = c.published ∧
      t.decidedAs n .success (objTiles c .index).length 0 ∧ ((t.cmd? n).bind (·.completion)) = some k ∧ k.epoch = c.published) ∧
  (∀ (i : Nat) (c : Collection) (s : State), live s = true → awake s = true → s.coll? i = some c → c.residency = .waking →
    wordFree c = true → anyLost s (c.wakeTiles.map (·.1)) = false → (c.wakeTiles.map (·.1)).Nodup →
    (∀ m ∈ c.wakeCmds, ∃ x, s.undecided m x) →
    ∃ t y, exec (.wakeSwitch i) s = .next t ∧ t.coll? i = some y ∧ y.residency = .resident ∧ y.pinIndex.evicted = false ∧
      y.pinIndex.pins = (c.wakeCmds.filter fun m => (s.cmd? m).any fun x => eOpcode x.entry != 10).length ∧
      y.wakeCmds = [] ∧ y.wakeTiles = [] ∧
      (∀ u p, (u, p) ∈ c.wakeTiles → (t.tile u).tier = 2 ∧ (t.tile u).location = p) ∧
      (∀ u, u ∉ c.wakeTiles.map (·.1) → t.tile u = s.tile u) ∧
      (∀ m ∈ c.wakeCmds, ∀ x, s.cmd? m = some x →
        (eOpcode x.entry = 10 → t.decidedAs m .success c.wakeTiles.length 0) ∧
        (eOpcode x.entry ≠ 10 → (t.cmd? m) = some { x with waitsWake := false, pinIndex := true })))

/-- The T4 write of a tile puts its backing tile into the write buffer (R399). When the notice of a revocation expires, the lender's window
closes and its GEN advances, and the borrower's tiles in the lease take their T4 copies, those that were DIRTY with LOST set (R389, R414,
R415). -/
def Obligations.BackingsAndLeaseEnds : Prop :=
  (∀ (u : Nat) (e : TileEntry) (s : State), fwServes s = true → awake s = true → t4Writes s = true → Tab.get? s.tiers.map u = some e →
    s.tiers.backingQueue.contains u = true → e.backed = true → e.tier = 2 ∨ (e.tier = 3 ∧ e.dirty = true) →
    ∃ t, exec (.t4BackingWrite u) s = .next t ∧ t4TileOf e.backing ∈ t.flash.wbuf ∧ u ∉ t.tiers.backingQueue ∧
      t = { s with
        flash := { s.flash with wbuf := t.flash.wbuf, tilesWritten := s.flash.tilesWritten + 1, map := t.flash.map }
        tiers := { s.tiers with backingQueue := t.tiers.backingQueue } }) ∧
  (∀ (k : Nat) (l : LentLease) (s : State), fwServes s = true → k < 65536 → s.tiers.lent.filter (fun y => y.1 == k) = [(k, l)] →
    l.revoking = true →
    ∃ t, exec (.revokeGraceExpiry k) s = .next t ∧ Tab.get? t.tiers.lent k = none ∧
      (∀ w, Tab.get? s.protect.inbound l.window = some w →
        Tab.get? t.protect.inbound l.window = some { w with valid := false, gen := w.gen + 1 }) ∧
      t = { s with tiers := { s.tiers with lent := t.tiers.lent }, protect := { s.protect with
        inbound := t.protect.inbound, peerDtc := t.protect.peerDtc, t2Free := t.protect.t2Free } }) ∧
  (∀ (k : Nat) (l : BorrowedLease) (s : State), live s = true → s.security.activating = none →
    s.tiers.borrowed.filter (fun y => y.1 == k) = [(k, l)] → l.revoked = true → s.runs = [] → Tab.wf s.tiers.map = true →
    (∀ c ∈ s.colls, c.2.residency ≠ .waking) →
    (∀ e ∈ s.tiers.map, e.2.tier = 3 → e.2.location / 2 ^ 23 = l.window → e.2.kind ≠ .index) →
    ∃ t, exec (.revokeGraceExpiry (65536 + k)) s = .next t ∧ Tab.get? t.tiers.borrowed k = none ∧
      (∀ u e, Tab.get? s.tiers.map u = some e → e.tier = 3 → e.location / 2 ^ 23 = l.window →
        t.tile u = { e with
          tier := 4, location := e.backing, backed := false, backing := 0, dirty := false, lost := e.lost || e.dirty }) ∧
      (∀ u e, Tab.get? s.tiers.map u = some e → e.tier ≠ 3 ∨ e.location / 2 ^ 23 ≠ l.window → t.tile u = e))

/-- A data-path command is fetched from its queue's head: SQ_HEAD and OUTSTANDING advance, and the command is held under the next number.
Its queue's turn is counted. One that passes every check waits for its admission, and no register changes, while the reads of its input in host
memory go out or ask for their translation (R367, R489); a reader or a FLUSH closes the commit groups of R170; an ABORT
that finds no command completes with SUCCESS and DW2 = 0 (R486, R487, R498, R499, R512). -/
def Obligations.DataCommandsAreFetched : Prop :=
  ∀ (p : PortId) (q : Nat) (e : BitVec 1024) (inp : List Byte) (s : State) (c : Instr) (op : Nat),
    (c, op) ∈ [(.search p q e inp, 1), (.insert p q e inp, 2), (.upsert p q e inp, 3), (.delete p q e inp, 4), (.fetch p q e inp, 5),
      (.flush p q e inp, 6), (.abort p q e inp, 7), (.tierMove p q e inp, 8), (.park p q e inp, 9), (.wake p q e inp, 10)] →
    s.fetches p q e inp op → s.entryPasses p q e inp →
    ∃ t, exec c s = .next t ∧ t.nextCmd = s.nextCmd + 1 ∧
      (op ∈ [1, 5, 6] → ∀ m, m ≠ s.nextCmd →
        (t.cmd? m).map (fun y => { y with word := .running }) = (s.cmd? m).map fun y => { y with word := .running }) ∧
      (op ∈ [2, 3, 4, 8, 9, 10] → ∀ m, m ≠ s.nextCmd → t.cmd? m = s.cmd? m) ∧
      t.pair p q = { s.pair p q with
        sqHead := ((s.pair p q).sqHead + 1) % max 1 (s.pair p q).sqEntries, outstanding := (s.pair p q).outstanding + 1, replays := 0 } ∧
      (∀ r, r ≠ q → t.pair p r = s.pair p r) ∧
      (op ≠ 7 → ∃ x, t.cmd? s.nextCmd = some x ∧ x.origin = .sq p q ∧ x.entry = e ∧ x.stage = .waiting ∧ x.completion = none ∧
        (op ∉ [1, 5] → x.word = (if op = 6 ∨ op = 10 then .committing else .running))) ∧
      (op = 7 → (∀ m y, (m, y) ∈ s.cmds → ¬ (y.origin = .sq p (eTargetQp e) ∧ eTag y.entry = eTargetTag e)) →
        t.decidedAs s.nextCmd .success 0 0 ∧ t.colls = s.colls) ∧
      (op ∈ [2, 3, 4, 8, 9, 10] → t.colls = s.colls) ∧
      (op ≠ 7 → t = { s.modPort p fun x => { x with
        pairs := (t.port p).pairs, turnUrgent := (t.port p).turnUrgent, turnOther := (t.port p).turnOther, xlt := (t.port p).xlt
        sent := (t.port p).sent, waiting := (t.port p).waiting } with
        cmds := t.cmds, nextCmd := t.nextCmd, colls := t.colls, bucket := t.bucket
        power := { s.power with entryCmd := s.power.entryCmd || s.power.entering.isSome } })

/-- A command ends at its first failing check, before any effect (R498): its completion has that check's status; a status of 0x0100 or more
freezes its queue with the status and the tag, raises QUEUE_FROZEN and ERROR_LOG, and is logged (R481, R482, R508). -/
def Obligations.FailingChecksEndCommands : Prop :=
  ∀ (p : PortId) (q : Nat) (e : BitVec 1024) (inp : List Byte) (s : State) (c : Instr) (op : Nat) (f : Failure),
    (c, op) ∈ [(.search p q e inp, 1), (.insert p q e inp, 2), (.upsert p q e inp, 3), (.delete p q e inp, 4), (.fetch p q e inp, 5),
      (.flush p q e inp, 6), (.abort p q e inp, 7), (.tierMove p q e inp, 8), (.park p q e inp, 9), (.wake p q e inp, 10)] →
    s.fetches p q e inp op → checksA s p q e = some f → s.security.activating = none → s.logs.event = none →
    ∃ t k, exec c s = .next t ∧ (t.cmd? s.nextCmd).bind (·.completion) = some k ∧ k.status = f.status ∧
      (t.cmd? s.nextCmd).map (·.stage) = some .decided ∧ (∀ m, m ≠ s.nextCmd → t.cmd? m = s.cmd? m) ∧
      f.status ∈ [.invalidOpcode, .invalidField, .duplicateTag] ∧
      (t.pair p q).state = .frozen ∧ (t.pair p q).freezeStatus.toNat = statusCode f.status ∧ (t.pair p q).freezeTag.toNat = eTag e ∧
      (t.port p).eventStatus.getLsbD evQueueFrozen = true ∧ (t.port p).eventStatus.getLsbD evErrorLog = true ∧
      k.logged = true ∧ (∃ z, t.logs.entries.getLast? = some z ∧ z.status = some f.status ∧ z.queue = q ∧ z.tag.toNat = eTag e ∧ z.location = f.off) ∧
      t.port (otherPort p) = s.port (otherPort p)

/-- An ABORT wins a RUNNING move: the move ends with ABORTED and nothing moved; a command past its commit point is left alone. Either way
the ABORT waits for that command's entry (R406, R512, R513). -/
def Obligations.AbortsEndRunningCommands : Prop :=
  ∀ (p : PortId) (q m : Nat) (x : Cmd) (e : BitVec 1024) (inp : List Byte) (s : State), s.fetches p q e inp 7 → s.entryPasses p q e inp →
    s.cmds.filter (fun y => y.2.origin == .sq p (eTargetQp e) && eTag y.2.entry == eTargetTag e) = [(m, x)] → m ≠ s.nextCmd →
    s.cmd? m = some x →
    ∃ t a, exec (.abort p q e inp) s = .next t ∧ t.cmd? s.nextCmd = some a ∧ a.stage = .admitted ∧ a.work.victim = some m ∧
      a.completion = none ∧
      (x.word ≠ .running → t.cmd? m = some x) ∧
      (x.word = .running → eOpcode x.entry = 8 → x.detached = false → x.completion = none → x.stage ≠ .decided →
        t.decidedAs m .aborted 0 0 ∧ t.tiers.map = s.tiers.map)

/-- COMPLETION_POST writes the entry at CQ_TAIL with the queue's phase and counts it; the phase inverts where the tail wraps. A full CQ
holds the entry and sets CQ_FULL (R469, R482, R495). A place whose translation is missing is asked for, and nothing is posted until then
(R371, R373). Where the entry cannot be written the SQ freezes with HOST_FAULT and the write is held; where the result cannot, the completion
that is posted carries HOST_FAULT with the snapshot or the commit kept (R482, R496, R673). An SQ fetch that fails freezes the SQ with
HOST_FAULT or HOST_ABORT and TAG 0xFFFF; SQ_HEAD stays and no other queue is affected (R482, R508). -/
def Obligations.CompletionsArePosted : Prop :=
  (∀ (n : Nat) (p : PortId) (q : Nat) (x : Cmd) (k : Completion) (s : State), live s = true → s.cmds.filter (fun y => y.1 == n) = [(n, x)] →
    x.origin = .sq p q → x.completion = some k → mayPost s x p q = true → accessWaits s p (commandNum n) = false →
    (cqIsFull (s.pair p q) = true → exec (.completionPost n p (.cq q)) s = .next (s.modPair p q fun y => { y with cqFull := true })) ∧
    (cqIsFull (s.pair p q) = false →
      (accessPasses s p (commandNum n) = true → x.result = [] → x.resultErr = false →
        (x.cqeErr = false →
          ∃ t, exec (.completionPost n p (.cq q)) s = .next t ∧ t.cmd? n = none ∧
            ((s.pair p q).state ≠ .deleting → (t.pair p q).cqTail = ((s.pair p q).cqTail + 1) % max 1 (s.pair p q).cqEntries ∧
              (t.pair p q).phase =
                (if ((s.pair p q).cqTail + 1) % max 1 (s.pair p q).cqEntries = 0 then !(s.pair p q).phase else (s.pair p q).phase) ∧
              (t.pair p q).outstanding = (s.pair p q).outstanding - 1 ∧ (t.pair p q).completed = (s.pair p q).completed + 1) ∧
            ((s.port p).busMaster = true → (s.port p).d3hot = false →
              .cqe q (s.pair p q).cqTail (cqeOf k (s.pair p q).sqHead q (eTag x.entry) (s.pair p q).phase) ∈ (t.port p).sent)) ∧
        (x.cqeErr = true → (s.pair p q).state = .active →
          ∃ t, exec (.completionPost n p (.cq q)) s = .next t ∧ (t.pair p q).state = .frozen ∧
            (t.pair p q).freezeStatus.toNat = statusCode .hostFault ∧ (t.pair p q).heldWrite = some n ∧
            (t.cmd? n).bind (·.completion) = some k ∧ (t.pair p q).cqTail = (s.pair p q).cqTail)) ∧
      (accessPasses s p (commandNum n) = true → x.resultErr = true → x.cqeErr = false →
        ∃ t k', exec (.completionPost n p (.cq q)) s = .next t ∧ t.cmd? n = none ∧ k'.status = .hostFault ∧
          (isReader (eOpcode x.entry) = true ∨ isMutation (eOpcode x.entry) = true → k'.epoch = k.epoch) ∧
          ((s.port p).busMaster = true → (s.port p).d3hot = false →
            .cqe q (s.pair p q).cqTail (cqeOf k' (s.pair p q).sqHead q (eTag x.entry) (s.pair p q).phase) ∈ (t.port p).sent)) ∧
      (∀ a len w, accessOf s p (commandNum n) = some (a, len, w) → (xltRange s p a len w).2 = .miss →
        ∃ t, exec (.completionPost n p (.cq q)) s = .next t ∧ t.cmds = s.cmds ∧ (∀ r, t.pair p r = s.pair p r) ∧
          accessWaits t p (commandNum n) = true))) ∧
  (∀ (p : PortId) (q : Nat) (fault : Bool) (s : State), canFetch s p q = true → q < 2048 → (s.pair p q).fetchErr = fault →
    ∃ t, exec (.sqFetchFailure p q fault) s = .next t ∧
      t.pair p q = { s.pair p q with
        state := .frozen, freezeTag := 0xFFFF, fetchErr := false
        freezeStatus := BitVec.ofNat 16 (statusCode (if fault then .hostFault else .hostAbort)) } ∧
      (∀ r, r ≠ q → t.pair p r = s.pair p r) ∧ (t.port p).eventStatus.getLsbD evQueueFrozen = true ∧
      (t.port p).eventStatus.getLsbD evErrorLog = true ∧
      (t.port p).aer = (if fault then (s.port p).aer else (s.port p).aer ++ [.completion]) ∧
      t = { s.modPort p fun _ => t.port p with logs := t.logs })

/-- COMMAND_ADMIT of a mutation on a resident collection takes its pins, an INSERT or UPSERT reserves its staging space, and the command
joins an open commit group (R168, R170, R401, R499). A command of a parked collection starts or joins a wake where the collection is a
SESSION, joins a wake in progress, and otherwise ends with COLLECTION_PARKED (R409). A reader waits for the mutations placed before it in
its queue (R175). A FETCH on its own epoch home takes the published epoch as its snapshot (R89, R178). The firmware starts a waiting admin
command and answers it (R522, R535). -/
def Obligations.CommandsAreAdmitted : Prop :=
  (∀ (n i : Nat) (x : Cmd) (c : Collection) (s : State), live s = true → s.cmd? n = some x → admissible s n x = true →
    admitTurn s n x = true → eIndex x.entry = i → s.coll? i = some c → inT2 c = true → forwardTo s c x = none → x.pinIndex = false →
    (eOpcode x.entry = 4 ∨ ((eOpcode x.entry = 2 ∨ eOpcode x.entry = 3) ∧ eInputFormat x.entry ≠ 3)) →
    ∃ t y z g, exec (.commandAdmit n) s = .next t ∧ t.coll? i = some y ∧ t.cmd? n = some z ∧
      y.pinIndex.pins = c.pinIndex.pins + 1 ∧ z.pinIndex = true ∧ z.stage = .admitted ∧ z.completion = x.completion ∧
      (eOpcode x.entry = 4 → z.work.items.map (·.vid) = (readIds x.input (eCount x.entry)).map (fun w => w.setWidth 48) ∧
        y.stagingUsed = c.stagingUsed) ∧
      (eOpcode x.entry ≠ 4 → y.stagingUsed = c.stagingUsed + mutationNeed s i c x.entry x.input ∧
        z.work.staged = mutationNeed s i c x.entry x.input) ∧
      z.work.group = some g ∧ (∃ w, Tab.get? y.groups g = some w ∧ n ∈ w.members) ∧ y.published = c.published ∧
      t = { s with colls := t.colls, cmds := t.cmds }) ∧
  (∀ (n i : Nat) (x : Cmd) (c : Collection) (s : State), live s = true → s.undecided n x → admitTurn s n x = true →
    eIndex x.entry = i → s.coll? i = some c → dataOpcode (eOpcode x.entry) = true → eOpcode x.entry ≤ 5 →
    (isReader (eOpcode x.entry) = true → mutationsDone s n x = false → exec (.commandAdmit n) s = .next s) ∧
    (admissible s n x = true → forwardTo s c x = none → inT2 c = false →
      (c.residency = .waking →
        exec (.commandAdmit n) s = .next ((s.modColl i fun y => { y with wakeCmds := y.wakeCmds ++ [n] }).modCmd n fun y =>
          { y with waitsWake := true })) ∧
      (c.residency ≠ .waking → c.attrs.session = false →
        ∃ t, exec (.commandAdmit n) s = .next t ∧
          t.decidedAs n .collectionParked 0 (if isMutation (eOpcode x.entry) then 0xFFFFFFFF else 0) ∧ t.tiers = s.tiers) ∧
      (c.residency ≠ .waking → c.attrs.session = true → c.evictions = [] →
        (∃ ps u p v, takeT2 (objTiles c .index).length s = some (ps, u) ∧ takePages u (stagePages c.attrs) 16 = some (p, v)) →
        ∃ t y, exec (.commandAdmit n) s = .next t ∧ t.coll? i = some y ∧ y.residency = .waking ∧ y.wakeCmds = [n] ∧
          y.wakeTiles.map (·.1) = objTiles c .index ∧ t.cmd? n = some { x with waitsWake := true }))) ∧
  (∀ (n : Nat) (x : Cmd) (s : State), live s = true → s.cmd? n = some x →
    (∀ c, s.coll? (eIndex x.entry) = some c → eOpcode x.entry = 5 → eFetchSnapValid x.entry = false → admissible s n x = true →
      admitTurn s n x = true → inT2 c = true → forwardTo s c x = none → isHome s c = true → (∃ p q, x.origin = .sq p q) → x.detached = false →
      ∃ t z, exec (.commandAdmit n) s = .next t ∧ t.cmd? n = some z ∧ z.snapshot = some c.published ∧ z.pinIndex = true ∧ z.pinVectors = true ∧
        z.stage = .decided) ∧
    (eOpcode x.entry = 0x82 → eFlags x.entry % 4 = 0 → x.stage = .waiting → mayStartAdmin s n x = true → s.undecided n x →
      ∃ t v, exec (.commandAdmit n) s = .next t ∧ v = currentFeature s (issuer x) (eFid x.entry) (eSel x.entry) ∧
        t.decidedAs n .success (v % 2 ^ 32) (v / 2 ^ 32) ∧
        t = { s with cmds := t.cmds, batches := t.batches, runs := t.runs }))

/-- A commit window that ends closes its group: no ABORT ends its members from then on, and nothing else changes (R171, R177, R512). A
commit of one INSERT assigns its IDs, publishes the next epoch and decides the command with it; a DELETE makes a commit only where an ID it
names has a current version; before the last epoch every member ends with EPOCH_EXHAUSTED (R63, R84, R163, R172, R186). -/
def Obligations.GroupsCommit : Prop :=
  (∀ (i g : Nat) (c : Collection) (x : Group) (s : State), live s = true → s.coll? i = some c → Tab.get? c.groups g = some x →
    x.closed = false → x.members ≠ [] →
    ∃ t y, exec (.commitWindowExpiry i g) s = .next t ∧ t.coll? i = some y ∧ Tab.get? y.groups g = some { x with closed := true } ∧
      y = { c with groups := y.groups } ∧
      (∀ n z, s.cmd? n = some z → n ∈ x.members → t.cmd? n = some { z with word := if z.word = .running then .committing else z.word }) ∧
      (∀ n, n ∉ x.members → t.cmd? n = s.cmd? n) ∧ t = { s with colls := t.colls, cmds := t.cmds }) ∧
  (∀ (i g n : Nat) (c : Collection) (x : Cmd) (s : State), live s = true → awake s = true → s.coll? i = some c → commitReady s i g = true →
    isHome s c = true → c.newAttrs = none → Tab.get? c.groups g = some { members := [n], closed := true } → s.undecided n x →
    (c.published + 1 ≠ lastEpoch → eOpcode x.entry = 2 → c.attrs.hostIds = false → c.nextLocal + x.work.items.length ≤ 2 ^ 34 →
      (eOutLen x.entry = 0 ∨ 8 * x.work.items.length ≤ eOutLen x.entry) →
      ∃ t y k, exec (.commit i g) s = .next t ∧ t.coll? i = some y ∧ y.published = c.published + 1 ∧
        y.nextLocal = c.nextLocal + x.work.items.length ∧ t.decidedAs n .success x.work.items.length 0xFFFFFFFF ∧
        (t.cmd? n).bind (·.completion) = some k ∧ k.epoch = c.published + 1) ∧
    (c.published + 1 ≠ lastEpoch → eOpcode x.entry = 4 →
      ∃ t y k, exec (.commit i g) s = .next t ∧ t.coll? i = some y ∧ y.nextLocal = c.nextLocal ∧
        y.published = (if (x.work.items.filter fun z => (current c z.vid).isSome) = [] then c.published else c.published + 1) ∧
        t.decidedAs n .success (x.work.items.filter fun z => (current c z.vid).isSome).length 0xFFFFFFFF ∧
        (t.cmd? n).bind (·.completion) = some k ∧ k.epoch = y.published) ∧
    (c.published + 1 = lastEpoch → isMutation (eOpcode x.entry) = true →
      ∃ t y, exec (.commit i g) s = .next t ∧ t.coll? i = some y ∧ y.published = c.published ∧ y.idMap = c.idMap ∧
        t.decidedAs n .epochExhausted 0 0xFFFFFFFF))

/-- The two ceilings: CEILING goes to 2^32 above the published epoch, at most the last epoch, and the ID ceiling to 2^20 above the LOCAL
counter, at most 2^34 (R186, R674). Appends, compactions and image writes publish no epoch (R169, R184, R188, R189): an append and a
compaction add a directory version, a compaction lowers the list's number of segments and touches no other list, and an image write puts
every tile of the image into the write buffer. -/
def Obligations.IndexIsMaintained : Prop :=
  (∀ (i : Nat) (c : Collection) (s : State), fwServes s = true → t4Writes s = true → s.coll? i = some c →
    (isHome s c = true → c.ceiling ≤ c.published + 2 ^ 31 → c.ceiling < 2 ^ 64 - 1 →
      exec (.ceilingRaise i) s = .next { s with colls := Tab.adjust s.colls i fun y => { y with
        ceiling := min (2 ^ 64 - 1) (y.published + 2 ^ 32), durableCeiling := min (2 ^ 64 - 1) (y.published + 2 ^ 32) } }) ∧
    (c.attrs.hostIds = false → c.idCeiling ≤ c.nextLocal + 2 ^ 19 → c.idCeiling < 2 ^ 34 →
      exec (.idCeilingRaise i) s = .next { s with colls := Tab.adjust s.colls i fun y => { y with
        idCeiling := min (2 ^ 34) (y.nextLocal + 2 ^ 20) } })) ∧
  (∀ (i l : Nat) (c : Collection) (s : State), fwServes s = true → awake s = true → s.coll? i = some c → c.restoring = false →
    (inT2 c = true → toAppend c l ≠ [] → (appendList s i l).isSome = true →
      ∃ t y, exec (.stagedAppend i l) s = .next t ∧ t.coll? i = some y ∧ (latestDir y).number = (latestDir c).number + 1 ∧
        y.published = c.published ∧ y.attrs = c.attrs ∧ y.groups = c.groups ∧ (∀ j, j ≠ i → t.coll? j = s.coll? j) ∧ t.cmds = s.cmds) ∧
    (∀ ps, compactReady s i l = true → isHome s c = true → ps = byEpoch (keptRecs c (retainFloor s i c) (sealedSegs c l)) →
      (placeRuns (packRuns (slotCount c.attrs) ps.length ps) s i l (latestDir c).cbGen true).2.length =
        (packRuns (slotCount c.attrs) ps.length ps).length →
      ∃ t y, exec (.compaction i l) s = .next t ∧ t.coll? i = some y ∧ (latestDir y).number = (latestDir c).number + 1 ∧
        (listSegs (latestDir y) l).length < (listSegs (latestDir c) l).length ∧
        (∀ m, m ≠ l → listSegs (latestDir y) m = listSegs (latestDir c) m) ∧ y.published = c.published ∧ y.attrs = c.attrs ∧
        (∀ j, j ≠ i → t.coll? j = s.coll? j) ∧ t.cmds = s.cmds) ∧
    (inT2 c = true → t4Writes s = true → c.pendingImage = none → c.image = none → imageUnreadable s c = false →
      (durableWaiters s i ≠ [] ∨ parkersOf s i ≠ []) → (startImage s i (wholeDue s i c)).isSome = true →
      ∃ t y g, exec (.imageWrite i) s = .next t ∧ t.coll? i = some y ∧ y = { c with pendingImage := some g } ∧ g.epoch = c.published ∧
        g.recs = durRecs c ∧ g.attrs = c.attrs ∧ (∀ u ∈ g.tiles ++ g.mirrors, u ∈ t.flash.wbuf) ∧ t.cmds = s.cmds))

/-- A cutover publishes the next epoch with the new codebook, centroids and LIST_COUNT in force, and completes the maintenance command with
that epoch (R193). One whose epoch would be the last ends its command with EPOCH_EXHAUSTED and publishes nothing (R82). -/
def Obligations.CutoversInstall : Prop :=
  ∀ (i : Nat) (c : Collection) (m : Maint) (x : Cmd) (s : State), live s = true → awake s = true → s.coll? i = some c →
    c.maint = some m → cutoverReady s i = true → isHome s c = true → s.undecided m.cmd x → isMutation (eOpcode x.entry) = false →
    (c.published + 1 ≠ lastEpoch → (cutoverAt s i (c.published + 1)).isSome = true →
      ∃ t y k, exec (.cutover i) s = .next t ∧ t.coll? i = some y ∧ y.published = c.published + 1 ∧ y.codebook = m.codebook ∧
        y.centroids = m.centroids ∧ y.cbGen = m.gen ∧ y.attrs.listCount = m.listCount ∧ y.maint = none ∧
        (latestDir y).cbGen = m.gen ∧ (latestDir y).listCount = m.listCount ∧ (latestDir y).fromEpoch = c.published + 1 ∧
        t.decidedAs m.cmd .success 0 0 ∧ (t.cmd? m.cmd).bind (·.completion) = some k ∧ k.epoch = c.published + 1) ∧
    (c.published + 1 = lastEpoch →
      ∃ t y, exec (.cutover i) s = .next t ∧ t.coll? i = some y ∧ y.published = c.published ∧ y.codebook = c.codebook ∧
        y.centroids = c.centroids ∧ y.attrs = c.attrs ∧ y.dirs = c.dirs ∧ y.maint = none ∧ t.decidedAs m.cmd .epochExhausted 0 0)

/-- A coarse pass gives a waiting query its die's part of the probe order: lists of the die's stripe, at most P' of them; with the last
die's part the scan begins (R98 to R101). The pass reads at the lowest class of its queries (R101). A batch that launches keeps its members and the
most urgent of their classes, deals its tiles to the cores it is given, one each, and those cores serve it alone with the grants it was given
(R113, R114, R116, R117, R242, R365); each member's table is there, and lies in consecutive slots of the cores' table banks (R106, R243, R244). -/
def Obligations.CoarsePassesAndBatches : Prop :=
  (∀ (die i n : Nat) (c : Collection) (x : Cmd) (s : State), live s = true → awake s = true → die < 8 → s.coll? i = some c →
    passQueries s die i = [(n, x)] → s.cmd? n = some x → eIndex x.entry = i →
    ((Tab.set x.search.partials die (stripeOrder s c x die)).length < 8 →
      ∃ t z o, exec (.coarsePass die i) s = .next t ∧ t.cmd? n = some z ∧ Tab.get? z.search.partials die = some o ∧
        o.length ≤ probeKeep x.entry x.search.listCount ∧ (∀ y ∈ o, y.2 % 8 = die ∧ y.2 < x.search.listCount) ∧
        z.search.phase = x.search.phase ∧ Tab.getD t.coarseLevels die 0 = eClass x.entry ∧
        t = { s with cmds := t.cmds, coarseLevels := t.coarseLevels }) ∧
    (8 ≤ (Tab.set x.search.partials die (stripeOrder s c x die)).length →
      ∃ t z, exec (.coarsePass die i) s = .next t ∧ t.cmd? n = some z ∧ z.search.phase = .scanning ∧ z.search.partials = [] ∧
        z.search.order.length ≤ probeKeep x.entry x.search.listCount ∧ z.search.flights = x.search.flights ∧
        t = { s with cmds := t.cmds, batches := t.batches, nextBatch := t.nextBatch, coarseLevels := t.coarseLevels })) ∧
  (∀ (k : Nat) (cores grants : List Nat) (b : Batch) (c : Collection) (s : State), live s = true → awake s = true → okGrants grants = true →
    Tab.get? s.batches k = some b → s.coll? b.coll = some c → b.launched = false → b.workers = [] → b.members ≠ [] →
    coresFor s b cores = true → (cores = [] ∨ batchTurn s k b = true) → batchTiles c (dirNum c b.dir) b.list ≠ [] →
    ∀ cmd, cmd = .batchHoldExpiry k cores grants ∨ (cmd = .batchLaunch k cores grants ∧ batchFull s b = true) →
      ∃ t d, exec cmd s = .next t ∧ Tab.get? t.batches k = some d ∧ d.launched = true ∧ d.members = b.members ∧ d.list = b.list ∧
        d.level = batchClass s b ∧ d.undealt = (batchTiles c (dirNum c b.dir) b.list).drop cores.length ∧
        (∀ (j n : Nat) (w : TileWork), cores[j]? = some n → (batchTiles c (dirNum c b.dir) b.list)[j]? = some w →
          Tab.get? d.workers n = some { tile := w } ∧
          t.core n = { s.core n with batch := some k, grants := grants, bank := bankOf c.attrs b, preds := predsOf s b }) ∧
        (∀ p n i, b.members[p]? = some n → i < tableSlots c.attrs → Tab.get? (bankOf c.attrs b) (p * tableSlots c.attrs + i) = some n) ∧
        (∀ n, n ∉ cores → t.core n = s.core n) ∧
        (∀ n z, s.cmd? n = some z → ∃ y, t.cmd? n = some y ∧ y = { z with search := { z.search with tables := y.search.tables } } ∧
          (n ∉ b.members → y = z) ∧ (n ∈ b.members → Tab.has y.search.tables (tableKey c.attrs b.list) = true)) ∧
        t = { s with batches := t.batches, cores := t.cores, cmds := t.cmds })

/-- A core that has scored a tile takes the batch's next one; after the last it sends its runs to its core-pair square and serves nothing
(R117, R142, R242). A member's run holds at most K_eff candidates of the tile's records that pass its filter and its snapshot (R121, R140,
R142). A batch program that faults ends every search of the batch with CORE_FAULT and frees the core, which is to be checked (R246). -/
def Obligations.CoresScoreTiles : Prop :=
  ∀ (core k : Nat) (b : Batch) (w : Worker) (c : Collection) (s : State), live s = true → awake s = true → core < 4096 →
    (s.core core).batch = some k → s.batches.filter (fun y => y.1 == k) = [(k, b)] → b.workers.filter (fun y => y.1 == core) = [(core, w)] →
    s.coll? b.coll = some c → workLost s w.tile = none →
    (∀ y rest, b.undealt = y :: rest →
      ∃ t d z, exec (.tileScored ⟨core, none⟩) s = .next t ∧ Tab.get? t.batches k = some d ∧ d.undealt = rest ∧ Tab.get? d.workers core = some z ∧
        z.tile = y ∧ t = { s with batches := t.batches }) ∧
    (∀ n x, b.undealt = [] → b.members = [n] → w.bufs = [] → s.cmd? n = some x →
      ∃ t z run, exec (.tileScored ⟨core, none⟩) s = .next t ∧ t.cmd? n = some z ∧ t.arrivals = s.arrivals + 1 ∧
        z.search.flights = x.search.flights ++ [{ square := .pair (core / 2), input := core % 2, run := run, arrived := s.arrivals + 1 }] ∧
        run.length ≤ kEff x.entry ∧ run.Pairwise (fun y z => sortKey y ≤ sortKey z) ∧
        (∀ y ∈ run, ∃ r ∈ tileRecords c b.list w.tile, y.vid = r.vid ∧ y.loc = r.loc ∧ filterPass x.search.terms r.attr = true ∧
          sees (x.snapshot.getD 0) r.ins r.del = true) ∧
        (t.core core).batch = none) ∧
    ((s.core core).run = none → b.members ≠ [] → (∀ n ∈ b.members, ∃ x, s.undecided n x ∧ eOpcode x.entry = 1) →
      ∃ t, exec (.tileScored ⟨core, some .program⟩) s = .next t ∧ Tab.get? t.batches k = none ∧ (t.core core).faulted = true ∧
        (t.core core).batch = none ∧ (∀ n ∈ b.members, t.decidedAs n .coreFault 0 0))

/-- Selection is exact: of the records that a core offers for a member, all with different sort keys, the select buffer's selection is the
K_eff with the smallest sort keys, ascending (R133, R139 to R142). -/
def Obligations.SelectionIsExact : Prop :=
  ∀ (n : Nat) (l : List Cand), 1 ≤ n → (l.map sortKey).Nodup →
    (selectN n (l.foldl (offer n) {}).entries).Pairwise (fun x y => sortKey x < sortKey y) ∧
    (selectN n (l.foldl (offer n) {}).entries).length = min n l.length ∧
    (∀ x ∈ selectN n (l.foldl (offer n) {}).entries, x ∈ l) ∧
    (∀ x ∈ l, x ∈ selectN n (l.foldl (offer n) {}).entries ∨
      ((selectN n (l.foldl (offer n) {}).entries).length = n ∧
        ∀ y ∈ selectN n (l.foldl (offer n) {}).entries, sortKey y < sortKey x))

/-- A square merges what it has of a run, at most 64 entries before it may turn to another query: its running result stays ascending with no ID
twice and at most K_eff entries, and it loses no candidate but to K_eff nearer ones or a nearer copy of the same ID; what is left of the run
stays at the input unless none of it can enter (R143 to R146, R148). It leaves a query alone while one of a more urgent class has input there, or
one of its class whose input came first (R148). -/
def Obligations.SquaresKeepTheNearest : Prop :=
  ∀ (n : Nat) (q : SquareId) (input : Nat) (x : Cmd) (f : Flight) (rest : List Flight) (s : State), live s = true → awake s = true →
    q.ok = true → scanningCmd s n = some x → takeFlight q input x.search.flights = some (f, rest) → inputTurn s x q input = true →
    (squareTurn s n x q = true →
      (squareNode x q).running.Pairwise (fun y z => sortKey y < sortKey z) → ((squareNode x q).running.map (·.vid)).Nodup →
      (squareNode x q).running.length ≤ kEff x.entry → f.run.Pairwise (fun y z => sortKey y ≤ sortKey z) →
      ∃ t z r, exec (.squareRun n q ⟨input, false⟩) s = .next t ∧ t.cmd? n = some z ∧ (squareNode z q).running = r ∧
        r.Pairwise (fun y z => sortKey y < sortKey z) ∧ (r.map (·.vid)).Nodup ∧ r.length ≤ kEff x.entry ∧
        (∀ y ∈ r, y ∈ (squareNode x q).running ++ f.run.take 64) ∧
        (∀ y ∈ (squareNode x q).running ++ f.run.take 64,
          (∃ z ∈ r, z.vid = y.vid ∧ sortKey z ≤ sortKey y) ∨ (r.length = kEff x.entry ∧ ∀ z ∈ r, sortKey z < sortKey y)) ∧
        ((64 < f.run.length ∧ z.search.flights = { f with run := f.run.drop 64 } :: rest) ∨
          (z.search.flights = rest ∧ ∀ y ∈ f.run.drop 64, r.length = kEff x.entry ∧ ∀ z ∈ r, sortKey z < sortKey y)) ∧
        (∀ u, squareNum u ≠ squareNum q → squareNode z u = squareNode x u) ∧ t = { s with cmds := t.cmds }) ∧
    (∀ m y a b, m ≠ n → scanningCmd s m = some y → firstArrival s x q = some a → firstArrival s y q = some b →
      eClass y.entry < eClass x.entry ∨ (eClass y.entry = eClass x.entry ∧ b < a) →
      exec (.squareRun n q ⟨input, false⟩) s = .next s)

/-- END on every input of a square sends its running result to the next square, and at the device square ends the round: a search without
re-rank and widening is decided with as many results as it found (R144, R150, R153, R154). A full-vector read that misses its bound ends the
searches that need it with TIER_LATE (R227). -/
def Obligations.SearchesEnd : Prop :=
  (∀ (n : Nat) (q : SquareId) (input : Nat) (x : Cmd) (s : State), live s = true → awake s = true → q.ok = true → s.noneUnloads →
    scanningCmd s n = some x → (squareInputs s x q).contains input = true → (squareNode x q).ended.contains input = false →
    endDue s x q input = true →
    ((squareInputs s x q).all (((squareNode x q).ended ++ [input]).contains ·) = false →
      ∃ t z, exec (.squareEnd n q input) s = .next t ∧ t.cmd? n = some z ∧ squareNode z q = { squareNode x q with
        ended := (squareNode x q).ended ++ [input], done := false } ∧ z.search.flights = x.search.flights ∧ t = { s with cmds := t.cmds }) ∧
    (∀ u j, (squareInputs s x q).all (((squareNode x q).ended ++ [input]).contains ·) = true → squareNext q = some (u, j) →
      (squareNode x q).running ≠ [] →
      ∃ t z, exec (.squareEnd n q input) s = .next t ∧ t.cmd? n = some z ∧ (squareNode z q).done = true ∧
        z.search.flights = x.search.flights ++ [{ square := u, input := j, run := (squareNode x q).running, arrived := s.arrivals + 1 }] ∧
        t = { s with cmds := t.cmds, arrivals := s.arrivals + 1 }) ∧
    ((squareInputs s x q).all (((squareNode x q).ended ++ [input]).contains ·) = true → q = .device → s.undecided n x →
      (s.coll? (eIndex x.entry)).isSome = true → eOpcode x.entry = 1 → eRerank x.entry = 0 → eWidenLimit x.entry = 0 →
      24 * eK x.entry ≤ eOutLen x.entry → (squareNode x q).running.length ≤ eK x.entry →
      ∃ t, exec (.squareEnd n q input) s = .next t ∧ t.decidedAs n
        (if (squareNode x q).running.length < eK x.entry then .shortResult else .success) (squareNode x q).running.length
        (x.search.round * 2 ^ 27 + max x.search.scanned.length x.search.shardLists) ∧
        ((t.cmd? n).map (·.result.length)) = some (24 * eK x.entry))) ∧
  (∀ (u : Nat) (e : TileEntry) (s : State), live s = true → Tab.get? s.tiers.map u = some e → e.kind = .vectors →
    rerankReaders s e.owner .vectors u ≠ [] → (∀ n ∈ rerankReaders s e.owner .vectors u, ∃ x, s.undecided n x) →
    ∃ t, exec (.tileBoundExpiry u) s = .next t ∧ (∀ n ∈ rerankReaders s e.owner .vectors u, t.decidedAs n .tierLate 0 0) ∧
      (∀ n, n ∉ rerankReaders s e.owner .vectors u → t.cmd? n = s.cmd? n) ∧ t.tiers = s.tiers)

/-- A run that launches takes every core of the quarters it is given, its pool and activation blocks, and, where it is not sliced, begins at
once (R215, R216, R217). A run issues its references in order, works on its tiles in order and only on those that have landed, and goes from
step to step when every tile of the step is worked (R211, R212, R235): a tile that lands fills its pool slot (R206), a read of T4 waits at the
LUNs at the run's class (R216, R436), a LAYER step leaves in the local stores what its units compute, an element of a matrix product as R197 to
R200 say, and a PEER_REDUCE step writes the sums of the partial tiles (R203, R235). -/
def Obligations.RunsLaunchAndStep : Prop :=
  (∀ (k : Nat) (qs grants : List Nat) (r : Run) (s : State), live s = true → awake s = true → okGrants grants = true →
    Tab.get? s.runs k = some r → r.launched = false → r.seqs ≠ [] → r.slice = none → (s.sched r.sched).header.sliced = false →
    runTurn s k r = true → canReserve s (s.sched r.sched).header qs = true →
    ∀ c, c = .runHoldExpiry k qs grants ∨ (c = .runLaunch k qs grants ∧ runDue s r = true) →
      ∃ t z, exec c s = .next t ∧ Tab.get? t.runs k = some z ∧ z.launched = true ∧ z.begun = true ∧ z.start = s.time ∧ z.quarters = qs ∧
        z.seqs = r.seqs ∧ z.step = r.step ∧
        (∀ q ∈ qs, ∀ j, j < 64 → t.core (q * 64 + j) = { s.core (q * 64 + j) with run := some k, grants := grants, program :=
          ((stepOf s r).map fun p => ((s.sched r.sched).image.drop p.programOffset).take p.programBytes).getD (s.core (q * 64 + j)).program }) ∧
        (∀ n, n / 64 ∉ qs → (s.core n).run ≠ some k → t.core n = s.core n) ∧
        (∀ q ∈ qs, ∀ n, idleStream s q = some n →
          t.stream q n = { s.stream q n with state := .armed, owner := .scheduler, prio := runClass s r } ∧ (q, n) ∈ z.streams) ∧
        (∀ b ∈ freeBlocks s (runBlocks (s.sched r.sched).header), Tab.get? t.cache.held (b.1 * 64 + b.2) = some (.run k)) ∧
        t = { s with runs := t.runs, cores := t.cores, streams := t.streams, cache := t.cache, hbm := t.hbm }) ∧
  (∀ (k : Nat) (r : Run) (s : State), live s = true → awake s = true → Tab.get? s.runs k = some r → r.begun = true →
    (∀ f, mayIssue s r = true → (s.sched r.sched).refs[r.issued]? = some f →
      ∃ t, exec (.tileIssue k) s = .next t ∧ t.runs = Tab.adjust s.runs k (fun x => { x with issued := x.issued + 1 }) ∧
        (∀ p ∈ refPages s (s.sched r.sched) f, ⟨p, runClass s r⟩ ∈ t.flash.reads) ∧
        (∀ q ∈ t.flash.reads, q ∈ s.flash.reads ∨ (q.page ∈ refPages s (s.sched r.sched) f ∧ q.level = runClass s r)) ∧
        t = { s with runs := t.runs, flash := { s.flash with reads := t.flash.reads } }) ∧
    (∀ ref f bytes b, ref < r.issued → r.landed.contains ref = false → (s.sched r.sched).refs[ref]? = some f → refRead s r ref = true →
      landedBytes s (s.sched r.sched) f bytes = some b →
      ∃ t z, exec (.tileLanded k ⟨ref, bytes⟩) s = .next t ∧ Tab.get? t.runs k = some z ∧ z.landed = r.landed ++ [ref] ∧
        (∀ o, Mem.wf s.cache.t1 = true → runBlock s k f.slot = some o → (∀ i, i < 65536 → Mem.read t.cache.t1 (o + i) = b.getD i 0) ∧
          ∀ a, a < o ∨ o + 65536 ≤ a → Mem.read t.cache.t1 a = Mem.read s.cache.t1 a) ∧
        r.worked ≤ z.worked ∧ (∀ j, r.worked ≤ j → j < z.worked → j ∈ z.landed) ∧
        (∀ p, stepOf s r = some p → r.worked ≤ p.tileFirst + p.tileCount → z.worked < p.tileFirst + p.tileCount → z.worked ∉ z.landed) ∧
        z.step = r.step ∧ t = { s with runs := t.runs, cache := { s.cache with t1 := t.cache.t1 } }) ∧
    (∀ p c, stepOf s r = some p → p.tileFirst + p.tileCount ≤ r.worked →
      (∃ ops, c = .layer ⟨k, ops, none⟩ ∧ p.op = 2 ∧ ops.all (opFits s k (s.sched r.sched).header p) = true) ∨ (c = .peerReduce k ∧ p.op = 3) ∨
        (c = .tokenise k ∧ p.op = 1 ∧ (s.sched r.sched).header.kind = 2 ∧ (r.seqs ≠ [] ∨ r.slice ≠ none) ∧
          ∀ x ∈ r.seqs, utf8Ok (seqText s x) = true) →
      ∃ t z, exec c s = .next t ∧ Tab.get? t.runs k = some z ∧ z.step = r.step + 1 ∧ z.landed = r.landed ∧ z.issued = r.issued ∧
        (∀ ops, c = .layer ⟨k, ops, none⟩ → t.localStore = (ops.foldl performOp s).localStore) ∧ (p.op ≠ 2 → t.localStore = s.localStore) ∧
        (p.op = 3 → t.cache = (reduceTiles s k r p).cache) ∧ (p.op ≠ 3 → t.cache = s.cache) ∧
        (∀ n, (s.core n).run ≠ some k → t.core n = s.core n) ∧
        (∀ m, (s.sched r.sched).steps[r.step + 1]? = some m → m.op ≠ 3 → t.net = s.net) ∧
        t = { s with runs := t.runs, cores := t.cores, localStore := t.localStore, cache := t.cache, net := t.net }) ∧
    (∀ p core fa fb n a b sa sb out, stepOf s r = some p → p.tileFirst + p.tileCount ≤ r.worked → p.op = 2 → Mem.wf s.localStore = true → out + 4 ≤ 0x30000 →
      opFits s k (s.sched r.sched).header p (.dot core fa fb n a b sa sb out) = true →
      ∃ t, exec (.layer ⟨k, [.dot core fa fb n a b sa sb out], none⟩) s = .next t ∧
        localRead t core out 4 = leBytes 4 (matElement fa fb n (localRead s core a (rowBytes fa n)) (localRead s core b (rowBytes fb n))
          (if isMx fa then localRead s core sa (ceilDiv n 32) else []) (if isMx fa then localRead s core sb (ceilDiv n 32) else [])).toNat))

/-- OUTPUT ends a run: an embedded item is prepared, and the command joins a commit group with its last one; a NaN or an infinity ends the
command with NUMERIC_FAULT (R164, R165, R220). A tile that misses its DEADLINE, a step that exceeds its cycles or a tile that cannot be read
ends the run and its commands with TIER_LATE, SCHEDULE_FAULT or DATA_ERROR (R213, R219), and a program that faults with SCHEDULE_FAULT (R246). -/
def Obligations.RunsEnd : Prop :=
  ∀ (k n i : Nat) (r : Run) (x : Cmd) (s : State), live s = true → awake s = true → s.runs.filter (fun y => y.1 == k) = [(k, r)] →
    r.begun = true → r.seqs = [⟨n, i⟩] → r.slice = none → (s.sched r.sched).header.sliced = false → s.undecided n x →
    s.noneUnloads →
    (∀ p c, stepOf s r = some p → p.op = 4 → p.tileFirst + p.tileCount ≤ r.worked → (s.sched r.sched).header.kind = 1 →
      s.coll? (eIndex x.entry) = some c → isMutation (eOpcode x.entry) = true →
      ((embedOut s (s.sched r.sched) (seqText s ⟨n, i⟩)).any notFinite32 = false → i < x.work.items.length →
        (prepareVec c.attrs (embedOut s (s.sched r.sched) (seqText s ⟨n, i⟩))).isSome = true →
        ∃ t z y full w, exec (.output k) s = .next t ∧ Tab.get? t.runs k = none ∧ t.cmd? n = some z ∧
          z.work.embedded = x.work.embedded + 1 ∧ z.work.items[i]? = some y ∧
          prepareVec c.attrs (embedOut s (s.sched r.sched) (seqText s ⟨n, i⟩)) = some (full, w) ∧ y.full = full ∧ y.working = w ∧
          (x.work.embedded + 1 = x.work.items.length → z.work.group ≠ none)) ∧
      ((embedOut s (s.sched r.sched) (seqText s ⟨n, i⟩)).any notFinite32 = true →
        ∃ t, exec (.output k) s = .next t ∧ Tab.get? t.runs k = none ∧ t.decidedAs n .numericFault 0 0xFFFFFFFF)) ∧
    (∀ c st, (∃ ref, c = .deadlineMiss k ref ∧ ref < (s.sched r.sched).refs.length ∧ r.landed.contains ref = false ∧ st = .tierLate) ∨
        (∃ core, c = .stepCycleOverrun k core ∧ core < 4096 ∧ (s.core core).run = some k ∧ st = .scheduleFault) ∨
        (∃ ref f bytes, c = .tileLanded k ⟨ref, bytes⟩ ∧ ref < r.issued ∧ r.landed.contains ref = false ∧ refRead s r ref = true ∧
          (s.sched r.sched).refs[ref]? = some f ∧ landedBytes s (s.sched r.sched) f bytes = none ∧ st = .dataError) ∨
        (∃ p core, c = .layer ⟨k, [], some (core, .program)⟩ ∧ stepOf s r = some p ∧ p.op = 2 ∧ core < 4096 ∧ (s.core core).run = some k ∧
          (s.core core).batch = none ∧ st = .scheduleFault) →
      ∃ t, exec c s = .next t ∧ Tab.get? t.runs k = none ∧
        t.decidedAs n st 0 (if isMutation (eOpcode x.entry) then 0xFFFFFFFF else 0) ∧ (∀ j, (t.core j).run ≠ some k))

/-- IDENTIFY, GET_LOG_PAGE, DIAG_READ and ATTEST answer with the bytes they report, clipped to the buffer; a log page's read by a port
clears its NOTICE bit; a report needs an identity and the PRODUCTION lifecycle (R506, R526, R531, R533, R541, R600 to R602). GET_FEATURES
answers a feature's value in DW2 and DW3; SET_FEATURES puts the new value in force, or sets it to be applied by the next device reset, and
keeps it where SAVE asks (R534, R535). -/
def Obligations.ReportsAndFeatures : Prop :=
  (∀ (src : AdminSrc) (s u : State) (x : Cmd), u = adminStarted s src → u.cmd? s.nextCmd = some x →
    (∀ c b v, (s.accepts 0x80 src ∧ c = .identify src ∧ eCns x.entry = 0 ∧ b = identifyDevice u ∧ v = u) ∨
      (s.accepts 0x81 src ∧ c = .getLogPage src ∧ b = (logPage u (issuer x) (eLid x.entry)).drop (eOffset x.entry) ∧ b ≠ [] ∧
        v = clearNotice u x (eLid x.entry)) ∨
      (s.accepts 0xAA src ∧ c = .diagRead src ∧ diagOpen u (ef x.entry 0x28 4) (ef x.entry 0x2C 2) = true ∧
        b = (diagRead (ef x.entry 0x2C 2) u (ef x.entry 0x28 4)).2 ∧ v = (diagRead (ef x.entry 0x2C 2) u (ef x.entry 0x28 4)).1) ∨
      (s.accepts 0x8C src ∧ c = .attest src ∧ ef x.entry 0x28 1 = 0 ∧ u.security.lifecycle = .production ∧
        (∃ uds, u.security.uds = some uds ∧ b = report u x uds) ∧ v = u) →
      ∃ t st, exec c s = .next t ∧ t.answers s src st 0 0 ∧
        st = (if outBufLen (outBuf u x) < b.length then .truncated else .success) ∧
        (∀ p e inp, src = .queue p e inp → (t.cmd? s.nextCmd).map (·.result) = some (b.take (eOutLen e)) ∧
          t = { v with cmds := t.cmds, batches := t.batches, runs := t.runs })) ∧
    (s.accepts 0x8C src → (u.security.uds = none ∨ u.security.lifecycle ≠ .production) →
      ∃ t, exec (.attest src) s = .next t ∧ t.answers s src .attestUnavailable 0 0 ∧ t.security = s.security)) ∧
  (∀ (src : AdminSrc) (s u : State) (x : Cmd), u = adminStarted s src → u.cmd? s.nextCmd = some x →
    (s.accepts 0x82 src →
      ∃ t v, exec (.getFeatures src) s = .next t ∧ t.answers s src .success (v % 2 ^ 32) (v / 2 ^ 32) ∧ t = u.answering t ∧
        (eFlags x.entry % 4 = 0 → v = currentFeature u (issuer x) (eFid x.entry) (eSel x.entry)) ∧
        (eFlags x.entry % 4 = 1 → v = defaultFeature (eFid x.entry) (eSel x.entry)) ∧
        (eFlags x.entry % 4 = 2 → v = savedFeature u (issuer x) (eFid x.entry) (eSel x.entry)) ∧
        (eFlags x.entry % 4 = 3 → v = pendingFeature u (issuer x) (eFid x.entry) (eSel x.entry))) ∧
    (s.accepts 0x83 src → bitOf (eFlags x.entry) 0 = false ∨ u.flash.state ≠ .absent →
      (eFid x.entry = 2 ∨ eFid x.entry = 3 ∨ eFid x.entry = 4 ∨ eFid x.entry = 5 ∨ eFid x.entry = 7 →
        ∃ t, exec (.setFeatures src) s = .next t ∧ t.answers s src .success (eValue x.entry % 2 ^ 32) (eValue x.entry / 2 ^ 32) ∧
          currentFeature t (issuer x) (eFid x.entry) (eSel x.entry) = eValue x.entry ∧
          (bitOf (eFlags x.entry) 0 = true →
            Tab.get? t.features.saved (savedKey (issuer x) (eFid x.entry) (eSel x.entry)) = some (eValue x.entry)) ∧
          (bitOf (eFlags x.entry) 0 = false → t.features = u.features)) ∧
      (eFid x.entry = 8 ∨ eFid x.entry = 9 →
        ∃ t v, exec (.setFeatures src) s = .next t ∧ v = currentFeature u (issuer x) (eFid x.entry) (eSel x.entry) ∧
          t.answers s src .success (v % 2 ^ 32) (v / 2 ^ 32) ∧ currentFeature t (issuer x) (eFid x.entry) (eSel x.entry) = v ∧
          pendingFeature t (issuer x) (eFid x.entry) (eSel x.entry) = eValue x.entry)))

/-- QUEUE_CREATE makes an ACTIVE pair of the sizes given; QUEUE_DELETE makes it absent once no command of it is outstanding, and DELETING
until then; QUEUE_RESUME makes a frozen pair ACTIVE and discards the entries not fetched where it is asked to (R483, R484, R510). -/
def Obligations.QueuesAreAdministered : Prop :=
  ∀ (src : AdminSrc) (s u : State) (x : Cmd) (p : PortId), u = adminStarted s src → u.cmd? s.nextCmd = some x → p = issuer x →
    (s.accepts 0x84 src →
      ((u.pair p (eQp x.entry)).state = .absent →
        ∃ t, exec (.queueCreate src) s = .next t ∧ t.answers s src .success 0 0 ∧
          t.pair p (eQp x.entry) =
            { state := .active, sqBase := ef x.entry 0x28 8, cqBase := ef x.entry 0x30 8, sqEntries := ef x.entry 0x38 2 + 1
              cqEntries := ef x.entry 0x3A 2 + 1, vector := ef x.entry 0x3E 2 % 2048, ien := bitOf (ef x.entry 0x42 1) 1
              urgent := bitOf (ef x.entry 0x42 1) 0, aggCount := ef x.entry 0x40 1, aggTime := ef x.entry 0x41 1 } ∧
          (∀ r, r ≠ eQp x.entry → t.pair p r = u.pair p r) ∧ t.port (otherPort p) = (u.answering t).port (otherPort p)) ∧
      ((u.pair p (eQp x.entry)).state ≠ .absent →
        ∃ t, exec (.queueCreate src) s = .next t ∧ t.answers s src .invalidField 0 0 ∧
          ∀ r, r ≠ 0 → t.pair p r = u.pair p r)) ∧
    (s.accepts 0x85 src → Tab.wf (u.port p).pairs = true → (u.pair p (eQp x.entry)).state ≠ .absent →
      (u.pair p (eQp x.entry)).deleteCmds = [] →
      ((u.pair p (eQp x.entry)).outstanding = 0 →
        ∃ t, exec (.queueDelete src) s = .next t ∧ t.answers s src .success 0 0 ∧ (t.pair p (eQp x.entry)).state = .absent ∧
          ∀ r, r ≠ eQp x.entry → t.pair p r = u.pair p r) ∧
      ((u.pair p (eQp x.entry)).outstanding ≠ 0 →
        exec (.queueDelete src) s = .next (u.modPair p (eQp x.entry) fun y => { y with
          state := .deleting, heldWrite := none, deleteCmds := [s.nextCmd] }))) ∧
    (s.accepts 0x86 src → (u.pair p (eQp x.entry)).state = .frozen →
      ∃ t, exec (.queueResume src) s = .next t ∧
        t.answers s src .success 1 (if eMode x.entry = 1 then
          ringDist (max 1 (u.pair p (eQp x.entry)).sqEntries) (u.pair p (eQp x.entry)).sqHead (u.pair p (eQp x.entry)).sqTail else 0) ∧
        t.pair p (eQp x.entry) = { u.pair p (eQp x.entry) with
          state := .active, heldWrite := none, fetchErr := false
          sqHead := if eMode x.entry = 1 then (u.pair p (eQp x.entry)).sqTail else (u.pair p (eQp x.entry)).sqHead } ∧
        ∀ r, r ≠ eQp x.entry → t.pair p r = u.pair p r)

/-- FW_DOWNLOAD fills the port's buffer in sequence; FW_COMMIT writes a valid image to the slot that does not run, and refuses one that
fails R588; FW_ACTIVATE of a slot with an image begins an activation, and one in progress refuses a second (R543 to R547). -/
def Obligations.FirmwareIsUpdated : Prop :=
  ∀ (src : AdminSrc) (s u : State) (x : Cmd) (p : PortId), u = adminStarted s src → u.cmd? s.nextCmd = some x → p = issuer x →
    (s.accepts 0x88 src →
      (ef x.entry 0x28 8 = 0 → ∃ t, exec (.fwDownload src) s = .next t ∧ t.answers s src .success 0 0 ∧ (t.port p).download = x.input ∧
        t.security = u.security) ∧
      (ef x.entry 0x28 8 ≠ 0 → ef x.entry 0x28 8 = (u.port p).download.length → ef x.entry 0x28 8 + x.input.length ≤ 2 ^ 26 →
        ∃ t, exec (.fwDownload src) s = .next t ∧ t.answers s src .success 0 0 ∧ (t.port p).download = (u.port p).download ++ x.input) ∧
      (ef x.entry 0x28 8 ≠ 0 → ef x.entry 0x28 8 ≠ (u.port p).download.length →
        ∃ t, exec (.fwDownload src) s = .next t ∧ t.answers s src .fwSequence 0 0 ∧ (t.port p).download = (u.port p).download)) ∧
    (s.accepts 0x89 src → u.security.active ≠ some (eSlot x.entry) →
      (noImage (u.port p).download = false → imageFails u (u.port p).download (eSlot x.entry) = none →
        ∃ t, exec (.fwCommit src) s = .next t ∧ t.answers s src .success (imageVersion (u.port p).download) 0 ∧
          slotImage t (eSlot x.entry) = some (u.port p).download ∧ t.security.trust = u.security.trust ∧
          t.security.running = u.security.running ∧
          t = { u.answering t with security := { u.security with
            slot0 := t.security.slot0, slot1 := t.security.slot1, recA := t.security.recA, recB := t.security.recB } }) ∧
      (∀ k, noImage (u.port p).download = false → imageFails u (u.port p).download (eSlot x.entry) = some k →
        ∃ t, exec (.fwCommit src) s = .next t ∧ t.answers s src (if k = 6 then .fwRollback else .fwImageInvalid) 0 0 ∧
          t.security = u.security) ∧
      (noImage (u.port p).download = true →
        ∃ t, exec (.fwCommit src) s = .next t ∧ t.answers s src .fwNoImage 0 0 ∧ t.security = u.security)) ∧
    (s.accepts 0x8A src →
      (∀ b, u.security.activating = none → u.security.active ≠ some (eSlot x.entry) → slotImage u (eSlot x.entry) = some b →
        (imageMajor b = fwMajor u ∨ eSlotFlag x.entry = true) →
        ∃ t, exec (.fwActivate src) s = .next t ∧ t.security.activating = some s.nextCmd ∧ s.time ≤ t.security.activateEnd ∧
          t.security.activateEnd ≤ s.time + 2000000000 ∧
          t = { u with
            free := u.free + 1
            flash := { u.flash with issued := u.flash.wbuf, erasing := t.flash.erasing }
            security := { u.security with activating := t.security.activating, activateEnd := t.security.activateEnd } }) ∧
      (u.security.activating.isSome = true →
        ∃ t, exec (.fwActivate src) s = .next t ∧ t.answers s src .fwActivationBusy 0 0 ∧ t.security = u.security))

/-- COLLECTION_CREATE of a collection of this device alone makes it in the least free slot, RESIDENT, with published epoch 0 and its
ceilings, and answers its handle (R46, R47, R82, R186, R537, R674). COLLECTION_SET keeps the new attributes for the next commit (R538). -/
def Obligations.CollectionsAreMade : Prop :=
  ∀ (src : AdminSrc) (s u : State) (x : Cmd), u = adminStarted s src → u.cmd? s.nextCmd = some x →
    (∀ a i, s.accepts 0x90 src → x.input = sourceInput s src → createFails u x.input = none →
      recordMembers x.input = some [] → readAttrs (x.input.take 128) = some a → freeIndex u [] = some i →
      (createColl u i (nextGen (Tab.getD u.gens i 0)) a [] x.input).isSome = true →
      ∃ t c, exec (.collectionCreate src []) s = .next t ∧ t.coll? i = some c ∧
        t.answers s src .success (handleOf (nextGen (Tab.getD u.gens i 0)) i).toNat 0 ∧
        c.gen = nextGen (Tab.getD u.gens i 0) ∧ c.attrs = a ∧ c.members = [] ∧ c.published = 0 ∧ c.residency = .resident ∧
        c.nextLocal = 0 ∧ c.idMap = [] ∧ (latestDir c).listCount = a.listCount ∧
        (u.flash.state ≠ .absent → c.ceiling = 2 ^ 32 ∧ c.durableCeiling = 2 ^ 32 ∧ c.idCeiling = 2 ^ 20) ∧
        (a.codebookSource = 0 → c.codebook.length = bookElems a ∧ c.centroids.length = a.listCount * dpad a ∧ c.cbGen = 1) ∧
        Tab.get? s.colls i = none ∧ (∀ j, j ≠ i → t.coll? j = s.coll? j)) ∧
    (∀ i c a, s.accepts 0x91 src → collOf u (eHandle x.entry) = some (i, c) → c.members = [] → eSetMask x.entry < 64 →
      recordReserved (x.input.take 128) = true → floorOk u i c x.input (eSetMask x.entry) = true →
      setAttrs (c.newAttrs.getD c.attrs) x.input (eSetMask x.entry) = some a →
      (a.stagingMiB = (c.newAttrs.getD c.attrs).stagingMiB ∨ c.staging = []) → (applySet u i a).isSome = true →
      ∃ t y, exec (.collectionSet src) s = .next t ∧ t.answers s src .success 0 0 ∧ t.coll? i = some y ∧
        y = { c with newAttrs := some a, stage := y.stage } ∧ (∀ j, j ≠ i → t.coll? j = s.coll? j))

/-- COLLECTION_DELETE of a collection that no command and no other collection needs takes it off the device at once (R539). -/
def Obligations.CollectionsAreDeleted : Prop :=
  ∀ (src : AdminSrc) (s u : State) (x : Cmd) (i : Nat) (c : Collection), u = adminStarted s src → u.cmd? s.nextCmd = some x →
    s.accepts 0x92 src → collOf u (eHandle x.entry) = some (i, c) → Tab.wf s.colls = true → c.members = [] → c.maint = none →
    c.residency ≠ .waking → (∀ y ∈ s.colls, y.2.maint = none) →
    (referenced u i c = false → (∀ y ∈ s.cmds, onColl i y.2 = false) →
      ∃ t, exec (.collectionDelete src) s = .next t ∧ t.answers s src .success 0 0 ∧ t.coll? i = none ∧
        (∀ j, j ≠ i → t.coll? j = s.coll? j)) ∧
    (referenced u i c = true → ∃ t, exec (.collectionDelete src) s = .next t ∧ t.answers s src .collectionBusy 0 0 ∧
      (t.coll? i).isSome = true)

/-- A maintenance command that its input allows reserves its shadow, keeps the new books beside the old, pins the INDEX and runs until its
cutover (R190, R194, R540). SCHEDULE_LOAD of an image that passes R209 and the feasibility model loads it into the least free slot, answers
its handle and extends measurement register 4; one that is not feasible ends with SCHEDULE_INFEASIBLE. SCHEDULE_UNLOAD of a schedule that
nothing needs frees its slot; SCHEDULE_BIND binds a collection (R205, R209, R214, R222, R223, R595). -/
def Obligations.MaintenanceAndSchedules : Prop :=
  (∀ (src : AdminSrc) (s u : State) (x : Cmd) (i : Nat) (c : Collection) (m : Maint), u = adminStarted s src → u.cmd? s.nextCmd = some x →
    collOf u (eHandle x.entry) = some (i, c) → c.attrs.codebookSource = 0 → c.maint = none → readMaint x c = some m → inT2 c = true →
    referencing u i c = [] → (addTiles (shadowNeed c m) u i .index).isSome = true →
    ∀ cmd op, (cmd, op) ∈ [(Instr.collectionRetrain src, 0x93), (Instr.collectionRebuild src, 0x94), (Instr.listSplit src, 0x95)] →
      s.accepts op src →
      ∃ t y w z, exec cmd s = .next t ∧ t.coll? i = some y ∧ y.maint = some w ∧ w.cmd = s.nextCmd ∧ w.kind = m.kind ∧
        w.codebook = m.codebook ∧ w.centroids = m.centroids ∧ w.gen = m.gen ∧ w.listCount = m.listCount ∧
        w.tiles.length = shadowNeed c m ∧ Tab.get? y.oldBooks (bookKey m.gen m.listCount) = some (m.codebook, m.centroids) ∧
        y.codebook = c.codebook ∧ y.centroids = c.centroids ∧ y.published = c.published ∧ y.pinIndex.pins = c.pinIndex.pins + 1 ∧
        t.cmd? s.nextCmd = some z ∧ z.stage = .admitted ∧ z.pinIndex = true ∧ z.completion = none ∧
        (∀ j, j ≠ i → t.coll? j = s.coll? j)) ∧
  (∀ (src : AdminSrc) (s u : State) (x : Cmd), u = adminStarted s src → u.cmd? s.nextCmd = some x →
    (∀ i h ss rs, s.accepts 0x98 src → h = readHeader x.input → headerOk x.input h = true → ss = readSteps x.input h →
      rs = readRefs x.input h → loadFails u x h ss rs = none → freeSched u = some i → (placeWeights u i rs).isSome = true →
      (infeasible u h ss rs = none →
        ∃ t d, exec (.scheduleLoad src) s = .next t ∧ t.answers s src .success (handleOf (nextGen (u.sched i).gen) i).toNat 0 ∧
          Tab.get? t.scheds i = some d ∧ d.loaded = true ∧ d.gen = nextGen (u.sched i).gen ∧ d.header = h ∧ d.steps = ss ∧ d.refs = rs ∧
          t.security.extends_ = s.security.extends_ + 1 ∧
          t.security.meas = s.security.meas.set 4 (Config.sha384 (digestBytes ((s.security.meas[4]?).getD 0)
            ++ digestBytes (Config.sha384 (x.input.take 256)))) ∧
          (∀ j, j ≠ i → t.sched j = s.sched j)) ∧
      (∀ k ns, infeasible u h ss rs = some (k, ns) →
        ∃ t, exec (.scheduleLoad src) s = .next t ∧ t.answers s src .scheduleInfeasible k ns ∧ t.scheds = s.scheds ∧
          t.security = s.security)) ∧
    (∀ i h, s.accepts 0x99 src → h = BitVec.ofNat 32 (ef x.entry 0x28 4) → schedOf u h = some i → schedBound u h = false →
      (u.sched i).unloadCmd = none → (u.sched i).going = false → fwServes u = true → schedKept u i = false →
      ∃ t, exec (.scheduleUnload src) s = .next t ∧ t.answers s src .success 0 0 ∧ Tab.get? t.scheds i = some { gen := (u.sched i).gen } ∧
        (∀ j, j ≠ i → t.sched j = s.sched j)) ∧
    (∀ i c, s.accepts 0x9A src → eIndex x.entry = i → u.coll? i = some c → eHandle x.entry = (handleOf c.gen i).toNat →
      bindOk u (BitVec.ofNat 32 (ef x.entry 0x28 4)) 1 = true → bindOk u (BitVec.ofNat 32 (ef x.entry 0x2C 4)) 2 = true →
      (∀ d, schedOf u (BitVec.ofNat 32 (ef x.entry 0x28 4)) = some d → (u.sched d).header.outDim = c.attrs.dim) →
      (bitOf (ef x.entry 0x30 1) 0 = true → ef x.entry 0x2C 4 ≠ 0) →
      ∃ t, exec (.scheduleBind src) s = .next t ∧ t.answers s src .success 0 0 ∧
        t.coll? i = some { c with
          embed := BitVec.ofNat 32 (ef x.entry 0x28 4), cross := BitVec.ofNat 32 (ef x.entry 0x2C 4), keepTokens := bitOf (ef x.entry 0x30 1) 0 } ∧
        (∀ j, j ≠ i → t.coll? j = s.coll? j)))

/-- REGION_ALLOC grants the least free entry of the hosts' part over an area of its own; REGION_FREE of an entry that no command and no
engine uses takes it away (R362, R366, R671, R672). HBM_MIGRATE begins a migration to the stack's spare; HBM_DIAG reads and writes a
channel's register (R298, R316, R542). -/
def Obligations.RegionsAndChannels : Prop :=
  ∀ (src : AdminSrc) (s u : State) (x : Cmd), u = adminStarted s src → u.cmd? s.nextCmd = some x →
    (∀ k b v, s.accepts 0xA0 src → freeRegionEntry u = some k → placeArea u k (ef x.entry 0x30 1) (ef x.entry 0x28 8) = some (b, v) →
      ∃ t, exec (.regionAlloc src) s = .next t ∧ t.answers s src .success k 0 ∧ 1024 ≤ k ∧ k < 4096 ∧
        Tab.get? s.protect.regions k = none ∧
        t.region k =
          { base := b, last := b + ef x.entry 0x28 8 - 1, read := bitOf (ef x.entry 0x31 1) 0, write := bitOf (ef x.entry 0x31 1) 1
            atomic := bitOf (ef x.entry 0x31 1) 2, valid := true, owner := ef x.entry 0x32 1, allocated := true } ∧
        (∀ j, j ≠ k → t.region j = s.region j)) ∧
    (∀ k, s.accepts 0xA1 src → Tab.wf s.protect.regions = true → k = ef x.entry 0x28 2 → (u.region k).allocated = true → (u.region k).draining = false →
      ((u.region k).owner = portNum (issuer x) + 1 ∨ (u.region k).owner = 3) → regionNamed u s.nextCmd k = false → regionBusy u k = false →
      ∃ t, exec (.regionFree src) s = .next t ∧ t.answers s src .success 0 0 ∧ (t.region k).valid = false ∧
        (∀ j, j ≠ k → t.region j = s.region j)) ∧
    (∀ c d, s.accepts 0xA8 src → c = eChannel x.entry → (u.chan c).state = .active → Tab.get? u.hbm.spares (stackOf c) = some d → c ≠ d →
      mayMigrate u c d = true →
      ∃ t, exec (.hbmMigrate src) s = .next t ∧ (t.chan c).state = .migSource ∧ (t.chan c).phase = .copy ∧ (t.chan c).watermark = 0 ∧
        (t.chan c).migTarget = d ∧ (t.chan c).migCmd = some s.nextCmd ∧ (t.chan d).state = .migTarget ∧ (t.chan d).migFrom = some c ∧
        (t.cmd? s.nextCmd).map (·.stage) = some .admitted ∧ (∀ e, e ≠ c → e ≠ d → t.chan e = s.chan e)) ∧
    (∀ c, s.accepts 0xA9 src → c = eChannel x.entry →
      (ef x.entry 0x2A 1 = 0 → ∃ t, exec (.hbmDiag src) s = .next t ∧ t = u.answering t ∧
        t.answers s src .success (channelReg u c (ef x.entry 0x2C 4)) 0) ∧
      (ef x.entry 0x2A 1 = 1 → ef x.entry 0x2C 4 = 0x018 →
        ∃ t, exec (.hbmDiag src) s = .next t ∧ t.answers s src .success 0 0 ∧
          t.chan c = { s.chan c with seed := BitVec.ofNat 32 (ef x.entry 0x30 4) } ∧ (∀ e, e ≠ c → t.chan e = s.chan e)) ∧
      (ef x.entry 0x2A 1 = 1 → 0x02C < ef x.entry 0x2C 4 →
        ∃ t, exec (.hbmDiag src) s = .next t ∧ t.answers s src .accessError 0 0 ∧ t.hbm = s.hbm))

/-- A Denop port that ends its training is UP or DEGRADED only at a width of 8, 6 or 4 lanes that both directions carry, and starts with
full credits and flit 0; one that does not come up uses no lane (R551 to R556, R560). A port whose lane fails or that hears no flit for 10
µs leaves service: it is DOWN with no lane, what it had not delivered is lost, every route through it takes its ALTERNATE or ends, and
RETRAIN_TIMER begins its training again (R557, R566, R577). -/
def Obligations.LinksTrainAndLeave : Prop :=
  (∀ (p : Nat) (o : TrainObs) (s : State), live s = true → p < 6 → carries (s.link p) = false →
    (s.island (94 + dieOfPort p)).state = .run →
    ∃ t v, exec (.linkTraining p o) s = .next t ∧ (t = v ∨ (fwServes s = true ∧ t = reroute v)) ∧
      (carries (v.link p) = false → t = v) ∧
      v.link p = { s.link p with
        state := trainedState s (s.link p) o, lanes := (v.link p).lanes, polarity := (v.link p).polarity, excluded := (v.link p).excluded
        peer := (v.link p).peer, laneMap := (v.link p).laneMap, attempts := (v.link p).attempts, txNext := 0, rxNext := 0, replay := []
        resent := none, discarding := false, stream := [], waiting := [], credits := [64, 672, 672, 672, 672, 672, 672]
        lastFlit := s.time, ctl := (v.link p).ctl } ∧
      (carries (v.link p) = true → ((v.link p).lanes = 4 ∨ (v.link p).lanes = 6 ∨ (v.link p).lanes = 8) ∧
        (v.link p).lanes ≤ (usableRx o).length ∧ (v.link p).lanes ≤ (usableTx o).length ∧ (v.link p).peer = o.peerDevice ∧
        ((v.link p).state = .up ↔ (v.link p).lanes = 8) ∧ o.peerInstall = s.net.installId ∧ o.delayNs ≤ 500 ∧ v.net.joined = true ∧
        ((v.link p).laneMap.filter (· < 8)).length = (v.link p).lanes) ∧
      (carries (v.link p) = false → (v.link p).lanes = 0 ∧ (v.link p).laneMap = List.replicate 8 15 ∧ v.net.joined = s.net.joined) ∧
      (∀ q, q ≠ p → (v.link q).state = (s.link q).state) ∧ v.net.routes = s.net.routes) ∧
  (∀ (p : Nat) (s : State), live s = true → p < 6 →
    (carries (s.link p) = true → s.cmds = [] → s.net.peers = [] → s.tiers.borrowed = [] → Tab.wf s.net.routes = true →
      (∀ r ∈ s.net.routes, r.2.next = none) →
      ∀ c, (∃ l, c = .laneFailure p l ∧ (s.link p).laneMap.contains l = true) ∨ (c = .linkTimeout p ∧ (s.link p).lastFlit + 10000 ≤ s.time) →
        ∃ t, exec c s = .next t ∧ (t.link p).state = .down ∧ (t.link p).lanes = 0 ∧ (t.link p).laneMap = List.replicate 8 15 ∧
          (t.link p).waiting = [] ∧ (t.link p).replay = [] ∧ (t.link p).stream = [] ∧ t.logs.critical.getLsbD critPortDown = true ∧
          (∀ q, q ≠ p → (t.link q).state = (s.link q).state) ∧
          (∀ d r, Tab.get? s.net.routes d = some r → r.primary = p →
            (∀ a, r.alternate = some a → Tab.get? t.net.routes d = some { r with primary := a, alternate := none }) ∧
            (r.alternate = none → Tab.get? t.net.routes d = none)) ∧
          (∀ d r, Tab.get? s.net.routes d = some r → r.primary ≠ p →
            Tab.get? t.net.routes d = some { r with alternate := if r.alternate = some p then none else r.alternate }) ∧
          t = { s with net := t.net, logs := t.logs, port0 := t.port0, port1 := t.port1 }) ∧
    ((s.link p).state = .down ∨ (s.link p).state = .failed →
      ∃ t, exec (.retrainTimer p) s = .next t ∧ t.link p = { s.link p with
        state := .training, attempts := 0, retrains := min (2 ^ 32 - 1) ((s.link p).retrains + 1) } ∧
        (∀ q, q ≠ p → t.link q = s.link q) ∧ t = { s with net := { s.net with links := t.net.links }, logs := { s.logs with critical := t.logs.critical } }))

/-- Traffic of a port is lossless and in order: the flit expected is accepted and acknowledged, any other good flit changes nothing that is
accepted, a bad one stops acceptance until its replay and is named in a NAK; ACK empties and NAK rewinds the replay buffer; the eighth
resend of one flit takes the port DOWN (R559, R560, R562). -/
def Obligations.FlitsArriveInOrder : Prop :=
  ∀ (p : Nat) (s : State), live s = true → carries (s.link p) = true →
    (∀ f : Flit, f.good = true → f.uncorrected = 0 → BitVec.ofNat 16 f.number = (s.link p).rxNext →
      ∃ t, exec (.flitReceive p f) s = .next t ∧ (t.link p).rxNext = (s.link p).rxNext + 1 ∧ (t.link p).discarding = false ∧
        (∃ l, (t.link p).ctl = (s.link p).ctl ++ .ack f.number :: l) ∧ t = { s with net := { s.net with links := t.net.links } }) ∧
    (∀ f : Flit, (f.good = false ∨ f.uncorrected ≠ 0 ∨ BitVec.ofNat 16 f.number ≠ (s.link p).rxNext) →
      ∃ t, exec (.flitReceive p f) s = .next t ∧ (t.link p).rxNext = (s.link p).rxNext ∧ (t.link p).stream = (s.link p).stream ∧
        ((s.link p).discarding = true → (t.link p).ctl = (s.link p).ctl ∧ (t.link p).discarding = true) ∧
        ((s.link p).discarding = false → (f.good = false ∨ f.uncorrected ≠ 0) →
          (t.link p).ctl = (s.link p).ctl ++ [.nak (s.link p).rxNext.toNat] ∧ (t.link p).discarding = true) ∧
        t = { s with net := { s.net with links := t.net.links } }) ∧
    (∀ n a b, (s.link p).replay = a ++ BitVec.ofNat 16 n :: b → BitVec.ofNat 16 n ∉ a →
      ((s.link p).waiting = [] → exec (.ack p n) s = .next (s.modLink p fun l => { l with replay := b, resent := none, lastFlit := s.time })) ∧
      ((s.link p).resent = none → ∃ t, exec (.nak p n) s = .next t ∧ t = (s.modLink p fun l => { l with
        replay := BitVec.ofNat 16 n :: b, resent := some (BitVec.ofNat 16 n, 1), ctl := l.ctl ++ [.replay n], lastFlit := s.time })) ∧
      ((s.link p).resent = some (BitVec.ofNat 16 n, 7) → s.cmds = [] → s.net.peers = [] → s.tiers.borrowed = [] →
        ∃ t, exec (.nak p n) s = .next t ∧ (t.link p).state = .down)) ∧
    (∀ vc n, (s.link p).waiting = [] → exec (.credit p vc n) s = .next (s.modLink p fun l => { l with
      credits := l.credits.set vc (min (if vc = 0 then 64 else 672) (l.credits.getD vc 0 + n)), lastFlit := s.time })) ∧
    exec (.keepalive p) s = .next (s.modLink p fun l => { l with lastFlit := s.time }) ∧
    exec (.sendKeepalive p) s = .next (s.modLink p fun l => { l with ctl := l.ctl ++ [.keepalive] })

/-- A packet that fails its check, has come 24 hops or has no known type goes no further and is logged; one for another device goes on with
one hop more (R561, R562, R568). A route takes the shorter way once nothing awaits a response on the old one; TOPOLOGY keeps the newest
report of each link and computes the routes anew (R566, R567); a peer request without a response ends with PEER_FAILURE and frees its tag
(R578). -/
def Obligations.RoutesAndPackets : Prop :=
  (∀ (p : Nat) (k : Packet) (s : State), live s = true → carries (s.link p) = true →
    ((k.pcrcOk = false ∨ 24 ≤ k.hops ∨ knownType k.type = false) →
      ∃ t, exec (.packetForward p k) s = .next t ∧ t.net = s.net ∧
        (s.security.activating = none → ∃ e, t.logs.entries.getLast? = some e ∧ e.kind = kindPeer ∧ e.location = k.src) ∧
        t = { s with logs := t.logs, port0 := t.port0, port1 := t.port1 }) ∧
    (∀ r, badPacket k = false → k.dest ≠ s.net.deviceNumber → Tab.get? s.net.routes k.dest = some r →
      (r.next ≠ none → exec (.packetForward p k) s = .next { s with net := { s.net with
        routes := Tab.set s.net.routes k.dest { r with queue := r.queue ++ [{ k with hops := k.hops + 1 }] } } }) ∧
      (r.next = none → exec (.packetForward p k) s = .next (s.modLink r.primary fun l =>
        pumpLink { l with waiting := l.waiting ++ [{ k with hops := k.hops + 1 }] })))) ∧
  (∀ (d p h : Nat) (r : Route) (s : State), live s = true → Tab.get? s.net.routes d = some r → r.next = some (p, h) → awaits s d = false →
    r.queue = [] →
    exec (.routeSwitch d p) s = .next { s with net := { s.net with
      routes := Tab.set s.net.routes d { primary := p, alternate := some r.primary, hops := h } } }) ∧
  (∀ (ls : List LinkInfo) (s : State), fwServes s = true → s.cmds = [] → s.net.peers = [] → s.tiers.borrowed = [] →
    ∃ t, exec (.topology ls) s = .next t ∧ (∀ l ∈ ls, l ∈ t.net.topology) ∧
      (∀ l ∈ s.net.topology, l ∈ t.net.topology ∨ ∃ m ∈ ls, sameLink l m = true) ∧
      (∀ p, (t.link p).state = (s.link p).state) ∧ t = { s with net := t.net }) ∧
  (∀ (txn n : Nat) (r : PeerReq) (x : Piece) (s : State), live s = true → txn < 2 ^ 64 → s.net.peers.filter (fun y => y.1 == txn) = [(txn, r)] →
    r.waiter = .piece n → n < 2 ^ 33 → Tab.get? s.pieces n = some x → s.cmds = [] → s.tiers.borrowed = [] →
    ∀ c, c = .peerTimeout txn ∨ (c = .windowFault txn ∧ awake s = true) →
      ∃ t, exec c s = .next t ∧ Tab.get? t.net.peers txn = none ∧ (t.link r.port).tags = (s.link r.port).tags - 1 ∧
        (Tab.get? t.pieces n).map (·.err) = some (some 5))

/-- A request of a peer is performed at PAGE × 65,536 + (offset mod 65,536) and answered exactly when its window is VALID with its
GENERATION, permits its sender and its range, and window and page entry give the right; every other request is refused with a window fault,
counted and logged, and reaches no memory (R387, R562); so is FADD of a 64-bit word, which no row has (R262). -/
def Obligations.PeerRequestsAreServed : Prop :=
  ∀ (k : Packet) (s : State), servesPacket s k k.type = true → atHome s k = false →
    let a := bitsOf (pageEntry s (peerDie s k.src) k.window k.offset).toNat 47 16 * 65536 + k.offset % 65536
    let w := field k.payload 1 1
    (k.type = 1 → s.windowAllows k k.length .read → ∀ u b, cacheGetAll (k.length / 128 + 2) (noteWalk s k) a k.length .stream = (u, some b) →
      exec (.readReq k) s = .next (respond u k 0x11 b)) ∧
    (k.type = 2 → s.windowAllows k k.payload.length .write →
      exec (.writeReq k) s = .next (respond (devWrite (noteWalk s k) (.peer k.src) a k.payload .stream) k 0x12 [])) ∧
    (k.type = 3 → (w = 4 ∨ (w = 8 ∧ field k.payload 0 1 ≠ 2)) → aligned k.offset w = true → s.windowAllows k w .atomic →
      ∀ op old, atomicOf (field k.payload 0 1) = some op → atomicOld s a (w == 8) = some old →
        exec (.atomicReq k) s = .next (respond (atomicEffect (noteWalk s k) op
          { src := .peer k.src, addr := a, wide := w == 8, operand := BitVec.ofNat 64 (field k.payload 2 w), fetching := false }
          (BitVec.ofNat 64 (field k.payload (2 + w) w))) k 0x13 (leBytes w old.toNat))) ∧
    (∀ c, (k.type = 1 ∧ c = .readReq k ∧ ¬ s.windowAllows k k.length .read) ∨
        (k.type = 2 ∧ c = .writeReq k ∧ ¬ s.windowAllows k k.payload.length .write) ∨
        (k.type = 3 ∧ c = .atomicReq k ∧ (w = 4 ∨ w = 8) ∧ ¬ s.windowAllows k w .atomic) ∨
        (k.type = 3 ∧ c = .atomicReq k ∧ w = 8 ∧ field k.payload 0 1 = 2) →
      ∃ t, exec c s = .next t ∧
        Tab.getD t.protect.refused (peerDie s k.src) 0 = min (2 ^ 32 - 1) (Tab.getD s.protect.refused (peerDie s k.src) 0 + 1) ∧
        (∀ d, d ≠ peerDie s k.src → Tab.getD t.protect.refused d 0 = Tab.getD s.protect.refused d 0) ∧
        (s.security.activating = none → ∃ e, t.logs.entries.getLast? = some e ∧ e.kind = kindPeer ∧ e.location = k.src) ∧
        t = { s with
          protect := { s.protect with refused := t.protect.refused }, net := { s.net with routes := t.net.routes, links := t.net.links }
          logs := t.logs, port0 := t.port0, port1 := t.port1 })

/-- A response frees the port tag of its request: read data goes to the piece or alley slot that asked, an acknowledgement of an alley slot
or a command changes nothing more, and an old word goes only to a commit. A response whose request is gone is discarded (R342, R343, R578).
An epoch beacon raises PUBLISHED and never lowers it; settings that waited for a commit are in force once it rises (R570, R571). A lease
that is granted opens a window to its borrower alone, one that is taken names the lender's window, one that is revoked or released is gone
from both sides, and its inbound window is invalid under a new GENERATION (R412 to R414). -/
def Obligations.PeersAnswer : Prop :=
  ((∀ (txn : Nat) (r : PeerReq) (s : State), live s = true → awake s = true → s.net.peers.filter (fun y => y.1 == txn) = [(txn, r)] →
    let u := (s.modNet fun x => { x with peers := Tab.erase x.peers txn }).modLink r.port fun l => { l with tags := l.tags - 1 }
    Tab.get? u.net.peers txn = none ∧ (u.link r.port).tags = (s.link r.port).tags - 1 ∧
    (∀ n b x, r.waiter = .piece n → Tab.get? s.pieces n = some x → x.spec.dstSpace ≠ 2 →
      ∃ t, exec (.readRsp txn b) s = .next t ∧ Tab.get? t.pieces n = some { x with data := some b } ∧
        (∀ m, m ≠ n → Tab.get? t.pieces m = Tab.get? s.pieces m) ∧ t = { u with pieces := t.pieces }) ∧
    (∀ core slot b x, r.waiter = .alley core slot → Tab.get? s.alleys (core * 64 + slot) = some x →
      ∃ t, exec (.readRsp txn b) s = .next t ∧ Tab.get? t.alleys (core * 64 + slot) = some { x with data := b } ∧ t = { u with alleys := t.alleys }) ∧
    (∀ n j b, r.waiter = .candidate n j → exec (.readRsp txn b) s = .next (candRead u n j (some b))) ∧
    (((∃ core slot, r.waiter = .alley core slot) ∨ ∃ n, r.waiter = .command n) → exec (.writeAck txn) s = .next u) ∧
    (∀ n x, r.waiter = .piece n → Tab.get? s.pieces n = some x → (∀ y ∈ s.tiers.map, y.2.tier ≠ 3) →
      exec (.writeAck txn) s = .next (endPiece u n x)) ∧
    ((∀ i, r.waiter ≠ .commit i) → ∀ old, exec (.atomicRsp txn old) s = .next u) ∧
    (∀ i old, r.waiter = .commit i → exec (.atomicRsp txn old) s = .next (remoteAnswer u i old.toNat))) ∧
  (∀ (txn : Nat) (s : State), Tab.get? s.net.peers txn = none → ∀ c,
    (∃ b, c = .readRsp txn b) ∨ c = .writeAck txn ∨ (∃ old, c = .atomicRsp txn old) ∨ c = .windowFault txn → exec c s = .next s)) ∧
  ((∀ (h : BitVec 32) (e i : Nat) (c : Collection) (s : State), live s = true → awake s = true → collOf s h.toNat = some (i, c) →
    c.members ≠ [] → isHome s c = false →
    ∃ t d, exec (.epochBeacon h e) s = .next t ∧ t.coll? i = some d ∧ d.published = max c.published e ∧
      d.beacons.head? = some (islandCount s 102, e) ∧
      (c.published < e → ∀ a, c.newAttrs = some a → d.attrs = { a with listCount := c.attrs.listCount } ∧ d.newAttrs = none) ∧
      (∀ j, j ≠ i → t.coll? j = s.coll? j) ∧ t = { s with colls := t.colls }) ∧
  (∀ (s : State), fwServes s = true → awake s = true →
    (∀ b hops w p u tp v, freeWindow s = some w → takePages s 262144 16 = some (p, u) → takePages u 32 1 = some (tp, v) →
      s.tiers.lent.length < s.tiers.lendQuota →
      ∃ t, exec (.lease (.request b hops)) s = .next t ∧
        inWindow t w = { table := tp * 4096, tiles := 16384, source := b, anyMember := false, read := true, write := true, atomic := false
                         valid := true, gen := (inWindow s w).gen + 1 } ∧
        (∀ x, x ≠ w → inWindow t x = inWindow s x) ∧
        ∃ j, Tab.get? t.tiers.lent j = some { borrower := b, window := w, page := p, table := tp, revoking := false }) ∧
    (∀ b hops, s.tiers.lendQuota ≤ s.tiers.lent.length → exec (.lease (.request b hops)) s = .next s) ∧
    (∀ l k w g o, freeOutbound s = some o →
      ∃ t, exec (.lease (.grant l k w g)) s = .next t ∧
        outWindow t o = { target := l, valid := true, remote := w, read := true, write := true, atomic := false, tiles := 16384, gen := g } ∧
        (∃ j x, Tab.get? t.tiers.borrowed j = some x ∧ x.lender = l ∧ x.number = k ∧ x.window = o ∧ x.revoked = false) ∧
        t = { s with
          protect := { s.protect with outbound := t.protect.outbound }, tiers := { s.tiers with borrowed := t.tiers.borrowed } }) ∧
    (∀ l k j x, Tab.wf s.tiers.borrowed = true → s.tiers.borrowed.find? (fun y => y.2.lender == l && y.2.number == k) = some (j, x) →
      (∀ y ∈ s.tiers.map, y.2.tier ≠ 3) →
      ∃ t, exec (.lease (.revoke l k)) s = .next t ∧ Tab.get? t.tiers.borrowed j = none ∧ (outWindow t x.window).valid = false ∧
        (∀ m, m ≠ j → Tab.get? t.tiers.borrowed m = Tab.get? s.tiers.borrowed m)) ∧
    (∀ b k x, s.tiers.lent.filter (fun y => y.1 == k) = [(k, x)] → x.borrower = b → (inWindow s x.window).valid = true →
      ∃ t, exec (.lease (.release b k)) s = .next t ∧ Tab.get? t.tiers.lent k = none ∧ (inWindow t x.window).valid = false ∧
        (inWindow t x.window).gen = (inWindow s x.window).gen + 1 ∧
        t = { s with protect := t.protect, tiers := { s.tiers with lent := t.tiers.lent } })))

/-- A shard request waits like a command and brings its query, terms and limits; runs and ENDs of shards reach the coordinator's merge, and
the first failing END ends the search with its status; a cancelled shard request is gone (R572, R575). A re-rank request is answered with
the exact distances of its candidates as soon as they are read; answers join the coordinator's distances (R225, R226, R575). A forwarded command waits here for its admission as another command does;
the first error of a member decides the status of a command that goes to every member (R574). A sliced run: its start takes a run here where
the set is loaded and is refused by a finish where it is not; the coordinator begins with the last start report, the slices on its go, and a
slice ends with its coordinator's run (R233, R234). Collection commands that the epoch home sends on are made here (R569, R570). -/
def Obligations.ShardsAndSlices : Prop :=
  (∀ (s : State), live s = true → awake s = true →
    (∀ r : ShardReq, isMember s r.coordinator = true → shardOf s r.coordinator r.txn = none →
      (collOf s r.handle.toNat ≠ none →
        ∃ t x, exec (.shardReq r) s = .next t ∧ t.cmd? s.nextCmd = some x ∧ x.origin = .shard r.coordinator r.txn ∧ x.stage = .waiting ∧
          x.search.query = r.query ∧ x.search.terms = r.terms ∧ x.search.given = some (r.probes, r.budget) ∧
          t = { s with cmds := t.cmds, nextCmd := s.nextCmd + 1 }) ∧
      (collOf s r.handle.toNat = none → ∃ t, exec (.shardReq r) s = .next t ∧
        t = { s with net := { s.net with routes := t.net.routes, links := t.net.links } })) ∧
    (∀ (n d : Nat) (x : Cmd), s.cmd? n = some x → x.search.shards.contains d = true → isShard x = false → x.stage = .admitted →
      (∀ es, exec (.shardRun n d es) s = .next (({ s with arrivals := s.arrivals + 1 } : State).modCmd n fun y => { y with search := { y.search with
        flights := y.search.flights ++ [{
          square := .device, input := 8 + d, run := es.map fun e => { key := e.key, vid := e.vid, loc := .peer e.attr }
          arrived := s.arrivals + 1 }] } })) ∧
      (∀ st l m, informational st = true → exec (.shardEnd n d st l m) s = .next (s.modCmd n fun y => { y with search := { y.search with
        shards := y.search.shards.filter (· != d), shardLists := max y.search.shardLists l } })) ∧
      (∀ st l m, informational st = false → s.undecided n x → eOpcode x.entry = 1 →
        ∃ t, exec (.shardEnd n d st l m) s = .next t ∧ t.decidedAs n st 0 0)) ∧
    (∀ (co txn n : Nat) (x : Cmd), shardOf s co txn = some (n, x) →
      (s.cmds.filter (fun y => y.1 == n) = [(n, x)] →
        ∃ t, exec (.shardCancel co txn) s = .next t ∧ t.cmd? n = none ∧ (∀ m, m ≠ n → t.cmd? m = s.cmd? m) ∧
          t = { s with cmds := t.cmds, batches := t.batches, colls := t.colls, protect := { s.protect with t2Free := t.protect.t2Free } }) ∧
      (∀ c ids, s.coll? (eIndex x.entry) = some c → s.cmd? n = some x → x.search.phase = .ready → x.stage = .admitted →
        x.search.rerankWait = [] → eRerank x.entry = 1 →
        (∀ y ∈ askedCands x ids, ∀ p, candPlace c (x.snapshot.getD 0) .vectors y = some p →
          (s.tile p.1).lost = false ∧ (s.tile p.1).tier = 2 ∧ t2Readable s (s.tile p.1) p.2.1 p.2.2 = true) →
        let far (y : Cand) : F32 :=
          let b := candBytes c (x.snapshot.getD 0) .vectors y
          if b.isEmpty then maxFinite else exactDist c.attrs.metric x.search.query (widen c.attrs.fullFormat c.attrs.int8Scale c.attrs.dim b)
        ∃ t z, exec (.shardRerank co txn false ids) s = .next t ∧ t.cmd? n = some z ∧ z.search.phase = .ready ∧
          t = { sendData s 0x2C co txn (leBytes 2 0 ++ (ids.zip (askedCands x ids)).flatMap fun y =>
            leBytes 4 y.1.1 ++ leBytes 4 (far y.2).toNat) with cmds := t.cmds })) ∧
    (∀ (n d : Nat) (x : Cmd), s.cmd? n = some x → x.search.phase = .reranking → x.search.rerankWait.contains d = true →
      (∀ ds, (∃ e ∈ x.search.rerankWait, e ≠ d) → ∃ t y, exec (.shardRerankRsp n d .success ds []) s = .next t ∧ t.cmd? n = some y ∧
        y.search.rerankWait = x.search.rerankWait.filter (· != d) ∧
        y.search.dists = ds.foldl (fun a v => Tab.set a v.1 v.2) x.search.dists ∧ t = { s with cmds := t.cmds }) ∧
      (∀ st ds toks, informational st = false → s.undecided n x → eOpcode x.entry = 1 →
        ∃ t, exec (.shardRerankRsp n d st ds toks) s = .next t ∧ t.decidedAs n st 0 0))) ∧
  ((∀ (src txn : Nat) (e : BitVec 1024) (inp : List Byte) (i : Nat) (c : Collection) (s : State), live s = true → awake s = true →
    isMember s src = true → forwards (eOpcode e) = true → eOpcode e ≠ 6 → (∀ y ∈ s.cmds, y.2.origin ≠ .forwarded src txn) →
    collOf s (eHandle e) = some (i, c) →
    let x : Cmd :=
      { origin := .forwarded src txn, entry := e, input := inp, word := fetchWord (eOpcode e), embed := c.embed, cross := c.cross, keepTokens := c.keepTokens }
    homeCheck { s with cmds := Tab.set s.cmds s.nextCmd x, nextCmd := s.nextCmd + 1 } x = none →
      exec (.forwardCmd src txn e inp) s = .next { s with cmds := Tab.set s.cmds s.nextCmd x, nextCmd := s.nextCmd + 1 }) ∧
  (∀ (n d : Nat) (k : BitVec 256) (res : List Byte) (x : Cmd) (f : Completion) (s : State), live s = true → awake s = true →
    s.cmd? n = some x → x.work.members.contains d = true → fannedOut (eOpcode x.entry) = true → x.completion = some f →
    (∃ m ∈ x.work.members, m ≠ d) →
    ∃ t y g, exec (.forwardCpl n d k res) s = .next t ∧ t.cmd? n = some y ∧ y.work.members = x.work.members.filter (· != d) ∧
      y.completion = some g ∧ g.status = (if f.status = .success then (readCqe k).status else f.status) ∧ t = { s with cmds := t.cmds })) ∧
  ((∀ (s : State), fwServes s = true → awake s = true → Tab.wf s.runs = true →
    (∀ co run setId cls,
      (∀ i d, s.scheds.find? (fun y => y.2.loaded && y.2.header.sliced && y.2.header.setId == setId && y.2.members.contains co) = some (i, d) →
        ∃ t, exec (.runCtl (.start co run setId cls)) s = .next t ∧ t.nextRun = s.nextRun + 1 ∧
          (∃ r, Tab.get? t.runs s.nextRun = some r ∧ r.sched = i ∧ r.slice = some (co, run) ∧ r.sliceClass = cls ∧ r.begun = false) ∧
          (∀ m, m ≠ s.nextRun → Tab.get? t.runs m = Tab.get? s.runs m) ∧ t = { s with runs := t.runs, nextRun := t.nextRun }) ∧
      ((∀ y ∈ s.scheds, ¬ (y.2.loaded = true ∧ y.2.header.sliced = true ∧ y.2.header.setId = setId ∧ y.2.members.contains co = true)) →
        exec (.runCtl (.start co run setId cls)) s = .next (sendRunCtl s co 3 s.net.deviceNumber run 0))) ∧
    (∀ run slice r, Tab.get? s.runs run = some r → r.launched = true → r.begun = false → r.slice = none → r.reports.contains slice = false →
      (r.reports.length + 1 < (sliceOthers s (s.sched r.sched)).length →
        exec (.runCtl (.startReport run slice)) s = .next { s with runs := Tab.adjust s.runs run fun y => { y with reports := y.reports ++ [slice] } }) ∧
      ((sliceOthers s (s.sched r.sched)).length ≤ r.reports.length + 1 →
        ∃ t y, exec (.runCtl (.startReport run slice)) s = .next t ∧ Tab.get? t.runs run = some y ∧ y.begun = true ∧ y.start = s.time ∧
          y.reports = r.reports ++ [slice] ∧ t = { s with runs := t.runs, net := { s.net with routes := t.net.routes, links := t.net.links } })) ∧
    (∀ co run k r, s.runs.find? (fun y => y.2.slice == some (co, run) && y.2.launched && !y.2.begun) = some (k, r) →
      ∃ t y, exec (.runCtl (.go co run)) s = .next t ∧ Tab.get? t.runs k = some y ∧ y.begun = true ∧ y.start = s.time ∧ t = { s with runs := t.runs }) ∧
    (∀ d run k r, s.runs.find? (fun y => y.2.slice == some (d, run)) = some (k, r) → s.noneUnloads →
      ∃ t, exec (.runCtl (.finish d run true)) s = .next t ∧ Tab.get? t.runs k = none ∧ t.net = s.net ∧ t.cmds = s.cmds)) ∧
  (∀ (src : Nat) (e : BitVec 1024) (inp : List Byte) (s : State), fwServes s = true → awake s = true → isMember s src = true →
    (eOpcode e = 0x90 → ∀ a ms u, readAttrs (inp.take 128) = some a → recordMembers inp = some ms → Tab.has s.colls (eIndex e) = false →
      createColl s (eIndex e) (eHandle e / 65536) a ms inp = some u → exec (.adminFan src e inp (eIndex e)) s = .next u) ∧
    (eOpcode e = 0x91 → ∀ i c a u, collOf s (eHandle e) = some (i, c) → setAttrs (c.newAttrs.getD c.attrs) inp (eSetMask e) = some a →
      applySet s i a = some u → exec (.adminFan src e inp (eIndex e)) s = .next u) ∧
    (eOpcode e = 0x92 → ∀ i c, collOf s (eHandle e) = some (i, c) → exec (.adminFan src e inp (eIndex e)) s = .next (beginDelete s i noCmd))))

/-- Start-up goes as far as the pins let it: STRAP3 holds it, a low DEVRST_N and PLLs that do not lock make it wait, and each is left as its
pin or PLL allows (R664, R665, R669). With no image that passes the device is in recovery, with the boot fabric alone running (R592, R593);
else it starts from the slot, and the measurements hold exactly the three extends of the boot (R594). -/
def Obligations.StartUpFollowsThePins : Prop :=
  (∀ (b : BootInputs) (s : State), s.power.phase = .powerOff → (Instr.startUp b).wf = true → s.power.board = none →
    let v := s.modPower fun p => { p with pwrok := true, board := some b }
    (b.strap3 = true → exec (.startUp b) s = .next (v.modPower fun p => { p with phase := .strapHold })) ∧
    (b.strap3 = false → s.power.devrstN = false → exec (.startUp b) s = .next (v.modPower fun p => { p with phase := .waitDevrst })) ∧
    (b.strap3 = false → s.power.devrstN = true → b.refclk = false → exec (.startUp b) s = .next (v.modPower fun p => { p with phase := .waitPll })) ∧
    (b.strap3 = false → s.power.devrstN = true → b.refclk = true →
      ∃ t, exec (.startUp b) s = .next t ∧
        (s.security.slot0 = none → s.security.slot1 = none → s.security.counter0 = [] → s.security.counter1 = [] →
          t.power.phase = .recovery ∧ t.security.active = none ∧ t.security.recovery = true ∧
          (∀ i, i ∈ [72, 73, 92, 93, 102] → (t.island i).state = .run) ∧
          (∀ i, i ∉ [72, 73, 92, 93, 102] → t.island i = s.island i)) ∧
        (∀ slot, bootSlot (bootStart v) = some slot → t = startFirmware (bootStart v) b slot ((slotImage (bootStart v) slot).getD []) ∧
          t.security.extends_ = 3 ∧
          t.security.meas[1]? = some (Config.sha384 (digestBytes 0 ++
            digestBytes (Config.sha384 (((slotImage (bootStart v) slot).getD []).take 256)))) ∧
          t.security.meas[2]? = some (Config.sha384 (digestBytes 0 ++ digestBytes (Config.sha384 b.boardRecord))) ∧
          t.security.meas[3]? = some 0 ∧ t.security.meas[4]? = some 0))) ∧
  (∀ (s : State), s.power.devrstN = false →
    let v := s.modPower fun p => { p with devrstN := true }
    (s.power.phase ≠ .waitDevrst → exec .devrstNRelease s = .next v) ∧
    (∀ b, s.power.phase = .waitDevrst → s.power.board = some b → exec .devrstNRelease s = .next (goOn v b))) ∧
  (∀ (b : BootInputs) (s : State), s.power.phase = .waitPll → s.power.board = some b →
    exec (.pllLock 102) s = .next (goOn (s.modPower fun p => { p with board := some { b with refclk := true } }) { b with refclk := true })) ∧
  (∀ (i : Nat) (s : State), live s = true → i < 103 → (s.island i).state = .reset →
    ∃ t, exec (.pllLock i) s = .next t ∧ (t.island i).state = .run ∧ (t.island i).locked = true ∧
      (t.island i).started = some ((s.island i).started.getD s.time) ∧ (∀ j, j ≠ i → (t.island j).state = (s.island j).state) ∧
      (∀ c, c < 105 → (crossingSides c).1 = i ∨ (crossingSides c).2 = i →
        (t.crossing c).state =
          (if (t.island (crossingSides c).1).state ≠ .reset ∧ (t.island (crossingSides c).2).state ≠ .reset then .run else .isolated)) ∧
      (∀ c, ¬ (c < 105 ∧ ((crossingSides c).1 = i ∨ (crossingSides c).2 = i)) → t.crossing c = s.crossing c) ∧
      t = { s with islands := t.islands, crossings := t.crossings, quarters := t.quarters })

/-- A power-on reset and a device reset leave nothing in work and no island running, clear the measurements, and keep the secret, the
lifecycle state and the counters; the first keeps OTP, boot flash, programmed T4 contents and saved features and records a rail fault (R594,
R596, R620, R659, R660). Shorter pulses of DEVRST_N are ignored (R665). What is used once or reports only: TEST_PORT is 1 from a use of the
test port on; manufacture writes the UDS, the key digests and the first image once; PMB_ALERT_N is logged; CX_CTRL clears the peaks (R587,
R594, R596, R610, R661). -/
def Obligations.ResetsKeepWhatSurvives : Prop :=
  ((∀ (c : Instr) (rail : Option (Bool × Nat)) (s : State), s.power.pwrok = true →
    ((c = .powerDown ∧ rail = s.power.railFault) ∨ ∃ r above, c = .railFault r above ∧ r < 17 ∧ rail = some (above, r)) →
    ∃ t, exec c s = .next t ∧ t.power.phase = .powerOff ∧ t.power.pwrok = false ∧ t.power.limit = 0 ∧ t.power.railFault = rail ∧
      t.cmds = [] ∧ t.runs = [] ∧ t.batches = [] ∧ t.pieces = [] ∧ t.islands = [] ∧ t.net.peers = [] ∧ t.net.routes = [] ∧
      t.security.meas = [0, 0, 0, 0, 0] ∧ t.security.uds = s.security.uds ∧ t.security.lifecycle = s.security.lifecycle ∧
      t.security.counter0 = s.security.counter0 ∧ t.security.counter1 = s.security.counter1 ∧ t.security.edKeys = s.security.edKeys ∧
      t.security.mldsaKeys = s.security.mldsaKeys ∧ t.security.slot0 = s.security.slot0 ∧ t.security.slot1 = s.security.slot1 ∧
      t.security.testPort = false ∧ t.flash.pages = s.flash.pages ∧ t.flash.blocks = s.flash.blocks ∧ t.features.saved = s.features.saved ∧
      (∀ i d, t.coll? i = some d → d.dirs = [] ∧ d.groups = [] ∧ d.deleting = none)) ∧
  (∀ (c : Instr) (s : State), s.power.pwrok = true →
    ((c = .deviceReset .firmware ∧ live s = true) ∨ (∃ ns, c = .deviceReset (.pin ns) ∧ 1000 ≤ ns ∧ mayReset s = true) ∨
      (c = .sbDeviceReset 0x5E7A ∧ sbUp s = true ∧ mayReset s = true)) →
    ∃ t, exec c s = .next t ∧ t.power.phase = .powerOff ∧ t.power.pwrok = true ∧ t.cmds = [] ∧ t.runs = [] ∧ t.batches = [] ∧ t.pieces = [] ∧
      t.islands = [] ∧ t.net.peers = [] ∧ t.net.routes = [] ∧ (∀ q, carries (t.link q) = false) ∧
      t.security.meas = [0, 0, 0, 0, 0] ∧ t.security.uds = s.security.uds ∧ t.security.lifecycle = s.security.lifecycle ∧
      t.security.counter0 = s.security.counter0 ∧ t.security.counter1 = s.security.counter1) ∧
  (∀ ns (s : State), ns < 1000 → s.power.pwrok = true → exec (.deviceReset (.pin ns)) s = .next s) ∧
  (∀ ns (s : State), s.power.pwrok = false → exec (.deviceReset (.pin ns)) s = .next (s.modPower fun p => { p with devrstN := false }))) ∧
  ((∀ (s : State), s.power.pwrok = true → exec .testPortAccess s = .next (s.modSec fun x => { x with testPort := true })) ∧
  (∀ (m : Manufacture) (s : State), (Instr.provisioning m).wf = true →
    (s.security.lifecycle = .manufacture → ∃ t, exec (.provisioning m) s = .next t ∧ t.security.uds = some m.uds ∧
      t.security.lifecycle = .production ∧ t.security.slot0 = some m.image ∧ t.security.edKeys = m.edKeys.map (fun k => (k, false)) ∧
      t.security.mldsaKeys = m.mldsaKeys.map (fun k => (k, false)) ∧ t.security.certs = m.certs ∧ t.security.counter0 = s.security.counter0 ∧
      t = { s with security := t.security }) ∧
    (s.security.lifecycle ≠ .manufacture → exec (.provisioning m) s = .next s)) ∧
  (∀ (s : State), live s = true → s.security.activating = none → ∃ t, exec .pmbAlert s = .next t ∧
    t.power = { s.power with pmbAlerts := s.power.pmbAlerts + 1 } ∧ (∃ e, t.logs.entries.getLast? = some e ∧ e.kind = kindIsland ∧ e.location = 102) ∧
    t = { s with power := t.power, logs := t.logs, port0 := t.port0, port1 := t.port1 }) ∧
  (∀ (c : Nat) (s : State), fwServes s = true → c < 105 →
    ∃ t, exec (.peakClear c) s = .next t ∧ t.crossing c = { s.crossing c with peakAB := 0, peakBA := 0 } ∧
      (∀ x, x ≠ c → t.crossing x = s.crossing x) ∧ t = { s with crossings := t.crossings }))

/-- FATAL: a security-block fault, a second watchdog expiry within 10 minutes, and the loss of an island of the control, fabric or HBM
controller kind stop the device: every Denop port is down, CRITICAL bit 5 is set and ALERT_N asserted, and the entry is kept for the next
start-up (R629, R644, R645). Other island losses are answered by kind (R644), and a first watchdog expiry restarts the firmware (R646). -/
def Obligations.FatalAndIslandLoss : Prop :=
  (∀ (c : Instr) (s : State), live s = true →
    (c = .securityBlockFault ∨ (c = .watchdogExpiry ∧ ∃ w, s.security.watchdog = some w ∧ s.time ≤ w + 600000000000) ∨
      (∃ i, c = .pllLoss i ∧ ((64 ≤ i ∧ i < 92) ∨ i = 102) ∧ (s.island i).state ≠ .reset ∧ (s.island i).state ≠ .off) ∨
      (∃ x, c = .crossingParityError x ∧ x < 105 ∧ (s.crossing x).state = .run ∧ ((64 ≤ x ∧ x < 94) ∨ x = 104))) →
    ∃ t, exec c s = .next t ∧ t.power = { s.power with phase := .fatal, alert := true } ∧ (∀ q, carries (t.link q) = false) ∧
      t.logs.critical.getLsbD critFatal = true ∧ t.security.fatalKept = (t.logs.entries ++ t.logs.held).getLast? ∧
      t = { s with
        islands := t.islands, crossings := t.crossings, logs := t.logs, power := t.power, port0 := t.port0, port1 := t.port1
        security := { s.security with watchdog := t.security.watchdog, fatalKept := t.security.fatalKept }
        net := { s.net with links := t.net.links } }) ∧
  (∀ (i : Nat) (s : State), live s = true → (s.island i).state ≠ .reset → (s.island i).state ≠ .off →
    (98 ≤ i → i < 102 →
      ∃ t, exec (.pllLoss i) s = .next t ∧ (t.island i).state = .reset ∧ (∀ j, j ≠ i → t.island j = s.island j) ∧
        (∀ x, x < 105 → (crossingSides x).1 = i ∨ (crossingSides x).2 = i → (t.crossing x).state ≠ .run) ∧
        (∀ ch, (flashCh s ch).state = .active → ch / 4 = i - 98 → (flashCh t ch).state = .retraining) ∧
        (∀ ch, ch / 4 ≠ i - 98 → flashCh t ch = flashCh s ch) ∧ t.net = s.net ∧ t.cmds = s.cmds ∧ t.power = s.power) ∧
    (i < 64 → (s.quarter i).inService = false → ∃ t, exec (.pllLoss i) s = .next t ∧ (t.island i).state = .reset ∧ t.cmds = s.cmds ∧
      t.quarters = s.quarters ∧ t.net = s.net ∧ t.power = s.power)) ∧
  (∀ (s : State), live s = true → s.security.watchdog = none → s.cmds = [] → s.colls = [] → s.tiers.borrowed = [] →
    (∀ y ∈ s.hbm.channels, y.2.phase ≠ .alias_) → s.scheds = [] → s.hbm.dueRetire = [] → s.hbm.dueRelease = [] → s.flash.dueBlocks = [] →
    ∃ t, exec .watchdogExpiry s = .next t ∧ t.security = { s.security with watchdog := some s.time, activating := none } ∧ t.power = s.power ∧
      t = { s with
        security := t.security, net := t.net, logs := t.logs, port0 := t.port0, port1 := t.port1
        flash := { s.flash with issued := [], erasing := [] } })

/-- The power controller enters DP1 to DP3 from the state above where the condition holds, and returns to DP0 with every island that it
stopped running, patrol scrub on and no command held. A command fetched during an entry starts the exit at its end. DP2 stops scrub, gates
the quarters and leaves no dirty sector in a slice; DP3 powers quarters, compute fabrics and flash islands off (R613 to R616, R515). A
sensor's reading sets TEMP and MAX; it throttles and alarms from its threshold on, until 3 °C below it; an alarm sets CRITICAL bit 2 and
ALERT_N; a shutdown reading stops every island but control and asserts THERMTRIP_N (R623, R624, R626, R627). While a sensor throttles, the
CAP of its dies' quarters falls by 50 MHz each ms to the floor, and rises after (R625). Every CAP falls by a step while the package exceeds
POWER_LIMIT and rises by one while it is more than 5% below it, between the floor and the top; LIMIT_UNMET is 1 while every quarter is at
its floor and the power still exceeds the limit; POWER_LIMIT is 0 after a power-on reset (R619). A poll takes each rail's product, or the
estimate raised by 10% for a silent regulator, and averages ten polls (R661). -/
def Obligations.PowerAndHeat : Prop :=
  ((∀ (s : State), live s = true → s.power.entering = none →
    (s.power.dp = .dp0 → (∀ y ∈ s.runs, y.2.launched = true → (Tab.getD s.scheds y.2.sched {}).header.checkClock ≤ 7) →
      exec .dp1Entry s = .next (s.modPower fun p => { p with entering := some .dp1, entryCmd := false })) ∧
    (s.power.dp = .dp1 → mayRest s = true → exec .dp2Entry s = .next (s.modPower fun p => { p with entering := some .dp2, entryCmd := false })) ∧
    (s.power.dp = .dp2 → mayRest s = true → portsAsleep s = true → homeOfNone s = true →
      exec .dp3Entry s = .next (s.modPower fun p => { p with entering := some .dp3, entryCmd := false })) ∧
    (∀ c, (c = .dp1Exit ∧ s.power.dp = .dp1) ∨ (c = .dpExit ∧ (s.power.dp = .dp2 ∨ s.power.dp = .dp3)) →
      ∃ t, exec c s = .next t ∧ t.power = { s.power with dp := .dp0, entering := none, entryCmd := false, scrub := true } ∧
        (∀ i, (s.island i).state = .gated ∨ (s.island i).state = .off → (t.island i).state = .run) ∧
        (∀ i, (∀ y ∈ s.islands, y.1 = i → y.2.state = .reset ∨ y.2.state = .run) → (t.island i).state = (s.island i).state) ∧
        (∀ y ∈ t.cmds, y.2.heldDp = false) ∧
        t = { s with power := t.power, islands := t.islands, cmds := t.cmds, quarters := t.quarters })) ∧
  (∀ (d : Dp) (s : State), live s = true → s.power.entering = some d → s.flash.wbuf = [] →
    ∃ t, exec .dpEntryComplete s = .next t ∧ t.power.entering = none ∧ t.power.dp = (if s.power.entryCmd then .dp0 else d) ∧
      (s.power.entryCmd = false → d = .dp2 →
        t.power.scrub = false ∧ (∀ i, i < 64 → (s.island i).state = .run → (t.island i).state = .gated) ∧
        (∀ i, 64 ≤ i → (t.island i).state = (s.island i).state) ∧
        (∀ k l x, Tab.get? t.cache.lines k = some l → x ∈ l.sectors → x.dirty = false) ∧ t.cmds = s.cmds) ∧
      (s.power.entryCmd = false → d = .dp3 →
        (∀ i, i < 72 ∨ (98 ≤ i ∧ i < 102) → (s.island i).state = .run ∨ (s.island i).state = .gated → (t.island i).state = .off) ∧
        (∀ i, 72 ≤ i → ¬ (98 ≤ i ∧ i < 102) → (t.island i).state = (s.island i).state) ∧ t.cmds = s.cmds ∧ t.colls = s.colls))) ∧
  ((∀ (rs : List Int) (s : State), live s = true → rs.length = 28 →
    ((∀ (n : Nat) (v : Int), rs[n]? = some v → v < shutdownAt n) →
      ∃ t, exec (.thermalSample rs) s = .next t ∧
        (∀ (n : Nat) (v : Int), rs[n]? = some v →
          (t.sensor n).temp = v ∧ (t.sensor n).max = max (s.sensor n).max v ∧ (t.sensor n).ms = (s.sensor n).ms ∧
          ((t.sensor n).throttling = true ↔ throttleAt n ≤ v ∨ ((s.sensor n).throttling = true ∧ throttleAt n - 24 ≤ v)) ∧
          ((t.sensor n).alarm = true ↔ alarmAt n ≤ v ∨ ((s.sensor n).alarm = true ∧ alarmAt n - 24 ≤ v)) ∧
          (alarmAt n ≤ v → (s.sensor n).alarm = false → t.power.alert = true)) ∧
        (t.logs.critical.getLsbD critThermal = true ↔ ∃ y ∈ t.sensors, y.2.alarm = true) ∧
        t = { s with
          sensors := t.sensors, logs := t.logs, port0 := t.port0, port1 := t.port1, power := { s.power with alert := t.power.alert } }) ∧
    (∀ (n : Nat) (v : Int), rs[n]? = some v → shutdownAt n ≤ v → (∀ (m : Nat) (w : Int), m < n → rs[m]? = some w → w < shutdownAt m) →
      ∃ t, exec (.thermalSample rs) s = .next t ∧ t.power.phase = .thermalStop ∧ t.power.thermtrip = true ∧ t.power.shutdownSensor = some (n, v) ∧
        t.flash.wbuf = [] ∧ t.pieces = [] ∧ (∀ i, i < 102 → (t.island i).state ≠ .run ∧ (t.island i).state ≠ .gated))) ∧
  (∀ (n : Nat) (s : State), live s = true → n < 28 →
    ((s.sensor n).throttling = true →
      ∃ t, exec (.throttleStep n) s = .next t ∧ t.sensor n = { s.sensor n with ms := min (2 ^ 32 - 1) ((s.sensor n).ms + 1) } ∧
        (∀ q, q < 64 → q / 8 ∈ diesOf n → (t.quarter q).thermalCap = max 11 ((s.quarter q).cap - 1) ∧
          (t.quarter q).cap = max 11 (min (max 11 ((s.quarter q).cap - 1)) (s.quarter q).powerCap)) ∧
        (∀ q, q / 8 ∉ diesOf n → (t.quarter q).thermalCap = (s.quarter q).thermalCap) ∧
        t = { s with sensors := t.sensors, quarters := t.quarters, islands := t.islands }) ∧
    ((s.sensor n).throttling = false →
      ∃ t, exec (.throttleStep n) s = .next t ∧
        (∀ q, q < 64 → q / 8 ∈ diesOf n → dieThrottled s (q / 8) = false → (t.quarter q).thermalCap = min 21 ((s.quarter q).thermalCap + 1)) ∧
        (∀ q, dieThrottled s (q / 8) = true → (t.quarter q).thermalCap = (s.quarter q).thermalCap) ∧
        t = { s with quarters := t.quarters, islands := t.islands }))) ∧
  ((∀ (s : State), s.power.pwrok = true → ∃ t, exec .powerDown s = .next t ∧ t.power.limit = 0) ∧
  (∀ (s : State), live s = true → ∃ t, exec .powerLimitStep s = .next t ∧
    (s.power.limit ≠ 0 → s.power.limit < s.power.watts → ∀ q, q < 64 → (t.quarter q).powerCap = max 11 ((s.quarter q).cap - 1)) ∧
    (s.power.limit = 0 ∨ 100 * s.power.watts < 95 * s.power.limit → ∀ q, q < 64 → (t.quarter q).powerCap = min 21 ((s.quarter q).powerCap + 1)) ∧
    (s.power.limit ≠ 0 → s.power.watts ≤ s.power.limit → 95 * s.power.limit ≤ 100 * s.power.watts →
      ∀ q, q < 64 → (t.quarter q).powerCap = (s.quarter q).powerCap) ∧
    (∀ q, q < 64 → (t.quarter q).cap = max 11 (min (s.quarter q).thermalCap (t.quarter q).powerCap)) ∧
    (t.power.limitUnmet = true ↔ s.power.limit ≠ 0 ∧ s.power.limit < s.power.watts ∧ ∀ q, q < 64 → (t.quarter q).cap = 11) ∧
    t = { s with quarters := t.quarters, islands := t.islands, power := { s.power with limitUnmet := t.power.limitUnmet } }) ∧
  (∀ (rails : List (Option (Nat × Nat))) (es : List Nat) (s : State), live s = true → rails.length = 17 → es.length = 17 →
    ∃ t, exec (.telemetryPoll rails es) s = .next t ∧
      (∀ (r mv ma : Nat), rails[r]? = some (some (mv, ma)) → Tab.get? t.power.rails r = some (mv * ma) ∧ r ∉ t.power.silent) ∧
      (∀ (r e : Nat), rails[r]? = some none → es[r]? = some e → Tab.get? t.power.rails r = some (e + e / 10) ∧ r ∈ t.power.silent) ∧
      t.power.samples = ((Tab.vals t.power.rails).foldl (· + ·) 0 :: s.power.samples).take 10 ∧
      t.power.watts = t.power.samples.foldl (· + ·) 0 / max 1 t.power.samples.length / 1000000 ∧
      t = { s with logs := t.logs, port0 := t.port0, port1 := t.port1, power := { s.power with
        rails := t.power.rails, silent := t.power.silent, samples := t.power.samples, watts := t.power.watts } }))

/-- A core that fails is replaced by its quarter's spare, or is absent where the spare is in use, and its local store starts empty (R247,
R248, R636). A quarter is in service after a repair that passes and out of it after one that fails (R637, R640). A repaired collection keeps
its epoch, and is DAMAGED exactly while a lost tile is left; one whose lost tile the image does not cover is not repaired again (R643). The
sideband's transactions: the offset moves past what is written or read; the firmware owns the buffer from SUBMIT on; POWER_LIMIT takes 0 or
600 to 2,400 only; the status, power and rail-fault words have their fields in place, and reading the fault clears it; a bus timeout ends
only the transaction (R603, R618, R660, R669). -/
def Obligations.RepairsAndSideband : Prop :=
  ((∀ (n : Nat) (why : CoreFailure) (s : State), fwServes s = true → n < 4096 → coreUsable s n = true → (s.core n).batch = none → (s.core n).run = none →
    failureCounts s n why = true → absentCores s (n / 64) < 8 →
    ∃ t, exec (.coreSpare n why) s = .next t ∧ (t.core n).absent = (s.quarter (n / 64)).spareUsed ∧ (t.quarter (n / 64)).spareUsed = true ∧
      (t.core n).faulted = false ∧ (∀ m, m ≠ n → t.core m = s.core m) ∧ (∀ q, q ≠ n / 64 → t.quarter q = s.quarter q) ∧
      t.localStore = s.localStore.filter (fun y => y.1 / 2 ^ 18 != n) ∧
      (∃ e, e ∈ t.logs.entries ∧ e.kind = kindSparing ∧ e.location = n / 64) ∧
      t = { s with
        cores := t.cores, quarters := t.quarters, localStore := t.localStore, logs := t.logs, port0 := t.port0, port1 := t.port1 }) ∧
  (∀ (q : Nat) (pass : Bool) (s : State), fwServes s = true → awake s = true → q < 64 → (s.island q).state = .run → s.batches = [] → s.runs = [] →
    s.streams = [] → s.pieces = [] → s.scheds = [] → s.cmds = [] → absentCores s q ≤ 8 →
    ∃ t, exec (.quarterRepair q [] pass) s = .next t ∧ (t.quarter q).inService = pass ∧ t.cmds = [] ∧
      (∀ a, a ∈ t.localStore ↔ a ∈ s.localStore ∧ a.1 / 2 ^ 18 / 64 ≠ q)) ∧
  (∀ (i : Nat) (c : Collection) (s : State), s.coll? i = some c → fwServes s = true →
    (c.restoring = false → c.damaged = true → c.unrepairable = false → awake s = true →
      ∃ t d, exec (.collectionRepair i) s = .next t ∧ t.coll? i = some d ∧ (∀ x, x ∈ d.lostTiles ↔ x ∈ c.lostTiles ∧ (t.tile x).lost = true) ∧
        (d.damaged = true ↔ d.lostTiles ≠ []) ∧ (d.unrepairable = true ↔ ∃ x ∈ d.lostTiles, rebuildable c x = false) ∧
        d.published = c.published ∧ d.segs = c.segs ∧ (∀ j, j ≠ i → t.coll? j = s.coll? j) ∧ t.cmds = s.cmds ∧ t.flash = s.flash) ∧
    (c.restoring = true → exec (.collectionRepair i) s = .next (restoreLine s i)))) ∧
  ((∀ (s : State), (s.island 102).state = .run →
    (∀ w, exec (.sbSetOffset w) s = .next (s.modSb fun x => { x with offset := w.toNat })) ∧
    (∀ bytes : List Byte, bytes.length ≤ 32 → ∃ t, exec (.sbBlockWrite bytes) s = .next t ∧
      t.sideband.offset = s.sideband.offset + bytes.length ∧
      (s.sideband.firmware = true → t.sideband.buf = s.sideband.buf) ∧
      (s.sideband.firmware = false → s.sideband.offset + bytes.length ≤ 4096 → Mem.wf s.sideband.buf = true → Mem.readN t.sideband.buf s.sideband.offset bytes.length = bytes) ∧
      (∀ a, ¬ (s.sideband.offset ≤ a ∧ a < s.sideband.offset + bytes.length) → Mem.read t.sideband.buf a = Mem.read s.sideband.buf a) ∧
      t = s.modSb fun x => { x with buf := t.sideband.buf, offset := t.sideband.offset }) ∧
    (∀ n, n ≤ 32 → ∃ t, exec (.sbBlockRead n) s = .next t ∧
      (s.sideband.firmware = true → t.sideband.returned = List.replicate n 0) ∧
      (s.sideband.firmware = false → s.sideband.offset + n ≤ 4096 → t.sideband.returned = Mem.readN s.sideband.buf s.sideband.offset n) ∧
      t = s.modSb fun x => { x with returned := t.sideband.returned, offset := s.sideband.offset + n }) ∧
    (∀ len : BitVec 16, (s.sideband.firmware = true → exec (.sbSubmit len) s = .next (s.modSb fun x => { x with refused := true })) ∧
      (s.sideband.firmware = false → 1 ≤ len.toNat → len.toNat ≤ 4096 →
        exec (.sbSubmit len) s = .next (s.modSb fun x => { x with reqLen := len.toNat, firmware := true, started := false })) ∧
      (s.sideband.firmware = false → len.toNat = 0 ∨ 4096 < len.toNat →
        exec (.sbSubmit len) s = .next (s.modSb fun x => { x with reqLen := len.toNat, refused := true }))) ∧
    exec .sbReadStatus s = .next (s.modSb fun x => { x with returned := leBytes 2 ((s.sideband.rspLen % 8192 * 8 +
      (if s.sideband.refused then 4 else 0) + (if s.sideband.done then 2 else 0) + (if s.sideband.firmware then 1 else 0)) % 65536) }) ∧
    (∀ w : BitVec 16, w = 0 ∨ (600 ≤ w.toNat ∧ w.toNat ≤ 2400) → exec (.powerLimitSet w) s = .next (s.modPower fun p => { p with limit := w.toNat })) ∧
    (∀ w : BitVec 16, w ≠ 0 → w.toNat < 600 ∨ 2400 < w.toNat → exec (.powerLimitSet w) s = .next s) ∧
    exec .powerRead s = .next (s.modSb fun x => { x with returned := leBytes 2 ((dpCode s.power.dp * 16384 +
      (if s.power.limitUnmet then 8192 else 0) + min 4095 s.power.watts) % 65536) }) ∧
    exec .sbBusTimeout s = .next (s.modSb fun x => { x with returned := [] }) ∧
    (∀ w : BitVec 16, w ≠ 0x5E7A → exec (.sbDeviceReset w) s = .next s)) ∧
  (∀ (s : State), exec .railFaultRead s = .next { s with
    power := { s.power with railFault := none }
    sideband := { s.sideband with returned := (match s.power.railFault with
      | some (above, r) => leBytes 2 ((32768 + (if above then 16384 else 0) + r) % 65536)
      | none => leBytes 2 0) } }))
end

