-- ==== Sys2Proof/Laws/Frame.lean ====
section
/-! SUPPORT. Frames: the queue of waiting commands and the trust state as the fields of State see them, and folds over operations that
keep them. -/

namespace Sys2Proof.Machine

open Sys2Proof

@[simp] theorem State.trust_mk (pending time power islands crossings sensors port0 port1 cmds nextCmd bucket colls gens arrivals coarseLevels batches nextBatch cores quarters scheds runs nextRun streams engines pieces nextPiece events alleys localStore cache hbm protect tiers flash net security sideband logs features free) : State.trust ⟨pending, time, power, islands, crossings, sensors, port0, port1, cmds, nextCmd, bucket, colls, gens, arrivals, coarseLevels, batches, nextBatch, cores, quarters, scheds, runs, nextRun, streams, engines, pieces, nextPiece, events, alleys, localStore, cache, hbm, protect, tiers, flash, net, security, sideband, logs, features, free⟩ = security.trust := rfl
@[simp] theorem Security.trust_mk (meas log extends_ overflow counter0 counter1 edKeys mldsaKeys lifecycle uds exported testPort slot0 slot1 recA recB active running recovery certValid certs activating activateEnd watchdog fatalKept) :
    Security.trust ⟨meas, log, extends_, overflow, counter0, counter1, edKeys, mldsaKeys, lifecycle, uds, exported, testPort, slot0, slot1, recA, recB, active, running, recovery, certValid, certs, activating, activateEnd, watchdog, fatalKept⟩ = ⟨meas, extends_, counter0, counter1, lifecycle, uds⟩ := rfl
@[simp] theorem security_trust (s : State) : s.security.trust = s.trust := rfl
@[simp] theorem mk_trust (s : State) : (⟨s.security.meas, s.security.extends_, s.security.counter0, s.security.counter1,
    s.security.lifecycle, s.security.uds⟩ : Trust) = s.trust := rfl

theorem foldl_pending {α : Type} (g : State → α → State) (h : ∀ s a, (g s a).pending = s.pending) :
    ∀ (l : List α) (s : State), (l.foldl g s).pending = s.pending
  | [], _ => rfl
  | a :: l, s => (foldl_pending g h l (g s a)).trans (h s a)

theorem foldl_trust {α : Type} (g : State → α → State) (h : ∀ s a, (g s a).trust = s.trust) :
    ∀ (l : List α) (s : State), (l.foldl g s).trust = s.trust
  | [], _ => rfl
  | a :: l, s => (foldl_trust g h l (g s a)).trans (h s a)

theorem ite_pending (c : Prop) [Decidable c] (a b : State) : (if c then a else b).pending = if c then a.pending else b.pending := by
  split <;> rfl
theorem ite_trust (c : Prop) [Decidable c] (a b : State) : (if c then a else b).trust = if c then a.trust else b.trust := by
  split <;> rfl
theorem occurs_next {g : Bool} {t s u : State} (h : occurs g t s = .next u) : u = t ∨ u = s := by
  unfold occurs at h
  split at h <;> simp_all

end Sys2Proof.Machine
end

