-- ==== Sys2Proof/Laws/FrameOps.lean ====
section
/-! SUPPORT. Frames: what the operations on memory, ports, registers, sharers and translation keep. Each lemma says of one operation that it keeps the queue of waiting commands
and the trust state; of an operation that may change the trust state, that it keeps the queue. -/

namespace Sys2Proof.Machine

open Sys2Proof
set_option linter.unusedSimpArgs false
set_option linter.unusedTactic false
set_option linter.unreachableTactic false
set_option linter.unnecessarySeqFocus false

@[simp] theorem State.modHbm_fixed (s : State) (f : Hbm → Hbm) :
    (State.modHbm s f).pending = s.pending ∧ (State.modHbm s f).trust = s.trust := by
  simp [State.modHbm]

@[simp] theorem State.modChan_fixed (s : State) (c : Nat) (f : Channel → Channel) :
    (State.modChan s c f).pending = s.pending ∧ (State.modChan s c f).trust = s.trust := by
  simp [State.modChan]

@[simp] theorem drainQueue_fixed (s : State) (c pc n : Nat) :
    (drainQueue s c pc n).pending = s.pending ∧ (drainQueue s c pc n).trust = s.trust := by
  simp [drainQueue]

@[simp] theorem drainOn_fixed (s : State) (c pc : Nat) :
    (drainOn s c pc).pending = s.pending ∧ (drainOn s c pc).trust = s.trust := by
  simp [drainOn]

@[simp] theorem enqueueWrite_fixed (s : State) (c : Nat) (w : QWrite) :
    (enqueueWrite s c w).pending = s.pending ∧ (enqueueWrite s c w).trust = s.trust := by
  unfold enqueueWrite
  try dsimp only
  constructor <;> repeat' (first | with_reducible rfl | simp [ite_pending, ite_trust, -ite_eq_left_iff] | split)

@[simp] theorem clearRtLost_fixed (s : State) (a : Nat) :
    (clearRtLost s a).pending = s.pending ∧ (clearRtLost s a).trust = s.trust := by
  unfold clearRtLost
  try dsimp only
  constructor <;> repeat' (first | with_reducible rfl | simp [ite_pending, ite_trust, -ite_eq_left_iff] | split)

@[simp] theorem noteWritten_fixed (s : State) (a c r sector : Nat) (mask : BitVec 32) :
    (noteWritten s a c r sector mask).pending = s.pending ∧ (noteWritten s a c r sector mask).trust = s.trust := by
  unfold noteWritten
  try dsimp only
  constructor <;> repeat' (first | with_reducible rfl | simp [ite_pending, ite_trust, -ite_eq_left_iff] | split)

@[simp] theorem hbmPutAt_fixed (s : State) (a : Nat) (data : BitVec 256) (mask : BitVec 32) (level : Option Nat) :
    (hbmPutAt s a data mask level).pending = s.pending ∧ (hbmPutAt s a data mask level).trust = s.trust := by
  unfold hbmPutAt
  try dsimp only
  constructor <;> repeat' (first | with_reducible rfl | simp [ite_pending, ite_trust, -ite_eq_left_iff] | split)

@[simp] theorem hbmPut_fixed (s : State) (a : Nat) (data : BitVec 256) (mask : BitVec 32) :
    (hbmPut s a data mask).pending = s.pending ∧ (hbmPut s a data mask).trust = s.trust := by
  unfold hbmPut
  try dsimp only
  constructor <;> repeat' (first | with_reducible rfl | simp [ite_pending, ite_trust, -ite_eq_left_iff] | split)

@[simp] theorem State.modCache_fixed (s : State) (f : Cache → Cache) :
    (State.modCache s f).pending = s.pending ∧ (State.modCache s f).trust = s.trust := by
  simp [State.modCache]

@[simp] theorem writeBack_fixed (s : State) (l : Line) :
    (writeBack s l).pending = s.pending ∧ (writeBack s l).trust = s.trust := by
  unfold writeBack
  try dsimp only
  constructor <;> repeat' (first | with_reducible rfl | simp (disch := (intros; repeat' (first | with_reducible rfl | simp [ite_pending, ite_trust, -ite_eq_left_iff] | split))) [foldl_pending, foldl_trust, ite_pending, ite_trust, -ite_eq_left_iff] | split)

@[simp] theorem evictKey_fixed (s : State) (k : Nat) :
    (evictKey s k).pending = s.pending ∧ (evictKey s k).trust = s.trust := by
  unfold evictKey
  try dsimp only
  constructor <;> repeat' (first | with_reducible rfl | simp [ite_pending, ite_trust, -ite_eq_left_iff] | split)

@[simp] theorem markRecent_fixed (s : State) (slice set way : Nat) :
    (markRecent s slice set way).pending = s.pending ∧ (markRecent s slice set way).trust = s.trust := by
  simp [markRecent]

@[simp] theorem markVictim_fixed (s : State) (slice set way : Nat) :
    (markVictim s slice set way).pending = s.pending ∧ (markVictim s slice set way).trust = s.trust := by
  simp [markVictim]

@[simp] theorem allocLine_fixed (s : State) (slice line : Nat) (sectors : List Sector) (recent : Bool) :
    (allocLine s slice line sectors recent).pending = s.pending ∧ (allocLine s slice line sectors recent).trust = s.trust := by
  unfold allocLine
  try dsimp only
  constructor <;> repeat' (first | with_reducible rfl | simp [ite_pending, ite_trust, -ite_eq_left_iff] | split)

@[simp] theorem drainWc_fixed (s : State) (slice line : Nat) :
    (drainWc s slice line).pending = s.pending ∧ (drainWc s slice line).trust = s.trust := by
  unfold drainWc
  try dsimp only
  constructor <;> repeat' (first | with_reducible rfl | simp (disch := (intros; repeat' (first | with_reducible rfl | simp [ite_pending, ite_trust, -ite_eq_left_iff] | split))) [foldl_pending, foldl_trust, ite_pending, ite_trust, -ite_eq_left_iff] | split)

@[simp] theorem wcWrite_fixed (s : State) (slice line off : Nat) (bytes : List Byte) (src : Source) :
    (wcWrite s slice line off bytes src).pending = s.pending ∧ (wcWrite s slice line off bytes src).trust = s.trust := by
  unfold wcWrite
  try dsimp only
  constructor <;> repeat' (first | with_reducible rfl | simp [ite_pending, ite_trust, -ite_eq_left_iff] | split)

@[simp] theorem controlPut_fixed (s : State) (o : Nat) (b : List Byte) :
    (controlPut s o b).pending = s.pending ∧ (controlPut s o b).trust = s.trust := by
  simp [controlPut]

@[simp] theorem putUnfetched_fixed (s : State) (line off : Nat) (bytes : List Byte) (old : List Sector) :
    (putUnfetched s line off bytes old).pending = s.pending ∧ (putUnfetched s line off bytes old).trust = s.trust := by
  unfold putUnfetched
  try dsimp only
  constructor <;> repeat' (first | with_reducible rfl | simp (disch := (intros; repeat' (first | with_reducible rfl | simp [ite_pending, ite_trust, -ite_eq_left_iff] | split))) [foldl_pending, foldl_trust, ite_pending, ite_trust, -ite_eq_left_iff] | split)

@[simp] theorem cachePut_fixed (s : State) (src : Source) (a : Nat) (bytes : List Byte) (hint : Hint) :
    (cachePut s src a bytes hint).pending = s.pending ∧ (cachePut s src a bytes hint).trust = s.trust := by
  unfold cachePut
  try dsimp only
  constructor <;> repeat' (first | with_reducible rfl | simp (disch := (intros; repeat' (first | with_reducible rfl | simp [ite_pending, ite_trust, -ite_eq_left_iff] | split))) [foldl_pending, foldl_trust, ite_pending, ite_trust, -ite_eq_left_iff] | split)

@[simp] theorem cachePutAll_fixed (n : Nat) (s : State) (src : Source) (a : Nat) (b : List Byte) (h : Hint) :
    (cachePutAll n s src a b h).pending = s.pending ∧ (cachePutAll n s src a b h).trust = s.trust := by
  induction n generalizing s a b with
  | zero => unfold cachePutAll; constructor <;> repeat' (first | with_reducible rfl | simp [ite_pending, ite_trust, -ite_eq_left_iff] | split)
  | succ n ih => unfold cachePutAll; try dsimp only
                 constructor <;> repeat' (first | with_reducible rfl | simp (disch := (intros; repeat' (first | with_reducible rfl | simp [ite_pending, ite_trust, -ite_eq_left_iff, *] | split))) [foldl_pending, foldl_trust, ite_pending, ite_trust, -ite_eq_left_iff, *] | split)

@[simp] theorem devWrite_fixed (s : State) (src : Source) (a : Nat) (bytes : List Byte) (hint : Hint) :
    (devWrite s src a bytes hint).pending = s.pending ∧ (devWrite s src a bytes hint).trust = s.trust := by
  simp [devWrite]

@[simp] theorem State.modPort_fixed (s : State) (p : PortId) (f : Port → Port) :
    (State.modPort s p f).pending = s.pending ∧ (State.modPort s p f).trust = s.trust := by
  unfold State.modPort
  try dsimp only
  constructor <;> repeat' (first | with_reducible rfl | simp [ite_pending, ite_trust, -ite_eq_left_iff] | split)

@[simp] theorem State.modPair_fixed (s : State) (p : PortId) (q : Nat) (f : QueuePair → QueuePair) :
    (State.modPair s p q f).pending = s.pending ∧ (State.modPair s p q f).trust = s.trust := by
  simp [State.modPair]

@[simp] theorem State.modMailbox_fixed (s : State) (p : PortId) (m : Nat) (f : Mailbox → Mailbox) :
    (State.modMailbox s p m f).pending = s.pending ∧ (State.modMailbox s p m f).trust = s.trust := by
  simp [State.modMailbox]

@[simp] theorem State.modXlt_fixed (s : State) (p : PortId) (f : Xlt → Xlt) :
    (State.modXlt s p f).pending = s.pending ∧ (State.modXlt s p f).trust = s.trust := by
  simp [State.modXlt]

@[simp] theorem State.modCmd_fixed (s : State) (n : Nat) (f : Cmd → Cmd) :
    (State.modCmd s n f).pending = s.pending ∧ (State.modCmd s n f).trust = s.trust := by
  simp [State.modCmd]

@[simp] theorem State.modSearch_fixed (s : State) (n : Nat) (f : SearchWork → SearchWork) :
    (State.modSearch s n f).pending = s.pending ∧ (State.modSearch s n f).trust = s.trust := by
  simp [State.modSearch]

@[simp] theorem State.modWork_fixed (s : State) (n : Nat) (f : OtherWork → OtherWork) :
    (State.modWork s n f).pending = s.pending ∧ (State.modWork s n f).trust = s.trust := by
  simp [State.modWork]

@[simp] theorem State.modColl_fixed (s : State) (i : Nat) (f : Collection → Collection) :
    (State.modColl s i f).pending = s.pending ∧ (State.modColl s i f).trust = s.trust := by
  simp [State.modColl]

@[simp] theorem State.modCore_fixed (s : State) (n : Nat) (f : Core → Core) :
    (State.modCore s n f).pending = s.pending ∧ (State.modCore s n f).trust = s.trust := by
  simp [State.modCore]

@[simp] theorem State.modQuarter_fixed (s : State) (n : Nat) (f : Quarter → Quarter) :
    (State.modQuarter s n f).pending = s.pending ∧ (State.modQuarter s n f).trust = s.trust := by
  simp [State.modQuarter]

@[simp] theorem State.modIsland_fixed (s : State) (n : Nat) (f : Island → Island) :
    (State.modIsland s n f).pending = s.pending ∧ (State.modIsland s n f).trust = s.trust := by
  simp [State.modIsland]

@[simp] theorem State.modCrossing_fixed (s : State) (n : Nat) (f : Crossing → Crossing) :
    (State.modCrossing s n f).pending = s.pending ∧ (State.modCrossing s n f).trust = s.trust := by
  simp [State.modCrossing]

@[simp] theorem State.modPower_fixed (s : State) (f : Power → Power) :
    (State.modPower s f).pending = s.pending ∧ (State.modPower s f).trust = s.trust := by
  simp [State.modPower]

@[simp] theorem State.modLogs_fixed (s : State) (f : Logs → Logs) :
    (State.modLogs s f).pending = s.pending ∧ (State.modLogs s f).trust = s.trust := by
  simp [State.modLogs]

@[simp] theorem State.modSec_pending (s : State) (f : Security → Security) : (s.modSec f).pending = s.pending := rfl
@[simp] theorem State.modSec_trust (s : State) (f : Security → Security) : (s.modSec f).trust = (f s.security).trust := rfl

@[simp] theorem State.modSb_fixed (s : State) (f : Sideband → Sideband) :
    (State.modSb s f).pending = s.pending ∧ (State.modSb s f).trust = s.trust := by
  simp [State.modSb]

@[simp] theorem State.modNet_fixed (s : State) (f : Net → Net) :
    (State.modNet s f).pending = s.pending ∧ (State.modNet s f).trust = s.trust := by
  simp [State.modNet]

@[simp] theorem State.modFlash_fixed (s : State) (f : Flash → Flash) :
    (State.modFlash s f).pending = s.pending ∧ (State.modFlash s f).trust = s.trust := by
  simp [State.modFlash]

@[simp] theorem State.modTiers_fixed (s : State) (f : Tiers → Tiers) :
    (State.modTiers s f).pending = s.pending ∧ (State.modTiers s f).trust = s.trust := by
  simp [State.modTiers]

@[simp] theorem State.modProtect_fixed (s : State) (f : Protect → Protect) :
    (State.modProtect s f).pending = s.pending ∧ (State.modProtect s f).trust = s.trust := by
  simp [State.modProtect]

@[simp] theorem State.modLink_fixed (s : State) (n : Nat) (f : Link → Link) :
    (State.modLink s n f).pending = s.pending ∧ (State.modLink s n f).trust = s.trust := by
  simp [State.modLink]

@[simp] theorem State.modStream_fixed (s : State) (q n : Nat) (f : Stream → Stream) :
    (State.modStream s q n f).pending = s.pending ∧ (State.modStream s q n f).trust = s.trust := by
  simp [State.modStream]

@[simp] theorem State.modEngine_fixed (s : State) (q : Nat) (f : Engine → Engine) :
    (State.modEngine s q f).pending = s.pending ∧ (State.modEngine s q f).trust = s.trust := by
  simp [State.modEngine]

@[simp] theorem State.useFree_fixed (s : State) :
    (State.useFree s).pending = s.pending ∧ (State.useFree s).trust = s.trust := by
  simp [State.useFree]

@[simp] theorem State.arrive_fixed (s : State) :
    (State.arrive s).pending = s.pending ∧ (State.arrive s).trust = s.trust := by
  simp [State.arrive]

@[simp] theorem passCrossing_fixed (s : State) (c : Nat) (ab : Bool) (bytes : Nat) :
    (passCrossing s c ab bytes).pending = s.pending ∧ (passCrossing s c ab bytes).trust = s.trust := by
  unfold passCrossing
  try dsimp only
  constructor <;> repeat' (first | with_reducible rfl | simp [ite_pending, ite_trust, -ite_eq_left_iff] | split)

@[simp] theorem emit_fixed (s : State) (p : PortId) (o : PortOut) :
    (emit s p o).pending = s.pending ∧ (emit s p o).trust = s.trust := by
  simp [emit]

@[simp] theorem answer_fixed (s : State) (p : PortId) (o : PortOut) :
    (answer s p o).pending = s.pending ∧ (answer s p o).trust = s.trust := by
  simp [answer]

@[simp] theorem signal_fixed (s : State) (p : PortId) (v : Nat) :
    (signal s p v).pending = s.pending ∧ (signal s p v).trust = s.trust := by
  unfold signal
  try dsimp only
  constructor <;> repeat' (first | with_reducible rfl | simp [ite_pending, ite_trust, -ite_eq_left_iff] | split)

@[simp] theorem raiseEvent_fixed (s : State) (p : PortId) (bit : Nat) :
    (raiseEvent s p bit).pending = s.pending ∧ (raiseEvent s p bit).trust = s.trust := by
  unfold raiseEvent
  try dsimp only
  constructor <;> repeat' (first | with_reducible rfl | simp [ite_pending, ite_trust, -ite_eq_left_iff] | split)

@[simp] theorem appendLog_fixed (s : State) (e : LogEntry) :
    (appendLog s e).pending = s.pending ∧ (appendLog s e).trust = s.trust := by
  simp [appendLog]

@[simp] theorem recordLog_fixed (s : State) (e : LogEntry) :
    (recordLog s e).pending = s.pending ∧ (recordLog s e).trust = s.trust := by
  unfold recordLog
  try dsimp only
  constructor <;> repeat' (first | with_reducible rfl | simp [ite_pending, ite_trust, -ite_eq_left_iff] | split)

@[simp] theorem writeLog_fixed (s : State) (e : LogEntry) (ps : List PortId) :
    (writeLog s e ps).pending = s.pending ∧ (writeLog s e ps).trust = s.trust := by
  unfold writeLog
  try dsimp only
  constructor <;> repeat' (first | with_reducible rfl | simp (disch := (intros; repeat' (first | with_reducible rfl | simp [ite_pending, ite_trust, -ite_eq_left_iff] | split))) [foldl_pending, foldl_trust, ite_pending, ite_trust, -ite_eq_left_iff] | split)

@[simp] theorem deviceLog_fixed (s : State) (kind loc detail : Nat) :
    (deviceLog s kind loc detail).pending = s.pending ∧ (deviceLog s kind loc detail).trust = s.trust := by
  simp [deviceLog]

@[simp] theorem notice_fixed (s : State) (lid : Nat) :
    (notice s lid).pending = s.pending ∧ (notice s lid).trust = s.trust := by
  simp [notice]

@[simp] theorem noticeId_fixed (s : State) :
    (noticeId s).pending = s.pending ∧ (noticeId s).trust = s.trust := by
  simp [noticeId]

@[simp] theorem critical_fixed (s : State) (bit : Nat) (on : Bool) :
    (critical s bit on).pending = s.pending ∧ (critical s bit on).trust = s.trust := by
  unfold critical
  try dsimp only
  constructor <;> repeat' (first | with_reducible rfl | simp [ite_pending, ite_trust, -ite_eq_left_iff] | split)

@[simp] theorem repairLog_fixed (s : State) (c detail : Nat) :
    (repairLog s c detail).pending = s.pending ∧ (repairLog s c detail).trust = s.trust := by
  simp [repairLog]

@[simp] theorem freezeQueue_fixed (s : State) (p : PortId) (q st tag : Nat) :
    (freezeQueue s p q st tag).pending = s.pending ∧ (freezeQueue s p q st tag).trust = s.trust := by
  unfold freezeQueue
  try dsimp only
  constructor <;> repeat' (first | with_reducible rfl | simp [ite_pending, ite_trust, -ite_eq_left_iff] | split)

@[simp] theorem portLog_fixed (s : State) (p : PortId) (origin queue tag : Nat) (st : Option Status) (opcode : Nat) (coll : BitVec 32) (epoch : Nat) (c : Cause) :
    (portLog s p origin queue tag st opcode coll epoch c).pending = s.pending ∧ (portLog s p origin queue tag st opcode coll epoch c).trust = s.trust := by
  simp [portLog]

@[simp] theorem closeEvent_fixed (s : State) (always : Bool) (z : Cause) :
    (closeEvent s always z).pending = s.pending ∧ (closeEvent s always z).trust = s.trust := by
  unfold closeEvent
  try dsimp only
  constructor <;> repeat' (first | with_reducible rfl | simp [ite_pending, ite_trust, -ite_eq_left_iff] | split)

@[simp] theorem oneEvent_pending {f : State → State} (h : ∀ u, (f u).pending = u.pending) (s : State) (always : Bool) (z : Cause) :
    (oneEvent s always z f).pending = s.pending := by
  unfold oneEvent
  split <;> simp [h]
@[simp] theorem oneEvent_trust {f : State → State} (h : ∀ u, (f u).trust = u.trust) (s : State) (always : Bool) (z : Cause) :
    (oneEvent s always z f).trust = s.trust := by
  unfold oneEvent
  split <;> simp [h]

@[simp] theorem logEnd_fixed (s : State) (e : LogEntry) :
    (logEnd s e).pending = s.pending ∧ (logEnd s e).trust = s.trust := by
  unfold logEnd
  try dsimp only
  constructor <;> repeat' (first | with_reducible rfl | simp [ite_pending, ite_trust, -ite_eq_left_iff] | split)

@[simp] theorem mailboxRespond_fixed (s : State) (p : PortId) (m : Nat) (c : Cmd) (k : Completion) (out : List Byte) :
    (mailboxRespond s p m c k out).pending = s.pending ∧ (mailboxRespond s p m c k out).trust = s.trust := by
  unfold mailboxRespond
  try dsimp only
  constructor <;> repeat' (first | with_reducible rfl | simp [ite_pending, ite_trust, -ite_eq_left_iff] | split)

@[simp] theorem sidebandRespond_fixed (s : State) (c : Cmd) (k : Completion) (out : List Byte) :
    (sidebandRespond s c k out).pending = s.pending ∧ (sidebandRespond s c k out).trust = s.trust := by
  simp [sidebandRespond]

@[simp] theorem sendPacket_fixed (s : State) (k : Packet) :
    (sendPacket s k).pending = s.pending ∧ (sendPacket s k).trust = s.trust := by
  unfold sendPacket
  try dsimp only
  constructor <;> repeat' (first | with_reducible rfl | simp [ite_pending, ite_trust, -ite_eq_left_iff] | split)

@[simp] theorem openPeer_fixed (s : State) (dest : Nat) (w : PeerWaiter) :
    (openPeer s dest w).pending = s.pending ∧ (openPeer s dest w).trust = s.trust := by
  simp [openPeer]

@[simp] theorem sendData_fixed (s : State) (type dest txn : Nat) (payload : List Byte) :
    (sendData s type dest txn payload).pending = s.pending ∧ (sendData s type dest txn payload).trust = s.trust := by
  unfold sendData
  try dsimp only
  constructor <;> repeat' (first | with_reducible rfl | simp (disch := (intros; repeat' (first | with_reducible rfl | simp [ite_pending, ite_trust, -ite_eq_left_iff] | split))) [foldl_pending, foldl_trust, ite_pending, ite_trust, -ite_eq_left_iff] | split)

@[simp] theorem logStatus_fixed (s : State) (c : Cmd) (k : Completion) (z : Cause) :
    (logStatus s c k z).1.pending = s.pending ∧ (logStatus s c k z).1.trust = s.trust := by
  unfold logStatus
  try dsimp only
  constructor <;> repeat' (first | with_reducible rfl | simp [ite_pending, ite_trust, -ite_eq_left_iff] | split)

@[simp] theorem releasePins_fixed (s : State) (c : Cmd) :
    (releasePins s c).pending = s.pending ∧ (releasePins s c).trust = s.trust := by
  unfold releasePins
  try dsimp only
  constructor <;> repeat' (first | with_reducible rfl | simp [ite_pending, ite_trust, -ite_eq_left_iff] | split)

@[simp] theorem leaveBatches_fixed (s : State) (n : Nat) :
    (leaveBatches s n).pending = s.pending ∧ (leaveBatches s n).trust = s.trust := by
  simp [leaveBatches]

@[simp] theorem releaseStaging_fixed (s : State) (n : Nat) (c : Cmd) :
    (releaseStaging s n c).pending = s.pending ∧ (releaseStaging s n c).trust = s.trust := by
  simp [releaseStaging]

@[simp] theorem dropRuns_fixed (s : State) (n : Nat) :
    (dropRuns s n).pending = s.pending ∧ (dropRuns s n).trust = s.trust := by
  simp [dropRuns]

@[simp] theorem deliver_fixed (s : State) (n : Nat) (c : Cmd) (k : Completion) (res : List Byte) :
    (deliver s n c k res).pending = s.pending ∧ (deliver s n c k res).trust = s.trust := by
  unfold deliver
  try dsimp only
  constructor <;> repeat' (first | with_reducible rfl | simp [ite_pending, ite_trust, -ite_eq_left_iff] | split)

@[simp] theorem cancelShards_fixed (s : State) (n : Nat) (c : Cmd) :
    (cancelShards s n c).pending = s.pending ∧ (cancelShards s n c).trust = s.trust := by
  unfold cancelShards
  try dsimp only
  constructor <;> repeat' (first | with_reducible rfl | simp (disch := (intros; repeat' (first | with_reducible rfl | simp [ite_pending, ite_trust, -ite_eq_left_iff] | split))) [foldl_pending, foldl_trust, ite_pending, ite_trust, -ite_eq_left_iff] | split)

@[simp] theorem decide__fixed (s : State) (n : Nat) (k : Completion) (res : List Byte) (unit : Nat) (z : Cause) :
    (decide_ s n k res unit z).pending = s.pending ∧ (decide_ s n k res unit z).trust = s.trust := by
  unfold decide_
  try dsimp only
  constructor <;> repeat' (first | with_reducible rfl | simp [ite_pending, ite_trust, -ite_eq_left_iff] | split)

@[simp] theorem fail_fixed (s : State) (n : Nat) (st : Status) (z : Cause) :
    (fail s n st z).pending = s.pending ∧ (fail s n st z).trust = s.trust := by
  simp [fail]

@[simp] theorem failAll_fixed (s : State) (ns : List Nat) (st : Status) (z : Cause) :
    (failAll s ns st z).pending = s.pending ∧ (failAll s ns st z).trust = s.trust := by
  unfold failAll
  try dsimp only
  constructor <;> repeat' (first | with_reducible rfl | simp (disch := (intros; repeat' (first | with_reducible rfl | simp (disch := (intros; repeat' (first | with_reducible rfl | simp [ite_pending, ite_trust, -ite_eq_left_iff] | split))) [foldl_pending, foldl_trust, ite_pending, ite_trust, -ite_eq_left_iff] | split))) [foldl_pending, foldl_trust, ite_pending, ite_trust, -ite_eq_left_iff] | split)

@[simp] theorem succeed_fixed (s : State) (n : Nat) (k : Completion) :
    (succeed s n k).pending = s.pending ∧ (succeed s n k).trust = s.trust := by
  simp [succeed]

@[simp] theorem succeedWith_fixed (s : State) (n : Nat) (k : Completion) (res : List Byte) :
    (succeedWith s n k res).pending = s.pending ∧ (succeedWith s n k res).trust = s.trust := by
  simp [succeedWith]

@[simp] theorem settleAborts_fixed (s : State) (n : Nat) (st : Status) :
    (settleAborts s n st).pending = s.pending ∧ (settleAborts s n st).trust = s.trust := by
  unfold settleAborts
  try dsimp only
  constructor <;> repeat' (first | with_reducible rfl | simp (disch := (intros; repeat' (first | with_reducible rfl | simp [ite_pending, ite_trust, -ite_eq_left_iff] | split))) [foldl_pending, foldl_trust, ite_pending, ite_trust, -ite_eq_left_iff] | split)

@[simp] theorem settleDelete_fixed (s : State) (p : PortId) (q : Nat) :
    (settleDelete s p q).pending = s.pending ∧ (settleDelete s p q).trust = s.trust := by
  unfold settleDelete
  try dsimp only
  constructor <;> repeat' (first | with_reducible rfl | simp (disch := (intros; repeat' (first | with_reducible rfl | simp [ite_pending, ite_trust, -ite_eq_left_iff] | split))) [foldl_pending, foldl_trust, ite_pending, ite_trust, -ite_eq_left_iff] | split)

@[simp] theorem addCmd_fixed (s : State) (c : Cmd) :
    (addCmd s c).pending = s.pending ∧ (addCmd s c).trust = s.trust := by
  simp [addCmd]

@[simp] theorem doorbellError_fixed (s : State) (p : PortId) (q v : Nat) :
    (doorbellError s p q v).pending = s.pending ∧ (doorbellError s p q v).trust = s.trust := by
  unfold doorbellError
  try dsimp only
  constructor <;> repeat' (first | with_reducible rfl | simp [ite_pending, ite_trust, -ite_eq_left_iff] | split)

@[simp] theorem sqTailEffect_fixed (s : State) (p : PortId) (q v : Nat) (narrow : Bool) :
    (sqTailEffect s p q v narrow).pending = s.pending ∧ (sqTailEffect s p q v narrow).trust = s.trust := by
  unfold sqTailEffect
  try dsimp only
  constructor <;> repeat' (first | with_reducible rfl | simp [ite_pending, ite_trust, -ite_eq_left_iff] | split)

@[simp] theorem cqHeadEffect_fixed (s : State) (p : PortId) (q v : Nat) (narrow : Bool) :
    (cqHeadEffect s p q v narrow).pending = s.pending ∧ (cqHeadEffect s p q v narrow).trust = s.trust := by
  unfold cqHeadEffect
  try dsimp only
  constructor <;> repeat' (first | with_reducible rfl | simp [ite_pending, ite_trust, -ite_eq_left_iff] | split)

theorem execSqTail_fixed (p : PortId) (q : Nat) (v : Word) (narrow : Bool) (s : State) {u : State} (h : execSqTail p q v narrow s = .next u) :
    u.pending = s.pending ∧ u.trust = s.trust := by
  unfold execSqTail at h; obtain rfl | rfl := occurs_next h <;> simp

theorem execCqHead_fixed (p : PortId) (q : Nat) (v : Word) (narrow : Bool) (s : State) {u : State} (h : execCqHead p q v narrow s = .next u) :
    u.pending = s.pending ∧ u.trust = s.trust := by
  unfold execCqHead at h; obtain rfl | rfl := occurs_next h <;> simp

@[simp] theorem enableEffect_fixed (s : State) (p : PortId) :
    (enableEffect s p).pending = s.pending ∧ (enableEffect s p).trust = s.trust := by
  simp [enableEffect]

theorem execEnable_fixed (p : PortId) (s : State) {u : State} (h : execEnable p s = .next u) :
    u.pending = s.pending ∧ u.trust = s.trust := by
  unfold execEnable at h; obtain rfl | rfl := occurs_next h <;> simp

theorem execQuiesce_fixed (p : PortId) (v : Bool) (s : State) {u : State} (h : execQuiesce p v s = .next u) :
    u.pending = s.pending ∧ u.trust = s.trust := by
  unfold execQuiesce at h; obtain rfl | rfl := occurs_next h <;> simp

@[simp] theorem eventClearEffect_fixed (s : State) (p : PortId) (mask : BitVec 6) (arising : BitVec 6) :
    (eventClearEffect s p mask arising).pending = s.pending ∧ (eventClearEffect s p mask arising).trust = s.trust := by
  unfold eventClearEffect
  try dsimp only
  constructor <;> repeat' (first | with_reducible rfl | simp (disch := (intros; repeat' (first | with_reducible rfl | simp [ite_pending, ite_trust, -ite_eq_left_iff] | split))) [foldl_pending, foldl_trust, ite_pending, ite_trust, -ite_eq_left_iff] | split)

theorem execEventStatusClear_fixed (p : PortId) (mask : Word) (arising : BitVec 6) (s : State) {u : State} (h : execEventStatusClear p mask arising s = .next u) :
    u.pending = s.pending ∧ u.trust = s.trust := by
  unfold execEventStatusClear at h; obtain rfl | rfl := occurs_next h <;> simp

@[simp] theorem eventMaskEffect_fixed (s : State) (p : PortId) (mask : BitVec 6) :
    (eventMaskEffect s p mask).pending = s.pending ∧ (eventMaskEffect s p mask).trust = s.trust := by
  unfold eventMaskEffect
  try dsimp only
  constructor <;> repeat' (first | with_reducible rfl | simp (disch := (intros; repeat' (first | with_reducible rfl | simp [ite_pending, ite_trust, -ite_eq_left_iff] | split))) [foldl_pending, foldl_trust, ite_pending, ite_trust, -ite_eq_left_iff] | split)

theorem execEventMaskWrite_fixed (p : PortId) (mask : Word) (s : State) {u : State} (h : execEventMaskWrite p mask s = .next u) :
    u.pending = s.pending ∧ u.trust = s.trust := by
  unfold execEventMaskWrite at h; obtain rfl | rfl := occurs_next h <;> simp

@[simp] theorem islandReadEffect_fixed (s : State) (p : PortId) :
    (islandReadEffect s p).pending = s.pending ∧ (islandReadEffect s p).trust = s.trust := by
  simp [islandReadEffect]

theorem execIslandCountLoRead_fixed (p : PortId) (s : State) {u : State} (h : execIslandCountLoRead p s = .next u) :
    u.pending = s.pending ∧ u.trust = s.trust := by
  unfold execIslandCountLoRead at h; obtain rfl | rfl := occurs_next h <;> simp

@[simp] theorem submitEffect_fixed (s : State) (p : PortId) (m : Nat) (ctrl : Word) :
    (submitEffect s p m ctrl).pending = s.pending ∧ (submitEffect s p m ctrl).trust = s.trust := by
  simp [submitEffect]

theorem execMailboxSubmit_fixed (p : PortId) (m : Nat) (ctrl : Word) (s : State) {u : State} (h : execMailboxSubmit p m ctrl s = .next u) :
    u.pending = s.pending ∧ u.trust = s.trust := by
  unfold execMailboxSubmit at h; obtain rfl | rfl := occurs_next h <;> simp

@[simp] theorem sendPending_fixed (s : State) (p : PortId) (vs : List Nat) :
    (sendPending s p vs).pending = s.pending ∧ (sendPending s p vs).trust = s.trust := by
  unfold sendPending
  try dsimp only
  constructor <;> repeat' (first | with_reducible rfl | simp (disch := (intros; repeat' (first | with_reducible rfl | simp [ite_pending, ite_trust, -ite_eq_left_iff] | split))) [foldl_pending, foldl_trust, ite_pending, ite_trust, -ite_eq_left_iff] | split)

@[simp] theorem unmaskEffect_fixed (s : State) (p : PortId) (x : Unmask) :
    (unmaskEffect s p x).pending = s.pending ∧ (unmaskEffect s p x).trust = s.trust := by
  cases x <;> unfold unmaskEffect <;> constructor <;> repeat' (first | with_reducible rfl | simp (disch := (intros; repeat' (first | with_reducible rfl | simp [ite_pending, ite_trust, -ite_eq_left_iff] | split))) [foldl_pending, foldl_trust, ite_pending, ite_trust, -ite_eq_left_iff] | split)

theorem execMsixUnmask_fixed (p : PortId) (what : Unmask) (s : State) {u : State} (h : execMsixUnmask p what s = .next u) :
    u.pending = s.pending ∧ u.trust = s.trust := by
  unfold execMsixUnmask at h; obtain rfl | rfl := occurs_next h <;> simp

theorem execAggTime_fixed (p : PortId) (q : Nat) (s : State) {u : State} (h : execAggTime p q s = .next u) :
    u.pending = s.pending ∧ u.trust = s.trust := by
  unfold execAggTime at h; obtain rfl | rfl := occurs_next h <;> simp

@[simp] theorem bar0Write_fixed (s : State) (p : PortId) (off w arising : Nat) :
    (bar0Write s p off w arising).pending = s.pending ∧ (bar0Write s p off w arising).trust = s.trust := by
  unfold bar0Write; exact State.modPort_fixed ..

@[simp] theorem mbCtrlWrite_fixed (s : State) (p : PortId) (m off w arising : Nat) :
    (mbCtrlWrite s p m off w arising).pending = s.pending ∧ (mbCtrlWrite s p m off w arising).trust = s.trust := by
  simp [mbCtrlWrite]

@[simp] theorem mbBufWrite_fixed (s : State) (p : PortId) (m off : Nat) (bytes : List Byte) :
    (mbBufWrite s p m off bytes).pending = s.pending ∧ (mbBufWrite s p m off bytes).trust = s.trust := by
  simp [mbBufWrite]

@[simp] theorem bar0Effect_fixed (s : State) (p : PortId) (off : Nat) (b : List Byte) (arising : Nat) :
    (bar0Effect s p off b arising).pending = s.pending ∧ (bar0Effect s p off b arising).trust = s.trust := by
  unfold bar0Effect
  (repeat' split) <;> simp

@[simp] theorem bar2Effect_fixed (s : State) (p : PortId) (off : Nat) (bytes : List Byte) (arising : Nat) :
    (bar2Effect s p off bytes arising).pending = s.pending ∧ (bar2Effect s p off bytes arising).trust = s.trust := by
  unfold bar2Effect
  try dsimp only
  constructor <;> repeat' (first | with_reducible rfl | simp [ite_pending, ite_trust, -ite_eq_left_iff] | split)

@[simp] theorem chanWrite_fixed (s : State) (c off : Nat) (v : Word) (arising : Nat) :
    (chanWrite s c off v arising).pending = s.pending ∧ (chanWrite s c off v arising).trust = s.trust := by
  simp [chanWrite]

@[simp] theorem streamWrite_fixed (s : State) (q n off : Nat) (v : Word) (arising : Nat) :
    (streamWrite s q n off v arising).pending = s.pending ∧ (streamWrite s q n off v arising).trust = s.trust := by
  simp [streamWrite]

@[simp] theorem blockWrite_fixed (s : State) (addr : Nat) (v : Word) (arising : Nat) :
    (blockWrite s addr v arising).pending = s.pending ∧ (blockWrite s addr v arising).trust = s.trust := by
  unfold blockWrite
  try dsimp only
  constructor <;> repeat' (first | with_reducible rfl | simp [ite_pending, ite_trust, -ite_eq_left_iff] | split)

@[simp] theorem registerWriteEffect_fixed (s : State) (arising : Nat) (x : RegTarget) :
    (registerWriteEffect s arising x).pending = s.pending ∧ (registerWriteEffect s arising x).trust = s.trust := by
  cases x <;> unfold registerWriteEffect <;> dsimp only <;> split <;> simp

theorem execRegisterWrite_fixed (w : RegWrite) (s : State) {u : State} (h : execRegisterWrite w s = .next u) :
    u.pending = s.pending ∧ u.trust = s.trust := by
  unfold execRegisterWrite at h; obtain rfl | rfl := occurs_next h <;> simp

@[simp] theorem putLine_fixed (s : State) (slice line way : Nat) (x : List Sector) :
    (putLine s slice line way x).pending = s.pending ∧ (putLine s slice line way x).trust = s.trust := by
  simp [putLine]

@[simp] theorem cacheGet_fixed (s : State) (a n : Nat) (hint : Hint) :
    (cacheGet s a n hint).1.pending = s.pending ∧ (cacheGet s a n hint).1.trust = s.trust := by
  unfold cacheGet
  try dsimp only
  constructor <;> repeat' (first | with_reducible rfl | simp [ite_pending, ite_trust, -ite_eq_left_iff] | split)

@[simp] theorem cacheGetAll_fixed (n : Nat) (s : State) (a k : Nat) (h : Hint) :
    (cacheGetAll n s a k h).1.pending = s.pending ∧ (cacheGetAll n s a k h).1.trust = s.trust := by
  induction n generalizing s a k with
  | zero => unfold cacheGetAll; constructor <;> repeat' (first | with_reducible rfl | simp [ite_pending, ite_trust, -ite_eq_left_iff] | split)
  | succ n ih => unfold cacheGetAll; try dsimp only
                 constructor <;> repeat' (first | with_reducible rfl | simp (disch := (intros; repeat' (first | with_reducible rfl | simp [ite_pending, ite_trust, -ite_eq_left_iff, *] | split))) [foldl_pending, foldl_trust, ite_pending, ite_trust, -ite_eq_left_iff, *] | split)

@[simp] theorem granuleGet_fixed (s : State) (a : Nat) (keep : Bool) :
    (granuleGet s a keep).1.pending = s.pending ∧ (granuleGet s a keep).1.trust = s.trust := by
  unfold granuleGet
  try dsimp only
  constructor <;> repeat' (first | with_reducible rfl | simp (disch := (intros; repeat' (first | with_reducible rfl | simp [ite_pending, ite_trust, -ite_eq_left_iff] | split))) [foldl_pending, foldl_trust, ite_pending, ite_trust, -ite_eq_left_iff] | split)

@[simp] theorem pieceGet_fixed (s : State) (a n : Nat) (hint : Hint) :
    (pieceGet s a n hint).1.pending = s.pending ∧ (pieceGet s a n hint).1.trust = s.trust := by
  unfold pieceGet
  try dsimp only
  constructor <;> repeat' (first | with_reducible rfl | simp [ite_pending, ite_trust, -ite_eq_left_iff] | split)

@[simp] theorem atomicEffect_fixed (s : State) (op : AtomicOp) (g : AtomicArgs) (cmp : BitVec 64) :
    (atomicEffect s op g cmp).pending = s.pending ∧ (atomicEffect s op g cmp).trust = s.trust := by
  unfold atomicEffect
  generalize atomicOld s g.addr g.wide = o
  cases o with
  | none => simp
  | some old =>
    dsimp only
    generalize atomicBytes op g.wide old g.operand cmp = b
    generalize leBytes (atomicWidth g.wide) old.toNat = r
    split <;> simp

@[simp] theorem grantBlock_fixed (s : State) (slice block : Nat) (o : BlockOwner) :
    (grantBlock s slice block o).pending = s.pending ∧ (grantBlock s slice block o).trust = s.trust := by
  unfold grantBlock
  try dsimp only
  constructor <;> repeat' (first | with_reducible rfl | simp (disch := (intros; repeat' (first | with_reducible rfl | simp [ite_pending, ite_trust, -ite_eq_left_iff] | split))) [foldl_pending, foldl_trust, ite_pending, ite_trust, -ite_eq_left_iff] | split)

@[simp] theorem releaseBlock_fixed (s : State) (slice block : Nat) :
    (releaseBlock s slice block).pending = s.pending ∧ (releaseBlock s slice block).trust = s.trust := by
  simp [releaseBlock]

@[simp] theorem dropRegion_fixed (s : State) (n : Nat) (r : Region) :
    (dropRegion s n r).pending = s.pending ∧ (dropRegion s n r).trust = s.trust := by
  unfold dropRegion
  try dsimp only
  constructor <;> repeat' (first | with_reducible rfl | simp (disch := (intros; repeat' (first | with_reducible rfl | simp [ite_pending, ite_trust, -ite_eq_left_iff] | split))) [foldl_pending, foldl_trust, ite_pending, ite_trust, -ite_eq_left_iff] | split)

@[simp] theorem freeRegion_fixed (s : State) (n : Nat) (r : Region) :
    (freeRegion s n r).pending = s.pending ∧ (freeRegion s n r).trust = s.trust := by
  unfold freeRegion
  try dsimp only
  constructor <;> repeat' (first | with_reducible rfl | simp [ite_pending, ite_trust, -ite_eq_left_iff] | split)

@[simp] theorem localWrite_fixed (s : State) (core off : Nat) (b : List Byte) :
    (localWrite s core off b).pending = s.pending ∧ (localWrite s core off b).trust = s.trust := by
  simp [localWrite]

@[simp] theorem flashPut_fixed (s : State) (off : Nat) (b : List Byte) :
    (flashPut s off b).pending = s.pending ∧ (flashPut s off b).trust = s.trust := by
  simp [flashPut]

@[simp] theorem resetCmd_fixed (s : State) (n : Nat) (c : Cmd) :
    (resetCmd s n c).pending = s.pending ∧ (resetCmd s n c).trust = s.trust := by
  unfold resetCmd
  try dsimp only
  constructor <;> repeat' (first | with_reducible rfl | simp [ite_pending, ite_trust, -ite_eq_left_iff] | split)

@[simp] theorem freePortRegions_fixed (s : State) (p : PortId) :
    (freePortRegions s p).pending = s.pending ∧ (freePortRegions s p).trust = s.trust := by
  unfold freePortRegions
  try dsimp only
  constructor <;> repeat' (first | with_reducible rfl | simp (disch := (intros; repeat' (first | with_reducible rfl | simp [ite_pending, ite_trust, -ite_eq_left_iff] | split))) [foldl_pending, foldl_trust, ite_pending, ite_trust, -ite_eq_left_iff] | split)

@[simp] theorem replayTags_fixed (s : State) (x : Piece) :
    (replayTags s x).pending = s.pending ∧ (replayTags s x).trust = s.trust := by
  simp [replayTags]

@[simp] theorem abortHostPieces_fixed (s : State) (p : PortId) :
    (abortHostPieces s p).pending = s.pending ∧ (abortHostPieces s p).trust = s.trust := by
  unfold abortHostPieces
  try dsimp only
  constructor <;> repeat' (first | with_reducible rfl | simp (disch := (intros; repeat' (first | with_reducible rfl | simp [ite_pending, ite_trust, -ite_eq_left_iff] | split))) [foldl_pending, foldl_trust, ite_pending, ite_trust, -ite_eq_left_iff] | split)

@[simp] theorem portReset_fixed (s : State) (p : PortId) (queueOnly : Bool) :
    (portReset s p queueOnly).pending = s.pending ∧ (portReset s p queueOnly).trust = s.trust := by
  unfold portReset
  try dsimp only
  constructor <;> repeat' (first | with_reducible rfl | simp (disch := (intros; repeat' (first | with_reducible rfl | simp [ite_pending, ite_trust, -ite_eq_left_iff] | split))) [foldl_pending, foldl_trust, ite_pending, ite_trust, -ite_eq_left_iff] | split)

theorem execFundamentalReset_fixed (p : PortId) (s : State) {u : State} (h : execFundamentalReset p s = .next u) :
    u.pending = s.pending ∧ u.trust = s.trust := by
  unfold execFundamentalReset at h; obtain rfl | rfl := occurs_next h <;> simp

theorem execHotReset_fixed (p : PortId) (s : State) {u : State} (h : execHotReset p s = .next u) :
    u.pending = s.pending ∧ u.trust = s.trust := by
  unfold execHotReset at h; obtain rfl | rfl := occurs_next h <;> simp

theorem execDlDown_fixed (p : PortId) (s : State) {u : State} (h : execDlDown p s = .next u) :
    u.pending = s.pending ∧ u.trust = s.trust := by
  unfold execDlDown at h; obtain rfl | rfl := occurs_next h <;> simp

theorem execFunctionLevelReset_fixed (p : PortId) (s : State) {u : State} (h : execFunctionLevelReset p s = .next u) :
    u.pending = s.pending ∧ u.trust = s.trust := by
  unfold execFunctionLevelReset at h; obtain rfl | rfl := occurs_next h <;> simp

theorem execQueueReset_fixed (p : PortId) (s : State) {u : State} (h : execQueueReset p s = .next u) :
    u.pending = s.pending ∧ u.trust = s.trust := by
  unfold execQueueReset at h; obtain rfl | rfl := occurs_next h <;> simp

@[simp] theorem portResetEndEffect_fixed (s : State) (p : PortId) :
    (portResetEndEffect s p).pending = s.pending ∧ (portResetEndEffect s p).trust = s.trust := by
  unfold portResetEndEffect
  try dsimp only
  constructor <;> repeat' (first | with_reducible rfl | simp [ite_pending, ite_trust, -ite_eq_left_iff] | split)

theorem execPortResetEnd_fixed (p : PortId) (s : State) {u : State} (h : execPortResetEnd p s = .next u) :
    u.pending = s.pending ∧ u.trust = s.trust := by
  unfold execPortResetEnd at h; obtain rfl | rfl := occurs_next h <;> simp

@[simp] theorem configEffect_fixed (s : State) (p : PortId) (r : CfgReq) :
    (configEffect s p r).pending = s.pending ∧ (configEffect s p r).trust = s.trust := by
  unfold configEffect
  try dsimp only
  constructor <;> repeat' (first | with_reducible rfl | simp [ite_pending, ite_trust, -ite_eq_left_iff] | split)

theorem execConfigRequest_fixed (p : PortId) (r : CfgReq) (s : State) {u : State} (h : execConfigRequest p r s = .next u) :
    u.pending = s.pending ∧ u.trust = s.trust := by
  unfold execConfigRequest at h; obtain rfl | rfl := occurs_next h <;> simp

@[simp] theorem releaseWaiting_fixed (s : State) (p : PortId) :
    (releaseWaiting s p).pending = s.pending ∧ (releaseWaiting s p).trust = s.trust := by
  simp [releaseWaiting]

theorem execD3hotEntry_fixed (p : PortId) (s : State) {u : State} (h : execD3hotEntry p s = .next u) :
    u.pending = s.pending ∧ u.trust = s.trust := by
  unfold execD3hotEntry at h; obtain rfl | rfl := occurs_next h <;> simp

theorem execD0Return_fixed (p : PortId) (s : State) {u : State} (h : execD0Return p s = .next u) :
    u.pending = s.pending ∧ u.trust = s.trust := by
  unfold execD0Return at h; obtain rfl | rfl := occurs_next h <;> simp

theorem execBusMasterEnable_fixed (p : PortId) (on : Bool) (s : State) {u : State} (h : execBusMasterEnable p on s = .next u) :
    u.pending = s.pending ∧ u.trust = s.trust := by
  unfold execBusMasterEnable at h; obtain rfl | rfl := occurs_next h <;> simp

theorem execPoisonedWrite_fixed (p : PortId) (s : State) {u : State} (h : execPoisonedWrite p s = .next u) :
    u.pending = s.pending ∧ u.trust = s.trust := by
  unfold execPoisonedWrite at h; obtain rfl | rfl := occurs_next h <;> simp

theorem execUnsupportedRequest_fixed (p : PortId) (s : State) {u : State} (h : execUnsupportedRequest p s = .next u) :
    u.pending = s.pending ∧ u.trust = s.trust := by
  unfold execUnsupportedRequest at h; obtain rfl | rfl := occurs_next h <;> simp

@[simp] theorem countLookup_fixed (s : State) (p : PortId) (r : Lookup) :
    (countLookup s p r).pending = s.pending ∧ (countLookup s p r).trust = s.trust := by
  unfold countLookup
  try dsimp only
  constructor <;> repeat' (first | with_reducible rfl | simp [ite_pending, ite_trust, -ite_eq_left_iff] | split)

@[simp] theorem askTranslation_fixed (s : State) (p : PortId) (a n : Nat) :
    (askTranslation s p a n).pending = s.pending ∧ (askTranslation s p a n).trust = s.trust := by
  unfold askTranslation
  try dsimp only
  constructor <;> repeat' (first | with_reducible rfl | simp [ite_pending, ite_trust, -ite_eq_left_iff] | split)

@[simp] theorem askNext_fixed (s : State) (p : PortId) :
    (askNext s p).pending = s.pending ∧ (askNext s p).trust = s.trust := by
  unfold askNext
  try dsimp only
  constructor <;> repeat' (first | with_reducible rfl | simp (disch := (intros; repeat' (first | with_reducible rfl | simp [ite_pending, ite_trust, -ite_eq_left_iff] | split))) [foldl_pending, foldl_trust, ite_pending, ite_trust, -ite_eq_left_iff] | split)

@[simp] theorem pieceErr_fixed (s : State) (n code : Nat) :
    (pieceErr s n code).pending = s.pending ∧ (pieceErr s n code).trust = s.trust := by
  unfold pieceErr
  try dsimp only
  constructor <;> repeat' (first | with_reducible rfl | simp [ite_pending, ite_trust, -ite_eq_left_iff] | split)

@[simp] theorem joinPage_fixed (s : State) (p : PortId) (n a : Nat) (write : Bool) :
    (joinPage s p n a write).pending = s.pending ∧ (joinPage s p n a write).trust = s.trust := by
  unfold joinPage
  try dsimp only
  constructor <;> repeat' (first | with_reducible rfl | simp [ite_pending, ite_trust, -ite_eq_left_iff] | split)

@[simp] theorem alleyFault_fixed (s : State) (p : PortId) (k a : Nat) (write : Bool) :
    (alleyFault s p k a write).pending = s.pending ∧ (alleyFault s p k a write).trust = s.trust := by
  unfold alleyFault
  try dsimp only
  constructor <;> repeat' (first | with_reducible rfl | simp [ite_pending, ite_trust, -ite_eq_left_iff] | split)

@[simp] theorem enterFaultWait_fixed (s : State) (q n : Nat) :
    (enterFaultWait s q n).pending = s.pending ∧ (enterFaultWait s q n).trust = s.trust := by
  simp [enterFaultWait]

@[simp] theorem pieceFault_fixed (s : State) (p : PortId) (n a : Nat) (write : Bool) :
    (pieceFault s p n a write).pending = s.pending ∧ (pieceFault s p n a write).trust = s.trust := by
  unfold pieceFault
  try dsimp only
  constructor <;> repeat' (first | with_reducible rfl | simp [ite_pending, ite_trust, -ite_eq_left_iff] | split)

@[simp] theorem addDtc_fixed (s : State) (p : PortId) (e : DtcEntry) :
    (addDtc s p e).pending = s.pending ∧ (addDtc s p e).trust = s.trust := by
  unfold addDtc
  try dsimp only
  constructor <;> repeat' (first | with_reducible rfl | simp [ite_pending, ite_trust, -ite_eq_left_iff] | split)

@[simp] theorem appendHot_fixed (s : State) (p : PortId) (page count : Nat) :
    (appendHot s p page count).pending = s.pending ∧ (appendHot s p page count).trust = s.trust := by
  simp [appendHot]

@[simp] theorem hotCount_fixed (s : State) (p : PortId) (a : Nat) :
    (hotCount s p a).pending = s.pending ∧ (hotCount s p a).trust = s.trust := by
  unfold hotCount
  try dsimp only
  constructor <;> repeat' (first | with_reducible rfl | simp [ite_pending, ite_trust, -ite_eq_left_iff] | split)

@[simp] theorem hotCountAll_fixed (s : State) (p : PortId) (write : Bool) (a n : Nat) :
    (hotCountAll s p write a n).pending = s.pending ∧ (hotCountAll s p write a n).trust = s.trust := by
  unfold hotCountAll
  try dsimp only
  constructor <;> repeat' (first | with_reducible rfl | simp (disch := (intros; repeat' (first | with_reducible rfl | simp [ite_pending, ite_trust, -ite_eq_left_iff] | split))) [foldl_pending, foldl_trust, ite_pending, ite_trust, -ite_eq_left_iff] | split)

@[simp] theorem emitWrites_fixed (s : State) (p : PortId) (w : Nat → List Byte → Bool → PortOut) (a : Nat) (b : List Byte) :
    (emitWrites s p w a b).pending = s.pending ∧ (emitWrites s p w a b).trust = s.trust := by
  unfold emitWrites
  try dsimp only
  constructor <;> repeat' (first | with_reducible rfl | simp (disch := (intros; repeat' (first | with_reducible rfl | simp [ite_pending, ite_trust, -ite_eq_left_iff] | split))) [foldl_pending, foldl_trust, ite_pending, ite_trust, -ite_eq_left_iff] | split)

@[simp] theorem emitReads_fixed (s : State) (p : PortId) (n a len : Nat) :
    (emitReads s p n a len).pending = s.pending ∧ (emitReads s p n a len).trust = s.trust := by
  unfold emitReads
  try dsimp only
  constructor <;> repeat' (first | with_reducible rfl | simp (disch := (intros; repeat' (first | with_reducible rfl | simp [ite_pending, ite_trust, -ite_eq_left_iff] | split))) [foldl_pending, foldl_trust, ite_pending, ite_trust, -ite_eq_left_iff] | split)

@[simp] theorem sendWrites_fixed (s : State) (p : PortId) (n a : Nat) (b : List Byte) :
    (sendWrites s p n a b).pending = s.pending ∧ (sendWrites s p n a b).trust = s.trust := by
  unfold sendWrites
  try dsimp only
  constructor <;> repeat' (first | with_reducible rfl | simp (disch := (intros; repeat' (first | with_reducible rfl | simp [ite_pending, ite_trust, -ite_eq_left_iff] | split))) [foldl_pending, foldl_trust, ite_pending, ite_trust, -ite_eq_left_iff] | split)

@[simp] theorem sendReads_fixed (s : State) (p : PortId) (n a len : Nat) :
    (sendReads s p n a len).pending = s.pending ∧ (sendReads s p n a len).trust = s.trust := by
  unfold sendReads
  try dsimp only
  constructor <;> repeat' (first | with_reducible rfl | simp (disch := (intros; repeat' (first | with_reducible rfl | simp [ite_pending, ite_trust, -ite_eq_left_iff] | split))) [foldl_pending, foldl_trust, ite_pending, ite_trust, -ite_eq_left_iff] | split)

@[simp] theorem sendAlleyHost_fixed (s : State) (k : Nat) :
    (sendAlleyHost s k).pending = s.pending ∧ (sendAlleyHost s k).trust = s.trust := by
  unfold sendAlleyHost
  try dsimp only
  constructor <;> repeat' (first | with_reducible rfl | simp [ite_pending, ite_trust, -ite_eq_left_iff] | split)

@[simp] theorem routeAlley_fixed (s : State) (k : Nat) :
    (routeAlley s k).pending = s.pending ∧ (routeAlley s k).trust = s.trust := by
  unfold routeAlley
  try dsimp only
  constructor <;> repeat' (first | with_reducible rfl | simp [ite_pending, ite_trust, -ite_eq_left_iff] | split)

@[simp] theorem hotPeriodEffect_fixed (s : State) (p : PortId) :
    (hotPeriodEffect s p).pending = s.pending ∧ (hotPeriodEffect s p).trust = s.trust := by
  simp [hotPeriodEffect]

theorem execHotPeriod_fixed (p : PortId) (s : State) {u : State} (h : execHotPeriod p s = .next u) :
    u.pending = s.pending ∧ u.trust = s.trust := by
  unfold execHotPeriod at h; obtain rfl | rfl := occurs_next h <;> simp

@[simp] theorem peerRead_fixed (s : State) (w off len : Nat) (k : PeerWaiter) :
    (peerRead s w off len k).pending = s.pending ∧ (peerRead s w off len k).trust = s.trust := by
  simp [peerRead]

@[simp] theorem peerWrite_fixed (s : State) (w off : Nat) (b : List Byte) (k : PeerWaiter) :
    (peerWrite s w off b k).pending = s.pending ∧ (peerWrite s w off b k).trust = s.trust := by
  simp [peerWrite]

@[simp] theorem notePage_fixed (s : State) (d w off : Nat) :
    (notePage s d w off).pending = s.pending ∧ (notePage s d w off).trust = s.trust := by
  unfold notePage
  try dsimp only
  constructor <;> repeat' (first | with_reducible rfl | simp [ite_pending, ite_trust, -ite_eq_left_iff] | split)

end Sys2Proof.Machine
end

