-- ==== Sys2Proof/Laws/FrameMovement.lean ====
section
/-! SUPPORT. Frames: what data movement, tiles, faults, the cache and HBM keep. Each lemma says of one operation that it keeps the queue of waiting commands
and the trust state; of an operation that may change the trust state, that it keeps the queue. -/

namespace Sys2Proof.Machine

open Sys2Proof
set_option linter.unusedSimpArgs false
set_option linter.unusedTactic false
set_option linter.unreachableTactic false
set_option linter.unnecessarySeqFocus false

theorem takePages_fixed {s u : State} {n align p : Nat} (h : takePages s n align = some (p, u)) : u.pending = s.pending ∧ u.trust = s.trust := by
  unfold takePages at h
  try dsimp only at h
  (repeat' split at h) <;> first | (cases h; done) | (cases h; constructor <;> repeat' (first | with_reducible rfl | simp (disch := (intros; repeat' (first | with_reducible rfl | simp [ite_pending, ite_trust, -ite_eq_left_iff] | split))) [foldl_pending, foldl_trust, ite_pending, ite_trust, -ite_eq_left_iff] | split))

@[simp] theorem givePages_fixed (s : State) (p n : Nat) :
    (givePages s p n).pending = s.pending ∧ (givePages s p n).trust = s.trust := by
  simp [givePages]

@[simp] theorem queueFlash_fixed (s : State) (page level : Nat) :
    (queueFlash s page level).pending = s.pending ∧ (queueFlash s page level).trust = s.trust := by
  unfold queueFlash
  try dsimp only
  constructor <;> repeat' (first | with_reducible rfl | simp [ite_pending, ite_trust, -ite_eq_left_iff] | split)

@[simp] theorem setTile_fixed (s : State) (t : Nat) (e : TileEntry) :
    (setTile s t e).pending = s.pending ∧ (setTile s t e).trust = s.trust := by
  simp [setTile]

theorem withMapPage_fixed {s u : State} {t : Nat} (h : withMapPage s t = some u) : u.pending = s.pending ∧ u.trust = s.trust := by
  unfold withMapPage at h
  split at h
  · cases h; exact ⟨rfl, rfl⟩
  · obtain ⟨⟨p, v⟩, hx, rfl⟩ := Option.map_eq_some_iff.mp h
    simp [takePages_fixed hx]

theorem addTiles_fixed {n : Nat} {s u : State} {o : Nat} {k : ObjKind} {ts : List Nat} (h : addTiles n s o k = some (ts, u)) : u.pending = s.pending ∧ u.trust = s.trust := by
  induction n generalizing s ts with
  | zero => unfold addTiles at h; cases h; exact ⟨rfl, rfl⟩
  | succ n ih =>
    unfold addTiles at h
    dsimp only at h
    split at h
    · cases h
    · rename_i hb
      obtain ⟨v, hv, hp⟩ := Option.bind_eq_some_iff.mp hb
      split at h
      · cases h
      · rename_i ha
        cases h
        simp [ih ha, takePages_fixed hp, withMapPage_fixed hv]

@[simp] theorem freeT4_fixed (s : State) (t : Nat) :
    (freeT4 s t).pending = s.pending ∧ (freeT4 s t).trust = s.trust := by
  simp [freeT4]

@[simp] theorem dropTile_fixed (s : State) (t : Nat) :
    (dropTile s t).pending = s.pending ∧ (dropTile s t).trust = s.trust := by
  unfold dropTile
  try dsimp only
  constructor <;> repeat' (first | with_reducible rfl | simp [ite_pending, ite_trust, -ite_eq_left_iff] | split)

@[simp] theorem dropTiles_fixed (s : State) (ts : List Nat) :
    (dropTiles s ts).pending = s.pending ∧ (dropTiles s ts).trust = s.trust := by
  unfold dropTiles
  try dsimp only
  constructor <;> repeat' (first | with_reducible rfl | simp (disch := (intros; repeat' (first | with_reducible rfl | simp [ite_pending, ite_trust, -ite_eq_left_iff] | split))) [foldl_pending, foldl_trust, ite_pending, ite_trust, -ite_eq_left_iff] | split)

theorem takeT4_fixed {s u : State} {ok : Nat → Bool} {t : Nat} (h : takeT4 s ok = some (t, u)) : u.pending = s.pending ∧ u.trust = s.trust := by
  unfold takeT4 at h
  try dsimp only at h
  (repeat' split at h) <;> first | (cases h; done) | (cases h; constructor <;> repeat' (first | with_reducible rfl | simp (disch := (intros; repeat' (first | with_reducible rfl | simp [ite_pending, ite_trust, -ite_eq_left_iff] | split))) [foldl_pending, foldl_trust, ite_pending, ite_trust, -ite_eq_left_iff] | split))

theorem takeMirrored_fixed {n : Nat} {s u : State} {a b : List Nat} (h : takeMirrored n s = some (a, b, u)) : u.pending = s.pending ∧ u.trust = s.trust := by
  induction n generalizing s a b with
  | zero => simp_all [takeMirrored]
  | succ n ih => unfold takeMirrored at h; grind [→ takeT4_fixed]

@[simp] theorem queueT4_fixed (s : State) (ts : List Nat) :
    (queueT4 s ts).pending = s.pending ∧ (queueT4 s ts).trust = s.trust := by
  simp [queueT4]

@[simp] theorem noteTileWrite_fixed (s : State) (t : Nat) :
    (noteTileWrite s t).pending = s.pending ∧ (noteTileWrite s t).trust = s.trust := by
  unfold noteTileWrite
  try dsimp only
  constructor <;> repeat' (first | with_reducible rfl | simp [ite_pending, ite_trust, -ite_eq_left_iff] | split)

@[simp] theorem gcColl_fixed (s : State) (i : Nat) :
    (gcColl s i).pending = s.pending ∧ (gcColl s i).trust = s.trust := by
  unfold gcColl
  try dsimp only
  constructor <;> repeat' (first | with_reducible rfl | simp [ite_pending, ite_trust, -ite_eq_left_iff] | split)

theorem newBlock_fixed {s u : State} {i b : Nat} (h : newBlock s i = some (b, u)) : u.pending = s.pending ∧ u.trust = s.trust := by
  unfold newBlock at h
  split at h
  · cases h
  · dsimp only at h
    split at h
    · cases h; exact ⟨rfl, rfl⟩
    · split at h
      · rename_i ha; cases h; simp [addTiles_fixed ha]
      · cases h

theorem ite_or {α : Type} {c : Prop} [Decidable c] {a b x : α} (h : (if c then a else b) = x) : a = x ∨ b = x := by
  split at h <;> simp_all

theorem growSegment_fixed {s : State} {i t : Nat} {u : State} (h : growSegment s i t = some u) : u.pending = s.pending ∧ u.trust = s.trust := by
  have block {v w : State} {f : Segment → Nat → Segment} (h : ((newBlock v i).map fun (b, v) =>
      v.modColl i fun c => { c with segs := Tab.adjust c.segs t fun g => f g b }) = some w) : w.pending = v.pending ∧ w.trust = v.trust := by
    obtain ⟨⟨b, x⟩, hx, rfl⟩ := Option.map_eq_some_iff.mp h
    simp [newBlock_fixed hx]
  unfold growSegment at h
  split at h
  · cases h; exact ⟨rfl, rfl⟩
  · dsimp only at h
    rename_i g _
    have first {v : State} (h : (if (g.tomb.isSome && g.tombAt.isNone) = true
        then (newBlock s i).map fun (b, s) => s.modColl i fun c => { c with segs := Tab.adjust c.segs t fun g => { g with tombAt := some b } }
        else some s) = some v) : v.pending = s.pending ∧ v.trust = s.trust := by
      split at h
      · exact block (f := fun g b => { g with tombAt := some b }) h
      · cases h; exact ⟨rfl, rfl⟩
    rcases ite_or h with h | h
    · obtain ⟨⟨b, x⟩, hx, rfl⟩ := Option.map_eq_some_iff.mp h
      obtain ⟨v, hv, hx⟩ := Option.bind_eq_some_iff.mp hx
      simp [newBlock_fixed hx, first hv]
    · exact first h

/-- A fold of changes that may fail keeps what each of them keeps. -/
theorem foldl_bind_fixed {α : Type} {g : State → α → Option State} (hg : ∀ {v w : State} {a : α}, g v a = some w → w.pending = v.pending ∧ w.trust = v.trust)
    {s u : State} {l : List α} {o : Option State} (ho : ∀ v, o = some v → v.pending = s.pending ∧ v.trust = s.trust)
    (h : l.foldl (fun o a => o.bind fun v => g v a) o = some u) : u.pending = s.pending ∧ u.trust = s.trust := by
  induction l generalizing o with
  | nil => exact ho u h
  | cons a l ih =>
    refine ih (fun v hv => ?_) h
    obtain ⟨w, hw, hv⟩ := Option.bind_eq_some_iff.mp hv
    simp [hg hv, ho w hw]

theorem growBlocks_fixed {s u : State} {i : Nat} (h : growBlocks s i = some u) : u.pending = s.pending ∧ u.trust = s.trust := by
  unfold growBlocks at h
  exact foldl_bind_fixed growSegment_fixed (fun v hv => by cases hv; exact ⟨rfl, rfl⟩) h

theorem newSegment_fixed {s u : State} {i t : Nat} {g : Segment} (h : newSegment s i g = some (t, u)) : u.pending = s.pending ∧ u.trust = s.trust := by
  unfold newSegment at h
  split at h
  · rename_i ha
    obtain ⟨v, hv, hr⟩ := Option.map_eq_some_iff.mp h
    cases hr
    simp [growSegment_fixed hv, addTiles_fixed ha]
  · cases h

theorem putFull_fixed {s u : State} {i : Nat} {c : Collection} {k : Nat} {b : List Byte} (h : putFull s i c k b = some u) : u.pending = s.pending ∧ u.trust = s.trust := by
  unfold putFull at h
  try dsimp only at h
  (repeat' split at h) <;> first | (cases h; done) | (cases h; constructor <;> repeat' (first | with_reducible rfl | simp (disch := (intros; repeat' (first | with_reducible rfl | simp [ite_pending, ite_trust, -ite_eq_left_iff] | split | simp only [addTiles_fixed (by assumption)]))) [foldl_pending, foldl_trust, ite_pending, ite_trust, -ite_eq_left_iff] | split | simp only [addTiles_fixed (by assumption)]))

@[simp] theorem putFull_getD_fixed (s : State) (i : Nat) (c : Collection) (k : Nat) (b : List Byte) :
    ((putFull s i c k b).getD s).pending = s.pending ∧ ((putFull s i c k b).getD s).trust = s.trust := by
  cases h : putFull s i c k b with
  | none => exact ⟨rfl, rfl⟩
  | some u => exact putFull_fixed h

theorem putTokens_fixed {s u : State} {i : Nat} {c : Collection} {k : Nat} {b : List (BitVec 32)} (h : putTokens s i c k b = some u) : u.pending = s.pending ∧ u.trust = s.trust := by
  unfold putTokens at h
  try dsimp only at h
  (repeat' split at h) <;> first | (cases h; done) | (cases h; constructor <;> repeat' (first | with_reducible rfl | simp (disch := (intros; repeat' (first | with_reducible rfl | simp [ite_pending, ite_trust, -ite_eq_left_iff] | split | simp only [addTiles_fixed (by assumption)]))) [foldl_pending, foldl_trust, ite_pending, ite_trust, -ite_eq_left_iff] | split | simp only [addTiles_fixed (by assumption)]))

@[simp] theorem putTokens_getD_fixed (s : State) (i : Nat) (c : Collection) (k : Nat) (b : List (BitVec 32)) :
    ((putTokens s i c k b).getD s).pending = s.pending ∧ ((putTokens s i c k b).getD s).trust = s.trust := by
  cases h : putTokens s i c k b with
  | none => exact ⟨rfl, rfl⟩
  | some u => exact putTokens_fixed h



@[simp] theorem objectLog_fixed (s : State) (kind : Nat) (handle : BitVec 32) (epoch loc detail : Nat) :
    (objectLog s kind handle epoch loc detail).pending = s.pending ∧ (objectLog s kind handle epoch loc detail).trust = s.trust := by
  simp [objectLog]

@[simp] theorem State.modSched_fixed (s : State) (i : Nat) (f : Sched → Sched) :
    (State.modSched s i f).pending = s.pending ∧ (State.modSched s i f).trust = s.trust := by
  simp [State.modSched]

@[simp] theorem State.modRun_fixed (s : State) (r : Nat) (f : Run → Run) :
    (State.modRun s r f).pending = s.pending ∧ (State.modRun s r f).trust = s.trust := by
  simp [State.modRun]

@[simp] theorem releaseBlocks_fixed (s : State) (o : BlockOwner) :
    (releaseBlocks s o).pending = s.pending ∧ (releaseBlocks s o).trust = s.trust := by
  unfold releaseBlocks
  try dsimp only
  constructor <;> repeat' (first | with_reducible rfl | simp (disch := (intros; repeat' (first | with_reducible rfl | simp [ite_pending, ite_trust, -ite_eq_left_iff] | split))) [foldl_pending, foldl_trust, ite_pending, ite_trust, -ite_eq_left_iff] | split)

@[simp] theorem State.settleClocks_fixed (s : State) :
    (State.settleClocks s).pending = s.pending ∧ (State.settleClocks s).trust = s.trust := by
  simp [State.settleClocks]

@[simp] theorem freeCores_fixed (s : State) (mine : Core → Bool) :
    (freeCores s mine).pending = s.pending ∧ (freeCores s mine).trust = s.trust := by
  simp [freeCores]

@[simp] theorem freeOne_fixed (s : State) (n : Nat) :
    (freeOne s n).pending = s.pending ∧ (freeOne s n).trust = s.trust := by
  simp [freeOne]

@[simp] theorem dropRun_fixed (s : State) (r : Nat) :
    (dropRun s r).pending = s.pending ∧ (dropRun s r).trust = s.trust := by
  unfold dropRun
  try dsimp only
  constructor <;> repeat' (first | with_reducible rfl | simp (disch := (intros; repeat' (first | with_reducible rfl | simp [ite_pending, ite_trust, -ite_eq_left_iff] | split))) [foldl_pending, foldl_trust, ite_pending, ite_trust, -ite_eq_left_iff] | split)

@[simp] theorem endRun_fixed (s : State) (r : Nat) (st : Status) (z : Cause) :
    (endRun s r st z).pending = s.pending ∧ (endRun s r st z).trust = s.trust := by
  unfold endRun
  try dsimp only
  constructor <;> repeat' (first | with_reducible rfl | simp [ite_pending, ite_trust, -ite_eq_left_iff] | split)

@[simp] theorem sendRunCtl_fixed (s : State) (d kind a b h : Nat) :
    (sendRunCtl s d kind a b h).pending = s.pending ∧ (sendRunCtl s d kind a b h).trust = s.trust := by
  simp [sendRunCtl]

@[simp] theorem tellFinish_fixed (s : State) (k : Nat) (r : Run) :
    (tellFinish s k r).pending = s.pending ∧ (tellFinish s k r).trust = s.trust := by
  unfold tellFinish
  try dsimp only
  constructor <;> repeat' (first | with_reducible rfl | simp (disch := (intros; repeat' (first | with_reducible rfl | simp [ite_pending, ite_trust, -ite_eq_left_iff] | split))) [foldl_pending, foldl_trust, ite_pending, ite_trust, -ite_eq_left_iff] | split)

@[simp] theorem endEverywhere_fixed (s : State) (k : Nat) (st : Status) (z : Cause) :
    (endEverywhere s k st z).pending = s.pending ∧ (endEverywhere s k st z).trust = s.trust := by
  unfold endEverywhere
  try dsimp only
  constructor <;> repeat' (first | with_reducible rfl | simp [ite_pending, ite_trust, -ite_eq_left_iff] | split)

@[simp] theorem clearBindings_fixed (s : State) (h : BitVec 32) :
    (clearBindings s h).pending = s.pending ∧ (clearBindings s h).trust = s.trust := by
  simp [clearBindings]

@[simp] theorem releaseSched_fixed (s : State) (i : Nat) (d : Sched) :
    (releaseSched s i d).pending = s.pending ∧ (releaseSched s i d).trust = s.trust := by
  unfold releaseSched
  try dsimp only
  constructor <;> repeat' (first | with_reducible rfl | simp [ite_pending, ite_trust, -ite_eq_left_iff] | split)

@[simp] theorem settleUnload_fixed (s : State) (i : Nat) :
    (settleUnload s i).pending = s.pending ∧ (settleUnload s i).trust = s.trust := by
  unfold settleUnload
  try dsimp only
  constructor <;> repeat' (first | with_reducible rfl | simp [ite_pending, ite_trust, -ite_eq_left_iff] | split)

@[simp] theorem settleUnloads_fixed (s : State) :
    (settleUnloads s).pending = s.pending ∧ (settleUnloads s).trust = s.trust := by
  unfold settleUnloads
  try dsimp only
  constructor <;> repeat' (first | with_reducible rfl | simp (disch := (intros; repeat' (first | with_reducible rfl | simp [ite_pending, ite_trust, -ite_eq_left_iff] | split))) [foldl_pending, foldl_trust, ite_pending, ite_trust, -ite_eq_left_iff] | split)

@[simp] theorem unloadSched_fixed (s : State) (i loc : Nat) :
    (unloadSched s i loc).pending = s.pending ∧ (unloadSched s i loc).trust = s.trust := by
  unfold unloadSched
  try dsimp only
  constructor <;> repeat' (first | with_reducible rfl | simp (disch := (intros; repeat' (first | with_reducible rfl | simp [ite_pending, ite_trust, -ite_eq_left_iff] | split))) [foldl_pending, foldl_trust, ite_pending, ite_trust, -ite_eq_left_iff] | split)

@[simp] theorem dropBatch_leaveAll_fixed (b : Nat) (s : State) :
    (dropBatch.leaveAll b s).pending = s.pending ∧ (dropBatch.leaveAll b s).trust = s.trust := ⟨rfl, rfl⟩

@[simp] theorem dropBatch_fixed (s : State) (b : Nat) : (dropBatch s b).pending = s.pending ∧ (dropBatch s b).trust = s.trust := by
  simp [dropBatch]

@[simp] theorem endBatch_fixed (s : State) (b : Nat) (st : Status) (z : Cause) :
    (endBatch s b st z).pending = s.pending ∧ (endBatch s b st z).trust = s.trust := by
  unfold endBatch
  try dsimp only
  constructor <;> repeat' (first | with_reducible rfl | simp [ite_pending, ite_trust, -ite_eq_left_iff] | split)

@[simp] theorem coreEvent_fixed (s : State) (n : Nat) (e : CoreEvent) :
    (coreEvent s n e).pending = s.pending ∧ (coreEvent s n e).trust = s.trust := by
  unfold coreEvent
  try dsimp only
  constructor <;> repeat' (first | with_reducible rfl | simp [ite_pending, ite_trust, -ite_eq_left_iff] | split)

@[simp] theorem programFault_fixed (s : State) (n : Nat) :
    (programFault s n).pending = s.pending ∧ (programFault s n).trust = s.trust := by
  unfold programFault
  try dsimp only
  constructor <;> repeat' (first | with_reducible rfl | simp [ite_pending, ite_trust, -ite_eq_left_iff] | split)

@[simp] theorem endReaders_fixed (s : State) (t : Nat) (st : Status) (z : Cause) :
    (endReaders s t st z).pending = s.pending ∧ (endReaders s t st z).trust = s.trust := by
  unfold endReaders
  try dsimp only
  constructor <;> repeat' (first | with_reducible rfl | simp (disch := (intros; repeat' (first | with_reducible rfl | simp (disch := (intros; repeat' (first | with_reducible rfl | simp [ite_pending, ite_trust, -ite_eq_left_iff] | split))) [foldl_pending, foldl_trust, ite_pending, ite_trust, -ite_eq_left_iff] | split))) [foldl_pending, foldl_trust, ite_pending, ite_trust, -ite_eq_left_iff] | split)

@[simp] theorem loseTile_fixed (s : State) (t : Nat) :
    (loseTile s t).pending = s.pending ∧ (loseTile s t).trust = s.trust := by
  unfold loseTile
  try dsimp only
  constructor <;> repeat' (first | with_reducible rfl | simp [ite_pending, ite_trust, -ite_eq_left_iff] | split)

@[simp] theorem loseAddress_fixed (s : State) (a : Nat) :
    (loseAddress s a).pending = s.pending ∧ (loseAddress s a).trust = s.trust := by
  unfold loseAddress
  try dsimp only
  constructor <;> repeat' (first | with_reducible rfl | simp (disch := (intros; repeat' (first | with_reducible rfl | simp [ite_pending, ite_trust, -ite_eq_left_iff] | split))) [foldl_pending, foldl_trust, ite_pending, ite_trust, -ite_eq_left_iff] | split)

@[simp] theorem failSourceReads_fixed (s : State) (a : Nat) :
    (failSourceReads s a).pending = s.pending ∧ (failSourceReads s a).trust = s.trust := by
  unfold failSourceReads
  try dsimp only
  constructor <;> repeat' (first | with_reducible rfl | simp (disch := (intros; repeat' (first | with_reducible rfl | simp [ite_pending, ite_trust, -ite_eq_left_iff] | split))) [foldl_pending, foldl_trust, ite_pending, ite_trust, -ite_eq_left_iff] | split)

@[simp] theorem copyGranule_fixed (s : State) (fromA toA : Nat) :
    (copyGranule s fromA toA).pending = s.pending ∧ (copyGranule s fromA toA).trust = s.trust := by
  unfold copyGranule
  try dsimp only
  constructor <;> repeat' (first | with_reducible rfl | simp (disch := (intros; repeat' (first | with_reducible rfl | simp [ite_pending, ite_trust, -ite_eq_left_iff] | split))) [foldl_pending, foldl_trust, ite_pending, ite_trust, -ite_eq_left_iff] | split)

@[simp] theorem retirePage_fixed (s : State) (page : Nat) (lost : BitVec 2) :
    (retirePage s page lost).pending = s.pending ∧ (retirePage s page lost).trust = s.trust := by
  unfold retirePage
  try dsimp only
  constructor <;> repeat' (first | with_reducible rfl | simp (disch := (intros; repeat' (first | with_reducible rfl | simp [ite_pending, ite_trust, -ite_eq_left_iff] | split))) [foldl_pending, foldl_trust, ite_pending, ite_trust, -ite_eq_left_iff] | split)

@[simp] theorem retireLogged_fixed (s : State) (page : Nat) (lost : BitVec 2) :
    (retireLogged s page lost).pending = s.pending ∧ (retireLogged s page lost).trust = s.trust := by
  unfold retireLogged
  try dsimp only
  constructor <;> repeat' (first | with_reducible rfl | simp (disch := (intros; repeat' (first | with_reducible rfl | simp [ite_pending, ite_trust, -ite_eq_left_iff] | split))) [foldl_pending, foldl_trust, ite_pending, ite_trust, -ite_eq_left_iff] | split)

@[simp] theorem retireWhenServed_fixed (s : State) (page : Nat) (lost : BitVec 2) :
    (retireWhenServed s page lost).pending = s.pending ∧ (retireWhenServed s page lost).trust = s.trust := by
  unfold retireWhenServed
  try dsimp only
  constructor <;> repeat' (first | with_reducible rfl | simp [ite_pending, ite_trust, -ite_eq_left_iff] | split)

@[simp] theorem retireLost_fixed (s : State) (a : Nat) :
    (retireLost s a).pending = s.pending ∧ (retireLost s a).trust = s.trust := by
  unfold retireLost
  try dsimp only
  constructor <;> repeat' (first | with_reducible rfl | simp [ite_pending, ite_trust, -ite_eq_left_iff] | split)

@[simp] theorem sectorFails_fixed (s : State) (a : Nat) :
    (sectorFails s a).pending = s.pending ∧ (sectorFails s a).trust = s.trust := by
  unfold sectorFails
  try dsimp only
  constructor <;> repeat' (first | with_reducible rfl | simp (disch := (intros; repeat' (first | with_reducible rfl | simp [ite_pending, ite_trust, -ite_eq_left_iff] | split))) [foldl_pending, foldl_trust, ite_pending, ite_trust, -ite_eq_left_iff] | split)

@[simp] theorem fatal_fixed (s : State) (kind loc detail : Nat) :
    (fatal s kind loc detail).pending = s.pending ∧ (fatal s kind loc detail).trust = s.trust := by
  simp [fatal]

@[simp] theorem runIsland_fixed (s : State) (i : Nat) :
    (runIsland s i).pending = s.pending ∧ (runIsland s i).trust = s.trust := by
  simp [runIsland]

@[simp] theorem settleCrossing_fixed (s : State) (c : Nat) :
    (settleCrossing s c).pending = s.pending ∧ (settleCrossing s c).trust = s.trust := by
  simp [settleCrossing]

@[simp] theorem runIslands_fixed (s : State) (is : List Nat) :
    (runIslands s is).pending = s.pending ∧ (runIslands s is).trust = s.trust := by
  unfold runIslands
  try dsimp only
  constructor <;> repeat' (first | with_reducible rfl | simp (disch := (intros; repeat' (first | with_reducible rfl | simp [ite_pending, ite_trust, -ite_eq_left_iff] | split))) [foldl_pending, foldl_trust, ite_pending, ite_trust, -ite_eq_left_iff] | split)

@[simp] theorem flushSlice_fixed (s : State) (n : Nat) :
    (flushSlice s n).pending = s.pending ∧ (flushSlice s n).trust = s.trust := by
  unfold flushSlice
  try dsimp only
  constructor <;> repeat' (first | with_reducible rfl | simp (disch := (intros; repeat' (first | with_reducible rfl | simp [ite_pending, ite_trust, -ite_eq_left_iff] | split))) [foldl_pending, foldl_trust, ite_pending, ite_trust, -ite_eq_left_iff] | split)

@[simp] theorem assignSubs_fixed (l : List Nat) (s : State) :
    (assignSubs l s).pending = s.pending ∧ (assignSubs l s).trust = s.trust := by
  induction l generalizing s with
  | nil => unfold assignSubs; constructor <;> repeat' (first | with_reducible rfl | simp (disch := (intros; repeat' (first | with_reducible rfl | simp [ite_pending, ite_trust, -ite_eq_left_iff] | split))) [foldl_pending, foldl_trust, ite_pending, ite_trust, -ite_eq_left_iff] | split)
  | cons a l ih => unfold assignSubs; try dsimp only
                   constructor <;> repeat' (first | with_reducible rfl | simp (disch := (intros; repeat' (first | with_reducible rfl | simp [ite_pending, ite_trust, -ite_eq_left_iff, *] | split))) [foldl_pending, foldl_trust, ite_pending, ite_trust, -ite_eq_left_iff, *] | split)

@[simp] theorem unloadUnfit_fixed (s : State) :
    (unloadUnfit s).pending = s.pending ∧ (unloadUnfit s).trust = s.trust := by
  unfold unloadUnfit
  try dsimp only
  constructor <;> repeat' (first | with_reducible rfl | simp (disch := (intros; repeat' (first | with_reducible rfl | simp [ite_pending, ite_trust, -ite_eq_left_iff] | split))) [foldl_pending, foldl_trust, ite_pending, ite_trust, -ite_eq_left_iff] | split)

@[simp] theorem dropStreams_fixed (s : State) (q : Nat) :
    (dropStreams s q).pending = s.pending ∧ (dropStreams s q).trust = s.trust := by
  unfold dropStreams
  try dsimp only
  constructor <;> repeat' (first | with_reducible rfl | simp (disch := (intros; repeat' (first | with_reducible rfl | simp [ite_pending, ite_trust, -ite_eq_left_iff] | split))) [foldl_pending, foldl_trust, ite_pending, ite_trust, -ite_eq_left_iff] | split)

@[simp] theorem endQuarterWork_fixed (s : State) (q : Nat) :
    (endQuarterWork s q).pending = s.pending ∧ (endQuarterWork s q).trust = s.trust := by
  unfold endQuarterWork
  try dsimp only
  constructor <;> repeat' (first | with_reducible rfl | simp (disch := (intros; repeat' (first | with_reducible rfl | simp (disch := (intros; repeat' (first | with_reducible rfl | simp [ite_pending, ite_trust, -ite_eq_left_iff] | split))) [foldl_pending, foldl_trust, ite_pending, ite_trust, -ite_eq_left_iff] | split))) [foldl_pending, foldl_trust, ite_pending, ite_trust, -ite_eq_left_iff] | split)

@[simp] theorem quarterOut_fixed (s : State) (q : Nat) :
    (quarterOut s q).pending = s.pending ∧ (quarterOut s q).trust = s.trust := by
  unfold quarterOut
  try dsimp only
  constructor <;> repeat' (first | with_reducible rfl | simp (disch := (intros; repeat' (first | with_reducible rfl | simp [ite_pending, ite_trust, -ite_eq_left_iff] | split))) [foldl_pending, foldl_trust, ite_pending, ite_trust, -ite_eq_left_iff] | split)

@[simp] theorem placeRuns_fixed (l : List (List Packed)) (s : State) (i list gen : Nat) (b : Bool) :
    (placeRuns l s i list gen b).1.pending = s.pending ∧ (placeRuns l s i list gen b).1.trust = s.trust := by
  induction l generalizing s with
  | nil => simp [placeRuns]
  | cons a l ih =>
    unfold placeRuns
    dsimp only
    split
    · exact ⟨rfl, rfl⟩
    · rename_i hn; simp [ih, newSegment_fixed hn]

@[simp] theorem loadImage_fixed (s : State) (i : Nat) (img : Image) :
    (loadImage s i img).pending = s.pending ∧ (loadImage s i img).trust = s.trust := by
  unfold loadImage
  try dsimp only
  constructor <;> repeat' (first | with_reducible rfl | simp (disch := (intros; repeat' (first | with_reducible rfl | simp [ite_pending, ite_trust, -ite_eq_left_iff] | split | simp only [putFull_fixed (by assumption)] | simp only [putTokens_fixed (by assumption)]))) [foldl_pending, foldl_trust, ite_pending, ite_trust, -ite_eq_left_iff] | split | simp only [putFull_fixed (by assumption)] | simp only [putTokens_fixed (by assumption)])

@[simp] theorem dropStage_fixed (s : State) (i : Nat) :
    (dropStage s i).pending = s.pending ∧ (dropStage s i).trust = s.trust := by
  unfold dropStage
  try dsimp only
  constructor <;> repeat' (first | with_reducible rfl | simp [ite_pending, ite_trust, -ite_eq_left_iff] | split)

theorem growIdMap_fixed {s : State} {i : Nat} {u : State} (h : growIdMap s i = some u) :
    u.pending = s.pending ∧ u.trust = s.trust := by
  unfold growIdMap at h
  try dsimp only at h
  (repeat' split at h) <;> first | (cases h; done) | (cases h; constructor <;> repeat' (first | with_reducible rfl | simp [ite_pending, ite_trust, -ite_eq_left_iff] | split | simp only [addTiles_fixed (by assumption)]))

theorem growIndex_fixed {s u : State} {i : Nat} (h : growIndex s i = some u) : u.pending = s.pending ∧ u.trust = s.trust := by
  unfold growIndex at h
  obtain ⟨v, hv, h⟩ := Option.bind_eq_some_iff.mp h
  simp [growBlocks_fixed h, growIdMap_fixed hv]

@[simp] theorem growIndex_getD_fixed (s : State) (i : Nat) :
    ((growIndex s i).getD s).pending = s.pending ∧ ((growIndex s i).getD s).trust = s.trust := by
  cases h : growIndex s i with
  | none => exact ⟨rfl, rfl⟩
  | some u => exact growIndex_fixed h

@[simp] theorem holdIndex_fixed (s : State) (i : Nat) (parked : Bool) :
    (holdIndex s i parked).pending = s.pending ∧ (holdIndex s i parked).trust = s.trust := by
  unfold holdIndex
  try dsimp only
  constructor <;> repeat' (first | with_reducible rfl | simp [ite_pending, ite_trust, -ite_eq_left_iff] | split | simp only [takePages_fixed (by assumption)] | simp only [addTiles_fixed (by assumption)] | simp only [growIndex_fixed (by assumption)])

@[simp] theorem restoreColl_fixed (s : State) (i : Nat) :
    (restoreColl s i).pending = s.pending ∧ (restoreColl s i).trust = s.trust := by
  unfold restoreColl
  try dsimp only
  constructor <;> repeat' (first | with_reducible rfl | simp (disch := (intros; repeat' (first | with_reducible rfl | simp [ite_pending, ite_trust, -ite_eq_left_iff] | split))) [foldl_pending, foldl_trust, ite_pending, ite_trust, -ite_eq_left_iff] | split)

@[simp] theorem advanceGen_fixed (s : State) (i : Nat) :
    (advanceGen s i).pending = s.pending ∧ (advanceGen s i).trust = s.trust := by
  unfold advanceGen
  try dsimp only
  constructor <;> repeat' (first | with_reducible rfl | simp [ite_pending, ite_trust, -ite_eq_left_iff] | split)

@[simp] theorem restoreLine_fixed (s : State) (i : Nat) :
    (restoreLine s i).pending = s.pending ∧ (restoreLine s i).trust = s.trust := by
  unfold restoreLine
  try dsimp only
  constructor <;> repeat' (first | with_reducible rfl | simp [ite_pending, ite_trust, -ite_eq_left_iff] | split)

@[simp] theorem controlLineLost_fixed (s : State) (i a : Nat) :
    (controlLineLost s i a).pending = s.pending ∧ (controlLineLost s i a).trust = s.trust := by
  unfold controlLineLost
  try dsimp only
  constructor <;> repeat' (first | with_reducible rfl | simp [ite_pending, ite_trust, -ite_eq_left_iff] | split)

@[simp] theorem settleStream_fixed (n : Nat) (s : State) (q k : Nat) :
    (settleStream n s q k).pending = s.pending ∧ (settleStream n s q k).trust = s.trust := by
  induction n generalizing s with
  | zero => unfold settleStream; constructor <;> repeat' (first | with_reducible rfl | simp [ite_pending, ite_trust, -ite_eq_left_iff] | split)
  | succ n ih => unfold settleStream; try dsimp only
                 constructor <;> repeat' (first | with_reducible rfl | simp (disch := (intros; repeat' (first | with_reducible rfl | simp [ite_pending, ite_trust, -ite_eq_left_iff, *] | split))) [foldl_pending, foldl_trust, ite_pending, ite_trust, -ite_eq_left_iff, *] | split)

@[simp] theorem ownerEnds_fixed (s : State) (o : Owner) (tag code : Nat) (z : Cause) :
    (ownerEnds s o tag code z).pending = s.pending ∧ (ownerEnds s o tag code z).trust = s.trust := by
  unfold ownerEnds
  try dsimp only
  constructor <;> repeat' (first | with_reducible rfl | simp [ite_pending, ite_trust, -ite_eq_left_iff] | split)

@[simp] theorem failDesc_fixed (s : State) (q n index code : Nat) :
    (failDesc s q n index code).pending = s.pending ∧ (failDesc s q n index code).trust = s.trust := by
  unfold failDesc
  try dsimp only
  constructor <;> repeat' (first | with_reducible rfl | simp [ite_pending, ite_trust, -ite_eq_left_iff] | split)

@[simp] theorem failJob_fixed (s : State) (q n index code : Nat) (z : Cause) :
    (failJob s q n index code z).pending = s.pending ∧ (failJob s q n index code z).trust = s.trust := by
  unfold failJob
  try dsimp only
  constructor <;> repeat' (first | with_reducible rfl | simp [ite_pending, ite_trust, -ite_eq_left_iff] | split)

@[simp] theorem checkBuffered_fixed (s : State) (q n : Nat) :
    (checkBuffered s q n).pending = s.pending ∧ (checkBuffered s q n).trust = s.trust := by
  unfold checkBuffered
  try dsimp only
  constructor <;> repeat' (first | with_reducible rfl | simp [ite_pending, ite_trust, -ite_eq_left_iff] | split)

@[simp] theorem settle_fixed (s : State) (q n : Nat) :
    (settle s q n).pending = s.pending ∧ (settle s q n).trust = s.trust := by
  simp [settle]

@[simp] theorem armResult_fixed (s : State) (q : Nat) (a : ArmReq) (code : Nat) :
    (armResult s q a code).pending = s.pending ∧ (armResult s q a code).trust = s.trust := by
  unfold armResult
  try dsimp only
  constructor <;> repeat' (first | with_reducible rfl | simp [ite_pending, ite_trust, -ite_eq_left_iff] | split)

@[simp] theorem grantArm_fixed (s : State) (q : Nat) (a : ArmReq) :
    (grantArm s q a).pending = s.pending ∧ (grantArm s q a).trust = s.trust := by
  unfold grantArm
  try dsimp only
  constructor <;> repeat' (first | with_reducible rfl | simp (disch := (intros; repeat' (first | with_reducible rfl | simp [ite_pending, ite_trust, -ite_eq_left_iff] | split))) [foldl_pending, foldl_trust, ite_pending, ite_trust, -ite_eq_left_iff] | split)

@[simp] theorem rearmStream_fixed (s : State) (q : Nat) (o : Owner) (a : ArmStream) :
    (rearmStream s q o a).pending = s.pending ∧ (rearmStream s q o a).trust = s.trust := by
  simp [rearmStream]

@[simp] theorem armEffect_fixed (s : State) (q : Nat) (a : ArmReq) :
    (armEffect s q a).pending = s.pending ∧ (armEffect s q a).trust = s.trust := by
  unfold armEffect
  try dsimp only
  constructor <;> repeat' (first | with_reducible rfl | simp [ite_pending, ite_trust, -ite_eq_left_iff] | split)

theorem execStreamArm_fixed (q : Nat) (a : ArmReq) (s : State) {u : State} (h : execStreamArm q a s = .next u) :
    u.pending = s.pending ∧ u.trust = s.trust := by
  unfold execStreamArm at h; obtain rfl | rfl := occurs_next h <;> simp

@[simp] theorem releaseStream_fixed (s : State) (q n : Nat) :
    (releaseStream s q n).pending = s.pending ∧ (releaseStream s q n).trust = s.trust := by
  unfold releaseStream
  try dsimp only
  constructor <;> repeat' (first | with_reducible rfl | simp (disch := (intros; repeat' (first | with_reducible rfl | simp [ite_pending, ite_trust, -ite_eq_left_iff] | split))) [foldl_pending, foldl_trust, ite_pending, ite_trust, -ite_eq_left_iff] | split)

@[simp] theorem stopOne_fixed (s : State) (q n : Nat) :
    (stopOne s q n).pending = s.pending ∧ (stopOne s q n).trust = s.trust := by
  simp [stopOne]

@[simp] theorem stopEffect_fixed (s : State) (q n : Nat) :
    (stopEffect s q n).pending = s.pending ∧ (stopEffect s q n).trust = s.trust := by
  unfold stopEffect
  try dsimp only
  constructor <;> repeat' (first | with_reducible rfl | simp [ite_pending, ite_trust, -ite_eq_left_iff] | split)

theorem execStreamStop_fixed (q : Nat) (w : StreamWrite) (s : State) {u : State} (h : execStreamStop q w s = .next u) :
    u.pending = s.pending ∧ u.trust = s.trust := by
  unfold execStreamStop at h; obtain rfl | rfl := occurs_next h <;> simp

@[simp] theorem resumeEffect_fixed (s : State) (q n : Nat) :
    (resumeEffect s q n).pending = s.pending ∧ (resumeEffect s q n).trust = s.trust := by
  unfold resumeEffect
  try dsimp only
  constructor <;> repeat' (first | with_reducible rfl | simp [ite_pending, ite_trust, -ite_eq_left_iff] | split)

theorem execStreamResume_fixed (q : Nat) (w : StreamWrite) (s : State) {u : State} (h : execStreamResume q w s = .next u) :
    u.pending = s.pending ∧ u.trust = s.trust := by
  unfold execStreamResume at h; obtain rfl | rfl := occurs_next h <;> simp

theorem execRingTailWrite_fixed (q : Nat) (w : StreamWrite) (tail : Nat) (s : State) {u : State} (h : execRingTailWrite q w tail s = .next u) :
    u.pending = s.pending ∧ u.trust = s.trust := by
  unfold execRingTailWrite at h; obtain rfl | rfl := occurs_next h <;> simp

@[simp] theorem fetchEffect_fixed (s : State) (q n : Nat) (bytes : List Byte) :
    (fetchEffect s q n bytes).pending = s.pending ∧ (fetchEffect s q n bytes).trust = s.trust := by
  unfold fetchEffect
  try dsimp only
  constructor <;> repeat' (first | with_reducible rfl | simp [ite_pending, ite_trust, -ite_eq_left_iff] | split)

theorem execDescriptorFetch_fixed (q n : Nat) (bytes : List Byte) (s : State) {u : State} (h : execDescriptorFetch q n bytes s = .next u) :
    u.pending = s.pending ∧ u.trust = s.trust := by
  unfold execDescriptorFetch at h; obtain rfl | rfl := occurs_next h <;> simp

@[simp] theorem startDesc_fixed (s : State) (q n : Nat) :
    (startDesc s q n).pending = s.pending ∧ (startDesc s q n).trust = s.trust := by
  unfold startDesc
  try dsimp only
  constructor <;> repeat' (first | with_reducible rfl | simp [ite_pending, ite_trust, -ite_eq_left_iff] | split)

theorem execCopy_fixed (q n : Nat) (s : State) {u : State} (h : execCopy q n s = .next u) :
    u.pending = s.pending ∧ u.trust = s.trust := by
  unfold execCopy at h; obtain rfl | rfl := occurs_next h <;> simp

theorem execFill_fixed (q n : Nat) (s : State) {u : State} (h : execFill q n s = .next u) :
    u.pending = s.pending ∧ u.trust = s.trust := by
  unfold execFill at h; obtain rfl | rfl := occurs_next h <;> simp

theorem execMarker_fixed (q n : Nat) (s : State) {u : State} (h : execMarker q n s = .next u) :
    u.pending = s.pending ∧ u.trust = s.trust := by
  unfold execMarker at h; obtain rfl | rfl := occurs_next h <;> simp

@[simp] theorem haveData_fixed (s : State) (n : Nat) (b : List Byte) :
    (haveData s n b).pending = s.pending ∧ (haveData s n b).trust = s.trust := by
  unfold haveData
  try dsimp only
  constructor <;> repeat' (first | with_reducible rfl | simp [ite_pending, ite_trust, -ite_eq_left_iff] | split)

@[simp] theorem sendPiece_fixed (s : State) (n : Nat) :
    (sendPiece s n).pending = s.pending ∧ (sendPiece s n).trust = s.trust := by
  unfold sendPiece
  try dsimp only
  constructor <;> repeat' (first | with_reducible rfl | simp [ite_pending, ite_trust, -ite_eq_left_iff] | split)

@[simp] theorem routePiece_fixed (s : State) (n : Nat) :
    (routePiece s n).pending = s.pending ∧ (routePiece s n).trust = s.trust := by
  unfold routePiece
  try dsimp only
  constructor <;> repeat' (first | with_reducible rfl | simp [ite_pending, ite_trust, -ite_eq_left_iff] | split)

@[simp] theorem takePiece_fixed (s : State) (q n index : Nat) :
    (takePiece s q n index).pending = s.pending ∧ (takePiece s q n index).trust = s.trust := by
  simp [takePiece]

@[simp] theorem crossPiece_fixed (s : State) (q : Nat) (k : PieceSpec) :
    (crossPiece s q k).pending = s.pending ∧ (crossPiece s q k).trust = s.trust := by
  unfold crossPiece
  try dsimp only
  constructor <;> repeat' (first | with_reducible rfl | simp [ite_pending, ite_trust, -ite_eq_left_iff] | split)

@[simp] theorem pieceIssueEffect_fixed (s : State) (q n : Nat) :
    (pieceIssueEffect s q n).pending = s.pending ∧ (pieceIssueEffect s q n).trust = s.trust := by
  unfold pieceIssueEffect
  try dsimp only
  constructor <;> repeat' (first | with_reducible rfl | simp [ite_pending, ite_trust, -ite_eq_left_iff] | split)

theorem execPieceIssue_fixed (q n : Nat) (s : State) {u : State} (h : execPieceIssue q n s = .next u) :
    u.pending = s.pending ∧ u.trust = s.trust := by
  unfold execPieceIssue at h; obtain rfl | rfl := occurs_next h <;> simp

@[simp] theorem settleDrains_fixed (s : State) :
    (settleDrains s).pending = s.pending ∧ (settleDrains s).trust = s.trust := by
  unfold settleDrains
  try dsimp only
  constructor <;> repeat' (first | with_reducible rfl | simp (disch := (intros; repeat' (first | with_reducible rfl | simp [ite_pending, ite_trust, -ite_eq_left_iff] | split))) [foldl_pending, foldl_trust, ite_pending, ite_trust, -ite_eq_left_iff] | split)

@[simp] theorem landPiece_fixed (s : State) (x : Piece) (b : List Byte) :
    (landPiece s x b).pending = s.pending ∧ (landPiece s x b).trust = s.trust := by
  unfold landPiece
  try dsimp only
  constructor <;> repeat' (first | with_reducible rfl | simp [ite_pending, ite_trust, -ite_eq_left_iff] | split)

@[simp] theorem noteT3Write_fixed (s : State) (window off : Nat) :
    (noteT3Write s window off).pending = s.pending ∧ (noteT3Write s window off).trust = s.trust := by
  unfold noteT3Write
  try dsimp only
  constructor <;> repeat' (first | with_reducible rfl | simp (disch := (intros; repeat' (first | with_reducible rfl | simp [ite_pending, ite_trust, -ite_eq_left_iff] | split))) [foldl_pending, foldl_trust, ite_pending, ite_trust, -ite_eq_left_iff] | split)

@[simp] theorem endPiece_fixed (s : State) (n : Nat) (x : Piece) :
    (endPiece s n x).pending = s.pending ∧ (endPiece s n x).trust = s.trust := by
  unfold endPiece
  try dsimp only
  constructor <;> repeat' (first | with_reducible rfl | simp [ite_pending, ite_trust, -ite_eq_left_iff] | split)

@[simp] theorem pieceCompleteEffect_fixed (s : State) (n : Nat) (x : Piece) :
    (pieceCompleteEffect s n x).pending = s.pending ∧ (pieceCompleteEffect s n x).trust = s.trust := by
  unfold pieceCompleteEffect
  try dsimp only
  constructor <;> repeat' (first | with_reducible rfl | simp [ite_pending, ite_trust, -ite_eq_left_iff] | split)

theorem execPieceComplete_fixed (piece : Nat) (s : State) {u : State} (h : execPieceComplete piece s = .next u) :
    u.pending = s.pending ∧ u.trust = s.trust := by
  unfold execPieceComplete at h
  try dsimp only at h
  (repeat' split at h) <;> first | (obtain rfl | rfl := occurs_next h <;> constructor <;> repeat' (first | with_reducible rfl | simp [ite_pending, ite_trust, -ite_eq_left_iff] | split)) | simp_all

@[simp] theorem hostReadFails_fixed (s : State) (p : PortId) (piece : Nat) (e : AerError) :
    (hostReadFails s p piece e).pending = s.pending ∧ (hostReadFails s p piece e).trust = s.trust := by
  unfold hostReadFails
  try dsimp only
  constructor <;> repeat' (first | with_reducible rfl | simp [ite_pending, ite_trust, -ite_eq_left_iff] | split)

theorem execCompletionTimeout_fixed (p : PortId) (piece : Nat) (s : State) {u : State} (h : execCompletionTimeout p piece s = .next u) :
    u.pending = s.pending ∧ u.trust = s.trust := by
  unfold execCompletionTimeout at h; obtain rfl | rfl := occurs_next h <;> simp

@[simp] theorem hostCompletionEffect_fixed (s : State) (p : PortId) (piece : Nat) (c : HostCpl) :
    (hostCompletionEffect s p piece c).pending = s.pending ∧ (hostCompletionEffect s p piece c).trust = s.trust := by
  unfold hostCompletionEffect
  try dsimp only
  constructor <;> repeat' (first | with_reducible rfl | simp [ite_pending, ite_trust, -ite_eq_left_iff] | split)

theorem execHostCompletion_fixed (p : PortId) (piece : Nat) (c : HostCpl) (s : State) {u : State} (h : execHostCompletion p piece c s = .next u) :
    u.pending = s.pending ∧ u.trust = s.trust := by
  unfold execHostCompletion at h; obtain rfl | rfl := occurs_next h <;> simp

@[simp] theorem replayPiece_fixed (s : State) (n : Nat) :
    (replayPiece s n).pending = s.pending ∧ (replayPiece s n).trust = s.trust := by
  unfold replayPiece
  try dsimp only
  constructor <;> repeat' (first | with_reducible rfl | simp [ite_pending, ite_trust, -ite_eq_left_iff] | split)

@[simp] theorem wakeStream_fixed (s : State) (q n : Nat) :
    (wakeStream s q n).pending = s.pending ∧ (wakeStream s q n).trust = s.trust := by
  simp [wakeStream]

@[simp] theorem failAccess_fixed (s : State) (p : PortId) (n : Nat) :
    (failAccess s p n).pending = s.pending ∧ (failAccess s p n).trust = s.trust := by
  unfold failAccess
  try dsimp only
  constructor <;> repeat' (first | with_reducible rfl | simp [ite_pending, ite_trust, -ite_eq_left_iff] | split)

@[simp] theorem queueFault_fixed (s : State) (p : PortId) (n a : Nat) (write : Bool) :
    (queueFault s p n a write).pending = s.pending ∧ (queueFault s p n a write).trust = s.trust := by
  unfold queueFault
  try dsimp only
  constructor <;> repeat' (first | with_reducible rfl | simp [ite_pending, ite_trust, -ite_eq_left_iff] | split)

@[simp] theorem accessFault_fixed (s : State) (p : PortId) (n a : Nat) (write : Bool) :
    (accessFault s p n a write).pending = s.pending ∧ (accessFault s p n a write).trust = s.trust := by
  unfold accessFault
  try dsimp only
  constructor <;> repeat' (first | with_reducible rfl | simp [ite_pending, ite_trust, -ite_eq_left_iff] | split)

@[simp] theorem accessGoes_fixed (s : State) (p : PortId) (n : Nat) :
    (accessGoes s p n).pending = s.pending ∧ (accessGoes s p n).trust = s.trust := by
  unfold accessGoes
  try dsimp only
  constructor <;> repeat' (first | with_reducible rfl | simp [ite_pending, ite_trust, -ite_eq_left_iff] | split)

@[simp] theorem routeAccess_fixed (s : State) (p : PortId) (n : Nat) :
    (routeAccess s p n).pending = s.pending ∧ (routeAccess s p n).trust = s.trust := by
  unfold routeAccess
  try dsimp only
  constructor <;> repeat' (first | with_reducible rfl | simp [ite_pending, ite_trust, -ite_eq_left_iff] | split)

@[simp] theorem afterTranslation_fixed (s : State) (p : PortId) (block n : Nat) :
    (afterTranslation s p block n).pending = s.pending ∧ (afterTranslation s p block n).trust = s.trust := by
  unfold afterTranslation
  try dsimp only
  constructor <;> repeat' (first | with_reducible rfl | simp [ite_pending, ite_trust, -ite_eq_left_iff] | split)

@[simp] theorem translationEffect_storeAll_fixed (s : State) (p : PortId) (r : TransReq) (block : Nat) (ts : List AtsEntry) :
    (translationEffect.storeAll s p r block ts).pending = s.pending ∧ (translationEffect.storeAll s p r block ts).trust = s.trust := by
  unfold translationEffect.storeAll
  constructor <;> repeat' (first | with_reducible rfl | simp (disch := (intros; repeat' (first | with_reducible rfl | simp [ite_pending, ite_trust, -ite_eq_left_iff] | split))) [foldl_pending, foldl_trust, ite_pending, ite_trust, -ite_eq_left_iff] | split)

@[simp] theorem translationEffect_fixed (s : State) (p : PortId) (block : Nat) (ts : List AtsEntry) :
    (translationEffect s p block ts).pending = s.pending ∧ (translationEffect s p block ts).trust = s.trust := by
  unfold translationEffect
  try dsimp only
  constructor <;> repeat' (first | with_reducible rfl | simp (disch := (intros; repeat' (first | with_reducible rfl | simp (disch := (intros; repeat' (first | with_reducible rfl | simp [ite_pending, ite_trust, -ite_eq_left_iff] | split))) [foldl_pending, foldl_trust, ite_pending, ite_trust, -ite_eq_left_iff] | split))) [foldl_pending, foldl_trust, ite_pending, ite_trust, -ite_eq_left_iff] | split)

theorem execTranslationCompletion_fixed (p : PortId) (block : Nat) (ts : List AtsEntry) (s : State) {u : State} (h : execTranslationCompletion p block ts s = .next u) :
    u.pending = s.pending ∧ u.trust = s.trust := by
  unfold execTranslationCompletion at h; obtain rfl | rfl := occurs_next h <;> simp

@[simp] theorem invalidateEffect_fixed (s : State) (p : PortId) (itag base size : Nat) :
    (invalidateEffect s p itag base size).pending = s.pending ∧ (invalidateEffect s p itag base size).trust = s.trust := by
  simp [invalidateEffect]

theorem execInvalidateRequest_fixed (p : PortId) (itag base size : Nat) (s : State) {u : State} (h : execInvalidateRequest p itag base size s = .next u) :
    u.pending = s.pending ∧ u.trust = s.trust := by
  unfold execInvalidateRequest at h; obtain rfl | rfl := occurs_next h <;> simp

theorem execInvalidateCompletion_fixed (p : PortId) (itag : Nat) (s : State) {u : State} (h : execInvalidateCompletion p itag s = .next u) :
    u.pending = s.pending ∧ u.trust = s.trust := by
  unfold execInvalidateCompletion at h; obtain rfl | rfl := occurs_next h <;> simp

@[simp] theorem faultAgain_fixed (s : State) (p : PortId) (n : Nat) :
    (faultAgain s p n).pending = s.pending ∧ (faultAgain s p n).trust = s.trust := by
  unfold faultAgain
  try dsimp only
  constructor <;> repeat' (first | with_reducible rfl | simp [ite_pending, ite_trust, -ite_eq_left_iff] | split)

@[simp] theorem unstarve_fixed (s : State) (p : PortId) :
    (unstarve s p).pending = s.pending ∧ (unstarve s p).trust = s.trust := by
  unfold unstarve
  try dsimp only
  constructor <;> repeat' (first | with_reducible rfl | simp (disch := (intros; repeat' (first | with_reducible rfl | simp [ite_pending, ite_trust, -ite_eq_left_iff] | split))) [foldl_pending, foldl_trust, ite_pending, ite_trust, -ite_eq_left_iff] | split)

@[simp] theorem failWaiters_fixed (s : State) (p : PortId) (ns : List Nat) :
    (failWaiters s p ns).pending = s.pending ∧ (failWaiters s p ns).trust = s.trust := by
  unfold failWaiters
  try dsimp only
  constructor <;> repeat' (first | with_reducible rfl | simp (disch := (intros; repeat' (first | with_reducible rfl | simp [ite_pending, ite_trust, -ite_eq_left_iff] | split))) [foldl_pending, foldl_trust, ite_pending, ite_trust, -ite_eq_left_iff] | split)

@[simp] theorem replayAccess_fixed (s : State) (p : PortId) (page n : Nat) :
    (replayAccess s p page n).pending = s.pending ∧ (replayAccess s p page n).trust = s.trust := by
  unfold replayAccess
  try dsimp only
  constructor <;> repeat' (first | with_reducible rfl | simp [ite_pending, ite_trust, -ite_eq_left_iff] | split)

@[simp] theorem prgEffect_fixed (s : State) (p : PortId) (i : Nat) (code : PrgCode) :
    (prgEffect s p i code).pending = s.pending ∧ (prgEffect s p i code).trust = s.trust := by
  unfold prgEffect
  try dsimp only
  constructor <;> repeat' (first | with_reducible rfl | simp (disch := (intros; repeat' (first | with_reducible rfl | simp [ite_pending, ite_trust, -ite_eq_left_iff] | split))) [foldl_pending, foldl_trust, ite_pending, ite_trust, -ite_eq_left_iff] | split)

theorem execPrgResponse_fixed (p : PortId) (index : Nat) (code : PrgCode) (s : State) {u : State} (h : execPrgResponse p index code s = .next u) :
    u.pending = s.pending ∧ u.trust = s.trust := by
  unfold execPrgResponse at h; obtain rfl | rfl := occurs_next h <;> simp

@[simp] theorem priTimeoutEffect_fixed (s : State) (p : PortId) (i : Nat) :
    (priTimeoutEffect s p i).pending = s.pending ∧ (priTimeoutEffect s p i).trust = s.trust := by
  unfold priTimeoutEffect
  try dsimp only
  constructor <;> repeat' (first | with_reducible rfl | simp [ite_pending, ite_trust, -ite_eq_left_iff] | split)

theorem execPriTimeout_fixed (p : PortId) (index : Nat) (s : State) {u : State} (h : execPriTimeout p index s = .next u) :
    u.pending = s.pending ∧ u.trust = s.trust := by
  unfold execPriTimeout at h; obtain rfl | rfl := occurs_next h <;> simp

@[simp] theorem coreWorkEnds_fixed (s : State) (n : Nat) (st : Status) (z : Cause) :
    (coreWorkEnds s n st z).pending = s.pending ∧ (coreWorkEnds s n st z).trust = s.trust := by
  unfold coreWorkEnds
  try dsimp only
  constructor <;> repeat' (first | with_reducible rfl | simp [ite_pending, ite_trust, -ite_eq_left_iff] | split)

@[simp] theorem readFails_fixed (s : State) (src : Source) (a : Nat) :
    (readFails s src a).pending = s.pending ∧ (readFails s src a).trust = s.trust := by
  unfold readFails
  try dsimp only
  constructor <;> repeat' (first | with_reducible rfl | simp [ite_pending, ite_trust, -ite_eq_left_iff] | split)

@[simp] theorem disableLine_fixed (s : State) (k : Nat) :
    (disableLine s k).pending = s.pending ∧ (disableLine s k).trust = s.trust := by
  unfold disableLine
  try dsimp only
  constructor <;> repeat' (first | with_reducible rfl | simp [ite_pending, ite_trust, -ite_eq_left_iff] | split)

@[simp] theorem correctedEvent_fixed (s : State) (k : Nat) :
    (correctedEvent s k).pending = s.pending ∧ (correctedEvent s k).trust = s.trust := by
  unfold correctedEvent
  try dsimp only
  constructor <;> repeat' (first | with_reducible rfl | simp [ite_pending, ite_trust, -ite_eq_left_iff] | split)

@[simp] theorem ownerLoses_fixed (s : State) (o : BlockOwner) (a : Nat) :
    (ownerLoses s o a).pending = s.pending ∧ (ownerLoses s o a).trust = s.trust := by
  unfold ownerLoses
  try dsimp only
  constructor <;> repeat' (first | with_reducible rfl | simp (disch := (intros; repeat' (first | with_reducible rfl | simp [ite_pending, ite_trust, -ite_eq_left_iff] | split))) [foldl_pending, foldl_trust, ite_pending, ite_trust, -ite_eq_left_iff] | split)

@[simp] theorem loseHeldSector_fixed (s : State) (o : Nat) :
    (loseHeldSector s o).pending = s.pending ∧ (loseHeldSector s o).trust = s.trust := by
  simp [loseHeldSector]

@[simp] theorem sliceLost_fixed (s : State) (a : Nat) :
    (sliceLost s a).pending = s.pending ∧ (sliceLost s a).trust = s.trust := by
  unfold sliceLost
  try dsimp only
  constructor <;> repeat' (first | with_reducible rfl | simp [ite_pending, ite_trust, -ite_eq_left_iff] | split)

@[simp] theorem sliceOutcome_fixed (s : State) (a : Nat) (x : SliceOutcome) :
    (sliceOutcome s a x).pending = s.pending ∧ (sliceOutcome s a x).trust = s.trust := by
  cases x <;> unfold sliceOutcome <;> constructor <;> repeat' (first | with_reducible rfl | simp (disch := (intros; repeat' (first | with_reducible rfl | simp [ite_pending, ite_trust, -ite_eq_left_iff] | split))) [foldl_pending, foldl_trust, ite_pending, ite_trust, -ite_eq_left_iff] | split)

@[simp] theorem cacheReadEffect_fixed (s : State) (src : Source) (a n : Nat) (hint : Hint) (o : SliceOutcome) :
    (cacheReadEffect s src a n hint o).pending = s.pending ∧ (cacheReadEffect s src a n hint o).trust = s.trust := by
  unfold cacheReadEffect
  try dsimp only
  constructor <;> repeat' (first | with_reducible rfl | simp [ite_pending, ite_trust, -ite_eq_left_iff] | split)

theorem execCacheRead_fixed (src : Source) (addr len : Nat) (hint : Hint) (o : SliceOutcome) (s : State) {u : State} (h : execCacheRead src addr len hint o s = .next u) :
    u.pending = s.pending ∧ u.trust = s.trust := by
  unfold execCacheRead at h
  try dsimp only at h
  (repeat' split at h) <;> first | (obtain rfl | rfl := occurs_next h <;> constructor <;> repeat' (first | with_reducible rfl | simp [ite_pending, ite_trust, -ite_eq_left_iff] | split)) | simp_all

theorem execCacheWrite_fixed (src : Source) (addr : Nat) (bytes : List Byte) (hint : Hint) (s : State) {u : State} (h : execCacheWrite src addr bytes hint s = .next u) :
    u.pending = s.pending ∧ u.trust = s.trust := by
  unfold execCacheWrite at h
  try dsimp only at h
  (repeat' split at h) <;> first | (obtain rfl | rfl := occurs_next h <;> constructor <;> repeat' (first | with_reducible rfl | simp [ite_pending, ite_trust, -ite_eq_left_iff] | split)) | simp_all

@[simp] theorem granuleProbeEffect_fixed (s : State) (quarter a : Nat) (keep : Bool) :
    (granuleProbeEffect s quarter a keep).pending = s.pending ∧ (granuleProbeEffect s quarter a keep).trust = s.trust := by
  unfold granuleProbeEffect
  try dsimp only
  constructor <;> repeat' (first | with_reducible rfl | simp [ite_pending, ite_trust, -ite_eq_left_iff] | split)

theorem execGranuleProbe_fixed (quarter addr : Nat) (keep : Bool) (s : State) {u : State} (h : execGranuleProbe quarter addr keep s = .next u) :
    u.pending = s.pending ∧ u.trust = s.trust := by
  unfold execGranuleProbe at h; obtain rfl | rfl := occurs_next h <;> simp

@[simp] theorem fenceEffect_fixed (s : State) (core : Nat) :
    (fenceEffect s core).pending = s.pending ∧ (fenceEffect s core).trust = s.trust := by
  unfold fenceEffect
  try dsimp only
  constructor <;> repeat' (first | with_reducible rfl | simp (disch := (intros; repeat' (first | with_reducible rfl | simp (disch := (intros; repeat' (first | with_reducible rfl | simp [ite_pending, ite_trust, -ite_eq_left_iff] | split))) [foldl_pending, foldl_trust, ite_pending, ite_trust, -ite_eq_left_iff] | split))) [foldl_pending, foldl_trust, ite_pending, ite_trust, -ite_eq_left_iff] | split)

theorem execFence_fixed (core : Nat) (s : State) {u : State} (h : execFence core s = .next u) :
    u.pending = s.pending ∧ u.trust = s.trust := by
  unfold execFence at h
  obtain e | e := occurs_next h
  · rw [e]; exact fenceEffect_fixed s core
  · rw [e]; exact ⟨rfl, rfl⟩

theorem execWcEntryDrain_fixed (slice line : Nat) (s : State) {u : State} (h : execWcEntryDrain slice line s = .next u) :
    u.pending = s.pending ∧ u.trust = s.trust := by
  unfold execWcEntryDrain at h; obtain rfl | rfl := occurs_next h <;> simp

theorem atomicRow_fixed (op : AtomicOp) (g : AtomicArgs) (cmp : BitVec 64) (form : Bool) (s : State) {u : State}
    (h : atomicRow op g cmp form s = .next u) : u.pending = s.pending ∧ u.trust = s.trust := by
  unfold atomicRow at h
  try dsimp only at h
  (repeat' split at h) <;> (obtain rfl | rfl := occurs_next h <;> simp)

theorem execAdd_fixed (g : AtomicArgs) (s : State) {u : State} (h : execAdd g s = .next u) :
    u.pending = s.pending ∧ u.trust = s.trust := by
  exact atomicRow_fixed _ _ _ _ _ h

theorem execFadd_fixed (g : AtomicArgs) (s : State) {u : State} (h : execFadd g s = .next u) :
    u.pending = s.pending ∧ u.trust = s.trust := by
  exact atomicRow_fixed _ _ _ _ _ h

theorem execMinUnsigned_fixed (g : AtomicArgs) (s : State) {u : State} (h : execMinUnsigned g s = .next u) :
    u.pending = s.pending ∧ u.trust = s.trust := by
  exact atomicRow_fixed _ _ _ _ _ h

theorem execMaxUnsigned_fixed (g : AtomicArgs) (s : State) {u : State} (h : execMaxUnsigned g s = .next u) :
    u.pending = s.pending ∧ u.trust = s.trust := by
  exact atomicRow_fixed _ _ _ _ _ h

theorem execMinSigned_fixed (g : AtomicArgs) (s : State) {u : State} (h : execMinSigned g s = .next u) :
    u.pending = s.pending ∧ u.trust = s.trust := by
  exact atomicRow_fixed _ _ _ _ _ h

theorem execMaxSigned_fixed (g : AtomicArgs) (s : State) {u : State} (h : execMaxSigned g s = .next u) :
    u.pending = s.pending ∧ u.trust = s.trust := by
  exact atomicRow_fixed _ _ _ _ _ h

theorem execOr_fixed (g : AtomicArgs) (s : State) {u : State} (h : execOr g s = .next u) :
    u.pending = s.pending ∧ u.trust = s.trust := by
  exact atomicRow_fixed _ _ _ _ _ h

theorem execCas_fixed (g : AtomicArgs) (compare : BitVec 64) (s : State) {u : State} (h : execCas g compare s = .next u) :
    u.pending = s.pending ∧ u.trust = s.trust := by
  exact atomicRow_fixed _ _ _ _ _ h

theorem execBlockGrant_fixed (slice block : Nat) (owner : BlockOwner) (s : State) {u : State} (h : execBlockGrant slice block owner s = .next u) :
    u.pending = s.pending ∧ u.trust = s.trust := by
  unfold execBlockGrant at h; obtain rfl | rfl := occurs_next h <;> simp

theorem execBlockRelease_fixed (slice block : Nat) (s : State) {u : State} (h : execBlockRelease slice block s = .next u) :
    u.pending = s.pending ∧ u.trust = s.trust := by
  unfold execBlockRelease at h
  try dsimp only at h
  (repeat' split at h) <;> first | (obtain rfl | rfl := occurs_next h <;> constructor <;> repeat' (first | with_reducible rfl | simp [ite_pending, ite_trust, -ite_eq_left_iff] | split)) | simp_all

@[simp] theorem sendAlley_fixed (s : State) (core slot : Nat) (x : Alley) :
    (sendAlley s core slot x).pending = s.pending ∧ (sendAlley s core slot x).trust = s.trust := by
  unfold sendAlley
  try dsimp only
  constructor <;> repeat' (first | with_reducible rfl | simp [ite_pending, ite_trust, -ite_eq_left_iff] | split)

@[simp] theorem tryAlley_fixed (s : State) (core slot : Nat) (x : Alley) :
    (tryAlley s core slot x).pending = s.pending ∧ (tryAlley s core slot x).trust = s.trust := by
  unfold tryAlley
  try dsimp only
  constructor <;> repeat' (first | with_reducible rfl | simp [ite_pending, ite_trust, -ite_eq_left_iff] | split)

@[simp] theorem launchAlley_fixed (s : State) (core slot : Nat) (x : Alley) :
    (launchAlley s core slot x).pending = s.pending ∧ (launchAlley s core slot x).trust = s.trust := by
  simp [launchAlley]

theorem alleyRow_fixed (op core slot : Nat) (h : BitVec 256) (s : State) {u : State} (h : alleyRow op core slot h s = .next u) :
    u.pending = s.pending ∧ u.trust = s.trust := by
  unfold alleyRow at h
  try dsimp only at h
  (repeat' split at h) <;> first | (obtain rfl | rfl := occurs_next h <;> constructor <;> repeat' (first | with_reducible rfl | simp [ite_pending, ite_trust, -ite_eq_left_iff] | split)) | simp_all

theorem execAlleyWrite_fixed (core slot : Nat) (hdr : BitVec 256) (s : State) {u : State} (h : execAlleyWrite core slot hdr s = .next u) :
    u.pending = s.pending ∧ u.trust = s.trust := alleyRow_fixed _ _ _ _ _ h

theorem execAlleyRead_fixed (core slot : Nat) (hdr : BitVec 256) (s : State) {u : State} (h : execAlleyRead core slot hdr s = .next u) :
    u.pending = s.pending ∧ u.trust = s.trust := alleyRow_fixed _ _ _ _ _ h

@[simp] theorem endAlley_fixed (s : State) (core slot : Nat) (x : Alley) (err : Option Nat) :
    (endAlley s core slot x err).pending = s.pending ∧ (endAlley s core slot x err).trust = s.trust := by
  unfold endAlley
  try dsimp only
  constructor <;> repeat' (first | with_reducible rfl | simp [ite_pending, ite_trust, -ite_eq_left_iff] | split)

theorem execAlleyComplete_fixed (core slot : Nat) (data : List Byte) (ok : Bool) (s : State) {u : State} (h : execAlleyComplete core slot data ok s = .next u) :
    u.pending = s.pending ∧ u.trust = s.trust := by
  unfold execAlleyComplete at h
  try dsimp only at h
  (repeat' split at h) <;> first | (obtain rfl | rfl := occurs_next h <;> constructor <;> repeat' (first | with_reducible rfl | simp [ite_pending, ite_trust, -ite_eq_left_iff] | split)) | simp_all

@[simp] theorem queueRead_fixed (s : State) (a level : Nat) :
    (queueRead s a level).pending = s.pending ∧ (queueRead s a level).trust = s.trust := by
  unfold queueRead
  try dsimp only
  constructor <;> repeat' (first | with_reducible rfl | simp [ite_pending, ite_trust, -ite_eq_left_iff] | split)

@[simp] theorem arrive_fixed (s : State) (a level : Nat) (arrivals : List (Nat × Nat)) :
    (arrive s a level arrivals).pending = s.pending ∧ (arrive s a level arrivals).trust = s.trust := by
  unfold arrive
  try dsimp only
  constructor <;> repeat' (first | with_reducible rfl | simp (disch := (intros; repeat' (first | with_reducible rfl | simp [ite_pending, ite_trust, -ite_eq_left_iff] | split))) [foldl_pending, foldl_trust, ite_pending, ite_trust, -ite_eq_left_iff] | split)

@[simp] theorem issueRead_fixed (s : State) (a level : Nat) :
    (issueRead s a level).pending = s.pending ∧ (issueRead s a level).trust = s.trust := by
  unfold issueRead
  try dsimp only
  constructor <;> repeat' (first | with_reducible rfl | simp [ite_pending, ite_trust, -ite_eq_left_iff] | split)

@[simp] theorem countCorrected_fixed (s : State) (c r sector lane : Nat) :
    (countCorrected s c r sector lane).pending = s.pending ∧ (countCorrected s c r sector lane).trust = s.trust := by
  simp [countCorrected]

@[simp] theorem countUncorrected_fixed (s : State) (c : Nat) :
    (countUncorrected s c).pending = s.pending ∧ (countUncorrected s c).trust = s.trust := by
  simp [countUncorrected]

@[simp] theorem eccRead_fixed (s : State) (c r sector : Nat) (since : List Nat) :
    (eccRead s c r sector since).1.pending = s.pending ∧ (eccRead s c r sector since).1.trust = s.trust := by
  unfold eccRead
  try dsimp only
  constructor <;> repeat' (first | with_reducible rfl | simp [ite_pending, ite_trust, -ite_eq_left_iff] | split)

@[simp] theorem hbmReadEffect_fixed (s : State) (a : Nat) (since : List Nat) :
    (hbmReadEffect s a since).pending = s.pending ∧ (hbmReadEffect s a since).trust = s.trust := by
  unfold hbmReadEffect
  try dsimp only
  constructor <;> repeat' (first | with_reducible rfl | simp [ite_pending, ite_trust, -ite_eq_left_iff] | split)

theorem execHbmRead_fixed (addr level : Nat) (m : ReadMeets) (s : State) {u : State} (h : execHbmRead addr level m s = .next u) :
    u.pending = s.pending ∧ u.trust = s.trust := by
  unfold execHbmRead at h; obtain rfl | rfl := occurs_next h <;> simp

theorem execHbmWrite_fixed (addr level : Nat) (data : BitVec 256) (mask : BitVec 32) (s : State) {u : State} (h : execHbmWrite addr level data mask s = .next u) :
    u.pending = s.pending ∧ u.trust = s.trust := by
  unfold execHbmWrite at h
  try dsimp only at h
  (repeat' split at h) <;> first | (obtain rfl | rfl := occurs_next h <;> constructor <;> repeat' (first | with_reducible rfl | simp [ite_pending, ite_trust, -ite_eq_left_iff] | split)) | simp_all

@[simp] theorem patrolSector_fixed (g c : Nat) (s : State) (x : Nat × List Nat) :
    (patrolSector g c s x).pending = s.pending ∧ (patrolSector g c s x).trust = s.trust := by
  unfold patrolSector
  try dsimp only
  constructor <;> repeat' (first | with_reducible rfl | simp [ite_pending, ite_trust, -ite_eq_left_iff] | split)

@[simp] theorem patrolEffect_fixed (s : State) (c g : Nat) (wrong : Table (List Nat)) :
    (patrolEffect s c g wrong).pending = s.pending ∧ (patrolEffect s c g wrong).trust = s.trust := by
  unfold patrolEffect
  try dsimp only
  constructor <;> repeat' (first | with_reducible rfl | simp (disch := (intros; repeat' (first | with_reducible rfl | simp [ite_pending, ite_trust, -ite_eq_left_iff] | split))) [foldl_pending, foldl_trust, ite_pending, ite_trust, -ite_eq_left_iff] | split)

theorem execPatrolScrub_fixed (ch granule : Nat) (wrong : Table (List Nat)) (s : State) {u : State}
    (h : execPatrolScrub ch granule wrong s = .next u) : u.pending = s.pending ∧ u.trust = s.trust := by
  unfold execPatrolScrub at h
  dsimp only at h
  obtain e | e := occurs_next h
  · rw [e]; exact patrolEffect_fixed ..
  · rw [e]; exact ⟨rfl, rfl⟩

@[simp] theorem remapEffect_fixed (s : State) (c bank row : Nat) :
    (remapEffect s c bank row).pending = s.pending ∧ (remapEffect s c bank row).trust = s.trust := by
  simp [remapEffect]

theorem execRowRemap_fixed (ch bank row : Nat) (s : State) {u : State} (h : execRowRemap ch bank row s = .next u) :
    u.pending = s.pending ∧ u.trust = s.trust := by
  unfold execRowRemap at h; obtain rfl | rfl := occurs_next h <;> simp

theorem execPageRetire_fixed (page : Nat) (lost : BitVec 2) (s : State) {u : State} (h : execPageRetire page lost s = .next u) :
    u.pending = s.pending ∧ u.trust = s.trust := by
  unfold execPageRetire at h; obtain rfl | rfl := occurs_next h <;> simp

@[simp] theorem tgTrain_fixed (s : State) (c : Nat) (l : Option Lanes) :
    (tgTrain s c l).pending = s.pending ∧ (tgTrain s c l).trust = s.trust := by
  unfold tgTrain
  try dsimp only
  constructor <;> repeat' (first | with_reducible rfl | simp [ite_pending, ite_trust, -ite_eq_left_iff] | split)

@[simp] theorem tgStartEffect_fixed (s : State) (c : Nat) (src : TgSrc) (ctrl : Word) :
    (tgStartEffect s c src ctrl).pending = s.pending ∧ (tgStartEffect s c src ctrl).trust = s.trust := by
  unfold tgStartEffect
  try dsimp only
  constructor <;> repeat' (first | with_reducible rfl | simp [ite_pending, ite_trust, -ite_eq_left_iff] | split)

theorem execTgRunStart_fixed (ch : Nat) (w : TgStart) (s : State) {u : State} (h : execTgRunStart ch w s = .next u) :
    u.pending = s.pending ∧ u.trust = s.trust := by
  unfold execTgRunStart at h; obtain rfl | rfl := occurs_next h <;> simp

@[simp] theorem tgWrite_fixed (s : State) (c k : Nat) :
    (tgWrite s c k).pending = s.pending ∧ (tgWrite s c k).trust = s.trust := by
  simp [tgWrite]

@[simp] theorem tgRecord_fixed (s : State) (c : Nat) (errs raw : List Mismatch) :
    (tgRecord s c errs raw).pending = s.pending ∧ (tgRecord s c errs raw).trust = s.trust := by
  simp [tgRecord]

@[simp] theorem tgEnds_fixed (s : State) (c k : Nat) (raw : List Mismatch) :
    (tgEnds s c k raw).pending = s.pending ∧ (tgEnds s c k raw).trust = s.trust := by
  unfold tgEnds
  try dsimp only
  constructor <;> repeat' (first | with_reducible rfl | simp [ite_pending, ite_trust, -ite_eq_left_iff] | split)

@[simp] theorem tgDoneEffect_fixed (s : State) (c : Nat) (raw : List Mismatch) :
    (tgDoneEffect s c raw).pending = s.pending ∧ (tgDoneEffect s c raw).trust = s.trust := by
  unfold tgDoneEffect
  try dsimp only
  constructor <;> repeat' (first | with_reducible rfl | simp [ite_pending, ite_trust, -ite_eq_left_iff] | split)

theorem execTgRunDone_fixed (ch : Nat) (raw : List Mismatch) (s : State) {u : State} (h : execTgRunDone ch raw s = .next u) :
    u.pending = s.pending ∧ u.trust = s.trust := by
  unfold execTgRunDone at h; obtain rfl | rfl := occurs_next h <;> simp

@[simp] theorem tgStopEffect_fixed (s : State) (c : Nat) (ctrl : Word) (k : Nat) (raw : List Mismatch) :
    (tgStopEffect s c ctrl k raw).pending = s.pending ∧ (tgStopEffect s c ctrl k raw).trust = s.trust := by
  unfold tgStopEffect
  try dsimp only
  constructor <;> repeat' (first | with_reducible rfl | simp [ite_pending, ite_trust, -ite_eq_left_iff] | split)

theorem execTgStop_fixed (w : TgStopped) (s : State) {u : State} (h : execTgStop w s = .next u) :
    u.pending = s.pending ∧ u.trust = s.trust := by
  unfold execTgStop at h; obtain rfl | rfl := occurs_next h <;> simp

@[simp] theorem channelTest_fixed (s : State) (c : Nat) (raw : List Mismatch) :
    (channelTest s c raw).pending = s.pending ∧ (channelTest s c raw).trust = s.trust := by
  simp [channelTest]

@[simp] theorem switchPerm_fixed (s : State) (c : Nat) :
    (switchPerm s c).pending = s.pending ∧ (switchPerm s c).trust = s.trust := by
  simp [switchPerm]

@[simp] theorem enterAlias_fixed (s : State) (c : Nat) :
    (enterAlias s c).pending = s.pending ∧ (enterAlias s c).trust = s.trust := by
  unfold enterAlias
  try dsimp only
  constructor <;> repeat' (first | with_reducible rfl | simp [ite_pending, ite_trust, -ite_eq_left_iff] | split)

@[simp] theorem stopGenerator_fixed (s : State) (c : Nat) :
    (stopGenerator s c).pending = s.pending ∧ (stopGenerator s c).trust = s.trust := by
  unfold stopGenerator
  try dsimp only
  constructor <;> repeat' (first | with_reducible rfl | simp [ite_pending, ite_trust, -ite_eq_left_iff] | split)

@[simp] theorem startMigration_fixed (s : State) (c t share : Nat) (cmd : Option Nat) :
    (startMigration s c t share cmd).pending = s.pending ∧ (startMigration s c t share cmd).trust = s.trust := by
  unfold startMigration
  try dsimp only
  constructor <;> repeat' (first | with_reducible rfl | simp [ite_pending, ite_trust, -ite_eq_left_iff] | split)

theorem execMigrationStart_fixed (ch : Nat) (ctrl : Word) (s : State) {u : State} (h : execMigrationStart ch ctrl s = .next u) :
    u.pending = s.pending ∧ u.trust = s.trust := by
  unfold execMigrationStart at h; obtain rfl | rfl := occurs_next h <;> simp

@[simp] theorem abortMigration_fixed (s : State) (c : Nat) :
    (abortMigration s c).pending = s.pending ∧ (abortMigration s c).trust = s.trust := by
  unfold abortMigration
  try dsimp only
  constructor <;> repeat' (first | with_reducible rfl | simp [ite_pending, ite_trust, -ite_eq_left_iff] | split)

theorem execMigrationAbort_fixed (ch : Nat) (why : MigAbort) (s : State) {u : State} (h : execMigrationAbort ch why s = .next u) :
    u.pending = s.pending ∧ u.trust = s.trust := by
  unfold execMigrationAbort at h; obtain rfl | rfl := occurs_next h <;> simp

@[simp] theorem retireGranule_fixed (s : State) (c g : Nat) :
    (retireGranule s c g).pending = s.pending ∧ (retireGranule s c g).trust = s.trust := by
  unfold retireGranule
  try dsimp only
  constructor <;> repeat' (first | with_reducible rfl | simp [ite_pending, ite_trust, -ite_eq_left_iff] | split)

@[simp] theorem copyTo_fixed (s : State) (c n : Nat) (bad : List Nat) :
    (copyTo s c n bad).pending = s.pending ∧ (copyTo s c n bad).trust = s.trust := by
  unfold copyTo
  try dsimp only
  constructor <;> repeat' (first | with_reducible rfl | simp (disch := (intros; repeat' (first | with_reducible rfl | simp [ite_pending, ite_trust, -ite_eq_left_iff] | split))) [foldl_pending, foldl_trust, ite_pending, ite_trust, -ite_eq_left_iff] | split)

theorem execMigrationCopyDone_fixed (ch : Nat) (m : CopyPiece) (s : State) {u : State} (h : execMigrationCopyDone ch m s = .next u) :
    u.pending = s.pending ∧ u.trust = s.trust := by
  unfold execMigrationCopyDone at h; obtain rfl | rfl := occurs_next h <;> simp

@[simp] theorem releaseEntry_fixed (s : State) (t : Nat) (n : Nat) (r : RtEntry) :
    (releaseEntry s t n r).pending = s.pending ∧ (releaseEntry s t n r).trust = s.trust := by
  unfold releaseEntry
  try dsimp only
  constructor <;> repeat' (first | with_reducible rfl | simp (disch := (intros; repeat' (first | with_reducible rfl | simp (disch := (intros; repeat' (first | with_reducible rfl | simp [ite_pending, ite_trust, -ite_eq_left_iff] | split))) [foldl_pending, foldl_trust, ite_pending, ite_trust, -ite_eq_left_iff] | split))) [foldl_pending, foldl_trust, ite_pending, ite_trust, -ite_eq_left_iff] | split)

@[simp] theorem releaseEntries_fixed (s : State) (t : Nat) :
    (releaseEntries s t).pending = s.pending ∧ (releaseEntries s t).trust = s.trust := by
  unfold releaseEntries
  try dsimp only
  constructor <;> repeat' (first | with_reducible rfl | simp (disch := (intros; repeat' (first | with_reducible rfl | simp [ite_pending, ite_trust, -ite_eq_left_iff] | split))) [foldl_pending, foldl_trust, ite_pending, ite_trust, -ite_eq_left_iff] | split)

@[simp] theorem endMigration_fixed (s : State) (c : Nat) :
    (endMigration s c).pending = s.pending ∧ (endMigration s c).trust = s.trust := by
  unfold endMigration
  try dsimp only
  constructor <;> repeat' (first | with_reducible rfl | simp (disch := (intros; repeat' (first | with_reducible rfl | simp [ite_pending, ite_trust, -ite_eq_left_iff] | split))) [foldl_pending, foldl_trust, ite_pending, ite_trust, -ite_eq_left_iff] | split)

@[simp] theorem markerEffect_fixed (s : State) (c unit : Nat) :
    (markerEffect s c unit).pending = s.pending ∧ (markerEffect s c unit).trust = s.trust := by
  unfold markerEffect
  try dsimp only
  constructor <;> repeat' (first | with_reducible rfl | simp [ite_pending, ite_trust, -ite_eq_left_iff] | split)

theorem execDrainMarker_fixed (ch unit : Nat) (s : State) {u : State} (h : execDrainMarker ch unit s = .next u) :
    u.pending = s.pending ∧ u.trust = s.trust := by
  unfold execDrainMarker at h; obtain rfl | rfl := occurs_next h <;> simp

@[simp] theorem repairEffect_fixed (s : State) (c : Nat) (lanes : Option Lanes) (repaired : Bool) (raw : List Mismatch) :
    (repairEffect s c lanes repaired raw).pending = s.pending ∧ (repairEffect s c lanes repaired raw).trust = s.trust := by
  unfold repairEffect
  try dsimp only
  constructor <;> repeat' (first | with_reducible rfl | simp [ite_pending, ite_trust, -ite_eq_left_iff] | split)

theorem execMigrationRepair_fixed (ch : Nat) (m : SourceRepair) (s : State) {u : State} (h : execMigrationRepair ch m s = .next u) :
    u.pending = s.pending ∧ u.trust = s.trust := by
  unfold execMigrationRepair at h; obtain rfl | rfl := occurs_next h <;> simp

@[simp] theorem channelLostEffect_fixed (s : State) (c : Nat) :
    (channelLostEffect s c).pending = s.pending ∧ (channelLostEffect s c).trust = s.trust := by
  unfold channelLostEffect
  try dsimp only
  constructor <;> repeat' (first | with_reducible rfl | simp (disch := (intros; repeat' (first | with_reducible rfl | simp (disch := (intros; repeat' (first | with_reducible rfl | simp [ite_pending, ite_trust, -ite_eq_left_iff] | split))) [foldl_pending, foldl_trust, ite_pending, ite_trust, -ite_eq_left_iff] | split))) [foldl_pending, foldl_trust, ite_pending, ite_trust, -ite_eq_left_iff] | split)

theorem execChannelLost_fixed (ch : Nat) (s : State) {u : State} (h : execChannelLost ch s = .next u) :
    u.pending = s.pending ∧ u.trust = s.trust := by
  unfold execChannelLost at h; obtain rfl | rfl := occurs_next h <;> simp

@[simp] theorem recordEffect_fixed (s : State) :
    (recordEffect s).pending = s.pending ∧ (recordEffect s).trust = s.trust := by
  simp [recordEffect]

theorem execRepairRecordWrite_fixed (s : State) {u : State} (h : execRepairRecordWrite s = .next u) :
    u.pending = s.pending ∧ u.trust = s.trust := by
  unfold execRepairRecordWrite at h; obtain rfl | rfl := occurs_next h <;> simp

end Sys2Proof.Machine
end

