-- ==== Sys2Proof/Laws/FrameSearch.lean ====
section
/-! SUPPORT. Frames: what ingest, runs, search and tier moves keep. Each lemma says of one operation that it keeps the queue of waiting commands
and the trust state; of an operation that may change the trust state, that it keeps the queue. -/

namespace Sys2Proof.Machine

open Sys2Proof
set_option linter.unusedSimpArgs false
set_option linter.unusedTactic false
set_option linter.unreachableTactic false
set_option linter.unnecessarySeqFocus false

@[simp] theorem learnEpoch_fixed (s : State) (i e : Nat) :
    (learnEpoch s i e).pending = s.pending ∧ (learnEpoch s i e).trust = s.trust := by
  simp [learnEpoch]

@[simp] theorem sendBeacons_fixed (s : State) (i : Nat) :
    (sendBeacons s i).pending = s.pending ∧ (sendBeacons s i).trust = s.trust := by
  unfold sendBeacons
  try dsimp only
  constructor <;> repeat' (first | with_reducible rfl | simp (disch := (intros; repeat' (first | with_reducible rfl | simp [ite_pending, ite_trust, -ite_eq_left_iff] | split))) [foldl_pending, foldl_trust, ite_pending, ite_trust, -ite_eq_left_iff] | split)

@[simp] theorem closeGroup_fixed (s : State) (i g : Nat) :
    (closeGroup s i g).pending = s.pending ∧ (closeGroup s i g).trust = s.trust := by
  unfold closeGroup
  try dsimp only
  constructor <;> repeat' (first | with_reducible rfl | simp (disch := (intros; repeat' (first | with_reducible rfl | simp [ite_pending, ite_trust, -ite_eq_left_iff] | split))) [foldl_pending, foldl_trust, ite_pending, ite_trust, -ite_eq_left_iff] | split)

@[simp] theorem joinGroup_fixed (s : State) (n : Nat) :
    (joinGroup s n).pending = s.pending ∧ (joinGroup s n).trust = s.trust := by
  unfold joinGroup
  try dsimp only
  constructor <;> repeat' (first | with_reducible rfl | simp [ite_pending, ite_trust, -ite_eq_left_iff] | split)

@[simp] theorem closeForReader_fixed (s : State) (i : Nat) (k : PortId × Nat) :
    (closeForReader s i k).pending = s.pending ∧ (closeForReader s i k).trust = s.trust := by
  unfold closeForReader
  try dsimp only
  constructor <;> repeat' (first | with_reducible rfl | simp (disch := (intros; repeat' (first | with_reducible rfl | simp [ite_pending, ite_trust, -ite_eq_left_iff] | split))) [foldl_pending, foldl_trust, ite_pending, ite_trust, -ite_eq_left_iff] | split)

@[simp] theorem closeForFlush_fixed (s : State) (i : Nat) :
    (closeForFlush s i).1.pending = s.pending ∧ (closeForFlush s i).1.trust = s.trust := by
  unfold closeForFlush
  try dsimp only
  constructor <;> repeat' (first | with_reducible rfl | simp (disch := (intros; repeat' (first | with_reducible rfl | simp [ite_pending, ite_trust, -ite_eq_left_iff] | split))) [foldl_pending, foldl_trust, ite_pending, ite_trust, -ite_eq_left_iff] | split)

theorem execCommitWindowExpiry_fixed (coll group : Nat) (s : State) {u : State} (h : execCommitWindowExpiry coll group s = .next u) :
    u.pending = s.pending ∧ u.trust = s.trust := by
  unfold execCommitWindowExpiry at h; obtain rfl | rfl := occurs_next h <;> simp

@[simp] theorem stageItems_fixed (s : State) (n i : Nat) (items : List Item) (need : Nat) :
    (stageItems s n i items need).pending = s.pending ∧ (stageItems s n i items need).trust = s.trust := by
  unfold stageItems
  try dsimp only
  constructor <;> repeat' (first | with_reducible rfl | simp [ite_pending, ite_trust, -ite_eq_left_iff] | split)

@[simp] theorem failItem_fixed (s : State) (n : Nat) (st : Status) (item : Nat) :
    (failItem s n st item).pending = s.pending ∧ (failItem s n st item).trust = s.trust := by
  simp [failItem]

@[simp] theorem deliverDone_fixed (s : State) (l : List (Nat × Completion × List Byte)) :
    (deliverDone s l).pending = s.pending ∧ (deliverDone s l).trust = s.trust := by
  unfold deliverDone
  try dsimp only
  constructor <;> repeat' (first | with_reducible rfl | simp (disch := (intros; repeat' (first | with_reducible rfl | simp [ite_pending, ite_trust, -ite_eq_left_iff] | split))) [foldl_pending, foldl_trust, ite_pending, ite_trust, -ite_eq_left_iff] | split)

theorem startImage_fixed {s : State} {i : Nat} {whole : Bool} {u : State} (h : startImage s i whole = some u) :
    u.pending = s.pending ∧ u.trust = s.trust := by
  unfold startImage at h
  try dsimp only at h
  (repeat' split at h) <;> first | (cases h; done) | (cases h; constructor <;> repeat' (first | with_reducible rfl | simp [ite_pending, ite_trust, -ite_eq_left_iff] | split | simp only [takeMirrored_fixed (by assumption)]))

@[simp] theorem homeRequest_fixed (s : State) (i : Nat) (w : PeerWaiter) (type off len : Nat) (payload : List Byte) :
    (homeRequest s i w type off len payload).pending = s.pending ∧ (homeRequest s i w type off len payload).trust = s.trust := by
  unfold homeRequest
  try dsimp only
  constructor <;> repeat' (first | with_reducible rfl | simp [ite_pending, ite_trust, -ite_eq_left_iff] | split)

@[simp] theorem settleFlush_fixed (s : State) (n : Nat) :
    (settleFlush s n).pending = s.pending ∧ (settleFlush s n).trust = s.trust := by
  unfold settleFlush
  try dsimp only
  constructor <;> repeat' (first | with_reducible rfl | simp [ite_pending, ite_trust, -ite_eq_left_iff] | split)

@[simp] theorem failDurable_fixed (s : State) (n : Nat) (st : Status) (z : Cause) :
    (failDurable s n st z).pending = s.pending ∧ (failDurable s n st z).trust = s.trust := by
  unfold failDurable
  try dsimp only
  constructor <;> repeat' (first | with_reducible rfl | simp [ite_pending, ite_trust, -ite_eq_left_iff] | split)

@[simp] theorem startDurable_fixed (s : State) (n : Nat) :
    (startDurable s n).pending = s.pending ∧ (startDurable s n).trust = s.trust := by
  unfold startDurable
  try dsimp only
  constructor <;> repeat' (first | with_reducible rfl | simp (disch := (intros; repeat' (first | with_reducible rfl | simp [ite_pending, ite_trust, -ite_eq_left_iff] | split | simp only [startImage_fixed (by assumption)]))) [foldl_pending, foldl_trust, ite_pending, ite_trust, -ite_eq_left_iff] | split | simp only [startImage_fixed (by assumption)])

@[simp] theorem flushTargets_fixed (s : State) (n : Nat) :
    (flushTargets s n).pending = s.pending ∧ (flushTargets s n).trust = s.trust := by
  unfold flushTargets
  try dsimp only
  constructor <;> repeat' (first | with_reducible rfl | simp [ite_pending, ite_trust, -ite_eq_left_iff] | split)

@[simp] theorem groupGone_fixed (s : State) (i g : Nat) :
    (groupGone s i g).pending = s.pending ∧ (groupGone s i g).trust = s.trust := by
  unfold groupGone
  try dsimp only
  constructor <;> repeat' (first | with_reducible rfl | simp (disch := (intros; repeat' (first | with_reducible rfl | simp [ite_pending, ite_trust, -ite_eq_left_iff] | split))) [foldl_pending, foldl_trust, ite_pending, ite_trust, -ite_eq_left_iff] | split)

theorem storeTokens_fixed {s u : State} {i e : Nat} (h : storeTokens s i e = some u) : u.pending = s.pending ∧ u.trust = s.trust := by
  unfold storeTokens at h
  have hb (o : Option State) (x : Nat × Staged) : (if x.2.insE = some e
        then o.bind fun s => (s.coll? i).bind fun c => putTokens s i c (fullKey x.2.vid e) x.2.tokens else o)
      = o.bind fun s => if x.2.insE = some e then (s.coll? i).bind fun c => putTokens s i c (fullKey x.2.vid e) x.2.tokens else some s := by
    split <;> simp
  simp only [hb] at h
  refine foldl_bind_fixed (fun hv => ?_) (fun v hv => by cases hv; exact ⟨rfl, rfl⟩) h
  split at hv
  · obtain ⟨c, _, hv⟩ := Option.bind_eq_some_iff.mp hv
    exact putTokens_fixed hv
  · cases hv; exact ⟨rfl, rfl⟩

theorem performGroup_fixed {s u : State} {i g e : Nat} {l : List (Nat × Completion × List Byte)} (h : performGroup s i g e = some (u, l)) :
    u.pending = s.pending ∧ u.trust = s.trust := by
  unfold performGroup at h
  split at h
  · cases h
  · split at h
    · cases h
    · obtain ⟨v, hv, hr⟩ := Option.map_eq_some_iff.mp h
      cases hr
      obtain ⟨w, hw, hv⟩ := Option.bind_eq_some_iff.mp hv
      simp [storeTokens_fixed hv, growIndex_fixed hw]

@[simp] theorem acquireHome_fixed (s : State) (i : Nat) :
    (acquireHome s i).pending = s.pending ∧ (acquireHome s i).trust = s.trust := by
  simp [acquireHome]

@[simp] theorem commitHere_fixed (s : State) (i g : Nat) (c : Collection) (x : Group) :
    (commitHere s i g c x).pending = s.pending ∧ (commitHere s i g c x).trust = s.trust := by
  unfold commitHere
  try dsimp only
  constructor <;> repeat' (first | with_reducible rfl | simp (disch := (intros; repeat' (first | with_reducible rfl | simp [ite_pending, ite_trust, -ite_eq_left_iff] | split | simp only [performGroup_fixed (by assumption)]))) [foldl_pending, foldl_trust, ite_pending, ite_trust, -ite_eq_left_iff] | split | simp only [performGroup_fixed (by assumption)])

@[simp] theorem commitEffect_fixed (s : State) (i g : Nat) :
    (commitEffect s i g).pending = s.pending ∧ (commitEffect s i g).trust = s.trust := by
  unfold commitEffect
  try dsimp only
  constructor <;> repeat' (first | with_reducible rfl | simp [ite_pending, ite_trust, -ite_eq_left_iff] | split)

theorem execCommit_fixed (coll group : Nat) (s : State) {u : State} (h : execCommit coll group s = .next u) :
    u.pending = s.pending ∧ u.trust = s.trust := by
  unfold execCommit at h; obtain rfl | rfl := occurs_next h <;> simp

theorem appendCopy_fixed {s u : State} {i list k : Nat} {v w : DirVersion} (h : appendCopy s i list k v = some (u, w)) : u.pending = s.pending ∧ u.trust = s.trust := by
  unfold appendCopy at h
  split at h
  · cases h
  · split at h
    · cases h; exact ⟨rfl, rfl⟩
    · dsimp only at h
      split at h
      · cases h
      · rename_i s1 _ hp
        split at h
        · cases h
        · rename_i hf
          cases h
          have h1 : s1.pending = s.pending ∧ s1.trust = s.trust := by
            split at hp
            · rcases ite_or hp with hp | hp
              · cases hp; exact ⟨rfl, rfl⟩
              · obtain ⟨⟨x, y⟩, hx, hr⟩ := Option.map_eq_some_iff.mp hp; cases hr; simp [newSegment_fixed hx]
            · obtain ⟨⟨x, y⟩, hx, hr⟩ := Option.map_eq_some_iff.mp hp; cases hr; simp [newSegment_fixed hx]
          obtain ⟨s3, hf1, hf2⟩ := Option.bind_eq_some_iff.mp hf
          obtain ⟨c3, _, hf3⟩ := Option.bind_eq_some_iff.mp hf2
          simp [putTokens_fixed hf3, putFull_fixed hf1, h1]

theorem appendAll_fixed {l : List Nat} {s u : State} {i list : Nat} {v w : DirVersion} (h : appendAll l s i list v = some (u, w)) : u.pending = s.pending ∧ u.trust = s.trust := by
  induction l generalizing s v with
  | nil => simp_all [appendAll]
  | cons a l ih => unfold appendAll at h; grind [→ appendCopy_fixed]

theorem appendList_fixed {s : State} {i list : Nat} {u : State} (h : appendList s i list = some u) : u.pending = s.pending ∧ u.trust = s.trust := by
  unfold appendList at h
  split at h
  · cases h
  · dsimp only at h
    split at h
    · cases h
    · rename_i ha
      obtain ⟨v, hv, rfl⟩ := Option.map_eq_some_iff.mp h
      simp [growBlocks_fixed hv, appendAll_fixed ha]

theorem appendEvery_fixed {s : State} {i : Nat} {u : State} (h : appendEvery s i = some u) :
    u.pending = s.pending ∧ u.trust = s.trust := by
  unfold appendEvery at h
  split at h
  · cases h
  · rename_i c _
    generalize listsToAppend c = l at h
    have step : ∀ (l : List Nat) (o : Option State), (∀ v, o = some v → v.pending = s.pending ∧ v.trust = s.trust) →
        l.foldl (fun s l => s.bind fun s => appendList s i l) o = some u → u.pending = s.pending ∧ u.trust = s.trust := by
      intro l
      induction l with
      | nil => intro o ho h; exact ho u h
      | cons a l ih =>
        intro o ho h
        refine ih _ (fun v hv => ?_) h
        obtain ⟨w, hw, hv⟩ := Option.bind_eq_some_iff.mp hv
        simp [appendList_fixed hv, ho w hw]
    exact step l _ (fun v hv => by cases hv; exact ⟨rfl, rfl⟩) h

@[simp] theorem appendEvery_getD_fixed (s : State) (i : Nat) :
    ((appendEvery s i).getD s).pending = s.pending ∧ ((appendEvery s i).getD s).trust = s.trust := by
  cases h : appendEvery s i with
  | none => exact ⟨rfl, rfl⟩
  | some u => exact appendEvery_fixed h

theorem execStagedAppend_fixed (coll list : Nat) (s : State) {u : State} (h : execStagedAppend coll list s = .next u) :
    u.pending = s.pending ∧ u.trust = s.trust := by
  unfold execStagedAppend at h
  try dsimp only at h
  (repeat' split at h) <;> first | (obtain rfl | rfl := occurs_next h <;> constructor <;> repeat' (first | with_reducible rfl | simp [ite_pending, ite_trust, -ite_eq_left_iff] | split | simp only [appendList_fixed (by assumption)])) | simp_all

@[simp] theorem ceilingEffect_fixed (s : State) (i : Nat) :
    (ceilingEffect s i).pending = s.pending ∧ (ceilingEffect s i).trust = s.trust := by
  simp [ceilingEffect]

theorem execCeilingRaise_fixed (coll : Nat) (s : State) {u : State} (h : execCeilingRaise coll s = .next u) :
    u.pending = s.pending ∧ u.trust = s.trust := by
  unfold execCeilingRaise at h; obtain rfl | rfl := occurs_next h <;> simp

theorem execIdCeilingRaise_fixed (coll : Nat) (s : State) {u : State} (h : execIdCeilingRaise coll s = .next u) :
    u.pending = s.pending ∧ u.trust = s.trust := by
  unfold execIdCeilingRaise at h; obtain rfl | rfl := occurs_next h <;> simp

@[simp] theorem freeMove_fixed (s : State) (x : Cmd) :
    (freeMove s x).pending = s.pending ∧ (freeMove s x).trust = s.trust := by
  unfold freeMove
  try dsimp only
  constructor <;> repeat' (first | with_reducible rfl | simp (disch := (intros; repeat' (first | with_reducible rfl | simp [ite_pending, ite_trust, -ite_eq_left_iff] | split))) [foldl_pending, foldl_trust, ite_pending, ite_trust, -ite_eq_left_iff] | split)

@[simp] theorem endMove_fixed (s : State) (n : Nat) (st : Status) (z : Cause) :
    (endMove s n st z).pending = s.pending ∧ (endMove s n st z).trust = s.trust := by
  unfold endMove
  try dsimp only
  constructor <;> repeat' (first | with_reducible rfl | simp [ite_pending, ite_trust, -ite_eq_left_iff] | split)

@[simp] theorem imageWriteEffect_fixed (s : State) (i : Nat) :
    (imageWriteEffect s i).pending = s.pending ∧ (imageWriteEffect s i).trust = s.trust := by
  unfold imageWriteEffect
  try dsimp only
  constructor <;> repeat' (first | with_reducible rfl | simp (disch := (intros; repeat' (first | with_reducible rfl | simp [ite_pending, ite_trust, -ite_eq_left_iff] | split | simp only [startImage_fixed (by assumption)]))) [foldl_pending, foldl_trust, ite_pending, ite_trust, -ite_eq_left_iff] | split | simp only [startImage_fixed (by assumption)])

theorem execImageWrite_fixed (coll : Nat) (s : State) {u : State} (h : execImageWrite coll s = .next u) :
    u.pending = s.pending ∧ u.trust = s.trust := by
  unfold execImageWrite at h; obtain rfl | rfl := occurs_next h <;> simp

@[simp] theorem settleImage_fixed (s : State) (i : Nat) :
    (settleImage s i).pending = s.pending ∧ (settleImage s i).trust = s.trust := by
  unfold settleImage
  try dsimp only
  constructor <;> repeat' (first | with_reducible rfl | simp (disch := (intros; repeat' (first | with_reducible rfl | simp [ite_pending, ite_trust, -ite_eq_left_iff] | split))) [foldl_pending, foldl_trust, ite_pending, ite_trust, -ite_eq_left_iff] | split)

@[simp] theorem settleImages_fixed (s : State) :
    (settleImages s).pending = s.pending ∧ (settleImages s).trust = s.trust := by
  unfold settleImages
  try dsimp only
  constructor <;> repeat' (first | with_reducible rfl | simp (disch := (intros; repeat' (first | with_reducible rfl | simp [ite_pending, ite_trust, -ite_eq_left_iff] | split))) [foldl_pending, foldl_trust, ite_pending, ite_trust, -ite_eq_left_iff] | split)

@[simp] theorem compactEffect_fixed (s : State) (i l : Nat) :
    (compactEffect s i l).pending = s.pending ∧ (compactEffect s i l).trust = s.trust := by
  unfold compactEffect
  try dsimp only
  constructor <;> repeat' (first | with_reducible rfl | simp [ite_pending, ite_trust, -ite_eq_left_iff] | split)

@[simp] theorem compactionEffect_fixed (s : State) (i l : Nat) :
    (compactionEffect s i l).pending = s.pending ∧ (compactionEffect s i l).trust = s.trust := by
  unfold compactionEffect
  try dsimp only
  constructor <;> repeat' (first | with_reducible rfl | simp [ite_pending, ite_trust, -ite_eq_left_iff] | split)

theorem execCompaction_fixed (coll list : Nat) (s : State) {u : State} (h : execCompaction coll list s = .next u) :
    u.pending = s.pending ∧ u.trust = s.trust := by
  unfold execCompaction at h; obtain rfl | rfl := occurs_next h <;> simp

theorem placeShadow_fixed {i gen slots : Nat} {copies : List (Nat × Packed)} {l : List Nat} {s u : State} {r : List (Nat × List Nat)} (h : placeShadow i gen slots copies l s = some (u, r)) : u.pending = s.pending ∧ u.trust = s.trust := by
  induction l generalizing s r with
  | nil => unfold placeShadow at h; cases h; exact ⟨rfl, rfl⟩
  | cons a l ih =>
    unfold placeShadow at h
    dsimp only at h
    split at h
    · cases h
    · obtain ⟨x, hx, hr⟩ := Option.map_eq_some_iff.mp h
      cases hr
      simp [ih hx]

@[simp] theorem enqueueSeq_fixed (s : State) (i cmd item : Nat) :
    (enqueueSeq s i cmd item).pending = s.pending ∧ (enqueueSeq s i cmd item).trust = s.trust := by
  unfold enqueueSeq
  try dsimp only
  constructor <;> repeat' (first | with_reducible rfl | simp [ite_pending, ite_trust, -ite_eq_left_iff] | split)

@[simp] theorem enqueueAll_fixed (s : State) (i cmd : Nat) (items : List Nat) :
    (enqueueAll s i cmd items).pending = s.pending ∧ (enqueueAll s i cmd items).trust = s.trust := by
  unfold enqueueAll
  try dsimp only
  constructor <;> repeat' (first | with_reducible rfl | simp (disch := (intros; repeat' (first | with_reducible rfl | simp [ite_pending, ite_trust, -ite_eq_left_iff] | split))) [foldl_pending, foldl_trust, ite_pending, ite_trust, -ite_eq_left_iff] | split)

@[simp] theorem joinBatch_fixed (s : State) (n i dir limit l : Nat) :
    (joinBatch s n i dir limit l).pending = s.pending ∧ (joinBatch s n i dir limit l).trust = s.trust := by
  unfold joinBatch
  try dsimp only
  constructor <;> repeat' (first | with_reducible rfl | simp [ite_pending, ite_trust, -ite_eq_left_iff] | split)

@[simp] theorem startRound_fixed (s : State) (n r : Nat) :
    (startRound s n r).pending = s.pending ∧ (startRound s n r).trust = s.trust := by
  unfold startRound
  try dsimp only
  constructor <;> repeat' (first | with_reducible rfl | simp (disch := (intros; repeat' (first | with_reducible rfl | simp [ite_pending, ite_trust, -ite_eq_left_iff] | split))) [foldl_pending, foldl_trust, ite_pending, ite_trust, -ite_eq_left_iff] | split)

@[simp] theorem mergeOrders_fixed (s : State) (n : Nat) :
    (mergeOrders s n).pending = s.pending ∧ (mergeOrders s n).trust = s.trust := by
  unfold mergeOrders
  try dsimp only
  constructor <;> repeat' (first | with_reducible rfl | simp [ite_pending, ite_trust, -ite_eq_left_iff] | split)

@[simp] theorem coarseEffect_fixed (s : State) (die i : Nat) :
    (coarseEffect s die i).pending = s.pending ∧ (coarseEffect s die i).trust = s.trust := by
  unfold coarseEffect
  try dsimp only
  constructor <;> repeat' (first | with_reducible rfl | simp (disch := (intros; repeat' (first | with_reducible rfl | simp [ite_pending, ite_trust, -ite_eq_left_iff] | split))) [foldl_pending, foldl_trust, ite_pending, ite_trust, -ite_eq_left_iff] | split)

theorem execCoarsePass_fixed (die coll : Nat) (s : State) {u : State} (h : execCoarsePass die coll s = .next u) :
    u.pending = s.pending ∧ u.trust = s.trust := by
  unfold execCoarsePass at h; obtain rfl | rfl := occurs_next h <;> simp

@[simp] theorem buildTables_fixed (s : State) (c : Collection) (b : Batch) :
    (buildTables s c b).pending = s.pending ∧ (buildTables s c b).trust = s.trust := by
  unfold buildTables
  try dsimp only
  constructor <;> repeat' (first | with_reducible rfl | simp (disch := (intros; repeat' (first | with_reducible rfl | simp [ite_pending, ite_trust, -ite_eq_left_iff] | split))) [foldl_pending, foldl_trust, ite_pending, ite_trust, -ite_eq_left_iff] | split)

@[simp] theorem dealTiles_fixed (s : State) (k : Nat) (c : Collection) (b : Batch) (cores grants : List Nat) :
    (dealTiles s k c b cores grants).pending = s.pending ∧ (dealTiles s k c b cores grants).trust = s.trust := by
  unfold dealTiles
  try dsimp only
  constructor <;> repeat' (first | with_reducible rfl | simp (disch := (intros; repeat' (first | with_reducible rfl | simp [ite_pending, ite_trust, -ite_eq_left_iff] | split))) [foldl_pending, foldl_trust, ite_pending, ite_trust, -ite_eq_left_iff] | split)

@[simp] theorem launchEffect_fixed (s : State) (k : Nat) (cores grants : List Nat) :
    (launchEffect s k cores grants).pending = s.pending ∧ (launchEffect s k cores grants).trust = s.trust := by
  unfold launchEffect
  try dsimp only
  constructor <;> repeat' (first | with_reducible rfl | simp [ite_pending, ite_trust, -ite_eq_left_iff] | split)

theorem execBatchLaunch_fixed (batch : Nat) (cores grants : List Nat) (s : State) {u : State} (h : execBatchLaunch batch cores grants s = .next u) :
    u.pending = s.pending ∧ u.trust = s.trust := by
  unfold execBatchLaunch at h; obtain rfl | rfl := occurs_next h <;> simp

theorem execBatchHoldExpiry_fixed (batch : Nat) (cores grants : List Nat) (s : State) {u : State} (h : execBatchHoldExpiry batch cores grants s = .next u) :
    u.pending = s.pending ∧ u.trust = s.trust := by
  unfold execBatchHoldExpiry at h; obtain rfl | rfl := occurs_next h <;> simp

@[simp] theorem sendFlight_fixed (s : State) (n : Nat) (q : SquareId) (input : Nat) (run : List Cand) :
    (sendFlight s n q input run).pending = s.pending ∧ (sendFlight s n q input run).trust = s.trust := by
  simp [sendFlight]

@[simp] theorem emitRuns_fixed (s : State) (core : Nat) (w : Worker) :
    (emitRuns s core w).pending = s.pending ∧ (emitRuns s core w).trust = s.trust := by
  unfold emitRuns
  try dsimp only
  constructor <;> repeat' (first | with_reducible rfl | simp (disch := (intros; repeat' (first | with_reducible rfl | simp [ite_pending, ite_trust, -ite_eq_left_iff] | split))) [foldl_pending, foldl_trust, ite_pending, ite_trust, -ite_eq_left_iff] | split)

@[simp] theorem tileScoredEffect_fixed (s : State) (core k : Nat) (b : Batch) (w : Worker) (c : Collection) :
    (tileScoredEffect s core k b w c).pending = s.pending ∧ (tileScoredEffect s core k b w c).trust = s.trust := by
  unfold tileScoredEffect
  try dsimp only
  constructor <;> repeat' (first | with_reducible rfl | simp [ite_pending, ite_trust, -ite_eq_left_iff] | split)

theorem execTileScored_fixed (x : ScoredTile) (s : State) {u : State} (h : execTileScored x s = .next u) :
    u.pending = s.pending ∧ u.trust = s.trust := by
  unfold execTileScored at h
  try dsimp only at h
  (repeat' split at h) <;> first | (obtain rfl | rfl := occurs_next h <;> constructor <;> repeat' (first | with_reducible rfl | simp [ite_pending, ite_trust, -ite_eq_left_iff] | split)) | simp_all

@[simp] theorem squareRunEffect_fixed (s : State) (n : Nat) (x : Cmd) (q : SquareId) (f : Flight) (rest : List Flight) :
    (squareRunEffect s n x q f rest).pending = s.pending ∧ (squareRunEffect s n x q f rest).trust = s.trust := by
  simp [squareRunEffect]

@[simp] theorem squareLost_fixed (s : State) (n : Nat) (x : Cmd) (q : SquareId) :
    (squareLost s n x q).pending = s.pending ∧ (squareLost s n x q).trust = s.trust := by
  unfold squareLost
  try dsimp only
  constructor <;> repeat' (first | with_reducible rfl | simp [ite_pending, ite_trust, -ite_eq_left_iff] | split)

theorem execSquareRun_fixed (cmd : Nat) (sq : SquareId) (i : SquareInput) (s : State) {u : State} (h : execSquareRun cmd sq i s = .next u) :
    u.pending = s.pending ∧ u.trust = s.trust := by
  unfold execSquareRun at h
  try dsimp only at h
  (repeat' split at h) <;> first | (obtain rfl | rfl := occurs_next h <;> constructor <;> repeat' (first | with_reducible rfl | simp [ite_pending, ite_trust, -ite_eq_left_iff] | split)) | simp_all

@[simp] theorem failSearch_fixed (s : State) (n : Nat) (st : Status) (z : Cause) :
    (failSearch s n st z).pending = s.pending ∧ (failSearch s n st z).trust = s.trust := by
  simp [failSearch]

@[simp] theorem finishSearch_fixed (s : State) (n : Nat) (l : List Cand) :
    (finishSearch s n l).pending = s.pending ∧ (finishSearch s n l).trust = s.trust := by
  unfold finishSearch
  try dsimp only
  constructor <;> repeat' (first | with_reducible rfl | simp [ite_pending, ite_trust, -ite_eq_left_iff] | split)

@[simp] theorem setDist_fixed (s : State) (n k : Nat) (d : F32) :
    (setDist s n k d).pending = s.pending ∧ (setDist s n k d).trust = s.trust := by
  simp [setDist]

@[simp] theorem setTokens_fixed (s : State) (n k : Nat) (ts : List (BitVec 32)) :
    (setTokens s n k ts).pending = s.pending ∧ (setTokens s n k ts).trust = s.trust := by
  simp [setTokens]

@[simp] theorem candArrives_fixed (s : State) (n : Nat) (x : Cmd) (c : Collection) (k : Nat) (b : List Byte) :
    (candArrives s n x c k b).pending = s.pending ∧ (candArrives s n x c k b).trust = s.trust := by
  unfold candArrives
  try dsimp only
  constructor <;> repeat' (first | with_reducible rfl | simp [ite_pending, ite_trust, -ite_eq_left_iff] | split)

@[simp] theorem readCand_fixed (s : State) (n : Nat) (c : Collection) (y : Cand) (k : Nat) :
    (readCand s n c y k).pending = s.pending ∧ (readCand s n c y k).trust = s.trust := by
  unfold readCand
  try dsimp only
  constructor <;> repeat' (first | with_reducible rfl | simp (disch := (intros; repeat' (first | with_reducible rfl | simp [ite_pending, ite_trust, -ite_eq_left_iff] | split))) [foldl_pending, foldl_trust, ite_pending, ite_trust, -ite_eq_left_iff] | split)

@[simp] theorem enqueueGroups_fixed (s : State) (i n : Nat) (ks : List Nat) :
    (enqueueGroups s i n ks).pending = s.pending ∧ (enqueueGroups s i n ks).trust = s.trust := by
  unfold enqueueGroups
  try dsimp only
  constructor <;> repeat' (first | with_reducible rfl | simp (disch := (intros; repeat' (first | with_reducible rfl | simp [ite_pending, ite_trust, -ite_eq_left_iff] | split))) [foldl_pending, foldl_trust, ite_pending, ite_trust, -ite_eq_left_iff] | split)

@[simp] theorem joinPairs_fixed (s : State) (n : Nat) (x : Cmd) :
    (joinPairs s n x).pending = s.pending ∧ (joinPairs s n x).trust = s.trust := by
  unfold joinPairs
  try dsimp only
  constructor <;> repeat' (first | with_reducible rfl | simp (disch := (intros; repeat' (first | with_reducible rfl | simp [ite_pending, ite_trust, -ite_eq_left_iff] | split))) [foldl_pending, foldl_trust, ite_pending, ite_trust, -ite_eq_left_iff] | split)

@[simp] theorem sendRerank_fixed (s : State) (n co txn : Nat) (x : Cmd) :
    (sendRerank s n co txn x).pending = s.pending ∧ (sendRerank s n co txn x).trust = s.trust := by
  simp [sendRerank]

@[simp] theorem settleRerank_fixed (s : State) (n : Nat) :
    (settleRerank s n).pending = s.pending ∧ (settleRerank s n).trust = s.trust := by
  unfold settleRerank
  try dsimp only
  constructor <;> repeat' (first | with_reducible rfl | simp [ite_pending, ite_trust, -ite_eq_left_iff] | split)

@[simp] theorem askShards_fixed (s : State) (n : Nat) (c : Collection) (l : List Cand) (cross : Bool) :
    (askShards s n c l cross).pending = s.pending ∧ (askShards s n c l cross).trust = s.trust := by
  unfold askShards
  try dsimp only
  constructor <;> repeat' (first | with_reducible rfl | simp (disch := (intros; repeat' (first | with_reducible rfl | simp [ite_pending, ite_trust, -ite_eq_left_iff] | split))) [foldl_pending, foldl_trust, ite_pending, ite_trust, -ite_eq_left_iff] | split)

@[simp] theorem startRerank_fixed (s : State) (n : Nat) (l : List Cand) :
    (startRerank s n l).pending = s.pending ∧ (startRerank s n l).trust = s.trust := by
  unfold startRerank
  try dsimp only
  constructor <;> repeat' (first | with_reducible rfl | simp (disch := (intros; repeat' (first | with_reducible rfl | simp [ite_pending, ite_trust, -ite_eq_left_iff] | split))) [foldl_pending, foldl_trust, ite_pending, ite_trust, -ite_eq_left_iff] | split)

@[simp] theorem candRead_fixed (s : State) (n k : Nat) (b : Option (List Byte)) :
    (candRead s n k b).pending = s.pending ∧ (candRead s n k b).trust = s.trust := by
  unfold candRead
  try dsimp only
  constructor <;> repeat' (first | with_reducible rfl | simp [ite_pending, ite_trust, -ite_eq_left_iff] | split)

@[simp] theorem pageArrives_fixed (s : State) (page : Nat) :
    (pageArrives s page).pending = s.pending ∧ (pageArrives s page).trust = s.trust := by
  unfold pageArrives
  try dsimp only
  constructor <;> repeat' (first | with_reducible rfl | simp (disch := (intros; repeat' (first | with_reducible rfl | simp (disch := (intros; repeat' (first | with_reducible rfl | simp [ite_pending, ite_trust, -ite_eq_left_iff] | split))) [foldl_pending, foldl_trust, ite_pending, ite_trust, -ite_eq_left_iff] | split))) [foldl_pending, foldl_trust, ite_pending, ite_trust, -ite_eq_left_iff] | split)

@[simp] theorem sendRound_fixed (s : State) (n : Nat) :
    (sendRound s n).pending = s.pending ∧ (sendRound s n).trust = s.trust := by
  unfold sendRound
  try dsimp only
  constructor <;> repeat' (first | with_reducible rfl | simp (disch := (intros; repeat' (first | with_reducible rfl | simp (disch := (intros; repeat' (first | with_reducible rfl | simp [ite_pending, ite_trust, -ite_eq_left_iff] | split))) [foldl_pending, foldl_trust, ite_pending, ite_trust, -ite_eq_left_iff] | split))) [foldl_pending, foldl_trust, ite_pending, ite_trust, -ite_eq_left_iff] | split)

@[simp] theorem sendShard_fixed (s : State) (n co txn : Nat) (l : List Cand) :
    (sendShard s n co txn l).pending = s.pending ∧ (sendShard s n co txn l).trust = s.trust := by
  unfold sendShard
  try dsimp only
  constructor <;> repeat' (first | with_reducible rfl | simp (disch := (intros; repeat' (first | with_reducible rfl | simp [ite_pending, ite_trust, -ite_eq_left_iff] | split))) [foldl_pending, foldl_trust, ite_pending, ite_trust, -ite_eq_left_iff] | split)

@[simp] theorem roundDone_fixed (s : State) (n : Nat) (l : List Cand) :
    (roundDone s n l).pending = s.pending ∧ (roundDone s n l).trust = s.trust := by
  unfold roundDone
  try dsimp only
  constructor <;> repeat' (first | with_reducible rfl | simp [ite_pending, ite_trust, -ite_eq_left_iff] | split)

@[simp] theorem squareEndEffect_fixed (s : State) (n : Nat) (x : Cmd) (q : SquareId) (input : Nat) :
    (squareEndEffect s n x q input).pending = s.pending ∧ (squareEndEffect s n x q input).trust = s.trust := by
  unfold squareEndEffect
  try dsimp only
  constructor <;> repeat' (first | with_reducible rfl | simp [ite_pending, ite_trust, -ite_eq_left_iff] | split)

theorem execSquareEnd_fixed (cmd : Nat) (sq : SquareId) (input : Nat) (s : State) {u : State} (h : execSquareEnd cmd sq input s = .next u) :
    u.pending = s.pending ∧ u.trust = s.trust := by
  unfold execSquareEnd at h
  try dsimp only at h
  (repeat' split at h) <;> first | (obtain rfl | rfl := occurs_next h <;> constructor <;> repeat' (first | with_reducible rfl | simp [ite_pending, ite_trust, -ite_eq_left_iff] | split)) | simp_all

@[simp] theorem boundEffect_fixed (s : State) (t : Nat) (e : TileEntry) :
    (boundEffect s t e).pending = s.pending ∧ (boundEffect s t e).trust = s.trust := by
  unfold boundEffect
  try dsimp only
  constructor <;> repeat' (first | with_reducible rfl | simp (disch := (intros; repeat' (first | with_reducible rfl | simp [ite_pending, ite_trust, -ite_eq_left_iff] | split))) [foldl_pending, foldl_trust, ite_pending, ite_trust, -ite_eq_left_iff] | split)

theorem execTileBoundExpiry_fixed (tile : Nat) (s : State) {u : State} (h : execTileBoundExpiry tile s = .next u) :
    u.pending = s.pending ∧ u.trust = s.trust := by
  unfold execTileBoundExpiry at h
  try dsimp only at h
  (repeat' split at h) <;> first | (obtain rfl | rfl := occurs_next h <;> constructor <;> repeat' (first | with_reducible rfl | simp [ite_pending, ite_trust, -ite_eq_left_iff] | split)) | simp_all

@[simp] theorem startCoarse_fixed (s : State) (n : Nat) (q : List F32) :
    (startCoarse s n q).pending = s.pending ∧ (startCoarse s n q).trust = s.trust := by
  simp [startCoarse]

@[simp] theorem startSearch_fixed (s : State) (n snap : Nat) :
    (startSearch s n snap).pending = s.pending ∧ (startSearch s n snap).trust = s.trust := by
  unfold startSearch
  try dsimp only
  constructor <;> repeat' (first | with_reducible rfl | simp [ite_pending, ite_trust, -ite_eq_left_iff] | split)

theorem reserveOne_fixed {s u : State} {taken : List Nat} {target t p : Nat} {b : Option Nat} (h : reserveOne s taken target t = some (p, b, u)) : u.pending = s.pending ∧ u.trust = s.trust := by
  unfold reserveOne at h
  dsimp only at h
  (repeat' split at h) <;> first
    | (cases h; done)
    | (cases h; exact ⟨rfl, rfl⟩)
    | (obtain ⟨⟨x, y⟩, hx, hr⟩ := Option.map_eq_some_iff.mp h; cases hr; first | exact takePages_fixed hx | exact takeT4_fixed hx)

theorem reserveAll_fixed {target : Nat} {l : List Nat} {s u : State} {taken a : List Nat} {b : List (Option Nat)} (h : reserveAll target l s taken = some (a, b, u)) : u.pending = s.pending ∧ u.trust = s.trust := by
  induction l generalizing s taken a b with
  | nil => unfold reserveAll at h; cases h; exact ⟨rfl, rfl⟩
  | cons a l ih =>
    unfold reserveAll at h
    try dsimp only at h
    (repeat' split at h) <;> first | (cases h; done) | (cases h; constructor <;> repeat' (first | with_reducible rfl | rw [(ih (by assumption)).1] | rw [(ih (by assumption)).2] | repeat' (first | with_reducible rfl | simp (disch := (intros; repeat' (first | with_reducible rfl | simp [ite_pending, ite_trust, -ite_eq_left_iff, ih (by assumption)] | split | simp only [reserveOne_fixed (by assumption)]))) [foldl_pending, foldl_trust, ite_pending, ite_trust, -ite_eq_left_iff, ih (by assumption)] | split | simp only [reserveOne_fixed (by assumption)])))

theorem reserveTiles_fixed {s u : State} {target : Nat} {ts a : List Nat} {b : List (Option Nat)} (h : reserveTiles s target ts = some (a, b, u)) : u.pending = s.pending ∧ u.trust = s.trust := by
  unfold reserveTiles at h
  dsimp only at h
  split at h
  · cases h
  · exact reserveAll_fixed h

@[simp] theorem leaveCopy_fixed (s : State) (e : TileEntry) (holders : List Nat) :
    (leaveCopy s e holders).pending = s.pending ∧ (leaveCopy s e holders).trust = s.trust := by
  unfold leaveCopy
  try dsimp only
  constructor <;> repeat' (first | with_reducible rfl | simp [ite_pending, ite_trust, -ite_eq_left_iff] | split)

@[simp] theorem switchTile_fixed (s : State) (target : Nat) (holders : List Nat) (t place : Nat) (b : Option Nat) :
    (switchTile s target holders t place b).pending = s.pending ∧ (switchTile s target holders t place b).trust = s.trust := by
  unfold switchTile
  try dsimp only
  constructor <;> repeat' (first | with_reducible rfl | simp [ite_pending, ite_trust, -ite_eq_left_iff] | split)

@[simp] theorem switchTiles_fixed (target : Nat) (holders ts ps : List Nat) (bs : List (Option Nat)) (s : State) :
    (switchTiles target holders ts ps bs s).pending = s.pending ∧ (switchTiles target holders ts ps bs s).trust = s.trust := by
  induction ts generalizing ps bs s with
  | nil => simp [switchTiles]
  | cons t ts ih => cases ps <;> cases bs <;> simp_all [switchTiles]

@[simp] theorem cancelEvictions_fixed (s : State) (ns : List Nat) :
    (cancelEvictions s ns).pending = s.pending ∧ (cancelEvictions s ns).trust = s.trust := by
  unfold cancelEvictions
  try dsimp only
  constructor <;> repeat' (first | with_reducible rfl | simp (disch := (intros; repeat' (first | with_reducible rfl | simp [ite_pending, ite_trust, -ite_eq_left_iff] | split))) [foldl_pending, foldl_trust, ite_pending, ite_trust, -ite_eq_left_iff] | split)

@[simp] theorem startMove_fixed (s : State) (n i : Nat) (c : Collection) (x : Cmd) :
    (startMove s n i c x).pending = s.pending ∧ (startMove s n i c x).trust = s.trust := by
  unfold startMove
  try dsimp only
  constructor <;> repeat' (first | with_reducible rfl | simp [ite_pending, ite_trust, -ite_eq_left_iff] | split | simp only [reserveTiles_fixed (by assumption)])

@[simp] theorem indexToImage_fixed (s : State) (c : Collection) :
    (indexToImage s c).pending = s.pending ∧ (indexToImage s c).trust = s.trust := by
  unfold indexToImage
  try dsimp only
  constructor <;> repeat' (first | with_reducible rfl | simp (disch := (intros; repeat' (first | with_reducible rfl | simp [ite_pending, ite_trust, -ite_eq_left_iff] | split))) [foldl_pending, foldl_trust, ite_pending, ite_trust, -ite_eq_left_iff] | split)

@[simp] theorem startPark_fixed (s : State) (n i : Nat) (c : Collection) (x : Cmd) :
    (startPark s n i c x).pending = s.pending ∧ (startPark s n i c x).trust = s.trust := by
  unfold startPark
  try dsimp only
  constructor <;> repeat' (first | with_reducible rfl | simp [ite_pending, ite_trust, -ite_eq_left_iff] | split | simp only [appendEvery_fixed (by assumption)] | simp only [reserveTiles_fixed (by assumption)])

@[simp] theorem evictEffect_fixed (s : State) (i n : Nat) (c : Collection) (x : Cmd) :
    (evictEffect s i n c x).pending = s.pending ∧ (evictEffect s i n c x).trust = s.trust := by
  unfold evictEffect
  try dsimp only
  constructor <;> repeat' (first | with_reducible rfl | simp [ite_pending, ite_trust, -ite_eq_left_iff] | split | simp only [reserveTiles_fixed (by assumption)])

theorem execEvictionSwitch_fixed (coll : Nat) (obj : ObjKind) (s : State) {u : State} (h : execEvictionSwitch coll obj s = .next u) :
    u.pending = s.pending ∧ u.trust = s.trust := by
  unfold execEvictionSwitch at h
  try dsimp only at h
  (repeat' split at h) <;> first | (obtain rfl | rfl := occurs_next h <;> constructor <;> repeat' (first | with_reducible rfl | simp [ite_pending, ite_trust, -ite_eq_left_iff] | split)) | simp_all

@[simp] theorem moveEffect_fixed (s : State) (n i : Nat) (x : Cmd) :
    (moveEffect s n i x).pending = s.pending ∧ (moveEffect s n i x).trust = s.trust := by
  unfold moveEffect
  try dsimp only
  constructor <;> repeat' (first | with_reducible rfl | simp [ite_pending, ite_trust, -ite_eq_left_iff] | split | simp only [reserveTiles_fixed (by assumption)])

theorem execMoveSwitch_fixed (cmd : Nat) (s : State) {u : State} (h : execMoveSwitch cmd s = .next u) :
    u.pending = s.pending ∧ u.trust = s.trust := by
  unfold execMoveSwitch at h
  try dsimp only at h
  (repeat' split at h) <;> first | (obtain rfl | rfl := occurs_next h <;> constructor <;> repeat' (first | with_reducible rfl | simp [ite_pending, ite_trust, -ite_eq_left_iff] | split)) | simp_all

theorem takeT2_fixed {n : Nat} {s u : State} {l : List Nat} (h : takeT2 n s = some (l, u)) : u.pending = s.pending ∧ u.trust = s.trust := by
  induction n generalizing s l with
  | zero => unfold takeT2 at h; cases h; exact ⟨rfl, rfl⟩
  | succ n ih =>
    unfold takeT2 at h
    split at h
    · cases h
    · obtain ⟨x, hx, hr⟩ := Option.map_eq_some_iff.mp h
      cases hr
      simp [ih hx, takePages_fixed (by assumption)]

@[simp] theorem startWake_fixed (s : State) (n i : Nat) (c : Collection) :
    (startWake s n i c).pending = s.pending ∧ (startWake s n i c).trust = s.trust := by
  unfold startWake
  try dsimp only
  constructor <;> repeat' (first | with_reducible rfl | simp [ite_pending, ite_trust, -ite_eq_left_iff] | split | simp only [takePages_fixed (by assumption)] | simp only [takeT2_fixed (by assumption)])

@[simp] theorem wakeCommand_fixed (s : State) (n i : Nat) (c : Collection) :
    (wakeCommand s n i c).pending = s.pending ∧ (wakeCommand s n i c).trust = s.trust := by
  unfold wakeCommand
  try dsimp only
  constructor <;> repeat' (first | with_reducible rfl | simp [ite_pending, ite_trust, -ite_eq_left_iff] | split)

@[simp] theorem dropMaint_fixed (s : State) (i : Nat) :
    (dropMaint s i).pending = s.pending ∧ (dropMaint s i).trust = s.trust := by
  unfold dropMaint
  try dsimp only
  constructor <;> repeat' (first | with_reducible rfl | simp (disch := (intros; repeat' (first | with_reducible rfl | simp [ite_pending, ite_trust, -ite_eq_left_iff] | split))) [foldl_pending, foldl_trust, ite_pending, ite_trust, -ite_eq_left_iff] | split)

@[simp] theorem endWake_fixed (s : State) (i : Nat) (st : Status) (z : Cause) :
    (endWake s i st z).pending = s.pending ∧ (endWake s i st z).trust = s.trust := by
  unfold endWake
  try dsimp only
  constructor <;> repeat' (first | with_reducible rfl | simp (disch := (intros; repeat' (first | with_reducible rfl | simp [ite_pending, ite_trust, -ite_eq_left_iff] | split))) [foldl_pending, foldl_trust, ite_pending, ite_trust, -ite_eq_left_iff] | split)

@[simp] theorem wakeEffect_fixed (s : State) (i : Nat) (c : Collection) :
    (wakeEffect s i c).pending = s.pending ∧ (wakeEffect s i c).trust = s.trust := by
  unfold wakeEffect
  try dsimp only
  constructor <;> repeat' (first | with_reducible rfl | simp (disch := (intros; repeat' (first | with_reducible rfl | simp [ite_pending, ite_trust, -ite_eq_left_iff] | split))) [foldl_pending, foldl_trust, ite_pending, ite_trust, -ite_eq_left_iff] | split)

@[simp] theorem wakeSwitchEffect_fixed (s : State) (i : Nat) (c : Collection) :
    (wakeSwitchEffect s i c).pending = s.pending ∧ (wakeSwitchEffect s i c).trust = s.trust := by
  unfold wakeSwitchEffect
  try dsimp only
  constructor <;> repeat' (first | with_reducible rfl | simp [ite_pending, ite_trust, -ite_eq_left_iff] | split)

theorem execWakeSwitch_fixed (coll : Nat) (s : State) {u : State} (h : execWakeSwitch coll s = .next u) :
    u.pending = s.pending ∧ u.trust = s.trust := by
  unfold execWakeSwitch at h
  try dsimp only at h
  (repeat' split at h) <;> first | (obtain rfl | rfl := occurs_next h <;> constructor <;> repeat' (first | with_reducible rfl | simp [ite_pending, ite_trust, -ite_eq_left_iff] | split)) | simp_all

theorem execDeferLimitExpiry_fixed (cmd : Nat) (s : State) {u : State} (h : execDeferLimitExpiry cmd s = .next u) :
    u.pending = s.pending ∧ u.trust = s.trust := by
  unfold execDeferLimitExpiry at h
  try dsimp only at h
  (repeat' split at h) <;> first | (obtain rfl | rfl := occurs_next h <;> constructor <;> repeat' (first | with_reducible rfl | simp [ite_pending, ite_trust, -ite_eq_left_iff] | split)) | simp_all

theorem execMoveDeadline_fixed (cmd : Nat) (s : State) {u : State} (h : execMoveDeadline cmd s = .next u) :
    u.pending = s.pending ∧ u.trust = s.trust := by
  unfold execMoveDeadline at h
  try dsimp only at h
  (repeat' split at h) <;> first | (obtain rfl | rfl := occurs_next h <;> constructor <;> repeat' (first | with_reducible rfl | simp [ite_pending, ite_trust, -ite_eq_left_iff] | split)) | simp_all

@[simp] theorem backingEffect_fixed (s : State) (t : Nat) (e : TileEntry) :
    (backingEffect s t e).pending = s.pending ∧ (backingEffect s t e).trust = s.trust := by
  simp [backingEffect]

theorem execT4BackingWrite_fixed (tile : Nat) (s : State) {u : State} (h : execT4BackingWrite tile s = .next u) :
    u.pending = s.pending ∧ u.trust = s.trust := by
  unfold execT4BackingWrite at h
  try dsimp only at h
  (repeat' split at h) <;> first | (obtain rfl | rfl := occurs_next h <;> constructor <;> repeat' (first | with_reducible rfl | simp [ite_pending, ite_trust, -ite_eq_left_iff] | split)) | simp_all

@[simp] theorem parkOnImage_fixed (s : State) (i : Nat) :
    (parkOnImage s i).pending = s.pending ∧ (parkOnImage s i).trust = s.trust := by
  unfold parkOnImage
  try dsimp only
  constructor <;> repeat' (first | with_reducible rfl | simp [ite_pending, ite_trust, -ite_eq_left_iff] | split)

@[simp] theorem leaveLease_fixed (s : State) (lost : Bool) (t : Nat) :
    (leaveLease s lost t).pending = s.pending ∧ (leaveLease s lost t).trust = s.trust := by
  unfold leaveLease
  try dsimp only
  constructor <;> repeat' (first | with_reducible rfl | simp [ite_pending, ite_trust, -ite_eq_left_iff] | split)

@[simp] theorem commitLost_fixed (s : State) (i d : Nat) :
    (commitLost s i d).pending = s.pending ∧ (commitLost s i d).trust = s.trust := by
  unfold commitLost
  try dsimp only
  constructor <;> repeat' (first | with_reducible rfl | simp [ite_pending, ite_trust, -ite_eq_left_iff] | split)

@[simp] theorem peerFails_fixed (s : State) (txn : Nat) :
    (peerFails s txn).pending = s.pending ∧ (peerFails s txn).trust = s.trust := by
  unfold peerFails
  try dsimp only
  constructor <;> repeat' (first | with_reducible rfl | simp (disch := (intros; repeat' (first | with_reducible rfl | simp (disch := (intros; repeat' (first | with_reducible rfl | simp [ite_pending, ite_trust, -ite_eq_left_iff] | split))) [foldl_pending, foldl_trust, ite_pending, ite_trust, -ite_eq_left_iff] | split))) [foldl_pending, foldl_trust, ite_pending, ite_trust, -ite_eq_left_iff] | split)

@[simp] theorem dropLease_fixed (s : State) (k : Nat) (lost : Bool) :
    (dropLease s k lost).pending = s.pending ∧ (dropLease s k lost).trust = s.trust := by
  unfold dropLease
  try dsimp only
  constructor <;> repeat' (first | with_reducible rfl | simp (disch := (intros; repeat' (first | with_reducible rfl | simp (disch := (intros; repeat' (first | with_reducible rfl | simp [ite_pending, ite_trust, -ite_eq_left_iff] | split))) [foldl_pending, foldl_trust, ite_pending, ite_trust, -ite_eq_left_iff] | split))) [foldl_pending, foldl_trust, ite_pending, ite_trust, -ite_eq_left_iff] | split)

@[simp] theorem closeLease_fixed (s : State) (k : Nat) :
    (closeLease s k).pending = s.pending ∧ (closeLease s k).trust = s.trust := by
  unfold closeLease
  try dsimp only
  constructor <;> repeat' (first | with_reducible rfl | simp [ite_pending, ite_trust, -ite_eq_left_iff] | split)

theorem execRevokeGraceExpiry_fixed (lease : Nat) (s : State) {u : State} (h : execRevokeGraceExpiry lease s = .next u) :
    u.pending = s.pending ∧ u.trust = s.trust := by
  unfold execRevokeGraceExpiry at h
  try dsimp only at h
  (repeat' split at h) <;> first | (obtain rfl | rfl := occurs_next h <;> constructor <;> repeat' (first | with_reducible rfl | simp [ite_pending, ite_trust, -ite_eq_left_iff] | split)) | simp_all

end Sys2Proof.Machine
end

