-- ==== Sys2Proof/Laws/FrameCommands.lean ====
section
/-! SUPPORT. Frames: what commands, admission, completion, model runs and flash keep. Each lemma says of one operation that it keeps the queue of waiting commands
and the trust state; of an operation that may change the trust state, that it keeps the queue. -/

namespace Sys2Proof.Machine

open Sys2Proof
set_option linter.unusedSimpArgs false
set_option linter.unusedTactic false
set_option linter.unreachableTactic false
set_option linter.unnecessarySeqFocus false

@[simp] theorem noteTurn_fixed (s : State) (p : PortId) (q : Nat) :
    (noteTurn s p q).pending = s.pending ∧ (noteTurn s p q).trust = s.trust := by
  simp [noteTurn]

@[simp] theorem drawToken_fixed (s : State) :
    (drawToken s).1.pending = s.pending ∧ (drawToken s).1.trust = s.trust := by
  simp [drawToken]

@[simp] theorem takeEntry_fixed (s : State) (p : PortId) (q : Nat) (e : BitVec 1024) (inp : List Byte) (word : CmdWord) :
    (takeEntry s p q e inp word).pending = s.pending ∧ (takeEntry s p q e inp word).trust = s.trust := by
  unfold takeEntry
  try dsimp only
  constructor <;> repeat' (first | with_reducible rfl | simp [ite_pending, ite_trust, -ite_eq_left_iff] | split)

@[simp] theorem failCheck_fixed (s : State) (n : Nat) (f : Failure) :
    (failCheck s n f).pending = s.pending ∧ (failCheck s n f).trust = s.trust := by
  unfold failCheck
  try dsimp only
  constructor <;> repeat' (first | with_reducible rfl | simp [ite_pending, ite_trust, -ite_eq_left_iff] | split)

@[simp] theorem refuseToken_fixed (s : State) (p : PortId) (n : Nat) :
    (refuseToken s p n).pending = s.pending ∧ (refuseToken s p n).trust = s.trust := by
  simp [refuseToken]

theorem readInput_fixed {after : State → Nat → State} (ha : ∀ s n, (after s n).pending = s.pending ∧ (after s n).trust = s.trust)
    (s : State) (p : PortId) (n : Nat) :
    (readInput s p n after).pending = s.pending ∧ (readInput s p n after).trust = s.trust := by
  unfold readInput
  dsimp only
  split <;> simp [ha]

theorem readInput_pending {after : State → Nat → State} (ha : ∀ s n, (after s n).pending = s.pending)
    (s : State) (p : PortId) (n : Nat) : (readInput s p n after).pending = s.pending := by
  unfold readInput
  dsimp only
  split <;> simp [ha]

theorem fetchChecked_fixed {after : State → Nat → State} (ha : ∀ s n, (after s n).pending = s.pending ∧ (after s n).trust = s.trust)
    (s : State) (p : PortId) (q : Nat) (e : BitVec 1024) (inp : List Byte) :
    (fetchChecked s p q e inp after).pending = s.pending ∧ (fetchChecked s p q e inp after).trust = s.trust := by
  unfold fetchChecked
  try dsimp only
  constructor <;> repeat' (first | with_reducible rfl | simp [ite_pending, ite_trust, -ite_eq_left_iff, readInput_fixed ha] | split)

theorem fetchChecked_pending {after : State → Nat → State} (ha : ∀ s n, (after s n).pending = s.pending)
    (s : State) (p : PortId) (q : Nat) (e : BitVec 1024) (inp : List Byte) :
    (fetchChecked s p q e inp after).pending = s.pending := by
  unfold fetchChecked
  try dsimp only
  repeat' (first | with_reducible rfl | simp [ite_pending, ite_trust, -ite_eq_left_iff, readInput_pending ha] | split)

theorem turnTo_fixed {after : State → Nat → State} (ha : ∀ s n, (after s n).pending = s.pending ∧ (after s n).trust = s.trust)
    (s : State) (p : PortId) (q : Nat) (e : BitVec 1024) (inp : List Byte) :
    (turnTo s p q e inp after).pending = s.pending ∧ (turnTo s p q e inp after).trust = s.trust := by
  unfold turnTo
  dsimp only
  split <;> simp [fetchChecked_fixed ha]

theorem turnTo_pending {after : State → Nat → State} (ha : ∀ s n, (after s n).pending = s.pending)
    (s : State) (p : PortId) (q : Nat) (e : BitVec 1024) (inp : List Byte) : (turnTo s p q e inp after).pending = s.pending := by
  unfold turnTo
  dsimp only
  split <;> simp [fetchChecked_pending ha]

theorem fetchRow_fixed {after : State → Nat → State} (ha : ∀ s n, (after s n).pending = s.pending ∧ (after s n).trust = s.trust)
    {op : Nat} {p : PortId} {q : Nat} {e : BitVec 1024} {inp : List Byte} {s u : State} (h : fetchRow op p q e inp after s = .next u) :
    u.pending = s.pending ∧ u.trust = s.trust := by
  unfold fetchRow at h
  obtain rfl | rfl := occurs_next h
  · exact turnTo_fixed ha ..
  · exact ⟨rfl, rfl⟩

@[simp] theorem endAborted_fixed (s : State) (m : Nat) (x : Cmd) :
    (endAborted s m x).pending = s.pending ∧ (endAborted s m x).trust = s.trust := by
  unfold endAborted
  try dsimp only
  constructor <;> repeat' (first | with_reducible rfl | simp [ite_pending, ite_trust, -ite_eq_left_iff] | split)

@[simp] theorem abortEffect_fixed (s : State) (n : Nat) :
    (abortEffect s n).pending = s.pending ∧ (abortEffect s n).trust = s.trust := by
  unfold abortEffect
  try dsimp only
  constructor <;> repeat' (first | with_reducible rfl | simp [ite_pending, ite_trust, -ite_eq_left_iff] | split)

@[simp] theorem closeReader_fixed (p : PortId) (q : Nat) (s : State) (n : Nat) :
    (closeReader p q s n).pending = s.pending ∧ (closeReader p q s n).trust = s.trust := by
  unfold closeReader
  try dsimp only
  constructor <;> repeat' (first | with_reducible rfl | simp [ite_pending, ite_trust, -ite_eq_left_iff] | split)

@[simp] theorem foldl_keeps {α β γ : Type} (f : β → γ) (g : β → α → β) (h : ∀ b a, f (g b a) = f b) :
    ∀ (l : List α) (b : β), f (l.foldl g b) = f b
  | [], _ => rfl
  | a :: l, b => (foldl_keeps f g h l (g b a)).trans (h b a)

@[simp] theorem closeFlush_fixed (s : State) (n : Nat) :
    (closeFlush s n).pending = s.pending ∧ (closeFlush s n).trust = s.trust := by
  unfold closeFlush
  split
  · exact ⟨rfl, rfl⟩
  · dsimp only
    simp [foldl_keeps (fun x : State × List (Nat × Nat) => x.1.pending), foldl_keeps (fun x : State × List (Nat × Nat) => x.1.trust)]

@[simp] theorem waitAdmission_fixed (s : State) (z1 : Nat) :
    (waitAdmission s z1).pending = s.pending ∧ (waitAdmission s z1).trust = s.trust := by
  simp [waitAdmission]

theorem execSearch_fixed (p : PortId) (q : Nat) (e : BitVec 1024) (inp : List Byte) (s : State) {u : State} (h : execSearch p q e inp s = .next u) :
    u.pending = s.pending ∧ u.trust = s.trust := by
  unfold execSearch at h
  refine fetchRow_fixed (fun s n => ?_) h
  simp

theorem execInsert_fixed (p : PortId) (q : Nat) (e : BitVec 1024) (inp : List Byte) (s : State) {u : State} (h : execInsert p q e inp s = .next u) :
    u.pending = s.pending ∧ u.trust = s.trust := by
  unfold execInsert at h
  refine fetchRow_fixed (fun s n => ?_) h
  simp

theorem execUpsert_fixed (p : PortId) (q : Nat) (e : BitVec 1024) (inp : List Byte) (s : State) {u : State} (h : execUpsert p q e inp s = .next u) :
    u.pending = s.pending ∧ u.trust = s.trust := by
  unfold execUpsert at h
  refine fetchRow_fixed (fun s n => ?_) h
  simp

theorem execDelete_fixed (p : PortId) (q : Nat) (e : BitVec 1024) (inp : List Byte) (s : State) {u : State} (h : execDelete p q e inp s = .next u) :
    u.pending = s.pending ∧ u.trust = s.trust := by
  unfold execDelete at h
  refine fetchRow_fixed (fun s n => ?_) h
  simp

theorem execFetch_fixed (p : PortId) (q : Nat) (e : BitVec 1024) (inp : List Byte) (s : State) {u : State} (h : execFetch p q e inp s = .next u) :
    u.pending = s.pending ∧ u.trust = s.trust := by
  unfold execFetch at h
  refine fetchRow_fixed (fun s n => ?_) h
  simp

theorem execFlush_fixed (p : PortId) (q : Nat) (e : BitVec 1024) (inp : List Byte) (s : State) {u : State} (h : execFlush p q e inp s = .next u) :
    u.pending = s.pending ∧ u.trust = s.trust := by
  unfold execFlush at h
  refine fetchRow_fixed (fun s n => ?_) h
  simp

theorem execAbort_fixed (p : PortId) (q : Nat) (e : BitVec 1024) (inp : List Byte) (s : State) {u : State} (h : execAbort p q e inp s = .next u) :
    u.pending = s.pending ∧ u.trust = s.trust := by
  unfold execAbort at h
  refine fetchRow_fixed (fun s n => ?_) h
  simp

theorem execTierMove_fixed (p : PortId) (q : Nat) (e : BitVec 1024) (inp : List Byte) (s : State) {u : State} (h : execTierMove p q e inp s = .next u) :
    u.pending = s.pending ∧ u.trust = s.trust := by
  unfold execTierMove at h
  refine fetchRow_fixed (fun s n => ?_) h
  simp

theorem execPark_fixed (p : PortId) (q : Nat) (e : BitVec 1024) (inp : List Byte) (s : State) {u : State} (h : execPark p q e inp s = .next u) :
    u.pending = s.pending ∧ u.trust = s.trust := by
  unfold execPark at h
  refine fetchRow_fixed (fun s n => ?_) h
  simp

theorem execWake_fixed (p : PortId) (q : Nat) (e : BitVec 1024) (inp : List Byte) (s : State) {u : State} (h : execWake p q e inp s = .next u) :
    u.pending = s.pending ∧ u.trust = s.trust := by
  unfold execWake at h
  refine fetchRow_fixed (fun s n => ?_) h
  simp

@[simp] theorem takePins_fixed (s : State) (n i : Nat) (os : List ObjKind) :
    (takePins s n i os).pending = s.pending ∧ (takePins s n i os).trust = s.trust := by
  unfold takePins
  try dsimp only
  constructor <;> repeat' (first | with_reducible rfl | simp [ite_pending, ite_trust, -ite_eq_left_iff] | split)

@[simp] theorem sendForward_fixed (s : State) (n d : Nat) (x : Cmd) :
    (sendForward s n d x).pending = s.pending ∧ (sendForward s n d x).trust = s.trust := by
  simp [sendForward]

@[simp] theorem forwardCommand_fixed (s : State) (n d : Nat) (x : Cmd) :
    (forwardCommand s n d x).pending = s.pending ∧ (forwardCommand s n d x).trust = s.trust := by
  simp [forwardCommand]

@[simp] theorem fanOut_fixed (s : State) (n : Nat) (c : Collection) (x : Cmd) :
    (fanOut s n c x).pending = s.pending ∧ (fanOut s n c x).trust = s.trust := by
  unfold fanOut
  try dsimp only
  constructor <;> repeat' (first | with_reducible rfl | simp (disch := (intros; repeat' (first | with_reducible rfl | simp [ite_pending, ite_trust, -ite_eq_left_iff] | split))) [foldl_pending, foldl_trust, ite_pending, ite_trust, -ite_eq_left_iff] | split)

@[simp] theorem fetchAll_fixed (s : State) (n snap : Nat) (c : Collection) (x : Cmd) :
    (fetchAll s n snap c x).pending = s.pending ∧ (fetchAll s n snap c x).trust = s.trust := by
  unfold fetchAll
  try dsimp only
  constructor <;> repeat' (first | with_reducible rfl | simp [ite_pending, ite_trust, -ite_eq_left_iff] | split)

@[simp] theorem startShard_fixed (s : State) (n snap : Nat) (c : Collection) :
    (startShard s n snap c).pending = s.pending ∧ (startShard s n snap c).trust = s.trust := by
  simp [startShard]

@[simp] theorem takeSnapshot_fixed (s : State) (n top : Nat) :
    (takeSnapshot s n top).pending = s.pending ∧ (takeSnapshot s n top).trust = s.trust := by
  unfold takeSnapshot
  try dsimp only
  constructor <;> repeat' (first | with_reducible rfl | simp [ite_pending, ite_trust, -ite_eq_left_iff] | split)

@[simp] theorem askSnapshot_fixed (s : State) (n i : Nat) (c : Collection) (x : Cmd) :
    (askSnapshot s n i c x).pending = s.pending ∧ (askSnapshot s n i c x).trust = s.trust := by
  unfold askSnapshot
  try dsimp only
  constructor <;> repeat' (first | with_reducible rfl | simp [ite_pending, ite_trust, -ite_eq_left_iff] | split)

theorem takeScratch_fixed {s : State} {n : Nat} {x : Cmd} {u : State} (h : takeScratch s n x = some u) : u.pending = s.pending ∧ u.trust = s.trust := by
  unfold takeScratch at h
  rcases ite_or h with h | h
  · cases h; exact ⟨rfl, rfl⟩
  · obtain ⟨⟨p, v⟩, hx, rfl⟩ := Option.map_eq_some_iff.mp h
    simp [takePages_fixed hx]

@[simp] theorem takeScratch_getD_fixed (s : State) (n : Nat) (x : Cmd) :
    ((takeScratch s n x).getD s).pending = s.pending ∧ ((takeScratch s n x).getD s).trust = s.trust := by
  cases h : takeScratch s n x with
  | none => exact ⟨rfl, rfl⟩
  | some u => exact takeScratch_fixed h

@[simp] theorem admitItems_fixed (s : State) (n i : Nat) (c : Collection) (x : Cmd) :
    (admitItems s n i c x).pending = s.pending ∧ (admitItems s n i c x).trust = s.trust := by
  unfold admitItems
  try dsimp only
  constructor <;> repeat' (first | with_reducible rfl | simp [ite_pending, ite_trust, -ite_eq_left_iff] | split)

@[simp] theorem admitDelete_fixed (s : State) (n : Nat) (x : Cmd) :
    (admitDelete s n x).pending = s.pending ∧ (admitDelete s n x).trust = s.trust := by
  simp [admitDelete]

@[simp] theorem admitFlush_fixed (s : State) (n : Nat) (x : Cmd) :
    (admitFlush s n x).pending = s.pending ∧ (admitFlush s n x).trust = s.trust := by
  unfold admitFlush
  try dsimp only
  constructor <;> repeat' (first | with_reducible rfl | simp [ite_pending, ite_trust, -ite_eq_left_iff] | split)

@[simp] theorem runCommand_fixed (s : State) (n i : Nat) (c : Collection) (x : Cmd) :
    (runCommand s n i c x).pending = s.pending ∧ (runCommand s n i c x).trust = s.trust := by
  unfold runCommand
  try dsimp only
  constructor <;> repeat' (first | with_reducible rfl | simp [ite_pending, ite_trust, -ite_eq_left_iff] | split | simp only [takeScratch_fixed (by assumption)])

@[simp] theorem runPlacement_fixed (s : State) (n i : Nat) (c : Collection) (x : Cmd) :
    (runPlacement s n i c x).pending = s.pending ∧ (runPlacement s n i c x).trust = s.trust := by
  unfold runPlacement
  try dsimp only
  constructor <;> repeat' (first | with_reducible rfl | simp [ite_pending, ite_trust, -ite_eq_left_iff] | split)

@[simp] theorem admitData_fixed (s : State) (n : Nat) (x : Cmd) :
    (admitData s n x).pending = s.pending ∧ (admitData s n x).trust = s.trust := by
  unfold admitData
  try dsimp only
  constructor <;> repeat' (first | with_reducible rfl | simp [ite_pending, ite_trust, -ite_eq_left_iff] | split)

@[simp] theorem signalEntry_fixed (s : State) (p : PortId) (q cls : Nat) :
    (signalEntry s p q cls).pending = s.pending ∧ (signalEntry s p q cls).trust = s.trust := by
  unfold signalEntry
  try dsimp only
  constructor <;> repeat' (first | with_reducible rfl | simp [ite_pending, ite_trust, -ite_eq_left_iff] | split)

@[simp] theorem writeEntry_fixed (s : State) (p : PortId) (q : Nat) (c : Cmd) (k : Completion) :
    (writeEntry s p q c k).pending = s.pending ∧ (writeEntry s p q c k).trust = s.trust := by
  simp [writeEntry]

@[simp] theorem afterPost_fixed (s : State) (n : Nat) (c : Cmd) (p : PortId) (q : Nat) (st : Status) :
    (afterPost s n c p q st).pending = s.pending ∧ (afterPost s n c p q st).trust = s.trust := by
  unfold afterPost
  try dsimp only
  constructor <;> repeat' (first | with_reducible rfl | simp [ite_pending, ite_trust, -ite_eq_left_iff] | split)

@[simp] theorem writeResult_fixed (s : State) (c : Cmd) :
    (writeResult s c).pending = s.pending ∧ (writeResult s c).trust = s.trust := by
  unfold writeResult
  try dsimp only
  constructor <;> repeat' (first | with_reducible rfl | simp [ite_pending, ite_trust, -ite_eq_left_iff] | split)

@[simp] theorem resultStep_fixed (s : State) (c : Cmd) (k : Completion) (p : PortId) :
    (resultStep s c k p).1.pending = s.pending ∧ (resultStep s c k p).1.trust = s.trust := by
  unfold resultStep
  try dsimp only
  constructor <;> repeat' (first | with_reducible rfl | simp [ite_pending, ite_trust, -ite_eq_left_iff] | split)

@[simp] theorem entryFails_fixed (s : State) (n : Nat) (c : Cmd) (k : Completion) (p : PortId) (q : Nat) :
    (entryFails s n c k p q).pending = s.pending ∧ (entryFails s n c k p q).trust = s.trust := by
  unfold entryFails
  try dsimp only
  constructor <;> repeat' (first | with_reducible rfl | simp [ite_pending, ite_trust, -ite_eq_left_iff] | split)

@[simp] theorem postEffect_fixed (s : State) (n : Nat) (c : Cmd) (k : Completion) (p : PortId) (q : Nat) :
    (postEffect s n c k p q).pending = s.pending ∧ (postEffect s n c k p q).trust = s.trust := by
  unfold postEffect
  try dsimp only
  constructor <;> repeat' (first | with_reducible rfl | simp [ite_pending, ite_trust, -ite_eq_left_iff] | split)

@[simp] theorem postQueued_fixed (s : State) (n : Nat) (c : Cmd) (k : Completion) (p : PortId) (q : Nat) :
    (postQueued s n c k p q).pending = s.pending ∧ (postQueued s n c k p q).trust = s.trust := by
  unfold postQueued
  try dsimp only
  constructor <;> repeat' (first | with_reducible rfl | simp [ite_pending, ite_trust, -ite_eq_left_iff] | split)

@[simp] theorem postMailbox_fixed (s : State) (n : Nat) (c : Cmd) (k : Completion) (p : PortId) (m : Nat) :
    (postMailbox s n c k p m).pending = s.pending ∧ (postMailbox s n c k p m).trust = s.trust := by
  unfold postMailbox
  try dsimp only
  constructor <;> repeat' (first | with_reducible rfl | simp [ite_pending, ite_trust, -ite_eq_left_iff] | split)

theorem execCompletionPost_fixed (cmd : Nat) (port : PortId) (place : PostTo) (s : State) {u : State}
    (h : execCompletionPost cmd port place s = .next u) :
    u.pending = s.pending ∧ u.trust = s.trust := by
  unfold execCompletionPost at h
  try dsimp only at h
  (repeat' split at h) <;> first | (obtain rfl | rfl := occurs_next h <;> constructor <;> repeat' (first | with_reducible rfl | simp [ite_pending, ite_trust, -ite_eq_left_iff] | split)) | simp_all

theorem execSqFetchFailure_fixed (p : PortId) (q : Nat) (fault : Bool) (s : State) {u : State} (h : execSqFetchFailure p q fault s = .next u) :
    u.pending = s.pending ∧ u.trust = s.trust := by
  unfold execSqFetchFailure at h
  try dsimp only at h
  (repeat' split at h) <;> first | (obtain rfl | rfl := occurs_next h <;> constructor <;> repeat' (first | with_reducible rfl | simp [ite_pending, ite_trust, -ite_eq_left_iff] | split)) | simp_all

@[simp] theorem endSliced_fixed (s : State) (k : Nat) (st : Status) (z : Cause) :
    (endSliced s k st z).pending = s.pending ∧ (endSliced s k st z).trust = s.trust := by
  unfold endSliced
  try dsimp only
  constructor <;> repeat' (first | with_reducible rfl | simp [ite_pending, ite_trust, -ite_eq_left_iff] | split)

@[simp] theorem advance_fixed (s : State) (k : Nat) :
    (advance s k).pending = s.pending ∧ (advance s k).trust = s.trust := by
  unfold advance
  try dsimp only
  constructor <;> repeat' (first | with_reducible rfl | simp [ite_pending, ite_trust, -ite_eq_left_iff] | split)

@[simp] theorem loadProgram_fixed (s : State) (k : Nat) :
    (loadProgram s k).pending = s.pending ∧ (loadProgram s k).trust = s.trust := by
  unfold loadProgram
  try dsimp only
  constructor <;> repeat' (first | with_reducible rfl | simp [ite_pending, ite_trust, -ite_eq_left_iff] | split)

@[simp] theorem actPut_fixed (s : State) (k off : Nat) (b : Byte) :
    (actPut s k off b).pending = s.pending ∧ (actPut s k off b).trust = s.trust := by
  unfold actPut
  try dsimp only
  constructor <;> repeat' (first | with_reducible rfl | simp [ite_pending, ite_trust, -ite_eq_left_iff] | split)

@[simp] theorem actWrite_fixed (s : State) (k off : Nat) (b : List Byte) :
    (actWrite s k off b).pending = s.pending ∧ (actWrite s k off b).trust = s.trust := by
  simp [actWrite]

@[simp] theorem landSlot_fixed (s : State) (k slot : Nat) (b : List Byte) :
    (landSlot s k slot b).pending = s.pending ∧ (landSlot s k slot b).trust = s.trust := by
  unfold landSlot
  try dsimp only
  constructor <;> repeat' (first | with_reducible rfl | simp [ite_pending, ite_trust, -ite_eq_left_iff] | split)

@[simp] theorem sendPartials_fixed (s : State) (k : Nat) (r : Run) (p : StepRec) :
    (sendPartials s k r p).pending = s.pending ∧ (sendPartials s k r p).trust = s.trust := by
  unfold sendPartials
  try dsimp only
  constructor <;> repeat' (first | with_reducible rfl | simp (disch := (intros; repeat' (first | with_reducible rfl | simp [ite_pending, ite_trust, -ite_eq_left_iff] | split))) [foldl_pending, foldl_trust, ite_pending, ite_trust, -ite_eq_left_iff] | split)

@[simp] theorem beginStep_fixed (s : State) (k : Nat) :
    (beginStep s k).pending = s.pending ∧ (beginStep s k).trust = s.trust := by
  unfold beginStep
  try dsimp only
  constructor <;> repeat' (first | with_reducible rfl | simp [ite_pending, ite_trust, -ite_eq_left_iff] | split)

@[simp] theorem reduceTiles_fixed (s : State) (k : Nat) (r : Run) (p : StepRec) :
    (reduceTiles s k r p).pending = s.pending ∧ (reduceTiles s k r p).trust = s.trust := by
  simp [reduceTiles]

@[simp] theorem endStep_fixed (s : State) (k : Nat) :
    (endStep s k).pending = s.pending ∧ (endStep s k).trust = s.trust := by
  simp [endStep]

@[simp] theorem launchRun_fixed (s : State) (k : Nat) (r : Run) (qs grants : List Nat) :
    (launchRun s k r qs grants).pending = s.pending ∧ (launchRun s k r qs grants).trust = s.trust := by
  unfold launchRun
  try dsimp only
  constructor <;> repeat' (first | with_reducible rfl | simp (disch := (intros; repeat' (first | with_reducible rfl | simp (disch := (intros; repeat' (first | with_reducible rfl | simp [ite_pending, ite_trust, -ite_eq_left_iff] | split))) [foldl_pending, foldl_trust, ite_pending, ite_trust, -ite_eq_left_iff] | split))) [foldl_pending, foldl_trust, ite_pending, ite_trust, -ite_eq_left_iff] | split)

theorem execRunLaunch_fixed (run : Nat) (quarters grants : List Nat) (s : State) {u : State} (h : execRunLaunch run quarters grants s = .next u) :
    u.pending = s.pending ∧ u.trust = s.trust := by
  unfold execRunLaunch at h
  try dsimp only at h
  (repeat' split at h) <;> first | (obtain rfl | rfl := occurs_next h <;> constructor <;> repeat' (first | with_reducible rfl | simp [ite_pending, ite_trust, -ite_eq_left_iff] | split)) | simp_all

theorem execRunHoldExpiry_fixed (run : Nat) (quarters grants : List Nat) (s : State) {u : State} (h : execRunHoldExpiry run quarters grants s = .next u) :
    u.pending = s.pending ∧ u.trust = s.trust := by
  unfold execRunHoldExpiry at h
  try dsimp only at h
  (repeat' split at h) <;> first | (obtain rfl | rfl := occurs_next h <;> constructor <;> repeat' (first | with_reducible rfl | simp [ite_pending, ite_trust, -ite_eq_left_iff] | split)) | simp_all

@[simp] theorem issueTile_fixed (s : State) (k : Nat) (r : Run) :
    (issueTile s k r).pending = s.pending ∧ (issueTile s k r).trust = s.trust := by
  unfold issueTile
  try dsimp only
  constructor <;> repeat' (first | with_reducible rfl | simp [ite_pending, ite_trust, -ite_eq_left_iff] | split)

theorem execTileIssue_fixed (run : Nat) (s : State) {u : State} (h : execTileIssue run s = .next u) :
    u.pending = s.pending ∧ u.trust = s.trust := by
  unfold execTileIssue at h
  try dsimp only at h
  (repeat' split at h) <;> first | (obtain rfl | rfl := occurs_next h <;> constructor <;> repeat' (first | with_reducible rfl | simp [ite_pending, ite_trust, -ite_eq_left_iff] | split)) | simp_all

@[simp] theorem landEffect_fixed (s : State) (k : Nat) (r : Run) (ref : Nat) (bytes : List Byte) :
    (landEffect s k r ref bytes).pending = s.pending ∧ (landEffect s k r ref bytes).trust = s.trust := by
  unfold landEffect
  try dsimp only
  constructor <;> repeat' (first | with_reducible rfl | simp [ite_pending, ite_trust, -ite_eq_left_iff] | split)

theorem execTileLanded_fixed (run : Nat) (x : LandedTile) (s : State) {u : State} (h : execTileLanded run x s = .next u) :
    u.pending = s.pending ∧ u.trust = s.trust := by
  unfold execTileLanded at h
  try dsimp only at h
  (repeat' split at h) <;> first | (obtain rfl | rfl := occurs_next h <;> constructor <;> repeat' (first | with_reducible rfl | simp [ite_pending, ite_trust, -ite_eq_left_iff] | split)) | simp_all

theorem execDeadlineMiss_fixed (run ref : Nat) (s : State) {u : State} (h : execDeadlineMiss run ref s = .next u) :
    u.pending = s.pending ∧ u.trust = s.trust := by
  unfold execDeadlineMiss at h
  try dsimp only at h
  (repeat' split at h) <;> first | (obtain rfl | rfl := occurs_next h <;> constructor <;> repeat' (first | with_reducible rfl | simp [ite_pending, ite_trust, -ite_eq_left_iff] | split)) | simp_all

theorem execStepCycleOverrun_fixed (run core : Nat) (s : State) {u : State} (h : execStepCycleOverrun run core s = .next u) :
    u.pending = s.pending ∧ u.trust = s.trust := by
  unfold execStepCycleOverrun at h
  try dsimp only at h
  (repeat' split at h) <;> first | (obtain rfl | rfl := occurs_next h <;> constructor <;> repeat' (first | with_reducible rfl | simp [ite_pending, ite_trust, -ite_eq_left_iff] | split)) | simp_all

@[simp] theorem tokeniseEffect_fixed (s : State) (k : Nat) (r : Run) :
    (tokeniseEffect s k r).pending = s.pending ∧ (tokeniseEffect s k r).trust = s.trust := by
  unfold tokeniseEffect
  try dsimp only
  constructor <;> repeat' (first | with_reducible rfl | simp (disch := (intros; repeat' (first | with_reducible rfl | simp [ite_pending, ite_trust, -ite_eq_left_iff] | split))) [foldl_pending, foldl_trust, ite_pending, ite_trust, -ite_eq_left_iff] | split)

theorem execTokenise_fixed (run : Nat) (s : State) {u : State} (h : execTokenise run s = .next u) :
    u.pending = s.pending ∧ u.trust = s.trust := by
  unfold execTokenise at h
  try dsimp only at h
  (repeat' split at h) <;> first | (obtain rfl | rfl := occurs_next h <;> constructor <;> repeat' (first | with_reducible rfl | simp [ite_pending, ite_trust, -ite_eq_left_iff] | split)) | simp_all

@[simp] theorem performOp_fixed (s : State) (x : UnitOp) :
    (performOp s x).pending = s.pending ∧ (performOp s x).trust = s.trust := by
  cases x <;> unfold performOp <;> simp

theorem execLayer_fixed (x : LayerWork) (s : State) {u : State} (h : execLayer x s = .next u) : u.pending = s.pending ∧ u.trust = s.trust := by
  unfold execLayer at h
  (repeat' split at h) <;> (obtain rfl | rfl := occurs_next h <;> simp [foldl_pending, foldl_trust])

theorem execPeerReduce_fixed (run : Nat) (s : State) {u : State} (h : execPeerReduce run s = .next u) :
    u.pending = s.pending ∧ u.trust = s.trust := by
  unfold execPeerReduce at h
  try dsimp only at h
  (repeat' split at h) <;> first | (obtain rfl | rfl := occurs_next h <;> constructor <;> repeat' (first | with_reducible rfl | simp [ite_pending, ite_trust, -ite_eq_left_iff] | split)) | simp_all

@[simp] theorem itemEmbedded_fixed (s : State) (n k : Nat) (c : Cmd) (a : Attrs) (v : List F32) :
    (itemEmbedded s n k c a v).pending = s.pending ∧ (itemEmbedded s n k c a v).trust = s.trust := by
  unfold itemEmbedded
  try dsimp only
  constructor <;> repeat' (first | with_reducible rfl | simp [ite_pending, ite_trust, -ite_eq_left_iff] | split)

@[simp] theorem deliverSeq_fixed (s : State) (d : Sched) (x : Seq) :
    (deliverSeq s d x).pending = s.pending ∧ (deliverSeq s d x).trust = s.trust := by
  unfold deliverSeq
  try dsimp only
  constructor <;> repeat' (first | with_reducible rfl | simp [ite_pending, ite_trust, -ite_eq_left_iff] | split)

@[simp] theorem outputEffect_fixed (s : State) (k : Nat) (r : Run) :
    (outputEffect s k r).pending = s.pending ∧ (outputEffect s k r).trust = s.trust := by
  unfold outputEffect
  try dsimp only
  constructor <;> repeat' (first | with_reducible rfl | simp (disch := (intros; repeat' (first | with_reducible rfl | simp [ite_pending, ite_trust, -ite_eq_left_iff] | split))) [foldl_pending, foldl_trust, ite_pending, ite_trust, -ite_eq_left_iff] | split)

theorem execOutput_fixed (run : Nat) (s : State) {u : State} (h : execOutput run s = .next u) :
    u.pending = s.pending ∧ u.trust = s.trust := by
  unfold execOutput at h
  try dsimp only at h
  (repeat' split at h) <;> first | (obtain rfl | rfl := occurs_next h <;> constructor <;> repeat' (first | with_reducible rfl | simp [ite_pending, ite_trust, -ite_eq_left_iff] | split)) | simp_all

@[simp] theorem runCtlEffect_fixed (s : State) (m : RunCtl) :
    (runCtlEffect s m).pending = s.pending ∧ (runCtlEffect s m).trust = s.trust := by
  unfold runCtlEffect
  constructor <;> repeat' (first | with_reducible rfl | simp (disch := (intros; repeat' (first | with_reducible rfl | simp [ite_pending, ite_trust, -ite_eq_left_iff] | split))) [foldl_pending, foldl_trust, ite_pending, ite_trust, -ite_eq_left_iff] | split)

@[simp] theorem modFlashCh_fixed (s : State) (c : Nat) (f : FlashCh → FlashCh) :
    (modFlashCh s c f).pending = s.pending ∧ (modFlashCh s c f).trust = s.trust := by
  simp [modFlashCh]

@[simp] theorem modFlashBlock_fixed (s : State) (b : Nat) (f : FlashBlock → FlashBlock) :
    (modFlashBlock s b f).pending = s.pending ∧ (modFlashBlock s b f).trust = s.trust := by
  simp [modFlashBlock]

@[simp] theorem updateT4_fixed (s : State) :
    (updateT4 s).pending = s.pending ∧ (updateT4 s).trust = s.trust := by
  unfold updateT4
  try dsimp only
  constructor <;> repeat' (first | with_reducible rfl | simp [ite_pending, ite_trust, -ite_eq_left_iff] | split)

@[simp] theorem imageLoses_fixed (s : State) (i t : Nat) (c : Collection) :
    (imageLoses s i t c).pending = s.pending ∧ (imageLoses s i t c).trust = s.trust := by
  unfold imageLoses
  try dsimp only
  constructor <;> repeat' (first | with_reducible rfl | simp [ite_pending, ite_trust, -ite_eq_left_iff] | split)

@[simp] theorem logicalLost_fixed (s : State) (t : Nat) :
    (logicalLost s t).pending = s.pending ∧ (logicalLost s t).trust = s.trust := by
  unfold logicalLost
  try dsimp only
  constructor <;> repeat' (first | with_reducible rfl | simp (disch := (intros; repeat' (first | with_reducible rfl | simp [ite_pending, ite_trust, -ite_eq_left_iff] | split))) [foldl_pending, foldl_trust, ite_pending, ite_trust, -ite_eq_left_iff] | split)

@[simp] theorem losePages_fixed (s : State) (ps : List Nat) :
    (losePages s ps).pending = s.pending ∧ (losePages s ps).trust = s.trust := by
  unfold losePages
  try dsimp only
  constructor <;> repeat' (first | with_reducible rfl | simp (disch := (intros; repeat' (first | with_reducible rfl | simp [ite_pending, ite_trust, -ite_eq_left_iff] | split))) [foldl_pending, foldl_trust, ite_pending, ite_trust, -ite_eq_left_iff] | split)

@[simp] theorem retireBlock_fixed (s : State) (b : Nat) :
    (retireBlock s b).pending = s.pending ∧ (retireBlock s b).trust = s.trust := by
  unfold retireBlock
  try dsimp only
  constructor <;> repeat' (first | with_reducible rfl | simp [ite_pending, ite_trust, -ite_eq_left_iff] | split)

@[simp] theorem countRead_fixed (s : State) (b retries : Nat) (corrected : List Nat) :
    (countRead s b retries corrected).pending = s.pending ∧ (countRead s b retries corrected).trust = s.trust := by
  simp [countRead]

@[simp] theorem endPageReaders_fixed (s : State) (page b : Nat) :
    (endPageReaders s page b).pending = s.pending ∧ (endPageReaders s page b).trust = s.trust := by
  unfold endPageReaders
  try dsimp only
  constructor <;> repeat' (first | with_reducible rfl | simp (disch := (intros; repeat' (first | with_reducible rfl | simp [ite_pending, ite_trust, -ite_eq_left_iff] | split))) [foldl_pending, foldl_trust, ite_pending, ite_trust, -ite_eq_left_iff] | split)

@[simp] theorem readEffect_fixed (s : State) (page level tries : Nat) (corrected : List Nat) (softOk : Bool) :
    (readEffect s page level tries corrected softOk).pending = s.pending ∧ (readEffect s page level tries corrected softOk).trust = s.trust := by
  unfold readEffect
  try dsimp only
  constructor <;> repeat' (first | with_reducible rfl | simp [ite_pending, ite_trust, -ite_eq_left_iff] | split)

@[simp] theorem takeRead_fixed (s : State) (page level : Nat) :
    (takeRead s page level).pending = s.pending ∧ (takeRead s page level).trust = s.trust := by
  unfold takeRead
  try dsimp only
  constructor <;> repeat' (first | with_reducible rfl | simp [ite_pending, ite_trust, -ite_eq_left_iff] | split)

theorem execFlashRead_fixed (page level tries : Nat) (corrected : List Nat) (softOk : Bool) (s : State) {u : State} (h : execFlashRead page level tries corrected softOk s = .next u) :
    u.pending = s.pending ∧ u.trust = s.trust := by
  unfold execFlashRead at h; obtain rfl | rfl := occurs_next h <;> simp

@[simp] theorem programPage_fixed (s : State) (page loc : Nat) :
    (programPage s page loc).pending = s.pending ∧ (programPage s page loc).trust = s.trust := by
  unfold programPage
  try dsimp only
  constructor <;> repeat' (first | with_reducible rfl | simp [ite_pending, ite_trust, -ite_eq_left_iff] | split)

@[simp] theorem clearDirty_fixed (s : State) (tile : Nat) :
    (clearDirty s tile).pending = s.pending ∧ (clearDirty s tile).trust = s.trust := by
  unfold clearDirty
  try dsimp only
  constructor <;> repeat' (first | with_reducible rfl | simp (disch := (intros; repeat' (first | with_reducible rfl | simp [ite_pending, ite_trust, -ite_eq_left_iff] | split))) [foldl_pending, foldl_trust, ite_pending, ite_trust, -ite_eq_left_iff] | split)

@[simp] theorem blockFails_fixed (s : State) (b : Nat) :
    (blockFails s b).pending = s.pending ∧ (blockFails s b).trust = s.trust := by
  unfold blockFails
  try dsimp only
  constructor <;> repeat' (first | with_reducible rfl | simp [ite_pending, ite_trust, -ite_eq_left_iff] | split)

@[simp] theorem programEffect_fixed (s : State) (tile loc : Nat) (pass : Bool) :
    (programEffect s tile loc pass).pending = s.pending ∧ (programEffect s tile loc pass).trust = s.trust := by
  unfold programEffect
  try dsimp only
  constructor <;> repeat' (first | with_reducible rfl | simp (disch := (intros; repeat' (first | with_reducible rfl | simp [ite_pending, ite_trust, -ite_eq_left_iff] | split))) [foldl_pending, foldl_trust, ite_pending, ite_trust, -ite_eq_left_iff] | split)

theorem execFlashProgram_fixed (tile loc : Nat) (pass : Bool) (s : State) {u : State} (h : execFlashProgram tile loc pass s = .next u) :
    u.pending = s.pending ∧ u.trust = s.trust := by
  unfold execFlashProgram at h; obtain rfl | rfl := occurs_next h <;> simp

@[simp] theorem eraseEffect_fixed (s : State) (b : Nat) (pass : Bool) :
    (eraseEffect s b pass).pending = s.pending ∧ (eraseEffect s b pass).trust = s.trust := by
  unfold eraseEffect
  try dsimp only
  constructor <;> repeat' (first | with_reducible rfl | simp [ite_pending, ite_trust, -ite_eq_left_iff] | split)

theorem execFlashErase_fixed (block : Nat) (pass : Bool) (s : State) {u : State} (h : execFlashErase block pass s = .next u) :
    u.pending = s.pending ∧ u.trust = s.trust := by
  unfold execFlashErase at h; obtain rfl | rfl := occurs_next h <;> simp

@[simp] theorem relocate_fixed (s : State) (ts : List Nat) :
    (relocate s ts).pending = s.pending ∧ (relocate s ts).trust = s.trust := by
  simp [relocate]

@[simp] theorem recoveryEffect_fixed (s : State) (page : Nat) (ok : Bool) :
    (recoveryEffect s page ok).pending = s.pending ∧ (recoveryEffect s page ok).trust = s.trust := by
  unfold recoveryEffect
  try dsimp only
  constructor <;> repeat' (first | with_reducible rfl | simp [ite_pending, ite_trust, -ite_eq_left_iff] | split)

theorem execPageRecovery_fixed (page : Nat) (ok : Bool) (s : State) {u : State} (h : execPageRecovery page ok s = .next u) :
    u.pending = s.pending ∧ u.trust = s.trust := by
  unfold execPageRecovery at h; obtain rfl | rfl := occurs_next h <;> simp

@[simp] theorem refreshEffect_fixed (s : State) (b : Nat) :
    (refreshEffect s b).pending = s.pending ∧ (refreshEffect s b).trust = s.trust := by
  simp [refreshEffect]

theorem execFlashRefresh_fixed (block : Nat) (s : State) {u : State} (h : execFlashRefresh block s = .next u) :
    u.pending = s.pending ∧ u.trust = s.trust := by
  unfold execFlashRefresh at h; obtain rfl | rfl := occurs_next h <;> simp

theorem execFlashPatrol_fixed (block retries : Nat) (corrected : List Nat) (s : State) {u : State} (h : execFlashPatrol block retries corrected s = .next u) :
    u.pending = s.pending ∧ u.trust = s.trust := by
  unfold execFlashPatrol at h; obtain rfl | rfl := occurs_next h <;> simp

theorem execGarbageCollection_fixed (lun : Nat) (s : State) {u : State} (h : execGarbageCollection lun s = .next u) :
    u.pending = s.pending ∧ u.trust = s.trust := by
  unfold execGarbageCollection at h
  try dsimp only at h
  (repeat' split at h) <;> first | (obtain rfl | rfl := occurs_next h <;> constructor <;> repeat' (first | with_reducible rfl | simp [ite_pending, ite_trust, -ite_eq_left_iff] | split)) | simp_all

theorem execWearLevelling_fixed (die : Nat) (s : State) {u : State} (h : execWearLevelling die s = .next u) :
    u.pending = s.pending ∧ u.trust = s.trust := by
  unfold execWearLevelling at h
  try dsimp only at h
  (repeat' split at h) <;> first | (obtain rfl | rfl := occurs_next h <;> constructor <;> repeat' (first | with_reducible rfl | simp [ite_pending, ite_trust, -ite_eq_left_iff] | split)) | simp_all

@[simp] theorem channelFails_fixed (s : State) (c : Nat) :
    (channelFails s c).pending = s.pending ∧ (channelFails s c).trust = s.trust := by
  simp [channelFails]

@[simp] theorem commonRate_fixed (s : State) (r : Nat) :
    (commonRate s r).pending = s.pending ∧ (commonRate s r).trust = s.trust := by
  simp [commonRate]

@[simp] theorem flashRetrainEffect_fixed (s : State) (c : Nat) (rate : Option Nat) :
    (flashRetrainEffect s c rate).pending = s.pending ∧ (flashRetrainEffect s c rate).trust = s.trust := by
  unfold flashRetrainEffect
  try dsimp only
  constructor <;> repeat' (first | with_reducible rfl | simp [ite_pending, ite_trust, -ite_eq_left_iff] | split)

theorem execFlashChannelRetrain_fixed (ch : Nat) (rate : Option Nat) (s : State) {u : State} (h : execFlashChannelRetrain ch rate s = .next u) :
    u.pending = s.pending ∧ u.trust = s.trust := by
  unfold execFlashChannelRetrain at h; obtain rfl | rfl := occurs_next h <;> simp

@[simp] theorem diagLatch_fixed (s : State) (a : Nat) :
    (diagLatch s a).pending = s.pending ∧ (diagLatch s a).trust = s.trust := by
  unfold diagLatch
  try dsimp only
  constructor <;> repeat' (first | with_reducible rfl | simp [ite_pending, ite_trust, -ite_eq_left_iff] | split)

@[simp] theorem diagRead_fixed (n : Nat) (s : State) (a : Nat) :
    (diagRead n s a).1.pending = s.pending ∧ (diagRead n s a).1.trust = s.trust := by
  induction n generalizing s a with
  | zero => unfold diagRead; constructor <;> repeat' (first | with_reducible rfl | simp [ite_pending, ite_trust, -ite_eq_left_iff] | split)
  | succ n ih => unfold diagRead; try dsimp only
                 constructor <;> repeat' (first | with_reducible rfl | simp (disch := (intros; repeat' (first | with_reducible rfl | simp [ite_pending, ite_trust, -ite_eq_left_iff, *] | split))) [foldl_pending, foldl_trust, ite_pending, ite_trust, -ite_eq_left_iff, *] | split)

end Sys2Proof.Machine
end

