-- ==== Sys2Proof/Laws/FrameAdmin.lean ====
section
/-! SUPPORT. Frames: what admin commands keep. Each lemma says of one operation that it keeps the queue of waiting commands
and the trust state; of an operation that may change the trust state, that it keeps the queue. -/

namespace Sys2Proof.Machine

open Sys2Proof
set_option linter.unusedSimpArgs false
set_option linter.unusedTactic false
set_option linter.unreachableTactic false
set_option linter.unnecessarySeqFocus false

theorem startAdmin_fixed {start : State → Nat → State} (ha : ∀ s n, (start s n).pending = s.pending ∧ (start s n).trust = s.trust) (s : State) (n : Nat) :
    (startAdmin start s n).pending = s.pending ∧ (startAdmin start s n).trust = s.trust := by
  unfold startAdmin
  split
  · exact ⟨rfl, rfl⟩
  · split <;> simp [ha]

theorem startAdmin_pending {start : State → Nat → State} (ha : ∀ s n, (start s n).pending = s.pending) (s : State) (n : Nat) :
    (startAdmin start s n).pending = s.pending := by
  unfold startAdmin
  split
  · rfl
  · split <;> simp [ha]

theorem takeRequest_fixed {start : State → Nat → State} (ha : ∀ s n, (start s n).pending = s.pending ∧ (start s n).trust = s.trust) (s : State) (p : PortId) (o : Origin) (len : Nat) (ok : Bool) (e : BitVec 1024) (inp : Option (List Byte)) :
    (takeRequest s p o len ok e inp start).pending = s.pending ∧ (takeRequest s p o len ok e inp start).trust = s.trust := by
  unfold takeRequest
  try dsimp only
  constructor <;> repeat' (first | with_reducible rfl | simp [ite_pending, ite_trust, -ite_eq_left_iff, readInput_fixed ha] | split)

theorem takeRequest_pending {start : State → Nat → State} (ha : ∀ s n, (start s n).pending = s.pending) (s : State) (p : PortId) (o : Origin) (len : Nat) (ok : Bool) (e : BitVec 1024) (inp : Option (List Byte)) :
    (takeRequest s p o len ok e inp start).pending = s.pending := by
  unfold takeRequest
  try dsimp only
  repeat' (first | with_reducible rfl | simp [ite_pending, ite_trust, -ite_eq_left_iff, readInput_pending ha] | split)

theorem mailboxFetch_fixed {start : State → Nat → State} (ha : ∀ s n, (start s n).pending = s.pending ∧ (start s n).trust = s.trust) (s : State) (p : PortId) (m : Nat) (inp : List Byte) :
    (mailboxFetch s p m inp start).pending = s.pending ∧ (mailboxFetch s p m inp start).trust = s.trust := by
  unfold mailboxFetch
  try dsimp only
  constructor <;> repeat' (first | with_reducible rfl | simp [ite_pending, ite_trust, -ite_eq_left_iff, takeRequest_fixed ha] | split)

theorem mailboxFetch_pending {start : State → Nat → State} (ha : ∀ s n, (start s n).pending = s.pending) (s : State) (p : PortId) (m : Nat) (inp : List Byte) :
    (mailboxFetch s p m inp start).pending = s.pending := by
  unfold mailboxFetch
  try dsimp only
  repeat' (first | with_reducible rfl | simp [ite_pending, ite_trust, -ite_eq_left_iff, takeRequest_pending ha] | split)

theorem sidebandFetch_fixed {start : State → Nat → State} (ha : ∀ s n, (start s n).pending = s.pending ∧ (start s n).trust = s.trust) (s : State) :
    (sidebandFetch s start).pending = s.pending ∧ (sidebandFetch s start).trust = s.trust := by
  unfold sidebandFetch
  try dsimp only
  constructor <;> repeat' (first | with_reducible rfl | simp [ite_pending, ite_trust, -ite_eq_left_iff, takeRequest_fixed ha] | split)

theorem sidebandFetch_pending {start : State → Nat → State} (ha : ∀ s n, (start s n).pending = s.pending) (s : State) :
    (sidebandFetch s start).pending = s.pending := by
  unfold sidebandFetch
  try dsimp only
  repeat' (first | with_reducible rfl | simp [ite_pending, ite_trust, -ite_eq_left_iff, takeRequest_pending ha] | split)

theorem adminRowBy_fixed {start : State → Nat → State} (ha : ∀ s n, (start s n).pending = s.pending ∧ (start s n).trust = s.trust) {op : Nat} {src : AdminSrc} {s u : State} (h : adminRowBy op start src s = .next u) :
    u.pending = s.pending ∧ u.trust = s.trust := by
  unfold adminRowBy at h
  split at h
  · obtain rfl | rfl := occurs_next h
    · exact turnTo_fixed ha ..
    · exact ⟨rfl, rfl⟩
  · dsimp only at h
    obtain rfl | rfl := occurs_next h
    · exact mailboxFetch_fixed ha ..
    · exact ⟨rfl, rfl⟩
  · dsimp only at h
    obtain rfl | rfl := occurs_next h
    · exact sidebandFetch_fixed ha ..
    · exact ⟨rfl, rfl⟩

theorem adminRowBy_pending {start : State → Nat → State} (ha : ∀ s n, (start s n).pending = s.pending) {op : Nat} {src : AdminSrc} {s u : State} (h : adminRowBy op start src s = .next u) :
    u.pending = s.pending := by
  unfold adminRowBy at h
  split at h
  · obtain rfl | rfl := occurs_next h
    · exact turnTo_pending ha ..
    · rfl
  · dsimp only at h
    obtain rfl | rfl := occurs_next h
    · exact mailboxFetch_pending ha ..
    · rfl
  · dsimp only at h
    obtain rfl | rfl := occurs_next h
    · exact sidebandFetch_pending ha ..
    · rfl

theorem adminRow_fixed {start : State → Nat → State} (ha : ∀ s n, (start s n).pending = s.pending ∧ (start s n).trust = s.trust) {op : Nat} {src : AdminSrc} {s u : State} (h : adminRow op start src s = .next u) :
    u.pending = s.pending ∧ u.trust = s.trust := by
  exact adminRowBy_fixed (fun s n => startAdmin_fixed ha s n) h

theorem adminRow_pending {start : State → Nat → State} (ha : ∀ s n, (start s n).pending = s.pending) {op : Nat} {src : AdminSrc} {s u : State} (h : adminRow op start src s = .next u) :
    u.pending = s.pending := by
  exact adminRowBy_pending (fun s n => startAdmin_pending ha s n) h

@[simp] theorem refuse_fixed (s : State) (n : Nat) (st : Status) (off v : Nat) :
    (refuse s n st off v).pending = s.pending ∧ (refuse s n st off v).trust = s.trust := by
  simp [refuse]

theorem withCmd_fixed {f : Cmd → State} {s : State} (ha : ∀ x, (f x).pending = s.pending ∧ (f x).trust = s.trust) (n : Nat) :
    (withCmd s n f).pending = s.pending ∧ (withCmd s n f).trust = s.trust := by
  unfold withCmd
  split <;> simp [ha]

theorem withCmd_pending {f : Cmd → State} {s : State} (ha : ∀ x, (f x).pending = s.pending) (n : Nat) :
    (withCmd s n f).pending = s.pending := by
  unfold withCmd
  split <;> simp [ha]

theorem withCmd_trust {f : Cmd → State} {s : State} (ha : ∀ x, (f x).trust = s.trust) (n : Nat) :
    (withCmd s n f).trust = s.trust := by
  unfold withCmd
  split <;> simp [ha]

@[simp] theorem identifyEffect_fixed (s : State) (n : Nat) :
    (identifyEffect s n).pending = s.pending ∧ (identifyEffect s n).trust = s.trust := by
  unfold identifyEffect
  refine ⟨withCmd_pending (fun x => ?_) n, withCmd_trust (fun x => ?_) n⟩ <;> repeat' (first | with_reducible rfl | simp [ite_pending, ite_trust, -ite_eq_left_iff] | split)

theorem execIdentify_fixed (src : AdminSrc) (s : State) {u : State} (h : execIdentify src s = .next u) :
    u.pending = s.pending ∧ u.trust = s.trust := by
  unfold execIdentify at h
  refine adminRow_fixed (fun s n => ?_) h
  simp

@[simp] theorem clearNotice_fixed (s : State) (x : Cmd) (lid : Nat) :
    (clearNotice s x lid).pending = s.pending ∧ (clearNotice s x lid).trust = s.trust := by
  unfold clearNotice
  try dsimp only
  constructor <;> repeat' (first | with_reducible rfl | simp [ite_pending, ite_trust, -ite_eq_left_iff] | split)

@[simp] theorem logPageEffect_fixed (s : State) (n : Nat) :
    (logPageEffect s n).pending = s.pending ∧ (logPageEffect s n).trust = s.trust := by
  unfold logPageEffect
  refine ⟨withCmd_pending (fun x => ?_) n, withCmd_trust (fun x => ?_) n⟩ <;> repeat' (first | with_reducible rfl | simp [ite_pending, ite_trust, -ite_eq_left_iff] | split)

theorem execGetLogPage_fixed (src : AdminSrc) (s : State) {u : State} (h : execGetLogPage src s = .next u) :
    u.pending = s.pending ∧ u.trust = s.trust := by
  unfold execGetLogPage at h
  refine adminRow_fixed (fun s n => ?_) h
  simp

@[simp] theorem getFeatureEffect_fixed (s : State) (n : Nat) :
    (getFeatureEffect s n).pending = s.pending ∧ (getFeatureEffect s n).trust = s.trust := by
  unfold getFeatureEffect
  refine ⟨withCmd_pending (fun x => ?_) n, withCmd_trust (fun x => ?_) n⟩ <;> repeat' (first | with_reducible rfl | simp [ite_pending, ite_trust, -ite_eq_left_iff] | split)

theorem execGetFeatures_fixed (src : AdminSrc) (s : State) {u : State} (h : execGetFeatures src s = .next u) :
    u.pending = s.pending ∧ u.trust = s.trust := by
  unfold execGetFeatures at h
  refine adminRow_fixed (fun s n => ?_) h
  simp

@[simp] theorem sendLease_fixed (s : State) (d : Nat) (m : LeaseMsg) :
    (sendLease s d m).pending = s.pending ∧ (sendLease s d m).trust = s.trust := by
  simp [sendLease]

@[simp] theorem revokeLease_fixed (s : State) (k : Nat) :
    (revokeLease s k).pending = s.pending ∧ (revokeLease s k).trust = s.trust := by
  unfold revokeLease
  try dsimp only
  constructor <;> repeat' (first | with_reducible rfl | simp [ite_pending, ite_trust, -ite_eq_left_iff] | split)

theorem foldr_revoke_fixed (l : List Nat) (s : State) :
    (l.foldr (fun k s => revokeLease s k) s).pending = s.pending ∧ (l.foldr (fun k s => revokeLease s k) s).trust = s.trust := by
  induction l with
  | nil => exact ⟨rfl, rfl⟩
  | cons a l ih => simp [ih]

@[simp] theorem revokeDownTo_fixed (s : State) (n : Nat) :
    (revokeDownTo s n).pending = s.pending ∧ (revokeDownTo s n).trust = s.trust := by
  unfold revokeDownTo
  exact foldr_revoke_fixed ..

@[simp] theorem setFeature_fixed (s : State) (p : PortId) (fid sel v : Nat) :
    (setFeature s p fid sel v).pending = s.pending ∧ (setFeature s p fid sel v).trust = s.trust := by
  unfold setFeature
  try dsimp only
  constructor <;> repeat' (first | with_reducible rfl | simp [ite_pending, ite_trust, -ite_eq_left_iff] | split)

@[simp] theorem setFeatureEffect_fixed (s : State) (n : Nat) :
    (setFeatureEffect s n).pending = s.pending ∧ (setFeatureEffect s n).trust = s.trust := by
  unfold setFeatureEffect
  refine ⟨withCmd_pending (fun x => ?_) n, withCmd_trust (fun x => ?_) n⟩ <;> repeat' (first | with_reducible rfl | simp [ite_pending, ite_trust, -ite_eq_left_iff] | split)

theorem execSetFeatures_fixed (src : AdminSrc) (s : State) {u : State} (h : execSetFeatures src s = .next u) :
    u.pending = s.pending ∧ u.trust = s.trust := by
  unfold execSetFeatures at h
  refine adminRow_fixed (fun s n => ?_) h
  simp

@[simp] theorem queueCreateEffect_fixed (s : State) (n : Nat) :
    (queueCreateEffect s n).pending = s.pending ∧ (queueCreateEffect s n).trust = s.trust := by
  unfold queueCreateEffect
  refine ⟨withCmd_pending (fun x => ?_) n, withCmd_trust (fun x => ?_) n⟩ <;> repeat' (first | with_reducible rfl | simp [ite_pending, ite_trust, -ite_eq_left_iff] | split)

theorem execQueueCreate_fixed (src : AdminSrc) (s : State) {u : State} (h : execQueueCreate src s = .next u) :
    u.pending = s.pending ∧ u.trust = s.trust := by
  unfold execQueueCreate at h
  refine adminRow_fixed (fun s n => ?_) h
  simp

@[simp] theorem queueDeleteEffect_fixed (s : State) (n : Nat) :
    (queueDeleteEffect s n).pending = s.pending ∧ (queueDeleteEffect s n).trust = s.trust := by
  unfold queueDeleteEffect
  refine ⟨withCmd_pending (fun x => ?_) n, withCmd_trust (fun x => ?_) n⟩ <;> repeat' (first | with_reducible rfl | simp [ite_pending, ite_trust, -ite_eq_left_iff] | split)

theorem execQueueDelete_fixed (src : AdminSrc) (s : State) {u : State} (h : execQueueDelete src s = .next u) :
    u.pending = s.pending ∧ u.trust = s.trust := by
  unfold execQueueDelete at h
  refine adminRow_fixed (fun s n => ?_) h
  simp

@[simp] theorem queueResumeEffect_fixed (s : State) (n : Nat) :
    (queueResumeEffect s n).pending = s.pending ∧ (queueResumeEffect s n).trust = s.trust := by
  unfold queueResumeEffect
  refine ⟨withCmd_pending (fun x => ?_) n, withCmd_trust (fun x => ?_) n⟩ <;> repeat' (first | with_reducible rfl | simp [ite_pending, ite_trust, -ite_eq_left_iff] | split)

theorem execQueueResume_fixed (src : AdminSrc) (s : State) {u : State} (h : execQueueResume src s = .next u) :
    u.pending = s.pending ∧ u.trust = s.trust := by
  unfold execQueueResume at h
  refine adminRow_fixed (fun s n => ?_) h
  simp

theorem placeArea_fixed {s u : State} {entry tier size p : Nat} (h : placeArea s entry tier size = some (p, u)) : u.pending = s.pending ∧ u.trust = s.trust := by
  unfold placeArea at h
  dsimp only at h
  (repeat' split at h) <;> first | (cases h; done) | (obtain ⟨x, hx, hr⟩ := Option.map_eq_some_iff.mp h; cases hr; first | exact takePages_fixed hx | (constructor <;> repeat' (first | with_reducible rfl | simp (disch := (intros; repeat' (first | with_reducible rfl | simp [ite_pending, ite_trust, -ite_eq_left_iff] | split | simp only [takePages_fixed (by assumption)]))) [foldl_pending, foldl_trust, ite_pending, ite_trust, -ite_eq_left_iff] | split | simp only [takePages_fixed (by assumption)])))

@[simp] theorem regionAllocEffect_fixed (s : State) (n : Nat) :
    (regionAllocEffect s n).pending = s.pending ∧ (regionAllocEffect s n).trust = s.trust := by
  unfold regionAllocEffect
  refine withCmd_fixed (fun x => ?_) n
  dsimp only
  split
  · exact refuse_fixed ..
  · split
    · exact refuse_fixed ..
    · simp only [succeed_fixed, State.modProtect_fixed, devWrite_fixed, placeArea_fixed (by assumption), and_self]

theorem execRegionAlloc_fixed (src : AdminSrc) (s : State) {u : State} (h : execRegionAlloc src s = .next u) :
    u.pending = s.pending ∧ u.trust = s.trust := by
  unfold execRegionAlloc at h
  refine adminRow_fixed (fun s n => ?_) h
  simp

@[simp] theorem regionFreeEffect_fixed (s : State) (n : Nat) :
    (regionFreeEffect s n).pending = s.pending ∧ (regionFreeEffect s n).trust = s.trust := by
  unfold regionFreeEffect
  refine ⟨withCmd_pending (fun x => ?_) n, withCmd_trust (fun x => ?_) n⟩ <;> repeat' (first | with_reducible rfl | simp [ite_pending, ite_trust, -ite_eq_left_iff] | split)

theorem execRegionFree_fixed (src : AdminSrc) (s : State) {u : State} (h : execRegionFree src s = .next u) :
    u.pending = s.pending ∧ u.trust = s.trust := by
  unfold execRegionFree at h
  refine adminRow_fixed (fun s n => ?_) h
  simp

@[simp] theorem hbmMigrateEffect_fixed (s : State) (n : Nat) :
    (hbmMigrateEffect s n).pending = s.pending ∧ (hbmMigrateEffect s n).trust = s.trust := by
  unfold hbmMigrateEffect
  refine ⟨withCmd_pending (fun x => ?_) n, withCmd_trust (fun x => ?_) n⟩ <;> repeat' (first | with_reducible rfl | simp [ite_pending, ite_trust, -ite_eq_left_iff] | split)

theorem execHbmMigrate_fixed (src : AdminSrc) (s : State) {u : State} (h : execHbmMigrate src s = .next u) :
    u.pending = s.pending ∧ u.trust = s.trust := by
  unfold execHbmMigrate at h
  refine adminRow_fixed (fun s n => ?_) h
  simp

@[simp] theorem diagWrite_fixed (s : State) (c off : Nat) (v : Word) :
    (diagWrite s c off v).pending = s.pending ∧ (diagWrite s c off v).trust = s.trust := by
  unfold diagWrite
  try dsimp only
  constructor <;> repeat' (first | with_reducible rfl | simp [ite_pending, ite_trust, -ite_eq_left_iff] | split)

@[simp] theorem hbmDiagEffect_fixed (s : State) (n : Nat) :
    (hbmDiagEffect s n).pending = s.pending ∧ (hbmDiagEffect s n).trust = s.trust := by
  unfold hbmDiagEffect
  refine ⟨withCmd_pending (fun x => ?_) n, withCmd_trust (fun x => ?_) n⟩ <;> repeat' (first | with_reducible rfl | simp [ite_pending, ite_trust, -ite_eq_left_iff] | split)

theorem execHbmDiag_fixed (src : AdminSrc) (s : State) {u : State} (h : execHbmDiag src s = .next u) :
    u.pending = s.pending ∧ u.trust = s.trust := by
  unfold execHbmDiag at h
  refine adminRow_fixed (fun s n => ?_) h
  simp

@[simp] theorem diagReadEffect_fixed (s : State) (n : Nat) :
    (diagReadEffect s n).pending = s.pending ∧ (diagReadEffect s n).trust = s.trust := by
  unfold diagReadEffect
  refine ⟨withCmd_pending (fun x => ?_) n, withCmd_trust (fun x => ?_) n⟩ <;> repeat' (first | with_reducible rfl | simp [ite_pending, ite_trust, -ite_eq_left_iff] | split)

theorem execDiagRead_fixed (src : AdminSrc) (s : State) {u : State} (h : execDiagRead src s = .next u) :
    u.pending = s.pending ∧ u.trust = s.trust := by
  unfold execDiagRead at h
  refine adminRow_fixed (fun s n => ?_) h
  simp

@[simp] theorem extendMeas_pending (s : State) (reg event detail : Nat) (d : BitVec 384) :
    (extendMeas s reg event detail d).pending = s.pending := by
  simp [extendMeas]

theorem placeLower_fixed {o src n : Nat} {s u : State} {l : List Nat} (h : placeLower o src n s = some (l, u)) : u.pending = s.pending ∧ u.trust = s.trust := by
  induction n generalizing s l with
  | zero => unfold placeLower at h; cases h; exact ⟨rfl, rfl⟩
  | succ n ih =>
    unfold placeLower at h
    dsimp only at h
    split at h
    · cases h
    · rename_i hb
      obtain ⟨v, hv, ht⟩ := Option.bind_eq_some_iff.mp hb
      split at h
      · cases h
      · split at h
        · cases h
        · rename_i hp
          cases h
          simp [ih hp, takeT4_fixed ht, withMapPage_fixed hv]

theorem placeWeights_fixed {s u : State} {i : Nat} {rs : List TileRef} {l : List Nat} (h : placeWeights s i rs = some (l, u)) : u.pending = s.pending ∧ u.trust = s.trust := by
  unfold placeWeights at h
  dsimp only at h
  (repeat' split at h) <;> first | (cases h; done) | (obtain ⟨x, hx, hr⟩ := Option.map_eq_some_iff.mp h; cases hr; rename_i h2 _ _ _ h3; simp [placeLower_fixed hx, placeLower_fixed h3, addTiles_fixed h2])

@[simp] theorem sendWeights_fixed (s : State) (d : Sched) :
    (sendWeights s d).pending = s.pending ∧ (sendWeights s d).trust = s.trust := by
  unfold sendWeights
  try dsimp only
  constructor <;> repeat' (first | with_reducible rfl | simp [ite_pending, ite_trust, -ite_eq_left_iff] | split)

theorem finishLoad_pending {s t : State} (ht : t.pending = s.pending) (n : Nat) (x : Cmd) (h : SchedHeader) (ss : List StepRec)
    (rs : List TileRef) (i : Nat) (ts : List Nat) : (finishLoad s t n x h ss rs i ts).pending = s.pending := by
  unfold finishLoad
  split
  · simp
  · dsimp only; simp [ht]

@[simp] theorem failOr_fixed {s t : State} (h : t.pending = s.pending ∧ t.trust = s.trust) (n : Nat) (f : Option Failure) :
    (failOr s n f t).pending = s.pending ∧ (failOr s n f t).trust = s.trust := by
  unfold failOr
  split <;> simp [h]

@[simp] theorem failOr_pending {s t : State} (h : t.pending = s.pending) (n : Nat) (f : Option Failure) :
    (failOr s n f t).pending = s.pending := by
  unfold failOr
  split <;> simp [h]

@[simp] theorem loadParsed_pending (s : State) (n : Nat) (x : Cmd) (h : SchedHeader) (ss : List StepRec) (rs : List TileRef) :
    (loadParsed s n x h ss rs).pending = s.pending := by
  unfold loadParsed
  refine failOr_pending ?_ ..
  split
  · simp
  · split
    · simp
    · exact finishLoad_pending (placeWeights_fixed (by assumption)).1 ..

@[simp] theorem scheduleLoadEffect_pending (s : State) (n : Nat) :
    (scheduleLoadEffect s n).pending = s.pending := by
  unfold scheduleLoadEffect
  refine withCmd_pending (fun x => ?_) n
  repeat' (first | with_reducible rfl | simp [ite_pending, ite_trust, -ite_eq_left_iff] | split)

theorem execScheduleLoad_pending (src : AdminSrc) (s : State) {u : State} (h : execScheduleLoad src s = .next u) :
    u.pending = s.pending := by
  unfold execScheduleLoad at h
  refine adminRow_pending (fun s n => ?_) h
  simp

@[simp] theorem scheduleUnloadEffect_fixed (s : State) (n : Nat) :
    (scheduleUnloadEffect s n).pending = s.pending ∧ (scheduleUnloadEffect s n).trust = s.trust := by
  unfold scheduleUnloadEffect
  refine ⟨withCmd_pending (fun x => ?_) n, withCmd_trust (fun x => ?_) n⟩ <;> repeat' (first | with_reducible rfl | simp [ite_pending, ite_trust, -ite_eq_left_iff] | split)

theorem execScheduleUnload_fixed (src : AdminSrc) (s : State) {u : State} (h : execScheduleUnload src s = .next u) :
    u.pending = s.pending ∧ u.trust = s.trust := by
  unfold execScheduleUnload at h
  refine adminRow_fixed (fun s n => ?_) h
  simp

@[simp] theorem scheduleBindEffect_fixed (s : State) (n : Nat) :
    (scheduleBindEffect s n).pending = s.pending ∧ (scheduleBindEffect s n).trust = s.trust := by
  unfold scheduleBindEffect
  refine ⟨withCmd_pending (fun x => ?_) n, withCmd_trust (fun x => ?_) n⟩ <;> repeat' (first | with_reducible rfl | simp [ite_pending, ite_trust, -ite_eq_left_iff] | split)

theorem execScheduleBind_fixed (src : AdminSrc) (s : State) {u : State} (h : execScheduleBind src s = .next u) :
    u.pending = s.pending ∧ u.trust = s.trust := by
  unfold execScheduleBind at h
  refine adminRow_fixed (fun s n => ?_) h
  simp

@[simp] theorem downloadEffect_fixed (s : State) (n : Nat) :
    (downloadEffect s n).pending = s.pending ∧ (downloadEffect s n).trust = s.trust := by
  unfold downloadEffect
  refine ⟨withCmd_pending (fun x => ?_) n, withCmd_trust (fun x => ?_) n⟩ <;> repeat' (first | with_reducible rfl | simp [ite_pending, ite_trust, -ite_eq_left_iff] | split)

theorem execFwDownload_fixed (src : AdminSrc) (s : State) {u : State} (h : execFwDownload src s = .next u) :
    u.pending = s.pending ∧ u.trust = s.trust := by
  unfold execFwDownload at h
  refine adminRow_fixed (fun s n => ?_) h
  simp

@[simp] theorem selectSlot_fixed (s : State) (slot : Nat) :
    (selectSlot s slot).pending = s.pending ∧ (selectSlot s slot).trust = s.trust := by
  unfold selectSlot
  try dsimp only
  constructor <;> repeat' (first | with_reducible rfl | simp [ite_pending, ite_trust, -ite_eq_left_iff] | split)

@[simp] theorem commitFwEffect_fixed (s : State) (n : Nat) :
    (commitFwEffect s n).pending = s.pending ∧ (commitFwEffect s n).trust = s.trust := by
  unfold commitFwEffect
  refine ⟨withCmd_pending (fun x => ?_) n, withCmd_trust (fun x => ?_) n⟩ <;> repeat' (first | with_reducible rfl | simp [ite_pending, ite_trust, -ite_eq_left_iff] | split)

theorem execFwCommit_fixed (src : AdminSrc) (s : State) {u : State} (h : execFwCommit src s = .next u) :
    u.pending = s.pending ∧ u.trust = s.trust := by
  unfold execFwCommit at h
  refine adminRow_fixed (fun s n => ?_) h
  simp

@[simp] theorem beginActivation_fixed (s : State) (n : Nat) :
    (beginActivation s n).pending = s.pending ∧ (beginActivation s n).trust = s.trust := by
  simp [beginActivation]

@[simp] theorem activateFwEffect_fixed (s : State) (n : Nat) :
    (activateFwEffect s n).pending = s.pending ∧ (activateFwEffect s n).trust = s.trust := by
  unfold activateFwEffect
  refine ⟨withCmd_pending (fun x => ?_) n, withCmd_trust (fun x => ?_) n⟩ <;> repeat' (first | with_reducible rfl | simp [ite_pending, ite_trust, -ite_eq_left_iff] | split)

theorem execFwActivate_fixed (src : AdminSrc) (s : State) {u : State} (h : execFwActivate src s = .next u) :
    u.pending = s.pending ∧ u.trust = s.trust := by
  unfold execFwActivate at h
  refine adminRow_fixed (fun s n => ?_) h
  simp

@[simp] theorem appendCounter_pending (s : State) (slot v : Nat) :
    (appendCounter s slot v).pending = s.pending := by
  unfold appendCounter
  try dsimp only
  repeat' (first | with_reducible rfl | simp [ite_pending, ite_trust, -ite_eq_left_iff] | split)

@[simp] theorem raiseCounters_pending (s : State) :
    (raiseCounters s).pending = s.pending := by
  unfold raiseCounters
  try dsimp only
  repeat' (first | with_reducible rfl | simp [ite_pending, ite_trust, -ite_eq_left_iff] | split)

@[simp] theorem vacateLease_fixed (s : State) (k : Nat) :
    (vacateLease s k).pending = s.pending ∧ (vacateLease s k).trust = s.trust := by
  unfold vacateLease
  try dsimp only
  constructor <;> repeat' (first | with_reducible rfl | simp [ite_pending, ite_trust, -ite_eq_left_iff] | split)

@[simp] theorem flushHeld_fixed (s : State) :
    (flushHeld s).pending = s.pending ∧ (flushHeld s).trust = s.trust := by
  simp [flushHeld]

@[simp] theorem resumeWork_fixed (s : State) :
    (resumeWork s).pending = s.pending ∧ (resumeWork s).trust = s.trust := by
  unfold resumeWork
  try dsimp only
  constructor <;> repeat' (first | with_reducible rfl | simp [ite_pending, ite_trust, -ite_eq_left_iff] | split)

@[simp] theorem recheckSchedules_fixed (s : State) :
    (recheckSchedules s).pending = s.pending ∧ (recheckSchedules s).trust = s.trust := by
  simp [recheckSchedules]

@[simp] theorem activationFails_fixed (s : State) (n item : Nat) :
    (activationFails s n item).pending = s.pending ∧ (activationFails s n item).trust = s.trust := by
  simp [activationFails]

@[simp] theorem activationEnds_pending (s : State) (n slot : Nat) (b : List Byte) :
    (activationEnds s n slot b).pending = s.pending := by
  unfold activationEnds
  try dsimp only
  repeat' (first | with_reducible rfl | simp [ite_pending, ite_trust, -ite_eq_left_iff] | split)

@[simp] theorem finishActivation_pending (s : State) (n : Nat) :
    (finishActivation s n).pending = s.pending := by
  unfold finishActivation
  try dsimp only
  repeat' (first | with_reducible rfl | simp [ite_pending, ite_trust, -ite_eq_left_iff] | split)

@[simp] theorem timePasses_pending (s : State) :
    (timePasses s).pending = s.pending := by
  unfold timePasses
  try dsimp only
  repeat' (first | with_reducible rfl | simp [ite_pending, ite_trust, -ite_eq_left_iff] | split)

@[simp] theorem attestEffect_fixed (s : State) (n : Nat) :
    (attestEffect s n).pending = s.pending ∧ (attestEffect s n).trust = s.trust := by
  unfold attestEffect
  refine ⟨withCmd_pending (fun x => ?_) n, withCmd_trust (fun x => ?_) n⟩ <;> repeat' (first | with_reducible rfl | simp [ite_pending, ite_trust, -ite_eq_left_iff] | split)

theorem execAttest_fixed (src : AdminSrc) (s : State) {u : State} (h : execAttest src s = .next u) :
    u.pending = s.pending ∧ u.trust = s.trust := by
  unfold execAttest at h
  refine adminRow_fixed (fun s n => ?_) h
  simp

theorem createColl_fixed {s : State} {i gen : Nat} {a : Attrs} {ms : List Nat} {l : List Byte} {u : State} (h : createColl s i gen a ms l = some u) :
    u.pending = s.pending ∧ u.trust = s.trust := by
  unfold createColl at h
  try dsimp only at h
  (repeat' split at h) <;> first | (cases h; done) | (cases h; constructor <;> repeat' (first | with_reducible rfl | simp [ite_pending, ite_trust, -ite_eq_left_iff] | split | simp only [takePages_fixed (by assumption)] | simp only [addTiles_fixed (by assumption)]))

@[simp] theorem sendFan_fixed (s : State) (ds : List Nat) (bytes : List Byte) :
    (sendFan s ds bytes).pending = s.pending ∧ (sendFan s ds bytes).trust = s.trust := by
  unfold sendFan
  try dsimp only
  constructor <;> repeat' (first | with_reducible rfl | simp [ite_pending, ite_trust, -ite_eq_left_iff] | split)

@[simp] theorem createEffect_fixed (s : State) (n : Nat) :
    (createEffect s n).pending = s.pending ∧ (createEffect s n).trust = s.trust := by
  unfold createEffect
  refine withCmd_fixed (fun x => ?_) n
  split
  · exact failCheck_fixed ..
  · split
    · split
      · exact refuse_fixed ..
      · split
        · exact refuse_fixed ..
        · lift_lets
          intro gen
          clear_value gen
          split
          · exact refuse_fixed ..
          · intro h
            clear_value h
            rename_i hc
            exact ⟨((succeed_fixed ..).1.trans (sendFan_fixed ..).1).trans (createColl_fixed hc).1,
              ((succeed_fixed ..).2.trans (sendFan_fixed ..).2).trans (createColl_fixed hc).2⟩
    · exact ⟨rfl, rfl⟩

@[simp] theorem startCreate_fixed (replies : List MemberReply) (s : State) (n : Nat) :
    (startCreate replies s n).pending = s.pending ∧ (startCreate replies s n).trust = s.trust := by
  unfold startCreate
  have h := startAdmin_fixed createEffect_fixed (s.modWork n fun w => { w with replies := replies }) n
  simpa using h

theorem execCollectionCreate_fixed (src : AdminSrc) (replies : List MemberReply) (s : State) {u : State}
    (h : execCollectionCreate src replies s = .next u) : u.pending = s.pending ∧ u.trust = s.trust := by
  unfold execCollectionCreate at h
  split at h
  · exact adminRowBy_fixed (fun s n => startCreate_fixed replies s n) h
  · obtain rfl | rfl := occurs_next h <;> exact ⟨rfl, rfl⟩

theorem resizeStage_fixed {s : State} {i : Nat} {a : Attrs} {u : State} (h : resizeStage s i a = some u) : u.pending = s.pending ∧ u.trust = s.trust := by
  unfold resizeStage at h
  split at h
  · rcases ite_or h with h | h
    · cases h; exact ⟨rfl, rfl⟩
    · obtain ⟨⟨p, t⟩, hx, hr⟩ := Option.map_eq_some_iff.mp h
      cases hr
      simp [takePages_fixed hx]
  · cases h; exact ⟨rfl, rfl⟩

theorem applySet_fixed {s : State} {i : Nat} {a : Attrs} {u : State} (h : applySet s i a = some u) : u.pending = s.pending ∧ u.trust = s.trust := by
  unfold applySet at h
  obtain ⟨t, hx, hr⟩ := Option.map_eq_some_iff.mp h
  cases hr
  simp [resizeStage_fixed hx]

@[simp] theorem setEffect_fixed (s : State) (n : Nat) :
    (setEffect s n).pending = s.pending ∧ (setEffect s n).trust = s.trust := by
  unfold setEffect
  refine ⟨withCmd_pending (fun x => ?_) n, withCmd_trust (fun x => ?_) n⟩ <;> repeat' (first | with_reducible rfl | simp [ite_pending, ite_trust, -ite_eq_left_iff] | split | simp only [applySet_fixed (by assumption)])

theorem execCollectionSet_fixed (src : AdminSrc) (s : State) {u : State} (h : execCollectionSet src s = .next u) :
    u.pending = s.pending ∧ u.trust = s.trust := by
  unfold execCollectionSet at h
  refine adminRow_fixed (fun s n => ?_) h
  simp

@[simp] theorem releaseColl_fixed (s : State) (i : Nat) :
    (releaseColl s i).pending = s.pending ∧ (releaseColl s i).trust = s.trust := by
  unfold releaseColl
  try dsimp only
  constructor <;> repeat' (first | with_reducible rfl | simp [ite_pending, ite_trust, -ite_eq_left_iff] | split)

@[simp] theorem settleDeleted_fixed (s : State) (i : Nat) :
    (settleDeleted s i).pending = s.pending ∧ (settleDeleted s i).trust = s.trust := by
  unfold settleDeleted
  try dsimp only
  constructor <;> repeat' (first | with_reducible rfl | simp [ite_pending, ite_trust, -ite_eq_left_iff] | split)

@[simp] theorem settleAllDeleted_fixed (s : State) :
    (settleAllDeleted s).pending = s.pending ∧ (settleAllDeleted s).trust = s.trust := by
  simp [settleAllDeleted]

@[simp] theorem settleIdle_fixed (s : State) :
    (settleIdle s).pending = s.pending ∧ (settleIdle s).trust = s.trust := by
  simp [settleIdle]

@[simp] theorem leaveMaint_fixed (s : State) (i : Nat) :
    (leaveMaint s i).pending = s.pending ∧ (leaveMaint s i).trust = s.trust := by
  simp [leaveMaint]

@[simp] theorem beginDelete_fixed (s : State) (i n : Nat) :
    (beginDelete s i n).pending = s.pending ∧ (beginDelete s i n).trust = s.trust := by
  unfold beginDelete
  try dsimp only
  constructor <;> repeat' (first | with_reducible rfl | simp [ite_pending, ite_trust, -ite_eq_left_iff] | split)

@[simp] theorem collDeleteEffect_fixed (s : State) (n : Nat) :
    (collDeleteEffect s n).pending = s.pending ∧ (collDeleteEffect s n).trust = s.trust := by
  unfold collDeleteEffect
  refine ⟨withCmd_pending (fun x => ?_) n, withCmd_trust (fun x => ?_) n⟩ <;> repeat' (first | with_reducible rfl | simp [ite_pending, ite_trust, -ite_eq_left_iff] | split)

theorem execCollectionDelete_fixed (src : AdminSrc) (s : State) {u : State} (h : execCollectionDelete src s = .next u) :
    u.pending = s.pending ∧ u.trust = s.trust := by
  unfold execCollectionDelete at h
  refine adminRow_fixed (fun s n => ?_) h
  simp

@[simp] theorem ownCommand_fixed (s : State) (i op cls : Nat) (target : Nat) :
    (ownCommand s i op cls target).pending = s.pending ∧ (ownCommand s i op cls target).trust = s.trust := by
  simp [ownCommand]

@[simp] theorem wakeForMaint_fixed (s : State) (cls j : Nat) :
    (wakeForMaint s cls j).pending = s.pending ∧ (wakeForMaint s cls j).trust = s.trust := by
  unfold wakeForMaint
  try dsimp only
  constructor <;> repeat' (first | with_reducible rfl | simp [ite_pending, ite_trust, -ite_eq_left_iff] | split)

@[simp] theorem maintEffect_fixed (s : State) (n : Nat) :
    (maintEffect s n).pending = s.pending ∧ (maintEffect s n).trust = s.trust := by
  unfold maintEffect
  refine ⟨withCmd_pending (fun x => ?_) n, withCmd_trust (fun x => ?_) n⟩ <;> repeat' (first | with_reducible rfl | simp [ite_pending, ite_trust, -ite_eq_left_iff] | split | simp only [addTiles_fixed (by assumption)])

theorem execCollectionRetrain_fixed (src : AdminSrc) (s : State) {u : State} (h : execCollectionRetrain src s = .next u) :
    u.pending = s.pending ∧ u.trust = s.trust := by
  unfold execCollectionRetrain at h
  refine adminRow_fixed (fun s n => ?_) h
  simp

theorem execCollectionRebuild_fixed (src : AdminSrc) (s : State) {u : State} (h : execCollectionRebuild src s = .next u) :
    u.pending = s.pending ∧ u.trust = s.trust := by
  unfold execCollectionRebuild at h
  refine adminRow_fixed (fun s n => ?_) h
  simp

theorem execListSplit_fixed (src : AdminSrc) (s : State) {u : State} (h : execListSplit src s = .next u) :
    u.pending = s.pending ∧ u.trust = s.trust := by
  unfold execListSplit at h
  refine adminRow_fixed (fun s n => ?_) h
  simp

theorem cutoverAt_fixed {s u : State} {i e : Nat} {o : Option Nat} (h : cutoverAt s i e = some (u, o)) : u.pending = s.pending ∧ u.trust = s.trust := by
  unfold cutoverAt at h
  split at h
  · cases h
  · rename_i ha
    split at h
    · cases h
    · split at h
      · cases h
      · dsimp only at h
        split at h
        · cases h
        · rename_i hp
          obtain ⟨v, hv, hr⟩ := Option.map_eq_some_iff.mp h
          cases hr
          have h1 := appendEvery_fixed ha
          have h2 := placeShadow_fixed hp
          have h3 := growIndex_fixed hv
          split at h3 <;> simp_all

@[simp] theorem parkAgain_fixed (s : State) (i : Nat) :
    (parkAgain s i).pending = s.pending ∧ (parkAgain s i).trust = s.trust := by
  unfold parkAgain
  try dsimp only
  constructor <;> repeat' (first | with_reducible rfl | simp [ite_pending, ite_trust, -ite_eq_left_iff] | split)

@[simp] theorem cutoverExhausted_fixed (s : State) (i : Nat) :
    (cutoverExhausted s i).pending = s.pending ∧ (cutoverExhausted s i).trust = s.trust := by
  unfold cutoverExhausted
  try dsimp only
  constructor <;> repeat' (first | with_reducible rfl | simp [ite_pending, ite_trust, -ite_eq_left_iff] | split)

@[simp] theorem cutoverEffect_fixed (s : State) (i : Nat) :
    (cutoverEffect s i).pending = s.pending ∧ (cutoverEffect s i).trust = s.trust := by
  unfold cutoverEffect
  try dsimp only
  constructor <;> repeat' (first | with_reducible rfl | simp [ite_pending, ite_trust, -ite_eq_left_iff] | split | simp only [cutoverAt_fixed (by assumption)])

theorem execCutover_fixed (coll : Nat) (s : State) {u : State} (h : execCutover coll s = .next u) :
    u.pending = s.pending ∧ u.trust = s.trust := by
  unfold execCutover at h; obtain rfl | rfl := occurs_next h <;> simp

theorem remoteWrites_fixed {s u : State} {i g e : Nat} {l : List (Nat × Completion × List Byte)} (h : remoteWrites s i g e = some (u, l)) :
    u.pending = s.pending ∧ u.trust = s.trust := by
  unfold remoteWrites at h
  split at h
  · split at h <;> first | (cases h; done) | (rename_i hc; cases h; simp [cutoverAt_fixed hc])
  · exact performGroup_fixed h

@[simp] theorem releaseHome_fixed (s : State) (i : Nat) (r : RemoteCommit) :
    (releaseHome s i r).pending = s.pending ∧ (releaseHome s i r).trust = s.trust := by
  simp [releaseHome]

@[simp] theorem markCutover_fixed (s : State) (i g : Nat) (w : CmdWord) :
    (markCutover s i g w).pending = s.pending ∧ (markCutover s i g w).trust = s.trust := by
  unfold markCutover
  try dsimp only
  constructor <;> repeat' (first | with_reducible rfl | simp [ite_pending, ite_trust, -ite_eq_left_iff] | split)

@[simp] theorem remoteExhausted_fixed (s : State) (i g : Nat) :
    (remoteExhausted s i g).pending = s.pending ∧ (remoteExhausted s i g).trust = s.trust := by
  unfold remoteExhausted
  try dsimp only
  constructor <;> repeat' (first | with_reducible rfl | simp [ite_pending, ite_trust, -ite_eq_left_iff] | split)

@[simp] theorem remoteAnswer_fixed (s : State) (i v : Nat) :
    (remoteAnswer s i v).pending = s.pending ∧ (remoteAnswer s i v).trust = s.trust := by
  unfold remoteAnswer
  split
  · exact ⟨rfl, rfl⟩
  · split
    · exact ⟨rfl, rfl⟩
    · split
      · (repeat' split) <;> simp
      · dsimp only
        split
        · simp
        · split
          · simp
          · rename_i hw
            have h := (ite_or hw).elim remoteWrites_fixed (fun h => nomatch h)
            split <;> simp [h]
      · simp
      · simp

@[simp] theorem adminEffect_pending (op : Nat) (s : State) (n : Nat) :
    (adminEffect op s n).pending = s.pending := by
  unfold adminEffect
  try dsimp only
  repeat' (first | with_reducible rfl | simp [ite_pending, ite_trust, -ite_eq_left_iff] | split)

@[simp] theorem admitEffect_pending (s : State) (n : Nat) (x : Cmd) : (admitEffect s n x).pending = s.pending := by
  unfold admitEffect
  split
  · simp
  · exact startAdmin_pending (fun s n => adminEffect_pending ..) s n

theorem execCommandAdmit_pending (cmd : Nat) (s : State) {u : State} (h : execCommandAdmit cmd s = .next u) :
    u.pending = s.pending := by
  unfold execCommandAdmit at h
  try dsimp only at h
  (repeat' split at h) <;> first | (obtain rfl | rfl := occurs_next h <;> repeat' (first | with_reducible rfl | simp [ite_pending, ite_trust, -ite_eq_left_iff] | split)) | simp_all

end Sys2Proof.Machine
end

