-- ==== Sys2Proof/Laws/FrameRest.lean ====
section
/-! SUPPORT. Frames: what links, peers, shards, start-up, power, repair and the sideband keep. Each lemma says of one operation that it keeps the queue of waiting commands
and the trust state; of an operation that may change the trust state, that it keeps the queue. -/

namespace Sys2Proof.Machine

open Sys2Proof
set_option linter.unusedSimpArgs false
set_option linter.unusedTactic false
set_option linter.unreachableTactic false
set_option linter.unnecessarySeqFocus false

@[simp] theorem linkLog_fixed (s : State) (p : Nat) (before after : List Nat) :
    (linkLog s p before after).pending = s.pending ∧ (linkLog s p before after).trust = s.trust := by
  simp [linkLog]

@[simp] theorem peerLog_fixed (s : State) (device window type : Nat) :
    (peerLog s device window type).pending = s.pending ∧ (peerLog s device window type).trust = s.trust := by
  simp [peerLog]

@[simp] theorem peerEvent_fixed (s : State) (r : PeerReq) (txn type : Nat) :
    (peerEvent s r txn type).pending = s.pending ∧ (peerEvent s r txn type).trust = s.trust := by
  simp [peerEvent]

@[simp] theorem memberAnswers_fixed (s : State) (n d : Nat) (k : Completion) (res : List Byte) :
    (memberAnswers s n d k res).pending = s.pending ∧ (memberAnswers s n d k res).trust = s.trust := by
  unfold memberAnswers
  try dsimp only
  constructor <;> repeat' (first | with_reducible rfl | simp [ite_pending, ite_trust, -ite_eq_left_iff] | split)

@[simp] theorem dropShard_fixed (s : State) (n : Nat) :
    (dropShard s n).pending = s.pending ∧ (dropShard s n).trust = s.trust := by
  unfold dropShard
  try dsimp only
  constructor <;> repeat' (first | with_reducible rfl | simp [ite_pending, ite_trust, -ite_eq_left_iff] | split)

@[simp] theorem settleLost_fixed (s : State) (cut : List Nat) :
    (settleLost s cut).pending = s.pending ∧ (settleLost s cut).trust = s.trust := by
  simp [settleLost]

@[simp] theorem releaseHeld_fixed (s : State) (p : Nat) (ks : List Packet) :
    (releaseHeld s p ks).pending = s.pending ∧ (releaseHeld s p ks).trust = s.trust := by
  unfold releaseHeld
  try dsimp only
  constructor <;> repeat' (first | with_reducible rfl | simp [ite_pending, ite_trust, -ite_eq_left_iff] | split)

@[simp] theorem setRoute_fixed (s : State) (d : Nat) (r : Route) :
    (setRoute s d r).pending = s.pending ∧ (setRoute s d r).trust = s.trust := by
  simp [setRoute]

@[simp] theorem rerouteOne_fixed (ways : List (Nat × Table Nat)) (s : State) (d : Nat) :
    (rerouteOne ways s d).pending = s.pending ∧ (rerouteOne ways s d).trust = s.trust := by
  unfold rerouteOne
  try dsimp only
  constructor <;> repeat' (first | with_reducible rfl | simp [ite_pending, ite_trust, -ite_eq_left_iff] | split)

@[simp] theorem payOwed_fixed (s : State) :
    (payOwed s).pending = s.pending ∧ (payOwed s).trust = s.trust := by
  simp [payOwed]

@[simp] theorem reroute_fixed (s : State) :
    (reroute s).pending = s.pending ∧ (reroute s).trust = s.trust := by
  simp [reroute]

@[simp] theorem switchRoutes_fixed (s : State) (p : Nat) :
    (switchRoutes s p).pending = s.pending ∧ (switchRoutes s p).trust = s.trust := by
  unfold switchRoutes
  try dsimp only
  constructor <;> repeat' (first | with_reducible rfl | simp (disch := (intros; repeat' (first | with_reducible rfl | simp [ite_pending, ite_trust, -ite_eq_left_iff] | split))) [foldl_pending, foldl_trust, ite_pending, ite_trust, -ite_eq_left_iff] | split)

@[simp] theorem flood_fixed (s : State) (up : Bool) :
    (flood s up).pending = s.pending ∧ (flood s up).trust = s.trust := by
  simp [flood]

@[simp] theorem settlePortDown_fixed (s : State) :
    (settlePortDown s).pending = s.pending ∧ (settlePortDown s).trust = s.trust := by
  simp [settlePortDown]

@[simp] theorem leaveService_fixed (s : State) (p : Nat) (excluded : BitVec 8) :
    (leaveService s p excluded).pending = s.pending ∧ (leaveService s p excluded).trust = s.trust := by
  simp [leaveService]

@[simp] theorem trainEffect_fixed (s : State) (p : Nat) (o : TrainObs) :
    (trainEffect s p o).pending = s.pending ∧ (trainEffect s p o).trust = s.trust := by
  unfold trainEffect
  try dsimp only
  constructor <;> repeat' (first | with_reducible rfl | simp [ite_pending, ite_trust, -ite_eq_left_iff] | split)

theorem execLinkTraining_fixed (port : Nat) (o : TrainObs) (s : State) {u : State} (h : execLinkTraining port o s = .next u) :
    u.pending = s.pending ∧ u.trust = s.trust := by
  unfold execLinkTraining at h; obtain rfl | rfl := occurs_next h <;> simp

theorem execLaneFailure_fixed (port lane : Nat) (s : State) {u : State} (h : execLaneFailure port lane s = .next u) :
    u.pending = s.pending ∧ u.trust = s.trust := by
  unfold execLaneFailure at h; obtain rfl | rfl := occurs_next h <;> simp

theorem execRetrainTimer_fixed (port : Nat) (s : State) {u : State} (h : execRetrainTimer port s = .next u) :
    u.pending = s.pending ∧ u.trust = s.trust := by
  unfold execRetrainTimer at h; obtain rfl | rfl := occurs_next h <;> simp

theorem execLinkTimeout_fixed (port : Nat) (s : State) {u : State} (h : execLinkTimeout port s = .next u) :
    u.pending = s.pending ∧ u.trust = s.trust := by
  unfold execLinkTimeout at h; obtain rfl | rfl := occurs_next h <;> simp

@[simp] theorem flitEffect_fixed (s : State) (p : Nat) (f : Flit) :
    (flitEffect s p f).pending = s.pending ∧ (flitEffect s p f).trust = s.trust := by
  simp [flitEffect]

theorem execFlitReceive_fixed (port : Nat) (f : Flit) (s : State) {u : State} (h : execFlitReceive port f s = .next u) :
    u.pending = s.pending ∧ u.trust = s.trust := by
  unfold execFlitReceive at h; obtain rfl | rfl := occurs_next h <;> simp

theorem execSendKeepalive_fixed (port : Nat) (s : State) {u : State} (h : execSendKeepalive port s = .next u) :
    u.pending = s.pending ∧ u.trust = s.trust := by
  unfold execSendKeepalive at h; obtain rfl | rfl := occurs_next h <;> simp

theorem execAck_fixed (port n : Nat) (s : State) {u : State} (h : execAck port n s = .next u) :
    u.pending = s.pending ∧ u.trust = s.trust := by
  unfold execAck at h; obtain rfl | rfl := occurs_next h <;> simp

@[simp] theorem nakEffect_fixed (s : State) (p n : Nat) :
    (nakEffect s p n).pending = s.pending ∧ (nakEffect s p n).trust = s.trust := by
  unfold nakEffect
  try dsimp only
  constructor <;> repeat' (first | with_reducible rfl | simp [ite_pending, ite_trust, -ite_eq_left_iff] | split)

theorem execNak_fixed (port n : Nat) (s : State) {u : State} (h : execNak port n s = .next u) :
    u.pending = s.pending ∧ u.trust = s.trust := by
  unfold execNak at h; obtain rfl | rfl := occurs_next h <;> simp

theorem execCredit_fixed (port vc flits : Nat) (s : State) {u : State} (h : execCredit port vc flits s = .next u) :
    u.pending = s.pending ∧ u.trust = s.trust := by
  unfold execCredit at h; obtain rfl | rfl := occurs_next h <;> simp

theorem execKeepalive_fixed (port : Nat) (s : State) {u : State} (h : execKeepalive port s = .next u) :
    u.pending = s.pending ∧ u.trust = s.trust := by
  unfold execKeepalive at h; obtain rfl | rfl := occurs_next h <;> simp

@[simp] theorem forwardEffect_fixed (s : State) (k : Packet) :
    (forwardEffect s k).pending = s.pending ∧ (forwardEffect s k).trust = s.trust := by
  unfold forwardEffect
  try dsimp only
  constructor <;> repeat' (first | with_reducible rfl | simp [ite_pending, ite_trust, -ite_eq_left_iff] | split)

theorem execPacketForward_fixed (port : Nat) (k : Packet) (s : State) {u : State} (h : execPacketForward port k s = .next u) :
    u.pending = s.pending ∧ u.trust = s.trust := by
  unfold execPacketForward at h; obtain rfl | rfl := occurs_next h <;> simp

@[simp] theorem peerTimeoutEffect_fixed (s : State) (txn : Nat) :
    (peerTimeoutEffect s txn).pending = s.pending ∧ (peerTimeoutEffect s txn).trust = s.trust := by
  unfold peerTimeoutEffect
  try dsimp only
  constructor <;> repeat' (first | with_reducible rfl | simp [ite_pending, ite_trust, -ite_eq_left_iff] | split)

theorem execPeerTimeout_fixed (txn : Nat) (s : State) {u : State} (h : execPeerTimeout txn s = .next u) :
    u.pending = s.pending ∧ u.trust = s.trust := by
  unfold execPeerTimeout at h; obtain rfl | rfl := occurs_next h <;> simp

@[simp] theorem routeSwitchEffect_fixed (s : State) (d p h : Nat) (r : Route) :
    (routeSwitchEffect s d p h r).pending = s.pending ∧ (routeSwitchEffect s d p h r).trust = s.trust := by
  simp [routeSwitchEffect]

theorem execRouteSwitch_fixed (device port : Nat) (s : State) {u : State} (h : execRouteSwitch device port s = .next u) :
    u.pending = s.pending ∧ u.trust = s.trust := by
  unfold execRouteSwitch at h
  try dsimp only at h
  (repeat' split at h) <;> first | (obtain rfl | rfl := occurs_next h <;> constructor <;> repeat' (first | with_reducible rfl | simp [ite_pending, ite_trust, -ite_eq_left_iff] | split)) | simp_all

@[simp] theorem topologyEffect_fixed (s : State) (ls : List LinkInfo) :
    (topologyEffect s ls).pending = s.pending ∧ (topologyEffect s ls).trust = s.trust := by
  unfold topologyEffect
  try dsimp only
  constructor <;> repeat' (first | with_reducible rfl | simp [ite_pending, ite_trust, -ite_eq_left_iff] | split)

theorem execTopology_fixed (links : List LinkInfo) (s : State) {u : State} (h : execTopology links s = .next u) :
    u.pending = s.pending ∧ u.trust = s.trust := by
  unfold execTopology at h; obtain rfl | rfl := occurs_next h <;> simp

@[simp] theorem respond_fixed (s : State) (k : Packet) (type : Nat) (b : List Byte) :
    (respond s k type b).pending = s.pending ∧ (respond s k type b).trust = s.trust := by
  simp [respond]

@[simp] theorem refusePeer_fixed (s : State) (k : Packet) (check : Nat) :
    (refusePeer s k check).pending = s.pending ∧ (refusePeer s k check).trust = s.trust := by
  simp [refusePeer]

@[simp] theorem noteWalk_fixed (s : State) (k : Packet) :
    (noteWalk s k).pending = s.pending ∧ (noteWalk s k).trust = s.trust := by
  unfold noteWalk
  try dsimp only
  constructor <;> repeat' (first | with_reducible rfl | simp [ite_pending, ite_trust, -ite_eq_left_iff] | split)

@[simp] theorem readReqEffect_fixed (s : State) (k : Packet) :
    (readReqEffect s k).pending = s.pending ∧ (readReqEffect s k).trust = s.trust := by
  unfold readReqEffect
  try dsimp only
  constructor <;> repeat' (first | with_reducible rfl | simp [ite_pending, ite_trust, -ite_eq_left_iff] | split)

theorem execReadReq_fixed (k : Packet) (s : State) {u : State} (h : execReadReq k s = .next u) :
    u.pending = s.pending ∧ u.trust = s.trust := by
  unfold execReadReq at h; obtain rfl | rfl := occurs_next h <;> simp

@[simp] theorem writeReqEffect_fixed (s : State) (k : Packet) :
    (writeReqEffect s k).pending = s.pending ∧ (writeReqEffect s k).trust = s.trust := by
  unfold writeReqEffect
  try dsimp only
  constructor <;> repeat' (first | with_reducible rfl | simp [ite_pending, ite_trust, -ite_eq_left_iff] | split)

theorem execWriteReq_fixed (k : Packet) (s : State) {u : State} (h : execWriteReq k s = .next u) :
    u.pending = s.pending ∧ u.trust = s.trust := by
  unfold execWriteReq at h; obtain rfl | rfl := occurs_next h <;> simp

@[simp] theorem atomicReqEffect_fixed (s : State) (k : Packet) :
    (atomicReqEffect s k).pending = s.pending ∧ (atomicReqEffect s k).trust = s.trust := by
  unfold atomicReqEffect
  try dsimp only
  constructor <;> repeat' (first | with_reducible rfl | simp [ite_pending, ite_trust, -ite_eq_left_iff] | split)

theorem execAtomicReq_fixed (k : Packet) (s : State) {u : State} (h : execAtomicReq k s = .next u) :
    u.pending = s.pending ∧ u.trust = s.trust := by
  unfold execAtomicReq at h; obtain rfl | rfl := occurs_next h <;> simp

@[simp] theorem closePeer_fixed (s : State) (txn : Nat) (r : PeerReq) :
    (closePeer s txn r).pending = s.pending ∧ (closePeer s txn r).trust = s.trust := by
  simp [closePeer]

@[simp] theorem commandReads_fixed (s : State) (n v : Nat) :
    (commandReads s n v).pending = s.pending ∧ (commandReads s n v).trust = s.trust := by
  unfold commandReads
  try dsimp only
  constructor <;> repeat' (first | with_reducible rfl | simp [ite_pending, ite_trust, -ite_eq_left_iff] | split)

@[simp] theorem readRspEffect_fixed (s : State) (txn : Nat) (r : PeerReq) (b : List Byte) :
    (readRspEffect s txn r b).pending = s.pending ∧ (readRspEffect s txn r b).trust = s.trust := by
  unfold readRspEffect
  try dsimp only
  constructor <;> repeat' (first | with_reducible rfl | simp [ite_pending, ite_trust, -ite_eq_left_iff] | split)

@[simp] theorem writeAckEffect_fixed (s : State) (txn : Nat) (r : PeerReq) :
    (writeAckEffect s txn r).pending = s.pending ∧ (writeAckEffect s txn r).trust = s.trust := by
  unfold writeAckEffect
  try dsimp only
  constructor <;> repeat' (first | with_reducible rfl | simp [ite_pending, ite_trust, -ite_eq_left_iff] | split)

@[simp] theorem atomicRspEffect_fixed (s : State) (txn : Nat) (r : PeerReq) (old : BitVec 64) :
    (atomicRspEffect s txn r old).pending = s.pending ∧ (atomicRspEffect s txn r old).trust = s.trust := by
  unfold atomicRspEffect
  try dsimp only
  constructor <;> repeat' (first | with_reducible rfl | simp [ite_pending, ite_trust, -ite_eq_left_iff] | split)

@[simp] theorem windowFaultEffect_fixed (s : State) (txn : Nat) (r : PeerReq) :
    (windowFaultEffect s txn r).pending = s.pending ∧ (windowFaultEffect s txn r).trust = s.trust := by
  simp [windowFaultEffect]

theorem responseRow_fixed {eff : State → PeerReq → State} (ha : ∀ s r, (eff s r).pending = s.pending ∧ (eff s r).trust = s.trust)
    {txn : Nat} {s u : State} (h : responseRow txn eff s = .next u) : u.pending = s.pending ∧ u.trust = s.trust := by
  unfold responseRow at h
  split at h <;> (obtain rfl | rfl := occurs_next h <;> simp [ha])

theorem execReadRsp_fixed (txn : Nat) (bytes : List Byte) (s : State) {u : State} (h : execReadRsp txn bytes s = .next u) :
    u.pending = s.pending ∧ u.trust = s.trust := by
  unfold execReadRsp at h
  refine responseRow_fixed (fun s n => ?_) h
  simp

theorem execWriteAck_fixed (txn : Nat) (s : State) {u : State} (h : execWriteAck txn s = .next u) :
    u.pending = s.pending ∧ u.trust = s.trust := by
  unfold execWriteAck at h
  refine responseRow_fixed (fun s n => ?_) h
  simp

theorem execAtomicRsp_fixed (txn : Nat) (old : BitVec 64) (s : State) {u : State} (h : execAtomicRsp txn old s = .next u) :
    u.pending = s.pending ∧ u.trust = s.trust := by
  unfold execAtomicRsp at h
  refine responseRow_fixed (fun s n => ?_) h
  simp

theorem execWindowFault_fixed (txn : Nat) (s : State) {u : State} (h : execWindowFault txn s = .next u) :
    u.pending = s.pending ∧ u.trust = s.trust := by
  unfold execWindowFault at h
  refine responseRow_fixed (fun s n => ?_) h
  simp

@[simp] theorem beaconEffect_fixed (s : State) (i e : Nat) :
    (beaconEffect s i e).pending = s.pending ∧ (beaconEffect s i e).trust = s.trust := by
  simp [beaconEffect]

theorem execEpochBeacon_fixed (handle : BitVec 32) (epoch : Nat) (s : State) {u : State} (h : execEpochBeacon handle epoch s = .next u) :
    u.pending = s.pending ∧ u.trust = s.trust := by
  unfold execEpochBeacon at h
  try dsimp only at h
  (repeat' split at h) <;> first | (obtain rfl | rfl := occurs_next h <;> constructor <;> repeat' (first | with_reducible rfl | simp [ite_pending, ite_trust, -ite_eq_left_iff] | split)) | simp_all

@[simp] theorem grantLease_fixed (s : State) (b : Nat) :
    (grantLease s b).pending = s.pending ∧ (grantLease s b).trust = s.trust := by
  unfold grantLease
  dsimp only
  split
  · rename_i h1
    split
    · rename_i h2
      split
      · simp [takePages_fixed h2, takePages_fixed h1]
      · exact ⟨rfl, rfl⟩
    · exact ⟨rfl, rfl⟩
  · exact ⟨rfl, rfl⟩

@[simp] theorem takeLease_fixed (s : State) (lender k w g : Nat) :
    (takeLease s lender k w g).pending = s.pending ∧ (takeLease s lender k w g).trust = s.trust := by
  unfold takeLease
  try dsimp only
  constructor <;> repeat' (first | with_reducible rfl | simp [ite_pending, ite_trust, -ite_eq_left_iff] | split)

@[simp] theorem leaseEffect_fixed (s : State) (m : LeaseMsg) :
    (leaseEffect s m).pending = s.pending ∧ (leaseEffect s m).trust = s.trust := by
  cases m <;> unfold leaseEffect <;> constructor <;> repeat' (first | with_reducible rfl | simp (disch := (intros; repeat' (first | with_reducible rfl | simp [ite_pending, ite_trust, -ite_eq_left_iff] | split))) [foldl_pending, foldl_trust, ite_pending, ite_trust, -ite_eq_left_iff] | split)

theorem execLease_fixed (m : LeaseMsg) (s : State) {u : State} (h : execLease m s = .next u) :
    u.pending = s.pending ∧ u.trust = s.trust := by
  unfold execLease at h; obtain rfl | rfl := occurs_next h <;> simp

@[simp] theorem shardFails_fixed (s : State) (co txn : Nat) (st : Status) :
    (shardFails s co txn st).pending = s.pending ∧ (shardFails s co txn st).trust = s.trust := by
  simp [shardFails]

@[simp] theorem shardReqEffect_fixed (s : State) (r : ShardReq) :
    (shardReqEffect s r).pending = s.pending ∧ (shardReqEffect s r).trust = s.trust := by
  unfold shardReqEffect
  try dsimp only
  constructor <;> repeat' (first | with_reducible rfl | simp [ite_pending, ite_trust, -ite_eq_left_iff] | split)

theorem execShardReq_fixed (r : ShardReq) (s : State) {u : State} (h : execShardReq r s = .next u) :
    u.pending = s.pending ∧ u.trust = s.trust := by
  unfold execShardReq at h; obtain rfl | rfl := occurs_next h <;> simp

@[simp] theorem shardRunEffect_fixed (s : State) (n d : Nat) (es : List ShardEntry) :
    (shardRunEffect s n d es).pending = s.pending ∧ (shardRunEffect s n d es).trust = s.trust := by
  simp [shardRunEffect]

theorem execShardRun_fixed (cmd device : Nat) (es : List ShardEntry) (s : State) {u : State} (h : execShardRun cmd device es s = .next u) :
    u.pending = s.pending ∧ u.trust = s.trust := by
  unfold execShardRun at h; obtain rfl | rfl := occurs_next h <;> simp

@[simp] theorem shardEndEffect_fixed (s : State) (n d : Nat) (st : Status) (lists : Nat) :
    (shardEndEffect s n d st lists).pending = s.pending ∧ (shardEndEffect s n d st lists).trust = s.trust := by
  unfold shardEndEffect
  try dsimp only
  constructor <;> repeat' (first | with_reducible rfl | simp [ite_pending, ite_trust, -ite_eq_left_iff] | split)

theorem execShardEnd_fixed (cmd device : Nat) (st : Status) (lists : Nat) (_matches : Nat) (s : State) {u : State} (h : execShardEnd cmd device st lists _matches s = .next u) :
    u.pending = s.pending ∧ u.trust = s.trust := by
  unfold execShardEnd at h; obtain rfl | rfl := occurs_next h <;> simp

theorem execShardCancel_fixed (coordinator txn : Nat) (s : State) {u : State} (h : execShardCancel coordinator txn s = .next u) :
    u.pending = s.pending ∧ u.trust = s.trust := by
  unfold execShardCancel at h
  try dsimp only at h
  (repeat' split at h) <;> first | (obtain rfl | rfl := occurs_next h <;> constructor <;> repeat' (first | with_reducible rfl | simp [ite_pending, ite_trust, -ite_eq_left_iff] | split)) | simp_all

@[simp] theorem shardRerankEffect_fixed (s : State) (n : Nat) (x : Cmd) (ids : List (Nat × BitVec 48)) :
    (shardRerankEffect s n x ids).pending = s.pending ∧ (shardRerankEffect s n x ids).trust = s.trust := by
  unfold shardRerankEffect
  try dsimp only
  constructor <;> repeat' (first | with_reducible rfl | simp [ite_pending, ite_trust, -ite_eq_left_iff] | split)

theorem execShardRerank_fixed (coordinator txn : Nat) (cross : Bool) (ids : List (Nat × BitVec 48)) (s : State) {u : State} (h : execShardRerank coordinator txn cross ids s = .next u) :
    u.pending = s.pending ∧ u.trust = s.trust := by
  unfold execShardRerank at h
  try dsimp only at h
  (repeat' split at h) <;> first | (obtain rfl | rfl := occurs_next h <;> constructor <;> repeat' (first | with_reducible rfl | simp [ite_pending, ite_trust, -ite_eq_left_iff] | split)) | simp_all

@[simp] theorem rerankRspEffect_fixed (s : State) (n d : Nat) (st : Status) (ds : List (Nat × F32)) (toks : List (Nat × List (BitVec 32))) :
    (rerankRspEffect s n d st ds toks).pending = s.pending ∧ (rerankRspEffect s n d st ds toks).trust = s.trust := by
  unfold rerankRspEffect
  try dsimp only
  constructor <;> repeat' (first | with_reducible rfl | simp [ite_pending, ite_trust, -ite_eq_left_iff] | split)

theorem execShardRerankRsp_fixed (cmd device : Nat) (st : Status) (ds : List (Nat × F32)) (toks : List (Nat × List (BitVec 32))) (s : State) {u : State} (h : execShardRerankRsp cmd device st ds toks s = .next u) :
    u.pending = s.pending ∧ u.trust = s.trust := by
  unfold execShardRerankRsp at h
  try dsimp only at h
  (repeat' split at h) <;> first | (obtain rfl | rfl := occurs_next h <;> constructor <;> repeat' (first | with_reducible rfl | simp [ite_pending, ite_trust, -ite_eq_left_iff] | split)) | simp_all

@[simp] theorem forwardCmdEffect_fixed (s : State) (src txn : Nat) (e : BitVec 1024) (inp : List Byte) :
    (forwardCmdEffect s src txn e inp).pending = s.pending ∧ (forwardCmdEffect s src txn e inp).trust = s.trust := by
  unfold forwardCmdEffect
  try dsimp only
  constructor <;> repeat' (first | with_reducible rfl | simp [ite_pending, ite_trust, -ite_eq_left_iff] | split)

theorem execForwardCmd_fixed (src txn : Nat) (e : BitVec 1024) (inp : List Byte) (s : State) {u : State} (h : execForwardCmd src txn e inp s = .next u) :
    u.pending = s.pending ∧ u.trust = s.trust := by
  unfold execForwardCmd at h; obtain rfl | rfl := occurs_next h <;> simp

theorem execForwardCpl_fixed (cmd device : Nat) (cpl : BitVec 256) (result : List Byte) (s : State) {u : State} (h : execForwardCpl cmd device cpl result s = .next u) :
    u.pending = s.pending ∧ u.trust = s.trust := by
  unfold execForwardCpl at h
  try dsimp only at h
  (repeat' split at h) <;> first | (obtain rfl | rfl := occurs_next h <;> constructor <;> repeat' (first | with_reducible rfl | simp [ite_pending, ite_trust, -ite_eq_left_iff] | split)) | simp_all

theorem execRunCtl_fixed (m : RunCtl) (s : State) {u : State} (h : execRunCtl m s = .next u) :
    u.pending = s.pending ∧ u.trust = s.trust := by
  unfold execRunCtl at h; obtain rfl | rfl := occurs_next h <;> simp

@[simp] theorem createColl_getD_pending (s : State) (i gen : Nat) (a : Attrs) (ms : List Nat) (l : List Byte) :
    ((createColl s i gen a ms l).getD s).pending = s.pending := by
  cases h : createColl s i gen a ms l with
  | none => rfl
  | some u => exact (createColl_fixed h).1

@[simp] theorem fanEffect_pending (s : State) (e : BitVec 1024) (inp : List Byte) : (fanEffect s e inp).pending = s.pending := by
  unfold fanEffect
  dsimp only
  split
  · repeat' (first | rfl | simp only [createColl_getD_pending] | split)
  · split
    · rename_i i c _
      cases h : (setAttrs (c.newAttrs.getD c.attrs) inp (eSetMask e)).bind (applySet s i) with
      | none => rfl
      | some u =>
        obtain ⟨a, _, h2⟩ := Option.bind_eq_some_iff.mp h
        exact (applySet_fixed h2).1
    · rfl
  · split <;> simp
  · rw [startAdmin_pending (fun s n => adminEffect_pending ..)]
    simp

theorem execAdminFan_pending (src : Nat) (e : BitVec 1024) (inp : List Byte) (idx : Nat) (s : State) {u : State} (h : execAdminFan src e inp idx s = .next u) :
    u.pending = s.pending := by
  unfold execAdminFan at h; obtain rfl | rfl := occurs_next h <;> simp

@[simp] theorem afterReset_pending (s : State) (powerOn : Bool) :
    (afterReset s powerOn).pending = s.pending := by
  simp [afterReset]

@[simp] theorem reconcileCounters_pending (s : State) :
    (reconcileCounters s).pending = s.pending := by
  unfold reconcileCounters
  try dsimp only
  repeat' (first | with_reducible rfl | simp [ite_pending, ite_trust, -ite_eq_left_iff] | split)

@[simp] theorem measureBoot_pending (s : State) (b : BootInputs) (img : List Byte) :
    (measureBoot s b img).pending = s.pending := by
  simp [measureBoot]

@[simp] theorem bootStart_pending (s : State) :
    (bootStart s).pending = s.pending := by
  simp [bootStart]

@[simp] theorem trainChannel_fixed (b : BootInputs) (s : State) (c : Nat) :
    (trainChannel b s c).pending = s.pending ∧ (trainChannel b s c).trust = s.trust := by
  simp [trainChannel]

@[simp] theorem testChannel_fixed (b : BootInputs) (s : State) (c : Nat) :
    (testChannel b s c).pending = s.pending ∧ (testChannel b s c).trust = s.trust := by
  unfold testChannel
  try dsimp only
  constructor <;> repeat' (first | with_reducible rfl | simp [ite_pending, ite_trust, -ite_eq_left_iff] | split)

@[simp] theorem bootHbm_fixed (s : State) (b : BootInputs) :
    (bootHbm s b).pending = s.pending ∧ (bootHbm s b).trust = s.trust := by
  unfold bootHbm
  try dsimp only
  constructor <;> repeat' (first | with_reducible rfl | simp [ite_pending, ite_trust, -ite_eq_left_iff] | split)

@[simp] theorem spareCore_fixed (s : State) (n : Nat) :
    (spareCore s n).pending = s.pending ∧ (spareCore s n).trust = s.trust := by
  unfold spareCore
  try dsimp only
  constructor <;> repeat' (first | with_reducible rfl | simp [ite_pending, ite_trust, -ite_eq_left_iff] | split)

@[simp] theorem bootCores_fixed (s : State) (b : BootInputs) :
    (bootCores s b).pending = s.pending ∧ (bootCores s b).trust = s.trust := by
  unfold bootCores
  try dsimp only
  constructor <;> repeat' (first | with_reducible rfl | simp [ite_pending, ite_trust, -ite_eq_left_iff] | split)

@[simp] theorem formatFlash_fixed (s : State) (b : BootInputs) :
    (formatFlash s b).pending = s.pending ∧ (formatFlash s b).trust = s.trust := by
  simp [formatFlash]

@[simp] theorem dropTarget_fixed (b : BootInputs) (s : State) (x : Nat × Nat) :
    (dropTarget b s x).pending = s.pending ∧ (dropTarget b s x).trust = s.trust := by
  simp [dropTarget]

@[simp] theorem bootFlash_fixed (s : State) (b : BootInputs) :
    (bootFlash s b).pending = s.pending ∧ (bootFlash s b).trust = s.trust := by
  unfold bootFlash
  try dsimp only
  constructor <;> repeat' (first | with_reducible rfl | simp [ite_pending, ite_trust, -ite_eq_left_iff] | split)

@[simp] theorem loadFeature_fixed (s : State) (x : Nat × Nat) :
    (loadFeature s x).pending = s.pending ∧ (loadFeature s x).trust = s.trust := by
  unfold loadFeature
  try dsimp only
  constructor <;> repeat' (first | with_reducible rfl | simp [ite_pending, ite_trust, -ite_eq_left_iff] | split)

@[simp] theorem bootStorage_fixed (s : State) (b : BootInputs) :
    (bootStorage s b).pending = s.pending ∧ (bootStorage s b).trust = s.trust := by
  unfold bootStorage
  try dsimp only
  constructor <;> repeat' (first | with_reducible rfl | simp [ite_pending, ite_trust, -ite_eq_left_iff] | split)

@[simp] theorem bootPort_fixed (b : BootInputs) (s : State) (p : PortId) :
    (bootPort b s p).pending = s.pending ∧ (bootPort b s p).trust = s.trust := by
  simp [bootPort]

@[simp] theorem readyPort_fixed (s : State) (p : PortId) :
    (readyPort s p).pending = s.pending ∧ (readyPort s p).trust = s.trust := by
  simp [readyPort]

@[simp] theorem bootLogs_fixed (s : State) :
    (bootLogs s).pending = s.pending ∧ (bootLogs s).trust = s.trust := by
  unfold bootLogs
  try dsimp only
  constructor <;> repeat' (first | with_reducible rfl | simp [ite_pending, ite_trust, -ite_eq_left_iff] | split)

@[simp] theorem startFirmware_pending (s : State) (b : BootInputs) (slot : Nat) (img : List Byte) :
    (startFirmware s b slot img).pending = s.pending := by
  unfold startFirmware
  try dsimp only
  repeat' (first | with_reducible rfl | simp [ite_pending, ite_trust, -ite_eq_left_iff] | split)

@[simp] theorem startRecovery_fixed (s : State) (b : BootInputs) :
    (startRecovery s b).pending = s.pending ∧ (startRecovery s b).trust = s.trust := by
  simp [startRecovery]

@[simp] theorem runStart_pending (s : State) (b : BootInputs) :
    (runStart s b).pending = s.pending := by
  unfold runStart
  try dsimp only
  repeat' (first | with_reducible rfl | simp [ite_pending, ite_trust, -ite_eq_left_iff] | split)

@[simp] theorem goOn_pending (s : State) (b : BootInputs) :
    (goOn s b).pending = s.pending := by
  unfold goOn
  try dsimp only
  repeat' (first | with_reducible rfl | simp [ite_pending, ite_trust, -ite_eq_left_iff] | split)

@[simp] theorem startEffect_pending (s : State) (b : BootInputs) :
    (startEffect s b).pending = s.pending := by
  simp [startEffect]

theorem execStartUp_pending (b : BootInputs) (s : State) {u : State} (h : execStartUp b s = .next u) :
    u.pending = s.pending := by
  unfold execStartUp at h; obtain rfl | rfl := occurs_next h <;> simp

@[simp] theorem releaseEffect_pending (s : State) :
    (releaseEffect s).pending = s.pending := by
  unfold releaseEffect
  try dsimp only
  repeat' (first | with_reducible rfl | simp [ite_pending, ite_trust, -ite_eq_left_iff] | split)

theorem execDevrstNRelease_pending (s : State) {u : State} (h : execDevrstNRelease s = .next u) :
    u.pending = s.pending := by
  unfold execDevrstNRelease at h; obtain rfl | rfl := occurs_next h <;> simp

@[simp] theorem lockEffect_pending (s : State) (i : Nat) :
    (lockEffect s i).pending = s.pending := by
  unfold lockEffect
  try dsimp only
  repeat' (first | with_reducible rfl | simp [ite_pending, ite_trust, -ite_eq_left_iff] | split)

theorem execPllLock_pending (island : Nat) (s : State) {u : State} (h : execPllLock island s = .next u) :
    u.pending = s.pending := by
  unfold execPllLock at h; obtain rfl | rfl := occurs_next h <;> simp

theorem execPowerDown_pending (s : State) {u : State} (h : execPowerDown s = .next u) :
    u.pending = s.pending := by
  unfold execPowerDown at h; obtain rfl | rfl := occurs_next h <;> simp

@[simp] theorem railEffect_pending (s : State) (rail : Nat) (above : Bool) :
    (railEffect s rail above).pending = s.pending := by
  unfold railEffect
  try dsimp only
  repeat' (first | with_reducible rfl | simp [ite_pending, ite_trust, -ite_eq_left_iff] | split)

theorem execRailFault_pending (rail : Nat) (above : Bool) (s : State) {u : State} (h : execRailFault rail above s = .next u) :
    u.pending = s.pending := by
  unfold execRailFault at h; obtain rfl | rfl := occurs_next h <;> simp

@[simp] theorem deviceReset_pending (s : State) :
    (deviceReset s).pending = s.pending := by
  simp [deviceReset]

theorem execDeviceReset_pending (cause : ResetCause) (s : State) {u : State} (h : execDeviceReset cause s = .next u) :
    u.pending = s.pending := by
  unfold execDeviceReset at h
  try dsimp only at h
  (repeat' split at h) <;> first | (obtain rfl | rfl := occurs_next h <;> repeat' (first | with_reducible rfl | simp [ite_pending, ite_trust, -ite_eq_left_iff] | split)) | simp_all

@[simp] theorem islandResponse_fixed (s : State) (i detail : Nat) :
    (islandResponse s i detail).pending = s.pending ∧ (islandResponse s i detail).trust = s.trust := by
  unfold islandResponse
  try dsimp only
  constructor <;> repeat' (first | with_reducible rfl | simp [ite_pending, ite_trust, -ite_eq_left_iff] | split)

@[simp] theorem loseIsland_fixed (s : State) (i : Nat) :
    (loseIsland s i).pending = s.pending ∧ (loseIsland s i).trust = s.trust := by
  unfold loseIsland
  try dsimp only
  constructor <;> repeat' (first | with_reducible rfl | simp [ite_pending, ite_trust, -ite_eq_left_iff] | split)

theorem execPllLoss_fixed (island : Nat) (s : State) {u : State} (h : execPllLoss island s = .next u) :
    u.pending = s.pending ∧ u.trust = s.trust := by
  unfold execPllLoss at h; obtain rfl | rfl := occurs_next h <;> simp

theorem execCrossingParityError_fixed (c : Nat) (s : State) {u : State} (h : execCrossingParityError c s = .next u) :
    u.pending = s.pending ∧ u.trust = s.trust := by
  unfold execCrossingParityError at h; obtain rfl | rfl := occurs_next h <;> simp

theorem execPeakClear_fixed (c : Nat) (s : State) {u : State} (h : execPeakClear c s = .next u) :
    u.pending = s.pending ∧ u.trust = s.trust := by
  unfold execPeakClear at h; obtain rfl | rfl := occurs_next h <;> simp

theorem execSecurityBlockFault_fixed (s : State) {u : State} (h : execSecurityBlockFault s = .next u) :
    u.pending = s.pending ∧ u.trust = s.trust := by
  unfold execSecurityBlockFault at h; obtain rfl | rfl := occurs_next h <;> simp

@[simp] theorem restartFirmware_fixed (s : State) :
    (restartFirmware s).pending = s.pending ∧ (restartFirmware s).trust = s.trust := by
  simp [restartFirmware]

@[simp] theorem watchdogEffect_fixed (s : State) :
    (watchdogEffect s).pending = s.pending ∧ (watchdogEffect s).trust = s.trust := by
  unfold watchdogEffect
  try dsimp only
  constructor <;> repeat' (first | with_reducible rfl | simp [ite_pending, ite_trust, -ite_eq_left_iff] | split)

theorem execWatchdogExpiry_fixed (s : State) {u : State} (h : execWatchdogExpiry s = .next u) :
    u.pending = s.pending ∧ u.trust = s.trust := by
  unfold execWatchdogExpiry at h; obtain rfl | rfl := occurs_next h <;> simp

theorem execTestPortAccess_fixed (s : State) {u : State} (h : execTestPortAccess s = .next u) :
    u.pending = s.pending ∧ u.trust = s.trust := by
  unfold execTestPortAccess at h; obtain rfl | rfl := occurs_next h <;> simp

theorem execProvisioning_pending (m : Manufacture) (s : State) {u : State} (h : execProvisioning m s = .next u) :
    u.pending = s.pending := by
  unfold execProvisioning at h; obtain rfl | rfl := occurs_next h <;> simp

theorem execPmbAlert_fixed (s : State) {u : State} (h : execPmbAlert s = .next u) :
    u.pending = s.pending ∧ u.trust = s.trust := by
  unfold execPmbAlert at h; obtain rfl | rfl := occurs_next h <;> simp

@[simp] theorem enterDp_fixed (s : State) (d : Dp) :
    (enterDp s d).pending = s.pending ∧ (enterDp s d).trust = s.trust := by
  simp [enterDp]

theorem execDp1Entry_fixed (s : State) {u : State} (h : execDp1Entry s = .next u) :
    u.pending = s.pending ∧ u.trust = s.trust := by
  unfold execDp1Entry at h; obtain rfl | rfl := occurs_next h <;> simp

theorem execDp2Entry_fixed (s : State) {u : State} (h : execDp2Entry s = .next u) :
    u.pending = s.pending ∧ u.trust = s.trust := by
  unfold execDp2Entry at h; obtain rfl | rfl := occurs_next h <;> simp

theorem execDp3Entry_fixed (s : State) {u : State} (h : execDp3Entry s = .next u) :
    u.pending = s.pending ∧ u.trust = s.trust := by
  unfold execDp3Entry at h; obtain rfl | rfl := occurs_next h <;> simp

@[simp] theorem cleanLine_fixed (s : State) (k : Nat) :
    (cleanLine s k).pending = s.pending ∧ (cleanLine s k).trust = s.trust := by
  unfold cleanLine
  try dsimp only
  constructor <;> repeat' (first | with_reducible rfl | simp [ite_pending, ite_trust, -ite_eq_left_iff] | split)

@[simp] theorem cleanSlices_fixed (s : State) :
    (cleanSlices s).pending = s.pending ∧ (cleanSlices s).trust = s.trust := by
  simp [cleanSlices]

@[simp] theorem stopIslands_fixed (s : State) (is : List Nat) (st : IslState) :
    (stopIslands s is st).pending = s.pending ∧ (stopIslands s is st).trust = s.trust := by
  simp [stopIslands]

@[simp] theorem sleepDp2_fixed (s : State) :
    (sleepDp2 s).pending = s.pending ∧ (sleepDp2 s).trust = s.trust := by
  simp [sleepDp2]

@[simp] theorem sleepDp3_fixed (s : State) :
    (sleepDp3 s).pending = s.pending ∧ (sleepDp3 s).trust = s.trust := by
  simp [sleepDp3]

@[simp] theorem wake0_fixed (s : State) :
    (wake0 s).pending = s.pending ∧ (wake0 s).trust = s.trust := by
  simp [wake0]

@[simp] theorem entryEffect_fixed (s : State) (d : Dp) :
    (entryEffect s d).pending = s.pending ∧ (entryEffect s d).trust = s.trust := by
  unfold entryEffect
  try dsimp only
  constructor <;> repeat' (first | with_reducible rfl | simp [ite_pending, ite_trust, -ite_eq_left_iff] | split)

theorem execDpEntryComplete_fixed (s : State) {u : State} (h : execDpEntryComplete s = .next u) :
    u.pending = s.pending ∧ u.trust = s.trust := by
  unfold execDpEntryComplete at h
  try dsimp only at h
  (repeat' split at h) <;> first | (obtain rfl | rfl := occurs_next h <;> constructor <;> repeat' (first | with_reducible rfl | simp [ite_pending, ite_trust, -ite_eq_left_iff] | split)) | simp_all

theorem execDp1Exit_fixed (s : State) {u : State} (h : execDp1Exit s = .next u) :
    u.pending = s.pending ∧ u.trust = s.trust := by
  unfold execDp1Exit at h; obtain rfl | rfl := occurs_next h <;> simp

theorem execDpExit_fixed (s : State) {u : State} (h : execDpExit s = .next u) :
    u.pending = s.pending ∧ u.trust = s.trust := by
  unfold execDpExit at h; obtain rfl | rfl := occurs_next h <;> simp

@[simp] theorem State.modSensor_fixed (s : State) (n : Nat) (f : Sensor → Sensor) :
    (State.modSensor s n f).pending = s.pending ∧ (State.modSensor s n f).trust = s.trust := by
  simp [State.modSensor]

@[simp] theorem alarm_fixed (s : State) (n : Nat) (t : Int) :
    (alarm s n t).pending = s.pending ∧ (alarm s n t).trust = s.trust := by
  simp [alarm]

@[simp] theorem sampleOne_fixed (s : State) (x : Nat × Int) :
    (sampleOne s x).pending = s.pending ∧ (sampleOne s x).trust = s.trust := by
  unfold sampleOne
  try dsimp only
  constructor <;> repeat' (first | with_reducible rfl | simp [ite_pending, ite_trust, -ite_eq_left_iff] | split)

@[simp] theorem thermalShutdown_fixed (s : State) (n : Nat) (t : Int) :
    (thermalShutdown s n t).pending = s.pending ∧ (thermalShutdown s n t).trust = s.trust := by
  simp [thermalShutdown]

@[simp] theorem sampleEffect_fixed (s : State) (rs : List Int) :
    (sampleEffect s rs).pending = s.pending ∧ (sampleEffect s rs).trust = s.trust := by
  unfold sampleEffect
  try dsimp only
  constructor <;> repeat' (first | with_reducible rfl | simp [ite_pending, ite_trust, -ite_eq_left_iff] | split)

theorem execThermalSample_fixed (readings : List Int) (s : State) {u : State} (h : execThermalSample readings s = .next u) :
    u.pending = s.pending ∧ u.trust = s.trust := by
  unfold execThermalSample at h; obtain rfl | rfl := occurs_next h <;> simp

@[simp] theorem modDieCap_fixed (s : State) (d : Nat) (f : Quarter → Nat) :
    (modDieCap s d f).pending = s.pending ∧ (modDieCap s d f).trust = s.trust := by
  simp [modDieCap]

@[simp] theorem throttleEffect_fixed (s : State) (n : Nat) :
    (throttleEffect s n).pending = s.pending ∧ (throttleEffect s n).trust = s.trust := by
  unfold throttleEffect
  try dsimp only
  constructor <;> repeat' (first | with_reducible rfl | simp [ite_pending, ite_trust, -ite_eq_left_iff] | split)

theorem execThrottleStep_fixed (sensor : Nat) (s : State) {u : State} (h : execThrottleStep sensor s = .next u) :
    u.pending = s.pending ∧ u.trust = s.trust := by
  unfold execThrottleStep at h; obtain rfl | rfl := occurs_next h <;> simp

@[simp] theorem pollRail_fixed (s : State) (x : Nat × Option (Nat × Nat) × Nat) :
    (pollRail s x).pending = s.pending ∧ (pollRail s x).trust = s.trust := by
  unfold pollRail
  try dsimp only
  constructor <;> repeat' (first | with_reducible rfl | simp [ite_pending, ite_trust, -ite_eq_left_iff] | split)

@[simp] theorem pollEffect_fixed (s : State) (rails : List (Option (Nat × Nat))) (estimates : List Nat) :
    (pollEffect s rails estimates).pending = s.pending ∧ (pollEffect s rails estimates).trust = s.trust := by
  simp [pollEffect]

theorem execTelemetryPoll_fixed (rails : List (Option (Nat × Nat))) (estimates : List Nat) (s : State) {u : State} (h : execTelemetryPoll rails estimates s = .next u) :
    u.pending = s.pending ∧ u.trust = s.trust := by
  unfold execTelemetryPoll at h; obtain rfl | rfl := occurs_next h <;> simp

@[simp] theorem limitEffect_fixed (s : State) :
    (limitEffect s).pending = s.pending ∧ (limitEffect s).trust = s.trust := by
  simp [limitEffect]

theorem execPowerLimitStep_fixed (s : State) {u : State} (h : execPowerLimitStep s = .next u) :
    u.pending = s.pending ∧ u.trust = s.trust := by
  unfold execPowerLimitStep at h; obtain rfl | rfl := occurs_next h <;> simp

@[simp] theorem coreSpareEffect_fixed (s : State) (n : Nat) :
    (coreSpareEffect s n).pending = s.pending ∧ (coreSpareEffect s n).trust = s.trust := by
  unfold coreSpareEffect
  try dsimp only
  constructor <;> repeat' (first | with_reducible rfl | simp [ite_pending, ite_trust, -ite_eq_left_iff] | split)

theorem execCoreSpare_fixed (core : Nat) (why : CoreFailure) (s : State) {u : State} (h : execCoreSpare core why s = .next u) :
    u.pending = s.pending ∧ u.trust = s.trust := by
  unfold execCoreSpare at h
  obtain e | e := occurs_next h
  · rw [e]; exact coreSpareEffect_fixed s core
  · rw [e]; exact ⟨rfl, rfl⟩

@[simp] theorem settleSub_fixed (s : State) (n : Nat) :
    (settleSub s n).pending = s.pending ∧ (settleSub s n).trust = s.trust := by
  unfold settleSub
  try dsimp only
  constructor <;> repeat' (first | with_reducible rfl | simp [ite_pending, ite_trust, -ite_eq_left_iff] | split)

@[simp] theorem returnQuarter_fixed (s : State) (q : Nat) :
    (returnQuarter s q).pending = s.pending ∧ (returnQuarter s q).trust = s.trust := by
  unfold returnQuarter
  try dsimp only
  constructor <;> repeat' (first | with_reducible rfl | simp [ite_pending, ite_trust, -ite_eq_left_iff] | split)

@[simp] theorem quarterRepairEffect_fixed (s : State) (q : Nat) (bad : List Nat) (pass : Bool) :
    (quarterRepairEffect s q bad pass).pending = s.pending ∧ (quarterRepairEffect s q bad pass).trust = s.trust := by
  unfold quarterRepairEffect
  try dsimp only
  constructor <;> repeat' (first | with_reducible rfl | simp [ite_pending, ite_trust, -ite_eq_left_iff] | split)

theorem execQuarterRepair_fixed (quarter : Nat) (badCores : List Nat) (pass : Bool) (s : State) {u : State} (h : execQuarterRepair quarter badCores pass s = .next u) :
    u.pending = s.pending ∧ u.trust = s.trust := by
  unfold execQuarterRepair at h; obtain rfl | rfl := occurs_next h <;> simp

@[simp] theorem rebuildTile_fixed (s : State) (t : Nat) :
    (rebuildTile s t).pending = s.pending ∧ (rebuildTile s t).trust = s.trust := by
  unfold rebuildTile
  try dsimp only
  constructor <;> repeat' (first | with_reducible rfl | simp [ite_pending, ite_trust, -ite_eq_left_iff] | split | simp only [takePages_fixed (by assumption)])

@[simp] theorem collRepairEffect_fixed (s : State) (i : Nat) (c : Collection) :
    (collRepairEffect s i c).pending = s.pending ∧ (collRepairEffect s i c).trust = s.trust := by
  unfold collRepairEffect
  try dsimp only
  constructor <;> repeat' (first | with_reducible rfl | simp [ite_pending, ite_trust, -ite_eq_left_iff] | split)

theorem execCollectionRepair_fixed (coll : Nat) (s : State) {u : State} (h : execCollectionRepair coll s = .next u) :
    u.pending = s.pending ∧ u.trust = s.trust := by
  unfold execCollectionRepair at h
  try dsimp only at h
  (repeat' split at h) <;> first | (obtain rfl | rfl := occurs_next h <;> constructor <;> repeat' (first | with_reducible rfl | simp [ite_pending, ite_trust, -ite_eq_left_iff] | split)) | simp_all

theorem execSbSetOffset_fixed (w : BitVec 16) (s : State) {u : State} (h : execSbSetOffset w s = .next u) :
    u.pending = s.pending ∧ u.trust = s.trust := by
  unfold execSbSetOffset at h; obtain rfl | rfl := occurs_next h <;> simp

theorem execSbBlockWrite_fixed (bytes : List Byte) (s : State) {u : State} (h : execSbBlockWrite bytes s = .next u) :
    u.pending = s.pending ∧ u.trust = s.trust := by
  unfold execSbBlockWrite at h; obtain rfl | rfl := occurs_next h <;> simp

theorem execSbBlockRead_fixed (n : Nat) (s : State) {u : State} (h : execSbBlockRead n s = .next u) :
    u.pending = s.pending ∧ u.trust = s.trust := by
  unfold execSbBlockRead at h; obtain rfl | rfl := occurs_next h <;> simp

theorem execSbSubmit_fixed (len : BitVec 16) (s : State) {u : State} (h : execSbSubmit len s = .next u) :
    u.pending = s.pending ∧ u.trust = s.trust := by
  unfold execSbSubmit at h; obtain rfl | rfl := occurs_next h <;> simp

theorem execSbReadStatus_fixed (s : State) {u : State} (h : execSbReadStatus s = .next u) :
    u.pending = s.pending ∧ u.trust = s.trust := by
  unfold execSbReadStatus at h; obtain rfl | rfl := occurs_next h <;> simp

theorem execPowerLimitSet_fixed (w : BitVec 16) (s : State) {u : State} (h : execPowerLimitSet w s = .next u) :
    u.pending = s.pending ∧ u.trust = s.trust := by
  unfold execPowerLimitSet at h; obtain rfl | rfl := occurs_next h <;> simp

theorem execPowerRead_fixed (s : State) {u : State} (h : execPowerRead s = .next u) :
    u.pending = s.pending ∧ u.trust = s.trust := by
  unfold execPowerRead at h; obtain rfl | rfl := occurs_next h <;> simp

theorem execSbDeviceReset_pending (w : BitVec 16) (s : State) {u : State} (h : execSbDeviceReset w s = .next u) :
    u.pending = s.pending := by
  unfold execSbDeviceReset at h; obtain rfl | rfl := occurs_next h <;> simp

theorem execRailFaultRead_fixed (s : State) {u : State} (h : execRailFaultRead s = .next u) :
    u.pending = s.pending ∧ u.trust = s.trust := by
  unfold execRailFaultRead at h; obtain rfl | rfl := occurs_next h <;> simp

theorem execSbBusTimeout_fixed (s : State) {u : State} (h : execSbBusTimeout s = .next u) :
    u.pending = s.pending ∧ u.trust = s.trust := by
  unfold execSbBusTimeout at h; obtain rfl | rfl := occurs_next h <;> simp

end Sys2Proof.Machine
end

