-- ==== Sys2Proof/Laws/Table.lean ====
section
/-! SUPPORT. What the operations on sparse tables do: a read after a write of the same number gives what was written, and a write leaves
every other number alone. -/

namespace Sys2Proof.Machine.Tab

variable {α β : Type}

@[simp] theorem get?_nil (k : Nat) : get? ([] : Table α) k = none := rfl
@[simp] theorem getD_nil (k : Nat) (d : α) : getD ([] : Table α) k d = d := rfl

@[simp] theorem get?_set_self (t : Table α) (k : Nat) (a : α) : get? (set t k a) k = some a := by
  induction t with
  | nil => simp [set, get?]
  | cons x t ih =>
    obtain ⟨j, b⟩ := x
    unfold set
    split
    · simp [get?]
    · split
      · simp [get?]
      · rename_i h1 h2
        simp [get?, Ne.symm h2, ih]

theorem get?_set_ne (t : Table α) {j k : Nat} (a : α) (h : j ≠ k) : get? (set t k a) j = get? t j := by
  induction t with
  | nil => simp [set, get?, Ne.symm h]
  | cons x t ih =>
    obtain ⟨i, b⟩ := x
    unfold set
    split
    · simp [get?, Ne.symm h]
    · split
      · rename_i h2
        subst h2
        simp [get?, Ne.symm h]
      · simp [get?, ih]

theorem get?_set (t : Table α) (j k : Nat) (a : α) : get? (set t k a) j = if j = k then some a else get? t j := by
  split
  · rename_i h; subst h; exact get?_set_self ..
  · rename_i h; exact get?_set_ne _ _ h

@[simp] theorem getD_set_self (t : Table α) (k : Nat) (a d : α) : getD (set t k a) k d = a := by simp [getD]

theorem getD_set (t : Table α) (j k : Nat) (a d : α) : getD (set t k a) j d = if j = k then a else getD t j d := by
  unfold getD
  rw [get?_set]
  split <;> rfl

@[simp] theorem getD_modify_self (t : Table α) (k : Nat) (d : α) (f : α → α) : getD (modify t k d f) k d = f (getD t k d) := by
  simp [modify]

theorem getD_modify (t : Table α) (j k : Nat) (d : α) (f : α → α) :
    getD (modify t k d f) j d = if j = k then f (getD t k d) else getD t j d := by
  unfold modify
  exact getD_set ..

theorem get?_adjust (t : Table α) (j k : Nat) (f : α → α) :
    get? (adjust t k f) j = if j = k then (get? t k).map f else get? t j := by
  induction t with
  | nil => simp [adjust, get?]
  | cons x t ih =>
    obtain ⟨i, b⟩ := x
    unfold adjust
    by_cases h : i = k
    · subst h
      by_cases h2 : j = i
      · subst h2; simp [get?]
      · simp [get?, h2, Ne.symm h2]
    · by_cases h2 : i = j
      · subst h2; simp [get?, h]
      · simp only [h, if_false, get?, h2, ih]

@[simp] theorem get?_adjust_self (t : Table α) (k : Nat) (f : α → α) : get? (adjust t k f) k = (get? t k).map f := by
  simp [get?_adjust]

@[simp] theorem get?_map (t : Table α) (f : α → β) (k : Nat) : get? (map t f) k = (get? t k).map f := by
  induction t with
  | nil => rfl
  | cons x t ih =>
    obtain ⟨j, b⟩ := x
    simp only [map, List.map_cons, get?]
    split
    · rfl
    · exact ih

theorem get?_erase_ne (t : Table α) {j k : Nat} (h : j ≠ k) : get? (erase t k) j = get? t j := by
  induction t with
  | nil => rfl
  | cons x t ih =>
    obtain ⟨i, b⟩ := x
    unfold erase
    split
    · rename_i h2; subst h2; simp [get?, Ne.symm h]
    · simp only [get?, ih]

end Sys2Proof.Machine.Tab
end

