-- ==== Sys2Proof/Laws/Memory.lean ====
section
/-! SUPPORT. Byte memory: a read after a write, other addresses left alone, and the canonical form that every write keeps. -/

namespace Sys2Proof.Machine

open Sys2Proof

namespace Tab

variable {α : Type}

/-- Every number of a table lies above k. -/
def Above (k : Nat) (t : Table α) : Prop := ∀ x ∈ t, k < x.1

theorem wf_cons (j : Nat) (b : α) (t : Table α) : wf ((j, b) :: t) = true ↔ Above j t ∧ wf t = true := by
  induction t generalizing j b with
  | nil => simp [wf, Above]
  | cons x t ih =>
    obtain ⟨k, c⟩ := x
    rw [wf, Bool.and_eq_true, decide_eq_true_eq]
    constructor
    · rintro ⟨h, hw⟩
      refine ⟨?_, hw⟩
      intro y hy
      rcases List.mem_cons.mp hy with rfl | hy
      · exact h
      · exact lt_trans h (((ih k c).mp hw).1 y hy)
    · rintro ⟨h, hw⟩
      exact ⟨h (k, c) (by simp), hw⟩

theorem above_set {j k : Nat} {a : α} {t : Table α} (h : Above j t) (hk : j < k) : Above j (set t k a) := by
  induction t with
  | nil => intro x hx; simp [set] at hx; subst hx; exact hk
  | cons y t ih =>
    obtain ⟨i, b⟩ := y
    have hi : j < i := h (i, b) (by simp)
    have ht : Above j t := fun x hx => h x (by simp [hx])
    unfold set
    split
    · intro x hx; rcases List.mem_cons.mp hx with rfl | hx
      · exact hk
      · exact h x hx
    · split
      · intro x hx; rcases List.mem_cons.mp hx with rfl | hx
        · exact hk
        · exact ht x hx
      · intro x hx; rcases List.mem_cons.mp hx with rfl | hx
        · exact hi
        · exact ih ht x hx

theorem above_erase {j k : Nat} {t : Table α} (h : Above j t) : Above j (erase t k) := by
  induction t with
  | nil => exact h
  | cons y t ih =>
    obtain ⟨i, b⟩ := y
    have ht : Above j t := fun x hx => h x (by simp [hx])
    unfold erase
    split
    · exact ht
    · intro x hx; rcases List.mem_cons.mp hx with rfl | hx
      · exact h (i, b) (by simp)
      · exact ih ht x hx

theorem wf_set {t : Table α} (h : wf t = true) (k : Nat) (a : α) : wf (set t k a) = true := by
  induction t with
  | nil => rfl
  | cons y t ih =>
    obtain ⟨i, b⟩ := y
    obtain ⟨ha, ht⟩ := (wf_cons i b t).mp h
    unfold set
    split
    · rename_i hk
      refine (wf_cons _ _ _).mpr ⟨?_, h⟩
      intro x hx; rcases List.mem_cons.mp hx with rfl | hx
      · exact hk
      · exact lt_trans hk (ha x hx)
    · split
      · rename_i hk; subst hk; exact (wf_cons _ _ _).mpr ⟨ha, ht⟩
      · rename_i h1 h2
        exact (wf_cons _ _ _).mpr ⟨above_set ha (by omega), ih ht⟩

theorem wf_erase {t : Table α} (h : wf t = true) (k : Nat) : wf (erase t k) = true := by
  induction t with
  | nil => rfl
  | cons y t ih =>
    obtain ⟨i, b⟩ := y
    obtain ⟨ha, ht⟩ := (wf_cons i b t).mp h
    unfold erase
    split
    · exact ht
    · exact (wf_cons _ _ _).mpr ⟨above_erase ha, ih ht⟩

theorem get?_above {t : Table α} {k : Nat} (h : Above k t) : get? t k = none := by
  induction t with
  | nil => rfl
  | cons y t ih =>
    obtain ⟨i, b⟩ := y
    have hi : k < i := h (i, b) (by simp)
    have hn : i ≠ k := by omega
    simp only [get?, hn, if_false]
    exact ih fun x hx => h x (by simp [hx])

theorem get?_erase_self {t : Table α} (h : wf t = true) (k : Nat) : get? (erase t k) k = none := by
  induction t with
  | nil => rfl
  | cons y t ih =>
    obtain ⟨i, b⟩ := y
    obtain ⟨ha, ht⟩ := (wf_cons i b t).mp h
    unfold erase
    split
    · rename_i hk; subst hk; exact get?_above ha
    · rename_i hk; simp only [get?, hk, if_false]; exact ih ht

end Tab

namespace Mem

theorem mem_set {α : Type} {t : Table α} {k : Nat} {a : α} {x : Nat × α} (h : x ∈ Tab.set t k a) : x = (k, a) ∨ x ∈ t := by
  induction t with
  | nil => simpa [Tab.set] using h
  | cons y t ih =>
    obtain ⟨i, b⟩ := y
    unfold Tab.set at h
    split at h
    · simpa using h
    · split at h
      · rcases List.mem_cons.mp h with h | h <;> simp [h]
      · rcases List.mem_cons.mp h with h | h
        · simp [h]
        · rcases ih h with h | h <;> simp [h]

theorem mem_erase {α : Type} {t : Table α} {k : Nat} {x : Nat × α} (h : x ∈ Tab.erase t k) : x ∈ t := by
  induction t with
  | nil => exact h
  | cons y t ih =>
    obtain ⟨i, b⟩ := y
    unfold Tab.erase at h
    split at h
    · simp [h]
    · rcases List.mem_cons.mp h with h | h
      · simp [h]
      · simp [ih h]

/-- A write keeps the canonical form. -/
theorem wf_write {m : Memory} (h : wf m = true) (a : Nat) (b : Byte) : wf (write m a b) = true := by
  simp only [wf, Bool.and_eq_true] at h ⊢
  obtain ⟨ht, hz⟩ := h
  rw [List.all_eq_true] at hz
  unfold write
  split
  · refine ⟨Tab.wf_erase ht a, ?_⟩
    rw [List.all_eq_true]
    exact fun x hx => hz x (mem_erase hx)
  · rename_i hb
    refine ⟨Tab.wf_set ht a b, ?_⟩
    rw [List.all_eq_true]
    intro x hx
    rcases mem_set hx with rfl | hx
    · simpa using hb
    · exact hz x hx

/-- So does a write of several bytes. -/
theorem wf_writeN {m : Memory} (h : wf m = true) (a : Nat) (l : List Byte) : wf (writeN m a l) = true := by
  induction l generalizing m a with
  | nil => exact h
  | cons b t ih => exact ih (wf_write h a b) (a + 1)

/-- A read after a write of the same address gives the byte written. -/
theorem read_write_self {m : Memory} (h : wf m = true) (a : Nat) (b : Byte) : read (write m a b) a = b := by
  simp only [wf, Bool.and_eq_true] at h
  unfold write
  split
  · rename_i hb
    simp [read, Tab.getD, Tab.get?_erase_self h.1, hb]
  · simp [read]

/-- A write leaves every other address alone. -/
theorem read_write_ne (m : Memory) {a c : Nat} (b : Byte) (h : c ≠ a) : read (write m a b) c = read m c := by
  unfold write read Tab.getD
  split
  · rw [Tab.get?_erase_ne m h]
  · rw [Tab.get?_set_ne m b h]

/-- A write of several bytes leaves every address outside them alone. -/
theorem read_writeN_ne (m : Memory) {a c : Nat} (l : List Byte) (h : c < a ∨ a + l.length ≤ c) : read (writeN m a l) c = read m c := by
  induction l generalizing m a with
  | nil => rfl
  | cons b t ih =>
    simp only [List.length_cons] at h
    rw [writeN, ih (write m a b) (by omega), read_write_ne m b (by omega)]

/-- A read after a write of several bytes gives the byte written at its place. -/
theorem read_writeN {m : Memory} (h : wf m = true) (a i : Nat) (l : List Byte) (hi : i < l.length) :
    read (writeN m a l) (a + i) = l[i] := by
  induction l generalizing m a i with
  | nil => simp at hi
  | cons b t ih =>
    cases i with
    | zero =>
      rw [writeN, read_writeN_ne _ _ (by omega)]
      simpa using read_write_self h a b
    | succ i =>
      have := ih (wf_write h a b) (a + 1) i (by simpa using hi)
      rw [writeN, show a + (i + 1) = a + 1 + i by omega, this]
      rfl

theorem wf_cons (c : Nat × Byte) (m : Memory) : wf (c :: m) = true ↔ (Tab.Above c.1 m ∧ c.2 ≠ 0) ∧ wf m = true := by
  obtain ⟨a, b⟩ := c
  have := Tab.wf_cons a b m
  simp only [wf, Bool.and_eq_true, this, List.all_cons, Bool.not_eq_true', beq_eq_false_iff_ne]
  tauto

/-- Dropping bytes keeps the canonical form. -/
theorem wf_filter {m : Memory} (h : wf m = true) (p : Nat × Byte → Bool) : wf (m.filter p) = true := by
  induction m with
  | nil => exact h
  | cons c m ih =>
    obtain ⟨⟨ha, hz⟩, hm⟩ := (wf_cons c m).mp h
    rw [List.filter_cons]
    split
    · exact (wf_cons c _).mpr ⟨⟨fun x hx => ha x (List.mem_of_mem_filter hx), hz⟩, ih hm⟩
    · exact ih hm

/-- So does joining two memories of which one lies below the other. -/
theorem wf_append {m n : Memory} (hm : wf m = true) (hn : wf n = true) (h : ∀ x ∈ m, ∀ y ∈ n, x.1 < y.1) : wf (m ++ n) = true := by
  induction m with
  | nil => exact hn
  | cons c m ih =>
    obtain ⟨⟨ha, hz⟩, hm⟩ := (wf_cons c m).mp hm
    refine (wf_cons c _).mpr ⟨⟨fun x hx => ?_, hz⟩, ih hm fun x hx => h x (List.mem_cons_of_mem _ hx)⟩
    rcases List.mem_append.mp hx with hx | hx
    · exact ha x hx
    · exact h c (by simp) x hx

/-- The bytes that are not zero, from an address on. -/
theorem wf_numbered (a k : Nat) (b : List Byte) :
    wf (((b.zipIdx k).filter fun x => !(x.1 == 0)).map fun (v, i) => (a + i, v)) = true := by
  induction b generalizing k with
  | nil => rfl
  | cons v b ih =>
    rw [List.zipIdx_cons, List.filter_cons]
    split
    · rename_i hv
      refine (wf_cons _ _).mpr ⟨⟨fun x hx => ?_, by simpa using hv⟩, ih (k + 1)⟩
      obtain ⟨⟨w, i⟩, hy, rfl⟩ := List.mem_map.mp hx
      have := List.le_snd_of_mem_zipIdx (List.mem_of_mem_filter hy)
      dsimp only at this ⊢
      omega
    · exact ih (k + 1)

/-- Laying a run of bytes over a memory keeps the canonical form. -/
theorem wf_fill {m : Memory} (h : wf m = true) (a n : Nat) (b : List Byte) : wf (fill m a n b) = true := by
  have hmid : ∀ x ∈ ((b.take n).zipIdx.filter fun x => !(x.1 == 0)).map fun (v, i) => (a + i, v), a ≤ x.1 ∧ x.1 < a + n := by
    intro x hx
    obtain ⟨⟨v, i⟩, hy, rfl⟩ := List.mem_map.mp hx
    have := List.snd_lt_of_mem_zipIdx (List.mem_of_mem_filter hy)
    have := List.length_take_le n b
    dsimp only at *
    omega
  refine wf_append (wf_append (wf_filter h _) (wf_numbered a 0 _) ?_) (wf_filter h _) ?_
  · intro x hx y hy
    have := (List.mem_filter.mp hx).2
    have := (hmid y hy).1
    simp only [decide_eq_true_eq] at *
    omega
  · intro x hx y hy
    have h2 := (List.mem_filter.mp hy).2
    rw [decide_eq_true_eq] at h2
    rcases List.mem_append.mp hx with hx | hx
    · have := (List.mem_filter.mp hx).2
      rw [decide_eq_true_eq] at this
      omega
    · have := (hmid x hx).2
      omega

end Mem

/-- The masked bytes of a queued write keep the canonical form. -/
theorem wf_applyWrite {m : Memory} (h : Mem.wf m = true) (fs : List Fill) (c : Nat) (w : QWrite) : Mem.wf (applyWrite fs m c w) = true := by
  unfold applyWrite
  generalize List.range 32 = l
  induction l generalizing m with
  | nil => exact h
  | cons i t ih =>
    refine ih ?_
    dsimp only
    split
    · exact Mem.wf_write h _ _
    · exact h

/-- Draining a write queue keeps the canonical form of the cells. -/
theorem wf_drainQueue {s : State} (h : Mem.wf s.hbm.cells = true) (c pc n : Nat) : Mem.wf (drainQueue s c pc n).hbm.cells = true := by
  have hs : ∀ (l : List QWrite) (m : Memory), Mem.wf m = true → Mem.wf (l.foldl (fun m w => applyWrite (s.chan c).fills m c w) m) = true := by
    intro l
    induction l with
    | nil => exact fun m h => h
    | cons w t ih => exact fun m h => ih _ (wf_applyWrite h _ c w)
  exact hs _ _ h

end Sys2Proof.Machine
end

