-- ==== Sys2Proof/Laws/State.lean ====
section
/-! SUPPORT. Each named change of the state, field by field: the field it changes, and the fields it leaves. -/

namespace Sys2Proof.Machine

open Sys2Proof

variable (s : State)

@[simp] theorem State.modPower_time (f : Power → Power) : (s.modPower f).time = s.time := rfl
@[simp] theorem State.modPower_power (f : Power → Power) : (s.modPower f).power = f s.power := rfl
@[simp] theorem State.modPower_islands (f : Power → Power) : (s.modPower f).islands = s.islands := rfl
@[simp] theorem State.modPower_crossings (f : Power → Power) : (s.modPower f).crossings = s.crossings := rfl
@[simp] theorem State.modPower_sensors (f : Power → Power) : (s.modPower f).sensors = s.sensors := rfl
@[simp] theorem State.modPower_port0 (f : Power → Power) : (s.modPower f).port0 = s.port0 := rfl
@[simp] theorem State.modPower_port1 (f : Power → Power) : (s.modPower f).port1 = s.port1 := rfl
@[simp] theorem State.modPower_cmds (f : Power → Power) : (s.modPower f).cmds = s.cmds := rfl
@[simp] theorem State.modPower_nextCmd (f : Power → Power) : (s.modPower f).nextCmd = s.nextCmd := rfl
@[simp] theorem State.modPower_bucket (f : Power → Power) : (s.modPower f).bucket = s.bucket := rfl
@[simp] theorem State.modPower_colls (f : Power → Power) : (s.modPower f).colls = s.colls := rfl
@[simp] theorem State.modPower_gens (f : Power → Power) : (s.modPower f).gens = s.gens := rfl
@[simp] theorem State.modPower_arrivals (f : Power → Power) : (s.modPower f).arrivals = s.arrivals := rfl
@[simp] theorem State.modPower_coarseLevels (f : Power → Power) : (s.modPower f).coarseLevels = s.coarseLevels := rfl
@[simp] theorem State.modPower_batches (f : Power → Power) : (s.modPower f).batches = s.batches := rfl
@[simp] theorem State.modPower_nextBatch (f : Power → Power) : (s.modPower f).nextBatch = s.nextBatch := rfl
@[simp] theorem State.modPower_cores (f : Power → Power) : (s.modPower f).cores = s.cores := rfl
@[simp] theorem State.modPower_quarters (f : Power → Power) : (s.modPower f).quarters = s.quarters := rfl
@[simp] theorem State.modPower_scheds (f : Power → Power) : (s.modPower f).scheds = s.scheds := rfl
@[simp] theorem State.modPower_runs (f : Power → Power) : (s.modPower f).runs = s.runs := rfl
@[simp] theorem State.modPower_nextRun (f : Power → Power) : (s.modPower f).nextRun = s.nextRun := rfl
@[simp] theorem State.modPower_streams (f : Power → Power) : (s.modPower f).streams = s.streams := rfl
@[simp] theorem State.modPower_engines (f : Power → Power) : (s.modPower f).engines = s.engines := rfl
@[simp] theorem State.modPower_pieces (f : Power → Power) : (s.modPower f).pieces = s.pieces := rfl
@[simp] theorem State.modPower_nextPiece (f : Power → Power) : (s.modPower f).nextPiece = s.nextPiece := rfl
@[simp] theorem State.modPower_events (f : Power → Power) : (s.modPower f).events = s.events := rfl
@[simp] theorem State.modPower_alleys (f : Power → Power) : (s.modPower f).alleys = s.alleys := rfl
@[simp] theorem State.modPower_localStore (f : Power → Power) : (s.modPower f).localStore = s.localStore := rfl
@[simp] theorem State.modPower_cache (f : Power → Power) : (s.modPower f).cache = s.cache := rfl
@[simp] theorem State.modPower_hbm (f : Power → Power) : (s.modPower f).hbm = s.hbm := rfl
@[simp] theorem State.modPower_protect (f : Power → Power) : (s.modPower f).protect = s.protect := rfl
@[simp] theorem State.modPower_tiers (f : Power → Power) : (s.modPower f).tiers = s.tiers := rfl
@[simp] theorem State.modPower_flash (f : Power → Power) : (s.modPower f).flash = s.flash := rfl
@[simp] theorem State.modPower_net (f : Power → Power) : (s.modPower f).net = s.net := rfl
@[simp] theorem State.modPower_security (f : Power → Power) : (s.modPower f).security = s.security := rfl
@[simp] theorem State.modPower_sideband (f : Power → Power) : (s.modPower f).sideband = s.sideband := rfl
@[simp] theorem State.modPower_logs (f : Power → Power) : (s.modPower f).logs = s.logs := rfl
@[simp] theorem State.modPower_features (f : Power → Power) : (s.modPower f).features = s.features := rfl
@[simp] theorem State.modPower_free (f : Power → Power) : (s.modPower f).free = s.free := rfl

@[simp] theorem State.modLogs_time (f : Logs → Logs) : (s.modLogs f).time = s.time := rfl
@[simp] theorem State.modLogs_power (f : Logs → Logs) : (s.modLogs f).power = s.power := rfl
@[simp] theorem State.modLogs_islands (f : Logs → Logs) : (s.modLogs f).islands = s.islands := rfl
@[simp] theorem State.modLogs_crossings (f : Logs → Logs) : (s.modLogs f).crossings = s.crossings := rfl
@[simp] theorem State.modLogs_sensors (f : Logs → Logs) : (s.modLogs f).sensors = s.sensors := rfl
@[simp] theorem State.modLogs_port0 (f : Logs → Logs) : (s.modLogs f).port0 = s.port0 := rfl
@[simp] theorem State.modLogs_port1 (f : Logs → Logs) : (s.modLogs f).port1 = s.port1 := rfl
@[simp] theorem State.modLogs_cmds (f : Logs → Logs) : (s.modLogs f).cmds = s.cmds := rfl
@[simp] theorem State.modLogs_nextCmd (f : Logs → Logs) : (s.modLogs f).nextCmd = s.nextCmd := rfl
@[simp] theorem State.modLogs_bucket (f : Logs → Logs) : (s.modLogs f).bucket = s.bucket := rfl
@[simp] theorem State.modLogs_colls (f : Logs → Logs) : (s.modLogs f).colls = s.colls := rfl
@[simp] theorem State.modLogs_gens (f : Logs → Logs) : (s.modLogs f).gens = s.gens := rfl
@[simp] theorem State.modLogs_arrivals (f : Logs → Logs) : (s.modLogs f).arrivals = s.arrivals := rfl
@[simp] theorem State.modLogs_coarseLevels (f : Logs → Logs) : (s.modLogs f).coarseLevels = s.coarseLevels := rfl
@[simp] theorem State.modLogs_batches (f : Logs → Logs) : (s.modLogs f).batches = s.batches := rfl
@[simp] theorem State.modLogs_nextBatch (f : Logs → Logs) : (s.modLogs f).nextBatch = s.nextBatch := rfl
@[simp] theorem State.modLogs_cores (f : Logs → Logs) : (s.modLogs f).cores = s.cores := rfl
@[simp] theorem State.modLogs_quarters (f : Logs → Logs) : (s.modLogs f).quarters = s.quarters := rfl
@[simp] theorem State.modLogs_scheds (f : Logs → Logs) : (s.modLogs f).scheds = s.scheds := rfl
@[simp] theorem State.modLogs_runs (f : Logs → Logs) : (s.modLogs f).runs = s.runs := rfl
@[simp] theorem State.modLogs_nextRun (f : Logs → Logs) : (s.modLogs f).nextRun = s.nextRun := rfl
@[simp] theorem State.modLogs_streams (f : Logs → Logs) : (s.modLogs f).streams = s.streams := rfl
@[simp] theorem State.modLogs_engines (f : Logs → Logs) : (s.modLogs f).engines = s.engines := rfl
@[simp] theorem State.modLogs_pieces (f : Logs → Logs) : (s.modLogs f).pieces = s.pieces := rfl
@[simp] theorem State.modLogs_nextPiece (f : Logs → Logs) : (s.modLogs f).nextPiece = s.nextPiece := rfl
@[simp] theorem State.modLogs_events (f : Logs → Logs) : (s.modLogs f).events = s.events := rfl
@[simp] theorem State.modLogs_alleys (f : Logs → Logs) : (s.modLogs f).alleys = s.alleys := rfl
@[simp] theorem State.modLogs_localStore (f : Logs → Logs) : (s.modLogs f).localStore = s.localStore := rfl
@[simp] theorem State.modLogs_cache (f : Logs → Logs) : (s.modLogs f).cache = s.cache := rfl
@[simp] theorem State.modLogs_hbm (f : Logs → Logs) : (s.modLogs f).hbm = s.hbm := rfl
@[simp] theorem State.modLogs_protect (f : Logs → Logs) : (s.modLogs f).protect = s.protect := rfl
@[simp] theorem State.modLogs_tiers (f : Logs → Logs) : (s.modLogs f).tiers = s.tiers := rfl
@[simp] theorem State.modLogs_flash (f : Logs → Logs) : (s.modLogs f).flash = s.flash := rfl
@[simp] theorem State.modLogs_net (f : Logs → Logs) : (s.modLogs f).net = s.net := rfl
@[simp] theorem State.modLogs_security (f : Logs → Logs) : (s.modLogs f).security = s.security := rfl
@[simp] theorem State.modLogs_sideband (f : Logs → Logs) : (s.modLogs f).sideband = s.sideband := rfl
@[simp] theorem State.modLogs_logs (f : Logs → Logs) : (s.modLogs f).logs = f s.logs := rfl
@[simp] theorem State.modLogs_features (f : Logs → Logs) : (s.modLogs f).features = s.features := rfl
@[simp] theorem State.modLogs_free (f : Logs → Logs) : (s.modLogs f).free = s.free := rfl

@[simp] theorem State.modSec_time (f : Security → Security) : (s.modSec f).time = s.time := rfl
@[simp] theorem State.modSec_power (f : Security → Security) : (s.modSec f).power = s.power := rfl
@[simp] theorem State.modSec_islands (f : Security → Security) : (s.modSec f).islands = s.islands := rfl
@[simp] theorem State.modSec_crossings (f : Security → Security) : (s.modSec f).crossings = s.crossings := rfl
@[simp] theorem State.modSec_sensors (f : Security → Security) : (s.modSec f).sensors = s.sensors := rfl
@[simp] theorem State.modSec_port0 (f : Security → Security) : (s.modSec f).port0 = s.port0 := rfl
@[simp] theorem State.modSec_port1 (f : Security → Security) : (s.modSec f).port1 = s.port1 := rfl
@[simp] theorem State.modSec_cmds (f : Security → Security) : (s.modSec f).cmds = s.cmds := rfl
@[simp] theorem State.modSec_nextCmd (f : Security → Security) : (s.modSec f).nextCmd = s.nextCmd := rfl
@[simp] theorem State.modSec_bucket (f : Security → Security) : (s.modSec f).bucket = s.bucket := rfl
@[simp] theorem State.modSec_colls (f : Security → Security) : (s.modSec f).colls = s.colls := rfl
@[simp] theorem State.modSec_gens (f : Security → Security) : (s.modSec f).gens = s.gens := rfl
@[simp] theorem State.modSec_arrivals (f : Security → Security) : (s.modSec f).arrivals = s.arrivals := rfl
@[simp] theorem State.modSec_coarseLevels (f : Security → Security) : (s.modSec f).coarseLevels = s.coarseLevels := rfl
@[simp] theorem State.modSec_batches (f : Security → Security) : (s.modSec f).batches = s.batches := rfl
@[simp] theorem State.modSec_nextBatch (f : Security → Security) : (s.modSec f).nextBatch = s.nextBatch := rfl
@[simp] theorem State.modSec_cores (f : Security → Security) : (s.modSec f).cores = s.cores := rfl
@[simp] theorem State.modSec_quarters (f : Security → Security) : (s.modSec f).quarters = s.quarters := rfl
@[simp] theorem State.modSec_scheds (f : Security → Security) : (s.modSec f).scheds = s.scheds := rfl
@[simp] theorem State.modSec_runs (f : Security → Security) : (s.modSec f).runs = s.runs := rfl
@[simp] theorem State.modSec_nextRun (f : Security → Security) : (s.modSec f).nextRun = s.nextRun := rfl
@[simp] theorem State.modSec_streams (f : Security → Security) : (s.modSec f).streams = s.streams := rfl
@[simp] theorem State.modSec_engines (f : Security → Security) : (s.modSec f).engines = s.engines := rfl
@[simp] theorem State.modSec_pieces (f : Security → Security) : (s.modSec f).pieces = s.pieces := rfl
@[simp] theorem State.modSec_nextPiece (f : Security → Security) : (s.modSec f).nextPiece = s.nextPiece := rfl
@[simp] theorem State.modSec_events (f : Security → Security) : (s.modSec f).events = s.events := rfl
@[simp] theorem State.modSec_alleys (f : Security → Security) : (s.modSec f).alleys = s.alleys := rfl
@[simp] theorem State.modSec_localStore (f : Security → Security) : (s.modSec f).localStore = s.localStore := rfl
@[simp] theorem State.modSec_cache (f : Security → Security) : (s.modSec f).cache = s.cache := rfl
@[simp] theorem State.modSec_hbm (f : Security → Security) : (s.modSec f).hbm = s.hbm := rfl
@[simp] theorem State.modSec_protect (f : Security → Security) : (s.modSec f).protect = s.protect := rfl
@[simp] theorem State.modSec_tiers (f : Security → Security) : (s.modSec f).tiers = s.tiers := rfl
@[simp] theorem State.modSec_flash (f : Security → Security) : (s.modSec f).flash = s.flash := rfl
@[simp] theorem State.modSec_net (f : Security → Security) : (s.modSec f).net = s.net := rfl
@[simp] theorem State.modSec_security (f : Security → Security) : (s.modSec f).security = f s.security := rfl
@[simp] theorem State.modSec_sideband (f : Security → Security) : (s.modSec f).sideband = s.sideband := rfl
@[simp] theorem State.modSec_logs (f : Security → Security) : (s.modSec f).logs = s.logs := rfl
@[simp] theorem State.modSec_features (f : Security → Security) : (s.modSec f).features = s.features := rfl
@[simp] theorem State.modSec_free (f : Security → Security) : (s.modSec f).free = s.free := rfl

@[simp] theorem State.modSb_time (f : Sideband → Sideband) : (s.modSb f).time = s.time := rfl
@[simp] theorem State.modSb_power (f : Sideband → Sideband) : (s.modSb f).power = s.power := rfl
@[simp] theorem State.modSb_islands (f : Sideband → Sideband) : (s.modSb f).islands = s.islands := rfl
@[simp] theorem State.modSb_crossings (f : Sideband → Sideband) : (s.modSb f).crossings = s.crossings := rfl
@[simp] theorem State.modSb_sensors (f : Sideband → Sideband) : (s.modSb f).sensors = s.sensors := rfl
@[simp] theorem State.modSb_port0 (f : Sideband → Sideband) : (s.modSb f).port0 = s.port0 := rfl
@[simp] theorem State.modSb_port1 (f : Sideband → Sideband) : (s.modSb f).port1 = s.port1 := rfl
@[simp] theorem State.modSb_cmds (f : Sideband → Sideband) : (s.modSb f).cmds = s.cmds := rfl
@[simp] theorem State.modSb_nextCmd (f : Sideband → Sideband) : (s.modSb f).nextCmd = s.nextCmd := rfl
@[simp] theorem State.modSb_bucket (f : Sideband → Sideband) : (s.modSb f).bucket = s.bucket := rfl
@[simp] theorem State.modSb_colls (f : Sideband → Sideband) : (s.modSb f).colls = s.colls := rfl
@[simp] theorem State.modSb_gens (f : Sideband → Sideband) : (s.modSb f).gens = s.gens := rfl
@[simp] theorem State.modSb_arrivals (f : Sideband → Sideband) : (s.modSb f).arrivals = s.arrivals := rfl
@[simp] theorem State.modSb_coarseLevels (f : Sideband → Sideband) : (s.modSb f).coarseLevels = s.coarseLevels := rfl
@[simp] theorem State.modSb_batches (f : Sideband → Sideband) : (s.modSb f).batches = s.batches := rfl
@[simp] theorem State.modSb_nextBatch (f : Sideband → Sideband) : (s.modSb f).nextBatch = s.nextBatch := rfl
@[simp] theorem State.modSb_cores (f : Sideband → Sideband) : (s.modSb f).cores = s.cores := rfl
@[simp] theorem State.modSb_quarters (f : Sideband → Sideband) : (s.modSb f).quarters = s.quarters := rfl
@[simp] theorem State.modSb_scheds (f : Sideband → Sideband) : (s.modSb f).scheds = s.scheds := rfl
@[simp] theorem State.modSb_runs (f : Sideband → Sideband) : (s.modSb f).runs = s.runs := rfl
@[simp] theorem State.modSb_nextRun (f : Sideband → Sideband) : (s.modSb f).nextRun = s.nextRun := rfl
@[simp] theorem State.modSb_streams (f : Sideband → Sideband) : (s.modSb f).streams = s.streams := rfl
@[simp] theorem State.modSb_engines (f : Sideband → Sideband) : (s.modSb f).engines = s.engines := rfl
@[simp] theorem State.modSb_pieces (f : Sideband → Sideband) : (s.modSb f).pieces = s.pieces := rfl
@[simp] theorem State.modSb_nextPiece (f : Sideband → Sideband) : (s.modSb f).nextPiece = s.nextPiece := rfl
@[simp] theorem State.modSb_events (f : Sideband → Sideband) : (s.modSb f).events = s.events := rfl
@[simp] theorem State.modSb_alleys (f : Sideband → Sideband) : (s.modSb f).alleys = s.alleys := rfl
@[simp] theorem State.modSb_localStore (f : Sideband → Sideband) : (s.modSb f).localStore = s.localStore := rfl
@[simp] theorem State.modSb_cache (f : Sideband → Sideband) : (s.modSb f).cache = s.cache := rfl
@[simp] theorem State.modSb_hbm (f : Sideband → Sideband) : (s.modSb f).hbm = s.hbm := rfl
@[simp] theorem State.modSb_protect (f : Sideband → Sideband) : (s.modSb f).protect = s.protect := rfl
@[simp] theorem State.modSb_tiers (f : Sideband → Sideband) : (s.modSb f).tiers = s.tiers := rfl
@[simp] theorem State.modSb_flash (f : Sideband → Sideband) : (s.modSb f).flash = s.flash := rfl
@[simp] theorem State.modSb_net (f : Sideband → Sideband) : (s.modSb f).net = s.net := rfl
@[simp] theorem State.modSb_security (f : Sideband → Sideband) : (s.modSb f).security = s.security := rfl
@[simp] theorem State.modSb_sideband (f : Sideband → Sideband) : (s.modSb f).sideband = f s.sideband := rfl
@[simp] theorem State.modSb_logs (f : Sideband → Sideband) : (s.modSb f).logs = s.logs := rfl
@[simp] theorem State.modSb_features (f : Sideband → Sideband) : (s.modSb f).features = s.features := rfl
@[simp] theorem State.modSb_free (f : Sideband → Sideband) : (s.modSb f).free = s.free := rfl

@[simp] theorem State.modNet_time (f : Net → Net) : (s.modNet f).time = s.time := rfl
@[simp] theorem State.modNet_power (f : Net → Net) : (s.modNet f).power = s.power := rfl
@[simp] theorem State.modNet_islands (f : Net → Net) : (s.modNet f).islands = s.islands := rfl
@[simp] theorem State.modNet_crossings (f : Net → Net) : (s.modNet f).crossings = s.crossings := rfl
@[simp] theorem State.modNet_sensors (f : Net → Net) : (s.modNet f).sensors = s.sensors := rfl
@[simp] theorem State.modNet_port0 (f : Net → Net) : (s.modNet f).port0 = s.port0 := rfl
@[simp] theorem State.modNet_port1 (f : Net → Net) : (s.modNet f).port1 = s.port1 := rfl
@[simp] theorem State.modNet_cmds (f : Net → Net) : (s.modNet f).cmds = s.cmds := rfl
@[simp] theorem State.modNet_nextCmd (f : Net → Net) : (s.modNet f).nextCmd = s.nextCmd := rfl
@[simp] theorem State.modNet_bucket (f : Net → Net) : (s.modNet f).bucket = s.bucket := rfl
@[simp] theorem State.modNet_colls (f : Net → Net) : (s.modNet f).colls = s.colls := rfl
@[simp] theorem State.modNet_gens (f : Net → Net) : (s.modNet f).gens = s.gens := rfl
@[simp] theorem State.modNet_arrivals (f : Net → Net) : (s.modNet f).arrivals = s.arrivals := rfl
@[simp] theorem State.modNet_coarseLevels (f : Net → Net) : (s.modNet f).coarseLevels = s.coarseLevels := rfl
@[simp] theorem State.modNet_batches (f : Net → Net) : (s.modNet f).batches = s.batches := rfl
@[simp] theorem State.modNet_nextBatch (f : Net → Net) : (s.modNet f).nextBatch = s.nextBatch := rfl
@[simp] theorem State.modNet_cores (f : Net → Net) : (s.modNet f).cores = s.cores := rfl
@[simp] theorem State.modNet_quarters (f : Net → Net) : (s.modNet f).quarters = s.quarters := rfl
@[simp] theorem State.modNet_scheds (f : Net → Net) : (s.modNet f).scheds = s.scheds := rfl
@[simp] theorem State.modNet_runs (f : Net → Net) : (s.modNet f).runs = s.runs := rfl
@[simp] theorem State.modNet_nextRun (f : Net → Net) : (s.modNet f).nextRun = s.nextRun := rfl
@[simp] theorem State.modNet_streams (f : Net → Net) : (s.modNet f).streams = s.streams := rfl
@[simp] theorem State.modNet_engines (f : Net → Net) : (s.modNet f).engines = s.engines := rfl
@[simp] theorem State.modNet_pieces (f : Net → Net) : (s.modNet f).pieces = s.pieces := rfl
@[simp] theorem State.modNet_nextPiece (f : Net → Net) : (s.modNet f).nextPiece = s.nextPiece := rfl
@[simp] theorem State.modNet_events (f : Net → Net) : (s.modNet f).events = s.events := rfl
@[simp] theorem State.modNet_alleys (f : Net → Net) : (s.modNet f).alleys = s.alleys := rfl
@[simp] theorem State.modNet_localStore (f : Net → Net) : (s.modNet f).localStore = s.localStore := rfl
@[simp] theorem State.modNet_cache (f : Net → Net) : (s.modNet f).cache = s.cache := rfl
@[simp] theorem State.modNet_hbm (f : Net → Net) : (s.modNet f).hbm = s.hbm := rfl
@[simp] theorem State.modNet_protect (f : Net → Net) : (s.modNet f).protect = s.protect := rfl
@[simp] theorem State.modNet_tiers (f : Net → Net) : (s.modNet f).tiers = s.tiers := rfl
@[simp] theorem State.modNet_flash (f : Net → Net) : (s.modNet f).flash = s.flash := rfl
@[simp] theorem State.modNet_net (f : Net → Net) : (s.modNet f).net = f s.net := rfl
@[simp] theorem State.modNet_security (f : Net → Net) : (s.modNet f).security = s.security := rfl
@[simp] theorem State.modNet_sideband (f : Net → Net) : (s.modNet f).sideband = s.sideband := rfl
@[simp] theorem State.modNet_logs (f : Net → Net) : (s.modNet f).logs = s.logs := rfl
@[simp] theorem State.modNet_features (f : Net → Net) : (s.modNet f).features = s.features := rfl
@[simp] theorem State.modNet_free (f : Net → Net) : (s.modNet f).free = s.free := rfl

@[simp] theorem State.modFlash_time (f : Flash → Flash) : (s.modFlash f).time = s.time := rfl
@[simp] theorem State.modFlash_power (f : Flash → Flash) : (s.modFlash f).power = s.power := rfl
@[simp] theorem State.modFlash_islands (f : Flash → Flash) : (s.modFlash f).islands = s.islands := rfl
@[simp] theorem State.modFlash_crossings (f : Flash → Flash) : (s.modFlash f).crossings = s.crossings := rfl
@[simp] theorem State.modFlash_sensors (f : Flash → Flash) : (s.modFlash f).sensors = s.sensors := rfl
@[simp] theorem State.modFlash_port0 (f : Flash → Flash) : (s.modFlash f).port0 = s.port0 := rfl
@[simp] theorem State.modFlash_port1 (f : Flash → Flash) : (s.modFlash f).port1 = s.port1 := rfl
@[simp] theorem State.modFlash_cmds (f : Flash → Flash) : (s.modFlash f).cmds = s.cmds := rfl
@[simp] theorem State.modFlash_nextCmd (f : Flash → Flash) : (s.modFlash f).nextCmd = s.nextCmd := rfl
@[simp] theorem State.modFlash_bucket (f : Flash → Flash) : (s.modFlash f).bucket = s.bucket := rfl
@[simp] theorem State.modFlash_colls (f : Flash → Flash) : (s.modFlash f).colls = s.colls := rfl
@[simp] theorem State.modFlash_gens (f : Flash → Flash) : (s.modFlash f).gens = s.gens := rfl
@[simp] theorem State.modFlash_arrivals (f : Flash → Flash) : (s.modFlash f).arrivals = s.arrivals := rfl
@[simp] theorem State.modFlash_coarseLevels (f : Flash → Flash) : (s.modFlash f).coarseLevels = s.coarseLevels := rfl
@[simp] theorem State.modFlash_batches (f : Flash → Flash) : (s.modFlash f).batches = s.batches := rfl
@[simp] theorem State.modFlash_nextBatch (f : Flash → Flash) : (s.modFlash f).nextBatch = s.nextBatch := rfl
@[simp] theorem State.modFlash_cores (f : Flash → Flash) : (s.modFlash f).cores = s.cores := rfl
@[simp] theorem State.modFlash_quarters (f : Flash → Flash) : (s.modFlash f).quarters = s.quarters := rfl
@[simp] theorem State.modFlash_scheds (f : Flash → Flash) : (s.modFlash f).scheds = s.scheds := rfl
@[simp] theorem State.modFlash_runs (f : Flash → Flash) : (s.modFlash f).runs = s.runs := rfl
@[simp] theorem State.modFlash_nextRun (f : Flash → Flash) : (s.modFlash f).nextRun = s.nextRun := rfl
@[simp] theorem State.modFlash_streams (f : Flash → Flash) : (s.modFlash f).streams = s.streams := rfl
@[simp] theorem State.modFlash_engines (f : Flash → Flash) : (s.modFlash f).engines = s.engines := rfl
@[simp] theorem State.modFlash_pieces (f : Flash → Flash) : (s.modFlash f).pieces = s.pieces := rfl
@[simp] theorem State.modFlash_nextPiece (f : Flash → Flash) : (s.modFlash f).nextPiece = s.nextPiece := rfl
@[simp] theorem State.modFlash_events (f : Flash → Flash) : (s.modFlash f).events = s.events := rfl
@[simp] theorem State.modFlash_alleys (f : Flash → Flash) : (s.modFlash f).alleys = s.alleys := rfl
@[simp] theorem State.modFlash_localStore (f : Flash → Flash) : (s.modFlash f).localStore = s.localStore := rfl
@[simp] theorem State.modFlash_cache (f : Flash → Flash) : (s.modFlash f).cache = s.cache := rfl
@[simp] theorem State.modFlash_hbm (f : Flash → Flash) : (s.modFlash f).hbm = s.hbm := rfl
@[simp] theorem State.modFlash_protect (f : Flash → Flash) : (s.modFlash f).protect = s.protect := rfl
@[simp] theorem State.modFlash_tiers (f : Flash → Flash) : (s.modFlash f).tiers = s.tiers := rfl
@[simp] theorem State.modFlash_flash (f : Flash → Flash) : (s.modFlash f).flash = f s.flash := rfl
@[simp] theorem State.modFlash_net (f : Flash → Flash) : (s.modFlash f).net = s.net := rfl
@[simp] theorem State.modFlash_security (f : Flash → Flash) : (s.modFlash f).security = s.security := rfl
@[simp] theorem State.modFlash_sideband (f : Flash → Flash) : (s.modFlash f).sideband = s.sideband := rfl
@[simp] theorem State.modFlash_logs (f : Flash → Flash) : (s.modFlash f).logs = s.logs := rfl
@[simp] theorem State.modFlash_features (f : Flash → Flash) : (s.modFlash f).features = s.features := rfl
@[simp] theorem State.modFlash_free (f : Flash → Flash) : (s.modFlash f).free = s.free := rfl

@[simp] theorem State.modTiers_time (f : Tiers → Tiers) : (s.modTiers f).time = s.time := rfl
@[simp] theorem State.modTiers_power (f : Tiers → Tiers) : (s.modTiers f).power = s.power := rfl
@[simp] theorem State.modTiers_islands (f : Tiers → Tiers) : (s.modTiers f).islands = s.islands := rfl
@[simp] theorem State.modTiers_crossings (f : Tiers → Tiers) : (s.modTiers f).crossings = s.crossings := rfl
@[simp] theorem State.modTiers_sensors (f : Tiers → Tiers) : (s.modTiers f).sensors = s.sensors := rfl
@[simp] theorem State.modTiers_port0 (f : Tiers → Tiers) : (s.modTiers f).port0 = s.port0 := rfl
@[simp] theorem State.modTiers_port1 (f : Tiers → Tiers) : (s.modTiers f).port1 = s.port1 := rfl
@[simp] theorem State.modTiers_cmds (f : Tiers → Tiers) : (s.modTiers f).cmds = s.cmds := rfl
@[simp] theorem State.modTiers_nextCmd (f : Tiers → Tiers) : (s.modTiers f).nextCmd = s.nextCmd := rfl
@[simp] theorem State.modTiers_bucket (f : Tiers → Tiers) : (s.modTiers f).bucket = s.bucket := rfl
@[simp] theorem State.modTiers_colls (f : Tiers → Tiers) : (s.modTiers f).colls = s.colls := rfl
@[simp] theorem State.modTiers_gens (f : Tiers → Tiers) : (s.modTiers f).gens = s.gens := rfl
@[simp] theorem State.modTiers_arrivals (f : Tiers → Tiers) : (s.modTiers f).arrivals = s.arrivals := rfl
@[simp] theorem State.modTiers_coarseLevels (f : Tiers → Tiers) : (s.modTiers f).coarseLevels = s.coarseLevels := rfl
@[simp] theorem State.modTiers_batches (f : Tiers → Tiers) : (s.modTiers f).batches = s.batches := rfl
@[simp] theorem State.modTiers_nextBatch (f : Tiers → Tiers) : (s.modTiers f).nextBatch = s.nextBatch := rfl
@[simp] theorem State.modTiers_cores (f : Tiers → Tiers) : (s.modTiers f).cores = s.cores := rfl
@[simp] theorem State.modTiers_quarters (f : Tiers → Tiers) : (s.modTiers f).quarters = s.quarters := rfl
@[simp] theorem State.modTiers_scheds (f : Tiers → Tiers) : (s.modTiers f).scheds = s.scheds := rfl
@[simp] theorem State.modTiers_runs (f : Tiers → Tiers) : (s.modTiers f).runs = s.runs := rfl
@[simp] theorem State.modTiers_nextRun (f : Tiers → Tiers) : (s.modTiers f).nextRun = s.nextRun := rfl
@[simp] theorem State.modTiers_streams (f : Tiers → Tiers) : (s.modTiers f).streams = s.streams := rfl
@[simp] theorem State.modTiers_engines (f : Tiers → Tiers) : (s.modTiers f).engines = s.engines := rfl
@[simp] theorem State.modTiers_pieces (f : Tiers → Tiers) : (s.modTiers f).pieces = s.pieces := rfl
@[simp] theorem State.modTiers_nextPiece (f : Tiers → Tiers) : (s.modTiers f).nextPiece = s.nextPiece := rfl
@[simp] theorem State.modTiers_events (f : Tiers → Tiers) : (s.modTiers f).events = s.events := rfl
@[simp] theorem State.modTiers_alleys (f : Tiers → Tiers) : (s.modTiers f).alleys = s.alleys := rfl
@[simp] theorem State.modTiers_localStore (f : Tiers → Tiers) : (s.modTiers f).localStore = s.localStore := rfl
@[simp] theorem State.modTiers_cache (f : Tiers → Tiers) : (s.modTiers f).cache = s.cache := rfl
@[simp] theorem State.modTiers_hbm (f : Tiers → Tiers) : (s.modTiers f).hbm = s.hbm := rfl
@[simp] theorem State.modTiers_protect (f : Tiers → Tiers) : (s.modTiers f).protect = s.protect := rfl
@[simp] theorem State.modTiers_tiers (f : Tiers → Tiers) : (s.modTiers f).tiers = f s.tiers := rfl
@[simp] theorem State.modTiers_flash (f : Tiers → Tiers) : (s.modTiers f).flash = s.flash := rfl
@[simp] theorem State.modTiers_net (f : Tiers → Tiers) : (s.modTiers f).net = s.net := rfl
@[simp] theorem State.modTiers_security (f : Tiers → Tiers) : (s.modTiers f).security = s.security := rfl
@[simp] theorem State.modTiers_sideband (f : Tiers → Tiers) : (s.modTiers f).sideband = s.sideband := rfl
@[simp] theorem State.modTiers_logs (f : Tiers → Tiers) : (s.modTiers f).logs = s.logs := rfl
@[simp] theorem State.modTiers_features (f : Tiers → Tiers) : (s.modTiers f).features = s.features := rfl
@[simp] theorem State.modTiers_free (f : Tiers → Tiers) : (s.modTiers f).free = s.free := rfl

@[simp] theorem State.modProtect_time (f : Protect → Protect) : (s.modProtect f).time = s.time := rfl
@[simp] theorem State.modProtect_power (f : Protect → Protect) : (s.modProtect f).power = s.power := rfl
@[simp] theorem State.modProtect_islands (f : Protect → Protect) : (s.modProtect f).islands = s.islands := rfl
@[simp] theorem State.modProtect_crossings (f : Protect → Protect) : (s.modProtect f).crossings = s.crossings := rfl
@[simp] theorem State.modProtect_sensors (f : Protect → Protect) : (s.modProtect f).sensors = s.sensors := rfl
@[simp] theorem State.modProtect_port0 (f : Protect → Protect) : (s.modProtect f).port0 = s.port0 := rfl
@[simp] theorem State.modProtect_port1 (f : Protect → Protect) : (s.modProtect f).port1 = s.port1 := rfl
@[simp] theorem State.modProtect_cmds (f : Protect → Protect) : (s.modProtect f).cmds = s.cmds := rfl
@[simp] theorem State.modProtect_nextCmd (f : Protect → Protect) : (s.modProtect f).nextCmd = s.nextCmd := rfl
@[simp] theorem State.modProtect_bucket (f : Protect → Protect) : (s.modProtect f).bucket = s.bucket := rfl
@[simp] theorem State.modProtect_colls (f : Protect → Protect) : (s.modProtect f).colls = s.colls := rfl
@[simp] theorem State.modProtect_gens (f : Protect → Protect) : (s.modProtect f).gens = s.gens := rfl
@[simp] theorem State.modProtect_arrivals (f : Protect → Protect) : (s.modProtect f).arrivals = s.arrivals := rfl
@[simp] theorem State.modProtect_coarseLevels (f : Protect → Protect) : (s.modProtect f).coarseLevels = s.coarseLevels := rfl
@[simp] theorem State.modProtect_batches (f : Protect → Protect) : (s.modProtect f).batches = s.batches := rfl
@[simp] theorem State.modProtect_nextBatch (f : Protect → Protect) : (s.modProtect f).nextBatch = s.nextBatch := rfl
@[simp] theorem State.modProtect_cores (f : Protect → Protect) : (s.modProtect f).cores = s.cores := rfl
@[simp] theorem State.modProtect_quarters (f : Protect → Protect) : (s.modProtect f).quarters = s.quarters := rfl
@[simp] theorem State.modProtect_scheds (f : Protect → Protect) : (s.modProtect f).scheds = s.scheds := rfl
@[simp] theorem State.modProtect_runs (f : Protect → Protect) : (s.modProtect f).runs = s.runs := rfl
@[simp] theorem State.modProtect_nextRun (f : Protect → Protect) : (s.modProtect f).nextRun = s.nextRun := rfl
@[simp] theorem State.modProtect_streams (f : Protect → Protect) : (s.modProtect f).streams = s.streams := rfl
@[simp] theorem State.modProtect_engines (f : Protect → Protect) : (s.modProtect f).engines = s.engines := rfl
@[simp] theorem State.modProtect_pieces (f : Protect → Protect) : (s.modProtect f).pieces = s.pieces := rfl
@[simp] theorem State.modProtect_nextPiece (f : Protect → Protect) : (s.modProtect f).nextPiece = s.nextPiece := rfl
@[simp] theorem State.modProtect_events (f : Protect → Protect) : (s.modProtect f).events = s.events := rfl
@[simp] theorem State.modProtect_alleys (f : Protect → Protect) : (s.modProtect f).alleys = s.alleys := rfl
@[simp] theorem State.modProtect_localStore (f : Protect → Protect) : (s.modProtect f).localStore = s.localStore := rfl
@[simp] theorem State.modProtect_cache (f : Protect → Protect) : (s.modProtect f).cache = s.cache := rfl
@[simp] theorem State.modProtect_hbm (f : Protect → Protect) : (s.modProtect f).hbm = s.hbm := rfl
@[simp] theorem State.modProtect_protect (f : Protect → Protect) : (s.modProtect f).protect = f s.protect := rfl
@[simp] theorem State.modProtect_tiers (f : Protect → Protect) : (s.modProtect f).tiers = s.tiers := rfl
@[simp] theorem State.modProtect_flash (f : Protect → Protect) : (s.modProtect f).flash = s.flash := rfl
@[simp] theorem State.modProtect_net (f : Protect → Protect) : (s.modProtect f).net = s.net := rfl
@[simp] theorem State.modProtect_security (f : Protect → Protect) : (s.modProtect f).security = s.security := rfl
@[simp] theorem State.modProtect_sideband (f : Protect → Protect) : (s.modProtect f).sideband = s.sideband := rfl
@[simp] theorem State.modProtect_logs (f : Protect → Protect) : (s.modProtect f).logs = s.logs := rfl
@[simp] theorem State.modProtect_features (f : Protect → Protect) : (s.modProtect f).features = s.features := rfl
@[simp] theorem State.modProtect_free (f : Protect → Protect) : (s.modProtect f).free = s.free := rfl

@[simp] theorem State.modHbm_time (f : Hbm → Hbm) : (s.modHbm f).time = s.time := rfl
@[simp] theorem State.modHbm_power (f : Hbm → Hbm) : (s.modHbm f).power = s.power := rfl
@[simp] theorem State.modHbm_islands (f : Hbm → Hbm) : (s.modHbm f).islands = s.islands := rfl
@[simp] theorem State.modHbm_crossings (f : Hbm → Hbm) : (s.modHbm f).crossings = s.crossings := rfl
@[simp] theorem State.modHbm_sensors (f : Hbm → Hbm) : (s.modHbm f).sensors = s.sensors := rfl
@[simp] theorem State.modHbm_port0 (f : Hbm → Hbm) : (s.modHbm f).port0 = s.port0 := rfl
@[simp] theorem State.modHbm_port1 (f : Hbm → Hbm) : (s.modHbm f).port1 = s.port1 := rfl
@[simp] theorem State.modHbm_cmds (f : Hbm → Hbm) : (s.modHbm f).cmds = s.cmds := rfl
@[simp] theorem State.modHbm_nextCmd (f : Hbm → Hbm) : (s.modHbm f).nextCmd = s.nextCmd := rfl
@[simp] theorem State.modHbm_bucket (f : Hbm → Hbm) : (s.modHbm f).bucket = s.bucket := rfl
@[simp] theorem State.modHbm_colls (f : Hbm → Hbm) : (s.modHbm f).colls = s.colls := rfl
@[simp] theorem State.modHbm_gens (f : Hbm → Hbm) : (s.modHbm f).gens = s.gens := rfl
@[simp] theorem State.modHbm_arrivals (f : Hbm → Hbm) : (s.modHbm f).arrivals = s.arrivals := rfl
@[simp] theorem State.modHbm_coarseLevels (f : Hbm → Hbm) : (s.modHbm f).coarseLevels = s.coarseLevels := rfl
@[simp] theorem State.modHbm_batches (f : Hbm → Hbm) : (s.modHbm f).batches = s.batches := rfl
@[simp] theorem State.modHbm_nextBatch (f : Hbm → Hbm) : (s.modHbm f).nextBatch = s.nextBatch := rfl
@[simp] theorem State.modHbm_cores (f : Hbm → Hbm) : (s.modHbm f).cores = s.cores := rfl
@[simp] theorem State.modHbm_quarters (f : Hbm → Hbm) : (s.modHbm f).quarters = s.quarters := rfl
@[simp] theorem State.modHbm_scheds (f : Hbm → Hbm) : (s.modHbm f).scheds = s.scheds := rfl
@[simp] theorem State.modHbm_runs (f : Hbm → Hbm) : (s.modHbm f).runs = s.runs := rfl
@[simp] theorem State.modHbm_nextRun (f : Hbm → Hbm) : (s.modHbm f).nextRun = s.nextRun := rfl
@[simp] theorem State.modHbm_streams (f : Hbm → Hbm) : (s.modHbm f).streams = s.streams := rfl
@[simp] theorem State.modHbm_engines (f : Hbm → Hbm) : (s.modHbm f).engines = s.engines := rfl
@[simp] theorem State.modHbm_pieces (f : Hbm → Hbm) : (s.modHbm f).pieces = s.pieces := rfl
@[simp] theorem State.modHbm_nextPiece (f : Hbm → Hbm) : (s.modHbm f).nextPiece = s.nextPiece := rfl
@[simp] theorem State.modHbm_events (f : Hbm → Hbm) : (s.modHbm f).events = s.events := rfl
@[simp] theorem State.modHbm_alleys (f : Hbm → Hbm) : (s.modHbm f).alleys = s.alleys := rfl
@[simp] theorem State.modHbm_localStore (f : Hbm → Hbm) : (s.modHbm f).localStore = s.localStore := rfl
@[simp] theorem State.modHbm_cache (f : Hbm → Hbm) : (s.modHbm f).cache = s.cache := rfl
@[simp] theorem State.modHbm_hbm (f : Hbm → Hbm) : (s.modHbm f).hbm = f s.hbm := rfl
@[simp] theorem State.modHbm_protect (f : Hbm → Hbm) : (s.modHbm f).protect = s.protect := rfl
@[simp] theorem State.modHbm_tiers (f : Hbm → Hbm) : (s.modHbm f).tiers = s.tiers := rfl
@[simp] theorem State.modHbm_flash (f : Hbm → Hbm) : (s.modHbm f).flash = s.flash := rfl
@[simp] theorem State.modHbm_net (f : Hbm → Hbm) : (s.modHbm f).net = s.net := rfl
@[simp] theorem State.modHbm_security (f : Hbm → Hbm) : (s.modHbm f).security = s.security := rfl
@[simp] theorem State.modHbm_sideband (f : Hbm → Hbm) : (s.modHbm f).sideband = s.sideband := rfl
@[simp] theorem State.modHbm_logs (f : Hbm → Hbm) : (s.modHbm f).logs = s.logs := rfl
@[simp] theorem State.modHbm_features (f : Hbm → Hbm) : (s.modHbm f).features = s.features := rfl
@[simp] theorem State.modHbm_free (f : Hbm → Hbm) : (s.modHbm f).free = s.free := rfl

@[simp] theorem State.modCache_time (f : Cache → Cache) : (s.modCache f).time = s.time := rfl
@[simp] theorem State.modCache_power (f : Cache → Cache) : (s.modCache f).power = s.power := rfl
@[simp] theorem State.modCache_islands (f : Cache → Cache) : (s.modCache f).islands = s.islands := rfl
@[simp] theorem State.modCache_crossings (f : Cache → Cache) : (s.modCache f).crossings = s.crossings := rfl
@[simp] theorem State.modCache_sensors (f : Cache → Cache) : (s.modCache f).sensors = s.sensors := rfl
@[simp] theorem State.modCache_port0 (f : Cache → Cache) : (s.modCache f).port0 = s.port0 := rfl
@[simp] theorem State.modCache_port1 (f : Cache → Cache) : (s.modCache f).port1 = s.port1 := rfl
@[simp] theorem State.modCache_cmds (f : Cache → Cache) : (s.modCache f).cmds = s.cmds := rfl
@[simp] theorem State.modCache_nextCmd (f : Cache → Cache) : (s.modCache f).nextCmd = s.nextCmd := rfl
@[simp] theorem State.modCache_bucket (f : Cache → Cache) : (s.modCache f).bucket = s.bucket := rfl
@[simp] theorem State.modCache_colls (f : Cache → Cache) : (s.modCache f).colls = s.colls := rfl
@[simp] theorem State.modCache_gens (f : Cache → Cache) : (s.modCache f).gens = s.gens := rfl
@[simp] theorem State.modCache_arrivals (f : Cache → Cache) : (s.modCache f).arrivals = s.arrivals := rfl
@[simp] theorem State.modCache_coarseLevels (f : Cache → Cache) : (s.modCache f).coarseLevels = s.coarseLevels := rfl
@[simp] theorem State.modCache_batches (f : Cache → Cache) : (s.modCache f).batches = s.batches := rfl
@[simp] theorem State.modCache_nextBatch (f : Cache → Cache) : (s.modCache f).nextBatch = s.nextBatch := rfl
@[simp] theorem State.modCache_cores (f : Cache → Cache) : (s.modCache f).cores = s.cores := rfl
@[simp] theorem State.modCache_quarters (f : Cache → Cache) : (s.modCache f).quarters = s.quarters := rfl
@[simp] theorem State.modCache_scheds (f : Cache → Cache) : (s.modCache f).scheds = s.scheds := rfl
@[simp] theorem State.modCache_runs (f : Cache → Cache) : (s.modCache f).runs = s.runs := rfl
@[simp] theorem State.modCache_nextRun (f : Cache → Cache) : (s.modCache f).nextRun = s.nextRun := rfl
@[simp] theorem State.modCache_streams (f : Cache → Cache) : (s.modCache f).streams = s.streams := rfl
@[simp] theorem State.modCache_engines (f : Cache → Cache) : (s.modCache f).engines = s.engines := rfl
@[simp] theorem State.modCache_pieces (f : Cache → Cache) : (s.modCache f).pieces = s.pieces := rfl
@[simp] theorem State.modCache_nextPiece (f : Cache → Cache) : (s.modCache f).nextPiece = s.nextPiece := rfl
@[simp] theorem State.modCache_events (f : Cache → Cache) : (s.modCache f).events = s.events := rfl
@[simp] theorem State.modCache_alleys (f : Cache → Cache) : (s.modCache f).alleys = s.alleys := rfl
@[simp] theorem State.modCache_localStore (f : Cache → Cache) : (s.modCache f).localStore = s.localStore := rfl
@[simp] theorem State.modCache_cache (f : Cache → Cache) : (s.modCache f).cache = f s.cache := rfl
@[simp] theorem State.modCache_hbm (f : Cache → Cache) : (s.modCache f).hbm = s.hbm := rfl
@[simp] theorem State.modCache_protect (f : Cache → Cache) : (s.modCache f).protect = s.protect := rfl
@[simp] theorem State.modCache_tiers (f : Cache → Cache) : (s.modCache f).tiers = s.tiers := rfl
@[simp] theorem State.modCache_flash (f : Cache → Cache) : (s.modCache f).flash = s.flash := rfl
@[simp] theorem State.modCache_net (f : Cache → Cache) : (s.modCache f).net = s.net := rfl
@[simp] theorem State.modCache_security (f : Cache → Cache) : (s.modCache f).security = s.security := rfl
@[simp] theorem State.modCache_sideband (f : Cache → Cache) : (s.modCache f).sideband = s.sideband := rfl
@[simp] theorem State.modCache_logs (f : Cache → Cache) : (s.modCache f).logs = s.logs := rfl
@[simp] theorem State.modCache_features (f : Cache → Cache) : (s.modCache f).features = s.features := rfl
@[simp] theorem State.modCache_free (f : Cache → Cache) : (s.modCache f).free = s.free := rfl

@[simp] theorem State.modCmd_time (n : Nat) (f : Cmd → Cmd) : (s.modCmd n f).time = s.time := rfl
@[simp] theorem State.modCmd_power (n : Nat) (f : Cmd → Cmd) : (s.modCmd n f).power = s.power := rfl
@[simp] theorem State.modCmd_islands (n : Nat) (f : Cmd → Cmd) : (s.modCmd n f).islands = s.islands := rfl
@[simp] theorem State.modCmd_crossings (n : Nat) (f : Cmd → Cmd) : (s.modCmd n f).crossings = s.crossings := rfl
@[simp] theorem State.modCmd_sensors (n : Nat) (f : Cmd → Cmd) : (s.modCmd n f).sensors = s.sensors := rfl
@[simp] theorem State.modCmd_port0 (n : Nat) (f : Cmd → Cmd) : (s.modCmd n f).port0 = s.port0 := rfl
@[simp] theorem State.modCmd_port1 (n : Nat) (f : Cmd → Cmd) : (s.modCmd n f).port1 = s.port1 := rfl
@[simp] theorem State.modCmd_cmds (n : Nat) (f : Cmd → Cmd) : (s.modCmd n f).cmds = Tab.adjust s.cmds n f := rfl
@[simp] theorem State.modCmd_nextCmd (n : Nat) (f : Cmd → Cmd) : (s.modCmd n f).nextCmd = s.nextCmd := rfl
@[simp] theorem State.modCmd_bucket (n : Nat) (f : Cmd → Cmd) : (s.modCmd n f).bucket = s.bucket := rfl
@[simp] theorem State.modCmd_colls (n : Nat) (f : Cmd → Cmd) : (s.modCmd n f).colls = s.colls := rfl
@[simp] theorem State.modCmd_gens (n : Nat) (f : Cmd → Cmd) : (s.modCmd n f).gens = s.gens := rfl
@[simp] theorem State.modCmd_arrivals (n : Nat) (f : Cmd → Cmd) : (s.modCmd n f).arrivals = s.arrivals := rfl
@[simp] theorem State.modCmd_coarseLevels (n : Nat) (f : Cmd → Cmd) : (s.modCmd n f).coarseLevels = s.coarseLevels := rfl
@[simp] theorem State.modCmd_batches (n : Nat) (f : Cmd → Cmd) : (s.modCmd n f).batches = s.batches := rfl
@[simp] theorem State.modCmd_nextBatch (n : Nat) (f : Cmd → Cmd) : (s.modCmd n f).nextBatch = s.nextBatch := rfl
@[simp] theorem State.modCmd_cores (n : Nat) (f : Cmd → Cmd) : (s.modCmd n f).cores = s.cores := rfl
@[simp] theorem State.modCmd_quarters (n : Nat) (f : Cmd → Cmd) : (s.modCmd n f).quarters = s.quarters := rfl
@[simp] theorem State.modCmd_scheds (n : Nat) (f : Cmd → Cmd) : (s.modCmd n f).scheds = s.scheds := rfl
@[simp] theorem State.modCmd_runs (n : Nat) (f : Cmd → Cmd) : (s.modCmd n f).runs = s.runs := rfl
@[simp] theorem State.modCmd_nextRun (n : Nat) (f : Cmd → Cmd) : (s.modCmd n f).nextRun = s.nextRun := rfl
@[simp] theorem State.modCmd_streams (n : Nat) (f : Cmd → Cmd) : (s.modCmd n f).streams = s.streams := rfl
@[simp] theorem State.modCmd_engines (n : Nat) (f : Cmd → Cmd) : (s.modCmd n f).engines = s.engines := rfl
@[simp] theorem State.modCmd_pieces (n : Nat) (f : Cmd → Cmd) : (s.modCmd n f).pieces = s.pieces := rfl
@[simp] theorem State.modCmd_nextPiece (n : Nat) (f : Cmd → Cmd) : (s.modCmd n f).nextPiece = s.nextPiece := rfl
@[simp] theorem State.modCmd_events (n : Nat) (f : Cmd → Cmd) : (s.modCmd n f).events = s.events := rfl
@[simp] theorem State.modCmd_alleys (n : Nat) (f : Cmd → Cmd) : (s.modCmd n f).alleys = s.alleys := rfl
@[simp] theorem State.modCmd_localStore (n : Nat) (f : Cmd → Cmd) : (s.modCmd n f).localStore = s.localStore := rfl
@[simp] theorem State.modCmd_cache (n : Nat) (f : Cmd → Cmd) : (s.modCmd n f).cache = s.cache := rfl
@[simp] theorem State.modCmd_hbm (n : Nat) (f : Cmd → Cmd) : (s.modCmd n f).hbm = s.hbm := rfl
@[simp] theorem State.modCmd_protect (n : Nat) (f : Cmd → Cmd) : (s.modCmd n f).protect = s.protect := rfl
@[simp] theorem State.modCmd_tiers (n : Nat) (f : Cmd → Cmd) : (s.modCmd n f).tiers = s.tiers := rfl
@[simp] theorem State.modCmd_flash (n : Nat) (f : Cmd → Cmd) : (s.modCmd n f).flash = s.flash := rfl
@[simp] theorem State.modCmd_net (n : Nat) (f : Cmd → Cmd) : (s.modCmd n f).net = s.net := rfl
@[simp] theorem State.modCmd_security (n : Nat) (f : Cmd → Cmd) : (s.modCmd n f).security = s.security := rfl
@[simp] theorem State.modCmd_sideband (n : Nat) (f : Cmd → Cmd) : (s.modCmd n f).sideband = s.sideband := rfl
@[simp] theorem State.modCmd_logs (n : Nat) (f : Cmd → Cmd) : (s.modCmd n f).logs = s.logs := rfl
@[simp] theorem State.modCmd_features (n : Nat) (f : Cmd → Cmd) : (s.modCmd n f).features = s.features := rfl
@[simp] theorem State.modCmd_free (n : Nat) (f : Cmd → Cmd) : (s.modCmd n f).free = s.free := rfl

@[simp] theorem State.modSearch_time (n : Nat) (f : SearchWork → SearchWork) : (s.modSearch n f).time = s.time := rfl
@[simp] theorem State.modSearch_power (n : Nat) (f : SearchWork → SearchWork) : (s.modSearch n f).power = s.power := rfl
@[simp] theorem State.modSearch_islands (n : Nat) (f : SearchWork → SearchWork) : (s.modSearch n f).islands = s.islands := rfl
@[simp] theorem State.modSearch_crossings (n : Nat) (f : SearchWork → SearchWork) : (s.modSearch n f).crossings = s.crossings := rfl
@[simp] theorem State.modSearch_sensors (n : Nat) (f : SearchWork → SearchWork) : (s.modSearch n f).sensors = s.sensors := rfl
@[simp] theorem State.modSearch_port0 (n : Nat) (f : SearchWork → SearchWork) : (s.modSearch n f).port0 = s.port0 := rfl
@[simp] theorem State.modSearch_port1 (n : Nat) (f : SearchWork → SearchWork) : (s.modSearch n f).port1 = s.port1 := rfl
@[simp] theorem State.modSearch_cmds (n : Nat) (f : SearchWork → SearchWork) : (s.modSearch n f).cmds = Tab.adjust s.cmds n fun c => { c with search := f c.search } := rfl
@[simp] theorem State.modSearch_nextCmd (n : Nat) (f : SearchWork → SearchWork) : (s.modSearch n f).nextCmd = s.nextCmd := rfl
@[simp] theorem State.modSearch_bucket (n : Nat) (f : SearchWork → SearchWork) : (s.modSearch n f).bucket = s.bucket := rfl
@[simp] theorem State.modSearch_colls (n : Nat) (f : SearchWork → SearchWork) : (s.modSearch n f).colls = s.colls := rfl
@[simp] theorem State.modSearch_gens (n : Nat) (f : SearchWork → SearchWork) : (s.modSearch n f).gens = s.gens := rfl
@[simp] theorem State.modSearch_arrivals (n : Nat) (f : SearchWork → SearchWork) : (s.modSearch n f).arrivals = s.arrivals := rfl
@[simp] theorem State.modSearch_coarseLevels (n : Nat) (f : SearchWork → SearchWork) : (s.modSearch n f).coarseLevels = s.coarseLevels := rfl
@[simp] theorem State.modSearch_batches (n : Nat) (f : SearchWork → SearchWork) : (s.modSearch n f).batches = s.batches := rfl
@[simp] theorem State.modSearch_nextBatch (n : Nat) (f : SearchWork → SearchWork) : (s.modSearch n f).nextBatch = s.nextBatch := rfl
@[simp] theorem State.modSearch_cores (n : Nat) (f : SearchWork → SearchWork) : (s.modSearch n f).cores = s.cores := rfl
@[simp] theorem State.modSearch_quarters (n : Nat) (f : SearchWork → SearchWork) : (s.modSearch n f).quarters = s.quarters := rfl
@[simp] theorem State.modSearch_scheds (n : Nat) (f : SearchWork → SearchWork) : (s.modSearch n f).scheds = s.scheds := rfl
@[simp] theorem State.modSearch_runs (n : Nat) (f : SearchWork → SearchWork) : (s.modSearch n f).runs = s.runs := rfl
@[simp] theorem State.modSearch_nextRun (n : Nat) (f : SearchWork → SearchWork) : (s.modSearch n f).nextRun = s.nextRun := rfl
@[simp] theorem State.modSearch_streams (n : Nat) (f : SearchWork → SearchWork) : (s.modSearch n f).streams = s.streams := rfl
@[simp] theorem State.modSearch_engines (n : Nat) (f : SearchWork → SearchWork) : (s.modSearch n f).engines = s.engines := rfl
@[simp] theorem State.modSearch_pieces (n : Nat) (f : SearchWork → SearchWork) : (s.modSearch n f).pieces = s.pieces := rfl
@[simp] theorem State.modSearch_nextPiece (n : Nat) (f : SearchWork → SearchWork) : (s.modSearch n f).nextPiece = s.nextPiece := rfl
@[simp] theorem State.modSearch_events (n : Nat) (f : SearchWork → SearchWork) : (s.modSearch n f).events = s.events := rfl
@[simp] theorem State.modSearch_alleys (n : Nat) (f : SearchWork → SearchWork) : (s.modSearch n f).alleys = s.alleys := rfl
@[simp] theorem State.modSearch_localStore (n : Nat) (f : SearchWork → SearchWork) : (s.modSearch n f).localStore = s.localStore := rfl
@[simp] theorem State.modSearch_cache (n : Nat) (f : SearchWork → SearchWork) : (s.modSearch n f).cache = s.cache := rfl
@[simp] theorem State.modSearch_hbm (n : Nat) (f : SearchWork → SearchWork) : (s.modSearch n f).hbm = s.hbm := rfl
@[simp] theorem State.modSearch_protect (n : Nat) (f : SearchWork → SearchWork) : (s.modSearch n f).protect = s.protect := rfl
@[simp] theorem State.modSearch_tiers (n : Nat) (f : SearchWork → SearchWork) : (s.modSearch n f).tiers = s.tiers := rfl
@[simp] theorem State.modSearch_flash (n : Nat) (f : SearchWork → SearchWork) : (s.modSearch n f).flash = s.flash := rfl
@[simp] theorem State.modSearch_net (n : Nat) (f : SearchWork → SearchWork) : (s.modSearch n f).net = s.net := rfl
@[simp] theorem State.modSearch_security (n : Nat) (f : SearchWork → SearchWork) : (s.modSearch n f).security = s.security := rfl
@[simp] theorem State.modSearch_sideband (n : Nat) (f : SearchWork → SearchWork) : (s.modSearch n f).sideband = s.sideband := rfl
@[simp] theorem State.modSearch_logs (n : Nat) (f : SearchWork → SearchWork) : (s.modSearch n f).logs = s.logs := rfl
@[simp] theorem State.modSearch_features (n : Nat) (f : SearchWork → SearchWork) : (s.modSearch n f).features = s.features := rfl
@[simp] theorem State.modSearch_free (n : Nat) (f : SearchWork → SearchWork) : (s.modSearch n f).free = s.free := rfl

@[simp] theorem State.modWork_time (n : Nat) (f : OtherWork → OtherWork) : (s.modWork n f).time = s.time := rfl
@[simp] theorem State.modWork_power (n : Nat) (f : OtherWork → OtherWork) : (s.modWork n f).power = s.power := rfl
@[simp] theorem State.modWork_islands (n : Nat) (f : OtherWork → OtherWork) : (s.modWork n f).islands = s.islands := rfl
@[simp] theorem State.modWork_crossings (n : Nat) (f : OtherWork → OtherWork) : (s.modWork n f).crossings = s.crossings := rfl
@[simp] theorem State.modWork_sensors (n : Nat) (f : OtherWork → OtherWork) : (s.modWork n f).sensors = s.sensors := rfl
@[simp] theorem State.modWork_port0 (n : Nat) (f : OtherWork → OtherWork) : (s.modWork n f).port0 = s.port0 := rfl
@[simp] theorem State.modWork_port1 (n : Nat) (f : OtherWork → OtherWork) : (s.modWork n f).port1 = s.port1 := rfl
@[simp] theorem State.modWork_cmds (n : Nat) (f : OtherWork → OtherWork) : (s.modWork n f).cmds = Tab.adjust s.cmds n fun c => { c with work := f c.work } := rfl
@[simp] theorem State.modWork_nextCmd (n : Nat) (f : OtherWork → OtherWork) : (s.modWork n f).nextCmd = s.nextCmd := rfl
@[simp] theorem State.modWork_bucket (n : Nat) (f : OtherWork → OtherWork) : (s.modWork n f).bucket = s.bucket := rfl
@[simp] theorem State.modWork_colls (n : Nat) (f : OtherWork → OtherWork) : (s.modWork n f).colls = s.colls := rfl
@[simp] theorem State.modWork_gens (n : Nat) (f : OtherWork → OtherWork) : (s.modWork n f).gens = s.gens := rfl
@[simp] theorem State.modWork_arrivals (n : Nat) (f : OtherWork → OtherWork) : (s.modWork n f).arrivals = s.arrivals := rfl
@[simp] theorem State.modWork_coarseLevels (n : Nat) (f : OtherWork → OtherWork) : (s.modWork n f).coarseLevels = s.coarseLevels := rfl
@[simp] theorem State.modWork_batches (n : Nat) (f : OtherWork → OtherWork) : (s.modWork n f).batches = s.batches := rfl
@[simp] theorem State.modWork_nextBatch (n : Nat) (f : OtherWork → OtherWork) : (s.modWork n f).nextBatch = s.nextBatch := rfl
@[simp] theorem State.modWork_cores (n : Nat) (f : OtherWork → OtherWork) : (s.modWork n f).cores = s.cores := rfl
@[simp] theorem State.modWork_quarters (n : Nat) (f : OtherWork → OtherWork) : (s.modWork n f).quarters = s.quarters := rfl
@[simp] theorem State.modWork_scheds (n : Nat) (f : OtherWork → OtherWork) : (s.modWork n f).scheds = s.scheds := rfl
@[simp] theorem State.modWork_runs (n : Nat) (f : OtherWork → OtherWork) : (s.modWork n f).runs = s.runs := rfl
@[simp] theorem State.modWork_nextRun (n : Nat) (f : OtherWork → OtherWork) : (s.modWork n f).nextRun = s.nextRun := rfl
@[simp] theorem State.modWork_streams (n : Nat) (f : OtherWork → OtherWork) : (s.modWork n f).streams = s.streams := rfl
@[simp] theorem State.modWork_engines (n : Nat) (f : OtherWork → OtherWork) : (s.modWork n f).engines = s.engines := rfl
@[simp] theorem State.modWork_pieces (n : Nat) (f : OtherWork → OtherWork) : (s.modWork n f).pieces = s.pieces := rfl
@[simp] theorem State.modWork_nextPiece (n : Nat) (f : OtherWork → OtherWork) : (s.modWork n f).nextPiece = s.nextPiece := rfl
@[simp] theorem State.modWork_events (n : Nat) (f : OtherWork → OtherWork) : (s.modWork n f).events = s.events := rfl
@[simp] theorem State.modWork_alleys (n : Nat) (f : OtherWork → OtherWork) : (s.modWork n f).alleys = s.alleys := rfl
@[simp] theorem State.modWork_localStore (n : Nat) (f : OtherWork → OtherWork) : (s.modWork n f).localStore = s.localStore := rfl
@[simp] theorem State.modWork_cache (n : Nat) (f : OtherWork → OtherWork) : (s.modWork n f).cache = s.cache := rfl
@[simp] theorem State.modWork_hbm (n : Nat) (f : OtherWork → OtherWork) : (s.modWork n f).hbm = s.hbm := rfl
@[simp] theorem State.modWork_protect (n : Nat) (f : OtherWork → OtherWork) : (s.modWork n f).protect = s.protect := rfl
@[simp] theorem State.modWork_tiers (n : Nat) (f : OtherWork → OtherWork) : (s.modWork n f).tiers = s.tiers := rfl
@[simp] theorem State.modWork_flash (n : Nat) (f : OtherWork → OtherWork) : (s.modWork n f).flash = s.flash := rfl
@[simp] theorem State.modWork_net (n : Nat) (f : OtherWork → OtherWork) : (s.modWork n f).net = s.net := rfl
@[simp] theorem State.modWork_security (n : Nat) (f : OtherWork → OtherWork) : (s.modWork n f).security = s.security := rfl
@[simp] theorem State.modWork_sideband (n : Nat) (f : OtherWork → OtherWork) : (s.modWork n f).sideband = s.sideband := rfl
@[simp] theorem State.modWork_logs (n : Nat) (f : OtherWork → OtherWork) : (s.modWork n f).logs = s.logs := rfl
@[simp] theorem State.modWork_features (n : Nat) (f : OtherWork → OtherWork) : (s.modWork n f).features = s.features := rfl
@[simp] theorem State.modWork_free (n : Nat) (f : OtherWork → OtherWork) : (s.modWork n f).free = s.free := rfl

@[simp] theorem State.modColl_time (n : Nat) (f : Collection → Collection) : (s.modColl n f).time = s.time := rfl
@[simp] theorem State.modColl_power (n : Nat) (f : Collection → Collection) : (s.modColl n f).power = s.power := rfl
@[simp] theorem State.modColl_islands (n : Nat) (f : Collection → Collection) : (s.modColl n f).islands = s.islands := rfl
@[simp] theorem State.modColl_crossings (n : Nat) (f : Collection → Collection) : (s.modColl n f).crossings = s.crossings := rfl
@[simp] theorem State.modColl_sensors (n : Nat) (f : Collection → Collection) : (s.modColl n f).sensors = s.sensors := rfl
@[simp] theorem State.modColl_port0 (n : Nat) (f : Collection → Collection) : (s.modColl n f).port0 = s.port0 := rfl
@[simp] theorem State.modColl_port1 (n : Nat) (f : Collection → Collection) : (s.modColl n f).port1 = s.port1 := rfl
@[simp] theorem State.modColl_cmds (n : Nat) (f : Collection → Collection) : (s.modColl n f).cmds = s.cmds := rfl
@[simp] theorem State.modColl_nextCmd (n : Nat) (f : Collection → Collection) : (s.modColl n f).nextCmd = s.nextCmd := rfl
@[simp] theorem State.modColl_bucket (n : Nat) (f : Collection → Collection) : (s.modColl n f).bucket = s.bucket := rfl
@[simp] theorem State.modColl_colls (n : Nat) (f : Collection → Collection) : (s.modColl n f).colls = Tab.adjust s.colls n f := rfl
@[simp] theorem State.modColl_gens (n : Nat) (f : Collection → Collection) : (s.modColl n f).gens = s.gens := rfl
@[simp] theorem State.modColl_arrivals (n : Nat) (f : Collection → Collection) : (s.modColl n f).arrivals = s.arrivals := rfl
@[simp] theorem State.modColl_coarseLevels (n : Nat) (f : Collection → Collection) : (s.modColl n f).coarseLevels = s.coarseLevels := rfl
@[simp] theorem State.modColl_batches (n : Nat) (f : Collection → Collection) : (s.modColl n f).batches = s.batches := rfl
@[simp] theorem State.modColl_nextBatch (n : Nat) (f : Collection → Collection) : (s.modColl n f).nextBatch = s.nextBatch := rfl
@[simp] theorem State.modColl_cores (n : Nat) (f : Collection → Collection) : (s.modColl n f).cores = s.cores := rfl
@[simp] theorem State.modColl_quarters (n : Nat) (f : Collection → Collection) : (s.modColl n f).quarters = s.quarters := rfl
@[simp] theorem State.modColl_scheds (n : Nat) (f : Collection → Collection) : (s.modColl n f).scheds = s.scheds := rfl
@[simp] theorem State.modColl_runs (n : Nat) (f : Collection → Collection) : (s.modColl n f).runs = s.runs := rfl
@[simp] theorem State.modColl_nextRun (n : Nat) (f : Collection → Collection) : (s.modColl n f).nextRun = s.nextRun := rfl
@[simp] theorem State.modColl_streams (n : Nat) (f : Collection → Collection) : (s.modColl n f).streams = s.streams := rfl
@[simp] theorem State.modColl_engines (n : Nat) (f : Collection → Collection) : (s.modColl n f).engines = s.engines := rfl
@[simp] theorem State.modColl_pieces (n : Nat) (f : Collection → Collection) : (s.modColl n f).pieces = s.pieces := rfl
@[simp] theorem State.modColl_nextPiece (n : Nat) (f : Collection → Collection) : (s.modColl n f).nextPiece = s.nextPiece := rfl
@[simp] theorem State.modColl_events (n : Nat) (f : Collection → Collection) : (s.modColl n f).events = s.events := rfl
@[simp] theorem State.modColl_alleys (n : Nat) (f : Collection → Collection) : (s.modColl n f).alleys = s.alleys := rfl
@[simp] theorem State.modColl_localStore (n : Nat) (f : Collection → Collection) : (s.modColl n f).localStore = s.localStore := rfl
@[simp] theorem State.modColl_cache (n : Nat) (f : Collection → Collection) : (s.modColl n f).cache = s.cache := rfl
@[simp] theorem State.modColl_hbm (n : Nat) (f : Collection → Collection) : (s.modColl n f).hbm = s.hbm := rfl
@[simp] theorem State.modColl_protect (n : Nat) (f : Collection → Collection) : (s.modColl n f).protect = s.protect := rfl
@[simp] theorem State.modColl_tiers (n : Nat) (f : Collection → Collection) : (s.modColl n f).tiers = s.tiers := rfl
@[simp] theorem State.modColl_flash (n : Nat) (f : Collection → Collection) : (s.modColl n f).flash = s.flash := rfl
@[simp] theorem State.modColl_net (n : Nat) (f : Collection → Collection) : (s.modColl n f).net = s.net := rfl
@[simp] theorem State.modColl_security (n : Nat) (f : Collection → Collection) : (s.modColl n f).security = s.security := rfl
@[simp] theorem State.modColl_sideband (n : Nat) (f : Collection → Collection) : (s.modColl n f).sideband = s.sideband := rfl
@[simp] theorem State.modColl_logs (n : Nat) (f : Collection → Collection) : (s.modColl n f).logs = s.logs := rfl
@[simp] theorem State.modColl_features (n : Nat) (f : Collection → Collection) : (s.modColl n f).features = s.features := rfl
@[simp] theorem State.modColl_free (n : Nat) (f : Collection → Collection) : (s.modColl n f).free = s.free := rfl

@[simp] theorem State.modSched_time (n : Nat) (f : Sched → Sched) : (s.modSched n f).time = s.time := rfl
@[simp] theorem State.modSched_power (n : Nat) (f : Sched → Sched) : (s.modSched n f).power = s.power := rfl
@[simp] theorem State.modSched_islands (n : Nat) (f : Sched → Sched) : (s.modSched n f).islands = s.islands := rfl
@[simp] theorem State.modSched_crossings (n : Nat) (f : Sched → Sched) : (s.modSched n f).crossings = s.crossings := rfl
@[simp] theorem State.modSched_sensors (n : Nat) (f : Sched → Sched) : (s.modSched n f).sensors = s.sensors := rfl
@[simp] theorem State.modSched_port0 (n : Nat) (f : Sched → Sched) : (s.modSched n f).port0 = s.port0 := rfl
@[simp] theorem State.modSched_port1 (n : Nat) (f : Sched → Sched) : (s.modSched n f).port1 = s.port1 := rfl
@[simp] theorem State.modSched_cmds (n : Nat) (f : Sched → Sched) : (s.modSched n f).cmds = s.cmds := rfl
@[simp] theorem State.modSched_nextCmd (n : Nat) (f : Sched → Sched) : (s.modSched n f).nextCmd = s.nextCmd := rfl
@[simp] theorem State.modSched_bucket (n : Nat) (f : Sched → Sched) : (s.modSched n f).bucket = s.bucket := rfl
@[simp] theorem State.modSched_colls (n : Nat) (f : Sched → Sched) : (s.modSched n f).colls = s.colls := rfl
@[simp] theorem State.modSched_gens (n : Nat) (f : Sched → Sched) : (s.modSched n f).gens = s.gens := rfl
@[simp] theorem State.modSched_arrivals (n : Nat) (f : Sched → Sched) : (s.modSched n f).arrivals = s.arrivals := rfl
@[simp] theorem State.modSched_coarseLevels (n : Nat) (f : Sched → Sched) : (s.modSched n f).coarseLevels = s.coarseLevels := rfl
@[simp] theorem State.modSched_batches (n : Nat) (f : Sched → Sched) : (s.modSched n f).batches = s.batches := rfl
@[simp] theorem State.modSched_nextBatch (n : Nat) (f : Sched → Sched) : (s.modSched n f).nextBatch = s.nextBatch := rfl
@[simp] theorem State.modSched_cores (n : Nat) (f : Sched → Sched) : (s.modSched n f).cores = s.cores := rfl
@[simp] theorem State.modSched_quarters (n : Nat) (f : Sched → Sched) : (s.modSched n f).quarters = s.quarters := rfl
@[simp] theorem State.modSched_scheds (n : Nat) (f : Sched → Sched) : (s.modSched n f).scheds = Tab.adjust s.scheds n f := rfl
@[simp] theorem State.modSched_runs (n : Nat) (f : Sched → Sched) : (s.modSched n f).runs = s.runs := rfl
@[simp] theorem State.modSched_nextRun (n : Nat) (f : Sched → Sched) : (s.modSched n f).nextRun = s.nextRun := rfl
@[simp] theorem State.modSched_streams (n : Nat) (f : Sched → Sched) : (s.modSched n f).streams = s.streams := rfl
@[simp] theorem State.modSched_engines (n : Nat) (f : Sched → Sched) : (s.modSched n f).engines = s.engines := rfl
@[simp] theorem State.modSched_pieces (n : Nat) (f : Sched → Sched) : (s.modSched n f).pieces = s.pieces := rfl
@[simp] theorem State.modSched_nextPiece (n : Nat) (f : Sched → Sched) : (s.modSched n f).nextPiece = s.nextPiece := rfl
@[simp] theorem State.modSched_events (n : Nat) (f : Sched → Sched) : (s.modSched n f).events = s.events := rfl
@[simp] theorem State.modSched_alleys (n : Nat) (f : Sched → Sched) : (s.modSched n f).alleys = s.alleys := rfl
@[simp] theorem State.modSched_localStore (n : Nat) (f : Sched → Sched) : (s.modSched n f).localStore = s.localStore := rfl
@[simp] theorem State.modSched_cache (n : Nat) (f : Sched → Sched) : (s.modSched n f).cache = s.cache := rfl
@[simp] theorem State.modSched_hbm (n : Nat) (f : Sched → Sched) : (s.modSched n f).hbm = s.hbm := rfl
@[simp] theorem State.modSched_protect (n : Nat) (f : Sched → Sched) : (s.modSched n f).protect = s.protect := rfl
@[simp] theorem State.modSched_tiers (n : Nat) (f : Sched → Sched) : (s.modSched n f).tiers = s.tiers := rfl
@[simp] theorem State.modSched_flash (n : Nat) (f : Sched → Sched) : (s.modSched n f).flash = s.flash := rfl
@[simp] theorem State.modSched_net (n : Nat) (f : Sched → Sched) : (s.modSched n f).net = s.net := rfl
@[simp] theorem State.modSched_security (n : Nat) (f : Sched → Sched) : (s.modSched n f).security = s.security := rfl
@[simp] theorem State.modSched_sideband (n : Nat) (f : Sched → Sched) : (s.modSched n f).sideband = s.sideband := rfl
@[simp] theorem State.modSched_logs (n : Nat) (f : Sched → Sched) : (s.modSched n f).logs = s.logs := rfl
@[simp] theorem State.modSched_features (n : Nat) (f : Sched → Sched) : (s.modSched n f).features = s.features := rfl
@[simp] theorem State.modSched_free (n : Nat) (f : Sched → Sched) : (s.modSched n f).free = s.free := rfl

@[simp] theorem State.modRun_time (n : Nat) (f : Run → Run) : (s.modRun n f).time = s.time := rfl
@[simp] theorem State.modRun_power (n : Nat) (f : Run → Run) : (s.modRun n f).power = s.power := rfl
@[simp] theorem State.modRun_islands (n : Nat) (f : Run → Run) : (s.modRun n f).islands = s.islands := rfl
@[simp] theorem State.modRun_crossings (n : Nat) (f : Run → Run) : (s.modRun n f).crossings = s.crossings := rfl
@[simp] theorem State.modRun_sensors (n : Nat) (f : Run → Run) : (s.modRun n f).sensors = s.sensors := rfl
@[simp] theorem State.modRun_port0 (n : Nat) (f : Run → Run) : (s.modRun n f).port0 = s.port0 := rfl
@[simp] theorem State.modRun_port1 (n : Nat) (f : Run → Run) : (s.modRun n f).port1 = s.port1 := rfl
@[simp] theorem State.modRun_cmds (n : Nat) (f : Run → Run) : (s.modRun n f).cmds = s.cmds := rfl
@[simp] theorem State.modRun_nextCmd (n : Nat) (f : Run → Run) : (s.modRun n f).nextCmd = s.nextCmd := rfl
@[simp] theorem State.modRun_bucket (n : Nat) (f : Run → Run) : (s.modRun n f).bucket = s.bucket := rfl
@[simp] theorem State.modRun_colls (n : Nat) (f : Run → Run) : (s.modRun n f).colls = s.colls := rfl
@[simp] theorem State.modRun_gens (n : Nat) (f : Run → Run) : (s.modRun n f).gens = s.gens := rfl
@[simp] theorem State.modRun_arrivals (n : Nat) (f : Run → Run) : (s.modRun n f).arrivals = s.arrivals := rfl
@[simp] theorem State.modRun_coarseLevels (n : Nat) (f : Run → Run) : (s.modRun n f).coarseLevels = s.coarseLevels := rfl
@[simp] theorem State.modRun_batches (n : Nat) (f : Run → Run) : (s.modRun n f).batches = s.batches := rfl
@[simp] theorem State.modRun_nextBatch (n : Nat) (f : Run → Run) : (s.modRun n f).nextBatch = s.nextBatch := rfl
@[simp] theorem State.modRun_cores (n : Nat) (f : Run → Run) : (s.modRun n f).cores = s.cores := rfl
@[simp] theorem State.modRun_quarters (n : Nat) (f : Run → Run) : (s.modRun n f).quarters = s.quarters := rfl
@[simp] theorem State.modRun_scheds (n : Nat) (f : Run → Run) : (s.modRun n f).scheds = s.scheds := rfl
@[simp] theorem State.modRun_runs (n : Nat) (f : Run → Run) : (s.modRun n f).runs = Tab.adjust s.runs n f := rfl
@[simp] theorem State.modRun_nextRun (n : Nat) (f : Run → Run) : (s.modRun n f).nextRun = s.nextRun := rfl
@[simp] theorem State.modRun_streams (n : Nat) (f : Run → Run) : (s.modRun n f).streams = s.streams := rfl
@[simp] theorem State.modRun_engines (n : Nat) (f : Run → Run) : (s.modRun n f).engines = s.engines := rfl
@[simp] theorem State.modRun_pieces (n : Nat) (f : Run → Run) : (s.modRun n f).pieces = s.pieces := rfl
@[simp] theorem State.modRun_nextPiece (n : Nat) (f : Run → Run) : (s.modRun n f).nextPiece = s.nextPiece := rfl
@[simp] theorem State.modRun_events (n : Nat) (f : Run → Run) : (s.modRun n f).events = s.events := rfl
@[simp] theorem State.modRun_alleys (n : Nat) (f : Run → Run) : (s.modRun n f).alleys = s.alleys := rfl
@[simp] theorem State.modRun_localStore (n : Nat) (f : Run → Run) : (s.modRun n f).localStore = s.localStore := rfl
@[simp] theorem State.modRun_cache (n : Nat) (f : Run → Run) : (s.modRun n f).cache = s.cache := rfl
@[simp] theorem State.modRun_hbm (n : Nat) (f : Run → Run) : (s.modRun n f).hbm = s.hbm := rfl
@[simp] theorem State.modRun_protect (n : Nat) (f : Run → Run) : (s.modRun n f).protect = s.protect := rfl
@[simp] theorem State.modRun_tiers (n : Nat) (f : Run → Run) : (s.modRun n f).tiers = s.tiers := rfl
@[simp] theorem State.modRun_flash (n : Nat) (f : Run → Run) : (s.modRun n f).flash = s.flash := rfl
@[simp] theorem State.modRun_net (n : Nat) (f : Run → Run) : (s.modRun n f).net = s.net := rfl
@[simp] theorem State.modRun_security (n : Nat) (f : Run → Run) : (s.modRun n f).security = s.security := rfl
@[simp] theorem State.modRun_sideband (n : Nat) (f : Run → Run) : (s.modRun n f).sideband = s.sideband := rfl
@[simp] theorem State.modRun_logs (n : Nat) (f : Run → Run) : (s.modRun n f).logs = s.logs := rfl
@[simp] theorem State.modRun_features (n : Nat) (f : Run → Run) : (s.modRun n f).features = s.features := rfl
@[simp] theorem State.modRun_free (n : Nat) (f : Run → Run) : (s.modRun n f).free = s.free := rfl

@[simp] theorem State.modCore_time (n : Nat) (f : Core → Core) : (s.modCore n f).time = s.time := rfl
@[simp] theorem State.modCore_power (n : Nat) (f : Core → Core) : (s.modCore n f).power = s.power := rfl
@[simp] theorem State.modCore_islands (n : Nat) (f : Core → Core) : (s.modCore n f).islands = s.islands := rfl
@[simp] theorem State.modCore_crossings (n : Nat) (f : Core → Core) : (s.modCore n f).crossings = s.crossings := rfl
@[simp] theorem State.modCore_sensors (n : Nat) (f : Core → Core) : (s.modCore n f).sensors = s.sensors := rfl
@[simp] theorem State.modCore_port0 (n : Nat) (f : Core → Core) : (s.modCore n f).port0 = s.port0 := rfl
@[simp] theorem State.modCore_port1 (n : Nat) (f : Core → Core) : (s.modCore n f).port1 = s.port1 := rfl
@[simp] theorem State.modCore_cmds (n : Nat) (f : Core → Core) : (s.modCore n f).cmds = s.cmds := rfl
@[simp] theorem State.modCore_nextCmd (n : Nat) (f : Core → Core) : (s.modCore n f).nextCmd = s.nextCmd := rfl
@[simp] theorem State.modCore_bucket (n : Nat) (f : Core → Core) : (s.modCore n f).bucket = s.bucket := rfl
@[simp] theorem State.modCore_colls (n : Nat) (f : Core → Core) : (s.modCore n f).colls = s.colls := rfl
@[simp] theorem State.modCore_gens (n : Nat) (f : Core → Core) : (s.modCore n f).gens = s.gens := rfl
@[simp] theorem State.modCore_arrivals (n : Nat) (f : Core → Core) : (s.modCore n f).arrivals = s.arrivals := rfl
@[simp] theorem State.modCore_coarseLevels (n : Nat) (f : Core → Core) : (s.modCore n f).coarseLevels = s.coarseLevels := rfl
@[simp] theorem State.modCore_batches (n : Nat) (f : Core → Core) : (s.modCore n f).batches = s.batches := rfl
@[simp] theorem State.modCore_nextBatch (n : Nat) (f : Core → Core) : (s.modCore n f).nextBatch = s.nextBatch := rfl
@[simp] theorem State.modCore_cores (n : Nat) (f : Core → Core) : (s.modCore n f).cores = Tab.modify s.cores n {} f := rfl
@[simp] theorem State.modCore_quarters (n : Nat) (f : Core → Core) : (s.modCore n f).quarters = s.quarters := rfl
@[simp] theorem State.modCore_scheds (n : Nat) (f : Core → Core) : (s.modCore n f).scheds = s.scheds := rfl
@[simp] theorem State.modCore_runs (n : Nat) (f : Core → Core) : (s.modCore n f).runs = s.runs := rfl
@[simp] theorem State.modCore_nextRun (n : Nat) (f : Core → Core) : (s.modCore n f).nextRun = s.nextRun := rfl
@[simp] theorem State.modCore_streams (n : Nat) (f : Core → Core) : (s.modCore n f).streams = s.streams := rfl
@[simp] theorem State.modCore_engines (n : Nat) (f : Core → Core) : (s.modCore n f).engines = s.engines := rfl
@[simp] theorem State.modCore_pieces (n : Nat) (f : Core → Core) : (s.modCore n f).pieces = s.pieces := rfl
@[simp] theorem State.modCore_nextPiece (n : Nat) (f : Core → Core) : (s.modCore n f).nextPiece = s.nextPiece := rfl
@[simp] theorem State.modCore_events (n : Nat) (f : Core → Core) : (s.modCore n f).events = s.events := rfl
@[simp] theorem State.modCore_alleys (n : Nat) (f : Core → Core) : (s.modCore n f).alleys = s.alleys := rfl
@[simp] theorem State.modCore_localStore (n : Nat) (f : Core → Core) : (s.modCore n f).localStore = s.localStore := rfl
@[simp] theorem State.modCore_cache (n : Nat) (f : Core → Core) : (s.modCore n f).cache = s.cache := rfl
@[simp] theorem State.modCore_hbm (n : Nat) (f : Core → Core) : (s.modCore n f).hbm = s.hbm := rfl
@[simp] theorem State.modCore_protect (n : Nat) (f : Core → Core) : (s.modCore n f).protect = s.protect := rfl
@[simp] theorem State.modCore_tiers (n : Nat) (f : Core → Core) : (s.modCore n f).tiers = s.tiers := rfl
@[simp] theorem State.modCore_flash (n : Nat) (f : Core → Core) : (s.modCore n f).flash = s.flash := rfl
@[simp] theorem State.modCore_net (n : Nat) (f : Core → Core) : (s.modCore n f).net = s.net := rfl
@[simp] theorem State.modCore_security (n : Nat) (f : Core → Core) : (s.modCore n f).security = s.security := rfl
@[simp] theorem State.modCore_sideband (n : Nat) (f : Core → Core) : (s.modCore n f).sideband = s.sideband := rfl
@[simp] theorem State.modCore_logs (n : Nat) (f : Core → Core) : (s.modCore n f).logs = s.logs := rfl
@[simp] theorem State.modCore_features (n : Nat) (f : Core → Core) : (s.modCore n f).features = s.features := rfl
@[simp] theorem State.modCore_free (n : Nat) (f : Core → Core) : (s.modCore n f).free = s.free := rfl

@[simp] theorem State.modQuarter_time (n : Nat) (f : Quarter → Quarter) : (s.modQuarter n f).time = s.time := rfl
@[simp] theorem State.modQuarter_power (n : Nat) (f : Quarter → Quarter) : (s.modQuarter n f).power = s.power := rfl
@[simp] theorem State.modQuarter_islands (n : Nat) (f : Quarter → Quarter) : (s.modQuarter n f).islands = s.islands := rfl
@[simp] theorem State.modQuarter_crossings (n : Nat) (f : Quarter → Quarter) : (s.modQuarter n f).crossings = s.crossings := rfl
@[simp] theorem State.modQuarter_sensors (n : Nat) (f : Quarter → Quarter) : (s.modQuarter n f).sensors = s.sensors := rfl
@[simp] theorem State.modQuarter_port0 (n : Nat) (f : Quarter → Quarter) : (s.modQuarter n f).port0 = s.port0 := rfl
@[simp] theorem State.modQuarter_port1 (n : Nat) (f : Quarter → Quarter) : (s.modQuarter n f).port1 = s.port1 := rfl
@[simp] theorem State.modQuarter_cmds (n : Nat) (f : Quarter → Quarter) : (s.modQuarter n f).cmds = s.cmds := rfl
@[simp] theorem State.modQuarter_nextCmd (n : Nat) (f : Quarter → Quarter) : (s.modQuarter n f).nextCmd = s.nextCmd := rfl
@[simp] theorem State.modQuarter_bucket (n : Nat) (f : Quarter → Quarter) : (s.modQuarter n f).bucket = s.bucket := rfl
@[simp] theorem State.modQuarter_colls (n : Nat) (f : Quarter → Quarter) : (s.modQuarter n f).colls = s.colls := rfl
@[simp] theorem State.modQuarter_gens (n : Nat) (f : Quarter → Quarter) : (s.modQuarter n f).gens = s.gens := rfl
@[simp] theorem State.modQuarter_arrivals (n : Nat) (f : Quarter → Quarter) : (s.modQuarter n f).arrivals = s.arrivals := rfl
@[simp] theorem State.modQuarter_coarseLevels (n : Nat) (f : Quarter → Quarter) : (s.modQuarter n f).coarseLevels = s.coarseLevels := rfl
@[simp] theorem State.modQuarter_batches (n : Nat) (f : Quarter → Quarter) : (s.modQuarter n f).batches = s.batches := rfl
@[simp] theorem State.modQuarter_nextBatch (n : Nat) (f : Quarter → Quarter) : (s.modQuarter n f).nextBatch = s.nextBatch := rfl
@[simp] theorem State.modQuarter_cores (n : Nat) (f : Quarter → Quarter) : (s.modQuarter n f).cores = s.cores := rfl
@[simp] theorem State.modQuarter_quarters (n : Nat) (f : Quarter → Quarter) : (s.modQuarter n f).quarters = Tab.modify s.quarters n {} f := rfl
@[simp] theorem State.modQuarter_scheds (n : Nat) (f : Quarter → Quarter) : (s.modQuarter n f).scheds = s.scheds := rfl
@[simp] theorem State.modQuarter_runs (n : Nat) (f : Quarter → Quarter) : (s.modQuarter n f).runs = s.runs := rfl
@[simp] theorem State.modQuarter_nextRun (n : Nat) (f : Quarter → Quarter) : (s.modQuarter n f).nextRun = s.nextRun := rfl
@[simp] theorem State.modQuarter_streams (n : Nat) (f : Quarter → Quarter) : (s.modQuarter n f).streams = s.streams := rfl
@[simp] theorem State.modQuarter_engines (n : Nat) (f : Quarter → Quarter) : (s.modQuarter n f).engines = s.engines := rfl
@[simp] theorem State.modQuarter_pieces (n : Nat) (f : Quarter → Quarter) : (s.modQuarter n f).pieces = s.pieces := rfl
@[simp] theorem State.modQuarter_nextPiece (n : Nat) (f : Quarter → Quarter) : (s.modQuarter n f).nextPiece = s.nextPiece := rfl
@[simp] theorem State.modQuarter_events (n : Nat) (f : Quarter → Quarter) : (s.modQuarter n f).events = s.events := rfl
@[simp] theorem State.modQuarter_alleys (n : Nat) (f : Quarter → Quarter) : (s.modQuarter n f).alleys = s.alleys := rfl
@[simp] theorem State.modQuarter_localStore (n : Nat) (f : Quarter → Quarter) : (s.modQuarter n f).localStore = s.localStore := rfl
@[simp] theorem State.modQuarter_cache (n : Nat) (f : Quarter → Quarter) : (s.modQuarter n f).cache = s.cache := rfl
@[simp] theorem State.modQuarter_hbm (n : Nat) (f : Quarter → Quarter) : (s.modQuarter n f).hbm = s.hbm := rfl
@[simp] theorem State.modQuarter_protect (n : Nat) (f : Quarter → Quarter) : (s.modQuarter n f).protect = s.protect := rfl
@[simp] theorem State.modQuarter_tiers (n : Nat) (f : Quarter → Quarter) : (s.modQuarter n f).tiers = s.tiers := rfl
@[simp] theorem State.modQuarter_flash (n : Nat) (f : Quarter → Quarter) : (s.modQuarter n f).flash = s.flash := rfl
@[simp] theorem State.modQuarter_net (n : Nat) (f : Quarter → Quarter) : (s.modQuarter n f).net = s.net := rfl
@[simp] theorem State.modQuarter_security (n : Nat) (f : Quarter → Quarter) : (s.modQuarter n f).security = s.security := rfl
@[simp] theorem State.modQuarter_sideband (n : Nat) (f : Quarter → Quarter) : (s.modQuarter n f).sideband = s.sideband := rfl
@[simp] theorem State.modQuarter_logs (n : Nat) (f : Quarter → Quarter) : (s.modQuarter n f).logs = s.logs := rfl
@[simp] theorem State.modQuarter_features (n : Nat) (f : Quarter → Quarter) : (s.modQuarter n f).features = s.features := rfl
@[simp] theorem State.modQuarter_free (n : Nat) (f : Quarter → Quarter) : (s.modQuarter n f).free = s.free := rfl

@[simp] theorem State.modIsland_time (n : Nat) (f : Island → Island) : (s.modIsland n f).time = s.time := rfl
@[simp] theorem State.modIsland_power (n : Nat) (f : Island → Island) : (s.modIsland n f).power = s.power := rfl
@[simp] theorem State.modIsland_islands (n : Nat) (f : Island → Island) : (s.modIsland n f).islands = Tab.modify s.islands n {} f := rfl
@[simp] theorem State.modIsland_crossings (n : Nat) (f : Island → Island) : (s.modIsland n f).crossings = s.crossings := rfl
@[simp] theorem State.modIsland_sensors (n : Nat) (f : Island → Island) : (s.modIsland n f).sensors = s.sensors := rfl
@[simp] theorem State.modIsland_port0 (n : Nat) (f : Island → Island) : (s.modIsland n f).port0 = s.port0 := rfl
@[simp] theorem State.modIsland_port1 (n : Nat) (f : Island → Island) : (s.modIsland n f).port1 = s.port1 := rfl
@[simp] theorem State.modIsland_cmds (n : Nat) (f : Island → Island) : (s.modIsland n f).cmds = s.cmds := rfl
@[simp] theorem State.modIsland_nextCmd (n : Nat) (f : Island → Island) : (s.modIsland n f).nextCmd = s.nextCmd := rfl
@[simp] theorem State.modIsland_bucket (n : Nat) (f : Island → Island) : (s.modIsland n f).bucket = s.bucket := rfl
@[simp] theorem State.modIsland_colls (n : Nat) (f : Island → Island) : (s.modIsland n f).colls = s.colls := rfl
@[simp] theorem State.modIsland_gens (n : Nat) (f : Island → Island) : (s.modIsland n f).gens = s.gens := rfl
@[simp] theorem State.modIsland_arrivals (n : Nat) (f : Island → Island) : (s.modIsland n f).arrivals = s.arrivals := rfl
@[simp] theorem State.modIsland_coarseLevels (n : Nat) (f : Island → Island) : (s.modIsland n f).coarseLevels = s.coarseLevels := rfl
@[simp] theorem State.modIsland_batches (n : Nat) (f : Island → Island) : (s.modIsland n f).batches = s.batches := rfl
@[simp] theorem State.modIsland_nextBatch (n : Nat) (f : Island → Island) : (s.modIsland n f).nextBatch = s.nextBatch := rfl
@[simp] theorem State.modIsland_cores (n : Nat) (f : Island → Island) : (s.modIsland n f).cores = s.cores := rfl
@[simp] theorem State.modIsland_quarters (n : Nat) (f : Island → Island) : (s.modIsland n f).quarters = s.quarters := rfl
@[simp] theorem State.modIsland_scheds (n : Nat) (f : Island → Island) : (s.modIsland n f).scheds = s.scheds := rfl
@[simp] theorem State.modIsland_runs (n : Nat) (f : Island → Island) : (s.modIsland n f).runs = s.runs := rfl
@[simp] theorem State.modIsland_nextRun (n : Nat) (f : Island → Island) : (s.modIsland n f).nextRun = s.nextRun := rfl
@[simp] theorem State.modIsland_streams (n : Nat) (f : Island → Island) : (s.modIsland n f).streams = s.streams := rfl
@[simp] theorem State.modIsland_engines (n : Nat) (f : Island → Island) : (s.modIsland n f).engines = s.engines := rfl
@[simp] theorem State.modIsland_pieces (n : Nat) (f : Island → Island) : (s.modIsland n f).pieces = s.pieces := rfl
@[simp] theorem State.modIsland_nextPiece (n : Nat) (f : Island → Island) : (s.modIsland n f).nextPiece = s.nextPiece := rfl
@[simp] theorem State.modIsland_events (n : Nat) (f : Island → Island) : (s.modIsland n f).events = s.events := rfl
@[simp] theorem State.modIsland_alleys (n : Nat) (f : Island → Island) : (s.modIsland n f).alleys = s.alleys := rfl
@[simp] theorem State.modIsland_localStore (n : Nat) (f : Island → Island) : (s.modIsland n f).localStore = s.localStore := rfl
@[simp] theorem State.modIsland_cache (n : Nat) (f : Island → Island) : (s.modIsland n f).cache = s.cache := rfl
@[simp] theorem State.modIsland_hbm (n : Nat) (f : Island → Island) : (s.modIsland n f).hbm = s.hbm := rfl
@[simp] theorem State.modIsland_protect (n : Nat) (f : Island → Island) : (s.modIsland n f).protect = s.protect := rfl
@[simp] theorem State.modIsland_tiers (n : Nat) (f : Island → Island) : (s.modIsland n f).tiers = s.tiers := rfl
@[simp] theorem State.modIsland_flash (n : Nat) (f : Island → Island) : (s.modIsland n f).flash = s.flash := rfl
@[simp] theorem State.modIsland_net (n : Nat) (f : Island → Island) : (s.modIsland n f).net = s.net := rfl
@[simp] theorem State.modIsland_security (n : Nat) (f : Island → Island) : (s.modIsland n f).security = s.security := rfl
@[simp] theorem State.modIsland_sideband (n : Nat) (f : Island → Island) : (s.modIsland n f).sideband = s.sideband := rfl
@[simp] theorem State.modIsland_logs (n : Nat) (f : Island → Island) : (s.modIsland n f).logs = s.logs := rfl
@[simp] theorem State.modIsland_features (n : Nat) (f : Island → Island) : (s.modIsland n f).features = s.features := rfl
@[simp] theorem State.modIsland_free (n : Nat) (f : Island → Island) : (s.modIsland n f).free = s.free := rfl

@[simp] theorem State.modCrossing_time (n : Nat) (f : Crossing → Crossing) : (s.modCrossing n f).time = s.time := rfl
@[simp] theorem State.modCrossing_power (n : Nat) (f : Crossing → Crossing) : (s.modCrossing n f).power = s.power := rfl
@[simp] theorem State.modCrossing_islands (n : Nat) (f : Crossing → Crossing) : (s.modCrossing n f).islands = s.islands := rfl
@[simp] theorem State.modCrossing_crossings (n : Nat) (f : Crossing → Crossing) : (s.modCrossing n f).crossings = Tab.modify s.crossings n {} f := rfl
@[simp] theorem State.modCrossing_sensors (n : Nat) (f : Crossing → Crossing) : (s.modCrossing n f).sensors = s.sensors := rfl
@[simp] theorem State.modCrossing_port0 (n : Nat) (f : Crossing → Crossing) : (s.modCrossing n f).port0 = s.port0 := rfl
@[simp] theorem State.modCrossing_port1 (n : Nat) (f : Crossing → Crossing) : (s.modCrossing n f).port1 = s.port1 := rfl
@[simp] theorem State.modCrossing_cmds (n : Nat) (f : Crossing → Crossing) : (s.modCrossing n f).cmds = s.cmds := rfl
@[simp] theorem State.modCrossing_nextCmd (n : Nat) (f : Crossing → Crossing) : (s.modCrossing n f).nextCmd = s.nextCmd := rfl
@[simp] theorem State.modCrossing_bucket (n : Nat) (f : Crossing → Crossing) : (s.modCrossing n f).bucket = s.bucket := rfl
@[simp] theorem State.modCrossing_colls (n : Nat) (f : Crossing → Crossing) : (s.modCrossing n f).colls = s.colls := rfl
@[simp] theorem State.modCrossing_gens (n : Nat) (f : Crossing → Crossing) : (s.modCrossing n f).gens = s.gens := rfl
@[simp] theorem State.modCrossing_arrivals (n : Nat) (f : Crossing → Crossing) : (s.modCrossing n f).arrivals = s.arrivals := rfl
@[simp] theorem State.modCrossing_coarseLevels (n : Nat) (f : Crossing → Crossing) : (s.modCrossing n f).coarseLevels = s.coarseLevels := rfl
@[simp] theorem State.modCrossing_batches (n : Nat) (f : Crossing → Crossing) : (s.modCrossing n f).batches = s.batches := rfl
@[simp] theorem State.modCrossing_nextBatch (n : Nat) (f : Crossing → Crossing) : (s.modCrossing n f).nextBatch = s.nextBatch := rfl
@[simp] theorem State.modCrossing_cores (n : Nat) (f : Crossing → Crossing) : (s.modCrossing n f).cores = s.cores := rfl
@[simp] theorem State.modCrossing_quarters (n : Nat) (f : Crossing → Crossing) : (s.modCrossing n f).quarters = s.quarters := rfl
@[simp] theorem State.modCrossing_scheds (n : Nat) (f : Crossing → Crossing) : (s.modCrossing n f).scheds = s.scheds := rfl
@[simp] theorem State.modCrossing_runs (n : Nat) (f : Crossing → Crossing) : (s.modCrossing n f).runs = s.runs := rfl
@[simp] theorem State.modCrossing_nextRun (n : Nat) (f : Crossing → Crossing) : (s.modCrossing n f).nextRun = s.nextRun := rfl
@[simp] theorem State.modCrossing_streams (n : Nat) (f : Crossing → Crossing) : (s.modCrossing n f).streams = s.streams := rfl
@[simp] theorem State.modCrossing_engines (n : Nat) (f : Crossing → Crossing) : (s.modCrossing n f).engines = s.engines := rfl
@[simp] theorem State.modCrossing_pieces (n : Nat) (f : Crossing → Crossing) : (s.modCrossing n f).pieces = s.pieces := rfl
@[simp] theorem State.modCrossing_nextPiece (n : Nat) (f : Crossing → Crossing) : (s.modCrossing n f).nextPiece = s.nextPiece := rfl
@[simp] theorem State.modCrossing_events (n : Nat) (f : Crossing → Crossing) : (s.modCrossing n f).events = s.events := rfl
@[simp] theorem State.modCrossing_alleys (n : Nat) (f : Crossing → Crossing) : (s.modCrossing n f).alleys = s.alleys := rfl
@[simp] theorem State.modCrossing_localStore (n : Nat) (f : Crossing → Crossing) : (s.modCrossing n f).localStore = s.localStore := rfl
@[simp] theorem State.modCrossing_cache (n : Nat) (f : Crossing → Crossing) : (s.modCrossing n f).cache = s.cache := rfl
@[simp] theorem State.modCrossing_hbm (n : Nat) (f : Crossing → Crossing) : (s.modCrossing n f).hbm = s.hbm := rfl
@[simp] theorem State.modCrossing_protect (n : Nat) (f : Crossing → Crossing) : (s.modCrossing n f).protect = s.protect := rfl
@[simp] theorem State.modCrossing_tiers (n : Nat) (f : Crossing → Crossing) : (s.modCrossing n f).tiers = s.tiers := rfl
@[simp] theorem State.modCrossing_flash (n : Nat) (f : Crossing → Crossing) : (s.modCrossing n f).flash = s.flash := rfl
@[simp] theorem State.modCrossing_net (n : Nat) (f : Crossing → Crossing) : (s.modCrossing n f).net = s.net := rfl
@[simp] theorem State.modCrossing_security (n : Nat) (f : Crossing → Crossing) : (s.modCrossing n f).security = s.security := rfl
@[simp] theorem State.modCrossing_sideband (n : Nat) (f : Crossing → Crossing) : (s.modCrossing n f).sideband = s.sideband := rfl
@[simp] theorem State.modCrossing_logs (n : Nat) (f : Crossing → Crossing) : (s.modCrossing n f).logs = s.logs := rfl
@[simp] theorem State.modCrossing_features (n : Nat) (f : Crossing → Crossing) : (s.modCrossing n f).features = s.features := rfl
@[simp] theorem State.modCrossing_free (n : Nat) (f : Crossing → Crossing) : (s.modCrossing n f).free = s.free := rfl

@[simp] theorem State.modSensor_time (n : Nat) (f : Sensor → Sensor) : (s.modSensor n f).time = s.time := rfl
@[simp] theorem State.modSensor_power (n : Nat) (f : Sensor → Sensor) : (s.modSensor n f).power = s.power := rfl
@[simp] theorem State.modSensor_islands (n : Nat) (f : Sensor → Sensor) : (s.modSensor n f).islands = s.islands := rfl
@[simp] theorem State.modSensor_crossings (n : Nat) (f : Sensor → Sensor) : (s.modSensor n f).crossings = s.crossings := rfl
@[simp] theorem State.modSensor_sensors (n : Nat) (f : Sensor → Sensor) : (s.modSensor n f).sensors = Tab.modify s.sensors n {} f := rfl
@[simp] theorem State.modSensor_port0 (n : Nat) (f : Sensor → Sensor) : (s.modSensor n f).port0 = s.port0 := rfl
@[simp] theorem State.modSensor_port1 (n : Nat) (f : Sensor → Sensor) : (s.modSensor n f).port1 = s.port1 := rfl
@[simp] theorem State.modSensor_cmds (n : Nat) (f : Sensor → Sensor) : (s.modSensor n f).cmds = s.cmds := rfl
@[simp] theorem State.modSensor_nextCmd (n : Nat) (f : Sensor → Sensor) : (s.modSensor n f).nextCmd = s.nextCmd := rfl
@[simp] theorem State.modSensor_bucket (n : Nat) (f : Sensor → Sensor) : (s.modSensor n f).bucket = s.bucket := rfl
@[simp] theorem State.modSensor_colls (n : Nat) (f : Sensor → Sensor) : (s.modSensor n f).colls = s.colls := rfl
@[simp] theorem State.modSensor_gens (n : Nat) (f : Sensor → Sensor) : (s.modSensor n f).gens = s.gens := rfl
@[simp] theorem State.modSensor_arrivals (n : Nat) (f : Sensor → Sensor) : (s.modSensor n f).arrivals = s.arrivals := rfl
@[simp] theorem State.modSensor_coarseLevels (n : Nat) (f : Sensor → Sensor) : (s.modSensor n f).coarseLevels = s.coarseLevels := rfl
@[simp] theorem State.modSensor_batches (n : Nat) (f : Sensor → Sensor) : (s.modSensor n f).batches = s.batches := rfl
@[simp] theorem State.modSensor_nextBatch (n : Nat) (f : Sensor → Sensor) : (s.modSensor n f).nextBatch = s.nextBatch := rfl
@[simp] theorem State.modSensor_cores (n : Nat) (f : Sensor → Sensor) : (s.modSensor n f).cores = s.cores := rfl
@[simp] theorem State.modSensor_quarters (n : Nat) (f : Sensor → Sensor) : (s.modSensor n f).quarters = s.quarters := rfl
@[simp] theorem State.modSensor_scheds (n : Nat) (f : Sensor → Sensor) : (s.modSensor n f).scheds = s.scheds := rfl
@[simp] theorem State.modSensor_runs (n : Nat) (f : Sensor → Sensor) : (s.modSensor n f).runs = s.runs := rfl
@[simp] theorem State.modSensor_nextRun (n : Nat) (f : Sensor → Sensor) : (s.modSensor n f).nextRun = s.nextRun := rfl
@[simp] theorem State.modSensor_streams (n : Nat) (f : Sensor → Sensor) : (s.modSensor n f).streams = s.streams := rfl
@[simp] theorem State.modSensor_engines (n : Nat) (f : Sensor → Sensor) : (s.modSensor n f).engines = s.engines := rfl
@[simp] theorem State.modSensor_pieces (n : Nat) (f : Sensor → Sensor) : (s.modSensor n f).pieces = s.pieces := rfl
@[simp] theorem State.modSensor_nextPiece (n : Nat) (f : Sensor → Sensor) : (s.modSensor n f).nextPiece = s.nextPiece := rfl
@[simp] theorem State.modSensor_events (n : Nat) (f : Sensor → Sensor) : (s.modSensor n f).events = s.events := rfl
@[simp] theorem State.modSensor_alleys (n : Nat) (f : Sensor → Sensor) : (s.modSensor n f).alleys = s.alleys := rfl
@[simp] theorem State.modSensor_localStore (n : Nat) (f : Sensor → Sensor) : (s.modSensor n f).localStore = s.localStore := rfl
@[simp] theorem State.modSensor_cache (n : Nat) (f : Sensor → Sensor) : (s.modSensor n f).cache = s.cache := rfl
@[simp] theorem State.modSensor_hbm (n : Nat) (f : Sensor → Sensor) : (s.modSensor n f).hbm = s.hbm := rfl
@[simp] theorem State.modSensor_protect (n : Nat) (f : Sensor → Sensor) : (s.modSensor n f).protect = s.protect := rfl
@[simp] theorem State.modSensor_tiers (n : Nat) (f : Sensor → Sensor) : (s.modSensor n f).tiers = s.tiers := rfl
@[simp] theorem State.modSensor_flash (n : Nat) (f : Sensor → Sensor) : (s.modSensor n f).flash = s.flash := rfl
@[simp] theorem State.modSensor_net (n : Nat) (f : Sensor → Sensor) : (s.modSensor n f).net = s.net := rfl
@[simp] theorem State.modSensor_security (n : Nat) (f : Sensor → Sensor) : (s.modSensor n f).security = s.security := rfl
@[simp] theorem State.modSensor_sideband (n : Nat) (f : Sensor → Sensor) : (s.modSensor n f).sideband = s.sideband := rfl
@[simp] theorem State.modSensor_logs (n : Nat) (f : Sensor → Sensor) : (s.modSensor n f).logs = s.logs := rfl
@[simp] theorem State.modSensor_features (n : Nat) (f : Sensor → Sensor) : (s.modSensor n f).features = s.features := rfl
@[simp] theorem State.modSensor_free (n : Nat) (f : Sensor → Sensor) : (s.modSensor n f).free = s.free := rfl

@[simp] theorem State.modEngine_time (n : Nat) (f : Engine → Engine) : (s.modEngine n f).time = s.time := rfl
@[simp] theorem State.modEngine_power (n : Nat) (f : Engine → Engine) : (s.modEngine n f).power = s.power := rfl
@[simp] theorem State.modEngine_islands (n : Nat) (f : Engine → Engine) : (s.modEngine n f).islands = s.islands := rfl
@[simp] theorem State.modEngine_crossings (n : Nat) (f : Engine → Engine) : (s.modEngine n f).crossings = s.crossings := rfl
@[simp] theorem State.modEngine_sensors (n : Nat) (f : Engine → Engine) : (s.modEngine n f).sensors = s.sensors := rfl
@[simp] theorem State.modEngine_port0 (n : Nat) (f : Engine → Engine) : (s.modEngine n f).port0 = s.port0 := rfl
@[simp] theorem State.modEngine_port1 (n : Nat) (f : Engine → Engine) : (s.modEngine n f).port1 = s.port1 := rfl
@[simp] theorem State.modEngine_cmds (n : Nat) (f : Engine → Engine) : (s.modEngine n f).cmds = s.cmds := rfl
@[simp] theorem State.modEngine_nextCmd (n : Nat) (f : Engine → Engine) : (s.modEngine n f).nextCmd = s.nextCmd := rfl
@[simp] theorem State.modEngine_bucket (n : Nat) (f : Engine → Engine) : (s.modEngine n f).bucket = s.bucket := rfl
@[simp] theorem State.modEngine_colls (n : Nat) (f : Engine → Engine) : (s.modEngine n f).colls = s.colls := rfl
@[simp] theorem State.modEngine_gens (n : Nat) (f : Engine → Engine) : (s.modEngine n f).gens = s.gens := rfl
@[simp] theorem State.modEngine_arrivals (n : Nat) (f : Engine → Engine) : (s.modEngine n f).arrivals = s.arrivals := rfl
@[simp] theorem State.modEngine_coarseLevels (n : Nat) (f : Engine → Engine) : (s.modEngine n f).coarseLevels = s.coarseLevels := rfl
@[simp] theorem State.modEngine_batches (n : Nat) (f : Engine → Engine) : (s.modEngine n f).batches = s.batches := rfl
@[simp] theorem State.modEngine_nextBatch (n : Nat) (f : Engine → Engine) : (s.modEngine n f).nextBatch = s.nextBatch := rfl
@[simp] theorem State.modEngine_cores (n : Nat) (f : Engine → Engine) : (s.modEngine n f).cores = s.cores := rfl
@[simp] theorem State.modEngine_quarters (n : Nat) (f : Engine → Engine) : (s.modEngine n f).quarters = s.quarters := rfl
@[simp] theorem State.modEngine_scheds (n : Nat) (f : Engine → Engine) : (s.modEngine n f).scheds = s.scheds := rfl
@[simp] theorem State.modEngine_runs (n : Nat) (f : Engine → Engine) : (s.modEngine n f).runs = s.runs := rfl
@[simp] theorem State.modEngine_nextRun (n : Nat) (f : Engine → Engine) : (s.modEngine n f).nextRun = s.nextRun := rfl
@[simp] theorem State.modEngine_streams (n : Nat) (f : Engine → Engine) : (s.modEngine n f).streams = s.streams := rfl
@[simp] theorem State.modEngine_engines (n : Nat) (f : Engine → Engine) : (s.modEngine n f).engines = Tab.modify s.engines n {} f := rfl
@[simp] theorem State.modEngine_pieces (n : Nat) (f : Engine → Engine) : (s.modEngine n f).pieces = s.pieces := rfl
@[simp] theorem State.modEngine_nextPiece (n : Nat) (f : Engine → Engine) : (s.modEngine n f).nextPiece = s.nextPiece := rfl
@[simp] theorem State.modEngine_events (n : Nat) (f : Engine → Engine) : (s.modEngine n f).events = s.events := rfl
@[simp] theorem State.modEngine_alleys (n : Nat) (f : Engine → Engine) : (s.modEngine n f).alleys = s.alleys := rfl
@[simp] theorem State.modEngine_localStore (n : Nat) (f : Engine → Engine) : (s.modEngine n f).localStore = s.localStore := rfl
@[simp] theorem State.modEngine_cache (n : Nat) (f : Engine → Engine) : (s.modEngine n f).cache = s.cache := rfl
@[simp] theorem State.modEngine_hbm (n : Nat) (f : Engine → Engine) : (s.modEngine n f).hbm = s.hbm := rfl
@[simp] theorem State.modEngine_protect (n : Nat) (f : Engine → Engine) : (s.modEngine n f).protect = s.protect := rfl
@[simp] theorem State.modEngine_tiers (n : Nat) (f : Engine → Engine) : (s.modEngine n f).tiers = s.tiers := rfl
@[simp] theorem State.modEngine_flash (n : Nat) (f : Engine → Engine) : (s.modEngine n f).flash = s.flash := rfl
@[simp] theorem State.modEngine_net (n : Nat) (f : Engine → Engine) : (s.modEngine n f).net = s.net := rfl
@[simp] theorem State.modEngine_security (n : Nat) (f : Engine → Engine) : (s.modEngine n f).security = s.security := rfl
@[simp] theorem State.modEngine_sideband (n : Nat) (f : Engine → Engine) : (s.modEngine n f).sideband = s.sideband := rfl
@[simp] theorem State.modEngine_logs (n : Nat) (f : Engine → Engine) : (s.modEngine n f).logs = s.logs := rfl
@[simp] theorem State.modEngine_features (n : Nat) (f : Engine → Engine) : (s.modEngine n f).features = s.features := rfl
@[simp] theorem State.modEngine_free (n : Nat) (f : Engine → Engine) : (s.modEngine n f).free = s.free := rfl

@[simp] theorem State.modStream_time (q n : Nat) (f : Stream → Stream) : (s.modStream q n f).time = s.time := rfl
@[simp] theorem State.modStream_power (q n : Nat) (f : Stream → Stream) : (s.modStream q n f).power = s.power := rfl
@[simp] theorem State.modStream_islands (q n : Nat) (f : Stream → Stream) : (s.modStream q n f).islands = s.islands := rfl
@[simp] theorem State.modStream_crossings (q n : Nat) (f : Stream → Stream) : (s.modStream q n f).crossings = s.crossings := rfl
@[simp] theorem State.modStream_sensors (q n : Nat) (f : Stream → Stream) : (s.modStream q n f).sensors = s.sensors := rfl
@[simp] theorem State.modStream_port0 (q n : Nat) (f : Stream → Stream) : (s.modStream q n f).port0 = s.port0 := rfl
@[simp] theorem State.modStream_port1 (q n : Nat) (f : Stream → Stream) : (s.modStream q n f).port1 = s.port1 := rfl
@[simp] theorem State.modStream_cmds (q n : Nat) (f : Stream → Stream) : (s.modStream q n f).cmds = s.cmds := rfl
@[simp] theorem State.modStream_nextCmd (q n : Nat) (f : Stream → Stream) : (s.modStream q n f).nextCmd = s.nextCmd := rfl
@[simp] theorem State.modStream_bucket (q n : Nat) (f : Stream → Stream) : (s.modStream q n f).bucket = s.bucket := rfl
@[simp] theorem State.modStream_colls (q n : Nat) (f : Stream → Stream) : (s.modStream q n f).colls = s.colls := rfl
@[simp] theorem State.modStream_gens (q n : Nat) (f : Stream → Stream) : (s.modStream q n f).gens = s.gens := rfl
@[simp] theorem State.modStream_arrivals (q n : Nat) (f : Stream → Stream) : (s.modStream q n f).arrivals = s.arrivals := rfl
@[simp] theorem State.modStream_coarseLevels (q n : Nat) (f : Stream → Stream) : (s.modStream q n f).coarseLevels = s.coarseLevels := rfl
@[simp] theorem State.modStream_batches (q n : Nat) (f : Stream → Stream) : (s.modStream q n f).batches = s.batches := rfl
@[simp] theorem State.modStream_nextBatch (q n : Nat) (f : Stream → Stream) : (s.modStream q n f).nextBatch = s.nextBatch := rfl
@[simp] theorem State.modStream_cores (q n : Nat) (f : Stream → Stream) : (s.modStream q n f).cores = s.cores := rfl
@[simp] theorem State.modStream_quarters (q n : Nat) (f : Stream → Stream) : (s.modStream q n f).quarters = s.quarters := rfl
@[simp] theorem State.modStream_scheds (q n : Nat) (f : Stream → Stream) : (s.modStream q n f).scheds = s.scheds := rfl
@[simp] theorem State.modStream_runs (q n : Nat) (f : Stream → Stream) : (s.modStream q n f).runs = s.runs := rfl
@[simp] theorem State.modStream_nextRun (q n : Nat) (f : Stream → Stream) : (s.modStream q n f).nextRun = s.nextRun := rfl
@[simp] theorem State.modStream_streams (q n : Nat) (f : Stream → Stream) : (s.modStream q n f).streams = Tab.modify s.streams (q * 16 + n) {} f := rfl
@[simp] theorem State.modStream_engines (q n : Nat) (f : Stream → Stream) : (s.modStream q n f).engines = s.engines := rfl
@[simp] theorem State.modStream_pieces (q n : Nat) (f : Stream → Stream) : (s.modStream q n f).pieces = s.pieces := rfl
@[simp] theorem State.modStream_nextPiece (q n : Nat) (f : Stream → Stream) : (s.modStream q n f).nextPiece = s.nextPiece := rfl
@[simp] theorem State.modStream_events (q n : Nat) (f : Stream → Stream) : (s.modStream q n f).events = s.events := rfl
@[simp] theorem State.modStream_alleys (q n : Nat) (f : Stream → Stream) : (s.modStream q n f).alleys = s.alleys := rfl
@[simp] theorem State.modStream_localStore (q n : Nat) (f : Stream → Stream) : (s.modStream q n f).localStore = s.localStore := rfl
@[simp] theorem State.modStream_cache (q n : Nat) (f : Stream → Stream) : (s.modStream q n f).cache = s.cache := rfl
@[simp] theorem State.modStream_hbm (q n : Nat) (f : Stream → Stream) : (s.modStream q n f).hbm = s.hbm := rfl
@[simp] theorem State.modStream_protect (q n : Nat) (f : Stream → Stream) : (s.modStream q n f).protect = s.protect := rfl
@[simp] theorem State.modStream_tiers (q n : Nat) (f : Stream → Stream) : (s.modStream q n f).tiers = s.tiers := rfl
@[simp] theorem State.modStream_flash (q n : Nat) (f : Stream → Stream) : (s.modStream q n f).flash = s.flash := rfl
@[simp] theorem State.modStream_net (q n : Nat) (f : Stream → Stream) : (s.modStream q n f).net = s.net := rfl
@[simp] theorem State.modStream_security (q n : Nat) (f : Stream → Stream) : (s.modStream q n f).security = s.security := rfl
@[simp] theorem State.modStream_sideband (q n : Nat) (f : Stream → Stream) : (s.modStream q n f).sideband = s.sideband := rfl
@[simp] theorem State.modStream_logs (q n : Nat) (f : Stream → Stream) : (s.modStream q n f).logs = s.logs := rfl
@[simp] theorem State.modStream_features (q n : Nat) (f : Stream → Stream) : (s.modStream q n f).features = s.features := rfl
@[simp] theorem State.modStream_free (q n : Nat) (f : Stream → Stream) : (s.modStream q n f).free = s.free := rfl

@[simp] theorem State.modLink_time (n : Nat) (f : Link → Link) : (s.modLink n f).time = s.time := rfl
@[simp] theorem State.modLink_power (n : Nat) (f : Link → Link) : (s.modLink n f).power = s.power := rfl
@[simp] theorem State.modLink_islands (n : Nat) (f : Link → Link) : (s.modLink n f).islands = s.islands := rfl
@[simp] theorem State.modLink_crossings (n : Nat) (f : Link → Link) : (s.modLink n f).crossings = s.crossings := rfl
@[simp] theorem State.modLink_sensors (n : Nat) (f : Link → Link) : (s.modLink n f).sensors = s.sensors := rfl
@[simp] theorem State.modLink_port0 (n : Nat) (f : Link → Link) : (s.modLink n f).port0 = s.port0 := rfl
@[simp] theorem State.modLink_port1 (n : Nat) (f : Link → Link) : (s.modLink n f).port1 = s.port1 := rfl
@[simp] theorem State.modLink_cmds (n : Nat) (f : Link → Link) : (s.modLink n f).cmds = s.cmds := rfl
@[simp] theorem State.modLink_nextCmd (n : Nat) (f : Link → Link) : (s.modLink n f).nextCmd = s.nextCmd := rfl
@[simp] theorem State.modLink_bucket (n : Nat) (f : Link → Link) : (s.modLink n f).bucket = s.bucket := rfl
@[simp] theorem State.modLink_colls (n : Nat) (f : Link → Link) : (s.modLink n f).colls = s.colls := rfl
@[simp] theorem State.modLink_gens (n : Nat) (f : Link → Link) : (s.modLink n f).gens = s.gens := rfl
@[simp] theorem State.modLink_arrivals (n : Nat) (f : Link → Link) : (s.modLink n f).arrivals = s.arrivals := rfl
@[simp] theorem State.modLink_coarseLevels (n : Nat) (f : Link → Link) : (s.modLink n f).coarseLevels = s.coarseLevels := rfl
@[simp] theorem State.modLink_batches (n : Nat) (f : Link → Link) : (s.modLink n f).batches = s.batches := rfl
@[simp] theorem State.modLink_nextBatch (n : Nat) (f : Link → Link) : (s.modLink n f).nextBatch = s.nextBatch := rfl
@[simp] theorem State.modLink_cores (n : Nat) (f : Link → Link) : (s.modLink n f).cores = s.cores := rfl
@[simp] theorem State.modLink_quarters (n : Nat) (f : Link → Link) : (s.modLink n f).quarters = s.quarters := rfl
@[simp] theorem State.modLink_scheds (n : Nat) (f : Link → Link) : (s.modLink n f).scheds = s.scheds := rfl
@[simp] theorem State.modLink_runs (n : Nat) (f : Link → Link) : (s.modLink n f).runs = s.runs := rfl
@[simp] theorem State.modLink_nextRun (n : Nat) (f : Link → Link) : (s.modLink n f).nextRun = s.nextRun := rfl
@[simp] theorem State.modLink_streams (n : Nat) (f : Link → Link) : (s.modLink n f).streams = s.streams := rfl
@[simp] theorem State.modLink_engines (n : Nat) (f : Link → Link) : (s.modLink n f).engines = s.engines := rfl
@[simp] theorem State.modLink_pieces (n : Nat) (f : Link → Link) : (s.modLink n f).pieces = s.pieces := rfl
@[simp] theorem State.modLink_nextPiece (n : Nat) (f : Link → Link) : (s.modLink n f).nextPiece = s.nextPiece := rfl
@[simp] theorem State.modLink_events (n : Nat) (f : Link → Link) : (s.modLink n f).events = s.events := rfl
@[simp] theorem State.modLink_alleys (n : Nat) (f : Link → Link) : (s.modLink n f).alleys = s.alleys := rfl
@[simp] theorem State.modLink_localStore (n : Nat) (f : Link → Link) : (s.modLink n f).localStore = s.localStore := rfl
@[simp] theorem State.modLink_cache (n : Nat) (f : Link → Link) : (s.modLink n f).cache = s.cache := rfl
@[simp] theorem State.modLink_hbm (n : Nat) (f : Link → Link) : (s.modLink n f).hbm = s.hbm := rfl
@[simp] theorem State.modLink_protect (n : Nat) (f : Link → Link) : (s.modLink n f).protect = s.protect := rfl
@[simp] theorem State.modLink_tiers (n : Nat) (f : Link → Link) : (s.modLink n f).tiers = s.tiers := rfl
@[simp] theorem State.modLink_flash (n : Nat) (f : Link → Link) : (s.modLink n f).flash = s.flash := rfl
@[simp] theorem State.modLink_net (n : Nat) (f : Link → Link) : (s.modLink n f).net = { s.net with links := Tab.modify s.net.links n {} f } := rfl
@[simp] theorem State.modLink_security (n : Nat) (f : Link → Link) : (s.modLink n f).security = s.security := rfl
@[simp] theorem State.modLink_sideband (n : Nat) (f : Link → Link) : (s.modLink n f).sideband = s.sideband := rfl
@[simp] theorem State.modLink_logs (n : Nat) (f : Link → Link) : (s.modLink n f).logs = s.logs := rfl
@[simp] theorem State.modLink_features (n : Nat) (f : Link → Link) : (s.modLink n f).features = s.features := rfl
@[simp] theorem State.modLink_free (n : Nat) (f : Link → Link) : (s.modLink n f).free = s.free := rfl

@[simp] theorem State.modChan_time (n : Nat) (f : Channel → Channel) : (s.modChan n f).time = s.time := rfl
@[simp] theorem State.modChan_power (n : Nat) (f : Channel → Channel) : (s.modChan n f).power = s.power := rfl
@[simp] theorem State.modChan_islands (n : Nat) (f : Channel → Channel) : (s.modChan n f).islands = s.islands := rfl
@[simp] theorem State.modChan_crossings (n : Nat) (f : Channel → Channel) : (s.modChan n f).crossings = s.crossings := rfl
@[simp] theorem State.modChan_sensors (n : Nat) (f : Channel → Channel) : (s.modChan n f).sensors = s.sensors := rfl
@[simp] theorem State.modChan_port0 (n : Nat) (f : Channel → Channel) : (s.modChan n f).port0 = s.port0 := rfl
@[simp] theorem State.modChan_port1 (n : Nat) (f : Channel → Channel) : (s.modChan n f).port1 = s.port1 := rfl
@[simp] theorem State.modChan_cmds (n : Nat) (f : Channel → Channel) : (s.modChan n f).cmds = s.cmds := rfl
@[simp] theorem State.modChan_nextCmd (n : Nat) (f : Channel → Channel) : (s.modChan n f).nextCmd = s.nextCmd := rfl
@[simp] theorem State.modChan_bucket (n : Nat) (f : Channel → Channel) : (s.modChan n f).bucket = s.bucket := rfl
@[simp] theorem State.modChan_colls (n : Nat) (f : Channel → Channel) : (s.modChan n f).colls = s.colls := rfl
@[simp] theorem State.modChan_gens (n : Nat) (f : Channel → Channel) : (s.modChan n f).gens = s.gens := rfl
@[simp] theorem State.modChan_arrivals (n : Nat) (f : Channel → Channel) : (s.modChan n f).arrivals = s.arrivals := rfl
@[simp] theorem State.modChan_coarseLevels (n : Nat) (f : Channel → Channel) : (s.modChan n f).coarseLevels = s.coarseLevels := rfl
@[simp] theorem State.modChan_batches (n : Nat) (f : Channel → Channel) : (s.modChan n f).batches = s.batches := rfl
@[simp] theorem State.modChan_nextBatch (n : Nat) (f : Channel → Channel) : (s.modChan n f).nextBatch = s.nextBatch := rfl
@[simp] theorem State.modChan_cores (n : Nat) (f : Channel → Channel) : (s.modChan n f).cores = s.cores := rfl
@[simp] theorem State.modChan_quarters (n : Nat) (f : Channel → Channel) : (s.modChan n f).quarters = s.quarters := rfl
@[simp] theorem State.modChan_scheds (n : Nat) (f : Channel → Channel) : (s.modChan n f).scheds = s.scheds := rfl
@[simp] theorem State.modChan_runs (n : Nat) (f : Channel → Channel) : (s.modChan n f).runs = s.runs := rfl
@[simp] theorem State.modChan_nextRun (n : Nat) (f : Channel → Channel) : (s.modChan n f).nextRun = s.nextRun := rfl
@[simp] theorem State.modChan_streams (n : Nat) (f : Channel → Channel) : (s.modChan n f).streams = s.streams := rfl
@[simp] theorem State.modChan_engines (n : Nat) (f : Channel → Channel) : (s.modChan n f).engines = s.engines := rfl
@[simp] theorem State.modChan_pieces (n : Nat) (f : Channel → Channel) : (s.modChan n f).pieces = s.pieces := rfl
@[simp] theorem State.modChan_nextPiece (n : Nat) (f : Channel → Channel) : (s.modChan n f).nextPiece = s.nextPiece := rfl
@[simp] theorem State.modChan_events (n : Nat) (f : Channel → Channel) : (s.modChan n f).events = s.events := rfl
@[simp] theorem State.modChan_alleys (n : Nat) (f : Channel → Channel) : (s.modChan n f).alleys = s.alleys := rfl
@[simp] theorem State.modChan_localStore (n : Nat) (f : Channel → Channel) : (s.modChan n f).localStore = s.localStore := rfl
@[simp] theorem State.modChan_cache (n : Nat) (f : Channel → Channel) : (s.modChan n f).cache = s.cache := rfl
@[simp] theorem State.modChan_hbm (n : Nat) (f : Channel → Channel) : (s.modChan n f).hbm = { s.hbm with channels := Tab.modify s.hbm.channels n {} f } := rfl
@[simp] theorem State.modChan_protect (n : Nat) (f : Channel → Channel) : (s.modChan n f).protect = s.protect := rfl
@[simp] theorem State.modChan_tiers (n : Nat) (f : Channel → Channel) : (s.modChan n f).tiers = s.tiers := rfl
@[simp] theorem State.modChan_flash (n : Nat) (f : Channel → Channel) : (s.modChan n f).flash = s.flash := rfl
@[simp] theorem State.modChan_net (n : Nat) (f : Channel → Channel) : (s.modChan n f).net = s.net := rfl
@[simp] theorem State.modChan_security (n : Nat) (f : Channel → Channel) : (s.modChan n f).security = s.security := rfl
@[simp] theorem State.modChan_sideband (n : Nat) (f : Channel → Channel) : (s.modChan n f).sideband = s.sideband := rfl
@[simp] theorem State.modChan_logs (n : Nat) (f : Channel → Channel) : (s.modChan n f).logs = s.logs := rfl
@[simp] theorem State.modChan_features (n : Nat) (f : Channel → Channel) : (s.modChan n f).features = s.features := rfl
@[simp] theorem State.modChan_free (n : Nat) (f : Channel → Channel) : (s.modChan n f).free = s.free := rfl

@[simp] theorem State.useFree_time : (s.useFree).time = s.time := rfl
@[simp] theorem State.useFree_power : (s.useFree).power = s.power := rfl
@[simp] theorem State.useFree_islands : (s.useFree).islands = s.islands := rfl
@[simp] theorem State.useFree_crossings : (s.useFree).crossings = s.crossings := rfl
@[simp] theorem State.useFree_sensors : (s.useFree).sensors = s.sensors := rfl
@[simp] theorem State.useFree_port0 : (s.useFree).port0 = s.port0 := rfl
@[simp] theorem State.useFree_port1 : (s.useFree).port1 = s.port1 := rfl
@[simp] theorem State.useFree_cmds : (s.useFree).cmds = s.cmds := rfl
@[simp] theorem State.useFree_nextCmd : (s.useFree).nextCmd = s.nextCmd := rfl
@[simp] theorem State.useFree_bucket : (s.useFree).bucket = s.bucket := rfl
@[simp] theorem State.useFree_colls : (s.useFree).colls = s.colls := rfl
@[simp] theorem State.useFree_gens : (s.useFree).gens = s.gens := rfl
@[simp] theorem State.useFree_arrivals : (s.useFree).arrivals = s.arrivals := rfl
@[simp] theorem State.useFree_coarseLevels : (s.useFree).coarseLevels = s.coarseLevels := rfl
@[simp] theorem State.useFree_batches : (s.useFree).batches = s.batches := rfl
@[simp] theorem State.useFree_nextBatch : (s.useFree).nextBatch = s.nextBatch := rfl
@[simp] theorem State.useFree_cores : (s.useFree).cores = s.cores := rfl
@[simp] theorem State.useFree_quarters : (s.useFree).quarters = s.quarters := rfl
@[simp] theorem State.useFree_scheds : (s.useFree).scheds = s.scheds := rfl
@[simp] theorem State.useFree_runs : (s.useFree).runs = s.runs := rfl
@[simp] theorem State.useFree_nextRun : (s.useFree).nextRun = s.nextRun := rfl
@[simp] theorem State.useFree_streams : (s.useFree).streams = s.streams := rfl
@[simp] theorem State.useFree_engines : (s.useFree).engines = s.engines := rfl
@[simp] theorem State.useFree_pieces : (s.useFree).pieces = s.pieces := rfl
@[simp] theorem State.useFree_nextPiece : (s.useFree).nextPiece = s.nextPiece := rfl
@[simp] theorem State.useFree_events : (s.useFree).events = s.events := rfl
@[simp] theorem State.useFree_alleys : (s.useFree).alleys = s.alleys := rfl
@[simp] theorem State.useFree_localStore : (s.useFree).localStore = s.localStore := rfl
@[simp] theorem State.useFree_cache : (s.useFree).cache = s.cache := rfl
@[simp] theorem State.useFree_hbm : (s.useFree).hbm = s.hbm := rfl
@[simp] theorem State.useFree_protect : (s.useFree).protect = s.protect := rfl
@[simp] theorem State.useFree_tiers : (s.useFree).tiers = s.tiers := rfl
@[simp] theorem State.useFree_flash : (s.useFree).flash = s.flash := rfl
@[simp] theorem State.useFree_net : (s.useFree).net = s.net := rfl
@[simp] theorem State.useFree_security : (s.useFree).security = s.security := rfl
@[simp] theorem State.useFree_sideband : (s.useFree).sideband = s.sideband := rfl
@[simp] theorem State.useFree_logs : (s.useFree).logs = s.logs := rfl
@[simp] theorem State.useFree_features : (s.useFree).features = s.features := rfl
@[simp] theorem State.useFree_free : (s.useFree).free = s.free + 1 := rfl

@[simp] theorem State.modPort_time (p : PortId) (f : Port → Port) : (s.modPort p f).time = s.time := by cases p <;> rfl
@[simp] theorem State.modPort_power (p : PortId) (f : Port → Port) : (s.modPort p f).power = s.power := by cases p <;> rfl
@[simp] theorem State.modPort_islands (p : PortId) (f : Port → Port) : (s.modPort p f).islands = s.islands := by cases p <;> rfl
@[simp] theorem State.modPort_crossings (p : PortId) (f : Port → Port) : (s.modPort p f).crossings = s.crossings := by cases p <;> rfl
@[simp] theorem State.modPort_sensors (p : PortId) (f : Port → Port) : (s.modPort p f).sensors = s.sensors := by cases p <;> rfl
@[simp] theorem State.modPort_cmds (p : PortId) (f : Port → Port) : (s.modPort p f).cmds = s.cmds := by cases p <;> rfl
@[simp] theorem State.modPort_nextCmd (p : PortId) (f : Port → Port) : (s.modPort p f).nextCmd = s.nextCmd := by cases p <;> rfl
@[simp] theorem State.modPort_bucket (p : PortId) (f : Port → Port) : (s.modPort p f).bucket = s.bucket := by cases p <;> rfl
@[simp] theorem State.modPort_colls (p : PortId) (f : Port → Port) : (s.modPort p f).colls = s.colls := by cases p <;> rfl
@[simp] theorem State.modPort_gens (p : PortId) (f : Port → Port) : (s.modPort p f).gens = s.gens := by cases p <;> rfl
@[simp] theorem State.modPort_arrivals (p : PortId) (f : Port → Port) : (s.modPort p f).arrivals = s.arrivals := by cases p <;> rfl
@[simp] theorem State.modPort_coarseLevels (p : PortId) (f : Port → Port) : (s.modPort p f).coarseLevels = s.coarseLevels := by cases p <;> rfl
@[simp] theorem State.modPort_batches (p : PortId) (f : Port → Port) : (s.modPort p f).batches = s.batches := by cases p <;> rfl
@[simp] theorem State.modPort_nextBatch (p : PortId) (f : Port → Port) : (s.modPort p f).nextBatch = s.nextBatch := by cases p <;> rfl
@[simp] theorem State.modPort_cores (p : PortId) (f : Port → Port) : (s.modPort p f).cores = s.cores := by cases p <;> rfl
@[simp] theorem State.modPort_quarters (p : PortId) (f : Port → Port) : (s.modPort p f).quarters = s.quarters := by cases p <;> rfl
@[simp] theorem State.modPort_scheds (p : PortId) (f : Port → Port) : (s.modPort p f).scheds = s.scheds := by cases p <;> rfl
@[simp] theorem State.modPort_runs (p : PortId) (f : Port → Port) : (s.modPort p f).runs = s.runs := by cases p <;> rfl
@[simp] theorem State.modPort_nextRun (p : PortId) (f : Port → Port) : (s.modPort p f).nextRun = s.nextRun := by cases p <;> rfl
@[simp] theorem State.modPort_streams (p : PortId) (f : Port → Port) : (s.modPort p f).streams = s.streams := by cases p <;> rfl
@[simp] theorem State.modPort_engines (p : PortId) (f : Port → Port) : (s.modPort p f).engines = s.engines := by cases p <;> rfl
@[simp] theorem State.modPort_pieces (p : PortId) (f : Port → Port) : (s.modPort p f).pieces = s.pieces := by cases p <;> rfl
@[simp] theorem State.modPort_nextPiece (p : PortId) (f : Port → Port) : (s.modPort p f).nextPiece = s.nextPiece := by cases p <;> rfl
@[simp] theorem State.modPort_events (p : PortId) (f : Port → Port) : (s.modPort p f).events = s.events := by cases p <;> rfl
@[simp] theorem State.modPort_alleys (p : PortId) (f : Port → Port) : (s.modPort p f).alleys = s.alleys := by cases p <;> rfl
@[simp] theorem State.modPort_localStore (p : PortId) (f : Port → Port) : (s.modPort p f).localStore = s.localStore := by cases p <;> rfl
@[simp] theorem State.modPort_cache (p : PortId) (f : Port → Port) : (s.modPort p f).cache = s.cache := by cases p <;> rfl
@[simp] theorem State.modPort_hbm (p : PortId) (f : Port → Port) : (s.modPort p f).hbm = s.hbm := by cases p <;> rfl
@[simp] theorem State.modPort_protect (p : PortId) (f : Port → Port) : (s.modPort p f).protect = s.protect := by cases p <;> rfl
@[simp] theorem State.modPort_tiers (p : PortId) (f : Port → Port) : (s.modPort p f).tiers = s.tiers := by cases p <;> rfl
@[simp] theorem State.modPort_flash (p : PortId) (f : Port → Port) : (s.modPort p f).flash = s.flash := by cases p <;> rfl
@[simp] theorem State.modPort_net (p : PortId) (f : Port → Port) : (s.modPort p f).net = s.net := by cases p <;> rfl
@[simp] theorem State.modPort_security (p : PortId) (f : Port → Port) : (s.modPort p f).security = s.security := by cases p <;> rfl
@[simp] theorem State.modPort_sideband (p : PortId) (f : Port → Port) : (s.modPort p f).sideband = s.sideband := by cases p <;> rfl
@[simp] theorem State.modPort_logs (p : PortId) (f : Port → Port) : (s.modPort p f).logs = s.logs := by cases p <;> rfl
@[simp] theorem State.modPort_features (p : PortId) (f : Port → Port) : (s.modPort p f).features = s.features := by cases p <;> rfl
@[simp] theorem State.modPort_free (p : PortId) (f : Port → Port) : (s.modPort p f).free = s.free := by cases p <;> rfl

@[simp] theorem State.modPair_time (p : PortId) (q : Nat) (f : QueuePair → QueuePair) : (s.modPair p q f).time = s.time := by cases p <;> rfl
@[simp] theorem State.modPair_power (p : PortId) (q : Nat) (f : QueuePair → QueuePair) : (s.modPair p q f).power = s.power := by cases p <;> rfl
@[simp] theorem State.modPair_islands (p : PortId) (q : Nat) (f : QueuePair → QueuePair) : (s.modPair p q f).islands = s.islands := by cases p <;> rfl
@[simp] theorem State.modPair_crossings (p : PortId) (q : Nat) (f : QueuePair → QueuePair) : (s.modPair p q f).crossings = s.crossings := by cases p <;> rfl
@[simp] theorem State.modPair_sensors (p : PortId) (q : Nat) (f : QueuePair → QueuePair) : (s.modPair p q f).sensors = s.sensors := by cases p <;> rfl
@[simp] theorem State.modPair_cmds (p : PortId) (q : Nat) (f : QueuePair → QueuePair) : (s.modPair p q f).cmds = s.cmds := by cases p <;> rfl
@[simp] theorem State.modPair_nextCmd (p : PortId) (q : Nat) (f : QueuePair → QueuePair) : (s.modPair p q f).nextCmd = s.nextCmd := by cases p <;> rfl
@[simp] theorem State.modPair_bucket (p : PortId) (q : Nat) (f : QueuePair → QueuePair) : (s.modPair p q f).bucket = s.bucket := by cases p <;> rfl
@[simp] theorem State.modPair_colls (p : PortId) (q : Nat) (f : QueuePair → QueuePair) : (s.modPair p q f).colls = s.colls := by cases p <;> rfl
@[simp] theorem State.modPair_gens (p : PortId) (q : Nat) (f : QueuePair → QueuePair) : (s.modPair p q f).gens = s.gens := by cases p <;> rfl
@[simp] theorem State.modPair_arrivals (p : PortId) (q : Nat) (f : QueuePair → QueuePair) : (s.modPair p q f).arrivals = s.arrivals := by cases p <;> rfl
@[simp] theorem State.modPair_coarseLevels (p : PortId) (q : Nat) (f : QueuePair → QueuePair) : (s.modPair p q f).coarseLevels = s.coarseLevels := by cases p <;> rfl
@[simp] theorem State.modPair_batches (p : PortId) (q : Nat) (f : QueuePair → QueuePair) : (s.modPair p q f).batches = s.batches := by cases p <;> rfl
@[simp] theorem State.modPair_nextBatch (p : PortId) (q : Nat) (f : QueuePair → QueuePair) : (s.modPair p q f).nextBatch = s.nextBatch := by cases p <;> rfl
@[simp] theorem State.modPair_cores (p : PortId) (q : Nat) (f : QueuePair → QueuePair) : (s.modPair p q f).cores = s.cores := by cases p <;> rfl
@[simp] theorem State.modPair_quarters (p : PortId) (q : Nat) (f : QueuePair → QueuePair) : (s.modPair p q f).quarters = s.quarters := by cases p <;> rfl
@[simp] theorem State.modPair_scheds (p : PortId) (q : Nat) (f : QueuePair → QueuePair) : (s.modPair p q f).scheds = s.scheds := by cases p <;> rfl
@[simp] theorem State.modPair_runs (p : PortId) (q : Nat) (f : QueuePair → QueuePair) : (s.modPair p q f).runs = s.runs := by cases p <;> rfl
@[simp] theorem State.modPair_nextRun (p : PortId) (q : Nat) (f : QueuePair → QueuePair) : (s.modPair p q f).nextRun = s.nextRun := by cases p <;> rfl
@[simp] theorem State.modPair_streams (p : PortId) (q : Nat) (f : QueuePair → QueuePair) : (s.modPair p q f).streams = s.streams := by cases p <;> rfl
@[simp] theorem State.modPair_engines (p : PortId) (q : Nat) (f : QueuePair → QueuePair) : (s.modPair p q f).engines = s.engines := by cases p <;> rfl
@[simp] theorem State.modPair_pieces (p : PortId) (q : Nat) (f : QueuePair → QueuePair) : (s.modPair p q f).pieces = s.pieces := by cases p <;> rfl
@[simp] theorem State.modPair_nextPiece (p : PortId) (q : Nat) (f : QueuePair → QueuePair) : (s.modPair p q f).nextPiece = s.nextPiece := by cases p <;> rfl
@[simp] theorem State.modPair_events (p : PortId) (q : Nat) (f : QueuePair → QueuePair) : (s.modPair p q f).events = s.events := by cases p <;> rfl
@[simp] theorem State.modPair_alleys (p : PortId) (q : Nat) (f : QueuePair → QueuePair) : (s.modPair p q f).alleys = s.alleys := by cases p <;> rfl
@[simp] theorem State.modPair_localStore (p : PortId) (q : Nat) (f : QueuePair → QueuePair) : (s.modPair p q f).localStore = s.localStore := by cases p <;> rfl
@[simp] theorem State.modPair_cache (p : PortId) (q : Nat) (f : QueuePair → QueuePair) : (s.modPair p q f).cache = s.cache := by cases p <;> rfl
@[simp] theorem State.modPair_hbm (p : PortId) (q : Nat) (f : QueuePair → QueuePair) : (s.modPair p q f).hbm = s.hbm := by cases p <;> rfl
@[simp] theorem State.modPair_protect (p : PortId) (q : Nat) (f : QueuePair → QueuePair) : (s.modPair p q f).protect = s.protect := by cases p <;> rfl
@[simp] theorem State.modPair_tiers (p : PortId) (q : Nat) (f : QueuePair → QueuePair) : (s.modPair p q f).tiers = s.tiers := by cases p <;> rfl
@[simp] theorem State.modPair_flash (p : PortId) (q : Nat) (f : QueuePair → QueuePair) : (s.modPair p q f).flash = s.flash := by cases p <;> rfl
@[simp] theorem State.modPair_net (p : PortId) (q : Nat) (f : QueuePair → QueuePair) : (s.modPair p q f).net = s.net := by cases p <;> rfl
@[simp] theorem State.modPair_security (p : PortId) (q : Nat) (f : QueuePair → QueuePair) : (s.modPair p q f).security = s.security := by cases p <;> rfl
@[simp] theorem State.modPair_sideband (p : PortId) (q : Nat) (f : QueuePair → QueuePair) : (s.modPair p q f).sideband = s.sideband := by cases p <;> rfl
@[simp] theorem State.modPair_logs (p : PortId) (q : Nat) (f : QueuePair → QueuePair) : (s.modPair p q f).logs = s.logs := by cases p <;> rfl
@[simp] theorem State.modPair_features (p : PortId) (q : Nat) (f : QueuePair → QueuePair) : (s.modPair p q f).features = s.features := by cases p <;> rfl
@[simp] theorem State.modPair_free (p : PortId) (q : Nat) (f : QueuePair → QueuePair) : (s.modPair p q f).free = s.free := by cases p <;> rfl

@[simp] theorem State.modMailbox_time (p : PortId) (m : Nat) (f : Mailbox → Mailbox) : (s.modMailbox p m f).time = s.time := by cases p <;> rfl
@[simp] theorem State.modMailbox_power (p : PortId) (m : Nat) (f : Mailbox → Mailbox) : (s.modMailbox p m f).power = s.power := by cases p <;> rfl
@[simp] theorem State.modMailbox_islands (p : PortId) (m : Nat) (f : Mailbox → Mailbox) : (s.modMailbox p m f).islands = s.islands := by cases p <;> rfl
@[simp] theorem State.modMailbox_crossings (p : PortId) (m : Nat) (f : Mailbox → Mailbox) : (s.modMailbox p m f).crossings = s.crossings := by cases p <;> rfl
@[simp] theorem State.modMailbox_sensors (p : PortId) (m : Nat) (f : Mailbox → Mailbox) : (s.modMailbox p m f).sensors = s.sensors := by cases p <;> rfl
@[simp] theorem State.modMailbox_cmds (p : PortId) (m : Nat) (f : Mailbox → Mailbox) : (s.modMailbox p m f).cmds = s.cmds := by cases p <;> rfl
@[simp] theorem State.modMailbox_nextCmd (p : PortId) (m : Nat) (f : Mailbox → Mailbox) : (s.modMailbox p m f).nextCmd = s.nextCmd := by cases p <;> rfl
@[simp] theorem State.modMailbox_bucket (p : PortId) (m : Nat) (f : Mailbox → Mailbox) : (s.modMailbox p m f).bucket = s.bucket := by cases p <;> rfl
@[simp] theorem State.modMailbox_colls (p : PortId) (m : Nat) (f : Mailbox → Mailbox) : (s.modMailbox p m f).colls = s.colls := by cases p <;> rfl
@[simp] theorem State.modMailbox_gens (p : PortId) (m : Nat) (f : Mailbox → Mailbox) : (s.modMailbox p m f).gens = s.gens := by cases p <;> rfl
@[simp] theorem State.modMailbox_arrivals (p : PortId) (m : Nat) (f : Mailbox → Mailbox) : (s.modMailbox p m f).arrivals = s.arrivals := by cases p <;> rfl
@[simp] theorem State.modMailbox_coarseLevels (p : PortId) (m : Nat) (f : Mailbox → Mailbox) : (s.modMailbox p m f).coarseLevels = s.coarseLevels := by cases p <;> rfl
@[simp] theorem State.modMailbox_batches (p : PortId) (m : Nat) (f : Mailbox → Mailbox) : (s.modMailbox p m f).batches = s.batches := by cases p <;> rfl
@[simp] theorem State.modMailbox_nextBatch (p : PortId) (m : Nat) (f : Mailbox → Mailbox) : (s.modMailbox p m f).nextBatch = s.nextBatch := by cases p <;> rfl
@[simp] theorem State.modMailbox_cores (p : PortId) (m : Nat) (f : Mailbox → Mailbox) : (s.modMailbox p m f).cores = s.cores := by cases p <;> rfl
@[simp] theorem State.modMailbox_quarters (p : PortId) (m : Nat) (f : Mailbox → Mailbox) : (s.modMailbox p m f).quarters = s.quarters := by cases p <;> rfl
@[simp] theorem State.modMailbox_scheds (p : PortId) (m : Nat) (f : Mailbox → Mailbox) : (s.modMailbox p m f).scheds = s.scheds := by cases p <;> rfl
@[simp] theorem State.modMailbox_runs (p : PortId) (m : Nat) (f : Mailbox → Mailbox) : (s.modMailbox p m f).runs = s.runs := by cases p <;> rfl
@[simp] theorem State.modMailbox_nextRun (p : PortId) (m : Nat) (f : Mailbox → Mailbox) : (s.modMailbox p m f).nextRun = s.nextRun := by cases p <;> rfl
@[simp] theorem State.modMailbox_streams (p : PortId) (m : Nat) (f : Mailbox → Mailbox) : (s.modMailbox p m f).streams = s.streams := by cases p <;> rfl
@[simp] theorem State.modMailbox_engines (p : PortId) (m : Nat) (f : Mailbox → Mailbox) : (s.modMailbox p m f).engines = s.engines := by cases p <;> rfl
@[simp] theorem State.modMailbox_pieces (p : PortId) (m : Nat) (f : Mailbox → Mailbox) : (s.modMailbox p m f).pieces = s.pieces := by cases p <;> rfl
@[simp] theorem State.modMailbox_nextPiece (p : PortId) (m : Nat) (f : Mailbox → Mailbox) : (s.modMailbox p m f).nextPiece = s.nextPiece := by cases p <;> rfl
@[simp] theorem State.modMailbox_events (p : PortId) (m : Nat) (f : Mailbox → Mailbox) : (s.modMailbox p m f).events = s.events := by cases p <;> rfl
@[simp] theorem State.modMailbox_alleys (p : PortId) (m : Nat) (f : Mailbox → Mailbox) : (s.modMailbox p m f).alleys = s.alleys := by cases p <;> rfl
@[simp] theorem State.modMailbox_localStore (p : PortId) (m : Nat) (f : Mailbox → Mailbox) : (s.modMailbox p m f).localStore = s.localStore := by cases p <;> rfl
@[simp] theorem State.modMailbox_cache (p : PortId) (m : Nat) (f : Mailbox → Mailbox) : (s.modMailbox p m f).cache = s.cache := by cases p <;> rfl
@[simp] theorem State.modMailbox_hbm (p : PortId) (m : Nat) (f : Mailbox → Mailbox) : (s.modMailbox p m f).hbm = s.hbm := by cases p <;> rfl
@[simp] theorem State.modMailbox_protect (p : PortId) (m : Nat) (f : Mailbox → Mailbox) : (s.modMailbox p m f).protect = s.protect := by cases p <;> rfl
@[simp] theorem State.modMailbox_tiers (p : PortId) (m : Nat) (f : Mailbox → Mailbox) : (s.modMailbox p m f).tiers = s.tiers := by cases p <;> rfl
@[simp] theorem State.modMailbox_flash (p : PortId) (m : Nat) (f : Mailbox → Mailbox) : (s.modMailbox p m f).flash = s.flash := by cases p <;> rfl
@[simp] theorem State.modMailbox_net (p : PortId) (m : Nat) (f : Mailbox → Mailbox) : (s.modMailbox p m f).net = s.net := by cases p <;> rfl
@[simp] theorem State.modMailbox_security (p : PortId) (m : Nat) (f : Mailbox → Mailbox) : (s.modMailbox p m f).security = s.security := by cases p <;> rfl
@[simp] theorem State.modMailbox_sideband (p : PortId) (m : Nat) (f : Mailbox → Mailbox) : (s.modMailbox p m f).sideband = s.sideband := by cases p <;> rfl
@[simp] theorem State.modMailbox_logs (p : PortId) (m : Nat) (f : Mailbox → Mailbox) : (s.modMailbox p m f).logs = s.logs := by cases p <;> rfl
@[simp] theorem State.modMailbox_features (p : PortId) (m : Nat) (f : Mailbox → Mailbox) : (s.modMailbox p m f).features = s.features := by cases p <;> rfl
@[simp] theorem State.modMailbox_free (p : PortId) (m : Nat) (f : Mailbox → Mailbox) : (s.modMailbox p m f).free = s.free := by cases p <;> rfl

@[simp] theorem State.modXlt_time (p : PortId) (f : Xlt → Xlt) : (s.modXlt p f).time = s.time := by cases p <;> rfl
@[simp] theorem State.modXlt_power (p : PortId) (f : Xlt → Xlt) : (s.modXlt p f).power = s.power := by cases p <;> rfl
@[simp] theorem State.modXlt_islands (p : PortId) (f : Xlt → Xlt) : (s.modXlt p f).islands = s.islands := by cases p <;> rfl
@[simp] theorem State.modXlt_crossings (p : PortId) (f : Xlt → Xlt) : (s.modXlt p f).crossings = s.crossings := by cases p <;> rfl
@[simp] theorem State.modXlt_sensors (p : PortId) (f : Xlt → Xlt) : (s.modXlt p f).sensors = s.sensors := by cases p <;> rfl
@[simp] theorem State.modXlt_cmds (p : PortId) (f : Xlt → Xlt) : (s.modXlt p f).cmds = s.cmds := by cases p <;> rfl
@[simp] theorem State.modXlt_nextCmd (p : PortId) (f : Xlt → Xlt) : (s.modXlt p f).nextCmd = s.nextCmd := by cases p <;> rfl
@[simp] theorem State.modXlt_bucket (p : PortId) (f : Xlt → Xlt) : (s.modXlt p f).bucket = s.bucket := by cases p <;> rfl
@[simp] theorem State.modXlt_colls (p : PortId) (f : Xlt → Xlt) : (s.modXlt p f).colls = s.colls := by cases p <;> rfl
@[simp] theorem State.modXlt_gens (p : PortId) (f : Xlt → Xlt) : (s.modXlt p f).gens = s.gens := by cases p <;> rfl
@[simp] theorem State.modXlt_arrivals (p : PortId) (f : Xlt → Xlt) : (s.modXlt p f).arrivals = s.arrivals := by cases p <;> rfl
@[simp] theorem State.modXlt_coarseLevels (p : PortId) (f : Xlt → Xlt) : (s.modXlt p f).coarseLevels = s.coarseLevels := by cases p <;> rfl
@[simp] theorem State.modXlt_batches (p : PortId) (f : Xlt → Xlt) : (s.modXlt p f).batches = s.batches := by cases p <;> rfl
@[simp] theorem State.modXlt_nextBatch (p : PortId) (f : Xlt → Xlt) : (s.modXlt p f).nextBatch = s.nextBatch := by cases p <;> rfl
@[simp] theorem State.modXlt_cores (p : PortId) (f : Xlt → Xlt) : (s.modXlt p f).cores = s.cores := by cases p <;> rfl
@[simp] theorem State.modXlt_quarters (p : PortId) (f : Xlt → Xlt) : (s.modXlt p f).quarters = s.quarters := by cases p <;> rfl
@[simp] theorem State.modXlt_scheds (p : PortId) (f : Xlt → Xlt) : (s.modXlt p f).scheds = s.scheds := by cases p <;> rfl
@[simp] theorem State.modXlt_runs (p : PortId) (f : Xlt → Xlt) : (s.modXlt p f).runs = s.runs := by cases p <;> rfl
@[simp] theorem State.modXlt_nextRun (p : PortId) (f : Xlt → Xlt) : (s.modXlt p f).nextRun = s.nextRun := by cases p <;> rfl
@[simp] theorem State.modXlt_streams (p : PortId) (f : Xlt → Xlt) : (s.modXlt p f).streams = s.streams := by cases p <;> rfl
@[simp] theorem State.modXlt_engines (p : PortId) (f : Xlt → Xlt) : (s.modXlt p f).engines = s.engines := by cases p <;> rfl
@[simp] theorem State.modXlt_pieces (p : PortId) (f : Xlt → Xlt) : (s.modXlt p f).pieces = s.pieces := by cases p <;> rfl
@[simp] theorem State.modXlt_nextPiece (p : PortId) (f : Xlt → Xlt) : (s.modXlt p f).nextPiece = s.nextPiece := by cases p <;> rfl
@[simp] theorem State.modXlt_events (p : PortId) (f : Xlt → Xlt) : (s.modXlt p f).events = s.events := by cases p <;> rfl
@[simp] theorem State.modXlt_alleys (p : PortId) (f : Xlt → Xlt) : (s.modXlt p f).alleys = s.alleys := by cases p <;> rfl
@[simp] theorem State.modXlt_localStore (p : PortId) (f : Xlt → Xlt) : (s.modXlt p f).localStore = s.localStore := by cases p <;> rfl
@[simp] theorem State.modXlt_cache (p : PortId) (f : Xlt → Xlt) : (s.modXlt p f).cache = s.cache := by cases p <;> rfl
@[simp] theorem State.modXlt_hbm (p : PortId) (f : Xlt → Xlt) : (s.modXlt p f).hbm = s.hbm := by cases p <;> rfl
@[simp] theorem State.modXlt_protect (p : PortId) (f : Xlt → Xlt) : (s.modXlt p f).protect = s.protect := by cases p <;> rfl
@[simp] theorem State.modXlt_tiers (p : PortId) (f : Xlt → Xlt) : (s.modXlt p f).tiers = s.tiers := by cases p <;> rfl
@[simp] theorem State.modXlt_flash (p : PortId) (f : Xlt → Xlt) : (s.modXlt p f).flash = s.flash := by cases p <;> rfl
@[simp] theorem State.modXlt_net (p : PortId) (f : Xlt → Xlt) : (s.modXlt p f).net = s.net := by cases p <;> rfl
@[simp] theorem State.modXlt_security (p : PortId) (f : Xlt → Xlt) : (s.modXlt p f).security = s.security := by cases p <;> rfl
@[simp] theorem State.modXlt_sideband (p : PortId) (f : Xlt → Xlt) : (s.modXlt p f).sideband = s.sideband := by cases p <;> rfl
@[simp] theorem State.modXlt_logs (p : PortId) (f : Xlt → Xlt) : (s.modXlt p f).logs = s.logs := by cases p <;> rfl
@[simp] theorem State.modXlt_features (p : PortId) (f : Xlt → Xlt) : (s.modXlt p f).features = s.features := by cases p <;> rfl
@[simp] theorem State.modXlt_free (p : PortId) (f : Xlt → Xlt) : (s.modXlt p f).free = s.free := by cases p <;> rfl

@[simp] theorem State.port_modPort (p : PortId) (f : Port → Port) : (s.modPort p f).port p = f (s.port p) := by cases p <;> rfl
theorem State.port_modPort_ne {p r : PortId} (h : r ≠ p) (f : Port → Port) : (s.modPort p f).port r = s.port r := by
  cases p <;> cases r <;> first | rfl | exact absurd rfl h
@[simp] theorem otherPort_ne (p : PortId) : otherPort p ≠ p := by cases p <;> decide
@[simp] theorem State.port_modPort_other (p : PortId) (f : Port → Port) : (s.modPort p f).port (otherPort p) = s.port (otherPort p) :=
  s.port_modPort_ne (otherPort_ne p) f
@[simp] theorem State.modPort_modPort (p : PortId) (f g : Port → Port) : (s.modPort p f).modPort p g = s.modPort p fun x => g (f x) := by
  cases p <;> rfl
@[simp] theorem State.modPort_self (p : PortId) : (s.modPort p fun _ => s.port p) = s := by cases p <;> rfl
@[simp] theorem State.port_modPair (p : PortId) (q : Nat) (f : QueuePair → QueuePair) :
    (s.modPair p q f).port p = { s.port p with pairs := Tab.modify (s.port p).pairs q {} f } := by simp [State.modPair]
@[simp] theorem State.pair_modPair (p : PortId) (q : Nat) (f : QueuePair → QueuePair) : (s.modPair p q f).pair p q = f (s.pair p q) := by
  simp [State.pair, Tab.modify, Tab.getD]
@[simp] theorem State.mailbox_modMailbox (p : PortId) (m : Nat) (f : Mailbox → Mailbox) :
    (s.modMailbox p m f).mailbox p m = f (s.mailbox p m) := by simp [State.mailbox, State.modMailbox, Tab.modify, Tab.getD]
@[simp] theorem State.core_modCore (n : Nat) (f : Core → Core) : (s.modCore n f).core n = f (s.core n) := by
  simp [State.core, State.modCore, Tab.modify, Tab.getD]
@[simp] theorem State.quarter_modQuarter (n : Nat) (f : Quarter → Quarter) : (s.modQuarter n f).quarter n = f (s.quarter n) := by
  simp [State.quarter, State.modQuarter, Tab.modify, Tab.getD]
@[simp] theorem State.island_modIsland (n : Nat) (f : Island → Island) : (s.modIsland n f).island n = f (s.island n) := by
  simp [State.island, State.modIsland, Tab.modify, Tab.getD]
@[simp] theorem State.crossing_modCrossing (n : Nat) (f : Crossing → Crossing) : (s.modCrossing n f).crossing n = f (s.crossing n) := by
  simp [State.crossing, State.modCrossing, Tab.modify, Tab.getD]
@[simp] theorem State.stream_modStream (q n : Nat) (f : Stream → Stream) : (s.modStream q n f).stream q n = f (s.stream q n) := by
  simp [State.stream, State.modStream, Tab.modify, Tab.getD]
@[simp] theorem State.link_modLink (n : Nat) (f : Link → Link) : (s.modLink n f).link n = f (s.link n) := by
  simp [State.link, State.modLink, State.modNet, Tab.modify, Tab.getD]
@[simp] theorem State.chan_modChan (n : Nat) (f : Channel → Channel) : (s.modChan n f).chan n = f (s.chan n) := by
  simp [State.chan, State.modChan, State.modHbm, Tab.modify, Tab.getD]

end Sys2Proof.Machine
end

