-- ==== Sys2Proof/Laws/Ops.lean ====
section
/-! SUPPORT. What the shared operations do: a port's sends, signals and events as changes of that port alone, and the error log as a change
of the logs and of the event bits. -/

namespace Sys2Proof.Machine

open Sys2Proof

/-! ## Sends, signals and events of one port -/

/-- What emit does to its port. -/
def Port.emit (x : Port) (o : PortOut) : Port :=
  if x.d3hot || !x.busMaster then { x with waiting := x.waiting ++ [o] } else { x with sent := x.sent ++ [o] }

/-- What signal does to its port. -/
def Port.signal (x : Port) (v : Nat) : Port :=
  if !x.msixEnable then x
  else if x.functionMask || (Tab.getD x.msix v {}).masked then { x with msix := Tab.modify x.msix v {} fun m => { m with pending := true } }
  else x.emit (.msix v)

/-- What raiseEvent does to its port. -/
def Port.raise (x : Port) (b : Nat) : Port :=
  if x.eventStatus.getLsbD b then x
  else if x.eventMask.getLsbD b then { x with eventStatus := setBit x.eventStatus b, eventOwed := setBit x.eventOwed b }
  else { x with eventStatus := setBit x.eventStatus b }.signal x.eventVector

theorem emit_eq (s : State) (p : PortId) (o : PortOut) : emit s p o = s.modPort p fun x => x.emit o := rfl

theorem State.modPort_congr (s : State) (p : PortId) {f g : Port → Port} (h : f (s.port p) = g (s.port p)) : s.modPort p f = s.modPort p g := by
  cases p <;> simp_all [State.modPort, State.port]

theorem State.modPort_of_self (s : State) (p : PortId) {f : Port → Port} (h : f (s.port p) = s.port p) : s.modPort p f = s := by
  cases p <;> simp_all [State.modPort, State.port]

theorem signal_eq (s : State) (p : PortId) (v : Nat) : signal s p v = s.modPort p fun x => x.signal v := by
  unfold Machine.signal Port.signal msixEntry
  split_ifs with h1 h2
  · exact (s.modPort_of_self p (by rw [if_pos h1])).symm
  · exact s.modPort_congr p (by rw [if_neg h1, if_pos h2])
  · rw [emit_eq]; exact s.modPort_congr p (by rw [if_neg h1, if_neg h2])

theorem raiseEvent_eq (s : State) (p : PortId) (b : Nat) : raiseEvent s p b = s.modPort p fun x => x.raise b := by
  unfold raiseEvent Port.raise
  dsimp only
  split_ifs with h1 h2
  · exact (s.modPort_of_self p (by simp [h1])).symm
  · rw [State.modPort_modPort]; exact s.modPort_congr p (by simp [h1, h2])
  · rw [signal_eq, State.modPort_modPort]; exact s.modPort_congr p (by simp [h1, h2])

/-- A fold of changes of one port is one change of it. -/
theorem foldl_modPort {α : Type} (p : PortId) (g : Port → α → Port) (l : List α) (s : State) :
    l.foldl (fun s a => s.modPort p fun x => g x a) s = s.modPort p fun x => l.foldl g x := by
  induction l generalizing s with
  | nil => simp only [List.foldl_nil]; exact (s.modPort_of_self p rfl).symm
  | cons a l ih => simp only [List.foldl_cons, ih, State.modPort_modPort]

theorem foldl_signal (p : PortId) (c : Nat → Bool) (v : Nat) (l : List Nat) (s : State) :
    l.foldl (fun s b => if c b then signal s p v else s) s
      = s.modPort p fun x => l.foldl (fun x b => if c b then x.signal v else x) x := by
  rw [← foldl_modPort]
  congr 1
  funext s b
  split
  · exact signal_eq ..
  · exact (s.modPort_of_self p rfl).symm

theorem foldl_raise (p : PortId) (c : Nat → Bool) (l : List Nat) (s : State) :
    l.foldl (fun s b => if c b then raiseEvent s p b else s) s
      = s.modPort p fun x => l.foldl (fun x b => if c b then x.raise b else x) x := by
  rw [← foldl_modPort]
  congr 1
  funext s b
  split
  · exact raiseEvent_eq ..
  · exact (s.modPort_of_self p rfl).symm

/-- A send changes what the port has sent and what waits. -/
theorem Port.emit_fields (x : Port) (o : PortOut) : x.emit o = { x with sent := (x.emit o).sent, waiting := (x.emit o).waiting } := by
  unfold Port.emit; split <;> rfl

/-- A signal changes the MSI-X table and what the port sends. -/
theorem Port.signal_fields (x : Port) (v : Nat) :
    x.signal v = { x with msix := (x.signal v).msix, sent := (x.signal v).sent, waiting := (x.signal v).waiting } := by
  unfold Port.signal; split_ifs
  · rfl
  · rfl
  · rw [Port.emit_fields]

/-- An event changes the event bits, the MSI-X table and what the port sends. -/
theorem Port.raise_fields (x : Port) (b : Nat) :
    x.raise b = { x with
      eventStatus := (x.raise b).eventStatus, eventOwed := (x.raise b).eventOwed, msix := (x.raise b).msix
      sent := (x.raise b).sent, waiting := (x.raise b).waiting } := by
  unfold Port.raise; split_ifs
  · rfl
  · rfl
  · rw [Port.signal_fields]

theorem Port.raise_status (x : Port) (b : Nat) : (x.raise b).eventStatus = setBit x.eventStatus b := by
  unfold Port.raise; split_ifs with h
  · ext i hi
    simp only [setBit, BitVec.getElem_or]
    by_cases hb : i = b
    · subst hb; simp [← BitVec.getLsbD_eq_getElem, h]
    · simp [hb]
  · rfl
  · rw [Port.signal_fields]

/-! ## The error log -/

theorem appendLog_eq (s : State) (e : LogEntry) : appendLog s e = { s with logs := (appendLog s e).logs } := rfl

theorem recordLog_eq (s : State) (e : LogEntry) : recordLog s e = { s with logs := (recordLog s e).logs } := by
  unfold recordLog; split_ifs <;> rfl

/-- Outside an activation an entry goes into the log as the newest. -/
theorem recordLog_idle {s : State} (h : s.security.activating = none) (e : LogEntry) :
    (recordLog s e).logs.entries.getLast? = some { e with seq := s.logs.total + 1 } := by
  simp only [recordLog, h, Option.isSome_none, Bool.false_eq_true, if_false, appendLog, State.modLogs]
  rw [List.drop_append_of_le_length (by simp)]
  simp

/-- Writing an entry raises ERROR_LOG on the ports named and changes the logs, nothing else. -/
theorem writeLog_port (s : State) (e : LogEntry) (p : PortId) :
    writeLog s e [p] = { s.modPort p fun x => x.raise evErrorLog with logs := (recordLog s e).logs } := by
  simp only [writeLog, List.foldl_cons, List.foldl_nil, raiseEvent_eq]
  rw [recordLog_eq]
  cases p <;> rfl

theorem writeLog_both (s : State) (e : LogEntry) :
    writeLog s e [.p0, .p1]
      = { s with port0 := s.port0.raise evErrorLog, port1 := s.port1.raise evErrorLog, logs := (recordLog s e).logs } := by
  simp only [writeLog, List.foldl_cons, List.foldl_nil, raiseEvent_eq]
  rw [recordLog_eq]
  rfl

/-- A port's entry changes the logs and the port's event state. -/
theorem portLog_eq (s : State) (p : PortId) (o q tag : Nat) (st : Option Status) (op : Nat) (c : BitVec 32) (e : Nat) (z : Cause) :
    portLog s p o q tag st op c e z
      = { s.modPort p fun x => x.raise evErrorLog with logs := (portLog s p o q tag st op c e z).logs } := by
  simp only [portLog, writeLog_port]

/-- A device entry changes the logs and both ports' event state. -/
theorem deviceLog_eq (s : State) (k l d : Nat) :
    deviceLog s k l d
      = { s with port0 := s.port0.raise evErrorLog, port1 := s.port1.raise evErrorLog, logs := (deviceLog s k l d).logs } := by
  simp only [deviceLog, writeLog_both]

/-! ## Events (R629) -/

/-- An event within another is part of it. -/
theorem oneEvent_within {s : State} (h : s.logs.event.isSome = true) (always : Bool) (z : Cause) (f : State → State) :
    oneEvent s always z f = f s := by simp [oneEvent, h]

/-- While an event acts, a request that ends joins its entry. -/
theorem logEnd_within {s : State} {v : Event} (h : s.logs.event = some v) (e : LogEntry) :
    logEnd s e = s.modLogs fun l => { l with event := some { v with ended := v.ended ++ [e] } } := by simp [logEnd, h]

theorem logEnd_alone {s : State} (h : s.logs.event = none) (e : LogEntry) : logEnd s e = writeLog s e (logPorts e) := by simp [logEnd, h]

end Sys2Proof.Machine
end

