-- ==== Sys2Proof/Tests/Slice0.lean ====
section
/-! SUPPORT. Tests: for each row a small state and operands that meet the hypotheses of its statement, and one or two fields of what it leaves; expected
results are worked out by hand from the rules named in the sections. -/

namespace Sys2Proof.Tests

open Sys2Proof Sys2Proof.Machine

set_option Elab.async false

/-- The state that a command leaves. -/
def after (c : Instr) (s : State) : State :=
  match exec c s with
  | .next t => t
  | _ => s

/-- An ACTIVE queue pair with some entries fetched and posted. -/
def upPair : QueuePair :=
  { state := .active, sqBase := 0x10000, cqBase := 0x20000, sqEntries := 16, cqEntries := 16, sqTail := 3, sqHead := 1, cqHead := 2
    cqTail := 5, outstanding := 1, unsignalled := 1 }

/-- A port that is up: out of reset, READY, with MSI-X on, free to send, and queue pairs 0 and 1. -/
def upPort : Port :=
  { ({} : Port) with
    configReady := true, ready := true, msixEnable := true, busMaster := true, asqM1 := 15, acqM1 := 15, pairs := [(0, upPair), (1, upPair)]
    msix := [(0, { addr := 0x1000, data := 0, masked := false, pending := false })] }

/-- The device in DP0 with every island running and both ports up. -/
def run : State :=
  { State.reset with
    power := { State.reset.power with phase := .running, pwrok := true }
    islands := (List.range 103).map fun i => (i, { state := .run, rate := 1000, locked := true, started := some 0 })
    port0 := upPort, port1 := upPort }

/-- The same with ENABLED set on port 0. -/
def enabled : State := run.modPort .p0 fun x => { x with enabled := true }

/-! ## Ports: registers, doorbells, resets (R461 to R480) -/

theorem test_run_is_up : live run = true ∧ fwServes run = true ∧ awake run = true ∧ barUp run .p0 = true ∧ portPowered run .p1 = true ∧
    barUp run .p1 = true := by decide +kernel

theorem test_step_runs_front : ({ run with pending := [.quiesce .p0 true] } : State).pending = .quiesce .p0 true :: [] ∧
    (match step { run with pending := [.quiesce .p0 true] } with | .next t => (t.port .p0).quiesce && t.pending.isEmpty | _ => false) = true := by
  decide +kernel

theorem test_reset_idles : State.reset.pending = [] ∧ (match step State.reset with | .next t => t.time == 1 | _ => false) = true := by decide +kernel

theorem test_reset_memories_are_canonical : Mem.wf State.reset.localStore = true ∧ Mem.wf State.reset.sideband.buf = true := by decide +kernel

theorem test_trust_step : mayMeasure (.quiesce .p0 true) = false ∧ (after (.quiesce .p0 true) run).trust = run.trust := by decide +kernel

/-- R461: the read answers the low half and latches the upper one. -/
theorem test_islandCountLoRead :
    let s := { run with time := 2 ^ 32 + 7 }
    ((after (.islandCountLoRead .p0) s).port .p0).countHi = 1 ∧ ((after (.islandCountLoRead .p0) s).port .p0).sent = [.regRead 7] := by decide +kernel

/-- R472: 4,096 bytes are the most that a request may have. -/
theorem test_mailboxSubmit :
    let s := run.modMailbox .p0 15 fun x => { x with reqLen := 4096 }
    (s.mailbox .p0 15).firmware = false ∧ ((after (.mailboxSubmit .p0 15 3) s).mailbox .p0 15).firmware = true ∧
    ((after (.mailboxSubmit .p0 15 3) s).mailbox .p0 15).intrEn = true ∧
    ((after (.mailboxSubmit .p0 15 3) (after (.mailboxSubmit .p0 15 3) s)).mailbox .p0 15).refused = true := by decide +kernel
theorem test_mailboxSubmit_too_long :
    let s := run.modMailbox .p0 0 fun x => { x with reqLen := 4097 }
    ((after (.mailboxSubmit .p0 0 1) s).mailbox .p0 0).firmware = false ∧ ((after (.mailboxSubmit .p0 0 1) s).mailbox .p0 0).refused = true := by
  decide +kernel

/-- R470: a vector with its pending bit set sends when it is unmasked. -/
theorem test_msixUnmask :
    let s := run.modPort .p0 fun x => { x with msix := [(2047, { pending := true })] }
    (msixEntry s .p0 2047).pending = true ∧ (s.port .p0).functionMask = false ∧ (s.port .p0).msixEnable = true ∧
    ((after (.msixUnmask .p0 (.vector 2047)) s).port .p0).sent = [.msix 2047] := by decide +kernel

/-- R469: entries not signalled are signalled at AGG_TIME. -/
theorem test_aggTime : (run.pair .p0 1).unsignalled = 1 ∧ (msixEntry run .p0 (run.pair .p0 1).vector).masked = false ∧
    ((after (.aggTime .p0 1) run).port .p0).sent = [.msix 0] ∧ ((after (.aggTime .p0 1) run).pair .p0 1).unsignalled = 0 := by decide +kernel

/-- R465: the greatest tail of a queue of 16 is 15; R466: 16 is not below its size. -/
theorem test_sqTail : (run.pair .p0 1).state = .active ∧ ((after (.sqTail .p0 1 15 false) run).pair .p0 1).sqTail = 15 ∧
    ((after (.sqTail .p0 1 16 false) run).pair .p0 1).sqTail = 3 ∧ ((after (.sqTail .p0 1 16 false) run).pair .p0 1).dbError = true ∧
    ((after (.sqTail .p0 1 16 false) run).port .p0).dbErrors = 1 := by decide +kernel
/-- R465, R466: CQ_HEAD may reach CQ_TAIL and not pass it. -/
theorem test_cqHead : ((after (.cqHead .p0 1 5 false) run).pair .p0 1).cqHead = 5 ∧ ((after (.cqHead .p0 1 6 false) run).pair .p0 1).cqHead = 2 ∧
    ((after (.cqHead .p0 2047 0 false) run).port .p0).dbLast = 2047 ∧ ((after (.cqHead .p0 1 5 true) run).pair .p0 1).dbError = true := by
  decide +kernel

/-- R463. -/
theorem test_enable : (run.port .p0).ready = true ∧ (run.port .p0).enabled = false ∧
    ((after (.enable .p0) run).pair .p0 0).state = .active ∧ ((after (.enable .p0) run).pair .p0 0).sqEntries = 16 ∧
    ((after (.enable .p0) run).port .p0).enabled = true := by decide +kernel
theorem test_enable_out_of_range :
    let s := run.modPort .p0 fun x => { x with asqM1 := 0 }
    ((after (.enable .p0) s).port .p0).configError = true ∧ ((after (.enable .p0) s).port .p0).enabled = false := by decide +kernel
theorem test_quiesce : ((after (.quiesce .p0 true) run).port .p0).quiesce = true := by decide +kernel

/-- R16, R462. -/
theorem test_eventStatusClear :
    let s := run.modPort .p0 fun x => { x with eventStatus := 0b000011 }
    ((after (.eventStatusClear .p0 0b11 0b10) s).port .p0).eventStatus = 0b10 := by decide +kernel
theorem test_eventMaskWrite :
    let s := run.modPort .p0 fun x => { x with eventMask := 0b101, eventOwed := 0b101, eventStatus := 0b101 }
    ((after (.eventMaskWrite .p0 0b100) s).port .p0).sent = [.msix 0] ∧ ((after (.eventMaskWrite .p0 0b100) s).port .p0).eventOwed = 0b100 := by
  decide +kernel
theorem test_events_signal : ((raiseEvent run .p0 5).port .p0).sent = [.msix 0] ∧
    ((raiseEvent (raiseEvent run .p0 5) .p0 5).port .p0).sent = [.msix 0] ∧ (run.port .p0).eventStatus.getLsbD 5 = false := by decide +kernel

/-- R476 to R479. -/
theorem test_fundamentalReset : ((after (.fundamentalReset .p0) run).port .p0).pairs = [] ∧ ((after (.fundamentalReset .p0) run).port .p0).inReset = true ∧
    (after (.fundamentalReset .p0) run).port .p1 = run.port .p1 := by decide +kernel
theorem test_hotReset : ((after (.hotReset .p1) run).port .p1).msix = [] ∧ (after (.hotReset .p1) run).port .p0 = run.port .p0 := by decide +kernel
theorem test_dlDown : ((after (.dlDown .p0) run).port .p0).configReady = false := by decide +kernel
theorem test_functionLevelReset : ((after (.functionLevelReset .p0) run).port .p0).ready = false := by decide +kernel
theorem test_queueReset : (enabled.port .p0).enabled = true ∧ barUp enabled .p0 = true ∧ ((after (.queueReset .p0) enabled).port .p0).pairs = [] ∧
    ((after (.queueReset .p0) enabled).port .p0).msix = upPort.msix := by decide +kernel
theorem test_portResetEnd :
    let s := after (.fundamentalReset .p0) run
    (s.port .p0).inReset = true ∧ (s.island (hostIsland .p0)).state = .run ∧ ((after (.portResetEnd .p0) s).port .p0).ready = true ∧
    ((after (.portResetEnd .p0) s).port .p1).eventStatus.getLsbD evOtherPortReset = true := by decide +kernel

/-- R480. -/
theorem test_d3hotEntry : ((after (.d3hotEntry .p0) run).port .p0).d3hot = true ∧ canFetch (after (.d3hotEntry .p0) run) .p0 1 = false := by decide +kernel
theorem test_d0Return :
    let s := (after (.d3hotEntry .p0) run).modPort .p0 fun x => { x with waiting := [.msix 1, .msix 2] }
    (s.port .p0).d3hot = true ∧ ((after (.d0Return .p0) s).port .p0).sent = [.msix 1, .msix 2] ∧ ((after (.d0Return .p0) s).port .p0).waiting = [] := by
  decide +kernel
theorem test_busMasterEnable :
    let s := (after (.busMasterEnable .p0 false) run).modPort .p0 fun x => { x with waiting := [.msix 1] }
    (s.port .p0).busMaster = false ∧ ((after (.busMasterEnable .p0 true) s).port .p0).sent = [.msix 1] := by decide +kernel
theorem test_poisonedWrite : ((after (.poisonedWrite .p0) run).port .p0).aer = [.poisonedTlp] := by decide +kernel
theorem test_unsupportedRequest : ((after (.unsupportedRequest .p0) run).port .p0).sent = [.unsupported] := by decide +kernel

/-- R456: a request before the space is ready is retried. -/
theorem test_configRequest : ((after (.configRequest .p0 (.ats true)) run).port .p0).xlt.atsOn = true ∧
    ((after (.configRequest .p0 (.read 0)) (after (.fundamentalReset .p0) run)).port .p0).sent = [.cfgRetry] ∧
    ((after (.configRequest .p0 (.pri true 512)) run).port .p0).xlt.allocation = 512 := by decide +kernel
theorem test_registerWrite :
    ((after (.registerWrite ⟨.bar0 .p0 0x02C [0xFF, 0x07, 0, 0], 0⟩) run).port .p0).eventVector = 2047 ∧
    ((after (.registerWrite ⟨.bar0 .p0 0x020 [0xFF, 0x0F, 0, 0], 0⟩) enabled).port .p0).asqM1 = 15 ∧
    (after (.registerWrite ⟨.block (0x01000000 + 511 * 0x400 + 0x018) 9 .firmware, 0⟩) run).chan 511 = { run.chan 511 with seed := 9 } := by
  decide +kernel
/-- R16: DONE and FAIL are written with 1; FAIL arises in the same cycle and stays. -/
theorem test_registerWrite_arising :
    let s := run.modChan 0 fun x => { x with done := true, fail := true, refused := true }
    let t := after (.registerWrite ⟨.block 0x01000014 6 .firmware, 4⟩) s
    (t.chan 0).done = false ∧ (t.chan 0).fail = true ∧ (t.chan 0).refused = true := by decide +kernel

/-! ## Host translation (R366 to R391) -/

/-- Port 0 with ATS and PRI on, one entry, one stale and one live request, one page request and one invalidation. -/
def translating : State := run.modPort .p0 fun x => { x with xlt := { x.xlt with
  atsOn := true, priOn := true, dtc := [⟨0x10000, 16, 0x50000, true, true, false⟩], reqs := [⟨2, false, []⟩]
  pages := [(3, ⟨0x20, [], false, false⟩)], invs := [⟨31, 0⟩], counters := [(7, ⟨5, true⟩), (9, ⟨1, true⟩)] } }

theorem test_hotPeriod : ((after (.hotPeriod .p0) translating).port .p0).xlt.counters = [(7, ⟨2, false⟩)] := by decide +kernel
theorem test_invalidateRequest : ((after (.invalidateRequest .p0 5 0x10000 4096) translating).port .p0).xlt.dtc = [] ∧
    ((after (.invalidateRequest .p0 5 0x20000 65536) translating).port .p0).xlt.reqs = [⟨2, true, []⟩] ∧
    ((after (.invalidateRequest .p0 5 0x20000 65536) translating).port .p0).xlt.dtc = (translating.port .p0).xlt.dtc := by decide +kernel
theorem test_invalidateRequest_conditions : (translating.port .p0).xlt.invs.length < 32 ∧ (∀ i ∈ (translating.port .p0).xlt.invs, i.itag ≠ 5) ∧
    ((after (.invalidateRequest .p0 5 0x10000 4096) translating).port .p0).xlt.invs = [⟨31, 0⟩, ⟨5, 1⟩] := by decide +kernel
theorem test_invalidateCompletion : drainedBefore translating .p0 0 = true ∧
    ((after (.invalidateCompletion .p0 31) translating).port .p0).sent = [.invalidateCompletion 31] := by decide +kernel
/-- R371: sixteen 4 KiB pages in a row make one 64 KiB entry. -/
theorem test_translationCompletion :
    let us : List AtsEntry := (List.range 16).map fun i => { size := 12, addr := 0x70000 + i * 4096, read := true, write := false, untranslated := false }
    mergeable us = true ∧ ((after (.translationCompletion .p0 2 us) translating).port .p0).xlt.dtc.getLast? =
      some ⟨0x20000, 16, 0x70000, true, false, false⟩ := by decide +kernel
/-- A piece of stream 15 that waits for the translation of block 2. -/
def waits (st : PieceState) : Piece :=
  { quarter := 0, stream := 15, index := 0, spec := { srcSpace := 1, srcSel := 0, src := 0x2FFFE, dstSpace := 3, dstSel := 5, dst := 0, len := 2, fill := none }
    state := st, gen := 0, replays := 0, data := none, err := none, portTags := 0 }
def waiting : State :=
  { (translating.modPort .p0 fun x => { x with xlt := { x.xlt with reqs := [⟨2, false, [4]⟩] } }) with
    pieces := [(4, waits .missed)], streams := [(15, { state := .armed })] }
/-- R371, R373: the piece whose translation has come goes out. -/
theorem test_translationCompletion_waiter :
    let us : List AtsEntry := (List.range 16).map fun i => { size := 12, addr := 0x70000 + i * 4096, read := true, write := false, untranslated := false }
    (∀ e ∈ (waiting.port .p0).xlt.dtc, e.base / 65536 ≠ 2) ∧ (waiting.stream 0 15).hostPort = .p0 ∧ (waiting.port .p0).xlt.asks = [] ∧
    (Tab.get? (after (.translationCompletion .p0 2 us) waiting).pieces 4).map (·.state) = some .issued ∧
    ((after (.translationCompletion .p0 2 []) (waiting.modPort .p0 fun x => { x with xlt := { x.xlt with reqs := [⟨2, false, []⟩] } })).port .p0).xlt.reqs = [] := by
  decide +kernel
theorem test_translationCompletion_stale :
    let s := run.modPort .p0 fun x => { x with xlt := { x.xlt with reqs := [⟨2, true, [9]⟩] } }
    ((after (.translationCompletion .p0 2 []) s).port .p0).sent = [.transReq 2] := by decide +kernel
theorem test_prgResponse : ((after (.prgResponse .p0 3 .responseFailure) translating).port .p0).xlt.priStopped = true ∧
    ((after (.prgResponse .p0 3 .success) translating).port .p0).xlt.pages = [] := by decide +kernel
/-- A piece that waits for a page. -/
def faulting : State :=
  { (translating.modPort .p0 fun x => { x with xlt := { x.xlt with pages := [(3, ⟨0x20, [4], false, false⟩), (5, ⟨0x20, [], false, true⟩)], reqs := [] } }) with
    pieces := [(4, waits .faulted)], streams := [(15, { state := .armed })] }
/-- R375, R377. -/
theorem test_prgResponse_waiter : (faulting.port .p0).xlt.starved = [] ∧ (faulting.port .p0).busMaster = true ∧ (faulting.port .p0).d3hot = false ∧
    (Tab.get? (after (.prgResponse .p0 3 .invalidRequest) faulting).pieces 4).map (·.err) = some (some 3) ∧
    (Tab.get? (after (.prgResponse .p0 3 .responseFailure) faulting).pieces 4).map (·.err) = some (some 3) ∧
    ((after (.prgResponse .p0 3 .success) faulting).port .p0).xlt.reqs = [⟨2, false, [4]⟩] ∧
    Tab.get? ((after (.prgResponse .p0 5 .responseFailure) faulting).port .p0).xlt.pages 5 = none := by decide +kernel
theorem test_priTimeout :
    let s := { (translating.modPort .p0 fun x => { x with xlt := { x.xlt with pages := [(3, ⟨0x20, [4], false, false⟩)] } }) with pieces := [(4, default)] }
    ((Tab.get? (after (.priTimeout .p0 3) s).pieces 4).map (·.err)) = some (some 3) := by decide +kernel

/-! ## Boulevards and alleys (R323 to R352) -/

/-- Stream 15 of quarter 0, ARMED over a ring of 16 in region 0. -/
def armed : State :=
  { run with streams := [(15, { state := .armed, hostRing := true, sizeLog2 := 4, tail := 15, fetch := 0 })] }
def arm : ArmStream := { stream := 15, base := 1024, region := 0, hostRing := true, hostPort := .p0, sizeLog2 := 16, prio := 3, tail := 65535 }
/-- A descriptor: a copy within local store 0, a fill of it, or a marker. -/
def desc (op len : Nat) : Desc :=
  { opcode := op, notify := true, order := false, endOfJob := false, srcHint := 0, dstHint := 0, srcSpace := if op = 1 then 3 else 0
    dstSpace := if op = 3 then 0 else 3, length := len, srcAddr := 0, dstAddr := if op = 3 then 0 else 4096, srcSel := 0, dstSel := 0, jobTag := 7
    pattern := 0, rows := if op = 3 then 0 else 1, srcStride := 0, dstStride := if op = 3 then 0 else len, reservedZero := true }
def withDesc (d : Desc) : State := armed.modStream 0 15 fun x => { x with buffered := [(0, d)], fetch := 1 }
/-- A piece of 32 bytes from host memory, or with its data, to local store 5. -/
def piece (src : Nat) (b : Option (List Byte)) : Piece :=
  { quarter := 0, stream := 15, index := 0, spec := { srcSpace := src, srcSel := 0, src := 0x9000, dstSpace := 3, dstSel := 5, dst := 0, len := 2, fill := none }
    state := .issued, gen := 0, replays := 0, data := b, err := none, portTags := 1 }
def withPiece (x : Piece) : State :=
  { armed with pieces := [(4, x)], engines := [(0, { tags := 1 })], port0 := { armed.port0 with tags := 1 } }

theorem test_streamArm : armStreamOk arm = true ∧ (run.stream 0 15).state = .idle ∧ ((after (.streamArm 0 ⟨.firmware, arm, none⟩) run).stream 0 15).state = .armed ∧
    ((after (.streamArm 0 ⟨.firmware, arm, none⟩) run).stream 0 15).tail = 65535 ∧
    ((after (.streamArm 0 ⟨.firmware, arm, none⟩) armed).stream 0 15).armResult = 2 := by decide +kernel
theorem test_streamArm_draining :
    let s := armed.modStream 0 15 fun x => { x with state := .draining }
    ((after (.streamArm 0 ⟨.firmware, arm, none⟩) s).stream 0 15).armResult = 3 := by decide +kernel
theorem test_streamStop : (armed.stream 0 15).state ≠ .idle ∧ ((after (.streamStop 0 ⟨15, .firmware⟩) armed).stream 0 15).state = .idle ∧
    ((after (.streamStop 0 ⟨15, .firmware⟩) (armed.modStream 0 15 fun x => { x with active := [⟨0, desc 2 64, [], 1, none⟩] })).stream 0 15).state = .stopping := by
  decide +kernel
theorem test_streamResume :
    let s := armed.modStream 0 15 fun x => { x with state := .error, fetch := 15 }
    (s.stream 0 15).state = .error ∧ (∀ d ∈ knownDescs (s.stream 0 15), d.2.endOfJob = false) ∧ ((after (.streamResume 0 ⟨15, .firmware⟩) s).stream 0 15).state = .armed ∧
    ((after (.streamResume 0 ⟨15, .firmware⟩) s).stream 0 15).head = 15 := by decide +kernel
theorem test_ringTailWrite : ((after (.ringTailWrite 0 ⟨15, .firmware⟩ 15) armed).stream 0 15).tail = 15 ∧ ((after (.ringTailWrite 0 ⟨15, .firmware⟩ 0) armed).stream 0 15).tail = 0 ∧
    (armed.stream 0 15).owner = .firmware ∧ (after (.ringTailWrite 0 ⟨15, .square⟩ 0) armed).stream 0 15 = armed.stream 0 15 ∧
    (run.stream 0 15).state = .idle ∧ ((after (.ringTailWrite 0 ⟨15, .square⟩ 65535) run).stream 0 15).tail = 65535 := by decide +kernel
/-- R319: another's STOP and RESUME leave the stream, and its ARM is refused. -/
theorem test_stream_owner : after (.streamStop 0 ⟨15, .square⟩) armed = armed ∧ after (.streamResume 0 ⟨15, .square⟩) armed = armed ∧
    (armed.stream 0 15).pair = none ∧ ((after (.streamArm 0 ⟨.square, arm, none⟩) armed).stream 0 15).armResult = 5 := by decide +kernel
theorem test_descriptorFetch : (armed.stream 0 15).fetch ≠ (armed.stream 0 15).tail ∧ (armed.stream 0 15).rearm = none ∧
    ((after (.descriptorFetch 0 15 (List.replicate (64 * 15) 0)) armed).stream 0 15).fetch = 15 := by decide +kernel
/-- R345: a ring outside its region. -/
theorem test_descriptorFetch_outside :
    let s := armed.modStream 0 15 fun x => { x with hostRing := false }
    ((after (.descriptorFetch 0 15 []) s).stream 0 15).errCode = 2 ∧ ((after (.descriptorFetch 0 15 []) s).stream 0 15).state = .error := by decide +kernel
/-- R331: 2,049 bytes are two pieces. -/
theorem test_copy : descOk (withDesc (desc 1 2049)) 0 (desc 1 2049) = true ∧
    ((((after (.copy 0 15) (withDesc (desc 1 2049))).stream 0 15).active.getLast?.map fun a => a.todo.map (·.len)) = some [2048, 1]) := by decide +kernel
theorem test_fill : descOk (withDesc (desc 2 2048)) 0 (desc 2 2048) = true ∧
    ((((after (.fill 0 15) (withDesc (desc 2 2048))).stream 0 15).active.getLast?.map fun a => a.todo.length) = some 1) := by decide +kernel
theorem test_marker : descOk (withDesc (desc 3 0)) 0 (desc 3 0) = true ∧ ((after (.marker 0 15) (withDesc (desc 3 0))).stream 0 15).head = 1 ∧
    (after (.marker 0 15) (withDesc (desc 3 0))).events = [⟨0, 15, .firmware, 7, 0⟩] := by decide +kernel
theorem test_pieceIssue :
    let s := after (.fill 0 15) (withDesc (desc 2 2048))
    (∃ a k, nextPieceOf (s.stream 0 15) = some (a, k) ∧ pieceChecks s k = true ∧ k.srcSpace = 4 ∧ k.dstSpace = 3) ∧
    (nextStream s 0).map (·.1) = some 15 ∧ pieceCrosses s 0 (s.stream 0 15).prio = true ∧ ((after (.pieceIssue 0 15) s).engine 0).tags = 1 := by
  refine ⟨⟨⟨0, desc 2 2048, _, 0, none⟩, _, rfl, ?_⟩, ?_⟩ <;> decide +kernel
/-- R345: a piece outside its region entry. -/
theorem test_pieceIssue_violation :
    let d := { desc 2 32 with dstSpace := 0 }
    ((after (.pieceIssue 0 15) (after (.fill 0 15) (withDesc d))).stream 0 15).errCode = 2 := by decide +kernel
theorem test_pieceComplete :
    let s := withPiece (piece 3 (some [7, 8]))
    (Tab.get? (after (.pieceComplete 4) s).pieces 4) = none ∧ ((after (.pieceComplete 4) s).engine 0).bytes = 2 ∧
    localRead (after (.pieceComplete 4) s) 5 0 2 = [7, 8] := by decide +kernel
theorem test_hostCompletion : ((Tab.get? (after (.hostCompletion .p0 4 (.data [1, 2])) (withPiece (piece 1 none))).pieces 4).bind (·.data)) = some [1, 2] := by
  decide +kernel
theorem test_completionTimeout :
    let t := after (.completionTimeout .p0 4) (withPiece (piece 1 none))
    (t.port .p0).aer = [.timeout] ∧ (t.port .p0).tags = 0 ∧ (Tab.get? t.pieces 4).map (·.err) = some (some 6) := by decide +kernel

/-- Core 9 serves a run; device 3 is reached by port 0 through outbound window 2. -/
def coreUp : State :=
  { run with
    cores := [(9, { run := some 0, alleyDone := 0xFF, alleyErr := 0xFF })]
    protect := { run.protect with outbound := [(2, { target := 3, valid := true, remote := 1, read := true, write := true, atomic := false, tiles := 1, gen := 0 })] }
    net := { run.net with routes := [(3, { primary := 0, alternate := none, hops := 1 })], links := [(0, { state := .up, lanes := 8, tags := 1 })] } }
/-- An alley header of R350: peer space, window 2, 256 bytes to offset 0 of the local store. -/
def alley (op : Nat) : BitVec 256 := BitVec.ofNat 256 (op + 2 * 2 ^ 10 + 256 * 2 ^ 16 + 2 * 2 ^ 32)

theorem test_alleyRead : coreRuns coreUp 9 = true ∧ alleyOk (alley 2) = true ∧ alleyMay coreUp (readAlley (alley 2) .p0) = true ∧
    alleyTag coreUp (readAlley (alley 2) .p0) = true ∧ (readAlley (alley 2) .p0).space = 2 ∧
    ((after (.alleyRead 9 7 (alley 2)) coreUp).core 9).alleyDone = 0x7F ∧
    (Tab.get? (after (.alleyRead 9 7 (alley 2)) coreUp).net.peers 0).map (·.waiter) = some (.alley 9 7) := by decide +kernel
theorem test_alleyWrite : alleyOk (alley 1) = true ∧ ((after (.alleyWrite 9 0 (alley 1)) coreUp).core 9).alleyErr = 0xFE := by decide +kernel
/-- R355: a transfer of level 1 waits behind one of priority 0 that waits at the quarter's port. -/
theorem test_alley_waits :
    let x := readAlley (alley 2) .p0
    let s : State := { coreUp with alleys := [(10 * 64, { x with prio := 0, waits := some 1 })], arrivals := 1 }
    let h : BitVec 256 := (alley 2) ||| (BitVec.ofNat 256 1 <<< 13)
    alleyOk h = true ∧ (readAlley h .p0).prio = 2 ∧ (Tab.get? (after (.alleyRead 9 7 h) s).alleys (9 * 64 + 7)).map (·.waits) = some (some 2) := by
  decide +kernel
theorem test_alleyComplete :
    let x := { readAlley (alley 2) .p0 with space := 0, len := 2, data := [5, 6] }
    let s : State := { coreUp with alleys := [(9 * 64 + 63, x)], cores := [(9, { run := some 0 })] }
    ((after (.alleyComplete 9 63 [] true) s).core 9).alleyDone = BitVec.twoPow 64 63 ∧ localRead (after (.alleyComplete 9 63 [] true) s) 9 0 2 = [5, 6] := by
  decide +kernel

/-! ## Shared cache (R250 to R274) -/

/-- Block 2 of slice 0 is held and holds 0xFFFFFFFF at its start. -/
def held : State :=
  { run with cache := { run.cache with held := [(2, .region 1024)], t1 := [(0x20000, 255), (0x20001, 255), (0x20002, 255), (0x20003, 255)] } }
/-- An atomic of 32 bits on that word, fetching. -/
def atomic (v : Nat) : AtomicArgs := { src := .queueEngine .p0, addr := heldBase + 0x20000, wide := false, operand := BitVec.ofNat 64 v, fetching := true }
def word (c : Instr) : Nat := leNat (Mem.readN (after c held).cache.t1 0x20000 4)

theorem test_atomics_apply : issuerUp held (atomic 1).src = true ∧ reachable held (atomic 1).addr = true ∧ (atomic 1).addr % 4 = 0 ∧
    atomicOld held (atomic 1).addr false = some 0xFFFFFFFF ∧ Mem.wf held.cache.t1 = true := by decide +kernel
/-- R262, R263: wrapping; the old word returns. -/
theorem test_add : word (.add (atomic 2)) = 1 ∧ (after (.add (atomic 2)) held).cache.returned = [255, 255, 255, 255] := by decide +kernel
/-- 1.0 + 2.0 = 3.0 in FP32. -/
theorem test_fadd :
    let s : State := { held with cache := { held.cache with t1 := [(0x20002, 0x80), (0x20003, 0x3F)] } }
    leNat (Mem.readN (after (.fadd (atomic 0x40000000)) s).cache.t1 0x20000 4) = 0x40400000 := by decide +kernel
theorem test_minUnsigned : word (.minUnsigned (atomic 1)) = 1 := by decide +kernel
theorem test_maxUnsigned : word (.maxUnsigned (atomic 1)) = 0xFFFFFFFF := by decide +kernel
theorem test_minSigned : word (.minSigned (atomic 1)) = 0xFFFFFFFF := by decide +kernel
theorem test_maxSigned : word (.maxSigned (atomic 1)) = 1 := by decide +kernel
theorem test_or : word (.or (atomic 0)) = 0xFFFFFFFF := by decide +kernel
theorem test_cas : word (.cas (atomic 5) 0xFFFFFFFF) = 5 ∧ word (.cas (atomic 5) 0) = 0xFFFFFFFF := by decide +kernel
theorem test_cacheRead : devRead held (heldBase + 0x20000) 4 = some [255, 255, 255, 255] ∧
    (after (.cacheRead (.queueEngine .p0) (heldBase + 0x20000) 4 .keep .clean) held).cache.returned = [255, 255, 255, 255] := by decide +kernel
theorem test_cacheWrite : blockHeld held 0 2 = true ∧
    Mem.readN (after (.cacheWrite (.queueEngine .p0) (heldBase + 0x2007F) [9] .stream) held).cache.t1 0x2007E 3 = [0, 9, 0] := by decide +kernel

/-- One active channel and one spare in stack 0: 2 GiB of HBM. -/
def hbm : State :=
  { held with hbm := { held.hbm with
    channels := [(0, { state := .active }), (1, { state := .spare })], perm := [0], spares := [(0, 1)], isOpen := true }
              power := { held.power with scrub := true }, flash := { held.flash with state := .normal } }

theorem test_granuleProbe : issuerUp hbm (.mover 0) = true ∧ isHbm hbm 2048 = true ∧
    (after (.granuleProbe 0 2048 true) (after (.hbmWrite 2048 1 7 (BitVec.allOnes 32)) hbm)).cache.returned.take 2 = [7, 0] := by decide +kernel
theorem test_fence : coreRuns { coreUp with hbm := hbm.hbm } 9 = true ∧
    (wcOf (after (.fence 9) { coreUp with hbm := hbm.hbm, cache := { hbm.cache with wc := [(0, [⟨0, 5, 1, [.core 9]⟩])] } }) 0) = [] := by decide +kernel
theorem test_wcEntryDrain :
    let s := { hbm with cache := { hbm.cache with wc := [(63, [⟨0, 5, 1, [.core 9]⟩])] } }
    (wcFind s 63 0).isSome = true ∧ wcFind (after (.wcEntryDrain 63 0) s) 63 0 = none := by decide +kernel
theorem test_blockGrant : ownerUp run (.tables 0) = true ∧ Tab.get? (after (.blockGrant 63 47 (.tables 0)) run).cache.held (63 * 64 + 47) = some (.tables 0) ∧
    Tab.get? (after (.blockGrant 0 1 (.tables 0)) run).cache.held 1 = none := by decide +kernel
theorem test_blockRelease : ownerUses held (.region 1024) = false ∧ Mem.read (after (.blockRelease 0 2) held).cache.t1 0x20000 = 0 ∧
    Tab.get? (after (.blockRelease 0 2) held).cache.held 2 = none := by decide +kernel

/-! ## HBM (R276 to R318) -/

theorem test_hbmWrite : mapAddr hbm 0x1FE0 = some (0, 3, 0x7E0) ∧ granuleLost hbm (servedBy hbm 0) 3 = false ∧ rtLost hbm 0x1FE0 = false ∧
    hbmSector (after (.hbmWrite 0x1FE0 3 77 (BitVec.allOnes 32)) hbm) 0x1FE0 = some 77 := by decide +kernel
theorem test_hbmRead : (after (.hbmRead 0x1FE0 0 ⟨[5], []⟩) (after (.hbmWrite 0x1FE0 3 77 (BitVec.allOnes 32)) hbm)).hbm.returned = some 77 ∧
    ((after (.hbmRead 0x1FE0 0 ⟨[5], []⟩) hbm).chan 0).eccCorrected = 1 := by decide +kernel
theorem test_patrolScrub : ((after (.patrolScrub 0 (2 ^ 20 - 1) [(63, [5])]) hbm).chan 0).eccCorrected = 1 := by decide +kernel
theorem test_rowRemap :
    let s := hbm.modChan 0 fun x => { x with rowErrors := [(63 * 16384 + 16383, [0, 0, 0, 0])] }
    rowFails s 0 (63 * 16384 + 16383) = true ∧ rowIntact s 0 63 16383 = true ∧ nextSpare (s.chan 0) 63 = some 0 ∧ ((after (.rowRemap 0 63 16383) s).chan 0).remaps = [(63, 16383, 0)] := by
  decide +kernel
theorem test_pageRetire : freeRt hbm = some 0 ∧ rtFind hbm 7 = none ∧ 7 * 4096 < retireBase hbm ∧
    ((Tab.get? (after (.pageRetire 7 3) hbm).hbm.rt 0).map fun e => (e.page, e.lost, e.moved)) = some (7, 3, 3) := by decide +kernel
theorem test_repairRecordWrite :
    let s := { hbm with hbm := { hbm.hbm with recordDirty := true } }
    s.flash.state ≠ .absent ∧ (after .repairRecordWrite s).hbm.recordDirty = false ∧ (after .repairRecordWrite s).hbm.recordSpares = [(0, 1)] := by decide +kernel
theorem test_channelLost : ((after (.channelLost 0) hbm).chan 0).state = .lost := by decide +kernel
theorem test_tgRunStart : ((after (.tgRunStart 1 ⟨.normal, 1⟩) hbm).chan 1).busy = true ∧ ((after (.tgRunStart 0 ⟨.normal, 1⟩) hbm).chan 0).refused = true := by decide +kernel
theorem test_tgStop : ((after (.tgStop ⟨1, 2, 0, []⟩) (after (.tgRunStart 1 ⟨.normal, 1⟩) hbm)).chan 1).done = true := by decide +kernel
theorem test_tgRunDone :
    let s := (after (.tgRunStart 1 ⟨.normal, 1⟩) hbm).modChan 1 fun x => { x with opMode := 1, length := 1 }
    ((after (.tgRunDone 1 []) s).chan 1).done = true ∧ ((after (.tgRunDone 1 []) s).chan 1).fail = false := by decide +kernel

/-- R318: a run of OP_MODE 0 leaves its pattern in granule 5. -/
theorem test_tgRunDone_writes :
    let s := (after (.tgRunStart 1 ⟨.normal, 0x00100001⟩) hbm).modChan 1 fun x => { x with start := 5, length := 1 }
    (s.chan 1).opMode = 0 ∧ chanByte (after (.tgRunDone 1 []) s) 1 5 0 ≠ chanByte s 1 5 0 := by decide +kernel
/-- R286, R289, R291: the first reader has its turn; two wrong symbols return nothing, and a reader of level 0 goes before one of level 1. -/
theorem test_hbmRead_turn : readIssues (Machine.arrive hbm 0x1FE0 1 []) 0x1FE0 1 = true ∧ wrongSymbols hbm 0 3 63 [1, 2] = [1, 2] ∧
    (after (.hbmRead 0x1FE0 1 ⟨[1, 2], []⟩) hbm).hbm.returned = none ∧
    (∃ q ∈ (arbOf ((Machine.arrive hbm 0x1FE0 0 []).chan 0) 1).reads, q.level = 0) := by
  refine ⟨by decide +kernel, by decide +kernel, by decide +kernel, ⟨_, List.Mem.head _, rfl⟩⟩

/-- Channel 0 loses its last row of spares: it must migrate to channel 1. -/
def failing : State := hbm.modChan 0 fun x => { x with remaps := (List.range 56).map fun k => (k, 0, 0) }
/-- The write of MIG_CTRL: START, share 10, target 1. -/
def migCtrl : Word := BitVec.ofNat 32 (1 + 10 * 256 + 1 * 65536)
def copying : State := after (.migrationStart 0 migCtrl) failing
/-- The same with one granule left to copy. -/
def copied : State := copying.modChan 0 fun x => { x with watermark := 2 ^ 20 - 1 }
def aliased : State := after (.migrationCopyDone 0 ⟨2 ^ 20, []⟩) copied

theorem test_migrationStart : mustMigrate failing 0 = true ∧ mayMigrate failing 0 1 = true ∧ (copying.chan 0).state = .migSource ∧
    (copying.chan 1).state = .migTarget ∧ (copying.chan 0).phase = .copy := by decide +kernel
theorem test_migrationAbort : ((after (.migrationAbort 0 .firmware) copying).chan 0).state = .active ∧
    ((after (.migrationAbort 0 .firmware) copying).chan 1).state = .repair := by decide +kernel
theorem test_migrationCopyDone : (copying.chan 1).phase = .idle ∧ (copying.chan 0).migTarget ≠ 0 ∧ Mem.wf copying.hbm.cells = true ∧
    (copying.chan 0).watermark = 0 ∧ (copying.chan 0).wq0 = [] ∧ (copying.chan 0).wq1 = [] ∧ (copying.chan 0).flips = [] ∧
    (copying.chan 1).wq0 ++ (copying.chan 1).wq1 = [] ∧ ((after (.migrationCopyDone 0 ⟨1, []⟩) copying).chan 0).watermark = 1 ∧ (aliased.chan 0).phase = .alias_ ∧ (aliased.chan 0).watermark = 2 ^ 20 ∧ servedBy aliased 0 = 1 := by decide +kernel
theorem test_drainMarker :
    let t := (List.range 8).foldl (fun s u => after (.drainMarker 0 u) s) aliased
    ((after (.drainMarker 0 7) aliased).chan 0).markers = [7] ∧ (t.chan 0).state = .repair ∧ (t.chan 1).state = .active ∧ t.hbm.perm = [1] := by decide +kernel
theorem test_migrationRepair :
    let t := (List.range 8).foldl (fun s u => after (.drainMarker 0 u) s) aliased
    (t.chan 0).migCmd = none ∧ ((after (.migrationRepair 0 ⟨some [], true, []⟩) t).chan 0).state = .spare ∧ ((after (.migrationRepair 0 ⟨some [], false, []⟩) t).chan 0).state = .failed := by
  decide +kernel

/-! ## Flash (R420 to R447) -/

/-- One flash channel of die 0 with one LUN of four blocks of 8 pages; tile 0 stands in block 0, tile 4 waits in the write buffer. -/
def flash : State :=
  { hbm with flash := { hbm.flash with
    state := .normal, isOpen := true, channels := [(0, { state := .active, rate := 3, targets := 1, luns := 1 })], top := 8 * 65536
    profile := { pagesPerBlock := 8, retryEntries := 15, ratedCycles := 10, disturbLimit := 100, refreshBits := 50, spareMin := 0, tReadNs := 1, tSuspNs := 1, gcReserve := 0 }
    lunBlocks := 4, map := [(0, 0), (1, 1), (2, 2), (3, 3)], pages := [(5, 9)], wbuf := [4], wdata := [(4 * 65536 + 3, 7)], wheld := [(4 * 65536 + 3, ())]
    blocks := [(0, { next := 4 })] } }

theorem test_flashRead : flashLoc flash 3 = some 3 ∧ readable flash 3 = true ∧ flash.flash.wbuf.contains 0 = false ∧ (15 : Nat) ≤ retriesAt flash 3 ∧
    (flashBlock (after (.flashRead 3 3 15 [1, 2, 3, 51] true) flash) 0).reads = 1 ∧
    (flashBlock (after (.flashRead 3 3 15 [1, 2, 3, 51] true) flash) 0).retryHint = 15 ∧
    (flashBlock (after (.flashRead 3 3 15 [1, 2, 3, 51] true) flash) 0).refreshDue = true ∧
    (flashBlock (after (.flashRead 3 3 0 [50] true) flash) 0).refreshDue = false := by decide +kernel
theorem test_flashErase :
    let s := { flash with flash := { flash.flash with map := [] } }
    validPages s 0 = [] ∧ (flashBlock (after (.flashErase 0 true) s) 0).erases = 1 ∧ (flashBlock (after (.flashErase 0 true) s) 0).next = 0 ∧
    (flashBlock (after (.flashErase 0 false) s) 0).bad = true := by decide +kernel
/-- R436: with a read of level 1 waiting at the LUN no read of level 2, program or erase of it ends. -/
theorem test_flash_reads_first :
    let s := { flash with flash := { flash.flash with map := [(0, 0)], reads := [⟨0, 1⟩] } }
    lunReads s (lunKey 0 0) ≠ [] ∧ flashLoc s 0 = some 0 ∧ flash.flash.reads = [] ∧ readTurn (queueFlash flash 3 3) 3 3 = true ∧
    (flashBlock (after (.flashRead 0 2 0 [] true) s) 0).reads = 0 ∧ (after (.flashProgram 4 4 true) s).flash.wbuf = [4] ∧
    (flashBlock (after (.flashErase 0 true) s) 0).erases = 0 := by decide +kernel
theorem test_pageRecovery :
    let s := { flash with flash := { flash.flash with recoverDue := [2] } }
    (after (.pageRecovery 2 true) s).flash.wbuf.contains 0 = true ∧ (after (.pageRecovery 2 false) s).flash.lostPages = 1 ∧
    (after (.pageRecovery 2 true) s).flash.recoverDue = [] := by decide +kernel
theorem test_flashRefresh :
    let s := { flash with flash := { flash.flash with blocks := [(0, { next := 4, refreshDue := true })] } }
    (flashBlock s 0).refreshDue = true ∧ (after (.flashRefresh 0) s).flash.wbuf.contains 0 = true ∧ (after (.flashRefresh 0) s).flash.refreshes = 1 := by
  decide +kernel
theorem test_garbageCollection :
    let s := { flash with flash := { flash.flash with blocks := [(0, { next := 5 })] } }
    gcBlock s 0 = some 0 ∧ (after (.garbageCollection 0) s).flash.wbuf.contains 0 = true := by decide +kernel
theorem test_wearLevelling :
    let s := { flash with flash := { flash.flash with blocks := [(0, { next := 4 }), (1, { next := 4, erases := 2 })] } }
    coldestBlock s 0 = some 0 ∧ s.flash.profile.ratedCycles < 10 * eraseSpread s 0 ∧ (after (.wearLevelling 0) s).flash.wbuf.contains 0 = true := by decide +kernel
theorem test_flashPatrol : (flashBlock (after (.flashPatrol 0 15 [0, 0, 0, 0]) flash) 0).reads = 1 := by decide +kernel
theorem test_flashChannelRetrain :
    let t := after (.flashChannelRetrain 0 none) flash
    (flashCh t 0).state = .retraining ∧ (flashCh (after (.flashChannelRetrain 0 (some 0)) t) 0).state = .active ∧
    (flashCh (after (.flashChannelRetrain 0 (some 0)) t) 0).rate = 0 ∧ (flashCh (after (.flashChannelRetrain 0 none) t) 0).state = .failed := by decide +kernel
theorem test_flashProgram : flash.flash.wbuf.contains 4 = true ∧ placeOk flash (flashDie 4) 4 = true ∧ Mem.wf flash.flash.pages = true ∧
    Tab.wf flash.flash.wheld = true ∧ (∀ k ∈ [0, 1, 2, 3], flashLoc flash (4 * 4 + k) = none) ∧
    flashLoc (after (.flashProgram 4 4 true) flash) 19 = some 7 ∧ flashByte (after (.flashProgram 4 4 true) flash) (4 * 65536 + 3) = some 7 ∧
    (after (.flashProgram 4 4 true) flash).flash.wbuf = [] := by decide +kernel

/-! ## Tiers (R395 to R415) -/

/-- A submission entry from its fields: byte offset and value. -/
def entry (fs : List (Nat × Nat)) : BitVec 1024 := BitVec.ofNat 1024 ((fs.map fun (o, v) => v * 2 ^ (8 * o)).foldl (· + ·) 0)
/-- A command of queue pair 1 of port 0. -/
def cmd (e : BitVec 1024) : Cmd := { origin := .sq .p0 1, entry := e, input := [] }
/-- Collection 0 (handle 0x00010000): one segment of one tile, one tile of full vectors. -/
def corpus : Collection :=
  { attrs := { dim := 2 }, dirs := [{ number := 1, segs := [], limits := [], cbGen := 1, listCount := 1, fromEpoch := 0 }], published := 7
    indexTiles := [40], vecTiles := [50], vecUsed := 1 }
/-- The device with it, ENABLED, its tiles in T2, and room in T2 and T4. -/
def home : State :=
  { flash with
    colls := [(0, corpus)], port0 := { flash.port0 with enabled := true }, nextCmd := 5
    tiers := { flash.tiers with map := [(40, { tier := 2, location := 100, kind := .index }), (50, { tier := 2, location := 101, kind := .vectors })] }
    protect := { flash.protect with t2Next := 4096 } }
/-- The same with command 3, admitted, working on it. -/
def with3 (x : Cmd) (f : Collection → Collection) : State := { home with cmds := [(3, x)], colls := [(0, f corpus)] }
/-- TIER_MOVE of the vectors to T4, and back to T2; PARK to T4; WAKE. -/
def moveOut : BitVec 1024 := entry [(0, 8), (1, 2), (2, 9), (4, 0x10000), (0x28, 2 + 4 * 8), (0x2C, 100)]
def moveIn : BitVec 1024 := entry [(0, 8), (1, 1), (2, 9), (4, 0x10000), (0x28, 2 + 2 * 8)]
def park : BitVec 1024 := entry [(0, 9), (1, 2), (2, 9), (4, 0x10000), (0x28, 4 * 8)]
def wake : BitVec 1024 := entry [(0, 10), (1, 2), (2, 9), (4, 0x10000)]

def movingOut : State := with3 { cmd moveOut with stage := .admitted, work := { obj := .vectors, target := 4, tiles := [50] } } fun c => { c with evictions := [3] }
theorem test_deferLimitExpiry : eDeferLimit moveOut = 100 ∧ ((after (.deferLimitExpiry 3) movingOut).cmd? 3).bind (·.completion) ≠ none ∧
    (((after (.deferLimitExpiry 3) movingOut).cmd? 3).bind (·.completion)).map (·.status) = some .objectBusy ∧
    (after (.deferLimitExpiry 3) movingOut).tiers.map = movingOut.tiers.map := by decide +kernel
def movingIn : State :=
  { with3 { cmd moveIn with stage := .admitted, work := { obj := .vectors, target := 2, tiles := [50] } } fun c => { c with promotions := [3] } with
    tiers := { home.tiers with map := [(50, { tier := 4, location := t4Loc 1, kind := .vectors })] } }
theorem test_moveDeadline : eClass moveIn = 1 ∧
    (((after (.moveDeadline 3) movingIn).cmd? 3).bind (·.completion)).map (·.status) = some .tierLate := by decide +kernel
theorem test_moveSwitch : (reserveTiles (freeMove movingIn ((movingIn.cmd? 3).getD default)) 2 [50]).isSome = true ∧ wordFree corpus = true ∧
    ((after (.moveSwitch 3) movingIn).tile 50).tier = 2 ∧
    (((after (.moveSwitch 3) movingIn).cmd? 3).bind (·.completion)).map (fun k => (k.status, k.dw2)) = some (.success, 1) := by decide +kernel
theorem test_evictionSwitch : ((movingOut.coll? 0).bind fun c => evictionOf movingOut c .vectors) = some 3 ∧
    ((after (.evictionSwitch 0 .vectors) movingOut).tile 50).tier = 4 ∧
    (((after (.evictionSwitch 0 .vectors) movingOut).cmd? 3).bind (·.completion)).map (fun k => (k.status, k.dw2)) = some (.success, 1) := by decide +kernel
/-- R410: the INDEX returns to T2, the WAKE completes and a waiting command gets its pin. -/
def waking : State :=
  { home with
    cmds := [(3, { cmd wake with stage := .admitted }), (4, { cmd (entry [(0, 1), (1, 2), (4, 0x10000)]) with waitsWake := true })]
    colls := [(0, { corpus with residency := .waking, wakeCmds := [3, 4], wakeTiles := [(40, 300)], pinIndex := { evicted := true, pins := 0 } })] }
theorem test_wakeSwitch : (waking.cmd? 3).isSome = true ∧ anyLost waking [40] = false ∧ (after (.wakeSwitch 0) waking).tile 40 = { tier := 2, location := 300, kind := .index } ∧
    ((after (.wakeSwitch 0) waking).coll? 0).map (fun c => (c.residency, c.pinIndex.pins)) = some (.resident, 1) ∧
    ((after (.wakeSwitch 0) waking).cmd? 4).map (fun x => (x.waitsWake, x.pinIndex)) = some (false, true) := by decide +kernel
theorem test_park_switch :
    let s := { with3 { cmd park with stage := .admitted, work := { obj := .index, target := 4 } } (fun c => { c with evictions := [3], residency := .parking, image := some { epoch := 7, imageEpoch := 7, recs := [], attrs := corpus.attrs, codebook := [], centroids := [], cbGen := 1, tiles := [1], mirrors := [], imageTiles := 1 } }) with
      flash := home.flash }
    ((s.coll? 0).map fun c => parkCopied s 0 3 c) = some true ∧
    ((after (.evictionSwitch 0 .index) s).coll? 0).map (fun c => (c.residency, c.pinIndex)) = some (.parkedT4, { evicted := true, pins := 0 }) := by decide +kernel
theorem test_t4BackingWrite :
    let s := { home with tiers := { home.tiers with map := [(50, { tier := 2, location := 101, backed := true, backing := t4Loc 1, kind := .vectors })], backingQueue := [50] } }
    t4Writes s = true ∧ (after (.t4BackingWrite 50) s).flash.wbuf.contains (t4TileOf (t4Loc 1)) = true ∧ (after (.t4BackingWrite 50) s).tiers.backingQueue = [] := by
  decide +kernel
theorem test_revokeGraceExpiry :
    let s := { home with
      tiers := { home.tiers with
        lent := [(0, { borrower := 3, window := 5, page := 0, table := 0, revoking := true })]
        borrowed := [(2, { lender := 3, number := 1, window := 6, port := 0, revoked := true })]
        map := [(50, { tier := 3, location := 6 * 2 ^ 23 + 1, backing := t4Loc 1, backed := true, dirty := true, kind := .vectors })] }
      protect := { home.protect with inbound := [(5, { table := 0, tiles := 1, source := 3, anyMember := false, read := true, write := true, atomic := false, valid := true, gen := 9 })] } }
    ((Tab.get? (after (.revokeGraceExpiry 0) s).protect.inbound 5).map fun w => (w.valid, w.gen)) = some (false, 10) ∧
    ((after (.revokeGraceExpiry 65538) s).tile 50).lost = true ∧ ((after (.revokeGraceExpiry 65538) s).tile 50).tier = 4 := by decide +kernel

/-! ## Commands (R486 to R513) -/

/-- The submission entries of the ten data-path commands on collection 0, and their inputs. -/
def search : BitVec 1024 := entry [(0, 1), (1, 2), (2, 7), (4, 0x10000), (0x10, 136), (0x20, 4096), (0x34, 8), (0x38, 10)]
def insert : BitVec 1024 := entry [(0, 2), (1, 2), (2, 7), (4, 0x10000), (0x10, 48), (0x20, 4096), (0x30, 1)]
def upsert : BitVec 1024 := entry [(0, 3), (1, 2), (2, 7), (4, 0x10000), (0x10, 48), (0x20, 4096), (0x30, 1)]
def delete : BitVec 1024 := entry [(0, 4), (1, 2), (2, 7), (4, 0x10000), (0x10, 8), (0x30, 1)]
def fetch : BitVec 1024 := entry [(0, 5), (1, 2), (2, 7), (4, 0x10000), (0x10, 8), (0x20, 4096), (0x30, 1)]
def flush : BitVec 1024 := entry [(0, 6), (1, 2), (2, 7), (4, 0x10000)]
def abort : BitVec 1024 := entry [(0, 7), (1, 2), (2, 7), (0x28, 9), (0x2A, 1)]
/-- One item of two FP32 numbers. -/
def item : List Byte := List.replicate 16 0 ++ [8, 0, 0, 0] ++ List.replicate 28 0

/-- What entryPasses asks, as a computation. -/
def passesB (s : State) (p : PortId) (q : Nat) (e : BitVec 1024) (inp : List Byte) : Bool :=
  let v := entryDrawn s p q e inp
  (checksA (turned s p q) p q e).isNone && (decide (eClass e ≠ 0) || (drawToken (entryTaken s p q e inp)).2) &&
    (match v.cmd? s.nextCmd with
    | some x => match checksB v p x (entryInput (turned s p q) p e inp) with
      | .passes => true
      | _ => false
    | none => true) &&
    match accessOf v p (commandNum s.nextCmd) with
    | some (a, len, w) => decide ((xltRange v p a len w).2 ≠ .noRight)
    | none => true

theorem passes_of {s : State} {p : PortId} {q : Nat} {e : BitVec 1024} {inp : List Byte} (h : passesB s p q e inp = true) :
    s.entryPasses p q e inp := by
  simp only [passesB, Bool.and_eq_true, Option.isNone_iff_eq_none, Bool.or_eq_true, decide_eq_true_eq] at h
  obtain ⟨⟨⟨a, b⟩, c⟩, d⟩ := h
  refine ⟨a, fun z => b.resolve_left (by simp [z]), fun x hx => ?_, fun x len w hw => ?_⟩
  · rw [hx] at c
    simp only at c
    split at c
    · assumption
    · cases c
  · rw [hw] at d
    simpa using d

/-- The device with pair 1's turn at port 0. -/
def turn1 (s : State) : State := s.modPort .p0 fun x => { x with turnOther := (0, 32) }
def atOne : State := turn1 home

/-- The state after a command, and of command 5 (the next one) its stage, its progress word and its completion. -/
def five (c : Instr) (s : State) : Option (Stage × CmdWord × Option (Status × Nat × Nat)) :=
  ((after c s).cmd? 5).map fun x => (x.stage, x.word, x.completion.map fun k => (k.status, k.dw2, k.dw3))

theorem test_search : atOne.fetches .p0 1 search (List.replicate 136 0) 1 ∧ atOne.entryPasses .p0 1 search (List.replicate 136 0) ∧
    five (.search .p0 1 search (List.replicate 136 0)) atOne = some (.waiting, .running, none) :=
  ⟨by unfold State.fetches; decide +kernel, passes_of (by decide +kernel), by decide +kernel⟩
theorem test_insert : atOne.fetches .p0 1 insert item 2 ∧ atOne.entryPasses .p0 1 insert item ∧
    five (.insert .p0 1 insert item) atOne = some (.waiting, .running, none) :=
  ⟨by unfold State.fetches; decide +kernel, passes_of (by decide +kernel), by decide +kernel⟩
theorem test_upsert : atOne.fetches .p0 1 upsert item 3 ∧ atOne.entryPasses .p0 1 upsert item ∧
    five (.upsert .p0 1 upsert item) atOne = some (.waiting, .running, none) :=
  ⟨by unfold State.fetches; decide +kernel, passes_of (by decide +kernel), by decide +kernel⟩
theorem test_delete : atOne.fetches .p0 1 delete (List.replicate 8 0) 4 ∧ atOne.entryPasses .p0 1 delete (List.replicate 8 0) ∧
    five (.delete .p0 1 delete (List.replicate 8 0)) atOne = some (.waiting, .running, none) :=
  ⟨by unfold State.fetches; decide +kernel, passes_of (by decide +kernel), by decide +kernel⟩
theorem test_fetch : atOne.fetches .p0 1 fetch (List.replicate 8 0) 5 ∧ atOne.entryPasses .p0 1 fetch (List.replicate 8 0) ∧
    five (.fetch .p0 1 fetch (List.replicate 8 0)) atOne = some (.waiting, .running, none) :=
  ⟨by unfold State.fetches; decide +kernel, passes_of (by decide +kernel), by decide +kernel⟩
theorem test_flush : atOne.fetches .p0 1 flush [] 6 ∧ atOne.entryPasses .p0 1 flush [] ∧
    five (.flush .p0 1 flush []) atOne = some (.waiting, .committing, none) :=
  ⟨by unfold State.fetches; decide +kernel, passes_of (by decide +kernel), by decide +kernel⟩
theorem test_abort : atOne.fetches .p0 1 abort [] 7 ∧ atOne.entryPasses .p0 1 abort [] ∧
    five (.abort .p0 1 abort []) atOne = some (.decided, .committing, some (.success, 0, 0)) :=
  ⟨by unfold State.fetches; decide +kernel, passes_of (by decide +kernel), by decide +kernel⟩
theorem test_tierMove : atOne.fetches .p0 1 moveOut [] 8 ∧ atOne.entryPasses .p0 1 moveOut [] ∧
    five (.tierMove .p0 1 moveOut []) atOne = some (.waiting, .running, none) :=
  ⟨by unfold State.fetches; decide +kernel, passes_of (by decide +kernel), by decide +kernel⟩
theorem test_park : atOne.fetches .p0 1 park [] 9 ∧ atOne.entryPasses .p0 1 park [] ∧
    five (.park .p0 1 park []) atOne = some (.waiting, .running, none) :=
  ⟨by unfold State.fetches; decide +kernel, passes_of (by decide +kernel), by decide +kernel⟩
theorem test_wake : atOne.fetches .p0 1 wake [] 10 ∧ atOne.entryPasses .p0 1 wake [] ∧
    five (.wake .p0 1 wake []) atOne = some (.waiting, .committing, none) :=
  ⟨by unfold State.fetches; decide +kernel, passes_of (by decide +kernel), by decide +kernel⟩

/-- R498: a reserved byte set in a FLUSH entry. -/
theorem test_failing_check : atOne.fetches .p0 1 (flush ||| (1 <<< 700)) [] 6 ∧ (checksA atOne .p0 1 (flush ||| (1 <<< 700))).map (·.status) = some .invalidField ∧
    atOne.security.activating = none ∧
    five (.flush .p0 1 (flush ||| (1 <<< 700)) []) atOne = some (.decided, .committing, some (.invalidField, 0, 0)) ∧
    ((after (.flush .p0 1 (flush ||| (1 <<< 700)) []) atOne).pair .p0 1).state = .frozen :=
  ⟨by unfold State.fetches; decide +kernel, by decide +kernel, by decide +kernel, by decide +kernel, by decide +kernel⟩

/-- R512, R513: the ABORT of a running move. -/
theorem test_abort_wins : let s := turn1 { movingOut with nextCmd := 5 }
    s.fetches .p0 1 abort [] 7 ∧ s.entryPasses .p0 1 abort [] ∧
    (s.cmds.filter (fun y => y.2.origin == .sq .p0 (eTargetQp abort) && eTag y.2.entry == eTargetTag abort)).map (·.1) = [3] ∧
    (s.cmd? 3).map (fun x => (x.word, eOpcode x.entry, x.detached, x.completion.isNone, x.stage)) = some (.running, 8, false, true, .admitted) ∧
    (((after (.abort .p0 1 abort []) s).cmd? 3).bind (·.completion)).map (·.status) = some .aborted ∧
    ((after (.abort .p0 1 abort []) s).cmd? 5).map (fun x => (x.stage, x.work.victim)) = some (.admitted, some 3) :=
  ⟨by unfold State.fetches; decide +kernel, passes_of (by decide +kernel), by decide +kernel, by decide +kernel, by decide +kernel, by decide +kernel⟩

/-- A command of queue pair 1 that is decided, as number 5. -/
def done : Cmd := { cmd flush with stage := .decided, completion := some { status := .success, dw2 := 0, dw3 := 0, epoch := 0 } }
def withDone : State := { home with cmds := [(5, done)], nextCmd := 6 }
theorem test_completionPost : live withDone = true ∧ mayPost withDone done .p0 1 = true ∧ accessWaits withDone .p0 (commandNum 5) = false ∧
    accessPasses withDone .p0 (commandNum 5) = true ∧ cqIsFull (withDone.pair .p0 1) = false ∧ done.result = [] ∧
    (withDone.port .p0).d3hot = false ∧ ((after (.completionPost 5 .p0 (.cq 1)) withDone).pair .p0 1).cqTail = 6 ∧
    ((after (.completionPost 5 .p0 (.cq 1)) withDone).port .p0).sent.length = 1 ∧
    ((after (.completionPost 5 .p0 (.cq 1)) { withDone with cmds := [(5, { done with cqeErr := true })] }).pair .p0 1).heldWrite = some 5 := by decide +kernel
theorem test_completionPost_full : let s := withDone.modPair .p0 1 fun y => { y with cqTail := 15, cqHead := 0 }
    mayPost s done .p0 1 = true ∧ cqIsFull (s.pair .p0 1) = true ∧ ((after (.completionPost 5 .p0 (.cq 1)) s).pair .p0 1).cqFull = true := by decide +kernel
/-- R673: the result could not be written; R371: the place of the entry has no translation yet. -/
theorem test_completionPost_result : (((after (.completionPost 5 .p0 (.cq 1)) { withDone with cmds := [(5, { done with resultErr := true })] }).port .p0).sent.any fun x =>
      match x with
      | .cqe q n _ => q == 1 && n == 5
      | _ => false) = true ∧
    (after (.completionPost 5 .p0 (.cq 1)) { withDone with cmds := [(5, { done with resultErr := true })] }).cmd? 5 = none := by decide +kernel
theorem test_completionPost_untranslated :
    let s := withDone.modPort .p0 fun x => { x with xlt := { x.xlt with atsOn := true } }
    mayPost s done .p0 1 = true ∧ accessOf s .p0 (commandNum 5) = some (0x20000 + 5 * 32, 32, true) ∧
    (xltRange s .p0 (0x20000 + 5 * 32) 32 true).2 = .miss ∧ accessWaits (after (.completionPost 5 .p0 (.cq 1)) s) .p0 (commandNum 5) = true := by decide +kernel
theorem test_sqFetchFailure :
    let s := home.modPair .p0 1 fun y => { y with fetchErr := true }
    canFetch s .p0 1 = true ∧ ((after (.sqFetchFailure .p0 1 true) s).pair .p0 1).freezeStatus.toNat = statusCode .hostFault ∧
    (home.pair .p0 1).fetchErr = false ∧ ((after (.sqFetchFailure .p0 1 false) home).pair .p0 1).sqHead = 1 := by decide +kernel

/-- The DELETE waits, as command 3. -/
def deleting : State := with3 { cmd delete with input := List.replicate 8 0 } id
theorem test_commandAdmit_delete : admissible deleting 3 { cmd delete with input := List.replicate 8 0 } = true ∧
    admitTurn deleting 3 { cmd delete with input := List.replicate 8 0 } = true ∧ inT2 corpus = true ∧
    forwardTo deleting corpus { cmd delete with input := List.replicate 8 0 } = none ∧
    ((after (.commandAdmit 3) deleting).cmd? 3).map (fun x => (x.stage, x.pinIndex, x.work.group)) = some (.admitted, true, some 0) ∧
    ((after (.commandAdmit 3) deleting).coll? 0).map (fun c => (c.pinIndex.pins, c.groups.length)) = some (1, 1) := by decide +kernel
theorem test_commandAdmit_insert :
    let x := { cmd insert with input := item }
    let s := with3 x id
    admissible s 3 x = true ∧ eInputFormat insert = 0 ∧ 0 < mutationNeed s 0 corpus insert item ∧
    ((after (.commandAdmit 3) s).coll? 0).map (·.stagingUsed) = some (mutationNeed s 0 corpus insert item) := by decide +kernel
theorem test_commandAdmit_parked :
    let x := { cmd fetch with input := List.replicate 8 0 }
    let s := with3 x fun c => { c with residency := .parkedT4, attrs := { c.attrs with stagingMiB := 1 } }
    let w := with3 x fun c => { c with residency := .parkedT4, attrs := { c.attrs with session := true, stagingMiB := 1 } }
    admissible s 3 x = true ∧ (((after (.commandAdmit 3) s).cmd? 3).bind (·.completion)).map (·.status) = some .collectionParked ∧
    admissible w 3 x = true ∧ ((takeT2 1 w).bind fun y => (takePages y.2 256 16).map (·.1)) ≠ none ∧
    ((after (.commandAdmit 3) w).coll? 0).map (fun c => (c.residency, c.wakeCmds)) = some (.waking, [3]) ∧
    ((after (.commandAdmit 3) { w with colls := Tab.adjust w.colls 0 fun c => { c with residency := .waking } }).cmd? 3).map (·.waitsWake) = some true := by
  decide +kernel
/-- R175, R178: the FETCH after a DELETE of its queue waits; alone it reads at the published epoch. -/
theorem test_commandAdmit_fetch :
    let x := { cmd fetch with input := List.replicate 8 0 }
    let s := with3 x id
    let d := { s with cmds := [(2, { cmd delete with input := List.replicate 8 0, stage := .admitted }), (3, x)] }
    mutationsDone d 3 x = false ∧ admitTurn d 3 x = true ∧ ((after (.commandAdmit 3) d).cmd? 3).map (·.stage) = some .waiting ∧
    admissible s 3 x = true ∧ isHome s corpus = true ∧ eFetchSnapValid x.entry = false ∧
    ((after (.commandAdmit 3) s).cmd? 3).map (fun y => (y.snapshot, y.stage)) = some (some 7, .decided) := by decide +kernel
/-- R535: GET_FEATURES of FID 6. -/
theorem test_commandAdmit_admin :
    let x : Cmd := { cmd (entry [(0, 0x82), (1, 2), (2, 7), (0x28, 6)]) with origin := .sq .p0 0 }
    let s := with3 x id
    mayStartAdmin s 3 x = true ∧ eFlags x.entry % 4 = 0 ∧
    (((after (.commandAdmit 3) s).cmd? 3).bind (·.completion)).map (fun k => (k.status, k.dw2)) = some (.success, s.tiers.lendQuota) := by decide +kernel

/-! ## Ingest (R158 to R195) -/

/-- An admitted command of a closed group of one. -/
def grouped (e : BitVec 1024) (items : List Item) (f : Collection → Collection) : State :=
  with3 { cmd e with stage := .admitted, work := { items := items, group := some 0 } } fun c =>
    f { c with groups := [(0, { members := [3], closed := true })] }
theorem test_commitWindowExpiry :
    let s := grouped insert [{}] fun c => { c with groups := [(0, { members := [3], closed := false })] }
    ((after (.commitWindowExpiry 0 0) s).coll? 0).map (fun c => (Tab.get? c.groups 0).map (·.closed)) = some (some true) ∧
    ((after (.commitWindowExpiry 0 0) s).cmd? 3).map (·.word) = some .committing := by decide +kernel
/-- One prepared item, in the staging entry 0. -/
def inserting : State := grouped insert [{ full := [0, 0, 0, 0], working := [0, 0], lists := [0], codes := [[0]], entry := 0 }] fun c => { c with
  nextLocal := 2 ^ 34 - 1, idCeiling := 2 ^ 34
  staging := [(0, { cmd := 3, insE := none, delE := none, vid := 0, attr := 0, lists := [0], codes := [[0]], full := [0, 0, 0, 0], working := [0, 0], appended := [], tokens := [], bytes := 64 })] }
theorem test_commit_insert : commitReady inserting 0 0 = true ∧ eOutLen insert = 4096 ∧
    ((after (.commit 0 0) inserting).coll? 0).map (fun c => (c.published, c.nextLocal)) = some (8, 2 ^ 34) ∧
    (((after (.commit 0 0) inserting).cmd? 3).bind (·.completion)).map (fun k => (k.status, k.dw2, k.epoch)) = some (.success, 1, 8) := by decide +kernel
theorem test_commit_others :
    let d := grouped delete [{ vid := 9 }] id
    let e := grouped delete [{ vid := 9 }] fun c => { c with published := 2 ^ 64 - 2, ceiling := 2 ^ 64 - 1 }
    commitReady d 0 0 = true ∧ ((after (.commit 0 0) d).coll? 0).map (·.published) = some 7 ∧
    lastEpoch = 2 ^ 64 - 1 ∧ commitReady e 0 0 = true ∧
    (((after (.commit 0 0) e).cmd? 3).bind (·.completion)).map (·.status) = some .epochExhausted := by decide +kernel
theorem test_ceilings :
    let s := with3 (cmd delete) fun c => { c with published := 2 ^ 64 - 2 ^ 32 - 8, ceiling := 2 ^ 64 - 2 ^ 32 - 4, nextLocal := 2 ^ 34 - 9, idCeiling := 2 ^ 34 - 1 }
    ((after (.ceilingRaise 0) s).coll? 0).map (·.ceiling) = some (2 ^ 64 - 8) ∧ fwServes s = true ∧ t4Writes s = true ∧
    ((after (.idCeilingRaise 0) s).coll? 0).map (·.idCeiling) = some (2 ^ 34) := by decide +kernel
/-- A committed staging entry, to be appended to list 0. -/
def staged : State := with3 (cmd delete) fun c => { c with
  staging := [(0, { cmd := 3, insE := some 7, delE := none, vid := 5, attr := 0, lists := [0], codes := [[0]], full := [0, 0, 0, 0], working := [0, 0], appended := [], tokens := [], bytes := 64 })] }
theorem test_stagedAppend : fwServes staged = true ∧ awake staged = true ∧ (staged.coll? 0).map (fun c => (toAppend c 0, c.restoring)) = some ([0], false) ∧
    (appendList staged 0 0).isSome = true ∧
    ((after (.stagedAppend 0 0) staged).coll? 0).map (fun c => ((latestDir c).number, c.published)) = some (2, 7) := by decide +kernel
/-- Two sealed segments with one live record between them. -/
def sparse : State := { with3 (cmd delete) fun c => { c with
    indexTiles := [], segs := [(40, { list := 0, base := 1, sealEpoch := 3, cbGen := 1, recs := [{ code := [0], attr := 0, vid := 5, insLo := 0 }] }), (41, { list := 0, base := 3, sealEpoch := 4, cbGen := 1 })]
    dirs := [{ number := 1, segs := [(0, [40, 41])], limits := [], cbGen := 1, listCount := 1, fromEpoch := 0 }] } with
  tiers := { home.tiers with map := [(40, { tier := 2, location := 100, kind := .index }), (41, { tier := 2, location := 102, kind := .index })] } }
theorem test_compaction : (sparse.coll? 0).map (fun c => sealedSegs c 0) = some [40, 41] ∧ compactReady sparse 0 0 = true ∧
    (sparse.tile 41).lost = false ∧ ((sparse.coll? 0).map fun c =>
      decide ((placeRuns (packRuns (slotCount c.attrs) 1 (byEpoch (keptRecs c (retainFloor sparse 0 c) [40, 41]))) sparse 0 0 1 true).2.length = 1)) = some true ∧
    ((after (.compaction 0 0) sparse).coll? 0).map (fun c => (listSegs (latestDir c) 0).length) = some 1 := by decide +kernel
/-- R183: a FLUSH of durable epochs waits for the image. -/
theorem test_imageWrite :
    let s := { with3 { cmd flush with stage := .admitted, work := { durableOf := [(0, 7)] } } id with
      flash := { home.flash with lunBlocks := 400 } }
    t4Writes s = true ∧ durableWaiters s 0 = [3] ∧ (s.coll? 0).map (fun c => (imageUnreadable s c, (startImage s 0 (wholeDue s 0 c)).isSome)) = some (false, true) ∧
    ((after (.imageWrite 0) s).coll? 0).map (fun c => c.pendingImage.map (·.epoch)) = some (some 7) := by decide +kernel
/-- R193: a retraining that has its shadow. -/
theorem test_cutover :
    let x : Cmd := { cmd (entry [(0, 0x98), (1, 2), (4, 0x10000)]) with stage := .admitted, origin := .sq .p0 0 }
    let s := with3 x fun c => { c with maint := some { cmd := 3, kind := .retrain, codebook := [1], centroids := [2], gen := 2, listCount := 1, tiles := [60], waits := [] } }
    cutoverReady s 0 = true ∧ (cutoverAt s 0 8).isSome = true ∧ isMutation (eOpcode x.entry) = false ∧
    ((after (.cutover 0) s).coll? 0).map (fun c => (c.published, c.cbGen, c.codebook)) = some (8, 2, [1]) ∧
    (((after (.cutover 0) s).cmd? 3).bind (·.completion)).map (fun k => (k.status, k.epoch)) = some (.success, 8) := by decide +kernel

/-- R82: a cutover whose epoch would be the last. -/
theorem test_cutover_last :
    let s := with3 { cmd (entry [(0, 0x98), (1, 2), (4, 0x10000)]) with stage := .admitted, origin := .sq .p0 0 } fun c => { c with
      published := 2 ^ 64 - 2, ceiling := 2 ^ 64 - 1
      maint := some { cmd := 3, kind := .retrain, codebook := [1], centroids := [2], gen := 2, listCount := 1, tiles := [60], waits := [] } }
    cutoverReady s 0 = true ∧ ((after (.cutover 0) s).coll? 0).map (fun c => (c.published, c.maint.isNone)) = some (2 ^ 64 - 2, true) ∧
    (((after (.cutover 0) s).cmd? 3).bind (·.completion)).map (·.status) = some .epochExhausted := by decide +kernel

/-! ## Search (R93 to R156) and runs (R196 to R235) -/

/-- A search of list 0, as command 3, with its work. -/
def searching (w : SearchWork) (f : Collection → Collection) : State :=
  with3 { cmd search with stage := .admitted, snapshot := some 7, search := { w with query := [0, 0], dir := 1, listCount := 1 } } fun c =>
    f { c with dirs := [{ number := 1, segs := [(0, [40])], limits := [(0, 1)], cbGen := 1, listCount := 1, fromEpoch := 0 }]
               segs := [(40, { list := 0, base := 1, cbGen := 1, recs := [{ code := [0], attr := 0, vid := 5, insLo := 1 }] })], indexTiles := [] }
def coarse : State := searching { phase := .coarse } id
theorem test_coarsePass : (passQueries coarse 0 0).map (·.1) = [3] ∧
    ((after (.coarsePass 0 0) coarse).cmd? 3).map (fun x => (x.search.phase, x.search.partials.map (fun y => (y.1, y.2.map (·.2))))) = some (.coarse, [(0, [0])]) := by
  decide +kernel
theorem test_coarsePass_last :
    let s := searching { phase := .coarse, partials := (List.range 7).map fun d => (d + 1, []) } id
    (passQueries s 0 0).map (·.1) = [3] ∧ ((after (.coarsePass 0 0) s).cmd? 3).map (fun x => (x.search.phase, x.search.order)) = some (.scanning, [0]) := by
  decide +kernel
/-- The search in a batch of list 0. -/
def batched (b : Batch) : State := { searching { phase := .scanning, order := [0], scanned := [0], batches := [0] } id with batches := [(0, b)] }
def newBatch : Batch := { coll := 0, list := 0, dir := 1, members := [3] }
theorem test_batchHoldExpiry :
    let s := batched newBatch
    okGrants [] = true ∧ coresFor s newBatch [0] = true ∧ (s.coll? 0).map (fun c => decide (batchTiles c (dirNum c 1) 0 = [.segment 40 1])) = some true ∧
    (Tab.get? (after (.batchHoldExpiry 0 [0] []) s).batches 0).map (fun b => (b.launched, b.undealt, b.workers.map (·.1))) = some (true, [], [0]) ∧
    ((after (.batchHoldExpiry 0 [0] []) s).core 0).batch = some 0 := by decide +kernel
theorem test_batchLaunch :
    let s := batched { newBatch with members := List.replicate 32 3 }
    batchFull s { newBatch with members := List.replicate 32 3 } = true ∧ coresFor s newBatch [1, 2] = true ∧ batchTurn s 0 newBatch = true ∧
    (Tab.get? (after (.batchLaunch 0 [1, 2] []) s).batches 0).map (fun b => (b.launched, b.undealt, b.workers.map (·.1))) = some (true, [], [1]) := by decide +kernel
/-- Core 0 scores the tile, which holds one record; core 1's work is over. -/
def scoring : State := { batched { newBatch with launched := true, workers := [(0, { tile := .segment 40 1 })] } with cores := [(0, { batch := some 0 })] }
theorem test_tileScored : (scoring.core 0).batch = some 0 ∧ workLost scoring (.segment 40 1) = none ∧
    ((after (.tileScored ⟨0, none⟩) scoring).cmd? 3).map (fun x => x.search.flights.map (fun f => (f.square, f.input, f.run.map (·.vid)))) = some [(.pair 0, 0, [5])] ∧
    ((after (.tileScored ⟨0, none⟩) scoring).core 0).batch = none := by decide +kernel
theorem test_tileScored_more :
    let s := { scoring with batches := Tab.adjust scoring.batches 0 fun b => { b with undealt := [.segment 40 3] } }
    (Tab.get? (after (.tileScored ⟨0, none⟩) s).batches 0).map (fun b => (b.undealt, b.workers.map (fun y => (y.1, y.2.tile)))) = some ([], [(0, .segment 40 3)]) := by
  decide +kernel
/-- R246: the batch's program faults. -/
theorem test_tileScored_fault : (scoring.core 0).run = none ∧
    (((after (.tileScored ⟨0, some .program⟩) scoring).cmd? 3).bind (·.completion)).map (·.status) = some .coreFault ∧
    ((after (.tileScored ⟨0, some .program⟩) scoring).core 0).faulted = true := by decide +kernel
theorem test_selection : ([{ key := 3, vid := 1, loc := .slot 0 0 }, { key := 2, vid := 2, loc := .slot 0 1 }, { key := 5, vid := 3, loc := .slot 0 2 }] : List Cand)
    |>.map sortKey |>.Nodup := by decide +kernel
theorem test_selection_value : let l : List Cand := [{ key := 3, vid := 1, loc := .slot 0 0 }, { key := 2, vid := 2, loc := .slot 0 1 }, { key := 5, vid := 3, loc := .slot 0 2 }]
    (selectN 2 (l.foldl (offer 2) {}).entries).map (·.vid) = [2, 1] := by decide +kernel
/-- R145: the nearer copy of an ID stays, and the order is by key. -/
def near (k : BitVec 32) (v : BitVec 48) : Cand := { key := k, vid := v, loc := .slot 40 0 }
def merging : State := searching { phase := .scanning, order := [0], squares := [(squareNum (.quarter 3), { running := [near 2 5, near 4 6] })]
                                   flights := [{ square := .quarter 3, input := 31, run := [near 1 6, near 7 8] }] } id
theorem test_squareRun : (SquareId.quarter 3).ok = true ∧ (merging.cmd? 3).map (fun x => (squareTurn merging 3 x (.quarter 3), inputTurn merging x (.quarter 3) 31)) = some (true, true) ∧ (scanningCmd merging 3).isSome = true ∧
    ((merging.cmd? 3).map fun x => ((squareNode x (.quarter 3)).running.map (·.vid), x.search.flights.length, kEff x.entry)) = some ([5, 6], 1, 10) ∧
    ((after (.squareRun 3 (.quarter 3) ⟨31, false⟩) merging).cmd? 3).map (fun x => ((squareNode x (.quarter 3)).running.map (fun y => (y.key, y.vid)), x.search.flights.length)) =
      some ([(1, 6), (2, 5), (7, 8)], 0) := by decide +kernel
/-- R148: 64 entries of a run merge, the rest waits at the input; a search whose input came later waits. -/
theorem test_squareRun_burst :
    let f (n a : Nat) : Flight := { square := .quarter 3, input := 31, run := (List.range n).map (fun k => near (BitVec.ofNat 32 k) (BitVec.ofNat 48 k)), arrived := a }
    let w (fs : List Flight) : State := searching { phase := .scanning, order := [0], flights := fs } id
    let x := ((w [f 66 2]).cmd? 3).getD default
    let y := { w [f 1 2] with cmds := [(3, { x with search := { x.search with flights := [f 1 2] } }), (4, { x with search := { x.search with flights := [f 1 1] } })] }
    let e := { x with entry := search ||| (1 <<< 455) }
    (((after (.squareRun 3 (.quarter 3) ⟨31, false⟩) { w [] with cmds := [(3, e)] }).cmd? 3).map (fun x => x.search.flights.map (·.run.length))) = some [2] ∧
    ((y.cmd? 3).bind fun x => firstArrival y x (.quarter 3), (y.cmd? 4).bind fun x => firstArrival y x (.quarter 3)) = (some 2, some 1) ∧
    after (.squareRun 3 (.quarter 3) ⟨31, false⟩) y = y := by decide +kernel
/-- The search at square 0 of its pairs, with END on its other input. -/
def ending (q : SquareId) (es : List Nat) (below : List (Nat × SquareNode)) : State :=
  searching { phase := .scanning, order := [0], scanned := [0], squares := below ++ [(squareNum q, { running := [near 2 5], ended := es })] } id
theorem test_squareEnd :
    let s := ending (.pair 0) [] []
    (scanningCmd s 3).isSome = true ∧ ((s.cmd? 3).map fun x => (squareInputs s x (.pair 0), endDue s x (.pair 0) 1)) = some ([0, 1], true) ∧
    ((after (.squareEnd 3 (.pair 0) 1) s).cmd? 3).map (fun x => ((squareNode x (.pair 0)).ended, x.search.flights.length)) = some ([1], 0) ∧
    ((after (.squareEnd 3 (.pair 0) 1) (ending (.pair 0) [0] [])).cmd? 3).map (fun x => ((squareNode x (.pair 0)).done, x.search.flights.map (fun f => (f.square, f.input)))) =
      some (true, [(.quarter 0, 0)]) := by decide +kernel
theorem test_squareEnd_device :
    let s := ending .device [0, 1, 2, 3, 4, 5, 6] [(squareNum (.die 7), { done := true })]
    s.scheds = [] ∧ ((s.cmd? 3).map fun x => (squareInputs s x .device, endDue s x .device 7, eRerank x.entry, eWidenLimit x.entry, eK x.entry)) = some ([0, 1, 2, 3, 4, 5, 6, 7], true, 0, 0, 10) ∧
    ((after (.squareEnd 3 .device 7) s).cmd? 3).map (fun x => (x.result.length, x.completion.map fun k => (k.status, k.dw2, k.dw3))) = some (240, some (.shortResult, 1, 1)) := by
  decide +kernel
/-- R227: tile 50 holds the full vector of a candidate to re-rank. -/
theorem test_tileBoundExpiry :
    let s := with3 { cmd (search ||| (1 <<< 501)) with stage := .admitted, snapshot := some 7, search := { phase := .reranking, merged := [near 2 5] } } fun c => { c with
      idMap := [(5, ⟨7, none, []⟩)], fulls := [(5 * 2 ^ 64 + 7, (50, 0, [0, 0, 0, 0]))] }
    (s.tile 50).kind = .vectors ∧ rerankReaders s 0 .vectors 50 = [3] ∧
    (((after (.tileBoundExpiry 50) s).cmd? 3).bind (·.completion)).map (·.status) = some .tierLate := by decide +kernel

/-- A schedule of one quarter, four steps and two references. -/
def plan : Sched :=
  { gen := 1, loaded := true, header := { kind := 2, stepCount := 4, batchMax := 2, quarters := 1, checkClock := 0, runBound := 100, poolSlots := 3, actBytes := 65537 }
    steps := [⟨1, 0, 0, 0, 0, 0, 0, 0, 0, 0, 0, 0⟩, ⟨2, 0, 0, 2, 0, 0, 0, 0, 0, 0, 0, 0⟩, ⟨3, 0, 2, 0, 0, 0, 0, 0, 0, 0, 0, 0⟩, ⟨4, 0, 2, 0, 0, 0, 0, 0, 0, 0, 0, 0⟩]
    refs := [⟨0, 2, 0, 0, 50, 5, 0⟩, ⟨1, 2, 0, 1, 60, 5, 0⟩] }
/-- An UPSERT of one text, as command 3, and a run that embeds it. -/
def embedding (k : Nat) (r : Run) : State :=
  { with3 { cmd upsert with stage := .admitted, work := { items := [{ data := [65] }] } } id with
    scheds := [(0, { plan with header := { plan.header with kind := k } })], runs := [(0, r)] }
def waitingRun : Run := { sched := 0, seqs := [⟨3, 0⟩, ⟨3, 0⟩] }
def begunRun : Run := { waitingRun with seqs := [⟨3, 0⟩], launched := true, begun := true, quarters := [4] }
set_option maxRecDepth 1000000 in
theorem test_runLaunch :
    let s := embedding 2 waitingRun
    okGrants [7] = true ∧ runTurn s 0 waitingRun = true ∧ runDue s waitingRun = true ∧ canReserve s (s.sched 0).header [4] = true ∧
    ((after (.runLaunch 0 [4] [7]) s).core 319).run = some 0 ∧ ((after (.runLaunch 0 [4] [7]) s).core 320).run = none ∧
    (after (.runLaunch 0 [4] [7]) s).cache.held.length = s.cache.held.length + 5 := by decide +kernel
set_option maxRecDepth 1000000 in
theorem test_runHoldExpiry :
    let s := embedding 2 { waitingRun with seqs := [⟨3, 0⟩] }
    runTurn s 0 { waitingRun with seqs := [⟨3, 0⟩] } = true ∧ canReserve s (s.sched 0).header [4] = true ∧
    (Tab.get? (after (.runHoldExpiry 0 [4] []) s).runs 0).map (fun r => (r.launched, r.begun, r.quarters)) = some (true, true, [4]) := by decide +kernel
theorem test_tileIssue : mayIssue (embedding 2 begunRun) begunRun = true ∧
    (Tab.get? (after (.tileIssue 0) (embedding 2 begunRun)).runs 0).map (·.issued) = some 1 := by decide +kernel
theorem test_tileLanded :
    let r := { begunRun with step := 1, issued := 2, landed := [1] }
    refRead (embedding 2 r) r 0 = true ∧ landedBytes (embedding 2 r) ((embedding 2 r).sched 0) ⟨0, 2, 0, 0, 50, 5, 0⟩ [9, 8] = some [9, 8] ∧
    (Tab.get? (after (.tileLanded 0 ⟨0, [9, 8]⟩) (embedding 2 r)).runs 0).map (fun r => (r.landed, r.worked)) = some ([1, 0], 2) := by decide +kernel
/-- R206: the tile stands in its pool slot. -/
theorem test_tileLanded_slot :
    let r := { begunRun with step := 1, issued := 2 }
    let s := { embedding 2 r with cache := { run.cache with held := [(2, .run 0)] } }
    runBlock s 0 0 = some 0x20000 ∧ Mem.readN (after (.tileLanded 0 ⟨0, [9, 8]⟩) s).cache.t1 0x20000 3 = [9, 8, 0] := by decide +kernel
/-- A schedule with one weight tile, number 50, which is LOST; or lies in T4 with its pages 0 to 3 unread. -/
def weighing (e : TileEntry) (r : Run) : State :=
  { embedding 2 r with
    scheds := [(0, { plan with refs := [⟨0, 2, 0, 0, 50, 5, 0⟩], weightTiles := [50] })]
    tiers := { home.tiers with map := [(50, e)] } }
theorem test_tileLanded_lost :
    let r := { begunRun with issued := 1 }
    let s := weighing { tier := 2, location := 101, kind := .weights, lost := true } r
    landedBytes s (s.sched 0) ⟨0, 2, 0, 0, 50, 5, 0⟩ [] = none ∧ refRead s r 0 = true ∧
    (((after (.tileLanded 0 ⟨0, []⟩) s).cmd? 3).bind (·.completion)).map (·.status) = some .dataError := by decide +kernel
/-- R216, R436. -/
theorem test_tileIssue_t4 :
    let s := weighing { tier := 4, location := t4Loc 0, kind := .weights } begunRun
    refPages s (s.sched 0) ⟨0, 2, 0, 0, 50, 5, 0⟩ = [0, 1, 2, 3] ∧ mayIssue s begunRun = true ∧
    (after (.tileIssue 0) s).flash.reads = (List.range 4).map fun p => ⟨p, 2⟩ := by decide +kernel
theorem test_tokenise : utf8Ok (seqText (embedding 2 begunRun) ⟨3, 0⟩) = true ∧ (stepOf (embedding 2 begunRun) begunRun).map (·.op) = some 1 ∧
    (Tab.get? (after (.tokenise 0) (embedding 2 begunRun)).runs 0).map (·.step) = some 1 := by decide +kernel
theorem test_layer :
    let r := { begunRun with step := 1, issued := 2, landed := [1, 0], worked := 2 }
    (stepOf (embedding 2 r) r).map (fun p => (p.op, p.tileFirst + p.tileCount)) = some (2, 2) ∧
    (Tab.get? (after (.layer ⟨0, [], none⟩) (embedding 2 r)).runs 0).map (·.step) = some 2 ∧
    (Tab.get? (after (.layer ⟨0, [], none⟩) (embedding 2 { r with worked := 1 })).runs 0).map (·.step) = some 1 := by decide +kernel
/-- R197, R199: INT4 (1, 2) by (3, 4) is 11, on core 256 of the run's quarter. -/
theorem test_layer_dot :
    let r := { begunRun with step := 1, issued := 2, landed := [1, 0], worked := 2 }
    let o : UnitOp := .dot 256 2 2 2 0 1 4 5 8
    let s := localWrite { embedding 2 r with
      scheds := [(0, { plan with header := { plan.header with localBytes := 64 }, steps := plan.steps.set 1 ⟨2, 2, 0, 2, 0, 0, 2, 0, 0, 0, 0, 0⟩ })]
      cores := [(256, { run := some 0 })] } 256 0 [0x21, 0x43]
    (stepOf s r).map (fun p => opFits s 0 (s.sched 0).header p o) = some true ∧ Mem.wf s.localStore = true ∧
    localRead (after (.layer ⟨0, [o], none⟩) s) 256 8 4 = [11, 0, 0, 0] := by decide +kernel
theorem test_layer_fault :
    let r := { begunRun with step := 1, issued := 2, landed := [1, 0], worked := 2 }
    let s := { embedding 2 r with cores := [(256, { run := some 0 })] }
    (s.core 256).batch = none ∧ (Tab.get? (after (.layer ⟨0, [], some (256, .program)⟩) s).runs 0) = none ∧
    (((after (.layer ⟨0, [], some (256, .program)⟩) s).cmd? 3).bind (·.completion)).map (·.status) = some .scheduleFault := by decide +kernel
theorem test_peerReduce :
    let r := { begunRun with step := 2, issued := 2, landed := [1, 0], worked := 2 }
    (stepOf (embedding 2 r) r).map (·.op) = some 3 ∧ (Tab.get? (after (.peerReduce 0) (embedding 2 r)).runs 0).map (·.step) = some 3 := by decide +kernel
/-- Whatever the model's output is, one of R220's two cases holds: a number that is not finite, or none. -/
theorem test_output : let r := { begunRun with step := 3, issued := 2, landed := [1, 0], worked := 2 }
    (stepOf (embedding 1 r) r).map (fun p => (p.op, p.tileFirst + p.tileCount)) = some (4, 2) ∧ ((embedding 1 r).sched 0).header.kind = 1 ∧
    (embedding 1 r).scheds.all (fun d => d.2.unloadCmd.isNone) = true := by decide +kernel
theorem test_deadlineMiss :
    let s := embedding 1 { begunRun with issued := 1 }
    (s.sched 0).refs.length = 2 ∧ (Tab.get? (after (.deadlineMiss 0 1) s).runs 0) = none ∧
    (((after (.deadlineMiss 0 1) s).cmd? 3).bind (·.completion)).map (fun k => (k.status, k.dw3)) = some (.tierLate, 0xFFFFFFFF) := by decide +kernel
theorem test_stepCycleOverrun :
    let s := { embedding 1 begunRun with cores := [(600, { run := some 0 })] }
    (Tab.get? (after (.stepCycleOverrun 0 600) s).runs 0) = none ∧ ((after (.stepCycleOverrun 0 600) s).core 600).run = none ∧
    (((after (.stepCycleOverrun 0 600) s).cmd? 3).bind (·.completion)).map (·.status) = some .scheduleFault := by decide +kernel

/-! ## Administration (R518 to R547) -/

/-- What accepts asks of a queue entry, as a computation. -/
def acceptsB (s : State) (op : Nat) (p : PortId) (e : BitVec 1024) (inp : List Byte) : Bool :=
  canFetch s p 0 && fetchTurn s p 0 && accessPasses s p (fetchNum 0) && inputReady s p 0 e inp && decide (eOpcode e = op)
    && passesB s p 0 e inp &&
    (match (adminTaken s (.queue p e inp)).cmd? s.nextCmd with
      | some x => x.stage == .waiting && mayStartAdmin (adminTaken s (.queue p e inp)) s.nextCmd x
      | none => false) && s.cmds.all fun y => decide (y.1 < s.nextCmd)

theorem accepts_of {s : State} {op : Nat} {p : PortId} {e : BitVec 1024} {inp : List Byte} (h : acceptsB s op p e inp = true) :
    s.accepts op (.queue p e inp) := by
  simp only [acceptsB, Bool.and_eq_true, decide_eq_true_eq, List.all_eq_true] at h
  obtain ⟨⟨⟨⟨⟨⟨⟨a, b⟩, w⟩, c⟩, d⟩, f⟩, g⟩, k⟩ := h
  refine ⟨⟨⟨a, by decide, b, w, c, d⟩, passes_of f⟩, ?_, k⟩
  split at g
  · rename_i x hx
    exact ⟨x, hx, by simpa using g⟩
  · cases g

/-- A request of class 2 with tag 7, n bytes of input and 8,192 of output. -/
def req (op : Nat) (fs : List (Nat × Nat)) (n : Nat := 0) : BitVec 1024 :=
  entry ([(0, op), (1, 2), (2, 7), (0x10, n)] ++ (if op = 0x80 ∨ op = 0x81 ∨ op = 0x8C ∨ op = 0xAA then [(0x20, 8192)] else []) ++ fs)
/-- It comes by queue pair 0 of port 0. -/
def adm (op : Nat) (fs : List (Nat × Nat)) (inp : List Byte := []) : AdminSrc := .queue .p0 (req op fs inp.length) inp
/-- Whether the device takes it now. -/
def takes (s : State) (op : Nat) (fs : List (Nat × Nat)) (inp : List Byte := []) : Bool := acceptsB s op .p0 (req op fs inp.length) inp
theorem takes_of {s : State} {op : Nat} {fs : List (Nat × Nat)} {inp : List Byte} (h : takes s op fs inp = true) : s.accepts op (adm op fs inp) :=
  accepts_of h
/-- Command 5's completion: status and the two words. -/
def reply (c : Instr) (s : State) : Option (Status × Nat × Nat) := ((after c s).cmd? 5).bind fun x => x.completion.map fun k => (k.status, k.dw2, k.dw3)
/-- n bytes from fields: byte offset and value. -/
def bytes (n : Nat) (fs : List (Nat × Nat)) : List Byte := leBytes n ((fs.map fun (o, v) => v * 2 ^ (8 * o)).foldl (· + ·) 0)

theorem test_identify : home.accepts 0x80 (adm 0x80 []) ∧ eCns (req 0x80 []) = 0 ∧ reply (.identify (adm 0x80 [])) home = some (.success, 0, 0) ∧
    ((after (.identify (adm 0x80 [])) home).cmd? 5).map (·.result.length) = some 4096 :=
  ⟨takes_of (by decide +kernel), by decide +kernel, by decide +kernel, by decide +kernel⟩
theorem test_getLogPage : home.accepts 0x81 (adm 0x81 [(0x28, 2)]) ∧ reply (.getLogPage (adm 0x81 [(0x28, 2)])) home = some (.success, 0, 0) ∧
    ((after (.getLogPage (adm 0x81 [(0x28, 2)])) home).cmd? 5).map (·.result.length) = some 512 :=
  ⟨takes_of (by decide +kernel), by decide +kernel, by decide +kernel⟩
theorem test_getFeatures : home.accepts 0x82 (adm 0x82 [(0x28, 2)]) ∧ reply (.getFeatures (adm 0x82 [(0x28, 2)])) home = some (.success, 10, 0) :=
  ⟨takes_of (by decide +kernel), by decide +kernel⟩
theorem test_setFeatures : home.accepts 0x83 (adm 0x83 [(1, 4), (0x28, 2), (0x30, 25), (0x2A, 1)]) ∧ home.flash.state ≠ .absent ∧
    reply (.setFeatures (adm 0x83 [(1, 4), (0x28, 2), (0x30, 25), (0x2A, 1)])) home = some (.success, 25, 0) ∧
    (after (.setFeatures (adm 0x83 [(1, 4), (0x28, 2), (0x30, 25), (0x2A, 1)])) home).hbm.migrateShare = 25 :=
  ⟨takes_of (by decide +kernel), by decide +kernel, by decide +kernel, by decide +kernel⟩
theorem test_setFeatures_at_reset : home.accepts 0x83 (adm 0x83 [(1, 4), (0x28, 8), (0x30, 512)]) ∧
    reply (.setFeatures (adm 0x83 [(1, 4), (0x28, 8), (0x30, 512)])) home = some (.success, 1024, 0) ∧
    pendingFeature (after (.setFeatures (adm 0x83 [(1, 4), (0x28, 8), (0x30, 512)])) home) .p0 8 0 = 512 :=
  ⟨takes_of (by decide +kernel), by decide +kernel, by decide +kernel⟩

def create2 : AdminSrc := adm 0x84 [(0x28, 0x3000), (0x30, 0x5000), (0x38, 7), (0x3A, 15), (0x3C, 2), (0x42, 3)]
theorem test_queueCreate : home.accepts 0x84 create2 ∧ (home.pair .p0 2).state = .absent ∧ reply (.queueCreate create2) home = some (.success, 0, 0) ∧
    (((after (.queueCreate create2) home).pair .p0 2).sqEntries, ((after (.queueCreate create2) home).pair .p0 2).urgent) = (8, true) :=
  ⟨takes_of (by decide +kernel), by decide +kernel, by decide +kernel, by decide +kernel⟩
theorem test_queueDelete : let s := home.modPair .p0 1 fun x => { x with outstanding := 0 }
    s.accepts 0x85 (adm 0x85 [(0x3C, 1)]) ∧ Tab.wf (s.port .p0).pairs = true ∧ reply (.queueDelete (adm 0x85 [(0x3C, 1)])) s = some (.success, 0, 0) ∧
    ((after (.queueDelete (adm 0x85 [(0x3C, 1)])) s).pair .p0 1).state = .absent ∧
    ((after (.queueDelete (adm 0x85 [(0x3C, 1)])) home).pair .p0 1).state = .deleting :=
  ⟨takes_of (by decide +kernel), by decide +kernel, by decide +kernel, by decide +kernel, by decide +kernel⟩
theorem test_queueResume : let s := home.modPair .p0 1 fun x => { x with state := .frozen }
    s.accepts 0x86 (adm 0x86 [(0x3C, 1), (0x40, 1)]) ∧ (s.pair .p0 1).state = .frozen ∧
    reply (.queueResume (adm 0x86 [(0x3C, 1), (0x40, 1)])) s = some (.success, 1, 2) ∧
    (((after (.queueResume (adm 0x86 [(0x3C, 1), (0x40, 1)])) s).pair .p0 1).state, ((after (.queueResume (adm 0x86 [(0x3C, 1), (0x40, 1)])) s).pair .p0 1).sqHead) = (.active, 3) :=
  ⟨takes_of (by decide +kernel), by decide +kernel, by decide +kernel, by decide +kernel⟩

def downloaded (l : List Byte) : State := home.modPort .p0 fun x => { x with download := l }
theorem test_fwDownload : (downloaded [9, 9]).accepts 0x88 (adm 0x88 [(0x28, 2)] [1, 2, 3, 4]) ∧
    ((after (.fwDownload (adm 0x88 [(0x28, 2)] [1, 2, 3, 4])) (downloaded [9, 9])).port .p0).download = [9, 9, 1, 2, 3, 4] ∧
    reply (.fwDownload (adm 0x88 [(0x28, 4)] [1, 2, 3, 4])) (downloaded [9, 9]) = some (.fwSequence, 0, 0) :=
  ⟨takes_of (by decide +kernel), by decide +kernel, by decide +kernel⟩
theorem test_fwDownload_first : (downloaded [9, 9]).accepts 0x88 (adm 0x88 [] [1, 2, 3, 4]) ∧
    ((after (.fwDownload (adm 0x88 [] [1, 2, 3, 4])) (downloaded [9, 9])).port .p0).download = [1, 2, 3, 4] :=
  ⟨takes_of (by decide +kernel), by decide +kernel⟩
theorem test_fwCommit : home.accepts 0x89 (adm 0x89 []) ∧ home.security.active = none ∧ noImage (home.port .p0).download = true ∧
    reply (.fwCommit (adm 0x89 [])) home = some (.fwNoImage, 0, 0) :=
  ⟨takes_of (by decide +kernel), by decide +kernel, by decide +kernel, by decide +kernel⟩
set_option maxRecDepth 1000000 in
theorem test_fwCommit_fails : (downloaded (List.replicate 0x2000 0)).accepts 0x89 (adm 0x89 []) ∧ noImage (List.replicate 0x2000 0) = false ∧
    imageFails (downloaded (List.replicate 0x2000 0)) (List.replicate 0x2000 0) 0 = some 1 ∧
    reply (.fwCommit (adm 0x89 [])) (downloaded (List.replicate 0x2000 0)) = some (.fwImageInvalid, 0, 0) :=
  ⟨takes_of (by decide +kernel), by decide +kernel, by decide +kernel, by decide +kernel⟩
def twoImages : State := { home with security := { home.security with active := some 0, slot1 := some [] } }
theorem test_fwActivate : twoImages.accepts 0x8A (adm 0x8A [(0x28, 1), (0x29, 1)]) ∧ twoImages.security.activating = none ∧
    slotImage twoImages 1 = some [] ∧ eSlotFlag (req 0x8A [(0x28, 1), (0x29, 1)]) = true ∧
    (after (.fwActivate (adm 0x8A [(0x28, 1), (0x29, 1)])) twoImages).security.activating = some 5 :=
  ⟨takes_of (by decide +kernel), by decide +kernel, by decide +kernel, by decide +kernel, by decide +kernel⟩
theorem test_fwActivate_busy : let s := { twoImages with security := { twoImages.security with activating := some 2 } }
    s.accepts 0x8A (adm 0x8A [(0x28, 1), (0x29, 1)]) ∧ reply (.fwActivate (adm 0x8A [(0x28, 1), (0x29, 1)])) s = some (.fwActivationBusy, 0, 0) :=
  ⟨takes_of (by decide +kernel), by decide +kernel⟩
theorem test_attest : home.accepts 0x8C (adm 0x8C []) ∧ home.security.uds = none ∧ reply (.attest (adm 0x8C [])) home = some (.attestUnavailable, 0, 0) :=
  ⟨takes_of (by decide +kernel), by decide +kernel, by decide +kernel⟩
/-- With an identity there is a report, whatever the cryptography gives. -/
theorem test_attest_report : let s := { home with security := { home.security with uds := some 5, lifecycle := .production } }
    s.accepts 0x8C (adm 0x8C []) ∧ ef (req 0x8C []) 0x28 1 = 0 ∧ s.security.lifecycle = .production :=
  ⟨takes_of (by decide +kernel), by decide +kernel, by decide +kernel⟩

/-- R536: a record of L2SQ, BF16, 4-bit codes of 8 bytes, 2 dimensions, RESIDUAL off, 1 list, 1 MiB of staging. -/
def record : List Byte :=
  bytes 128 [(2, 2), (3, 4), (4, 2), (6, 8), (0x0B, 75), (0x10, 1), (0x14, 0x3DCCCCCD), (0x24, 1), (0x28, 2 ^ 64 - 1), (0x38, 128), (0x40, 640)]
def creation : List Byte := record ++ List.replicate 600 1
theorem test_collectionCreate : home.accepts 0x90 (adm 0x90 [] creation) ∧ createFails home creation = none ∧ recordMembers creation = some [] ∧
    (readAttrs record).isSome = true ∧ freeIndex home [] = some 1 ∧ (createColl home 1 1 ((readAttrs record).getD {}) [] creation).isSome = true ∧
    reply (.collectionCreate (adm 0x90 [] creation) []) home = some (.success, 65537, 0) ∧
    ((after (.collectionCreate (adm 0x90 [] creation) []) home).coll? 1).map (fun c => (c.ceiling, c.codebook.length, c.published)) = some (2 ^ 32, 256, 0) :=
  ⟨takes_of (by decide +kernel), by decide +kernel, by decide +kernel, by decide +kernel, by decide +kernel, by decide +kernel, by decide +kernel, by decide +kernel⟩
theorem test_collectionSet : home.accepts 0x91 (adm 0x91 [(4, 0x10000), (0x28, 2)] (bytes 128 [(0x0B, 80)])) ∧ corpus.members = [] ∧
    (setAttrs corpus.attrs (bytes 128 [(0x0B, 80)]) 2).isSome = true ∧ floorOk home 0 corpus (bytes 128 [(0x0B, 80)]) 2 = true ∧
    ((setAttrs corpus.attrs (bytes 128 [(0x0B, 80)]) 2).bind fun a => (applySet home 0 a).map fun _ => a.stagingMiB) = some 16 ∧
    reply (.collectionSet (adm 0x91 [(4, 0x10000), (0x28, 2)] (bytes 128 [(0x0B, 80)]))) home = some (.success, 0, 0) ∧
    ((after (.collectionSet (adm 0x91 [(4, 0x10000), (0x28, 2)] (bytes 128 [(0x0B, 80)]))) home).coll? 0).map (fun c => (c.attrs.compactThreshold, c.newAttrs.map (·.compactThreshold))) = some (75, some 80) :=
  ⟨takes_of (by decide +kernel), by decide +kernel, by decide +kernel, by decide +kernel, by decide +kernel, by decide +kernel, by decide +kernel⟩
theorem test_collectionDelete : home.accepts 0x92 (adm 0x92 [(4, 0x10000)]) ∧ referenced home 0 corpus = false ∧ home.cmds = [] ∧ Tab.wf home.colls = true ∧
    reply (.collectionDelete (adm 0x92 [(4, 0x10000)])) home = some (.success, 0, 0) ∧
    (after (.collectionDelete (adm 0x92 [(4, 0x10000)])) home).colls.length = 0 :=
  ⟨takes_of (by decide +kernel), by decide +kernel, by decide +kernel, by decide +kernel, by decide +kernel, by decide +kernel⟩

/-- The collection with codes of 8 bytes. -/
def small : State := { home with colls := [(0, { corpus with attrs := { dim := 2, codeBytes := 8 }, centroids := List.replicate 16 3 })] }
theorem test_collectionRetrain : small.accepts 0x93 (adm 0x93 [(4, 0x10000)] (List.replicate 512 1)) ∧
    ((after (.collectionRetrain (adm 0x93 [(4, 0x10000)] (List.replicate 512 1))) small).coll? 0).map (fun c => (c.maint.map (fun m => (m.gen, m.codebook.length, m.centroids.length)), c.pinIndex.pins, c.cbGen)) =
      some (some (2, 256, 16), 1, 1) := ⟨takes_of (by decide +kernel), by decide +kernel⟩
theorem test_collectionRebuild : small.accepts 0x94 (adm 0x94 [(4, 0x10000)] (List.replicate 544 1)) ∧
    ((after (.collectionRebuild (adm 0x94 [(4, 0x10000)] (List.replicate 544 1))) small).coll? 0).map (fun c => (c.maint.map (·.centroids), c.centroids)) =
      some (some (List.replicate 16 0x0101), List.replicate 16 3) := ⟨takes_of (by decide +kernel), by decide +kernel⟩
theorem test_listSplit : small.accepts 0x95 (adm 0x95 [(4, 0x10000)] (List.replicate 64 1)) ∧
    ((after (.listSplit (adm 0x95 [(4, 0x10000)] (List.replicate 64 1))) small).coll? 0).map (fun c => (c.maint.map (fun m => (m.listCount, m.centroids.length)), c.attrs.listCount)) =
      some (some (2, 32), 1) := ⟨takes_of (by decide +kernel), by decide +kernel⟩

/-- R206, R207: an EMBED image of the two steps TOKENISE and OUTPUT and no weight, with a RUN_BOUND. -/
def image (bound : Nat) : List Byte :=
  bytes 256 [(0, 0x4C484353), (4, 1), (6, 1), (8, 2), (0x10, 1), (0x14, 2), (0x16, 1), (0x18, 1), (0x1A, 7), (0x1C, 1), (0x20, bound), (0x24, 1), (0x30, 256)]
    ++ bytes 64 [(0, 1), (0x20, 1)] ++ bytes 64 [(0, 4), (0x20, 1)]
theorem test_scheduleLoad : home.accepts 0x98 (adm 0x98 [] (image 1000000)) ∧ headerOk (image 1000000) (readHeader (image 1000000)) = true ∧
    freeSched home = some 0 ∧ reply (.scheduleLoad (adm 0x98 [] (image 1000000))) home = some (.success, 65536, 0) ∧
    ((after (.scheduleLoad (adm 0x98 [] (image 1000000))) home).sched 0).steps.map (·.op) = [1, 4] ∧
    (after (.scheduleLoad (adm 0x98 [] (image 1000000))) home).security.extends_ = 1 :=
  ⟨takes_of (by decide +kernel), by decide +kernel, by decide +kernel, by decide +kernel, by decide +kernel, by decide +kernel⟩
theorem test_scheduleLoad_infeasible : home.accepts 0x98 (adm 0x98 [] (image 0)) ∧
    (reply (.scheduleLoad (adm 0x98 [] (image 0))) home).map (fun y => (y.1, y.2.1)) = some (.scheduleInfeasible, 0xFFFFFFFF) ∧
    (after (.scheduleLoad (adm 0x98 [] (image 0))) home).scheds = [] :=
  ⟨takes_of (by decide +kernel), by decide +kernel, by decide +kernel⟩
/-- A loaded EMBED schedule of handle 0x00010000. -/
def loaded : State := { home with scheds := [(0, { gen := 1, loaded := true, header := { kind := 1, outDim := 2 } })] }
theorem test_scheduleUnload : loaded.accepts 0x99 (adm 0x99 [(0x28, 0x10000)]) ∧ schedOf loaded 0x10000 = some 0 ∧ schedBound loaded 0x10000 = false ∧ schedKept loaded 0 = false ∧
    reply (.scheduleUnload (adm 0x99 [(0x28, 0x10000)])) loaded = some (.success, 0, 0) ∧
    ((after (.scheduleUnload (adm 0x99 [(0x28, 0x10000)])) loaded).sched 0).loaded = false :=
  ⟨takes_of (by decide +kernel), by decide +kernel, by decide +kernel, by decide +kernel, by decide +kernel, by decide +kernel⟩
theorem test_scheduleBind : loaded.accepts 0x9A (adm 0x9A [(4, 0x10000), (0x28, 0x10000)]) ∧ bindOk loaded 0x10000 1 = true ∧ bindOk loaded 0 2 = true ∧
    (loaded.sched 0).header.outDim = corpus.attrs.dim ∧ reply (.scheduleBind (adm 0x9A [(4, 0x10000), (0x28, 0x10000)])) loaded = some (.success, 0, 0) ∧
    ((after (.scheduleBind (adm 0x9A [(4, 0x10000), (0x28, 0x10000)])) loaded).coll? 0).map (·.embed) = some 0x10000 :=
  ⟨takes_of (by decide +kernel), by decide +kernel, by decide +kernel, by decide +kernel, by decide +kernel, by decide +kernel⟩

def alloc (tier : Nat) (size : Nat) : AdminSrc := adm 0xA0 [(0x28, size), (0x30, tier), (0x31, 7), (0x32, 1)]
theorem test_regionAlloc : home.accepts 0xA0 (alloc 2 0x1000) ∧ freeRegionEntry home = some 1024 ∧ (placeArea home 1024 2 0x1000).isSome = true ∧
    reply (.regionAlloc (alloc 2 0x1000)) home = some (.success, 1024, 0) ∧
    ((after (.regionAlloc (alloc 2 0x1000)) home).region 1024).last = ((after (.regionAlloc (alloc 2 0x1000)) home).region 1024).base + 0xFFF :=
  ⟨takes_of (by decide +kernel), by decide +kernel, by decide +kernel, by decide +kernel, by decide +kernel⟩
theorem test_regionAlloc_t1 : home.accepts 0xA0 (alloc 1 0x20000) ∧ (placeArea home 1024 1 0x20000).map (·.1) = some (heldBase + blockOffset 0 3) :=
  ⟨takes_of (by decide +kernel), by decide +kernel⟩
def owned : State := { home with protect := { home.protect with regions := [(1024, { base := 0x1000, last := 0x1FFF, valid := true, owner := 1, allocated := true })] } }
theorem test_regionFree : owned.accepts 0xA1 (adm 0xA1 [(0x28, 1024)]) ∧ Tab.wf owned.protect.regions = true ∧ regionNamed owned 5 1024 = false ∧
    regionBusy owned 1024 = false ∧ reply (.regionFree (adm 0xA1 [(0x28, 1024)])) owned = some (.success, 0, 0) ∧
    ((after (.regionFree (adm 0xA1 [(0x28, 1024)])) owned).region 1024).valid = false :=
  ⟨takes_of (by decide +kernel), by decide +kernel, by decide +kernel, by decide +kernel, by decide +kernel, by decide +kernel⟩

/-- Channel 0 of HBM with its stack's spare. -/
theorem test_hbmMigrate : home.accepts 0xA8 (adm 0xA8 [(0x28, 0)]) ∧ (home.chan 0).state = .active ∧ Tab.get? home.hbm.spares (stackOf 0) = some 1 ∧
    mayMigrate home 0 1 = true ∧ ((after (.hbmMigrate (adm 0xA8 [(0x28, 0)])) home).chan 0).phase = .copy ∧
    ((after (.hbmMigrate (adm 0xA8 [(0x28, 0)])) home).chan 1).state = .migTarget :=
  ⟨takes_of (by decide +kernel), by decide +kernel, by decide +kernel, by decide +kernel, by decide +kernel, by decide +kernel⟩
theorem test_hbmDiag : home.accepts 0xA9 (adm 0xA9 [(0x28, 3), (0x2A, 1), (0x2C, 0x18), (0x30, 5)]) ∧
    ((after (.hbmDiag (adm 0xA9 [(0x28, 3), (0x2A, 1), (0x2C, 0x18), (0x30, 5)])) home).chan 3).seed = 5 ∧
    reply (.hbmDiag (adm 0xA9 [(0x28, 0), (0x2C, 0)])) home = some (.success, channelReg home 0 0, 0) ∧ channelReg home 0 0 ≠ 0 :=
  ⟨takes_of (by decide +kernel), by decide +kernel, by decide +kernel, by decide +kernel⟩
theorem test_hbmDiag_refused : home.accepts 0xA9 (adm 0xA9 [(0x28, 3), (0x2A, 1), (0x2C, 0x30), (0x30, 5)]) ∧
    reply (.hbmDiag (adm 0xA9 [(0x28, 3), (0x2A, 1), (0x2C, 0x30), (0x30, 5)])) home = some (.accessError, 0, 0) :=
  ⟨takes_of (by decide +kernel), by decide +kernel⟩
theorem test_diagRead : home.accepts 0xAA (adm 0xAA [(0x28, 0x01000000), (0x2C, 2)]) ∧ diagOpen home 0x01000000 2 = true ∧
    ((after (.diagRead (adm 0xAA [(0x28, 0x01000000), (0x2C, 2)])) home).cmd? 5).map (·.result.length) = some 8 :=
  ⟨takes_of (by decide +kernel), by decide +kernel, by decide +kernel⟩

/-! ## Peer links (R548 to R581) -/

/-- Port 0 UP to device 3, with routes to devices 3 and 4 through it. -/
def joined : State :=
  { home with net := { home.net with
    deviceNumber := 1, joined := true, links := [(0, { state := .up, lanes := 8, laneMap := [0, 1, 2, 3, 4, 5, 6, 7], peer := 3, tags := 1 })]
    routes := [(3, { primary := 0, alternate := none, hops := 1 }), (4, { primary := 0, alternate := some 2, hops := 2 })] } }
/-- Eight lanes that the far end sends in order, of which some are noisy. -/
def seen (noisy : List Bool) : TrainObs :=
  { laneNames := (List.range 8).map some, inverted := List.replicate 8 false, noisy := noisy, anySignal := true, txUnusable := []
    peerInstall := joined.net.installId, peerDevice := 3, delayNs := 500 }
theorem test_linkTraining : carries (joined.link 1) = false ∧ (joined.island (94 + dieOfPort 1)).state = .run ∧
    (((after (.linkTraining 1 (seen (List.replicate 8 false))) joined).link 1).state, ((after (.linkTraining 1 (seen (List.replicate 8 false))) joined).link 1).lanes) = (.up, 8) := by
  decide +kernel
theorem test_linkTraining_degraded :
    (((after (.linkTraining 1 (seen [true])) joined).link 1).state, ((after (.linkTraining 1 (seen [true])) joined).link 1).lanes) = (.degraded, 6) ∧
    ((after (.linkTraining 1 { seen [] with delayNs := 501 }) joined).link 1).state = .tooLong := by decide +kernel
/-- R557, R566: the route of device 4 goes by its alternate, that of device 3 is gone. -/
theorem test_laneFailure : joined.cmds = [] ∧ joined.net.peers = [] ∧ joined.tiers.borrowed = [] ∧ Tab.wf joined.net.routes = true ∧ (joined.link 0).laneMap.contains 7 = true ∧
    ((after (.laneFailure 0 7) joined).link 0).state = .down ∧
    (after (.laneFailure 0 7) joined).net.routes = [(4, { primary := 2, alternate := none, hops := 2 })] := by decide +kernel
theorem test_linkTimeout : ((after (.linkTimeout 0) { joined with time := 10000 }).link 0).state = .down ∧
    ((after (.linkTimeout 0) { joined with time := 9999 }).link 0).state = .up := by decide +kernel
theorem test_retrainTimer : let s := joined.modLink 0 fun l => { l with state := .failed, attempts := 3, retrains := 2 ^ 32 - 1 }
    (((after (.retrainTimer 0) s).link 0).state, ((after (.retrainTimer 0) s).link 0).retrains, ((after (.retrainTimer 0) s).link 0).attempts) = (.training, 2 ^ 32 - 1, 0) := by
  decide +kernel
def flit (n : Nat) (good : Bool) : Flit := { number := n, good := good, corrected := 0, uncorrected := 0, bytes := List.replicate 252 0 }
theorem test_flitReceive : carries (joined.link 0) = true ∧
    (((after (.flitReceive 0 (flit 0 true)) joined).link 0).rxNext, ((after (.flitReceive 0 (flit 0 true)) joined).link 0).ctl.length) = (1, 1) ∧
    (((after (.flitReceive 0 (flit 0 false)) joined).link 0).rxNext, ((after (.flitReceive 0 (flit 0 false)) joined).link 0).discarding) = (0, true) := by decide +kernel
/-- Flits 65535 and 0 are sent and not acknowledged. -/
def sending : State := joined.modLink 0 fun l => { l with replay := [0xFFFF, 0] }
theorem test_ack : (sending.link 0).waiting = [] ∧ ((after (.ack 0 0xFFFF) sending).link 0).replay = [0] := by decide +kernel
theorem test_nak : (sending.link 0).resent = none ∧
    (((after (.nak 0 0) sending).link 0).replay, ((after (.nak 0 0) sending).link 0).resent) = ([0], some (0, 1)) ∧
    ((after (.nak 0 0) (sending.modLink 0 fun l => { l with resent := some (0, 7) })).link 0).state = .down := by decide +kernel
theorem test_credit : ((after (.credit 0 1 5) (joined.modLink 0 fun l => { l with credits := [64, 669, 672, 672, 672, 672, 672] })).link 0).credits.getD 1 0 = 672 ∧
    ((after (.credit 0 0 2) (joined.modLink 0 fun l => { l with credits := [60, 672, 672, 672, 672, 672, 672] })).link 0).credits.getD 0 0 = 62 := by decide +kernel
theorem test_keepalive : ((after (.keepalive 0) { joined with time := 77 }).link 0).lastFlit = 77 ∧
    ((after (.sendKeepalive 0) joined).link 0).ctl = [.keepalive] := by decide +kernel

/-- A packet from device 3. -/
def packet (type dest len : Nat) (b : List Byte) : Packet :=
  { length := len, type := type, cls := 0, prio := 0, dest := dest, src := 3, hops := 1, window := 4, gen := 9, offset := 0x100, txn := 77, pcrcOk := true, payload := b }
theorem test_packetForward :
    ((Tab.get? (after (.packetForward 0 (packet 1 4 4 [])) joined).net.routes 4).map (·.primary)) = some 0 ∧
    ((after (.packetForward 0 (packet 1 4 4 [])) joined).link 0).packets.map (·.hops) = [2] ∧
    ((after (.packetForward 0 { packet 1 4 4 [] with hops := 24 }) joined).logs.entries.getLast?).map (·.location) = some 3 := by decide +kernel
theorem test_packetForward_waits :
    let s := { joined with net := { joined.net with routes := [(4, { primary := 0, alternate := none, hops := 3, next := some (2, 1) })] } }
    (Tab.get? (after (.packetForward 0 (packet 1 4 4 [])) s).net.routes 4).map (fun r => r.queue.map (·.hops)) = some [2] := by decide +kernel
theorem test_routeSwitch :
    let s := { joined with net := { joined.net with routes := [(4, { primary := 0, alternate := none, hops := 3, next := some (2, 1) })] } }
    awaits s 4 = false ∧ (after (.routeSwitch 4 2) s).net.routes = [(4, { primary := 2, alternate := some 0, hops := 1 })] := by decide +kernel
theorem test_topology : fwServes joined = true ∧
    (after (.topology [⟨3, 1, 7, 0, true⟩]) joined).net.topology.contains ⟨3, 1, 7, 0, true⟩ = true := by decide +kernel
/-- Piece 4 and the alley slot 6 of core 9 wait for device 3. -/
def asking (w : PeerWaiter) : State :=
  { joined with
    pieces := [(4, piece 3 none)], alleys := [(9 * 64 + 6, default)], net := { joined.net with peers := [(77, { dest := 3, port := 0, waiter := w })] } }
theorem test_peerTimeout : (Tab.get? (after (.peerTimeout 77) (asking (.piece 4))).net.peers 77).isNone = true ∧
    ((after (.peerTimeout 77) (asking (.piece 4))).link 0).tags = 0 ∧ (Tab.get? (after (.peerTimeout 77) (asking (.piece 4))).pieces 4).map (·.err) = some (some 5) := by decide +kernel
theorem test_windowFault : (Tab.get? (after (.windowFault 77) (asking (.piece 4))).pieces 4).map (·.err) = some (some 5) := by decide +kernel

/-- Inbound window 4 for device 3, over the page that holds 0xFF at its first bytes. -/
def serving (gen : Nat) : State :=
  { joined with protect := { joined.protect with
    inbound := [(4, { table := 0, tiles := 1, source := 3, anyMember := false, read := true, write := true, atomic := true, valid := true, gen := gen })]
    peerDtc := [(4 * 2 ^ 23, BitVec.ofNat 64 (15 * 2 ^ 60 + heldBase + 0x20000))] } }
def at0 (k : Packet) : Packet := { k with offset := 0 }
theorem test_readReq : servesPacket (serving 9) (at0 (packet 1 1 4 [])) 1 = true ∧ atHome (serving 9) (at0 (packet 1 1 4 [])) = false ∧
    (serving 9).windowAllows (at0 (packet 1 1 4 [])) 4 .read ∧
    ((after (.readReq (at0 (packet 1 1 4 []))) (serving 9)).link 0).packets.map (fun k => (k.type, k.payload)) = [(0x11, [255, 255, 255, 255])] ∧
    Tab.getD (after (.readReq (at0 (packet 1 1 4 []))) (serving 8)).protect.refused 0 0 = 1 :=
  ⟨by decide +kernel, by decide +kernel, by unfold State.windowAllows; decide +kernel, by decide +kernel, by decide +kernel⟩
theorem test_writeReq : (serving 9).windowAllows (at0 (packet 2 1 2 [1, 2])) 2 .write ∧
    Mem.readN (after (.writeReq (at0 (packet 2 1 2 [1, 2]))) (serving 9)).cache.t1 0x20000 4 = [1, 2, 255, 255] ∧
    ((after (.writeReq (at0 (packet 2 1 2 [1, 2]))) (serving 9)).link 0).packets.map (·.type) = [0x12] :=
  ⟨by unfold State.windowAllows; decide +kernel, by decide +kernel, by decide +kernel⟩

/-- A fetching ADD of 1 to the 32-bit word 0xFFFFFFFF. -/
theorem test_atomicReq : let k := at0 (packet 3 1 0 ([1, 4] ++ [1, 0, 0, 0] ++ [0, 0, 0, 0]))
    (serving 9).windowAllows k 4 .atomic ∧ atomicOf 1 = some .add ∧ atomicOld (serving 9) (heldBase + 0x20000) false = some 0xFFFFFFFF ∧
    Mem.readN (after (.atomicReq k) (serving 9)).cache.t1 0x20000 4 = [0, 0, 0, 0] ∧
    ((after (.atomicReq k) (serving 9)).link 0).packets.map (fun k => (k.type, k.payload)) = [(0x13, [255, 255, 255, 255])] :=
  ⟨by unfold State.windowAllows; decide +kernel, by decide +kernel, by decide +kernel, by decide +kernel, by decide +kernel⟩
theorem test_readRsp : (piece 3 none).spec.dstSpace = 3 ∧
    (Tab.get? (after (.readRsp 77 [5, 6]) (asking (.piece 4))).pieces 4).map (·.data) = some (some [5, 6]) ∧
    (Tab.get? (after (.readRsp 77 [5, 6]) (asking (.alley 9 6))).alleys (9 * 64 + 6)).map (·.data) = some [5, 6] ∧
    (after (.readRsp 78 [5, 6]) (asking (.piece 4))).net.peers.length = 1 := by decide +kernel
/-- R262: FADD of a 64-bit word is refused; R225: the bytes of a candidate. -/
theorem test_atomicReq_fadd64 : let k := at0 (packet 3 1 0 ([2, 8] ++ List.replicate 16 0))
    k.type = 3 ∧ field k.payload 1 1 = 8 ∧ field k.payload 0 1 = 2 ∧ (serving 9).security.activating = none ∧
    Tab.getD (after (.atomicReq k) (serving 9)).protect.refused (peerDie (serving 9) k.src) 0 = 1 := by decide +kernel
theorem test_readRsp_candidate : (after (.readRsp 77 [5, 6]) (asking (.candidate 3 0))).net.peers = [] := by decide +kernel
theorem test_writeAck : ((after (.writeAck 77) (asking (.alley 9 6))).link 0).tags = 0 ∧ (after (.writeAck 77) (asking (.alley 9 6))).net.peers = [] ∧
    (asking (.piece 4)).tiers.map.all (fun y => y.2.tier != 3) = true ∧
    (Tab.get? (after (.writeAck 77) (asking (.piece 4))).pieces 4).isNone = true := by decide +kernel
theorem test_atomicRsp : ((after (.atomicRsp 77 3) (asking (.piece 4))).link 0).tags = 0 ∧ (after (.atomicRsp 77 3) (asking (.piece 4))).pieces.length = 1 := by
  decide +kernel
/-- The collection is sharded over devices 0 and 1, and this one is not its epoch home. -/
def sharded : State := { joined with
  colls := [(0, { corpus with members := [0, 1] })]
  net := { joined.net with routes := [(0, { primary := 0, alternate := none, hops := 1 }), (3, { primary := 0, alternate := none, hops := 1 })] } }
theorem test_epochBeacon : (collOf sharded 0x10000).map (·.1) = some 0 ∧ (sharded.coll? 0).map (fun c => isHome sharded c) = some false ∧
    ((after (.epochBeacon 0x10000 9) sharded).coll? 0).map (·.published) = some 9 ∧ ((after (.epochBeacon 0x10000 5) sharded).coll? 0).map (·.published) = some 7 := by
  decide +kernel
def lender : State := { joined with tiers := { joined.tiers with lendQuota := 1 } }
theorem test_lease_request : freeWindow lender = some 0 ∧ (takePages lender 262144 16).isSome = true ∧
    ((takePages lender 262144 16).bind fun y => takePages y.2 32 1).isSome = true ∧ lender.tiers.lent.length < lender.tiers.lendQuota ∧
    (after (.lease (.request 3 0)) joined).tiers.lent = [] := by decide +kernel
theorem test_lease_others :
    let g := after (.lease (.grant 3 1 6 9)) joined
    let b := { joined with tiers := { joined.tiers with lent := [(0, { borrower := 3, window := 5, page := 0, table := 0, revoking := false })] }
                           protect := { joined.protect with inbound := [(5, { table := 0, tiles := 1, source := 3, anyMember := false, read := true, write := true, atomic := false, valid := true, gen := 9 })] } }
    freeOutbound joined = some 0 ∧ (outWindow g 0).remote = 6 ∧ g.tiers.borrowed.length = 1 ∧
    (after (.lease (.revoke 3 1)) g).tiers.borrowed = [] ∧ (outWindow (after (.lease (.revoke 3 1)) g) 0).valid = false ∧
    (after (.lease (.release 3 0)) b).tiers.lent = [] ∧ ((inWindow (after (.lease (.release 3 0)) b) 5).valid, (inWindow (after (.lease (.release 3 0)) b) 5).gen) = (false, 10) := by
  decide +kernel

/-! ## Sharded commands and sliced runs (R569 to R575, R233, R234) -/

def shardReq : ShardReq :=
  { coordinator := 3, txn := 88, handle := 0x10000, snapshot := 7, entry := search, query := [1, 2], terms := [], probes := 1, budget := 100 }
theorem test_shardReq : isMember sharded 3 = true ∧ (shardOf sharded 3 88).isNone = true ∧
    ((after (.shardReq shardReq) sharded).cmd? 5).map (fun x => (x.origin, x.search.query, x.search.given)) = some (.shard 3 88, [1, 2], some (1, 100)) ∧
    (after (.shardReq { shardReq with handle := 0x20000 }) sharded).cmds = [] ∧
    ((after (.shardReq { shardReq with handle := 0x20000 }) sharded).link 0).packets.map (·.dest) = [3] := by decide +kernel
/-- A search, as command 3, that waits for shard 0. -/
def coordinating : State := { sharded with
  cmds := [(3, { cmd search with stage := .admitted, snapshot := some 7, search := { phase := .scanning, shards := [0], squares := [(squareNum .device, {})] } })] }
theorem test_shardRun : ((after (.shardRun 3 0 [⟨4, 9, 0⟩]) coordinating).cmd? 3).map (fun x => x.search.flights.map (fun f => (f.square, f.input, f.run.map (·.vid)))) = some [(.device, 8, [9])] := by
  decide +kernel
theorem test_shardEnd : informational .truncated = true ∧ informational .tierLate = false ∧
    ((after (.shardEnd 3 0 .success 12 1) coordinating).cmd? 3).map (fun x => (x.search.shards, x.search.shardLists)) = some ([], 12) ∧
    (((after (.shardEnd 3 0 .tierLate 0 0) coordinating).cmd? 3).bind (·.completion)).map (·.status) = some .tierLate := by decide +kernel
/-- The shard of device 3's search, as command 3. -/
def shard (w : SearchWork) : State := { sharded with
  colls := [(0, { corpus with members := [0, 1], attrs := { dim := 2, fullFormat := .fp32 } })]
  cmds := [(3, { cmd search with origin := .shard 3 88, stage := .admitted, snapshot := some 7, search := w })] }
theorem test_shardCancel : (shardOf (shard {}) 3 88).map (·.1) = some 3 ∧ (after (.shardCancel 3 88) (shard {})).cmds = [] := by decide +kernel
/-- The same in re-rank mode 1, ready, with the full vector (0, 0) of ID 5 in tile 50 of T2. -/
def rereading : State := { shard {} with
  colls := [(0, { corpus with
    members := [0, 1], attrs := { dim := 2, fullFormat := .fp32 }, idMap := [(5, ⟨7, none, []⟩)], fulls := [(5 * 2 ^ 64 + 7, (50, 0, List.replicate 8 0))] })]
  tiers := { sharded.tiers with map := [(50, { tier := 2, location := 101, kind := .vectors })] }
  cmds := [(3, { cmd (search ||| (1 <<< 501)) with
    origin := .shard 3 88, stage := .admitted, snapshot := some 7, search := { phase := .ready, query := [0, 0], merged := [near 2 5] } })] }
/-- R575: distance 0 for item 6. -/
theorem test_shardRerank : (shardOf rereading 3 88).map (fun x => (x.1, eRerank x.2.entry, askedCands x.2 [(6, 5)])) = some (3, 1, [near 2 5]) ∧
    ((rereading.coll? 0).bind fun c => candPlace c 7 .vectors (near 2 5)) = some (50, 0, 8) ∧ t2Readable rereading (rereading.tile 50) 0 8 = true ∧
    ((after (.shardRerank 3 88 false [(6, 5)]) rereading).link 0).packets.map (fun k => (k.type, k.dest, k.txn, k.payload)) = [(0x2C, 3, 88, [0, 0, 6, 0, 0, 0, 0, 0, 0, 0])] := by
  decide +kernel
def reranking : State := { sharded with
  cmds := [(3, { cmd search with stage := .admitted, snapshot := some 7, search := { phase := .reranking, rerankWait := [0, 2] } })] }
theorem test_shardRerankRsp :
    ((after (.shardRerankRsp 3 0 .success [(1, 0x40000000)] []) reranking).cmd? 3).map (fun x => (x.search.rerankWait, x.search.dists)) = some ([2], [(1, 0x40000000)]) ∧
    (((after (.shardRerankRsp 3 0 .tierLate [] []) reranking).cmd? 3).bind (·.completion)).map (·.status) = some .tierLate := by decide +kernel
theorem test_forwardCmd : forwards 4 = true ∧ isMember sharded 3 = true ∧
    homeCheck sharded { cmd delete with origin := .forwarded 3 90, input := leBytes 8 (2 ^ 34) } = none ∧
    ((after (.forwardCmd 3 90 delete (leBytes 8 (2 ^ 34))) sharded).cmd? 5).map (fun x => (x.origin, x.stage)) = some (.forwarded 3 90, .waiting) := by decide +kernel
theorem test_forwardCpl :
    let s := { sharded with cmds := [(3, { cmd flush with stage := .admitted, work := { members := [0, 2] }, completion := some { status := .success, dw2 := 0, dw3 := 0, epoch := 0 } })] }
    fannedOut (eOpcode flush) = true ∧
    ((after (.forwardCpl 3 0 (cqeOf { status := .tierLate, dw2 := 0, dw3 := 0, epoch := 0 } 0 0 0 true) []) s).cmd? 3).map (fun x => (x.work.members, x.completion.map (·.status))) =
      some ([2], some .tierLate) := by decide +kernel
/-- A sliced schedule of devices 3 and 1, loaded as schedule 0. -/
def sliced : State := { joined with scheds := [(0, { gen := 1, loaded := true, header := { sliced := true, setId := 5, sliceCount := 2 }, members := [3, 1] })] }
def slicedRun : Run := { sched := 0, seqs := [], launched := true }
theorem test_runCtl_start : Tab.wf sliced.runs = true ∧
    (Tab.get? (after (.runCtl (.start 3 11 5 2)) sliced).runs 0).map (fun r => (r.slice, r.sliceClass, r.begun)) = some (some (3, 11), 2, false) ∧
    (after (.runCtl (.start 3 11 6 2)) sliced).runs = [] ∧ ((after (.runCtl (.start 3 11 6 2)) sliced).link 0).packets.map (·.dest) = [3] := by decide +kernel
theorem test_runCtl_others :
    let c := { sliced with runs := [(0, slicedRun)], time := 40 }
    let s := { sliced with runs := [(0, { slicedRun with slice := some (3, 11) })], time := 40 }
    (sliceOthers c (c.sched 0)).length = 1 ∧
    (Tab.get? (after (.runCtl (.startReport 0 3)) c).runs 0).map (fun r => (r.begun, r.start, r.reports)) = some (true, 40, [3]) ∧
    (Tab.get? (after (.runCtl (.go 3 11)) s).runs 0).map (fun r => (r.begun, r.start)) = some (true, 40) ∧
    (after (.runCtl (.finish 3 11 true)) s).runs = [] := by decide +kernel
theorem test_adminFan : isMember sharded 3 = true ∧
    (setAttrs corpus.attrs (bytes 128 [(0x0B, 80)]) 2).isSome = true ∧
    ((after (.adminFan 3 (entry [(0, 0x91), (4, 0x10000), (0x28, 2)]) (bytes 128 [(0x0B, 80)]) 0) sharded).coll? 0).map (fun c => c.newAttrs.map (·.compactThreshold)) = some (some 80) ∧
    ((after (.adminFan 3 (entry [(0, 0x92), (4, 0x10000)]) [] 0) sharded).coll? 0).isNone = true := by decide +kernel
theorem test_adminFan_create : (createColl sharded 1 1 ((readAttrs record).getD {}) [] creation).isSome = true ∧
    ((after (.adminFan 3 (entry [(0, 0x90), (4, 0x10001)]) creation 1) sharded).coll? 1).map (fun c => (c.gen, c.published)) = some (1, 0) := by decide +kernel

/-! ## Start-up, resets, faults, power, repair and the sideband (R582 to R669) -/

/-- A board without flash, one Denop device, whose manufacture has not happened. -/
def board : BootInputs := { (default : BootInputs) with refclk := true, soleMember := true }
def unpowered : State := { State.reset with power := { State.reset.power with devrstN := true } }
theorem test_startUp : (Instr.startUp board).wf = true ∧ State.reset.power.phase = .powerOff ∧ State.reset.power.board = none ∧
    (after (.startUp { board with strap3 := true }) unpowered).power.phase = .strapHold ∧
    (after (.startUp board) { unpowered with power := { unpowered.power with devrstN := false } }).power.phase = .waitDevrst ∧
    (after (.startUp { board with refclk := false }) unpowered).power.phase = .waitPll := by decide +kernel
/-- R592: no image, so recovery. -/
theorem test_startUp_recovery : unpowered.security.slot0 = none ∧ unpowered.security.slot1 = none ∧ unpowered.security.counter0 = [] ∧
    (after (.startUp board) unpowered).power.phase = .recovery ∧ ((after (.startUp board) unpowered).island 72).state = .run ∧
    ((after (.startUp board) unpowered).island 0).state = .reset := by decide +kernel
theorem test_devrstNRelease :
    let s := after (.startUp board) { unpowered with power := { unpowered.power with devrstN := false } }
    s.power.devrstN = false ∧ s.power.phase = .waitDevrst ∧ (after .devrstNRelease s).power.phase = .recovery ∧
    (after .devrstNRelease { unpowered with power := { unpowered.power with devrstN := false } }).power.devrstN = true := by decide +kernel
theorem test_pllLock :
    let s := { run with islands := Tab.set run.islands 5 { state := .reset, rate := 1000, locked := false, started := none } }
    (s.island 5).state = .reset ∧ ((after (.pllLock 5) s).island 5).state = .run ∧
    (after (.pllLock 102) (after (.startUp { board with refclk := false }) unpowered)).power.phase = .recovery := by decide +kernel
/-- The device with a secret, a counter and a command in work. -/
def worked : State := { home with
  cmds := [(3, cmd flush)], security := { home.security with meas := [1, 2, 3, 4, 5], uds := some 9, counter0 := [3], lifecycle := .production } }
theorem test_powerDown : worked.power.pwrok = true ∧ ((after .powerDown worked).power.phase, (after .powerDown worked).power.pwrok) = (.powerOff, false) ∧
    (after .powerDown worked).cmds = [] ∧ (after .powerDown worked).security.meas = [0, 0, 0, 0, 0] ∧ (after .powerDown worked).security.uds = some 9 ∧
    (after .powerDown worked).flash.pages = worked.flash.pages := by decide +kernel
theorem test_railFault : (after (.railFault 16 true) worked).power.railFault = some (true, 16) ∧ (after (.railFault 16 true) worked).security.counter0 = [3] := by decide +kernel
theorem test_deviceReset : mayReset worked = true ∧
    ((after (.deviceReset .firmware) worked).power.phase, (after (.deviceReset .firmware) worked).power.pwrok) = (.powerOff, true) ∧
    (after (.deviceReset (.pin 1000)) worked).cmds = [] ∧ (after (.deviceReset (.pin 999)) worked).cmds.length = 1 ∧
    (after (.deviceReset (.pin 5)) State.reset).power.devrstN = false := by decide +kernel
theorem test_sbDeviceReset : sbUp worked = true ∧ (after (.sbDeviceReset 0x5E7A) worked).power.phase = .powerOff ∧
    (after (.sbDeviceReset 0x5E7B) worked).power.phase = .running := by decide +kernel
theorem test_testPortAccess : (after .testPortAccess run).security.testPort = true := by decide +kernel
def made : Manufacture := { uds := 5, edKeys := [1, 2, 3, 4], mldsaKeys := [6], image := [7], certs := [8] }
theorem test_provisioning : (Instr.provisioning made).wf = true ∧ State.reset.security.lifecycle = .manufacture ∧
    (after (.provisioning made) State.reset).security.uds = some 5 ∧ (after (.provisioning made) State.reset).security.lifecycle = .production ∧
    (after (.provisioning { made with uds := 6 }) (after (.provisioning made) State.reset)).security.uds = some 5 := by decide +kernel
theorem test_pmbAlert : run.security.activating = none ∧ (after .pmbAlert run).power.pmbAlerts = 1 ∧
    ((after .pmbAlert run).logs.entries.getLast?).map (fun e => (e.kind, e.location)) = some (kindIsland, 102) := by decide +kernel
theorem test_peakClear :
    let s := { run with crossings := [(104, { (default : Crossing) with peakAB := 7, peakBA := 8 })] }
    (((after (.peakClear 104) s).crossing 104).peakAB, ((after (.peakClear 104) s).crossing 104).peakBA) = (0, 0) := by decide +kernel
theorem test_securityBlockFault : ((after .securityBlockFault joined).power.phase, (after .securityBlockFault joined).power.alert) = (.fatal, true) ∧
    carries ((after .securityBlockFault joined).link 0) = false ∧ (after .securityBlockFault joined).logs.critical.getLsbD critFatal = true := by decide +kernel
theorem test_watchdogExpiry :
    let s := { run with time := 600000000009, security := { run.security with watchdog := some 9 } }
    (after .watchdogExpiry s).power.phase = .fatal ∧ (after .watchdogExpiry { s with time := 600000000010 }).power.phase = .running ∧
    run.cmds = [] ∧ run.colls = [] ∧ run.scheds = [] ∧ run.hbm.dueRetire = [] ∧ run.hbm.dueRelease = [] ∧ run.flash.dueBlocks = [] ∧
    run.hbm.channels.all (fun y => y.2.phase != .alias_) = true ∧
    (after .watchdogExpiry run).security.watchdog = some run.time := by decide +kernel
theorem test_pllLoss : (run.island 91).state = .run ∧ (after (.pllLoss 91) run).power.phase = .fatal ∧
    (flashCh home 0).state = .active ∧ (flashCh (after (.pllLoss 98) home) 0).state = .retraining ∧ (after (.pllLoss 98) home).power.phase = .running := by decide +kernel
theorem test_pllLoss_quarter :
    let s := { run with quarters := [(5, { (default : Quarter) with inService := false })] }
    (s.quarter 5).inService = false ∧ ((after (.pllLoss 5) s).island 5).state = .reset ∧ (after (.pllLoss 5) s).power.phase = .running := by decide +kernel
theorem test_crossingParityError :
    let s := { run with crossings := [(104, { (default : Crossing) with state := .run })] }
    (s.crossing 104).state = .run ∧ (after (.crossingParityError 104) s).power.phase = .fatal := by decide +kernel

theorem test_dp1Entry : run.power.dp = .dp0 ∧ run.power.entering = none ∧ (after .dp1Entry run).power.entering = some .dp1 := by decide +kernel
/-- The device in a power state. -/
def rests (d : Dp) : State := { run with power := { run.power with dp := d }, port0 := { run.port0 with d3hot := true }, port1 := { run.port1 with d3hot := true } }
theorem test_dp2Entry : mayRest (rests .dp1) = true ∧ (after .dp2Entry (rests .dp1)).power.entering = some .dp2 := by decide +kernel
theorem test_dp3Entry : mayRest (rests .dp2) = true ∧ portsAsleep (rests .dp2) = true ∧ homeOfNone (rests .dp2) = true ∧
    (after .dp3Entry (rests .dp2)).power.entering = some .dp3 := by decide +kernel
theorem test_dp1Exit : (after .dp1Exit (rests .dp1)).power.dp = .dp0 := by decide +kernel
theorem test_dpExit :
    let s := { rests .dp3 with islands := [(5, { state := .off, rate := 0, locked := false, started := some 0 }), (98, { state := .gated, rate := 0, locked := true, started := some 0 })] }
    ((after .dpExit s).power.dp, (after .dpExit s).power.scrub) = (.dp0, true) ∧ ((after .dpExit s).island 5).state = .run ∧ ((after .dpExit s).island 98).state = .run := by
  decide +kernel
def entering (d : Dp) (c : Bool) : State := { run with power := { run.power with entering := some d, entryCmd := c } }
theorem test_dpEntryComplete : (entering .dp2 false).flash.wbuf = [] ∧
    ((after .dpEntryComplete (entering .dp2 false)).power.dp, (after .dpEntryComplete (entering .dp2 false)).power.scrub) = (.dp2, false) ∧
    ((after .dpEntryComplete (entering .dp2 false)).island 63).state = .gated ∧ ((after .dpEntryComplete (entering .dp2 false)).island 64).state = .run := by decide +kernel
theorem test_dpEntryComplete_more : (after .dpEntryComplete (entering .dp2 true)).power.dp = .dp0 ∧
    ((after .dpEntryComplete (entering .dp3 false)).island 71).state = .off ∧ ((after .dpEntryComplete (entering .dp3 false)).island 72).state = .run ∧
    ((after .dpEntryComplete (entering .dp3 false)).island 101).state = .off := by decide +kernel
/-- 28 readings of 20 °C but one. -/
def readings (n : Nat) (v : Int) : List Int := (List.range 28).map fun k => if k = n then v else 160
theorem test_thermalSample : shutdownAt 3 = 920 ∧ alarmAt 3 = 840 ∧
    (((after (.thermalSample (readings 3 919)) run).sensor 3).throttling, ((after (.thermalSample (readings 3 919)) run).sensor 3).alarm, (after (.thermalSample (readings 3 919)) run).power.alert) = (true, true, true) ∧
    (((after (.thermalSample (readings 3 736)) (after (.thermalSample (readings 3 760)) run)).sensor 3).throttling) = true ∧
    (((after (.thermalSample (readings 3 735)) (after (.thermalSample (readings 3 760)) run)).sensor 3).throttling) = false := by decide +kernel
theorem test_thermalSample_shutdown : shutdownAt 27 = 840 ∧ ((after (.thermalSample (readings 27 840)) run).power.phase, (after (.thermalSample (readings 27 840)) run).power.thermtrip) = (.thermalStop, true) ∧
    ((after (.thermalSample (readings 27 840)) run).island 102).state = .run := by decide +kernel
theorem test_throttleStep :
    let s := { run with sensors := [(8, { (default : Sensor) with throttling := true })], quarters := [(7, { (default : Quarter) with cap := 11, thermalCap := 11 })] }
    (s.sensor 8).throttling = true ∧ diesOf 8 = [0] ∧ ((after (.throttleStep 8) s).quarter 0).cap = 20 ∧ ((after (.throttleStep 8) s).quarter 7).cap = 11 ∧
    ((after (.throttleStep 8) s).quarter 8).cap = 21 ∧ ((after (.throttleStep 0) { s with sensors := [] }).quarter 7).thermalCap = 12 := by decide +kernel
theorem test_powerLimitStep :
    let s := { run with power := { run.power with limit := 600, watts := 601 } }
    ((after .powerLimitStep s).quarter 0).powerCap = 20 ∧ (after .powerLimitStep s).power.limitUnmet = false ∧
    ((after .powerLimitStep { run with quarters := [(0, { (default : Quarter) with powerCap := 12, cap := 12 })] }).quarter 0).powerCap = 13 := by decide +kernel
theorem test_telemetryPoll :
    let t := after (.telemetryPoll (some (800, 1000) :: List.replicate 16 none) (List.replicate 17 1000000)) run
    (Tab.get? t.power.rails 0, Tab.get? t.power.rails 16, t.power.silent.contains 16, t.power.watts) = (some 800000, some 1100000, true, 18) := by decide +kernel
theorem test_coreSpare : coreUsable run 65 = true ∧ absentCores run 1 = 0 ∧ failureCounts run 65 .selfTest = true ∧
    (((after (.coreSpare 65 .selfTest) run).core 65).absent, ((after (.coreSpare 65 .selfTest) run).quarter 1).spareUsed) = (false, true) ∧
    ((after (.coreSpare 66 .selfTest) (after (.coreSpare 65 .selfTest) run)).core 66).absent = true := by decide +kernel
theorem test_quarterRepair :
    let s := { run with quarters := [(63, { (default : Quarter) with inService := false })] }
    (s.island 63).state = .run ∧ absentCores s 63 = 0 ∧ ((after (.quarterRepair 63 [] true) s).quarter 63).inService = true ∧
    ((after (.quarterRepair 63 [] false) run).quarter 63).inService = false := by decide +kernel
theorem test_collectionRepair :
    let s := with3 (cmd flush) fun c => { c with damaged := true, lostTiles := [50] }
    (s.tile 50).lost = false ∧ ((after (.collectionRepair 0) s).coll? 0).map (fun c => (c.damaged, c.published)) = some (false, 7) := by decide +kernel
/-- R634: a collection whose control line was lost is restored from its image, under the next GENERATION. -/
theorem test_collectionRepair_line :
    let s := with3 (cmd flush) fun c => { c with
      restoring := true, image := some { epoch := 6, imageEpoch := 6, recs := [], attrs := c.attrs, codebook := [], centroids := [], cbGen := 1, tiles := [], mirrors := [], imageTiles := 0 } }
    ((after (.collectionRepair 0) s).coll? 0).map (fun c => (c.restoring, c.published, c.gen)) = some (false, 2 ^ 32, 2) := by decide +kernel

theorem test_sbWrites : (run.island 102).state = .run ∧ (after (.sbSetOffset 0xFFE) run).sideband.offset = 4094 ∧
    (after (.sbBlockWrite [7, 8]) (after (.sbSetOffset 0xFFE) run)).sideband.offset = 4096 ∧
    Mem.readN (after (.sbBlockWrite [7, 8]) (after (.sbSetOffset 0xFFE) run)).sideband.buf 4094 2 = [7, 8] ∧
    (after (.sbBlockWrite [7]) { run with sideband := { run.sideband with firmware := true } }).sideband.buf = [] := by decide +kernel
theorem test_sbReads :
    let s := { run with sideband := { run.sideband with buf := [(0, 9)], done := true, rspLen := 32 } }
    (after (.sbBlockRead 2) s).sideband.returned = [9, 0] ∧ (after .sbReadStatus s).sideband.returned = [2, 1] ∧
    (after .powerRead { s with power := { s.power with watts := 5000, dp := .dp1 } }).sideband.returned = [0xFF, 0x4F] ∧ (after .sbBusTimeout s).sideband.returned = [] := by
  decide +kernel
theorem test_sbSubmit : ((after (.sbSubmit 4096) run).sideband.firmware, (after (.sbSubmit 4096) run).sideband.reqLen) = (true, 4096) ∧
    (after (.sbSubmit 4097) run).sideband.refused = true ∧ (after (.sbSubmit 128) (after (.sbSubmit 4096) run)).sideband.refused = true := by decide +kernel
theorem test_powerLimitSet : (after (.powerLimitSet 600) run).power.limit = 600 ∧ (after (.powerLimitSet 599) run).power.limit = 0 ∧
    (after (.powerLimitSet 2400) run).power.limit = 2400 ∧ (after (.powerLimitSet 2401) run).power.limit = 0 := by decide +kernel
theorem test_railFaultRead : (after .railFaultRead { run with power := { run.power with railFault := some (true, 16) } }).sideband.returned = [16, 0xC0] ∧
    (after .railFaultRead run).sideband.returned = [0, 0] := by decide +kernel

/-! ## Well-formed commands: an ill-formed term for each check, which the check refuses -/

/-- No command of the list is well formed. -/
def refused (l : List Instr) : Bool := l.all fun c => !c.wf

def noBox : AdminSrc := .mailbox .p0 16 []
theorem test_wf_pairs : refused [.search .p0 2048 0 [], .insert .p0 2048 0 [], .upsert .p0 2048 0 [], .delete .p0 2048 0 [], .fetch .p0 2048 0 [],
    .flush .p0 2048 0 [], .abort .p0 2048 0 [], .tierMove .p0 2048 0 [], .park .p0 2048 0 [], .wake .p0 2048 0 [], .sqTail .p0 2048 0 false,
    .cqHead .p0 2048 0 false, .aggTime .p0 2048, .sqFetchFailure .p0 2048 true] = true ∧ (Instr.search .p0 2047 0 []).wf = true := by decide +kernel
theorem test_wf_mailboxes : refused [.identify noBox, .getLogPage noBox, .getFeatures noBox, .setFeatures noBox, .queueCreate noBox, .queueDelete noBox, .queueResume noBox,
    .fwDownload noBox, .fwCommit noBox, .fwActivate noBox, .attest noBox, .collectionCreate noBox [], .collectionCreate .sideband [⟨2048, none, []⟩], .collectionSet noBox,
    .collectionDelete noBox, .collectionRetrain noBox, .collectionRebuild noBox, .listSplit noBox, .scheduleLoad noBox, .scheduleUnload noBox, .scheduleBind noBox,
    .regionAlloc noBox, .regionFree noBox, .hbmMigrate noBox, .hbmDiag noBox, .diagRead noBox, .mailboxSubmit .p0 16 0] = true ∧
    (Instr.identify (.mailbox .p0 15 [])).wf = true := by decide +kernel
theorem test_wf_ports : refused [.msixUnmask .p0 (.vector 2048), .registerWrite ⟨.bar0 .p0 0x40000 [], 0⟩, .registerWrite ⟨.bar2 .p0 0x20000 [], 0⟩, .registerWrite ⟨.block 2 0 .host, 0⟩,
    .registerWrite ⟨.block (2 ^ 32) 0 .host, 0⟩, .translationCompletion .p0 (2 ^ 64) [], .translationCompletion .p0 0 (List.replicate 17 ⟨12, 0, true, true, false⟩),
    .invalidateRequest .p0 32 0 0, .invalidateRequest .p0 0 (2 ^ 64) 0, .invalidateCompletion .p0 32, .prgResponse .p0 512 .success, .priTimeout .p0 512] = true ∧
    (Instr.msixUnmask .p0 .function).wf = true ∧ (Instr.prgResponse .p0 511 .success).wf = true := by decide +kernel
theorem test_wf_streams : refused [.streamArm 64 { owner := .square, fill := arm, drain := none }, .streamArm 0 { owner := .square, fill := { arm with stream := 16 }, drain := none },
    .streamStop 64 ⟨0, .firmware⟩, .streamStop 0 ⟨16, .firmware⟩, .streamResume 64 ⟨0, .firmware⟩, .streamResume 0 ⟨16, .firmware⟩,
    .ringTailWrite 64 ⟨0, .firmware⟩ 0, .ringTailWrite 0 ⟨16, .firmware⟩ 0, .ringTailWrite 0 ⟨0, .firmware⟩ 65536,
    .descriptorFetch 64 0 [], .descriptorFetch 0 16 [], .descriptorFetch 0 0 [0], .copy 64 0, .copy 0 16, .fill 64 0, .fill 0 16, .marker 64 0, .marker 0 16,
    .pieceIssue 64 0, .pieceIssue 0 16] = true ∧ (Instr.ringTailWrite 63 ⟨15, .firmware⟩ 65535).wf = true := by decide +kernel
theorem test_wf_cores : refused [.alleyWrite 4096 0 0, .alleyWrite 0 64 0, .alleyRead 4096 0 0, .alleyRead 0 64 0, .alleyComplete 4096 0 [] true, .alleyComplete 0 64 [] true,
    .alleyComplete 0 0 (List.replicate 257 0) true, .fence 4096, .tileScored ⟨4096, none⟩, .layer ⟨0, [.dot 4096 1 1 0 0 0 0 0 0], none⟩, .layer ⟨0, [.dot 0 3 5 0 0 0 0 0 0], none⟩,
    .layer ⟨0, [.row 0 0 0x30000 0], none⟩, .layer ⟨0, [], some (4096, .program)⟩, .stepCycleOverrun 0 4096, .coreSpare 4096 .selfTest, .quarterRepair 64 [] true,
    .quarterRepair 0 [4096] true, .batchLaunch 0 [4096] [], .batchLaunch 0 [] [4096], .batchHoldExpiry 0 [4096] [], .batchHoldExpiry 0 [] (List.replicate 17 0),
    .runLaunch 0 [64] [], .runLaunch 0 [] [4096], .runHoldExpiry 0 [64] [], .runHoldExpiry 0 [] [4096]] = true ∧ (Instr.alleyRead 4095 63 0).wf = true := by decide +kernel
def noCore : AtomicArgs := { atomic 0 with src := .core 4096 }
def noAddr : AtomicArgs := { atomic 0 with addr := 2 ^ 48 }
theorem test_wf_cache : refused [.add noCore, .add noAddr, .fadd noCore, .fadd noAddr, .fadd { atomic 0 with wide := true }, .minUnsigned noCore, .minUnsigned noAddr, .maxUnsigned noCore,
    .maxUnsigned noAddr, .minSigned noCore, .minSigned noAddr, .maxSigned noCore, .maxSigned noAddr, .or noCore, .or noAddr, .cas noCore 0, .cas noAddr 0,
    .add { noCore with src := .mover 64 }, .add { noCore with src := .scheduler 8 }, .add { noCore with src := .square 8 }, .add { noCore with src := .peer 2048 },
    .cacheRead (.core 4096) 0 1 .keep .clean, .cacheRead (.core 0) (2 ^ 48) 1 .keep .clean, .cacheRead (.core 0) 0 0 .keep .clean, .cacheRead (.core 0) 127 2 .keep .clean,
    .cacheWrite (.core 4096) 0 [0] .keep, .cacheWrite (.core 0) (2 ^ 48) [0] .keep, .cacheWrite (.core 0) 0 [] .keep, .cacheWrite (.core 0) 127 [0, 0] .keep,
    .granuleProbe 64 0 true, .granuleProbe 0 (2 ^ 48) true, .granuleProbe 0 1024 true, .wcEntryDrain 64 0, .wcEntryDrain 0 (2 ^ 41), .blockGrant 64 0 .squares,
    .blockGrant 0 64 .squares, .blockRelease 64 0, .blockRelease 0 64] = true ∧ (Instr.cacheRead (.core 4095) 127 1 .keep .clean).wf = true := by decide +kernel
theorem test_wf_hbm : refused [.tgRunStart 512 ⟨.normal, 0⟩, .tgRunStart 0 ⟨(.testPort (some [(4, 0)])), 0⟩, .tgStop ⟨512, 2, 0, []⟩, .tgStop ⟨0, 2, 2 ^ 26 + 1, []⟩, .tgRunDone 512 [],
    .tgRunDone 0 [⟨2 ^ 20, 0, 0, 0⟩], .tgRunDone 0 [⟨0, 64, 0, 0⟩], .migrationStart 512 0, .migrationAbort 512 .firmware, .hbmRead (2 ^ 48) 0 ⟨[], []⟩, .hbmRead 16 0 ⟨[], []⟩,
    .hbmRead 0 4 ⟨[], []⟩, .hbmRead 0 0 ⟨[], [(16, 0)]⟩, .hbmWrite (2 ^ 48) 0 0 0, .hbmWrite 16 0 0 0, .hbmWrite 0 4 0 0, .patrolScrub 512 0 [], .patrolScrub 0 (2 ^ 20) [],
    .patrolScrub 0 0 [(64, [])], .rowRemap 512 0 0, .rowRemap 0 128 0, .rowRemap 0 0 16384, .pageRetire (2 ^ 28) 0, .migrationCopyDone 512 ⟨1, []⟩,
    .migrationCopyDone 0 ⟨2 ^ 20 + 1, []⟩, .migrationCopyDone 0 ⟨5, [5]⟩, .drainMarker 512 0, .drainMarker 0 8, .migrationRepair 512 ⟨none, true, []⟩, .channelLost 512] = true ∧
    (Instr.rowRemap 511 127 16383).wf = true := by decide +kernel
theorem test_wf_collections : refused [.commitWindowExpiry 65536 0, .commit 65536 0, .stagedAppend 65536 0, .ceilingRaise 65536, .idCeilingRaise 65536, .imageWrite 65536, .compaction 65536 0,
    .cutover 65536, .coarsePass 8 0, .coarsePass 0 65536, .squareRun 0 (.pair 2048) ⟨0, false⟩, .squareRun 0 (.quarter 64) ⟨0, false⟩, .squareEnd 0 (.die 8) 0, .evictionSwitch 65536 .index,
    .wakeSwitch 65536, .collectionRepair 65536, .t4BackingWrite (2 ^ 32)] = true ∧ (Instr.squareRun 0 .device ⟨0, false⟩).wf = true := by decide +kernel
theorem test_wf_flash : refused [.flashRead (2 ^ 32) 0 0 [] true, .flashRead 0 4 0 [] true, .flashRead 0 0 17 [] true, .flashRead 0 0 0 [0, 0, 0, 0, 0] true, .flashProgram (2 ^ 30) 0 true,
    .flashProgram 0 (2 ^ 32) true, .pageRecovery (2 ^ 32) true, .flashPatrol 0 0 [0, 0, 0, 0, 0], .wearLevelling 4, .flashChannelRetrain 16 none] = true ∧
    (Instr.flashRead 0 3 16 [0, 0, 0, 0] true).wf = true := by decide +kernel
theorem test_wf_links : refused [.linkTraining 6 (seen (List.replicate 8 false)), .linkTraining 0 (seen []), .linkTraining 0 { seen (List.replicate 8 false) with laneNames := [] },
    .linkTraining 0 { seen (List.replicate 8 false) with inverted := [] }, .laneFailure 6 0, .laneFailure 0 8, .retrainTimer 6, .linkTimeout 6, .flitReceive 6 (flit 0 true),
    .flitReceive 0 (flit 65536 true), .flitReceive 0 { flit 0 true with bytes := [] }, .sendKeepalive 6, .routeSwitch 2048 0, .routeSwitch 0 6, .packetForward 6 (packet 1 1 4 []),
    .packetForward 0 (packet 1 1 2049 []), .ack 6 0, .ack 0 65536, .nak 6 0, .nak 0 65536, .credit 6 0 0, .credit 0 7 0, .keepalive 6, .topology [⟨2048, 0, 0, 0, true⟩],
    .topology [⟨0, 0, 2048, 0, true⟩]] = true ∧ (Instr.linkTraining 5 (seen (List.replicate 8 false))).wf = true := by decide +kernel
theorem test_wf_peers : refused [.readReq { packet 1 1 4 [] with src := 2048 }, .readReq (packet 1 1 0 []), .readReq (packet 1 1 2049 []), .writeReq { packet 2 1 1 [0] with src := 2048 },
    .writeReq (packet 2 1 2 [0]), .writeReq (packet 2 1 0 []), .writeReq (packet 2 1 2049 (List.replicate 2049 0)), .atomicReq { packet 3 1 0 (List.replicate 10 0) with src := 2048 },
    .atomicReq (packet 3 1 0 [0]), .atomicReq (packet 3 1 0 (List.replicate 19 0)), .readRsp 0 (List.replicate 2049 0), .shardReq { shardReq with coordinator := 2048 }, .shardRun 0 2048 [],
    .shardRun 0 0 (List.replicate 86 ⟨0, 0, 0⟩), .shardEnd 0 2048 .success 0 0, .shardCancel 2048 0, .forwardCmd 2048 0 0 [], .forwardCpl 0 2048 0 [], .epochBeacon 0 (2 ^ 64),
    .adminFan 2048 0 [] 0, .adminFan 0 0 [] 65536, .shardRerank 2048 0 true [], .shardRerankRsp 0 2048 .success [] []] = true ∧ (Instr.shardRun 0 2047 (List.replicate 85 ⟨0, 0, 0⟩)).wf = true := by
  decide +kernel
theorem test_wf_power : refused [.peakClear 105, .crossingParityError 105, .pllLoss 103, .pllLock 103, .railFault 17 true, .throttleStep 28, .thermalSample (List.replicate 27 0),
    .telemetryPoll (List.replicate 16 none) (List.replicate 17 0), .telemetryPoll (List.replicate 17 none) [], .sbBlockWrite (List.replicate 33 0), .sbBlockRead 33,
    .startUp { board with training := [(2048, none)] }, .startUp { board with checks := [(512, [])] }, .startUp { board with failedCores := [4096] }, .startUp { board with flashChannels := [16] },
    .startUp { board with deviceNumber := 2048 }, .provisioning { made with edKeys := [1, 2, 3, 4, 5] }, .provisioning { made with mldsaKeys := [1, 2, 3, 4, 5] }] = true ∧
    (Instr.provisioning made).wf = true ∧ (Instr.sbBlockRead 32).wf = true := by decide +kernel

end Sys2Proof.Tests
end

section
/-! SUPPORT. Ports and their registers (13_host_interface.md): doorbell errors, ENABLE, events and port resets, each said as a change of its port,
and the statements about them. -/

namespace Sys2Proof.Machine

open Sys2Proof

/-! ## Rows of the host interface -/

theorem occurs_of_true {g : Bool} (h : g = true) (t s : State) : occurs g t s = .next t := by simp [occurs, h]

theorem occurs_of_false {g : Bool} (h : g = false) (t s : State) : occurs g t s = .next s := by simp [occurs, h]

theorem exec_sqTail (p : PortId) (q : Nat) (v : Word) (narrow : Bool) (s : State) :
    exec (.sqTail p q v narrow) s = occurs (barUp s p && okPair q) (sqTailEffect s p q (v.toNat % 65536) narrow) s := rfl

theorem exec_cqHead (p : PortId) (q : Nat) (v : Word) (narrow : Bool) (s : State) :
    exec (.cqHead p q v narrow) s = occurs (barUp s p && okPair q) (cqHeadEffect s p q (v.toNat % 65536) narrow) s := rfl

theorem exec_enable (p : PortId) (s : State) : exec (.enable p) s = occurs (barUp s p && (s.port p).ready) (enableEffect s p) s := rfl

theorem exec_quiesce (p : PortId) (v : Bool) (s : State) :
    exec (.quiesce p v) s = occurs (barUp s p) (s.modPort p fun x => { x with quiesce := v }) s := rfl

theorem exec_registerWrite (w : RegWrite) (s : State) :
    exec (.registerWrite w) s = occurs w.target.ok (registerWriteEffect s w.arising.toNat w.target) s := rfl

theorem exec_eventMaskWrite (p : PortId) (mask : Word) (s : State) :
    exec (.eventMaskWrite p mask) s = occurs (barUp s p) (eventMaskEffect s p (mask.setWidth 6)) s := rfl

theorem exec_queueReset (p : PortId) (s : State) :
    exec (.queueReset p) s = occurs (barUp s p && (s.port p).enabled) (portReset s p true) s := rfl

theorem exec_portResetEnd (p : PortId) (s : State) :
    exec (.portResetEnd p) s = occurs ((s.port p).inReset && (s.island (hostIsland p)).state == .run) (portResetEndEffect s p) s := rfl

/-! ## Events raised at a port -/

theorem getLsbD_setBit_self {w b : Nat} (v : BitVec w) (h : b < w) : (setBit v b).getLsbD b = true := by simp [setBit, h]

@[simp] theorem Port.raise_pairs (x : Port) (b : Nat) : (x.raise b).pairs = x.pairs := by rw [Port.raise_fields]
@[simp] theorem Port.raise_dbErrors (x : Port) (b : Nat) : (x.raise b).dbErrors = x.dbErrors := by rw [Port.raise_fields]
@[simp] theorem Port.raise_dbLast (x : Port) (b : Nat) : (x.raise b).dbLast = x.dbLast := by rw [Port.raise_fields]

theorem State.port_withLogs (s : State) (l : Logs) (p : PortId) : { s with logs := l }.port p = s.port p := by cases p <;> rfl

/-! ## Doorbell errors (R466) -/

/-- What a doorbell error of queue q does to its port before it is logged: the count, and DB_ERROR where the queue exists (R466). -/
def Port.countDoorbellError (x : Port) (q : Nat) : Port :=
  { x with
    dbErrors := satAdd 0xFFFF x.dbErrors 1, dbLast := q
    pairs := if (Tab.getD x.pairs q {}).state = .absent then x.pairs
      else Tab.modify x.pairs q {} fun y => { y with dbError := true } }

/-- The log entry of a doorbell error (R466). -/
def doorbellEntry (s : State) (p : PortId) (q v : Nat) : LogEntry :=
  portEntry s p 0 q 0xFFFF none 0 0 0 { kind := 0, loc := q, detail := v }

theorem doorbellError_eq (s : State) (p : PortId) (q v : Nat) :
    doorbellError s p q v
      = writeLog (s.modPort p fun x => x.countDoorbellError q) (doorbellEntry (s.modPort p fun x => x.countDoorbellError q) p q v) [p] := by
  unfold doorbellError
  dsimp only
  have count : (if ((s.modPort p fun x => { x with dbErrors := satAdd 0xFFFF x.dbErrors 1, dbLast := q }).pair p q).state = .absent
      then s.modPort p fun x => { x with dbErrors := satAdd 0xFFFF x.dbErrors 1, dbLast := q }
      else (s.modPort p fun x => { x with dbErrors := satAdd 0xFFFF x.dbErrors 1, dbLast := q }).modPair p q
        fun x => { x with dbError := true }) = s.modPort p fun x => x.countDoorbellError q := by
    split_ifs with absent
    · refine s.modPort_congr p ?_
      simp only [State.pair, State.port_modPort] at absent
      simp only [Port.countDoorbellError, if_pos absent]
    · rw [State.modPair, State.modPort_modPort]
      refine s.modPort_congr p ?_
      simp only [State.pair, State.port_modPort] at absent
      simp only [Port.countDoorbellError, if_neg absent]
  rw [count]
  rfl

theorem doorbellError_port (s : State) (p : PortId) (q v : Nat) :
    (doorbellError s p q v).port p = ((s.port p).countDoorbellError q).raise evErrorLog := by
  rw [doorbellError_eq, writeLog_port, State.port_withLogs, State.port_modPort, State.port_modPort]

theorem doorbellError_frame (s : State) (p : PortId) (q v : Nat) :
    doorbellError s p q v
      = { s.modPort p fun _ => (doorbellError s p q v).port p with logs := (doorbellError s p q v).logs } := by
  rw [doorbellError_port, doorbellError_eq, writeLog_port]
  cases p <;> rfl

theorem Port.countDoorbellError_pair (x : Port) (q r : Nat) :
    Tab.getD (x.countDoorbellError q).pairs r {}
      = if r = q ∧ (Tab.getD x.pairs q {}).state ≠ .absent then { Tab.getD x.pairs q {} with dbError := true }
        else Tab.getD x.pairs r {} := by
  unfold Port.countDoorbellError
  by_cases absent : (Tab.getD x.pairs q {}).state = .absent
  · rw [if_pos absent, if_neg fun h => h.2 absent]
  · simp only [absent, if_false, Tab.getD_modify, ne_eq, not_false_eq_true, and_true]

theorem doorbellError_pair (s : State) (p : PortId) (q v r : Nat) :
    (doorbellError s p q v).pair p r
      = if r = q ∧ (s.pair p q).state ≠ .absent then { s.pair p q with dbError := true } else s.pair p r := by
  change Tab.getD ((doorbellError s p q v).port p).pairs r {} = _
  rw [doorbellError_port, Port.raise_pairs]
  exact Port.countDoorbellError_pair ..

/-- Outside an activation the newest entry is that of the error. -/
theorem doorbellError_logs {s : State} (h : s.security.activating = none) (p : PortId) (q v : Nat) :
    (doorbellError s p q v).logs.entries.getLast?
      = some { doorbellEntry (s.modPort p fun x => x.countDoorbellError q) p q v with seq := s.logs.total + 1 } := by
  rw [doorbellError_eq, writeLog_port]
  exact (recordLog_idle (by simpa using h) _).trans (by simp)

/-- A doorbell write that R466 refuses is a doorbell error. -/
theorem sqTailEffect_of_bad {s : State} {p : PortId} {q v : Nat} {narrow : Bool}
    (h : doorbellBad (s.pair p q) (s.pair p q).sqEntries v narrow = true) : sqTailEffect s p q v narrow = doorbellError s p q v := by
  simp [sqTailEffect, h]

theorem cqHeadEffect_of_bad {s : State} {p : PortId} {q v : Nat} {narrow : Bool}
    (h : doorbellBad (s.pair p q) (s.pair p q).cqEntries v narrow = true ∨
      ringDist (s.pair p q).cqEntries (s.pair p q).cqHead (s.pair p q).cqTail < ringDist (s.pair p q).cqEntries (s.pair p q).cqHead v) :
    cqHeadEffect s p q v narrow = doorbellError s p q v := by
  simp only [cqHeadEffect, Bool.or_eq_true, decide_eq_true_eq, if_pos h]

theorem doorbellBad_iff (x : QueuePair) (n v : Nat) (narrow : Bool) :
    doorbellBad x n v narrow = true ↔ narrow = true ∨ x.state = .absent ∨ x.state = .deleting ∨ n ≤ v := by
  simp [doorbellBad, or_assoc]

/-- The row of a doorbell write that R466 refuses. -/
theorem exec_doorbell_of_bad {p : PortId} {q : Nat} {v : Word} {narrow : Bool} {s : State} (up : barUp s p = true) (hq : q < 2048)
    {c : Instr} {size : Nat}
    (hc : (c = .sqTail p q v narrow ∧ size = (s.pair p q).sqEntries) ∨ (c = .cqHead p q v narrow ∧ size = (s.pair p q).cqEntries))
    (bad : narrow = true ∨ (s.pair p q).state = .absent ∨ (s.pair p q).state = .deleting ∨ size ≤ v.toNat % 65536 ∨
      (c = .cqHead p q v narrow ∧ ringDist size (s.pair p q).cqHead (s.pair p q).cqTail
        < ringDist size (s.pair p q).cqHead (v.toNat % 65536))) :
    exec c s = .next (doorbellError s p q (v.toNat % 65536)) := by
  have row : (barUp s p && okPair q) = true := by simp [up, okPair, hq]
  obtain ⟨rfl, rfl⟩ | ⟨rfl, rfl⟩ := hc
  · have bad' : doorbellBad (s.pair p q) (s.pair p q).sqEntries (v.toNat % 65536) narrow = true := by
      simpa [doorbellBad_iff] using bad
    rw [exec_sqTail, occurs_of_true row, sqTailEffect_of_bad bad']
  · have bad' : doorbellBad (s.pair p q) (s.pair p q).cqEntries (v.toNat % 65536) narrow = true ∨
        ringDist (s.pair p q).cqEntries (s.pair p q).cqHead (s.pair p q).cqTail
          < ringDist (s.pair p q).cqEntries (s.pair p q).cqHead (v.toNat % 65536) := by
      simpa [doorbellBad_iff, or_assoc] using bad
    rw [exec_cqHead, occurs_of_true row, cqHeadEffect_of_bad bad']

/-- Settles O6: a refused doorbell write is doorbellError, which counts at its port, marks the queue that exists and logs. -/
theorem doorbellErrors : Obligations.DoorbellErrors := by
  intro p q v narrow s up hq c size hc bad
  refine ⟨_, exec_doorbell_of_bad up hq hc bad, ?_, ?_, ?_, ?_, ?_, ?_, doorbellError_frame ..⟩
  · simp [doorbellError_port, Port.countDoorbellError, satAdd]
  · simp [doorbellError_port, Port.countDoorbellError]
  · rw [doorbellError_port, Port.raise_status]
    exact getLsbD_setBit_self _ (by decide)
  · by_cases absent : (s.pair p q).state = .absent <;> simp [doorbellError_pair, absent]
  · intro r hr
    simp [doorbellError_pair, hr]
  · intro idle
    exact ⟨_, doorbellError_logs idle .., rfl, rfl, rfl, rfl⟩

/-! ## Event messages (R462) -/

/-- A message on vector v goes out at once: MSI-X is on, the vector is unmasked and the port may send (R470, R480). -/
def Port.mayMessage (x : Port) (v : Nat) : Prop :=
  x.msixEnable = true ∧ x.functionMask = false ∧ (Tab.getD x.msix v {}).masked = false ∧ x.busMaster = true ∧ x.d3hot = false

theorem Port.signal_of_mayMessage {x : Port} {v : Nat} (h : x.mayMessage v) : x.signal v = { x with sent := x.sent ++ [.msix v] } := by
  obtain ⟨enabled, unmasked, entry, master, awake⟩ := h
  simp only [Port.signal, Port.emit, enabled, unmasked, entry, master, awake, Bool.not_true, Bool.or_false, Bool.false_eq_true, if_false]

/-- An event that sets unmasked signals its vector, one that sets masked owes its message (R462). -/
theorem Port.raise_of_unmasked {x : Port} {b : Nat} (clear : x.eventStatus.getLsbD b = false) (unmasked : x.eventMask.getLsbD b = false) :
    x.raise b = { x with eventStatus := setBit x.eventStatus b }.signal x.eventVector := by
  simp only [Port.raise, clear, unmasked, Bool.false_eq_true, if_false]

theorem Port.raise_of_masked {x : Port} {b : Nat} (clear : x.eventStatus.getLsbD b = false) (masked : x.eventMask.getLsbD b = true) :
    x.raise b = { x with eventStatus := setBit x.eventStatus b, eventOwed := setBit x.eventOwed b } := by
  simp only [Port.raise, clear, masked, Bool.false_eq_true, if_false, if_true]

theorem raiseEvent_of_set {s : State} {p : PortId} {b : Nat} (h : (s.port p).eventStatus.getLsbD b = true) : raiseEvent s p b = s := by
  simp only [raiseEvent, h, if_true]

theorem raiseEvent_port (s : State) (p : PortId) (b : Nat) : (raiseEvent s p b).port p = (s.port p).raise b := by
  rw [raiseEvent_eq, State.port_modPort]

/-- One signal for each bit of a list that owes its message. -/
def Port.signalOwed (x : Port) (owed : Nat → Bool) (l : List Nat) : Port :=
  l.foldl (fun x b => if owed b then x.signal x.eventVector else x) x

/-- Where messages go out at once, each bit that owes its message sends it. -/
theorem Port.signalOwed_of_mayMessage {x : Port} (h : x.mayMessage x.eventVector) (owed : Nat → Bool) (l : List Nat) :
    x.signalOwed owed l = { x with sent := x.sent ++ List.replicate (l.filter owed).length (.msix x.eventVector) } := by
  unfold Port.signalOwed
  induction l generalizing x with
  | nil => simp
  | cons b l ih =>
    rw [List.foldl_cons]
    by_cases hb : owed b = true
    · have next : Port.mayMessage { x with sent := x.sent ++ [.msix x.eventVector] } x.eventVector := h
      rw [if_pos hb, Port.signal_of_mayMessage h, ih next]
      simp [hb, List.replicate_succ]
    · rw [if_neg hb, ih h]
      simp [hb]

/-- Signals change the MSI-X table and what the port sends. -/
theorem Port.signalOwed_fields (x : Port) (owed : Nat → Bool) (l : List Nat) :
    x.signalOwed owed l = { x with
      msix := (x.signalOwed owed l).msix, sent := (x.signalOwed owed l).sent, waiting := (x.signalOwed owed l).waiting } := by
  refine List.foldlRecOn l _ (motive := fun y : Port => y = { x with msix := y.msix, sent := y.sent, waiting := y.waiting }) rfl ?_
  intro y hy b _
  split
  · rw [Port.signal_fields, hy]
  · exact hy

/-- The port with the new mask; bits no longer masked owe no message. -/
def Port.withMask (x : Port) (mask : BitVec 6) : Port := { x with eventMask := mask, eventOwed := x.eventOwed &&& mask }

/-- What a write of EVENT_MASK does to its port: a bit that owes its message sends it when its mask bit clears (R462). -/
def Port.writeMask (x : Port) (mask : BitVec 6) : Port :=
  (x.withMask mask).signalOwed (fun b => (x.eventOwed &&& ~~~mask).getLsbD b) (List.range 6)

theorem eventMaskEffect_eq (s : State) (p : PortId) (mask : BitVec 6) :
    eventMaskEffect s p mask = s.modPort p fun x => x.writeMask mask := by
  have one (owed : Nat → Bool) : (fun (s : State) b => if owed b then signal s p (s.port p).eventVector else s)
      = fun s b => s.modPort p fun x => if owed b then x.signal x.eventVector else x := by
    funext s b
    split
    · rw [signal_eq]
      exact s.modPort_congr p rfl
    · exact (s.modPort_of_self p rfl).symm
  unfold eventMaskEffect
  dsimp only
  rw [one fun b => ((s.port p).eventOwed &&& ~~~mask).getLsbD b, foldl_modPort, State.modPort_modPort]
  exact s.modPort_congr p rfl

theorem Port.writeMask_fields (x : Port) (mask : BitVec 6) :
    x.writeMask mask = { x with
      eventMask := mask, eventOwed := x.eventOwed &&& mask, msix := (x.writeMask mask).msix
      sent := (x.writeMask mask).sent, waiting := (x.writeMask mask).waiting } :=
  Port.signalOwed_fields (x.withMask mask) _ _

theorem Port.writeMask_owed (x : Port) (mask : BitVec 6) : (x.writeMask mask).eventOwed = x.eventOwed &&& mask := by
  rw [Port.writeMask_fields]

theorem Port.writeMask_sent {x : Port} (h : x.mayMessage x.eventVector) (mask : BitVec 6) :
    (x.writeMask mask).sent = x.sent ++
      List.replicate ((List.range 6).filter fun b => (x.eventOwed &&& ~~~mask).getLsbD b).length (.msix x.eventVector) := by
  have may : (x.withMask mask).mayMessage (x.withMask mask).eventVector := h
  rw [Port.writeMask, Port.signalOwed_of_mayMessage may]
  rfl

/-- Settles O9: a bit set already changes nothing; else the port raises the event, and a write of the mask sends what is owed. -/
theorem eventsSignal : Obligations.EventsSignal := by
  refine ⟨fun p b s hb => ⟨raiseEvent_of_set, fun clear => ⟨?_, ?_, ?_⟩⟩, fun p mask s up => ?_⟩
  · rw [raiseEvent_port, Port.raise_status]
    exact getLsbD_setBit_self _ hb
  · intro unmasked enabled function entry master awake
    have may : Port.mayMessage { s.port p with eventStatus := setBit (s.port p).eventStatus b } (s.port p).eventVector :=
      ⟨enabled, function, entry, master, awake⟩
    rw [raiseEvent_port, Port.raise_of_unmasked clear unmasked, Port.signal_of_mayMessage may]
  · intro masked
    rw [raiseEvent_port, Port.raise_of_masked clear masked]
    exact ⟨rfl, getLsbD_setBit_self _ hb⟩
  · have port : ((s.modPort p fun x => x.writeMask (mask.setWidth 6)).port p) = (s.port p).writeMask (mask.setWidth 6) := by simp
    refine ⟨s.modPort p fun x => x.writeMask (mask.setWidth 6), ?_, ?_, ?_, ?_, ?_⟩
    · rw [exec_eventMaskWrite, occurs_of_true up, eventMaskEffect_eq]
    · rw [port, Port.writeMask_fields]
    · rw [port, Port.writeMask_owed]
    · intro enabled function entry master awake
      rw [port, Port.writeMask_sent ⟨enabled, function, entry, master, awake⟩]
    · refine s.modPort_congr p ?_
      rw [port, Port.writeMask_owed]
      exact Port.writeMask_fields ..

/-! ## Entries of a table under one number -/

namespace Tab

variable {α : Type}

/-- The entries that a table lists under number n. -/
def under (t : Table α) (n : Nat) : Table α := t.filter fun y => y.1 == n

theorem under_cons_self (n : Nat) (a : α) (t : Table α) : under ((n, a) :: t) n = (n, a) :: under t n := by simp [under]

theorem under_cons_ne {j n : Nat} (h : j ≠ n) (a : α) (t : Table α) : under ((j, a) :: t) n = under t n := by simp [under, h]

theorem get?_under (t : Table α) (n : Nat) : get? (under t n) n = get? t n := by
  induction t with
  | nil => rfl
  | cons y t ih =>
    obtain ⟨j, a⟩ := y
    by_cases h : j = n
    · subst h; simp [under_cons_self, get?]
    · simp [under_cons_ne h, get?, h, ih]

theorem under_adjust_ne (t : Table α) {k n : Nat} (h : k ≠ n) (f : α → α) : under (adjust t k f) n = under t n := by
  induction t with
  | nil => rfl
  | cons y t ih =>
    obtain ⟨j, a⟩ := y
    by_cases hj : j = k
    · subst hj; simp [adjust, under_cons_ne h]
    · by_cases hn : j = n
      · subst hn; simp [adjust, hj, under_cons_self, ih]
      · simp [adjust, hj, under_cons_ne hn, ih]

theorem under_erase_ne (t : Table α) {k n : Nat} (h : k ≠ n) : under (erase t k) n = under t n := by
  induction t with
  | nil => rfl
  | cons y t ih =>
    obtain ⟨j, a⟩ := y
    by_cases hj : j = k
    · subst hj; simp [erase, under_cons_ne h]
    · by_cases hn : j = n
      · subst hn; simp [erase, hj, under_cons_self, ih]
      · simp [erase, hj, under_cons_ne hn, ih]

theorem under_adjust_self (t : Table α) (n : Nat) (f : α → α) : under (adjust t n f) n = adjust (under t n) n f := by
  induction t with
  | nil => rfl
  | cons y t ih =>
    obtain ⟨j, a⟩ := y
    by_cases h : j = n
    · subst h; simp [adjust, under_cons_self]
    · simp [adjust, h, under_cons_ne h, ih]

theorem under_erase_self (t : Table α) (n : Nat) : under (erase t n) n = erase (under t n) n := by
  induction t with
  | nil => rfl
  | cons y t ih =>
    obtain ⟨j, a⟩ := y
    by_cases h : j = n
    · subst h; simp [erase, under_cons_self]
    · simp [erase, h, under_cons_ne h, ih]

theorem get?_keep {t : Table α} {k : Nat} {a : α} {c : Nat → α → Bool} (h : get? t k = some a) (hc : c k a = true) :
    get? (keep t c) k = some a := by
  induction t with
  | nil => simp at h
  | cons y t ih =>
    obtain ⟨j, b⟩ := y
    by_cases hj : j = k
    · subst hj
      obtain rfl : b = a := by simpa [get?] using h
      simp [keep, hc, get?]
    · have rest : get? t k = some a := by simpa [get?, hj] using h
      by_cases hb : c j b = true
      · simpa [keep, hb, get?, hj] using ih rest
      · simpa [keep, hb] using ih rest

end Tab

/-! ## What a port reset may change -/

/-- State s with the parts of t that a reset of port p may change before the port itself is reset: the port's mailboxes, and the work in
progress (R477, R392). -/
def State.takingWork (s : State) (p : PortId) (t : State) : State :=
  { s.modPort p fun x => { x with mailboxes := (t.port p).mailboxes } with
    cmds := t.cmds, batches := t.batches, runs := t.runs, colls := t.colls, pieces := t.pieces, alleys := t.alleys
    protect := t.protect, cache := t.cache, engines := t.engines, streams := t.streams }

/-- From s to t only the mailboxes of port p and the work in progress changed. -/
def OnlyWork (p : PortId) (s t : State) : Prop := t = s.takingWork p t

theorem OnlyWork.refl (p : PortId) (s : State) : OnlyWork p s s := by cases p <;> rfl

theorem OnlyWork.trans {p : PortId} {s t u : State} (h : OnlyWork p s t) (k : OnlyWork p t u) : OnlyWork p s u :=
  calc u = t.takingWork p u := k
    _ = (s.takingWork p t).takingWork p u := by rw [← show t = s.takingWork p t from h]
    _ = s.takingWork p u := by cases p <;> rfl

theorem OnlyWork.port {p : PortId} {s t : State} (h : OnlyWork p s t) :
    t.port p = { s.port p with mailboxes := (t.port p).mailboxes } := by
  have := congrArg (·.port p) h
  cases p <;> exact this

theorem OnlyWork.modPort {p : PortId} {s t : State} (h : OnlyWork p s t) (f : Port → Port) :
    t.modPort p f = { s.modPort p fun _ => (t.modPort p f).port p with
      cmds := t.cmds, batches := t.batches, runs := t.runs, colls := t.colls, pieces := t.pieces, alleys := t.alleys
      protect := t.protect, cache := t.cache, engines := t.engines, streams := t.streams } := by
  have := congrArg (fun u => u.modPort p fun _ => f (t.port p)) h
  cases p <;> exact this

/-- A fold of changes of the work changes only the work. -/
theorem OnlyWork.foldl {α : Type} {p : PortId} {s : State} {l : List α} {g : State → α → State}
    (h : ∀ t, ∀ a ∈ l, OnlyWork p t (g t a)) : OnlyWork p s (l.foldl g s) :=
  List.foldlRecOn l g (OnlyWork.refl p s) fun t ht a ha => ht.trans (h t a ha)

/-! ## The commands of the port (R477) -/

/-- A command that a reset of its port leaves at work: an admitted one, or one of a mailbox that is not decided, but those that administer
queues (R477). -/
def Cmd.runsOn (c : Cmd) : Prop :=
  (c.stage = .admitted ∨ (∃ q m, c.origin = .mailbox q m) ∧ c.stage ≠ .decided) ∧ queueAdmin (eOpcode c.entry) = false

/-- A command whose completion will be discarded (R477). -/
def Cmd.detach (c : Cmd) : Cmd := { c with detached := true, heldDp := false }

theorem resetCmd_of_runsOn {s : State} {n : Nat} {c : Cmd} (h : c.runsOn) : resetCmd s n c = s.modCmd n Cmd.detach := by
  obtain ⟨stage, op⟩ := h
  unfold resetCmd
  rw [if_pos]
  · rfl
  · refine ⟨stage.imp_right fun ⟨⟨q, m, box⟩, undecided⟩ => ⟨?_, undecided⟩, by simp [op]⟩
    rw [box]

/-- From s to t command n let go of what it held: its place in batches and runs, its reservations and its pins. -/
structure LetsGo (p : PortId) (n : Nat) (s t : State) : Prop where
  work : OnlyWork p s t
  regions : t.protect.regions = s.protect.regions
  batches : t.batches = (leaveBatches s n).batches
  cmds : t.cmds = s.cmds

theorem LetsGo.trans {p : PortId} {n : Nat} {s t u : State} (h : LetsGo p n s t) (work : OnlyWork p t u)
    (regions : u.protect.regions = t.protect.regions) (batches : u.batches = t.batches) (cmds : u.cmds = t.cmds) : LetsGo p n s u :=
  ⟨h.work.trans work, regions.trans h.regions, batches.trans h.batches, cmds.trans h.cmds⟩

theorem LetsGo.modMailbox {p : PortId} {n : Nat} {s t : State} (h : LetsGo p n s t) (m : Nat) (f : Mailbox → Mailbox) :
    LetsGo p n s (t.modMailbox p m f) :=
  h.trans (by cases p <;> rfl) (by rw [State.modMailbox_protect]) (State.modMailbox_batches ..) (State.modMailbox_cmds ..)

theorem letsGo_releaseStaging (p : PortId) (s : State) (n : Nat) (c : Cmd) :
    LetsGo p n s (releaseStaging (dropRuns (leaveBatches s n) n) n c) :=
  ⟨by cases p <;> rfl, rfl, rfl, rfl⟩

theorem onlyWork_releasePins (p : PortId) (s : State) (c : Cmd) : OnlyWork p s (releasePins s c) := by
  unfold releasePins
  split <;> cases p <;> rfl

theorem releasePins_cmds (s : State) (c : Cmd) : (releasePins s c).cmds = s.cmds := by
  unfold releasePins
  split <;> rfl

theorem releasePins_regions (s : State) (c : Cmd) : (releasePins s c).protect.regions = s.protect.regions := by
  unfold releasePins
  split <;> rfl

theorem releasePins_batches (s : State) (c : Cmd) : (releasePins s c).batches = s.batches := by
  unfold releasePins
  split <;> rfl

/-- A command that does not run on lets go of what it held, and is gone. -/
theorem resetCmd_of_not_runsOn {p : PortId} {s : State} {n : Nat} {c : Cmd} (came : originPort c.origin = some p) (h : ¬ c.runsOn) :
    ∃ t, LetsGo p n s t ∧ resetCmd s n c = { t with cmds := Tab.erase t.cmds n } := by
  have released : LetsGo p n s (if c.stage = .decided then releasePins (releaseStaging (dropRuns (leaveBatches s n) n) n c) c
      else releaseStaging (dropRuns (leaveBatches s n) n) n c) := by
    have go := letsGo_releaseStaging p s n c
    split
    · exact go.trans (onlyWork_releasePins ..) (releasePins_regions ..) (releasePins_batches ..) (releasePins_cmds ..)
    · exact go
  unfold resetCmd
  rw [if_neg]
  · refine ⟨_, ?_, rfl⟩
    split
    · next q m box =>
      obtain rfl : q = p := by simpa [box, originPort] using came
      split
      · next decided =>
        rw [if_pos decided] at released
        exact released.modMailbox ..
      · next undecided =>
        rw [if_neg undecided] at released
        exact released
    · exact released
  · rintro ⟨stage, op⟩
    refine h ⟨stage.imp_right fun ⟨box, undecided⟩ => ⟨?_, undecided⟩, by simpa using op⟩
    split at box
    · next q m origin => exact ⟨q, m, origin⟩
    · cases box

/-- A batch without command n. -/
def Batch.without (B : Batch) (n : Nat) : Batch :=
  { B with
    members := B.members.filter (· != n), biased := Tab.erase B.biased n
    workers := Tab.map B.workers fun w => { w with bufs := Tab.erase w.bufs n } }

theorem leaveBatches_batches (s : State) (n : Nat) :
    (leaveBatches s n).batches = Tab.keep (Tab.map s.batches fun B => B.without n) fun _ B => B.launched || !B.members.isEmpty := rfl

/-- A command stays in the batches that another command leaves. -/
theorem mem_leaveBatches {s : State} {k b m : Nat} {B : Batch} (hB : Tab.get? s.batches b = some B) (hm : m ∈ B.members) (ne : k ≠ m) :
    ∃ C, Tab.get? (leaveBatches s k).batches b = some C ∧ m ∈ C.members := by
  have stays : m ∈ (B.without k).members := by simp [Batch.without, hm, Ne.symm ne]
  have listed : Tab.get? (Tab.map s.batches fun B => B.without k) b = some (B.without k) := by rw [Tab.get?_map, hB]; rfl
  have filled : (B.without k).members.isEmpty = false := List.isEmpty_eq_false_iff_exists_mem.mpr ⟨m, stays⟩
  refine ⟨B.without k, ?_, stays⟩
  rw [leaveBatches_batches]
  exact Tab.get?_keep listed (by simp [filled])

theorem mem_portCmds {s : State} {p : PortId} {y : Nat × Cmd} : y ∈ portCmds s p ↔ y ∈ s.cmds ∧ originPort y.2.origin = some p := by
  simp [portCmds]

/-- The commands of a list, each as a reset of its port leaves it. -/
def resetCmds (s : State) (l : List (Nat × Cmd)) : State := l.foldl (fun s y => resetCmd s y.1 y.2) s

section ResetCmd

variable {p : PortId} {c : Cmd} (came : originPort c.origin = some p) (s : State) {k n : Nat}
include came

theorem onlyWork_resetCmd : OnlyWork p s (resetCmd s k c) := by
  by_cases on : c.runsOn
  · rw [resetCmd_of_runsOn on]
    cases p <;> rfl
  · obtain ⟨t, go, gone⟩ := resetCmd_of_not_runsOn (s := s) (n := k) came on
    rw [gone]
    refine go.work.trans ?_
    cases p <;> rfl

theorem resetCmd_regions : (resetCmd s k c).protect.regions = s.protect.regions := by
  by_cases on : c.runsOn
  · rw [resetCmd_of_runsOn on, State.modCmd_protect]
  · obtain ⟨t, go, gone⟩ := resetCmd_of_not_runsOn (s := s) (n := k) came on
    rw [gone, go.regions]

theorem resetCmd_under_ne (ne : k ≠ n) : Tab.under (resetCmd s k c).cmds n = Tab.under s.cmds n := by
  by_cases on : c.runsOn
  · rw [resetCmd_of_runsOn on, State.modCmd_cmds, Tab.under_adjust_ne _ ne]
  · obtain ⟨t, go, gone⟩ := resetCmd_of_not_runsOn (s := s) (n := k) came on
    rw [gone, Tab.under_erase_ne _ ne, go.cmds]

theorem resetCmd_batch {b m : Nat} {B : Batch} (hB : Tab.get? s.batches b = some B) (hm : m ∈ B.members) (ne : k ≠ m) :
    ∃ C, Tab.get? (resetCmd s k c).batches b = some C ∧ m ∈ C.members := by
  by_cases on : c.runsOn
  · rw [resetCmd_of_runsOn on, State.modCmd_batches]
    exact ⟨B, hB, hm⟩
  · obtain ⟨t, go, gone⟩ := resetCmd_of_not_runsOn (s := s) (n := k) came on
    rw [gone, go.batches]
    exact mem_leaveBatches hB hm ne

end ResetCmd

theorem resetCmds_under_ne {p : PortId} {n : Nat} {l : List (Nat × Cmd)} (hl : ∀ y ∈ l, originPort y.2.origin = some p)
    (ne : ∀ y ∈ l, y.1 ≠ n) (s : State) : Tab.under (resetCmds s l).cmds n = Tab.under s.cmds n :=
  List.foldlRecOn l _ (motive := fun t : State => Tab.under t.cmds n = Tab.under s.cmds n) rfl
    fun t ht y hy => (resetCmd_under_ne (hl y hy) t (ne y hy)).trans ht

theorem resetCmds_append (s : State) (l₁ l₂ : List (Nat × Cmd)) : resetCmds s (l₁ ++ l₂) = resetCmds (resetCmds s l₁) l₂ :=
  List.foldl_append

section PortCommands

variable {s : State} {p : PortId} {n : Nat} {x : Cmd} (alone : Tab.under s.cmds n = [(n, x)])
include alone

theorem eq_of_mem_of_alone {c : Cmd} (h : (n, c) ∈ s.cmds) : c = x := by
  have listed : (n, c) ∈ Tab.under s.cmds n := by simp [Tab.under, h]
  simpa [alone] using listed

theorem ne_of_mem_portCmds (other : originPort x.origin ≠ some p) {y : Nat × Cmd} (h : y ∈ portCmds s p) : y.1 ≠ n := by
  obtain ⟨k, c⟩ := y
  obtain ⟨listed, came⟩ := mem_portCmds.mp h
  rintro rfl
  obtain rfl := eq_of_mem_of_alone alone listed
  exact other came

/-- A command of another port stays as it is. -/
theorem resetCmds_cmd_other (other : originPort x.origin ≠ some p) : (resetCmds s (portCmds s p)).cmd? n = some x := by
  have same := resetCmds_under_ne (fun y hy => (mem_portCmds.mp hy).2) (fun y hy => ne_of_mem_portCmds alone other hy) s
  rw [State.cmd?, ← Tab.get?_under, same, alone]
  simp [Tab.get?]

/-- A command of the port is reset once: what comes before and after it in the list leaves its number alone. -/
theorem resetCmds_under_own (own : originPort x.origin = some p) :
    ∃ t, Tab.under t.cmds n = [(n, x)] ∧ Tab.under (resetCmds s (portCmds s p)).cmds n = Tab.under (resetCmd t n x).cmds n := by
  have once : (portCmds s p).filter (fun y => y.1 == n) = [(n, x)] := by
    have swap : (portCmds s p).filter (fun y => y.1 == n) = (Tab.under s.cmds n).filter fun y => originPort y.2.origin == some p := by
      unfold portCmds Tab.under
      rw [List.filter_filter, List.filter_filter]
      exact List.filter_congr fun y _ => Bool.and_comm ..
    rw [swap, alone]
    simp [own]
  obtain ⟨l₁, l₂, split, before, _, after⟩ := List.filter_eq_cons_iff.mp once
  have came₁ : ∀ y ∈ l₁, originPort y.2.origin = some p := fun y hy => ((mem_portCmds (s := s)).mp (by simp [split, hy])).2
  have came₂ : ∀ y ∈ l₂, originPort y.2.origin = some p := fun y hy => ((mem_portCmds (s := s)).mp (by simp [split, hy])).2
  refine ⟨resetCmds s l₁, ?_, ?_⟩
  · rw [resetCmds_under_ne came₁ (fun y hy => by simpa using before y hy), alone]
  · rw [split, resetCmds_append]
    exact resetCmds_under_ne came₂ (fun y hy => by simpa using List.filter_eq_nil_iff.mp after y hy) _

/-- An admitted command of the port runs on, detached. -/
theorem resetCmds_cmd_of_runsOn (own : originPort x.origin = some p) (on : x.runsOn) :
    (resetCmds s (portCmds s p)).cmd? n = some x.detach := by
  obtain ⟨t, ht, eq⟩ := resetCmds_under_own alone own
  rw [State.cmd?, ← Tab.get?_under, eq, resetCmd_of_runsOn on, State.modCmd_cmds, Tab.under_adjust_self, ht]
  simp [Tab.adjust, Tab.get?]

/-- Every other command of the port is gone. -/
theorem resetCmds_cmd_of_not_runsOn (own : originPort x.origin = some p) (off : ¬ x.runsOn) :
    (resetCmds s (portCmds s p)).cmd? n = none := by
  obtain ⟨t, ht, eq⟩ := resetCmds_under_own alone own
  obtain ⟨u, go, gone⟩ := resetCmd_of_not_runsOn (s := t) (n := n) own off
  rw [State.cmd?, ← Tab.get?_under, eq, gone, Tab.under_erase_self, go.cmds, ht]
  simp [Tab.erase]

/-- A command of another port keeps its batches. -/
theorem resetCmds_batch (other : originPort x.origin ≠ some p) {b : Nat} {B : Batch} (hB : Tab.get? s.batches b = some B)
    (hn : n ∈ B.members) : ∃ C, Tab.get? (resetCmds s (portCmds s p)).batches b = some C ∧ n ∈ C.members :=
  List.foldlRecOn (portCmds s p) _ (motive := fun t : State => ∃ C, Tab.get? t.batches b = some C ∧ n ∈ C.members) ⟨B, hB, hn⟩
    fun t ⟨_, hC, hm⟩ _ hy => resetCmd_batch (mem_portCmds.mp hy).2 t hC hm (ne_of_mem_portCmds alone other hy)

end PortCommands

theorem onlyWork_resetCmds (s : State) (p : PortId) : OnlyWork p s (resetCmds s (portCmds s p)) :=
  OnlyWork.foldl fun t _ hy => onlyWork_resetCmd (mem_portCmds.mp hy).2 t

theorem resetCmds_regions (s : State) (p : PortId) : (resetCmds s (portCmds s p)).protect.regions = s.protect.regions :=
  List.foldlRecOn (portCmds s p) _ (motive := fun t : State => t.protect.regions = s.protect.regions) rfl
    fun t ht _ hy => (resetCmd_regions (mem_portCmds.mp hy).2 t).trans ht

/-! ## Pieces and region entries of the port (R348, R392) -/

theorem foldl_replayTags_eq (l : List (Nat × Piece)) (s : State) :
    l.foldl (fun s (_, x) => replayTags s x) s = { s with
      engines := (l.foldl (fun s (_, x) => replayTags s x) s).engines, streams := (l.foldl (fun s (_, x) => replayTags s x) s).streams } := by
  refine List.foldlRecOn l _ (motive := fun t : State => t = { s with engines := t.engines, streams := t.streams }) rfl ?_
  intro t ht y _
  rw [ht]
  rfl

/-- Pieces that end change the pieces and alleys, and the tags of engines and streams. -/
theorem abortHostPieces_eq (s : State) (p : PortId) :
    abortHostPieces s p = { s with
      engines := (abortHostPieces s p).engines, streams := (abortHostPieces s p).streams
      pieces := (abortHostPieces s p).pieces, alleys := (abortHostPieces s p).alleys } := by
  unfold abortHostPieces
  dsimp only
  rw [foldl_replayTags_eq]

theorem foldl_releaseBlock_eq {α : Type} (slice block : α → Nat) (l : List α) (s : State) :
    l.foldl (fun s i => releaseBlock s (slice i) (block i)) s
      = { s with cache := (l.foldl (fun s i => releaseBlock s (slice i) (block i)) s).cache } := by
  refine List.foldlRecOn l _ (motive := fun t : State => t = { s with cache := t.cache }) rfl ?_
  intro t ht i _
  rw [ht]
  rfl

/-- A region entry that is freed changes the region table, the free pages and the held blocks. -/
theorem dropRegion_eq (s : State) (n : Nat) (r : Region) :
    dropRegion s n r = { s with protect := (dropRegion s n r).protect, cache := (dropRegion s n r).cache } := by
  unfold dropRegion
  dsimp only
  split
  · rw [foldl_releaseBlock_eq]
    rfl
  · rfl

theorem dropRegion_regions (s : State) (n : Nat) (r : Region) :
    (dropRegion s n r).protect.regions = Tab.erase s.protect.regions n := by
  unfold dropRegion
  dsimp only
  split
  · rw [foldl_releaseBlock_eq]
    rfl
  · rfl

theorem freeRegion_eq (s : State) (n : Nat) (r : Region) :
    freeRegion s n r = { s with protect := (freeRegion s n r).protect, cache := (freeRegion s n r).cache } := by
  unfold freeRegion
  split
  · rfl
  · exact dropRegion_eq ..

theorem freeRegion_region_ne (s : State) {n k : Nat} (ne : k ≠ n) (r : Region) : (freeRegion s n r).region k = s.region k := by
  unfold freeRegion State.region
  split
  · rw [State.modProtect_protect, Tab.getD_set, if_neg ne]
  · rw [dropRegion_regions, Tab.getD, Tab.get?_erase_ne _ ne, Tab.getD]

theorem freePortRegions_eq (s : State) (p : PortId) :
    freePortRegions s p = { s with protect := (freePortRegions s p).protect, cache := (freePortRegions s p).cache } := by
  refine List.foldlRecOn _ _ (motive := fun t : State => t = { s with protect := t.protect, cache := t.cache }) rfl ?_
  intro t ht y _
  dsimp only
  rw [freeRegion_eq, ht]

/-- Region entries of other owners stay as they are. -/
theorem freePortRegions_region {s : State} {p : PortId} {k : Nat}
    (other : ∀ y ∈ s.protect.regions, y.1 = k → y.2.owner ≠ portNum p + 1) : (freePortRegions s p).region k = s.region k := by
  refine List.foldlRecOn _ _ (motive := fun t : State => t.region k = s.region k) rfl ?_
  intro t ht y hy
  obtain ⟨listed, mine⟩ := List.mem_filter.mp hy
  have ne : k ≠ y.1 := fun eq => other y listed eq.symm (by simpa using (Bool.and_eq_true_iff.mp mine).2)
  exact (freeRegion_region_ne t ne y.2).trans ht

/-! ## A reset of a port and its end (R476 to R479) -/

/-- What a reset of port p does before the port's own registers are reset. -/
def resetWork (s : State) (p : PortId) : State := freePortRegions (abortHostPieces (resetCmds s (portCmds s p)) p) p

theorem portReset_eq (s : State) (p : PortId) (queueOnly : Bool) :
    portReset s p queueOnly = (resetWork s p).modPort p fun x => resetPort x queueOnly := rfl

theorem resetWork_cmds (s : State) (p : PortId) : (resetWork s p).cmds = (resetCmds s (portCmds s p)).cmds := by
  rw [resetWork, freePortRegions_eq, abortHostPieces_eq]

theorem resetWork_batches (s : State) (p : PortId) : (resetWork s p).batches = (resetCmds s (portCmds s p)).batches := by
  rw [resetWork, freePortRegions_eq, abortHostPieces_eq]

theorem resetWork_region {s : State} {p : PortId} {k : Nat}
    (other : ∀ y ∈ s.protect.regions, y.1 = k → y.2.owner ≠ portNum p + 1) : (resetWork s p).region k = s.region k := by
  have before : (abortHostPieces (resetCmds s (portCmds s p)) p).protect.regions = s.protect.regions := by
    rw [abortHostPieces_eq]
    exact resetCmds_regions s p
  rw [resetWork, freePortRegions_region (by rwa [before]), State.region, before, State.region]

theorem onlyWork_resetWork (s : State) (p : PortId) : OnlyWork p s (resetWork s p) := by
  refine (onlyWork_resetCmds s p).trans (OnlyWork.trans (t := abortHostPieces (resetCmds s (portCmds s p)) p) ?_ ?_)
  · rw [abortHostPieces_eq]
    cases p <;> rfl
  · rw [resetWork, freePortRegions_eq]
    cases p <;> rfl

/-- The reset port: its registers at their reset values, of the mailboxes those whose request is served and its response discarded. -/
theorem portReset_port (s : State) (p : PortId) (queueOnly : Bool) :
    (portReset s p queueOnly).port p = resetPort { s.port p with mailboxes := ((resetWork s p).port p).mailboxes } queueOnly := by
  rw [portReset_eq, State.port_modPort, ← (onlyWork_resetWork s p).port]

theorem portReset_frame (s : State) (p : PortId) (queueOnly : Bool) :
    portReset s p queueOnly = { s.modPort p fun _ => (portReset s p queueOnly).port p with
      cmds := (portReset s p queueOnly).cmds, batches := (portReset s p queueOnly).batches, runs := (portReset s p queueOnly).runs
      colls := (portReset s p queueOnly).colls, pieces := (portReset s p queueOnly).pieces, alleys := (portReset s p queueOnly).alleys
      protect := (portReset s p queueOnly).protect, cache := (portReset s p queueOnly).cache
      engines := (portReset s p queueOnly).engines, streams := (portReset s p queueOnly).streams } := by
  have frame := (onlyWork_resetWork s p).modPort fun x => resetPort x queueOnly
  rw [← portReset_eq] at frame
  refine frame.trans ?_
  rw [portReset_eq]
  cases p <;> rfl

theorem portReset_other (s : State) (p : PortId) (queueOnly : Bool) :
    (portReset s p queueOnly).port (otherPort p) = s.port (otherPort p) := by
  rw [portReset_frame]
  cases p <;> rfl

theorem portReset_cmd? (s : State) (p : PortId) (queueOnly : Bool) (n : Nat) :
    (portReset s p queueOnly).cmd? n = (resetCmds s (portCmds s p)).cmd? n := by
  rw [portReset_eq, State.cmd?, State.modPort_cmds, resetWork_cmds, State.cmd?]

/-- The registers and queues of a port that any port reset puts at their reset values (R459, R477). -/
def Port.cleared (x : Port) : Prop :=
  x.pairs = [] ∧ x.enable = false ∧ x.enabled = false ∧ x.ready = false ∧ x.inReset = true ∧ x.quiesce = false ∧ x.configError = false ∧
  x.adminSq = 0 ∧ x.adminCq = 0 ∧ x.asqM1 = 0 ∧ x.acqM1 = 0 ∧ x.eventStatus = 0 ∧ x.eventMask = 0 ∧ x.eventVector = 0 ∧ x.countHi = 0 ∧
  x.busyRetry = 0 ∧ x.dbErrors = 0 ∧ x.dbLast = 0 ∧ x.xlt.dtc = [] ∧ x.xlt.reqs = [] ∧ x.xlt.pages = [] ∧ x.xlt.counters = []

theorem resetPort_cleared (x : Port) (queueOnly : Bool) : (resetPort x queueOnly).cleared := by
  cases queueOnly <;> exact ⟨rfl, rfl, rfl, rfl, rfl, rfl, rfl, rfl, rfl, rfl, rfl, rfl, rfl, rfl, rfl, rfl, rfl, rfl, rfl, rfl, rfl, rfl⟩

theorem portReset_cleared (s : State) (p : PortId) (queueOnly : Bool) : ((portReset s p queueOnly).port p).cleared := by
  rw [portReset_port]
  exact resetPort_cleared ..

/-- A mailbox that a reset keeps is the firmware's, its response to be discarded (R477). -/
theorem resetPort_mailboxes {x : Port} {queueOnly : Bool} {y : Nat × Mailbox} (h : y ∈ (resetPort x queueOnly).mailboxes) :
    y.2.firmware = true ∧ y.2.discard = true := by
  have listed : y ∈ x.mailboxes.filterMap fun (m, z) => (resetMailbox z).map fun w => (m, w) := by cases queueOnly <;> exact h
  obtain ⟨⟨m, z⟩, -, kept⟩ := List.mem_filterMap.mp listed
  obtain ⟨w, reset, rfl⟩ := Option.map_eq_some_iff.mp kept
  unfold resetMailbox at reset
  split at reset
  · obtain rfl := Option.some.inj reset
    exact ⟨rfl, rfl⟩
  · cases reset

/-- A queue reset leaves the configuration space and the MSI-X table (R476). -/
theorem resetPort_of_queueOnly (x : Port) :
    (resetPort x true).msix = x.msix ∧ (resetPort x true).msixEnable = x.msixEnable ∧ (resetPort x true).functionMask = x.functionMask ∧
    (resetPort x true).busMaster = x.busMaster ∧ (resetPort x true).d3hot = x.d3hot ∧ (resetPort x true).configReady = x.configReady :=
  ⟨rfl, rfl, rfl, rfl, rfl, rfl⟩

/-- The other resets put them at their reset values. -/
theorem resetPort_of_all (x : Port) :
    (resetPort x false).msix = [] ∧ (resetPort x false).msixEnable = false ∧ (resetPort x false).configReady = false ∧
    (resetPort x false).xlt.atsOn = false ∧ (resetPort x false).xlt.priOn = false :=
  ⟨rfl, rfl, rfl, Bool.and_false _, Bool.and_false _⟩

/-- The five rows that reset a port (R476). -/
theorem exec_portReset {p : PortId} {s : State} {c : Instr} {queueOnly : Bool}
    (row : ((c = .fundamentalReset p ∨ c = .hotReset p ∨ c = .dlDown p ∨ c = .functionLevelReset p) ∧ portPowered s p = true ∧
        queueOnly = false) ∨
      (c = .queueReset p ∧ barUp s p = true ∧ (s.port p).enabled = true ∧ queueOnly = true)) :
    exec c s = .next (portReset s p queueOnly) := by
  obtain ⟨kind, powered, rfl⟩ | ⟨rfl, up, enabled, rfl⟩ := row
  · obtain rfl | rfl | rfl | rfl := kind <;> exact occurs_of_true powered _ _
  · rw [exec_queueReset, occurs_of_true (by simp [up, enabled])]

theorem portResetEndEffect_eq (s : State) (p : PortId) :
    portResetEndEffect s p = (s.modPort p fun x => { x with inReset := false, configReady := true, ready := live s }).modPort (otherPort p)
      fun x => if x.inReset || x.heldOff then x else x.raise evOtherPortReset := by
  unfold portResetEndEffect
  dsimp only
  split
  · next held =>
    refine (State.modPort_of_self _ _ ?_).symm
    exact if_pos held
  · next free =>
    rw [raiseEvent_eq]
    refine State.modPort_congr _ _ ?_
    exact (if_neg free).symm

/-- Changes of both ports change nothing else. -/
theorem modPort_modPort_other_frame (s : State) (p : PortId) (f g : Port → Port) :
    (s.modPort p f).modPort (otherPort p) g = { s with
      port0 := ((s.modPort p f).modPort (otherPort p) g).port0, port1 := ((s.modPort p f).modPort (otherPort p) g).port1 } := by
  cases p <;> rfl

/-- Settles O10: the five rows are portReset, which resets the port's commands one by one, then its pieces, its regions and the port itself. -/
theorem portResetsClearTheirPort : Obligations.PortResetsClearTheirPort := by
  refine ⟨fun p s c queueOnly row => ?_, fun p s inReset island => ?_⟩
  · obtain ⟨pairs, enable, enabled, ready, inReset, quiesce, configError, adminSq, adminCq, asqM1, acqM1, eventStatus, eventMask, eventVector,
      countHi, busyRetry, dbErrors, dbLast, dtc, reqs, pages, counters⟩ := portReset_cleared s p queueOnly
    refine ⟨portReset s p queueOnly, exec_portReset row, pairs, enable, enabled, ready, inReset, quiesce, configError, adminSq, adminCq, asqM1,
      acqM1, eventStatus, eventMask, eventVector, countHi, busyRetry, dbErrors, dbLast, dtc, reqs, pages, counters, ?_, ?_, ?_, ?_,
      portReset_other .., ?_, ?_, portReset_frame ..⟩
    · exact fun y hy => resetPort_mailboxes (portReset_port s p queueOnly ▸ hy)
    · rintro rfl
      rw [portReset_port]
      exact resetPort_of_queueOnly _
    · rintro rfl
      rw [portReset_port]
      exact resetPort_of_all _
    · intro n x alone
      rw [portReset_cmd?]
      refine ⟨resetCmds_cmd_other alone, fun q origin waiting => ?_, fun own admitted op => ?_⟩
      · have off : ¬ x.runsOn := by simp [Cmd.runsOn, origin, waiting]
        exact resetCmds_cmd_of_not_runsOn alone (by rw [origin]; rfl) off
      · exact resetCmds_cmd_of_runsOn alone own ⟨.inl admitted, op⟩
    · intro r other
      rw [portReset_eq, State.region, State.modPort_protect]
      exact resetWork_region other
    · intro b B m x hB hm alone other
      rw [portReset_eq, State.modPort_batches, resetWork_batches]
      exact resetCmds_batch alone other hB hm
  · refine ⟨portResetEndEffect s p, ?_, ?_, ?_, ?_, ?_⟩
    · rw [exec_portResetEnd, occurs_of_true (by simp [inReset, island])]
    all_goals rw [portResetEndEffect_eq]
    · rw [State.port_modPort_ne _ (otherPort_ne p).symm, State.port_modPort]
    · intro running free
      rw [State.port_modPort, State.port_modPort_other, running, free, Bool.or_false, if_neg Bool.false_ne_true, Port.raise_status]
    · intro held
      rw [State.port_modPort, State.port_modPort_other, if_pos (by simpa using held)]
    · exact modPort_modPort_other_frame ..

/-! ## ENABLE and the admin queue registers (R463) -/

theorem adminSizesOk_iff (x : Port) :
    adminSizesOk x = true ↔ 1 ≤ x.asqM1 ∧ x.asqM1 ≤ 4095 ∧ 1 ≤ x.acqM1 ∧ x.acqM1 ≤ 4095 := by
  simp [adminSizesOk, and_assoc]

/-- ENABLE of a port whose admin queue sizes are in range makes queue pair 0. -/
theorem enableEffect_of_sizesOk {s : State} {p : PortId} (off : (s.port p).enabled = false) (sizes : adminSizesOk (s.port p) = true) :
    enableEffect s p = s.modPort p fun x => { x with
      enable := true, enabled := true, configError := false, pairs := Tab.set x.pairs 0 (adminPair x) } :=
  s.modPort_congr p ((if_neg (ne_true_of_eq_false off)).trans (if_pos sizes))

theorem enableEffect_of_sizesBad {s : State} {p : PortId} (off : (s.port p).enabled = false) (sizes : ¬ adminSizesOk (s.port p) = true) :
    enableEffect s p = s.modPort p fun x => { x with enable := true, configError := true } :=
  s.modPort_congr p ((if_neg (ne_true_of_eq_false off)).trans (if_neg sizes))

/-- While ENABLED is 1 the admin queue registers ignore writes. -/
theorem bar0Write_of_enabled {s : State} {p : PortId} (on : (s.port p).enabled = true) {off : Nat}
    (h : off = 0x010 ∨ off = 0x014 ∨ off = 0x018 ∨ off = 0x01C ∨ off = 0x020) (w arising : Nat) : bar0Write s p off w arising = s := by
  refine s.modPort_of_self p ?_
  obtain rfl | rfl | rfl | rfl | rfl := h <;> simp [on]

/-- An aligned write of four bytes of BAR0 is one write of a register (R458). -/
theorem exec_registerWrite_bar0 {s : State} {p : PortId} (up : barUp s p = true) {off : Nat} (aligned : off % 4 = 0)
    (b0 b1 b2 b3 : Byte) (a : BitVec 64) (same : ∀ w arising, bar0Write s p off w arising = s) :
    exec (.registerWrite ⟨.bar0 p off [b0, b1, b2, b3], a⟩) s = .next s := by
  have effect : registerWriteEffect s a.toNat (.bar0 p off [b0, b1, b2, b3]) = s := by
    simp [registerWriteEffect, up, bar0Effect, aligned, same]
  rw [exec_registerWrite, effect, occurs, ite_self]

/-- Settles O7: ENABLE makes queue pair 0 or reports the sizes, and the admin queue registers hold while ENABLED is 1. -/
theorem enableMakesPairZero : Obligations.EnableMakesPairZero := by
  intro p s up
  refine ⟨fun ready off => ⟨fun sizes => ?_, fun sizes => ?_⟩, fun notReady => ?_,
    fun on => ⟨fun off reg b0 b1 b2 b3 a => ?_, ?_⟩, fun v => ?_⟩
  · rw [← adminSizesOk_iff] at sizes
    have pairs (q : Nat) : (enableEffect s p).pair p q = if q = 0 then adminPair (s.port p) else s.pair p q := by
      rw [enableEffect_of_sizesOk off sizes, State.pair, State.port_modPort, Tab.getD_set, State.pair]
    refine ⟨enableEffect s p, ?_, ?_, ?_, ?_, ?_, ?_, ?_, ?_, ?_, ?_, ?_⟩
    · rw [exec_enable, occurs_of_true (by simp [up, ready])]
    · rw [enableEffect_of_sizesOk off sizes, State.port_modPort]
    · rw [enableEffect_of_sizesOk off sizes, State.port_modPort]
    iterate 6
      rw [pairs]
      rfl
    · intro q hq
      rw [pairs, if_neg hq]
    · rw [enableEffect_of_sizesOk off sizes, State.port_modPort]
      exact s.modPort_congr p rfl
  · rw [← adminSizesOk_iff] at sizes
    rw [exec_enable, occurs_of_true (by simp [up, ready]), enableEffect_of_sizesBad off sizes]
  · rw [exec_enable, occurs_of_false (by simp [notReady])]
  · have aligned : off % 4 = 0 := by omega
    exact exec_registerWrite_bar0 up aligned b0 b1 b2 b3 a (bar0Write_of_enabled on reg)
  · obtain ⟨pairs, -, enabled, -, inReset, -⟩ := portReset_cleared s p true
    exact ⟨_, exec_portReset (.inr ⟨rfl, up, on, rfl⟩), enabled, pairs, inReset, portReset_other ..⟩
  · rw [exec_quiesce, occurs_of_true up]

end Sys2Proof.Machine
end

section
/-! SUPPORT. Facts of every command: it completes, it leaves the queue of waiting commands, and what it leaves of the trust state; and the statements
about every step. -/

namespace Sys2Proof.Machine

open Sys2Proof

/-! ## Every command leaves the queue, and most the trust state -/

theorem exec_trust_of_not_mayMeasure {c : Instr} (quiet : mayMeasure c = false) {s u : State} (h : exec c s = .next u) :
    u.pending = s.pending ∧ u.trust = s.trust := by
  cases c with
  | search p q e inp => exact execSearch_fixed p q e inp s h
  | insert p q e inp => exact execInsert_fixed p q e inp s h
  | upsert p q e inp => exact execUpsert_fixed p q e inp s h
  | delete p q e inp => exact execDelete_fixed p q e inp s h
  | fetch p q e inp => exact execFetch_fixed p q e inp s h
  | flush p q e inp => exact execFlush_fixed p q e inp s h
  | abort p q e inp => exact execAbort_fixed p q e inp s h
  | tierMove p q e inp => exact execTierMove_fixed p q e inp s h
  | park p q e inp => exact execPark_fixed p q e inp s h
  | wake p q e inp => exact execWake_fixed p q e inp s h
  | identify src => exact execIdentify_fixed src s h
  | getLogPage src => exact execGetLogPage_fixed src s h
  | getFeatures src => exact execGetFeatures_fixed src s h
  | setFeatures src => exact execSetFeatures_fixed src s h
  | queueCreate src => exact execQueueCreate_fixed src s h
  | queueDelete src => exact execQueueDelete_fixed src s h
  | queueResume src => exact execQueueResume_fixed src s h
  | fwDownload src => exact execFwDownload_fixed src s h
  | fwCommit src => exact execFwCommit_fixed src s h
  | fwActivate src => exact execFwActivate_fixed src s h
  | attest src => exact execAttest_fixed src s h
  | collectionCreate src replies => exact execCollectionCreate_fixed src replies s h
  | collectionSet src => exact execCollectionSet_fixed src s h
  | collectionDelete src => exact execCollectionDelete_fixed src s h
  | collectionRetrain src => exact execCollectionRetrain_fixed src s h
  | collectionRebuild src => exact execCollectionRebuild_fixed src s h
  | listSplit src => exact execListSplit_fixed src s h
  | scheduleUnload src => exact execScheduleUnload_fixed src s h
  | scheduleBind src => exact execScheduleBind_fixed src s h
  | regionAlloc src => exact execRegionAlloc_fixed src s h
  | regionFree src => exact execRegionFree_fixed src s h
  | hbmMigrate src => exact execHbmMigrate_fixed src s h
  | hbmDiag src => exact execHbmDiag_fixed src s h
  | diagRead src => exact execDiagRead_fixed src s h
  | sqTail p q v narrow => exact execSqTail_fixed p q v narrow s h
  | cqHead p q v narrow => exact execCqHead_fixed p q v narrow s h
  | enable p => exact execEnable_fixed p s h
  | queueReset p => exact execQueueReset_fixed p s h
  | quiesce p v => exact execQuiesce_fixed p v s h
  | eventStatusClear p mask arising => exact execEventStatusClear_fixed p mask arising s h
  | eventMaskWrite p mask => exact execEventMaskWrite_fixed p mask s h
  | islandCountLoRead p => exact execIslandCountLoRead_fixed p s h
  | mailboxSubmit p m ctrl => exact execMailboxSubmit_fixed p m ctrl s h
  | msixUnmask p what => exact execMsixUnmask_fixed p what s h
  | registerWrite w => exact execRegisterWrite_fixed w s h
  | streamArm q a => exact execStreamArm_fixed q a s h
  | streamStop q w => exact execStreamStop_fixed q w s h
  | streamResume q w => exact execStreamResume_fixed q w s h
  | ringTailWrite q w tail => exact execRingTailWrite_fixed q w tail s h
  | tgRunStart ch w => exact execTgRunStart_fixed ch w s h
  | tgStop w => exact execTgStop_fixed w s h
  | tgRunDone ch raw => exact execTgRunDone_fixed ch raw s h
  | migrationStart ch ctrl => exact execMigrationStart_fixed ch ctrl s h
  | migrationAbort ch why => exact execMigrationAbort_fixed ch why s h
  | peakClear c => exact execPeakClear_fixed c s h
  | sbSetOffset w => exact execSbSetOffset_fixed w s h
  | sbBlockWrite bytes => exact execSbBlockWrite_fixed bytes s h
  | sbBlockRead n => exact execSbBlockRead_fixed n s h
  | sbSubmit len => exact execSbSubmit_fixed len s h
  | sbReadStatus => exact execSbReadStatus_fixed s h
  | powerLimitSet w => exact execPowerLimitSet_fixed w s h
  | powerRead => exact execPowerRead_fixed s h
  | railFaultRead => exact execRailFaultRead_fixed s h
  | sbBusTimeout => exact execSbBusTimeout_fixed s h
  | fundamentalReset p => exact execFundamentalReset_fixed p s h
  | hotReset p => exact execHotReset_fixed p s h
  | dlDown p => exact execDlDown_fixed p s h
  | functionLevelReset p => exact execFunctionLevelReset_fixed p s h
  | portResetEnd p => exact execPortResetEnd_fixed p s h
  | configRequest p r => exact execConfigRequest_fixed p r s h
  | d3hotEntry p => exact execD3hotEntry_fixed p s h
  | d0Return p => exact execD0Return_fixed p s h
  | busMasterEnable p on => exact execBusMasterEnable_fixed p on s h
  | poisonedWrite p => exact execPoisonedWrite_fixed p s h
  | unsupportedRequest p => exact execUnsupportedRequest_fixed p s h
  | completionTimeout p piece => exact execCompletionTimeout_fixed p piece s h
  | hostCompletion p piece c => exact execHostCompletion_fixed p piece c s h
  | translationCompletion p block ts => exact execTranslationCompletion_fixed p block ts s h
  | invalidateRequest p itag base size => exact execInvalidateRequest_fixed p itag base size s h
  | invalidateCompletion p itag => exact execInvalidateCompletion_fixed p itag s h
  | prgResponse p index code => exact execPrgResponse_fixed p index code s h
  | priTimeout p index => exact execPriTimeout_fixed p index s h
  | hotPeriod p => exact execHotPeriod_fixed p s h
  | completionPost cmd p place => exact execCompletionPost_fixed cmd p place s h
  | aggTime p q => exact execAggTime_fixed p q s h
  | sqFetchFailure p q fault => exact execSqFetchFailure_fixed p q fault s h
  | commitWindowExpiry coll group => exact execCommitWindowExpiry_fixed coll group s h
  | commit coll group => exact execCommit_fixed coll group s h
  | stagedAppend coll list => exact execStagedAppend_fixed coll list s h
  | ceilingRaise coll => exact execCeilingRaise_fixed coll s h
  | idCeilingRaise coll => exact execIdCeilingRaise_fixed coll s h
  | imageWrite coll => exact execImageWrite_fixed coll s h
  | compaction coll list => exact execCompaction_fixed coll list s h
  | cutover coll => exact execCutover_fixed coll s h
  | coarsePass die coll => exact execCoarsePass_fixed die coll s h
  | batchLaunch batch cores grants => exact execBatchLaunch_fixed batch cores grants s h
  | batchHoldExpiry batch cores grants => exact execBatchHoldExpiry_fixed batch cores grants s h
  | tileScored x => exact execTileScored_fixed x s h
  | squareRun cmd sq x => exact execSquareRun_fixed cmd sq x s h
  | squareEnd cmd sq input => exact execSquareEnd_fixed cmd sq input s h
  | tileBoundExpiry tile => exact execTileBoundExpiry_fixed tile s h
  | runLaunch run quarters grants => exact execRunLaunch_fixed run quarters grants s h
  | runHoldExpiry run quarters grants => exact execRunHoldExpiry_fixed run quarters grants s h
  | tileIssue run => exact execTileIssue_fixed run s h
  | tileLanded run x => exact execTileLanded_fixed run x s h
  | tokenise run => exact execTokenise_fixed run s h
  | layer x => exact execLayer_fixed x s h
  | peerReduce run => exact execPeerReduce_fixed run s h
  | output run => exact execOutput_fixed run s h
  | deadlineMiss run ref => exact execDeadlineMiss_fixed run ref s h
  | stepCycleOverrun run core => exact execStepCycleOverrun_fixed run core s h
  | descriptorFetch q k bytes => exact execDescriptorFetch_fixed q k bytes s h
  | copy q k => exact execCopy_fixed q k s h
  | fill q k => exact execFill_fixed q k s h
  | marker q k => exact execMarker_fixed q k s h
  | pieceIssue q k => exact execPieceIssue_fixed q k s h
  | pieceComplete piece => exact execPieceComplete_fixed piece s h
  | alleyWrite core slot hdr => exact execAlleyWrite_fixed core slot hdr s h
  | alleyRead core slot hdr => exact execAlleyRead_fixed core slot hdr s h
  | alleyComplete core slot data ok => exact execAlleyComplete_fixed core slot data ok s h
  | fence core => exact execFence_fixed core s h
  | add a => exact execAdd_fixed a s h
  | fadd a => exact execFadd_fixed a s h
  | minUnsigned a => exact execMinUnsigned_fixed a s h
  | maxUnsigned a => exact execMaxUnsigned_fixed a s h
  | minSigned a => exact execMinSigned_fixed a s h
  | maxSigned a => exact execMaxSigned_fixed a s h
  | or a => exact execOr_fixed a s h
  | cas a compare => exact execCas_fixed a compare s h
  | cacheRead src addr len hint o => exact execCacheRead_fixed src addr len hint o s h
  | cacheWrite src addr bytes hint => exact execCacheWrite_fixed src addr bytes hint s h
  | granuleProbe quarter addr keep => exact execGranuleProbe_fixed quarter addr keep s h
  | wcEntryDrain slice line => exact execWcEntryDrain_fixed slice line s h
  | blockGrant slice block owner => exact execBlockGrant_fixed slice block owner s h
  | blockRelease slice block => exact execBlockRelease_fixed slice block s h
  | hbmRead addr level x => exact execHbmRead_fixed addr level x s h
  | hbmWrite addr level data mask => exact execHbmWrite_fixed addr level data mask s h
  | patrolScrub ch granule wrong => exact execPatrolScrub_fixed ch granule wrong s h
  | rowRemap ch bank row => exact execRowRemap_fixed ch bank row s h
  | pageRetire page lost => exact execPageRetire_fixed page lost s h
  | migrationCopyDone ch x => exact execMigrationCopyDone_fixed ch x s h
  | drainMarker ch unit => exact execDrainMarker_fixed ch unit s h
  | migrationRepair ch x => exact execMigrationRepair_fixed ch x s h
  | channelLost ch => exact execChannelLost_fixed ch s h
  | repairRecordWrite => exact execRepairRecordWrite_fixed s h
  | evictionSwitch coll obj => exact execEvictionSwitch_fixed coll obj s h
  | moveSwitch cmd => exact execMoveSwitch_fixed cmd s h
  | wakeSwitch coll => exact execWakeSwitch_fixed coll s h
  | deferLimitExpiry cmd => exact execDeferLimitExpiry_fixed cmd s h
  | moveDeadline cmd => exact execMoveDeadline_fixed cmd s h
  | t4BackingWrite tile => exact execT4BackingWrite_fixed tile s h
  | revokeGraceExpiry lease => exact execRevokeGraceExpiry_fixed lease s h
  | flashRead page level tries corrected softOk => exact execFlashRead_fixed page level tries corrected softOk s h
  | flashProgram tile loc pass => exact execFlashProgram_fixed tile loc pass s h
  | flashErase block pass => exact execFlashErase_fixed block pass s h
  | pageRecovery page ok => exact execPageRecovery_fixed page ok s h
  | flashRefresh block => exact execFlashRefresh_fixed block s h
  | flashPatrol block retries corrected => exact execFlashPatrol_fixed block retries corrected s h
  | garbageCollection lun => exact execGarbageCollection_fixed lun s h
  | wearLevelling die => exact execWearLevelling_fixed die s h
  | flashChannelRetrain ch rate => exact execFlashChannelRetrain_fixed ch rate s h
  | linkTraining port o => exact execLinkTraining_fixed port o s h
  | laneFailure port lane => exact execLaneFailure_fixed port lane s h
  | retrainTimer port => exact execRetrainTimer_fixed port s h
  | linkTimeout port => exact execLinkTimeout_fixed port s h
  | flitReceive port f => exact execFlitReceive_fixed port f s h
  | sendKeepalive port => exact execSendKeepalive_fixed port s h
  | peerTimeout txn => exact execPeerTimeout_fixed txn s h
  | routeSwitch device port => exact execRouteSwitch_fixed device port s h
  | packetForward port k => exact execPacketForward_fixed port k s h
  | readReq k => exact execReadReq_fixed k s h
  | writeReq k => exact execWriteReq_fixed k s h
  | atomicReq k => exact execAtomicReq_fixed k s h
  | readRsp txn bytes => exact execReadRsp_fixed txn bytes s h
  | writeAck txn => exact execWriteAck_fixed txn s h
  | atomicRsp txn old => exact execAtomicRsp_fixed txn old s h
  | windowFault txn => exact execWindowFault_fixed txn s h
  | shardReq r => exact execShardReq_fixed r s h
  | shardRun cmd device es => exact execShardRun_fixed cmd device es s h
  | shardEnd cmd device st lists matches_ => exact execShardEnd_fixed cmd device st lists matches_ s h
  | shardCancel coordinator txn => exact execShardCancel_fixed coordinator txn s h
  | forwardCmd src txn e inp => exact execForwardCmd_fixed src txn e inp s h
  | forwardCpl cmd device cpl result => exact execForwardCpl_fixed cmd device cpl result s h
  | epochBeacon handle epoch => exact execEpochBeacon_fixed handle epoch s h
  | runCtl m => exact execRunCtl_fixed m s h
  | lease m => exact execLease_fixed m s h
  | shardRerank coordinator txn cross ids => exact execShardRerank_fixed coordinator txn cross ids s h
  | shardRerankRsp cmd device st ds toks => exact execShardRerankRsp_fixed cmd device st ds toks s h
  | ack port n => exact execAck_fixed port n s h
  | nak port n => exact execNak_fixed port n s h
  | credit port vc flits => exact execCredit_fixed port vc flits s h
  | keepalive port => exact execKeepalive_fixed port s h
  | topology links => exact execTopology_fixed links s h
  | pllLoss island => exact execPllLoss_fixed island s h
  | crossingParityError c => exact execCrossingParityError_fixed c s h
  | dp1Entry => exact execDp1Entry_fixed s h
  | dp1Exit => exact execDp1Exit_fixed s h
  | dp2Entry => exact execDp2Entry_fixed s h
  | dp3Entry => exact execDp3Entry_fixed s h
  | dpEntryComplete => exact execDpEntryComplete_fixed s h
  | dpExit => exact execDpExit_fixed s h
  | thermalSample readings => exact execThermalSample_fixed readings s h
  | throttleStep sensor => exact execThrottleStep_fixed sensor s h
  | powerLimitStep => exact execPowerLimitStep_fixed s h
  | telemetryPoll rails estimates => exact execTelemetryPoll_fixed rails estimates s h
  | coreSpare core why => exact execCoreSpare_fixed core why s h
  | quarterRepair quarter badCores pass => exact execQuarterRepair_fixed quarter badCores pass s h
  | collectionRepair coll => exact execCollectionRepair_fixed coll s h
  | watchdogExpiry => exact execWatchdogExpiry_fixed s h
  | pmbAlert => exact execPmbAlert_fixed s h
  | testPortAccess => exact execTestPortAccess_fixed s h
  | securityBlockFault => exact execSecurityBlockFault_fixed s h
  | scheduleLoad | sbDeviceReset | startUp | powerDown | railFault | deviceReset | commandAdmit | adminFan | pllLock | devrstNRelease
  | provisioning => cases quiet

theorem exec_pending {c : Instr} {s u : State} (h : exec c s = .next u) : u.pending = s.pending := by
  cases hc : mayMeasure c with
  | false => exact (exec_trust_of_not_mayMeasure hc h).1
  | true =>
    cases c with
    | scheduleLoad src => exact execScheduleLoad_pending src s h
    | sbDeviceReset w => exact execSbDeviceReset_pending w s h
    | startUp b => exact execStartUp_pending b s h
    | powerDown => exact execPowerDown_pending s h
    | railFault rail above => exact execRailFault_pending rail above s h
    | deviceReset cause => exact execDeviceReset_pending cause s h
    | commandAdmit cmd => exact execCommandAdmit_pending cmd s h
    | adminFan src e inp idx => exact execAdminFan_pending src e inp idx s h
    | pllLock island => exact execPllLock_pending island s h
    | devrstNRelease => exact execDevrstNRelease_pending s h
    | provisioning m => exact execProvisioning_pending m s h
    | _ => cases hc

/-! ## Every command completes -/

theorem occurs_completes (g : Bool) (t s : State) : ∃ u, occurs g t s = .next u := ⟨_, rfl⟩

theorem adminRowBy_completes (op : Nat) (start : AdminEffect) (src : AdminSrc) (s : State) : ∃ u, adminRowBy op start src s = .next u := by
  cases src <;> exact occurs_completes ..

theorem atomicRow_completes (op : AtomicOp) (g : AtomicArgs) (cmp : BitVec 64) (form : Bool) (s : State) :
    ∃ u, atomicRow op g cmp form s = .next u := by
  dsimp only [atomicRow]
  split <;> exact occurs_completes ..

theorem alleyRow_completes (op core slot : Nat) (h : BitVec 256) (s : State) : ∃ u, alleyRow op core slot h s = .next u := by
  dsimp only [alleyRow]
  split <;> exact occurs_completes ..

theorem responseRow_completes (txn : Nat) (eff : State → PeerReq → State) (s : State) : ∃ u, responseRow txn eff s = .next u := by
  dsimp only [responseRow]
  split <;> exact occurs_completes ..

/-- Rows are one event; those of the first lines by their shared form, the next by what they look up. -/
theorem exec_completes (c : Instr) (s : State) : ∃ u, exec c s = .next u := by
  cases c
  case identify | getLogPage | getFeatures | setFeatures | queueCreate | queueDelete | queueResume | fwDownload | fwCommit |
    fwActivate | attest | collectionSet | collectionDelete | collectionRetrain | collectionRebuild |
    listSplit | scheduleLoad | scheduleUnload | scheduleBind | regionAlloc | regionFree | hbmMigrate | hbmDiag | diagRead =>
    all_goals exact adminRowBy_completes ..
  case add | fadd | minUnsigned | maxUnsigned | minSigned | maxSigned | or | cas =>
    all_goals exact atomicRow_completes ..
  case collectionCreate src replies =>
    dsimp only [exec, execCollectionCreate]
    split
    · exact adminRowBy_completes ..
    · exact occurs_completes ..
  case alleyWrite | alleyRead =>
    all_goals exact alleyRow_completes ..
  case readRsp | writeAck | atomicRsp | windowFault =>
    all_goals dsimp only [exec, execReadRsp, execWriteAck, execAtomicRsp, execWindowFault]
    all_goals exact responseRow_completes ..
  case deviceReset | commandAdmit | completionPost | stagedAppend | tileScored | squareRun | squareEnd | tileBoundExpiry | runLaunch |
    runHoldExpiry | tileIssue | tileLanded | tokenise | layer | peerReduce | output | deadlineMiss | stepCycleOverrun |
    pieceComplete | alleyComplete | cacheRead | cacheWrite | blockRelease | evictionSwitch | moveSwitch | wakeSwitch |
    deferLimitExpiry | moveDeadline | t4BackingWrite | revokeGraceExpiry | garbageCollection | wearLevelling | routeSwitch |
    shardCancel | forwardCpl | epochBeacon | shardRerank | shardRerankRsp | dpEntryComplete | collectionRepair =>
    all_goals dsimp only [exec, execDeviceReset, execCommandAdmit, execCompletionPost, execStagedAppend, execTileScored, execSquareRun,
      execSquareEnd, execTileBoundExpiry, execRunLaunch, execRunHoldExpiry, execTileIssue, execTileLanded, execTokenise, execLayer,
      execPeerReduce, execOutput, execDeadlineMiss, execStepCycleOverrun, execPieceComplete, execAlleyComplete, execCacheRead,
      execCacheWrite, execBlockRelease, execEvictionSwitch, execMoveSwitch, execWakeSwitch, execDeferLimitExpiry, execMoveDeadline,
      execT4BackingWrite, execRevokeGraceExpiry, execGarbageCollection, execWearLevelling, execRouteSwitch, execShardCancel,
      execForwardCpl, execEpochBeacon, execShardRerank, execShardRerankRsp, execDpEntryComplete, execCollectionRepair]
    all_goals repeat' split
    all_goals exact ⟨_, rfl⟩
  all_goals exact occurs_completes ..

/-! ## What OTP keeps (R589, R596) -/

/-- From trust state a to b no rollback counter loses an entry, and the lifecycle state and the secret stay. -/
structure OtpGrows (a b : Trust) : Prop where
  counter0 : a.counter0 <+: b.counter0
  counter1 : a.counter1 <+: b.counter1
  lifecycle : b.lifecycle = a.lifecycle
  uds : b.uds = a.uds

theorem OtpGrows.refl (a : Trust) : OtpGrows a a := ⟨List.prefix_rfl, List.prefix_rfl, rfl, rfl⟩

theorem OtpGrows.of_eq {a b : Trust} (h : b = a) : OtpGrows a b := h ▸ refl a

theorem OtpGrows.trans {a b c : Trust} (h : OtpGrows a b) (k : OtpGrows b c) : OtpGrows a c :=
  ⟨h.counter0.trans k.counter0, h.counter1.trans k.counter1, k.lifecycle.trans h.lifecycle, k.uds.trans h.uds⟩

/-- What a measurement changes is no part of OTP. -/
theorem extendMeas_grows (s : State) (reg event detail : Nat) (d : BitVec 384) : OtpGrows s.trust (extendMeas s reg event detail d).trust :=
  ⟨List.prefix_rfl, List.prefix_rfl, rfl, rfl⟩

theorem ite_grows {a : Trust} {c : Prop} [Decidable c] {t u : State} (ht : OtpGrows a t.trust) (hu : OtpGrows a u.trust) :
    OtpGrows a (if c then t else u).trust := by
  split
  · exact ht
  · exact hu

theorem appendCounter_grows (s : State) (slot v : Nat) : OtpGrows s.trust (appendCounter s slot v).trust := by
  unfold appendCounter
  refine ite_grows (.of_eq (deviceLog_fixed ..).2) ?_
  by_cases h : slot = 0
  · simp only [h, if_true]
    exact ⟨List.prefix_append .., List.prefix_rfl, rfl, rfl⟩
  · simp only [h, if_false]
    exact ⟨List.prefix_rfl, List.prefix_append .., rfl, rfl⟩

theorem raiseCounters_grows (s : State) : OtpGrows s.trust (raiseCounters s).trust := by
  have first : OtpGrows s.trust (if counterValue s.security.counter0 < field s.security.running 0x0C 2 then
      appendCounter s 0 (field s.security.running 0x0C 2) else s).trust := ite_grows (appendCounter_grows ..) (.refl _)
  exact ite_grows (first.trans (appendCounter_grows ..)) first

theorem reconcileCounters_grows (s : State) : OtpGrows s.trust (reconcileCounters s).trust :=
  ite_grows (appendCounter_grows ..) (ite_grows (appendCounter_grows ..) (.refl _))

/-! ### As time passes -/

theorem activationEnds_grows (s : State) (n slot : Nat) (b : List Byte) : OtpGrows s.trust (activationEnds s n slot b).trust := by
  unfold activationEnds
  dsimp only
  rw [(resumeWork_fixed _).2, (succeed_fixed ..).2]
  refine .trans ?_ (raiseCounters_grows _)
  simpa [ite_trust] using extendMeas_grows ..

theorem finishActivation_grows (s : State) (n : Nat) : OtpGrows s.trust (finishActivation s n).trust := by
  unfold finishActivation
  dsimp only
  split
  · exact .of_eq (by simp)
  · split
    · exact .of_eq (activationFails_fixed ..).2
    · split
      · exact .of_eq (activationFails_fixed ..).2
      · exact activationEnds_grows ..

theorem timePasses_grows (s : State) : OtpGrows s.trust (timePasses s).trust := by
  unfold timePasses
  split
  · exact ite_grows (finishActivation_grows ..) (.refl _)
  · exact .refl _

theorem tick_pending (s : State) : (tick s).pending = s.pending := by
  unfold tick
  dsimp only
  split <;> simp

theorem tick_grows (s : State) : OtpGrows s.trust (tick s).trust := by
  have later : OtpGrows s.trust (settleIdle (settleAllDeleted (timePasses { s with time := s.time + 1 }))).trust := by
    simpa using timePasses_grows { s with time := s.time + 1 }
  unfold tick
  dsimp only
  split
  · simpa using later
  · exact later

/-! ### Start-up and resets -/

theorem bootStart_grows (s : State) : OtpGrows s.trust (bootStart s).trust := by
  unfold bootStart
  dsimp only
  refine .trans ?_ (extendMeas_grows ..)
  refine .trans ?_ (reconcileCounters_grows _)
  exact ⟨List.prefix_rfl, List.prefix_rfl, rfl, rfl⟩

theorem measureBoot_grows (s : State) (b : BootInputs) (img : List Byte) : OtpGrows s.trust (measureBoot s b img).trust :=
  (extendMeas_grows ..).trans (extendMeas_grows ..)

theorem startFirmware_grows (s : State) (b : BootInputs) (slot : Nat) (img : List Byte) : OtpGrows s.trust (startFirmware s b slot img).trust := by
  unfold startFirmware
  dsimp only
  have measured := measureBoot_grows s b img
  refine ite_grows (.trans ?_ (raiseCounters_grows _)) ?_
  all_goals simpa [ite_trust, foldl_trust] using measured

theorem runStart_grows (s : State) (b : BootInputs) : OtpGrows s.trust (runStart s b).trust := by
  unfold runStart
  dsimp only
  split
  · exact (bootStart_grows s).trans (startFirmware_grows ..)
  · exact (bootStart_grows s).trans (.of_eq (startRecovery_fixed ..).2)

theorem goOn_grows (s : State) (b : BootInputs) : OtpGrows s.trust (goOn s b).trust :=
  ite_grows (.refl _) (ite_grows (.refl _) (ite_grows (.refl _) (runStart_grows s b)))

/-- A reset keeps OTP (R620). -/
theorem afterReset_grows (s : State) (powerOn : Bool) : OtpGrows s.trust (afterReset s powerOn).trust :=
  ⟨List.prefix_rfl, List.prefix_rfl, rfl, rfl⟩

theorem releaseEffect_grows (s : State) : OtpGrows s.trust (releaseEffect s).trust := by
  unfold releaseEffect
  dsimp only
  split
  · exact goOn_grows (s.modPower _) _
  · exact .refl _

theorem lockEffect_grows (s : State) (i : Nat) : OtpGrows s.trust (lockEffect s i).trust := by
  unfold lockEffect
  split
  · exact goOn_grows (s.modPower _) _
  · exact .of_eq (by simp)

theorem railEffect_grows (s : State) (rail : Nat) (above : Bool) : OtpGrows s.trust (railEffect s rail above).trust :=
  ite_grows (afterReset_grows ..) (afterReset_grows ..)

theorem deviceReset_grows (s : State) : OtpGrows s.trust (deviceReset s).trust := by
  refine .trans ?_ (afterReset_grows _ _)
  exact .of_eq (by simp)

/-! ### Commands that load a schedule -/

section
variable {P : Trust → Prop} {start : State → Nat → State} (ha : ∀ s n, P s.trust → P (start s n).trust)
include ha

/-- A property of the trust state that the effect of an admin command keeps, its start keeps. -/
theorem startAdmin_keeps {s : State} (h : P s.trust) (n : Nat) : P (startAdmin start s n).trust := by
  unfold startAdmin
  split
  · exact h
  · split
    · exact ha _ _ (by simpa using h)
    · exact h

theorem readInput_keeps {s : State} (h : P s.trust) (p : PortId) (n : Nat) : P (readInput s p n start).trust := by
  unfold readInput
  dsimp only
  split
  · exact ha _ _ (by simpa using h)
  · simpa using h

theorem fetchChecked_keeps {s : State} (h : P s.trust) (p : PortId) (q : Nat) (e : BitVec 1024) (inp : List Byte) :
    P (fetchChecked s p q e inp start).trust := by
  unfold fetchChecked
  dsimp only
  split
  · simpa using h
  · have taken : P (takeEntry s p q e ((entryInput s p e inp).getD []) (fetchWord (eOpcode e))).trust := by simpa using h
    unfold entryInput at taken
    generalize takeEntry s p q e _ _ = t at taken ⊢
    have drawn : P (if eClass e = 0 then drawToken t else (t, true)).1.trust := by split <;> simpa using taken
    generalize (if eClass e = 0 then drawToken t else (t, true)) = z at drawn ⊢
    split
    · simpa using drawn
    · split
      · exact drawn
      · split
        · simpa using drawn
        · simpa using drawn
        · exact readInput_keeps ha drawn ..

theorem takeRequest_keeps {s : State} (h : P s.trust) (p : PortId) (o : Origin) (len : Nat) (ok : Bool) (e : BitVec 1024)
    (inp : Option (List Byte)) : P (takeRequest s p o len ok e inp start).trust := by
  unfold takeRequest
  dsimp only
  split
  · simpa using h
  · split
    · simpa using h
    · simpa using h
    · exact readInput_keeps ha (by simpa using h) ..

theorem adminRow_keeps {op : Nat} {src : AdminSrc} {s u : State} (h : P s.trust) (row : adminRow op start src s = .next u) : P u.trust := by
  unfold adminRow adminRowBy at row
  have started := fun s n (h : P (State.trust s)) => startAdmin_keeps ha h n
  split at row
  · obtain rfl | rfl := occurs_next row
    · unfold turnTo
      dsimp only
      split
      · exact fetchChecked_keeps started (by simpa using h) ..
      · simpa using h
    · exact h
  · dsimp only at row
    obtain rfl | rfl := occurs_next row
    · unfold mailboxFetch
      dsimp only
      split
      · simpa using h
      · exact takeRequest_keeps started (by simpa using h) ..
    · exact h
  · dsimp only at row
    obtain rfl | rfl := occurs_next row
    · unfold sidebandFetch
      dsimp only
      split
      · simpa using h
      · exact takeRequest_keeps started (by simpa using h) ..
    · exact h
end

theorem scheduleLoadEffect_grows (s : State) (n : Nat) : OtpGrows s.trust (scheduleLoadEffect s n).trust := by
  unfold scheduleLoadEffect withCmd
  split
  · dsimp only
    unfold loadParsed failOr
    split
    · exact .of_eq (failCheck_fixed ..).2
    · split
      · exact .of_eq (refuse_fixed ..).2
      · split
        · exact .of_eq (refuse_fixed ..).2
        · next placed =>
          unfold finishLoad
          split
          · exact .of_eq (decide__fixed ..).2
          · dsimp only
            rw [(succeed_fixed ..).2, (sendWeights_fixed ..).2]
            refine .trans ?_ (extendMeas_grows ..)
            exact .of_eq (placeWeights_fixed placed).2
  · exact .refl _

theorem adminEffect_grows (op : Nat) (s : State) (n : Nat) : OtpGrows s.trust (adminEffect op s n).trust := by
  unfold adminEffect
  split
  case h_18 => exact scheduleLoadEffect_grows s n
  all_goals exact .of_eq (by simp)

theorem startAdminEffect_grows (op : Nat) (s : State) (n : Nat) : OtpGrows s.trust (startAdmin (adminEffect op) s n).trust :=
  startAdmin_keeps (P := OtpGrows s.trust) (fun t m h => h.trans (adminEffect_grows op t m)) (.refl _) n

theorem admitEffect_grows (s : State) (n : Nat) (x : Cmd) : OtpGrows s.trust (admitEffect s n x).trust := by
  unfold admitEffect
  split
  · exact .of_eq (by simp)
  · exact startAdminEffect_grows ..

theorem createColl_getD_trust (s : State) (i gen : Nat) (a : Attrs) (ms : List Nat) (l : List Byte) :
    ((createColl s i gen a ms l).getD s).trust = s.trust := by
  cases h : createColl s i gen a ms l with
  | none => rfl
  | some u => exact (createColl_fixed h).2

theorem applySet_getD_trust (s : State) (i : Nat) (a : Option Attrs) : ((a.bind (applySet s i)).getD s).trust = s.trust := by
  cases h : a.bind (applySet s i) with
  | none => rfl
  | some u =>
    obtain ⟨b, -, applied⟩ := Option.bind_eq_some_iff.mp h
    exact (applySet_fixed applied).2

theorem fanEffect_grows (s : State) (e : BitVec 1024) (inp : List Byte) : OtpGrows s.trust (fanEffect s e inp).trust := by
  unfold fanEffect
  dsimp only
  split
  · refine .of_eq ?_
    split
    · split
      · rfl
      · exact createColl_getD_trust ..
    · rfl
  · refine .of_eq ?_
    split
    · exact applySet_getD_trust ..
    · rfl
  · refine .of_eq ?_
    split
    · exact (beginDelete_fixed ..).2
    · rfl
  · refine .trans ?_ (startAdminEffect_grows ..)
    exact .of_eq (by simp)

theorem occurs_grows {g : Bool} {a : Trust} {t s u : State} (ht : OtpGrows a t.trust) (hs : OtpGrows a s.trust)
    (h : occurs g t s = .next u) : OtpGrows a u.trust := by
  obtain rfl | rfl := occurs_next h
  · exact ht
  · exact hs

theorem execCommandAdmit_grows {cmd : Nat} {s u : State} (h : execCommandAdmit cmd s = .next u) : OtpGrows s.trust u.trust := by
  unfold execCommandAdmit at h
  split at h
  · exact occurs_grows (.refl _) (.refl _) h
  · exact occurs_grows (admitEffect_grows ..) (.refl _) h

theorem execDeviceReset_grows {cause : ResetCause} {s u : State} (h : execDeviceReset cause s = .next u) : OtpGrows s.trust u.trust := by
  unfold execDeviceReset at h
  split at h
  · split at h
    · exact occurs_grows (deviceReset_grows s) (.refl _) h
    · exact occurs_grows (.of_eq (State.modPower_fixed ..).2) (.refl _) h
  · exact occurs_grows (deviceReset_grows s) (.refl _) h

/-- OTP grows by any command but PROVISIONING. -/
theorem exec_grows {c : Instr} {s u : State} (other : ∀ m, c ≠ .provisioning m) (h : exec c s = .next u) : OtpGrows s.trust u.trust := by
  cases hc : mayMeasure c with
  | false => exact .of_eq (exec_trust_of_not_mayMeasure hc h).2
  | true =>
    cases c with
    | provisioning m => exact absurd rfl (other m)
    | scheduleLoad src => exact adminRow_keeps (P := OtpGrows s.trust) (fun t n k => k.trans (scheduleLoadEffect_grows t n)) (.refl _) h
    | startUp b => exact occurs_grows (.trans (.of_eq (State.modPower_fixed ..).2) (goOn_grows ..)) (.refl _) h
    | devrstNRelease => exact occurs_grows (releaseEffect_grows s) (.refl _) h
    | pllLock i => exact occurs_grows (lockEffect_grows s i) (.refl _) h
    | powerDown => exact occurs_grows (afterReset_grows s true) (.refl _) h
    | railFault rail above => exact occurs_grows (railEffect_grows s rail above) (.refl _) h
    | deviceReset cause => exact execDeviceReset_grows h
    | sbDeviceReset w => exact occurs_grows (deviceReset_grows s) (.refl _) h
    | commandAdmit cmd => exact execCommandAdmit_grows h
    | adminFan src e inp idx => exact occurs_grows (fanEffect_grows s e inp) (.refl _) h
    | _ => cases hc

/-! ## The statements -/

theorem step_nil {s : State} (h : s.pending = []) : step s = .next (tick s) := by simp only [step, h]

theorem step_cons {s : State} {c : Instr} {rest : List Instr} (h : s.pending = c :: rest) : step s = exec c { s with pending := rest } := by
  simp only [step, h]

/-- Settles O1: step takes the command at the front. -/
theorem stepRunsFront : Obligations.StepRunsFront := fun _ _ _ h => step_cons h

/-- Settles O2: each row answers a next state, and neither a row nor the passing of time changes the queue. -/
theorem everyStepCompletes : Obligations.EveryStepCompletes := by
  intro s
  cases queue : s.pending with
  | nil => exact ⟨tick s, step_nil queue, (tick_pending s).trans queue⟩
  | cons c rest =>
    obtain ⟨u, hu⟩ := exec_completes c { s with pending := rest }
    exact ⟨u, (step_cons queue).trans hu, exec_pending hu⟩

/-- PROVISIONING writes the secret and the lifecycle state, in MANUFACTURE only, and no counter (R596). -/
theorem exec_provisioning_otp {m : Manufacture} {s u : State} (h : exec (.provisioning m) s = .next u) :
    u.security.counter0 = s.security.counter0 ∧ u.security.counter1 = s.security.counter1 ∧
    (u = s ∨ s.security.lifecycle = .manufacture ∧ u.security.lifecycle = .production) := by
  change occurs _ _ s = .next u at h
  unfold occurs at h
  split at h
  · next allowed =>
    obtain rfl := Host.Outcome.next.inj h
    exact ⟨rfl, rfl, .inr ⟨by simpa using (Bool.and_eq_true_iff.mp allowed).1, rfl⟩⟩
  · obtain rfl := Host.Outcome.next.inj h
    exact ⟨rfl, rfl, .inl rfl⟩

/-- Settles O3: OTP grows with each step but PROVISIONING's, and the other rows keep the trust state as it is. -/
theorem trustIsKept : Obligations.TrustIsKept := by
  refine ⟨fun s t h => ?_, fun c s t quiet h => (exec_trust_of_not_mayMeasure quiet h).2⟩
  have grown (k : OtpGrows s.trust t.trust) : (∃ l, t.security.counter0 = s.security.counter0 ++ l) ∧
      (∃ l, t.security.counter1 = s.security.counter1 ++ l) ∧ t.security.lifecycle = s.security.lifecycle ∧ t.security.uds = s.security.uds :=
    ⟨k.counter0.imp fun _ => Eq.symm, k.counter1.imp fun _ => Eq.symm, k.lifecycle, k.uds⟩
  cases queue : s.pending with
  | nil =>
    obtain rfl := Host.Outcome.next.inj ((step_nil queue).symm.trans h)
    obtain ⟨zero, one, kept⟩ := grown (tick_grows s)
    exact ⟨zero, one, .inl kept⟩
  | cons c rest =>
    rw [step_cons queue] at h
    by_cases other : ∀ m, c ≠ .provisioning m
    · obtain ⟨zero, one, kept⟩ := grown (exec_grows (s := { s with pending := rest }) other h)
      exact ⟨zero, one, .inl kept⟩
    · obtain ⟨m, rfl⟩ := not_forall_not.mp other
      obtain ⟨zero, one, rfl | ⟨before, after⟩⟩ := exec_provisioning_otp (s := { s with pending := rest }) h
      · exact ⟨⟨[], by simp⟩, ⟨[], by simp⟩, .inl ⟨rfl, rfl⟩⟩
      · exact ⟨⟨[], by simpa using zero⟩, ⟨[], by simpa using one⟩, .inr ⟨before, after, m, rest, rfl⟩⟩

end Sys2Proof.Machine
end

section
/-! SUPPORT. Selection and merging (04_selection_and_merge.md): insertion into an ascending list, the select buffer of a core, the running result
of a square, and the statements about them. -/

namespace Sys2Proof.Machine

open Sys2Proof

/-! ## Ascending lists of candidates -/

theorem candLt_iff (x y : Cand) : candLt x y = true ↔ sortKey x < sortKey y := by simp [candLt]

/-- Ascending by sort key, equal keys allowed. -/
def Ascending (l : List Cand) : Prop := l.Pairwise fun x y => sortKey x ≤ sortKey y

theorem insSorted_perm {α : Type} (lt : α → α → Bool) (x : α) (l : List α) : (insSorted lt x l).Perm (x :: l) := by
  induction l with
  | nil => rfl
  | cons y t ih =>
    unfold insSorted
    split
    · rfl
    · exact (ih.cons y).trans (.swap ..)

theorem mem_insSorted {α : Type} {lt : α → α → Bool} {x y : α} {l : List α} : y ∈ insSorted lt x l ↔ y = x ∨ y ∈ l := by
  rw [(insSorted_perm lt x l).mem_iff, List.mem_cons]

theorem length_insSorted {α : Type} (lt : α → α → Bool) (x : α) (l : List α) : (insSorted lt x l).length = l.length + 1 :=
  (insSorted_perm lt x l).length_eq

theorem ascending_insSorted (x : Cand) {l : List Cand} (h : Ascending l) : Ascending (insSorted candLt x l) := by
  induction l with
  | nil => exact List.pairwise_singleton ..
  | cons y t ih =>
    obtain ⟨first, rest⟩ := List.pairwise_cons.mp h
    unfold insSorted
    split
    · next lt =>
      rw [candLt_iff] at lt
      refine List.pairwise_cons.mpr ⟨fun z hz => ?_, h⟩
      obtain rfl | hz := List.mem_cons.mp hz
      · exact lt.le
      · exact lt.le.trans (first z hz)
    · next ge =>
      rw [candLt_iff, not_lt] at ge
      refine List.pairwise_cons.mpr ⟨fun z hz => ?_, ih rest⟩
      obtain rfl | hz := mem_insSorted.mp hz
      · exact ge
      · exact first z hz

/-- Of an insertion the first n depend on the first n alone. -/
theorem take_insSorted_take {α : Type} (lt : α → α → Bool) (x : α) (n : Nat) (l : List α) :
    (insSorted lt x (l.take n)).take n = (insSorted lt x l).take n := by
  induction l generalizing n with
  | nil => simp
  | cons y t ih =>
    cases n with
    | zero => simp
    | succ n =>
      rw [List.take_succ_cons]
      unfold insSorted
      split
      · cases n <;> simp [List.take_take]
      · rw [List.take_succ_cons, List.take_succ_cons, ih]

/-- What precedes the place of an insertion stays. -/
theorem take_insSorted_of_not_lt {α : Type} {lt : α → α → Bool} {x : α} {n : Nat} {l : List α} (h : ∀ y ∈ l.take n, lt x y = false)
    (hn : n ≤ l.length) : (insSorted lt x l).take n = l.take n := by
  induction l generalizing n with
  | nil =>
    obtain rfl : n = 0 := by simpa using hn
    rfl
  | cons y t ih =>
    cases n with
    | zero => simp
    | succ n =>
      rw [List.take_succ_cons] at h ⊢
      have hy : ¬ lt x y = true := by simp [h y (by simp)]
      rw [insSorted, if_neg hy, List.take_succ_cons, ih (fun z hz => h z (List.mem_cons_of_mem _ hz)) (by simpa using hn)]

theorem insSorted_of_last {x : Cand} {l : List Cand} (h : ∀ y ∈ l, sortKey y ≤ sortKey x) : insSorted candLt x l = l ++ [x] := by
  induction l with
  | nil => rfl
  | cons y t ih =>
    have hy : ¬ candLt x y = true := by simpa [candLt_iff] using h y (by simp)
    rw [insSorted, if_neg hy, ih fun z hz => h z (List.mem_cons_of_mem _ hz), List.cons_append]

theorem isort_concat {α : Type} (lt : α → α → Bool) (l : List α) (x : α) : isort lt (l ++ [x]) = insSorted lt x (isort lt l) := by
  simp [isort]

theorem isort_perm {α : Type} (lt : α → α → Bool) (l : List α) : (isort lt l).Perm l := by
  induction l using List.reverseRecOn with
  | nil => rfl
  | append_singleton l x ih =>
    rw [isort_concat]
    exact (insSorted_perm lt x _).trans ((ih.cons x).trans (List.perm_append_singleton x l).symm)

theorem ascending_isort (l : List Cand) : Ascending (isort candLt l) := by
  induction l using List.reverseRecOn with
  | nil => exact List.Pairwise.nil
  | append_singleton l x ih =>
    rw [isort_concat]
    exact ascending_insSorted x ih

theorem isort_of_ascending {l : List Cand} (h : Ascending l) : isort candLt l = l := by
  induction l using List.reverseRecOn with
  | nil => rfl
  | append_singleton l x ih =>
    obtain ⟨before, -, last⟩ := List.pairwise_append.mp h
    rw [isort_concat, ih before, insSorted_of_last fun y hy => last y hy x (by simp)]

/-! ## The select buffer (R139 to R142) -/

theorem ascending_selectN (n : Nat) (l : List Cand) : Ascending (selectN n l) := (ascending_isort l).sublist (List.take_sublist ..)

theorem length_selectN (n : Nat) (l : List Cand) : (selectN n l).length = min n l.length := by
  rw [selectN, List.length_take, (isort_perm candLt l).length_eq]

theorem mem_of_mem_selectN {n : Nat} {l : List Cand} {x : Cand} (h : x ∈ selectN n l) : x ∈ l :=
  (isort_perm candLt l).mem_iff.mp (List.mem_of_mem_take h)

theorem selectN_selectN (n : Nat) (l : List Cand) : selectN n (selectN n l) = selectN n l := by
  rw [selectN, isort_of_ascending (ascending_selectN n l), selectN, List.take_take, min_self]

/-- A selection of one more is one of the selection and that one. -/
theorem selectN_concat (n : Nat) (l : List Cand) (x : Cand) : selectN n (l ++ [x]) = (insSorted candLt x (selectN n l)).take n := by
  rw [selectN, isort_concat, selectN, take_insSorted_take]

theorem selectN_concat_of_far {n : Nat} {l : List Cand} {x : Cand} (full : n ≤ l.length) (far : ∀ y ∈ selectN n l, sortKey y ≤ sortKey x) :
    selectN n (l ++ [x]) = selectN n l := by
  rw [selectN, isort_concat]
  exact take_insSorted_of_not_lt (fun y hy => by simpa [candLt] using far y hy) ((isort_perm candLt l).length_eq ▸ full)

theorem mem_selectN_concat {n : Nat} {l : List Cand} {x y : Cand} (h : y ∈ selectN n (l ++ [x])) : y = x ∨ y ∈ selectN n l := by
  rw [selectN_concat] at h
  exact mem_insSorted.mp (List.mem_of_mem_take h)

theorem le_bufCapacity (k : Nat) : k ≤ bufCapacity k := by
  unfold bufCapacity ceilDiv
  omega

/-- What a select buffer keeps while a core offers the records l: the selection is that of l, and a threshold is a bound of n entries (R139). -/
structure Selects (n : Nat) (l : List Cand) (b : SelBuf) : Prop where
  selection : selectN n b.entries = selectN n l
  full : ∀ t, b.tau = some t → n ≤ b.entries.length
  below : ∀ t, b.tau = some t → ∀ y ∈ selectN n b.entries, sortKey y ≤ t

theorem Selects.length_le {n : Nat} {l : List Cand} {b : SelBuf} (h : Selects n l b) {t : Nat} (ht : b.tau = some t) : n ≤ l.length := by
  have lengths := congrArg List.length h.selection
  rw [length_selectN, length_selectN] at lengths
  have := h.full t ht
  omega

/-- A candidate beyond the threshold enters no selection. -/
theorem Selects.skip {n : Nat} {l : List Cand} {b : SelBuf} (h : Selects n l b) {t : Nat} (ht : b.tau = some t) {x : Cand} (far : t < sortKey x) :
    Selects n (l ++ [x]) b := by
  refine ⟨?_, h.full, h.below⟩
  rw [selectN_concat_of_far (h.length_le ht) fun y hy => (h.below t ht y (h.selection ▸ hy)).trans far.le, h.selection]

theorem Selects.selection_concat {n : Nat} {l : List Cand} {b : SelBuf} (h : Selects n l b) (x : Cand) :
    selectN n (b.entries ++ [x]) = selectN n (l ++ [x]) := by
  rw [selectN_concat, h.selection, selectN_concat]

theorem Selects.keep {n : Nat} {l : List Cand} {b : SelBuf} (h : Selects n l b) {x : Cand} (near : ∀ t, b.tau = some t → sortKey x ≤ t) :
    Selects n (l ++ [x]) { b with entries := b.entries ++ [x] } := by
  refine ⟨h.selection_concat x, fun t ht => ?_, fun t ht y hy => ?_⟩
  · exact (h.full t ht).trans (by simp)
  · obtain rfl | hy := mem_selectN_concat hy
    · exact near t ht
    · exact h.below t ht y hy

theorem Ascending.le_of_getLast? {l : List Cand} (h : Ascending l) {x y : Cand} (hx : l.getLast? = some x) (hy : y ∈ l) :
    sortKey y ≤ sortKey x := by
  obtain ⟨before, rfl⟩ := List.getLast?_eq_some_iff.mp hx
  obtain hy | hy := List.mem_append.mp hy
  · exact (List.pairwise_append.mp h).2.2 y hy x (by simp)
  · rw [List.mem_singleton.mp hy]

theorem Selects.trim {n : Nat} {l : List Cand} {b : SelBuf} (h : Selects n l b) {x : Cand} (full : (b.entries ++ [x]).length = bufCapacity n) :
    Selects n (l ++ [x]) { entries := selectN n (b.entries ++ [x]), tau := (selectN n (b.entries ++ [x])).getLast?.map sortKey } := by
  refine ⟨?_, fun t _ => ?_, fun t ht y hy => ?_⟩
  · rw [selectN_selectN, h.selection_concat]
  · rw [length_selectN, full, Nat.min_eq_left (le_bufCapacity n)]
  · obtain ⟨z, last, rfl⟩ := Option.map_eq_some_iff.mp ht
    rw [selectN_selectN] at hy
    exact (ascending_selectN ..).le_of_getLast? last hy

theorem Selects.offer {n : Nat} {l : List Cand} {b : SelBuf} (h : Selects n l b) (x : Cand) : Selects n (l ++ [x]) (offer n b x) := by
  have offered (near : ∀ t, b.tau = some t → sortKey x ≤ t) :
      Selects n (l ++ [x]) (if (b.entries ++ [x]).length = bufCapacity n then
        { entries := selectN n (b.entries ++ [x]), tau := (selectN n (b.entries ++ [x])).getLast?.map sortKey }
        else { b with entries := b.entries ++ [x] }) := by
    split
    · next full => exact h.trim full
    · exact h.keep near
  unfold Machine.offer
  cases ht : b.tau with
  | none => simpa [ht] using offered (by simp [ht])
  | some t =>
    by_cases near : sortKey x ≤ t
    · simpa [near, ht] using offered (by simp [ht, near])
    · simpa [near] using h.skip ht (not_le.mp near)

theorem selects_offers (n : Nat) (l : List Cand) : Selects n l (l.foldl (offer n) {}) := by
  induction l using List.reverseRecOn with
  | nil => exact ⟨rfl, by simp, by simp⟩
  | append_singleton l x ih =>
    rw [List.foldl_append]
    exact ih.offer x

/-- What lies behind the first n of a strictly ascending list is farther than each of them. -/
theorem mem_take_or_far {l : List Cand} (h : l.Pairwise fun x y => sortKey x < sortKey y) (n : Nat) {x : Cand} (hx : x ∈ l) :
    x ∈ l.take n ∨ ((l.take n).length = n ∧ ∀ y ∈ l.take n, sortKey y < sortKey x) := by
  rw [← List.take_append_drop n l] at h hx
  obtain hx | hx := List.mem_append.mp hx
  · exact .inl hx
  · refine .inr ⟨?_, fun y hy => (List.pairwise_append.mp h).2.2 y hy x hx⟩
    have := List.length_pos_of_mem hx
    rw [List.length_drop] at this
    rw [List.length_take]
    omega

theorem Ascending.strict {l : List Cand} (h : Ascending l) (distinct : (l.map sortKey).Nodup) :
    l.Pairwise fun x y => sortKey x < sortKey y :=
  (h.and (List.pairwise_map.mp distinct)).imp fun ⟨le, ne⟩ => lt_of_le_of_ne le ne

/-- Settles O38: the buffer's selection is that of the records offered, which is the head of the list sorted. -/
theorem selectionIsExact : Obligations.SelectionIsExact := by
  intro n l _ distinct
  rw [(selects_offers n l).selection]
  have sorted : (isort candLt l).Pairwise fun x y => sortKey x < sortKey y :=
    (ascending_isort l).strict (((isort_perm candLt l).map sortKey).nodup_iff.mpr distinct)
  exact ⟨sorted.sublist (List.take_sublist ..), length_selectN n l, fun x => mem_of_mem_selectN,
    fun x hx => mem_take_or_far sorted n ((isort_perm candLt l).mem_iff.mpr hx)⟩

/-! ## The running result of a square (R145) -/

/-- A running result: ascending, no ID twice, at most k entries (R145). -/
structure Running (k : Nat) (r : List Cand) : Prop where
  ascending : r.Pairwise fun x y => sortKey x < sortKey y
  distinct : (r.map (·.vid)).Nodup
  length_le : r.length ≤ k

/-- A running result has lost candidate y to nothing but a nearer copy of its ID or k nearer entries. -/
def Accounts (k : Nat) (r : List Cand) (y : Cand) : Prop :=
  (∃ z ∈ r, z.vid = y.vid ∧ sortKey z ≤ sortKey y) ∨ (r.length = k ∧ ∀ z ∈ r, sortKey z < sortKey y)

theorem vid_eq_of_sortKey_eq {x y : Cand} (h : sortKey x = sortKey y) : x.vid = y.vid := by
  have hx := x.vid.isLt
  have hy := y.vid.isLt
  unfold sortKey at h
  exact BitVec.eq_of_toNat_eq (by omega)

theorem sortKey_ne_of_vid_ne {x y : Cand} (h : x.vid ≠ y.vid) : sortKey x ≠ sortKey y := fun eq => h (vid_eq_of_sortKey_eq eq)

theorem Ascending.strict_of_vids {l : List Cand} (h : Ascending l) (distinct : (l.map (·.vid)).Nodup) :
    l.Pairwise fun x y => sortKey x < sortKey y :=
  (h.and (List.pairwise_map.mp distinct)).imp fun ⟨le, ne⟩ => lt_of_le_of_ne le (sortKey_ne_of_vid_ne ne)

/-- Entries without an ID, with a candidate of that ID put in. -/
theorem Running.insert {k : Nat} {r : List Cand} (h : Running k r) {x : Cand} (new : ∀ y ∈ r, y.vid ≠ x.vid) :
    Running (k + 1) (insSorted candLt x r) := by
  have vids : ((insSorted candLt x r).map (·.vid)).Nodup := by
    rw [((insSorted_perm candLt x r).map _).nodup_iff, List.map_cons, List.nodup_cons]
    exact ⟨fun hx => by obtain ⟨y, hy, eq⟩ := List.mem_map.mp hx; exact new y hy eq, h.distinct⟩
  exact ⟨(ascending_insSorted x (h.ascending.imp fun lt => lt.le)).strict_of_vids vids, vids,
    (length_insSorted candLt x r).trans_le (Nat.succ_le_succ h.length_le)⟩

theorem Running.sublist {k : Nat} {r t : List Cand} (h : Running k r) (sub : t.Sublist r) : Running k t :=
  ⟨h.ascending.sublist sub, h.distinct.sublist (sub.map _), sub.length_le.trans h.length_le⟩

theorem Running.take {k : Nat} {r : List Cand} (h : Running (k + 1) r) : Running k (r.take k) :=
  ⟨h.ascending.sublist (List.take_sublist ..), h.distinct.sublist ((List.take_sublist ..).map _), List.length_take_le ..⟩

/-- The entries of other IDs. -/
theorem mem_others {r : List Cand} {x z : Cand} : z ∈ r.filter (fun z => z.vid != x.vid) ↔ z ∈ r ∧ z.vid ≠ x.vid := by simp

theorem Running.length_others {k : Nat} {r : List Cand} (h : Running k r) {y : Cand} (hy : y ∈ r) :
    (r.filter fun z => z.vid != y.vid).length + 1 = r.length := by
  obtain ⟨a, b, rfl⟩ := List.append_of_mem hy
  have distinct := h.distinct
  rw [List.map_append, List.map_cons, List.nodup_middle, List.nodup_cons, ← List.map_append] at distinct
  have others : ∀ z ∈ a ++ b, (z.vid != y.vid) = true := fun z hz => by
    simpa using fun eq => distinct.1 (List.mem_map.mpr ⟨z, hz, eq⟩)
  have left := List.filter_eq_self.mpr fun z hz => others z (List.mem_append_left b hz)
  have right := List.filter_eq_self.mpr fun z hz => others z (List.mem_append_right a hz)
  simp [left, right]
  omega

/-- A result that has merged run t into r. -/
structure Merges (k : Nat) (r t r' : List Cand) : Prop where
  running : Running k r'
  mem : ∀ y ∈ r', y ∈ r ++ t
  accounts : ∀ y, y ∈ t ∨ Accounts k r y → Accounts k r' y

/-- A run stops where the result is full and its last entry precedes the next one (R145). -/
def Stops (k : Nat) (r : List Cand) (x : Cand) : Prop := r.length = k ∧ ∃ y, r.getLast? = some y ∧ sortKey y < sortKey x

theorem Running.far_of_stops {k : Nat} {r : List Cand} (h : Running k r) {x : Cand} (stops : Stops k r x) : ∀ z ∈ r, sortKey z < sortKey x := by
  obtain ⟨-, y, last, lt⟩ := stops
  exact fun z hz => (Ascending.le_of_getLast? (h.ascending.imp fun lt => lt.le) last hz).trans_lt lt

theorem Running.accounts_of_not_stops {k : Nat} {r : List Cand} {x y : Cand} (goes : ¬ Stops k r x) (full : r.length = k)
    (far : ∀ z ∈ r, sortKey z < sortKey y) : k = 0 ∨ sortKey x < sortKey y := by
  rcases List.eq_nil_or_concat' r with rfl | ⟨t, l, rfl⟩
  · exact .inl full.symm
  · refine .inr (lt_of_not_ge fun le => goes ⟨full, l, by simp, (far l (by simp)).trans_le le⟩)

theorem mergeOne_of_stops {k : Nat} {r : List Cand} {x : Cand} (h : Stops k r x) : mergeOne k r x = none := by
  obtain ⟨full, y, last, lt⟩ := h
  simp [mergeOne, full, last, candLt, lt]

/-- A nearer copy of an entry's ID takes its place. -/
theorem Running.replace {k : Nat} {r : List Cand} (h : Running k r) {x y : Cand} (goes : ¬ Stops k r x) (hy : y ∈ r) (same : y.vid = x.vid)
    (nearer : sortKey x < sortKey y) : Merges k r [x] (insSorted candLt x (r.filter fun z => z.vid != x.vid)) := by
  have length : (insSorted candLt x (r.filter fun z => z.vid != x.vid)).length = r.length := by
    rw [length_insSorted, ← same, h.length_others hy]
  have inserted := (h.sublist (List.filter_sublist (p := fun z => z.vid != x.vid))).insert fun z hz => (mem_others.mp hz).2
  refine ⟨⟨inserted.ascending, inserted.distinct, length.trans_le h.length_le⟩, fun z hz => ?_, fun z hz => ?_⟩
  · obtain rfl | hz := mem_insSorted.mp hz
    · simp
    · exact List.mem_append_left _ (mem_others.mp hz).1
  · obtain hz | ⟨w, hw, vid, le⟩ | ⟨full, far⟩ := hz
    · obtain rfl := List.mem_singleton.mp hz
      exact .inl ⟨z, mem_insSorted.mpr (.inl rfl), rfl, le_rfl⟩
    · by_cases other : w.vid = x.vid
      · have : w = y := List.inj_on_of_nodup_map h.distinct hw hy (other.trans same.symm)
        exact .inl ⟨x, mem_insSorted.mpr (.inl rfl), other.symm.trans vid, nearer.le.trans (this ▸ le)⟩
      · exact .inl ⟨w, mem_insSorted.mpr (.inr (mem_others.mpr ⟨hw, other⟩)), vid, le⟩
    · refine .inr ⟨length.trans full, fun w hw => ?_⟩
      obtain rfl | hw := mem_insSorted.mp hw
      · exact nearer.trans (far y hy)
      · exact far w (mem_others.mp hw).1

/-- A new ID enters where fewer than k entries are nearer. -/
theorem Running.enter {k : Nat} {r : List Cand} (h : Running k r) {x : Cand} (goes : ¬ Stops k r x) (new : ∀ y ∈ r, y.vid ≠ x.vid) :
    Merges k r [x] ((insSorted candLt x r).take k) := by
  have inserted := h.insert new
  have kept {y : Cand} (hy : y ∈ insSorted candLt x r) : Accounts k ((insSorted candLt x r).take k) y :=
    (mem_take_or_far inserted.ascending k hy).imp (fun hy => ⟨y, hy, rfl, le_rfl⟩) id
  refine ⟨inserted.take, fun z hz => ?_, fun z hz => ?_⟩
  · obtain rfl | hz := mem_insSorted.mp (List.mem_of_mem_take hz)
    · simp
    · exact List.mem_append_left _ hz
  · obtain hz | ⟨w, hw, vid, le⟩ | ⟨full, far⟩ := hz
    · obtain rfl := List.mem_singleton.mp hz
      exact kept (mem_insSorted.mpr (.inl rfl))
    · obtain ⟨v, hv, vidv, lev⟩ | ⟨full, far⟩ := kept (mem_insSorted.mpr (.inr hw))
      · exact .inl ⟨v, hv, vidv.trans vid, lev.trans le⟩
      · exact .inr ⟨full, fun v hv => (far v hv).trans_le le⟩
    · refine .inr ⟨by rw [List.length_take, length_insSorted, full]; omega, fun v hv => ?_⟩
      obtain rfl | near := Running.accounts_of_not_stops goes full far
      · simp at hv
      · obtain rfl | hv := mem_insSorted.mp (List.mem_of_mem_take hv)
        · exact near
        · exact far v hv

theorem Running.same {k : Nat} {r : List Cand} (h : Running k r) {x y : Cand} (hy : y ∈ r) (same : y.vid = x.vid)
    (le : sortKey y ≤ sortKey x) : Merges k r [x] r := by
  refine ⟨h, fun z hz => List.mem_append_left _ hz, fun z hz => hz.elim (fun hz => ?_) id⟩
  obtain rfl := List.mem_singleton.mp hz
  exact .inl ⟨y, hy, same, le⟩

/-- Where the run goes on, the entry of the same ID decides what becomes of the next one. -/
theorem mergeOne_of_not_stops {k : Nat} {r : List Cand} {x : Cand} (goes : ¬ Stops k r x) :
    mergeOne k r x = some ((r.find? fun y => y.vid == x.vid).elim ((insSorted candLt x r).take k) fun y =>
      if candLt x y then insSorted candLt x (r.filter fun z => z.vid != x.vid) else r) := by
  have on : ∀ y, r.getLast? = some y → ¬ (r.length = k ∧ candLt y x = true) := fun y last stop =>
    goes ⟨stop.1, y, last, (candLt_iff y x).mp stop.2⟩
  unfold mergeOne
  cases hf : r.find? fun y => y.vid == x.vid with
  | none => cases hl : r.getLast? <;> simp [hl, on]
  | some y =>
    rw [Option.elim_some]
    by_cases nearer : candLt x y = true
    · rw [if_pos nearer]
      cases hl : r.getLast? <;> simp [hl, on, nearer]
    · rw [if_neg nearer]
      cases hl : r.getLast? <;> simp [hl, on, nearer]

/-- One arriving entry merges where the run does not stop at it. -/
theorem Running.mergeOne {k : Nat} {r : List Cand} (h : Running k r) {x : Cand} (goes : ¬ Stops k r x) :
    ∃ r', mergeOne k r x = some r' ∧ Merges k r [x] r' := by
  refine ⟨_, mergeOne_of_not_stops goes, ?_⟩
  cases hf : r.find? fun y => y.vid == x.vid with
  | none => exact h.enter goes fun y hy eq => by simpa [eq] using List.find?_eq_none.mp hf y hy
  | some y =>
    have hy := List.mem_of_find?_eq_some hf
    have same : y.vid = x.vid := by simpa using List.find?_some hf
    by_cases nearer : candLt x y = true
    · rw [Option.elim_some, if_pos nearer]
      exact h.replace goes hy same ((candLt_iff x y).mp nearer)
    · rw [Option.elim_some, if_neg nearer]
      exact h.same hy same (not_lt.mp fun lt => nearer ((candLt_iff x y).mpr lt))

theorem Merges.append {k : Nat} {r t u r' r'' : List Cand} (h : Merges k r t r') (g : Merges k r' u r'') : Merges k r (t ++ u) r'' := by
  refine ⟨g.running, fun y hy => ?_, fun y hy => ?_⟩
  · obtain hy | hy := List.mem_append.mp (g.mem y hy)
    · rw [← List.append_assoc]
      exact List.mem_append_left _ (h.mem y hy)
    · exact List.mem_append_right _ (List.mem_append_right _ hy)
  · obtain hy | hy := hy
    · obtain hy | hy := List.mem_append.mp hy
      · exact g.accounts y (.inr (h.accounts y (.inl hy)))
      · exact g.accounts y (.inl hy)
    · exact g.accounts y (.inr (h.accounts y (.inr hy)))

/-- Where an ascending run stops, none of its rest can enter. -/
theorem Running.stop {k : Nat} {r : List Cand} (h : Running k r) {x : Cand} {t : List Cand} (stops : Stops k r x)
    (run : Ascending (x :: t)) : Merges k r (x :: t) r := by
  refine ⟨h, fun y hy => List.mem_append_left _ hy, fun y hy => hy.elim (fun hy => ?_) id⟩
  refine .inr ⟨stops.1, fun z hz => (h.far_of_stops stops z hz).trans_le ?_⟩
  obtain rfl | hy := List.mem_cons.mp hy
  · exact le_rfl
  · exact (List.pairwise_cons.mp run).1 y hy

theorem Running.mergeRun {k : Nat} {r run : List Cand} (h : Running k r) (ascending : Ascending run) : Merges k r run (mergeRun k r run) := by
  induction run generalizing r with
  | nil => exact ⟨h, fun y hy => List.mem_append_left _ hy, fun y hy => hy.elim (fun hy => absurd hy (List.not_mem_nil)) id⟩
  | cons x t ih =>
    by_cases stops : Stops k r x
    · simp only [Machine.mergeRun, mergeOne_of_stops stops]
      exact h.stop stops ascending
    · obtain ⟨r', merged, step⟩ := h.mergeOne stops
      simp only [Machine.mergeRun, merged]
      exact step.append (ih step.running (List.pairwise_cons.mp ascending).2)

/-! ## SQUARE_RUN (R148) -/

theorem scanningCmd_cmd? {s : State} {n : Nat} {x : Cmd} (h : scanningCmd s n = some x) : s.cmd? n = some x := by
  unfold scanningCmd at h
  split at h
  · next found =>
    split at h
    · exact found.trans h
    · cases h
  · cases h

theorem exec_squareRun {s : State} {n : Nat} {q : SquareId} {input : Nat} {x : Cmd} {f : Flight} {rest : List Flight}
    (scanning : scanningCmd s n = some x) (taken : takeFlight q input x.search.flights = some (f, rest)) :
    exec (.squareRun n q ⟨input, false⟩) s
      = occurs (live s && awake s && q.ok && squareTurn s n x q && inputTurn s x q input) (squareRunEffect s n x q f rest) s := by
  simp [exec, execSquareRun, scanning, taken]

/-- The rest of a run cannot enter where the result is full before the run's last entry. -/
theorem Running.far_of_runStops {k : Nat} {r part left : List Cand} (h : Running k r) (run : Ascending (part ++ left))
    (stops : runStops k r part = true) : ∀ y ∈ left, r.length = k ∧ ∀ z ∈ r, sortKey z < sortKey y := by
  intro y hy
  obtain ⟨full, last⟩ := Bool.and_eq_true_iff.mp stops
  cases hp : part.getLast? with
  | none => simp [hp] at last
  | some a =>
    cases hr : r.getLast? with
    | none => simp [hp, hr] at last
    | some b =>
      have before : sortKey b < sortKey a := by simpa [hp, hr, candLt] using last
      have far := h.far_of_stops ⟨by simpa using full, b, hr, before⟩
      refine ⟨by simpa using full, fun z hz => (far z hz).trans_le ?_⟩
      exact (List.pairwise_append.mp run).2.2 a (List.mem_of_getLast? hp) y hy

/-- The running result of a square once it has merged what it takes of a run at a time. -/
def squareMerged (x : Cmd) (q : SquareId) (f : Flight) : List Cand := mergeRun (kEff x.entry) (squareNode x q).running (f.run.take squareBurst)

/-- A search once a square has merged a part of a run. -/
def Cmd.squareRun (x : Cmd) (q : SquareId) (f : Flight) (rest : List Flight) : Cmd :=
  { x with search := { x.search with
      flights := if (f.run.drop squareBurst).isEmpty || runStops (kEff x.entry) (squareMerged x q f) (f.run.take squareBurst) then rest
        else { f with run := f.run.drop squareBurst } :: rest
      squares := Tab.set x.search.squares (squareNum q) { squareNode x q with running := squareMerged x q f } } }

theorem squareNode_squareRun (x : Cmd) (q u : SquareId) (f : Flight) (rest : List Flight) :
    squareNode (x.squareRun q f rest) u
      = if squareNum u = squareNum q then { squareNode x q with running := squareMerged x q f } else squareNode x u :=
  Tab.getD_set ..

theorem squareRunEffect_cmd {s : State} {n : Nat} {q : SquareId} {x : Cmd} {f : Flight} {rest : List Flight} (found : s.cmd? n = some x) :
    (squareRunEffect s n x q f rest).cmd? n = some (x.squareRun q f rest) :=
  (Tab.get?_adjust_self ..).trans (congrArg _ found)

theorem Tab.mem_of_get? {α : Type} {t : Table α} {k : Nat} {a : α} (h : Tab.get? t k = some a) : (k, a) ∈ t := by
  induction t with
  | nil => cases h
  | cons y t ih =>
    unfold Tab.get? at h
    split at h
    · next eq =>
      obtain rfl := Option.some.inj h
      exact eq ▸ List.mem_cons_self
    · exact List.mem_cons_of_mem _ (ih h)

/-- A search whose input at a square is more urgent, or as urgent and earlier, has the square's turn. -/
theorem squareTurn_of_before {s : State} {n m : Nat} {q : SquareId} {x y : Cmd} {a b : Nat} (ne : m ≠ n) (scanning : scanningCmd s m = some y)
    (ha : firstArrival s x q = some a) (hb : firstArrival s y q = some b)
    (before : eClass y.entry < eClass x.entry ∨ (eClass y.entry = eClass x.entry ∧ b < a)) : squareTurn s n x q = false := by
  refine Bool.eq_false_iff.mpr fun turn => ?_
  have one := List.all_eq_true.mp turn (m, y) (Tab.mem_of_get? (scanningCmd_cmd? scanning))
  simp only [ha, hb, scanning, ne, beq_iff_eq, Option.isNone_some, Bool.or_false, Bool.or_eq_true, decide_eq_true_eq, Bool.and_eq_true,
    false_or] at one
  omega

/-- Settles O39: the part of the run merges entry by entry, and what is left cannot enter or waits; a query with less urgent or later input has
not the turn. -/
theorem squaresKeepTheNearest : Obligations.SquaresKeepTheNearest := by
  intro n q input x f rest s up on ok scanning taken turn
  refine ⟨fun mine ascending distinct length run => ?_, fun m y a b ne other ha hb before => ?_⟩
  · have running : Running (kEff x.entry) (squareNode x q).running := ⟨ascending, distinct, length⟩
    have merges := running.mergeRun (run.sublist (List.take_sublist 64 f.run))
    have found := scanningCmd_cmd? scanning
    refine ⟨_, x.squareRun q f rest, squareMerged x q f, (exec_squareRun scanning taken).trans (occurs_of_true (by simp [up, on, ok, mine, turn]) ..),
      squareRunEffect_cmd found, by rw [squareNode_squareRun, if_pos rfl], merges.running.ascending, merges.running.distinct,
      merges.running.length_le, merges.mem, fun y hy => ?_, ?_, fun u hu => by rw [squareNode_squareRun, if_neg hu], rfl⟩
    · refine merges.accounts y ?_
      obtain hy | hy := List.mem_append.mp hy
      · exact .inr (.inl ⟨y, hy, rfl, le_rfl⟩)
      · exact .inl hy
    · by_cases spent : (f.run.drop squareBurst).isEmpty || runStops (kEff x.entry) (squareMerged x q f) (f.run.take squareBurst)
      · refine .inr ⟨if_pos spent, ?_⟩
        obtain none | stops := Bool.or_eq_true_iff.mp spent
        · have empty : f.run.drop 64 = [] := List.isEmpty_iff.mp none
          exact fun y hy => absurd (empty ▸ hy) List.not_mem_nil
        · exact merges.running.far_of_runStops (by rwa [squareBurst, List.take_append_drop]) stops
      · refine .inl ⟨?_, if_neg spent⟩
        rw [Bool.or_eq_true, not_or, List.isEmpty_iff, List.drop_eq_nil_iff, not_le] at spent
        exact spent.1
  · rw [exec_squareRun scanning taken, occurs_of_false]
    simp [squareTurn_of_before ne other ha hb before]

end Sys2Proof.Machine
end

section
/-! SUPPORT. HBM cells, write queues and generator fills (08_hbm_memory.md), what a read of a channel's byte returns after they change, and the
statement about the copy of a migration. -/

namespace Sys2Proof.Machine

open Sys2Proof

/-! ## Tables and memories under changes of many entries -/

namespace Tab

variable {α : Type}

theorem get?_filter_key (t : Table α) (p : Nat → Bool) (k : Nat) : get? (t.filter fun x => p x.1) k = if p k then get? t k else none := by
  induction t with
  | nil => simp
  | cons x t ih =>
    obtain ⟨j, a⟩ := x
    by_cases hp : p j = true
    · rw [List.filter_cons, if_pos hp]
      by_cases hj : j = k
      · simp [get?, hj, hj ▸ hp]
      · simp [get?, hj, ih]
    · rw [List.filter_cons, if_neg hp, ih]
      by_cases hj : j = k
      · simp [hj ▸ hp]
      · simp [get?, hj]

theorem wf_filter {t : Table α} (h : wf t = true) (p : Nat × α → Bool) : wf (t.filter p) = true := by
  induction t with
  | nil => exact h
  | cons x t ih =>
    obtain ⟨j, a⟩ := x
    obtain ⟨above, ht⟩ := (wf_cons j a t).mp h
    rw [List.filter_cons]
    split
    · exact (wf_cons j a _).mpr ⟨fun y hy => above y (List.mem_of_mem_filter hy), ih ht⟩
    · exact ih ht

/-- Entries listed under numbers other than k leave entry k. -/
theorem get?_foldl_set_ne {l : Table α} {f : Nat → Nat} {k : Nat} (h : ∀ x ∈ l, f x.1 ≠ k) (t : Table α) :
    get? (l.foldl (fun t x => set t (f x.1) x.2) t) k = get? t k := by
  induction l generalizing t with
  | nil => rfl
  | cons x l ih =>
    rw [List.foldl_cons, ih fun y hy => h y (List.mem_cons_of_mem _ hy), get?_set_ne _ _ (h x (by simp)).symm]

/-- Entries listed under numbers moved by f: entry k is the one whose number f moves to k. -/
theorem get?_foldl_set {l : Table α} (hl : wf l = true) {f : Nat → Nat} {a k : Nat} (only : ∀ x ∈ l, f x.1 = k ↔ x.1 = a) (t : Table α) :
    get? (l.foldl (fun t x => set t (f x.1) x.2) t) k = (get? l a).or (get? t k) := by
  induction l generalizing t with
  | nil => rfl
  | cons x l ih =>
    obtain ⟨j, b⟩ := x
    obtain ⟨above, hl⟩ := (wf_cons j b l).mp hl
    rw [List.foldl_cons, ih hl fun y hy => only y (List.mem_cons_of_mem _ hy)]
    have first := only (j, b) (by simp)
    by_cases hj : j = a
    · obtain rfl := hj
      simp [get?_above above, get?, first.mpr rfl]
    · simp [get?, hj, get?_set_ne _ _ (fun eq => hj (first.mp eq.symm))]

end Tab

/-! ## Cells -/

theorem cellKey_inj {c d r r' off off' : Nat} (hr : r < 2 ^ 20) (hr' : r' < 2 ^ 20) (hoff : off < 2048) (hoff' : off' < 2048) :
    cellKey c r off = cellKey d r' off' ↔ c = d ∧ r = r' ∧ off = off' := by
  unfold cellKey
  omega

theorem cellIn_cellKey {c d lo hi r off : Nat} (hr : r < 2 ^ 20) (hoff : off < 2048) :
    cellIn c lo hi (cellKey d r off) = (d == c && decide (lo ≤ r) && decide (r < hi)) := by
  have channel : cellKey d r off / 2 ^ 31 = d := by unfold cellKey; omega
  have granule : cellKey d r off % 2 ^ 31 / 2048 = r := by unfold cellKey; omega
  rw [cellIn, channel, granule]

/-- A write of a queue lies in its channel. -/
def QWrite.fits (w : QWrite) : Prop := w.granule < 2 ^ 20 ∧ w.sector < 64

/-- A write covers a byte of the channel. -/
def QWrite.covers (w : QWrite) (r off : Nat) : Prop := w.granule = r ∧ w.sector = off / 32 ∧ bitOf w.mask.toNat (off % 32) = true

/-- The byte that a write leaves where it covers one. -/
def QWrite.byte (w : QWrite) (off : Nat) : Byte := BitVec.ofNat 8 (w.data.toNat >>> (8 * (off % 32)))

section
variable {m : Memory} (hm : Mem.wf m = true) {w : QWrite} (fits : w.fits) {c r off : Nat} (hr : r < 2 ^ 20) (hoff : off < 2048) (fs : List Fill)
include hm fits hr hoff

open Classical in
/-- The cell of a byte after a write is laid over the cells of its channel. -/
theorem read_applyWrite :
    Mem.read (applyWrite fs m c w) (cellKey c r off)
      = if w.covers r off then w.byte off ^^^ fillByte fs r off else Mem.read m (cellKey c r off) := by
  obtain ⟨hg, hs⟩ := fits
  have one (l : List Nat) (hl : ∀ i ∈ l, i < 32) :
      let m' := l.foldl (fun m i =>
        if bitOf w.mask.toNat i then
          Mem.write m (cellKey c w.granule (w.sector * 32 + i))
            (BitVec.ofNat 8 (w.data.toNat >>> (8 * i)) ^^^ fillByte fs w.granule (w.sector * 32 + i))
        else m) m
      Mem.wf m' = true ∧ Mem.read m' (cellKey c r off)
        = if w.covers r off ∧ off % 32 ∈ l then w.byte off ^^^ fillByte fs r off else Mem.read m (cellKey c r off) := by
    induction l using List.reverseRecOn with
    | nil => exact ⟨hm, by simp⟩
    | append_singleton l i ih =>
      obtain ⟨wf, read⟩ := ih fun j hj => hl j (List.mem_append_left _ hj)
      have hi : i < 32 := hl i (by simp)
      simp only [List.foldl_append, List.foldl_cons, List.foldl_nil]
      by_cases masked : bitOf w.mask.toNat i = true
      · rw [if_pos masked]
        refine ⟨Mem.wf_write wf _ _, ?_⟩
        by_cases here : w.granule = r ∧ w.sector * 32 + i = off
        · obtain ⟨rfl, rfl⟩ := here
          have sector : (w.sector * 32 + i) / 32 = w.sector := by omega
          have byte : (w.sector * 32 + i) % 32 = i := by omega
          rw [Mem.read_write_self wf, if_pos ⟨⟨rfl, sector.symm, byte.symm ▸ masked⟩, by simp [byte]⟩, QWrite.byte, byte]
        · have ne : cellKey c r off ≠ cellKey c w.granule (w.sector * 32 + i) := by
            rw [Ne, cellKey_inj hr hg hoff (by omega)]
            exact fun eq => here ⟨eq.2.1.symm, eq.2.2.symm⟩
          have same : (w.covers r off ∧ off % 32 ∈ l ++ [i]) ↔ w.covers r off ∧ off % 32 ∈ l := by
            refine and_congr_right fun cov => ?_
            have : off % 32 ≠ i := fun eq => here ⟨cov.1, by have := cov.2.1; omega⟩
            simp [this]
          rw [Mem.read_write_ne _ _ ne, read, if_congr same rfl rfl]
      · rw [if_neg masked]
        refine ⟨wf, ?_⟩
        have same : (w.covers r off ∧ off % 32 ∈ l ++ [i]) ↔ w.covers r off ∧ off % 32 ∈ l := by
          refine and_congr_right fun cov => ?_
          have : off % 32 ≠ i := fun eq => masked (eq ▸ cov.2.2)
          simp [this]
        rw [read, if_congr same rfl rfl]
  have all := (one (List.range 32) fun i hi => List.mem_range.mp hi).2
  have byte : off % 32 ∈ List.range 32 := List.mem_range.mpr (Nat.mod_lt _ (by decide))
  simp only [byte, and_true] at all
  exact all

end

theorem read_applyWrite_ne {m : Memory} {w : QWrite} (fits : w.fits) {c d r off : Nat} (hr : r < 2 ^ 20) (hoff : off < 2048) (ne : d ≠ c)
    (fs : List Fill) : Mem.read (applyWrite fs m c w) (cellKey d r off) = Mem.read m (cellKey d r off) := by
  unfold applyWrite
  refine List.foldlRecOn (List.range 32) _ (motive := fun m' => Mem.read m' (cellKey d r off) = Mem.read m (cellKey d r off)) rfl ?_
  intro m' hm' i hi
  dsimp only
  have hi := List.mem_range.mp hi
  split
  · rw [Mem.read_write_ne, hm']
    rw [Ne, cellKey_inj hr fits.1 hoff (by have := fits.2; omega)]
    exact fun eq => ne eq.1
  · exact hm'

/-! ## Write queues (R286) -/

open Classical in
theorem queued_concat (q : List QWrite) (w : QWrite) (r off : Nat) (d : Byte) :
    queued (q ++ [w]) r (off / 32) (off % 32) d = if w.covers r off then w.byte off else queued q r (off / 32) (off % 32) d := by
  unfold queued
  rw [List.reverse_append, List.reverse_singleton, List.singleton_append, List.find?_cons]
  by_cases cov : w.covers r off
  · obtain ⟨g, s, b⟩ := cov
    rw [if_pos ⟨g, s, b⟩]
    simp [g, s, b, QWrite.byte]
  · rw [if_neg cov]
    have : (w.granule == r && w.sector == off / 32 && bitOf w.mask.toNat (off % 32)) = false := by
      rw [Bool.eq_false_iff, ne_eq, Bool.and_eq_true, Bool.and_eq_true, beq_iff_eq, beq_iff_eq, and_assoc]
      exact cov
    rw [this]

/-- A queue none of whose writes covers a byte does not change it. -/
theorem queued_of_not_covers {q : List QWrite} {r off : Nat} (h : ∀ w ∈ q, ¬ w.covers r off) (d : Byte) :
    queued q r (off / 32) (off % 32) d = d := by
  induction q using List.reverseRecOn with
  | nil => rfl
  | append_singleton q w ih =>
    rw [queued_concat, if_neg (h w (by simp)), ih fun v hv => h v (List.mem_append_left _ hv)]

/-- The cells once writes are laid over them, oldest first. -/
def drained (fs : List Fill) (c : Nat) (m : Memory) (q : List QWrite) : Memory := q.foldl (fun m w => applyWrite fs m c w) m

theorem drained_concat (fs : List Fill) (c : Nat) (m : Memory) (q : List QWrite) (w : QWrite) :
    drained fs c m (q ++ [w]) = applyWrite fs (drained fs c m q) c w := by
  simp [drained]

theorem wf_drained {m : Memory} (hm : Mem.wf m = true) (fs : List Fill) (c : Nat) (q : List QWrite) : Mem.wf (drained fs c m q) = true :=
  List.foldlRecOn q _ (motive := fun m => Mem.wf m = true) hm fun _ h w _ => wf_applyWrite h fs c w

/-- Draining a queue leaves every byte of its channel as it was read with the queue. -/
theorem read_drained {m : Memory} (hm : Mem.wf m = true) {q : List QWrite} (fits : ∀ w ∈ q, w.fits) {r off : Nat} (hr : r < 2 ^ 20)
    (hoff : off < 2048) (fs : List Fill) (c : Nat) :
    Mem.read (drained fs c m q) (cellKey c r off) ^^^ fillByte fs r off
      = queued q r (off / 32) (off % 32) (Mem.read m (cellKey c r off) ^^^ fillByte fs r off) := by
  induction q using List.reverseRecOn with
  | nil => rfl
  | append_singleton q w ih =>
    rw [drained_concat, read_applyWrite (wf_drained hm fs c q) (fits w (by simp)) hr hoff, queued_concat]
    split
    · rw [BitVec.xor_assoc, BitVec.xor_self, BitVec.xor_zero]
    · exact ih fun v hv => fits v (List.mem_append_left _ hv)

theorem read_drained_ne {m : Memory} {q : List QWrite} (fits : ∀ w ∈ q, w.fits) {c d r off : Nat} (hr : r < 2 ^ 20) (hoff : off < 2048)
    (ne : d ≠ c) (fs : List Fill) : Mem.read (drained fs c m q) (cellKey d r off) = Mem.read m (cellKey d r off) :=
  List.foldlRecOn q _ (motive := fun m' => Mem.read m' (cellKey d r off) = Mem.read m (cellKey d r off)) rfl
    fun _ h w hw => (read_applyWrite_ne (fits w hw) hr hoff ne fs).trans h

/-! ## Channels -/

theorem State.chan_modChan_ne {s : State} {c n : Nat} (h : n ≠ c) (f : Channel → Channel) : (s.modChan c f).chan n = s.chan n := by
  simp [State.modChan, State.modHbm, State.chan, Tab.getD_modify, h]

theorem State.chan_modChan_eq (s : State) (c n : Nat) (f : Channel → Channel) :
    (s.modChan c f).chan n = if n = c then f (s.chan n) else s.chan n := by
  split
  · next h => rw [h, State.chan_modChan]
  · next h => exact State.chan_modChan_ne h f

/-- What a channel's byte depends on. -/
theorem chanByte_of_serves {s : State} {c d : Nat} (h : servedBy s c = d) (r off : Nat) :
    chanByte s c r off = queued (wqOf (s.chan d) (off / 32 % 2)) r (off / 32) (off % 32)
      (Mem.read s.hbm.cells (cellKey d r off) ^^^ fillByte (s.chan d).fills r off) := by
  simp only [chanByte, h]

theorem servedBy_of_phase {s : State} {c : Nat} (h : (s.chan c).phase ≠ .alias_) : servedBy s c = c := if_neg h

/-! ## The copy of a migration (R299 to R301) -/

theorem copyCells_eq (m : Memory) (c t lo hi : Nat) :
    copyCells m c t lo hi = (m.filter fun x => cellIn c lo hi x.1).foldl (fun m x => Tab.set m (t * 2 ^ 31 + x.1 % 2 ^ 31) x.2)
      (m.filter fun x => !cellIn t lo hi x.1) := rfl

theorem read_copyCells_in {m : Memory} (hm : Mem.wf m = true) {c t lo hi r off : Nat} (hr : r < 2 ^ 20) (hoff : off < 2048) (hlo : lo ≤ r)
    (hhi : r < hi) : Mem.read (copyCells m c t lo hi) (cellKey t r off) = Mem.read m (cellKey c r off) := by
  have inC : cellIn c lo hi (cellKey c r off) = true := by simp [cellIn_cellKey hr hoff, hlo, hhi]
  have inT : cellIn t lo hi (cellKey t r off) = true := by simp [cellIn_cellKey hr hoff, hlo, hhi]
  have only : ∀ x ∈ m.filter fun x => cellIn c lo hi x.1, t * 2 ^ 31 + x.1 % 2 ^ 31 = cellKey t r off ↔ x.1 = cellKey c r off := by
    intro x hx
    have here := (List.mem_filter.mp hx).2
    simp only [cellIn, Bool.and_eq_true, beq_iff_eq] at here
    obtain ⟨⟨channel, -⟩, -⟩ := here
    unfold cellKey
    omega
  have table : Tab.wf m = true := (Bool.and_eq_true_iff.mp hm).1
  rw [copyCells_eq, Mem.read, Tab.getD, Tab.get?_foldl_set (f := fun a => t * 2 ^ 31 + a % 2 ^ 31) (Tab.wf_filter table _) only,
    Tab.get?_filter_key, Tab.get?_filter_key m fun a => !cellIn t lo hi a, if_pos inC, inT]
  simp [Mem.read, Tab.getD]

theorem read_copyCells_out {m : Memory} {c t lo hi d r off : Nat} (hr : r < 2 ^ 20) (hoff : off < 2048)
    (out : ¬ (d = t ∧ lo ≤ r ∧ r < hi)) : Mem.read (copyCells m c t lo hi) (cellKey d r off) = Mem.read m (cellKey d r off) := by
  have outT : cellIn t lo hi (cellKey d r off) = false := by
    rw [cellIn_cellKey hr hoff, Bool.eq_false_iff, ne_eq, Bool.and_eq_true, Bool.and_eq_true, beq_iff_eq, decide_eq_true_eq, decide_eq_true_eq,
      and_assoc]
    exact out
  have apart : ∀ x ∈ m.filter fun x => cellIn c lo hi x.1, t * 2 ^ 31 + x.1 % 2 ^ 31 ≠ cellKey d r off := by
    intro x hx eq
    have here := (List.mem_filter.mp hx).2
    simp only [cellIn, Bool.and_eq_true, beq_iff_eq, decide_eq_true_eq] at here
    obtain ⟨⟨-, low⟩, high⟩ := here
    unfold cellKey at eq
    exact out (by omega)
  rw [copyCells_eq, Mem.read, Tab.getD, Tab.get?_foldl_set_ne (f := fun a => t * 2 ^ 31 + a % 2 ^ 31) apart,
    Tab.get?_filter_key m fun a => !cellIn t lo hi a, outT]
  rfl

theorem fillByte_append (fs gs : List Fill) (r off : Nat) (h : ∀ f ∈ fs, ¬ (f.lo ≤ r ∧ r < f.hi)) : fillByte (fs ++ gs) r off = fillByte gs r off := by
  have none : fs.find? (fun f => decide (f.lo ≤ r) && decide (r < f.hi)) = none :=
    List.find?_eq_none.mpr fun f hf => by simpa using h f hf
  simp [fillByte, List.find?_append, none]

/-- Fills clipped to granules that hold a byte leave it as they did. -/
theorem fillByte_clipFills {lo hi r : Nat} (hlo : lo ≤ r) (hhi : r < hi) (fs gs : List Fill) (off : Nat) :
    fillByte (clipFills fs lo hi ++ gs) r off = fillByte fs r off := by
  induction fs with
  | nil =>
    have zero : fillByte ({ lo := lo, hi := hi, mode := 0, seed := 0, user := 0 } :: gs) r off = 0 := by
      simp [fillByte, hlo, hhi, tgPattern]
    exact zero
  | cons f fs ih =>
    by_cases here : f.lo ≤ r ∧ r < f.hi
    · have clip : max f.lo lo < min f.hi hi := by omega
      have inside : max f.lo lo ≤ r ∧ r < min f.hi hi := by omega
      simp only [clipFills, List.filterMap_cons, if_pos clip, List.cons_append, fillByte, List.find?_cons, here.1, here.2, inside.1, inside.2,
        decide_true, Bool.and_self]
    · have skip : fillByte (f :: fs) r off = fillByte fs r off :=
        fillByte_append [f] fs r off fun g hg => by rwa [List.mem_singleton.mp hg]
      rw [skip, ← ih]
      by_cases clip : max f.lo lo < min f.hi hi
      · have outside : ¬ (max f.lo lo ≤ r ∧ r < min f.hi hi) := by omega
        simp only [clipFills, List.filterMap_cons, if_pos clip, List.cons_append]
        exact fillByte_append [_] _ r off fun g hg => by rw [List.mem_singleton.mp hg]; exact outside
      · simp only [clipFills, List.filterMap_cons, if_neg clip]

theorem mem_clipFills {fs : List Fill} {lo hi : Nat} {f : Fill} (h : f ∈ clipFills fs lo hi) : lo ≤ f.lo ∧ f.hi ≤ hi := by
  obtain h | h := List.mem_append.mp h
  · obtain ⟨g, -, clipped⟩ := List.mem_filterMap.mp h
    split at clipped
    · obtain rfl := Option.some.inj clipped
      simp
    · cases clipped
  · obtain rfl := List.mem_singleton.mp h
    simp

theorem fillByte_clipFills_out {lo hi r : Nat} (out : ¬ (lo ≤ r ∧ r < hi)) (fs gs : List Fill) (off : Nat) :
    fillByte (clipFills fs lo hi ++ gs) r off = fillByte gs r off :=
  fillByte_append _ gs r off fun f hf => by have := mem_clipFills hf; omega

/-! ## Draining and copying as a channel's reader sees them -/

theorem queued_append (p q : List QWrite) (r off : Nat) (d : Byte) :
    queued (p ++ q) r (off / 32) (off % 32) d = queued q r (off / 32) (off % 32) (queued p r (off / 32) (off % 32) d) := by
  induction q using List.reverseRecOn with
  | nil => rw [List.append_nil]; rfl
  | append_singleton q w ih => rw [← List.append_assoc, queued_concat, queued_concat, ih]

/-- A channel with the oldest n writes of a pseudo-channel's queue gone. -/
def Channel.dropWrites (x : Channel) (pc n : Nat) : Channel := if pc = 0 then { x with wq0 := x.wq0.drop n } else { x with wq1 := x.wq1.drop n }

theorem drainQueue_cells (s : State) (c pc n : Nat) :
    (drainQueue s c pc n).hbm.cells = drained (s.chan c).fills c s.hbm.cells ((wqOf (s.chan c) pc).take n) := rfl

theorem drainQueue_chan (s : State) (c d pc n : Nat) :
    (drainQueue s c pc n).chan d = if d = c then (s.chan d).dropWrites pc n else s.chan d := by
  unfold drainQueue
  dsimp only
  rw [State.chan_modChan_eq]
  split
  · next h =>
    obtain rfl := h
    unfold Channel.dropWrites wqOf
    split <;> rfl
  · rfl

theorem drainQueue_frame (s : State) (c pc n : Nat) : drainQueue s c pc n = { s with hbm := (drainQueue s c pc n).hbm } := rfl

@[simp] theorem Channel.dropWrites_phase (x : Channel) (pc n : Nat) : (x.dropWrites pc n).phase = x.phase := by unfold dropWrites; split <;> rfl
@[simp] theorem Channel.dropWrites_fills (x : Channel) (pc n : Nat) : (x.dropWrites pc n).fills = x.fills := by unfold dropWrites; split <;> rfl
@[simp] theorem Channel.dropWrites_flips (x : Channel) (pc n : Nat) : (x.dropWrites pc n).flips = x.flips := by unfold dropWrites; split <;> rfl
@[simp] theorem Channel.dropWrites_migTarget (x : Channel) (pc n : Nat) : (x.dropWrites pc n).migTarget = x.migTarget := by
  unfold dropWrites; split <;> rfl
@[simp] theorem Channel.dropWrites_watermark (x : Channel) (pc n : Nat) : (x.dropWrites pc n).watermark = x.watermark := by
  unfold dropWrites; split <;> rfl

theorem wqOf_dropWrites_same {x : Channel} {pc : Nat} (hpc : pc < 2) (n : Nat) : wqOf (x.dropWrites pc n) pc = (wqOf x pc).drop n := by
  obtain rfl | rfl : pc = 0 ∨ pc = 1 := by omega
  · rfl
  · rfl

theorem wqOf_dropWrites_ne {x : Channel} {pc k : Nat} (hpc : pc < 2) (hk : k < 2) (ne : k ≠ pc) (n : Nat) : wqOf (x.dropWrites pc n) k = wqOf x k := by
  obtain ⟨rfl, rfl⟩ | ⟨rfl, rfl⟩ : (pc = 0 ∧ k = 1) ∨ (pc = 1 ∧ k = 0) := by omega
  · rfl
  · rfl

theorem servedBy_drainQueue (s : State) (c d pc n : Nat) : servedBy (drainQueue s c pc n) d = servedBy s d := by
  unfold servedBy
  rw [drainQueue_chan]
  split_ifs <;> simp_all

/-- Draining writes into the cells changes no byte of a channel. -/
theorem chanByte_drainQueue {s : State} (hm : Mem.wf s.hbm.cells = true) {c pc : Nat} (hpc : pc < 2)
    (fits : ∀ w ∈ wqOf (s.chan c) pc, w.fits ∧ w.sector % 2 = pc) (n d : Nat) {r off : Nat} (hr : r < 2 ^ 20) (hoff : off < 2048) :
    chanByte (drainQueue s c pc n) d r off = chanByte s d r off := by
  rw [chanByte_of_serves (servedBy_drainQueue s c d pc n), chanByte_of_serves rfl, drainQueue_chan, drainQueue_cells]
  have fit : ∀ w ∈ (wqOf (s.chan c) pc).take n, w.fits := fun w hw => (fits w (List.mem_of_mem_take hw)).1
  generalize servedBy s d = e
  by_cases here : e = c
  · obtain rfl := here
    rw [if_pos rfl, Channel.dropWrites_fills, read_drained hm fit hr hoff]
    by_cases same : off / 32 % 2 = pc
    · rw [same, wqOf_dropWrites_same hpc, ← queued_append, List.take_append_drop]
    · rw [wqOf_dropWrites_ne hpc (Nat.mod_lt _ (by decide)) same, queued_of_not_covers (q := (wqOf (s.chan e) pc).take n)]
      exact fun w hw cov => same (cov.2.1 ▸ (fits w (List.mem_of_mem_take hw)).2)
  · rw [if_neg here, read_drained_ne fit hr hoff here]

section
variable {u : State} {c t lo n : Nat} {f g : Channel → Channel}

/-- A state in which the granules from lo up to n of channel c are copied to channel t, the channels changed by f and g beside. -/
def copiedState (u : State) (c t lo n : Nat) (f g : Channel → Channel) : State :=
  ((u.modHbm fun h => { h with cells := copyCells h.cells c t lo n }).modChan t f).modChan c g

theorem copiedState_frame (u : State) (c t lo n : Nat) (f g : Channel → Channel) :
    copiedState u c t lo n f g = { u with hbm := (copiedState u c t lo n f g).hbm } := rfl

theorem copiedState_target (ne : t ≠ c) : (copiedState u c t lo n f g).chan t = f (u.chan t) := by
  rw [copiedState, State.chan_modChan_ne ne, State.chan_modChan]
  rfl

theorem copiedState_source (ne : t ≠ c) : (copiedState u c t lo n f g).chan c = g (u.chan c) := by
  rw [copiedState, State.chan_modChan, State.chan_modChan_ne ne.symm]
  rfl

/-- A change to a channel that keeps its queues and its phase. -/
def KeepsQueues (f : Channel → Channel) : Prop := ∀ y, (f y).wq0 = y.wq0 ∧ (f y).wq1 = y.wq1 ∧ (f y).phase = y.phase

theorem KeepsQueues.wqOf {f : Channel → Channel} (h : KeepsQueues f) (y : Channel) (pc : Nat) : wqOf (f y) pc = Machine.wqOf y pc := by
  obtain ⟨zero, one, -⟩ := h y
  simp only [Machine.wqOf, zero, one]

variable (hm : Mem.wf u.hbm.cells = true) (ne : t ≠ c) (idle : (u.chan t).phase ≠ .alias_) (running : (u.chan c).phase ≠ .alias_)
  (empty : (u.chan c).wq0 = [] ∧ (u.chan c).wq1 = []) (hf : KeepsQueues f) (hg : KeepsQueues g)
  (fills : ∀ y, (f y).fills = clipFills (u.chan c).fills lo n ++ y.fills) (same : ∀ y, (g y).fills = y.fills)
include ne

include idle hf in
theorem chanByte_copiedState_target (r off : Nat) :
    chanByte (copiedState u c t lo n f g) t r off = queued (wqOf (u.chan t) (off / 32 % 2)) r (off / 32) (off % 32)
      (Mem.read (copyCells u.hbm.cells c t lo n) (cellKey t r off) ^^^ fillByte (f (u.chan t)).fills r off) := by
  have serves : servedBy (copiedState u c t lo n f g) t = t :=
    servedBy_of_phase (by rw [copiedState_target ne, (hf _).2.2]; exact idle)
  rw [chanByte_of_serves serves, copiedState_target ne, hf.wqOf]
  rfl

include running hg same in
/-- The source reads as before. -/
theorem chanByte_copiedState_source {r off : Nat} (hr : r < 2 ^ 20) (hoff : off < 2048) :
    chanByte (copiedState u c t lo n f g) c r off = chanByte u c r off := by
  have serves : servedBy (copiedState u c t lo n f g) c = c :=
    servedBy_of_phase (by rw [copiedState_source ne, (hg _).2.2]; exact running)
  have cells : Mem.read (copiedState u c t lo n f g).hbm.cells (cellKey c r off) = Mem.read u.hbm.cells (cellKey c r off) :=
    read_copyCells_out hr hoff fun h => ne h.1.symm
  rw [chanByte_of_serves serves, chanByte_of_serves (servedBy_of_phase running), copiedState_source ne, hg.wqOf, same, cells]

include hm idle running empty hf fills in
/-- Below n the target reads as the source, where it did below lo and its queued writes lie below lo. -/
theorem chanByte_copiedState_below {r off : Nat} (hr : r < 2 ^ 20) (hn : r < n) (hoff : off < 2048)
    (queue : ∀ w ∈ (u.chan t).wq0 ++ (u.chan t).wq1, w.granule < lo) (before : r < lo → chanByte u t r off = chanByte u c r off) :
    chanByte (copiedState u c t lo n f g) t r off = chanByte u c r off := by
  rw [chanByte_copiedState_target ne idle hf, fills]
  by_cases hlo : lo ≤ r
  · have far : ∀ w ∈ wqOf (u.chan t) (off / 32 % 2), ¬ w.covers r off := by
      intro w hw cov
      have listed : w ∈ (u.chan t).wq0 ++ (u.chan t).wq1 := by
        unfold wqOf at hw
        split at hw
        · exact List.mem_append_left _ hw
        · exact List.mem_append_right _ hw
      have := queue w listed
      have := cov.1
      omega
    have none : wqOf (u.chan c) (off / 32 % 2) = [] := by
      unfold wqOf
      rw [empty.1, empty.2, ite_self]
    rw [queued_of_not_covers far, read_copyCells_in hm hr hoff hlo hn, fillByte_clipFills hlo hn, chanByte_of_serves (servedBy_of_phase running),
      none]
    rfl
  · rw [read_copyCells_out hr hoff fun h => hlo h.2.1, fillByte_clipFills_out fun h => hlo h.1, ← before (not_le.mp hlo),
      chanByte_of_serves (servedBy_of_phase idle)]

end

/-- A channel of which no sector is uncorrectable has no granule that a copy loses (R304). -/
theorem badGranules_of_correctable {s : State} {c : Nat} (h : ∀ e ∈ (s.chan c).flips, e.2.length < 2) (lo hi : Nat) : badGranules s c lo hi = [] := by
  have none : ((s.chan c).flips.filter fun (k, l) => decide (2 ≤ l.length) && decide (lo ≤ k / 64) && decide (k / 64 < hi)) = [] := by
    refine List.filter_eq_nil_iff.mpr fun e he => ?_
    have := h e he
    simp
    omega
  unfold badGranules
  rw [none]
  rfl

theorem switchPerm_chan (s : State) (c d : Nat) : (switchPerm s c).chan d = s.chan d := rfl

/-- What entering ALIAS leaves of the channels (R299, R301). -/
theorem enterAlias_chan (s : State) (c d : Nat) :
    (enterAlias s c).chan d = if d = c then { s.chan d with phase := .alias_, watermark := 2 ^ 20 } else s.chan d := by
  unfold enterAlias
  dsimp only
  split
  · rw [switchPerm_chan, State.chan_modChan_eq]
  · rw [State.chan_modChan_eq]

theorem enterAlias_cells (s : State) (c : Nat) : (enterAlias s c).hbm.cells = s.hbm.cells := by
  unfold enterAlias
  dsimp only
  split <;> rfl

theorem enterAlias_frame (s : State) (c : Nat) : enterAlias s c = { s with hbm := (enterAlias s c).hbm } := by
  unfold enterAlias
  dsimp only
  split <;> rfl

/-- In ALIAS both channels read from the target. -/
theorem chanByte_enterAlias {s : State} {c d : Nat} (ne : (s.chan c).migTarget ≠ c) (idle : (s.chan (s.chan c).migTarget).phase ≠ .alias_)
    (hd : d = c ∨ d = (s.chan c).migTarget) (r off : Nat) :
    chanByte (enterAlias s c) d r off = chanByte s (s.chan c).migTarget r off := by
  have serves : servedBy (enterAlias s c) d = (s.chan c).migTarget := by
    unfold servedBy
    rw [enterAlias_chan]
    obtain rfl | rfl := hd
    · simp
    · rw [if_neg ne, if_neg idle]
  rw [chanByte_of_serves serves, chanByte_of_serves (servedBy_of_phase idle), enterAlias_chan, if_neg ne, enterAlias_cells]

theorem exec_migrationCopyDone {s : State} {c n : Nat} (up : live s = true) (hc : c < 512) (state : (s.chan c).state = .migSource)
    (phase : (s.chan c).phase = .copy) (low : (s.chan c).watermark < n) (high : n ≤ 2 ^ 20) :
    exec (.migrationCopyDone c ⟨n, []⟩) s = .next (copyTo s c n []) :=
  occurs_of_true (by simp [up, okChannel, hc, state, phase, low]; omega) _ _

/-- A channel both of whose write queues, of at most 64 writes each, have drained into the cells. -/
def drainBoth (s : State) (c : Nat) : State := drainQueue (drainQueue s c 0 64) c 1 64

theorem drainBoth_frame (s : State) (c : Nat) : drainBoth s c = { s with hbm := (drainBoth s c).hbm } :=
  (drainQueue_frame (drainQueue s c 0 64) c 1 64).trans
    (congrArg (fun u : State => { u with hbm := (drainBoth s c).hbm }) (drainQueue_frame s c 0 64))

theorem drainBoth_chan_ne (s : State) {c d : Nat} (ne : d ≠ c) : (drainBoth s c).chan d = s.chan d := by
  rw [drainBoth, drainQueue_chan, if_neg ne, drainQueue_chan, if_neg ne]

theorem drainBoth_chan (s : State) (c : Nat) : (drainBoth s c).chan c = ((s.chan c).dropWrites 0 64).dropWrites 1 64 := by
  rw [drainBoth, drainQueue_chan, if_pos rfl, drainQueue_chan, if_pos rfl]

theorem wf_drainBoth {s : State} (h : Mem.wf s.hbm.cells = true) (c : Nat) : Mem.wf (drainBoth s c).hbm.cells = true :=
  wf_drainQueue (wf_drainQueue h c 0 64) c 1 64

theorem chanByte_drainBoth {s : State} (hm : Mem.wf s.hbm.cells = true) {c : Nat} (even : ∀ w ∈ (s.chan c).wq0, w.fits ∧ w.sector % 2 = 0)
    (odd : ∀ w ∈ (s.chan c).wq1, w.fits ∧ w.sector % 2 = 1) (d : Nat) {r off : Nat} (hr : r < 2 ^ 20) (hoff : off < 2048) :
    chanByte (drainBoth s c) d r off = chanByte s d r off := by
  have odd' : ∀ w ∈ wqOf ((drainQueue s c 0 64).chan c) 1, w.fits ∧ w.sector % 2 = 1 := by
    rw [drainQueue_chan, if_pos rfl]
    exact odd
  rw [drainBoth, chanByte_drainQueue (wf_drainQueue hm c 0 64) (by decide) odd' 64 d hr hoff,
    chanByte_drainQueue (pc := 0) hm (by decide) even 64 d hr hoff]

/-- The target's channel once the granules from lo up to n of the source are copied. -/
def copiedInto (x : Channel) (lo n : Nat) (y : Channel) : Channel := { y with
  fills := clipFills x.fills lo n ++ y.fills
  flips := (Tab.keep y.flips fun k _ => decide (k / 64 < lo) || decide (n ≤ k / 64)).foldl (fun m (k, l) => Tab.set m k l)
    (Tab.keep x.flips fun k l => decide (2 ≤ l.length) && decide (lo ≤ k / 64) && decide (k / 64 < n))
  lostMap := x.lostMap, rewritten := x.rewritten, partWritten := x.partWritten }

theorem copyTo_eq (s : State) (c n : Nat) (bad : List Nat) :
    copyTo s c n bad =
      (let u := drainBoth s c
       let lo := (u.chan c).watermark
       let v := (bad ++ badGranules u c lo n).eraseDups.foldl (fun s g => retireGranule (countUncorrected s c) c g)
         (copiedState u c (s.chan c).migTarget lo n (copiedInto (u.chan c) lo n) fun y => { y with watermark := n })
       if n = 2 ^ 20 then enterAlias v c else v) := rfl

/-- A copy without an uncorrectable granule: the queues drain, the granules are copied, and past the last one ALIAS follows. -/
theorem copyTo_of_correctable {s : State} {c : Nat} (h : ∀ e ∈ (s.chan c).flips, e.2.length < 2) (n : Nat) :
    copyTo s c n [] =
      (let v := copiedState (drainBoth s c) c (s.chan c).migTarget (s.chan c).watermark n
        (copiedInto ((drainBoth s c).chan c) (s.chan c).watermark n) fun y => { y with watermark := n }
      if n = 2 ^ 20 then enterAlias v c else v) := by
  have flips : ∀ e ∈ ((drainBoth s c).chan c).flips, e.2.length < 2 := by
    rw [drainBoth_chan, Channel.dropWrites_flips, Channel.dropWrites_flips]
    exact h
  have watermark : ((drainBoth s c).chan c).watermark = (s.chan c).watermark := by
    rw [drainBoth_chan, Channel.dropWrites_watermark, Channel.dropWrites_watermark]
  rw [copyTo_eq]
  dsimp only
  rw [badGranules_of_correctable flips, watermark]
  rfl

/-- Settles O22: the queues drain without a change to any byte, the copied granules read as the source's, and in ALIAS both channels read from the
target. -/
theorem migrationKeepsEveryByte : Obligations.MigrationKeepsEveryByte := by
  intro c n s up hc state phase ne idle hm low high zero one even odd correctable queue before
  refine ⟨_, exec_migrationCopyDone up hc state phase low high, ?_⟩
  rw [copyTo_of_correctable correctable]
  dsimp only
  generalize ht : (s.chan c).migTarget = t at *
  generalize hu : drainBoth s c = u at *
  have target : u.chan t = s.chan t := hu ▸ drainBoth_chan_ne s ne
  have source : u.chan c = ((s.chan c).dropWrites 0 64).dropWrites 1 64 := hu ▸ drainBoth_chan s c
  have sourcePhase : (u.chan c).phase ≠ .alias_ := by simp [source, phase]
  have targetPhase : (u.chan t).phase ≠ .alias_ := by simp [target, idle]
  have bytes (d : Nat) {r off : Nat} (hr : r < 2 ^ 20) (hoff : off < 2048) : chanByte u d r off = chanByte s d r off :=
    hu ▸ chanByte_drainBoth hm (fun w hw => ⟨⟨(even w hw).1, (even w hw).2.1⟩, (even w hw).2.2⟩)
      (fun w hw => ⟨⟨(odd w hw).1, (odd w hw).2.1⟩, (odd w hw).2.2⟩) d hr hoff
  have empty : (u.chan c).wq0 = [] ∧ (u.chan c).wq1 = [] := by
    rw [source]
    exact ⟨List.drop_eq_nil_iff.mpr zero, List.drop_eq_nil_iff.mpr one⟩
  have hf : KeepsQueues (copiedInto (u.chan c) (s.chan c).watermark n) := fun y => ⟨rfl, rfl, rfl⟩
  have fills (y : Channel) : (copiedInto (u.chan c) (s.chan c).watermark n y).fills = clipFills (u.chan c).fills (s.chan c).watermark n ++ y.fills := rfl
  generalize copiedInto (u.chan c) (s.chan c).watermark n = f at *
  generalize hg : (fun y : Channel => { y with watermark := n }) = g
  have keeps : KeepsQueues g := hg ▸ fun y => ⟨rfl, rfl, rfl⟩
  generalize hv : copiedState u c t (s.chan c).watermark n f g = v
  have below {r off : Nat} (hr : r < n) (hoff : off < 2048) : chanByte v t r off = chanByte s c r off := by
    have hr' : r < 2 ^ 20 := by omega
    rw [← bytes c hr' hoff, ← hv]
    refine chanByte_copiedState_below (hu ▸ wf_drainBoth hm c) ne targetPhase sourcePhase empty hf fills hr' hr hoff (by rwa [target]) fun lt => ?_
    rw [bytes t hr' hoff, bytes c hr' hoff, before r off lt hoff]
  have there : v.chan c = g (u.chan c) := hv ▸ copiedState_source ne
  have targetOf : (v.chan c).migTarget = t := by
    rw [there, ← hg, source, ← ht]
    simp
  have phaseOf : (v.chan t).phase ≠ .alias_ := by
    rw [← hv, copiedState_target ne, (hf _).2.2]
    exact targetPhase
  have frame : v = { s with hbm := v.hbm } := by
    rw [← hv, copiedState_frame, ← hu, drainBoth_frame]
  split
  · next last =>
    obtain rfl := last
    have alias_ {d r off : Nat} (hd : d = c ∨ d = t) (hr : r < 2 ^ 20) (hoff : off < 2048) :
        chanByte (enterAlias v c) d r off = chanByte s c r off := by
      rw [chanByte_enterAlias (targetOf ▸ ne) (targetOf ▸ phaseOf) (targetOf.symm ▸ hd), targetOf, below hr hoff]
    have chan : (enterAlias v c).chan c = { v.chan c with phase := .alias_, watermark := 2 ^ 20 } := by
      rw [enterAlias_chan, if_pos rfl]
    refine ⟨by rw [chan], fun r off hr hoff => alias_ (.inr rfl) hr hoff, fun r off hr hoff => alias_ (.inl rfl) hr hoff, fun _ => ⟨by rw [chan], ?_⟩, ?_⟩
    · rw [servedBy, chan, if_pos rfl]
      exact targetOf
    · rw [enterAlias_frame, frame]
  · next more =>
    refine ⟨by rw [there, ← hg], fun r off hr hoff => below hr hoff, fun r off hr hoff => ?_, fun last => absurd last more, frame⟩
    rw [← bytes c hr hoff, ← hv]
    exact chanByte_copiedState_source ne sourcePhase keeps (fun y => by rw [← hg]) hr hoff

end Sys2Proof.Machine
end

section
/-! SUPPORT. What a report changes: an entry of the error log, a notice of a log page, a bit of CRITICAL and an event of a port change the logs
and the event state of the ports, and nothing else (R462, R470, R532, R533). -/

namespace Sys2Proof.Machine

open Sys2Proof

/-! ## Entries set twice -/

namespace Tab

variable {α : Type}

@[simp] theorem set_set (t : Table α) (k : Nat) (a b : α) : set (set t k a) k b = set t k b := by
  induction t with
  | nil => simp [set]
  | cons x t ih =>
    obtain ⟨j, c⟩ := x
    by_cases low : k < j
    · simp [set, low]
    · by_cases here : k = j
      · simp [set, here]
      · simp [set, low, here, ih]

@[simp] theorem modify_modify (t : Table α) (k : Nat) (d : α) (f g : α → α) : modify (modify t k d f) k d g = modify t k d fun x => g (f x) := by
  rw [modify, getD_modify_self, modify, set_set, modify]

theorem modify_congr (t : Table α) (k : Nat) (d : α) {f g : α → α} (h : f (getD t k d) = g (getD t k d)) : modify t k d f = modify t k d g := by
  rw [modify, modify, h]

end Tab

/-! ## What changes -/

/-- The parts of the state. -/
inductive Part where
  | pending | time | power | islands | crossings | sensors | port0 | port1 | cmds | nextCmd | bucket | colls | gens | arrivals
  | coarseLevels | batches | nextBatch | cores | quarters | scheds | runs | nextRun | streams | engines | pieces | nextPiece | events
  | alleys | localStore | cache | hbm | protect | tiers | flash | net | security | sideband | logs | features | free
  deriving DecidableEq

/-- State s with the parts of a list from t. -/
def State.take (l : List Part) (s t : State) : State := {
  pending := bif l.contains .pending then t.pending else s.pending, time := bif l.contains .time then t.time else s.time,
  power := bif l.contains .power then t.power else s.power, islands := bif l.contains .islands then t.islands else s.islands,
  crossings := bif l.contains .crossings then t.crossings else s.crossings,
  sensors := bif l.contains .sensors then t.sensors else s.sensors, port0 := bif l.contains .port0 then t.port0 else s.port0,
  port1 := bif l.contains .port1 then t.port1 else s.port1, cmds := bif l.contains .cmds then t.cmds else s.cmds,
  nextCmd := bif l.contains .nextCmd then t.nextCmd else s.nextCmd, bucket := bif l.contains .bucket then t.bucket else s.bucket,
  colls := bif l.contains .colls then t.colls else s.colls, gens := bif l.contains .gens then t.gens else s.gens,
  arrivals := bif l.contains .arrivals then t.arrivals else s.arrivals,
  coarseLevels := bif l.contains .coarseLevels then t.coarseLevels else s.coarseLevels,
  batches := bif l.contains .batches then t.batches else s.batches,
  nextBatch := bif l.contains .nextBatch then t.nextBatch else s.nextBatch, cores := bif l.contains .cores then t.cores else s.cores,
  quarters := bif l.contains .quarters then t.quarters else s.quarters, scheds := bif l.contains .scheds then t.scheds else s.scheds,
  runs := bif l.contains .runs then t.runs else s.runs, nextRun := bif l.contains .nextRun then t.nextRun else s.nextRun,
  streams := bif l.contains .streams then t.streams else s.streams, engines := bif l.contains .engines then t.engines else s.engines,
  pieces := bif l.contains .pieces then t.pieces else s.pieces, nextPiece := bif l.contains .nextPiece then t.nextPiece else s.nextPiece,
  events := bif l.contains .events then t.events else s.events, alleys := bif l.contains .alleys then t.alleys else s.alleys,
  localStore := bif l.contains .localStore then t.localStore else s.localStore, cache := bif l.contains .cache then t.cache else s.cache,
  hbm := bif l.contains .hbm then t.hbm else s.hbm, protect := bif l.contains .protect then t.protect else s.protect,
  tiers := bif l.contains .tiers then t.tiers else s.tiers, flash := bif l.contains .flash then t.flash else s.flash,
  net := bif l.contains .net then t.net else s.net, security := bif l.contains .security then t.security else s.security,
  sideband := bif l.contains .sideband then t.sideband else s.sideband, logs := bif l.contains .logs then t.logs else s.logs,
  features := bif l.contains .features then t.features else s.features, free := bif l.contains .free then t.free else s.free }

/-- From s to t only the parts of a list changed. -/
def Changes (l : List Part) (s t : State) : Prop := t = s.take l t

namespace Changes

variable {l m n : List Part} {s t u : State}

theorem refl (l : List Part) (s : State) : Changes l s s := by
  have same (b : Bool) {α : Type} (x : α) : (bif b then x else x) = x := by cases b <;> rfl
  simp only [Changes, State.take, same]

theorem trans (h : Changes l s t) (k : Changes l t u) : Changes l s u := by
  have last (b : Bool) {α : Type} (x y z : α) : (bif b then x else bif b then y else z) = bif b then x else z := by cases b <;> rfl
  calc u = t.take l u := k
    _ = (s.take l t).take l u := by rw [← show t = s.take l t from h]
    _ = s.take l u := by simp only [State.take, last]

theorem mono (h : Changes l s t) (sub : ∀ f ∈ l, f ∈ m) : Changes m s t := by
  have fewer (f : Part) {α : Type} (x y : α) :
      (bif m.contains f then (bif l.contains f then x else y) else y) = bif l.contains f then x else y := by
    cases inL : l.contains f with
    | false => cases m.contains f <;> rfl
    | true => rw [List.contains_iff_mem.mpr (sub f (List.contains_iff_mem.mp inL))]; rfl
  calc t = s.take l t := h
    _ = s.take m (s.take l t) := by simp only [State.take, fewer]
    _ = s.take m t := by rw [← show t = s.take l t from h]

/-- What reads none of the parts that change reads the same. -/
theorem same {α : Type} (h : Changes l s t) (g : State → α) (out : ∀ s t, g (s.take l t) = g s := by intro _ _; rfl) : g t = g s :=
  (congrArg g h).trans (out s t)

/-- Two changes one after the other. -/
theorem comp (h : Changes l s t) (k : Changes m t u) (hl : ∀ f ∈ l, f ∈ n := by decide) (hm : ∀ f ∈ m, f ∈ n := by decide) : Changes n s u :=
  (h.mono hl).trans (k.mono hm)

/-- Two changes one after the other, of parts that the first may change. -/
theorem andThen (h : Changes l s t) (k : Changes m t u) (sub : ∀ f ∈ m, f ∈ l := by decide) : Changes l s u := h.trans (k.mono sub)

theorem set {p : Part} (h : Changes l s t) (hp : p ∈ l) (k : Changes [p] t u) : Changes l s u := h.andThen k (by simpa using hp)

theorem modHbm (h : Changes l s t) (f : Hbm → Hbm) (hl : Part.hbm ∈ l := by decide) : Changes l s (t.modHbm f) :=
  h.set hl rfl
theorem modChan (h : Changes l s t) (c : Nat) (f : Channel → Channel) (hl : Part.hbm ∈ l := by decide) : Changes l s (t.modChan c f) :=
  h.set hl rfl
theorem modCache (h : Changes l s t) (f : Cache → Cache) (hl : Part.cache ∈ l := by decide) : Changes l s (t.modCache f) :=
  h.set hl rfl
theorem modCmd (h : Changes l s t) (n : Nat) (f : Cmd → Cmd) (hl : Part.cmds ∈ l := by decide) : Changes l s (t.modCmd n f) :=
  h.set hl rfl
theorem modSearch (h : Changes l s t) (n : Nat) (f : SearchWork → SearchWork) (hl : Part.cmds ∈ l := by decide) : Changes l s (t.modSearch n f) :=
  h.set hl rfl
theorem modWork (h : Changes l s t) (n : Nat) (f : OtherWork → OtherWork) (hl : Part.cmds ∈ l := by decide) : Changes l s (t.modWork n f) :=
  h.set hl rfl
theorem modColl (h : Changes l s t) (i : Nat) (f : Collection → Collection) (hl : Part.colls ∈ l := by decide) : Changes l s (t.modColl i f) :=
  h.set hl rfl
theorem modCore (h : Changes l s t) (n : Nat) (f : Core → Core) (hl : Part.cores ∈ l := by decide) : Changes l s (t.modCore n f) :=
  h.set hl rfl
theorem modQuarter (h : Changes l s t) (n : Nat) (f : Quarter → Quarter) (hl : Part.quarters ∈ l := by decide) : Changes l s (t.modQuarter n f) :=
  h.set hl rfl
theorem modIsland (h : Changes l s t) (n : Nat) (f : Island → Island) (hl : Part.islands ∈ l := by decide) : Changes l s (t.modIsland n f) :=
  h.set hl rfl
theorem modCrossing (h : Changes l s t) (n : Nat) (f : Crossing → Crossing) (hl : Part.crossings ∈ l := by decide) : Changes l s (t.modCrossing n f) :=
  h.set hl rfl
theorem modPower (h : Changes l s t) (f : Power → Power) (hl : Part.power ∈ l := by decide) : Changes l s (t.modPower f) :=
  h.set hl rfl
theorem modLogs (h : Changes l s t) (f : Logs → Logs) (hl : Part.logs ∈ l := by decide) : Changes l s (t.modLogs f) :=
  h.set hl rfl
theorem modSec (h : Changes l s t) (f : Security → Security) (hl : Part.security ∈ l := by decide) : Changes l s (t.modSec f) :=
  h.set hl rfl
theorem modSb (h : Changes l s t) (f : Sideband → Sideband) (hl : Part.sideband ∈ l := by decide) : Changes l s (t.modSb f) :=
  h.set hl rfl
theorem modNet (h : Changes l s t) (f : Net → Net) (hl : Part.net ∈ l := by decide) : Changes l s (t.modNet f) :=
  h.set hl rfl
theorem modLink (h : Changes l s t) (n : Nat) (f : Link → Link) (hl : Part.net ∈ l := by decide) : Changes l s (t.modLink n f) :=
  h.set hl rfl
theorem modFlash (h : Changes l s t) (f : Flash → Flash) (hl : Part.flash ∈ l := by decide) : Changes l s (t.modFlash f) :=
  h.set hl rfl
theorem modTiers (h : Changes l s t) (f : Tiers → Tiers) (hl : Part.tiers ∈ l := by decide) : Changes l s (t.modTiers f) :=
  h.set hl rfl
theorem modProtect (h : Changes l s t) (f : Protect → Protect) (hl : Part.protect ∈ l := by decide) : Changes l s (t.modProtect f) :=
  h.set hl rfl
theorem modStream (h : Changes l s t) (q n : Nat) (f : Stream → Stream) (hl : Part.streams ∈ l := by decide) : Changes l s (t.modStream q n f) :=
  h.set hl rfl
theorem modEngine (h : Changes l s t) (q : Nat) (f : Engine → Engine) (hl : Part.engines ∈ l := by decide) : Changes l s (t.modEngine q f) :=
  h.set hl rfl
theorem modSched (h : Changes l s t) (i : Nat) (f : Sched → Sched) (hl : Part.scheds ∈ l := by decide) : Changes l s (t.modSched i f) :=
  h.set hl rfl
theorem modRun (h : Changes l s t) (r : Nat) (f : Run → Run) (hl : Part.runs ∈ l := by decide) : Changes l s (t.modRun r f) :=
  h.set hl rfl
theorem modSensor (h : Changes l s t) (n : Nat) (f : Sensor → Sensor) (hl : Part.sensors ∈ l := by decide) : Changes l s (t.modSensor n f) :=
  h.set hl rfl

theorem modPort (h : Changes l s t) (p : PortId) (f : Port → Port) (hl : ∀ x ∈ [Part.port0, .port1], x ∈ l := by decide) :
    Changes l s (t.modPort p f) := by
  refine h.andThen (m := [.port0, .port1]) ?_ hl
  cases p <;> rfl
theorem modPair (h : Changes l s t) (p : PortId) (q : Nat) (f : QueuePair → QueuePair) (hl : ∀ x ∈ [Part.port0, .port1], x ∈ l := by decide) :
    Changes l s (t.modPair p q f) := h.modPort p _ hl
theorem modMailbox (h : Changes l s t) (p : PortId) (m : Nat) (f : Mailbox → Mailbox) (hl : ∀ x ∈ [Part.port0, .port1], x ∈ l := by decide) :
    Changes l s (t.modMailbox p m f) := h.modPort p _ hl
theorem modXlt (h : Changes l s t) (p : PortId) (f : Xlt → Xlt) (hl : ∀ x ∈ [Part.port0, .port1], x ∈ l := by decide) :
    Changes l s (t.modXlt p f) := h.modPort p _ hl

theorem foldl {α : Type} {g : State → α → State} (h : ∀ s a, Changes l s (g s a)) (as : List α) (s : State) : Changes l s (as.foldl g s) :=
  List.foldlRecOn as g (motive := Changes l s) (refl l s) fun t ht a _ => ht.trans (h t a)

theorem ite {c : Prop} [Decidable c] (h : Changes l s t) (k : Changes l s u) : Changes l s (if c then t else u) := by
  split
  · exact h
  · exact k

end Changes

/-! ## What a report changes -/

/-- A port with the event state of another, and what that one has sent. -/
def Port.reporting (x y : Port) : Port := { x with
  eventStatus := y.eventStatus, eventOwed := y.eventOwed, msix := y.msix, sent := y.sent, waiting := y.waiting }

/-- State s with the logs of t and the event state of its ports. -/
def State.reporting (s t : State) : State := { s with
  logs := t.logs, port0 := s.port0.reporting t.port0, port1 := s.port1.reporting t.port1 }

/-- From s to t only the logs and the event state of ports changed. -/
def Reports (s t : State) : Prop := t = s.reporting t

namespace Reports

theorem refl (s : State) : Reports s s := rfl

theorem trans {s t u : State} (h : Reports s t) (k : Reports t u) : Reports s u :=
  calc u = t.reporting u := k
    _ = (s.reporting t).reporting u := by rw [← show t = s.reporting t from h]

theorem logs_port0_port1 {s t : State} (h : Reports s t) : t = { s with logs := t.logs, port0 := t.port0, port1 := t.port1 } := by
  have ports : t.port0 = s.port0.reporting t.port0 ∧ t.port1 = s.port1.reporting t.port1 := ⟨congrArg State.port0 h, congrArg State.port1 h⟩
  obtain ⟨h0, h1⟩ := ports
  rw [h0, h1]
  exact h

theorem changes {s t : State} (h : Reports s t) : Changes [.logs, .port0, .port1] s t := logs_port0_port1 h

theorem port {s t : State} (h : Reports s t) (p : PortId) : t.port p = (s.port p).reporting (t.port p) := by
  cases p
  · exact congrArg State.port0 h
  · exact congrArg State.port1 h

theorem of_logs (s : State) (l : Logs) : Reports s { s with logs := l } := rfl

theorem raise (s : State) (p : PortId) (b : Nat) : Reports s (raiseEvent s p b) := by
  rw [raiseEvent_eq]
  cases p
  · exact congrArg (fun x => { s with port0 := x }) (Port.raise_fields s.port0 b)
  · exact congrArg (fun x => { s with port1 := x }) (Port.raise_fields s.port1 b)

theorem raise_both (s : State) (b : Nat) : Reports s (raiseEvent (raiseEvent s .p0 b) .p1 b) := (raise s .p0 b).trans (raise _ .p1 b)

theorem record (s : State) (e : LogEntry) : Reports s (recordLog s e) := by
  rw [recordLog_eq]
  exact of_logs s _

theorem write (s : State) (e : LogEntry) (ps : List PortId) : Reports s (writeLog s e ps) :=
  List.foldlRecOn ps _ (motive := Reports s) (record s e) fun _ ht p _ => ht.trans (raise _ p _)

theorem port_log (s : State) (p : PortId) (o q tag : Nat) (st : Option Status) (op : Nat) (c : BitVec 32) (e : Nat) (z : Cause) :
    Reports s (portLog s p o q tag st op c e z) := write ..

theorem device_log (s : State) (k l d : Nat) : Reports s (deviceLog s k l d) := write ..

theorem notice (s : State) (lid : Nat) : Reports s (notice s lid) := (of_logs s _).trans (raise_both _ _)

theorem noticeId (s : State) : Reports s (noticeId s) := (of_logs s _).trans (raise_both _ _)

theorem critical (s : State) (bit : Nat) (on : Bool) : Reports s (critical s bit on) := by
  unfold Machine.critical
  generalize (if on then setBit s.logs.critical bit else clearBit s.logs.critical bit) = v
  dsimp only
  split
  · exact refl s
  · exact (of_logs s _).trans (notice _ _)

theorem repair_log (s : State) (c d : Nat) : Reports s (repairLog s c d) :=
  ((device_log s _ _ _).trans (notice _ _)).trans (notice _ _)

end Reports

/-! ## What the logs hold after a report -/

@[simp] theorem raiseEvent_logs (s : State) (p : PortId) (b : Nat) : (raiseEvent s p b).logs = s.logs := by
  rw [raiseEvent_eq, State.modPort_logs]

@[simp] theorem notice_logs (s : State) (lid : Nat) : (notice s lid).logs = { s.logs with notice := setBit s.logs.notice (lid - 1) } := by
  simp [notice]

@[simp] theorem noticeId_logs (s : State) : (noticeId s).logs = { s.logs with notice := setBit s.logs.notice noticeIdentify } := by
  simp [noticeId]

theorem critical_critical (s : State) (bit : Nat) (on : Bool) :
    (critical s bit on).logs.critical = if on then setBit s.logs.critical bit else clearBit s.logs.critical bit := by
  unfold critical
  generalize (if on then setBit s.logs.critical bit else clearBit s.logs.critical bit) = v
  dsimp only
  split
  · next same => exact same.symm
  · simp

theorem getLsbD_setBit {w : Nat} (v : BitVec w) (i j : Nat) : (setBit v i).getLsbD j = (v.getLsbD j || (decide (i = j) && decide (i < w))) := by
  rw [setBit, BitVec.getLsbD_or, BitVec.getLsbD_twoPow, Bool.and_comm]

/-! ## Entries of the state's tables that a change leaves -/

section Others

variable (s : State) {m n : Nat} (h : n ≠ m)
include h

theorem State.crossing_modCrossing_ne (f : Crossing → Crossing) : (s.modCrossing m f).crossing n = s.crossing n := by
  simp [State.crossing, State.modCrossing, Tab.getD_modify, h]
theorem State.island_modIsland_ne (f : Island → Island) : (s.modIsland m f).island n = s.island n := by
  simp [State.island, State.modIsland, Tab.getD_modify, h]
theorem State.core_modCore_ne (f : Core → Core) : (s.modCore m f).core n = s.core n := by
  simp [State.core, State.modCore, Tab.getD_modify, h]
theorem State.quarter_modQuarter_ne (f : Quarter → Quarter) : (s.modQuarter m f).quarter n = s.quarter n := by
  simp [State.quarter, State.modQuarter, Tab.getD_modify, h]
theorem State.link_modLink_ne (f : Link → Link) : (s.modLink m f).link n = s.link n := by
  simp [State.link, State.modLink, State.modNet, Tab.getD_modify, h]

end Others

end Sys2Proof.Machine
end

section
/-! SUPPORT. The parts of the state that shared operations change: the memories, the cache and the events that end requests. -/

namespace Sys2Proof.Machine

open Sys2Proof

-- Proofs are checked one at a time: each that waits for its turn would hold a thread's stack.
set_option Elab.async false

/-! ## HBM and the cache -/

theorem changes_drainQueue (s : State) (c pc n : Nat) : Changes [.hbm] s (drainQueue s c pc n) := drainQueue_frame s c pc n

theorem changes_drainOn (s : State) (c pc : Nat) : Changes [.hbm] s (drainOn s c pc) := (changes_drainQueue ..).modChan _ _

theorem changes_enqueueWrite (s : State) (c : Nat) (w : QWrite) : Changes [.hbm] s (enqueueWrite s c w) := by
  unfold enqueueWrite
  refine .ite (.refl _ s) ?_
  extract_lets pc s₁ s₂
  have h₁ : Changes [.hbm] s s₁ := (Changes.refl _ s).modChan _ _
  have h₂ : Changes [.hbm] s s₂ := .ite (h₁.modChan _ _) h₁
  exact .ite (h₂.trans (changes_drainOn ..)) h₂

theorem changes_clearRtLost (s : State) (a : Nat) : Changes [.hbm] s (clearRtLost s a) := by
  unfold clearRtLost
  split <;> rfl

theorem changes_noteWritten (s : State) (a c r sector : Nat) (mask : BitVec 32) : Changes [.hbm] s (noteWritten s a c r sector mask) := by
  have marked (f : Channel → Channel) : Changes [.hbm] s (s.modChan c f) := (Changes.refl _ s).modChan _ _
  unfold noteWritten
  exact .ite (.ite ((marked _).trans (changes_clearRtLost ..)) (marked _)) (.refl _ s)

theorem changes_hbmPutAt (s : State) (a : Nat) (data : BitVec 256) (mask : BitVec 32) (level : Option Nat) :
    Changes [.hbm] s (hbmPutAt s a data mask level) := by
  unfold hbmPutAt
  split
  · exact .refl _ s
  · extract_lets c' w s₁
    have h₁ : Changes [.hbm] s s₁ := (changes_enqueueWrite ..).trans (changes_noteWritten ..)
    exact .ite (h₁.trans (changes_enqueueWrite ..)) h₁

theorem changes_hbmPut (s : State) (a : Nat) (data : BitVec 256) (mask : BitVec 32) : Changes [.hbm] s (hbmPut s a data mask) := changes_hbmPutAt ..

theorem changes_writeBack (s : State) (l : Line) : Changes [.hbm] s (writeBack s l) :=
  .foldl (fun s _ => .ite (changes_hbmPut s _ _ _) (.refl _ s)) _ s

theorem changes_evictKey (s : State) (k : Nat) : Changes [.cache, .hbm] s (evictKey s k) := by
  unfold evictKey
  split
  · exact .refl _ s
  · exact ((changes_writeBack s _).mono (by decide)).modCache _

theorem changes_drainWc (s : State) (slice line : Nat) : Changes [.cache, .hbm] s (drainWc s slice line) := by
  unfold drainWc
  split
  · exact .refl _ s
  · exact ((Changes.foldl (fun s _ => .ite (.refl _ s) (changes_hbmPut s _ _ _)) _ s).mono (by decide)).modCache _

theorem changes_flushSlice (s : State) (n : Nat) : Changes [.cache, .hbm] s (flushSlice s n) :=
  (Changes.foldl (fun s _ => changes_drainWc s _ _) _ s).trans (.foldl changes_evictKey _ _)

/-! ## Events -/

theorem changes_closeEvent (s : State) (always : Bool) (z : Cause) : Changes [.logs, .port0, .port1] s (closeEvent s always z) := by
  unfold closeEvent
  split
  · exact .refl _ s
  · extract_lets s₁
    have h₁ : Changes [.logs, .port0, .port1] s s₁ := (Changes.refl _ s).modLogs _
    split
    · exact .ite (h₁.trans (Reports.device_log ..).changes) h₁
    · exact h₁.trans (Reports.write ..).changes

/-- What an event ends changes what ending it changes, and the reports. -/
theorem changes_oneEvent {l : List Part} {f : State → State} (h : ∀ s, Changes l s (f s)) (reports : ∀ p ∈ [.logs, .port0, .port1], p ∈ l)
    (s : State) (always : Bool) (z : Cause) : Changes l s (oneEvent s always z f) := by
  unfold oneEvent
  refine .ite (h s) ?_
  exact (((Changes.refl l s).modLogs _ (reports _ (by decide))).trans (h _)).andThen (changes_closeEvent ..) reports

/-- An event in which nothing ends, and that is not logged for itself, only closes. -/
theorem oneEvent_of_nothing {s : State} {f : State → State} (h : ∀ l, f { s with logs := l } = { s with logs := l }) (z : Cause) :
    oneEvent s false z f = s := by
  unfold oneEvent
  split
  · exact h s.logs
  · next none_ =>
    have closed : s.logs.event = none := by simpa using none_
    rw [State.modLogs, h]
    change { s with logs := { s.logs with event := none } } = s
    rw [← closed]

/-! ## Links, packets and routes -/

theorem changes_sendPacket (s : State) (k : Packet) : Changes [.net] s (sendPacket s k) := by
  unfold sendPacket
  split
  · exact .ite ((Changes.refl _ s).modNet _) ((Changes.refl _ s).modLink _ _)
  · exact .refl _ s

theorem changes_sendData (s : State) (type dest txn : Nat) (payload : List Byte) : Changes [.net] s (sendData s type dest txn payload) :=
  .ite (changes_sendPacket ..) (.foldl (fun s _ => changes_sendPacket s _) _ s)

theorem changes_releaseHeld (s : State) (p : Nat) (ks : List Packet) : Changes [.net] s (releaseHeld s p ks) :=
  .ite (.refl _ s) ((Changes.refl _ s).modLink _ _)

theorem changes_setRoute (s : State) (d : Nat) (r : Route) : Changes [.net] s (setRoute s d r) := rfl

theorem changes_rerouteOne (ways : List (Nat × Table Nat)) (s : State) (d : Nat) : Changes [.net] s (rerouteOne ways s d) := by
  have taken (r : Route) (p : Nat) (ks : List Packet) : Changes [.net] s (releaseHeld (setRoute s d r) p ks) :=
    (changes_setRoute ..).trans (changes_releaseHeld ..)
  unfold rerouteOne
  extract_lets hs
  split
  · exact (Changes.refl _ s).modNet _
  · split
    · exact changes_setRoute ..
    · dsimp only
      split
      · exact .ite (taken ..) (.ite (changes_setRoute ..) (taken ..))
      · exact taken ..

theorem changes_payOwed (s : State) : Changes [.net] s (payOwed s) :=
  ((Changes.refl _ s).modNet _).trans (.foldl (fun s _ => changes_sendData s _ _ _ _) _ _)

/-- A loss that cuts off no work settles to nothing. -/
theorem settleLost_of_idle {s : State} (cmds : s.cmds = []) (borrowed : s.tiers.borrowed = []) (cut : List Nat) : settleLost s cut = s := by
  unfold settleLost
  simp only [cmds, borrowed, List.filter_nil, List.map_nil, List.flatMap_nil, List.foldl_nil]
  exact oneEvent_of_nothing (fun _ => rfl) {}

/-- Routes computed anew change the net alone, where they cut off no work. -/
theorem changes_reroute {s : State} (cmds : s.cmds = []) (borrowed : s.tiers.borrowed = []) : Changes [.net] s (reroute s) := by
  unfold reroute
  extract_lets es depth ways ds
  have routed : Changes [.net] s (ds.foldl (rerouteOne ways) s) := .foldl (changes_rerouteOne ways) ds s
  rw [settleLost_of_idle ((routed.same State.cmds).trans cmds) ((routed.same fun s => s.tiers.borrowed).trans borrowed)]
  exact routed.trans (changes_payOwed _)

end Sys2Proof.Machine
end

section
/-! SUPPORT. What a byte of the flash medium and of a tile reads after pages are programmed (R425 to R428), and the statement about programming a
tile. -/

namespace Sys2Proof.Machine

open Sys2Proof

-- Proofs are checked one at a time: each that waits for its turn would hold a thread's stack.
set_option Elab.async false

/-! ## Writes of many bytes -/

namespace Mem

theorem wf_foldl_write {β : Type} {m : Memory} (hm : wf m = true) (l : List β) (g : β → Nat) (v : β → Byte) :
    wf (l.foldl (fun m o => write m (g o) (v o)) m) = true :=
  List.foldlRecOn l _ (motive := fun m => wf m = true) hm fun _ h o _ => wf_write h (g o) (v o)

theorem read_foldl_write_ne {β : Type} (m : Memory) {l : List β} {g : β → Nat} {a : Nat} (h : ∀ o ∈ l, g o ≠ a) (v : β → Byte) :
    read (l.foldl (fun m o => write m (g o) (v o)) m) a = read m a :=
  List.foldlRecOn l _ (motive := fun n => read n a = read m a) rfl fun n hn o ho => (read_write_ne n (v o) (h o ho).symm).trans hn

/-- Where one item alone is written at an address, that address reads what the item holds. -/
theorem read_foldl_write {m : Memory} (hm : wf m = true) {l : List Nat} {g : Nat → Nat} {o : Nat} (mem : o ∈ l)
    (only : ∀ p ∈ l, g p = g o → p = o) (v : Nat → Byte) : read (l.foldl (fun m o => write m (g o) (v o)) m) (g o) = v o := by
  induction l generalizing m with
  | nil => simp at mem
  | cons p l ih =>
    have keeps := wf_write hm (g p) (v p)
    by_cases later : o ∈ l
    · exact ih keeps later fun q hq => only q (List.mem_cons_of_mem _ hq)
    · obtain rfl : o = p := (List.mem_cons.mp mem).resolve_right later
      rw [List.foldl_cons, read_foldl_write_ne _ (fun q hq eq => later (only q (List.mem_cons_of_mem _ hq) eq ▸ hq))]
      exact read_write_self hm _ _

/-- Writes of bytes that are not zero are entries set. -/
theorem foldl_write_eq_set {l : List (Nat × Byte)} (nonzero : ∀ x ∈ l, x.2 ≠ 0) (f : Nat → Nat) (m : Memory) :
    l.foldl (fun m x => write m (f x.1) x.2) m = l.foldl (fun m x => Tab.set m (f x.1) x.2) m := by
  induction l generalizing m with
  | nil => rfl
  | cons x l ih =>
    rw [List.foldl_cons, List.foldl_cons, ih fun y hy => nonzero y (List.mem_cons_of_mem _ hy), write, if_neg (nonzero x (by simp))]

theorem ne_zero_of_mem {m : Memory} (hm : wf m = true) {x : Nat × Byte} (hx : x ∈ m) : x.2 ≠ 0 := by
  have all := (Bool.and_eq_true_iff.mp hm).2
  simpa using List.all_eq_true.mp all x hx

end Mem

/-! ## A page of the medium moves (R426) -/

theorem movePage_eq (m : Memory) (src dst : Nat) :
    movePage m src dst = (m.filter fun x => decide (src ≤ x.1) && decide (x.1 < src + 16384)).foldl
      (fun m x => Mem.write m (x.1 - src + dst) x.2) m := rfl

theorem wf_movePage {m : Memory} (hm : Mem.wf m = true) (src dst : Nat) : Mem.wf (movePage m src dst) = true :=
  Mem.wf_foldl_write hm _ _ _

theorem mem_page {m : Memory} {src : Nat} {x : Nat × Byte} (hx : x ∈ m.filter fun x => decide (src ≤ x.1) && decide (x.1 < src + 16384)) :
    x ∈ m ∧ src ≤ x.1 ∧ x.1 < src + 16384 := by
  simpa using hx

theorem read_movePage_out (m : Memory) {src dst a : Nat} (out : a < dst ∨ dst + 16384 ≤ a) :
    Mem.read (movePage m src dst) a = Mem.read m a := by
  rw [movePage_eq, Mem.read_foldl_write_ne]
  intro x hx
  have := mem_page hx
  omega

theorem read_movePage {m : Memory} (hm : Mem.wf m = true) {src dst y : Nat} (hy : y < 16384) (empty : Mem.read m (dst + y) = 0) :
    Mem.read (movePage m src dst) (dst + y) = Mem.read m (src + y) := by
  have table : Tab.wf m = true := (Bool.and_eq_true_iff.mp hm).1
  have only : ∀ x ∈ m.filter fun x => decide (src ≤ x.1) && decide (x.1 < src + 16384), x.1 - src + dst = dst + y ↔ x.1 = src + y := by
    intro x hx
    have := mem_page hx
    omega
  rw [Mem.read, Tab.getD] at empty
  rw [movePage_eq, Mem.foldl_write_eq_set (fun x hx => Mem.ne_zero_of_mem hm (mem_page hx).1) fun a => a - src + dst, Mem.read, Tab.getD,
    Tab.get?_foldl_set (f := fun a => a - src + dst) (Tab.wf_filter table _) only,
    Tab.get?_filter_key m fun a => decide (src ≤ a) && decide (a < src + 16384), if_pos (by simp; omega), Mem.read, Tab.getD]
  cases Tab.get? m (src + y) with
  | some b => rfl
  | none => exact empty

/-! ## One page is programmed -/

/-- The byte at offset y of a page that programming it leaves: what the write buffer holds, or what the page had (R426). -/
def pageByte (s : State) (page y : Nat) : Byte :=
  if Tab.has s.flash.wheld (page * 16384 + y) then Mem.read s.flash.wdata (page * 16384 + y)
  else match flashLoc s page with
    | some l => Mem.read s.flash.pages (pageCell (flashDie (page / 4)) l + y)
    | none => 0

theorem Tab.mem_keys_iff {α : Type} (t : Table α) (k : Nat) : k ∈ Tab.keys t ↔ Tab.has t k = true := by
  induction t with
  | nil => simp [Tab.keys, Tab.has]
  | cons x t ih =>
    obtain ⟨j, a⟩ := x
    rw [Tab.keys, List.map_cons, List.mem_cons, Tab.has, Tab.get?]
    by_cases hj : j = k
    · simp [hj]
    · rw [if_neg hj]
      exact (or_iff_right (Ne.symm hj)).trans ih

theorem mem_heldOfPage (s : State) (page o : Nat) : o ∈ heldOfPage s page ↔ Tab.has s.flash.wheld o = true ∧ o / 16384 = page := by
  rw [heldOfPage, List.mem_filter, Tab.mem_keys_iff, beq_iff_eq]

/-- The medium with an old page's bytes moved to a location: where the page was lost or unmapped, nothing moves. -/
def movedPages (s : State) (page loc : Nat) : Memory :=
  match flashLoc s page with
  | some l => if l = lostLoc then s.flash.pages
      else movePage s.flash.pages (pageCell (flashDie (page / 4)) l) (pageCell (flashDie (page / 4)) loc)
  | none => s.flash.pages

/-- The medium after a page of the buffer is programmed at a location. -/
def programmedPages (s : State) (page loc : Nat) : Memory :=
  (heldOfPage s page).foldl
    (fun m o => Mem.write m (pageCell (flashDie (page / 4)) loc + o % 16384) (Mem.read s.flash.wdata o)) (movedPages s page loc)

theorem programPage_eq {s : State} {page : Nat} (h : flashLoc s page ≠ some lostLoc) (loc : Nat) :
    programPage s page loc = { s with flash := { s.flash with
      pages := programmedPages s page loc, map := Tab.set s.flash.map page loc
      pagesProgrammed := satAdd (2 ^ 64 - 1) s.flash.pagesProgrammed 1 } } := by
  rw [programPage]
  dsimp only
  rw [if_neg fun both => h both.1]
  rfl

section Page

variable {s : State} {page loc : Nat} (hm : Mem.wf s.flash.pages = true)
include hm

theorem wf_movedPages : Mem.wf (movedPages s page loc) = true := by
  unfold movedPages
  split
  · split
    · exact hm
    · exact wf_movePage hm _ _
  · exact hm

theorem wf_programmedPages : Mem.wf (programmedPages s page loc) = true := Mem.wf_foldl_write (wf_movedPages hm) _ _ _

omit hm in
theorem read_programmedPages_out {a : Nat} (out : a < pageCell (flashDie (page / 4)) loc ∨ pageCell (flashDie (page / 4)) loc + 16384 ≤ a) :
    Mem.read (programmedPages s page loc) a = Mem.read s.flash.pages a := by
  rw [programmedPages, Mem.read_foldl_write_ne _ (fun o _ => by omega), movedPages]
  split
  · split
    · rfl
    · exact read_movePage_out _ out
  · rfl

theorem read_programmedPages (present : flashLoc s page ≠ some lostLoc) {y : Nat} (hy : y < 16384)
    (empty : Mem.read s.flash.pages (pageCell (flashDie (page / 4)) loc + y) = 0) :
    Mem.read (programmedPages s page loc) (pageCell (flashDie (page / 4)) loc + y) = pageByte s page y := by
  have place {o : Nat} (ho : o ∈ heldOfPage s page) (eq : o % 16384 = y) : o = page * 16384 + y := by
    have := (mem_heldOfPage s page o).mp ho
    omega
  by_cases held : Tab.has s.flash.wheld (page * 16384 + y) = true
  · have mem : page * 16384 + y ∈ heldOfPage s page := (mem_heldOfPage ..).mpr ⟨held, by omega⟩
    have here : pageCell (flashDie (page / 4)) loc + (page * 16384 + y) % 16384 = pageCell (flashDie (page / 4)) loc + y := by omega
    rw [pageByte, if_pos held, programmedPages, ← here]
    exact Mem.read_foldl_write (wf_movedPages hm) (g := fun o => pageCell (flashDie (page / 4)) loc + o % 16384) mem
      (fun p hp eq => place hp (by omega)) _
  · rw [pageByte, if_neg held, programmedPages,
      Mem.read_foldl_write_ne (g := fun o => pageCell (flashDie (page / 4)) loc + o % 16384) _
        (fun o ho eq => held (place ho (Nat.add_left_cancel eq) ▸ ((mem_heldOfPage ..).mp ho).1)), movedPages]
    split
    · next l at_ =>
      rw [if_neg fun eq => present (by rw [at_, eq])]
      exact read_movePage hm hy empty
    · exact empty

end Page

/-! ## The four pages of a tile -/

/-- A state whose buffer's first n pages of a tile have been programmed at a place. -/
def programFirst (s : State) (tile loc n : Nat) : State := (List.range n).foldl (fun s k => programPage s (4 * tile + k) (loc + k)) s

theorem programFirst_succ (s : State) (tile loc n : Nat) :
    programFirst s tile loc (n + 1) = programPage (programFirst s tile loc n) (4 * tile + n) (loc + n) := by
  rw [programFirst, List.range_succ, List.foldl_append]
  rfl

/-- State u is state s with the first n pages of a tile programmed at a place. -/
structure Programmed (s : State) (tile loc n : Nat) (u : State) : Prop where
  frame : u = { s with flash := { s.flash with pages := u.flash.pages, map := u.flash.map, pagesProgrammed := u.flash.pagesProgrammed } }
  wf : Mem.wf u.flash.pages = true
  moved : ∀ k, k < n → flashLoc u (4 * tile + k) = some (loc + k)
  kept : ∀ k, n ≤ k → flashLoc u (4 * tile + k) = flashLoc s (4 * tile + k)
  bytes : ∀ k y, k < n → y < 16384 → Mem.read u.flash.pages (pageCell (flashDie tile) (loc + k) + y) = pageByte s (4 * tile + k) y
  others : ∀ l y, l < loc ∨ loc + n ≤ l → y < 16384 →
    Mem.read u.flash.pages (pageCell (flashDie tile) l + y) = Mem.read s.flash.pages (pageCell (flashDie tile) l + y)

theorem flashDie_page {tile k : Nat} (hk : k < 4) : flashDie ((4 * tile + k) / 4) = flashDie tile := by
  rw [show (4 * tile + k) / 4 = tile by omega]

theorem flashLoc_programPage {s : State} {page : Nat} (h : flashLoc s page ≠ some lostLoc) (loc p : Nat) :
    flashLoc (programPage s page loc) p = if p = page then some loc else flashLoc s p := by
  rw [programPage_eq h]
  exact Tab.get?_set ..

section Tile

variable {s : State} {tile loc : Nat} (hm : Mem.wf s.flash.pages = true)
  (present : ∀ k, k < 4 → flashLoc s (4 * tile + k) ≠ some lostLoc)
  (apart : ∀ k j, k < 4 → j < 4 → flashLoc s (4 * tile + k) ≠ some (loc + j))
  (empty : ∀ x, x < 65536 → Mem.read s.flash.pages (pageCell (flashDie tile) loc + x) = 0)
include hm present apart empty

omit hm in
theorem programmed_succ {n : Nat} {u : State} (hn : n < 4) (h : Programmed s tile loc n u) :
    Programmed s tile loc (n + 1) (programPage u (4 * tile + n) (loc + n)) := by
  obtain ⟨frame, wf, moved, kept, bytes, others⟩ := h
  have here : flashLoc u (4 * tile + n) = flashLoc s (4 * tile + n) := kept n le_rfl
  have there : flashLoc u (4 * tile + n) ≠ some lostLoc := here ▸ present n hn
  have die := flashDie_page (tile := tile) hn
  have pages : (programPage u (4 * tile + n) (loc + n)).flash.pages = programmedPages u (4 * tile + n) (loc + n) := by rw [programPage_eq there]
  have held : u.flash.wheld = s.flash.wheld ∧ u.flash.wdata = s.flash.wdata := by rw [frame]; exact ⟨rfl, rfl⟩
  have same {y : Nat} (hy : y < 16384) : pageByte u (4 * tile + n) y = pageByte s (4 * tile + n) y := by
    rw [pageByte, pageByte, held.1, held.2, here]
    split
    · rfl
    · split
      · next l at_ =>
        rw [die]
        refine others l y ?_ hy
        by_contra between
        exact apart n (l - loc) hn (by omega) (by rw [at_]; congr 1; omega)
      · rfl
  refine ⟨?_, pages ▸ wf_programmedPages wf, fun k hk => ?_, fun k hk => ?_, fun k y hk hy => ?_, fun l y hl hy => ?_⟩
  · rw [programPage_eq there, frame]
  · rw [flashLoc_programPage there]
    split
    · next eq => rw [show k = n by omega]
    · exact moved k (by omega)
  · rw [flashLoc_programPage there, if_neg (by omega)]
    exact kept k (by omega)
  · rw [pages]
    obtain rfl | lt : k = n ∨ k < n := by omega
    · rw [← die, read_programmedPages wf there hy, same hy]
      rw [die, others _ _ (by omega) hy]
      have := empty (k * 16384 + y) (by omega)
      rwa [show pageCell (flashDie tile) loc + (k * 16384 + y) = pageCell (flashDie tile) (loc + k) + y by unfold pageCell; omega] at this
    · rw [read_programmedPages_out (by rw [die]; unfold pageCell; omega)]
      exact bytes k y lt hy
  · rw [pages, read_programmedPages_out (by rw [die]; unfold pageCell; omega)]
    exact others l y (by omega) hy

theorem programmed_programFirst {n : Nat} (hn : n ≤ 4) : Programmed s tile loc n (programFirst s tile loc n) := by
  induction n with
  | zero => exact ⟨rfl, hm, fun k hk => by omega, fun _ _ => rfl, fun k _ hk => by omega, fun _ _ _ _ => rfl⟩
  | succ n ih =>
    rw [programFirst_succ]
    exact programmed_succ present apart empty hn (ih (by omega))

end Tile

/-! ## What a program leaves besides -/

theorem updateT4_eq (s : State) : ∃ st l x y, updateT4 s = { s with flash := { s.flash with state := st }, logs := l, port0 := x, port1 := y } := by
  unfold updateT4
  dsimp only
  split
  · exact ⟨s.flash.state, s.logs, s.port0, s.port1, rfl⟩
  · have reports := (((Reports.critical (s.modFlash fun f => { f with state := t4StateNow s }) critT4ReadOnly (t4StateNow s == .readOnly)).trans
      (Reports.notice _ lidFlash)).trans (Reports.notice _ lidHealth)).trans (Reports.noticeId _)
    exact ⟨_, _, _, _, reports.logs_port0_port1⟩

theorem settleImage_of_none {s : State} (h : ∀ c ∈ s.colls, c.2.pendingImage = none) (i : Nat) : settleImage s i = s := by
  unfold settleImage
  split
  · rfl
  · next c hc => rw [h (i, c) (Tab.mem_of_get? hc)]

/-- Where no image waits for its tiles, none is settled. -/
theorem settleImages_of_none {s : State} (h : ∀ c ∈ s.colls, c.2.pendingImage = none) : settleImages s = s :=
  List.foldlRecOn (Tab.keys s.colls) _ (motive := fun t => t = s) rfl fun _ ht i _ => ht ▸ settleImage_of_none h i

/-! ## What backs a tile stays clean (R399) -/

/-- What DIRTY's clearing does to an entry. -/
def TileEntry.clean (e : TileEntry) : TileEntry := if e.tier = 3 then { e with dirty := false } else e

/-- The entry has its data at a place of flash-tier space, or a clean copy (R398). -/
def TileEntry.readsAt (e : TileEntry) (l : Nat) : Bool :=
  e.kind != .index && ((e.tier == 4 && e.location == l) || (e.backed && !e.dirty && e.backing == l))

/-- Every T3 tile that a place backs is clean there. -/
def BackedClean (m : Table TileEntry) (l : Nat) : Prop :=
  ∀ e ∈ m, e.2.tier = 3 → e.2.backed = true → e.2.backing = l → e.2.dirty = false

theorem Tab.mem_adjust {α : Type} {t : Table α} {k : Nat} {f : α → α} {x : Nat × α} (h : x ∈ Tab.adjust t k f) :
    x ∈ t ∨ ∃ a, (k, a) ∈ t ∧ x = (k, f a) := by
  induction t with
  | nil => exact .inl h
  | cons y t ih =>
    obtain ⟨j, b⟩ := y
    rw [Tab.adjust] at h
    split at h
    · next eq =>
      obtain rfl := eq
      rcases List.mem_cons.mp h with rfl | h
      · exact .inr ⟨b, by simp, rfl⟩
      · exact .inl (List.mem_cons_of_mem _ h)
    · rcases List.mem_cons.mp h with rfl | h
      · exact .inl (by simp)
      · rcases ih h with h | ⟨a, ha, rfl⟩
        · exact .inl (List.mem_cons_of_mem _ h)
        · exact .inr ⟨a, List.mem_cons_of_mem _ ha, rfl⟩

/-- A change of an entry that a search would neither gain nor lose, nor find changed, leaves what the search finds. -/
theorem Tab.find?_adjust {α : Type} {t : Table α} {k : Nat} {f : α → α} {p : α → Bool}
    (same : ∀ x ∈ t, p (f x.2) = p x.2 ∧ (p x.2 = true → f x.2 = x.2)) :
    (Tab.adjust t k f).find? (fun x => p x.2) = t.find? fun x => p x.2 := by
  induction t with
  | nil => rfl
  | cons y t ih =>
    obtain ⟨j, b⟩ := y
    obtain ⟨keeps, fixed⟩ := same (j, b) (by simp)
    rw [Tab.adjust]
    split
    · rw [List.find?_cons, List.find?_cons, keeps]
      cases found : p b with
      | true => simp only [fixed found]
      | false => rfl
    · rw [List.find?_cons, List.find?_cons, ih fun x hx => same x (List.mem_cons_of_mem _ hx)]

theorem TileEntry.clean_readsAt {e : TileEntry} {l : Nat} (h : e.tier = 3 → e.backed = true → e.backing = l → e.dirty = false) :
    e.clean.readsAt l = e.readsAt l ∧ (e.readsAt l = true → e.clean = e) := by
  unfold clean
  split
  · next three =>
    by_cases here : e.backed = true ∧ e.backing = l
    · have same : { e with dirty := false } = e := by rw [← h three here.1 here.2]
      rw [same]
      exact ⟨rfl, fun _ => rfl⟩
    · have unread (d : Bool) : ({ e with dirty := d } : TileEntry).readsAt l = false := by
        simp only [readsAt, three]
        simpa using fun _ backed _ at_ => here ⟨backed, at_⟩
      rw [unread false, show e.readsAt l = false from unread e.dirty]
      simp
  · exact ⟨rfl, fun _ => rfl⟩

theorem BackedClean.adjust {m : Table TileEntry} {l : Nat} (h : BackedClean m l) (k : Nat) : BackedClean (Tab.adjust m k TileEntry.clean) l := by
  intro e he three
  rcases Tab.mem_adjust he with he | ⟨a, -, rfl⟩
  · exact h e he three
  · intro _ _
    unfold TileEntry.clean at three ⊢
    split at three
    · next t3 => simp [t3]
    · next t3 => exact absurd three t3

/-- Clearing the DIRTY bits of a tile's backings, where none is set, changes the tile map alone, and nothing that is read there. -/
theorem clearDirty_of_clean {s : State} {tile : Nat} (h : BackedClean s.tiers.map (t4Loc tile)) :
    clearDirty s tile = { s with tiers := { s.tiers with map := (clearDirty s tile).tiers.map } } ∧
    (clearDirty s tile).tiers.map.find? (fun x => x.2.readsAt (t4Loc tile)) = s.tiers.map.find? fun x => x.2.readsAt (t4Loc tile) := by
  refine (List.foldlRecOn (backedBy s tile) _ (motive := fun t : State =>
    (t = { s with tiers := { s.tiers with map := t.tiers.map } } ∧
      t.tiers.map.find? (fun x => x.2.readsAt (t4Loc tile)) = s.tiers.map.find? fun x => x.2.readsAt (t4Loc tile)) ∧
    BackedClean t.tiers.map (t4Loc tile)) ⟨⟨rfl, rfl⟩, h⟩ ?_).1
  rintro t ⟨⟨frame, finds⟩, clean⟩ k -
  split
  · exact ⟨⟨frame, finds⟩, clean⟩
  · have same : (Tab.adjust t.tiers.map k TileEntry.clean).find? (fun x => x.2.readsAt (t4Loc tile))
        = t.tiers.map.find? fun x => x.2.readsAt (t4Loc tile) :=
      Tab.find?_adjust (p := fun e => e.readsAt (t4Loc tile)) fun x hx => TileEntry.clean_readsAt (clean x hx)
    refine ⟨⟨?_, same.trans finds⟩, clean.adjust k⟩
    rw [frame]
    rfl

theorem t4ObjByte_congr {s t : State} {off : Nat} (colls : t.colls = s.colls) (scheds : t.scheds = s.scheds)
    (finds : t.tiers.map.find? (fun x => x.2.readsAt (t4Loc (off / 65536))) = s.tiers.map.find? fun x => x.2.readsAt (t4Loc (off / 65536))) :
    t4ObjByte t off = t4ObjByte s off := by
  have found (u : State) : t4ObjByte u off = (u.tiers.map.find? fun x => x.2.readsAt (t4Loc (off / 65536))).bind fun x =>
      tileByte u x.1 x.2 (off % 65536) := by
    unfold t4ObjByte
    dsimp only
    change (match u.tiers.map.find? fun x => x.2.readsAt (t4Loc (off / 65536)) with
      | some (i, e) => tileByte u i e (off % 65536) | none => none) = _
    split <;> simp [*]
  rw [found, found, finds]
  congr 1
  funext x
  unfold tileByte
  rw [colls, scheds]

/-! ## The tile is on flash -/

/-- A byte that the buffer or the page of a tile has, where no object has it. -/
theorem flashByte_eq {s : State} {off : Nat} (present : flashLoc s (off / 16384) ≠ some lostLoc)
    (clear : Tab.has s.flash.wheld off = true → t4ObjByte s off = none) :
    flashByte s off = some ((t4ObjByte s off).getD (pageByte s (off / 16384) (off % 16384))) := by
  have whole : off / 16384 * 16384 + off % 16384 = off := by omega
  unfold flashByte pageByte
  rw [whole]
  dsimp only
  split
  · next held => simp [clear held]
  · cases t4ObjByte s off with
    | some b => rfl
    | none =>
      cases flashLoc s (off / 16384) with
      | none => rfl
      | some l =>
        simp only [Option.getD_none, pageCell, flashDie]
        rw [show off / 16384 / 4 % 4 = off / 65536 % 4 by omega]

/-- A state whose write buffer holds nothing of a tile. -/
def leaveBuffer (s : State) (tile : Nat) : State := s.modFlash fun f => { f with
  wbuf := f.wbuf.filter (· != tile), issued := f.issued.filter (· != tile)
  wheld := Tab.keep f.wheld fun o _ => o / 65536 != tile, wdata := f.wdata.filter fun (o, _) => o / 65536 != tile }

/-- A state in which a block's next page is set. -/
def beginPages (s : State) (tile loc : Nat) : State :=
  modFlashBlock s (blockKeyOf s (flashDie tile) loc) fun x => { x with next := loc % 2 ^ 23 % max 1 s.flash.profile.pagesPerBlock + 4 }

/-- What ends a program that passes (R399, R428, R444). -/
def endProgram (s : State) (tile : Nat) : State :=
  if fwServes (updateT4 (clearDirty s tile)) then settleImages (updateT4 (clearDirty s tile)) else updateT4 (clearDirty s tile)

theorem programEffect_pass (s : State) (tile loc : Nat) :
    programEffect s tile loc true = endProgram (leaveBuffer (programFirst (beginPages s tile loc) tile loc 4) tile) tile := by
  have ends (u : State) : (if fwServes (updateT4 (clearDirty u tile)) then settleImages (updateT4 (clearDirty u tile))
      else updateT4 (clearDirty u tile)) = endProgram u tile := rfl
  simp only [programEffect, Bool.not_true, Bool.false_eq_true, if_false]
  exact ends _

theorem place_ne_lost {s : State} {die loc : Nat} (h : placeOk s die loc = true) {k : Nat} (hk : k < 4) : loc + k ≠ lostLoc := by
  simp only [placeOk, Bool.and_eq_true, decide_eq_true_eq] at h
  unfold lostLoc
  omega

theorem exec_flashProgram {tile loc : Nat} {s : State} (up : live s = true) (isOpen : s.flash.isOpen = true)
    (buffered : s.flash.wbuf.contains tile = true) (place : placeOk s (flashDie tile) loc = true)
    (quiet : lunReads s (lunKey (flashDie tile) loc) = []) (allowed : fwServes s = true ∨ s.flash.issued.contains tile = true) (pass : Bool) :
    exec (.flashProgram tile loc pass) s = .next (programEffect s tile loc pass) :=
  occurs_of_true (by rw [up, isOpen, buffered, place, lunQuiet, quiet]; simpa using allowed) _ s

/-- Settles O24: what programming the four pages does is known page by page, and what is read of the tile's objects is untouched. -/
theorem programmingKeepsEveryByte : Obligations.ProgrammingKeepsEveryByte := by
  unfold Obligations.ProgrammingKeepsEveryByte
  intro tile loc s up isOpen buffered place hm _ quiet allowed clean clear present apart empty settled
  refine ⟨_, exec_flashProgram up isOpen buffered place quiet allowed true, ?_⟩
  obtain ⟨frame, -, moved, -, bytes, -⟩ : Programmed (beginPages s tile loc) tile loc 4 (programFirst (beginPages s tile loc) tile loc 4) :=
    programmed_programFirst (s := beginPages s tile loc) hm present apart empty le_rfl
  rw [programEffect_pass, endProgram]
  generalize programFirst (beginPages s tile loc) tile loc 4 = u at *
  obtain ⟨dirtyFrame, finds⟩ := clearDirty_of_clean (s := leaveBuffer u tile) (tile := tile) (by rw [frame]; exact clean)
  generalize clearDirty (leaveBuffer u tile) tile = v at *
  obtain ⟨st, l, x, y, hw⟩ := updateT4_eq v
  generalize updateT4 v = w at *
  have colls : w.colls = s.colls := by rw [hw, dirtyFrame, frame]; rfl
  have scheds : w.scheds = s.scheds := by rw [hw, dirtyFrame, frame]; rfl
  have map : w.flash.map = u.flash.map := by rw [hw, dirtyFrame]; rfl
  have pages : w.flash.pages = u.flash.pages := by rw [hw, dirtyFrame]; rfl
  have wbuf : w.flash.wbuf = s.flash.wbuf.filter (· != tile) := by rw [hw, dirtyFrame, frame]; rfl
  have wheld : w.flash.wheld = s.flash.wheld.filter fun z => z.1 / 65536 != tile := by rw [hw, dirtyFrame, frame]; rfl
  have tiers : w.tiers.map.find? (fun x => x.2.readsAt (t4Loc tile)) = s.tiers.map.find? fun x => x.2.readsAt (t4Loc tile) := by
    rw [hw]
    exact finds.trans (by rw [frame]; rfl)
  rw [settleImages_of_none (s := w) (colls ▸ settled), ite_self]
  have moved (k : Nat) (hk : k < 4) : flashLoc w (4 * tile + k) = some (loc + k) := by
    rw [flashLoc, map]
    exact moved k hk
  refine ⟨moved, fun x hx => ?_, ?_, fun k hk => ?_⟩
  · have page : (tile * 65536 + x) / 16384 = 4 * tile + x / 16384 := by omega
    have free : Tab.has w.flash.wheld (tile * 65536 + x) = false := by
      rw [Tab.has, wheld, Tab.get?_filter_key s.flash.wheld fun o => o / 65536 != tile, if_neg (by simp; omega)]
      rfl
    have objects : t4ObjByte w (tile * 65536 + x) = t4ObjByte s (tile * 65536 + x) :=
      t4ObjByte_congr colls scheds (by rw [show (tile * 65536 + x) / 65536 = tile by omega]; exact tiers)
    have byte : pageByte w (4 * tile + x / 16384) (x % 16384) = pageByte s (4 * tile + x / 16384) (x % 16384) := by
      have whole : (4 * tile + x / 16384) * 16384 + x % 16384 = tile * 65536 + x := by omega
      rw [pageByte, whole, free, if_neg (by simp), moved _ (by omega), pages]
      simp only [flashDie_page (show x / 16384 < 4 by omega)]
      exact bytes _ _ (by omega) (by omega)
    have offset : (tile * 65536 + x) % 16384 = x % 16384 := by omega
    rw [flashByte_eq (by rw [page, moved _ (by omega), ne_eq, Option.some_inj]; exact place_ne_lost place (by omega)) (by simp [free]),
      flashByte_eq (by rw [page]; exact present _ (by omega)) (clear x hx), objects, page, offset, byte]
  · rw [wbuf]
    simp
  · rw [wbuf, Bool.eq_iff_iff]
    simp [hk]

end Sys2Proof.Machine
end

section
/-! SUPPORT. The host's registers (13_host_interface.md): events cleared as they arise, counter reads, mailbox submits, unmasked vectors and doorbell
writes in range, and the statements about them. -/

namespace Sys2Proof.Machine

open Sys2Proof

-- Proofs are checked one at a time: each that waits for its turn would hold a thread's stack.
set_option Elab.async false

/-! ## Events that arise in the cycle of their clear (R16) -/

/-- A port on which the events of a set arise, in order of their numbers. -/
def Port.raiseSome (x : Port) (arising : BitVec 6) (l : List Nat) : Port := l.foldl (fun x b => if arising.getLsbD b then x.raise b else x) x

theorem Port.raiseSome_fields (x : Port) (arising : BitVec 6) (l : List Nat) :
    x.raiseSome arising l = { x with
      eventStatus := (x.raiseSome arising l).eventStatus, eventOwed := (x.raiseSome arising l).eventOwed
      msix := (x.raiseSome arising l).msix, sent := (x.raiseSome arising l).sent, waiting := (x.raiseSome arising l).waiting } := by
  refine List.foldlRecOn l _ (motive := fun y : Port => y = { x with
    eventStatus := y.eventStatus, eventOwed := y.eventOwed, msix := y.msix, sent := y.sent, waiting := y.waiting }) rfl ?_
  intro y hy b _
  split
  · rw [Port.raise_fields, hy]
  · exact hy

theorem Port.raiseSome_status (x : Port) (arising : BitVec 6) (n j : Nat) (hj : j < 6) :
    (x.raiseSome arising (List.range n)).eventStatus.getLsbD j = (x.eventStatus.getLsbD j || (decide (j < n) && arising.getLsbD j)) := by
  induction n with
  | zero => simp [raiseSome]
  | succ n ih =>
    rw [raiseSome, List.range_succ, List.foldl_append, List.foldl_cons, List.foldl_nil, ← raiseSome]
    by_cases here : j = n
    · subst here
      split
      · next set => rw [Port.raise_status, getLsbD_setBit_self _ hj, set]; simp
      · next clear => simp [ih, clear]
    · have past : decide (j < n + 1) = decide (j < n) := by simp; omega
      split
      · rw [Port.raise_status, getLsbD_setBit, ih, past, decide_eq_false (Ne.symm here), Bool.false_and, Bool.or_false]
      · rw [ih, past]

theorem Port.raiseSome_all (x : Port) (arising : BitVec 6) :
    (x.raiseSome arising (List.range 6)).eventStatus = x.eventStatus ||| arising := by
  ext j hj
  rw [← BitVec.getLsbD_eq_getElem hj, ← BitVec.getLsbD_eq_getElem hj, Port.raiseSome_status x arising 6 j hj, BitVec.getLsbD_or, decide_eq_true hj,
    Bool.true_and]

/-- A port whose event bits of a mask clear, without the messages they owe. -/
def Port.clearEvents (x : Port) (gone : BitVec 6) : Port := { x with eventStatus := x.eventStatus &&& ~~~ gone, eventOwed := x.eventOwed &&& ~~~ gone }

theorem eventClearEffect_eq (s : State) (p : PortId) (mask arising : BitVec 6) :
    eventClearEffect s p mask arising =
      s.modPort p fun x => (x.clearEvents (mask &&& ~~~ arising)).raiseSome arising (List.range 6) := by
  unfold eventClearEffect
  dsimp only
  rw [foldl_raise, State.modPort_modPort]
  rfl

theorem exec_eventStatusClear (p : PortId) (mask : Word) (arising : BitVec 6) (s : State) :
    exec (.eventStatusClear p mask arising) s = occurs (barUp s p) (eventClearEffect s p (mask.setWidth 6) arising) s := rfl

/-- Settles O8: the bits that arise are not cleared, and are raised after the clear. -/
theorem eventClearLosesNone : Obligations.EventClearLosesNone := by
  unfold Obligations.EventClearLosesNone
  intro p mask arising s up
  refine ⟨_, exec_eventStatusClear p mask arising s ▸ occurs_of_true up _ s, ?_, ?_⟩
  · rw [eventClearEffect_eq, State.port_modPort, Port.raiseSome_all]
    ext j hj
    simp only [Port.clearEvents, BitVec.getElem_or, BitVec.getElem_and, BitVec.getElem_not]
    cases arising[j] <;> simp
  · rw [eventClearEffect_eq, State.port_modPort]
    exact s.modPort_congr p (Port.raiseSome_fields _ _ _)

/-! ## Counter reads, mailboxes, vectors and doorbells in range (R461, R465, R469, R470, R472) -/

theorem exec_islandCountLoRead {p : PortId} {s : State} (up : barUp s p = true) :
    exec (.islandCountLoRead p) s = .next (s.modPort p fun x => { x with
      countHi := BitVec.ofNat 32 (islandCount s (hostIsland p) / 2 ^ 32)
      sent := x.sent ++ [.regRead (BitVec.ofNat 32 (islandCount s (hostIsland p)))] }) := by
  have row : exec (.islandCountLoRead p) s = .next (islandReadEffect s p) := occurs_of_true up _ s
  rw [row]
  unfold islandReadEffect answer
  dsimp only
  rw [State.modPort_modPort]

theorem exec_mailboxSubmit {p : PortId} {m : Nat} {ctrl : Word} {s : State} (up : barUp s p = true) (hm : m < 16) (submits : ctrl.getLsbD 0 = true) :
    exec (.mailboxSubmit p m ctrl) s = .next (submitEffect s p m ctrl) :=
  occurs_of_true (by simp [up, okMailbox, hm, submits]) _ s

theorem State.modMailbox_congr (s : State) (p : PortId) (m : Nat) {f g : Mailbox → Mailbox} (h : f (s.mailbox p m) = g (s.mailbox p m)) :
    s.modMailbox p m f = s.modMailbox p m g := by
  refine s.modPort_congr p ?_
  simp only [Tab.modify]
  exact congrArg (fun y => { s.port p with mailboxes := Tab.set (s.port p).mailboxes m y }) h

/-- A SUBMIT that R472 refuses sets REFUSED, and nothing else. -/
theorem submitEffect_of_bad {s : State} {p : PortId} {m : Nat}
    (bad : (s.mailbox p m).firmware = true ∨ (s.mailbox p m).reqLen = 0 ∨ 4096 < (s.mailbox p m).reqLen) (ctrl : Word) :
    submitEffect s p m ctrl = s.modMailbox p m fun x => { x with refused := true } :=
  s.modMailbox_congr p m (if_pos (by simpa [or_assoc] using bad))

theorem submitEffect_of_good {s : State} {p : PortId} {m : Nat} (host : (s.mailbox p m).firmware = false) (low : 1 ≤ (s.mailbox p m).reqLen)
    (high : (s.mailbox p m).reqLen ≤ 4096) (ctrl : Word) :
    submitEffect s p m ctrl = s.modMailbox p m fun x => { x with
      firmware := true, started := false, vector := bitsOf ctrl.toNat 26 16, intrEn := ctrl.getLsbD 1 } :=
  s.modMailbox_congr p m (if_neg (by simp [host]; omega))

/-- Unmasking a vector sends its pending message (R470). -/
theorem exec_msixUnmask_pending {p : PortId} {v : Nat} {s : State} (up : barUp s p = true) (hv : v < 2048)
    (pending : (msixEntry s p v).pending = true) (unmasked : (s.port p).functionMask = false) (on : (s.port p).msixEnable = true) :
    exec (.msixUnmask p (.vector v)) s = .next (emit (s.modPort p fun x => { x with
      msix := Tab.set x.msix v { msixEntry s p v with masked := false, pending := false } }) p (.msix v)) := by
  have row : exec (.msixUnmask p (.vector v)) s = .next (unmaskEffect s p (.vector v)) :=
    occurs_of_true (by simp [up, okUnmask, okVector, hv]) _ s
  have entry : msixEntry (s.modPort p fun x => { x with msix := Tab.modify x.msix v {} fun m => { m with masked := false } }) p v
      = { msixEntry s p v with masked := false } := by
    simp only [msixEntry, State.port_modPort, Tab.getD_modify_self]
  rw [row, unmaskEffect, sendPending, List.foldl_cons, List.foldl_nil]
  dsimp only
  rw [entry, State.port_modPort, if_pos (by simp [pending, unmasked, on]), State.modPort_modPort]
  congr 2
  refine s.modPort_congr p ?_
  simp only [Tab.modify_modify]
  rfl

theorem exec_aggTime {p : PortId} {q : Nat} {s : State} (up : live s = true) (hq : q < 2048) (owed : 0 < (s.pair p q).unsignalled) :
    exec (.aggTime p q) s = .next (signal (s.modPair p q fun x => { x with unsignalled := 0 }) p (s.pair p q).vector) :=
  occurs_of_true (by simp [up, okPair, hq, owed]) _ s

/-- A vector that is on and unmasked is sent. -/
theorem signal_eq_emit {s : State} {p : PortId} {v : Nat} (on : (s.port p).msixEnable = true) (unmasked : (s.port p).functionMask = false)
    (clear : (msixEntry s p v).masked = false) : signal s p v = emit s p (.msix v) := by
  simp [signal, on, unmasked, clear]

theorem State.modPair_congr (s : State) (p : PortId) (q : Nat) {f g : QueuePair → QueuePair} (h : f (s.pair p q) = g (s.pair p q)) :
    s.modPair p q f = s.modPair p q g :=
  s.modPort_congr p (congrArg (fun t => { s.port p with pairs := t }) (Tab.modify_congr _ q _ h))

/-- A doorbell write in range is not refused for its queue or its value (R466). -/
theorem doorbellBad_of_inRange {x : QueuePair} {n v : Nat} (there : x.state = .active ∨ x.state = .frozen) (small : v < n) :
    doorbellBad x n v false = false := by
  rw [Bool.eq_false_iff, ne_eq, doorbellBad_iff]
  rintro (h | h | h | h)
  · cases h
  · simp [h] at there
  · simp [h] at there
  · omega

theorem sqTailEffect_of_good {s : State} {p : PortId} {q v : Nat} {narrow : Bool}
    (h : doorbellBad (s.pair p q) (s.pair p q).sqEntries v narrow = false) :
    sqTailEffect s p q v narrow = s.modPair p q fun x => { x with sqTail := v } := by
  simp [sqTailEffect, h]

theorem cqHeadEffect_of_good {s : State} {p : PortId} {q v : Nat} {narrow : Bool}
    (h : doorbellBad (s.pair p q) (s.pair p q).cqEntries v narrow = false)
    (returned : ringDist (s.pair p q).cqEntries (s.pair p q).cqHead v
      ≤ ringDist (s.pair p q).cqEntries (s.pair p q).cqHead (s.pair p q).cqTail) :
    cqHeadEffect s p q v narrow = s.modPair p q fun x => { x with cqHead := v, cqFull := x.cqFull && decide (v = x.cqHead) } := by
  simp only [cqHeadEffect, h, Bool.false_or, decide_eq_true_eq]
  rw [if_neg (by omega)]
  exact s.modPair_congr p q (by simp [beq_eq_decide])

/-- Settles O5: each register by the branch of its row that the statement's conditions select. -/
theorem hostRegistersAct : Obligations.HostRegistersAct := by
  unfold Obligations.HostRegistersAct
  refine ⟨fun p s up => ⟨exec_islandCountLoRead up, fun m ctrl hm submits => ⟨fun bad => ?_, fun host low high => ?_⟩,
    fun v hv pending unmasked on => exec_msixUnmask_pending up hv pending unmasked on, fun q hq serves owed on unmasked clear => ?_⟩,
    fun p q v s up hq there => ⟨fun small => ?_, fun small returned => ?_⟩⟩
  · rw [exec_mailboxSubmit up hm submits, submitEffect_of_bad bad]
  · rw [exec_mailboxSubmit up hm submits, submitEffect_of_good host low high]
  · rw [exec_aggTime serves hq owed, signal_eq_emit]
    · simpa using on
    · simpa using unmasked
    · simpa [msixEntry] using clear
  · have row : (barUp s p && okPair q) = true := by simp [up, okPair, hq]
    rw [exec_sqTail, occurs_of_true row, sqTailEffect_of_good (doorbellBad_of_inRange there small)]
  · have row : (barUp s p && okPair q) = true := by simp [up, okPair, hq]
    rw [exec_cqHead, occurs_of_true row, cqHeadEffect_of_good (doorbellBad_of_inRange there small) returned]

end Sys2Proof.Machine
end

section
/-! SUPPORT. Resets of the device, manufacture and the monitors (17_security_and_boot_trust.md, 18_clocks_power_reset.md): what a reset keeps, and
the statement about it. -/

namespace Sys2Proof.Machine

open Sys2Proof

-- Proofs are checked one at a time: each that waits for its turn would hold a thread's stack.
set_option Elab.async false

/-! ## What is left after a reset (R620) -/

/-- A collection that a reset keeps has no work in progress. -/
theorem coll?_afterReset {s : State} {powerOn : Bool} {i : Nat} {d : Collection} (h : (afterReset s powerOn).coll? i = some d) :
    ∃ c, d = durableColl c := by
  have listed : (i, d) ∈ durableColls s := Tab.mem_of_get? h
  obtain ⟨x, -, hx⟩ := List.mem_map.mp listed
  exact ⟨x.2, (congrArg Prod.snd hx).symm⟩

/-- No Denop port is up after a reset. -/
theorem carries_afterReset (s : State) (powerOn : Bool) (q : Nat) : carries ((afterReset s powerOn).link q) = false := by
  have link : (afterReset s powerOn).link q = ((Tab.get? s.net.links q).map fun l => { packets := l.packets, ctl := l.ctl }).getD {} := by
    rw [← Tab.get?_map]
    rfl
  rw [link]
  cases Tab.get? s.net.links q <;> rfl

/-- The registers of the trust state after a device reset: the measurements are cleared, and what is in OTP stays. -/
theorem trust_deviceReset (s : State) : (deviceReset s).trust = { s.trust with meas := [0, 0, 0, 0, 0], extends_ := 0 } := by
  have downs (l : List Nat) : (l.foldl (fun s p => leaveService s p (s.link p).excluded) s).trust = s.trust :=
    foldl_trust _ (fun s p => (leaveService_fixed s p _).2) l s
  have reset (u : State) : (afterReset u false).trust = { u.trust with meas := [0, 0, 0, 0, 0], extends_ := 0 } := rfl
  rw [deviceReset, reset, downs]

theorem exec_railFault {rail : Nat} {above : Bool} {s : State} (up : s.power.pwrok = true) (hr : rail < 17) :
    exec (.railFault rail above) s = .next (railEffect s rail above) :=
  occurs_of_true (by simp [up, okRail, hr]) _ s

/-- The rows that end in a device reset, with the conditions under which they do. -/
theorem exec_deviceReset {c : Instr} {s : State} (up : s.power.pwrok = true)
    (h : (c = .deviceReset .firmware ∧ live s = true) ∨ (∃ ns, c = .deviceReset (.pin ns) ∧ 1000 ≤ ns ∧ mayReset s = true) ∨
      (c = .sbDeviceReset 0x5E7A ∧ sbUp s = true ∧ mayReset s = true)) : exec c s = .next (deviceReset s) := by
  rcases h with ⟨rfl, serves⟩ | ⟨ns, rfl, long, may⟩ | ⟨rfl, answers, may⟩
  · exact occurs_of_true serves _ s
  · change (if s.power.pwrok then occurs (mayReset s && decide (1000 ≤ ns)) (deviceReset s) s
      else occurs true (s.modPower fun p => { p with devrstN := false }) s) = _
    rw [if_pos up, occurs_of_true (by simp [may, long])]
  · exact occurs_of_true (by rw [answers, may]; decide) _ s

theorem exec_devicePin {ns : Nat} {s : State} :
    exec (.deviceReset (.pin ns)) s = if s.power.pwrok then occurs (mayReset s && decide (1000 ≤ ns)) (deviceReset s) s
      else occurs true (s.modPower fun p => { p with devrstN := false }) s := rfl

/-- Settles O57: what a reset leaves is read off the state after it; the rows used once by their conditions. -/
theorem resetsKeepWhatSurvives : Obligations.ResetsKeepWhatSurvives := by
  unfold Obligations.ResetsKeepWhatSurvives
  refine ⟨⟨?_, ?_, fun ns s short up => ?_, fun ns s down => ?_⟩, fun s up => ?_, fun m s hm => ⟨fun fresh => ?_, fun used => ?_⟩, fun s up idle => ?_,
    fun c s serves hc => ?_⟩
  · rintro c rail s up (⟨rfl, rfl⟩ | ⟨r, above, rfl, hr, rfl⟩)
    · exact ⟨_, occurs_of_true up _ s, rfl, rfl, rfl, rfl, rfl, rfl, rfl, rfl, rfl, rfl, rfl, rfl, rfl, rfl, rfl, rfl, rfl, rfl, rfl, rfl,
        Bool.and_false _, rfl, rfl, rfl, fun i d hd => by obtain ⟨c, rfl⟩ := coll?_afterReset hd; exact ⟨rfl, rfl, rfl⟩⟩
    · refine ⟨_, exec_railFault up hr, ?_⟩
      unfold railEffect
      dsimp only
      split
      all_goals exact ⟨rfl, rfl, rfl, rfl, rfl, rfl, rfl, rfl, rfl, rfl, rfl, rfl, rfl, rfl, rfl, rfl, rfl, rfl, rfl, rfl, Bool.and_false _, rfl, rfl,
        rfl, fun i d hd => by obtain ⟨c, rfl⟩ := coll?_afterReset (s := s) (powerOn := true) hd; exact ⟨rfl, rfl, rfl⟩⟩
  · intro c s up h
    have trust := trust_deviceReset s
    exact ⟨_, exec_deviceReset up h, rfl, rfl, rfl, rfl, rfl, rfl, rfl, rfl, rfl, carries_afterReset _ _, rfl, congrArg Trust.uds trust,
      congrArg Trust.lifecycle trust, congrArg Trust.counter0 trust, congrArg Trust.counter1 trust⟩
  · rw [exec_devicePin, if_pos up, occurs_of_false (by simp; omega)]
  · rw [exec_devicePin, if_neg (by simp [down])]
    exact occurs_of_true rfl _ s
  · exact occurs_of_true up _ s
  · exact ⟨_, occurs_of_true (by simp [fresh, hm]) _ s, rfl, rfl, rfl, rfl, rfl, rfl, rfl, rfl⟩
  · exact occurs_of_false (by simp [used]) _ s
  · refine ⟨_, occurs_of_true up _ s, ?_⟩
    have frame := (Reports.device_log (s.modPower fun p => { p with pmbAlerts := p.pmbAlerts + 1 }) kindIsland 102 0).logs_port0_port1
    have newest : (deviceLog (s.modPower fun p => { p with pmbAlerts := p.pmbAlerts + 1 }) kindIsland 102 0).logs.entries.getLast?
        = some { deviceEntry (s.modPower fun p => { p with pmbAlerts := p.pmbAlerts + 1 }) kindIsland 102 0 with seq := s.logs.total + 1 } := by
      rw [deviceLog, writeLog_both]
      exact recordLog_idle (s := s.modPower fun p => { p with pmbAlerts := p.pmbAlerts + 1 }) idle _
    generalize deviceLog (s.modPower fun p => { p with pmbAlerts := p.pmbAlerts + 1 }) kindIsland 102 0 = t at *
    exact ⟨by rw [frame]; rfl, ⟨_, newest, rfl, rfl⟩, by rw [frame]; rfl⟩
  · exact ⟨_, occurs_of_true (by simp [serves, okCrossing, hc]) _ s, State.crossing_modCrossing s c _,
      fun x hx => s.crossing_modCrossing_ne hx _, rfl⟩

end Sys2Proof.Machine
end

section
/-! SUPPORT. In-service repair of cores, quarters and collections, and the sideband's transactions (17_security_and_boot_trust.md,
18_clocks_power_reset.md, 19_reliability_and_repair.md), and the statement about them. -/

namespace Sys2Proof.Machine

open Sys2Proof

-- Proofs are checked one at a time: each that waits for its turn would hold a thread's stack.
set_option Elab.async false

/-! ## The sideband (R603, R618, R660, R669) -/

namespace Mem

@[simp] theorem length_readN (m : Memory) (a n : Nat) : (readN m a n).length = n := by
  induction n generalizing a with
  | zero => rfl
  | succ n ih => simp [readN, ih]

theorem getElem_readN (m : Memory) (a n i : Nat) (h : i < (readN m a n).length) : (readN m a n)[i] = read m (a + i) := by
  induction n generalizing a i with
  | zero => simp at h
  | succ n ih =>
    cases i with
    | zero => rfl
    | succ i =>
      have next := ih (a + 1) i (by simpa [readN] using h)
      simpa [readN, Nat.add_assoc, Nat.add_comm 1 i] using next

theorem readN_writeN {m : Memory} (h : wf m = true) (a : Nat) (l : List Byte) : readN (writeN m a l) a l.length = l := by
  refine List.ext_getElem (by simp) fun i hi hl => ?_
  rw [getElem_readN, read_writeN h a i l hl]

end Mem

theorem pad_of_length {n : Nat} {l : List Byte} (h : l.length = n) : pad n l = l := by
  subst h
  simp [pad, slice]

theorem exec_sbBlockWrite {bytes : List Byte} {s : State} (up : sbUp s = true) (short : bytes.length ≤ 32) :
    exec (.sbBlockWrite bytes) s = .next (s.modSb fun x => { x with
      buf := if x.firmware then x.buf else Mem.writeN x.buf x.offset (bytes.take (inBuffer x.offset bytes.length))
      offset := x.offset + bytes.length }) := occurs_of_true (by simp [up, short]) _ s

theorem exec_sbBlockRead {n : Nat} {s : State} (up : sbUp s = true) (short : n ≤ 32) :
    exec (.sbBlockRead n) s = .next (s.modSb fun x => { x with
      returned := if x.firmware then List.replicate n 0 else pad n (Mem.readN x.buf x.offset (inBuffer x.offset n))
      offset := x.offset + n }) := occurs_of_true (by simp [up, short]) _ s

/-- A block write leaves what lies outside of it. -/
theorem read_sbBlockWrite (x : Sideband) (bytes : List Byte) {a : Nat} (out : ¬ (x.offset ≤ a ∧ a < x.offset + bytes.length)) :
    Mem.read (if x.firmware then x.buf else Mem.writeN x.buf x.offset (bytes.take (inBuffer x.offset bytes.length))) a = Mem.read x.buf a := by
  split
  · rfl
  · exact Mem.read_writeN_ne _ _ (by rw [List.length_take]; omega)

theorem inBuffer_of_le {off n : Nat} (h : off + n ≤ 4096) : inBuffer off n = n := by
  unfold inBuffer
  omega

theorem exec_sbSubmit {len : BitVec 16} {s : State} (up : sbUp s = true) :
    exec (.sbSubmit len) s = .next (s.modSb fun x =>
      if x.firmware then { x with refused := true }
      else if len = 0 ∨ 4096 < len.toNat then { x with reqLen := len.toNat, refused := true }
      else { x with reqLen := len.toNat, firmware := true, started := false }) := occurs_of_true up _ s

theorem State.modSb_congr (s : State) {f g : Sideband → Sideband} (h : f s.sideband = g s.sideband) : s.modSb f = s.modSb g :=
  congrArg (fun x => { s with sideband := x }) h

/-! ## Tables whose entries all change -/

namespace Tab

variable {α β : Type}

@[simp] theorem get?_mapKeys (t : Table α) (f : Nat → α → β) (k : Nat) : get? (mapKeys t f) k = (get? t k).map (f k) := by
  induction t with
  | nil => rfl
  | cons x t ih =>
    obtain ⟨j, a⟩ := x
    by_cases here : j = k
    · simp [mapKeys, get?, here]
    · have rest : get? (t.map fun (i, a) => (i, f i a)) k = (get? t k).map (f k) := ih
      simp [mapKeys, get?, here, rest]

end Tab

/-! ## A core is spared (R247, R248, R636) -/

/-- The state in which a failed core's number goes to the spare, or is absent, before the log entry. -/
def sparedCore (s : State) (n : Nat) : State :=
  let s : State := { s.modCore n fun x => { x with forgot := none, selectForgot := none } with localStore := dropLocal s.localStore n }
  if (s.quarter (n / 64)).spareUsed then s.modCore n fun x => { x with absent := true }
  else s.modQuarter (n / 64) fun x => { x with spareUsed := true }

theorem reports_spareCore (s : State) (n : Nat) : Reports (sparedCore s n) (spareCore s n) := Reports.device_log ..

theorem sparedCore_of_used {s : State} {n : Nat} (used : (s.quarter (n / 64)).spareUsed = true) :
    sparedCore s n = { s.modCore n fun x => { x with forgot := none, selectForgot := none, absent := true } with
      localStore := dropLocal s.localStore n } := by
  refine (if_pos used).trans ?_
  simp [State.modCore]

theorem sparedCore_of_free {s : State} {n : Nat} (free : (s.quarter (n / 64)).spareUsed = false) :
    sparedCore s n = { (s.modCore n fun x => { x with forgot := none, selectForgot := none }).modQuarter (n / 64) fun x =>
      { x with spareUsed := true } with localStore := dropLocal s.localStore n } :=
  if_neg (by simp [State.quarter] at free ⊢; exact free)

theorem changes_sparedCore (s : State) (n : Nat) : Changes [.cores, .quarters, .localStore] s (sparedCore s n) := by
  cases used : (s.quarter (n / 64)).spareUsed with
  | true => rw [sparedCore_of_used used]; rfl
  | false => rw [sparedCore_of_free used]; rfl

theorem sparedCore_core (s : State) (n : Nat) :
    (sparedCore s n).core n = { s.core n with
      forgot := none, selectForgot := none, absent := (s.core n).absent || (s.quarter (n / 64)).spareUsed } := by
  cases used : (s.quarter (n / 64)).spareUsed with
  | true => simp [sparedCore_of_used used, State.core, State.modCore]
  | false => simp [sparedCore_of_free used, State.core, State.modCore, State.modQuarter]

theorem sparedCore_core_ne (s : State) {n m : Nat} (h : m ≠ n) : (sparedCore s n).core m = s.core m := by
  cases used : (s.quarter (n / 64)).spareUsed with
  | true => simp [sparedCore_of_used used, State.core, State.modCore, Tab.getD_modify, h]
  | false => simp [sparedCore_of_free used, State.core, State.modCore, State.modQuarter, Tab.getD_modify, h]

theorem sparedCore_quarter (s : State) (n : Nat) :
    (sparedCore s n).quarter (n / 64) = { s.quarter (n / 64) with spareUsed := true } := by
  cases used : (s.quarter (n / 64)).spareUsed with
  | true => rw [sparedCore_of_used used]; change s.quarter (n / 64) = _; rw [← used]
  | false => simp [sparedCore_of_free used, State.quarter, State.modCore, State.modQuarter]

theorem sparedCore_quarter_ne (s : State) {n q : Nat} (h : q ≠ n / 64) : (sparedCore s n).quarter q = s.quarter q := by
  cases used : (s.quarter (n / 64)).spareUsed with
  | true => rw [sparedCore_of_used used]; rfl
  | false => simp [sparedCore_of_free used, State.quarter, State.modCore, State.modQuarter, Tab.getD_modify, h]

theorem sparedCore_localStore (s : State) (n : Nat) : (sparedCore s n).localStore = dropLocal s.localStore n := by
  cases used : (s.quarter (n / 64)).spareUsed with
  | true => rw [sparedCore_of_used used]
  | false => rw [sparedCore_of_free used]

/-- At most one more core of a quarter is absent where one core alone changed. -/
theorem absentCores_le {s t : State} {n : Nat} (same : ∀ m, m ≠ n → t.core m = s.core m) (q : Nat) : absentCores t q ≤ absentCores s q + 1 := by
  have count (l : List Nat) (nodup : l.Nodup) :
      l.countP (fun k => (t.core (q * 64 + k)).absent) ≤ l.countP (fun k => (s.core (q * 64 + k)).absent) + 1 ∧
      (n - q * 64 ∉ l → l.countP (fun k => (t.core (q * 64 + k)).absent) ≤ l.countP fun k => (s.core (q * 64 + k)).absent) := by
    induction l with
    | nil => simp
    | cons k l ih =>
      obtain ⟨fresh, nodup⟩ := List.nodup_cons.mp nodup
      obtain ⟨more, fewer⟩ := ih nodup
      rw [List.countP_cons, List.countP_cons]
      by_cases here : q * 64 + k = n
      · have k_eq : n - q * 64 = k := by omega
        have least := fewer (k_eq ▸ fresh)
        exact ⟨by split <;> omega, fun out => absurd (by simp [k_eq]) out⟩
      · rw [same _ here]
        exact ⟨by omega, fun out => by have := fewer (fun h => out (List.mem_cons_of_mem _ h)); omega⟩
  rw [absentCores, absentCores, ← List.countP_eq_length_filter, ← List.countP_eq_length_filter]
  exact (count _ List.nodup_range).1

/-- The state of a core that starts anew. -/
def freshCore (s : State) (n : Nat) : State := s.modCore n fun x => { x with faulted := false, alleyDone := 0, alleyErr := 0 }

/-- Where few cores are absent, CORE_SPARE spares the core and reports it. -/
theorem coreSpareEffect_of_few {s : State} {n : Nat} (few : absentCores s (n / 64) < 8) :
    coreSpareEffect s n = notice (spareCore (freshCore s n) n) lidHealth ∨
    coreSpareEffect s n = noticeId (notice (spareCore (freshCore s n) n) lidHealth) := by
  have same (m : Nat) (h : m ≠ n) : (spareCore (freshCore s n) n).core m = s.core m := by
    have core : (spareCore (freshCore s n) n).core m = (sparedCore (freshCore s n) n).core m :=
      (reports_spareCore (freshCore s n) n).changes.same fun s => s.core m
    rw [core]
    exact (sparedCore_core_ne _ h).trans (s.core_modCore_ne h _)
  have stays : ¬ 8 < absentCores (spareCore (freshCore s n) n) (n / 64) := by
    have := absentCores_le same (n / 64)
    omega
  rw [freshCore] at stays ⊢
  unfold coreSpareEffect
  simp only [if_neg stays]
  split
  · exact .inl rfl
  · exact .inr rfl

theorem deviceLog_newest {s : State} (idle : s.security.activating = none) (kind loc detail : Nat) :
    (deviceLog s kind loc detail).logs.entries.getLast? = some { deviceEntry s kind loc detail with seq := s.logs.total + 1 } := by
  rw [deviceLog, writeLog_both]
  exact recordLog_idle idle _

/-- The row of a failed core in a quarter with few absent ones. -/
theorem exec_coreSpare_of_few {n : Nat} {why : CoreFailure} {s : State} (serves : fwServes s = true) (hn : n < 4096) (usable : coreUsable s n = true)
    (noBatch : (s.core n).batch = none) (noRun : (s.core n).run = none) (counts : failureCounts s n why = true)
    (few : absentCores s (n / 64) < 8) :
    ∃ t, exec (.coreSpare n why) s = .next t ∧ (t.core n).absent = (s.quarter (n / 64)).spareUsed ∧ (t.quarter (n / 64)).spareUsed = true ∧
      (t.core n).faulted = false ∧ (∀ m, m ≠ n → t.core m = s.core m) ∧ (∀ q, q ≠ n / 64 → t.quarter q = s.quarter q) ∧
      t.localStore = s.localStore.filter (fun y => y.1 / 2 ^ 18 != n) ∧
      (∃ e, e ∈ t.logs.entries ∧ e.kind = kindSparing ∧ e.location = n / 64) ∧
      t = { s with
        cores := t.cores, quarters := t.quarters, localStore := t.localStore, logs := t.logs, port0 := t.port0, port1 := t.port1 } := by
  have row : exec (.coreSpare n why) s = .next (coreSpareEffect s n) :=
    occurs_of_true (by simp [serves, okCore, hn, usable, noBatch, noRun, counts]) _ s
  have idle : s.security.activating = none := by simpa [fwServes] using (Bool.and_eq_true_iff.mp serves).2
  have present : (s.core n).absent = false := by simpa [coreUsable] using (Bool.and_eq_true_iff.mp usable).1
  have fresh : (freshCore s n).core n = { s.core n with faulted := false, alleyDone := 0, alleyErr := 0 } := State.core_modCore s n _
  refine ⟨_, row, ?_⟩
  clear row
  have reports : Reports (sparedCore (freshCore s n) n) (coreSpareEffect s n) := by
    rcases coreSpareEffect_of_few few with h | h <;> rw [h]
    · exact (reports_spareCore ..).trans (Reports.notice ..)
    · exact ((reports_spareCore ..).trans (Reports.notice ..)).trans (Reports.noticeId _)
  have entries : (coreSpareEffect s n).logs.entries = (spareCore (freshCore s n) n).logs.entries := by
    rcases coreSpareEffect_of_few few with h | h <;> simp [h]
  have frame : Changes [.cores, .quarters, .localStore, .logs, .port0, .port1] s (coreSpareEffect s n) :=
    (((Changes.refl _ s).modCore n _).andThen (changes_sparedCore (freshCore s n) n)).andThen reports.changes
  have idle' : (sparedCore (freshCore s n) n).security.activating = none := by
    rw [(changes_sparedCore (freshCore s n) n).same State.security]
    exact idle
  have logged := deviceLog_newest idle' kindSparing (n / 64)
    (n + (if ((sparedCore (freshCore s n) n).core n).absent then n else 4096 + n / 64) * 2 ^ 64)
  have core (m : Nat) : (coreSpareEffect s n).core m = (sparedCore (freshCore s n) n).core m := reports.changes.same fun s => s.core m
  have quarter (q : Nat) : (coreSpareEffect s n).quarter q = (sparedCore (freshCore s n) n).quarter q := reports.changes.same fun s => s.quarter q
  generalize coreSpareEffect s n = t at *
  refine ⟨?_, ?_, ?_, fun m hm => ?_, fun q hq => ?_, ?_, ⟨_, entries ▸ List.mem_of_getLast? logged, rfl, rfl⟩, frame⟩
  · rw [core, sparedCore_core, fresh]
    simp only [present, Bool.false_or]
    rfl
  · rw [quarter, sparedCore_quarter]
  · rw [core, sparedCore_core, fresh]
  · rw [core, sparedCore_core_ne _ hm]
    exact s.core_modCore_ne hm _
  · rw [quarter, sparedCore_quarter_ne _ hq]
    rfl
  · rw [reports.changes.same State.localStore, sparedCore_localStore]
    rfl

/-! ## A quarter is repaired (R637, R638, R640) -/

theorem changes_fatal (s : State) (kind loc detail : Nat) :
    Changes [.logs, .port0, .port1, .security, .power, .net] s (fatal s kind loc detail) := by
  unfold fatal
  extract_lets s₁ s₂ s₃ s₄
  have h₁ : Changes [.logs, .port0, .port1, .security, .power, .net] s s₁ := (Reports.device_log ..).changes.mono (by decide)
  have h₄ : Changes [.logs, .port0, .port1, .security, .power, .net] s s₄ := ((h₁.modSec _).modPower _).modNet _
  exact h₄.andThen ((Reports.critical ..).trans (Reports.raise_both ..)).changes

/-- The parts that a quarter's leave or return changes besides the quarters' own. -/
def quarterParts : List Part := [.quarters, .cache, .hbm, .logs, .port0, .port1, .security, .power, .net, .pieces, .streams, .engines, .islands]

/-- From s to t the quarters alone changed among what a leave or a return changes, and each is in service as before. -/
def KeepsService (s t : State) : Prop := Changes quarterParts s t ∧ ∀ q, (t.quarter q).inService = (s.quarter q).inService

namespace KeepsService

variable {s t u : State}

theorem refl (s : State) : KeepsService s s := ⟨.refl _ s, fun _ => rfl⟩

theorem trans (h : KeepsService s t) (k : KeepsService t u) : KeepsService s u := ⟨h.1.trans k.1, fun q => (k.2 q).trans (h.2 q)⟩

theorem of_changes {l : List Part} (h : Changes l s t) (sub : ∀ f ∈ l, f ∈ quarterParts := by decide) (other : Part.quarters ∉ l := by decide) :
    KeepsService s t := by
  refine ⟨h.mono sub, fun q => congrArg (fun x : Table Quarter => (Tab.getD x q {}).inService) ((congrArg State.quarters h).trans ?_)⟩
  simp [State.take, other]

theorem modQuarter (s : State) (n : Nat) {f : Quarter → Quarter} (same : ∀ x, (f x).inService = x.inService) : KeepsService s (s.modQuarter n f) := by
  refine ⟨((Changes.refl _ s).modQuarter n f), fun q => ?_⟩
  by_cases h : q = n
  · rw [h, State.quarter_modQuarter, same]
  · rw [State.quarter_modQuarter_ne _ h]

theorem foldl {α : Type} {g : State → α → State} (h : ∀ s a, KeepsService s (g s a)) (as : List α) (s : State) : KeepsService s (as.foldl g s) :=
  List.foldlRecOn as g (motive := KeepsService s) (refl s) fun t ht a _ => ht.trans (h t a)

theorem assignSubs (l : List Nat) (s : State) : KeepsService s (assignSubs l s) := by
  induction l generalizing s with
  | nil => exact refl s
  | cons n l ih =>
    unfold Machine.assignSubs
    split
    · exact (modQuarter s n (f := fun x => { x with substitute := some _ }) fun _ => rfl).trans (ih _)
    · exact of_changes (changes_fatal ..)

theorem settleSub (s : State) (n : Nat) : KeepsService s (settleSub s n) := by
  unfold Machine.settleSub
  split
  · exact refl s
  · extract_lets new s₁
    split
    · exact refl s
    · have h₁ : KeepsService s s₁ := by
        simp only [s₁]
        split
        · exact of_changes (changes_flushSlice ..)
        · exact refl s
      exact h₁.trans (modQuarter _ n (f := fun x => { x with substitute := new }) fun _ => rfl)

theorem settleClocks (s : State) : KeepsService s s.settleClocks := by
  refine ⟨rfl, fun q => ?_⟩
  have quarters : s.settleClocks.quarters = Tab.mapKeys s.quarters fun q x => { x with
      cap := capOf x
      clock := if (s.island q).state == .run then max (min (clockDemand s) (capOf x)) (checkFloor s q) else x.clock } := rfl
  rw [State.quarter, quarters, Tab.getD, Tab.get?_mapKeys, State.quarter, Tab.getD]
  cases Tab.get? s.quarters q <;> rfl

end KeepsService

theorem changes_releaseBlock (s : State) (slice block : Nat) : Changes [.cache] s (releaseBlock s slice block) := rfl

theorem changes_dropStreams (s : State) (q : Nat) :
    Changes [.port0, .port1, .cache, .pieces, .streams, .engines] s (dropStreams s q) := by
  unfold dropStreams
  extract_lets ps s₁ bs s₂
  have h₁ : Changes [.port0, .port1, .cache, .pieces, .streams, .engines] s s₁ :=
    .foldl (fun s _ => .ite (.refl _ s) ((Changes.refl _ s).modPort _ _)) _ s
  have h₂ : Changes [.port0, .port1, .cache, .pieces, .streams, .engines] s s₂ :=
    h₁.andThen (.foldl (fun s _ => changes_releaseBlock s _ _) _ _)
  exact h₂.trans rfl

/-- A quarter on which nothing runs loses its streams alone. -/
theorem endQuarterWork_of_idle {s : State} (batches : s.batches = []) (runs : s.runs = []) (q : Nat) : endQuarterWork s q = dropStreams s q := by
  rw [endQuarterWork]
  congr 1
  refine oneEvent_of_nothing (fun l => ?_) _
  simp [batches, runs]

theorem unloadUnfit_of_none {s : State} (h : s.scheds = []) : unloadUnfit s = s := by
  simp [unloadUnfit, h]

section Idle

variable {s : State} (batches : s.batches = []) (runs : s.runs = []) (scheds : s.scheds = [])
include batches runs

theorem keepsService_emptied (q : Nat) : KeepsService s (flushSlice (endQuarterWork s q) q) := by
  rw [endQuarterWork_of_idle batches runs]
  exact (KeepsService.of_changes (changes_dropStreams s q)).trans (.of_changes (changes_flushSlice ..))

include scheds

/-- A quarter on which nothing runs leaves service. -/
theorem quarterOut_of_idle (q : Nat) : Changes quarterParts s (quarterOut s q) ∧ ((quarterOut s q).quarter q).inService = false := by
  unfold quarterOut
  split
  · next out => exact ⟨.refl _ s, by simpa using out⟩
  · extract_lets s₁ s₂ moved s₃ s₄ s₅
    have h₁ : KeepsService s s₁ := keepsService_emptied batches runs q
    have h₂ : Changes quarterParts s s₂ := h₁.1.modQuarter q _
    have out₂ : (s₂.quarter q).inService = false := by rw [State.quarter_modQuarter]
    have h₃ : KeepsService s₂ s₃ := .foldl (fun s n => .modQuarter s n (f := fun x => { x with substitute := none }) fun _ => rfl) moved s₂
    have after : KeepsService s₂ s₅ :=
      (h₃.trans (.assignSubs moved s₃)).trans (.of_changes ((Reports.critical s₄ _ _).trans (Reports.device_log ..)).changes)
    have h₅ : Changes quarterParts s s₅ := h₂.trans after.1
    rw [unloadUnfit_of_none ((h₅.same State.scheds).trans scheds)]
    have told : KeepsService s₂ (noticeId (notice s₅ lidHealth)) :=
      after.trans (.of_changes ((Reports.notice s₅ _).trans (Reports.noticeId _)).changes)
    exact ⟨h₂.trans told.1, (told.2 q).trans out₂⟩

end Idle

/-- A quarter returns to service. -/
theorem returnQuarter_inService (s : State) (q : Nat) :
    Changes quarterParts s (returnQuarter s q) ∧ ((returnQuarter s q).quarter q).inService = true := by
  unfold returnQuarter
  extract_lets s₁ s₂ s₃
  have h₁ : Changes quarterParts s s₁ := by
    simp only [s₁]
    split
    · exact (changes_flushSlice ..).mono (by decide)
    · exact .refl _ s
  have h₂ : Changes quarterParts s s₂ := h₁.modQuarter q _
  have in₂ : (s₂.quarter q).inService = true := by rw [State.quarter_modQuarter]
  have after : KeepsService s₂ _ :=
    (KeepsService.foldl KeepsService.settleSub (List.range 64) s₂).trans
      (.of_changes (Reports.critical s₃ critQuarter ((List.range 64).any fun n => !(s₃.quarter n).inService)).changes)
  exact ⟨h₂.trans after.1, (after.2 q).trans in₂⟩

/-- A quarter whose cores are tested anew: their local stores are gone. -/
def retested (s : State) (q : Nat) : State :=
  { s with
    localStore := s.localStore.filter fun (a, _) => a / 2 ^ 18 / 64 != q
    cores := s.cores.map fun (n, x) => (n, if n / 64 = q then
      { x with alleyDone := 0, alleyErr := 0, forgot := some s.free, selectForgot := some s.free, faulted := false } else x)
    free := s.free + 1 }

theorem absentCores_retested (s : State) (q k : Nat) : absentCores (retested s q) k = absentCores s k := by
  have core (m : Nat) : ((retested s q).core m).absent = (s.core m).absent := by
    have cores : (retested s q).cores = Tab.mapKeys s.cores fun n x => if n / 64 = q then
      { x with alleyDone := 0, alleyErr := 0, forgot := some s.free, selectForgot := some s.free, faulted := false } else x := rfl
    rw [State.core, cores, Tab.getD, Tab.get?_mapKeys, State.core, Tab.getD]
    cases Tab.get? s.cores m with
    | none => rfl
    | some x => simp only [Option.map_some, Option.getD_some]; split <;> rfl
  simp only [absentCores, core]

/-- The quarter is in service after a repair that passes, and out of it after one that fails. -/
theorem quarterRepairEffect_nil {s : State} (batches : s.batches = []) (runs : s.runs = []) (scheds : s.scheds = []) {q : Nat}
    (few : absentCores s q ≤ 8) (pass : Bool) :
    Changes (quarterParts ++ [.localStore, .cores, .free]) s (quarterRepairEffect s q [] pass) ∧
      ((quarterRepairEffect s q [] pass).quarter q).inService = pass ∧
      (quarterRepairEffect s q [] pass).localStore = s.localStore.filter fun (a, _) => a / 2 ^ 18 / 64 != q := by
  unfold quarterRepairEffect
  extract_lets was s₁ s₂ s₃ s₄
  have emptied : KeepsService s s₁ := keepsService_emptied batches runs q
  clear_value s₁
  have s₄_eq : s₄ = retested s₁ q := rfl
  clear_value s₄
  subst s₄_eq
  clear s₃ s₂
  have h₄ : Changes (quarterParts ++ [.localStore, .cores, .free]) s (retested s₁ q) := (emptied.1.mono (by decide)).trans rfl
  have service : ((retested s₁ q).quarter q).inService = was := emptied.2 q
  have store : (retested s₁ q).localStore = s.localStore.filter fun (a, _) => a / 2 ^ 18 / 64 != q := by
    rw [← emptied.1.same State.localStore]
    rfl
  have few₄ : absentCores (retested s₁ q) q ≤ 8 := by
    rw [absentCores_retested, emptied.1.same fun s => absentCores s q]
    exact few
  clear emptied
  generalize retested s₁ q = u at *
  cases pass with
  | false =>
    obtain ⟨left, out⟩ := quarterOut_of_idle (s := u) (h₄.same State.batches |>.trans batches) (h₄.same State.runs |>.trans runs)
      (h₄.same State.scheds |>.trans scheds) q
    exact ⟨h₄.andThen left, out, (left.same State.localStore).trans store⟩
  | true =>
    simp only [few₄, decide_true, Bool.true_and, if_true]
    cases inService : was with
    | true =>
      have told : KeepsService u (notice u lidHealth) := .of_changes (Reports.notice ..).changes
      exact ⟨h₄.andThen told.1, (told.2 q).trans (service.trans inService), (told.1.same State.localStore).trans store⟩
    | false =>
      obtain ⟨back, up⟩ := returnQuarter_inService u q
      have told : KeepsService (returnQuarter u q) (noticeId (notice (deviceLog (returnQuarter u q).settleClocks kindSparing q 0) lidHealth)) :=
        (KeepsService.settleClocks _).trans
          (.of_changes (((Reports.device_log _ kindSparing q 0).trans (Reports.notice _ _)).trans (Reports.noticeId _)).changes)
      exact ⟨h₄.andThen (back.trans told.1), (told.2 q).trans up, ((back.trans told.1).same State.localStore).trans store⟩

theorem exec_quarterRepair_nil {q : Nat} {s : State} (serves : fwServes s = true) (up : awake s = true) (hq : q < 64)
    (running : (s.island q).state = .run) (pass : Bool) : exec (.quarterRepair q [] pass) s = .next (quarterRepairEffect s q [] pass) :=
  occurs_of_true (by simp [serves, up, okQuarter, hq, running]) _ s

/-! ## A collection is repaired (R643) -/

theorem changes_takePages {s t : State} {n align p : Nat} (h : takePages s n align = some (p, t)) : Changes [.protect] s t := by
  unfold takePages at h
  split at h
  · obtain ⟨-, rfl⟩ := Prod.mk.inj (Option.some.inj h)
    rfl
  · extract_lets p' at h
    split at h
    · obtain ⟨-, rfl⟩ := Prod.mk.inj (Option.some.inj h)
      rfl
    · cases h

theorem changes_rebuildTile (s : State) (t : Nat) : Changes [.tiers, .protect] s (rebuildTile s t) := by
  unfold rebuildTile
  split
  · exact .refl _ s
  · split
    · exact .refl _ s
    · next e _ p u taken =>
      extract_lets u'
      have pages : Changes [.tiers, .protect] s u := (changes_takePages taken).mono (by decide)
      have given : Changes [.tiers, .protect] s u' := .ite (pages.modProtect _) pages
      exact given.modTiers _

theorem Reports.object_log (s : State) (kind : Nat) (handle : BitVec 32) (epoch loc detail : Nat) :
    Reports s (objectLog s kind handle epoch loc detail) := write ..

/-- A collection's entry after a change of it. -/
theorem State.coll?_modColl {s : State} {i : Nat} {c : Collection} (h : s.coll? i = some c) (f : Collection → Collection) :
    (s.modColl i f).coll? i = some (f c) := by
  rw [State.coll?] at h
  rw [State.coll?, State.modColl, Tab.get?_adjust_self, h]
  rfl

theorem State.coll?_modColl_ne (s : State) {i j : Nat} (h : j ≠ i) (f : Collection → Collection) : (s.modColl i f).coll? j = s.coll? j := by
  rw [State.coll?, State.modColl, Tab.get?_adjust, if_neg h]
  rfl

theorem exec_collectionRepair {s : State} {i : Nat} {c : Collection} (h : s.coll? i = some c) :
    exec (.collectionRepair i) s = if c.restoring then occurs (fwServes s) (restoreLine s i) s
      else occurs (fwServes s && awake s && c.damaged && !c.unrepairable) (collRepairEffect s i c) s := by
  change execCollectionRepair i s = _
  rw [execCollectionRepair, h]

/-- The tiles of a collection that stay lost. -/
def stillLost (s : State) (c : Collection) : List Nat :=
  c.lostTiles.filter fun t => (((c.lostTiles.filter (rebuildable c)).foldl rebuildTile s).tile t).lost

/-- A repair rebuilds what it can, and leaves the collection DAMAGED with the tiles that stay lost. -/
theorem reports_collRepairEffect (s : State) (i : Nat) (c : Collection) :
    Reports (((c.lostTiles.filter (rebuildable c)).foldl rebuildTile s).modColl i fun x => { x with
      lostTiles := stillLost s c, damaged := !(stillLost s c).isEmpty
      unrepairable := x.unrepairable || (stillLost s c).any fun t => !rebuildable c t }) (collRepairEffect s i c) := by
  unfold collRepairEffect
  extract_lets h good s₁ left done stuck s₂
  split
  · exact Reports.object_log ..
  · split
    · exact Reports.object_log ..
    · exact .refl _

theorem b2n_mul (b : Bool) (n : Nat) : b2n b * n = if b then n else 0 := by cases b <;> simp [b2n]

theorem exec_sbReadStatus {s : State} (up : sbUp s = true) :
    exec .sbReadStatus s = .next (s.modSb fun x => { x with returned := leBytes 2 ((s.sideband.rspLen % 8192 * 8 +
      (if s.sideband.refused then 4 else 0) + (if s.sideband.done then 2 else 0) + (if s.sideband.firmware then 1 else 0)) % 65536) }) := by
  rw [← b2n_mul, ← b2n_mul]
  exact occurs_of_true up _ s

theorem exec_powerRead {s : State} (up : sbUp s = true) :
    exec .powerRead s = .next (s.modSb fun x => { x with returned := leBytes 2 ((dpCode s.power.dp * 16384 +
      (if s.power.limitUnmet then 8192 else 0) + min 4095 s.power.watts) % 65536) }) := by
  rw [← b2n_mul]
  exact occurs_of_true up _ s

/-- Settles O60: repairs change the part they repair, and each transaction of the sideband is its row's own change. -/
theorem repairsAndSideband : Obligations.RepairsAndSideband := by
  unfold Obligations.RepairsAndSideband
  refine ⟨⟨fun n why s serves hn usable noBatch noRun counts few => exec_coreSpare_of_few serves hn usable noBatch noRun counts few,
    fun q pass s serves up hq running batches runs _ _ scheds cmds few => ?_, fun i c s hc serves => ⟨fun whole damaged able up => ?_, fun restoring => ?_⟩⟩,
    fun s running => ?_, fun s => ?_⟩
  · obtain ⟨frame, service, store⟩ := quarterRepairEffect_nil batches runs scheds few pass
    refine ⟨_, exec_quarterRepair_nil serves up hq running pass, service, (frame.same State.cmds).trans cmds, fun a => ?_⟩
    rw [store, List.mem_filter]
    simp
  · have rebuilt : Changes [.tiers, .protect] s ((c.lostTiles.filter (rebuildable c)).foldl rebuildTile s) := .foldl changes_rebuildTile _ s
    have reports := reports_collRepairEffect s i c
    have tiles (x : Nat) : ((c.lostTiles.filter (rebuildable c)).foldl rebuildTile s).tile x = (collRepairEffect s i c).tile x :=
      (reports.changes.same fun s => s.tile x).symm
    have lost (x : Nat) : x ∈ stillLost s c ↔ x ∈ c.lostTiles ∧ ((collRepairEffect s i c).tile x).lost = true := by
      rw [stillLost, List.mem_filter, tiles]
    have found : ((c.lostTiles.filter (rebuildable c)).foldl rebuildTile s).coll? i = some c := (rebuilt.same fun s => s.coll? i).trans hc
    refine ⟨_, _, ?_, (reports.changes.same fun s => s.coll? i).trans (State.coll?_modColl found _), lost, ?_, ?_, rfl, rfl, fun j hj => ?_, ?_, ?_⟩
    · rw [exec_collectionRepair hc, whole, if_neg (by simp), occurs_of_true (by simp [serves, up, damaged, able])]
    · simp
    · simp [able]
    · exact ((reports.changes.same fun s => s.coll? j).trans (State.coll?_modColl_ne _ hj _)).trans (rebuilt.same fun s => s.coll? j)
    · exact (reports.changes.same State.cmds).trans (rebuilt.same State.cmds)
    · exact (reports.changes.same State.flash).trans (rebuilt.same State.flash)
  · rw [exec_collectionRepair hc, restoring, if_pos rfl, occurs_of_true serves]
  · have up : sbUp s = true := by simp [sbUp, running]
    refine ⟨fun w => occurs_of_true up _ s, fun bytes short => ⟨_, exec_sbBlockWrite up short, rfl, fun owns => ?_, fun host fits wf => ?_,
      fun a out => read_sbBlockWrite s.sideband bytes out, rfl⟩, fun n short => ⟨_, exec_sbBlockRead up short, fun owns => ?_, fun host fits => ?_, rfl⟩,
      fun len => ⟨fun owns => ?_, fun host low high => ?_, fun host bad => ?_⟩, exec_sbReadStatus up, fun w ok => occurs_of_true ?_ _ s,
      fun w nonzero bad => occurs_of_false ?_ _ s, exec_powerRead up, occurs_of_true up _ s, fun w other => occurs_of_false ?_ _ s⟩
    · exact if_pos owns
    · change Mem.readN (if s.sideband.firmware then _ else _) _ _ = _
      rw [if_neg (by simp [host]), inBuffer_of_le fits, List.take_length]
      exact Mem.readN_writeN wf _ _
    · exact if_pos owns
    · refine (if_neg (by simp [host])).trans ?_
      rw [inBuffer_of_le fits]
      exact pad_of_length (Mem.length_readN ..)
    · rw [exec_sbSubmit up]
      exact congrArg Host.Outcome.next (s.modSb_congr (if_pos owns))
    · rw [exec_sbSubmit up]
      have inRange : ¬ (len = 0 ∨ 4096 < len.toNat) := by
        rintro (rfl | big)
        · simp at low
        · omega
      exact congrArg Host.Outcome.next (s.modSb_congr ((if_neg (by simp [host])).trans (if_neg inRange)))
    · rw [exec_sbSubmit up]
      have outOfRange : len = 0 ∨ 4096 < len.toNat := bad.imp_left fun zero => BitVec.eq_of_toNat_eq zero
      exact congrArg Host.Outcome.next (s.modSb_congr ((if_neg (by simp [host])).trans (if_pos outOfRange)))
    · rcases ok with rfl | ⟨low, high⟩ <;> simp [*]
    · have value : w.toNat ≠ 0 := fun zero => nonzero (BitVec.eq_of_toNat_eq zero)
      simp [up, value]
      omega
    · have value : w.toNat ≠ 0x5E7A := fun eq => other (BitVec.eq_of_toNat_eq eq)
      simp [value]
  · refine (occurs_of_true rfl _ s).trans ?_
    rcases s.power.railFault with _ | ⟨above, r⟩
    · rfl
    · simp only [← b2n_mul]
      rfl

end Sys2Proof.Machine
end

section
/-! SUPPORT. FATAL, the loss of islands and the restart of the firmware (19_reliability_and_repair.md), and the statement about them. -/

namespace Sys2Proof.Machine

open Sys2Proof

-- Proofs are checked one at a time: each that waits for its turn would hold a thread's stack.
set_option Elab.async false

/-! ## FATAL (R629, R645) -/

/-- The state of a stop before CRITICAL and the events: logged, with the entry kept, FATAL, and every port down. -/
def stopped (s : State) : State :=
  let s := s.modSec fun x => { x with fatalKept := (s.logs.entries ++ s.logs.held).getLast? }
  let s := s.modPower fun p => { p with phase := .fatal, alert := true }
  s.modNet fun n => { n with links := Tab.map n.links fun l => if l.state = .unpopulated then l else { l with state := .down } }

theorem fatal_eq (s : State) (kind loc detail : Nat) : fatal s kind loc detail =
    raiseEvent (raiseEvent (critical (stopped (deviceLog s kind loc detail)) critFatal true) .p0 evHealth) .p1 evHealth := rfl

theorem reports_fatal (s : State) (kind loc detail : Nat) : Reports (stopped (deviceLog s kind loc detail)) (fatal s kind loc detail) :=
  (Reports.critical ..).trans (Reports.raise_both _ evHealth)

theorem carries_link_fatal (s : State) (kind loc detail q : Nat) : carries ((fatal s kind loc detail).link q) = false := by
  have links : (fatal s kind loc detail).net.links =
      Tab.map (deviceLog s kind loc detail).net.links fun l => if l.state = .unpopulated then l else { l with state := .down } := by
    exact (reports_fatal s kind loc detail).changes.same fun s => s.net.links
  rw [State.link, links, Tab.getD, Tab.get?_map]
  cases Tab.get? (deviceLog s kind loc detail).net.links q with
  | none => rfl
  | some l =>
    simp only [Option.map_some, Option.getD_some]
    split
    · next unpopulated => simp [carries, unpopulated]
    · simp [carries]

theorem power_fatal (s : State) (kind loc detail : Nat) : (fatal s kind loc detail).power = { s.power with phase := .fatal, alert := true } :=
  ((reports_fatal ..).changes.same State.power).trans
    (congrArg (fun p : Power => { p with phase := .fatal, alert := true }) ((Reports.device_log s kind loc detail).changes.same State.power))

theorem critical_fatal (s : State) (kind loc detail : Nat) : (fatal s kind loc detail).logs.critical.getLsbD critFatal = true := by
  rw [fatal_eq, raiseEvent_logs, raiseEvent_logs, critical_critical, if_pos rfl]
  exact getLsbD_setBit_self _ (by decide)

theorem critical_entries (s : State) (bit : Nat) (on : Bool) :
    (critical s bit on).logs.entries = s.logs.entries ∧ (critical s bit on).logs.held = s.logs.held := by
  unfold critical
  generalize (if on then setBit s.logs.critical bit else clearBit s.logs.critical bit) = v
  dsimp only
  split
  · exact ⟨rfl, rfl⟩
  · simp

theorem fatalKept_fatal (s : State) (kind loc detail : Nat) :
    (fatal s kind loc detail).security = { s.security with
      fatalKept := ((fatal s kind loc detail).logs.entries ++ (fatal s kind loc detail).logs.held).getLast? } := by
  have entries : (fatal s kind loc detail).logs.entries = (deviceLog s kind loc detail).logs.entries ∧
      (fatal s kind loc detail).logs.held = (deviceLog s kind loc detail).logs.held := by
    rw [fatal_eq, raiseEvent_logs, raiseEvent_logs]
    exact critical_entries ..
  rw [entries.1, entries.2, (reports_fatal s kind loc detail).changes.same State.security]
  exact congrArg (fun x : Security => { x with
    fatalKept := ((deviceLog s kind loc detail).logs.entries ++ (deviceLog s kind loc detail).logs.held).getLast? })
    ((Reports.device_log s kind loc detail).changes.same State.security)

theorem net_fatal (s : State) (kind loc detail : Nat) :
    (fatal s kind loc detail).net = { s.net with links := (fatal s kind loc detail).net.links } := by
  rw [(reports_fatal s kind loc detail).changes.same State.net]
  exact congrArg (fun n : Net => { n with links := (stopped (deviceLog s kind loc detail)).net.links })
    ((Reports.device_log s kind loc detail).changes.same State.net)

/-- What the statement says of a device that has stopped, from a state that is u but for islands, crossings and the watchdog. -/
theorem fatal_stops {s u : State} (before : Changes [.islands, .crossings, .security] s u)
    (security : u.security = { s.security with watchdog := u.security.watchdog }) (kind loc detail : Nat) :
    (fatal u kind loc detail).power = { s.power with phase := .fatal, alert := true } ∧
    (∀ q, carries ((fatal u kind loc detail).link q) = false) ∧
    (fatal u kind loc detail).logs.critical.getLsbD critFatal = true ∧
    (fatal u kind loc detail).security.fatalKept
      = ((fatal u kind loc detail).logs.entries ++ (fatal u kind loc detail).logs.held).getLast? ∧
    fatal u kind loc detail = { s with
      islands := (fatal u kind loc detail).islands, crossings := (fatal u kind loc detail).crossings, logs := (fatal u kind loc detail).logs
      power := (fatal u kind loc detail).power, port0 := (fatal u kind loc detail).port0, port1 := (fatal u kind loc detail).port1
      security := { s.security with
        watchdog := (fatal u kind loc detail).security.watchdog, fatalKept := (fatal u kind loc detail).security.fatalKept }
      net := { s.net with links := (fatal u kind loc detail).net.links } } := by
  have power := power_fatal u kind loc detail
  have down := carries_link_fatal u kind loc detail
  have critical := critical_fatal u kind loc detail
  have kept := fatalKept_fatal u kind loc detail
  have net := net_fatal u kind loc detail
  have frame := changes_fatal u kind loc detail
  generalize fatal u kind loc detail = t at *
  refine ⟨by rw [power, before.same State.power], down, critical, by rw [kept], ?_⟩
  have security' : t.security = { s.security with watchdog := t.security.watchdog, fatalKept := t.security.fatalKept } := by
    rw [kept, security]
  have net' : t.net = { s.net with links := t.net.links } := by rw [← before.same State.net]; exact net
  have whole : Changes [.islands, .crossings, .security, .logs, .port0, .port1, .power, .net] s t := before.comp frame
  rw [← security', ← net']
  exact whole

/-! ## An island is lost (R605, R608, R644) -/

/-- The state of a crossing as its two islands give it (R608). -/
def crossingState (s : State) (c : Nat) : CxState :=
  let up (i : Nat) : Bool := (s.island i).state != .reset
  if up (crossingSides c).1 && up (crossingSides c).2 then .run
  else if up (crossingSides c).1 || up (crossingSides c).2 then .isolated else .reset

theorem changes_settleCrossing (s : State) (c : Nat) : Changes [.crossings] s (settleCrossing s c) := rfl

/-- What settling does to a crossing: one whose state changes holds no transfer, and an isolation is counted (R608). -/
def Crossing.settle (x : Crossing) (st : CxState) : Crossing :=
  if x.state = st then x
  else { x with
    state := st, occAB := 0, occBA := 0
    isolations := if st = .isolated then satAdd (2 ^ 32 - 1) x.isolations 1 else x.isolations }

theorem settleCrossing_eq (s : State) (c : Nat) : settleCrossing s c = s.modCrossing c fun x => x.settle (crossingState s c) := rfl

theorem Crossing.settle_state (x : Crossing) (st : CxState) : (x.settle st).state = st := by
  unfold settle
  split
  · next same => exact same
  · rfl

theorem settleCrossing_state (s : State) (c : Nat) : ((settleCrossing s c).crossing c).state = crossingState s c := by
  rw [settleCrossing_eq, State.crossing_modCrossing, Crossing.settle_state]

theorem settleCrossing_ne (s : State) {c x : Nat} (h : x ≠ c) : (settleCrossing s c).crossing x = s.crossing x := s.crossing_modCrossing_ne h _

/-- Crossings settled in turn: each takes the state that its islands give, and no other changes. -/
theorem settleCrossings (l : List Nat) (s : State) :
    Changes [.crossings] s (l.foldl settleCrossing s) ∧
    (∀ x ∈ l, ((l.foldl settleCrossing s).crossing x).state = crossingState s x) ∧
    (∀ x, x ∉ l → (l.foldl settleCrossing s).crossing x = s.crossing x) := by
  refine ⟨.foldl changes_settleCrossing l s, ?_⟩
  induction l generalizing s with
  | nil => simp
  | cons c l ih =>
    obtain ⟨settled, others⟩ := ih (settleCrossing s c)
    have same (x : Nat) : crossingState (settleCrossing s c) x = crossingState s x := rfl
    refine ⟨fun x hx => ?_, fun x hx => ?_⟩
    · by_cases later : x ∈ l
      · exact (settled x later).trans (same x)
      · obtain rfl : x = c := (List.mem_cons.mp hx).resolve_right later
        rw [List.foldl_cons, others x later, settleCrossing_state]
    · rw [List.foldl_cons, others x (fun h => hx (List.mem_cons_of_mem _ h)), settleCrossing_ne s (fun h => hx (List.mem_cons.mpr (.inl h)))]

theorem mem_crossingsOf (i x : Nat) : x ∈ crossingsOf i ↔ x < 105 ∧ ((crossingSides x).1 = i ∨ (crossingSides x).2 = i) := by
  simp [crossingsOf]

/-- An island held in reset, with its crossings settled. -/
def isolated (s : State) (i : Nat) : State :=
  (crossingsOf i).foldl settleCrossing (s.modIsland i fun x => { x with state := .reset, rate := 0, locked := false })

theorem changes_isolated (s : State) (i : Nat) : Changes [.islands, .crossings] s (isolated s i) :=
  ((Changes.refl _ s).modIsland i _).andThen (settleCrossings ..).1

theorem isolated_island (s : State) (i : Nat) : ((isolated s i).island i).state = .reset := by
  have islands : (isolated s i).island i = (s.modIsland i _).island i := (settleCrossings (crossingsOf i) _).1.same fun s => s.island i
  rw [islands, State.island_modIsland]

theorem isolated_island_ne (s : State) {i j : Nat} (h : j ≠ i) : (isolated s i).island j = s.island j :=
  ((settleCrossings (crossingsOf i) _).1.same fun s => s.island j).trans (s.island_modIsland_ne h _)

/-- The crossings of an island in reset do not run. -/
theorem isolated_crossing (s : State) {i x : Nat} (hx : x < 105) (side : (crossingSides x).1 = i ∨ (crossingSides x).2 = i) :
    ((isolated s i).crossing x).state ≠ .run := by
  rw [isolated, (settleCrossings (crossingsOf i) _).2.1 x ((mem_crossingsOf i x).mpr ⟨hx, side⟩), crossingState]
  rcases side with rfl | rfl
  · simp only [State.island_modIsland, bne_self_eq_false, Bool.false_and, Bool.false_or, Bool.false_eq_true, if_false]
    split <;> simp
  · simp only [State.island_modIsland, bne_self_eq_false, Bool.and_false, Bool.or_false, Bool.false_eq_true, if_false]
    split <;> simp

/-- The loss of an island that is FATAL (R644). -/
theorem loseIsland_of_fatalKind {i : Nat} (kind : (64 ≤ i ∧ i < 92) ∨ i = 102) (s : State) :
    loseIsland s i = fatal (isolated s i) kindIsland i (crossingBits ((crossingsOf i).filter fun c => (s.crossing c).state == .run)) := by
  have isFatal : (!(decide (i < 64) || (decide (92 ≤ i) && decide (i < 102)))) = true := by simp; omega
  unfold loseIsland islandResponse
  simp only [isFatal, if_true]
  rw [if_neg (by omega), if_neg (by omega), if_neg (by omega), if_neg (by omega), if_neg (by omega)]
  rfl

/-- The crossings whose loss is FATAL, by the island that they count as. -/
theorem smallerIsland_fatalKind {x : Nat} (h : (64 ≤ x ∧ x < 94) ∨ x = 104) :
    (64 ≤ smallerIsland x ∧ smallerIsland x < 92) ∨ smallerIsland x = 102 := by
  rcases h with ⟨low, high⟩ | rfl
  · left
    by_cases quarter : x < 80
    · rw [smallerIsland, if_neg (by omega), if_pos quarter]
      omega
    · have sides : ∀ y ∈ List.range' 80 14, 64 ≤ (crossingSides y).1 ∧ (crossingSides y).1 < 92 := by decide
      rw [smallerIsland, if_neg (by omega), if_neg quarter, if_pos high]
      exact sides x (by simp; omega)
  · right
    rfl

/-- A flash channel that serves stops, and retrains. -/
def stopFlashCh (s : State) (c : Nat) : State :=
  if (flashCh s c).state = .active then notice (modFlashCh s c fun x => { x with state := .retraining }) lidFlash else s

theorem flashCh_modFlashCh (s : State) (c d : Nat) (f : FlashCh → FlashCh) :
    flashCh (modFlashCh s c f) d = if d = c then f (flashCh s d) else flashCh s d := by
  rw [flashCh, modFlashCh, State.modFlash, Tab.getD_modify]
  split
  · next eq => rw [eq]; rfl
  · rfl

theorem changes_stopFlashCh (s : State) (c : Nat) : Changes [.flash, .logs, .port0, .port1] s (stopFlashCh s c) :=
  .ite (((Changes.refl _ s).modFlash _).andThen (Reports.notice ..).changes) (.refl _ s)

theorem flashCh_stopFlashCh (s : State) (c d : Nat) :
    flashCh (stopFlashCh s c) d = if d = c ∧ (flashCh s c).state = .active then { flashCh s d with state := .retraining } else flashCh s d := by
  unfold stopFlashCh
  by_cases active : (flashCh s c).state = .active
  · rw [if_pos active]
    have told : flashCh (notice (modFlashCh s c fun x => { x with state := .retraining }) lidFlash) d
        = flashCh (modFlashCh s c fun x => { x with state := .retraining }) d := (Reports.notice _ _).changes.same fun s => flashCh s d
    rw [told, flashCh_modFlashCh]
    simp [active]
  · rw [if_neg active, if_neg fun both => active both.2]

theorem flashCh_stopFlashChs (l : List Nat) (s : State) (d : Nat) :
    (d ∉ l → flashCh (l.foldl stopFlashCh s) d = flashCh s d) ∧
    ((flashCh s d).state = .retraining → (flashCh (l.foldl stopFlashCh s) d).state = .retraining) ∧
    (d ∈ l → (flashCh s d).state = .active → (flashCh (l.foldl stopFlashCh s) d).state = .retraining) := by
  induction l generalizing s with
  | nil => simp
  | cons c l ih =>
    obtain ⟨others, stays, stops⟩ := ih (stopFlashCh s c)
    rw [List.foldl_cons]
    refine ⟨fun out => ?_, fun retrains => stays ?_, fun mem active => ?_⟩
    · rw [others (fun h => out (List.mem_cons_of_mem _ h)), flashCh_stopFlashCh, if_neg fun both : d = c ∧ _ => out (List.mem_cons.mpr (.inl both.1))]
    · rw [flashCh_stopFlashCh]
      split
      · rfl
      · exact retrains
    · by_cases here : d = c
      · subst here
        exact stays (by rw [flashCh_stopFlashCh, if_pos ⟨rfl, active⟩])
      · refine stops ((List.mem_cons.mp mem).resolve_left here) ?_
        rw [flashCh_stopFlashCh, if_neg fun both : d = c ∧ _ => here both.1, active]

/-- The loss of a flash island (R644). -/
theorem loseIsland_of_flash {i : Nat} (low : 98 ≤ i) (high : i < 102) (s : State) :
    loseIsland s i = ((List.range 4).map fun k => 4 * (i - 98) + k).foldl stopFlashCh
      (deviceLog (isolated s i) kindIsland i (crossingBits ((crossingsOf i).filter fun c => (s.crossing c).state == .run))) := by
  have notFatal : (!(decide (i < 64) || (decide (92 ≤ i) && decide (i < 102)))) = false := by simp; omega
  unfold loseIsland islandResponse
  simp only [notFatal, Bool.false_eq_true, if_false]
  rw [if_neg (by omega), if_neg (by omega), if_neg (by omega), if_neg (by omega), if_pos ⟨low, high⟩]
  rfl

/-- The loss of the island of a quarter that is out of service. -/
theorem loseIsland_of_out {i : Nat} (hi : i < 64) {s : State} (out : (s.quarter i).inService = false) :
    loseIsland s i
      = deviceLog (isolated s i) kindIsland i (crossingBits ((crossingsOf i).filter fun c => (s.crossing c).state == .run)) := by
  have notFatal : (!(decide (i < 64) || (decide (92 ≤ i) && decide (i < 102)))) = false := by simp [hi]
  unfold loseIsland islandResponse
  simp only [notFatal, Bool.false_eq_true, if_false]
  rw [if_pos hi, quarterOut, if_pos]
  · rfl
  · have same : (deviceLog (isolated s i) kindIsland i
        (crossingBits ((crossingsOf i).filter fun c => (s.crossing c).state == .run))).quarter i = s.quarter i :=
      ((Reports.device_log ..).changes.same fun s => s.quarter i).trans ((changes_isolated s i).same fun s => s.quarter i)
    exact (congrArg (fun x : Quarter => !x.inService) same).trans (by simp [out])

/-! ## The firmware restarts (R646) -/

theorem reports_flushHeld (s : State) : Reports s (flushHeld s) := by
  unfold flushHeld
  extract_lets l
  exact List.foldlRecOn l _ (motive := Reports s) (Reports.of_logs s _) fun t ht e _ => ht.trans (appendLog_eq t e ▸ Reports.of_logs t _)

theorem failAll_nil (s : State) (st : Status) (z : Cause) : failAll s [] st z = s := oneEvent_of_nothing (fun _ => rfl) z

/-- No work is in progress that a restart of the firmware goes on with, or ends. -/
structure NoWork (s : State) : Prop where
  cmds : s.cmds = []
  colls : s.colls = []
  borrowed : s.tiers.borrowed = []
  settled : ∀ y ∈ s.hbm.channels, y.2.phase ≠ .alias_
  scheds : s.scheds = []
  dueRetire : s.hbm.dueRetire = []
  dueRelease : s.hbm.dueRelease = []
  dueBlocks : s.flash.dueBlocks = []

theorem NoWork.of_changes {s t : State} (h : NoWork s) (c : Changes [.security, .logs, .port0, .port1] s t) : NoWork t := by
  obtain ⟨cmds, colls, borrowed, settled, scheds, dueRetire, dueRelease, dueBlocks⟩ := h
  exact ⟨(c.same State.cmds).trans cmds, (c.same State.colls).trans colls, (c.same fun s => s.tiers.borrowed).trans borrowed,
    (c.same State.hbm) ▸ settled, (c.same State.scheds).trans scheds, (c.same fun s => s.hbm.dueRetire).trans dueRetire,
    (c.same fun s => s.hbm.dueRelease).trans dueRelease, (c.same fun s => s.flash.dueBlocks).trans dueBlocks⟩

/-- Without work, the firmware forgets what programs and erases had been issued, and nothing else. -/
theorem resumeWork_of_noWork {s : State} (h : NoWork s) : resumeWork s = { s with flash := { s.flash with issued := [], erasing := [] } } := by
  obtain ⟨cmds, colls, borrowed, settled, scheds, dueRetire, dueRelease, dueBlocks⟩ := h
  have noAlias : s.hbm.channels.filter (fun x => x.2.phase == .alias_) = [] :=
    List.filter_eq_nil_iff.mpr fun y hy => by simpa using settled y hy
  have retire : (s.modHbm fun h => { h with dueRetire := [] }) = s := by rw [State.modHbm, ← dueRetire]
  have release : (s.modHbm fun h => { h with dueRelease := [] }) = s := by rw [State.modHbm, ← dueRelease]
  have blocks : (s.modFlash fun f => { f with dueBlocks := [], issued := [], erasing := [] })
      = { s with flash := { s.flash with issued := [], erasing := [] } } := by rw [State.modFlash, ← dueBlocks]
  unfold resumeWork
  extract_lets alias_ s₁ s₂ s₃ leases s₄ lost s₅ unloads s₆ s₇ flushes
  have e₁ : s₁ = s := by simp only [s₁, alias_, noAlias, List.map_nil, List.foldl_nil]
  have e₂ : s₂ = s := by simp only [s₂, e₁, dueRetire, List.foldl_nil, retire]
  have e₃ : s₃ = s := by simp only [s₃, e₂, dueRelease, List.foldl_nil, release]
  have e₄ : s₄ = s := by simp only [s₄, leases, e₃, borrowed, List.filter_nil, List.map_nil, List.foldl_nil]
  have e₅ : s₅ = s := by simp only [s₅, lost, e₄, colls, List.filter_nil, List.map_nil, List.foldl_nil]
  have e₆ : s₆ = s := by simp only [s₆, unloads, e₅, scheds, List.filterMap_nil, List.foldl_nil, settleUnloads, Tab.keys, List.map_nil]
  have e₇ : s₇ = { s with flash := { s.flash with issued := [], erasing := [] } } := by
    simp only [s₇, e₆, dueBlocks, List.foldl_nil, blocks]
  have none_ : flushes.foldl startDurable s₇ = s₇ := by
    have : s₇.cmds = [] := by rw [e₇]; exact cmds
    simp only [flushes, this, List.filter_nil, List.map_nil, List.foldl_nil]
  rw [none_, e₇]
  exact settleImages_of_none (s := { s with flash := { s.flash with issued := [], erasing := [] } }) (by simp [colls])

/-- An event that ends nothing changes what it acts by, and the reports. -/
theorem reports_oneEvent {s : State} {f : State → State} (h : ∀ t, Reports t (f t)) (always : Bool) (z : Cause) :
    Reports s (oneEvent s always z f) := by
  have closes (t : State) : Reports t (closeEvent t always z) := by
    unfold closeEvent
    split
    · exact .refl t
    · extract_lets t₁
      split
      · split
        · exact (Reports.of_logs t _).trans (Reports.device_log t₁ ..)
        · exact Reports.of_logs t _
      · exact (Reports.of_logs t _).trans (Reports.write t₁ ..)
  unfold oneEvent
  split
  · exact h s
  · exact ((Reports.of_logs s _).trans (h _)).trans (closes _)

/-- A state in which a restart without admin commands has ended the activation and is logged. -/
def restarted (s : State) : State :=
  oneEvent (flushHeld (s.modSec fun x => { x with activating := none })) true { kind := kindFirmware, loc := 0, detail := fwActive s }
    fun t => failAll t [] .dataError { kind := kindFirmware, loc := 0, detail := fwActive s }

theorem reports_restarted (s : State) : Reports (s.modSec fun x => { x with activating := none }) (restarted s) :=
  (reports_flushHeld _).trans (reports_oneEvent (fun t => by rw [failAll_nil]; exact .refl t) _ _)

/-- A restart of the firmware without work: the activation in progress ends, what was issued is forgotten, routes are computed anew, and the
restart is logged. -/
theorem restartFirmware_of_noWork {s : State} (h : NoWork s) :
    (restartFirmware s).security = { s.security with activating := none } ∧
    (restartFirmware s).flash = { s.flash with issued := [], erasing := [] } ∧
    Changes [.security, .net, .logs, .port0, .port1, .flash] s (restartFirmware s) := by
  have busy : adminInProgress s = [] := by rw [adminInProgress, h.cmds]; rfl
  have keys : Tab.keys s.colls = [] := by rw [h.colls]; rfl
  have whole : restartFirmware s = reroute (resumeWork (restarted s)) := by rw [restartFirmware, busy, keys]; rfl
  have ended := reports_restarted s
  rw [whole]
  generalize restarted s = u at *
  have changed : Changes [.security, .logs, .port0, .port1] s u := ((Changes.refl _ s).modSec _).andThen ended.changes
  rw [resumeWork_of_noWork (h.of_changes changed)]
  have routed := changes_reroute (s := { u with flash := { u.flash with issued := [], erasing := [] } })
    ((changed.same State.cmds).trans h.cmds) ((changed.same fun s => s.tiers.borrowed).trans h.borrowed)
  refine ⟨(routed.same State.security).trans (ended.changes.same State.security), (routed.same State.flash).trans ?_, ?_⟩
  · exact congrArg (fun f : Flash => { f with issued := [], erasing := [] }) (changed.same State.flash)
  · have forgot : Changes [.flash] u { u with flash := { u.flash with issued := [], erasing := [] } } := rfl
    exact (changed.mono (by decide)).andThen (forgot.comp (n := [.flash, .net]) routed)

theorem exec_watchdogExpiry {s : State} (up : live s = true) : exec .watchdogExpiry s = .next (watchdogEffect s) := occurs_of_true up _ s

theorem exec_pllLoss {i : Nat} {s : State} (up : live s = true) (hi : i < 103) (started : (s.island i).state ≠ .reset)
    (on : (s.island i).state ≠ .off) : exec (.pllLoss i) s = .next (loseIsland s i) :=
  occurs_of_true (by simp [up, okIsland, hi, started, on]) _ s

/-- The causes of FATAL, each as a stop from a state that differs in islands, crossings and the watchdog alone. -/
theorem exec_of_fatal {c : Instr} {s : State} (up : live s = true)
    (h : c = .securityBlockFault ∨ (c = .watchdogExpiry ∧ ∃ w, s.security.watchdog = some w ∧ s.time ≤ w + 600000000000) ∨
      (∃ i, c = .pllLoss i ∧ ((64 ≤ i ∧ i < 92) ∨ i = 102) ∧ (s.island i).state ≠ .reset ∧ (s.island i).state ≠ .off) ∨
      (∃ x, c = .crossingParityError x ∧ x < 105 ∧ (s.crossing x).state = .run ∧ ((64 ≤ x ∧ x < 94) ∨ x = 104))) :
    ∃ u kind loc detail, exec c s = .next (fatal u kind loc detail) ∧ Changes [.islands, .crossings, .security] s u ∧
      u.security = { s.security with watchdog := u.security.watchdog } := by
  have island (i : Nat) : Changes [.islands, .crossings, .security] s (isolated s i) := (changes_isolated s i).mono (by decide)
  have same (i : Nat) : (isolated s i).security = { s.security with watchdog := (isolated s i).security.watchdog } := by
    rw [(changes_isolated s i).same State.security]
  rcases h with rfl | ⟨rfl, w, watched, soon⟩ | ⟨i, rfl, kind, started, on⟩ | ⟨x, rfl, hx, running, kind⟩
  · exact ⟨s, _, _, _, occurs_of_true (by rw [up]; rfl) _ s, .refl _ s, rfl⟩
  · refine ⟨s.modSec fun x => { x with watchdog := some s.time }, kindFirmware, 0, fwActive s, ?_, (Changes.refl _ s).modSec _, rfl⟩
    rw [exec_watchdogExpiry up, watchdogEffect, watched]
    exact congrArg Host.Outcome.next (if_pos (decide_eq_true soon))
  · exact ⟨isolated s i, _, _, _, (exec_pllLoss up (by omega) started on).trans (congrArg _ (loseIsland_of_fatalKind kind s)), island i, same i⟩
  · have row : exec (.crossingParityError x) s = .next (loseIsland s (smallerIsland x)) :=
      occurs_of_true (by simp [up, okCrossing, hx, running]) _ s
    exact ⟨isolated s (smallerIsland x), _, _, _, row.trans (congrArg _ (loseIsland_of_fatalKind (smallerIsland_fatalKind kind) s)), island _, same _⟩

/-- Settles O58: FATAL is one stop from its four causes; an island's loss by its kind; and a restart without work. -/
theorem fatalAndIslandLoss : Obligations.FatalAndIslandLoss := by
  unfold Obligations.FatalAndIslandLoss
  refine ⟨fun c s up h => ?_, fun i s up started on => ⟨fun low high => ?_, fun hi out => ?_⟩, ?_⟩
  · obtain ⟨u, kind, loc, detail, row, before, security⟩ := exec_of_fatal up h
    exact ⟨_, row, fatal_stops before security kind loc detail⟩
  · refine ⟨_, exec_pllLoss up (by omega) started on, ?_⟩
    rw [loseIsland_of_flash low high]
    generalize crossingBits ((crossingsOf i).filter fun c => (s.crossing c).state == .run) = bits
    have stops (d : Nat) := flashCh_stopFlashChs ((List.range 4).map fun k => 4 * (i - 98) + k) (deviceLog (isolated s i) kindIsland i bits) d
    have logged := (Reports.device_log (isolated s i) kindIsland i bits).changes
    have frame : Changes [.flash, .logs, .port0, .port1] (isolated s i) _ :=
      (logged.mono (by decide)).trans (.foldl changes_stopFlashCh ((List.range 4).map fun k => 4 * (i - 98) + k) _)
    have channel (d : Nat) : flashCh (deviceLog (isolated s i) kindIsland i bits) d = flashCh s d :=
      (logged.same fun s => flashCh s d).trans ((changes_isolated s i).same fun s => flashCh s d)
    have mem (d : Nat) : d ∈ ((List.range 4).map fun k => 4 * (i - 98) + k) ↔ d / 4 = i - 98 := by
      simp only [List.mem_map, List.mem_range]
      exact ⟨by rintro ⟨k, hk, rfl⟩; omega, fun h => ⟨d % 4, by omega, by omega⟩⟩
    generalize ((List.range 4).map fun k => 4 * (i - 98) + k).foldl stopFlashCh (deviceLog (isolated s i) kindIsland i bits) = t at *
    refine ⟨?_, fun j hj => (frame.same fun s => s.island j).trans (isolated_island_ne s hj), fun x hx side => ?_, fun d active block => ?_,
      fun d other => ?_, (frame.same State.net).trans ((changes_isolated s i).same State.net),
      (frame.same State.cmds).trans ((changes_isolated s i).same State.cmds), (frame.same State.power).trans ((changes_isolated s i).same State.power)⟩
    · rw [frame.same fun s => s.island i]
      exact isolated_island s i
    · rw [frame.same fun s => s.crossing x]
      exact isolated_crossing s hx side
    · exact (stops d).2.2 ((mem d).mpr block) (channel d ▸ active)
    · rw [(stops d).1 fun h => other ((mem d).mp h), channel]
  · refine ⟨_, exec_pllLoss up (by omega) started on, ?_⟩
    rw [loseIsland_of_out hi out]
    generalize crossingBits ((crossingsOf i).filter fun c => (s.crossing c).state == .run) = bits
    have frame := (Reports.device_log (isolated s i) kindIsland i bits).changes
    generalize deviceLog (isolated s i) kindIsland i bits = t at *
    refine ⟨?_, (frame.same State.cmds).trans ((changes_isolated s i).same State.cmds),
      (frame.same State.quarters).trans ((changes_isolated s i).same State.quarters),
      (frame.same State.net).trans ((changes_isolated s i).same State.net), (frame.same State.power).trans ((changes_isolated s i).same State.power)⟩
    rw [frame.same fun s => s.island i]
    exact isolated_island s i
  · intro s up fresh cmds colls borrowed settled scheds dueRetire dueRelease dueBlocks
    have work : NoWork (s.modSec fun x => { x with watchdog := some s.time }) :=
      ⟨cmds, colls, borrowed, settled, scheds, dueRetire, dueRelease, dueBlocks⟩
    obtain ⟨security, flash, frame⟩ := restartFirmware_of_noWork work
    refine ⟨_, exec_watchdogExpiry up, ?_⟩
    have first : watchdogEffect s = restartFirmware (s.modSec fun x => { x with watchdog := some s.time }) := by
      rw [watchdogEffect, fresh]
      rfl
    rw [first]
    generalize restartFirmware (s.modSec fun x => { x with watchdog := some s.time }) = t at *
    refine ⟨security, frame.same State.power, ?_⟩
    rw [show { s.flash with issued := [], erasing := [] } = t.flash from flash.symm]
    exact ((Changes.refl _ s).modSec (l := [.security, .net, .logs, .port0, .port1, .flash]) _).trans frame

end Sys2Proof.Machine
end

section
/-! SUPPORT. Start-up by the pins and the PLLs, recovery, and what the boot measures (17_security_and_boot_trust.md, 18_clocks_power_reset.md,
21_electrical_and_package.md), and the statement about it. -/

namespace Sys2Proof.Machine

open Sys2Proof

-- Proofs are checked one at a time: each that waits for its turn would hold a thread's stack.
set_option Elab.async false

/-! ## What the boot measures (R594) -/

/-- From trust state a to b nothing is measured. -/
def SameMeasurements (a b : Trust) : Prop := b.meas = a.meas ∧ b.extends_ = a.extends_

theorem SameMeasurements.of_eq {a b : Trust} (h : b = a) : SameMeasurements a b := by rw [h]; exact ⟨rfl, rfl⟩

theorem SameMeasurements.trans {a b c : Trust} (h : SameMeasurements a b) (k : SameMeasurements b c) : SameMeasurements a c :=
  ⟨k.1.trans h.1, k.2.trans h.2⟩

theorem appendCounter_measures (s : State) (slot v : Nat) : SameMeasurements s.trust (appendCounter s slot v).trust := by
  unfold appendCounter
  extract_lets l
  split
  · exact .of_eq (deviceLog_fixed ..).2
  · by_cases h : slot = 0
    · simp only [h, if_true]; exact ⟨rfl, rfl⟩
    · simp only [h, if_false]; exact ⟨rfl, rfl⟩

theorem raiseCounters_measures (s : State) : SameMeasurements s.trust (raiseCounters s).trust := by
  unfold raiseCounters
  extract_lets floor s₁
  have h₁ : SameMeasurements s.trust s₁.trust := by
    simp only [s₁]
    split
    · exact appendCounter_measures ..
    · exact .of_eq rfl
  split
  · exact h₁.trans (appendCounter_measures ..)
  · exact h₁

theorem reconcileCounters_measures (s : State) : SameMeasurements s.trust (reconcileCounters s).trust := by
  unfold reconcileCounters
  extract_lets a b
  split
  · exact appendCounter_measures ..
  · split
    · exact appendCounter_measures ..
    · exact .of_eq rfl

theorem ite_measures {a : Trust} {c : Prop} [Decidable c] {t u : State} (ht : SameMeasurements a t.trust) (hu : SameMeasurements a u.trust) :
    SameMeasurements a (if c then t else u).trust := by
  split
  · exact ht
  · exact hu

theorem startFirmware_measures (s : State) (b : BootInputs) (slot : Nat) (img : List Byte) :
    SameMeasurements (measureBoot s b img).trust (startFirmware s b slot img).trust := by
  unfold startFirmware
  dsimp only
  have same : SameMeasurements (measureBoot s b img).trust (measureBoot s b img).trust := .of_eq rfl
  refine ite_measures (.trans ?_ (raiseCounters_measures _)) ?_
  all_goals simpa [ite_trust, foldl_trust] using same

theorem extendMeas_meas (s : State) (reg event detail : Nat) (d : BitVec 384) : (extendMeas s reg event detail d).security.meas
    = s.security.meas.set reg (Config.sha384 (digestBytes ((s.security.meas[reg]?).getD 0) ++ digestBytes d)) := rfl

theorem extendMeas_extends (s : State) (reg event detail : Nat) (d : BitVec 384) :
    (extendMeas s reg event detail d).security.extends_ = s.security.extends_ + 1 := rfl

/-- The measurements as the boot ROM finds them: cleared. -/
def clearMeas (s : State) : State := s.modSec fun x => { x with meas := [0, 0, 0, 0, 0], log := [], extends_ := 0, overflow := false }

theorem bootStart_eq (s : State) : bootStart s
    = extendMeas (reconcileCounters (clearMeas s)) 0 0 0 (Config.sha384 (romRecord (reconcileCounters (clearMeas s)).security)) := rfl

theorem extendMeas_slots (s : State) (reg event detail : Nat) (d : BitVec 384) :
    (extendMeas s reg event detail d).security.slot0 = s.security.slot0 ∧ (extendMeas s reg event detail d).security.slot1 = s.security.slot1 :=
  ⟨rfl, rfl⟩

/-- After step 1 of the boot only MEAS0 is extended. -/
theorem bootStart_meas (s : State) : ∃ m, (bootStart s).security.meas = [m, 0, 0, 0, 0] ∧ (bootStart s).security.extends_ = 1 := by
  have same := reconcileCounters_measures (clearMeas s)
  have meas : (reconcileCounters (clearMeas s)).security.meas = [0, 0, 0, 0, 0] := same.1
  have count : (reconcileCounters (clearMeas s)).security.extends_ = 0 := same.2
  rw [bootStart_eq, extendMeas_meas, extendMeas_extends, meas, count]
  exact ⟨_, rfl, rfl⟩

/-- The three extends of the boot. -/
theorem startFirmware_meas (s : State) (b : BootInputs) (slot : Nat) (img : List Byte) :
    (startFirmware (bootStart s) b slot img).security.extends_ = 3 ∧
    (startFirmware (bootStart s) b slot img).security.meas[1]?
      = some (Config.sha384 (digestBytes 0 ++ digestBytes (Config.sha384 (img.take 256)))) ∧
    (startFirmware (bootStart s) b slot img).security.meas[2]?
      = some (Config.sha384 (digestBytes 0 ++ digestBytes (Config.sha384 b.boardRecord))) ∧
    (startFirmware (bootStart s) b slot img).security.meas[3]? = some 0 ∧
    (startFirmware (bootStart s) b slot img).security.meas[4]? = some 0 := by
  obtain ⟨m, meas, count⟩ := bootStart_meas s
  obtain ⟨sameMeas, sameCount⟩ := startFirmware_measures (bootStart s) b slot img
  have measured : (startFirmware (bootStart s) b slot img).security.meas = (measureBoot (bootStart s) b img).security.meas := sameMeas
  have counted : (startFirmware (bootStart s) b slot img).security.extends_ = (measureBoot (bootStart s) b img).security.extends_ := sameCount
  have extended : (measureBoot (bootStart s) b img).security.meas
      = [m, Config.sha384 (digestBytes 0 ++ digestBytes (Config.sha384 (img.take 256))),
        Config.sha384 (digestBytes 0 ++ digestBytes (Config.sha384 b.boardRecord)), 0, 0] := by
    rw [measureBoot, extendMeas_meas, extendMeas_meas, meas]
    rfl
  rw [measured, counted, extended]
  exact ⟨by rw [measureBoot, extendMeas_extends, extendMeas_extends, count], rfl, rfl, rfl, rfl⟩

/-! ## Recovery (R592, R593) -/

/-- Islands set running, in turn. -/
theorem runIslands_island (l : List Nat) (s : State) (i : Nat) :
    (i ∈ l → ((l.foldl runIsland s).island i).state = .run) ∧ (i ∉ l → (l.foldl runIsland s).island i = s.island i) ∧
    ((s.island i).state = .run → ((l.foldl runIsland s).island i).state = .run) := by
  induction l generalizing s with
  | nil => simp
  | cons j l ih =>
    obtain ⟨runs, others, stays⟩ := ih (runIsland s j)
    have here : ((runIsland s j).island j).state = .run := by rw [runIsland, State.island_modIsland]
    have there (h : i ≠ j) : (runIsland s j).island i = s.island i := State.island_modIsland_ne s h _
    rw [List.foldl_cons]
    refine ⟨fun mem => ?_, fun out => ?_, fun already => stays ?_⟩
    · by_cases h : i = j
      · exact stays (h ▸ here)
      · exact runs ((List.mem_cons.mp mem).resolve_left h)
    · rw [others (fun h => out (List.mem_cons_of_mem _ h)), there (fun h => out (List.mem_cons.mpr (.inl h)))]
    · by_cases h : i = j
      · exact h ▸ here
      · rw [there h, already]

theorem bootSlot_of_empty {s : State} (slot0 : s.security.slot0 = none) (slot1 : s.security.slot1 = none) : bootSlot s = none := by
  have fails (slot : Nat) : slotFails s slot = some 1 := by
    have empty : slotImage s slot = none := by rw [slotImage, slot0, slot1, ite_self]
    rw [slotFails, empty]
  simp [bootSlot, fails]

/-- With no counter entry the boot ROM appends none. -/
theorem bootStart_of_noCounters {s : State} (counter0 : s.security.counter0 = []) (counter1 : s.security.counter1 = []) :
    Changes [.security] s (bootStart s) ∧ (bootStart s).security.slot0 = s.security.slot0 ∧ (bootStart s).security.slot1 = s.security.slot1 := by
  have level : reconcileCounters (clearMeas s) = clearMeas s := by
    rw [reconcileCounters, clearMeas, State.modSec, counter0, counter1]
    rfl
  have sameLog : Changes [.security] (clearMeas s) (bootStart s) := by
    rw [bootStart_eq, level]
    exact (Changes.refl _ _).modSec _
  refine ⟨((Changes.refl _ s).modSec _).trans sameLog, ?_⟩
  rw [bootStart_eq, level]
  exact extendMeas_slots ..

theorem changes_bootPorts (s : State) (b : BootInputs) : Changes [.port0, .port1] s ([PortId.p0, .p1].foldl (bootPort b) s) :=
  .foldl (fun s p => (Changes.refl _ s).modPort p _) _ s

/-- Recovery before its islands run. -/
theorem startRecovery_eq (s : State) (b : BootInputs) : ∃ u : State, startRecovery s b = runIslands u [72, 73, 92, 93, 102] ∧
    u.islands = s.islands ∧ u.power.phase = .recovery ∧ u.security.recovery = true ∧ u.security.active = none := by
  unfold startRecovery
  extract_lets s₁ s₂ s₃ s₄
  have ports : Changes [.port0, .port1] s₂ s₃ := changes_bootPorts s₂ b
  have kept : Changes [.port0, .port1, .sideband] s₂ s₄ := (ports.mono (by decide)).modSb _
  clear_value s₄
  exact ⟨s₄, rfl, kept.same State.islands, (kept.same State.power) ▸ rfl, (kept.same State.security) ▸ rfl, (kept.same State.security) ▸ rfl⟩

theorem changes_islandsRun (l : List Nat) (s : State) : Changes [.islands] s (l.foldl runIsland s) :=
  .foldl (fun s i => (Changes.refl _ s).modIsland i _) l s

theorem runIslands_runs (l : List Nat) (s : State) : Changes [.islands, .crossings] s (runIslands s l) ∧
    ∀ i, (runIslands s l).island i = (l.foldl runIsland s).island i := by
  have settled := (settleCrossings (List.range 105) (l.foldl runIsland s)).1
  exact ⟨(changes_islandsRun l s).comp settled, fun i => settled.same fun s => s.island i⟩

theorem startRecovery_recovers (s : State) (b : BootInputs) :
    (startRecovery s b).power.phase = .recovery ∧ (startRecovery s b).security.active = none ∧ (startRecovery s b).security.recovery = true ∧
    (∀ i, i ∈ [72, 73, 92, 93, 102] → ((startRecovery s b).island i).state = .run) ∧
    (∀ i, i ∉ [72, 73, 92, 93, 102] → (startRecovery s b).island i = s.island i) := by
  obtain ⟨u, run, islands, phase, recovery, active⟩ := startRecovery_eq s b
  have same (i : Nat) : u.island i = s.island i := by rw [State.island, State.island, islands]
  rw [run]
  obtain ⟨whole, island⟩ := runIslands_runs [72, 73, 92, 93, 102] u
  generalize runIslands u [72, 73, 92, 93, 102] = t at *
  have power : t.power = u.power := whole.same State.power
  have security : t.security = u.security := whole.same State.security
  rw [power, security]
  refine ⟨phase, active, recovery, fun i hi => ?_, fun i hi => ?_⟩
  · rw [island]
    exact (runIslands_island _ u i).1 hi
  · rw [island, (runIslands_island _ u i).2.1 hi, same]

/-! ## An island whose PLL locks again (R605, R608, R644) -/

theorem settleClocks_islands (s : State) : s.settleClocks.islands = Tab.mapKeys s.islands fun i y =>
    if decide (i < 64) && ((s.island i).state == .run) then
      { y with rate := 50 * max (min (clockDemand s) (capOf (Tab.getD s.quarters i {}))) (checkFloor s i) } else y := rfl

/-- Clocks settle as rates of islands that run. -/
theorem settleClocks_island (s : State) (i : Nat) : s.settleClocks.island i = { s.island i with rate := (s.settleClocks.island i).rate } := by
  rw [State.island, settleClocks_islands, Tab.getD, Tab.get?_mapKeys, State.island, Tab.getD]
  cases Tab.get? s.islands i with
  | none => rfl
  | some y =>
    simp only [Option.map_some, Option.getD_some]
    split <;> rfl

theorem lockEffect_of_running {s : State} (up : live s = true) (i : Nat) :
    lockEffect s i = ((crossingsOf i).foldl settleCrossing (runIsland s i)).settleClocks := by
  have phase : s.power.phase = .running := by simpa [live] using up
  unfold lockEffect
  rw [phase]

/-- The island of a PLL that locks runs, with its crossings settled, before the clocks settle. -/
def relocked (s : State) (i : Nat) : State := (crossingsOf i).foldl settleCrossing (runIsland s i)

theorem changes_relocked (s : State) (i : Nat) : Changes [.islands, .crossings] s (relocked s i) :=
  ((Changes.refl _ s).modIsland i _).andThen (settleCrossings ..).1

theorem relocked_island (s : State) (i j : Nat) : (relocked s i).island j = (runIsland s i).island j :=
  (settleCrossings (crossingsOf i) _).1.same fun s => s.island j

theorem relocked_island_self (s : State) (i : Nat) : ((relocked s i).island i).state = .run ∧ ((relocked s i).island i).locked = true ∧
    ((relocked s i).island i).started = some ((s.island i).started.getD s.time) := by
  rw [relocked_island, runIsland, State.island_modIsland]
  exact ⟨rfl, rfl, rfl⟩

theorem relocked_island_ne (s : State) {i j : Nat} (h : j ≠ i) : (relocked s i).island j = s.island j :=
  (relocked_island ..).trans (s.island_modIsland_ne h _)

theorem relocked_crossing (s : State) {i c : Nat} (hc : c < 105) (side : (crossingSides c).1 = i ∨ (crossingSides c).2 = i) :
    ((relocked s i).crossing c).state =
      (if ((relocked s i).island (crossingSides c).1).state ≠ .reset ∧ ((relocked s i).island (crossingSides c).2).state ≠ .reset
        then .run else .isolated) := by
  obtain ⟨runs, -, -⟩ := relocked_island_self s i
  have settled := (settleCrossings (crossingsOf i) (runIsland s i)).2.1 c ((mem_crossingsOf i c).mpr ⟨hc, side⟩)
  rw [← relocked] at settled
  rw [settled, crossingState]
  simp only [← relocked_island]
  rcases side with rfl | rfl
  all_goals simp [runs]

theorem relocked_crossing_ne (s : State) {i c : Nat} (out : ¬(c < 105 ∧ ((crossingSides c).1 = i ∨ (crossingSides c).2 = i))) :
    (relocked s i).crossing c = s.crossing c :=
  (settleCrossings (crossingsOf i) _).2.2 c fun mem => out ((mem_crossingsOf i c).mp mem)

/-! ## Start-up goes on as far as the pins let it (R664, R665, R669) -/

theorem goOn_of_strap3 {b : BootInputs} (h : b.strap3 = true) (s : State) : goOn s b = s.modPower fun p => { p with phase := .strapHold } :=
  if_pos h

theorem goOn_of_devrst {b : BootInputs} {s : State} (strap : b.strap3 = false) (low : s.power.devrstN = false) :
    goOn s b = s.modPower fun p => { p with phase := .waitDevrst } := by
  simp [goOn, strap, low]

theorem goOn_of_pll {b : BootInputs} {s : State} (strap : b.strap3 = false) (high : s.power.devrstN = true) (clock : b.refclk = false) :
    goOn s b = s.modPower fun p => { p with phase := .waitPll } := by
  simp [goOn, strap, high, clock]

theorem goOn_of_ready {b : BootInputs} {s : State} (strap : b.strap3 = false) (high : s.power.devrstN = true) (clock : b.refclk = true) :
    goOn s b = runStart s b := by
  simp [goOn, strap, high, clock]

theorem runStart_of_slot {s : State} {b : BootInputs} {slot : Nat} (h : bootSlot (bootStart s) = some slot) :
    runStart s b = startFirmware (bootStart s) b slot ((slotImage (bootStart s) slot).getD []) := by
  unfold runStart
  simp only [h]

theorem runStart_of_none {s : State} {b : BootInputs} (h : bootSlot (bootStart s) = none) : runStart s b = startRecovery (bootStart s) b := by
  unfold runStart
  simp only [h]

theorem exec_startUp {b : BootInputs} {s : State} (off : s.power.phase = .powerOff) (wf : (Instr.startUp b).wf = true)
    (first : s.power.board = none) : exec (.startUp b) s = .next (goOn (s.modPower fun p => { p with pwrok := true, board := some b }) b) := by
  have now : boardNow s b = b := by simp only [boardNow, first]
  have row : exec (.startUp b) s = .next (startEffect s b) := occurs_of_true (by simp [off, wf]) _ s
  rw [row, startEffect, now]

/-- A start with no image in either slot ends in recovery (R592, R593). -/
theorem runStart_recovers {s : State} (b : BootInputs) (slot0 : s.security.slot0 = none) (slot1 : s.security.slot1 = none)
    (counter0 : s.security.counter0 = []) (counter1 : s.security.counter1 = []) :
    (runStart s b).power.phase = .recovery ∧ (runStart s b).security.active = none ∧ (runStart s b).security.recovery = true ∧
    (∀ i, i ∈ [72, 73, 92, 93, 102] → ((runStart s b).island i).state = .run) ∧
    (∀ i, i ∉ [72, 73, 92, 93, 102] → (runStart s b).island i = s.island i) := by
  obtain ⟨kept, same0, same1⟩ := bootStart_of_noCounters counter0 counter1
  have island (i : Nat) : (bootStart s).island i = s.island i := kept.same fun s => s.island i
  rw [runStart_of_none (bootSlot_of_empty (same0.trans slot0) (same1.trans slot1))]
  simpa only [island] using startRecovery_recovers (bootStart s) b

/-- Settles O56: the pins' branches of start-up, the two ends of the boot, and the island of a PLL that locks again. -/
theorem startUpFollowsThePins : Obligations.StartUpFollowsThePins := by
  refine ⟨fun b s off wf first => ?_, fun s low => ⟨fun other => ?_, fun b waits board => ?_⟩, fun b s waits board => ?_, fun i s up hi reset => ?_⟩
  · have row := exec_startUp off wf first
    refine ⟨fun strap => row.trans (congrArg _ (goOn_of_strap3 strap _)), fun strap low => row.trans (congrArg _ (goOn_of_devrst strap low)),
      fun strap high clock => row.trans (congrArg _ (goOn_of_pll strap high clock)),
      fun strap high clock => ⟨_, row.trans (congrArg _ (goOn_of_ready strap high clock)), fun slot0 slot1 counter0 counter1 => ?_, fun slot found => ?_⟩⟩
    · exact runStart_recovers b slot0 slot1 counter0 counter1
    · rw [runStart_of_slot found]
      exact ⟨rfl, startFirmware_meas ..⟩
  · have row : exec .devrstNRelease s = .next (releaseEffect s) := occurs_of_true (by simp [low]) _ s
    rw [row]
    have phase : (s.modPower fun p => { p with devrstN := true }).power.phase ≠ .waitDevrst := other
    unfold releaseEffect
    dsimp only
    split
    · next is _ => exact absurd is phase
    · rfl
  · have row : exec .devrstNRelease s = .next (releaseEffect s) := occurs_of_true (by simp [low]) _ s
    rw [row, releaseEffect]
    simp only [State.modPower, waits, board]
  · have row : exec (.pllLock 102) s = .next (lockEffect s 102) := occurs_of_true (by simp [waits, okIsland]) _ s
    rw [row, lockEffect]
    simp only [waits, board]
  · have row : exec (.pllLock i) s = .next (lockEffect s i) := occurs_of_true (by simp [okIsland, hi, up, reset]) _ s
    have clocked (j : Nat) := settleClocks_island (relocked s i) j
    obtain ⟨runs, locked, started⟩ := relocked_island_self s i
    have crossing (c : Nat) : (relocked s i).settleClocks.crossing c = (relocked s i).crossing c := rfl
    refine ⟨(relocked s i).settleClocks, row.trans (congrArg _ (lockEffect_of_running up i)), ?_, ?_, ?_, fun j hj => ?_, fun c hc side => ?_,
      fun c out => relocked_crossing_ne s out, ?_⟩
    · rw [clocked, runs]
    · rw [clocked, locked]
    · rw [clocked, started]
    · rw [clocked, relocked_island_ne s hj]
    · have state (j : Nat) : ((relocked s i).settleClocks.island j).state = ((relocked s i).island j).state := by rw [clocked]
      rw [state, state, crossing]
      exact relocked_crossing s hc side
    · have before := changes_relocked s i
      generalize relocked s i = t at *
      exact before.comp (n := [.islands, .crossings, .quarters]) (show Changes [.islands, .quarters] t t.settleClocks from rfl)

end Sys2Proof.Machine
end

section
/-! SUPPORT. The CAPs of quarters (R607, R619, R625), the power states (R613 to R616), the telemetry poll (R661) and the thermal sensors
(R623 to R627), and the statement about them (18_clocks_power_reset.md, 21_electrical_and_package.md). -/

namespace Sys2Proof.Machine

open Sys2Proof

-- Proofs are checked one at a time: each that waits for its turn would hold a thread's stack.
set_option Elab.async false

/-! ## The parts of CAP (R607) -/

/-- Quarters changed in turn. -/
theorem modQuarters {l : List Nat} (nodup : l.Nodup) (f : Quarter → Quarter) (s : State) :
    Changes [.quarters] s (l.foldl (fun s q => s.modQuarter q f) s) ∧
    (∀ q ∈ l, Tab.get? (l.foldl (fun s q => s.modQuarter q f) s).quarters q = some (f (s.quarter q))) ∧
    (∀ q, q ∉ l → Tab.get? (l.foldl (fun s q => s.modQuarter q f) s).quarters q = Tab.get? s.quarters q) := by
  refine ⟨.foldl (fun s q => (Changes.refl _ s).modQuarter q f) l s, ?_⟩
  induction l generalizing s with
  | nil => simp
  | cons a l ih =>
    obtain ⟨first, rest⟩ := List.nodup_cons.mp nodup
    obtain ⟨changed, others⟩ := ih rest (s.modQuarter a f)
    rw [List.foldl_cons]
    refine ⟨fun q hq => ?_, fun q hq => ?_⟩
    · by_cases here : q = a
      · subst here
        rw [others q first]
        exact Tab.get?_set_self ..
      · rw [changed q ((List.mem_cons.mp hq).resolve_left here), State.quarter_modQuarter_ne _ here]
    · rw [others q fun h => hq (List.mem_cons_of_mem _ h)]
      exact Tab.get?_set_ne _ _ fun h => hq (List.mem_cons.mpr (.inl h))

theorem settleClocks_quarters (s : State) : s.settleClocks.quarters = Tab.mapKeys s.quarters fun q x => { x with
    cap := capOf x
    clock := if (s.island q).state == .run then max (min (clockDemand s) (capOf x)) (checkFloor s q) else x.clock } := rfl

/-- Clocks settle with CAP as its parts. -/
theorem settleClocks_quarter {s : State} {q : Nat} {x : Quarter} (h : Tab.get? s.quarters q = some x) :
    (s.settleClocks.quarter q).cap = capOf x ∧ (s.settleClocks.quarter q).powerCap = x.powerCap ∧
    (s.settleClocks.quarter q).thermalCap = x.thermalCap := by
  rw [State.quarter, settleClocks_quarters, Tab.getD, Tab.get?_mapKeys, h]
  exact ⟨rfl, rfl, rfl⟩

theorem settleClocks_thermalCap (s : State) (q : Nat) : (s.settleClocks.quarter q).thermalCap = (s.quarter q).thermalCap := by
  rw [State.quarter, settleClocks_quarters, Tab.getD, Tab.get?_mapKeys, State.quarter, Tab.getD]
  cases Tab.get? s.quarters q <;> rfl

theorem changes_settleClocks (s : State) : Changes [.islands, .quarters] s s.settleClocks := rfl

/-! ## POWER_LIMIT (R619) -/

/-- The power-limit part of CAP after a step. -/
def limitCap (p : Power) (x : Quarter) : Nat :=
  if p.limit != 0 && decide (p.limit < p.watts) then max 11 (x.cap - 1)
  else if p.limit == 0 || decide (100 * p.watts < 95 * p.limit) then min 21 (x.powerCap + 1) else x.powerCap

/-- The quarters of a power-limit step, before the clocks settle. -/
def limited (s : State) : State := (List.range 64).foldl (fun t q => t.modQuarter q fun x => { x with powerCap := limitCap s.power x }) s

theorem limitEffect_eq (s : State) : limitEffect s = (limited s).settleClocks.modPower fun w => { w with
    limitUnmet := s.power.limit != 0 && decide (s.power.limit < s.power.watts) &&
      (List.range 64).all fun q => ((limited s).settleClocks.quarter q).cap == 11 } := rfl

theorem limited_quarter (s : State) {q : Nat} (hq : q < 64) :
    Tab.get? (limited s).quarters q = some { s.quarter q with powerCap := limitCap s.power (s.quarter q) } :=
  (modQuarters List.nodup_range _ s).2.1 q (List.mem_range.mpr hq)

theorem limitEffect_quarter (s : State) {q : Nat} (hq : q < 64) : ((limitEffect s).quarter q).powerCap = limitCap s.power (s.quarter q) ∧
    ((limitEffect s).quarter q).cap = max 11 (min (s.quarter q).thermalCap ((limitEffect s).quarter q).powerCap) := by
  obtain ⟨cap, power, -⟩ := settleClocks_quarter (limited_quarter s hq)
  have quarter : (limitEffect s).quarter q = (limited s).settleClocks.quarter q := by
    rw [limitEffect_eq]
    generalize (limited s).settleClocks = t
    rfl
  rw [quarter]
  exact ⟨power, by rw [power, cap]; rfl⟩

theorem changes_limitEffect (s : State) : limitEffect s = { s with
    quarters := (limitEffect s).quarters, islands := (limitEffect s).islands
    power := { s.power with limitUnmet := (limitEffect s).power.limitUnmet } } := by
  have kept : Changes [.quarters, .islands] s (limited s).settleClocks :=
    (modQuarters List.nodup_range _ s).1.comp (changes_settleClocks (limited s))
  rw [limitEffect_eq]
  generalize (limited s).settleClocks = t at *
  have power : t.power = s.power := kept.same State.power
  rw [show t = { s with quarters := t.quarters, islands := t.islands } from kept]
  rfl

/-! ## The dies that a sensor throttles (R625) -/

/-- The quarters of a die. -/
def dieQuarters (d : Nat) : List Nat := (List.range 8).map (8 * d + ·)

theorem mem_dieQuarters {d q : Nat} : q ∈ dieQuarters d ↔ q / 8 = d := by
  simp only [dieQuarters, List.mem_map, List.mem_range]
  exact ⟨fun ⟨k, hk, h⟩ => by omega, fun h => ⟨q % 8, by omega, by omega⟩⟩

theorem nodup_dieQuarters (d : Nat) : (dieQuarters d).Nodup := List.nodup_range.map fun a b h => by omega

theorem modDieCap_eq (s : State) (d : Nat) (f : Quarter → Nat) :
    modDieCap s d f = (dieQuarters d).foldl (fun s q => s.modQuarter q fun x => { x with thermalCap := f x }) s := by
  rw [dieQuarters, List.foldl_map]
  rfl

/-- A sensor throttles at most one die. -/
theorem diesOf_eq (n : Nat) : diesOf n = [] ∨ ∃ d, diesOf n = [d] := by
  unfold diesOf
  split
  · exact .inr ⟨_, rfl⟩
  · split
    · exact .inr ⟨_, rfl⟩
    · exact .inl rfl

/-- The thermal part of CAP of a list of at most one die changes, and the clocks settle. -/
theorem dieCaps {ds : List Nat} (one : ds = [] ∨ ∃ d, ds = [d]) (f : Quarter → Nat) (s : State) :
    Changes [.quarters, .islands] s (ds.foldl (fun s d => modDieCap s d f) s).settleClocks ∧
    (∀ q, q / 8 ∈ ds → ((ds.foldl (fun s d => modDieCap s d f) s).settleClocks.quarter q).thermalCap = f (s.quarter q) ∧
      ((ds.foldl (fun s d => modDieCap s d f) s).settleClocks.quarter q).cap = max 11 (min (f (s.quarter q)) (s.quarter q).powerCap)) ∧
    (∀ q, q / 8 ∉ ds → ((ds.foldl (fun s d => modDieCap s d f) s).settleClocks.quarter q).thermalCap = (s.quarter q).thermalCap) := by
  rcases one with rfl | ⟨d, rfl⟩
  · exact ⟨(changes_settleClocks s).mono (by decide), by simp, fun q _ => settleClocks_thermalCap s q⟩
  · obtain ⟨kept, changed, others⟩ := modQuarters (nodup_dieQuarters d) (fun x => { x with thermalCap := f x }) s
    rw [List.foldl_cons, List.foldl_nil, modDieCap_eq]
    refine ⟨kept.comp (changes_settleClocks _), fun q hq => ?_, fun q hq => ?_⟩
    · obtain ⟨cap, -, thermal⟩ := settleClocks_quarter (changed q (mem_dieQuarters.mpr (List.mem_singleton.mp hq)))
      exact ⟨thermal, cap⟩
    · rw [settleClocks_thermalCap, State.quarter, Tab.getD, others q fun h => hq (List.mem_singleton.mpr (mem_dieQuarters.mp h))]
      rfl

end Sys2Proof.Machine
end

section
/-! SUPPORT. The power states (R613 to R616), the telemetry poll (R661) and the thermal sensors (R623 to R627), and the statement about power
and heat (18_clocks_power_reset.md, 21_electrical_and_package.md). -/

namespace Sys2Proof.Machine

open Sys2Proof

-- Proofs are checked one at a time: each that waits for its turn would hold a thread's stack.
set_option Elab.async false

/-! ## Islands that stop and wake (R615) -/

/-- The state of an island that stops in a state. -/
def IslState.stopIn (x st : IslState) : IslState := if x = .run ∨ x = .gated then st else x

theorem IslState.stopIn_stopIn (x st : IslState) : (x.stopIn st).stopIn st = x.stopIn st := by
  by_cases h : x = .run ∨ x = .gated
  · simp [stopIn, h]
  · simp [stopIn, h]

theorem changes_stopIslands (s : State) (is : List Nat) (st : IslState) : Changes [.islands] s (stopIslands s is st) :=
  .foldl (fun s i => (Changes.refl _ s).modIsland i _) is s

theorem stopIslands_state (s : State) (is : List Nat) (st : IslState) (i : Nat) :
    ((stopIslands s is st).island i).state = if i ∈ is then (s.island i).state.stopIn st else (s.island i).state := by
  induction is generalizing s with
  | nil => simp [stopIslands]
  | cons j is ih =>
    have here (k : Nat) : ((s.modIsland j fun x => { x with state := if x.state = .run ∨ x.state = .gated then st else x.state, rate := 0 }).island k).state
        = if k = j then (s.island k).state.stopIn st else (s.island k).state := by
      by_cases h : k = j
      · rw [h, State.island_modIsland, if_pos rfl]; rfl
      · rw [State.island_modIsland_ne _ h, if_neg h]
    rw [stopIslands, List.foldl_cons, ← stopIslands, ih, here]
    by_cases h : i = j
    · by_cases mem : i ∈ is
      · simp [h, h ▸ mem, IslState.stopIn_stopIn]
      · simp [h, h ▸ mem]
    · simp [h]

/-- The islands that a sleep has stopped. -/
def asleep (s : State) : List Nat := (s.islands.filter fun (_, x) => x.state == .gated || x.state == .off).map (·.1)

theorem mem_asleep {s : State} {i : Nat} (h : (s.island i).state = .gated ∨ (s.island i).state = .off) : i ∈ asleep s := by
  cases entry : Tab.get? s.islands i with
  | none =>
    have reset : s.island i = {} := by rw [State.island, Tab.getD, entry]; rfl
    simp [reset] at h
  | some x =>
    have here : s.island i = x := by rw [State.island, Tab.getD, entry]; rfl
    refine List.mem_map.mpr ⟨(i, x), List.mem_filter.mpr ⟨Tab.mem_of_get? entry, ?_⟩, rfl⟩
    simpa [here] using h

theorem not_mem_asleep {s : State} {i : Nat} (h : ∀ y ∈ s.islands, y.1 = i → y.2.state = .reset ∨ y.2.state = .run) : i ∉ asleep s := by
  intro mem
  obtain ⟨y, hy, rfl⟩ := List.mem_map.mp mem
  obtain ⟨listed, stopped⟩ := List.mem_filter.mp hy
  rcases h y listed rfl with st | st <;> simp [st] at stopped

/-- The device awake: the islands that slept run, and the power controller is in DP0. -/
def awoken (s : State) : State :=
  let u := ((asleep s).foldl runIsland s).modPower fun p => { p with dp := .dp0, entering := none, entryCmd := false, scrub := true }
  { u with cmds := Tab.map u.cmds fun c => { c with heldDp := false } }

theorem wake0_eq (s : State) : wake0 s = (awoken s).settleClocks := rfl

theorem awoken_island (s : State) (i : Nat) : (awoken s).island i = ((asleep s).foldl runIsland s).island i := rfl

theorem awoken_eq (s : State) : awoken s = { s with
    islands := ((asleep s).foldl runIsland s).islands
    power := { s.power with dp := .dp0, entering := none, entryCmd := false, scrub := true }
    cmds := Tab.map s.cmds fun c => { c with heldDp := false } } := by
  have kept := changes_islandsRun (asleep s) s
  rw [awoken]
  generalize (asleep s).foldl runIsland s = t at *
  rw [show t = { s with islands := t.islands } from kept]
  rfl

theorem wake0_power (s : State) :
    (wake0 s).power = { s.power with dp := .dp0, entering := none, entryCmd := false, scrub := true } := by
  rw [wake0_eq, (changes_settleClocks _).same State.power, awoken_eq]

theorem wake0_cmds (s : State) : (wake0 s).cmds = Tab.map s.cmds fun c => { c with heldDp := false } := by
  rw [wake0_eq, (changes_settleClocks _).same State.cmds, awoken_eq]

theorem wake0_state (s : State) (i : Nat) : ((wake0 s).island i).state = (((asleep s).foldl runIsland s).island i).state := by
  rw [wake0_eq, settleClocks_island, awoken_island]

theorem changes_wake0 (s : State) : Changes [.power, .islands, .cmds, .quarters] s (wake0 s) := by
  have before : Changes [.power, .islands, .cmds] s (awoken s) := by
    have eq := awoken_eq s
    generalize awoken s = t at *
    subst eq
    rfl
  exact before.comp (changes_settleClocks (awoken s))

/-! ## What an entry leaves (R615) -/

/-- No sector of a line is dirty. -/
def CleanLine (s : State) (k : Nat) : Prop := ∀ l, Tab.get? s.cache.lines k = some l → ∀ x ∈ l.sectors, x.dirty = false

theorem changes_cleanLine (s : State) (k : Nat) : Changes [.cache, .hbm] s (cleanLine s k) := by
  unfold cleanLine
  split
  · exact .refl _ s
  · exact ((changes_writeBack ..).mono (by decide)).modCache _

theorem cleanLine_lines (s : State) (k j : Nat) : Tab.get? (cleanLine s k).cache.lines j =
    if j = k then (Tab.get? s.cache.lines k).map fun l => { l with sectors := l.sectors.map fun x => { x with dirty := false } }
    else Tab.get? s.cache.lines j := by
  unfold cleanLine
  split
  · next none_ => split <;> simp_all
  · next l entry =>
    have lines : (writeBack s l).cache = s.cache := (changes_writeBack s l).same State.cache
    rw [State.modCache_cache, Tab.get?_set, lines, entry]
    rfl

theorem cleanLine_self (s : State) (k : Nat) : CleanLine (cleanLine s k) k := by
  intro l entry x hx
  rw [cleanLine_lines, if_pos rfl] at entry
  obtain ⟨l', -, rfl⟩ := Option.map_eq_some_iff.mp entry
  obtain ⟨y, -, rfl⟩ := List.mem_map.mp hx
  rfl

theorem cleanLine_others {s : State} {k j : Nat} (h : CleanLine s j) : CleanLine (cleanLine s k) j := by
  by_cases here : j = k
  · exact here ▸ cleanLine_self s j
  · intro l entry
    rw [cleanLine_lines, if_neg here] at entry
    exact h l entry

theorem cleanLines (ks : List Nat) (s : State) (h : ∀ j, CleanLine s j ∨ j ∈ ks) (j : Nat) : CleanLine (ks.foldl cleanLine s) j := by
  induction ks generalizing s with
  | nil => exact (h j).resolve_right (by simp)
  | cons k ks ih =>
    refine ih _ fun j => ?_
    rcases h j with clean | mem
    · exact .inl (cleanLine_others clean)
    · rcases List.mem_cons.mp mem with rfl | mem
      · exact .inl (cleanLine_self s j)
      · exact .inr mem

/-- The slices with their write-combining entries drained. -/
def drainSlices (s : State) : State := (List.range 64).foldl (fun s n => (wcOf s n).foldl (fun s w => drainWc s n w.line) s) s

theorem cleanSlices_eq (s : State) : cleanSlices s = (Tab.keys (drainSlices s).cache.lines).foldl cleanLine (drainSlices s) := by
  unfold cleanSlices drainSlices
  rfl

theorem changes_cleanSlices (s : State) : Changes [.cache, .hbm] s (cleanSlices s) := by
  have drained : Changes [.cache, .hbm] s (drainSlices s) := .foldl (fun s _ => .foldl (fun s _ => changes_drainWc s _ _) _ s) _ s
  rw [cleanSlices_eq]
  exact drained.trans (.foldl changes_cleanLine _ _)

theorem cleanSlices_clean (s : State) (k : Nat) : CleanLine (cleanSlices s) k := by
  rw [cleanSlices_eq]
  refine cleanLines _ _ (fun j => ?_) k
  by_cases listed : Tab.has (drainSlices s).cache.lines j
  · exact .inr ((Tab.mem_keys_iff ..).mpr listed)
  · refine .inl fun l entry => ?_
    rw [Tab.has, entry] at listed
    exact absurd rfl listed

theorem changes_sleepDp2 (s : State) : Changes [.power, .cache, .hbm, .islands] s (sleepDp2 s) := by
  have scrub : Changes [.power] s (s.modPower fun p => { p with scrub := false }) := (Changes.refl _ s).modPower _
  exact (scrub.comp (n := [.power, .cache, .hbm]) (changes_cleanSlices _)).comp (changes_stopIslands ..)

theorem sleepDp2_power (s : State) : (sleepDp2 s).power = { s.power with scrub := false } := by
  have clean := (changes_cleanSlices (s.modPower fun p => { p with scrub := false })).same State.power
  exact ((changes_stopIslands ..).same State.power).trans clean

theorem sleepDp2_state (s : State) (i : Nat) :
    ((sleepDp2 s).island i).state = if i < 64 then (s.island i).state.stopIn .gated else (s.island i).state := by
  have clean := (changes_cleanSlices (s.modPower fun p => { p with scrub := false })).same fun s => s.island i
  rw [sleepDp2, stopIslands_state, clean]
  simp only [List.mem_range]
  rfl

theorem sleepDp2_clean (s : State) (k : Nat) : CleanLine (sleepDp2 s) k := by
  have cache := (changes_stopIslands (cleanSlices (s.modPower fun p => { p with scrub := false })) (List.range 64) .gated).same State.cache
  have clean := cleanSlices_clean (s.modPower fun p => { p with scrub := false }) k
  rw [CleanLine, ← cache] at clean
  exact clean

/-- What is lost on the way into DP3, before the islands are off. -/
def emptied (s : State) : State :=
  let s : State := { s with
    localStore := [], cores := Tab.map s.cores fun c => { c with alleyDone := 0, alleyErr := 0, forgot := some s.free, selectForgot := some s.free } }
  s.useFree.modCache fun c => { c with lines := [], nextVictim := [], recent := [] }

theorem sleepDp3_eq (s : State) : sleepDp3 s = stopIslands (emptied s) (List.range 72 ++ [98, 99, 100, 101]) .off := rfl

theorem changes_emptied (s : State) : Changes [.localStore, .cores, .free, .cache] s (emptied s) := rfl

theorem changes_sleepDp3 (s : State) : Changes [.localStore, .cores, .free, .cache, .islands] s (sleepDp3 s) :=
  (changes_emptied s).comp (changes_stopIslands ..)

theorem sleepDp3_state (s : State) (i : Nat) : ((sleepDp3 s).island i).state =
    if i < 72 ∨ (98 ≤ i ∧ i < 102) then (s.island i).state.stopIn .off else (s.island i).state := by
  have same : (emptied s).island i = s.island i := (changes_emptied s).same fun s => s.island i
  have listed : i ∈ List.range 72 ++ [98, 99, 100, 101] ↔ i < 72 ∨ (98 ≤ i ∧ i < 102) := by
    simp only [List.mem_append, List.mem_range, List.mem_cons, List.not_mem_nil, or_false]
    omega
  rw [sleepDp3_eq, stopIslands_state, same]
  simp only [listed]

end Sys2Proof.Machine
end

section
/-! SUPPORT. The telemetry poll (R661) and the thermal sensors (R623 to R627), and the statement about power and heat
(18_clocks_power_reset.md, 21_electrical_and_package.md). -/

namespace Sys2Proof.Machine

open Sys2Proof

-- Proofs are checked one at a time: each that waits for its turn would hold a thread's stack.
set_option Elab.async false

/-! ## The telemetry poll (R661) -/

/-- From s to t rails were polled. -/
structure Polled (s t : State) : Prop where
  kept : Changes [.logs, .port0, .port1, .power] s t
  power : t.power = { s.power with rails := t.power.rails, silent := t.power.silent }

theorem Polled.refl (s : State) : Polled s s := ⟨.refl _ s, rfl⟩

theorem Polled.trans {s t u : State} (h : Polled s t) (k : Polled t u) : Polled s u :=
  ⟨h.kept.trans k.kept, k.power.trans (by rw [h.power])⟩

/-- What one rail's poll leaves of its rail. -/
def RailRead (s : State) (x : Nat × Option (Nat × Nat) × Nat) : Prop :=
  match x.2.1 with
  | some (mv, ma) => Tab.get? s.power.rails x.1 = some (mv * ma) ∧ x.1 ∉ s.power.silent
  | none => Tab.get? s.power.rails x.1 = some (x.2.2 + x.2.2 / 10) ∧ x.1 ∈ s.power.silent

/-- The rail reads the same in both. -/
def SameRail (s t : State) (r : Nat) : Prop :=
  Tab.get? t.power.rails r = Tab.get? s.power.rails r ∧ (r ∈ t.power.silent ↔ r ∈ s.power.silent)

theorem RailRead.of_sameRail {s t : State} {x : Nat × Option (Nat × Nat) × Nat} (h : RailRead s x) (same : SameRail s t x.1) : RailRead t x := by
  obtain ⟨r, got, est⟩ := x
  cases got with
  | none => exact ⟨same.1.trans h.1, same.2.mpr h.2⟩
  | some y => exact ⟨same.1.trans h.1, fun mem => h.2 (same.2.mp mem)⟩

theorem pollRail_some (s : State) (n mv ma est : Nat) : pollRail s (n, some (mv, ma), est)
    = s.modPower fun p => { p with rails := Tab.set p.rails n (mv * ma), silent := p.silent.filter (· != n) } := rfl

theorem pollRail_reads (s : State) (x : Nat × Option (Nat × Nat) × Nat) :
    Polled s (pollRail s x) ∧ RailRead (pollRail s x) x ∧ ∀ r, r ≠ x.1 → SameRail s (pollRail s x) r := by
  obtain ⟨n, got, est⟩ := x
  cases got with
  | some y =>
    obtain ⟨mv, ma⟩ := y
    rw [pollRail_some]
    refine ⟨⟨(Changes.refl _ s).modPower _, rfl⟩, ⟨Tab.get?_set_self .., ?_⟩, fun r hr => ⟨Tab.get?_set_ne _ _ hr, ?_⟩⟩
    · simp
    · simp only [State.modPower, List.mem_filter, bne_iff_ne]
      exact and_iff_left hr
  | none =>
    have logged : Changes [.logs, .port0, .port1] s (if s.power.silent.contains n then s else deviceLog s kindIsland 102 n) :=
      .ite (.refl _ s) (Reports.device_log ..).changes
    have power := logged.same State.power
    rw [pollRail]
    dsimp only
    generalize (if s.power.silent.contains n then s else deviceLog s kindIsland 102 n) = t at *
    refine ⟨⟨(logged.mono (by decide)).modPower _, by simp only [State.modPower, power]⟩, ⟨Tab.get?_set_self .., ?_⟩,
      fun r hr => ⟨(Tab.get?_set_ne _ _ hr).trans (by rw [power]), ?_⟩⟩
    · simp only [State.modPower]
      split
      · next listed => exact List.contains_iff_mem.mp listed
      · simp
    · simp only [State.modPower, power]
      split <;> simp [hr]

theorem pollRails {xs : List (Nat × Option (Nat × Nat) × Nat)} (nodup : (xs.map (·.1)).Nodup) (s : State) :
    Polled s (xs.foldl pollRail s) ∧ (∀ x ∈ xs, RailRead (xs.foldl pollRail s) x) ∧
    ∀ r, r ∉ xs.map (·.1) → SameRail s (xs.foldl pollRail s) r := by
  induction xs generalizing s with
  | nil => exact ⟨.refl s, by simp, fun r _ => ⟨rfl, .rfl⟩⟩
  | cons x xs ih =>
    obtain ⟨first, rest⟩ := List.nodup_cons.mp nodup
    obtain ⟨polled, reads, others⟩ := pollRail_reads s x
    obtain ⟨polled', reads', others'⟩ := ih rest (pollRail s x)
    refine ⟨polled.trans polled', fun y hy => ?_, fun r hr => ?_⟩
    · rcases List.mem_cons.mp hy with rfl | later
      · exact reads.of_sameRail (others' _ first)
      · exact reads' y later
    · obtain ⟨ne, out⟩ := not_or.mp fun h => hr (List.mem_cons.mpr h)
      have a := others r ne
      have b := others' r out
      exact ⟨b.1.trans a.1, b.2.trans a.2⟩

/-! ## The thermal sensors (R624, R626) -/

/-- What a reading leaves of a sensor that stood at old. -/
def Sensor.sample (n : Nat) (v : Int) (old : Sensor) : Sensor :=
  let thr := aboveWith (throttleAt n) v old.throttling
  { old with
    temp := v, max := Max.max old.max v, throttling := thr, alarm := aboveWith (alarmAt n) v old.alarm
    events := if thr && !old.throttling then satAdd (2 ^ 32 - 1) old.events 1 else old.events }

theorem sampleOne_eq (s : State) (n : Nat) (v : Int) : sampleOne s (n, v) =
    if ((s.sensor n).sample n v).alarm && !(s.sensor n).alarm then alarm (s.modSensor n (Sensor.sample n v)) n v
    else critical (s.modSensor n (Sensor.sample n v)) critThermal ((s.modSensor n (Sensor.sample n v)).sensors.any fun (_, y) => y.alarm) := by
  have read : (s.modSensor n fun y => { y with
      temp := v, max := max y.max v, throttling := aboveWith (throttleAt n) v (s.sensor n).throttling
      alarm := aboveWith (alarmAt n) v (s.sensor n).alarm
      events := if aboveWith (throttleAt n) v (s.sensor n).throttling && !(s.sensor n).throttling
        then satAdd (2 ^ 32 - 1) y.events 1 else y.events }) = s.modSensor n (Sensor.sample n v) :=
    congrArg (fun t => { s with sensors := t }) (Tab.modify_congr _ _ _ rfl)
  rw [sampleOne, read]
  rfl

/-- From s to t sensors were read. -/
structure Sampled (s t : State) : Prop where
  kept : Changes [.logs, .port0, .port1, .power, .sensors] s t
  power : t.power = { s.power with alert := t.power.alert }
  alert : s.power.alert = true → t.power.alert = true

theorem Sampled.refl (s : State) : Sampled s s := ⟨.refl _ s, rfl, id⟩

theorem Sampled.trans {s t u : State} (h : Sampled s t) (k : Sampled t u) : Sampled s u :=
  ⟨h.kept.trans k.kept, k.power.trans (by rw [h.power]), k.alert ∘ h.alert⟩

theorem Sampled.of_reports {s t : State} (h : Reports s t) : Sampled s t := by
  have power : t.power = s.power := h.changes.same State.power
  exact ⟨h.changes.mono (by decide), by rw [power], fun on => by rw [power, on]⟩

/-- CRITICAL bit 2 says whether any sensor is in alarm. -/
def AlarmShown (s : State) : Prop := s.logs.critical.getLsbD critThermal = true ↔ ∃ y ∈ s.sensors, y.2.alarm = true

theorem getLsbD_clearBit {w : Nat} (v : BitVec w) (i j : Nat) : (clearBit v i).getLsbD j = (v.getLsbD j && !decide (i = j)) := by
  rw [clearBit, BitVec.getLsbD_and, BitVec.getLsbD_not, BitVec.getLsbD_twoPow]
  by_cases inside : j < w
  · by_cases h : i = j
    · simp [h, inside]
    · simp [h, inside]
  · simp [BitVec.getLsbD_of_ge v j (by omega)]

theorem recordLog_critical (s : State) (e : LogEntry) : (recordLog s e).logs.critical = s.logs.critical := by
  unfold recordLog appendLog
  split
  · split <;> rfl
  · rw [State.modLogs_logs]

theorem deviceLog_critical (s : State) (kind loc detail : Nat) : (deviceLog s kind loc detail).logs.critical = s.logs.critical := by
  rw [deviceLog, writeLog_both]
  exact recordLog_critical s (deviceEntry s kind loc detail)

theorem alarm_reports (s : State) (n : Nat) (v : Int) :
    Sampled s (alarm s n v) ∧ (alarm s n v).power.alert = true ∧ (alarm s n v).sensors = s.sensors ∧
    (alarm s n v).logs.critical = setBit s.logs.critical critThermal := by
  have logged : Reports s (deviceLog (critical s critThermal true) kindThermal n v.toNat) := (Reports.critical ..).trans (.device_log ..)
  have bits : (deviceLog (critical s critThermal true) kindThermal n v.toNat).logs.critical = setBit s.logs.critical critThermal := by
    rw [deviceLog_critical, critical_critical, if_pos rfl]
  rw [alarm]
  generalize deviceLog (critical s critThermal true) kindThermal n v.toNat = t at *
  have raised : Sampled t (t.modPower fun p => { p with alert := true }) := ⟨(Changes.refl _ t).modPower _, rfl, fun _ => rfl⟩
  have noticed := Reports.notice (t.modPower fun p => { p with alert := true }) lidHealth
  refine ⟨(Sampled.of_reports logged).trans (raised.trans (.of_reports noticed)), ?_, ?_, ?_⟩
  · rw [noticed.changes.same State.power]
    rfl
  · rw [noticed.changes.same State.sensors]
    exact logged.changes.same State.sensors
  · rw [notice_logs]
    exact bits

theorem sampleOne_samples (s : State) (n : Nat) (v : Int) :
    Sampled s (sampleOne s (n, v)) ∧ (sampleOne s (n, v)).sensors = (s.modSensor n (Sensor.sample n v)).sensors ∧
    AlarmShown (sampleOne s (n, v)) ∧
    (((s.sensor n).sample n v).alarm = true → (s.sensor n).alarm = false → (sampleOne s (n, v)).power.alert = true) := by
  have read : Sampled s (s.modSensor n (Sensor.sample n v)) := ⟨(Changes.refl _ s).modSensor _ _, rfl, id⟩
  have listed : (n, (s.sensor n).sample n v) ∈ (s.modSensor n (Sensor.sample n v)).sensors :=
    Tab.mem_of_get? (Tab.get?_set_self ..)
  rw [sampleOne_eq]
  generalize s.modSensor n (Sensor.sample n v) = u at *
  split
  · next rises =>
    obtain ⟨above, -⟩ := Bool.and_eq_true_iff.mp rises
    obtain ⟨sampled, alert, sensors, bits⟩ := alarm_reports u n v
    refine ⟨read.trans sampled, sensors, ?_, fun _ _ => alert⟩
    rw [AlarmShown, bits, sensors, getLsbD_setBit]
    exact iff_of_true (by simp [critThermal]) ⟨_, listed, above⟩
  · next stays =>
    have reports := Reports.critical u critThermal (u.sensors.any fun (_, y) => y.alarm)
    have sensors := reports.changes.same State.sensors
    refine ⟨read.trans (.of_reports reports), sensors, ?_, fun above before => absurd (by simp [above, before]) stays⟩
    rw [AlarmShown, critical_critical, sensors]
    by_cases any : (u.sensors.any fun (_, y) => y.alarm) = true
    · rw [if_pos any, getLsbD_setBit]
      exact iff_of_true (by simp [critThermal]) (List.any_eq_true.mp any)
    · rw [if_neg any, getLsbD_clearBit]
      exact iff_of_false (by simp) fun h => any (List.any_eq_true.mpr h)

/-- Sensors read in turn. -/
theorem samples {xs : List (Nat × Int)} (nodup : (xs.map (·.1)).Nodup) (s : State) :
    Sampled s (xs.foldl sampleOne s) ∧
    (∀ x ∈ xs, (xs.foldl sampleOne s).sensor x.1 = (s.sensor x.1).sample x.1 x.2 ∧
      (((s.sensor x.1).sample x.1 x.2).alarm = true → (s.sensor x.1).alarm = false → (xs.foldl sampleOne s).power.alert = true)) ∧
    (∀ n, n ∉ xs.map (·.1) → (xs.foldl sampleOne s).sensor n = s.sensor n) ∧ (AlarmShown s ∨ xs ≠ [] → AlarmShown (xs.foldl sampleOne s)) := by
  induction xs generalizing s with
  | nil => exact ⟨.refl s, by simp, fun n _ => rfl, fun h => h.resolve_right (by simp)⟩
  | cons x xs ih =>
    obtain ⟨n, v⟩ := x
    obtain ⟨first, rest⟩ := List.nodup_cons.mp nodup
    obtain ⟨sampled, sensors, shown, alert⟩ := sampleOne_samples s n v
    obtain ⟨sampled', reads, others, shown'⟩ := ih rest (sampleOne s (n, v))
    have sensor (m : Nat) : (sampleOne s (n, v)).sensor m = if m = n then (s.sensor n).sample n v else s.sensor m := by
      rw [State.sensor, sensors, State.modSensor, Tab.getD_modify]
      rfl
    rw [List.foldl_cons]
    refine ⟨sampled.trans sampled', fun y hy => ?_, fun m hm => ?_, fun _ => shown' (.inl shown)⟩
    · rcases List.mem_cons.mp hy with rfl | later
      · exact ⟨(others n first).trans ((sensor n).trans (if_pos rfl)), fun above before => sampled'.alert (alert above before)⟩
      · have ne : y.1 ≠ n := fun h => first (List.mem_map.mpr ⟨y, later, h⟩)
        have same : (sampleOne s (n, v)).sensor y.1 = s.sensor y.1 := (sensor y.1).trans (if_neg ne)
        rw [← same]
        exact reads y later
    · obtain ⟨ne, out⟩ := not_or.mp fun h => hm (List.mem_cons.mpr h)
      rw [others m out, sensor m, if_neg ne]

/-! ## Rows -/

theorem exec_thermalSample {rs : List Int} {s : State} (up : live s = true) (len : rs.length = 28) :
    exec (.thermalSample rs) s = .next (sampleEffect s rs) := occurs_of_true (by simp [up, len]) _ s

/-- The readings with their sensors. -/
def readings (rs : List Int) : List (Nat × Int) := (List.range 28).zip rs

theorem nodup_readings {rs : List Int} (len : rs.length = 28) : ((readings rs).map (·.1)).Nodup := by
  rw [readings, List.map_fst_zip (by simp [len])]
  exact List.nodup_range

theorem mem_readings {rs : List Int} (len : rs.length = 28) {n : Nat} {v : Int} : (n, v) ∈ readings rs ↔ rs[n]? = some v := by
  rw [readings, List.mem_iff_getElem?]
  refine ⟨fun ⟨i, h⟩ => ?_, fun h => ⟨n, ?_⟩⟩
  · obtain ⟨a, b⟩ := List.getElem?_zip_eq_some.mp h
    obtain ⟨inside, here⟩ := List.getElem?_eq_some_iff.mp a
    rw [List.getElem_range] at here
    obtain rfl : i = n := here
    exact b
  · obtain ⟨hn, -⟩ := List.getElem?_eq_some_iff.mp h
    exact List.getElem?_zip_eq_some.mpr ⟨List.getElem?_range (len ▸ hn), h⟩

/-- No reading is at a shutdown threshold. -/
theorem sampleEffect_of_safe {rs : List Int} (len : rs.length = 28) (safe : ∀ (n : Nat) (v : Int), rs[n]? = some v → v < shutdownAt n) (s : State) :
    sampleEffect s rs = (readings rs).foldl sampleOne s := by
  have none_ : (readings rs).find? (fun (n, t) => decide (shutdownAt n ≤ t)) = none :=
    List.find?_eq_none.mpr fun x mem => by simpa using safe x.1 x.2 ((mem_readings len).mp mem)
  unfold sampleEffect
  dsimp only
  rw [← readings, none_]

/-- The first reading at its shutdown threshold stops the device. -/
theorem sampleEffect_of_hot {rs : List Int} (len : rs.length = 28) {n : Nat} {v : Int} (reads : rs[n]? = some v) (hot : shutdownAt n ≤ v)
    (first : ∀ (m : Nat) (w : Int), m < n → rs[m]? = some w → w < shutdownAt m) (s : State) :
    sampleEffect s rs = thermalShutdown ((readings rs).foldl sampleOne s) n v := by
  have found : (readings rs).find? (fun (n, t) => decide (shutdownAt n ≤ t)) = some (n, v) := by
    refine List.find?_eq_some_iff_getElem.mpr ⟨by simpa using hot, n, ?_⟩
    obtain ⟨hn, value⟩ := List.getElem?_eq_some_iff.mp reads
    have short : n < (readings rs).length := by simp [readings, len]; omega
    refine ⟨short, by simp [readings, value], fun m hm => ?_⟩
    have read : rs[m]? = some rs[m] := List.getElem?_eq_getElem _
    simpa [readings] using first m _ hm read
  unfold sampleEffect
  dsimp only
  rw [← readings, found]

/-- A device whose thermal protection has tripped and that has dropped what flash held (R627). -/
def tripped (s : State) (n : Nat) (v : Int) : State :=
  (s.modPower fun p => { p with phase := .thermalStop, thermtrip := true, shutdownSensor := some (n, v) }).modFlash
    fun f => { f with wbuf := [], wdata := [], wheld := [], reads := [] }

/-- No piece and no alley slot in work. -/
def nothingInWork (s : State) : State := { s with pieces := [], alleys := [] }

/-- Every island but the control island stopped, and nothing in work (R627). -/
def allOff (s : State) : State := nothingInWork (stopIslands s (List.range 102) .off)

theorem thermalShutdown_eq (s : State) (n : Nat) (v : Int) : thermalShutdown s n v =
    allOff (tripped (((List.range 6).filter fun p => carries (s.link p)).foldl (fun s p => leaveService s p (s.link p).excluded) s) n v) := by
  simp only [thermalShutdown, allOff, nothingInWork, tripped]

theorem changes_nothingInWork (s : State) : Changes [.pieces, .alleys] s (nothingInWork s) := rfl

theorem changes_allOff (s : State) : Changes [.islands, .crossings, .pieces, .alleys] s (allOff s) :=
  (changes_stopIslands s (List.range 102) .off).comp (changes_nothingInWork _)

theorem allOff_island (s : State) {i : Nat} (hi : i < 102) : ((allOff s).island i).state ≠ .run ∧ ((allOff s).island i).state ≠ .gated := by
  have off := stopIslands_state s (List.range 102) .off i
  rw [if_pos (List.mem_range.mpr hi), IslState.stopIn] at off
  rw [allOff, (changes_nothingInWork _).same fun s => s.island i, off]
  split
  · simp
  · next other => exact not_or.mp other

/-- What a thermal shutdown leaves (R627). -/
theorem thermalShutdown_stops (s : State) (n : Nat) (v : Int) : (thermalShutdown s n v).power.phase = .thermalStop ∧
    (thermalShutdown s n v).power.thermtrip = true ∧ (thermalShutdown s n v).power.shutdownSensor = some (n, v) ∧
    (thermalShutdown s n v).flash.wbuf = [] ∧ (thermalShutdown s n v).pieces = [] ∧
    (∀ i, i < 102 → ((thermalShutdown s n v).island i).state ≠ .run ∧ ((thermalShutdown s n v).island i).state ≠ .gated) := by
  rw [thermalShutdown_eq]
  generalize ((List.range 6).filter fun p => carries (s.link p)).foldl (fun s p => leaveService s p (s.link p).excluded) s = t
  have off := changes_allOff (tripped t n v)
  have power : (allOff (tripped t n v)).power = (tripped t n v).power := off.same State.power
  have flash : (allOff (tripped t n v)).flash = (tripped t n v).flash := off.same State.flash
  rw [power, flash]
  exact ⟨rfl, rfl, rfl, rfl, by rw [allOff]; rfl, fun i hi => allOff_island _ hi⟩

/-- A sensor that is above its threshold, with its hysteresis (R624). -/
theorem aboveWith_iff (th v : Int) (was : Bool) : aboveWith th v was = true ↔ th ≤ v ∨ (was = true ∧ th - 24 ≤ v) := by
  simp [aboveWith, hysteresis]

theorem throttleEffect_of_hot {s : State} {n : Nat} (hot : (s.sensor n).throttling = true) : throttleEffect s n =
    ((diesOf n).foldl (fun s d => modDieCap s d fun x => max 11 (x.cap - 1))
      (s.modSensor n fun x => { x with ms := satAdd (2 ^ 32 - 1) x.ms 1 })).settleClocks := if_pos hot

/-- The dies of a sensor that no sensor throttles. -/
def coolDies (s : State) (n : Nat) : List Nat := (diesOf n).filter fun d => !dieThrottled s d

theorem coolDies_eq (s : State) (n : Nat) : coolDies s n = [] ∨ ∃ d, coolDies s n = [d] := by
  unfold coolDies
  rcases diesOf_eq n with none_ | ⟨d, one⟩
  · exact .inl (by rw [none_]; rfl)
  · rw [one, List.filter_singleton]
    cases dieThrottled s d
    · exact .inr ⟨d, rfl⟩
    · exact .inl rfl

theorem throttleEffect_of_cool {s : State} {n : Nat} (cool : (s.sensor n).throttling = false) : throttleEffect s n =
    ((coolDies s n).foldl (fun s d => modDieCap s d fun x => min 21 (x.thermalCap + 1)) s).settleClocks := by
  unfold throttleEffect coolDies
  rw [if_neg (by simp [cool])]
  rcases diesOf_eq n with none_ | ⟨d, one⟩
  · rw [none_]
    rfl
  · rw [one, List.filter_singleton]
    cases hot : dieThrottled s d
    · simp [hot]
    · simp [hot]

end Sys2Proof.Machine
end

section
/-! SUPPORT. The statement about power and heat (18_clocks_power_reset.md, 21_electrical_and_package.md). -/

namespace Sys2Proof.Machine

open Sys2Proof

-- Proofs are checked one at a time: each that waits for its turn would hold a thread's stack.
set_option Elab.async false

/-! ## Entries and exits of the power states (R515, R613 to R616) -/

/-- The end of an entry, before a command that was fetched meanwhile starts the exit. -/
def entered (d : Dp) (u : State) : State := (u.modPower fun p => { p with dp := d, entering := none }).settleClocks

theorem entered_power (d : Dp) (u : State) : (entered d u).power = { u.power with dp := d, entering := none } :=
  (changes_settleClocks (u.modPower fun p => { p with dp := d, entering := none })).same State.power

theorem entered_state (d : Dp) (u : State) (i : Nat) : ((entered d u).island i).state = (u.island i).state := by
  rw [entered, settleClocks_island]
  rfl

theorem changes_entered (d : Dp) (u : State) : Changes [.power, .islands, .quarters] u (entered d u) :=
  ((Changes.refl [.power] u).modPower fun p => { p with dp := d, entering := none }).comp (changes_settleClocks _)

theorem entryEffect_eq (s : State) (d : Dp) : entryEffect s d =
    (fun t => if s.power.entryCmd then wake0 t else t) (entered d (match d with | .dp2 => sleepDp2 s | .dp3 => sleepDp3 s | _ => s)) := rfl

theorem exec_dpEntryComplete {s : State} {d : Dp} (up : live s = true) (entering : s.power.entering = some d) (empty : s.flash.wbuf = []) :
    exec .dpEntryComplete s = .next (entryEffect s d) := by
  have row : exec .dpEntryComplete s = execDpEntryComplete s := rfl
  rw [row, execDpEntryComplete]
  simp only [entering]
  exact occurs_of_true (by simp [up, empty]) _ s

/-- A completed entry's power state (R515). -/
theorem entryEffect_power (s : State) (d : Dp) :
    (entryEffect s d).power.entering = none ∧ (entryEffect s d).power.dp = if s.power.entryCmd then .dp0 else d := by
  rw [entryEffect_eq]
  generalize (match d with | .dp2 => sleepDp2 s | .dp3 => sleepDp3 s | _ => s) = u
  by_cases cmd : s.power.entryCmd = true
  · simp only [cmd, if_true, wake0_power, and_self]
  · simp only [cmd, if_false, Bool.false_eq_true, entered_power, and_self]

theorem entryEffect_dp2 {s : State} (quiet : s.power.entryCmd = false) : entryEffect s .dp2 = entered .dp2 (sleepDp2 s) := by
  rw [entryEffect_eq, quiet]
  rfl

theorem entryEffect_dp3 {s : State} (quiet : s.power.entryCmd = false) : entryEffect s .dp3 = entered .dp3 (sleepDp3 s) := by
  rw [entryEffect_eq, quiet]
  rfl

/-- Entries and exits. -/
theorem powerStates : (∀ (s : State), live s = true → s.power.entering = none →
    (s.power.dp = .dp0 → (∀ y ∈ s.runs, y.2.launched = true → (Tab.getD s.scheds y.2.sched {}).header.checkClock ≤ 7) →
      exec .dp1Entry s = .next (enterDp s .dp1)) ∧
    (s.power.dp = .dp1 → mayRest s = true → exec .dp2Entry s = .next (enterDp s .dp2)) ∧
    (s.power.dp = .dp2 → mayRest s = true → portsAsleep s = true → homeOfNone s = true → exec .dp3Entry s = .next (enterDp s .dp3)) ∧
    (∀ c, (c = .dp1Exit ∧ s.power.dp = .dp1) ∨ (c = .dpExit ∧ (s.power.dp = .dp2 ∨ s.power.dp = .dp3)) → exec c s = .next (wake0 s))) := by
  intro s up entering
  have rests (d : Dp) : restsIn s d = (s.power.dp == d) := by simp [restsIn, up, entering]
  refine ⟨fun dp runs => ?_, fun dp rest => ?_, fun dp rest ports home => ?_, fun c at_ => ?_⟩
  · refine occurs_of_true ?_ _ s
    simp only [rests, dp, beq_self_eq_true, Bool.true_and, List.all_eq_true, Bool.or_eq_true, Bool.not_eq_true', decide_eq_true_eq]
    intro y hy
    cases launched : y.2.launched
    · exact .inl rfl
    · exact .inr (runs y hy launched)
  · exact occurs_of_true (by simp [rests, dp, rest]) _ s
  · exact occurs_of_true (by simp [rests, dp, rest, ports, home]) _ s
  · rcases at_ with ⟨rfl, dp⟩ | ⟨rfl, dp | dp⟩
    · exact occurs_of_true (by simp [rests, dp]) _ s
    · exact occurs_of_true (by simp [rests, dp]) _ s
    · exact occurs_of_true (by simp [rests, dp]) _ s

/-- The readings of an interval's sensors. -/
theorem sampleEffect_samples {rs : List Int} (len : rs.length = 28) (s : State) :
    Sampled s ((readings rs).foldl sampleOne s) ∧ AlarmShown ((readings rs).foldl sampleOne s) ∧
    ∀ (n : Nat) (v : Int), rs[n]? = some v → ((readings rs).foldl sampleOne s).sensor n = (s.sensor n).sample n v ∧
      (((s.sensor n).sample n v).alarm = true → (s.sensor n).alarm = false → ((readings rs).foldl sampleOne s).power.alert = true) := by
  obtain ⟨sampled, reads, -, shown⟩ := samples (nodup_readings len) s
  have some_ : readings rs ≠ [] := fun none_ => by simpa [readings, len] using congrArg List.length none_
  exact ⟨sampled, shown (.inr some_), fun n v h => reads (n, v) ((mem_readings len).mpr h)⟩

/-- A poll takes each rail, and then averages (R661). -/
theorem pollEffect_polls {rails : List (Option (Nat × Nat))} {es : List Nat} (lenRails : rails.length = 17) (lenEs : es.length = 17) (s : State) :
    let t := pollEffect s rails es
    (∀ (r mv ma : Nat), rails[r]? = some (some (mv, ma)) → Tab.get? t.power.rails r = some (mv * ma) ∧ r ∉ t.power.silent) ∧
    (∀ (r e : Nat), rails[r]? = some none → es[r]? = some e → Tab.get? t.power.rails r = some (e + e / 10) ∧ r ∈ t.power.silent) ∧
    t.power.samples = ((Tab.vals t.power.rails).foldl (· + ·) 0 :: s.power.samples).take 10 ∧
    t.power.watts = t.power.samples.foldl (· + ·) 0 / max 1 t.power.samples.length / 1000000 ∧
    t = { s with logs := t.logs, port0 := t.port0, port1 := t.port1, power := { s.power with
      rails := t.power.rails, silent := t.power.silent, samples := t.power.samples, watts := t.power.watts } } := by
  have nodup : (((List.range 17).zip (rails.zip es)).map (·.1)).Nodup := by
    rw [List.map_fst_zip (by simp [lenRails, lenEs])]
    exact List.nodup_range
  have listed {r : Nat} {got : Option (Nat × Nat)} {e : Nat} (rail : rails[r]? = some got) (est : es[r]? = some e) :
      (r, got, e) ∈ (List.range 17).zip (rails.zip es) := by
    obtain ⟨hr, -⟩ := List.getElem?_eq_some_iff.mp rail
    exact List.mem_iff_getElem?.mpr ⟨r, List.getElem?_zip_eq_some.mpr
      ⟨List.getElem?_range (lenRails ▸ hr), List.getElem?_zip_eq_some.mpr ⟨rail, est⟩⟩⟩
  obtain ⟨polled, reads, -⟩ := pollRails nodup s
  unfold pollEffect
  dsimp only
  generalize ((List.range 17).zip (rails.zip es)).foldl pollRail s = t at *
  refine ⟨fun r mv ma h => ?_, fun r e h est => reads _ (listed h est), ?_, rfl, ?_⟩
  · obtain ⟨hr, -⟩ := List.getElem?_eq_some_iff.mp h
    exact reads _ (listed h (List.getElem?_eq_getElem (by omega)))
  · rw [State.modPower_power, polled.power]
  · obtain ⟨kept, power⟩ := polled
    rw [State.modPower, show t = { s with logs := t.logs, port0 := t.port0, port1 := t.port1, power := t.power } from kept]
    dsimp only
    rw [power]

theorem exec_throttleStep {n : Nat} {s : State} (up : live s = true) (hn : n < 28) : exec (.throttleStep n) s = .next (throttleEffect s n) :=
  occurs_of_true (by simp [up, okSensor, hn]) _ s

/-- Settles O59: each row's effect by its own lemma. -/
theorem powerAndHeat : Obligations.PowerAndHeat := by
  refine ⟨⟨fun s up entering => ?_, fun d s up entering empty => ?_⟩, ⟨fun rs s up len => ⟨fun safe => ?_, fun n v reads hot first => ?_⟩,
    fun n s up hn => ⟨fun hot => ?_, fun cool => ?_⟩⟩, fun s on => ?_, fun s up => ?_, fun rails es s up lenRails lenEs => ?_⟩
  · obtain ⟨dp1, dp2, dp3, exits⟩ := powerStates s up entering
    refine ⟨dp1, dp2, dp3, fun c at_ => ⟨_, exits c at_, wake0_power s, fun i h => ?_, fun i h => ?_, fun y hy => ?_, ?_⟩⟩
    · rw [wake0_state]
      exact (runIslands_island _ s i).1 (mem_asleep h)
    · rw [wake0_state, (runIslands_island _ s i).2.1 (not_mem_asleep h)]
    · rw [wake0_cmds] at hy
      obtain ⟨z, -, rfl⟩ := List.mem_map.mp hy
      rfl
    · have kept := changes_wake0 s
      generalize wake0 s = t at *
      exact kept
  · obtain ⟨done, state⟩ := entryEffect_power s d
    refine ⟨_, exec_dpEntryComplete up entering empty, done, state, fun quiet dp => ?_, fun quiet dp => ?_⟩
    · rw [dp, entryEffect_dp2 quiet]
      have slept := changes_sleepDp2 s
      have after := changes_entered .dp2 (sleepDp2 s)
      refine ⟨?_, fun i hi run => ?_, fun i hi => ?_, fun k l x entry hx => ?_, ?_⟩
      · rw [entered_power, sleepDp2_power]
      · rw [entered_state, sleepDp2_state, if_pos hi, run]
        rfl
      · rw [entered_state, sleepDp2_state, if_neg (by omega)]
      · rw [after.same State.cache] at entry
        exact sleepDp2_clean s k l entry x hx
      · exact (after.same State.cmds).trans (slept.same State.cmds)
    · rw [dp, entryEffect_dp3 quiet]
      have slept := changes_sleepDp3 s
      have after := changes_entered .dp3 (sleepDp3 s)
      refine ⟨fun i hi run => ?_, fun i low hi => ?_, (after.same State.cmds).trans (slept.same State.cmds),
        (after.same State.colls).trans (slept.same State.colls)⟩
      · rw [entered_state, sleepDp3_state, if_pos hi, IslState.stopIn, if_pos run]
      · rw [entered_state, sleepDp3_state, if_neg (by omega)]
  · obtain ⟨⟨kept, power, -⟩, shown, reads⟩ := sampleEffect_samples len s
    refine ⟨_, (exec_thermalSample up len).trans (congrArg _ (sampleEffect_of_safe len safe s)), fun n v h => ?_, shown, ?_⟩
    · obtain ⟨sensor, alert⟩ := reads n v h
      rw [sensor]
      exact ⟨rfl, rfl, rfl, aboveWith_iff .., aboveWith_iff .., fun above before => alert ((aboveWith_iff ..).mpr (.inl above)) before⟩
    · generalize (readings rs).foldl sampleOne s = t at *
      rw [← power]
      exact kept
  · exact ⟨_, (exec_thermalSample up len).trans (congrArg _ (sampleEffect_of_hot len reads hot first s)), thermalShutdown_stops ..⟩
  · obtain ⟨kept, changed, others⟩ := dieCaps (diesOf_eq n) (fun x => max 11 (x.cap - 1)) (s.modSensor n fun x => { x with ms := satAdd (2 ^ 32 - 1) x.ms 1 })
    refine ⟨_, exec_throttleStep up hn, ?_⟩
    rw [throttleEffect_of_hot hot]
    have sensor : (s.modSensor n fun x => { x with ms := satAdd (2 ^ 32 - 1) x.ms 1 }).sensor n
        = { s.sensor n with ms := min (2 ^ 32 - 1) ((s.sensor n).ms + 1) } := by
      rw [State.sensor, State.modSensor, Tab.getD_modify_self]
      rfl
    have before : Changes [.sensors] s (s.modSensor n fun x => { x with ms := satAdd (2 ^ 32 - 1) x.ms 1 }) := (Changes.refl _ s).modSensor _ _
    have quarter (q : Nat) := before.same fun s => s.quarter q
    generalize (s.modSensor n fun x => { x with ms := satAdd (2 ^ 32 - 1) x.ms 1 }) = u at *
    simp only [quarter] at changed others
    refine ⟨(kept.same fun s => s.sensor n).trans sensor, fun q _ hq => changed q hq, others, ?_⟩
    generalize ((diesOf n).foldl (fun s d => modDieCap s d fun x => max 11 (x.cap - 1)) u).settleClocks = t at *
    exact before.comp (n := [.sensors, .quarters, .islands]) kept
  · obtain ⟨kept, changed, others⟩ := dieCaps (coolDies_eq s n) (fun x => min 21 (x.thermalCap + 1)) s
    refine ⟨_, exec_throttleStep up hn, ?_⟩
    rw [throttleEffect_of_cool cool]
    generalize ((coolDies s n).foldl (fun s d => modDieCap s d fun x => min 21 (x.thermalCap + 1)) s).settleClocks = t at *
    refine ⟨fun q _ hq free => (changed q (List.mem_filter.mpr ⟨hq, by simp [free]⟩)).1, fun q held => others q fun mem => ?_, kept⟩
    simpa [held] using (List.mem_filter.mp mem).2
  · exact ⟨_, occurs_of_true on _ s, rfl⟩
  · refine ⟨_, occurs_of_true up _ s, fun limit above q hq => ?_, fun below q hq => ?_, fun limit met near q hq => ?_,
      fun q hq => (limitEffect_quarter s hq).2, ?_, changes_limitEffect s⟩
    · rw [(limitEffect_quarter s hq).1, limitCap, if_pos (by simp [limit, above])]
    · rw [(limitEffect_quarter s hq).1, limitCap, if_neg (by simp; omega), if_pos (by simpa using below)]
    · rw [(limitEffect_quarter s hq).1, limitCap, if_neg (by simp; omega), if_neg (by simp; omega)]
    · rw [limitEffect_eq]
      generalize (limited s).settleClocks = t
      have quarter (f : Power → Power) (q : Nat) : (t.modPower f).quarter q = t.quarter q := rfl
      simp [and_assoc, quarter]
  · exact ⟨_, occurs_of_true (by simp [up, lenRails, lenEs]) _ s, pollEffect_polls lenRails lenEs s⟩

end Sys2Proof.Machine
end

section
/-! SUPPORT. Requests in a mailbox whose data buffer is not in the canonical form of a memory (log entry 2): a table that lists byte 8 twice.
The answer puts DW2 there; a byte 0 takes one listed entry away, and the other is read. No statement about answered admin commands asks for the
canonical form, so each fails for such a state. -/

namespace Sys2Proof.Machine

open Sys2Proof

-- Proofs are checked one at a time: each that waits for its turn would hold a thread's stack.
set_option Elab.async false

/-! ## A device with one request in mailbox 0 of port 0 -/

/-- A device in DP0 with every island running and port 0 up. -/
def idleDevice : State := { State.reset with
  power := { State.reset.power with phase := .running, pwrok := true }
  islands := (List.range 103).map fun i => (i, { state := .run, rate := 1000, locked := true, started := some 0 })
  port0 := { ({} : Port) with configReady := true, ready := true, busMaster := true, enabled := true } }

/-- A request's bytes from its fields: byte offset and value. -/
def requestBytes (fs : List (Nat × Nat)) : List Byte := leBytes 128 ((fs.map fun (o, v) => v * 2 ^ (8 * o)).foldl (· + ·) 0)

/-- A memory with byte 8 listed twice. -/
def twiceListed (m : Memory) : Memory := m.flatMap fun x => if x.1 = 8 then [x, x] else [x]

/-- A device with a request of an opcode, of class 2, in mailbox 0 of port 0. Byte 8, of its input address, is 5 and listed twice. -/
def asking (s : State) (op : Nat) (fs : List (Nat × Nat)) (inp : List Byte := []) : State :=
  s.modMailbox .p0 0 fun x => { x with
    firmware := true, reqLen := 128 + inp.length, buf := twiceListed (Mem.writeN [] 0 (requestBytes ([(0, op), (1, 2), (8, 5)] ++ fs) ++ inp)) }

/-- Where the request comes from. -/
def mailbox0 : AdminSrc := .mailbox .p0 0 []

/-- What accepts asks of a request in mailbox 0 of port 0, as a computation. -/
def acceptsMailbox (s : State) (op : Nat) : Bool :=
  let y := s.mailbox .p0 0
  let e := requestEntry y.buf
  let r := s.modMailbox .p0 0 fun z => { z with started := true }
  barUp s .p0 && y.firmware && !y.started && !y.discard && takesRequests s && decide (eOpcode e = op) && decide (eInLen e = 0)
    && (requestChecks (adminFetched s mailbox0) y.reqLen true e).isNone
    && (match (adminFetched s mailbox0).cmd? s.nextCmd with
      | some x => decide (checksB (adminFetched s mailbox0) .p0 x (requestInput r .p0 y.buf y.reqLen []) = .passes)
      | none => true)
    && (match (adminTaken s mailbox0).cmd? s.nextCmd with
      | some x => x.stage == .waiting && mayStartAdmin (adminTaken s mailbox0) s.nextCmd x
      | none => false)
    && s.cmds.all fun y => decide (y.1 < s.nextCmd)

theorem accepts_mailbox0 {s : State} {op : Nat} (h : acceptsMailbox s op = true) : s.accepts op mailbox0 := by
  simp only [acceptsMailbox, Bool.and_eq_true, Bool.not_eq_true', decide_eq_true_eq, Option.isNone_iff_eq_none, List.all_eq_true] at h
  obtain ⟨⟨⟨⟨⟨⟨⟨⟨⟨⟨up, firmware⟩, started⟩, discard⟩, takes⟩, opcode⟩, inLen⟩, checks⟩, passes⟩, starts⟩, below⟩ := h
  refine ⟨⟨up, by decide, firmware, started, discard, takes, opcode, .inl inLen, checks, fun x hx => ?_⟩, ?_, below⟩
  · rw [hx] at passes
    exact of_decide_eq_true passes
  · split at starts
    · next x hx => exact ⟨x, hx, by simpa using starts⟩
    · cases starts

/-! ## Its answer -/

/-- The state that a command leaves. -/
def leftBy (c : Instr) (s : State) : State :=
  match exec c s with
  | .next t => t
  | _ => s

theorem leftBy_eq {c : Instr} {s t : State} (h : exec c s = .next t) : leftBy c s = t := by
  simp only [leftBy, h]

/-- A command answers the request, and byte 8 still reads 5. -/
def keepsByte8 (c : Instr) (s : State) : Bool :=
  ((leftBy c s).cmd? s.nextCmd).isNone && decide (Mem.read ((leftBy c s).mailbox .p0 0).buf 8 = 5)

/-- The lowest byte of DW2 is byte 8 of a completion. -/
theorem cqeBytes_byte8 (k : Completion) (sqHead sqId tag : Nat) (phase : Bool) :
    (cqeBytes k sqHead sqId tag phase)[8]? = some (BitVec.ofNat 8 k.dw2) := rfl

theorem getElem?_readN (m : Memory) (a : Nat) {n i : Nat} (h : i < n) : (Mem.readN m a n)[i]? = some (Mem.read m (a + i)) := by
  have inside : i < (Mem.readN m a n).length := by rwa [Mem.length_readN]
  rw [List.getElem?_eq_getElem inside, Mem.getElem_readN]

/-- A request whose buffer still reads 5 at byte 8 was answered with no DW2 whose lowest byte is other than 5. -/
theorem not_answers {c : Instr} {s t : State} (run : exec c s = .next t) (kept : keepsByte8 c s = true) {st : Status} {dw2 dw3 : Nat}
    (other : BitVec.ofNat 8 dw2 ≠ 5#8) : ¬ t.answers s mailbox0 st dw2 dw3 := by
  simp only [keepsByte8, leftBy_eq run, Bool.and_eq_true, decide_eq_true_eq, Option.isNone_iff_eq_none] at kept
  obtain ⟨gone, byte⟩ := kept
  rintro (⟨⟨x, k, here, -⟩, -⟩ | ⟨-, -, -, -, k, tag, shown, -, rfl, -⟩)
  · rw [gone] at here
    cases here
  · have read := congrArg (·[8]?) shown
    simp only [cqeBytes_byte8, getElem?_readN _ 0 (show 8 < 32 by decide), Nat.zero_add, byte] at read
    exact other (Option.some.inj read).symm

/-- The command of the request once the firmware has started it. -/
def askedCmd (s : State) : Cmd := ((adminStarted s mailbox0).cmd? s.nextCmd).getD default

theorem askedCmd_eq {s : State} (h : ((adminStarted s mailbox0).cmd? s.nextCmd).isSome = true) :
    (adminStarted s mailbox0).cmd? s.nextCmd = some (askedCmd s) := by
  obtain ⟨x, hx⟩ := Option.isSome_iff_exists.mp h
  rw [askedCmd, hx]
  rfl

/-! ## The statements -/

/-- ATTEST on a device without an identity. -/
def askingAttest : State := asking idleDevice 0x8C []

/-- Refutes O43: ATTEST in a mailbox whose buffer lists byte 8 twice; DW2 of the answer reads 5 there, not 0. -/
theorem not_reportsAndFeatures : ¬ Obligations.ReportsAndFeatures := by
  intro h
  obtain ⟨-, refuses⟩ := h.1 mailbox0 askingAttest _ _ rfl (askedCmd_eq (by decide +kernel))
  obtain ⟨t, run, answered, -⟩ := refuses (accepts_mailbox0 (by decide +kernel)) (.inl (by decide +kernel))
  exact not_answers run (by decide +kernel) (by decide) answered

/-- QUEUE_CREATE of pair 2, which is absent. -/
def askingQueue : State := asking idleDevice 0x84 [(0x28, 0x3000), (0x30, 0x5000), (0x38, 7), (0x3A, 15), (0x3C, 2)]

/-- Refutes O44: QUEUE_CREATE in a mailbox whose buffer lists byte 8 twice; DW2 of the answer reads 5 there, not 0. -/
theorem not_queuesAreAdministered : ¬ Obligations.QueuesAreAdministered := by
  intro h
  obtain ⟨creates, -⟩ := h mailbox0 askingQueue _ _ _ rfl (askedCmd_eq (by decide +kernel)) rfl
  obtain ⟨t, run, answered, -⟩ := (creates (accepts_mailbox0 (by decide +kernel))).1 (by decide +kernel)
  exact not_answers run (by decide +kernel) (by decide) answered

/-- FW_COMMIT to slot 0 without an image in the port's buffer. -/
def askingCommit : State := asking idleDevice 0x89 []

/-- Refutes O45: FW_COMMIT in a mailbox whose buffer lists byte 8 twice; DW2 of the answer reads 5 there, not 0. -/
theorem not_firmwareIsUpdated : ¬ Obligations.FirmwareIsUpdated := by
  intro h
  obtain ⟨-, commits, -⟩ := h mailbox0 askingCommit _ _ _ rfl (askedCmd_eq (by decide +kernel)) rfl
  obtain ⟨t, run, answered, -⟩ := (commits (accepts_mailbox0 (by decide +kernel)) (by decide +kernel)).2.2 (by decide +kernel)
  exact not_answers run (by decide +kernel) (by decide) answered

/-- A collection of this device alone, of handle 0x10000. -/
def smallColl : Collection :=
  { attrs := { dim := 2 }, dirs := [{ number := 1, segs := [], limits := [], cbGen := 1, listCount := 1, fromEpoch := 0 }] }

/-- The device with it. -/
def collDevice : State := { idleDevice with colls := [(0, smallColl)] }

/-- COLLECTION_SET of its COMPACT_THRESHOLD. -/
def askingSet : State := asking collDevice 0x91 [(4, 0x10000), (0x28, 2)] (List.replicate 11 0 ++ [80] ++ List.replicate 116 0)

/-- The attributes that it asks for. -/
def askedAttrs : Attrs := (setAttrs smallColl.attrs (askedCmd askingSet).input (eSetMask (askedCmd askingSet).entry)).getD {}

/-- Refutes O46: COLLECTION_SET in a mailbox whose buffer lists byte 8 twice; DW2 of the answer reads 5 there, not 0. -/
theorem not_collectionsAreMade : ¬ Obligations.CollectionsAreMade := by
  intro h
  obtain ⟨-, sets⟩ := h mailbox0 askingSet _ _ rfl (askedCmd_eq (by decide +kernel))
  obtain ⟨t, y, run, answered, -⟩ := sets 0 smallColl askedAttrs (accepts_mailbox0 (by decide +kernel)) (by decide +kernel) rfl
    (by decide +kernel) (by decide +kernel) (by decide +kernel) (by decide +kernel) (.inr rfl) (by decide +kernel)
  exact not_answers run (by decide +kernel) (by decide) answered

/-- COLLECTION_DELETE of it. -/
def askingDelete : State := asking collDevice 0x92 [(4, 0x10000)]

/-- Refutes O47: COLLECTION_DELETE in a mailbox whose buffer lists byte 8 twice; DW2 of the answer reads 5 there, not 0. -/
theorem not_collectionsAreDeleted : ¬ Obligations.CollectionsAreDeleted := by
  intro h
  obtain ⟨deletes, -⟩ := h mailbox0 askingDelete _ _ 0 smallColl rfl (askedCmd_eq (by decide +kernel)) (accepts_mailbox0 (by decide +kernel))
    (by decide +kernel) (by decide +kernel) rfl rfl (by decide) (by decide +kernel)
  obtain ⟨t, run, answered, -⟩ := deletes (by decide +kernel) (by decide +kernel)
  exact not_answers run (by decide +kernel) (by decide) answered

/-- SCHEDULE_BIND of it to no schedule. -/
def askingBind : State := asking collDevice 0x9A [(4, 0x10000)]

/-- Refutes O48: SCHEDULE_BIND in a mailbox whose buffer lists byte 8 twice; DW2 of the answer reads 5 there, not 0. -/
theorem not_maintenanceAndSchedules : ¬ Obligations.MaintenanceAndSchedules := by
  intro h
  obtain ⟨-, -, binds⟩ := h.2 mailbox0 askingBind _ _ rfl (askedCmd_eq (by decide +kernel))
  have noSched : schedOf (adminStarted askingBind mailbox0) (BitVec.ofNat 32 (ef (askedCmd askingBind).entry 0x28 4)) = none := by decide +kernel
  obtain ⟨t, run, answered, -⟩ := binds 0 smallColl (accepts_mailbox0 (by decide +kernel)) (by decide +kernel) (by decide +kernel)
    (by decide +kernel) (by decide +kernel) (by decide +kernel) (fun d found => absurd (noSched.symm.trans found) (by simp)) (by decide +kernel)
  exact not_answers run (by decide +kernel) (by decide) answered

/-- HBM_DIAG of a register that takes no write. -/
def askingDiag : State := asking idleDevice 0xA9 [(0x28, 3), (0x2A, 1), (0x2C, 0x30)]

/-- Refutes O49: HBM_DIAG in a mailbox whose buffer lists byte 8 twice; DW2 of the answer reads 5 there, not 0. -/
theorem not_regionsAndChannels : ¬ Obligations.RegionsAndChannels := by
  intro h
  obtain ⟨-, -, -, diag⟩ := h mailbox0 askingDiag _ _ rfl (askedCmd_eq (by decide +kernel))
  obtain ⟨t, run, answered, -⟩ := (diag _ (accepts_mailbox0 (by decide +kernel)) rfl).2.2 (by decide +kernel) (by decide +kernel)
  exact not_answers run (by decide +kernel) (by decide) answered

end Sys2Proof.Machine
end

section
/-! SUPPORT. Atomics (R262, R263), and the statement about them (07_core_and_cache.md). -/

namespace Sys2Proof.Machine

open Sys2Proof

-- Proofs are checked one at a time: each that waits for its turn would hold a thread's stack.
set_option Elab.async false

/-- What an atomic that finds an old word leaves: the new word in its place, and in the fetching form the old one returned. -/
def atomicAnswer (s : State) (g : AtomicArgs) (old v64 : BitVec 64) (v32 : BitVec 32) : State :=
  let u := cachePut s g.src g.addr (if g.wide then leBytes 8 v64.toNat else leBytes 4 v32.toNat) .keep
  if g.fetching then { u with cache := { u.cache with returned := leBytes (if g.wide then 8 else 4) old.toNat } } else u

theorem atomicEffect_of_old {s : State} {g : AtomicArgs} {old : BitVec 64} (h : atomicOld s g.addr g.wide = some old) (op : AtomicOp) (cmp : BitVec 64) :
    atomicEffect s op g cmp = atomicAnswer s g old (atomicResult 64 op old g.operand cmp)
      (atomicResult 32 op (old.setWidth 32) (g.operand.setWidth 32) (cmp.setWidth 32)) := by
  unfold atomicEffect
  rw [h]
  rfl

/-- A core that has the right, and every source but a mover, performs an atomic in a form that it has. -/
theorem atomicRow_of_may {s : State} {g : AtomicArgs} {old : BitVec 64} (up : issuerUp s g.src = true) (source : ∀ q, g.src ≠ .mover q)
    (may : ∀ n, g.src = .core n → coreMay s n g.addr (if g.wide then 8 else 4) .atomic = true) (reach : reachable s g.addr = true)
    (placed : g.addr % (if g.wide then 8 else 4) = 0) (h : atomicOld s g.addr g.wide = some old) (op : AtomicOp) (cmp : BitVec 64) :
    atomicRow op g cmp true s = .next (atomicAnswer s g old (atomicResult 64 op old g.operand cmp)
      (atomicResult 32 op (old.setWidth 32) (g.operand.setWidth 32) (cmp.setWidth 32))) := by
  have right : aligned g.addr (atomicWidth g.wide) = true := by simpa [aligned, atomicWidth] using placed
  have allowed : coreViolates s g.src g.addr (atomicWidth g.wide) .atomic (!aligned g.addr (atomicWidth g.wide) || !true) = none := by
    unfold coreViolates
    split
    · next n core => simp [right, show coreMay s n g.addr (atomicWidth g.wide) .atomic = true from may n core]
    · rfl
  have may : atomicSource g.src = true := by
    unfold atomicSource
    split
    · next q mover => exact absurd mover (source q)
    · rfl
  unfold atomicRow
  dsimp only
  rw [allowed]
  dsimp only
  rw [h, atomicEffect_of_old h]
  exact occurs_of_true (by simp [up, may, reach, right]) _ s

/-- Settles O16: every operation is the row of R262, and the results of the table are those of the operations at both widths. -/
theorem atomicsCompute : Obligations.AtomicsCompute := by
  intro g cmp old s up source may reach placed found answer given
  have row (op : AtomicOp) (c : BitVec 64) : atomicRow op g c true s = .next (answer (atomicResult 64 op old g.operand c)
      (atomicResult 32 op (old.setWidth 32) (g.operand.setWidth 32) (c.setWidth 32))) := by
    rw [given]
    exact atomicRow_of_may up source may reach placed found op c
  refine ⟨row .add 0, fun narrow => ?_, row .minU 0, row .maxU 0, row .minS 0, row .maxS 0, row .or 0, fun fetching => ?_⟩
  · have fadd := row .fadd 0
    rw [given] at fadd ⊢
    simp only [narrow, Bool.false_eq_true, if_false, atomicResult, BitVec.setWidth_eq] at fadd ⊢
    have form : exec (.fadd g) s = atomicRow .fadd g 0 (!g.wide) s := rfl
    rw [form, narrow]
    exact fadd
  · have form : exec (.cas g cmp) s = atomicRow .cas g cmp g.fetching s := rfl
    rw [form, fetching]
    exact row .cas cmp

end Sys2Proof.Machine
end

section
/-! SUPPORT. What a port sends and holds, configuration requests, and register writes without a row of their own, and the statement about them
(13_host_interface.md, 09_data_movement.md). -/

namespace Sys2Proof.Machine

open Sys2Proof

-- Proofs are checked one at a time: each that waits for its turn would hold a thread's stack.
set_option Elab.async false

/-! ## Requests that wait (R480) -/

theorem releaseWaiting_of_held {s : State} {p : PortId} (h : (s.port p).d3hot = true ∨ (s.port p).busMaster = false) : releaseWaiting s p = s :=
  s.modPort_of_self p (if_pos (by rcases h with h | h <;> simp [h]))

theorem releaseWaiting_of_free {s : State} {p : PortId} (d0 : (s.port p).d3hot = false) (master : (s.port p).busMaster = true) :
    releaseWaiting s p = s.modPort p fun x => { x with sent := x.sent ++ x.waiting, waiting := [] } :=
  s.modPort_congr p (if_neg (by simp [d0, master]))

theorem emit_of_held {s : State} {p : PortId} (o : PortOut) (h : (s.port p).d3hot = true ∨ (s.port p).busMaster = false) :
    emit s p o = s.modPort p fun x => { x with waiting := x.waiting ++ [o] } :=
  s.modPort_congr p (if_pos (by rcases h with h | h <;> simp [h]))

theorem canFetch_of_held {s : State} {p : PortId} (q : Nat) (h : (s.port p).d3hot = true ∨ (s.port p).busMaster = false) :
    canFetch s p q = false := by
  rcases h with h | h <;> simp [canFetch, h]

/-- D3hot and bus mastering. -/
theorem portHolds (p : PortId) (s : State) :
    (portPowered s p = true → (s.port p).inReset = false →
      exec (.d3hotEntry p) s = .next (s.modPort p fun x => { x with d3hot := true }) ∧
      exec (.busMasterEnable p false) s = .next (s.modPort p fun x => { x with busMaster := false }) ∧
      ((s.port p).d3hot = true → exec (.busMasterEnable p true) s = .next (s.modPort p fun x => { x with busMaster := true })) ∧
      ((s.port p).d3hot = false → exec (.busMasterEnable p true) s = .next (s.modPort p fun x => { x with
        busMaster := true, sent := x.sent ++ x.waiting, waiting := [] }))) ∧
    ((s.port p).d3hot = true →
      ((s.port p).busMaster = true → exec (.d0Return p) s = .next (s.modPort p fun x => { x with
        d3hot := false, sent := x.sent ++ x.waiting, waiting := [] })) ∧
      ((s.port p).busMaster = false → exec (.d0Return p) s = .next (s.modPort p fun x => { x with d3hot := false }))) := by
  have enables (on : Bool) (powered : portPowered s p = true) (running : (s.port p).inReset = false) :
      exec (.busMasterEnable p on) s = .next (releaseWaiting (s.modPort p fun x => { x with busMaster := on }) p) :=
    occurs_of_true (by simp [powered, running]) _ s
  refine ⟨fun powered running => ⟨occurs_of_true (by simp [powered, running]) _ s, ?_, fun d3 => ?_, fun d0 => ?_⟩, fun d3 => ⟨fun master => ?_, fun free => ?_⟩⟩
  · rw [enables false powered running, releaseWaiting_of_held (.inr (by rw [State.port_modPort]))]
  · rw [enables true powered running, releaseWaiting_of_held (.inl (by rw [State.port_modPort]; exact d3))]
  · rw [enables true powered running, releaseWaiting_of_free (by rw [State.port_modPort]; exact d0) (by rw [State.port_modPort]), State.modPort_modPort]
  · have row : exec (.d0Return p) s = .next (releaseWaiting (s.modPort p fun x => { x with d3hot := false }) p) := occurs_of_true d3 _ s
    rw [row, releaseWaiting_of_free (by rw [State.port_modPort]) (by rw [State.port_modPort]; exact master), State.modPort_modPort]
  · have row : exec (.d0Return p) s = .next (releaseWaiting (s.modPort p fun x => { x with d3hot := false }) p) := occurs_of_true d3 _ s
    rw [row, releaseWaiting_of_held (.inr (by rw [State.port_modPort]; exact free))]

/-! ## Configuration requests (R451, R456, R367, R375) -/

theorem exec_configRequest {p : PortId} {r : CfgReq} {s : State} (powered : portPowered s p = true) (ok : cfgReqOk r = true) :
    exec (.configRequest p r) s = .next (configEffect s p r) := occurs_of_true (by simp [powered, ok]) _ s

theorem configEffect_of_unready {s : State} {p : PortId} (r : CfgReq) (h : (s.port p).configReady = false) : configEffect s p r = answer s p .cfgRetry := by
  unfold configEffect
  rw [h]
  rfl

theorem configEffect_ats {s : State} {p : PortId} (ready : (s.port p).configReady = true) (on : Bool) :
    configEffect s p (.ats on) = s.modPort p fun x => { x with xlt := { x.xlt with atsOn := on, dtc := if on then x.xlt.dtc else [] } } := by
  unfold configEffect
  rw [ready]
  rfl

theorem configEffect_pri {s : State} {p : PortId} (ready : (s.port p).configReady = true) (on : Bool) (a : Nat) :
    configEffect s p (.pri on a) = s.modPort p fun x => { x with
      xlt := { x.xlt with priOn := on, priStopped := x.xlt.priStopped && !(on && !x.xlt.priOn), allocation := a } } := by
  unfold configEffect
  rw [ready]
  rfl

theorem configEffect_read {s : State} {p : PortId} (ready : (s.port p).configReady = true) (n : Nat) :
    configEffect s p (.read n) = s.modPort p fun x => { x with sent := x.sent ++ [.cfgRead (some (cfgDword n))] } := by
  unfold configEffect
  rw [ready]
  rfl

theorem configEffect_fields {s : State} {p : PortId} (ready : (s.port p).configReady = true) :
    (∀ n, configEffect s p (.maxPayload n) = s.modPort p fun x => { x with maxPayload := n }) ∧
    (∀ n, configEffect s p (.maxReadRequest n) = s.modPort p fun x => { x with maxRead := n }) ∧
    configEffect s p (.msixEnable false) = s.modPort p fun x => { x with msixEnable := false } := by
  unfold configEffect
  rw [ready]
  exact ⟨fun n => rfl, fun n => rfl, rfl⟩

/-! ## Register writes (R458) -/

theorem exec_bar0 {s : State} {p : PortId} (up : barUp s p = true) {off : Nat} (inside : off < 0x40000) (bytes : List Byte) (a : BitVec 64) :
    exec (.registerWrite ⟨.bar0 p off bytes, a⟩) s = .next (bar0Effect s p off bytes a.toNat) := by
  have effect : registerWriteEffect s a.toNat (.bar0 p off bytes) = bar0Effect s p off bytes a.toNat := if_pos up
  rw [exec_registerWrite, effect]
  exact occurs_of_true (decide_eq_true inside) _ s

/-- An aligned write of four bytes is one write of a register. -/
theorem exec_bar0_word {s : State} {p : PortId} (up : barUp s p = true) {off : Nat} (inside : off < 0x40000) (aligned : off % 4 = 0)
    (b0 b1 b2 b3 : Byte) (a : BitVec 64) :
    exec (.registerWrite ⟨.bar0 p off [b0, b1, b2, b3], a⟩) s = .next (bar0Write s p off (leNat [b0, b1, b2, b3]) (a.toNat % 2 ^ 32)) := by
  rw [exec_bar0 up inside, bar0Effect, if_pos ⟨rfl, aligned⟩]

theorem exec_block {addr : Nat} (inside : addr < 2 ^ 32) (aligned : addr % 4 = 0) (v : Word) (w : Writer) (a : BitVec 64) (s : State) :
    exec (.registerWrite ⟨.block addr v w, a⟩) s = .next (if writerMay s w then blockWrite s addr v a.toNat else s) :=
  occurs_of_true (by simp [RegTarget.ok, aligned]; omega) _ s

/-- A write of a channel's block by the firmware. -/
theorem exec_channelBlock {ch off : Nat} (hch : ch < 512) (inside : off < 0x400) (aligned : off % 4 = 0) {s : State} (serves : fwServes s = true)
    (v : Word) (a : BitVec 64) :
    exec (.registerWrite ⟨.block (0x01000000 + ch * 0x400 + off) v .firmware, a⟩) s = .next (chanWrite s ch off v a.toNat) := by
  have may : writerMay s .firmware = true := by simp [writerMay, serves]
  have place : (0x01000000 + ch * 0x400 + off - 0x01000000) / 0x400 = ch ∧ (0x01000000 + ch * 0x400 + off) % 0x400 = off := by omega
  rw [exec_block (by omega) (by omega), if_pos may, blockWrite, if_pos (by omega), place.1, place.2]

theorem mbBufWrite_eq (s : State) (p : PortId) (m off : Nat) (bytes : List Byte) : mbBufWrite s p m off bytes = s.modPort p fun x => { x with
    mailboxes := Tab.modify (s.port p).mailboxes m {} fun y => if y.firmware then y else { y with buf := Mem.writeN y.buf off bytes } } := by
  rw [mbBufWrite, State.modMailbox]
  exact s.modPort_congr p rfl

/-- A write of a data buffer that the firmware owns is discarded (R472). -/
theorem exec_ownedBuffer {s : State} {p : PortId} (up : barUp s p = true) {m : Nat} (hm : m < 16) (owned : (s.mailbox p m).firmware = true)
    (bytes : List Byte) (a : BitVec 64) :
    ∃ t, exec (.registerWrite ⟨.bar2 p (m * 0x1000) bytes, a⟩) s = .next t ∧ (∀ k, t.mailbox p k = s.mailbox p k) ∧
      t = s.modPort p fun x => { x with mailboxes := (t.port p).mailboxes } := by
  have row : exec (.registerWrite ⟨.bar2 p (m * 0x1000) bytes, a⟩) s = .next (bar2Effect s p (m * 0x1000) bytes a.toNat) := by
    have effect : registerWriteEffect s a.toNat (.bar2 p (m * 0x1000) bytes) = bar2Effect s p (m * 0x1000) bytes a.toNat := if_pos up
    rw [exec_registerWrite, effect]
    exact occurs_of_true (by simp [RegTarget.ok]; omega) _ s
  have same : ∃ l, bar2Effect s p (m * 0x1000) bytes a.toNat = s.modPort p (fun x => { x with mailboxes := l }) ∧
      ∀ k, Tab.getD l k {} = s.mailbox p k := by
    rw [bar2Effect, if_pos (by omega), Nat.mul_div_cancel m (by decide), Nat.mul_mod_left]
    split
    · refine ⟨_, mbBufWrite_eq .., fun k => ?_⟩
      by_cases here : k = m
      · subst here
        rw [Tab.getD_modify_self]
        exact if_pos owned
      · rw [Tab.getD_modify, if_neg here]
        rfl
    · exact ⟨(s.port p).mailboxes, (s.modPort_of_self p rfl).symm, fun k => rfl⟩
  obtain ⟨l, left, kept⟩ := same
  refine ⟨_, row.trans (congrArg _ left), fun k => ?_, ?_⟩
  · rw [State.mailbox, State.port_modPort]
    exact kept k
  · rw [State.port_modPort]

/-- Settles O11: each row is its equation. -/
theorem portsAndRegisters : Obligations.PortsAndRegisters := by
  refine ⟨fun p s => ?_, fun p s powered => ⟨fun r ok unready => ?_, fun ready => ?_⟩, fun p s => ⟨fun up => ?_, fun addr v a inside aligned => ?_, fun ch v a hch serves => ⟨?_, ?_⟩⟩⟩
  · obtain ⟨entry, return_⟩ := portHolds p s
    exact ⟨entry, return_, fun o held => emit_of_held o held, fun q held => canFetch_of_held q held,
      fun powered => ⟨occurs_of_true powered _ s, occurs_of_true powered _ s⟩⟩
  · rw [exec_configRequest powered ok, configEffect_of_unready r unready]
    rfl
  · obtain ⟨payload, read, msix⟩ := configEffect_fields ready
    refine ⟨?_, ?_, ?_, fun on a ha => ?_, fun n hn => ?_, fun n hn => ?_, ?_⟩
    · rw [exec_configRequest powered rfl, configEffect_read ready]
      rfl
    · rw [exec_configRequest powered rfl, configEffect_ats ready]
      rfl
    · rw [exec_configRequest powered rfl, configEffect_ats ready]
      rfl
    · rw [exec_configRequest (r := .pri on a) powered (decide_eq_true ha), configEffect_pri ready]
    · rw [exec_configRequest powered (by simpa [cfgReqOk] using hn), payload]
    · rw [exec_configRequest powered (by simpa [cfgReqOk] using hn), read]
    · rw [exec_configRequest powered rfl, msix]
  · refine ⟨fun b0 b1 b2 b3 a => ?_, fun b0 b1 b2 b3 a off => ?_, fun off reg on b0 b1 b2 b3 a => ?_, fun off bytes a inside not4 not8 => ?_,
      fun m bytes a hm owned => exec_ownedBuffer up hm owned bytes a⟩
    · rw [exec_bar0_word up (by decide) rfl]
      refine congrArg _ (s.modPort_congr p ?_)
      simp [bitsOf]
    · rw [exec_bar0_word up (by decide) rfl]
      refine congrArg _ (s.modPort_congr p ?_)
      simp [bitsOf, off, Nat.shiftRight_eq_div_pow]
    · exact exec_registerWrite_bar0 up (by omega) b0 b1 b2 b3 a fun w arising => bar0Write_of_enabled on reg w arising
    · rw [exec_bar0 up inside, bar0Effect, if_neg not4, if_neg not8]
  · rw [exec_block inside aligned]
    exact congrArg _ (if_neg (by simp [writerMay]))
  · exact exec_channelBlock hch (by decide) rfl serves v a
  · rintro b1 b2 b3 b4 rfl rfl rfl rfl
    exact exec_channelBlock hch (by decide) rfl serves v a

end Sys2Proof.Machine
end

section
/-! SUPPORT. An ABORT whose own number a channel's migration names, and the statement about ABORTs (14_command_queues.md). -/

namespace Sys2Proof.Machine

open Sys2Proof

-- Proofs are checked one at a time: each that waits for its turn would hold a thread's stack.
set_option Elab.async false

/-! ## What a fetch asks, as a computation -/

/-- What fetches asks of an entry without input. -/
def fetchesNow (s : State) (p : PortId) (q : Nat) (e : BitVec 1024) (op : Nat) : Bool :=
  canFetch s p q && decide (q < 2048) && fetchTurn s p q && accessPasses s p (fetchNum q) && inputReady s p q e [] && decide (eOpcode e = op)

theorem fetches_of_now {s : State} {p : PortId} {q : Nat} {e : BitVec 1024} {op : Nat} (h : fetchesNow s p q e op = true) : s.fetches p q e [] op := by
  simp only [fetchesNow, Bool.and_eq_true, decide_eq_true_eq] at h
  obtain ⟨⟨⟨⟨⟨may, inside⟩, turn⟩, passes⟩, ready⟩, opcode⟩ := h
  exact ⟨may, inside, turn, passes, ready, opcode⟩

/-- What entryPasses asks of an entry without input of a class other than 0. -/
def passesNow (s : State) (p : PortId) (q : Nat) (e : BitVec 1024) : Bool :=
  (checksA (turned s p q) p q e).isNone && decide (eClass e ≠ 0) &&
  (match (entryDrawn s p q e []).cmd? s.nextCmd with
    | some x => decide (checksB (entryDrawn s p q e []) p x (entryInput (turned s p q) p e []) = .passes)
    | none => true) &&
  match accessOf (entryDrawn s p q e []) p (commandNum s.nextCmd) with
    | some (a, len, w) => decide ((xltRange (entryDrawn s p q e []) p a len w).2 ≠ .noRight)
    | none => true

theorem entryPasses_of_now {s : State} {p : PortId} {q : Nat} {e : BitVec 1024} (h : passesNow s p q e = true) : s.entryPasses p q e [] := by
  simp only [passesNow, Bool.and_eq_true, decide_eq_true_eq, Option.isNone_iff_eq_none] at h
  obtain ⟨⟨⟨early, cls⟩, checks⟩, rights⟩ := h
  refine ⟨early, fun zero => absurd zero cls, fun x hx => ?_, fun a len w access => ?_⟩
  · rw [hx] at checks
    exact of_decide_eq_true checks
  · rw [access] at rights
    exact of_decide_eq_true rights

/-! ## The counterexample -/

/-- A submission entry from its fields: byte offset and value. -/
def entryOf (fs : List (Nat × Nat)) : BitVec 1024 := BitVec.ofNat 1024 ((fs.map fun (o, v) => v * 2 ^ (8 * o)).foldl (· + ·) 0)

/-- A RUNNING HBM_MIGRATE of queue pair 0, with tag 9, of channel 0. -/
def migrateCmd : Cmd := { origin := .sq .p0 0, entry := entryOf [(0, 0xA8), (1, 2), (2, 9)], input := [], work := { channel := some 0 } }

/-- It is command 3, and channel 0 takes the next command, 5, for the one of its migration. An entry of queue pair 1 may be fetched. -/
def crossedMigration : State := { idleDevice with
  port0 := { idleDevice.port0 with pairs := [(1, { state := .active, sqEntries := 16, cqEntries := 16, sqTail := 3 })] }
  cmds := [(3, migrateCmd)], nextCmd := 5, hbm := { idleDevice.hbm with channels := [(0, { migCmd := some 5 })] } }

/-- An ABORT of the command with tag 9 of queue pair 0. -/
def abortEntry : BitVec 1024 := entryOf [(0, 7), (1, 2), (2, 7), (0x28, 9)]

/-- Refutes O30: the ABORT of an HBM_MIGRATE whose channel names the ABORT itself as its migration's command. The end of the migration completes
the ABORT with ABORTED, so it is not without a completion while it waits. -/
theorem not_abortsEndRunningCommands : ¬ Obligations.AbortsEndRunningCommands := by
  intro h
  obtain ⟨t, a, run, here, -, -, undecided, -⟩ := h .p0 1 3 migrateCmd abortEntry [] crossedMigration (fetches_of_now (by decide +kernel))
    (entryPasses_of_now (by decide +kernel)) (by decide +kernel) (by decide) rfl
  have completed : ((leftBy (.abort .p0 1 abortEntry []) crossedMigration).cmd? 5).any (fun a => a.completion.isSome) = true := by decide +kernel
  rw [leftBy_eq run, show t.cmd? 5 = some a from here] at completed
  simp [undecided] at completed

end Sys2Proof.Machine
end

section
/-! SUPPORT. A command whose number stands for an alley slot, and the statement about fetched data-path commands (14_command_queues.md). -/

namespace Sys2Proof.Machine

open Sys2Proof

-- Proofs are checked one at a time: each that waits for its turn would hold a thread's stack.
set_option Elab.async false

/-- A read of host memory that alley slot 7 has not sent, of a port without translation. -/
def unsentRead : Alley :=
  { op := 0, hint := 0, space := 1, prio := 0, len := 64, sel := 0, ls := 0, target := 0x1000, data := [], port := .p0, sent := false, err := none, replays := 0 }

/-- The next command has the number whose host access the queue engine takes for that of alley slot 7: commandNum (2^32 + 7) = alleyNum 7. An entry
of queue pair 1 may be fetched. -/
def aliasedCommand : State := { idleDevice with
  port0 := { idleDevice.port0 with pairs := [(1, { state := .active, sqEntries := 16, cqEntries := 16, sqTail := 3 })] }
  alleys := [(7, unsentRead)], nextCmd := 2 ^ 32 + 7 }

/-- A FLUSH of every collection. -/
def flushEntry : BitVec 1024 := entryOf [(0, 6), (1, 2), (2, 7)]

/-- Refutes O28: the fetch of a FLUSH that takes the number 2^32 + 7 sends the read of alley slot 7, which the statement leaves unchanged. -/
theorem not_dataCommandsAreFetched : ¬ Obligations.DataCommandsAreFetched := by
  intro h
  obtain ⟨t, run, -, -, -, -, -, -, -, -, frame⟩ := h .p0 1 flushEntry [] aliasedCommand
    (.flush .p0 1 flushEntry []) 6 (by simp) (fetches_of_now (by decide +kernel))
    (entryPasses_of_now (by decide +kernel))
  have sent : (Tab.get? (leftBy (.flush .p0 1 flushEntry []) aliasedCommand).alleys 7).any (·.sent) = true := by decide +kernel
  have kept : t.alleys = aliasedCommand.alleys := (congrArg State.alleys (frame (by decide)) :)
  rw [leftBy_eq run, kept] at sent
  exact absurd sent (by decide)

end Sys2Proof.Machine
end

section
/-! SUPPORT. The retraining of the only port that is DOWN, and the statement about the Denop ports (16_peer_links.md). -/

namespace Sys2Proof.Machine

open Sys2Proof

-- Proofs are checked one at a time: each that waits for its turn would hold a thread's stack.
set_option Elab.async false

/-- A device whose Denop port 0 is DOWN: bit 3 of CRITICAL is set, and no page of the log has a notice. -/
def downPort : State := { idleDevice with
  net := { idleDevice.net with links := [(0, { state := .down })] }
  logs := { idleDevice.logs with critical := setBit 0 critPortDown } }

/-- Refutes O50: when the only port that is DOWN begins its training, bit 3 of CRITICAL is cleared, of which the HEALTH page has a notice. The
statement lets the bit change and no notice. -/
theorem not_linksTrainAndLeave : ¬ Obligations.LinksTrainAndLeave := by
  intro h
  obtain ⟨t, run, -, -, frame⟩ := (h.2 0 downPort rfl (by decide)).2 (.inl (by decide))
  have told : (leftBy (.retrainTimer 0) downPort).logs.notice.getLsbD (lidHealth - 1) = true := by decide +kernel
  have kept : t.logs.notice = downPort.logs.notice := (congrArg (fun s => s.logs.notice) frame :)
  rw [leftBy_eq run, kept] at told
  exact absurd told (by decide)

end Sys2Proof.Machine
end

section
/-! SUPPORT. Arming, stopping and resuming a stream by its owner (R319, R333 to R346), and the statement about them. -/

namespace Sys2Proof.Machine

open Sys2Proof

-- Proofs are checked one at a time: each that waits for its turn would hold a thread's stack.
set_option Elab.async false

variable {s t u : State} {q n : Nat}

/-- Only one stream differs between two states. -/
def OnlyStream (q n : Nat) (s t : State) : Prop :=
  (∀ r m, r * 16 + m ≠ q * 16 + n → t.stream r m = s.stream r m) ∧ t = { s with streams := t.streams }

theorem OnlyStream.modStream (f : Stream → Stream) : OnlyStream q n s (s.modStream q n f) :=
  ⟨fun r m other => by simp [State.stream, Tab.getD_modify, other], rfl⟩

theorem OnlyStream.trans (h : OnlyStream q n s t) (k : OnlyStream q n t u) : OnlyStream q n s u := by
  obtain ⟨others, rest⟩ := h
  obtain ⟨others', rest'⟩ := k
  exact ⟨fun r m other => (others' r m other).trans (others r m other), by rw [rest', rest]⟩

/-- Two changes of one stream are one. -/
@[simp] theorem State.modStream_modStream (s : State) (q n : Nat) (f g : Stream → Stream) :
    (s.modStream q n f).modStream q n g = s.modStream q n fun x => g (f x) := by
  simp [State.modStream, Tab.modify, Tab.getD, Tab.set_set]

/-- The request of a single stream. -/
def singleArm (o : Owner) (f : ArmStream) : ArmReq := ⟨o, f, none⟩

theorem execStreamArm_single {o : Owner} {f : ArmStream} (up : live s = true) (room : q < 64) (ok : armStreamOk f = true)
    (serves : (s.quarter q).inService = true) : exec (.streamArm q (singleArm o f)) s = .next (armEffect s q (singleArm o f)) := by
  have named : okStream f.stream = true := by
    unfold armStreamOk at ok
    simp only [Bool.and_eq_true] at ok
    obtain ⟨⟨⟨⟨⟨⟨⟨h, -⟩, -⟩, -⟩, -⟩, -⟩, -⟩, -⟩ := ok
    exact h
  exact occurs_of_true (by simp [singleArm, up, okQuarter, room, named, serves]) _ s

/-- What an ARM of a single stream does, by the stream's state (R335, R336, R339, R340). -/
theorem armEffect_single {o : Owner} {f : ArmStream} (ok : armStreamOk f = true) : armEffect s q (singleArm o f) =
    match (s.stream q f.stream).state with
    | .draining => s.modStream q f.stream fun x => { x with armResult := 3 }
    | .idle => s.modStream q f.stream fun x => { armFields x o f with pair := none, isFill := false, armResult := 1 }
    | .armed =>
      if sameReservation (s.stream q f.stream) (singleArm o f) then
        (rearmStream s q o f).modStream q f.stream fun x => { x with armResult := if streamIdle (s.stream q f.stream) then 1 else 2 }
      else s.modStream q f.stream fun x => { x with armResult := 5 }
    | _ => s.modStream q f.stream fun x => { x with armResult := 4 } := by
  have ok' : armOk q (singleArm o f) = true := by simp [armOk, singleArm, ok]
  unfold armEffect
  rw [ok']
  cases state : (s.stream q f.stream).state <;> simp [singleArm, armResult, grantArm, state]
  split <;> simp [*]

/-- A stream of another owner, or one of a pair, keeps its reservation from an ARM of a single stream. -/
theorem sameReservation_single (x : Stream) (o : Owner) (f : ArmStream) :
    sameReservation x (singleArm o f) = true ↔ x.owner = o ∧ x.pair = none := by
  simp [sameReservation, singleArm]

/-- The stream after STOP ended its issue (R338). -/
def endsIssue (x : Stream) : Stream :=
  if x.state = .idle then x
  else { x with state := .stopping, rearm := none, buffered := [], active := x.active.map fun a => { a with todo := [] } }

/-- A stream without a pair that is STOPPING with nothing in flight becomes IDLE. -/
theorem releaseStream_single (alone : (s.stream q n).pair = none) : releaseStream s q n =
    if (s.stream q n).state = .stopping ∧ ((s.stream q n).active.all fun a => a.flying == 0) then
      s.modStream q n fun x => { x with state := .idle, active := [], buffered := [], rearm := none, pair := none, fullCells := 0 }
    else s := by
  unfold releaseStream
  dsimp only
  rw [alone]

/-- STOP of a stream that is in use and without a pair (R338). -/
theorem stopEffect_single (used : (s.stream q n).state ≠ .idle) (alone : (s.stream q n).pair = none) : stopEffect s q n =
    if (s.stream q n).active.all fun a => a.flying == 0 then
      (s.modStream q n endsIssue).modStream q n fun x =>
        { x with state := .idle, active := [], buffered := [], rearm := none, pair := none, fullCells := 0 }
    else s.modStream q n endsIssue := by
  have stopped : (s.modStream q n endsIssue).stream q n = { s.stream q n with
      state := .stopping, rearm := none, buffered := [], active := (s.stream q n).active.map fun a => { a with todo := [] } } := by
    rw [State.stream_modStream, endsIssue, if_neg used]
  have form : stopEffect s q n = releaseStream (s.modStream q n endsIssue) q n := by
    unfold stopEffect
    rw [alone]
    rfl
  have alone' : ((s.modStream q n endsIssue).stream q n).pair = none := by rw [stopped]; exact alone
  rw [form, releaseStream_single alone', stopped]
  simp [List.all_map, Function.comp_def]

theorem streamArm_cases {o : Owner} {f : ArmStream} (up : live s = true) (room : q < 64) (ok : armStreamOk f = true)
    (serves : (s.quarter q).inService = true) :
    ((s.stream q f.stream).state = .idle → exec (.streamArm q (singleArm o f)) s =
      .next (s.modStream q f.stream fun x => { armFields x o f with pair := none, isFill := false, armResult := 1 })) ∧
    ((s.stream q f.stream).state = .draining →
      exec (.streamArm q (singleArm o f)) s = .next (s.modStream q f.stream fun x => { x with armResult := 3 })) ∧
    ((s.stream q f.stream).state = .armed → (s.stream q f.stream).pair = none → (s.stream q f.stream).owner = o →
      exec (.streamArm q (singleArm o f)) s = .next ((rearmStream s q o f).modStream q f.stream fun x =>
        { x with armResult := if streamIdle (s.stream q f.stream) then 1 else 2 })) ∧
    ((s.stream q f.stream).state = .armed → (s.stream q f.stream).pair ≠ none ∨ (s.stream q f.stream).owner ≠ o →
      exec (.streamArm q (singleArm o f)) s = .next (s.modStream q f.stream fun x => { x with armResult := 5 })) := by
  rw [execStreamArm_single up room ok serves, armEffect_single ok]
  refine ⟨fun idle => by rw [idle], fun draining => by rw [draining], fun armed alone mine => ?_, fun armed foreign => ?_⟩
  · rw [armed]
    dsimp only
    rw [if_pos ((sameReservation_single _ o f).2 ⟨mine, alone⟩)]
  · rw [armed]
    dsimp only
    rw [if_neg fun same => ?_]
    obtain ⟨mine, alone⟩ := (sameReservation_single _ o f).1 same
    exact foreign.elim (· alone) (· mine)

/-- Settles O13, by the state of the stream that each command finds. -/
theorem streamsArmStopResume : Obligations.StreamsArmStopResume := by
  refine ⟨fun q o f s up room ok serves => ?_, fun q n s up room few => ⟨fun used alone => ?_, fun failed quiet goesOn => ?_, fun o tail small may => ?_,
    fun o foreign => ⟨?_, ?_, fun used tail => ?_⟩⟩⟩
  · obtain ⟨idle, draining, rearmed, refused⟩ := streamArm_cases (o := o) up room ok serves
    refine ⟨fun h => ?_, draining, fun h alone mine => ?_, refused⟩
    · obtain ⟨others, rest⟩ := OnlyStream.modStream (s := s) (q := q) (n := f.stream)
        fun x => { armFields x o f with pair := none, isFill := false, armResult := 1 }
      exact ⟨_, idle h, by rw [State.stream_modStream]; rfl, others, rest⟩
    · obtain ⟨others, rest⟩ := (OnlyStream.modStream (s := s) (q := q) (n := f.stream) _).trans (OnlyStream.modStream _)
      refine ⟨_, rearmed h alone mine, fun idle => ?_, fun busy => ?_, others, rest⟩
      · simp [rearmStream, idle, armFields]
      · simp [rearmStream, busy]
  · have row : exec (.streamStop q ⟨n, (s.stream q n).owner⟩) s = .next (stopEffect s q n) :=
      occurs_of_true (by simp [up, okQuarter, room, okStream, few, used]) _ s
    by_cases quiet : ∀ a ∈ (s.stream q n).active, a.flying = 0
    · have all : ((s.stream q n).active.all fun a => a.flying == 0) = true := by simpa using quiet
      obtain ⟨others, rest⟩ := (OnlyStream.modStream (s := s) (q := q) (n := n) endsIssue).trans (OnlyStream.modStream fun x =>
        { x with state := .idle, active := [], buffered := [], rearm := none, pair := none, fullCells := 0 })
      rw [row, stopEffect_single used alone, if_pos all]
      refine ⟨_, rfl, by simp, by simp, by simp, fun _ => by simp, fun ⟨a, ha, flies⟩ => absurd (quiet a ha) flies, others, rest⟩
    · have some : ((s.stream q n).active.all fun a => a.flying == 0) = false := by simpa using quiet
      obtain ⟨others, rest⟩ := OnlyStream.modStream (s := s) (q := q) (n := n) endsIssue
      rw [row, stopEffect_single used alone, if_neg (by simp [some])]
      refine ⟨_, rfl, by simp [endsIssue, used], by simp [endsIssue, used], by simp [endsIssue, used], fun h => absurd h quiet,
        fun _ => by simp [endsIssue, used], others, rest⟩
  · have row : exec (.streamResume q ⟨n, (s.stream q n).owner⟩) s = .next (resumeEffect s q n) :=
      occurs_of_true (by simpa [up, okQuarter, room, okStream, few, failed] using quiet) _ s
    have none : ((knownDescs (s.stream q n)).find? fun d => d.2.endOfJob) = none := by simpa using goesOn
    rw [row]
    unfold resumeEffect
    dsimp only
    rw [none]
  · refine occurs_of_true ?_ _ s
    have small' : tail < 65536 := small
    rcases may with idle | ⟨mine, fits⟩
    · simp [up, okQuarter, room, okStream, few, idle, small']
    · simp [up, okQuarter, room, okStream, few, mine, ringSize, fits, small']
  · exact occurs_of_false (by simp [foreign]) _ s
  · exact occurs_of_false (by simp [foreign]) _ s
  · exact occurs_of_false (by simp [foreign, used]) _ s

end Sys2Proof.Machine
end

section
/-! SUPPORT. Flits, acknowledgements and credits of a Denop port (R558 to R562), and the statement about them. -/

namespace Sys2Proof.Machine

open Sys2Proof

-- Proofs are checked one at a time: each that waits for its turn would hold a thread's stack.
set_option Elab.async false

variable {s t u : State}

/-- Every link is in the state it was in. -/
def SameLinkStates (s t : State) : Prop := ∀ p, (t.link p).state = (s.link p).state

namespace SameLinkStates

theorem trans (h : SameLinkStates s t) (k : SameLinkStates t u) : SameLinkStates s u := fun p => (k p).trans (h p)

theorem of_links (h : t.net.links = s.net.links) : SameLinkStates s t := fun p => by rw [State.link, State.link, h]

theorem of_reports (h : Changes [.logs, .port0, .port1] s t) : SameLinkStates s t := of_links (h.same fun s => s.net.links)

theorem modLink (s : State) (p : Nat) {f : Link → Link} (h : ∀ l, (f l).state = l.state) : SameLinkStates s (s.modLink p f) := fun q => by
  by_cases same : q = p
  · rw [same, State.link_modLink, h]
  · rw [State.link_modLink_ne s same]

end SameLinkStates

theorem pumpOne_state (blocked : List Nat) (l : Link) (k : Packet) : (pumpOne blocked l k).2.state = l.state := by
  unfold pumpOne
  extract_lets
  split <;> rfl

theorem pumpLink_state (l : Link) : (pumpLink l).state = l.state := by
  have all (ks : List Packet) : ∀ a : List Nat × Link, (ks.foldl (fun (a : List Nat × Link) k => pumpOne a.1 a.2 k) a).2.state = a.2.state := by
    induction ks with
    | nil => exact fun _ => rfl
    | cons k ks ih => exact fun a => (ih _).trans (pumpOne_state ..)
  exact all _ _

/-- A port with nothing that waits sends nothing. -/
theorem pumpLink_of_empty {l : Link} (h : l.waiting = []) : pumpLink l = l := by
  cases l
  cases h
  rfl

theorem sameLinkStates_releaseHeld (s : State) (p : Nat) (ks : List Packet) : SameLinkStates s (releaseHeld s p ks) := by
  unfold releaseHeld
  split
  · exact fun _ => rfl
  · exact .modLink s p fun l => pumpLink_state _

theorem sameLinkStates_switchRoutes (s : State) (p : Nat) : SameLinkStates s (switchRoutes s p) := by
  have one (s : State) (d : Nat) (r : Route) : SameLinkStates s (setRoute s d r) := .of_links rfl
  unfold switchRoutes
  refine List.foldlRecOn (motive := fun t => SameLinkStates s t) s.net.routes _ (fun _ => rfl) fun t so_far route _ => so_far.trans ?_
  dsimp only
  split
  · split
    · exact (one _ _ _).trans (sameLinkStates_releaseHeld _ _ _)
    · exact one _ _ _
    · exact .of_links rfl
  · split
    · split
      · exact ((one _ _ _).trans (one _ _ _)).trans (sameLinkStates_releaseHeld _ _ _)
      · exact one _ _ _
    · exact one _ _ _

theorem changes_switchRoutes (s : State) (p : Nat) : Changes [.net] s (switchRoutes s p) := by
  refine Changes.foldl (fun t route => ?_) _ s
  dsimp only
  split
  · split
    · exact (changes_setRoute ..).andThen (changes_releaseHeld ..)
    · exact changes_setRoute ..
    · rfl
  · split
    · split
      · exact ((changes_setRoute ..).andThen (changes_setRoute ..)).andThen (changes_releaseHeld ..)
      · exact changes_setRoute ..
    · exact changes_setRoute ..

theorem sameLinkStates_flood (s : State) (up : Bool) : SameLinkStates s (flood s up) := fun p => by
  have lookup : (flood s up).link p = ((Tab.get? s.net.links p).map fun l =>
      if carries l then { l with ctl := l.ctl ++ [.topology up] } else l).getD {} := by
    simp [flood, State.link, State.modNet, Tab.getD]
  rw [lookup, State.link, Tab.getD]
  cases Tab.get? s.net.links p with
  | none => rfl
  | some l => simp only [Option.map_some, Option.getD_some]; split <;> rfl

/-- A port that leaves service while nothing is in work is DOWN. -/
theorem leaveService_down {p : Nat} (idle : s.cmds = []) (noPeers : s.net.peers = []) (noLeases : s.tiers.borrowed = []) (excluded : BitVec 8) :
    ((leaveService s p excluded).link p).state = .down := by
  unfold leaveService
  extract_lets l cut lost none_ s₁ s₂ s₃
  have down : (s₁.link p).state = .down := by rw [State.link_modLink]
  have quiet : lost = [] := by simp only [lost, noPeers]; rfl
  have first : Changes [.net] s s₁ := Changes.modLink (.refl _ _) p _
  have logged : Changes [.logs, .port0, .port1] s₁ s₃ :=
    ((Reports.device_log ..).changes.trans (Reports.notice ..).changes).trans (Reports.critical ..).changes
  have switched : Changes [.net] s₃ (flood (switchRoutes s₃ p) false) := (changes_switchRoutes s₃ p).modNet _
  have all : Changes [.logs, .port0, .port1, .net] s (flood (switchRoutes s₃ p) false) := (first.comp logged).andThen switched
  have states : SameLinkStates s₁ (flood (switchRoutes s₃ p) false) :=
    ((SameLinkStates.of_reports logged).trans (sameLinkStates_switchRoutes _ _)).trans (sameLinkStates_flood _ _)
  clear_value s₃
  generalize flood (switchRoutes s₃ p) false = t at all states
  have nothing (x : Logs) : settleLost (List.foldl peerFails { t with logs := x } lost) cut = { t with logs := x } := by
    rw [quiet, List.foldl_nil]
    exact settleLost_of_idle (s := { t with logs := x }) ((all.same State.cmds).trans idle) ((all.same fun s => s.tiers.borrowed).trans noLeases) cut
  rw [oneEvent_of_nothing (f := fun s => settleLost (lost.foldl peerFails s) cut) nothing, states p, down]

theorem State.modLink_congr (s : State) (p : Nat) {f g : Link → Link} (h : f (s.link p) = g (s.link p)) : s.modLink p f = s.modLink p g :=
  congrArg (fun t => s.modNet fun x => { x with links := t }) (Tab.modify_congr _ p _ h)

theorem modLink_links (s : State) (p : Nat) (f : Link → Link) :
    s.modLink p f = { s with net := { s.net with links := (s.modLink p f).net.links } } := rfl

/-- The good flit expected is accepted and acknowledged (R558, R559). -/
theorem flitEffect_expected {p : Nat} {f : Flit} (good : f.good = true) (clean : f.uncorrected = 0)
    (next : BitVec.ofNat 16 f.number = (s.link p).rxNext) : ((flitEffect s p f).link p).rxNext = (s.link p).rxNext + 1 ∧
      ((flitEffect s p f).link p).discarding = false ∧ ∃ l, ((flitEffect s p f).link p).ctl = (s.link p).ctl ++ .ack f.number :: l := by
  unfold flitEffect
  simp [State.link_modLink, good, clean, next]

/-- A flit that is bad, or not the one expected, is not accepted (R559). -/
theorem flitEffect_other {p : Nat} {f : Flit} (other : f.good = false ∨ f.uncorrected ≠ 0 ∨ BitVec.ofNat 16 f.number ≠ (s.link p).rxNext) :
    ((flitEffect s p f).link p).rxNext = (s.link p).rxNext ∧ ((flitEffect s p f).link p).stream = (s.link p).stream ∧
      ((s.link p).discarding = true → ((flitEffect s p f).link p).ctl = (s.link p).ctl ∧ ((flitEffect s p f).link p).discarding = true) ∧
      ((s.link p).discarding = false → (f.good = false ∨ f.uncorrected ≠ 0) →
        ((flitEffect s p f).link p).ctl = (s.link p).ctl ++ [.nak (s.link p).rxNext.toNat] ∧
          ((flitEffect s p f).link p).discarding = true) := by
  have fails : ((f.good && f.uncorrected == 0) && BitVec.ofNat 16 f.number == (s.link p).rxNext) = false := by
    rcases other with bad | wrong | far <;> simp [*]
  unfold flitEffect
  extract_lets l m good n
  have out : (good && BitVec.ofNat 16 f.number == m.rxNext) = false := fails
  rw [State.link_modLink]
  simp only [n, out, Bool.false_eq_true, if_false]
  split
  · next discards => exact ⟨rfl, rfl, fun _ => ⟨rfl, discards⟩, fun no => absurd (no.symm.trans discards) (by decide)⟩
  · next accepts =>
    have accepts : (s.link p).discarding ≠ true := accepts
    split
    · next old =>
      refine ⟨rfl, rfl, fun yes => absurd yes accepts, fun _ bad => absurd old ?_⟩
      have unsound : (f.good && f.uncorrected == 0) = false := by rcases bad with bad | wrong <;> simp [*]
      simp [good, unsound]
    · exact ⟨rfl, rfl, fun yes => absurd yes accepts, fun _ _ => ⟨rfl, rfl⟩⟩

/-- The flits up to one of the replay buffer, dropped. -/
theorem dropWhile_to {a b : List (BitVec 16)} {x : BitVec 16} (first : x ∉ a) : (a ++ x :: b).dropWhile (· != x) = x :: b := by
  induction a with
  | nil => simp
  | cons y a ih =>
    obtain ⟨ne, out⟩ := not_or.1 (mt List.mem_cons.2 first)
    have ne' : (y != x) = true := by simpa using fun h => ne h.symm
    rw [List.cons_append, List.dropWhile_cons_of_pos (by exact ne'), ih out]

/-- ACK of a flit that waits for one (R559). -/
theorem ackLink_of_replay {l : Link} {n : Nat} {a b : List (BitVec 16)} (held : l.replay = a ++ BitVec.ofNat 16 n :: b)
    (first : BitVec.ofNat 16 n ∉ a) (quiet : l.waiting = []) : ackLink l n = { l with replay := b, resent := none } := by
  unfold ackLink
  rw [if_pos (by simp [held]), held, dropWhile_to first]
  exact pumpLink_of_empty quiet

/-- Settles O51, by the command that the port's peer sends. -/
theorem flitsArriveInOrder : Obligations.FlitsArriveInOrder := by
  intro p s up serves
  refine ⟨fun f good clean next => ?_, fun f other => ?_, fun n a b held first => ⟨fun quiet => ?_, fun fresh => ?_, fun often idle noPeers noLeases => ?_⟩,
    fun vc n quiet => ?_, occurs_of_true (by simp [up, serves]) _ s, occurs_of_true (by simp [up, serves]) _ s⟩
  · obtain ⟨rx, accepts, acked⟩ := flitEffect_expected good clean next
    exact ⟨_, occurs_of_true (by simp [up, serves]) _ s, rx, accepts, acked, modLink_links s p _⟩
  · obtain ⟨rx, stream, discards, naks⟩ := flitEffect_other other
    exact ⟨_, occurs_of_true (by simp [up, serves]) _ s, rx, stream, discards, naks, modLink_links s p _⟩
  · have row : exec (.ack p n) s = .next (s.modLink p fun l => ackLink { l with lastFlit := s.time } n) := occurs_of_true (by simp [up, serves]) _ s
    have now : ackLink { s.link p with lastFlit := s.time } n = { s.link p with replay := b, resent := none, lastFlit := s.time } :=
      ackLink_of_replay (l := { s.link p with lastFlit := s.time }) held first quiet
    rw [row]
    exact congrArg _ (s.modLink_congr p now)
  · have row : exec (.nak p n) s = .next (nakEffect s p n) := occurs_of_true (by simp [up, serves, held]) _ s
    refine ⟨_, row, ?_⟩
    unfold nakEffect
    dsimp only
    rw [fresh]
    exact s.modLink_congr p (by rw [held, dropWhile_to first])
  · have row : exec (.nak p n) s = .next (nakEffect s p n) := occurs_of_true (by simp [up, serves, held]) _ s
    have ends : nakEffect s p n = leaveService s p (s.link p).excluded := by
      unfold nakEffect
      dsimp only
      rw [often]
      simp
    exact ⟨_, row, by rw [ends]; exact leaveService_down idle noPeers noLeases _⟩
  · have row : exec (.credit p vc n) s = .next (s.modLink p fun l => creditLink { l with lastFlit := s.time } vc n) :=
      occurs_of_true (by simp [up, serves]) _ s
    rw [row]
    exact congrArg _ (s.modLink_congr p (pumpLink_of_empty quiet))

end Sys2Proof.Machine
end

section
/-! SUPPORT. Packets that go on, routes that change and peer requests that end (R561 to R568, R578), and the statement about them. -/

namespace Sys2Proof.Machine

open Sys2Proof

-- Proofs are checked one at a time: each that waits for its turn would hold a thread's stack.
set_option Elab.async false

variable {s t u : State}

/-- Traffic went out and routes changed, and neither a link's state nor a report of the topology. -/
structure Routed (s t : State) : Prop where
  net : Changes [.net] s t
  topology : t.net.topology = s.net.topology
  links : SameLinkStates s t

namespace Routed

theorem refl (s : State) : Routed s s := ⟨.refl _ s, rfl, fun _ => rfl⟩

theorem trans (h : Routed s t) (k : Routed t u) : Routed s u :=
  ⟨h.net.trans k.net, k.topology.trans h.topology, h.links.trans k.links⟩

theorem foldl {α : Type} {g : State → α → State} (h : ∀ s a, Routed s (g s a)) (as : List α) (s : State) : Routed s (as.foldl g s) :=
  List.foldlRecOn (motive := fun t => Routed s t) as g (refl s) fun t so_far a _ => so_far.trans (h t a)

theorem ite {c : Prop} [Decidable c] (h : Routed s t) (k : Routed s u) : Routed s (if c then t else u) := by
  split
  · exact h
  · exact k

/-- Routes and what is owed change neither. -/
theorem of_table (s : State) (r : Table Route) (o : List (Nat × List Byte)) :
    Routed s (s.modNet fun x => { x with routes := r, owed := o }) := ⟨rfl, rfl, fun _ => rfl⟩

theorem setRoute (s : State) (d : Nat) (r : Route) : Routed s (setRoute s d r) := of_table s _ s.net.owed

/-- A link that goes on in its state. -/
theorem modLink (s : State) (p : Nat) {f : Link → Link} (h : ∀ l, (f l).state = l.state) : Routed s (s.modLink p f) :=
  ⟨(Changes.refl _ s).modLink p f, rfl, .modLink s p h⟩

theorem releaseHeld (s : State) (p : Nat) (ks : List Packet) : Routed s (releaseHeld s p ks) :=
  .ite (refl s) (modLink s p fun _ => pumpLink_state _)

theorem sendPacket (s : State) (k : Packet) : Routed s (sendPacket s k) := by
  unfold Machine.sendPacket
  split
  · exact .ite (of_table s _ s.net.owed) (modLink s _ fun _ => pumpLink_state _)
  · exact refl s

theorem sendData (s : State) (type dest txn : Nat) (payload : List Byte) : Routed s (sendData s type dest txn payload) :=
  .ite (sendPacket s _) (foldl (fun s _ => sendPacket s _) _ s)

theorem rerouteOne (ways : List (Nat × Table Nat)) (s : State) (d : Nat) : Routed s (rerouteOne ways s d) := by
  have taken (r : Route) (p : Nat) (ks : List Packet) : Routed s (Machine.releaseHeld (Machine.setRoute s d r) p ks) :=
    (setRoute s d r).trans (releaseHeld _ p ks)
  unfold Machine.rerouteOne
  extract_lets hs
  split
  · exact of_table s _ s.net.owed
  · split
    · exact setRoute s d _
    · dsimp only
      split
      · exact .ite (taken _ _ _) (.ite (setRoute s d _) (taken _ _ _))
      · exact taken _ _ _

theorem payOwed (s : State) : Routed s (payOwed s) :=
  (of_table s s.net.routes _).trans (foldl (fun s _ => sendData s _ _ _ _) _ _)

/-- Routes computed anew where no work is cut off. -/
theorem reroute {s : State} (cmds : s.cmds = []) (borrowed : s.tiers.borrowed = []) : Routed s (reroute s) := by
  unfold Machine.reroute
  extract_lets es depth ways ds
  have routed : Routed s (ds.foldl (Machine.rerouteOne ways) s) := foldl (rerouteOne ways) ds s
  rw [settleLost_of_idle ((routed.net.same State.cmds).trans cmds) ((routed.net.same fun s => s.tiers.borrowed).trans borrowed)]
  exact routed.trans (payOwed _)

end Routed

/-- An event does what it holds, on the state with the event open, and then reports. -/
theorem oneEvent_reports (s : State) (always : Bool) (z : Cause) (f : State → State) :
    ∃ l, Changes [.logs, .port0, .port1] (f { s with logs := l }) (oneEvent s always z f) := by
  unfold oneEvent
  split
  · exact ⟨s.logs, .refl _ _⟩
  · exact ⟨_, changes_closeEvent ..⟩

/-- An event in which no request ends, and that is not logged for itself: what it did to the net is all that it did. -/
theorem changes_oneEvent_of_net {f : State → State} (net : ∀ l, Changes [.net] { s with logs := l } (f { s with logs := l })) (z : Cause) :
    ∃ l, Changes [.net] s (oneEvent s false z f) ∧ (oneEvent s false z f).net = (f { s with logs := l }).net := by
  unfold oneEvent
  split
  · exact ⟨s.logs, net s.logs, rfl⟩
  · next none_ =>
    have closed : s.logs.event = none := by simpa using none_
    have did := net { s.logs with event := some { kept := logKept s, ended := [] } }
    have logs : (f { s with logs := { s.logs with event := some { kept := logKept s, ended := [] } } }).logs =
        { s.logs with event := some { kept := logKept s, ended := [] } } := did.same State.logs
    rw [State.modLogs]
    generalize at_ : f { s with logs := { s.logs with event := some { kept := logKept s, ended := [] } } } = t at did logs
    have ends : closeEvent t false z = { t with logs := s.logs } := by
      unfold closeEvent
      rw [logs]
      change { t with logs := { t.logs with event := none } } = _
      rw [logs, ← closed]
    refine ⟨{ s.logs with event := some { kept := logKept s, ended := [] } }, ?_, by rw [ends, ← at_]⟩
    · rw [ends]
      have kept : { t with logs := s.logs } = { s with net := t.net } := by
        have all : t = _ := did
        rw [all]
        rfl
      rw [kept]
      rfl

/-- The reports that a device holds after TOPOLOGY. -/
def reported (s : State) (ls : List LinkInfo) : State :=
  s.modNet fun x => { x with topology := x.topology.filter (fun m => !ls.any (sameLink m)) ++ ls }

/-- TOPOLOGY on a device with nothing in work. -/
theorem topologyEffect_idle (cmds : s.cmds = []) (peers : s.net.peers = []) (borrowed : s.tiers.borrowed = []) (ls : List LinkInfo) :
    Changes [.net] s (topologyEffect s ls) ∧ (topologyEffect s ls).net.topology = (reported s ls).net.topology ∧
      SameLinkStates s (topologyEffect s ls) := by
  unfold topologyEffect
  extract_lets es depth down cuts lost cut new s₁ s₂
  have quiet : lost = [] := by simp only [lost, peers]; rfl
  have spread : Routed s₁ s₂ :=
    .ite ⟨(Changes.refl _ s₁).modNet _, rfl, sameLinkStates_flood s₁ _⟩ (.refl s₁)
  have same₁ : Changes [.net] s s₁ := rfl
  have links₁ : SameLinkStates s s₁ := fun _ => rfl
  have topology₁ : s₁.net.topology = (reported s ls).net.topology := rfl
  clear_value s₂ s₁
  have cmds₂ : s₂.cmds = [] := ((same₁.trans spread.net).same State.cmds).trans cmds
  have borrowed₂ : s₂.tiers.borrowed = [] := ((same₁.trans spread.net).same fun s => s.tiers.borrowed).trans borrowed
  have anew (l : Logs) : settleLost (lost.foldl peerFails (reroute { s₂ with logs := l })) cut = reroute { s₂ with logs := l } ∧
      Routed { s₂ with logs := l } (reroute { s₂ with logs := l }) := by
    have routed : Routed { s₂ with logs := l } (reroute { s₂ with logs := l }) := .reroute cmds₂ borrowed₂
    rw [quiet, List.foldl_nil]
    exact ⟨settleLost_of_idle ((routed.net.same State.cmds).trans cmds₂) ((routed.net.same fun s => s.tiers.borrowed).trans borrowed₂) cut, routed⟩
  obtain ⟨l, net, at_⟩ := changes_oneEvent_of_net (s := s₂) (f := fun s => settleLost (lost.foldl peerFails (reroute s)) cut)
    (fun l => Eq.subst (motive := fun t => Changes [.net] { s₂ with logs := l } t) (anew l).1.symm (anew l).2.net) {}
  obtain ⟨form, routed⟩ := anew l
  rw [form] at at_
  refine ⟨(same₁.trans spread.net).trans net, ?_, (links₁.trans spread.links).trans fun p => ?_⟩
  · rw [at_, routed.topology, ← topology₁]
    exact spread.topology
  · rw [State.link, at_]
    exact routed.links p

/-- The reports of TOPOLOGY are all kept, and an older one goes only where a new one describes its link. -/
theorem reported_topology (s : State) (ls : List LinkInfo) : (∀ l ∈ ls, l ∈ (reported s ls).net.topology) ∧
    ∀ l ∈ s.net.topology, l ∈ (reported s ls).net.topology ∨ ∃ m ∈ ls, sameLink l m = true := by
  refine ⟨fun l hl => List.mem_append_right _ hl, fun l hl => ?_⟩
  by_cases replaced : ls.any (sameLink l) = true
  · exact .inr (by simpa using replaced)
  · exact .inl (List.mem_append_left _ (List.mem_filter.2 ⟨hl, by simpa using replaced⟩))

/-- A piece that fails holds its error code and no tag of its port. -/
theorem pieceErr_of_piece {n code : Nat} {x : Piece} (low : n < 2 ^ 33) (held : Tab.get? s.pieces n = some x) : pieceErr s n code =
    { s.modPort (s.stream x.quarter x.stream).hostPort (fun p => { p with tags := p.tags - x.portTags }) with
      pieces := Tab.set s.pieces n { x with err := some code, data := none, portTags := 0, state := .issued } } := by
  unfold pieceErr
  rw [if_neg (by omega), held]
  dsimp only
  rw [State.modPort_pieces]

/-- A peer request of a piece, gone from the port that held its tag. -/
def tagFreed (s : State) (txn : Nat) (r : PeerReq) : State :=
  (s.modNet fun x => { x with peers := Tab.erase x.peers txn }).modLink r.port fun l => { l with tags := l.tags - 1 }

theorem peerFails_of_piece {txn n : Nat} {r : PeerReq} (held : Tab.get? s.net.peers txn = some r) (waits : r.waiter = .piece n) :
    peerFails s txn = pieceErr (tagFreed s txn r) n 5 := by
  unfold peerFails
  rw [held]
  dsimp only
  rw [waits]
  rfl

/-- An outstanding request of a piece ends with PEER_FAILURE (R345, R578). -/
theorem peerEvent_of_piece {txn n : Nat} {r : PeerReq} {x : Piece} (held : Tab.get? s.net.peers txn = some r) (waits : r.waiter = .piece n)
    (low : n < 2 ^ 33) (piece : Tab.get? s.pieces n = some x) (type : Nat) :
    (peerEvent s r txn type).net = (tagFreed s txn r).net ∧ (Tab.get? (peerEvent s r txn type).pieces n).map (·.err) = some (some 5) ∧
      Changes [.net, .pieces, .logs, .port0, .port1] s (peerEvent s r txn type) := by
  have fails (l : Logs) : peerFails { s with logs := l } txn = pieceErr (tagFreed { s with logs := l } txn r) n 5 :=
    peerFails_of_piece (s := { s with logs := l }) held waits
  have ends (l : Logs) : (peerFails { s with logs := l } txn).net = (tagFreed s txn r).net ∧
      (Tab.get? (peerFails { s with logs := l } txn).pieces n).map (·.err) = some (some 5) ∧
      Changes [.net, .pieces, .logs, .port0, .port1] s (peerFails { s with logs := l } txn) := by
    have at_ : Tab.get? (tagFreed { s with logs := l } txn r).pieces n = some x := piece
    rw [fails l, pieceErr_of_piece low at_]
    refine ⟨by simp [tagFreed], by simp, ?_⟩
    have first : Changes [.net, .pieces, .logs, .port0, .port1] s (tagFreed { s with logs := l } txn r) := rfl
    exact (first.modPort _ _).trans rfl
  obtain ⟨l, closed⟩ := oneEvent_reports s true (peerCause r.dest 0 type) fun s => peerFails s txn
  obtain ⟨net, pieces, all⟩ := ends l
  exact ⟨(closed.same State.net).trans net, (congrArg (fun t => (Tab.get? t n).map (·.err)) (closed.same State.pieces)).trans pieces, all.andThen closed⟩

/-- A key that stands nowhere in a table is not listed. -/
theorem Tab.get?_of_absent {α : Type} {t : Table α} {k : Nat} (h : t.filter (fun y => y.1 == k) = []) : Tab.get? t k = none := by
  induction t with
  | nil => rfl
  | cons y t ih =>
    obtain ⟨j, b⟩ := y
    by_cases same : j = k
    · simp [same] at h
    · rw [List.filter_cons_of_neg (by simpa using same)] at h
      exact (if_neg same).trans (ih h)

/-- A key that stands once in a table is listed, and gone once it is erased. -/
theorem Tab.get?_erase_of_once {α : Type} {t : Table α} {k : Nat} {a : α} (once : t.filter (fun y => y.1 == k) = [(k, a)]) :
    Tab.get? t k = some a ∧ Tab.get? (Tab.erase t k) k = none := by
  induction t with
  | nil => cases once
  | cons y t ih =>
    obtain ⟨j, b⟩ := y
    by_cases same : j = k
    · rw [List.filter_cons_of_pos (by simpa using same)] at once
      obtain ⟨first, rest⟩ := List.cons.inj once
      obtain ⟨-, rfl⟩ := Prod.mk.inj first
      exact ⟨if_pos same, by rw [Tab.erase, if_pos same]; exact Tab.get?_of_absent rest⟩
    · rw [List.filter_cons_of_neg (by simpa using same)] at once
      obtain ⟨found, gone⟩ := ih once
      refine ⟨(if_neg same).trans found, ?_⟩
      rw [Tab.erase, if_neg same]
      exact (if_neg same).trans gone

/-- Settles O52, by the packet, the route, the report or the request that is named. -/
theorem routesAndPackets : Obligations.RoutesAndPackets := by
  refine ⟨fun p k s up serves => ⟨fun bad => ?_, fun r good away route => ⟨fun held => ?_, fun free => ?_⟩⟩, fun d p h r s up route next quiet empty => ?_,
    fun ls s fw cmds peers borrowed => ?_, fun txn n r x s up small once waits low piece cmds borrowed c row => ?_⟩
  · have bad' : badPacket k = true := by
      unfold badPacket
      rcases bad with check | hops | type <;> simp [*]
    have row : exec (.packetForward p k) s = .next (peerLog s k.src k.window k.type) := by
      refine (occurs_of_true (by simp [up, serves, bad']) _ s).trans ?_
      rw [forwardEffect, if_pos bad']
    have reports : Reports s (peerLog s k.src k.window k.type) := Reports.device_log ..
    exact ⟨_, row, reports.changes.same State.net, fun idle => ⟨_, deviceLog_newest idle _ _ _, rfl, rfl⟩, reports.logs_port0_port1⟩
  · have row : exec (.packetForward p k) s = .next (forwardEffect s k) := occurs_of_true (by simp [up, serves, away]) _ s
    rw [row, forwardEffect, if_neg (by simp [good]), sendPacket, route]
    dsimp only
    rw [if_pos (Option.isSome_iff_ne_none.2 held)]
    rfl
  · have row : exec (.packetForward p k) s = .next (forwardEffect s k) := occurs_of_true (by simp [up, serves, away]) _ s
    rw [row, forwardEffect, if_neg (by simp [good]), sendPacket, route]
    dsimp only
    rw [if_neg (by simp [free])]
  · have row : exec (.routeSwitch d p) s = .next (routeSwitchEffect s d p h r) := by
      change execRouteSwitch d p s = _
      unfold execRouteSwitch
      rw [route]
      dsimp only
      rw [next]
      exact occurs_of_true (by simp [up, quiet]) _ s
    rw [row, routeSwitchEffect, empty]
    rfl
  · obtain ⟨net, topology, links⟩ := topologyEffect_idle cmds peers borrowed ls
    obtain ⟨new, old⟩ := reported_topology s ls
    exact ⟨_, occurs_of_true fw _ s, by rw [topology]; exact new, by rw [topology]; exact old, links, net⟩
  · obtain ⟨held, gone⟩ := Tab.get?_erase_of_once once
    obtain rfl | ⟨rfl, on⟩ := row
    · obtain ⟨net, err, all⟩ := peerEvent_of_piece held waits low piece 0
      have row : exec (.peerTimeout txn) s = .next (settleLost (peerEvent s r txn 0) []) := by
        have due : timesOut s txn = true := by rw [timesOut, if_pos small, Tab.has, held]; rfl
        refine (occurs_of_true (by rw [up, due]; rfl) _ s).trans ?_
        rw [peerTimeoutEffect, if_pos small, held]
      rw [row, settleLost_of_idle ((all.same State.cmds).trans cmds) ((all.same fun s => s.tiers.borrowed).trans borrowed)]
      exact ⟨_, rfl, by rw [net]; exact gone, by rw [State.link, net]; exact congrArg Link.tags (State.link_modLink _ _ _), err⟩
    · obtain ⟨net, err, all⟩ := peerEvent_of_piece held waits low piece 0x14
      have row : exec (.windowFault txn) s = .next (peerEvent s r txn 0x14) := by
        change responseRow txn (fun s r => windowFaultEffect s txn r) s = _
        unfold responseRow
        rw [held]
        exact occurs_of_true (by simp [up, on]) _ s
      exact ⟨_, row, by rw [net]; exact gone, by rw [State.link, net]; exact congrArg Link.tags (State.link_modLink _ _ _), err⟩

end Sys2Proof.Machine
end

section
/-! SUPPORT. Requests of peers through windows (R387, R562), and the statement about them. -/

namespace Sys2Proof.Machine

open Sys2Proof

-- Proofs are checked one at a time: each that waits for its turn would hold a thread's stack.
set_option Elab.async false

variable {s : State} {k : Packet}

/-- A check that names its number where its condition fails, and else goes on. -/
theorem check_eq_none {ok : Bool} {n : Nat} {rest : Option Nat} : (if !ok then some n else rest) = none ↔ ok = true ∧ rest = none := by
  cases ok <;> simp

/-- The check of R387 lets a request by exactly where every condition holds. -/
theorem windowCheck_eq_none {n : Nat} {x : Right} :
    windowCheck s k.src k.window k.gen k.offset n x = none ↔ s.windowAllows k n x := by
  unfold windowCheck State.windowAllows
  dsimp only
  rw [check_eq_none, check_eq_none, check_eq_none, check_eq_none, check_eq_none]
  cases x <;> simp [and_assoc]

theorem reached_of_allowed {n : Nat} {x : Right} (away : atHome s k = false) (allowed : s.windowAllows k n x) :
    reached s k n x = .ok (windowAddr s k.src k.window k.offset) := by
  rw [reached, if_neg (by simp [away]), windowCheck_eq_none.2 allowed]

theorem reached_of_not_allowed {n : Nat} {x : Right} (away : atHome s k = false) (refused : ¬ s.windowAllows k n x) :
    ∃ c, reached s k n x = .error c := by
  rw [reached, if_neg (by simp [away])]
  cases check : windowCheck s k.src k.window k.gen k.offset n x with
  | none => exact absurd (windowCheck_eq_none.1 check) refused
  | some c => exact ⟨c, rfl⟩

/-- A packet that goes out changes routes' queues and links alone. -/
theorem sendPacket_net (s : State) (k : Packet) :
    (sendPacket s k).net = { s.net with routes := (sendPacket s k).net.routes, links := (sendPacket s k).net.links } := by
  unfold sendPacket
  split
  · split <;> rfl
  · rfl

/-- What a refused request leaves: counted at its die, logged, and answered. -/
def Refused (k : Packet) (s t : State) : Prop :=
  Tab.getD t.protect.refused (peerDie s k.src) 0 = min (2 ^ 32 - 1) (Tab.getD s.protect.refused (peerDie s k.src) 0 + 1) ∧
    (∀ d, d ≠ peerDie s k.src → Tab.getD t.protect.refused d 0 = Tab.getD s.protect.refused d 0) ∧
    (s.security.activating = none → ∃ e, t.logs.entries.getLast? = some e ∧ e.kind = kindPeer ∧ e.location = k.src) ∧
    t = { s with
      protect := { s.protect with refused := t.protect.refused }, net := { s.net with routes := t.net.routes, links := t.net.links }
      logs := t.logs, port0 := t.port0, port1 := t.port1 }

theorem refusePeer_refused (s : State) (k : Packet) (check : Nat) : Refused k s (refusePeer s k check) := by
  unfold refusePeer
  extract_lets s₁
  have logged : Reports s₁ (peerLog s₁ k.src k.window k.type) := Reports.device_log ..
  have newest (idle : s₁.security.activating = none) :
      (peerLog s₁ k.src k.window k.type).logs.entries.getLast? = _ := deviceLog_newest idle _ _ _
  generalize peerLog s₁ k.src k.window k.type = s₂ at logged newest
  let answer : Packet := { mkPacket s₂ 0x14 k.src k.txn (leBytes 8 check) with cls := 1, prio := k.prio }
  have sent : Changes [.net] s₂ (respond s₂ k 0x14 (leBytes 8 check)) := changes_sendPacket s₂ answer
  have net : (respond s₂ k 0x14 (leBytes 8 check)).net = { s₂.net with
      routes := (respond s₂ k 0x14 (leBytes 8 check)).net.routes, links := (respond s₂ k 0x14 (leBytes 8 check)).net.links } :=
    sendPacket_net s₂ answer
  generalize respond s₂ k 0x14 (leBytes 8 check) = t at sent net
  have protect : t.protect = { s.protect with
      refused := Tab.modify s.protect.refused (peerDie s k.src) 0 fun n => satAdd (2 ^ 32 - 1) n 1 } :=
    (sent.same State.protect).trans (logged.changes.same State.protect)
  have logs : t.logs = s₂.logs := sent.same State.logs
  refine ⟨by rw [protect, Tab.getD_modify_self]; rfl, fun d other => by simp [protect, Tab.getD_modify, other], fun idle => ?_, ?_⟩
  · rw [logs]
    exact ⟨_, newest idle, rfl, rfl⟩
  · have kept : s₂.net = s.net := logged.changes.same State.net
    rw [kept] at net
    have all : Changes [.logs, .port0, .port1, .net, .protect] s t := Changes.comp (show Changes [.protect] s s₁ from rfl)
      (logged.changes.comp (n := [.logs, .port0, .port1, .net]) sent)
    have form : t = { s with protect := t.protect, net := t.net, logs := t.logs, port0 := t.port0, port1 := t.port1 } := all
    rw [net] at form
    rw [protect] at form ⊢
    exact form

/-- An atomic request that its window, its place or R262 does not allow is refused. -/
theorem atomicReqEffect_refused (away : atHome s k = false)
    (bad : ((field k.payload 1 1 = 4 ∨ field k.payload 1 1 = 8) ∧ ¬ s.windowAllows k (field k.payload 1 1) .atomic) ∨
      (field k.payload 1 1 = 8 ∧ field k.payload 0 1 = 2)) : Refused k s (atomicReqEffect s k) := by
  unfold atomicReqEffect
  extract_lets w
  split
  · next op form =>
    rcases bad with ⟨-, refused⟩ | ⟨wide, fadd⟩
    · obtain ⟨c, check⟩ := reached_of_not_allowed away refused
      rw [check]
      exact refusePeer_refused s k c
    · simp [w, wide, fadd] at form
  · exact refusePeer_refused s k 5

/-- Settles O53, by the type of the request. -/
theorem peerRequestsAreServed : Obligations.PeerRequestsAreServed := by
  intro k s served away a w
  have at_ : a = windowAddr s k.src k.window k.offset := rfl
  refine ⟨fun type allowed u b read => ?_, fun type allowed => ?_, fun type width placed allowed op old code word => ?_, fun c refused => ?_⟩
  · have row : exec (.readReq k) s = .next (readReqEffect s k) := occurs_of_true (type ▸ served) _ s
    rw [row, readReqEffect, reached_of_allowed away allowed]
    dsimp only
    rw [← at_, read]
  · have row : exec (.writeReq k) s = .next (writeReqEffect s k) := occurs_of_true (type ▸ served) _ s
    rw [row, writeReqEffect, reached_of_allowed away allowed]
    dsimp only
    rw [away, ← at_]
    simp
  · have row : exec (.atomicReq k) s = .next (atomicReqEffect s k) := occurs_of_true (type ▸ served) _ s
    have form : ((w == 4 || (w == 8 && field k.payload 0 1 != 2)) && aligned k.offset w) = true := by
      rw [placed]
      rcases width with narrow | ⟨wide, notFadd⟩ <;> simp [*]
    rw [row]
    unfold atomicReqEffect
    dsimp only
    rw [code, form]
    dsimp only
    rw [reached_of_allowed away allowed]
    dsimp only
    rw [← at_, word]
  · have row (t : Nat) (hc : k.type = t) : servesPacket s k t = true := hc ▸ served
    rcases refused with ⟨type, rfl, bad⟩ | ⟨type, rfl, bad⟩ | ⟨type, rfl, width, bad⟩ | ⟨type, rfl, wide, fadd⟩
    · obtain ⟨check, no⟩ := reached_of_not_allowed away bad
      refine ⟨_, occurs_of_true (row 1 type) _ s, ?_⟩
      rw [readReqEffect, no]
      exact refusePeer_refused s k check
    · obtain ⟨check, no⟩ := reached_of_not_allowed away bad
      refine ⟨_, occurs_of_true (row 2 type) _ s, ?_⟩
      rw [writeReqEffect, no]
      exact refusePeer_refused s k check
    · exact ⟨_, occurs_of_true (row 3 type) _ s, atomicReqEffect_refused away (.inl ⟨width, bad⟩)⟩
    · exact ⟨_, occurs_of_true (row 3 type) _ s, atomicReqEffect_refused away (.inr ⟨wide, fadd⟩)⟩

end Sys2Proof.Machine
end

section
/-! SUPPORT. What a write through the cache leaves alone: all but the collections' control lines, the cache and HBM. -/

namespace Sys2Proof.Machine

open Sys2Proof

-- Proofs are checked one at a time: each that waits for its turn would hold a thread's stack.
set_option Elab.async false

theorem changes_markRecent (s : State) (slice set way : Nat) : Changes [.cache] s (markRecent s slice set way) := rfl

theorem changes_putUnfetched (s : State) (line off : Nat) (bytes : List Byte) (old : List Sector) :
    Changes [.hbm] s (putUnfetched s line off bytes old) :=
  .foldl (fun s _ => .ite (changes_hbmPut s _ _ _) (.refl _ s)) _ s

theorem changes_allocLine (s : State) (slice line : Nat) (sectors : List Sector) (recent : Bool) :
    Changes [.cache, .hbm] s (allocLine s slice line sectors recent) := by
  unfold allocLine
  extract_lets set
  split
  · exact .ite rfl rfl
  · split
    · exact .refl _ s
    · extract_lets s₁ s₂
      have evicted : Changes [.cache, .hbm] s s₂ := (changes_evictKey ..).modCache _
      exact .ite (evicted.andThen (changes_markRecent ..)) (evicted.modCache _)

theorem changes_wcWrite (s : State) (slice line off : Nat) (bytes : List Byte) (src : Source) :
    Changes [.cache, .hbm] s (wcWrite s slice line off bytes src) := by
  unfold wcWrite
  extract_lets s₁ w w' put s₂
  have room : Changes [.cache, .hbm] s s₁ := by
    unfold s₁
    split
    · exact .refl _ s
    · split
      · split
        · exact changes_drainWc ..
        · exact .refl _ s
      · exact .refl _ s
  have put : Changes [.cache, .hbm] s s₂ := room.modCache _
  exact .ite (put.andThen (changes_drainWc ..)) put

theorem changes_controlPut (s : State) (o : Nat) (b : List Byte) : Changes [.colls, .cache] s (controlPut s o b) := rfl

/-- A write through the cache. -/
theorem changes_cachePut (s : State) (src : Source) (a : Nat) (bytes : List Byte) (hint : Hint) :
    Changes [.colls, .cache, .hbm] s (cachePut s src a bytes hint) := by
  unfold cachePut
  split
  · extract_lets o
    split
    · exact (changes_controlPut ..).mono (by decide)
    · exact .ite rfl (.refl _ s)
  · extract_lets slice line off
    split
    · extract_lets old new s₁
      have put : Changes [.colls, .cache, .hbm] s s₁ := ((changes_putUnfetched ..).mono (by decide)).modCache _
      exact .ite (put.andThen (changes_markRecent ..)) put
    · have drained : Changes [.colls, .cache, .hbm] s (drainWc s slice line) := (changes_drainWc ..).mono (by decide)
      split
      · exact (drained.andThen (changes_putUnfetched ..)).andThen (changes_allocLine ..)
      · split
        · exact drained.trans (.foldl (fun s _ => (changes_hbmPut s _ _ _).mono (by decide)) _ _)
        · exact (changes_wcWrite ..).mono (by decide)

theorem changes_cachePutAll (n : Nat) (s : State) (src : Source) (a : Nat) (bytes : List Byte) (hint : Hint) :
    Changes [.colls, .cache, .hbm] s (cachePutAll n s src a bytes hint) := by
  induction n generalizing s a bytes with
  | zero => exact .refl _ s
  | succ n ih =>
    unfold cachePutAll
    exact .ite (.refl _ s) ((changes_cachePut ..).trans (ih ..))

theorem changes_devWrite (s : State) (src : Source) (a : Nat) (bytes : List Byte) (hint : Hint) :
    Changes [.colls, .cache, .hbm] s (devWrite s src a bytes hint) := changes_cachePutAll ..

end Sys2Proof.Machine
end

section
/-! SUPPORT. Answers of peers, epoch beacons and leases (R342, R343, R412 to R414, R570, R571), and the statement about them. -/

namespace Sys2Proof.Machine

open Sys2Proof

-- Proofs are checked one at a time: each that waits for its turn would hold a thread's stack.
set_option Elab.async false

variable {s t : State}

theorem closePeer_spec {txn : Nat} {r : PeerReq} (once : s.net.peers.filter (fun y => y.1 == txn) = [(txn, r)]) :
    Tab.get? (closePeer s txn r).net.peers txn = none ∧ ((closePeer s txn r).link r.port).tags = (s.link r.port).tags - 1 :=
  ⟨(Tab.get?_erase_of_once once).2, congrArg Link.tags (State.link_modLink (s := s.modNet _) _ _)⟩

theorem responseRow_of_held {txn : Nat} {r : PeerReq} (held : Tab.get? s.net.peers txn = some r) (up : live s = true) (on : awake s = true)
    (eff : State → PeerReq → State) : responseRow txn eff s = .next (eff s r) := by
  unfold responseRow
  rw [held]
  exact occurs_of_true (by rw [up, on]; rfl) _ s

theorem responseRow_of_absent {txn : Nat} (gone : Tab.get? s.net.peers txn = none) (eff : State → PeerReq → State) :
    responseRow txn eff s = .next s := by
  unfold responseRow
  rw [gone]
  rfl

/-- A piece that does not go on to a peer has its data, and nothing else changes. -/
theorem haveData_here {n : Nat} {x : Piece} (held : Tab.get? s.pieces n = some x) (here : x.spec.dstSpace ≠ 2) (b : List Byte) :
    haveData s n b = { s with pieces := Tab.adjust s.pieces n fun x => { x with data := some b } } := by
  unfold haveData
  dsimp only
  rw [Tab.get?_adjust_self, held]
  exact if_neg here

/-- With no tile in T3 no write to a peer makes one DIRTY. -/
theorem noteT3Write_of_noT3 (noT3 : ∀ y ∈ s.tiers.map, y.2.tier ≠ 3) (window off : Nat) : noteT3Write s window off = s := by
  unfold noteT3Write
  dsimp only
  rw [List.filter_eq_nil_iff.2 fun y hy => by simp [noT3 y hy]]
  rfl

theorem readRspEffect_piece {txn n : Nat} {r : PeerReq} {x : Piece} (waits : r.waiter = .piece n) (held : Tab.get? s.pieces n = some x)
    (here : x.spec.dstSpace ≠ 2) (b : List Byte) : readRspEffect s txn r b =
      { closePeer s txn r with pieces := Tab.adjust s.pieces n fun x => { x with data := some b } } := by
  unfold readRspEffect
  dsimp only
  rw [waits]
  exact haveData_here (s := closePeer s txn r) held here b

theorem writeAckEffect_piece {txn n : Nat} {r : PeerReq} {x : Piece} (waits : r.waiter = .piece n) (held : Tab.get? s.pieces n = some x)
    (noT3 : ∀ y ∈ s.tiers.map, y.2.tier ≠ 3) : writeAckEffect s txn r = endPiece (closePeer s txn r) n x := by
  have held' : Tab.get? (closePeer s txn r).pieces n = some x := held
  unfold writeAckEffect
  dsimp only
  rw [waits]
  dsimp only
  rw [held']
  exact congrArg (endPiece · n x) (noteT3Write_of_noT3 (s := closePeer s txn r) noT3 _ _)

/-! ## Epoch beacons (R570, R571) -/

/-- A member's collection after a beacon with epoch e at a time. -/
def beaconed (c : Collection) (now e : Nat) : Collection :=
  let c := { c with beacons := (now, e) :: c.beacons.filter (fun b => !decide (b.1 + 10000000 ≤ now)) ++
    (c.beacons.filter fun b => decide (b.1 + 10000000 ≤ now)).take 1 }
  if c.published < e then applyAttrs { c with published := e } else c

theorem beaconEffect_eq (s : State) (i e : Nat) :
    beaconEffect s i e = { s with colls := Tab.adjust (Tab.adjust s.colls i fun c => { c with
      beacons := (islandCount s 102, e) :: c.beacons.filter (fun b => !decide (b.1 + 10000000 ≤ islandCount s 102)) ++
        (c.beacons.filter fun b => decide (b.1 + 10000000 ≤ islandCount s 102)).take 1 }) i fun c =>
          if c.published < e then applyAttrs { c with published := e } else c } := rfl

theorem beaconEffect_self {i e : Nat} {c : Collection} (held : s.coll? i = some c) :
    (beaconEffect s i e).coll? i = some (beaconed c (islandCount s 102) e) := by
  rw [beaconEffect_eq]
  change Tab.get? (Tab.adjust (Tab.adjust s.colls i _) i _) i = _
  rw [Tab.get?_adjust_self, Tab.get?_adjust_self, show Tab.get? s.colls i = some c from held]
  rfl

theorem beaconEffect_other (i e : Nat) {j : Nat} (other : j ≠ i) : (beaconEffect s i e).coll? j = s.coll? j := by
  rw [beaconEffect_eq]
  change Tab.get? (Tab.adjust (Tab.adjust s.colls i _) i _) j = Tab.get? s.colls j
  rw [Tab.get?_adjust, if_neg other, Tab.get?_adjust, if_neg other]

theorem applyAttrs_published (c : Collection) : (applyAttrs c).published = c.published := by
  unfold applyAttrs
  split <;> rfl

theorem applyAttrs_beacons (c : Collection) : (applyAttrs c).beacons = c.beacons := by
  unfold applyAttrs
  split <;> rfl

theorem applyAttrs_of_new {c : Collection} {a : Attrs} (h : c.newAttrs = some a) :
    applyAttrs c = { c with attrs := { a with listCount := c.attrs.listCount }, newAttrs := none } := by
  rw [applyAttrs, h]

theorem beaconed_spec (c : Collection) (now e : Nat) : (beaconed c now e).published = max c.published e ∧
    (beaconed c now e).beacons.head? = some (now, e) ∧
    (c.published < e → ∀ a, c.newAttrs = some a →
      (beaconed c now e).attrs = { a with listCount := c.attrs.listCount } ∧ (beaconed c now e).newAttrs = none) := by
  unfold beaconed
  extract_lets d
  split
  · next newer =>
    have newer : c.published < e := newer
    refine ⟨by rw [applyAttrs_published]; exact (max_eq_right newer.le).symm, by rw [applyAttrs_beacons]; rfl, fun _ a new => ?_⟩
    have new' : ({ d with published := e } : Collection).newAttrs = some a := new
    rw [applyAttrs_of_new new']
    exact ⟨rfl, rfl⟩
  · next older =>
    have older : ¬ c.published < e := older
    exact ⟨(max_eq_left (not_lt.1 older)).symm, rfl, fun newer => absurd newer older⟩

theorem collOf_index {h i : Nat} {c : Collection} (found : collOf s h = some (i, c)) : s.coll? i = some c := by
  unfold collOf at found
  split at found
  · next d held =>
    split at found
    · obtain ⟨rfl, rfl⟩ := Prod.mk.inj (Option.some.inj found)
      exact held
    · cases found
  · cases found

/-! ## Leases (R412 to R414) -/

/-- Taking pages changes nothing of the windows. -/
theorem takePages_windows {n align p : Nat} (took : takePages s n align = some (p, t)) :
    Changes [.protect] s t ∧ t.protect.inbound = s.protect.inbound := by
  unfold takePages at took
  split at took
  · obtain ⟨-, rfl⟩ := Prod.mk.inj (Option.some.inj took)
    exact ⟨rfl, rfl⟩
  · dsimp only at took
    split at took
    · obtain ⟨-, rfl⟩ := Prod.mk.inj (Option.some.inj took)
      exact ⟨rfl, rfl⟩
    · cases took

/-- A window opened for a lease. -/
def lendWindow (s : State) (w k : Nat) (x : InWindow) (l : LentLease) : State :=
  (s.modProtect fun y => { y with inbound := Tab.set y.inbound w x }).modTiers fun y => { y with lent := Tab.set y.lent k l }

/-- What a lease that is sent leaves of the windows and the leases. -/
theorem sendLease_lendWindow (s : State) (w k b : Nat) (x : InWindow) (l : LentLease) (m : LeaseMsg) :
    (∀ v, inWindow (sendLease (lendWindow s w k x l) b m) v = if v = w then x else inWindow s v) ∧
      Tab.get? (sendLease (lendWindow s w k x l) b m).tiers.lent k = some l := by
  have sent : Changes [.net] (lendWindow s w k x l) (sendLease (lendWindow s w k x l) b m) := changes_sendPacket ..
  refine ⟨fun v => ?_, ?_⟩
  · rw [inWindow, sent.same fun s => s.protect.inbound]
    change Tab.getD (Tab.set s.protect.inbound w x) v {} = _
    rw [Tab.getD, Tab.get?_set]
    split <;> rfl
  · rw [sent.same fun s => s.tiers.lent]
    exact Tab.get?_set_self _ _ _

/-- A lease that is granted opens one inbound window to its borrower (R412). -/
theorem grantLease_grants {b w p tp : Nat} {u v : State} (free : freeWindow s = some w) (took : takePages s 262144 16 = some (p, u))
    (table : takePages u 32 1 = some (tp, v)) (quota : s.tiers.lent.length < s.tiers.lendQuota) :
    inWindow (grantLease s b) w = { table := tp * 4096, tiles := 16384, source := b, anyMember := false, read := true, write := true, atomic := false
                                    valid := true, gen := (inWindow s w).gen + 1 } ∧
      (∀ x, x ≠ w → inWindow (grantLease s b) x = inWindow s x) ∧
      ∃ j, Tab.get? (grantLease s b).tiers.lent j = some { borrower := b, window := w, page := p, table := tp, revoking := false } := by
  obtain ⟨first, inbound₁⟩ := takePages_windows took
  obtain ⟨second, inbound₂⟩ := takePages_windows table
  have inbound : v.protect.inbound = s.protect.inbound := inbound₂.trans inbound₁
  unfold grantLease
  rw [free, took]
  dsimp only
  rw [table]
  dsimp only
  rw [if_pos quota]
  have written := changes_devWrite v (.queueEngine .p0) (tp * 4096) (leaseTable p) .stream
  generalize devWrite v (.queueEngine .p0) (tp * 4096) (leaseTable p) .stream = t₁ at written
  generalize (Tab.firstFree v.tiers.lent 0 (s.tiers.lent.length + 1)).getD 0 = k
  have gen : (inWindow v w).gen = (inWindow s w).gen := by rw [inWindow, inbound, inWindow]
  rw [gen]
  obtain ⟨windows, lent⟩ := sendLease_lendWindow t₁ w k b
    { table := tp * 4096, tiles := 16384, source := b, anyMember := false, read := true, write := true, atomic := false
      valid := true, gen := (inWindow s w).gen + 1 }
    { borrower := b, window := w, page := p, table := tp, revoking := false }
    (.grant s.net.deviceNumber k w ((inWindow s w).gen + 1))
  refine ⟨(windows w).trans (if_pos rfl), fun x other => ((windows x).trans (if_neg other)).trans ?_, k, lent⟩
  rw [inWindow, written.same fun s => s.protect.inbound, inbound, inWindow]

theorem grantLease_of_full (full : s.tiers.lendQuota ≤ s.tiers.lent.length) (b : Nat) : grantLease s b = s := by
  unfold grantLease
  extract_lets lent
  split
  · split
    · exact if_neg (not_lt.2 full)
    · rfl
  · rfl

/-- A lease that is taken opens an outbound window to the lender's (R413). -/
theorem takeLease_takes {l k w g o : Nat} (free : freeOutbound s = some o) :
    outWindow (takeLease s l k w g) o = { target := l, valid := true, remote := w, read := true, write := true, atomic := false, tiles := 16384, gen := g } ∧
      (∃ j x, Tab.get? (takeLease s l k w g).tiers.borrowed j = some x ∧ x.lender = l ∧ x.number = k ∧ x.window = o ∧ x.revoked = false) ∧
      takeLease s l k w g = { s with
        protect := { s.protect with outbound := (takeLease s l k w g).protect.outbound }
        tiers := { s.tiers with borrowed := (takeLease s l k w g).tiers.borrowed } } := by
  unfold takeLease
  rw [free]
  exact ⟨by simp [outWindow, State.modProtect, State.modTiers, Tab.getD], ⟨_, _, Tab.get?_set_self _ _ _, rfl, rfl, rfl, rfl⟩, rfl⟩

/-- A lease in which no tile lies is dropped with its window alone. -/
theorem dropLease_empty {k : Nat} {l : BorrowedLease} (held : Tab.get? s.tiers.borrowed k = some l) (noT3 : ∀ y ∈ s.tiers.map, y.2.tier ≠ 3) :
    dropLease s k false = (s.modTiers fun x => { x with borrowed := Tab.erase x.borrowed k }).modProtect fun x => { x with
      outbound := Tab.adjust x.outbound l.window fun w => { w with valid := false } } := by
  have none_ : tilesInWindow s l.window = [] := by
    unfold tilesInWindow
    rw [List.filter_eq_nil_iff.2 fun y hy => by simp [noT3 y hy]]
    rfl
  unfold dropLease
  rw [held]
  dsimp only
  rw [none_]
  rfl

/-- A window that is closed is not VALID, listed or not. -/
theorem adjust_valid_outbound (t : Table OutWindow) (w : Nat) :
    (Tab.getD (Tab.adjust t w fun x => { x with valid := false }) w {}).valid = false := by
  rw [Tab.getD, Tab.get?_adjust_self]
  cases Tab.get? t w <;> rfl

/-- A revoked lease in which no tile lies is gone (R414). -/
theorem vacateLease_empty {j : Nat} {x : BorrowedLease} (held : Tab.get? s.tiers.borrowed j = some x) (wf : Tab.wf s.tiers.borrowed = true)
    (noT3 : ∀ y ∈ s.tiers.map, y.2.tier ≠ 3) : Tab.get? (vacateLease s j).tiers.borrowed j = none ∧ (outWindow (vacateLease s j) x.window).valid = false ∧
      ∀ m, m ≠ j → Tab.get? (vacateLease s j).tiers.borrowed m = Tab.get? s.tiers.borrowed m := by
  unfold vacateLease
  rw [held]
  dsimp only
  rw [dropLease_empty held noT3]
  generalize dropped : (s.modTiers fun x => { x with borrowed := Tab.erase x.borrowed j }).modProtect _ = u
  have sent : Changes [.net] u (sendLease u x.lender (.release s.net.deviceNumber x.number)) := changes_sendPacket ..
  have borrowed : u.tiers.borrowed = Tab.erase s.tiers.borrowed j := dropped ▸ rfl
  have outbound : u.protect.outbound = Tab.adjust s.protect.outbound x.window fun w => { w with valid := false } := dropped ▸ rfl
  refine ⟨?_, ?_, fun m other => ?_⟩
  · rw [sent.same fun s => s.tiers.borrowed, borrowed, Tab.get?_erase_self wf]
  · rw [outWindow, sent.same fun s => s.protect.outbound, outbound]
    exact adjust_valid_outbound _ _
  · rw [sent.same fun s => s.tiers.borrowed, borrowed, Tab.get?_erase_ne _ other]

/-- A lease that its borrower released is closed under a new GENERATION (R414). -/
theorem closeLease_closes {k : Nat} {x : LentLease} (once : s.tiers.lent.filter (fun y => y.1 == k) = [(k, x)]) (open_ : (inWindow s x.window).valid = true) :
    Tab.get? (closeLease s k).tiers.lent k = none ∧ (inWindow (closeLease s k) x.window).valid = false ∧
      (inWindow (closeLease s k) x.window).gen = (inWindow s x.window).gen + 1 ∧
      closeLease s k = { s with protect := (closeLease s k).protect, tiers := { s.tiers with lent := (closeLease s k).tiers.lent } } := by
  obtain ⟨held, gone⟩ := Tab.get?_erase_of_once once
  have listed : ∃ w, Tab.get? s.protect.inbound x.window = some w := by
    unfold inWindow Tab.getD at open_
    cases at_ : Tab.get? s.protect.inbound x.window with
    | none => rw [at_] at open_; cases open_
    | some w => exact ⟨w, rfl⟩
  obtain ⟨w, at_⟩ := listed
  have tiers : (closeLease s k).tiers = { s.tiers with lent := Tab.erase s.tiers.lent k } := by
    unfold closeLease
    rw [held]
    rfl
  have inbound : (closeLease s k).protect.inbound =
      Tab.adjust s.protect.inbound x.window fun w => { w with valid := false, gen := w.gen + 1 } := by
    unfold closeLease
    rw [held]
    rfl
  have closed : inWindow (closeLease s k) x.window = { w with valid := false, gen := w.gen + 1 } := by
    rw [inWindow, inbound, Tab.getD, Tab.get?_adjust_self, at_]
    rfl
  have before : inWindow s x.window = w := by
    rw [inWindow, Tab.getD, at_]
    rfl
  have all : Changes [.protect, .tiers] s (closeLease s k) := by
    unfold closeLease
    rw [held]
    exact ((((Changes.refl _ s).modProtect _).modProtect _).modProtect _).modTiers _
  have form : closeLease s k = { s with protect := (closeLease s k).protect, tiers := (closeLease s k).tiers } := all
  refine ⟨by rw [tiers]; exact gone, by rw [closed], by rw [closed, before], ?_⟩
  generalize closeLease s k = t at tiers form
  rw [tiers] at form ⊢
  exact form

/-- Settles O54, by the response, the beacon or the message that arrives. -/
theorem peersAnswer : Obligations.PeersAnswer := by
  refine ⟨⟨fun txn r s up on once => ?_, fun txn s gone c answer => ?_⟩, fun h e i c s up on found member away => ?_, fun s fw on => ?_⟩
  · obtain ⟨held, -⟩ := Tab.get?_erase_of_once once
    obtain ⟨gone, freed⟩ := closePeer_spec once
    have read (b : List Byte) : exec (.readRsp txn b) s = .next (readRspEffect s txn r b) :=
      responseRow_of_held held up on fun s r => readRspEffect s txn r b
    have acked : exec (.writeAck txn) s = .next (writeAckEffect s txn r) :=
      responseRow_of_held held up on fun s r => writeAckEffect s txn r
    have answered (old : BitVec 64) : exec (.atomicRsp txn old) s = .next (atomicRspEffect s txn r old) :=
      responseRow_of_held held up on fun s r => atomicRspEffect s txn r old
    refine ⟨gone, freed, fun n b x waits piece here => ?_, fun core slot b x waits slot_ => ?_, fun n j b waits => ?_, fun waits => ?_,
      fun n x waits piece noT3 => ?_, fun waits old => ?_, fun i old waits => ?_⟩
    · refine ⟨_, (read b).trans (congrArg _ (readRspEffect_piece waits piece here b)), ?_, fun m other => ?_, rfl⟩
      · exact (Tab.get?_adjust_self _ _ _).trans (by rw [piece]; rfl)
      · exact (Tab.get?_adjust _ _ _ _).trans (if_neg other)
    · refine ⟨{ closePeer s txn r with alleys := Tab.adjust s.alleys (core * 64 + slot) fun x => { x with data := b } }, (read b).trans ?_, ?_, rfl⟩
      · unfold readRspEffect
        dsimp only
        rw [waits]
        rfl
      · exact (Tab.get?_adjust_self _ _ _).trans (by rw [slot_]; rfl)
    · refine (read b).trans ?_
      unfold readRspEffect
      dsimp only
      rw [waits]
      rfl
    · refine acked.trans ?_
      unfold writeAckEffect
      dsimp only
      obtain ⟨core, slot, waits⟩ | ⟨n, waits⟩ := waits <;> rw [waits] <;> rfl
    · exact acked.trans (congrArg _ (writeAckEffect_piece waits piece noT3))
    · refine (answered old).trans ?_
      unfold atomicRspEffect
      cases waiter : r.waiter <;> first | rfl | exact absurd waiter (waits _)
    · refine (answered old).trans ?_
      unfold atomicRspEffect
      dsimp only
      rw [waits]
      rfl
  · rcases answer with ⟨b, rfl⟩ | rfl | ⟨old, rfl⟩ | rfl
    · exact responseRow_of_absent gone fun s r => readRspEffect s txn r b
    · exact responseRow_of_absent gone fun s r => writeAckEffect s txn r
    · exact responseRow_of_absent gone fun s r => atomicRspEffect s txn r old
    · exact responseRow_of_absent gone fun s r => windowFaultEffect s txn r
  · have row : exec (.epochBeacon h e) s = .next (beaconEffect s i e) := by
      change execEpochBeacon h e s = _
      unfold execEpochBeacon
      rw [found]
      exact occurs_of_true (by simp [up, on, member, away]) _ s
    obtain ⟨published, newest, attrs⟩ := beaconed_spec c (islandCount s 102) e
    exact ⟨_, _, row, beaconEffect_self (collOf_index found), published, newest, attrs, fun j other => beaconEffect_other i e other, rfl⟩
  · have row (m : LeaseMsg) : exec (.lease m) s = .next (leaseEffect s m) := occurs_of_true (by rw [fw, on]; rfl) _ s
    refine ⟨fun b hops w p u tp v free took table quota => ⟨_, row _, grantLease_grants free took table quota⟩,
      fun b hops full => (row _).trans (congrArg _ (grantLease_of_full full b)), fun l k w g o free => ⟨_, row _, takeLease_takes free⟩,
      fun l k j x wf found noT3 => ?_, fun b k x once mine open_ => ?_⟩
    · refine ⟨_, row _, ?_⟩
      have form : leaseEffect s (.revoke l k) =
          vacateLease (s.modTiers fun y => { y with borrowed := Tab.set y.borrowed j { x with revoked := true } }) j := by
        unfold leaseEffect
        dsimp only
        rw [found]
      rw [form]
      obtain ⟨gone, closed, others⟩ := vacateLease_empty
        (s := s.modTiers fun y => { y with borrowed := Tab.set y.borrowed j { x with revoked := true } }) (x := { x with revoked := true })
        (Tab.get?_set_self _ _ _) (Tab.wf_set wf _ _) noT3
      exact ⟨gone, closed, fun m other => (others m other).trans (Tab.get?_set_ne _ _ other)⟩
    · obtain ⟨held, -⟩ := Tab.get?_erase_of_once once
      refine ⟨_, row _, ?_⟩
      have form : leaseEffect s (.release b k) = closeLease s k := by
        unfold leaseEffect
        dsimp only
        rw [held]
        exact if_pos mine
      rw [form]
      exact closeLease_closes once open_

end Sys2Proof.Machine
end

section
/-! SUPPORT. What the end of a command leaves alone: the movers, the local stores, the tiers, flash, the cores and the schedules. -/

namespace Sys2Proof.Machine

open Sys2Proof

-- Proofs are checked one at a time: each that waits for its turn would hold a thread's stack.
set_option Elab.async false

/-- What the end of a command may change. -/
abbrev endingParts : List Part := [.cmds, .batches, .runs, .colls, .net, .logs, .port0, .port1, .cache, .hbm, .protect, .sideband]

/-- What the end of a batch may change. -/
abbrev batchParts : List Part := .cores :: .localStore :: .free :: endingParts

theorem changes_raiseEvent (s : State) (p : PortId) (b : Nat) : Changes [.logs, .port0, .port1] s (raiseEvent s p b) := (Reports.raise s p b).changes

theorem changes_writeLog (s : State) (e : LogEntry) (ps : List PortId) : Changes [.logs, .port0, .port1] s (writeLog s e ps) :=
  (Reports.write s e ps).changes

theorem changes_logEnd (s : State) (e : LogEntry) : Changes [.logs, .port0, .port1] s (logEnd s e) := by
  unfold logEnd
  split
  · exact changes_writeLog ..
  · exact (Changes.refl _ s).modLogs _

theorem changes_logStatus (s : State) (c : Cmd) (k : Completion) (z : Cause) : Changes [.logs, .port0, .port1] s (logStatus s c k z).1 := by
  unfold logStatus
  split
  · dsimp only
    split <;> exact changes_logEnd ..
  · exact .refl _ s

theorem changes_freezeQueue (s : State) (p : PortId) (q st tag : Nat) : Changes [.logs, .port0, .port1] s (freezeQueue s p q st tag) :=
  .ite (((Changes.refl _ s).modPair p q _).andThen (changes_raiseEvent ..)) (.refl _ s)

theorem changes_emit (s : State) (p : PortId) (x : PortOut) : Changes [.port0, .port1] s (emit s p x) := (Changes.refl _ s).modPort p _

theorem changes_signal (s : State) (p : PortId) (v : Nat) : Changes [.port0, .port1] s (signal s p v) :=
  .ite (.refl _ s) (.ite ((Changes.refl _ s).modPort p _) (changes_emit ..))

theorem changes_releasePins (s : State) (c : Cmd) : Changes [.protect, .colls] s (releasePins s c) := by
  unfold releasePins
  split
  · exact ((Changes.refl _ s).modProtect _).modColl _ _
  · exact (Changes.refl _ s).modColl _ _

theorem changes_mailboxRespond (s : State) (p : PortId) (m : Nat) (c : Cmd) (k : Completion) (out : List Byte) :
    Changes [.port0, .port1] s (mailboxRespond s p m c k out) :=
  .ite (((Changes.refl _ s).modMailbox p m _).trans (changes_signal ..)) ((Changes.refl _ s).modMailbox p m _)

theorem changes_sidebandRespond (s : State) (c : Cmd) (k : Completion) (out : List Byte) : Changes [.sideband] s (sidebandRespond s c k out) := rfl

/-- A command that leaves the device. -/
theorem changes_gone (s : State) (n : Nat) (c : Cmd) : Changes endingParts s (releasePins { s with cmds := Tab.erase s.cmds n } c) :=
  (show Changes endingParts s { s with cmds := Tab.erase s.cmds n } from rfl).andThen (changes_releasePins ..)

theorem changes_decided (s : State) (n : Nat) (f : Cmd → Cmd) : Changes endingParts s (s.modCmd n f) := (Changes.refl _ s).modCmd n f

theorem changes_deliver (s : State) (n : Nat) (c : Cmd) (k : Completion) (res : List Byte) : Changes endingParts s (deliver s n c k res) := by
  unfold deliver
  split
  · extract_lets t
    have gone : Changes endingParts s t := changes_gone ..
    split
    · exact .ite (gone.modMailbox _ _ _) gone
    · exact gone
  · split
    · extract_lets t
      have frozen : Changes endingParts s t := .ite ((changes_freezeQueue ..).mono (by decide)) (.refl _ s)
      exact frozen.modCmd _ _
    · split
      · exact changes_decided ..
      · extract_lets t
        have gone : Changes endingParts s t := changes_gone ..
        split
        · exact (gone.andThen (changes_devWrite ..)).andThen (changes_mailboxRespond ..)
        · exact gone.andThen (changes_mailboxRespond ..)
    · exact (changes_gone ..).andThen (changes_sidebandRespond ..)
    · exact (changes_gone ..).andThen (changes_sendData ..)
    · exact changes_gone ..
    · exact .ite ((changes_gone ..).andThen (changes_sendData ..)) ((changes_gone ..).andThen (changes_sendData ..))

theorem changes_cancelShards (s : State) (n : Nat) (c : Cmd) : Changes [.net] s (cancelShards s n c) := by
  unfold cancelShards
  split
  · exact .refl _ s
  · exact .refl _ s
  · exact .ite (.foldl (fun s _ => changes_sendPacket s _) _ s) (.refl _ s)

theorem changes_leaveBatches (s : State) (n : Nat) : Changes [.batches] s (leaveBatches s n) := rfl

theorem changes_dropRuns (s : State) (n : Nat) : Changes [.runs] s (dropRuns s n) := rfl

theorem changes_releaseStaging (s : State) (n : Nat) (c : Cmd) : Changes [.colls] s (releaseStaging s n c) := (Changes.refl _ s).modColl _ _

theorem changes_decide (s : State) (n : Nat) (k : Completion) (res : List Byte) (unit : Nat) (z : Cause) :
    Changes endingParts s (decide_ s n k res unit z) := by
  unfold decide_
  split
  · exact .refl _ s
  · split
    · exact .refl _ s
    · split
      · exact changes_decided ..
      · extract_lets k₁ len k₂ k₃ res₁ s₁ s₂
        have left : Changes endingParts s s₁ :=
          ((show Changes endingParts s _ from (changes_cancelShards ..).mono (by decide)).andThen (changes_leaveBatches ..)).andThen (changes_dropRuns ..)
        have freed : Changes endingParts s s₂ := .ite left (left.andThen (changes_releaseStaging ..))
        exact (freed.andThen (changes_logStatus ..)).trans (changes_deliver ..)

theorem changes_fail (s : State) (n : Nat) (st : Status) (z : Cause) : Changes endingParts s (fail s n st z) := changes_decide ..

theorem changes_failAll (s : State) (ns : List Nat) (st : Status) (z : Cause) : Changes endingParts s (failAll s ns st z) :=
  changes_oneEvent (fun s => .foldl (fun s n => changes_fail s n st z) ns s) (by decide) s false z

theorem changes_freeCores (s : State) (mine : Core → Bool) : Changes [.cores, .localStore, .free] s (freeCores s mine) := rfl

theorem changes_dropBatch (s : State) (b : Nat) : Changes [.batches, .cmds, .cores, .localStore, .free] s (dropBatch s b) :=
  (show Changes [.batches, .cmds, .cores, .localStore, .free] s (dropBatch.leaveAll b { s with batches := Tab.erase s.batches b }) from rfl).andThen
    (changes_freeCores ..)

theorem changes_endBatch (s : State) (b : Nat) (st : Status) (z : Cause) : Changes batchParts s (endBatch s b st z) := by
  unfold endBatch
  split
  · exact ((changes_failAll ..).mono (by decide)).andThen (changes_dropBatch ..)
  · exact .refl _ s

end Sys2Proof.Machine
end

section
/-! SUPPORT. Pieces of the movers (R322, R330, R331, R341 to R345, R455), and the statement about them. -/

namespace Sys2Proof.Machine

open Sys2Proof

-- Proofs are checked one at a time: each that waits for its turn would hold a thread's stack.
set_option Elab.async false

variable {s t : State}

theorem State.engine_modEngine (s : State) (q : Nat) (f : Engine → Engine) : (s.modEngine q f).engine q = f (s.engine q) :=
  Tab.getD_modify_self _ _ _ _

/-! ## What settles a stream -/

/-- A stream that may have gone on, with its owner and no descriptor more that waits. -/
def GoesOn (x y : Stream) : Prop := y.owner = x.owner ∧ (x.buffered = [] → y.buffered = [])

theorem GoesOn.refl (x : Stream) : GoesOn x x := ⟨rfl, id⟩

theorem GoesOn.trans {x y z : Stream} (h : GoesOn x y) (k : GoesOn y z) : GoesOn x z := ⟨k.1.trans h.1, k.2 ∘ h.2⟩

theorem goesOn_modStream {q n : Nat} {f : Stream → Stream} (h : ∀ x, GoesOn x (f x)) (r m : Nat) :
    GoesOn (s.stream r m) ((s.modStream q n f).stream r m) := by
  by_cases same : r * 16 + m = q * 16 + n
  · have key (t : State) : t.stream r m = t.stream q n := by rw [State.stream, same, State.stream]
    rw [key, key, State.stream_modStream]
    exact h _
  · rw [(OnlyStream.modStream f).1 r m same]
    exact .refl _

/-- Completing descriptors changes the stream and the events of its engine alone. -/
theorem settleStream_spec (fuel : Nat) (s : State) (q n : Nat) : Changes [.streams, .events] s (settleStream fuel s q n) ∧
    GoesOn (s.stream q n) ((settleStream fuel s q n).stream q n) := by
  induction fuel generalizing s with
  | zero => exact ⟨.refl _ s, .refl _⟩
  | succ fuel ih =>
    unfold settleStream
    extract_lets x
    split
    · next a rest _ =>
      split
      · extract_lets s₁ s₂
        have done : Changes [.streams, .events] s s₂ := by
          have first : Changes [.streams, .events] s s₁ := (Changes.refl _ s).modStream q n _
          exact .ite (first.trans rfl) first
        have on : GoesOn (s.stream q n) (s₂.stream q n) := by
          have first : GoesOn (s.stream q n) (s₁.stream q n) := by
            refine goesOn_modStream (fun x => ?_) q n
            exact ⟨rfl, id⟩
          unfold s₂
          split
          · exact first
          · exact first
        obtain ⟨changes, goes⟩ := ih s₂
        exact ⟨done.trans changes, on.trans goes⟩
      · exact ⟨.refl _ s, .refl _⟩
    · split
      · split
        · exact ⟨(Changes.refl _ s).modStream q n _, by
            rw [State.stream_modStream]
            exact ⟨rfl, fun _ => rfl⟩⟩
        · exact ⟨.refl _ s, .refl _⟩
      · split
        · exact ⟨(Changes.refl _ s).modStream q n _, by
            rw [State.stream_modStream]
            exact ⟨rfl, id⟩⟩
        · exact ⟨.refl _ s, .refl _⟩

/-! ## A descriptor that fails -/

theorem changes_failDesc (s : State) (q n index code : Nat) : Changes [.streams, .events] s (failDesc s q n index code) := by
  unfold failDesc
  extract_lets x t
  have failed : Changes [.streams, .events] s t := (Changes.refl _ s).modStream q n _
  split
  · exact .ite (failed.trans rfl) failed
  · exact failed

theorem failDesc_stream (s : State) (q n index code : Nat) : (failDesc s q n index code).stream q n = { s.stream q n with
    state := if (s.stream q n).state = .stopping then (s.stream q n).state else .error
    error := true, errCode := code, errDesc := index
    active := (s.stream q n).active.map fun a =>
      let a := if a.index = index then { a with failed := some code } else a
      { a with todo := [] } } := by
  unfold failDesc
  extract_lets x t
  have streams : t.stream q n = _ := State.stream_modStream _ _ _ _
  rw [← streams]
  split
  · split <;> rfl
  · rfl

theorem changes_ownerEnds (s : State) (o : Owner) (tag code : Nat) (z : Cause) : Changes batchParts s (ownerEnds s o tag code z) := by
  unfold ownerEnds
  split
  · exact .refl _ s
  · split
    · exact .ite (changes_endBatch ..) (.refl _ s)
    · exact .refl _ s
  · split
    · exact .ite ((changes_fail ..).mono (by decide)) (.refl _ s)
    · exact .refl _ s

/-- The owner of a stream that is no batch scheduler keeps the local stores. -/
theorem changes_ownerEnds_of_command {o : Owner} (h : o ≠ .scheduler) (s : State) (tag code : Nat) (z : Cause) :
    Changes endingParts s (ownerEnds s o tag code z) := by
  unfold ownerEnds
  split
  · exact .refl _ s
  · exact absurd rfl h
  · split
    · exact .ite (changes_fail ..) (.refl _ s)
    · exact .refl _ s

theorem changes_failJob (s : State) (q n index code : Nat) (z : Cause) : Changes (.streams :: .events :: batchParts) s (failJob s q n index code z) := by
  unfold failJob
  extract_lets x t
  have failed : Changes (.streams :: .events :: batchParts) s t := (changes_failDesc ..).mono (by decide)
  split
  · exact failed.andThen (changes_ownerEnds ..)
  · exact failed

theorem changes_failJob_of_command {q n : Nat} (h : (s.stream q n).owner ≠ .scheduler) (index code : Nat) (z : Cause) :
    Changes (.streams :: .events :: endingParts) s (failJob s q n index code z) := by
  unfold failJob
  extract_lets x t
  have failed : Changes (.streams :: .events :: endingParts) s t := (changes_failDesc ..).mono (by decide)
  split
  · exact failed.andThen (changes_ownerEnds_of_command h ..)
  · exact failed

/-- The stream of a job that fails is as its descriptor's failure leaves it. -/
theorem failJob_stream (s : State) (q n index code : Nat) (z : Cause) :
    (failJob s q n index code z).stream q n = (failDesc s q n index code).stream q n := by
  unfold failJob
  extract_lets x t
  split
  · exact (changes_ownerEnds ..).same fun s => s.stream q n
  · rfl

theorem failJob_of_firmware {q n : Nat} (h : (s.stream q n).owner = .firmware) (index code : Nat) (z : Cause) :
    failJob s q n index code z = failDesc s q n index code := by
  unfold failJob
  extract_lets x t
  split
  · next a _ =>
    change ownerEnds t (s.stream q n).owner a.desc.jobTag code z = t
    rw [h]
    rfl
  · rfl

theorem changes_checkBuffered (s : State) (q n : Nat) : Changes (.streams :: .events :: batchParts) s (checkBuffered s q n) := by
  unfold checkBuffered
  extract_lets x
  split
  · exact .ite (((Changes.refl _ s).modStream q n _).trans (changes_failJob ..)) (.refl _ s)
  · exact .refl _ s

theorem changes_settle (s : State) (q n : Nat) : Changes (.streams :: .events :: batchParts) s (settle s q n) :=
  ((settleStream_spec 64 s q n).1.mono (by decide)).trans (changes_checkBuffered ..)

/-- A stream whose owner is no batch scheduler, or in which no descriptor waits, settles without the local stores. -/
theorem changes_settle_of_command {q n : Nat} (h : (s.stream q n).owner ≠ .scheduler ∨ (s.stream q n).buffered = []) :
    Changes (.streams :: .events :: endingParts) s (settle s q n) := by
  obtain ⟨changes, owner, buffered⟩ := settleStream_spec 64 s q n
  have settled : Changes (.streams :: .events :: endingParts) s (settleStream 64 s q n) := changes.mono (by decide)
  unfold settle checkBuffered
  extract_lets x
  split
  · next i d rest waits _ =>
    refine .ite (settled.trans (((Changes.refl _ _).modStream q n _).trans (changes_failJob_of_command ?_ ..))) settled
    rw [State.stream_modStream]
    rcases h with other | empty
    · exact fun same => other (owner ▸ same)
    · exact absurd (waits.symm.trans (buffered empty)) (by simp)
  · exact settled

/-! ## A piece that goes out -/

/-- The turn of a stream, with what it does to its stream and its engine (R322, R341). -/
def turnTaken (s : State) (q n : Nat) (a : Active) : State :=
  let turns := match nextStream s q with | some (_, t) => t | none => (s.engine q).turns
  (takePiece s q n a.index).modEngine q fun e => { e with
    tags := e.tags + 1, peak := max e.peak (e.tags + 1), turns := turns, last := Tab.set e.last (s.stream q n).prio n, share := min 3 (e.share + 1) }

theorem turnTaken_tags (s : State) (q n : Nat) (a : Active) : ((turnTaken s q n a).engine q).tags = (s.engine q).tags + 1 ∧
    ((turnTaken s q n a).stream q n).tags = (s.stream q n).tags + 1 := by
  unfold turnTaken
  extract_lets turns
  refine ⟨by rw [State.engine_modEngine]; rfl, ?_⟩
  have kept (u : State) (f : Engine → Engine) : (u.modEngine q f).stream q n = u.stream q n := rfl
  rw [kept, takePiece, State.stream_modStream]

/-- A piece that goes out. -/
def freshPiece (q n : Nat) (a : Active) (k : PieceSpec) : Piece :=
  { quarter := q, stream := n, index := a.index, spec := k, state := .issued, gen := 0, replays := 0, data := none, err := none, portTags := 0 }

/-- A piece on its way under a number (R341). -/
def sentPiece (s : State) (q n : Nat) (a : Active) (k : PieceSpec) : State :=
  { turnTaken s q n a with
    nextPiece := s.nextPiece + 1
    pieces := Tab.set s.pieces s.nextPiece (freshPiece q n a k) }

theorem pieceIssueEffect_local {q n : Nat} {a : Active} {k : PieceSpec} (next : nextPieceOf (s.stream q n) = some (a, k))
    (ok : pieceChecks s k = true) (fill : k.srcSpace = 4) (local_ : k.dstSpace = 3) :
    pieceIssueEffect s q n = routePiece (sentPiece s q n a k) s.nextPiece := by
  unfold pieceIssueEffect
  dsimp only
  rw [next]
  dsimp only
  rw [ok]
  have stays (u : State) : crossPiece u q k = u := by simp [crossPiece, fill, local_]
  rw [if_neg (by decide), stays]
  rfl

theorem changes_sentPiece (s : State) (q n : Nat) (a : Active) (k : PieceSpec) :
    Changes [.streams, .engines, .pieces, .nextPiece] s (sentPiece s q n a k) := rfl

/-- A piece that went out under a translation generation and with the host tags it needs (R341, R342). -/
def issuedPiece (s : State) (n : Nat) (x : Piece) : State :=
  let p := (s.stream x.quarter x.stream).hostPort
  ({ s with pieces := Tab.adjust s.pieces n fun y =>
      { y with state := .issued, gen := (s.port p).xlt.gen, portTags := hostTags s p x.spec } } : State).modPort p
    fun y => { y with tags := y.tags + hostTags s p x.spec }

theorem changes_issuedPiece (s : State) (n : Nat) (x : Piece) : Changes [.pieces, .port0, .port1] s (issuedPiece s n x) := by
  unfold issuedPiece
  extract_lets p
  have first : Changes [.pieces, .port0, .port1] s { s with pieces := Tab.adjust s.pieces n fun y =>
    { y with state := .issued, gen := (s.port p).xlt.gen, portTags := hostTags s p x.spec } } := rfl
  exact first.modPort p _

theorem issuedPiece_piece {n : Nat} {x : Piece} (held : Tab.get? s.pieces n = some x) : ∃ g h, Tab.get? (issuedPiece s n x).pieces n =
    some { x with state := .issued, gen := g, portTags := h } := by
  refine ⟨(s.port (s.stream x.quarter x.stream).hostPort).xlt.gen, hostTags s (s.stream x.quarter x.stream).hostPort x.spec, ?_⟩
  unfold issuedPiece
  dsimp only
  rw [State.modPort_pieces, Tab.get?_adjust_self, held]
  rfl

theorem routePiece_of_fill {n : Nat} {x : Piece} (held : Tab.get? s.pieces n = some x) (fill : x.spec.srcSpace = 4) (local_ : x.spec.dstSpace = 3) :
    routePiece s n = haveData (issuedPiece s n x) n (fillBytes (x.spec.fill.getD 0) x.spec.len) := by
  unfold routePiece
  rw [held]
  dsimp only
  rw [if_neg (by simp [fill, local_])]
  unfold sendPiece
  rw [held]
  simp only [fill]
  rfl

/-- A filled piece for a local store has its pattern once it is routed. -/
theorem routePiece_has_pattern {n : Nat} {x : Piece} (held : Tab.get? s.pieces n = some x) (fill : x.spec.srcSpace = 4) (local_ : x.spec.dstSpace = 3) :
    Changes [.pieces, .port0, .port1] s (routePiece s n) ∧ ∃ y, Tab.get? (routePiece s n).pieces n = some y ∧ y.quarter = x.quarter ∧
      y.stream = x.stream ∧ y.index = x.index ∧ y.spec = x.spec ∧ y.data = some (fillBytes (x.spec.fill.getD 0) x.spec.len) ∧ y.err = x.err := by
  obtain ⟨g, h, now⟩ := issuedPiece_piece held
  have here : ({ x with state := .issued, gen := g, portTags := h } : Piece).spec.dstSpace ≠ 2 := by simp [local_]
  rw [routePiece_of_fill held fill local_, haveData_here now here]
  have first := changes_issuedPiece s n x
  generalize issuedPiece s n x = u at now first
  refine ⟨first.trans rfl, { x with state := .issued, gen := g, data := some (fillBytes (x.spec.fill.getD 0) x.spec.len), portTags := h },
    (Tab.get?_adjust_self _ _ _).trans (by rw [now]; rfl), rfl, rfl, rfl, rfl, rfl, rfl⟩

/-! ## A piece that ends -/

theorem changes_releaseBlocks (s : State) (ks : List (Nat × Nat)) :
    Changes [.cache] s (ks.foldl (fun s k => releaseBlock s k.1 k.2) s) := by
  refine Changes.foldl (fun t k => ?_) ks s
  exact changes_releaseBlock t k.1 k.2

theorem changes_releaseStream (s : State) (q n : Nat) : Changes [.streams, .cache] s (releaseStream s q n) := by
  unfold releaseStream
  extract_lets x t
  split
  · have freed : Changes [.streams, .cache] s t := by
      unfold t
      split
      · exact .ite ((changes_releaseBlocks ..).mono (by decide)) (.refl _ s)
      · exact .refl _ s
    exact freed.modStream _ _ _
  · exact .refl _ s

theorem changes_dropRegion (s : State) (n : Nat) (r : Region) : Changes [.protect, .cache] s (dropRegion s n r) := by
  unfold dropRegion
  extract_lets t
  have gone : Changes [.protect, .cache] s t := (Changes.refl _ s).modProtect _
  refine .ite ?_ (gone.modProtect _)
  extract_lets o
  exact gone.trans (.foldl (fun s i => (changes_releaseBlock ..).mono (by decide)) _ _)

theorem changes_settleDrains (s : State) : Changes [.protect, .cache] s (settleDrains s) := by
  unfold settleDrains
  refine Changes.foldl (fun t x => ?_) _ s
  exact changes_dropRegion t x.1 x.2

/-- The tags and bytes of a piece that has ended, before its stream goes on (R331, R341). -/
def tagsBack (s : State) (n : Nat) (x : Piece) : State :=
  let p := (s.stream x.quarter x.stream).hostPort
  let s := { s with pieces := Tab.erase s.pieces n }
  let s := if x.portTags = 0 then s else s.modPort p fun y => { y with tags := y.tags - x.portTags }
  let s := s.modEngine x.quarter fun e => { e with
    tags := e.tags - 1, bytes := if x.err.isNone then e.bytes + x.spec.len else e.bytes }
  let s := s.modStream x.quarter x.stream fun y => { y with
    tags := y.tags - 1
    fullCells := if y.isFill && x.err.isNone then y.fullCells + 1 else y.fullCells
    active := y.active.map fun a => if a.index = x.index then { a with flying := a.flying - 1 } else a }
  match (s.stream x.quarter x.stream).pair with
    | some (m, _) => if (s.stream x.quarter x.stream).isFill then s
        else s.modStream x.quarter m fun y => { y with fullCells := y.fullCells - 1 }
    | none => s

theorem endPiece_of_done {n : Nat} {x : Piece} (fine : x.err = none) :
    endPiece s n x = settleDrains (releaseStream (settle (tagsBack s n x) x.quarter x.stream) x.quarter x.stream) := by
  obtain ⟨quarter, stream, index, spec, state, gen, replays, data, err, portTags⟩ := x
  cases fine
  rfl

theorem tagsBack_spec (s : State) (n : Nat) (x : Piece) (fine : x.err = none) :
    Changes [.pieces, .port0, .port1, .engines, .streams] s (tagsBack s n x) ∧ (tagsBack s n x).pieces = Tab.erase s.pieces n ∧
      ((tagsBack s n x).engine x.quarter).tags = (s.engine x.quarter).tags - 1 ∧
      ((tagsBack s n x).engine x.quarter).bytes = (s.engine x.quarter).bytes + x.spec.len ∧
      GoesOn (s.stream x.quarter x.stream) ((tagsBack s n x).stream x.quarter x.stream) := by
  unfold tagsBack
  extract_lets p s₁ s₂ s₃ s₄
  have ports : Changes [.pieces, .port0, .port1, .engines, .streams] s s₂ := by
    have first : Changes [.pieces, .port0, .port1, .engines, .streams] s s₁ := rfl
    exact .ite first (first.modPort p _)
  have erased : s₂.pieces = Tab.erase s.pieces n := by
    unfold s₂
    split
    · rfl
    · rw [State.modPort_pieces]
  have sameEngine : s₂.engine x.quarter = s.engine x.quarter := by
    have kept : Changes [.pieces, .port0, .port1] s s₂ := by
      have first : Changes [.pieces, .port0, .port1] s s₁ := rfl
      exact .ite first (first.modPort p _)
    exact kept.same fun s => s.engine x.quarter
  have sameStream : s₂.stream x.quarter x.stream = s.stream x.quarter x.stream := by
    have kept : Changes [.pieces, .port0, .port1] s s₂ := by
      have first : Changes [.pieces, .port0, .port1] s s₁ := rfl
      exact .ite first (first.modPort p _)
    exact kept.same fun s => s.stream x.quarter x.stream
  have engine : s₃.engine x.quarter = { s.engine x.quarter with
      tags := (s.engine x.quarter).tags - 1, bytes := (s.engine x.quarter).bytes + x.spec.len } := by
    unfold s₃
    rw [State.engine_modEngine, fine]
    exact congrArg (fun e : Engine => { e with tags := e.tags - 1, bytes := e.bytes + x.spec.len }) sameEngine
  have all₄ : Changes [.pieces, .port0, .port1, .engines, .streams] s s₄ := (ports.modEngine _ _).modStream _ _ _
  have on₄ : GoesOn (s.stream x.quarter x.stream) (s₄.stream x.quarter x.stream) := by
    have same₃ : s₃.stream x.quarter x.stream = s.stream x.quarter x.stream := sameStream
    rw [← same₃]
    refine goesOn_modStream (fun y => ?_) _ _
    exact ⟨rfl, id⟩
  have pieces₄ : s₄.pieces = Tab.erase s.pieces n := erased
  have engine₄ : s₄.engine x.quarter = s₃.engine x.quarter := rfl
  clear_value s₄ s₃
  rw [engine] at engine₄
  split
  · split
    · exact ⟨all₄, pieces₄, by rw [engine₄], by rw [engine₄], on₄⟩
    · refine ⟨all₄.modStream _ _ _, pieces₄, ?_, ?_, on₄.trans (goesOn_modStream (fun y => ?_) _ _)⟩
      · exact congrArg Engine.tags engine₄
      · exact congrArg Engine.bytes engine₄
      · exact ⟨rfl, id⟩
  · exact ⟨all₄, pieces₄, by rw [engine₄], by rw [engine₄], on₄⟩

/-- What the end of a piece without an error leaves (R331, R341, R343). -/
theorem endPiece_spec {n : Nat} {x : Piece} (fine : x.err = none) (s : State) : (endPiece s n x).pieces = Tab.erase s.pieces n ∧
    ((endPiece s n x).engine x.quarter).tags = (s.engine x.quarter).tags - 1 ∧
    ((endPiece s n x).engine x.quarter).bytes = (s.engine x.quarter).bytes + x.spec.len ∧ (endPiece s n x).nextPiece = s.nextPiece ∧
    ((s.stream x.quarter x.stream).owner ≠ .scheduler ∨ (s.stream x.quarter x.stream).buffered = [] →
      (endPiece s n x).localStore = s.localStore) := by
  obtain ⟨back, pieces, tags, bytes, owner, buffered⟩ := tagsBack_spec s n x fine
  rw [endPiece_of_done fine]
  have settled := changes_settle (tagsBack s n x) x.quarter x.stream
  have released := changes_releaseStream (settle (tagsBack s n x) x.quarter x.stream) x.quarter x.stream
  have drained := changes_settleDrains (releaseStream (settle (tagsBack s n x) x.quarter x.stream) x.quarter x.stream)
  have rest : Changes (.streams :: .events :: batchParts) (tagsBack s n x)
      (settleDrains (releaseStream (settle (tagsBack s n x) x.quarter x.stream) x.quarter x.stream)) :=
    (settled.andThen released).andThen drained
  refine ⟨(rest.same State.pieces).trans pieces, (congrArg Engine.tags (rest.same fun s => s.engine x.quarter)).trans tags,
    (congrArg Engine.bytes (rest.same fun s => s.engine x.quarter)).trans bytes, (rest.same State.nextPiece).trans (back.same State.nextPiece), fun h => ?_⟩
  have commands : (((tagsBack s n x).stream x.quarter x.stream).owner ≠ .scheduler ∨
      ((tagsBack s n x).stream x.quarter x.stream).buffered = []) := h.imp (fun other same => other (owner ▸ same)) buffered
  have rest' := ((changes_settle_of_command commands).andThen released).andThen drained
  exact (rest'.same State.localStore).trans (back.same State.localStore)

/-- A read of the host that fails reports its error and fails the piece (R345, R455). -/
theorem hostReadFails_piece {p : PortId} {n : Nat} {x : Piece} (low : n < 2 ^ 32) (held : Tab.get? s.pieces n = some x)
    (port : (s.stream x.quarter x.stream).hostPort = p) (e : AerError) : hostReadFails s p n e =
    { s.modPort p fun y => { y with aer := y.aer ++ [e], tags := y.tags - x.portTags } with
      pieces := Tab.set s.pieces n { x with err := some 6, data := none, portTags := 0, state := .issued } } := by
  unfold hostReadFails
  dsimp only
  have held' : Tab.get? (s.modPort p fun y => { y with aer := y.aer ++ [e] }).pieces n = some x := by rw [State.modPort_pieces]; exact held
  have port' : ((s.modPort p fun y => { y with aer := y.aer ++ [e] }).stream x.quarter x.stream).hostPort = p := by
    rw [← port, State.stream, State.modPort_streams, State.stream]
  rw [if_neg (by omega), pieceErr_of_piece (by omega) held', port', State.modPort_modPort, State.modPort_pieces]

/-- An answer with data, of a piece that has none yet. -/
theorem hostCompletionEffect_data {p : PortId} {n : Nat} {x : Piece} (held : Tab.get? s.pieces n = some x) (here : x.spec.dstSpace ≠ 2)
    (empty : x.data = none) {b : List Byte} (len : b.length ≤ x.spec.len) :
    hostCompletionEffect s p n (.data b) = { s with pieces := Tab.adjust s.pieces n fun y => { y with data := some b } } := by
  unfold hostCompletionEffect
  dsimp only
  rw [held]
  simp only [empty, Option.getD_none, List.nil_append]
  split
  · rfl
  · rw [haveData_here held here, List.take_of_length_le len]

/-- Settles O15: a piece goes out, ends, or is answered by the host. -/
theorem piecesIssueAndComplete : Obligations.PiecesIssueAndComplete := by
  refine ⟨fun q n a k s up room few armed turn crosses next => ⟨fun ok fill local_ => ?_, fun bad => ?_⟩,
    fun n x s up once => ⟨fun b fine data local_ len issued => ?_, fun p b low host here issued fine empty port one len => ?_,
      fun p low host issued fine empty port c e answer => ?_⟩⟩
  · have row : exec (.pieceIssue q n) s = .next (pieceIssueEffect s q n) :=
      occurs_of_true (by simp [up, okQuarter, room, okStream, few, turn, crosses]) _ s
    have held : Tab.get? (sentPiece s q n a k).pieces s.nextPiece = some (freshPiece q n a k) :=
      Tab.get?_set_self _ _ _
    obtain ⟨routed, y, now, quarter, stream, index, spec, data, err⟩ := routePiece_has_pattern held fill local_
    have all := (changes_sentPiece s q n a k).comp (n := [.streams, .engines, .pieces, .nextPiece, .port0, .port1]) routed
    refine ⟨_, row.trans (congrArg _ (pieceIssueEffect_local next ok fill local_)), routed.same State.nextPiece,
      ⟨y, now, quarter, stream, index, spec, data, err⟩, ?_, ?_, all⟩
    · rw [routed.same fun s => s.engine q]
      exact (turnTaken_tags s q n a).1
    · rw [routed.same fun s => s.stream q n]
      exact (turnTaken_tags s q n a).2
  · have row : exec (.pieceIssue q n) s = .next (pieceIssueEffect s q n) :=
      occurs_of_true (by simp [up, okQuarter, room, okStream, few, turn, crosses]) _ s
    have fails : pieceIssueEffect s q n = failJob s q n a.index 2 { kind := kindCommand, loc := 0, detail := a.index } := by
      unfold pieceIssueEffect
      dsimp only
      rw [next]
      dsimp only
      rw [bad]
      rfl
    refine ⟨_, row.trans (congrArg _ fails), ?_, ?_, ?_, ?_, fun firmware => ?_⟩
    · rw [failJob_stream, failDesc_stream, armed]
      rfl
    · rw [failJob_stream, failDesc_stream]
    · rw [failJob_stream, failDesc_stream]
    · rw [failJob_stream, failDesc_stream]
    · rw [failJob_of_firmware firmware]
      exact changes_failDesc ..
  · obtain ⟨held, gone⟩ := Tab.get?_erase_of_once once
    have row : exec (.pieceComplete n) s = .next (pieceCompleteEffect s n x) := by
      change execPieceComplete n s = _
      unfold execPieceComplete
      rw [held]
      exact occurs_of_true (by simp [up, pieceReady, fine, data, local_, len, issued]) _ s
    have lands : pieceCompleteEffect s n x = endPiece (localWrite s (x.quarter * 64 + x.spec.dstSel) x.spec.dst b) n x := by
      have found : landsOnLost s x.spec = false := by simp [landsOnLost, local_]
      have local_' : landPiece s x b = localWrite s (x.quarter * 64 + x.spec.dstSel) x.spec.dst b := by simp only [landPiece, local_]
      unfold pieceCompleteEffect
      simp only [found, Bool.and_false, Bool.false_eq_true, if_false, fine, data, local_']
    have kept : Changes [.localStore] s (localWrite s (x.quarter * 64 + x.spec.dstSel) x.spec.dst b) := rfl
    refine ⟨_, row.trans (congrArg _ lands), ?_⟩
    generalize localWrite s (x.quarter * 64 + x.spec.dstSel) x.spec.dst b = u at kept
    obtain ⟨pieces, tags, bytes, next, store⟩ := endPiece_spec fine u
    refine ⟨by rw [pieces, kept.same State.pieces, gone], fun h => store ?_, ?_, ?_, next.trans (kept.same State.nextPiece)⟩
    · rw [kept.same fun s => s.stream x.quarter x.stream]
      exact h
    · rw [tags, kept.same fun s => s.engine x.quarter]
    · rw [bytes, kept.same fun s => s.engine x.quarter]
  · obtain ⟨held, -⟩ := Tab.get?_erase_of_once once
    have waits : awaitsHost s p n = true := by
      rw [awaitsHost, if_neg (by omega), held]
      simp [host, issued, fine, port, empty]
    have row : exec (.hostCompletion p n (.data b)) s = .next (hostCompletionEffect s p n (.data b)) := occurs_of_true (by rw [up, waits]; rfl) _ s
    exact row.trans (congrArg _ (hostCompletionEffect_data held here empty len))
  · obtain ⟨held, -⟩ := Tab.get?_erase_of_once once
    have waits : awaitsHost s p n = true := by
      rw [awaitsHost, if_neg (by omega), held]
      simp [host, issued, fine, port, empty]
    have row : exec c s = .next (hostReadFails s p n e) := by
      rcases answer with ⟨rfl, rfl⟩ | ⟨rfl, rfl⟩ | ⟨rfl, rfl⟩ | ⟨rfl, rfl⟩ <;> exact occurs_of_true (by rw [up, waits]; rfl) _ s
    refine ⟨_, row.trans (congrArg _ (hostReadFails_piece low held port e)), ?_, ?_, ?_, ?_, ?_⟩
    · exact congrArg (Option.map Piece.err) (Tab.get?_set_self _ _ _)
    · exact congrArg Port.aer (State.port_modPort s p _)
    · exact congrArg Port.tags (State.port_modPort s p _)
    · cases p <;> rfl
    · cases p <;> rfl

end Sys2Proof.Machine
end

section
/-! SUPPORT. Alley transfers (R349 to R355), and the statement about them. -/

namespace Sys2Proof.Machine

open Sys2Proof

-- Proofs are checked one at a time: each that waits for its turn would hold a thread's stack.
set_option Elab.async false

variable {s : State} {core slot : Nat} {x : Alley}

/-- An entry of another number stays in a table. -/
theorem Tab.mem_set_of_ne {α : Type} {t : Table α} {j k : Nat} {a b : α} (other : j ≠ k) (mem : (j, b) ∈ t) : (j, b) ∈ Tab.set t k a := by
  induction t with
  | nil => cases mem
  | cons y t ih =>
    obtain ⟨i, c⟩ := y
    unfold Tab.set
    rcases List.mem_cons.1 mem with first | later
    · obtain ⟨rfl, rfl⟩ := Prod.mk.inj first
      split
      · exact List.mem_cons_of_mem _ (List.mem_cons_self ..)
      · rw [if_neg (Ne.symm other)]
        exact List.mem_cons_self ..
    · split
      · exact List.mem_cons_of_mem _ (List.mem_cons_of_mem _ later)
      · split
        · exact List.mem_cons_of_mem _ later
        · exact List.mem_cons_of_mem _ (ih later)

/-- A core whose slot's bits are cleared (R352). -/
def slotCleared (s : State) (core slot : Nat) : State :=
  s.arrive.modCore core fun c => { c with alleyDone := clearBit c.alleyDone slot, alleyErr := clearBit c.alleyErr slot }

/-- A transfer launched, before it is tried (R354). -/
def launched (s : State) (core slot : Nat) (x : Alley) : State :=
  { slotCleared s core slot with alleys := Tab.set s.alleys (core * 64 + slot) { x with waits := some (s.arrivals + 1) } }

theorem launchAlley_eq (s : State) (core slot : Nat) (x : Alley) :
    launchAlley s core slot x = tryAlley (launched s core slot x) core slot { x with waits := some (s.arrivals + 1) } := rfl

theorem changes_launched (s : State) (core slot : Nat) (x : Alley) : Changes [.cores, .alleys, .arrivals] s (launched s core slot x) := rfl

theorem launched_core (s : State) (core slot : Nat) (x : Alley) : (launched s core slot x).core core = { s.core core with
    alleyDone := (s.core core).alleyDone &&& ~~~ BitVec.twoPow 64 slot, alleyErr := (s.core core).alleyErr &&& ~~~ BitVec.twoPow 64 slot } := by
  change (slotCleared s core slot).core core = _
  rw [slotCleared, State.core_modCore]
  rfl

/-- Whose turn it is hangs on the streams, their pieces and what translates them, not on the alleys. -/
theorem readyStreams_launched (s : State) (core slot : Nat) (x : Alley) (q : Nat) : readyStreams (launched s core slot x) q = readyStreams s q := rfl

theorem selectByte_launched (s : State) (core slot : Nat) (x : Alley) (off : Nat) :
    selectByte (launched s core slot x) core off = selectByte s core off := by
  simp only [selectByte, launched_core]
  rfl

/-- The local store reads as before, the core's bits being cleared. -/
theorem localRead_launched (s : State) (core slot : Nat) (x : Alley) (off n : Nat) :
    localRead (launched s core slot x) core off n = localRead s core off n := by
  have store : (launched s core slot x).localStore = s.localStore := rfl
  simp only [localRead, localByte, localRest, launched_core, store, selectByte_launched]

/-- A transfer that is alone at its quarter's port has its turn. -/
theorem alleyTurn_launched (small : slot < 64) (tag : alleyTag s x = true) (alone : ∀ y ∈ s.alleys, y.1 / 4096 = core / 64 → y.2.waits = none) :
    alleyTurn (launched s core slot x) core { x with waits := some (s.arrivals + 1) } = true := by
  have tag' : alleyTag (launched s core slot x) { x with waits := some (s.arrivals + 1) } = true := tag
  unfold alleyTurn
  rw [tag', Bool.true_and, List.all_eq_true]
  rintro ⟨k, y⟩ hy
  rcases Mem.mem_set hy with self | other
  · obtain ⟨rfl, rfl⟩ := Prod.mk.inj self
    simp
  · by_cases here : k / 4096 = core / 64
    · have quiet : y.waits = none := alone (k, y) other here
      simp [quiet]
    · simp [here]

/-- A transfer that goes to a peer, once its port and crossing let it. -/
def leavesFor (s : State) (core slot : Nat) (x : Alley) : State :=
  let y : Alley := { x with waits := none, data := if x.op = 1 then localRead s core x.ls x.len else x.data }
  let s := (passCrossing s (core / 64) (x.op == 1) x.len).modEngine (core / 64) fun e => { e with share := 0 }
  { s with alleys := Tab.set s.alleys (core * 64 + slot) { y with sent := true } }

theorem changes_passCrossing (s : State) (c : Nat) (ab : Bool) (n : Nat) : Changes [.crossings, .free] s (passCrossing s c ab n) := by
  unfold passCrossing
  extract_lets k held
  split
  · exact .refl _ s
  · exact ((Changes.refl _ s).modCrossing c _).trans rfl

theorem changes_leavesFor (s : State) (core slot : Nat) (x : Alley) :
    Changes [.crossings, .free, .engines, .alleys] s (leavesFor s core slot x) := by
  unfold leavesFor
  extract_lets y t
  have crossed : Changes [.crossings, .free, .engines, .alleys] s t :=
    ((changes_passCrossing s (core / 64) (x.op == 1) x.len).mono (by decide)).modEngine _ _
  exact crossed.trans rfl

theorem leavesFor_alley (s : State) (core slot : Nat) (x : Alley) : Tab.get? (leavesFor s core slot x).alleys (core * 64 + slot) =
    some { x with waits := none, sent := true, data := if x.op = 1 then localRead s core x.ls x.len else x.data } :=
  Tab.get?_set_self _ _ _

theorem sendAlley_peer (peer : x.space = 2) (may : alleyMay s x = true) : sendAlley s core slot x =
    if x.op = 1 then peerWrite (leavesFor s core slot x) x.sel x.target (localRead s core x.ls x.len) (.alley core slot)
    else peerRead (leavesFor s core slot x) x.sel x.target x.len (.alley core slot) := by
  unfold sendAlley
  extract_lets k y t put
  have may' : alleyMay t y = true := by
    have crossed : Changes [.crossings, .free, .engines] s t :=
      ((changes_passCrossing s (core / 64) (x.op == 1) x.len).mono (by decide)).modEngine _ _
    rw [← may]
    exact crossed.same fun s => alleyMay s x
  rw [if_neg (by simp [may'])]
  have space : y.space = 2 := peer
  rw [space]
  dsimp only
  by_cases write : x.op = 1
  · simp only [show y.op = 1 from write, show y.data = localRead s core x.ls x.len from if_pos write, write, if_true]
    rfl
  · simp only [show ¬ y.op = 1 from write, write, if_false]
    rfl

/-- A request that goes to a peer takes the next transaction (R342). -/
theorem openPeer_spec (s : State) (d : Nat) (w : PeerWaiter) (k : Packet) : Changes [.net] s (sendPacket (openPeer s d w) k) ∧
    (sendPacket (openPeer s d w) k).net.nextTxn = s.net.nextTxn + 1 ∧
    (Tab.get? (sendPacket (openPeer s d w) k).net.peers s.net.nextTxn).map (·.waiter) = some w := by
  have opened : Changes [.net] s (openPeer s d w) := ((Changes.refl _ s).modNet _).modLink _ _
  refine ⟨opened.trans (changes_sendPacket ..), ?_, ?_⟩
  · rw [sendPacket_net]
    rfl
  · rw [sendPacket_net]
    exact congrArg (Option.map PeerReq.waiter) (Tab.get?_set_self _ _ _)

/-- A transfer that leaves for a peer. -/
theorem sendAlley_leaves (peer : x.space = 2) (may : alleyMay s x = true) :
    Changes [.crossings, .free, .engines, .alleys, .net] s (sendAlley s core slot x) ∧
      Tab.get? (sendAlley s core slot x).alleys (core * 64 + slot) =
        some { x with waits := none, sent := true, data := if x.op = 1 then localRead s core x.ls x.len else x.data } ∧
      (sendAlley s core slot x).net.nextTxn = s.net.nextTxn + 1 ∧
      (Tab.get? (sendAlley s core slot x).net.peers s.net.nextTxn).map (·.waiter) = some (.alley core slot) := by
  have left := changes_leavesFor s core slot x
  have goes (d : Nat) (k : Packet) : Changes [.crossings, .free, .engines, .alleys, .net] s (sendPacket (openPeer (leavesFor s core slot x) d (.alley core slot)) k) ∧
      Tab.get? (sendPacket (openPeer (leavesFor s core slot x) d (.alley core slot)) k).alleys (core * 64 + slot) =
        some { x with waits := none, sent := true, data := if x.op = 1 then localRead s core x.ls x.len else x.data } ∧
      (sendPacket (openPeer (leavesFor s core slot x) d (.alley core slot)) k).net.nextTxn = s.net.nextTxn + 1 ∧
      (Tab.get? (sendPacket (openPeer (leavesFor s core slot x) d (.alley core slot)) k).net.peers s.net.nextTxn).map (·.waiter) =
        some (.alley core slot) := by
    obtain ⟨net, next, peer⟩ := openPeer_spec (leavesFor s core slot x) d (.alley core slot) k
    rw [left.same fun s => s.net.nextTxn] at next peer
    exact ⟨left.comp net, (congrArg (Tab.get? · _) (net.same State.alleys)).trans (leavesFor_alley s core slot x), next, peer⟩
  have form : ∃ d k, sendAlley s core slot x = sendPacket (openPeer (leavesFor s core slot x) d (.alley core slot)) k := by
    rw [sendAlley_peer peer may]
    split
    · exact ⟨_, _, rfl⟩
    · exact ⟨_, _, rfl⟩
  obtain ⟨d, k, form⟩ := form
  rw [form]
  exact goes d k

/-- A transfer that waits behind a piece or behind another of priority 0 (R354, R355). -/
theorem tryAlley_waits (small : slot < 64) (before : (∃ m ∈ readyStreams s (core / 64), (s.stream (core / 64) m).prio < x.prio) ∨
    (∃ k y, (k, y) ∈ s.alleys ∧ k / 4096 = core / 64 ∧ y.waits.isSome = true ∧ y.prio = 0 ∧ x.prio ≠ 0 ∧
      k / 64 ≠ core ∧ (∀ z ∈ s.alleys, z.1 / 64 = k / 64 → z = (k, y)))) :
    tryAlley (launched s core slot x) core slot { x with waits := some (s.arrivals + 1) } = launched s core slot x := by
  unfold tryAlley
  refine if_neg fun goes => ?_
  obtain ⟨turn, crosses⟩ := (Bool.and_eq_true _ _).mp goes
  rcases before with ⟨m, ready, lower⟩ | ⟨k, y, mem, here, waits, first, low, foreign, only⟩
  · have passes := List.all_eq_true.mp crosses m ready
    have prio : ((launched s core slot x).stream (core / 64) m).prio = (s.stream (core / 64) m).prio := rfl
    rw [prio] at passes
    simp only [Bool.or_eq_true, decide_eq_true_eq, Bool.and_eq_true, beq_iff_eq] at passes
    omega
  · unfold alleyTurn at turn
    have other : k ≠ core * 64 + slot := by omega
    have turn' := List.all_eq_true.mp ((Bool.and_eq_true _ _).mp turn).2 (k, y) (Tab.mem_set_of_ne other mem)
    obtain ⟨a, at_⟩ := Option.isSome_iff_exists.mp waits
    have free : alleyTurn.blocked (launched s core slot x) k y = false := by
      unfold alleyTurn.blocked
      refine List.any_eq_false.mpr fun z hz => ?_
      rcases Mem.mem_set hz with self | old
      · have away : ¬ (core * 64 + slot) / 64 = k / 64 := by omega
        simp [self, away]
      · by_cases same : z.1 / 64 = k / 64
        · rw [only z old same]
          simp [at_]
        · simp [same]
    simp [here, at_, foreign, first, low, free] at turn'

/-- A read of device memory that ends (R352). -/
theorem endAlley_read (read : x.op = 2) : Tab.get? (endAlley s core slot x none).alleys (core * 64 + slot) = Tab.get? (Tab.erase s.alleys (core * 64 + slot)) (core * 64 + slot) ∧
    (endAlley s core slot x none).core core = { s.core core with alleyDone := (s.core core).alleyDone ||| BitVec.twoPow 64 slot } ∧
    (endAlley s core slot x none).localStore = (localWrite s core x.ls x.data).localStore := by
  unfold endAlley
  extract_lets u v w y
  have drained : Changes [.protect, .cache] { s with alleys := Tab.erase s.alleys (core * 64 + slot) } u := changes_settleDrains _
  have freed : Changes [.protect, .cache, .port0, .port1] { s with alleys := Tab.erase s.alleys (core * 64 + slot) } v :=
    (show Changes [.protect, .cache, .port0, .port1] _ u from drained.mono (by decide)).modPort _ _
  have stored : w = localWrite v core x.ls x.data := if_pos (by simp [read])
  have core_ : v.core core = s.core core := freed.same fun s => s.core core
  have alleys : v.alleys = Tab.erase s.alleys (core * 64 + slot) := freed.same State.alleys
  have store : (localWrite v core x.ls x.data).localStore = (localWrite s core x.ls x.data).localStore :=
    freed.same fun s => (localWrite s core x.ls x.data).localStore
  refine ⟨?_, ?_, ?_⟩
  · change Tab.get? w.alleys _ = _
    rw [stored]
    exact congrArg (Tab.get? · _) alleys
  · unfold y
    rw [State.core_modCore, stored]
    have kept : (localWrite v core x.ls x.data).core core = v.core core := rfl
    rw [kept, core_]
    rfl
  · change w.localStore = _
    rw [stored, store]

/-- Settles O18: launch, wait and end of a transfer. -/
theorem alleysTransfer : Obligations.AlleysTransfer := by
  intro core slot s up runs small
  refine ⟨fun hdr ok fresh => ?_, fun x data good once fine here read quiet => ?_⟩
  · intro x c form
    have row : exec c s = .next (launchAlley s core slot x) := by
      have listed : (alleyOk hdr && !Tab.has s.alleys (core * 64 + slot)) = true := by simp [ok, fresh]
      have one (op : Nat) (hop : (readAlley hdr (corePort s core)).op = op) : alleyRow op core slot hdr s = .next (launchAlley s core slot x) := by
        unfold alleyRow
        dsimp only
        rw [if_pos listed]
        exact occurs_of_true (by simp [up, runs, okSlot, small, hop]) _ s
      rcases form with ⟨rfl, op⟩ | ⟨rfl, op⟩
      · exact one 2 op
      · exact one 1 op
    have launch := changes_launched s core slot x
    have core_ := launched_core s core slot x
    rw [row, launchAlley_eq]
    refine ⟨fun peer may tag alone idle => ?_, fun before => ?_⟩
    · have goes : tryAlley (launched s core slot x) core slot { x with waits := some (s.arrivals + 1) } =
          sendAlley (launched s core slot x) core slot { x with waits := some (s.arrivals + 1) } := by
        refine if_pos ?_
        rw [alleyTurn_launched small tag alone, Bool.true_and, alleyCrosses, readyStreams_launched, idle]
        rfl
      have may' : alleyMay (launched s core slot x) { x with waits := some (s.arrivals + 1) } = true := may
      obtain ⟨left, alley, next, waiter⟩ := sendAlley_leaves (core := core) (slot := slot) (x := { x with waits := some (s.arrivals + 1) }) peer may'
      have cores := (left.same fun s => s.core core).trans core_
      have stored (write : x.op = 1) : (if x.op = 1 then localRead (launched s core slot x) core x.ls x.len else x.data) = localRead s core x.ls x.len := by
        rw [if_pos write, localRead_launched]
      refine ⟨_, congrArg _ goes, ⟨_, alley, rfl, rfl, rfl, rfl, stored⟩, by rw [cores], by rw [cores], next, waiter, ?_⟩
      exact launch.comp (n := [.cores, .alleys, .net, .crossings, .engines, .free, .arrivals]) left
    · exact ⟨_, congrArg _ (tryAlley_waits small before), Tab.get?_set_self _ _ _, by rw [core_], launch⟩
  · obtain ⟨held, gone⟩ := Tab.get?_erase_of_once once
    have row : exec (.alleyComplete core slot data good) s = .next (endAlley s core slot x none) := by
      change execAlleyComplete core slot data good s = _
      unfold execAlleyComplete
      rw [held]
      simp only [quiet, fine, here]
      exact occurs_of_true (by simp [up, okSlot, small]) _ s
    obtain ⟨alleys, core_, store⟩ := endAlley_read (s := s) (core := core) (slot := slot) read
    exact ⟨_, row, by rw [alleys, gone], by rw [core_], by rw [core_], store⟩

end Sys2Proof.Machine
end

section
/-! SUPPORT. Reads, writes and blocks of the cache, and its write-combining entries (R252 to R273), and the statement about them. -/

namespace Sys2Proof.Machine

open Sys2Proof

-- Proofs are checked one at a time: each that waits for its turn would hold a thread's stack.
set_option Elab.async false

variable {s : State}

/-! ## Reads -/

/-- A read returns the bytes at its address, whatever its hint. -/
theorem cacheGet_data (s : State) (a n : Nat) (hint : Hint) : (cacheGet s a n hint).2 = devRead s a n := by
  unfold cacheGet
  extract_lets d slice line off
  split
  · rfl
  · split
    · rfl
    · split
      · cases hint <;> rfl
      · cases hint <;> rfl

theorem changes_putLine (s : State) (slice line way : Nat) (x : List Sector) : Changes [.cache] s (putLine s slice line way x) := rfl

theorem changes_markVictim (s : State) (slice set way : Nat) : Changes [.cache] s (markVictim s slice set way) := rfl

theorem changes_cacheGet (s : State) (a n : Nat) (hint : Hint) : Changes [.cache, .hbm] s (cacheGet s a n hint).1 := by
  have put (slice line way : Nat) (x : List Sector) : Changes [.cache, .hbm] s (putLine s slice line way x) := (changes_putLine ..).mono (by decide)
  unfold cacheGet
  extract_lets d slice line off
  split
  · exact .refl _ s
  · split
    · exact changes_drainWc ..
    · split
      · extract_lets x
        cases hint with
        | lastUse => exact put ..
        | keep => exact (put ..).andThen (changes_markRecent ..)
        | stream => exact .ite (put ..) ((put ..).andThen (changes_markVictim ..))
        | reserved => exact .ite (put ..) ((put ..).andThen (changes_markVictim ..))
      · cases hint with
        | lastUse => exact .refl _ s
        | keep => exact changes_allocLine ..
        | stream => exact changes_allocLine ..
        | reserved => exact changes_allocLine ..

theorem granuleGet_data (s : State) (a : Nat) (keep : Bool) : (granuleGet s a keep).2 = devRead s a 2048 := by
  unfold granuleGet
  extract_lets d slice t
  split <;> rfl

theorem changes_granuleGet (s : State) (a : Nat) (keep : Bool) : Changes [.cache, .hbm] s (granuleGet s a keep).1 := by
  unfold granuleGet
  extract_lets d slice t
  have drained : Changes [.cache, .hbm] s t := by
    refine Changes.foldl (fun t i => ?_) _ s
    exact changes_drainWc ..
  clear_value t
  split
  · dsimp only
    exact drained.trans (.foldl (fun t i => changes_allocLine t ..) (List.range 16) t)
  · exact drained

/-- A core, or another source, that may use an address breaks no rule there. -/
theorem coreViolates_of_may {src : Source} {a n : Nat} {x : Right} (may : ∀ c, src = .core c → coreMay s c a n x = true) :
    coreViolates s src a n x false = none := by
  unfold coreViolates
  split
  · next c => simp [may c rfl]
  · rfl

/-! ## Write-combining entries -/

theorem wcFind_none_of_filtered {l : List WcEntry} {line : Nat} : ((l.filter fun x => !(x.line == line)).find? fun w => w.line == line) = none := by
  rw [List.find?_eq_none]
  intro w hw
  simpa using (List.mem_filter.mp hw).2

/-- An entry that drains leaves its slice's buffer, and no other does (R268). -/
theorem wcOf_drainWc (s : State) (slice line k : Nat) : wcOf (drainWc s slice line) k =
    if k = slice then (wcOf s slice).filter fun x => !(x.line == line) else wcOf s k := by
  unfold drainWc
  split
  · next none_ =>
    split
    · next same =>
      have all : ∀ x ∈ wcOf s slice, (!(x.line == line)) = true := fun x hx => by
        simpa using List.find?_eq_none.mp none_ x hx
      rw [same, List.filter_eq_self.mpr all]
    · rfl
  · next w _ =>
    have written : Changes [.hbm] s ((List.range 4).foldl (fun s i =>
        if wcMask w i = 0 then s else hbmPut s (line * 128 + i * 32) (wcSector w i) (wcMask w i)) s) :=
      .foldl (fun s _ => .ite (.refl _ s) (changes_hbmPut s _ _ _)) _ s
    extract_lets t
    have wc : t.cache.wc = s.cache.wc := written.same fun s => s.cache.wc
    change Tab.getD (Tab.modify t.cache.wc slice [] _) k [] = _
    rw [wc, Tab.getD_modify]
    rfl

/-- What draining the lines of a list leaves of a slice's buffer. -/
theorem wcOf_drainLines (slice k : Nat) (ls : List Nat) (s : State) : wcOf (ls.foldl (fun s l => drainWc s slice l) s) k =
    if k = slice then (wcOf s slice).filter fun x => !ls.contains x.line else wcOf s k := by
  induction ls generalizing s with
  | nil => simp; intro same; rw [same]
  | cons l ls ih =>
    rw [List.foldl_cons, ih]
    by_cases same : k = slice
    · rw [if_pos same, if_pos same, wcOf_drainWc, if_pos rfl, List.filter_filter]
      refine List.filter_congr fun x _ => ?_
      by_cases here : x.line = l <;> simp [here]
    · rw [if_neg same, if_neg same, wcOf_drainWc, if_neg same]

/-- No entry of a slice holds a write of a source. -/
def NoWritesOf (src : Source) (slice : Nat) (s : State) : Prop := ∀ w ∈ wcOf s slice, src ∉ w.srcs

/-- A fence over some slices leaves none of the core's writes there (R273). -/
theorem fence_slices (core : Nat) (ss : List Nat) (s : State) (slice : Nat) (h : slice ∈ ss ∨ NoWritesOf (.core core) slice s) :
    NoWritesOf (.core core) slice (ss.foldl (fun s sl => (wcLinesOf s sl (.core core)).foldl (fun s l => drainWc s sl l) s) s) := by
  induction ss generalizing s with
  | nil => exact h.resolve_left (by simp)
  | cons sl ss ih =>
    rw [List.foldl_cons]
    refine ih _ ?_
    by_cases here : slice = sl
    · refine .inr fun w hw => ?_
      rw [wcOf_drainLines, if_pos here] at hw
      obtain ⟨mem, kept⟩ := List.mem_filter.mp hw
      intro writes
      refine absurd kept ?_
      have listed : w.line ∈ wcLinesOf s sl (.core core) := List.mem_map.mpr ⟨w, List.mem_filter.mpr ⟨mem, by simpa using writes⟩, rfl⟩
      simpa using listed
    · rcases h with mem | before
      · exact .inl ((List.mem_cons.mp mem).resolve_left here)
      · refine .inr fun w hw => before w ?_
        rwa [wcOf_drainLines, if_neg here] at hw

theorem changes_fence (s : State) (core : Nat) : Changes [.cache, .hbm] s (fenceEffect s core) :=
  .foldl (fun s _ => .foldl (fun s _ => changes_drainWc s _ _) _ s) _ s

/-! ## Blocks -/

theorem Tab.filter_erase_ne {α : Type} (t : Table α) {j k : Nat} (h : j ≠ k) :
    (Tab.erase t j).filter (fun y => y.1 == k) = t.filter fun y => y.1 == k := by
  induction t with
  | nil => rfl
  | cons y t ih =>
    obtain ⟨i, b⟩ := y
    unfold Tab.erase
    by_cases same : i = j
    · rw [if_pos same, List.filter_cons_of_neg (by simp [same, h])]
    · rw [if_neg same, List.filter_cons, List.filter_cons, ih]

theorem Tab.filter_erase_self {α : Type} {t : Table α} {k : Nat} (few : (t.filter fun y => y.1 == k).length ≤ 1) :
    (Tab.erase t k).filter (fun y => y.1 == k) = [] := by
  induction t with
  | nil => rfl
  | cons y t ih =>
    obtain ⟨i, b⟩ := y
    unfold Tab.erase
    by_cases same : i = k
    · rw [if_pos same]
      rw [List.filter_cons_of_pos (by simpa using same), List.length_cons] at few
      exact List.length_eq_zero_iff.mp (by omega)
    · rw [if_neg same]
      rw [List.filter_cons_of_neg (by simpa using same)] at few ⊢
      exact ih few

/-- The lines that stand under a key. -/
def linesAt (s : State) (k : Nat) : List (Nat × Line) := s.cache.lines.filter fun y => y.1 == k

theorem lines_evictKey (s : State) (j : Nat) : (evictKey s j).cache.lines = s.cache.lines ∧ Tab.get? s.cache.lines j = none ∨
    (evictKey s j).cache.lines = Tab.erase s.cache.lines j := by
  unfold evictKey
  split
  · next gone => exact .inl ⟨rfl, gone⟩
  · next l _ =>
    refine .inr ?_
    have lines : (writeBack s l).cache.lines = s.cache.lines := (changes_writeBack s l).same fun s => s.cache.lines
    exact congrArg (Tab.erase · j) lines

/-- A key that is not listed stands nowhere. -/
theorem Tab.filter_of_get?_none {α : Type} {t : Table α} {k : Nat} (h : Tab.get? t k = none) : t.filter (fun y => y.1 == k) = [] := by
  induction t with
  | nil => rfl
  | cons y t ih =>
    obtain ⟨i, b⟩ := y
    by_cases same : i = k
    · simp [Tab.get?, same] at h
    · rw [Tab.get?, if_neg same] at h
      rw [List.filter_cons_of_neg (by simpa using same), ih h]

theorem linesAt_evictKey (s : State) {j k : Nat} (few : (linesAt s k).length ≤ 1) :
    linesAt (evictKey s j) k = if j = k then [] else linesAt s k := by
  unfold linesAt at few ⊢
  rcases lines_evictKey s j with ⟨same, gone⟩ | erased
  · rw [same]
    split
    · next here => exact Tab.filter_of_get?_none (here ▸ gone)
    · rfl
  · rw [erased]
    split
    · next here => rw [here]; exact Tab.filter_erase_self few
    · next other => exact Tab.filter_erase_ne _ other

/-- Keys that are evicted one after another (R252). -/
theorem linesAt_evictKeys {ks : List Nat} {k : Nat} (s : State) (few : (linesAt s k).length ≤ 1) :
    linesAt (ks.foldl evictKey s) k = if k ∈ ks then [] else linesAt s k := by
  induction ks generalizing s with
  | nil => simp
  | cons j ks ih =>
    have step := linesAt_evictKey s (j := j) few
    rw [List.foldl_cons, ih _ (by rw [step]; split <;> simp [few]), step]
    by_cases later : k ∈ ks
    · simp [later]
    · by_cases here : j = k
      · simp [here]
      · simp [later, here, Ne.symm here]

theorem changes_grantBlock (s : State) (slice block : Nat) (o : BlockOwner) : Changes [.cache, .hbm] s (grantBlock s slice block o) := by
  unfold grantBlock
  generalize blockKeys slice block = ks
  have evicted : Changes [.cache, .hbm] s (ks.foldl evictKey s) := .foldl changes_evictKey ks s
  exact evicted.modCache _

/-- A granted block is held, and no line stands where it is. -/
theorem grantBlock_spec (s : State) (slice block : Nat) (o : BlockOwner) :
    Tab.get? (grantBlock s slice block o).cache.held (slice * 64 + block) = some o ∧
      ∀ i w, i < 512 → w = block / 4 → (linesAt s (lineKey slice (512 * (block % 4) + i) w)).length ≤ 1 →
        Tab.get? (grantBlock s slice block o).cache.lines (lineKey slice (512 * (block % 4) + i) w) = none := by
  have listed (i w : Nat) (small : i < 512) (way : w = block / 4) : lineKey slice (512 * (block % 4) + i) w ∈ blockKeys slice block :=
    way ▸ List.mem_map.mpr ⟨i, List.mem_range.mpr small, rfl⟩
  unfold grantBlock
  generalize blockKeys slice block = ks at *
  refine ⟨Tab.get?_set_self _ _ _, fun i w small way few => ?_⟩
  have gone := linesAt_evictKeys s (ks := ks) few
  rw [if_pos (listed i w small way)] at gone
  exact Tab.get?_of_absent gone

/-- A released block is not held, reads zero, and leaves what is around it (R253, R255). -/
theorem releaseBlock_spec {slice block : Nat} {o : BlockOwner}
    (once : s.cache.held.filter (fun y => y.1 == slice * 64 + block) = [(slice * 64 + block, o)]) :
    Tab.get? (releaseBlock s slice block).cache.held (slice * 64 + block) = none ∧
      (∀ o, o < 0x10000 → Mem.read (releaseBlock s slice block).cache.t1 (slice * 0x400000 + block * 0x10000 + o) = 0) ∧
      ∀ a, a < slice * 0x400000 + block * 0x10000 ∨ slice * 0x400000 + block * 0x10000 + 0x10000 ≤ a →
        Mem.read (releaseBlock s slice block).cache.t1 a = Mem.read s.cache.t1 a := by
  have cells : (releaseBlock s slice block).cache.t1 = s.cache.t1.filter fun x =>
      !(decide (blockOffset slice block ≤ x.1) && decide (x.1 < blockOffset slice block + 0x10000)) := rfl
  have read (a : Nat) : Tab.get? (releaseBlock s slice block).cache.t1 a =
      if !(decide (blockOffset slice block ≤ a) && decide (a < blockOffset slice block + 0x10000)) then Tab.get? s.cache.t1 a else none := by
    rw [cells]
    exact Tab.get?_filter_key s.cache.t1 (fun a => !(decide (blockOffset slice block ≤ a) && decide (a < blockOffset slice block + 0x10000))) a
  refine ⟨(Tab.get?_erase_of_once once).2, fun off small => ?_, fun a out => ?_⟩
  · rw [Mem.read, Tab.getD, read, if_neg (by simp [blockOffset, small])]
    rfl
  · rw [Mem.read, Tab.getD, read, if_pos ?_]
    · rfl
    · unfold blockOffset
      rw [Bool.not_eq_true', Bool.and_eq_false_iff, decide_eq_false_iff_not, decide_eq_false_iff_not]
      omega

/-- Settles O17, by the command that a source, a core or the block manager gives. -/
theorem cacheServes : Obligations.CacheServes := by
  refine ⟨fun src addr s up reach => ⟨fun n hint b some_ fits sound may read => ?_, fun q keep b mover hbm placed read => ?_,
    fun bytes hint some_ fits sound may held data wf here => ?_⟩, fun s up => ⟨fun core runs => ?_, fun slice line found => ?_⟩,
    fun slice block s up room => ⟨fun owner low high free sound ready => ?_, fun owner small once idle => ?_⟩⟩
  · have row : exec (.cacheRead src addr n hint .clean) s = .next (cacheReadEffect s src addr n hint .clean) := by
      change execCacheRead src addr n hint .clean s = _
      unfold execCacheRead
      rw [beq_eq_false_iff_ne.mpr sound, coreViolates_of_may may]
      exact occurs_of_true (by simp [up, reach, sound, some_, fits]) _ s
    have data := cacheGet_data s addr n hint
    have changes := changes_cacheGet s addr n hint
    have effect : cacheReadEffect s src addr n hint .clean = (cacheGet s addr n hint).1.modCache fun c => { c with returned := b } := by
      unfold cacheReadEffect sliceOutcome
      dsimp only
      rw [data, read]
    exact ⟨_, row.trans (congrArg _ effect), rfl, changes.modCache _⟩
  · have row : exec (.granuleProbe q addr keep) s = .next (granuleProbeEffect s q addr keep) :=
      occurs_of_true (by rw [← mover, up]; simp [hbm, aligned, placed]) _ s
    have data := granuleGet_data s addr keep
    have changes := changes_granuleGet s addr keep
    have effect : granuleProbeEffect s q addr keep = (granuleGet s addr keep).1.modCache fun c => { c with returned := b } := by
      unfold granuleProbeEffect
      dsimp only
      rw [data, read]
    exact ⟨_, row.trans (congrArg _ effect), rfl, changes.modCache _⟩
  · have row : exec (.cacheWrite src addr bytes hint) s = .next (cachePut s src addr bytes hint) := by
      change execCacheWrite src addr bytes hint s = _
      unfold execCacheWrite
      rw [beq_eq_false_iff_ne.mpr sound, coreViolates_of_may may]
      have nonempty : bytes ≠ [] := List.ne_nil_of_length_pos some_
      exact occurs_of_true (by simp [up, reach, sound, nonempty, fits]) _ s
    have effect : cachePut s src addr bytes hint = s.modCache fun c => { c with t1 := Mem.writeN c.t1 (addr - heldBase) bytes } := by
      unfold cachePut
      rw [if_pos held]
      dsimp only
      rw [if_neg (by omega), if_pos here]
    exact ⟨_, row.trans (congrArg _ effect), fun i h => Mem.read_writeN wf _ _ _ h, fun a out => Mem.read_writeN_ne _ _ out, rfl⟩
  · have row : exec (.fence core) s = .next (fenceEffect s core) := occurs_of_true (by rw [up, runs]; rfl) _ s
    exact ⟨_, row, fun slice room => fence_slices core (List.range 64) s slice (.inl (List.mem_range.mpr room)), changes_fence s core⟩
  · have row : exec (.wcEntryDrain slice line) s = .next (drainWc s slice line) := occurs_of_true (by rw [up, found]; rfl) _ s
    refine ⟨_, row, ?_, fun k other => ?_, changes_drainWc s slice line⟩
    · rw [wcFind, wcOf_drainWc, if_pos rfl]
      exact wcFind_none_of_filtered
    · rw [wcOf_drainWc, if_neg other]
  · have notRetired : slice * 64 + block ∉ s.cache.retired := by simpa using sound
    have row : exec (.blockGrant slice block owner) s = .next (grantBlock s slice block owner) :=
      occurs_of_true (by simp [up, okQuarter, room, blockFree, blockKey, low, high, free, notRetired, ready]) _ s
    obtain ⟨granted, lines⟩ := grantBlock_spec s slice block owner
    exact ⟨_, row, granted, lines, changes_grantBlock s slice block owner⟩
  · obtain ⟨held, -⟩ := Tab.get?_erase_of_once once
    have row : exec (.blockRelease slice block) s = .next (releaseBlock s slice block) := by
      change execBlockRelease slice block s = _
      unfold execBlockRelease
      rw [blockKey, held]
      exact occurs_of_true (by simp [up, small, idle]) _ s
    obtain ⟨gone, zero, around⟩ := releaseBlock_spec once
    exact ⟨_, row, gone, zero, around, changes_releaseBlock s slice block⟩

end Sys2Proof.Machine
end

section
/-! SUPPORT. A command that ends without a result writes no memory; what the readers of a lost tile and the tile itself leave alone. -/

namespace Sys2Proof.Machine

open Sys2Proof

-- Proofs are checked one at a time: each that waits for its turn would hold a thread's stack.
set_option Elab.async false

/-- What the end of a command without a result may change. -/
abbrev quietParts : List Part := [.cmds, .batches, .runs, .colls, .net, .logs, .port0, .port1, .protect, .sideband]

theorem devWrite_nil (s : State) (src : Source) (a : Nat) (hint : Hint) : devWrite s src a [] hint = s := rfl

theorem quiet_gone (s : State) (n : Nat) (c : Cmd) : Changes quietParts s (releasePins { s with cmds := Tab.erase s.cmds n } c) :=
  (show Changes quietParts s { s with cmds := Tab.erase s.cmds n } from rfl).andThen (changes_releasePins ..)

theorem quiet_decided (s : State) (n : Nat) (f : Cmd → Cmd) : Changes quietParts s (s.modCmd n f) := (Changes.refl _ s).modCmd n f

theorem quiet_deliver (s : State) (n : Nat) (c : Cmd) (k : Completion) : Changes quietParts s (deliver s n c k []) := by
  unfold deliver
  split
  · extract_lets t
    have gone : Changes quietParts s t := quiet_gone ..
    split
    · exact .ite (gone.modMailbox _ _ _) gone
    · exact gone
  · split
    · extract_lets t
      have frozen : Changes quietParts s t := .ite ((changes_freezeQueue ..).mono (by decide)) (.refl _ s)
      exact frozen.modCmd _ _
    · split
      · exact quiet_decided ..
      · extract_lets t
        have gone : Changes quietParts s t := quiet_gone ..
        split
        · rw [devWrite_nil]
          exact gone.andThen (changes_mailboxRespond ..)
        · exact gone.andThen (changes_mailboxRespond ..)
    · exact (quiet_gone ..).andThen (changes_sidebandRespond ..)
    · exact (quiet_gone ..).andThen (changes_sendData ..)
    · exact quiet_gone ..
    · exact .ite ((quiet_gone ..).andThen (changes_sendData ..)) ((quiet_gone ..).andThen (changes_sendData ..))

theorem quiet_decide (s : State) (n : Nat) (k : Completion) (unit : Nat) (z : Cause) : Changes quietParts s (decide_ s n k [] unit z) := by
  unfold decide_
  split
  · exact .refl _ s
  · split
    · exact .refl _ s
    · split
      · exact quiet_decided ..
      · extract_lets k₁ len k₂ k₃ res₁ s₁ s₂
        have empty : res₁ = [] := by
          change (if informational k₃.status then clipResult len unit [] else []) = []
          rw [clipResult, List.take_nil, ite_self]
        have left : Changes quietParts s s₁ :=
          ((show Changes quietParts s _ from (changes_cancelShards ..).mono (by decide)).andThen (changes_leaveBatches ..)).andThen (changes_dropRuns ..)
        have freed : Changes quietParts s s₂ := .ite left (left.andThen (changes_releaseStaging ..))
        rw [empty]
        exact (freed.andThen (changes_logStatus ..)).trans (quiet_deliver ..)

theorem quiet_succeed (s : State) (n : Nat) (k : Completion) : Changes quietParts s (succeed s n k) := quiet_decide ..

theorem quiet_fail (s : State) (n : Nat) (st : Status) (z : Cause) : Changes quietParts s (fail s n st z) := quiet_decide ..

theorem quiet_failAll (s : State) (ns : List Nat) (st : Status) (z : Cause) : Changes quietParts s (failAll s ns st z) :=
  changes_oneEvent (fun s => .foldl (fun s n => quiet_fail s n st z) ns s) (by decide) s false z

/-! ## A lost tile -/

/-- What the loss of a tile and the end of its readers may change. -/
abbrev lossParts : List Part := .cores :: .localStore :: .free :: .streams :: .cache :: .islands :: .quarters :: .tiers :: .flash :: .scheds ::
  quietParts

theorem changes_endBatch_quiet (s : State) (b : Nat) (st : Status) (z : Cause) : Changes lossParts s (endBatch s b st z) := by
  unfold endBatch
  split
  · exact ((quiet_failAll ..).mono (by decide)).andThen (changes_dropBatch ..)
  · exact .refl _ s

theorem changes_releaseBlocksOf (s : State) (o : BlockOwner) : Changes [.cache] s (releaseBlocks s o) := changes_releaseBlocks s (blocksOf s o)

theorem changes_dropRun (s : State) (r : Nat) : Changes [.cache, .streams, .runs, .cores, .localStore, .free, .islands, .quarters] s (dropRun s r) := by
  unfold dropRun
  extract_lets ks t
  have idle : Changes [.cache, .streams, .runs, .cores, .localStore, .free, .islands, .quarters] s t :=
    ((changes_releaseBlocksOf ..).mono (by decide)).trans (.foldl (fun s k => (Changes.refl _ s).modStream ..) _ _)
  clear_value t
  have erased : Changes [.cache, .streams, .runs, .cores, .localStore, .free, .islands, .quarters] s { t with runs := Tab.erase t.runs r } :=
    idle.set (p := .runs) (by decide) rfl
  exact (erased.andThen (changes_freeCores ..)).andThen (changes_settleClocks ..)

theorem changes_endRun (s : State) (r : Nat) (st : Status) (z : Cause) : Changes lossParts s (endRun s r st z) := by
  unfold endRun
  split
  · exact ((quiet_failAll ..).mono (by decide)).andThen (changes_dropRun ..)
  · exact .refl _ s

theorem changes_tellFinish (s : State) (k : Nat) (r : Run) : Changes [.net] s (tellFinish s k r) := by
  unfold tellFinish
  split
  · exact changes_sendPacket ..
  · exact .ite (.foldl (fun s _ => changes_sendPacket s _) _ s) (.refl _ s)

theorem changes_endEverywhere (s : State) (k : Nat) (st : Status) (z : Cause) : Changes lossParts s (endEverywhere s k st z) := by
  unfold endEverywhere
  split
  · exact changes_oneEvent (fun s => ((changes_tellFinish s ..).mono (by decide)).trans (changes_endRun ..)) (by decide) s _ z
  · exact .refl _ s

theorem changes_endReaders (s : State) (t : Nat) (st : Status) (z : Cause) : Changes lossParts s (endReaders s t st z) := by
  refine changes_oneEvent (fun s => ?_) (by decide) s false z
  split
  · exact .refl _ s
  · dsimp only
    split
    · exact .foldl (fun s _ => changes_endBatch_quiet s ..) _ s
    · exact .foldl (fun s _ => changes_endEverywhere s ..) _ s
    · exact .refl _ s
    · exact (quiet_failAll ..).mono (by decide)

theorem changes_freeT4 (s : State) (t : Nat) : Changes [.flash] s (freeT4 s t) := rfl

theorem changes_givePages (s : State) (p n : Nat) : Changes [.protect] s (givePages s p n) := rfl

theorem changes_dropTile (s : State) (t : Nat) : Changes [.protect, .flash, .tiers] s (dropTile s t) := by
  unfold dropTile
  split
  · exact .refl _ s
  · next e _ =>
    extract_lets s₁ s₂ s₃
    have pages : Changes [.protect, .flash, .tiers] s s₁ := .ite ((changes_givePages ..).mono (by decide)) (.refl _ s)
    have place : Changes [.protect, .flash, .tiers] s s₂ := .ite (pages.andThen (changes_freeT4 ..)) pages
    have backing : Changes [.protect, .flash, .tiers] s s₃ := .ite (place.andThen (changes_freeT4 ..)) place
    exact backing.modTiers _

theorem changes_dropTiles (s : State) (ts : List Nat) : Changes [.protect, .flash, .tiers] s (dropTiles s ts) := .foldl changes_dropTile ts s

theorem changes_releaseSched (s : State) (i : Nat) (d : Sched) : Changes lossParts s (releaseSched s i d) := by
  unfold releaseSched
  extract_lets s₁ s₂
  have dropped : Changes lossParts s s₁ := (changes_dropTiles ..).mono (by decide)
  have erased : Changes lossParts s s₂ := dropped.set (p := .scheds) (by decide) rfl
  split
  · exact erased.andThen (quiet_succeed ..)
  · exact erased

theorem changes_settleUnload (s : State) (i : Nat) : Changes lossParts s (settleUnload s i) := by
  unfold settleUnload
  split
  · exact .ite (changes_releaseSched ..) (.refl _ s)
  · exact .refl _ s

theorem changes_objectLog (s : State) (kind : Nat) (handle : BitVec 32) (epoch loc detail : Nat) :
    Changes [.logs, .port0, .port1] s (objectLog s kind handle epoch loc detail) := changes_writeLog ..

theorem changes_unloadSched (s : State) (i loc : Nat) : Changes lossParts s (unloadSched s i loc) := by
  unfold unloadSched
  split
  · exact .refl _ s
  · refine .ite (.refl _ s) (.ite ((Changes.refl _ s).modSched _ _) ?_)
    extract_lets h t
    have marked : Changes lossParts s t := (show Changes lossParts s (clearBindings s h) from rfl).modSched _ _
    exact (marked.andThen (changes_objectLog ..)).trans (changes_settleUnload ..)

theorem changes_setTile (s : State) (t : Nat) (e : TileEntry) : Changes [.tiers] s (setTile s t e) := rfl

theorem changes_loseTile (s : State) (t : Nat) : Changes lossParts s (loseTile s t) := by
  unfold loseTile
  split
  · exact .refl _ s
  · next e _ =>
    extract_lets log i
    have logged (u : State) (h : BitVec 32) (before : Changes lossParts s u) : Changes lossParts s (log u h) := before.andThen (changes_objectLog ..)
    have lost : Changes lossParts s (setTile s t { e with lost := true }) := (changes_setTile ..).mono (by decide)
    split
    · exact (logged _ _ lost).modColl _ _
    · exact logged _ _ (.ite (.refl _ s) lost)
    · exact logged _ _ (.ite (.refl _ s) lost)
    · exact (logged _ _ (.refl _ s)).trans (changes_unloadSched ..)
    · exact .refl _ s

theorem changes_loseAddress (s : State) (a : Nat) : Changes lossParts s (loseAddress s a) := by
  unfold loseAddress
  split
  · exact changes_loseTile ..
  · exact .foldl (fun s _ => (changes_objectLog s ..).mono (by decide)) _ s

/-! ## A sector that cannot be read -/

theorem changes_pieceErr (s : State) (n code : Nat) : Changes [.alleys, .pieces, .port0, .port1] s (pieceErr s n code) := by
  unfold pieceErr
  split
  · rfl
  · split
    · exact .refl _ s
    · exact ((Changes.refl [.alleys, .pieces, .port0, .port1] s).modPort _ _).set (p := .pieces) (by decide) rfl

end Sys2Proof.Machine
end

section
/-! SUPPORT. Traffic generators and migrations: what a run, a test and a start of a migration do to a channel, and to no other (R299, R317, R318),
and the statement about migrations. -/

namespace Sys2Proof.Machine

open Sys2Proof

-- Proofs are checked one at a time: each that waits for its turn would hold a thread's stack.
set_option Elab.async false

variable {s t u : State} {c : Nat}

/-- From s to t only one channel and the cells changed, and not the channel's spare lanes. -/
def OnlyChan (c : Nat) (s t : State) : Prop :=
  t = { s with hbm := { s.hbm with channels := t.hbm.channels, cells := t.hbm.cells } } ∧
    (∀ k, k ≠ c → t.chan k = s.chan k) ∧ (t.chan c).spareLanes = (s.chan c).spareLanes

namespace OnlyChan

theorem refl (c : Nat) (s : State) : OnlyChan c s s := ⟨rfl, fun _ _ => rfl, rfl⟩

theorem trans (h : OnlyChan c s t) (k : OnlyChan c t u) : OnlyChan c s u := by
  obtain ⟨ht, same, lanes⟩ := h
  obtain ⟨hu, same', lanes'⟩ := k
  refine ⟨?_, fun k ne => (same' k ne).trans (same k ne), lanes'.trans lanes⟩
  calc u = { t with hbm := { t.hbm with channels := u.hbm.channels, cells := u.hbm.cells } } := hu
    _ = { s with hbm := { s.hbm with channels := u.hbm.channels, cells := u.hbm.cells } } := by rw [ht]

theorem modChan (s : State) (c : Nat) {f : Channel → Channel} (lanes : ∀ x, (f x).spareLanes = x.spareLanes) : OnlyChan c s (s.modChan c f) :=
  ⟨rfl, fun _ ne => State.chan_modChan_ne ne f, by rw [State.chan_modChan, lanes]⟩

theorem cells (s : State) (c : Nat) (f : Hbm → Memory) : OnlyChan c s (s.modHbm fun h => { h with cells := f h }) :=
  ⟨rfl, fun _ _ => rfl, rfl⟩

theorem ite {p : Prop} [Decidable p] (h : OnlyChan c s t) (k : OnlyChan c s u) : OnlyChan c s (if p then t else u) := by
  split
  · exact h
  · exact k

theorem changes (h : OnlyChan c s t) : Changes [.hbm] s t := by
  rw [h.1]
  rfl

end OnlyChan

/-! ## Runs of a traffic generator -/

theorem onlyChan_tgWrite (s : State) (c k : Nat) : OnlyChan c s (tgWrite s c k) := by
  unfold tgWrite
  extract_lets x rs s₁ s₂ g f
  have cleared : OnlyChan c s s₁ := .cells s c _
  have filled : OnlyChan c s₁ s₂ := .modChan s₁ c fun _ => rfl
  exact (cleared.trans filled).trans ⟨rfl, fun _ _ => rfl, rfl⟩

theorem onlyChan_tgRecord (s : State) (c : Nat) (errs raw : List Mismatch) : OnlyChan c s (tgRecord s c errs raw) := .modChan s c fun _ => rfl

theorem onlyChan_tgEnds (s : State) (c k : Nat) (raw : List Mismatch) : OnlyChan c s (tgEnds s c k raw) := by
  unfold tgEnds
  extract_lets x s₁ s₂
  have wrote : OnlyChan c s s₁ := .ite (.refl c s) (onlyChan_tgWrite s c _)
  have checked : OnlyChan c s s₂ := .ite wrote (wrote.trans (onlyChan_tgRecord ..))
  exact checked.trans (.modChan _ c fun _ => rfl)

/-- A run that ends is BUSY no more, and shows DONE. -/
theorem tgEnds_ended (s : State) (c k : Nat) (raw : List Mismatch) :
    ((tgEnds s c k raw).chan c).busy = false ∧ ((tgEnds s c k raw).chan c).done = true := by
  unfold tgEnds
  extract_lets x s₁ s₂
  rw [State.chan_modChan]
  exact ⟨rfl, rfl⟩

theorem onlyChan_chanWrite (s : State) (c off : Nat) (v : Word) (arising : Nat) : OnlyChan c s (chanWrite s c off v arising) := by
  refine .modChan s c fun x => ?_
  split <;> rfl

theorem onlyChan_startup (s : State) (c : Nat) (ctrl : Word) : OnlyChan c s (tgStartEffect s c .startup ctrl) := by
  unfold tgStartEffect
  extract_lets t
  have wrote : OnlyChan c s t := onlyChan_chanWrite ..
  exact .ite wrote (.ite (wrote.trans (.modChan _ c fun _ => rfl)) (wrote.trans (.modChan _ c fun _ => rfl)))

/-- One run of a channel's test. -/
def testRun (s : State) (c mode : Nat) (raw : List Mismatch) : State :=
  tgDoneEffect (tgStartEffect (s.modHbm fun h => { h with testing := true }) c .startup (testCtrl mode)) c raw

theorem channelTest_eq (s : State) (c : Nat) (raw : List Mismatch) :
    channelTest s c raw = (testRun (testRun s c 3 []) c 4 raw).modHbm fun h => { h with testing := false } := rfl

theorem testRun_spec (s : State) (c mode : Nat) (raw : List Mismatch) : Changes [.hbm] s (testRun s c mode raw) ∧
    (∀ k, k ≠ c → (testRun s c mode raw).chan k = s.chan k) ∧ ((testRun s c mode raw).chan c).spareLanes = (s.chan c).spareLanes ∧
      (testRun s c mode raw).hbm.spares = s.hbm.spares := by
  unfold testRun
  generalize testing : (s.modHbm fun h => { h with testing := true }) = t
  have only : OnlyChan c t (tgDoneEffect (tgStartEffect t c .startup (testCtrl mode)) c raw) := (onlyChan_startup ..).trans (onlyChan_tgEnds ..)
  generalize tgDoneEffect (tgStartEffect t c .startup (testCtrl mode)) c raw = u at *
  subst testing
  have mark : Changes [.hbm] s (s.modHbm fun h => { h with testing := true }) := rfl
  refine ⟨mark.trans only.changes, only.2.1, only.2.2, ?_⟩
  rw [only.1]
  rfl

/-- A channel's test touches no other channel and no spare. -/
theorem channelTest_spec (s : State) (c : Nat) (raw : List Mismatch) : Changes [.hbm] s (channelTest s c raw) ∧
    (∀ k, k ≠ c → (channelTest s c raw).chan k = s.chan k) ∧ ((channelTest s c raw).chan c).spareLanes = (s.chan c).spareLanes ∧
      (channelTest s c raw).hbm.spares = s.hbm.spares := by
  rw [channelTest_eq]
  obtain ⟨changes₁, others₁, lanes₁, spares₁⟩ := testRun_spec s c 3 []
  obtain ⟨changes₂, others₂, lanes₂, spares₂⟩ := testRun_spec (testRun s c 3 []) c 4 raw
  generalize testRun s c 3 [] = t at *
  generalize testRun t c 4 raw = u at *
  exact ⟨(changes₁.trans changes₂).modHbm _, fun k ne => (others₂ k ne).trans (others₁ k ne), lanes₂.trans lanes₁, spares₂.trans spares₁⟩

/-! ## Start and abort of a migration -/

/-- The firmware stops a generator before it makes its channel a target (R317). -/
theorem stopGenerator_spec (s : State) (t : Nat) : Changes [.hbm, .free] s (stopGenerator s t) ∧
    (∀ k, k ≠ t → (stopGenerator s t).chan k = s.chan k) ∧ ((stopGenerator s t).chan t).busy = false := by
  unfold stopGenerator
  split
  · have ends := onlyChan_tgEnds s t ((Config.freeWord s.free).toNat % (tgCount (s.chan t) * 64 + 1)) []
    have ended := tgEnds_ended s t ((Config.freeWord s.free).toNat % (tgCount (s.chan t) * 64 + 1)) []
    generalize tgEnds s t ((Config.freeWord s.free).toNat % (tgCount (s.chan t) * 64 + 1)) [] = u at *
    exact ⟨(show Changes [.hbm, .free] s u from ends.changes.mono (by decide)).trans rfl, ends.2.1, ended.1⟩
  · next idle => exact ⟨.refl _ s, fun _ _ => rfl, by simpa using idle⟩

theorem chan_of_changes {l : List Part} (h : Changes l s t) (out : ∀ s t, (State.take l s t).hbm = s.hbm) (k : Nat) : t.chan k = s.chan k :=
  h.same (fun s => s.chan k) fun s t => by rw [State.chan, State.chan, out]

theorem chan_of_reports (h : Reports s t) (k : Nat) : t.chan k = s.chan k := chan_of_changes h.changes (fun _ _ => rfl) k

/-- A migration's start from a channel that is not LOST (R299). -/
theorem startMigration_spec {ch tgt share : Nat} (ne : ch ≠ tgt) (active : (s.chan ch).state = .active)
    (ht : startMigration s ch tgt share none = t) : Changes [.hbm, .free, .logs, .port0, .port1] s t ∧
      (∀ k, k ≠ ch → k ≠ tgt → t.chan k = s.chan k) ∧ t.chan ch = { s.chan ch with state := .migSource, migTarget := tgt, share := share, phase := .copy, watermark := 0, migCmd := none } ∧
      (t.chan tgt).state = .migTarget ∧ (t.chan tgt).busy = false := by
  subst ht
  obtain ⟨stops, others, idle⟩ := stopGenerator_spec s tgt
  unfold startMigration
  extract_lets lost s₁ s₂ s₃ s₄ s₅
  have notLost : lost = false := by
    change ((s.chan ch).state == .lost) = false
    rw [active]
    rfl
  rw [notLost, if_neg Bool.false_ne_true]
  have source : s₂.chan ch = s.chan ch := (State.chan_modChan_ne ne _).trans (others ch ne)
  have changes : Changes [.hbm, .free, .logs, .port0, .port1] s s₄ :=
    (show Changes [.hbm, .free, .logs, .port0, .port1] s s₁ from stops.mono (by decide)).andThen
      (show Changes [.hbm] s₁ s₄ from (((Changes.refl _ s₁).modChan _ _).modChan _ _).modHbm _)
  have report (k : Nat) : s₅.chan k = s₃.chan k := chan_of_reports (.repair_log s₄ ch tgt) k
  have reported : Changes [.logs, .port0, .port1] s₄ s₅ := (Reports.repair_log s₄ ch tgt).changes
  refine ⟨changes.andThen reported, fun k ns nt => ?_, ?_, ?_, ?_⟩
  · rw [report, State.chan_modChan_ne ns, State.chan_modChan_ne nt]
    exact others k nt
  · rw [report, State.chan_modChan, source]
  · rw [report, State.chan_modChan_ne ne.symm, State.chan_modChan]
  · rw [report, State.chan_modChan_ne ne.symm, State.chan_modChan]
    exact idle

/-- A migration that is aborted before ALIAS (R303). -/
theorem abortMigration_spec {ch : Nat} (ne : (s.chan ch).migTarget ≠ ch) :
    ((abortMigration s ch).chan ch).state = .active ∧ ((abortMigration s ch).chan ch).phase = .idle ∧
      ((abortMigration s ch).chan ch).migAborted = true ∧ ((abortMigration s ch).chan (s.chan ch).migTarget).state = .repair := by
  unfold abortMigration
  extract_lets x s₁ s₂ s₃
  have ne' : x.migTarget ≠ ch := ne
  have report (k : Nat) : s₃.chan k = s₂.chan k := chan_of_reports (.repair_log s₂ ch _) k
  have spec : (s₃.chan ch).state = .active ∧ (s₃.chan ch).phase = .idle ∧ (s₃.chan ch).migAborted = true ∧
      (s₃.chan x.migTarget).state = .repair := by
    rw [report, report, State.chan_modChan, State.chan_modChan_ne ne', State.chan_modChan]
    exact ⟨rfl, rfl, rfl, rfl⟩
  split
  · next n _ =>
    have quiet (k : Nat) : (fail s₃ n .aborted {}).chan k = s₃.chan k := chan_of_changes (quiet_fail ..) (fun _ _ => rfl) k
    rw [quiet, quiet]
    exact spec
  · exact spec

/-! ## Drain markers -/

/-- Entries of the retirement table that are not valid are not released (R313). -/
theorem releaseEntries_of_invalid (h : ∀ e ∈ s.hbm.rt, e.2.valid = false) (t : Nat) : releaseEntries s t = s := by
  unfold releaseEntries
  generalize s.hbm.rt = l at h
  induction l with
  | nil => rfl
  | cons e l ih =>
    have first : releaseEntry s t e.1 e.2 = s := by
      unfold releaseEntry
      rw [h e (by simp)]
      rfl
    rw [List.foldl_cons]
    dsimp only
    rw [first]
    exact ih fun e he => h e (List.mem_cons_of_mem _ he)

/-- The firmware's switch of PERM names a source no more (R299). -/
theorem notMem_switchPerm {ch : Nat} (ne : (s.chan ch).migTarget ≠ ch) : ch ∉ (switchPerm s ch).hbm.perm := by
  intro mem
  obtain ⟨e, -, he⟩ := List.mem_map.mp mem
  split at he
  · exact ne he
  · next other => exact other he

/-- Step 6 of a migration whose target is not LOST (R299). -/
theorem endMigration_spec {ch : Nat} (serves : fwServes s = true) (ne : (s.chan ch).migTarget ≠ ch) (none_ : ∀ e ∈ s.hbm.rt, e.2.valid = false)
    (kept : (s.chan (s.chan ch).migTarget).state ≠ .lost) (ht : endMigration s ch = t) :
    (t.chan ch).state = .repair ∧ (t.chan ch).phase = .idle ∧ (t.chan ch).migDone = true ∧ (t.chan (s.chan ch).migTarget).state = .active ∧
      t.hbm.migrations = s.hbm.migrations + 1 ∧ t.hbm.perm = s.hbm.perm := by
  subst ht
  unfold endMigration
  extract_lets y s₁ s₂ s₃ s₄
  have ne' : y ≠ ch := ne
  have released : s₄ = s₃ := by
    change (if fwServes s₃ then releaseEntries s₃ y else _) = s₃
    rw [if_pos (show fwServes s₃ = true from serves)]
    exact releaseEntries_of_invalid (s := s₃) none_ y
  have reports : Reports s₃ (noticeId (repairLog s₄ ch y)) := by
    rw [released]
    exact (Reports.repair_log ..).trans (Reports.noticeId _)
  have report (k : Nat) : (noticeId (repairLog s₄ ch y)).chan k = s₂.chan k := chan_of_reports reports k
  have hbm : (noticeId (repairLog s₄ ch y)).hbm = s₃.hbm := reports.changes.same fun s => s.hbm
  rw [report, report, hbm, State.chan_modChan, State.chan_modChan_ne ne', State.chan_modChan]
  exact ⟨rfl, rfl, rfl, if_neg kept, rfl, rfl⟩

/-- A state whose PERM names a source no more, with a marker of the source recorded. -/
def marked (s : State) (ch unit : Nat) : State :=
  (if s.hbm.perm.contains ch then switchPerm s ch else s).modChan ch fun x =>
    { x with markers := if x.markers.contains unit then x.markers else x.markers ++ [unit] }

theorem markerEffect_eq (s : State) (ch unit : Nat) : markerEffect s ch unit =
    if 8 ≤ ((marked s ch unit).chan ch).markers.length then endMigration (marked s ch unit) ch else marked s ch unit := rfl

theorem marked_spec {ch unit : Nat} (ne : (s.chan ch).migTarget ≠ ch) (new : unit ∉ (s.chan ch).markers) :
    (marked s ch unit).chan ch = { s.chan ch with markers := (s.chan ch).markers ++ [unit] } ∧
      (∀ k, k ≠ ch → (marked s ch unit).chan k = s.chan k) ∧ ch ∉ (marked s ch unit).hbm.perm ∧ (marked s ch unit).hbm.rt = s.hbm.rt ∧
      (marked s ch unit).hbm.migrations = s.hbm.migrations ∧ fwServes (marked s ch unit) = fwServes s := by
  have fresh : ((s.chan ch).markers.contains unit) = false := by simpa using new
  have marks (t : State) (same : t.chan ch = s.chan ch) :
      (t.modChan ch fun x => { x with markers := if x.markers.contains unit then x.markers else x.markers ++ [unit] }).chan ch =
        { s.chan ch with markers := (s.chan ch).markers ++ [unit] } := by
    rw [State.chan_modChan, same, fresh]
    rfl
  unfold marked
  split
  · exact ⟨marks _ rfl, fun k h => State.chan_modChan_ne h _, notMem_switchPerm ne, rfl, rfl, rfl⟩
  · next out => exact ⟨marks _ rfl, fun k h => State.chan_modChan_ne h _, by simpa using out, rfl, rfl, rfl⟩

/-! ## The released channel -/

/-- The training, repair and test of a released channel pass. -/
def repairPasses (lanes : Option Lanes) (repaired : Bool) (raw : List Mismatch) : Bool := trains lanes && repaired && testPasses raw

/-- Steps 8 and 9 (R299). -/
theorem repairEffect_spec {ch : Nat} (lanes : Option Lanes) (repaired : Bool) (raw : List Mismatch) (free : (s.chan ch).migCmd = none)
    (ht : repairEffect s ch lanes repaired raw = t) : (trains lanes = true → (t.chan ch).spareLanes = lanes.getD []) ∧
      (repairPasses lanes repaired raw = true → (t.chan ch).state = .spare ∧ Tab.get? t.hbm.spares (ch / 32) = some ch ∧ (t.chan ch).remaps = []) ∧
      (repairPasses lanes repaired raw = false → (t.chan ch).state = .failed ∧ t.hbm.spares = s.hbm.spares) ∧ ∀ k, k ≠ ch → t.chan k = s.chan k := by
  subst ht
  unfold repairEffect
  extract_lets cmd tgt pass s₁ s₂ s₃ s₄ s₅
  have none_ : cmd = none := free
  rw [none_]
  dsimp only
  have trained : s₁ = if trains lanes then s.modChan ch fun x => { x with spareLanes := lanes.getD [] } else s := rfl
  have tested : s₂ = if trains lanes && repaired then channelTest s₁ ch raw else s₁ := rfl
  have others₁ (k : Nat) (ne : k ≠ ch) : s₁.chan k = s.chan k := by
    rw [trained]
    split
    · exact State.chan_modChan_ne ne _
    · rfl
  have lanes₁ (ok : trains lanes = true) : (s₁.chan ch).spareLanes = lanes.getD [] := by rw [trained, if_pos ok, State.chan_modChan]
  have spares₁ : s₁.hbm.spares = s.hbm.spares := by rw [trained]; split <;> rfl
  obtain ⟨-, others, kept, spares⟩ := channelTest_spec s₁ ch raw
  have after : (∀ k, k ≠ ch → s₂.chan k = s.chan k) ∧ (s₂.chan ch).spareLanes = (s₁.chan ch).spareLanes ∧ s₂.hbm.spares = s.hbm.spares := by
    rw [tested]
    split
    · exact ⟨fun k ne => (others k ne).trans (others₁ k ne), kept, spares.trans spares₁⟩
    · exact ⟨others₁, rfl, spares₁⟩
  obtain ⟨others₂, lanes₂, spares₂⟩ := after
  have hbm : s₅.hbm = s₄.hbm := (Reports.noticeId s₄).changes.same fun s => s.hbm
  have report (k : Nat) : s₅.chan k = s₃.chan k := chan_of_reports (.noticeId s₄) k
  rw [report, hbm, State.chan_modChan]
  refine ⟨fun ok => lanes₂.trans (lanes₁ ok), fun ok => ?_, fun bad => ?_, fun k ne => ?_⟩
  · have good : pass = true := ok
    exact ⟨if_pos good, (congrArg (Tab.get? · (ch / 32)) (if_pos good)).trans (Tab.get?_set_self ..), if_pos good⟩
  · have bad' : pass = false := bad
    exact ⟨if_neg (by simp [bad']), (if_neg (by simp [bad'])).trans spares₂⟩
  · rw [report, State.chan_modChan_ne ne]
    exact others₂ k ne

theorem live_of_serves (h : fwServes s = true) : live s = true := by
  unfold fwServes at h
  simp only [Bool.and_eq_true] at h
  exact h.1

/-- Settles O21, by the step of the migration that each command takes. -/
theorem migrationSteps : Obligations.MigrationSteps := by
  intro ch s serves room
  have up : live s = true := live_of_serves serves
  refine ⟨fun ctrl start low high must may active => ?_, fun why source copy ne => ?_, fun unit small serving ne new => ?_,
    fun lanes repaired raw state free => ?_⟩
  · have spare : (s.chan (ctrl.toNat / 65536 % 512)).state = .spare := by
      simp only [mayMigrate, Bool.and_eq_true, beq_iff_eq] at may
      tauto
    have ne : ch ≠ ctrl.toNat / 65536 % 512 := fun same => by rw [← same, active] at spare; exact absurd spare (by decide)
    have share : bitsOf ctrl.toNat 14 8 = ctrl.toNat / 256 % 128 := by simp [bitsOf, Nat.shiftRight_eq_div_pow]
    have target : bitsOf ctrl.toNat 24 16 = ctrl.toNat / 65536 % 512 := by simp [bitsOf, Nat.shiftRight_eq_div_pow]
    have row : exec (.migrationStart ch ctrl) s = .next (startMigration s ch (ctrl.toNat / 65536 % 512) (ctrl.toNat / 256 % 128) none) := by
      rw [← share, ← target]
      refine occurs_of_true ?_ _ s
      rw [share, target, serves, start, must, may]
      simp [okChannel, room, low, high]
    generalize begun : startMigration s ch (ctrl.toNat / 65536 % 512) (ctrl.toNat / 256 % 128) none = t at row
    obtain ⟨changes, others, source, state, idle⟩ := startMigration_spec ne active begun
    refine ⟨t, row, ?_, ?_, ?_, ?_, ?_, state, idle, others, changes⟩ <;> rw [source]
  · have row : exec (.migrationAbort ch why) s = .next (abortMigration s ch) := by
      refine occurs_of_true ?_ _ s
      rw [up, source, copy, serves]
      simp [okChannel, room]
    obtain ⟨active, idle, aborted, repair⟩ := abortMigration_spec ne
    exact ⟨_, row, active, idle, aborted, repair⟩
  · have row : exec (.drainMarker ch unit) s = .next (markerEffect s ch unit) :=
      occurs_of_true (by rw [up, serves, serving]; simp [okChannel, okDie, room, small]) _ s
    obtain ⟨source, others, unnamed, entries, count, still⟩ := marked_spec ne new
    have length : ((marked s ch unit).chan ch).markers.length = (s.chan ch).markers.length + 1 := by rw [source]; exact List.length_append
    have target : ((marked s ch unit).chan ch).migTarget = (s.chan ch).migTarget := by rw [source]
    refine ⟨_, row, fun few => ?_, fun seven none_ kept => ?_⟩
    · rw [markerEffect_eq, if_neg (by omega), source]
      exact ⟨rfl, serving⟩
    · rw [markerEffect_eq, if_pos (by omega)]
      obtain ⟨state, phase, done, active, one, perm⟩ := endMigration_spec (s := marked s ch unit) (still.trans serves) (by rw [target]; exact ne)
        (by rw [entries]; exact none_) (by rw [target, others _ ne]; exact kept) rfl
      rw [target] at active
      exact ⟨state, phase, done, active, by rw [one, count], by rw [perm]; exact unnamed⟩
  · have row : exec (.migrationRepair ch ⟨lanes, repaired, raw⟩) s = .next (repairEffect s ch lanes repaired raw) :=
      occurs_of_true (by rw [serves, state]; simp [okChannel, room]) _ s
    obtain ⟨trained, passed, failed, others⟩ := repairEffect_spec lanes repaired raw free rfl
    refine ⟨_, row, trained, fun ⟨ok, fixed, tested⟩ => passed (by simp [repairPasses, ok, fixed, tested]), fun bad => failed ?_, others⟩
    rcases bad with bad | bad | bad <;> simp [repairPasses, bad]

end Sys2Proof.Machine
end

section
/-! SUPPORT. Scrub, remaps, retirements, lost channels and runs of the traffic generators, and the statement about them (R292 to R318). -/

namespace Sys2Proof.Machine

open Sys2Proof

-- Proofs are checked one at a time: each that waits for its turn would hold a thread's stack.
set_option Elab.async false

variable {s t : State} {ch : Nat}

/-! ## Patrol -/

theorem eccRead_right {r sector : Nat} {since : List Nat} (h : wrongSymbols s ch r sector since = []) : eccRead s ch r sector since = (s, true) := by
  unfold eccRead
  rw [h]

theorem eccRead_one {r sector lane : Nat} {since : List Nat} (h : wrongSymbols s ch r sector since = [lane]) :
    eccRead s ch r sector since = (countCorrected s ch r sector lane, true) := by
  unfold eccRead
  rw [h]

theorem patrolSector_right {g k : Nat} {since : List Nat} (h : wrongSymbols s ch g k since = []) : patrolSector g ch s (k, since) = s := by
  unfold patrolSector
  dsimp only
  rw [eccRead_right h]
  rfl

theorem patrolSector_one {g k lane : Nat} {since : List Nat} (h : wrongSymbols s ch g k since = [lane]) :
    patrolSector g ch s (k, since) = countCorrected s ch g k lane := by
  unfold patrolSector
  dsimp only
  rw [eccRead_one h]
  rfl

theorem wrongSymbols_of_none {r sector : Nat} (h : Tab.get? (s.chan ch).flips (r * 64 + sector) = none) (since : List Nat) :
    wrongSymbols s ch r sector since = since.eraseDups := by
  unfold wrongSymbols Tab.getD
  rw [h]
  rfl

theorem countCorrected_chan (s : State) (c r sector lane : Nat) : (countCorrected s c r sector lane).chan c = { s.chan c with
    eccCorrected := min 0xFFFFFFFF ((s.chan c).eccCorrected + 1), flips := Tab.erase (s.chan c).flips (r * 64 + sector)
    rowErrors := Tab.modify (s.chan c).rowErrors (rowKey (sector % 2) r) [] fun l => l ++ [s.time]
    laneRows := Tab.modify (s.chan c).laneRows (sector % 2 * 256 + lane) [] fun l => l ++ [(rowKey (sector % 2) r, s.time)] } :=
  State.chan_modChan ..

/-- The sectors before the n-th of a patrolled granule that has one wrong symbol. -/
theorem patrol_prefix {g sector lane : Nat} (clean : ∀ k, k < 64 → Tab.get? (s.chan ch).flips (g * 64 + k) = none) (n : Nat) (hn : n ≤ 64) :
    (List.range n).foldl (fun s i => patrolSector g ch s (i, Tab.getD [(sector, [lane])] i [])) s =
      if sector < n then countCorrected s ch g sector lane else s := by
  induction n with
  | zero => rfl
  | succ n ih =>
    rw [List.range_succ, List.foldl_append, ih (by omega), List.foldl_cons, List.foldl_nil]
    by_cases before : sector < n
    · rw [if_pos before, if_pos (by omega)]
      have given : Tab.getD [(sector, [lane])] n [] = [] := by simp [Tab.getD, Tab.get?, show sector ≠ n by omega]
      rw [given]
      refine patrolSector_right ?_
      rw [wrongSymbols_of_none]
      · rfl
      · rw [countCorrected_chan, Tab.get?_erase_ne _ (by omega)]
        exact clean n (by omega)
    · rw [if_neg before]
      by_cases here : sector = n
      · have given : Tab.getD [(sector, [lane])] n [] = [lane] := by simp [Tab.getD, Tab.get?, here]
        rw [if_pos (by omega), given, here]
        exact patrolSector_one (wrongSymbols_of_none (clean n (by omega)) [lane])
      · have given : Tab.getD [(sector, [lane])] n [] = [] := by simp [Tab.getD, Tab.get?, here]
        rw [if_neg (by omega), given]
        exact patrolSector_right (wrongSymbols_of_none (clean n (by omega)) [])

/-! ## Remaps -/

theorem nextSpare_lt {x : Channel} {bank n : Nat} (h : nextSpare x bank = some n) : n < 2 := by
  unfold nextSpare at h
  dsimp only at h
  split at h
  · cases h
  · split at h <;> cases h <;> decide

/-- A remap takes its row's entry alone. -/
theorem remapEffect_spec {bank row n : Nat} (next : nextSpare (s.chan ch) bank = some n) :
    ((remapEffect s ch bank row).chan ch).remaps = ((s.chan ch).remaps.filter fun x => !(x.1 == bank && x.2.1 == row)) ++ [(bank, row, n)] ∧
      (remapEffect s ch bank row).hbm.recordDirty = true ∧ (∀ k, k ≠ ch → (remapEffect s ch bank row).chan k = s.chan k) ∧
      Changes [.hbm, .logs, .port0, .port1] s (remapEffect s ch bank row) := by
  unfold remapEffect
  extract_lets m s₁
  have taken : m = n := by
    change (nextSpare (s.chan ch) bank).getD 0 = n
    rw [next]
    rfl
  have reports := Reports.repair_log (s₁.modHbm fun h => { h with recordDirty := true }) ch row
  have chan (k : Nat) := chan_of_reports reports k
  have hbm := reports.changes.same fun s => s.hbm
  have before : Changes [.hbm] s (s₁.modHbm fun h => { h with recordDirty := true }) := ((Changes.refl _ s).modChan _ _).modHbm _
  refine ⟨?_, ?_, fun k ne => ?_, before.comp reports.changes⟩
  · rw [chan, ← taken]
    exact congrArg Channel.remaps (State.chan_modChan s ch fun x => { x with
      remaps := (x.remaps.filter fun y => !(y.1 == bank && y.2.1 == row)) ++ [(bank, row, m)]
      rowErrors := Tab.erase x.rowErrors (bank * 16384 + row) })
  · rw [hbm]
    rfl
  · rw [chan]
    exact State.chan_modChan_ne (s := s) ne fun x => { x with
      remaps := (x.remaps.filter fun y => !(y.1 == bank && y.2.1 == row)) ++ [(bank, row, m)]
      rowErrors := Tab.erase x.rowErrors (bank * 16384 + row) }

/-! ## Retired pages -/

/-- The entry of a page that is retired for the first time. -/
def newEntry (s : State) (page slot : Nat) (lost : BitVec 2) : RtEntry :=
  { valid := true, releasing := false, failed := 0 ||| lost ||| failingGranules s page, lost := 0 ||| lost, moved := 3, slot := slot, page := page }

/-- The copies of the granules of a page that are not lost. -/
def copiedPage (s : State) (page slot : Nat) (lost : BitVec 2) : State :=
  (List.range 2).foldl (fun s g => if bitOf (0 ||| lost).toNat g then s
    else copyGranule s (page * 4096 + g * 2048) (retireBase s + slot * 4096 + g * 2048)) s

theorem retirePage_new {page n k : Nat} (new : rtFind s page = none) (entry : freeRt s = some n) (slot : freeSlot s = some k) (lost : BitVec 2) :
    retirePage s page lost = (copiedPage s page k lost).modHbm fun h =>
      { h with recordDirty := true, rt := Tab.set h.rt n (newEntry s page k lost) } := by
  unfold retirePage
  rw [new, entry, slot]
  rfl

theorem copiedPage_of_lost (s : State) (page slot : Nat) : copiedPage s page slot 3 = s := rfl

/-- What follows a retirement leaves HBM alone. -/
theorem retireLogged_hbm (s : State) (page : Nat) (lost : BitVec 2) : (retireLogged s page lost).hbm = (retirePage s page lost).hbm := by
  have losing (s : State) : Changes lossParts s
      ((List.range 2).foldl (fun s g => if bitOf lost.toNat g then loseAddress s (page * 4096 + g * 2048) else s) s) :=
    .foldl (fun s g => .ite (changes_loseAddress ..) (.refl _ s)) _ s
  unfold retireLogged
  generalize retirePage s page lost = u
  dsimp only
  refine Eq.trans ((losing _).same fun s => s.hbm) ?_
  split
  · exact (Reports.repair_log ..).changes.same fun s => s.hbm
  · rfl

/-! ## Lost channels -/

theorem channelLostEffect_spec (idle : (s.chan ch).phase = .idle) :
    ((channelLostEffect s ch).chan ch).state = .lost ∧ ((channelLostEffect s ch).chan ch).wq0 = [] ∧ ((channelLostEffect s ch).chan ch).wq1 = [] ∧
      (channelLostEffect s ch).logs.notice.getLsbD (lidHealth - 1) = true := by
  unfold channelLostEffect
  rw [if_neg (by rw [idle]; decide)]
  extract_lets s₁ ts s₂ s₃ z s₄
  have losing : Changes lossParts s₃ s₄ :=
    changes_oneEvent (fun s => .foldl (fun s t => (changes_endReaders ..).trans (changes_loseTile ..)) _ s) (by decide) s₃ false {}
  have report : (notice s₄ lidHealth).chan ch = s₂.chan ch :=
    (chan_of_reports (.notice s₄ lidHealth) ch).trans
      ((chan_of_changes losing (fun _ _ => rfl) ch).trans (chan_of_reports (.repair_log s₂ ch 0) ch))
  rw [report, State.chan_modChan, notice_logs]
  refine ⟨rfl, rfl, rfl, ?_⟩
  rw [getLsbD_setBit, decide_eq_true rfl, decide_eq_true (by decide), Bool.and_true, Bool.or_true]

/-! ## Runs of the traffic generators -/

/-- A run that only checks records what it finds (R318). -/
theorem tgDoneEffect_checks (raw : List Mismatch) (checks : (s.chan ch).opMode = 1) :
    tgDoneEffect s ch raw = (tgRecord s ch (tgErrors s ch (tgCount (s.chan ch) * 64) raw) raw).modChan ch fun x => { x with busy := false, done := true } := by
  unfold tgDoneEffect tgEnds
  dsimp only
  rw [if_pos checks, if_neg (show ¬ (s.chan ch).opMode = 0 by omega)]

/-- A run that only writes leaves its pattern (R318). -/
theorem tgDoneEffect_writes (raw : List Mismatch) (writes : (s.chan ch).opMode = 0) :
    tgDoneEffect s ch raw = (tgWrite s ch (tgCount (s.chan ch) * 64)).modChan ch fun x => { x with busy := false, done := true } := by
  unfold tgDoneEffect tgEnds
  dsimp only
  rw [if_neg (show ¬ (s.chan ch).opMode = 1 by omega), if_pos writes, Nat.min_self]

theorem State.modChan_modChan (s : State) (c : Nat) (f g : Channel → Channel) : (s.modChan c f).modChan c g = s.modChan c fun x => g (f x) :=
  congrArg (fun m => { s with hbm := { s.hbm with channels := m } }) (Tab.modify_modify s.hbm.channels c {} f g)

/-- The range of a run that does not wrap. -/
def runRange (x : Channel) : List (Nat × Nat) := [(x.start, x.start + x.length)].filter fun r => decide (r.1 < r.2)

/-- A state without the cells of some ranges of a channel. -/
def cleared (s : State) (c : Nat) (rs : List (Nat × Nat)) : State :=
  s.modHbm fun h => { h with cells := h.cells.filter fun y => !rs.any fun r => cellIn c r.1 r.2 y.1 }

/-- A channel with the pattern of a run in some ranges. -/
def Channel.patterned (x : Channel) (rs : List (Nat × Nat)) (y : Channel) : Channel := { y with
  fills := rs.map (fun r => tgFill x r.1 r.2) ++ y.fills
  flips := Tab.keep y.flips fun n _ => !rs.any fun r => decide (r.1 ≤ n / 64) && decide (n / 64 < r.2) }

/-- A run over whole granules. -/
theorem tgWrite_whole {x : Channel} (hx : s.chan ch = x) (first : x.start < 2 ^ 20) (last : x.start + x.length ≤ 2 ^ 20) :
    tgWrite s ch (tgCount x * 64) = (cleared s ch (runRange x)).modChan ch (x.patterned (runRange x)) := by
  have count : tgCount x * 64 / 64 = x.length := by unfold tgCount; omega
  have rest : tgCount x * 64 % 64 = 0 := by omega
  have range : tgRanges x x.length = [(x.start, x.start + x.length)] := by
    unfold tgRanges
    dsimp only
    rw [Nat.mod_eq_of_lt first, if_pos last]
  unfold tgWrite
  dsimp only
  rw [hx, count, rest, range]
  rfl

theorem chanByte_tgWrite {x : Channel} (hx : s.chan ch = x) (served : x.phase ≠ .alias_) (empty0 : x.wq0 = []) (empty1 : x.wq1 = [])
    (first : x.start < 2 ^ 20) (last : x.start + x.length ≤ 2 ^ 20) {r off : Nat} (low : x.start ≤ r) (high : r < x.start + x.length)
    (small : off < 2048) :
    chanByte ((tgWrite s ch (tgCount x * 64)).modChan ch fun x => { x with busy := false, done := true }) ch r off =
      byteOf (tgPattern x.dataMode x.seed (BitVec.ofNat 64 (x.userLo.toNat + x.userHi.toNat * 2 ^ 32)) (r * 64 + off / 32)) (off % 32) := by
  rw [tgWrite_whole hx first last]
  have one : runRange x = [(x.start, x.start + x.length)] := by
    unfold runRange
    rw [List.filter_cons_of_pos (by simp; omega)]
    rfl
  rw [one, State.modChan_modChan]
  have cells : Mem.read (cleared s ch [(x.start, x.start + x.length)]).hbm.cells (cellKey ch r off) = 0 := by
    have inside : cellIn ch x.start (x.start + x.length) (cellKey ch r off) = true := by
      rw [cellIn_cellKey (by omega) small]
      simp [low, high]
    have read := Tab.get?_filter_key s.hbm.cells (fun a => !([(x.start, x.start + x.length)].any fun r => cellIn ch r.1 r.2 a)) (cellKey ch r off)
    rw [if_neg (by simp [inside])] at read
    exact congrArg (Option.getD · 0) read
  have chan : (cleared s ch [(x.start, x.start + x.length)]).chan ch = x := hx
  generalize cleared s ch [(x.start, x.start + x.length)] = u at *
  have filled : fillByte (x.patterned [(x.start, x.start + x.length)] x).fills r off =
      byteOf (tgPattern x.dataMode x.seed (BitVec.ofNat 64 (x.userLo.toNat + x.userHi.toNat * 2 ^ 32)) (r * 64 + off / 32)) (off % 32) := by
    unfold fillByte
    rw [Channel.patterned, List.map_cons, List.cons_append, List.find?_cons_of_pos (by simp [tgFill, low, high])]
    rfl
  have queue (pc : Nat) : wqOf { x.patterned [(x.start, x.start + x.length)] x with busy := false, done := true } pc = [] := by
    unfold wqOf
    split
    · exact empty0
    · exact empty1
  rw [chanByte_of_serves (servedBy_of_phase (by rw [State.chan_modChan, chan]; exact served)), State.chan_modChan, chan, queue]
  exact (congrArg₂ (· ^^^ ·) cells filled).trans (BitVec.zero_xor ..)

/-- A channel whose TG_CTRL took a word. -/
def controlled (s : State) (c : Nat) (ctrl : Word) : State := chanWrite s c 0x010 ctrl 0

theorem controlled_chan (s : State) (c : Nat) (ctrl : Word) : (controlled s c ctrl).chan c = { s.chan c with
    dataMode := bitsOf ctrl.toNat 23 20, addrMode := bitsOf ctrl.toNat 19 18, opMode := bitsOf ctrl.toNat 17 16
    testRate := bitsOf ctrl.toNat 15 14 } := State.chan_modChan ..

theorem tgStartEffect_normal (s : State) (c : Nat) (ctrl : Word) : tgStartEffect s c .normal ctrl =
    if ((controlled s c ctrl).chan c).busy then controlled s c ctrl
    else if !([ChState.spare, .repair, .failed].contains ((controlled s c ctrl).chan c).state) then
      (controlled s c ctrl).modChan c fun x => { x with refused := true }
    else (controlled s c ctrl).modChan c fun x => { x with busy := true, chkErrors := 0 } := rfl

/-- Settles O20, command by command. -/
theorem hbmIsRepaired : Obligations.HbmIsRepaired := by
  refine ⟨fun s serves => ⟨fun ch g sector lane room gran small scrub state clean => ?_,
    fun ch bank row n room low high active fails intact next few => ?_, fun page n k isOpen below new entry slot lost why => ?_,
    fun dirty present => ?_⟩, fun ch s room => ⟨fun up active idle => ?_, fun ctrl serves idle start => ⟨fun may => ?_, fun mayNot => ?_⟩,
    fun busy => ⟨fun ctrl stop k raw => ?_, fun raw writes served empty0 empty1 last first => ?_, fun raw checks => ?_⟩⟩⟩
  · have up : live s = true := live_of_serves serves
    have row : exec (.patrolScrub ch g [(sector, [lane])]) s = .next (patrolEffect s ch g [(sector, [lane])]) := by
      refine occurs_of_true ?_ _ s
      rw [up, scrub]
      have gran' : g < 1048576 := gran
      rcases state with h | h | h <;> simp [okChannel, room, gran', small, h]
    have effect : patrolEffect s ch g [(sector, [lane])] = countCorrected s ch g sector lane :=
      (patrol_prefix clean 64 le_rfl).trans (if_pos small)
    exact ⟨_, row.trans (congrArg _ effect), congrArg Channel.eccCorrected (countCorrected_chan ..), fun k ne => State.chan_modChan_ne ne _, rfl⟩
  · have ok : remapOk (s.chan ch) bank row = true := by simp [remapOk, next, few]
    have step : exec (.rowRemap ch bank row) s = .next (remapEffect s ch bank row) :=
      occurs_of_true (by rw [serves, active, fails, intact, ok]; simp [okChannel, room, low, high]) _ s
    obtain ⟨remaps, dirty, others, changes⟩ := remapEffect_spec next
    refine ⟨_, step, ?_, nextSpare_lt next, fun b x k ne => ?_, dirty, others, changes⟩
    · rw [remaps]
      exact List.mem_append_right _ (by simp)
    · have ne' : ¬ (b = bank ∧ x = row) := fun ⟨hb, hx⟩ => ne (by rw [hb, hx])
      rw [remaps, List.mem_append, List.mem_filter]
      simp only [List.mem_singleton, Prod.mk.injEq, Bool.not_eq_true', Bool.and_eq_false_iff, beq_eq_false_iff_ne]
      tauto
  · have step : exec (.pageRetire page lost) s = .next (retireLogged s page lost) := by
      refine occurs_of_true ?_ _ s
      rw [serves, isOpen]
      have why' : ¬ lost = 0#2 ∨ granuleStuck s (page * 4096) = true ∨ granuleStuck s (page * 4096 + 2048) = true := why
      simpa [below] using why'
    refine ⟨_, step, ?_⟩
    rw [retireLogged_hbm, retirePage_new new entry slot]
    refine ⟨?_, rfl, fun all m ne => ?_⟩
    · change (Tab.get? (Tab.set (copiedPage s page k lost).hbm.rt n (newEntry s page k lost)) n).map _ = _
      rw [Tab.get?_set_self]
      simp [newEntry]
    · subst all
      rw [copiedPage_of_lost]
      exact Tab.get?_set_ne _ _ ne
  · have step : exec .repairRecordWrite s = .next (recordEffect s) := occurs_of_true (by rw [serves, dirty]; simpa using present) _ s
    exact ⟨_, step, rfl, rfl, rfl, fun c => Tab.get?_map .., fun c => Tab.get?_map .., rfl⟩
  · have step : exec (.channelLost ch) s = .next (channelLostEffect s ch) :=
      occurs_of_true (by rw [up]; simp [okChannel, room, channelServes, active]) _ s
    exact ⟨_, step, channelLostEffect_spec idle⟩
  · have step : exec (.tgRunStart ch ⟨.normal, ctrl⟩) s = .next (tgStartEffect s ch .normal ctrl) :=
      occurs_of_true (by simp [okChannel, room, tgCaller, serves, start]) _ s
    have idle' : ((controlled s ch ctrl).chan ch).busy = false := by rw [controlled_chan]; exact idle
    have allowed : [ChState.spare, .repair, .failed].contains ((controlled s ch ctrl).chan ch).state = true := by
      rw [controlled_chan]
      rcases may with h | h | h <;> simp [h]
    have effect : tgStartEffect s ch .normal ctrl = (controlled s ch ctrl).modChan ch fun x => { x with busy := true, chkErrors := 0 } := by
      rw [tgStartEffect_normal, if_neg (by simp [idle']), if_neg (by rw [allowed]; decide)]
    refine ⟨_, step.trans (congrArg _ effect), ?_, ?_, ?_, ?_, fun k ne => ?_, rfl⟩
    · rw [State.chan_modChan]
    · rw [State.chan_modChan]
    · rw [State.chan_modChan, controlled_chan]
      simp [bitsOf, Nat.shiftRight_eq_div_pow]
    · rw [State.chan_modChan, controlled_chan]
      simp [bitsOf, Nat.shiftRight_eq_div_pow]
    · rw [State.chan_modChan_ne ne]
      exact State.chan_modChan_ne ne _
  · have step : exec (.tgRunStart ch ⟨.normal, ctrl⟩) s = .next (tgStartEffect s ch .normal ctrl) :=
      occurs_of_true (by simp [okChannel, room, tgCaller, serves, start]) _ s
    have idle' : ((controlled s ch ctrl).chan ch).busy = false := by rw [controlled_chan]; exact idle
    have refused : [ChState.spare, .repair, .failed].contains ((controlled s ch ctrl).chan ch).state = false := by
      rw [controlled_chan]
      rcases mayNot with h | h | h <;> simp [h]
    have effect : tgStartEffect s ch .normal ctrl = (controlled s ch ctrl).modChan ch fun x => { x with refused := true } := by
      rw [tgStartEffect_normal, if_neg (by simp [idle']), if_pos (by rw [refused]; rfl)]
    refine ⟨_, step.trans (congrArg _ effect), ?_, ?_, fun k ne => ?_, rfl⟩
    · rw [State.chan_modChan]
      exact idle'
    · rw [State.chan_modChan]
    · rw [State.chan_modChan_ne ne]
      exact State.chan_modChan_ne ne _
  · have step : exec (.tgStop ⟨ch, ctrl, k, raw⟩) s = .next (controlled (tgEnds s ch k raw) ch ctrl) :=
      (occurs_of_true (by simp [okChannel, room, stop]) _ s).trans
        (congrArg (fun t => Host.Outcome.next (chanWrite t ch 0x010 ctrl 0)) (if_pos busy))
    obtain ⟨idle, done⟩ := tgEnds_ended s ch k raw
    have only : OnlyChan ch s (controlled (tgEnds s ch k raw) ch ctrl) := (onlyChan_tgEnds ..).trans (onlyChan_chanWrite ..)
    obtain ⟨form, others, -⟩ := only
    refine ⟨_, step, ?_, ?_, others, form⟩
    · rw [controlled_chan]
      exact idle
    · rw [controlled_chan]
      exact done
  · have step : exec (.tgRunDone ch raw) s = .next (tgDoneEffect s ch raw) := occurs_of_true (by rw [busy]; simp [okChannel, room]) _ s
    refine ⟨_, step.trans (congrArg _ (tgDoneEffect_writes raw writes)), ?_, ?_, fun r off low high small => ?_⟩
    · rw [State.chan_modChan]
    · rw [State.chan_modChan]
    · exact chanByte_tgWrite rfl served empty0 empty1 first last low high small
  · have step : exec (.tgRunDone ch raw) s = .next (tgDoneEffect s ch raw) := occurs_of_true (by rw [busy]; simp [okChannel, room]) _ s
    have record (errs : List Mismatch) : (tgRecord s ch errs raw).chan ch = _ := State.chan_modChan ..
    refine ⟨_, step.trans (congrArg _ (tgDoneEffect_checks raw checks)), ?_, ?_, ?_, ?_, fun k ne => ?_, rfl⟩
    · rw [State.chan_modChan]
    · rw [State.chan_modChan]
    · rw [State.chan_modChan, record]
      rfl
    · rw [State.chan_modChan, record]
      simp
    · rw [State.chan_modChan_ne ne]
      exact State.chan_modChan_ne ne _

end Sys2Proof.Machine
end

section
/-! SUPPORT. What a sector of HBM reads, when a write has come and when its read issues (R286 to R292), and the statement about it. -/

namespace Sys2Proof.Machine

open Sys2Proof

-- Proofs are checked one at a time: each that waits for its turn would hold a thread's stack.
set_option Elab.async false

variable {s t u : State} {c : Nat}

theorem Tab.erase_of_absent {α : Type} {m : Table α} {k : Nat} (h : Tab.get? m k = none) : Tab.erase m k = m := by
  induction m with
  | nil => rfl
  | cons x m ih =>
    obtain ⟨j, b⟩ := x
    by_cases same : j = k
    · simp [Tab.get?, same] at h
    · rw [Tab.get?, if_neg same] at h
      rw [Tab.erase, if_neg same, ih h]

/-! ## Bytes of a number -/

theorem leNat_bytes (x n : Nat) : leNat ((List.range n).map fun i => BitVec.ofNat 8 (x >>> (8 * i))) = x % 256 ^ n := by
  induction n generalizing x with
  | zero => simp [leNat, Nat.mod_one]
  | succ n ih =>
    have shift (i : Nat) : x >>> (8 * (i + 1)) = (x / 256) >>> (8 * i) := by
      rw [show 8 * (i + 1) = 8 + 8 * i by omega, Nat.shiftRight_add, Nat.shiftRight_eq_div_pow x 8]
    rw [List.range_succ_eq_map, List.map_cons, List.map_map, leNat]
    have tail : ((fun i => BitVec.ofNat 8 (x >>> (8 * i))) ∘ Nat.succ) = fun i => BitVec.ofNat 8 ((x / 256) >>> (8 * i)) :=
      funext fun i => congrArg (BitVec.ofNat 8) (shift i)
    rw [tail, ih, Nat.pow_succ', Nat.mod_mul]
    simp

/-- A sector is the number of its 32 bytes. -/
theorem sector_of_bytes (d : BitVec 256) : BitVec.ofNat 256 (leNat ((List.range 32).map fun i => BitVec.ofNat 8 (d.toNat >>> (8 * i)))) = d := by
  rw [leNat_bytes, show (256 : Nat) ^ 32 = 2 ^ 256 by norm_num, Nat.mod_eq_of_lt d.isLt, BitVec.ofNat_toNat, BitVec.setWidth_eq]

/-! ## What a sector's bytes depend on -/

/-- What of a channel its bytes, and whether they are lost, depend on. -/
def Channel.contents (x : Channel) : ChState × MigPhase × Nat × Bool × List Nat × List QWrite × List QWrite × List Fill :=
  (x.state, x.phase, x.migTarget, x.lostMap, x.rewritten, x.wq0, x.wq1, x.fills)

/-- From s to t no byte of HBM changed, nor where it stands. -/
structure SameContents (s t : State) : Prop where
  form : t = { s with hbm := t.hbm }
  perm : t.hbm.perm = s.hbm.perm
  rt : t.hbm.rt = s.hbm.rt
  cells : t.hbm.cells = s.hbm.cells
  chans : ∀ k, (t.chan k).contents = (s.chan k).contents

namespace SameContents

theorem refl (s : State) : SameContents s s := ⟨rfl, rfl, rfl, rfl, fun _ => rfl⟩

theorem trans (h : SameContents s t) (k : SameContents t u) : SameContents s u where
  form := by
    calc u = { t with hbm := u.hbm } := k.form
      _ = { s with hbm := u.hbm } := by rw [h.form]
  perm := k.perm.trans h.perm
  rt := k.rt.trans h.rt
  cells := k.cells.trans h.cells
  chans n := (k.chans n).trans (h.chans n)

theorem modChan (s : State) (c : Nat) {f : Channel → Channel} (same : ∀ x, (f x).contents = x.contents) : SameContents s (s.modChan c f) where
  form := rfl
  perm := rfl
  rt := rfl
  cells := rfl
  chans k := by
    rw [State.chan_modChan_eq]
    split
    · exact same _
    · rfl

theorem ite {p : Prop} [Decidable p] (h : SameContents s t) (k : SameContents s u) : SameContents s (if p then t else u) := by
  split
  · exact h
  · exact k

variable (h : SameContents s t)
include h

theorem rtFind (p : Nat) : Machine.rtFind t p = Machine.rtFind s p := by rw [Machine.rtFind, Machine.rtFind, h.rt]

theorem redirect (a : Nat) : Machine.redirect t a = Machine.redirect s a := by
  unfold Machine.redirect retireBase activeN
  rw [h.rtFind, h.perm]

theorem mapAddr (a : Nat) : Machine.mapAddr t a = Machine.mapAddr s a := by
  unfold Machine.mapAddr hbmTop activeN
  rw [h.redirect, h.perm]

theorem servedBy (k : Nat) : Machine.servedBy t k = Machine.servedBy s k := by
  have same := h.chans k
  simp only [Channel.contents, Prod.mk.injEq] at same
  simp only [Machine.servedBy, same]

theorem granuleLost (k r : Nat) : Machine.granuleLost t k r = Machine.granuleLost s k r := by
  have same := h.chans k
  simp only [Channel.contents, Prod.mk.injEq] at same
  simp only [Machine.granuleLost, same]

theorem rtLost (a : Nat) : Machine.rtLost t a = Machine.rtLost s a := by simp only [Machine.rtLost, h.rtFind]

theorem objByte (a : Nat) : Machine.objByte t a = Machine.objByte s a := by rw [h.form]; rfl

theorem chanByte (k r off : Nat) : Machine.chanByte t k r off = Machine.chanByte s k r off := by
  have same := h.chans (Machine.servedBy s k)
  simp only [Channel.contents, Prod.mk.injEq] at same
  simp only [Machine.chanByte, h.servedBy, wqOf, same, h.cells]

/-- A sector that is read is read the same where no more symbols are wrong. -/
theorem hbmSector {a : Nat} {d : BitVec 256} (fewer : ∀ k r x, sectorBad s k r x = false → sectorBad t k r x = false)
    (held : hbmSector s a = some d) : Machine.hbmSector t a = some d := by
  unfold Machine.hbmSector at held ⊢
  rw [h.mapAddr]
  split at held
  · cases held
  · next k r off _ =>
    split at held
    · cases held
    · next readable =>
      have readable' : unreadable t a k r off = false := by
        simp only [unreadable, Bool.not_eq_true, Bool.or_eq_false_iff] at readable ⊢
        obtain ⟨⟨lost, gone⟩, bad⟩ := readable
        exact ⟨⟨by rw [h.servedBy, h.granuleLost, lost], by rw [h.rtLost, gone]⟩, by rw [h.servedBy]; exact fewer _ _ _ bad⟩
      rw [readable', if_neg Bool.false_ne_true, ← held]
      simp only [heldByte, h.objByte, h.chanByte]

end SameContents

/-! ## A write of a whole sector -/

/-- What of a channel says whether its granules are lost, and which channel serves. -/
def Channel.places (x : Channel) : ChState × MigPhase × Nat × Bool × List Nat := (x.state, x.phase, x.migTarget, x.lostMap, x.rewritten)

/-- From s to t nothing changed its place in HBM, and no granule was lost. -/
structure SamePlaces (s t : State) : Prop where
  form : t = { s with hbm := t.hbm }
  perm : t.hbm.perm = s.hbm.perm
  rt : t.hbm.rt = s.hbm.rt
  chans : ∀ k, (t.chan k).places = (s.chan k).places

namespace SamePlaces

theorem refl (s : State) : SamePlaces s s := ⟨rfl, rfl, rfl, fun _ => rfl⟩

theorem trans (h : SamePlaces s t) (k : SamePlaces t u) : SamePlaces s u where
  form := by
    calc u = { t with hbm := u.hbm } := k.form
      _ = { s with hbm := u.hbm } := by rw [h.form]
  perm := k.perm.trans h.perm
  rt := k.rt.trans h.rt
  chans n := (k.chans n).trans (h.chans n)

theorem modChan (s : State) (c : Nat) {f : Channel → Channel} (same : ∀ x, (f x).places = x.places) : SamePlaces s (s.modChan c f) where
  form := rfl
  perm := rfl
  rt := rfl
  chans k := by
    rw [State.chan_modChan_eq]
    split
    · exact same _
    · rfl

theorem drainOn (s : State) (c pc : Nat) : SamePlaces s (drainOn s c pc) := by
  refine .trans ⟨drainQueue_frame .., rfl, rfl, fun k => ?_⟩ (.modChan _ c fun x => ?_)
  · rw [drainQueue_chan]
    unfold Channel.dropWrites
    split_ifs <;> rfl
  · unfold Channel.modArb
    split <;> rfl

variable (h : SamePlaces s t)
include h

theorem rtFind (p : Nat) : Machine.rtFind t p = Machine.rtFind s p := by rw [Machine.rtFind, Machine.rtFind, h.rt]

theorem redirect (a : Nat) : Machine.redirect t a = Machine.redirect s a := by
  unfold Machine.redirect retireBase activeN
  rw [h.rtFind, h.perm]

theorem mapAddr (a : Nat) : Machine.mapAddr t a = Machine.mapAddr s a := by
  unfold Machine.mapAddr hbmTop activeN
  rw [h.redirect, h.perm]

theorem servedBy (k : Nat) : Machine.servedBy t k = Machine.servedBy s k := by
  have same := h.chans k
  simp only [Channel.places, Prod.mk.injEq] at same
  simp only [Machine.servedBy, same]

theorem granuleLost (k r : Nat) : Machine.granuleLost t k r = Machine.granuleLost s k r := by
  have same := h.chans k
  simp only [Channel.places, Prod.mk.injEq] at same
  simp only [Machine.granuleLost, same]

theorem rtLost (a : Nat) : Machine.rtLost t a = Machine.rtLost s a := by simp only [Machine.rtLost, h.rtFind]

theorem objByte (a : Nat) : Machine.objByte t a = Machine.objByte s a := by rw [h.form]; rfl

end SamePlaces

/-- A channel with a write of a whole sector in its queue. -/
def Channel.queueing (w : QWrite) (x : Channel) : Channel :=
  let x := if w.sector % 2 = 0 then { x with wq0 := x.wq0 ++ [w] } else { x with wq1 := x.wq1 ++ [w] }
  { x with flips := Tab.erase x.flips (w.granule * 64 + w.sector) }

theorem Channel.queueing_places (w : QWrite) (x : Channel) : (x.queueing w).places = x.places := by
  unfold queueing
  split <;> rfl

theorem Channel.wqOf_queueing (w : QWrite) (x : Channel) : wqOf (x.queueing w) (w.sector % 2) = wqOf x (w.sector % 2) ++ [w] := by
  unfold queueing wqOf
  split <;> rfl

theorem Channel.queueing_flips (w : QWrite) (x : Channel) : (x.queueing w).flips = Tab.erase x.flips (w.granule * 64 + w.sector) := by
  unfold queueing
  split <;> rfl

/-- A write of a whole sector that comes to a channel that is not LOST. -/
theorem enqueueWrite_whole {w : QWrite} (notLost : (s.chan c).state ≠ .lost) (whole : w.mask = BitVec.allOnes 32) :
    enqueueWrite s c w = if 48 ≤ (wqOf (s.chan c) (w.sector % 2)).length + 1 then drainOn (s.modChan c (Channel.queueing w)) c (w.sector % 2)
      else s.modChan c (Channel.queueing w) := by
  have pushed : (s.modChan c fun x => if w.sector % 2 = 0 then { x with wq0 := x.wq0 ++ [w] } else { x with wq1 := x.wq1 ++ [w] }).modChan c
      (fun x => { x with flips := Tab.erase x.flips (w.granule * 64 + w.sector) }) = s.modChan c (Channel.queueing w) :=
    State.modChan_modChan ..
  have length : (wqOf ((s.modChan c (Channel.queueing w)).chan c) (w.sector % 2)).length = (wqOf (s.chan c) (w.sector % 2)).length + 1 := by
    rw [State.chan_modChan, Channel.wqOf_queueing, List.length_append]
    rfl
  unfold enqueueWrite
  rw [if_neg notLost]
  dsimp only
  rw [if_pos whole, pushed, length]

/-- What a write of a whole sector leaves at its channel: the last of its queue, and no wrong symbol (R286). -/
structure Arrived (c : Nat) (w : QWrite) (s t : State) : Prop where
  places : SamePlaces s t
  last : (wqOf (t.chan c) (w.sector % 2)).getLast? = some w
  flips : (t.chan c).flips = Tab.erase (s.chan c).flips (w.granule * 64 + w.sector)
  others : ∀ k, k ≠ c → t.chan k = s.chan k

theorem arrived_queueing (s : State) (c : Nat) (w : QWrite) : Arrived c w s (s.modChan c (Channel.queueing w)) where
  places := .modChan s c (Channel.queueing_places w)
  last := by rw [State.chan_modChan, Channel.wqOf_queueing, List.getLast?_concat]
  flips := by rw [State.chan_modChan, Channel.queueing_flips]
  others _ ne := State.chan_modChan_ne ne _

theorem wqOf_modArb (x : Channel) (pc k : Nat) (f : HbmArb → HbmArb) : wqOf (x.modArb pc f) k = wqOf x k := by
  unfold Channel.modArb
  split <;> rfl

/-- A drain keeps the last write of a queue that is not empty. -/
theorem Arrived.drain {w : QWrite} (h : Arrived c w s t) : Arrived c w s (drainOn t c (w.sector % 2)) := by
  have some_ : (wqOf (t.chan c) (w.sector % 2)).length ≠ 0 := fun none_ => by
    have last := h.last
    rw [List.length_eq_zero_iff.mp none_] at last
    cases last
  unfold Machine.drainOn
  extract_lets x n yields k
  have fewer : k < n := by
    change (if yields then min 8 (n - 16) else n - 16) < n
    have pos : n ≠ 0 := some_
    split <;> omega
  have chan (f : HbmArb → HbmArb) (d : Nat) : ((drainQueue t c (w.sector % 2) k).modChan c fun y => y.modArb (w.sector % 2) f).chan d =
      if d = c then ((t.chan c).dropWrites (w.sector % 2) k).modArb (w.sector % 2) f else t.chan d := by
    rw [State.chan_modChan_eq, drainQueue_chan]
    split
    · next here => rw [here]
    · rfl
  exact {
    places := h.places.trans (.drainOn t c (w.sector % 2))
    last := by
      rw [chan, if_pos rfl, wqOf_modArb, wqOf_dropWrites_same (by omega), List.getLast?_drop, if_neg (show ¬ n ≤ k by omega)]
      exact h.last
    flips := by
      rw [chan, if_pos rfl, ← h.flips]
      unfold Channel.modArb
      split <;> exact Channel.dropWrites_flips ..
    others := fun d ne => by rw [chan, if_neg ne, h.others d ne] }

theorem arrived_enqueueWrite {w : QWrite} (notLost : (s.chan c).state ≠ .lost) (whole : w.mask = BitVec.allOnes 32) :
    Arrived c w s (enqueueWrite s c w) := by
  rw [enqueueWrite_whole notLost whole]
  split
  · exact (arrived_queueing s c w).drain
  · exact arrived_queueing s c w

/-- The same write at its channel once more, or at another (R300). -/
theorem Arrived.mirror {w : QWrite} (h : Arrived c w s t) (k : Nat) (whole : w.mask = BitVec.allOnes 32)
    (gone : Tab.get? (t.chan c).flips (w.granule * 64 + w.sector) = none) :
    SamePlaces s (enqueueWrite t k w) ∧ (wqOf ((enqueueWrite t k w).chan c) (w.sector % 2)).getLast? = some w ∧
      Tab.get? ((enqueueWrite t k w).chan c).flips (w.granule * 64 + w.sector) = none := by
  by_cases lost : (t.chan k).state = .lost
  · rw [show enqueueWrite t k w = t from if_pos lost]
    exact ⟨h.places, h.last, gone⟩
  · have again := arrived_enqueueWrite lost whole
    refine ⟨h.places.trans again.places, ?_⟩
    by_cases here : k = c
    · subst here
      refine ⟨again.last, ?_⟩
      rw [again.flips, Tab.erase_of_absent gone]
      exact gone
    · rw [again.others c (Ne.symm here)]
      exact ⟨h.last, gone⟩

/-- The queued byte of a sector whose last write wrote it whole. -/
theorem queued_of_last {q : List QWrite} {w : QWrite} (last : q.getLast? = some w) (whole : w.mask = BitVec.allOnes 32) {i : Nat} (hi : i < 32)
    (d : Byte) : queued q w.granule w.sector i d = BitVec.ofNat 8 (w.data.toNat >>> (8 * i)) := by
  obtain ⟨l, rfl⟩ := List.getLast?_eq_some_iff.mp last
  unfold queued
  rw [List.reverse_concat, List.find?_cons_of_pos]
  have bit : bitOf (BitVec.allOnes 32).toNat i = true := by
    unfold bitOf
    rw [BitVec.testBit_toNat, BitVec.getLsbD_allOnes]
    exact decide_eq_true hi
  rw [whole, beq_self_eq_true, beq_self_eq_true, bit]
  rfl

/-- The write of a whole sector that a channel takes (R286, R300). -/
def wholeWrite (r off level : Nat) (data : BitVec 256) : QWrite :=
  { granule := r, sector := off / 32, data := data, mask := BitVec.allOnes 32, level := some (writeLevel level) }

theorem hbmPutAt_whole {a r off level : Nat} {data : BitVec 256} (at_ : mapAddr s a = some (c, r, off))
    (notLost : granuleLost s (servedBy s c) r = false) (kept : rtLost s a = false) :
    ∃ k, hbmPutAt s a data (BitVec.allOnes 32) (some (writeLevel level)) = enqueueWrite s (servedBy s c) (wholeWrite r off level data) ∨
      hbmPutAt s a data (BitVec.allOnes 32) (some (writeLevel level)) =
        enqueueWrite (enqueueWrite s (servedBy s c) (wholeWrite r off level data)) k (wholeWrite r off level data) := by
  have present : (s.chan (servedBy s c)).state ≠ .lost := fun lost => by simp [granuleLost, lost] at notLost
  have arrived : Arrived (servedBy s c) (wholeWrite r off level data) s (enqueueWrite s (servedBy s c) (wholeWrite r off level data)) :=
    arrived_enqueueWrite present rfl
  have unnoted : noteWritten (enqueueWrite s (servedBy s c) (wholeWrite r off level data)) a (servedBy s c) r (off / 32) (BitVec.allOnes 32) =
      enqueueWrite s (servedBy s c) (wholeWrite r off level data) := by
    refine if_neg ?_
    rw [arrived.places.rtLost, arrived.places.granuleLost, notLost, kept]
    simp
  unfold hbmPutAt
  rw [at_]
  dsimp only
  split
  · exact ⟨_, .inr (congrArg (fun t => enqueueWrite t _ (wholeWrite r off level data)) unnoted)⟩
  · exact ⟨0, .inl unnoted⟩

/-- A sector that was written whole reads back. -/
theorem hbmSector_of_last {a r off level : Nat} {data : BitVec 256} (at_ : mapAddr t a = some (c, r, off)) (start : a % 32 = 0)
    (free : ∀ i, i < 32 → objByte t (a + i) = none) (notLost : granuleLost t (servedBy t c) r = false) (kept : rtLost t a = false)
    (last : (wqOf (t.chan (servedBy t c)) (off / 32 % 2)).getLast? = some (wholeWrite r off level data))
    (right : Tab.get? (t.chan (servedBy t c)).flips (r * 64 + off / 32) = none) : hbmSector t a = some data := by
  have readable : unreadable t a c r off = false := by
    simp [unreadable, notLost, kept, sectorBad, Tab.getD, right]
  unfold hbmSector
  rw [at_]
  dsimp only
  rw [readable, if_neg Bool.false_ne_true]
  refine congrArg some (Eq.trans ?_ (sector_of_bytes data))
  refine congrArg (fun l => BitVec.ofNat 256 (leNat l)) (List.map_congr_left fun i hi => ?_)
  have small : i < 32 := List.mem_range.mp hi
  have here : a / 32 * 32 + i = a + i := by omega
  have sector : (off / 32 * 32 + i) / 32 = off / 32 := by omega
  have byte : (off / 32 * 32 + i) % 32 = i := by omega
  rw [heldByte, here, free i small, Option.getD_none, chanByte_of_serves rfl, sector, byte]
  exact queued_of_last last rfl small _

/-- What was written whole reads back (R286). -/
theorem hbmSector_hbmPutAt {a r off level : Nat} {data : BitVec 256} (at_ : mapAddr s a = some (c, r, off)) (start : a % 32 = 0)
    (free : ∀ i, i < 32 → objByte s (a + i) = none) (notLost : granuleLost s (servedBy s c) r = false) (kept : rtLost s a = false)
    (wf : Tab.wf (s.chan (servedBy s c)).flips = true) :
    hbmSector (hbmPutAt s a data (BitVec.allOnes 32) (some (writeLevel level))) a = some data := by
  have present : (s.chan (servedBy s c)).state ≠ .lost := fun lost => by simp [granuleLost, lost] at notLost
  have arrived : Arrived (servedBy s c) (wholeWrite r off level data) s (enqueueWrite s (servedBy s c) (wholeWrite r off level data)) :=
    arrived_enqueueWrite present rfl
  have gone : Tab.get? ((enqueueWrite s (servedBy s c) (wholeWrite r off level data)).chan (servedBy s c)).flips (r * 64 + off / 32) = none := by
    rw [arrived.flips]
    exact Tab.get?_erase_self wf _
  have reads (t : State) (places : SamePlaces s t)
      (last : (wqOf (t.chan (servedBy s c)) (off / 32 % 2)).getLast? = some (wholeWrite r off level data))
      (right : Tab.get? (t.chan (servedBy s c)).flips (r * 64 + off / 32) = none) : hbmSector t a = some data := by
    rw [← places.servedBy] at last right
    exact hbmSector_of_last ((places.mapAddr a).trans at_) start (fun i hi => (places.objByte _).trans (free i hi))
      (by rw [places.servedBy, places.granuleLost, notLost]) (by rw [places.rtLost, kept]) last right
  obtain ⟨k, put | put⟩ := hbmPutAt_whole (level := level) (data := data) at_ notLost kept
  · rw [put]
    exact reads _ arrived.places arrived.last gone
  · obtain ⟨places, last, right⟩ := arrived.mirror k rfl gone
    rw [put]
    exact reads _ places last right

/-! ## A read whose turn it is -/

/-- From s to t only the arbiters of a channel changed, and no queue began to drain. -/
structure OnlyArbs (c : Nat) (s t : State) : Prop where
  same : SameContents s t
  others : ∀ k, k ≠ c → t.chan k = s.chan k
  flips : (t.chan c).flips = (s.chan c).flips
  corrected : (t.chan c).eccCorrected = (s.chan c).eccCorrected
  draining : ∀ pc, (arbOf (t.chan c) pc).draining = (arbOf (s.chan c) pc).draining

theorem OnlyArbs.refl (c : Nat) (s : State) : OnlyArbs c s s := ⟨.refl s, fun _ _ => rfl, rfl, rfl, fun _ => rfl⟩

theorem OnlyArbs.trans (h : OnlyArbs c s t) (k : OnlyArbs c t u) : OnlyArbs c s u where
  same := h.same.trans k.same
  others n ne := (k.others n ne).trans (h.others n ne)
  flips := k.flips.trans h.flips
  corrected := k.corrected.trans h.corrected
  draining pc := (k.draining pc).trans (h.draining pc)

theorem onlyArbs_modArb (s : State) (c pc : Nat) {f : HbmArb → HbmArb} (keeps : ∀ q, (f q).draining = q.draining) :
    OnlyArbs c s (s.modChan c fun x => x.modArb pc f) where
  same := .modChan s c fun x => by unfold Channel.modArb; split <;> rfl
  others _ ne := State.chan_modChan_ne ne _
  flips := by rw [State.chan_modChan, Channel.modArb]; split <;> rfl
  corrected := by rw [State.chan_modChan, Channel.modArb]; split <;> rfl
  draining k := by
    rw [State.chan_modChan, Channel.modArb]
    unfold arbOf
    split <;> split <;> simp_all

theorem arbOf_modArb (x : Channel) {pc : Nat} (f : HbmArb → HbmArb) : arbOf (x.modArb pc f) pc = f (arbOf x pc) := by
  unfold Channel.modArb arbOf
  split <;> rfl

/-- A read that comes. -/
def comes (s : State) (c pc a level : Nat) : State :=
  if (arbOf (s.chan c) pc).reads.any fun q => q.addr == a && q.level == level then s
  else s.modChan c fun x => x.modArb pc fun q => { q with reads := q.reads ++ [⟨a, level, s.time⟩] }

theorem arrive_nil {a pc level : Nat} (port : hbmPort s a = some (c, pc)) : Machine.arrive s a level [] = comes s c pc a level := by
  unfold Machine.arrive comes queueRead
  rw [List.foldl_nil]
  dsimp only
  rw [port]

theorem onlyArbs_comes (s : State) (c pc a level : Nat) : OnlyArbs c s (comes s c pc a level) := by
  unfold comes
  split
  · exact .refl c s
  · exact onlyArbs_modArb s c pc fun _ => rfl

theorem comes_reads (s : State) (c pc a level : Nat) : (arbOf ((comes s c pc a level).chan c) pc).reads =
    if (arbOf (s.chan c) pc).reads.any fun q => q.addr == a && q.level == level then (arbOf (s.chan c) pc).reads
    else (arbOf (s.chan c) pc).reads ++ [⟨a, level, s.time⟩] := by
  unfold comes
  split
  · rfl
  · rw [State.chan_modChan, arbOf_modArb]

/-- A read that issues while no drain of its queue waits. -/
theorem onlyArbs_issueRead {a pc level : Nat} (port : hbmPort s a = some (c, pc)) (still : (arbOf (s.chan c) pc).draining = false) :
    OnlyArbs c s (issueRead s a level) := by
  unfold issueRead
  split
  · next k p b row port' _ =>
    obtain ⟨rfl, rfl⟩ : k = c ∧ p = pc := by simpa [port] using port'.symm
    extract_lets turns s₁
    have only : OnlyArbs k s s₁ := onlyArbs_modArb s k p fun _ => rfl
    rw [if_neg (by rw [only.draining, still]; decide)]
    exact only
  · exact .refl c s

theorem OnlyArbs.port (h : OnlyArbs c s t) (a : Nat) : hbmPort t a = hbmPort s a := by
  unfold hbmPort
  rw [h.same.mapAddr]
  simp only [h.same.servedBy]

theorem OnlyArbs.flipsAll (h : OnlyArbs c s t) (k : Nat) : (t.chan k).flips = (s.chan k).flips := by
  by_cases here : k = c
  · rw [here, h.flips]
  · rw [h.others k here]

/-- A level-0 read that waits is the next (R286). -/
theorem readIssues_of_urgent {a pc level : Nat} (port : hbmPort s a = some (c, pc)) (later : level ≠ 0)
    (urgent : ∃ q ∈ (arbOf (s.chan c) pc).reads, q.level = 0) : readIssues s a level = false := by
  unfold readIssues
  rw [port]
  dsimp only
  obtain ⟨q, mem, zero⟩ := urgent
  cases first : (arbOf (s.chan c) pc).reads.find? fun r => r.level == 0 with
  | none => exact absurd (List.find?_eq_none.mp first q mem) (by simp [zero])
  | some r =>
    have level0 : r.level = 0 := by simpa using List.find?_some first
    simp [readNext, first, level0, later.symm]

/-- The only level that waits has its turn, whatever turns are left. -/
theorem pickTurn_only {waits : Nat → Bool} {level : Nat} (low : 1 ≤ level ∧ level ≤ 3) (only : ∀ l, waits l = (l == level)) (turns : List Nat) :
    ∃ t, pickTurn waits turns = some (level, t) := by
  unfold pickTurn
  dsimp only
  split
  · next x h =>
    obtain ⟨l, found, rfl⟩ := Option.map_eq_some_iff.mp h
    have here : l = level := by
      have waiting := List.find?_some found
      rw [Bool.and_eq_true, only, beq_iff_eq] at waiting
      exact waiting.1
    exact ⟨_, by rw [here]⟩
  · obtain rfl | rfl | rfl : level = 1 ∨ level = 2 ∨ level = 3 := by omega
    all_goals simp [only]

theorem levelNext_only {q : HbmArb} {r : HbmReq} (only : q.reads = [r]) : levelNext s q r.level = some r := by
  unfold levelNext
  rw [only]
  simp only [List.filter_cons, beq_self_eq_true, if_true, List.filter_nil, List.find?_singleton]
  by_cases old : r.time + 2000 < s.time
  · simp [old]
  · by_cases hit : rowHit s q r = true <;> simp [old, hit]

/-- The only read of a queue has its turn (R286). -/
theorem readIssues_of_only {a pc : Nat} (port : hbmPort s a = some (c, pc)) {r : HbmReq} (low : r.level < 4)
    (only : (arbOf (s.chan c) pc).reads = [r]) (addr : r.addr = a) : readIssues s a r.level = true := by
  have next : ∃ t, readNext s (arbOf (s.chan c) pc) = some (r, t) := by
    unfold readNext
    rw [only, List.find?_singleton]
    by_cases zero : r.level = 0
    · exact ⟨_, by rw [if_pos (by simpa using zero)]⟩
    · obtain ⟨t, turn⟩ := pickTurn_only (waits := fun l => [r].any fun r => r.level == l) (level := r.level) (by omega)
        (fun l => by simp [eq_comm]) (arbOf (s.chan c) pc).turns
      refine ⟨t, ?_⟩
      rw [if_neg (by simpa using zero)]
      dsimp only
      rw [levelTurn, only, turn]
      dsimp only
      rw [levelNext_only only]
      rfl
  obtain ⟨t, next⟩ := next
  unfold readIssues
  rw [port]
  dsimp only
  rw [next]
  simp [addr]

/-! ## What a read returns -/

/-- A read of a sector that is not lost (R290). -/
theorem hbmReadEffect_eq {a r off : Nat} (since : List Nat) (at_ : mapAddr s a = some (c, r, off)) (notLost : granuleLost s (servedBy s c) r = false)
    (kept : rtLost s a = false) : hbmReadEffect s a since =
      if (eccRead s (servedBy s c) r (off / 32) since).2 then
        (eccRead s (servedBy s c) r (off / 32) since).1.modHbm fun h =>
          { h with returned := hbmSector (eccRead s (servedBy s c) r (off / 32) since).1 a }
      else (retireLost (sectorFails (eccRead s (servedBy s c) r (off / 32) since).1 a) a).modHbm fun h => { h with returned := none } := by
  unfold hbmReadEffect
  rw [at_]
  dsimp only
  rw [notLost, kept]
  rfl

theorem sameContents_countCorrected (s : State) (c r sector lane : Nat) : SameContents s (countCorrected s c r sector lane) :=
  .modChan s c fun _ => rfl

/-- A corrected sector has no wrong symbol, and no other has more (R290). -/
theorem sectorBad_countCorrected {r sector lane : Nat} (wf : Tab.wf (s.chan c).flips = true) (k g x : Nat) (ok : sectorBad s k g x = false) :
    sectorBad (countCorrected s c r sector lane) k g x = false := by
  unfold countCorrected
  unfold sectorBad at ok ⊢
  rw [State.chan_modChan_eq]
  split
  · next here =>
    subst here
    dsimp only
    by_cases same : g * 64 + x = r * 64 + sector
    · rw [same, Tab.getD, Tab.get?_erase_self wf]
      rfl
    · rw [Tab.getD, Tab.get?_erase_ne _ same]
      exact ok
  · exact ok

/-- Settles O19, by the write or the read of a sector. -/
theorem hbmReadsWhatWasWritten : Obligations.HbmReadsWhatWasWritten := by
  intro addr level c r off s up isOpen inHbm start low at_ notLost kept wf
  have port : hbmPort s addr = some (servedBy s c, off / 32 % 2) := by rw [hbmPort, at_]; rfl
  have present : onLost s addr = false := by
    rw [onLost, at_]
    simp only [granuleLost, Bool.or_eq_false_iff] at notLost
    exact notLost.1
  have arrives := arrive_nil (level := level) port
  refine ⟨fun data free => ?_, fun none_ => ?_, fun wrong later urgent => ?_, fun wrong issues still => ?_⟩
  · have step : exec (.hbmWrite addr level data (BitVec.allOnes 32)) s = .next (hbmPutAt s addr data (BitVec.allOnes 32) (some (writeLevel level))) :=
      (occurs_of_true (by rw [up, isOpen, inHbm]; simp [Machine.aligned, start, okLevel, low]) _ s).trans (by rw [present]; rfl)
    exact ⟨_, step, hbmSector_hbmPutAt at_ start free notLost kept wf, changes_hbmPutAt ..⟩
  · rw [arrives]
    refine readIssues_of_only (r := ⟨addr, level, s.time⟩) ((onlyArbs_comes ..).port addr |>.trans port) low ?_ rfl
    rw [comes_reads, none_]
    rfl
  · refine occurs_of_false ?_ _ s
    have waits : readIssues (Machine.arrive s addr level []) addr level = false := by
      rw [arrives]
      refine readIssues_of_urgent ((onlyArbs_comes ..).port addr |>.trans port) later ?_
      obtain ⟨q, mem, zero⟩ := urgent
      rw [comes_reads]
      split
      · exact ⟨q, mem, zero⟩
      · exact ⟨q, List.mem_append_left _ mem, zero⟩
    rw [waits, Bool.and_false]
  · have step : exec (.hbmRead addr level ⟨wrong, []⟩) s =
        .next (hbmReadEffect (issueRead (comes s (servedBy s c) (off / 32 % 2) addr level) addr level) addr wrong) := by
      rw [← arrives]
      exact occurs_of_true (by rw [issues, up, isOpen, inHbm]; simp [Machine.aligned, start, okLevel, low]) _ s
    have came : OnlyArbs (servedBy s c) s (comes s (servedBy s c) (off / 32 % 2) addr level) := onlyArbs_comes ..
    have issued : OnlyArbs (servedBy s c) s (issueRead (comes s (servedBy s c) (off / 32 % 2) addr level) addr level) :=
      came.trans (onlyArbs_issueRead ((came.port addr).trans port) ((came.draining _).trans still))
    generalize issueRead (comes s (servedBy s c) (off / 32 % 2) addr level) addr level = u at *
    have wrongs : wrongSymbols u (servedBy s c) r (off / 32) wrong = wrongSymbols s (servedBy s c) r (off / 32) wrong := by
      simp only [wrongSymbols, issued.flips]
    have effect := hbmReadEffect_eq wrong ((issued.same.mapAddr addr).trans at_) (by rw [issued.same.servedBy, issued.same.granuleLost, notLost])
      (by rw [issued.same.rtLost, kept])
    rw [issued.same.servedBy] at effect
    refine ⟨fun d held right => ?_, fun d lane held one => ?_, fun many => ?_⟩
    · have read : hbmReadEffect u addr wrong = u.modHbm fun h => { h with returned := some d } := by
        rw [effect, eccRead_right (wrongs.trans right)]
        rw [if_pos rfl, issued.same.hbmSector (fun k r x ok => by rw [sectorBad, issued.flipsAll]; exact ok) held]
      exact ⟨_, step.trans (congrArg _ read), rfl, issued.corrected, issued.others, by rw [issued.same.form]; rfl⟩
    · have counted := sameContents_countCorrected u (servedBy s c) r (off / 32) lane
      have flips : Tab.wf (u.chan (servedBy s c)).flips = true := by rw [issued.flips]; exact wf
      have read : hbmReadEffect u addr wrong = (countCorrected u (servedBy s c) r (off / 32) lane).modHbm fun h => { h with returned := some d } := by
        rw [effect, eccRead_one (wrongs.trans one), if_pos rfl, (issued.same.trans counted).hbmSector (fun k r x ok => ?_) held]
        exact sectorBad_countCorrected flips k r x (by rw [sectorBad, issued.flipsAll]; exact ok)
      have chan := countCorrected_chan u (servedBy s c) r (off / 32) lane
      refine ⟨_, step.trans (congrArg _ read), rfl, ?_, ?_, fun k ne => ?_, ?_⟩
      · rw [← issued.corrected]
        exact congrArg Channel.eccCorrected chan
      · exact (congrArg (fun x : Channel => Tab.get? x.flips (r * 64 + off / 32)) chan).trans (Tab.get?_erase_self flips _)
      · have other : (countCorrected u (servedBy s c) r (off / 32) lane).chan k = u.chan k := State.chan_modChan_ne ne _
        exact other.trans (issued.others k ne)
      · have form := (issued.same.trans counted).form
        generalize countCorrected u (servedBy s c) r (off / 32) lane = v at *
        rw [form]
        rfl
    · have bad : (eccRead u (servedBy s c) r (off / 32) wrong).2 = false := by
        rw [← wrongs] at many
        unfold eccRead
        split
        · next none_ => rw [none_] at many; exact absurd many (by decide)
        · next l one => rw [one] at many; exact absurd many (by simp)
        · rfl
      exact ⟨_, step, by rw [effect, bad]; rfl⟩

end Sys2Proof.Machine
end

section
/-! SUPPORT. How a command that completes here is decided (R494, R499): it keeps all but its stage, its completion and its result, and no other
command changes. -/

namespace Sys2Proof.Machine

open Sys2Proof

-- Proofs are checked one at a time: each that waits for its turn would hold a thread's stack.
set_option Elab.async false

variable {s t : State} {n : Nat} {x : Cmd}

/-- A command that is decided. -/
def Cmd.decided (x : Cmd) (k : Completion) (res : List Byte) : Cmd :=
  { x with stage := .decided, completion := some k, result := res, word := .committing }

/-- A completion that stands for another: its status, its words and its epoch are the same (R494). -/
def Completion.Means (k k' : Completion) : Prop := k.status = k'.status ∧ k.dw2 = k'.dw2 ∧ k.dw3 = k'.dw3 ∧ k.epoch = k'.epoch

theorem Completion.Means.trans {k k' k'' : Completion} (h : k.Means k') (h' : k'.Means k'') : k.Means k'' := by
  obtain ⟨status, dw2, dw3, epoch⟩ := h
  obtain ⟨status', dw2', dw3', epoch'⟩ := h'
  exact ⟨status.trans status', dw2.trans dw2', dw3.trans dw3', epoch.trans epoch'⟩

theorem logStatus_means (s : State) (c : Cmd) (k : Completion) (z : Cause) : (logStatus s c k z).2.Means k := by
  unfold logStatus
  split
  · dsimp only
    split <;> exact ⟨rfl, rfl, rfl, rfl⟩
  · exact ⟨rfl, rfl, rfl, rfl⟩

/-- The parts that a decision of a command from a submission queue changes, the staging space of its collection apart. -/
abbrev decidingParts : List Part := [.cmds, .batches, .runs, .net, .logs, .port0, .port1]

theorem deliver_of_sq {p : PortId} {q : Nat} (origin : x.origin = .sq p q) (here : x.detached = false) (k : Completion) (res : List Byte) :
    deliver s n x k res = (if freezes k.status then freezeQueue s p q (statusCode k.status) (eTag x.entry) else s).modCmd n fun c =>
      c.decided k res := by
  unfold deliver
  rw [here, if_neg Bool.false_ne_true, origin]
  rfl

/-- What is left of a command's part in batches, runs and shards when it is decided (R514). -/
def leftWork (s : State) (n : Nat) (x : Cmd) : State := dropRuns (leaveBatches (cancelShards s n x) n) n

theorem changes_leftWork (s : State) (n : Nat) (x : Cmd) : Changes [.net, .batches, .runs] s (leftWork s n x) :=
  ((show Changes [.net, .batches, .runs] s _ from (changes_cancelShards ..).mono (by decide)).andThen (changes_leaveBatches ..)).andThen
    (changes_dropRuns ..)

/-- What a decided command with a status gives up: its place in staging where the status is an error (R168). -/
def givenUp (s : State) (n : Nat) (x : Cmd) (st : Status) : State :=
  if informational st then leftWork s n x else releaseStaging (leftWork s n x) n x

theorem decide_eq (u : s.undecided n x) (k : Completion) (res : List Byte) (unit : Nat) (z : Cause)
    (fits : ¬ (informational k.status = true ∧ outBufLen (outBuf s x) < k.resultLength ∧
      ¬ ((eOpcode x.entry = 2 ∨ eOpcode x.entry = 3) ∧ eOutLen x.entry = 0))) :
    ∃ k' res', k'.Means k ∧ (res = [] → res' = []) ∧
      decide_ s n k res unit z = deliver (logStatus (givenUp s n x k.status) x k' z).1 n x (logStatus (givenUp s n x k.status) x k' z).2 res' := by
  obtain ⟨held, -, -, none_, open_, alone, -⟩ := u
  have first : firstError x k = k := by rw [firstError, none_]
  unfold decide_
  rw [held]
  dsimp only
  rw [if_neg open_, alone, List.isEmpty_nil, Bool.not_true, Bool.and_false, if_neg Bool.false_ne_true, first]
  generalize cut : (if (eOpcode x.entry = 2 ∨ eOpcode x.entry = 3) ∧ eOutLen x.entry = 0 then { k with resultLength := 0 }
    else truncateTo (outBufLen (outBuf s x)) k) = k₂
  have means : k₂.Means k := by
    subst cut
    split
    · exact ⟨rfl, rfl, rfl, rfl⟩
    · next other =>
      rw [truncateTo, if_neg (by simpa using fun info short => fits ⟨info, short, other⟩)]
      exact ⟨rfl, rfl, rfl, rfl⟩
  refine ⟨{ k₂ with clipped := x.clipped }, if informational k₂.status then clipResult (outBufLen (outBuf s x)) unit res else [], means, ?_, ?_⟩
  · rintro rfl
    rw [clipResult, List.take_nil, ite_self]
  · rw [givenUp, ← means.1]
    rfl

theorem changes_givenUp (s : State) (n : Nat) (x : Cmd) (st : Status) : Changes [.net, .batches, .runs, .colls] s (givenUp s n x st) := by
  have left : Changes [.net, .batches, .runs, .colls] s (leftWork s n x) := (changes_leftWork ..).mono (by decide)
  exact .ite left (left.andThen (changes_releaseStaging ..))

theorem givenUp_colls (s : State) (n : Nat) (x : Cmd) (st : Status) :
    (givenUp s n x st).colls = if informational st then s.colls else (releaseStaging s n x).colls := by
  have same : (leftWork s n x).colls = s.colls := (changes_leftWork s n x).same fun s => s.colls
  unfold givenUp
  split
  · exact same
  · exact congrArg (Tab.adjust · (eIndex x.entry) _) same

/-- A command that completes here is decided, and nothing else of it changes; no other command does. -/
theorem decide_of_undecided (u : s.undecided n x) (k : Completion) (res : List Byte) (unit : Nat) (z : Cause)
    (fits : ¬ (informational k.status = true ∧ outBufLen (outBuf s x) < k.resultLength ∧
      ¬ ((eOpcode x.entry = 2 ∨ eOpcode x.entry = 3) ∧ eOutLen x.entry = 0))) (ht : decide_ s n k res unit z = t) :
    (∃ k' res', k'.Means k ∧ (res = [] → res' = []) ∧ t.cmd? n = some (x.decided k' res')) ∧ (∀ m, m ≠ n → t.cmd? m = s.cmd? m) ∧
      t.colls = (if informational k.status then s.colls else (releaseStaging s n x).colls) ∧ Changes (.colls :: decidingParts) s t := by
  obtain ⟨k', res', means, empty, eq⟩ := decide_eq u k res unit z fits
  obtain ⟨held, ⟨p, q, origin⟩, here, -⟩ := u
  rw [deliver_of_sq origin here] at eq
  have given := changes_givenUp s n x k.status
  have colls := givenUp_colls s n x k.status
  generalize givenUp s n x k.status = s₁ at *
  have logged := changes_logStatus s₁ x k' z
  have meansL := logStatus_means s₁ x k' z
  generalize (logStatus s₁ x k' z).1 = s₂ at *
  generalize (logStatus s₁ x k' z).2 = k₂ at *
  have frozen : Changes [.logs, .port0, .port1] s₂ (if freezes k₂.status then freezeQueue s₂ p q (statusCode k₂.status) (eTag x.entry) else s₂) :=
    .ite (changes_freezeQueue ..) (.refl _ s₂)
  generalize (if freezes k₂.status then freezeQueue s₂ p q (statusCode k₂.status) (eTag x.entry) else s₂) = s₃ at *
  have before : Changes [.net, .batches, .runs, .colls, .logs, .port0, .port1] s s₃ :=
    ((show Changes [.net, .batches, .runs, .colls, .logs, .port0, .port1] s s₁ from given.mono (by decide)).andThen logged).andThen frozen
  have cmds : s₃.cmds = s.cmds := before.same fun s => s.cmds
  have cmd (m : Nat) : t.cmd? m = if m = n then (s.cmd? n).map fun c => c.decided k₂ res' else s.cmd? m := by
    rw [← ht, eq]
    change Tab.get? (Tab.adjust s₃.cmds n _) m = _
    rw [Tab.get?_adjust, cmds]
    rfl
  refine ⟨⟨k₂, res', meansL.trans means, empty, ?_⟩, fun m ne => ?_, ?_, ?_⟩
  · rw [cmd, if_pos rfl, held]
    rfl
  · rw [cmd, if_neg ne]
  · rw [← ht, eq, ← colls]
    exact (logged.trans frozen).same fun s => s.colls
  · rw [← ht, eq]
    exact (show Changes (.colls :: decidingParts) s s₃ from before.mono (by decide)).modCmd _ _

/-- A command that succeeds without a result. -/
theorem succeed_of_undecided (u : s.undecided n x) {k : Completion} (st : k.status = .success) (bare : k.resultLength = 0) (ht : succeed s n k = t) :
    (∃ k', k'.Means k ∧ t.cmd? n = some (x.decided k' [])) ∧ (∀ m, m ≠ n → t.cmd? m = s.cmd? m) ∧ t.colls = s.colls ∧
      Changes decidingParts s t := by
  obtain ⟨⟨k', res', means, empty, at_⟩, others, colls, changes⟩ := decide_of_undecided u k [] 1 {} (by rw [bare]; omega) ht
  have same : t.colls = s.colls := by
    rw [colls, st]
    rfl
  refine ⟨⟨k', means, by rw [at_, empty rfl]⟩, others, same, ?_⟩
  calc t = State.take (.colls :: decidingParts) s t := changes
    _ = { State.take decidingParts s t with colls := t.colls } := rfl
    _ = State.take decidingParts s t := by rw [same]; rfl

/-- A command that fails with an error. -/
theorem fail_of_undecided (u : s.undecided n x) (st : Status) (z : Cause) (error : informational st = false) (ht : fail s n st z = t) :
    (∃ k', k'.status = st ∧ k'.dw2 = 0 ∧ (isMutation (eOpcode x.entry) = false → k'.dw3 = 0) ∧ t.cmd? n = some (x.decided k' [])) ∧
      (∀ m, m ≠ n → t.cmd? m = s.cmd? m) ∧ t.colls = (releaseStaging s n x).colls ∧ Changes (.colls :: decidingParts) s t := by
  obtain ⟨held, -⟩ := id u
  unfold fail at ht
  rw [held] at ht
  generalize given : (if isMutation (eOpcode x.entry) = true then
      { (if isReader (eOpcode x.entry) = true then { { status := st : Completion } with epoch := x.snapshot.getD 0 } else { status := st }) with dw3 := 0xFFFFFFFF }
    else (if isReader (eOpcode x.entry) = true then { { status := st : Completion } with epoch := x.snapshot.getD 0 } else { status := st })) = k at *
  have status : k.status = st := by subst given; split_ifs <;> rfl
  have dw2 : k.dw2 = 0 := by subst given; split_ifs <;> rfl
  have dw3 (reads : isMutation (eOpcode x.entry) = false) : k.dw3 = 0 := by
    subst given
    rw [if_neg (by simp [reads])]
    split_ifs <;> rfl
  obtain ⟨⟨k', res', means, empty, at_⟩, others, colls, changes⟩ := decide_of_undecided u k [] 1 z (by rw [status, error]; simp)
    (show decide_ s n k [] 1 z = t by rw [← given]; exact ht)
  obtain ⟨status', dw2', dw3', -⟩ := means
  refine ⟨⟨k', status'.trans status, dw2'.trans dw2, fun reads => dw3'.trans (dw3 reads), by rw [at_, empty rfl]⟩, others, ?_, changes⟩
  rw [colls, status, error]
  rfl

theorem State.decidedAs_of {k : Completion} {st : Status} {dw2 dw3 : Nat} {res : List Byte} (at_ : t.cmd? n = some (x.decided k res))
    (status : k.status = st) (two : k.dw2 = dw2) (three : k.dw3 = dw3) : t.decidedAs n st dw2 dw3 :=
  ⟨_, k, at_, rfl, rfl, status, two, three⟩

end Sys2Proof.Machine
end

section
/-! SUPPORT. Places of tiles: what a reservation leaves alone, and where the tiles of a switch lie (R402, R405); the statement about moves. -/

namespace Sys2Proof.Machine

open Sys2Proof

-- Proofs are checked one at a time: each that waits for its turn would hold a thread's stack.
set_option Elab.async false

variable {s t u : State} {n i target : Nat} {x : Cmd}

/-! ## Reservations -/

theorem changes_takeT4 {ok : Nat → Bool} {k : Nat} (h : takeT4 s ok = some (k, t)) : Changes [.flash] s t := by
  unfold takeT4 at h
  split at h
  · cases h
    rfl
  · cases h

theorem changes_reserveOne {taken : List Nat} {k place : Nat} {b : Option Nat} (h : reserveOne s taken target k = some (place, b, t)) :
    Changes [.protect, .flash] s t := by
  have flash {ok : Nat → Bool} {j : Nat} {u : State} (took : takeT4 s ok = some (j, u)) : Changes [.protect, .flash] s u :=
    (changes_takeT4 took).mono (by decide)
  have taking {ok : Nat → Bool} {f : Nat × State → Nat × Option Nat × State} (same : ∀ y, (f y).2.2 = y.2)
      (took : (takeT4 s ok).map f = some (place, b, t)) : Changes [.protect, .flash] s t := by
    obtain ⟨⟨j, u⟩, tookU, eq⟩ := Option.map_eq_some_iff.mp took
    obtain rfl : u = t := (same (j, u)).symm.trans (congrArg (·.2.2) eq)
    exact flash tookU
  unfold reserveOne at h
  dsimp only at h
  split at h
  · obtain ⟨⟨p, u⟩, took, eq⟩ := Option.map_eq_some_iff.mp h
    cases eq
    exact (changes_takePages took).mono (by decide)
  · split at h
    · split at h
      · cases h
      · split at h
        · cases h
          exact .refl _ s
        · exact taking (fun _ => rfl) h
    · split at h
      · cases h
        exact .refl _ s
      · exact taking (fun _ => rfl) h

/-- A reservation has a place for each tile, and takes only space. -/
theorem reserveAll_spec {ts ps : List Nat} {bs : List (Option Nat)} {taken : List Nat} (h : reserveAll target ts s taken = some (ps, bs, t)) :
    ps.length = ts.length ∧ bs.length = ts.length ∧ Changes [.protect, .flash] s t := by
  induction ts generalizing s taken ps bs with
  | nil =>
    cases h
    exact ⟨rfl, rfl, .refl _ _⟩
  | cons k ts ih =>
    unfold reserveAll at h
    split at h
    · cases h
    · next place b u one =>
      split at h
      · cases h
      · next ls cs v rest =>
        cases h
        obtain ⟨places, backs, changes⟩ := ih rest
        exact ⟨by simp [places], by simp [backs], (changes_reserveOne one).trans changes⟩

theorem reserveTiles_spec {ts ps : List Nat} {bs : List (Option Nat)} (h : reserveTiles s target ts = some (ps, bs, t)) :
    ps.length = ts.length ∧ bs.length = ts.length ∧ Changes [.protect, .flash] s t := by
  unfold reserveTiles at h
  dsimp only at h
  split at h
  · cases h
  · exact reserveAll_spec h

theorem changes_freeMove (s : State) (x : Cmd) : Changes [.protect, .flash] s (freeMove s x) := by
  have freed : Changes [.protect, .flash] s ((x.work.backing.filterMap id).foldl freeT4 s) :=
    .foldl (fun s t => (changes_freeT4 s t).mono (by decide)) _ s
  exact .ite (freed.trans (.foldl (fun s p => (changes_givePages s _ _).mono (by decide)) _ _)) freed

/-! ## Switches -/

theorem tile_setTile (s : State) (k j : Nat) (e : TileEntry) : (setTile s k e).tile j = if j = k then e else s.tile j := by
  change Tab.getD (Tab.set s.tiers.map k e) j {} = _
  unfold Tab.getD State.tile
  split
  · next here => rw [here, Tab.get?_set_self]; rfl
  · next other => rw [Tab.get?_set_ne _ _ other]; rfl

theorem changes_leaveCopy (s : State) (e : TileEntry) (holders : List Nat) : Changes [.protect, .tiers] s (leaveCopy s e holders) :=
  .ite ((changes_givePages ..).mono (by decide)) (.ite ((Changes.refl _ s).modTiers _) (.refl _ s))

theorem map_leaveCopy (s : State) (e : TileEntry) (holders : List Nat) : (leaveCopy s e holders).tiers.map = s.tiers.map := by
  unfold leaveCopy
  split_ifs <;> rfl

theorem changes_queueT4 (s : State) (ts : List Nat) : Changes [.flash] s (queueT4 s ts) := rfl

/-- The parts that a switch of tiles changes. -/
abbrev switchParts : List Part := [.protect, .tiers, .flash]

/-- A tile that switches lies in the target tier, and no other moved. -/
theorem switchTile_spec (tier : target = 2 ∨ target = 3 ∨ target = 4) (s : State) (holders : List Nat) (k place : Nat) (b : Option Nat) :
    Changes switchParts s (switchTile s target holders k place b) ∧ ((switchTile s target holders k place b).tile k).tier = target ∧
      ∀ j, j ≠ k → (switchTile s target holders k place b).tile j = s.tile j := by
  unfold switchTile
  extract_lets e s₁ s₂ s₃ old kept s₄ keep back s₅
  have left : Changes switchParts s s₁ := (changes_leaveCopy ..).mono (by decide)
  have queued : Changes switchParts s s₂ ∧ s₂.tiers.map = s.tiers.map := by
    change Changes switchParts s (match b with | some u => queueT4 s₁ [u] | none => s₁) ∧
      (match b with | some u => queueT4 s₁ [u] | none => s₁).tiers.map = s.tiers.map
    split
    · exact ⟨left.andThen (changes_queueT4 ..), map_leaveCopy ..⟩
    · exact ⟨left, map_leaveCopy ..⟩
  have third : Changes switchParts s s₃ := queued.1.modTiers _
  have map₃ : s₃.tiers.map = s.tiers.map := queued.2
  have put (v : State) (e : TileEntry) (before : Changes switchParts s v) (map : v.tiers.map = s.tiers.map) (good : e.tier = target) :
      Changes switchParts s (setTile v k e) ∧ ((setTile v k e).tile k).tier = target ∧ ∀ j, j ≠ k → (setTile v k e).tile j = s.tile j := by
    refine ⟨before.andThen (changes_setTile ..), ?_, fun j ne => ?_⟩
    · rw [tile_setTile, if_pos rfl, good]
    · rw [tile_setTile, if_neg ne]
      exact congrArg (Tab.getD · j {}) map
  split
  · next two =>
    have fourth : Changes switchParts s s₄ := .ite (third.andThen (changes_freeT4 ..)) third
    have map₄ : s₄.tiers.map = s.tiers.map := by
      change (if kept && e.dirty then freeT4 s₃ (t4TileOf old) else s₃).tiers.map = _
      split
      · exact map₃
      · exact map₃
    exact put s₄ _ fourth map₄ two.symm
  · split
    · next three => exact put s₃ _ third map₃ three.symm
    · have four : target = 4 := by omega
      have fifth : Changes switchParts s s₅ := .ite (third.andThen (changes_queueT4 ..)) third
      have map₅ : s₅.tiers.map = s.tiers.map := by
        change (if e.dirty then queueT4 s₃ [t4TileOf place] else s₃).tiers.map = _
        split
        · exact map₃
        · exact map₃
      exact put s₅ _ fifth map₅ four.symm

/-- Tiles that switch lie in the target tier, and no other moved (R402). -/
theorem switchTiles_spec (tier : target = 2 ∨ target = 3 ∨ target = 4) (holders : List Nat) {ts ps : List Nat} {bs : List (Option Nat)} (s : State)
    (places : ps.length = ts.length) (backs : bs.length = ts.length) :
    Changes switchParts s (switchTiles target holders ts ps bs s) ∧
      (∀ k ∈ ts, ((switchTiles target holders ts ps bs s).tile k).tier = target) ∧
      ∀ k, k ∉ ts → (switchTiles target holders ts ps bs s).tile k = s.tile k := by
  induction ts generalizing ps bs s with
  | nil => exact ⟨by unfold switchTiles; exact .refl _ s, by simp, fun _ _ => by unfold switchTiles; rfl⟩
  | cons k ts ih =>
    obtain ⟨p, ps, rfl⟩ := List.exists_cons_of_length_eq_add_one places
    obtain ⟨b, bs, rfl⟩ := List.exists_cons_of_length_eq_add_one backs
    obtain ⟨first, here, others⟩ := switchTile_spec tier s holders k p b
    obtain ⟨rest, inRest, outRest⟩ := ih (switchTile s target holders k p b) (ps := ps) (bs := bs) (by simpa using places) (by simpa using backs)
    unfold switchTiles
    refine ⟨first.trans rest, fun j mem => ?_, fun j out => ?_⟩
    · by_cases later : j ∈ ts
      · exact inRest j later
      · obtain rfl : j = k := (List.mem_cons.mp mem).resolve_right later
        rw [outRest j later, here]
    · rw [outRest j fun mem => out (List.mem_cons_of_mem _ mem), others j fun same => out (by simp [same])]

/-! ## Moves -/

/-- A command's work, done or given up. -/
def Cmd.placed (x : Cmd) : Cmd := { x with work := { x.work with tiles := [], places := [], backing := [] } }

theorem cmd?_modCmd (s : State) (n m : Nat) (f : Cmd → Cmd) : (s.modCmd n f).cmd? m = if m = n then (s.cmd? n).map f else s.cmd? m :=
  Tab.get?_adjust ..

theorem undecided_placed (u : s.undecided n x) (same : t.cmd? n = s.cmd? n) : (t.modWork n fun w =>
    { w with tiles := [], places := [], backing := [] }).undecided n x.placed := by
  obtain ⟨held, origin, here, none_, open_, alone, going⟩ := u
  refine ⟨?_, origin, here, none_, open_, alone, going⟩
  rw [State.modWork, cmd?_modCmd, if_pos rfl, same, held]
  rfl

/-- A collection that a move of it leaves. -/
def Collection.leftBy (c : Collection) (n : Nat) (parks : Bool) : Collection := { c with
  residency := if parks ∧ c.evictions.contains n ∧ c.residency = .parking then .resident else c.residency
  evictions := c.evictions.filter (· != n), promotions := c.promotions.filter (· != n) }

/-- A move that ends before its switch (R406, R407). -/
theorem endMove_of_undecided (u : s.undecided n x) (st : Status) (z : Cause) (error : informational st = false) (ht : endMove s n st z = t) :
    (∃ k, k.status = st ∧ k.dw2 = 0 ∧ (isMutation (eOpcode x.entry) = false → k.dw3 = 0) ∧ t.cmd? n = some (x.placed.decided k [])) ∧
      (∀ m, m ≠ n → t.cmd? m = s.cmd? m) ∧ t.tiers.map = s.tiers.map ∧
      ∀ y, t.coll? (eIndex x.entry) = some y → n ∉ y.evictions ∧ n ∉ y.promotions := by
  obtain ⟨held, -⟩ := id u
  unfold endMove at ht
  rw [held] at ht
  dsimp only at ht
  have freed := changes_freeMove s x
  generalize freeMove s x = s₁ at *
  have cmds : s₁.cmds = s.cmds := freed.same fun s => s.cmds
  have placed := undecided_placed u (t := s₁) (congrArg (Tab.get? · n) cmds)
  have others₂ (m : Nat) (ne : m ≠ n) : (s₁.modWork n fun w => { w with tiles := [], places := [], backing := [] }).cmd? m = s.cmd? m := by
    rw [State.modWork, cmd?_modCmd, if_neg ne]
    exact congrArg (Tab.get? · m) cmds
  have map₂ : (s₁.modWork n fun w => { w with tiles := [], places := [], backing := [] }).tiers.map = s.tiers.map := freed.same fun s => s.tiers.map
  generalize (s₁.modWork n fun w => { w with tiles := [], places := [], backing := [] }) = s₂ at *
  obtain ⟨at_, others, colls, changes⟩ := fail_of_undecided (s := s₂.modColl (eIndex x.entry) fun c => { c with
      residency := if eOpcode x.entry = 9 ∧ c.evictions.contains n ∧ c.residency = .parking then .resident else c.residency
      evictions := c.evictions.filter (· != n), promotions := c.promotions.filter (· != n) }) placed st z error ht
  refine ⟨at_, fun m ne => (others m ne).trans (others₂ m ne), (changes.same fun s => s.tiers.map).trans map₂, fun y at_ => ?_⟩
  change Tab.get? t.colls _ = some y at at_
  rw [colls] at at_
  change Tab.get? (Tab.adjust (Tab.adjust s₂.colls (eIndex x.entry) _) (eIndex x.entry) _) (eIndex x.entry) = some y at at_
  rw [Tab.get?_adjust_self, Tab.get?_adjust_self, Option.map_map, Option.map_eq_some_iff] at at_
  obtain ⟨c, -, rfl⟩ := at_
  exact ⟨by simp, by simp⟩

/-- What a switch of tiles does: the tiles lie in the target tier, and the command is done with them (R402, R405). -/
theorem switched_spec (u : s.undecided n x) (tier : target = 2 ∨ target = 3 ∨ target = 4) (holders : List Nat) {ts ps : List Nat}
    {bs : List (Option Nat)} {v : State} (reserved : reserveTiles (freeMove s x) target ts = some (ps, bs, v)) {w : State}
    (hw : (switchTiles target holders ts ps bs v).modWork n (fun w => { w with tiles := [], places := [], backing := [] }) = w) :
    w.undecided n x.placed ∧ Changes (.cmds :: switchParts) s w ∧ (∀ k ∈ ts, (w.tile k).tier = target) ∧ (∀ k, k ∉ ts → w.tile k = s.tile k) ∧
      ∀ m, m ≠ n → w.cmd? m = s.cmd? m := by
  obtain ⟨places, backs, changes⟩ := reserveTiles_spec reserved
  obtain ⟨moved, inside, outside⟩ := switchTiles_spec tier holders v places backs
  have before : Changes [.protect, .flash] s v := (changes_freeMove s x).trans changes
  have all : Changes switchParts s (switchTiles target holders ts ps bs v) := (before.mono (by decide)).trans moved
  generalize switchTiles target holders ts ps bs v = y at *
  have cmds : y.cmds = s.cmds := all.same fun s => s.cmds
  subst hw
  refine ⟨undecided_placed u (congrArg (Tab.get? · n) cmds), (show Changes (.cmds :: switchParts) s y from all.mono (by decide)).modWork _ _,
    inside, fun k out => ?_, fun m ne => ?_⟩
  · exact (outside k out).trans (before.same fun s => s.tile k)
  · rw [State.modWork, cmd?_modCmd, if_neg ne]
    exact congrArg (Tab.get? · m) cmds

/-- The commands that end a move before its switch (R406, R407). -/
theorem exec_moveEnds (up : live s = true) (u : s.undecided n x) (op : eOpcode x.entry = 8 ∨ eOpcode x.entry = 9)
    (wake : ∀ c, s.coll? (eIndex x.entry) = some c → c.residency = .waking → c.wakeCmds.head? ≠ some n) {c : Instr} {st : Status}
    (how : (c = .deferLimitExpiry n ∧ st = .objectBusy ∧ eDeferLimit x.entry ≠ 0) ∨
      (c = .moveDeadline n ∧ st = .tierLate ∧ eClass x.entry ≤ 1 ∧ x.stage = .admitted ∧ x.work.tiles ≠ [])) :
    (∃ z, exec c s = .next (endMove s n st z)) ∧ informational st = false := by
  obtain ⟨held, -, -, -, open_, -, going⟩ := u
  have before : beforeSwitch x = true := by rcases op with h | h <;> simp [beforeSwitch, h, open_]
  rcases how with ⟨rfl, rfl, defer⟩ | ⟨rfl, rfl, class_, admitted, tiles⟩
  · refine ⟨⟨{}, ?_⟩, rfl⟩
    change execDeferLimitExpiry n s = _
    unfold execDeferLimitExpiry
    rw [held]
    exact occurs_of_true (by simp [up, before, going, defer]) _ s
  · refine ⟨⟨{ kind := kindTier, loc := eIndex x.entry, detail := x.work.target }, ?_⟩, rfl⟩
    change execMoveDeadline n s = _
    unfold execMoveDeadline
    rw [held]
    dsimp only
    cases coll : s.coll? (eIndex x.entry) with
    | none => exact occurs_of_true (by simp [up, before, going, class_, admitted, tiles]) _ s
    | some y =>
      have wakes : (y.residency == .waking && y.wakeCmds.head? == some n) = false := by
        by_cases waking : y.residency = .waking
        · simp [wake y coll waking]
        · simp [waking]
      exact (occurs_of_true (by simp [up, before, going, class_, admitted, tiles]) _ s).trans
        (congrArg Host.Outcome.next (if_neg (Bool.eq_false_iff.mp wakes)))

theorem anyLost_of_kept {ts : List Nat} (kept : ∀ k ∈ ts, (s.tile k).lost = false) : anyLost s ts = false := by
  simpa [anyLost] using kept

/-- The switch of an upward move completes it (R405). -/
theorem moveEffect_spec (u : s.undecided n x) (tier : x.work.target = 2 ∨ x.work.target = 3 ∨ x.work.target = 4) {ts : List Nat}
    (hts : ts = x.work.tiles.filter fun k => Tab.has s.tiers.map k) (kept : ∀ k ∈ ts, (s.tile k).lost = false)
    (room : (reserveTiles (freeMove s x) x.work.target ts).isSome = true) (ht : moveEffect s n i x = t) :
    t.decidedAs n .success ts.length 0 ∧ (∀ k ∈ ts, (t.tile k).tier = x.work.target) ∧ (∀ k ∉ ts, t.tile k = s.tile k) ∧
      ∀ y, t.coll? i = some y → n ∉ y.promotions := by
  obtain ⟨⟨ps, bs, v⟩, reserved⟩ := Option.isSome_iff_exists.mp room
  unfold moveEffect at ht
  rw [← hts] at ht
  dsimp only at ht
  rw [anyLost_of_kept kept, if_neg Bool.false_ne_true, reserved] at ht
  dsimp only at ht
  generalize hw : (switchTiles x.work.target (pinHolders v i x.work.obj) ts ps bs v).modWork n
    (fun w => { w with tiles := [], places := [], backing := [] }) = w at ht
  obtain ⟨placed, -, inside, outside, -⟩ := switched_spec u tier _ reserved hw
  obtain ⟨⟨k', ⟨status, dw2, dw3, -⟩, at_⟩, -, colls, changes⟩ := succeed_of_undecided
    (s := w.modColl i fun c => { c with promotions := c.promotions.filter (· != n) }) placed rfl rfl ht
  have tile (k : Nat) : t.tile k = w.tile k := changes.same fun s => s.tile k
  refine ⟨State.decidedAs_of at_ status dw2 dw3, fun k mem => by rw [tile, inside k mem], fun k out => by rw [tile, outside k out],
    fun y at_ => ?_⟩
  change Tab.get? t.colls i = some y at at_
  rw [colls] at at_
  change Tab.get? (Tab.adjust w.colls i _) i = some y at at_
  rw [Tab.get?_adjust_self, Option.map_eq_some_iff] at at_
  obtain ⟨c, -, rfl⟩ := at_
  simp

/-- The switch of a downward move completes it (R402). -/
theorem evictEffect_move {c : Collection} (u : s.undecided n x) (op : eOpcode x.entry = 8)
    (tier : x.work.target = 2 ∨ x.work.target = 3 ∨ x.work.target = 4) {ts : List Nat}
    (hts : ts = (objTiles c x.work.obj).filter fun k => (s.tile k).tier != x.work.target) (kept : ∀ k ∈ ts, (s.tile k).lost = false)
    (room : (reserveTiles (freeMove s x) x.work.target ts).isSome = true) (ht : evictEffect s i n c x = t) :
    t.decidedAs n .success ts.length 0 ∧ (∀ k ∈ ts, (t.tile k).tier = x.work.target) ∧ (∀ k ∉ ts, t.tile k = s.tile k) ∧
      ∀ y, t.coll? i = some y → n ∉ y.evictions := by
  obtain ⟨⟨ps, bs, v⟩, reserved⟩ := Option.isSome_iff_exists.mp room
  have set_ : switchSet s c x = ts := by rw [switchSet, op, if_neg (by decide), hts, notIn]
  have move : (eOpcode x.entry == 9) = false := by rw [op]; rfl
  unfold evictEffect at ht
  rw [set_, move] at ht
  dsimp only at ht
  rw [if_neg (show ¬ (false = true ∧ c.residency = .parking) by simp), anyLost_of_kept kept, if_neg Bool.false_ne_true, reserved] at ht
  dsimp only at ht
  rw [if_pos (show (!false) = true from rfl)] at ht
  generalize hw : (switchTiles x.work.target [] ts ps bs v).modWork n (fun w => { w with tiles := [], places := [], backing := [] }) = w at ht
  obtain ⟨placed, -, inside, outside, -⟩ := switched_spec u tier _ reserved hw
  obtain ⟨⟨k', ⟨status, dw2, dw3, -⟩, at_⟩, -, colls, changes⟩ := succeed_of_undecided
    (s := w.modColl i fun c => { c with evictions := c.evictions.filter (· != n) }) placed rfl rfl ht
  have tile (k : Nat) : t.tile k = w.tile k := changes.same fun s => s.tile k
  refine ⟨State.decidedAs_of at_ status dw2 dw3, fun k mem => by rw [tile, inside k mem], fun k out => by rw [tile, outside k out],
    fun y at_ => ?_⟩
  change Tab.get? t.colls i = some y at at_
  rw [colls] at at_
  change Tab.get? (Tab.adjust w.colls i _) i = some y at at_
  rw [Tab.get?_adjust_self, Option.map_eq_some_iff] at at_
  obtain ⟨c, -, rfl⟩ := at_
  simp

theorem exec_evictionSwitch {c : Collection} {o : ObjKind} (coll : s.coll? i = some c) (evicting : evictionOf s c o = some n)
    (held : s.cmd? n = some x) : exec (.evictionSwitch i o) s =
      occurs (live s && awake s && evictReady s i n c x) (evictEffect s i n c x) s := by
  change execEvictionSwitch i o s = _
  unfold execEvictionSwitch
  rw [coll]
  dsimp only
  rw [evicting]
  dsimp only
  rw [held]

/-- Settles O25: a move ends by `endMove`, and switches by `switchTiles`. -/
theorem movesEndOrSwitch : Obligations.MovesEndOrSwitch := by
  refine ⟨fun n x s up u op wake c st how => ?_, fun n i c x s up serves u op at_ coll free tier => ⟨fun ts hts promoting kept room => ?_,
    fun ts hts evicting pins still kept room => ?_⟩⟩
  · obtain ⟨⟨z, row⟩, error⟩ := exec_moveEnds up u op wake how
    obtain ⟨⟨k, status, dw2, dw3, ended⟩, others, map, gone⟩ := endMove_of_undecided u st z error rfl
    have reads : isMutation (eOpcode x.entry) = false := by rcases op with h | h <;> rw [h] <;> rfl
    exact ⟨_, row, State.decidedAs_of ended status dw2 (dw3 reads), map, gone, others⟩
  · obtain ⟨held, -, -, -, -, -, going⟩ := id u
    have row : exec (.moveSwitch n) s = .next (moveEffect s n i x) := by
      change execMoveSwitch n s = _
      unfold execMoveSwitch
      rw [held]
      dsimp only
      rw [at_, coll]
      exact occurs_of_true (by simp [up, serves, promoting, free, going]) _ s
    exact ⟨_, row, moveEffect_spec u tier hts kept room rfl⟩
  · obtain ⟨held, -, -, -, -, alone, going⟩ := id u
    have ready : evictReady s i n c x = true := by
      have pinned : (if x.work.obj = .tokens then c.pinTokens.pins == 0 else c.pinVectors.pins == 0) = true := by
        split at pins <;> simp_all
      simp only [evictReady, pinsZero, parkCopied, op, free, alone, Bool.and_eq_true]
      simp [pinned, still, going]
    have row := (exec_evictionSwitch coll evicting held).trans (occurs_of_true (by rw [up, serves, ready]; rfl) _ s)
    exact ⟨_, row, evictEffect_move u op tier hts kept room rfl⟩

end Sys2Proof.Machine
end

section
/-! SUPPORT. The switch of a PARK and of a wake, and the statement about them (R402, R408, R410). -/

namespace Sys2Proof.Machine

open Sys2Proof

-- Proofs are checked one at a time: each that waits for its turn would hold a thread's stack.
set_option Elab.async false

variable {s t u : State} {n i : Nat} {x : Cmd} {c : Collection}

/-! ## Many commands that succeed -/

theorem succeed_of_decided (held : s.cmd? n = some x) (done : x.stage = .decided) (k : Completion) : succeed s n k = s := by
  unfold succeed decide_
  rw [held]
  exact if_pos done

theorem undecided_of_cmd? (h : s.undecided n x) (same : t.cmd? n = s.cmd? n) : t.undecided n x := ⟨same.trans h.1, h.2⟩

/-- Commands that succeed one after another: a command that is listed twice is decided once. -/
theorem succeedEach {k : Completion} (st : k.status = .success) (bare : k.resultLength = 0) (ms : List Nat) (s : State)
    (open_ : ∀ m ∈ ms, (∃ x, s.undecided m x) ∨ ∃ x, s.cmd? m = some x ∧ x.stage = .decided)
    (ht : ms.foldl (fun s m => succeed s m k) s = t) : Changes decidingParts s t ∧ t.colls = s.colls ∧ (∀ m, m ∉ ms → t.cmd? m = s.cmd? m) ∧
      (∀ m x, s.cmd? m = some x → x.stage = .decided → t.cmd? m = some x) ∧
      ∀ m ∈ ms, ∀ x, s.undecided m x → ∃ k', k'.Means k ∧ t.cmd? m = some (x.decided k' []) := by
  induction ms generalizing s with
  | nil =>
    subst ht
    exact ⟨.refl _ s, rfl, fun _ _ => rfl, fun _ _ held _ => held, by simp⟩
  | cons m ms ih =>
    rw [List.foldl_cons] at ht
    rcases open_ m (by simp) with ⟨x, u⟩ | ⟨x, held, done⟩
    · obtain ⟨⟨k', means, at_⟩, others, colls, changes⟩ := succeed_of_undecided u st bare rfl
      generalize succeed s m k = s₁ at *
      have still : ∀ j ∈ ms, (∃ x, s₁.undecided j x) ∨ ∃ x, s₁.cmd? j = some x ∧ x.stage = .decided := fun j mem => by
        by_cases same : j = m
        · exact .inr ⟨_, by rw [same]; exact at_, rfl⟩
        · rcases open_ j (List.mem_cons_of_mem _ mem) with ⟨y, v⟩ | ⟨y, held, done⟩
          · exact .inl ⟨y, undecided_of_cmd? v (others j same)⟩
          · exact .inr ⟨y, (others j same).trans held, done⟩
      obtain ⟨changes', colls', out, kept, inside⟩ := ih s₁ still ht
      · refine ⟨changes.trans changes', colls'.trans colls, fun j no => ?_, fun j y held done => ?_, fun j mem y v => ?_⟩
        · rw [out j (fun mem => no (List.mem_cons_of_mem _ mem)), others j fun same => no (by simp [same])]
        · by_cases same : j = m
          · subst same
            obtain ⟨held', -, -, -, going, -⟩ := u
            exact absurd done (by rw [show y = x from Option.some.inj (held.symm.trans held')]; exact going)
          · exact kept j y ((others j same).trans held) done
        · by_cases same : j = m
          · subst same
            obtain rfl : y = x := Option.some.inj (v.1.symm.trans u.1)
            exact ⟨k', means, kept j _ at_ rfl⟩
          · exact inside j ((List.mem_cons.mp mem).resolve_left same) y (undecided_of_cmd? v (others j same))
    · rw [succeed_of_decided held done] at ht
      obtain ⟨changes', colls', out, kept, inside⟩ := ih s (fun j mem => open_ j (List.mem_cons_of_mem _ mem)) ht
      refine ⟨changes', colls', fun j no => out j fun mem => no (List.mem_cons_of_mem _ mem), kept, fun j mem y v => ?_⟩
      by_cases same : j = m
      · subst same
        obtain ⟨held', -, -, -, going, -⟩ := v
        exact absurd done (by rw [show x = y from Option.some.inj (held.symm.trans held')]; exact going)
      · exact inside j ((List.mem_cons.mp mem).resolve_left same) y v

/-! ## PARK -/

theorem changes_indexToImage (s : State) (c : Collection) : Changes [.protect, .tiers] s (indexToImage s c) := by
  unfold indexToImage
  split
  · exact .refl _ s
  · refine .foldl (fun s y => ?_) _ s
    exact (changes_leaveCopy ..).andThen (changes_setTile ..)

theorem dropStage_spec (coll : s.coll? i = some c) : Changes [.protect, .colls] s (dropStage s i) ∧
    (dropStage s i).coll? i = some { c with stage := none } := by
  unfold dropStage
  rw [coll, Option.bind_some]
  split
  · next p k _ =>
    exact ⟨(show Changes [.protect, .colls] s _ from (changes_givePages s p k).mono (by decide)).modColl _ _,
      State.coll?_modColl (s := givePages s p k) coll _⟩
  · next none_ => exact ⟨.refl _ s, by rw [coll, ← none_]⟩

/-- A collection that a PARK leaves (R408). -/
def Collection.parked (c : Collection) (n target : Nat) : Collection := { c with
  evictions := c.evictions.filter (· != n), stage := none, residency := if target = 4 then .parkedT4 else .parkedT3
  pinIndex := { evicted := true, pins := 0 } }

/-- The switch of a PARK of a resident collection (R408). -/
theorem evictEffect_park (u : s.undecided n x) (op : eOpcode x.entry = 9) (alone : eWithData x.entry = false) (coll : s.coll? i = some c)
    (parking : c.residency = .parking) (kept : anyLost s (objTiles c .index) = false)
    (tier : x.work.target = 4 ∨ (x.work.target = 3 ∧ (reserveTiles (freeMove s x) 3 (objTiles c .index)).isSome = true))
    (ht : evictEffect s i n c x = t) : t.coll? i = some (c.parked n x.work.target) ∧
      ∃ k, k.epoch = c.published ∧ k.status = .success ∧ k.dw2 = (objTiles c .index).length ∧ k.dw3 = 0 ∧ t.cmd? n = some (x.placed.decided k []) := by
  have data : dataTiles s c x = [] := by rw [dataTiles, alone, if_neg Bool.false_ne_true]
  generalize tiles : (if x.work.target = 3 then objTiles c .index else []) = ts
  have set_ : switchSet s c x = ts := by
    rw [switchSet, if_pos op, data, List.append_nil, parking, ← tiles]
    simp
  have notLost : anyLost s (objTiles c .index ++ ts) = false := by
    simp only [anyLost, List.any_append, Bool.or_eq_false_iff] at kept ⊢
    refine ⟨kept, ?_⟩
    rw [← tiles]
    split
    · exact kept
    · rfl
  have room : (reserveTiles (freeMove s x) x.work.target ts).isSome = true := by
    rcases tier with four | ⟨three, room⟩
    · rw [← tiles, four]
      rfl
    · rw [← tiles, three]
      exact room
  have target : x.work.target = 2 ∨ x.work.target = 3 ∨ x.work.target = 4 := by omega
  obtain ⟨⟨ps, bs, v⟩, reserved⟩ := Option.isSome_iff_exists.mp room
  have park : (eOpcode x.entry == 9) = true := by rw [op]; rfl
  unfold evictEffect at ht
  rw [set_, park] at ht
  dsimp only at ht
  rw [if_pos (show true = true ∧ c.residency = .parking from ⟨rfl, parking⟩), notLost, if_neg Bool.false_ne_true, reserved] at ht
  dsimp only at ht
  rw [if_neg (show ¬ (!true) = true by decide), if_pos parking] at ht
  generalize hw : (switchTiles x.work.target [] ts ps bs v).modWork n (fun w => { w with tiles := [], places := [], backing := [] }) = w at ht
  obtain ⟨placed, changes, -⟩ := switched_spec u target _ reserved hw
  have collW : w.coll? i = some c := (changes.same fun s => s.coll? i).trans coll
  have coll₁ := State.coll?_modColl collW fun c => { c with evictions := c.evictions.filter (· != n) }
  have placed₁ : (w.modColl i fun c => { c with evictions := c.evictions.filter (· != n) }).undecided n x.placed := placed
  generalize (w.modColl i fun c => { c with evictions := c.evictions.filter (· != n) }) = w₁ at *
  have imaged : Changes [.protect, .tiers] w₁ (if (x.work.target == 4 && c.residency != .parkedT4) = true then indexToImage w₁ c else w₁) :=
    .ite (changes_indexToImage ..) (.refl _ w₁)
  generalize (if (x.work.target == 4 && c.residency != .parkedT4) = true then indexToImage w₁ c else w₁) = w₂ at *
  have coll₂ := (imaged.same fun s => s.coll? i).trans coll₁
  obtain ⟨dropped, coll₃⟩ := dropStage_spec coll₂
  have placed₃ : (dropStage w₂ i).undecided n x.placed :=
    undecided_of_cmd? placed₁ ((dropped.same fun s => s.cmd? n).trans (imaged.same fun s => s.cmd? n))
  generalize dropStage w₂ i = w₃ at *
  have coll₄ := State.coll?_modColl coll₃ fun c => { c with
    residency := if x.work.target = 4 then .parkedT4 else .parkedT3
    pinIndex := { evicted := true, pins := if c.residency = .parking then 0 else c.pinIndex.pins } }
  rw [show ({ c with evictions := c.evictions.filter (· != n), stage := none } : Collection).residency = .parking from parking, if_pos rfl] at coll₄
  have placed₄ : (w₃.modColl i fun c => { c with
    residency := if x.work.target = 4 then .parkedT4 else .parkedT3
    pinIndex := { evicted := true, pins := if c.residency = .parking then 0 else c.pinIndex.pins } }).undecided n x.placed := placed₃
  obtain ⟨⟨k', ⟨status, dw2, dw3, epoch⟩, at_⟩, -, colls, -⟩ := succeed_of_undecided placed₄ rfl rfl ht
  refine ⟨(congrArg (Tab.get? · i) colls).trans coll₄, k', epoch, status, dw2.trans ?_, dw3, at_⟩
  have count : ts.length + (if (x.work.target == 4 && c.residency != .parkedT4) = true ∧ c.residency = .parking then (objTiles c .index).length else 0) =
      (objTiles c .index).length := by
    rw [← tiles, parking]
    rcases tier with four | ⟨three, -⟩
    · simp [four]
    · simp [three]
  exact count

/-! ## Wakes -/

/-- A tile that a wake puts into T2 (R410). -/
def TileEntry.woken (e : TileEntry) (p : Nat) : TileEntry := { e with tier := 2, location := p, dirty := false, backed := false, backing := 0 }

/-- The tiles that a wake puts into T2, one after another. -/
def wokenTiles (s : State) (l : List (Nat × Nat)) : State :=
  l.foldl (fun s y => setTile (leaveCopy s (s.tile y.1) []) y.1 ((s.tile y.1).woken y.2)) s

theorem wokenTiles_spec (l : List (Nat × Nat)) (once : (l.map (·.1)).Nodup) (s : State) : Changes [.protect, .tiers] s (wokenTiles s l) ∧
    (∀ k p, (k, p) ∈ l → (wokenTiles s l).tile k = (s.tile k).woken p) ∧ ∀ k, k ∉ l.map (·.1) → (wokenTiles s l).tile k = s.tile k := by
  induction l generalizing s with
  | nil => exact ⟨.refl _ s, by simp, fun _ _ => rfl⟩
  | cons y l ih =>
    obtain ⟨k, p⟩ := y
    rw [List.map_cons, List.nodup_cons] at once
    obtain ⟨new, once⟩ := once
    have first : Changes [.protect, .tiers] s (setTile (leaveCopy s (s.tile k) []) k ((s.tile k).woken p)) :=
      (changes_leaveCopy ..).andThen (changes_setTile ..)
    have tile (j : Nat) : (setTile (leaveCopy s (s.tile k) []) k ((s.tile k).woken p)).tile j = if j = k then (s.tile k).woken p else s.tile j := by
      rw [tile_setTile]
      split
      · rfl
      · exact congrArg (Tab.getD · j {}) (map_leaveCopy ..)
    change Changes _ s (wokenTiles (setTile (leaveCopy s (s.tile k) []) k ((s.tile k).woken p)) l) ∧
      (∀ j q, _ → (wokenTiles (setTile (leaveCopy s (s.tile k) []) k ((s.tile k).woken p)) l).tile j = _) ∧
      ∀ j, _ → (wokenTiles (setTile (leaveCopy s (s.tile k) []) k ((s.tile k).woken p)) l).tile j = _
    generalize setTile (leaveCopy s (s.tile k) []) k ((s.tile k).woken p) = v at *
    obtain ⟨changes, inside, outside⟩ := ih once v
    refine ⟨first.trans changes, fun j q mem => ?_, fun j out => ?_⟩
    · rcases List.mem_cons.mp mem with same | later
      · cases same
        rw [outside k new, tile, if_pos rfl]
      · have ne : j ≠ k := fun same => new (same ▸ List.mem_map.mpr ⟨_, later, rfl⟩)
        rw [inside j q later, tile, if_neg ne]
    · rw [List.map_cons, List.mem_cons, not_or] at out
      rw [outside j out.2, tile, if_neg out.1]

/-- Commands that have their pin (R410). -/
theorem pinEach (ms : List Nat) (s : State) (m : Nat) :
    (ms.foldl (fun s n => s.modCmd n fun y => { y with waitsWake := false, pinIndex := true }) s).cmd? m =
      if m ∈ ms then (s.cmd? m).map fun y => { y with waitsWake := false, pinIndex := true } else s.cmd? m := by
  induction ms generalizing s with
  | nil => simp
  | cons k ms ih =>
    rw [List.foldl_cons, ih, cmd?_modCmd]
    by_cases later : m ∈ ms
    · by_cases same : m = k
      · subst same
        simp [later, Function.comp_def]
      · simp [later, same]
    · by_cases same : m = k
      · subst same
        simp [later]
      · simp [later, same]

theorem changes_pinEach (ms : List Nat) (s : State) :
    Changes [.cmds] s (ms.foldl (fun s n => s.modCmd n fun y => { y with waitsWake := false, pinIndex := true }) s) :=
  .foldl (fun s n => (Changes.refl _ s).modCmd n _) ms s

/-- Whether a command is a WAKE. -/
def isWake (s : State) (m : Nat) : Bool := match s.cmd? m with | some x => eOpcode x.entry == 10 | none => false

/-- A collection that is awake, with a number of pins (R410). -/
def Collection.awoken (c : Collection) (pins : Nat) : Collection :=
  { c with residency := .resident, pinIndex := { evicted := false, pins := pins }, wakeCmds := [], wakeTiles := [] }

theorem wakeEffect_eq (s : State) (i : Nat) {c : Collection} (open_ : ∀ m ∈ c.wakeCmds, ∃ x, s.undecided m x) : wakeEffect s i c =
    (c.wakeCmds.filter (isWake s)).foldl (fun s n => succeed s n { dw2 := c.wakeTiles.length })
      ((c.wakeCmds.filter fun m => !isWake s m).foldl (fun s n => s.modCmd n fun y => { y with waitsWake := false, pinIndex := true })
        ((wokenTiles s c.wakeTiles).modColl i fun c' => c'.awoken (c.wakeCmds.filter fun m => !isWake s m).length)) := by
  have all : (c.wakeCmds.filter fun n => match s.cmd? n with | some x => x.stage != .decided | none => false) = c.wakeCmds := by
    refine List.filter_eq_self.mpr fun m mem => ?_
    obtain ⟨x, held, -, -, -, going, -⟩ := open_ m mem
    rw [held]
    simpa using going
  have rest : (c.wakeCmds.filter fun n => !(c.wakeCmds.filter (isWake s)).contains n) = c.wakeCmds.filter fun m => !isWake s m := by
    refine List.filter_congr fun m mem => ?_
    simp [mem]
  have effect : wakeEffect s i c =
      (fun ns => (ns.filter (isWake s)).foldl (fun s n => succeed s n { dw2 := c.wakeTiles.length })
        ((ns.filter fun n => !(ns.filter (isWake s)).contains n).foldl (fun s n => s.modCmd n fun y => { y with waitsWake := false, pinIndex := true })
          ((wokenTiles s c.wakeTiles).modColl i fun c' => c'.awoken (ns.filter fun n => !(ns.filter (isWake s)).contains n).length)))
        (c.wakeCmds.filter fun n => match s.cmd? n with | some x => x.stage != .decided | none => false) := rfl
  rw [effect, all]
  dsimp only
  rw [rest]

/-- The switch of a wake (R410). -/
theorem wakeEffect_spec (coll : s.coll? i = some c) (once : (c.wakeTiles.map (·.1)).Nodup) (open_ : ∀ m ∈ c.wakeCmds, ∃ x, s.undecided m x)
    (ht : wakeEffect s i c = t) : t.coll? i = some (c.awoken (c.wakeCmds.filter fun m => !isWake s m).length) ∧
      (∀ k p, (k, p) ∈ c.wakeTiles → t.tile k = (s.tile k).woken p) ∧ (∀ k, k ∉ c.wakeTiles.map (·.1) → t.tile k = s.tile k) ∧
      ∀ m ∈ c.wakeCmds, ∀ x, s.cmd? m = some x → (eOpcode x.entry = 10 → t.decidedAs m .success c.wakeTiles.length 0) ∧
        (eOpcode x.entry ≠ 10 → t.cmd? m = some { x with waitsWake := false, pinIndex := true }) := by
  rw [wakeEffect_eq s i open_] at ht
  obtain ⟨woken, inside, outside⟩ := wokenTiles_spec c.wakeTiles once s
  have coll₁ : (wokenTiles s c.wakeTiles).coll? i = some c := (woken.same fun s => s.coll? i).trans coll
  have cmds₁ : (wokenTiles s c.wakeTiles).cmds = s.cmds := woken.same fun s => s.cmds
  generalize wokenTiles s c.wakeTiles = s₁ at *
  have coll₂ := State.coll?_modColl coll₁ fun c' => c'.awoken (c.wakeCmds.filter fun m => !isWake s m).length
  have tile₂ (k : Nat) : (s₁.modColl i fun c' => c'.awoken (c.wakeCmds.filter fun m => !isWake s m).length).tile k = s₁.tile k := rfl
  have cmd₂ (m : Nat) : (s₁.modColl i fun c' => c'.awoken (c.wakeCmds.filter fun m => !isWake s m).length).cmd? m = s.cmd? m :=
    congrArg (Tab.get? · m) cmds₁
  generalize (s₁.modColl i fun c' => c'.awoken (c.wakeCmds.filter fun m => !isWake s m).length) = s₂ at *
  have pinned := changes_pinEach (c.wakeCmds.filter fun m => !isWake s m) s₂
  have cmd₃ := pinEach (c.wakeCmds.filter fun m => !isWake s m) s₂
  generalize (c.wakeCmds.filter fun m => !isWake s m).foldl (fun s n => s.modCmd n fun y => { y with waitsWake := false, pinIndex := true }) s₂ = s₃ at *
  have wake₃ (m : Nat) (wake : isWake s m = true) : s₃.cmd? m = s.cmd? m := by
    rw [cmd₃, if_neg (by simp [wake]), cmd₂]
  obtain ⟨changes, colls, others, -, done⟩ := succeedEach rfl rfl (c.wakeCmds.filter (isWake s)) s₃ (fun m mem => by
    obtain ⟨mem, wake⟩ := List.mem_filter.mp mem
    obtain ⟨x, u⟩ := open_ m mem
    exact .inl ⟨x, undecided_of_cmd? u (wake₃ m wake)⟩) ht
  have tile (k : Nat) : t.tile k = s₁.tile k := ((changes.same fun s => s.tile k).trans (pinned.same fun s => s.tile k)).trans (tile₂ k)
  refine ⟨((congrArg (Tab.get? · i) colls).trans (pinned.same fun s => s.coll? i)).trans coll₂, fun k p mem => (tile k).trans (inside k p mem),
    fun k out => (tile k).trans (outside k out), fun m mem x held => ⟨fun op => ?_, fun op => ?_⟩⟩
  · have wake : isWake s m = true := by
      rw [isWake, held]
      simpa using op
    obtain ⟨x', u⟩ := open_ m mem
    obtain ⟨k', ⟨status, dw2, dw3, -⟩, at_⟩ := done m (List.mem_filter.mpr ⟨mem, wake⟩) x' (undecided_of_cmd? u (wake₃ m wake))
    exact State.decidedAs_of at_ status dw2 dw3
  · have waits : isWake s m = false := by
      rw [isWake, held]
      simpa using op
    rw [others m (by simp [waits]), cmd₃, if_pos (List.mem_filter.mpr ⟨mem, by simp [waits]⟩), cmd₂, held]
    rfl

/-- Settles O26: the switch of a PARK is `evictEffect`, that of a wake `wakeEffect`. -/
theorem parksAndWakes : Obligations.ParksAndWakes := by
  refine ⟨fun n i c x s serves up u op alone at_ coll free evicting parking pins copied kept tier => ?_,
    fun i c s up serves coll waking free kept once open_ => ?_⟩
  · obtain ⟨held, -, -, -, -, members, going⟩ := id u
    have ready : evictReady s i n c x = true := by
      have data : dataTiles s c x = [] := by rw [dataTiles, alone, if_neg Bool.false_ne_true]
      simp [evictReady, free, pinsZero, op, pins, data, going, copied, serves, members]
    have row := (exec_evictionSwitch coll evicting held).trans (occurs_of_true (by rw [live_of_serves serves, up, ready]; rfl) _ s)
    obtain ⟨left, k, epoch, status, dw2, dw3, done⟩ := evictEffect_park u op alone coll parking kept tier rfl
    refine ⟨_, _, k, row, left, rfl, rfl, rfl, by simp [Collection.parked], rfl, State.decidedAs_of done status dw2 dw3, ?_, epoch⟩
    rw [done]
    rfl
  · have row : exec (.wakeSwitch i) s = .next (wakeEffect s i c) := by
      change execWakeSwitch i s = _
      unfold execWakeSwitch
      rw [coll]
      dsimp only
      rw [wakeSwitchEffect, kept]
      exact occurs_of_true (by simp [up, serves, waking, free]) _ s
    obtain ⟨awake_, inside, outside, cmds⟩ := wakeEffect_spec coll once open_ rfl
    refine ⟨_, _, row, awake_, rfl, rfl, congrArg List.length (List.filter_congr fun m mem => ?_), rfl, rfl,
      fun k p mem => by rw [inside k p mem]; exact ⟨rfl, rfl⟩, outside, cmds⟩
    obtain ⟨x, held, -⟩ := open_ m mem
    rw [isWake, held]
    rfl

end Sys2Proof.Machine
end

section
/-! SUPPORT. What the end of requests and moves leaves alone while no run goes on and no collection wakes; the statement about backings and
leases that end (R389, R399, R414, R415). -/

namespace Sys2Proof.Machine

open Sys2Proof

-- Proofs are checked one at a time: each that waits for its turn would hold a thread's stack.
set_option Elab.async false

variable {s t u : State} {n i : Nat} {x : Cmd}

/-! ## States without runs and wakes -/

/-- No run goes on, and no collection wakes. -/
def Calm (s : State) : Prop := s.runs = [] ∧ ∀ c ∈ s.colls, c.2.residency ≠ .waking

/-- What the end of a peer request or a move changes in such a state. -/
abbrev peerParts : List Part := .pieces :: .alleys :: .flash :: quietParts

/-- From a calm state s to t, which is calm, only what the end of peer requests changes changed. -/
structure StaysCalm (s t : State) : Prop where
  calm : Calm s → Changes peerParts s t ∧ Calm t

namespace StaysCalm

theorem refl (s : State) : StaysCalm s s := ⟨fun calm => ⟨.refl _ s, calm⟩⟩

theorem trans (h : StaysCalm s t) (k : StaysCalm t u) : StaysCalm s u := ⟨fun calm =>
  ⟨(h.calm calm).1.trans (k.calm (h.calm calm).2).1, (k.calm (h.calm calm).2).2⟩⟩

theorem of_changes {l : List Part} (h : Changes l s t) (runs : ∀ s t, (State.take l s t).runs = s.runs)
    (colls : ∀ s t, (State.take l s t).colls = s.colls) (sub : ∀ p ∈ l, p ∈ peerParts) : StaysCalm s t := ⟨fun calm =>
  ⟨h.mono sub, (h.same (·.runs) runs).trans calm.1, by rw [h.same (·.colls) colls]; exact calm.2⟩⟩

theorem modColl (s : State) (i : Nat) (f : Collection → Collection) (asleep : ∀ c, c.residency ≠ .waking → (f c).residency ≠ .waking) :
    StaysCalm s (s.modColl i f) := by
  refine ⟨fun calm => ⟨(Changes.refl _ s).modColl _ _, calm.1, fun c mem => ?_⟩⟩
  rcases Tab.mem_adjust mem with old | ⟨b, old, eq⟩
  · exact calm.2 c old
  · rw [eq]
    exact asleep b (calm.2 _ old)

theorem modCmd (s : State) (n : Nat) (f : Cmd → Cmd) : StaysCalm s (s.modCmd n f) :=
  ⟨fun calm => ⟨(Changes.refl _ s).modCmd _ _, calm⟩⟩

theorem ite {p : Prop} [Decidable p] (h : StaysCalm s t) (k : StaysCalm s u) : StaysCalm s (if p then t else u) := by
  split
  · exact h
  · exact k

theorem foldl {α : Type} {g : State → α → State} (h : ∀ s a, StaysCalm s (g s a)) (as : List α) (s : State) : StaysCalm s (as.foldl g s) :=
  List.foldlRecOn as g (motive := StaysCalm s) (refl s) fun t ht a _ => ht.trans (h t a)

theorem oneEvent {f : State → State} (h : ∀ s, StaysCalm s (f s)) (s : State) (always : Bool) (z : Cause) :
    StaysCalm s (Machine.oneEvent s always z f) := by
  unfold Machine.oneEvent
  refine .ite (h s) ?_
  have opened : StaysCalm s (s.modLogs fun l => { l with event := some { kept := logKept s, ended := [] } }) :=
    ⟨fun calm => ⟨(Changes.refl _ s).modLogs _, calm⟩⟩
  exact (opened.trans (h _)).trans (of_changes (changes_closeEvent ..) (fun _ _ => rfl) (fun _ _ => rfl) (by decide))

end StaysCalm

/-! ## Commands that end -/

theorem staysCalm_releasePins (s : State) (c : Cmd) : StaysCalm s (releasePins s c) := by
  unfold releasePins
  extract_lets s₁
  have freed : StaysCalm s s₁ := by
    change StaysCalm s (match c.search.scratch with
      | some (p, n) => s.modProtect fun x => { x with t2Free := (p, n) :: x.t2Free }
      | none => s)
    split
    · exact ⟨fun calm => ⟨(Changes.refl _ s).modProtect _, calm⟩⟩
    · exact .refl s
  refine freed.trans ?_
  exact .modColl _ _ _ fun _ h => h

theorem staysCalm_gone (s : State) (n : Nat) (c : Cmd) : StaysCalm s (releasePins { s with cmds := Tab.erase s.cmds n } c) := by
  have erased : StaysCalm s { s with cmds := Tab.erase s.cmds n } := ⟨fun calm => ⟨rfl, calm⟩⟩
  exact erased.trans (staysCalm_releasePins ..)

theorem staysCalm_net (h : Changes [.net] s t) : StaysCalm s t := .of_changes h (fun _ _ => rfl) (fun _ _ => rfl) (by decide)
theorem staysCalm_ports (h : Changes [.port0, .port1] s t) : StaysCalm s t := .of_changes h (fun _ _ => rfl) (fun _ _ => rfl) (by decide)
theorem staysCalm_reports (h : Changes [.logs, .port0, .port1] s t) : StaysCalm s t := .of_changes h (fun _ _ => rfl) (fun _ _ => rfl) (by decide)
theorem staysCalm_space (h : Changes [.protect, .flash] s t) : StaysCalm s t := .of_changes h (fun _ _ => rfl) (fun _ _ => rfl) (by decide)

theorem staysCalm_deliver (s : State) (n : Nat) (c : Cmd) (k : Completion) : StaysCalm s (deliver s n c k []) := by
  unfold deliver
  split
  · extract_lets t
    have gone : StaysCalm s t := staysCalm_gone ..
    split
    · exact .ite (gone.trans (staysCalm_ports ((Changes.refl _ t).modMailbox _ _ _))) gone
    · exact gone
  · split
    · extract_lets t
      have frozen : StaysCalm s t := .ite (staysCalm_reports (changes_freezeQueue ..)) (.refl s)
      exact frozen.trans (.modCmd ..)
    · split
      · exact .modCmd ..
      · extract_lets t
        have gone : StaysCalm s t := staysCalm_gone ..
        split
        · rw [devWrite_nil]
          exact gone.trans (staysCalm_ports (changes_mailboxRespond ..))
        · exact gone.trans (staysCalm_ports (changes_mailboxRespond ..))
    · exact (staysCalm_gone ..).trans (.of_changes (changes_sidebandRespond ..) (fun _ _ => rfl) (fun _ _ => rfl) (by decide))
    · exact (staysCalm_gone ..).trans (staysCalm_net (changes_sendData ..))
    · exact staysCalm_gone ..
    · exact .ite ((staysCalm_gone ..).trans (staysCalm_net (changes_sendData ..))) ((staysCalm_gone ..).trans (staysCalm_net (changes_sendData ..)))

theorem staysCalm_dropRuns (s : State) (n : Nat) : StaysCalm s (dropRuns s n) := ⟨fun calm =>
  ⟨(changes_dropRuns s n).mono (by decide), by unfold dropRuns; rw [calm.1]; rfl, calm.2⟩⟩

theorem staysCalm_leftWork (s : State) (n : Nat) (x : Cmd) : StaysCalm s (leftWork s n x) :=
  ((staysCalm_net (changes_cancelShards ..)).trans
    (.of_changes (changes_leaveBatches ..) (fun _ _ => rfl) (fun _ _ => rfl) (by decide))).trans (staysCalm_dropRuns ..)

theorem staysCalm_releaseStaging (s : State) (n : Nat) (c : Cmd) : StaysCalm s (releaseStaging s n c) := .modColl _ _ _ fun _ h => h

theorem staysCalm_decide (s : State) (n : Nat) (k : Completion) (unit : Nat) (z : Cause) : StaysCalm s (decide_ s n k [] unit z) := by
  unfold decide_
  split
  · exact .refl s
  · next c _ =>
    split
    · exact .refl s
    · split
      · exact .modCmd ..
      · extract_lets k₁ len k₂ k₃ res₁ s₁ s₂
        have empty : res₁ = [] := by
          change (if informational k₃.status then clipResult len unit [] else []) = []
          rw [clipResult, List.take_nil, ite_self]
        have left : StaysCalm s s₁ := staysCalm_leftWork s n c
        have freed : StaysCalm s s₂ := .ite left (left.trans (staysCalm_releaseStaging s₁ n c))
        rw [empty]
        exact (freed.trans (staysCalm_reports (changes_logStatus ..))).trans (staysCalm_deliver ..)

theorem staysCalm_failAll (s : State) (ns : List Nat) (st : Status) (z : Cause) : StaysCalm s (failAll s ns st z) :=
  .oneEvent (fun s => .foldl (fun s n => staysCalm_decide s n ..) ns s) s false z

/-! ## Durable commands -/

theorem changes_takeMirrored (k : Nat) {s t : State} {ts us : List Nat} (h : takeMirrored k s = some (ts, us, t)) : Changes [.flash] s t := by
  induction k generalizing s ts us with
  | zero =>
    cases h
    exact .refl _ _
  | succ k ih =>
    unfold takeMirrored at h
    split at h
    · cases h
    · next a s₁ first =>
      split at h
      · cases h
      · next b s₂ second =>
        split at h
        · cases h
        · next us' vs' s₃ rest =>
          cases h
          exact ((changes_takeT4 first).trans (changes_takeT4 second)).trans (ih rest)

theorem staysCalm_pendingImage (s : State) (i : Nat) (img : Option Image) (ts : List Nat) :
    StaysCalm s (queueT4 (s.modColl i fun c => { c with pendingImage := img }) ts) := by
  have pending : StaysCalm s (s.modColl i fun c => { c with pendingImage := img }) := .modColl _ _ _ fun _ h => h
  exact pending.trans (.of_changes (changes_queueT4 ..) (fun _ _ => rfl) (fun _ _ => rfl) (by decide))

theorem staysCalm_startImage {whole : Bool} (h : startImage s i whole = some t) : StaysCalm s t := by
  unfold startImage at h
  split at h
  · cases h
  · next c _ =>
    extract_lets old m append k at h
    split at h
    · cases h
    · split at h
      · cases h
      · next ts us v took =>
        obtain rfl := Option.some.inj h
        have space : Changes [.protect, .flash] s v := (changes_takeMirrored _ took).mono (by decide)
        have taken : StaysCalm s v := staysCalm_space space
        exact taken.trans (staysCalm_pendingImage ..)

theorem staysCalm_failDurable (s : State) (n : Nat) (st : Status) (z : Cause) : StaysCalm s (failDurable s n st z) := by
  unfold failDurable
  split
  · exact .refl s
  · exact staysCalm_decide ..

theorem staysCalm_startDurable (s : State) (n : Nat) : StaysCalm s (startDurable s n) := by
  unfold startDurable
  split
  · exact .refl s
  · refine .ite (.refl s) (.foldl (fun s y => ?_) _ s)
    dsimp only
    split
    · exact .refl s
    · refine .ite (.refl s) (.ite (staysCalm_failDurable ..) ?_)
      split
      · next t started => exact staysCalm_startImage started
      · exact staysCalm_failDurable ..

theorem staysCalm_settleFlush (s : State) (n : Nat) : StaysCalm s (settleFlush s n) := by
  unfold settleFlush
  split
  · exact .refl s
  · refine .ite (.refl s) ?_
    dsimp only
    refine .ite (.ite (.refl s) ?_) (.ite (staysCalm_decide ..) (.modCmd ..))
    unfold homeRequest
    split
    · exact .refl s
    · refine staysCalm_net ?_
      exact (show Changes [.net] s (openPeer s _ _) from by unfold openPeer; exact ((Changes.refl _ s).modNet _).modLink _ _).trans (changes_sendPacket ..)

theorem staysCalm_flushTargets (s : State) (n : Nat) : StaysCalm s (flushTargets s n) := by
  unfold flushTargets
  split
  · exact .refl s
  · refine .ite (.refl s) ?_
    dsimp only
    exact StaysCalm.trans (.modCmd ..) (staysCalm_startDurable ..)

theorem staysCalm_groupGone (s : State) (i g : Nat) : StaysCalm s (groupGone s i g) := by
  unfold groupGone
  refine .foldl (fun s n => ?_) _ s
  exact StaysCalm.trans (.trans (.modCmd ..) (staysCalm_flushTargets ..)) (staysCalm_settleFlush ..)

/-! ## Requests and moves that end -/

theorem staysCalm_commitLost (s : State) (i d : Nat) : StaysCalm s (commitLost s i d) := by
  unfold commitLost
  split
  · exact .refl s
  · split
    · exact .refl s
    · refine StaysCalm.trans (.trans ?_ (staysCalm_failAll ..)) (staysCalm_groupGone ..)
      exact .modColl _ _ _ fun _ h => h

theorem endEverywhere_of_calm (calm : Calm s) (k : Nat) (st : Status) (z : Cause) : endEverywhere s k st z = s := by
  unfold endEverywhere
  rw [calm.1]
  rfl

theorem staysCalm_endEverywhere (s : State) (k : Nat) (st : Status) (z : Cause) : StaysCalm s (endEverywhere s k st z) :=
  ⟨fun calm => by rw [endEverywhere_of_calm calm]; exact ⟨.refl _ s, calm⟩⟩

theorem staysCalm_peerFails (s : State) (txn : Nat) : StaysCalm s (peerFails s txn) := by
  unfold peerFails
  split
  · exact .refl s
  · next r _ =>
    extract_lets s₁ s₂
    have freed : StaysCalm s s₂ := staysCalm_net (((Changes.refl _ s).modNet _).modLink _ _)
    clear_value s₂
    split
    · exact freed.trans (.of_changes (changes_pieceErr ..) (fun _ _ => rfl) (fun _ _ => rfl) (by decide))
    · exact freed.trans ⟨fun calm => ⟨rfl, calm⟩⟩
    · exact freed.trans (staysCalm_decide ..)
    · exact freed.trans (staysCalm_commitLost ..)
    · exact freed.trans (staysCalm_decide ..)
    · exact freed.trans (.oneEvent (fun s => .foldl (fun s k => staysCalm_endEverywhere s k ..) _ s) s₂ false {})
    · exact freed.trans (staysCalm_endEverywhere ..)

theorem staysCalm_endMove (s : State) (n : Nat) (st : Status) (z : Cause) : StaysCalm s (endMove s n st z) := by
  unfold endMove
  split
  · exact .refl s
  · next x _ =>
    refine StaysCalm.trans (.trans (.trans (staysCalm_space (changes_freeMove s x)) (.modCmd ..)) (.modColl _ _ _ fun c h => ?_)) (staysCalm_decide ..)
    dsimp only
    split
    · decide
    · exact h

/-! ## A lease that ends -/

theorem Tab.get?_of_mem {α : Type} {m : Table α} (wf : Tab.wf m = true) {k : Nat} {a : α} (mem : (k, a) ∈ m) : Tab.get? m k = some a := by
  induction m with
  | nil => cases mem
  | cons y m ih =>
    obtain ⟨j, b⟩ := y
    obtain ⟨above, wf'⟩ := (Tab.wf_cons j b m).mp wf
    rcases List.mem_cons.mp mem with same | later
    · cases same
      simp [Tab.get?]
    · have ne : j ≠ k := Nat.ne_of_lt (above _ later)
      rw [Tab.get?, if_neg ne]
      exact ih wf' later

/-- A tile of a lost lender (R415). -/
def TileEntry.orphaned (e : TileEntry) : TileEntry :=
  { e with tier := 4, location := e.backing, backed := false, backing := 0, dirty := false, lost := e.lost || e.dirty }

/-- A tile of a lease whose lender is lost takes its T4 copy (R415). -/
theorem leaveLease_spec {k : Nat} (own : (s.tile k).kind ≠ .index) : Changes [.tiers, .logs, .port0, .port1] s (leaveLease s true k) ∧
    (leaveLease s true k).tiers.borrowed = s.tiers.borrowed ∧
      ∀ j, (leaveLease s true k).tile j = if j = k then (s.tile k).orphaned else s.tile j := by
  have set_ : ∃ u, Changes [.tiers] s u ∧ u.tiers.borrowed = s.tiers.borrowed ∧ (∀ j, u.tile j = if j = k then (s.tile k).orphaned else s.tile j) ∧
      Changes [.logs, .port0, .port1] u (leaveLease s true k) := by
    refine ⟨setTile (s.modTiers fun x => { x with backingQueue := x.backingQueue.filter (· != k) }) k (s.tile k).orphaned, rfl, rfl,
      fun j => tile_setTile .., ?_⟩
    unfold leaveLease
    dsimp only
    split
    · next index => exact absurd index own
    · have noWrite : ((s.tile k).dirty && !true) = false := by simp
      have lost : ((s.tile k).lost || ((s.tile k).dirty && true)) = ((s.tile k).lost || (s.tile k).dirty) := by simp
      rw [noWrite, if_neg Bool.false_ne_true, lost]
      exact .ite (changes_objectLog ..) (.refl _ _)
  obtain ⟨u, set_, borrowed, tile, logged⟩ := set_
  refine ⟨set_.comp logged, (logged.same fun s => s.tiers.borrowed).trans borrowed, fun j => ?_⟩
  exact (logged.same fun s => s.tile j).trans (tile j)

/-- Tiles that lie in T3 leave a lease one after another. -/
def leftTiles (s : State) (ts : List Nat) : State := ts.foldl (fun s t => if (s.tile t).tier = 3 then leaveLease s true t else s) s

theorem leftTiles_spec (ts : List Nat) (s : State) (own : ∀ k ∈ ts, (s.tile k).kind ≠ .index) :
    Changes [.tiers, .logs, .port0, .port1] s (leftTiles s ts) ∧ (leftTiles s ts).tiers.borrowed = s.tiers.borrowed ∧
      ∀ j, (leftTiles s ts).tile j = if j ∈ ts ∧ (s.tile j).tier = 3 then (s.tile j).orphaned else s.tile j := by
  induction ts generalizing s with
  | nil => exact ⟨.refl _ s, rfl, by simp [leftTiles]⟩
  | cons k ts ih =>
    have step : leftTiles s (k :: ts) = leftTiles (if (s.tile k).tier = 3 then leaveLease s true k else s) ts := rfl
    rw [step]
    split
    · next three =>
      obtain ⟨first, borrowed, tile⟩ := leaveLease_spec (s := s) (own k (by simp))
      generalize leaveLease s true k = u at *
      obtain ⟨rest, borrowed', tile'⟩ := ih u fun j mem => by
        rw [tile]
        split
        · exact own k (by simp)
        · exact own j (List.mem_cons_of_mem _ mem)
      refine ⟨first.trans rest, borrowed'.trans borrowed, fun j => ?_⟩
      rw [tile', tile]
      by_cases here : j = k
      · subst here
        rw [if_pos rfl, if_neg (by simp [TileEntry.orphaned]), if_pos ⟨by simp, three⟩]
      · simp only [List.mem_cons, here, false_or, if_false]
    · next other =>
      obtain ⟨rest, borrowed', tile'⟩ := ih s fun j mem => own j (List.mem_cons_of_mem _ mem)
      refine ⟨rest, borrowed', fun j => ?_⟩
      rw [tile']
      by_cases here : j = k
      · subst here
        simp [other]
      · simp only [List.mem_cons, here, false_or]

/-- What waits for a window and its tiles ends. -/
def waitersEnd (w : Nat) (ts : List Nat) (z : Cause) (s : State) : State :=
  let s := (readsOf s w).foldl peerFails s
  let s := (runsReading s ts).foldl (fun s r => endEverywhere s r .peerLost z) s
  let moves := (s.cmds.filter fun (_, x) => beforeSwitch x && x.stage == .admitted
    && (x.work.tiles.any (ts.contains ·) || (x.work.target == 3 && x.work.places.any fun p => p / 2 ^ 23 == w))).map (·.1)
  let s := moves.foldl (fun s n => endMove s n .peerLost z) s
  let wakes := (s.colls.filter fun (_, c) => c.residency == .waking && c.wakeTiles.any fun (t, _) => ts.contains t).map (·.1)
  wakes.foldl (fun s i => endWake s i .peerLost z) s

/-- The end of what waits for a lost lender. -/
def lenderLost (s : State) (l : BorrowedLease) (z : Cause) : State := oneEvent s false z (waitersEnd l.window (tilesInWindow s l.window) z)

theorem dropLease_eq {k : Nat} {l : BorrowedLease} (held : Tab.get? s.tiers.borrowed k = some l) : dropLease s k true =
    ((leftTiles (lenderLost s l (peerCause l.lender l.window 0)) (tilesInWindow s l.window)).modTiers fun x =>
      { x with borrowed := Tab.erase x.borrowed k }).modProtect fun x =>
        { x with outbound := Tab.adjust x.outbound l.window fun w => { w with valid := false } } := by
  unfold dropLease
  rw [held]
  rfl

theorem staysCalm_waitersEnd (w : Nat) (ts : List Nat) (z : Cause) (s : State) : StaysCalm s (waitersEnd w ts z s) := by
  unfold waitersEnd
  extract_lets s₁ s₂ moves s₃ wakes
  have reads : StaysCalm s s₁ := .foldl staysCalm_peerFails _ s
  have runs : StaysCalm s₁ s₂ := .foldl (fun s r => staysCalm_endEverywhere s r ..) _ s₁
  have moved : StaysCalm s₂ s₃ := .foldl (fun s n => staysCalm_endMove s n ..) _ s₂
  refine ((reads.trans runs).trans moved).trans ⟨fun calm => ?_⟩
  have none_ : wakes = [] := by
    refine List.map_eq_nil_iff.mpr (List.filter_eq_nil_iff.mpr fun c mem => ?_)
    simp [calm.2 c mem]
  rw [none_]
  exact ⟨.refl _ s₃, calm⟩

theorem staysCalm_lenderLost (s : State) (l : BorrowedLease) (z : Cause) : StaysCalm s (lenderLost s l z) :=
  .oneEvent (staysCalm_waitersEnd l.window (tilesInWindow s l.window) z) s false z

theorem dropLease_spec {k : Nat} {l : BorrowedLease} (calm : Calm s) (once : s.tiers.borrowed.filter (fun y => y.1 == k) = [(k, l)])
    (wf : Tab.wf s.tiers.map = true) (own : ∀ e ∈ s.tiers.map, e.2.tier = 3 → e.2.location / 2 ^ 23 = l.window → e.2.kind ≠ .index)
    (ht : dropLease s k true = t) : Tab.get? t.tiers.borrowed k = none ∧
      ∀ j e, Tab.get? s.tiers.map j = some e → t.tile j = if e.tier = 3 ∧ e.location / 2 ^ 23 = l.window then e.orphaned else e := by
  obtain ⟨held, gone⟩ := Tab.get?_erase_of_once once
  rw [dropLease_eq held] at ht
  have lost := (staysCalm_lenderLost s l (peerCause l.lender l.window 0)).calm calm
  generalize lenderLost s l (peerCause l.lender l.window 0) = u at *
  have tile (j : Nat) : u.tile j = s.tile j := lost.1.same fun s => s.tile j
  have entry (j : Nat) (e : TileEntry) (at_ : Tab.get? s.tiers.map j = some e) : s.tile j = e := by rw [State.tile, Tab.getD, at_]; rfl
  have listed (j : Nat) (e : TileEntry) (at_ : Tab.get? s.tiers.map j = some e) :
      j ∈ tilesInWindow s l.window ↔ e.tier = 3 ∧ e.location / 2 ^ 23 = l.window := by
    constructor
    · intro mem
      obtain ⟨⟨j', e'⟩, inWindow, rfl⟩ := List.mem_map.mp mem
      obtain ⟨inMap, here⟩ := List.mem_filter.mp inWindow
      obtain rfl : e' = e := Option.some.inj ((Tab.get?_of_mem wf inMap).symm.trans at_)
      simpa using here
    · intro here
      exact List.mem_map.mpr ⟨(j, e), List.mem_filter.mpr ⟨Tab.mem_of_get? at_, by simpa using here⟩, rfl⟩
  obtain ⟨-, borrowed, left⟩ := leftTiles_spec (tilesInWindow s l.window) u fun j mem => by
    obtain ⟨⟨j', e⟩, inWindow, rfl⟩ := List.mem_map.mp mem
    obtain ⟨inMap, here⟩ := List.mem_filter.mp inWindow
    rw [tile, entry _ e (Tab.get?_of_mem wf inMap)]
    have inside : e.tier = 3 ∧ e.location / 2 ^ 23 = l.window := by simpa using here
    exact own _ inMap inside.1 inside.2
  subst ht
  refine ⟨?_, fun j e at_ => ?_⟩
  · change Tab.get? (Tab.erase (leftTiles u _).tiers.borrowed k) k = none
    rw [borrowed, lost.1.same fun s => s.tiers.borrowed]
    exact gone
  · refine (left j).trans ?_
    rw [tile, entry j e at_]
    have same : ((e.tier = 3 ∧ e.location / 2 ^ 23 = l.window) ∧ e.tier = 3) ↔ e.tier = 3 ∧ e.location / 2 ^ 23 = l.window := by tauto
    simp only [listed j e at_, same]

/-- The lender closes the window (R389, R412). -/
theorem closeLease_eq {k : Nat} {l : LentLease} (held : Tab.get? s.tiers.lent k = some l) : closeLease s k = { s with
    tiers := { s.tiers with lent := Tab.erase s.tiers.lent k }, protect := { s.protect with
      inbound := Tab.adjust s.protect.inbound l.window fun w => { w with valid := false, gen := w.gen + 1 }
      peerDtc := Tab.keep s.protect.peerDtc fun a _ => a / 2 ^ 23 % 2 ^ 14 != l.window
      t2Free := (l.table, 32) :: (l.page, 262144) :: s.protect.t2Free } } := by
  unfold closeLease givePages
  rw [held]
  dsimp only [State.modProtect, State.modTiers]

/-- Settles O27, by the write of a backing, and by either side of the lease. -/
theorem backingsAndLeaseEnds : Obligations.BackingsAndLeaseEnds := by
  refine ⟨fun k e s serves up writes held queued backed tier => ?_, fun k l s serves small once revoking => ?_,
    fun k l s up still once revoked runs wf asleep own => ?_⟩
  · have row : exec (.t4BackingWrite k) s = .next (backingEffect s k e) := by
      change execT4BackingWrite k s = _
      unfold execT4BackingWrite
      rw [held]
      refine occurs_of_true ?_ _ s
      rw [serves, up, writes, queued, backed]
      rcases tier with two | ⟨three, dirty⟩
      · simp [two]
      · simp [three, dirty]
    refine ⟨_, row, ?_, ?_, rfl⟩
    · change t4TileOf e.backing ∈ s.flash.wbuf ++ [t4TileOf e.backing].filter fun t => !s.flash.wbuf.contains t
      by_cases there : t4TileOf e.backing ∈ s.flash.wbuf
      · exact List.mem_append_left _ there
      · exact List.mem_append_right _ (by simp [there])
    · change k ∉ s.tiers.backingQueue.filter (· != k)
      simp
  · obtain ⟨held, gone⟩ := Tab.get?_erase_of_once once
    have row : exec (.revokeGraceExpiry k) s = .next (closeLease s k) := by
      change execRevokeGraceExpiry k s = _
      unfold execRevokeGraceExpiry
      rw [if_pos small, held]
      exact occurs_of_true (by rw [serves, revoking]; rfl) _ s
    refine ⟨_, row.trans (congrArg _ (closeLease_eq held)), gone, fun w at_ => ?_, rfl⟩
    exact (Tab.get?_adjust_self ..).trans (by rw [at_]; rfl)
  · obtain ⟨held, -⟩ := Tab.get?_erase_of_once once
    have row : exec (.revokeGraceExpiry (65536 + k)) s = .next (dropLease s k true) := by
      change execRevokeGraceExpiry (65536 + k) s = _
      unfold execRevokeGraceExpiry
      rw [if_neg (by omega), Nat.add_sub_cancel_left, held]
      exact occurs_of_true (by rw [up, still, revoked]; rfl) _ s
    obtain ⟨gone, tile⟩ := dropLease_spec ⟨runs, asleep⟩ once wf own rfl
    refine ⟨_, row, gone, fun j e at_ three here => ?_, fun j e at_ out => ?_⟩
    · rw [tile j e at_, if_pos ⟨three, here⟩]
      rfl
    · rw [tile j e at_, if_neg (by tauto)]

end Sys2Proof.Machine
end

section
/-! SUPPORT. A mutation that a vectors tile takes for a reader, and the statement about the ends of searches (R144, R150, R227). -/

namespace Sys2Proof.Machine

open Sys2Proof

-- Proofs are checked one at a time: each that waits for its turn would hold a thread's stack.
set_option Elab.async false

/-- A RUNNING INSERT of queue pair 0 whose search part re-ranks record 7 with its full vector. -/
def rerankingInsert : Cmd :=
  { origin := .sq .p0 0, entry := entryOf [(0, 2), (1, 2), (2, 9), (0x3C, 2 ^ 21)], input := [], stage := .admitted, snapshot := some 1
    search := { phase := .reranking, merged := [{ key := 0, vid := 7, loc := .slot 0 0 }] } }

/-- Collection 0 holds record 7, whose full vector lies in tile 9; command 3 is the INSERT. -/
def insertReadsTile : State := { idleDevice with
  cmds := [(3, rerankingInsert)]
  colls := [(0, { idMap := [(7, { ins := 1, staged := none, slots := [] })], fulls := [(fullKey 7 1, (9, 0, []))] })]
  tiers := { idleDevice.tiers with map := [(9, { tier := 2, kind := .vectors })] } }

/-- Refutes O40: an INSERT in the state of a re-rank is among the readers of the tile that misses its bound. It ends with TIER_LATE and, as every
mutation, with 0xFFFFFFFF in DW3, where the statement asks for 0. -/
theorem not_searchesEnd : ¬ Obligations.SearchesEnd := by
  intro h
  have readers : rerankReaders insertReadsTile 0 .vectors 9 = [3] := by decide +kernel
  obtain ⟨t, run, decided, -⟩ := h.2 9 { tier := 2, kind := .vectors } insertReadsTile (by decide) rfl rfl (by rw [readers]; decide) (by
    rw [readers]
    intro n mem
    obtain rfl := List.mem_singleton.mp mem
    exact ⟨rerankingInsert, rfl, ⟨.p0, 0, rfl⟩, rfl, rfl, by decide, rfl, by decide⟩)
  obtain ⟨x, k, here, -, completion, -, -, zero⟩ := decided 3 (by rw [readers]; decide)
  have last : ((leftBy (.tileBoundExpiry 9) insertReadsTile).cmd? 3).bind (·.completion) |>.any (fun k => k.dw3 == 0xFFFFFFFF) := by decide +kernel
  rw [leftBy_eq run, here, Option.bind_some, completion, Option.any_some, zero] at last
  exact absurd last (by decide)

end Sys2Proof.Machine
end

section
/-! SUPPORT. Records that move between the stores of a collection: what appends, compactions, shadows and the growth of the index leave alone;
the statement about the maintenance of the index (R169, R184, R186, R188, R189). -/

namespace Sys2Proof.Machine

open Sys2Proof

-- Proofs are checked one at a time: each that waits for its turn would hold a thread's stack.
set_option Elab.async false

variable {s t u : State} {i j : Nat}

/-! ## Collections whose records move -/

/-- A collection with the places of its records and the beacons it has had taken from another. -/
def Collection.place (c y : Collection) : Collection := { c with
  segs := y.segs, staging := y.staging, stagingUsed := y.stagingUsed, idMap := y.idMap, versions := y.versions, sizeLogs := y.sizeLogs
  fulls := y.fulls, tokens := y.tokens, vecUsed := y.vecUsed, tokUsed := y.tokUsed, vecTiles := y.vecTiles, tokTiles := y.tokTiles
  indexTiles := y.indexTiles, idPages := y.idPages, blockTiles := y.blockTiles, blockUsed := y.blockUsed
  beacons := y.beacons }

/-- From c to y only the places of records changed. -/
structure Collection.Moves (c y : Collection) : Prop where
  eq : y = c.place y

namespace Collection.Moves

variable {c y z : Collection}

theorem refl (c : Collection) : c.Moves c := ⟨rfl⟩

theorem trans (h : c.Moves y) (k : y.Moves z) : c.Moves z :=
  ⟨k.eq.trans (congrArg (·.place z) h.eq :)⟩

/-- What does not look at the places of records stays the same. -/
theorem same {α : Type} (h : c.Moves y) (g : Collection → α) (out : ∀ c y, g (c.place y) = g c := by intro _ _; rfl) : g y = g c :=
  (congrArg g h.eq).trans (out c y)

end Collection.Moves

/-! ## States in which records of collection i move -/

/-- From s to t records of collection i moved: no other collection and no command changed. -/
structure Moves (i : Nat) (s t : State) : Prop where
  cmds : t.cmds = s.cmds
  others : ∀ j, j ≠ i → t.coll? j = s.coll? j
  mine : ∀ c, s.coll? i = some c → ∃ y, t.coll? i = some y ∧ c.Moves y

namespace Moves

theorem refl (i : Nat) (s : State) : Moves i s s := ⟨rfl, fun _ _ => rfl, fun c h => ⟨c, h, .refl c⟩⟩

theorem trans (h : Moves i s t) (k : Moves i t u) : Moves i s u := by
  refine ⟨k.cmds.trans h.cmds, fun j ne => (k.others j ne).trans (h.others j ne), fun c here => ?_⟩
  obtain ⟨y, at_, moved⟩ := h.mine c here
  obtain ⟨z, at', moved'⟩ := k.mine y at_
  exact ⟨z, at', moved.trans moved'⟩

theorem of_changes {l : List Part} (h : Changes l s t) (cmds : ∀ s t, (State.take l s t).cmds = s.cmds)
    (colls : ∀ s t, (State.take l s t).colls = s.colls) : Moves i s t := by
  have same (j : Nat) : t.coll? j = s.coll? j := congrArg (Tab.get? · j) (h.same (·.colls) colls)
  exact ⟨h.same (·.cmds) cmds, fun j _ => same j, fun c here => ⟨c, (same i).trans here, .refl c⟩⟩

theorem modColl (s : State) (i : Nat) (f : Collection → Collection) (moves : ∀ c : Collection, c.Moves (f c)) : Moves i s (s.modColl i f) :=
  ⟨rfl, fun _ ne => State.coll?_modColl_ne s ne f, fun c here => ⟨f c, State.coll?_modColl here f, moves c⟩⟩

/-- Steps that may fail, one after another. -/
theorem foldl_option {α : Type} {g : Option State → α → Option State} (fails : ∀ a, g none a = none)
    (h : ∀ s a t, g (some s) a = some t → Moves i s t) (as : List α) {s t : State} (ht : as.foldl g (some s) = some t) : Moves i s t := by
  have stuck (as : List α) : as.foldl g none = none := by
    induction as with
    | nil => rfl
    | cons a as ih => rw [List.foldl_cons, fails, ih]
  induction as generalizing s with
  | nil =>
    cases ht
    exact .refl i _
  | cons a as ih =>
    rw [List.foldl_cons] at ht
    cases first : g (some s) a with
    | none =>
      rw [first, stuck] at ht
      cases ht
    | some s₁ =>
      rw [first] at ht
      exact (h s a s₁ first).trans (ih ht)

theorem foldl_bind {α : Type} {g : State → α → Option State} (h : ∀ s a t, g s a = some t → Moves i s t) (as : List α) {s t : State}
    (ht : as.foldl (fun s a => s.bind fun s => g s a) (some s) = some t) : Moves i s t :=
  foldl_option (fun _ => rfl) h as ht

end Moves

/-! ## Tiles of T2 -/

theorem changes_withMapPage {n : Nat} (h : withMapPage s n = some t) : Changes [.protect, .tiers] s t := by
  unfold withMapPage at h
  split at h
  · cases h
    exact .refl _ s
  · obtain ⟨⟨p, s₁⟩, took, rfl⟩ := Option.map_eq_some_iff.mp h
    exact ((changes_takePages took).mono (by decide)).modTiers _

theorem changes_addTiles {n o : Nat} {k : ObjKind} {ts : List Nat} (h : addTiles n s o k = some (ts, t)) : Changes [.protect, .tiers] s t := by
  induction n generalizing s t ts with
  | zero =>
    cases h
    exact .refl _ s
  | succ n ih =>
    unfold addTiles at h
    dsimp only at h
    split at h
    · cases h
    · next p s₁ took =>
      split at h
      · cases h
      · next us s₂ rest =>
        cases h
        obtain ⟨s₀, page, pages⟩ := Option.bind_eq_some_iff.mp took
        exact (((changes_withMapPage page).andThen (changes_takePages pages)).andThen (changes_setTile ..)).trans (ih rest)

theorem moves_addTiles {n o : Nat} {k : ObjKind} {ts : List Nat} (h : addTiles n s o k = some (ts, t)) : Moves i s t :=
  .of_changes (changes_addTiles h) (fun _ _ => rfl) (fun _ _ => rfl)

theorem changes_noteTileWrite (s : State) (k : Nat) : Changes [.tiers, .flash] s (noteTileWrite s k) := by
  unfold noteTileWrite
  split
  · exact .refl _ s
  · dsimp only
    refine .ite ?_ (.ite ?_ (.ite ?_ (.refl _ s)))
    · exact ((changes_setTile s ..).mono (by decide)).modTiers _
    · exact (changes_queueT4 ..).mono (by decide)
    · exact ((changes_freeT4 ..).mono (by decide)).andThen (changes_setTile ..)

theorem moves_noteTileWrite (s : State) (k : Nat) : Moves i s (noteTileWrite s k) :=
  .of_changes (changes_noteTileWrite s k) (fun _ _ => rfl) (fun _ _ => rfl)

theorem moves_dropTiles (s : State) (ts : List Nat) : Moves i s (dropTiles s ts) :=
  .of_changes (changes_dropTiles s ts) (fun _ _ => rfl) (fun _ _ => rfl)

/-! ## Segments and their blocks -/

theorem moves_newBlock {b : Nat} (h : newBlock s i = some (b, t)) : Moves i s t := by
  unfold newBlock at h
  split at h
  · cases h
  · dsimp only at h
    split at h
    · cases h
      exact .modColl _ _ _ fun _ => ⟨rfl⟩
    · split at h
      · next k s₁ added =>
        cases h
        refine (moves_addTiles added).trans ?_
        exact .modColl _ _ _ fun _ => ⟨rfl⟩
      · cases h

theorem moves_map_newBlock {f : Nat × State → State} (place : ∀ b s, Moves i s (f (b, s))) (h : (newBlock s i).map f = some t) : Moves i s t := by
  obtain ⟨⟨b, s₁⟩, new, rfl⟩ := Option.map_eq_some_iff.mp h
  exact (moves_newBlock new).trans (place b s₁)

theorem moves_growSegment {k : Nat} (h : growSegment s i k = some t) : Moves i s t := by
  unfold growSegment at h
  split at h
  · cases h
    exact .refl i s
  · next g _ =>
    extract_lets put s₁ at h
    have first {u : State} (hu : s₁ = some u) : Moves i s u := by
      change (if _ then _ else some s) = some u at hu
      split at hu
      · exact moves_map_newBlock (fun b s => .modColl _ _ _ fun _ => ⟨rfl⟩) hu
      · cases hu
        exact .refl i s
    split at h
    · obtain ⟨⟨b, s₂⟩, new, rfl⟩ := Option.map_eq_some_iff.mp h
      obtain ⟨u, hu, block⟩ := Option.bind_eq_some_iff.mp new
      refine ((first hu).trans (moves_newBlock block)).trans ?_
      exact .modColl _ _ _ fun _ => ⟨rfl⟩
    · exact first h

theorem moves_growBlocks (h : growBlocks s i = some t) : Moves i s t := .foldl_bind (fun _ _ _ => moves_growSegment) _ h

theorem moves_newSegment {g : Segment} {k : Nat} (h : newSegment s i g = some (k, t)) : Moves i s t := by
  unfold newSegment at h
  split at h
  · next k s₁ added =>
    obtain ⟨u, grown, eq⟩ := Option.map_eq_some_iff.mp h
    cases eq
    refine ((moves_addTiles added).trans ?_).trans (moves_growSegment grown)
    exact .modColl _ _ _ fun _ => ⟨rfl⟩
  · cases h

/-! ## Vectors and tokens -/

theorem moves_putFull {c : Collection} {k : Nat} {b : List Byte} (h : putFull s i c k b = some t) : Moves i s t := by
  unfold putFull at h
  split at h
  · cases h
    exact .refl i s
  · dsimp only at h
    split at h
    · next k _ _ =>
      cases h
      refine (moves_noteTileWrite s k).trans ?_
      exact .modColl _ _ _ fun _ => ⟨rfl⟩
    · split at h
      · next k s₁ added =>
        cases h
        refine (moves_addTiles added).trans ?_
        exact .modColl _ _ _ fun _ => ⟨rfl⟩
      · cases h

theorem moves_putTokens {c : Collection} {k : Nat} {ts : List (BitVec 32)} (h : putTokens s i c k ts = some t) : Moves i s t := by
  unfold putTokens at h
  split at h
  · cases h
    exact .refl i s
  · split at h
    · next k _ _ =>
      cases h
      refine (moves_noteTileWrite s k).trans ?_
      exact .modColl _ _ _ fun _ => ⟨rfl⟩
    · split at h
      · next k s₁ added =>
        cases h
        refine (moves_addTiles added).trans ?_
        exact .modColl _ _ _ fun _ => ⟨rfl⟩
      · cases h

end Sys2Proof.Machine
end

section
/-! SUPPORT. Appends, compactions and images, and the statement about the maintenance of the index (R169, R184, R186, R188, R189). -/

namespace Sys2Proof.Machine

open Sys2Proof

-- Proofs are checked one at a time: each that waits for its turn would hold a thread's stack.
set_option Elab.async false

variable {s t u : State} {i j l : Nat} {c y : Collection}

/-! ## Directory versions that a collection gives up -/

theorem getLast?_filter_of_last {α : Type} {p : α → Bool} {as : List α} (h : ∀ a, as.getLast? = some a → p a = true) :
    (as.filter p).getLast? = as.getLast? := by
  rcases List.eq_nil_or_concat as with rfl | ⟨bs, b, rfl⟩
  · rfl
  · have keeps : p b = true := h b (by simp)
    simp [keeps]

/-- From c to y records moved, and older directory versions went. -/
structure Collection.Prunes (c y : Collection) : Prop where
  moves : Collection.Moves { c with dirs := y.dirs } y
  latest : latestDir y = latestDir c

theorem latestDir_filter_keepDir (held : List Nat) (floor : Nat) (dirs : List DirVersion) (eq : dirs = c.dirs.filter (keepDir c held floor))
    (hy : y.dirs = dirs) : latestDir y = latestDir c := by
  unfold latestDir
  rw [hy, eq, getLast?_filter_of_last]
  intro v last
  simp [keepDir, latestDir, last]

theorem gcColl_spec (s : State) (i : Nat) : (gcColl s i).cmds = s.cmds ∧ (∀ j, j ≠ i → (gcColl s i).coll? j = s.coll? j) ∧
    ∀ c, s.coll? i = some c → ∃ y, (gcColl s i).coll? i = some y ∧ c.Prunes y := by
  unfold gcColl
  split
  · next none_ => exact ⟨rfl, fun _ _ => rfl, fun c here => by rw [none_] at here; cases here⟩
  · next c here =>
    extract_lets floor dirs named goneSegs done goneStaged versions forget held segs blocks c₁ live fulls toks vt tt c₂ gone
    have dropped : Moves i { s with colls := Tab.set s.colls i c₂ } (dropTiles { s with colls := Tab.set s.colls i c₂ } gone) := moves_dropTiles ..
    have at_ : State.coll? { s with colls := Tab.set s.colls i c₂ } i = some c₂ := Tab.get?_set_self ..
    refine ⟨dropped.cmds, fun j ne => (dropped.others j ne).trans (Tab.get?_set_ne _ _ ne), fun c' here' => ?_⟩
    obtain rfl := Option.some.inj (here.symm.trans here')
    obtain ⟨y, at', moved⟩ := dropped.mine c₂ at_
    have kept : y.dirs = dirs := moved.same (·.dirs)
    refine ⟨y, at', ⟨?_, latestDir_filter_keepDir _ _ dirs rfl kept⟩⟩
    rw [kept]
    exact Collection.Moves.trans ⟨rfl⟩ moved

/-! ## Appends (R169) -/

/-- The places of a staged copy: the tail of its list, or a new segment. -/
theorem moves_appendCopy {k : Nat} {v w : DirVersion} (h : appendCopy s i l k v = some (t, w)) : Moves i s t ∧ w.number = v.number := by
  unfold appendCopy at h
  split at h
  · cases h
  · next c _ =>
    split at h
    · cases h
      exact ⟨.refl i s, rfl⟩
    · next e _ =>
      extract_lets ins code rec_ fits tail place at h
      have opened {f : Nat × State → Nat × State × DirVersion} {s₀ : State} {g : Segment} {n : Nat} {s₁ : State} {v₁ : DirVersion}
          (keeps : ∀ u s, (f (u, s)).2.1 = s ∧ (f (u, s)).2.2.number = v.number) (hp : (newSegment s₀ i g).map f = some (n, s₁, v₁)) :
          Moves i s₀ s₁ ∧ v₁.number = v.number := by
        obtain ⟨⟨n', s'⟩, new, eq⟩ := Option.map_eq_some_iff.mp hp
        obtain ⟨same, number⟩ := keeps n' s'
        rw [eq] at same number
        obtain rfl : s₁ = s' := same
        exact ⟨moves_newSegment new, number⟩
      clear_value tail
      have placed {n : Nat} {s₁ : State} {v₁ : DirVersion} (hp : place = some (n, s₁, v₁)) : Moves i s s₁ ∧ v₁.number = v.number := by
        change (match tail with | some t => _ | none => _) = some _ at hp
        split at hp
        · split at hp
          · obtain ⟨-, rfl, rfl⟩ : _ ∧ s = s₁ ∧ v = v₁ := by simpa using hp
            exact ⟨.refl i s, rfl⟩
          · dsimp only at hp
            obtain ⟨moved, number⟩ := opened (fun _ _ => ⟨rfl, rfl⟩) hp
            refine ⟨Moves.trans ?_ moved, number⟩
            exact .modColl _ _ _ fun _ => ⟨rfl⟩
        · exact opened (fun _ _ => ⟨rfl, rfl⟩) hp
      clear_value place
      split at h
      · cases h
      · next n s₁ v₁ =>
        obtain ⟨moved, number⟩ := placed rfl
        split at h
        · cases h
        · next s₂ put =>
          obtain ⟨rfl, rfl⟩ := Prod.mk.inj (Option.some.inj h)
          obtain ⟨s₃, full, tokens⟩ := Option.bind_eq_some_iff.mp put
          obtain ⟨c', -, tokens⟩ := Option.bind_eq_some_iff.mp tokens
          refine ⟨((moved.trans (moves_putFull full)).trans (moves_putTokens tokens)).trans ?_, number⟩
          exact .modColl _ _ _ fun _ => ⟨rfl⟩

theorem moves_appendAll {ks : List Nat} {v w : DirVersion} (h : appendAll ks s i l v = some (t, w)) : Moves i s t ∧ w.number = v.number := by
  induction ks generalizing s v with
  | nil =>
    cases h
    exact ⟨.refl i _, rfl⟩
  | cons k ks ih =>
    unfold appendAll at h
    split at h
    · next s₁ v₁ first =>
      obtain ⟨moved, number⟩ := moves_appendCopy first
      obtain ⟨rest, number'⟩ := ih h
      exact ⟨moved.trans rest, number'.trans number⟩
    · cases h

theorem latestDir_append {v : DirVersion} {dirs : List DirVersion} (h : y.dirs = dirs ++ [v]) : latestDir y = v := by
  simp [latestDir, h]

/-- A new directory version covers records that moved, and older ones go. -/
structure Collection.Renews (c y : Collection) (number : Nat) : Prop where
  moves : Collection.Moves { c with dirs := y.dirs } y
  latest : (latestDir y).number = number

theorem appendList_spec (h : appendList s i l = some t) (here : s.coll? i = some c) : t.cmds = s.cmds ∧ (∀ j, j ≠ i → t.coll? j = s.coll? j) ∧
    ∃ y, t.coll? i = some y ∧ c.Renews y ((latestDir c).number + 1) := by
  unfold appendList at h
  rw [here] at h
  dsimp only at h
  split at h
  · cases h
  · next s₁ v₁ appended =>
    obtain ⟨moved, number⟩ := moves_appendAll appended
    obtain ⟨s₂, grown, rfl⟩ := Option.map_eq_some_iff.mp h
    have both : Moves i s s₂ := moved.trans (moves_growBlocks grown)
    obtain ⟨y, at_, place⟩ := both.mine c here
    obtain ⟨cmds, others, mine⟩ := gcColl_spec (s₂.modColl i fun c => { c with dirs := c.dirs ++ [v₁] }) i
    obtain ⟨z, at', pruned⟩ := mine _ (State.coll?_modColl at_ _)
    refine ⟨cmds.trans both.cmds, fun j ne => (others j ne).trans ((State.coll?_modColl_ne _ ne _).trans (both.others j ne)), z, at', ?_, ?_⟩
    · have fromStart : Collection.Moves { c with dirs := z.dirs } { y with dirs := z.dirs } :=
        ⟨(congrArg (fun y : Collection => { y with dirs := z.dirs }) place.eq :)⟩
      exact fromStart.trans pruned.moves
    · rw [pruned.latest, latestDir_append rfl]
      exact number

/-! ## Compactions (R188, R189) -/

theorem moves_placeRuns (runs : List (List Packed)) (s : State) (i l gen : Nat) (seal1 : Bool) : Moves i s (placeRuns runs s i l gen seal1).1 := by
  induction runs generalizing s with
  | nil => exact .refl i s
  | cons run rest ih =>
    unfold placeRuns
    dsimp only
    split
    · exact .refl i s
    · next k s₁ new => exact (moves_newSegment new).trans (ih s₁)

/-- A list is rewritten: its sealed segments give way to fewer (R188). -/
structure Collection.Compacts (c y : Collection) (l : Nat) : Prop where
  renews : c.Renews y ((latestDir c).number + 1)
  fewer : (listSegs (latestDir y) l).length < (listSegs (latestDir c) l).length
  others : ∀ m, m ≠ l → listSegs (latestDir y) m = listSegs (latestDir c) m

theorem length_filter_split {L : List Nat} (p : Nat → Bool) :
    (L.filter p).length + (L.filter fun k => !(L.filter p).contains k).length ≤ L.length := by
  have rest : L.countP (fun k => !(L.filter p).contains k) ≤ L.countP fun k => !p k := by
    refine List.countP_mono_left fun k mem gone => ?_
    by_contra kept
    have inside : k ∈ L.filter p := List.mem_filter.mpr ⟨mem, by simpa using kept⟩
    simp [inside] at gone
  have all := List.length_eq_countP_add_countP p (l := L)
  simp only [← List.countP_eq_length_filter, Bool.not_eq_true, Bool.decide_eq_false] at all ⊢
  omega

/-- What a compaction writes to a collection whose new segments are placed. -/
def Collection.compacted (c : Collection) (ts us : List Nat) (v : DirVersion) (l : Nat) : Collection :=
  let new := slotsWith c us
  let rest := (listSegs v l).filter fun t => !ts.contains t
  { c with
    idMap := c.idMap.map fun (k, e) => (k, moveSlots ts new (BitVec.ofNat 48 k) e.ins e)
    versions := c.versions.map fun x => { x with old := moveSlots ts new x.vid x.old.ins x.old }
    dirs := c.dirs ++ [{ v with
      number := v.number + 1, segs := Tab.set v.segs l (us ++ rest)
      limits := match rest.getLast? with | some _ => v.limits | none => Tab.erase v.limits l }] }

/-- The segments that a compaction is to write. -/
def compactRuns (s : State) (i l : Nat) (c : Collection) : List (List Packed) :=
  let ps := byEpoch (keptRecs c (retainFloor s i c) (sealedSegs c l))
  packRuns (slotCount c.attrs) ps.length ps

theorem compactEffect_eq (here : s.coll? i = some c) {r : State × List Nat}
    (placed : placeRuns (compactRuns s i l c) s i l (latestDir c).cbGen true = r) (all : r.2.length = (compactRuns s i l c).length) :
    compactEffect s i l = gcColl (r.1.modColl i fun c' => c'.compacted (sealedSegs c l) r.2 (latestDir c) l) i := by
  subst placed
  unfold compactEffect
  rw [here]
  exact if_neg (show ¬ (placeRuns (compactRuns s i l c) s i l (latestDir c).cbGen true).2.length < (compactRuns s i l c).length by omega)

theorem compactEffect_spec (ready : compactReady s i l = true) (here : s.coll? i = some c)
    (all : (placeRuns (compactRuns s i l c) s i l (latestDir c).cbGen true).2.length = (compactRuns s i l c).length)
    (ht : compactEffect s i l = t) : t.cmds = s.cmds ∧ (∀ j, j ≠ i → t.coll? j = s.coll? j) ∧ ∃ y, t.coll? i = some y ∧ c.Compacts y l := by
  have less : (compactRuns s i l c).length < (sealedSegs c l).length := by
    unfold compactReady at ready
    rw [here] at ready
    have due : compactionDue s i c l = true := by simp_all
    unfold compactionDue at due
    exact of_decide_eq_true (Bool.and_eq_true_iff.mp due).2
  have moved := moves_placeRuns (compactRuns s i l c) s i l (latestDir c).cbGen true
  generalize placed : placeRuns (compactRuns s i l c) s i l (latestDir c).cbGen true = r at *
  obtain ⟨u, us⟩ := r
  obtain ⟨y, at_, place⟩ := moved.mine c here
  obtain ⟨cmds, others, mine⟩ := gcColl_spec (u.modColl i fun c' => c'.compacted (sealedSegs c l) us (latestDir c) l) i
  obtain ⟨z, at', pruned⟩ := mine _ (State.coll?_modColl at_ _)
  rw [← ht, compactEffect_eq here placed all]
  refine ⟨cmds.trans moved.cmds, fun j ne => (others j ne).trans ((State.coll?_modColl_ne _ ne _).trans (moved.others j ne)), z, at', ⟨?_, ?_⟩, ?_,
    fun m ne => ?_⟩
  · have fromStart : Collection.Moves { c with dirs := z.dirs } { y with dirs := z.dirs } :=
      ⟨(congrArg (fun y : Collection => { y with dirs := z.dirs }) place.eq :)⟩
    exact (fromStart.trans ⟨rfl⟩).trans pruned.moves
  · rw [pruned.latest, latestDir_append rfl]
  · rw [pruned.latest, latestDir_append rfl]
    change (Tab.getD (Tab.set (latestDir c).segs l _) l []).length < _
    rw [Tab.getD_set_self, List.length_append]
    have parts := length_filter_split (L := listSegs (latestDir c) l) fun t => match Tab.get? c.segs t with | some g => g.sealEpoch != 0 | none => false
    change (sealedSegs c l).length + (List.filter (fun k => !(sealedSegs c l).contains k) _).length ≤ _ at parts
    have count : us.length = (compactRuns s i l c).length := all
    omega
  · rw [pruned.latest, latestDir_append rfl]
    change Tab.getD (Tab.set (latestDir c).segs l _) m [] = _
    rw [Tab.getD_set, if_neg ne]
    rfl

/-! ## Images (R184) -/

theorem mem_wbuf_queueT4 (s : State) {ts : List Nat} {k : Nat} (mem : k ∈ ts) : k ∈ (queueT4 s ts).flash.wbuf := by
  change k ∈ s.flash.wbuf ++ ts.filter fun t => !s.flash.wbuf.contains t
  by_cases there : k ∈ s.flash.wbuf
  · exact List.mem_append_left _ there
  · exact List.mem_append_right _ (List.mem_filter.mpr ⟨mem, by simpa using there⟩)

/-- The first image of a collection holds its records as they are published, and all its tiles are to be written. -/
theorem startImage_first {whole : Bool} (here : s.coll? i = some c) (first : c.image = none) (ht : startImage s i whole = some t) :
    ∃ ts us, t.coll? i = some { c with pendingImage := some (imageOf c c.published ts us) } ∧ (∀ k ∈ ts ++ us, k ∈ t.flash.wbuf) ∧
      t.cmds = s.cmds := by
  unfold startImage at ht
  rw [here] at ht
  simp only [first, Option.isSome_none, Bool.false_and, Bool.false_eq_true, if_false] at ht
  split at ht
  · cases ht
  · split at ht
    · cases ht
    · next ts us s₁ took =>
      obtain rfl := Option.some.inj ht
      have taken : Changes [.flash] s s₁ := changes_takeMirrored _ took
      have at_ : s₁.coll? i = some c := (taken.same fun s => s.coll? i).trans here
      refine ⟨ts, us, ?_, fun k mem => mem_wbuf_queueT4 _ mem, taken.same fun s => s.cmds⟩
      exact State.coll?_modColl at_ _

/-! ## The statement -/

/-- Settles O34, by what each row moves between the stores of its collection. -/
theorem indexIsMaintained : Obligations.IndexIsMaintained := by
  refine ⟨fun i c s serves writes here => ⟨fun home near below => ?_, fun own near below => ?_⟩, fun i l c s serves up here open_ =>
    ⟨fun inT2 staged room => ?_, fun ps ready home hps all => ?_, fun inT2 writes noPending noImage intact waiters room => ?_⟩⟩
  · exact occurs_of_true (by rw [serves, writes, here]; simp only [home, decide_eq_true near, decide_eq_true (show c.ceiling < lastEpoch from below)]; rfl) _ s
  · exact occurs_of_true (by rw [serves, writes, here]; simp only [own, decide_eq_true near, decide_eq_true below]; rfl) _ s
  · obtain ⟨t, ht⟩ := Option.isSome_iff_exists.mp room
    obtain ⟨cmds, others, y, at_, renewed⟩ := appendList_spec ht here
    have row : exec (.stagedAppend i l) s = .next t := by
      change execStagedAppend i l s = _
      unfold execStagedAppend
      rw [ht, here]
      exact occurs_of_true (by simp [live_of_serves serves, up, inT2, open_, staged]) _ s
    exact ⟨t, y, row, at_, renewed.latest, renewed.moves.same (·.published), renewed.moves.same (·.attrs), renewed.moves.same (·.groups),
      others, cmds⟩
  · subst hps
    obtain ⟨cmds, others, y, at_, compacted⟩ := compactEffect_spec ready here all rfl
    have row : exec (.compaction i l) s = .next (compactEffect s i l) := by
      refine (occurs_of_true (by rw [serves, up, ready]; rfl) _ s).trans (congrArg Host.Outcome.next ?_)
      unfold compactionEffect
      rw [here]
      exact if_pos home
    exact ⟨_, y, row, at_, compacted.renews.latest, compacted.fewer, compacted.others, compacted.renews.moves.same (·.published),
      compacted.renews.moves.same (·.attrs), others, cmds⟩
  · obtain ⟨t, ht⟩ := Option.isSome_iff_exists.mp room
    obtain ⟨ts, us, at_, written, cmds⟩ := startImage_first here noImage ht
    have row : exec (.imageWrite i) s = .next t := by
      have asked : (!(durableWaiters s i).isEmpty || !(parkersOf s i).isEmpty) = true := by
        rcases waiters with some_ | some_ <;> simp [some_]
      refine (occurs_of_true (by rw [serves, writes, here]; simp [noPending, inT2, Bool.or_assoc, asked]) _ s).trans (congrArg Host.Outcome.next ?_)
      unfold imageWriteEffect
      rw [here]
      dsimp only
      rw [intact, if_neg Bool.false_ne_true, ht]
    exact ⟨t, _, _, row, at_, rfl, rfl, rfl, rfl, written, cmds⟩

end Sys2Proof.Machine
end

section
/-! SUPPORT. Cutovers of maintenance commands, and the statement about them (R82, R193). -/

namespace Sys2Proof.Machine

open Sys2Proof

-- Proofs are checked one at a time: each that waits for its turn would hold a thread's stack.
set_option Elab.async false

variable {s t u : State} {i : Nat} {c y : Collection} {m : Maint}

/-! ## Appends before a cutover -/

/-- From c to y records moved, under new directory versions. -/
structure Collection.Shifts (c y : Collection) : Prop where
  moves : Collection.Moves { c with dirs := y.dirs } y

namespace Collection.Shifts

variable {z : Collection}

theorem refl (c : Collection) : c.Shifts c := ⟨.refl c⟩

theorem trans (h : c.Shifts y) (k : y.Shifts z) : c.Shifts z :=
  ⟨Collection.Moves.trans ⟨(congrArg (fun y : Collection => { y with dirs := z.dirs }) h.moves.eq :)⟩ k.moves⟩

theorem same {α : Type} (h : c.Shifts y) (g : Collection → α)
    (out : ∀ c y, g (Collection.place { c with dirs := y.dirs } y) = g c := by intro _ _; rfl) : g y = g c :=
  (congrArg g h.moves.eq).trans (out c y)

end Collection.Shifts

theorem foldl_bind_none {α : Type} (g : State → α → Option State) (as : List α) : as.foldl (fun s a => s.bind fun s => g s a) none = none := by
  induction as with
  | nil => rfl
  | cons a as ih => exact ih

theorem appendEvery_spec (h : appendEvery s i = some t) (here : s.coll? i = some c) : t.cmds = s.cmds ∧ (∀ j, j ≠ i → t.coll? j = s.coll? j) ∧
    ∃ y, t.coll? i = some y ∧ c.Shifts y := by
  have all (ls : List Nat) : ∀ (s t : State) (c : Collection), s.coll? i = some c →
      ls.foldl (fun s l => s.bind fun s => appendList s i l) (some s) = some t →
      t.cmds = s.cmds ∧ (∀ j, j ≠ i → t.coll? j = s.coll? j) ∧ ∃ y, t.coll? i = some y ∧ c.Shifts y := by
    induction ls with
    | nil =>
      rintro s t c here ⟨⟩
      exact ⟨rfl, fun _ _ => rfl, c, here, .refl c⟩
    | cons l ls ih =>
      intro s t c here h
      rw [List.foldl_cons, Option.bind_some] at h
      cases first : appendList s i l with
      | none =>
        rw [first, foldl_bind_none] at h
        cases h
      | some s₁ =>
        rw [first] at h
        obtain ⟨cmds, others, y, at_, renewed⟩ := appendList_spec first here
        obtain ⟨cmds', others', z, at', shifted⟩ := ih s₁ t y at_ h
        exact ⟨cmds'.trans cmds, fun j ne => (others' j ne).trans (others j ne), z, at', Collection.Shifts.trans ⟨renewed.moves⟩ shifted⟩
  unfold appendEvery at h
  rw [here] at h
  exact all _ s t c here h

/-! ## The shadow's place -/

theorem moves_placeShadow {gen slots : Nat} {copies : List (Nat × Packed)} {ls : List Nat} {us : List (Nat × List Nat)}
    (h : placeShadow i gen slots copies ls s = some (t, us)) : Moves i s t := by
  induction ls generalizing s t us with
  | nil =>
    cases h
    exact .refl i _
  | cons l ls ih =>
    unfold placeShadow at h
    extract_lets ps runs at h
    have placed := moves_placeRuns runs s i l gen false
    dsimp only at h
    split at h
    · cases h
    · obtain ⟨⟨t', us'⟩, rest, eq⟩ := Option.map_eq_some_iff.mp h
      cases eq
      exact placed.trans (ih rest)

theorem moves_growIdMap (h : growIdMap s i = some t) : Moves i s t := by
  unfold growIdMap at h
  split at h
  · cases h
    exact .refl i s
  · dsimp only at h
    split at h
    · next ts s₁ added =>
      cases h
      refine (moves_addTiles added).trans ?_
      exact .modColl _ _ _ fun _ => ⟨rfl⟩
    · cases h

theorem moves_growIndex (h : growIndex s i = some t) : Moves i s t := by
  obtain ⟨s₁, ids, blocks⟩ := Option.bind_eq_some_iff.mp h
  exact (moves_growIdMap ids).trans (moves_growBlocks blocks)

theorem moves_learnEpoch (s : State) (i e : Nat) : Moves i s (learnEpoch s i e) := .modColl _ _ _ fun _ => ⟨rfl⟩

theorem moves_sendBeacons (s : State) (i : Nat) : Moves i s (sendBeacons s i) := by
  unfold sendBeacons
  split
  · exact .refl i s
  · split
    · refine Moves.trans ?_ (moves_learnEpoch _ i _)
      exact .of_changes (.foldl (fun s _ => changes_sendPacket s _) _ s) (fun _ _ => rfl) (fun _ _ => rfl)
    · exact .refl i s

/-! ## What a cutover leaves of its collection (R193) -/

/-- The epoch e has the books and the LIST_COUNT of a maintenance command in force, and the command is over. -/
structure Collection.CutOver (y : Collection) (m : Maint) (e : Nat) : Prop where
  published : y.published = e
  codebook : y.codebook = m.codebook
  centroids : y.centroids = m.centroids
  cbGen : y.cbGen = m.gen
  listCount : y.attrs.listCount = m.listCount
  maint : y.maint = none
  dirGen : (latestDir y).cbGen = m.gen
  dirCount : (latestDir y).listCount = m.listCount
  dirEpoch : (latestDir y).fromEpoch = e

theorem Collection.CutOver.moves {e : Nat} (h : c.CutOver m e) (moved : c.Moves y) : y.CutOver m e := by
  have dir : latestDir y = latestDir c := moved.same latestDir
  exact ⟨(moved.same (·.published)).trans h.published, (moved.same (·.codebook)).trans h.codebook, (moved.same (·.centroids)).trans h.centroids,
    (moved.same (·.cbGen)).trans h.cbGen, (moved.same (·.attrs.listCount)).trans h.listCount, (moved.same (·.maint)).trans h.maint,
    by rw [dir]; exact h.dirGen, by rw [dir]; exact h.dirCount, by rw [dir]; exact h.dirEpoch⟩

theorem Collection.CutOver.prunes {e : Nat} (h : c.CutOver m e) (pruned : c.Prunes y) : y.CutOver m e := by
  have moved := pruned.moves
  have dir := pruned.latest
  exact ⟨(moved.same (·.published)).trans h.published, (moved.same (·.codebook)).trans h.codebook, (moved.same (·.centroids)).trans h.centroids,
    (moved.same (·.cbGen)).trans h.cbGen, (moved.same (·.attrs.listCount)).trans h.listCount, (moved.same (·.maint)).trans h.maint,
    by rw [dir]; exact h.dirGen, by rw [dir]; exact h.dirCount, by rw [dir]; exact h.dirEpoch⟩

/-- The scan sizes of lists that a cutover places. -/
theorem moves_sizeLogs {α : Type} (f : Collection → α → Table (List (Nat × Nat))) (as : List α) (c : Collection) :
    c.Moves (as.foldl (fun c a => { c with sizeLogs := f c a }) c) :=
  List.foldlRecOn as _ (motive := c.Moves) (.refl c) fun _ moved _ _ => moved.trans ⟨rfl⟩

theorem cutColl_spec (c : Collection) (m : Maint) (v : DirVersion) (e : Nat) (placed : List (Nat × List Nat)) :
    (cutColl c m v e true placed).CutOver m e := by
  unfold cutColl
  extract_lets gone new last w attrs c₁ c₂
  have sized : c₁.Moves c₂ := by
    change c₁.Moves (match m.kind with | .retrain => c₁ | _ => _)
    split
    · exact .refl c₁
    · exact moves_sizeLogs _ placed c₁
  have dir : latestDir c₂ = w := (sized.same latestDir).trans (latestDir_append rfl)
  rw [if_pos rfl]
  exact ⟨sized.same (·.published), rfl, rfl, rfl, sized.same (·.attrs.listCount), rfl, congrArg DirVersion.cbGen dir,
    congrArg DirVersion.listCount dir, congrArg DirVersion.fromEpoch dir⟩

theorem cutoverAt_spec {e : Nat} {n : Option Nat} (h : cutoverAt s i e = some (t, n)) (here : s.coll? i = some c) (running : c.maint = some m) :
    n = some m.cmd ∧ t.cmds = s.cmds ∧ ∃ y, t.coll? i = some y ∧ y.CutOver m e := by
  unfold cutoverAt at h
  split at h
  · cases h
  · next s₁ appended =>
    obtain ⟨cmds₁, -, c₁, at₁, shifted⟩ := appendEvery_spec appended (State.coll?_modColl here applyAttrs)
    have running₁ : c₁.maint = some m := by
      rw [shifted.same (·.maint), ← running, applyAttrs]
      split <;> rfl
    rw [at₁] at h
    dsimp only at h
    have mine : maintOf s₁ i c₁ = some (i, m) := by rw [maintOf, running₁]
    rw [mine] at h
    dsimp only at h
    rw [beq_self_eq_true] at h
    simp only [if_true] at h
    split at h
    · cases h
    · next s₂ placed shadow =>
      obtain ⟨s₃, grown, eq⟩ := Option.map_eq_some_iff.mp h
      cases eq
      have moved₂ : Moves i s₁ s₂ := (moves_dropTiles ..).trans (moves_placeShadow shadow)
      obtain ⟨c₂, at₂, -⟩ := moved₂.mine c₁ at₁
      have moved₄ := (moves_growIndex grown).trans (moves_sendBeacons s₃ i)
      obtain ⟨c₄, at₄, place⟩ := moved₄.mine _ (State.coll?_modColl at₂ _)
      obtain ⟨cmds, -, pruned⟩ := gcColl_spec (sendBeacons s₃ i) i
      obtain ⟨y, at_, prune⟩ := pruned c₄ at₄
      exact ⟨rfl, cmds.trans (moved₄.cmds.trans (moved₂.cmds.trans cmds₁)), y, at_, ((cutColl_spec ..).moves place).prunes prune⟩

/-! ## A maintenance command that ends without its cutover -/

/-- Maintenance that has ended leaves its collection's books, directory versions and epoch as they were. -/
structure Collection.GivesUp (c y : Collection) : Prop where
  eq : y = { c with maint := none, oldBooks := y.oldBooks, prepared := y.prepared, staging := y.staging, stagingUsed := y.stagingUsed, groups := y.groups }

theorem Collection.GivesUp.prepared (h : c.GivesUp y) : c.GivesUp { y with prepared := [] } :=
  ⟨(congrArg (fun y : Collection => { y with prepared := [] }) h.eq :)⟩

theorem Collection.GivesUp.staging (h : c.GivesUp y) (es : Table Staged) (k : Nat) (gs : Table Group) :
    c.GivesUp { y with staging := es, stagingUsed := k, groups := gs } :=
  ⟨(congrArg (fun y : Collection => { y with staging := es, stagingUsed := k, groups := gs }) h.eq :)⟩

theorem givesUp_clearPrepared (js : List Nat) (i : Nat) (c : Collection) : ∀ s : State, (∃ y, s.coll? i = some y ∧ c.GivesUp y) →
    ∃ y, (js.foldl (fun s j => s.modColl j fun c => { c with prepared := [] }) s).coll? i = some y ∧ c.GivesUp y := by
  induction js with
  | nil => exact fun s h => h
  | cons j js ih =>
    rintro s ⟨y, at_, gives⟩
    refine ih _ ?_
    by_cases same : i = j
    · subst same
      exact ⟨_, State.coll?_modColl at_ _, gives.prepared⟩
    · exact ⟨y, (State.coll?_modColl_ne s same _).trans at_, gives⟩

theorem clearPrepared_cmds (js : List Nat) (s : State) : (js.foldl (fun s j => s.modColl j fun c => { c with prepared := [] }) s).cmds = s.cmds :=
  List.foldlRecOn js _ (motive := fun t => State.cmds t = s.cmds) rfl fun _ same _ _ => same

theorem dropMaint_spec (here : s.coll? i = some c) (running : c.maint = some m) :
    (dropMaint s i).cmds = s.cmds ∧ ∃ y, (dropMaint s i).coll? i = some y ∧ c.GivesUp y := by
  unfold dropMaint
  rw [here, Option.bind_some, running]
  dsimp only
  have dropped : Changes [.protect, .flash, .tiers] s (dropTiles s m.tiles) := changes_dropTiles ..
  have at_ : (dropTiles s m.tiles).coll? i = some c := (dropped.same fun s => s.coll? i).trans here
  refine ⟨(clearPrepared_cmds ..).trans (dropped.same fun s => s.cmds), givesUp_clearPrepared _ i c _ ⟨_, State.coll?_modColl at_ _, ⟨rfl⟩⟩⟩

/-! ## The statement -/

/-- Settles O35, by what a cutover leaves of its collection and the completion of its command. -/
theorem cutoversInstall : Obligations.CutoversInstall := by
  intro i c m x s up still here running ready home undecided reads
  have mine : maintOf s i c = some (i, m) := by rw [maintOf, running]
  have row : exec (.cutover i) s = .next (cutoverEffect s i) := occurs_of_true (by rw [up, still, ready]; rfl) _ s
  refine ⟨fun below room => ?_, fun last => ?_⟩
  · obtain ⟨⟨u, n⟩, hu⟩ := Option.isSome_iff_exists.mp room
    obtain ⟨rfl, cmds, y, at_, cut⟩ := cutoverAt_spec hu here running
    have v : u.undecided m.cmd x := undecided_of_cmd? undecided (congrArg (Tab.get? · m.cmd) cmds)
    obtain ⟨⟨k, ⟨status, dw2, dw3, epoch⟩, decided⟩, -, colls, -⟩ := succeed_of_undecided v (k := { epoch := c.published + 1 }) rfl rfl rfl
    have effect : cutoverEffect s i = succeed u m.cmd { epoch := c.published + 1 } := by
      unfold cutoverEffect
      rw [here]
      dsimp only
      rw [home, Bool.true_and, if_neg (by simpa using below), if_pos rfl, hu]
    rw [effect] at row
    refine ⟨_, y, k, row, (congrArg (Tab.get? · i) colls).trans at_, cut.published, cut.codebook, cut.centroids, cut.cbGen, cut.listCount, cut.maint,
      cut.dirGen, cut.dirCount, cut.dirEpoch, State.decidedAs_of decided status dw2 dw3, ?_, epoch⟩
    rw [decided]
    rfl
  · have effect : cutoverEffect s i = fail (dropMaint s i) m.cmd .epochExhausted {} := by
      unfold cutoverEffect cutoverExhausted
      rw [here]
      dsimp only
      rw [home, last, Bool.true_and, if_pos (by simp), Option.bind_some, mine]
    obtain ⟨cmds, y, at_, gives⟩ := dropMaint_spec here running
    have v : (dropMaint s i).undecided m.cmd x := undecided_of_cmd? undecided (congrArg (Tab.get? · m.cmd) cmds)
    obtain ⟨⟨k, status, dw2, dw3, decided⟩, -, colls, -⟩ := fail_of_undecided v .epochExhausted {} rfl rfl
    rw [effect] at row
    have left : ∃ z, (fail (dropMaint s i) m.cmd .epochExhausted {}).coll? i = some z ∧ c.GivesUp z := by
      have same : (fail (dropMaint s i) m.cmd .epochExhausted {}).coll? i = (releaseStaging (dropMaint s i) m.cmd x).coll? i :=
        congrArg (Tab.get? · i) colls
      rw [same]
      unfold releaseStaging
      by_cases own : i = eIndex x.entry
      · subst own
        exact ⟨_, State.coll?_modColl at_ _, gives.staging ..⟩
      · exact ⟨y, (State.coll?_modColl_ne _ own _).trans at_, gives⟩
    obtain ⟨z, at', ⟨eq⟩⟩ := left
    exact ⟨_, z, row, at', (congrArg Collection.published eq :), (congrArg Collection.codebook eq :), (congrArg Collection.centroids eq :),
      (congrArg Collection.attrs eq :), (congrArg Collection.dirs eq :), (congrArg Collection.maint eq :),
      State.decidedAs_of decided status dw2 (dw3 reads)⟩

end Sys2Proof.Machine
end

section
/-! SUPPORT. Commands that end beside a commit leave it alone; commits of groups (R84, R163, R172, R182). -/

namespace Sys2Proof.Machine

open Sys2Proof

-- Proofs are checked one at a time: each that waits for its turn would hold a thread's stack.
set_option Elab.async false

variable {s t u : State} {n m i : Nat} {c y : Collection}

/-! ## What the end of a command leaves of collections and other commands -/

/-- The published epoch, the IDs that have been given and the ID map are the same. -/
structure Collection.SameEpoch (c y : Collection) : Prop where
  published : y.published = c.published
  nextLocal : y.nextLocal = c.nextLocal
  idMap : y.idMap = c.idMap

theorem Collection.SameEpoch.refl (c : Collection) : c.SameEpoch c := ⟨rfl, rfl, rfl⟩

theorem Collection.SameEpoch.trans {z : Collection} (h : c.SameEpoch y) (k : y.SameEpoch z) : c.SameEpoch z :=
  ⟨k.published.trans h.published, k.nextLocal.trans h.nextLocal, k.idMap.trans h.idMap⟩

/-- From s to t command m may have ended: every other command is the same, and every collection keeps its epoch. -/
structure Ends (m : Nat) (s t : State) : Prop where
  others : ∀ j, j ≠ m → t.cmd? j = s.cmd? j
  colls : ∀ i c, s.coll? i = some c → ∃ y, t.coll? i = some y ∧ c.SameEpoch y

namespace Ends

theorem refl (m : Nat) (s : State) : Ends m s s := ⟨fun _ _ => rfl, fun _ c here => ⟨c, here, .refl c⟩⟩

theorem trans (h : Ends m s t) (k : Ends m t u) : Ends m s u := by
  refine ⟨fun j ne => (k.others j ne).trans (h.others j ne), fun i c here => ?_⟩
  obtain ⟨y, at_, same⟩ := h.colls i c here
  obtain ⟨z, at', same'⟩ := k.colls i y at_
  exact ⟨z, at', same.trans same'⟩

theorem of_changes {l : List Part} (h : Changes l s t) (cmds : ∀ s t, (State.take l s t).cmds = s.cmds := by intro _ _; rfl)
    (colls : ∀ s t, (State.take l s t).colls = s.colls := by intro _ _; rfl) : Ends m s t :=
  ⟨fun j _ => congrArg (Tab.get? · j) (h.same (·.cmds) cmds),
    fun i c here => ⟨c, (congrArg (Tab.get? · i) (h.same (·.colls) colls)).trans here, .refl c⟩⟩

theorem modCmd (s : State) (m : Nat) (f : Cmd → Cmd) : Ends m s (s.modCmd m f) :=
  ⟨fun _ ne => (Tab.get?_adjust ..).trans (if_neg ne), fun _ c here => ⟨c, here, .refl c⟩⟩

theorem modColl (s : State) (i : Nat) (f : Collection → Collection) (same : ∀ c, Collection.SameEpoch c (f c)) : Ends m s (s.modColl i f) := by
  refine ⟨fun _ _ => rfl, fun j c here => ?_⟩
  by_cases eq : j = i
  · subst eq
    exact ⟨f c, State.coll?_modColl here f, same c⟩
  · exact ⟨c, (State.coll?_modColl_ne s eq f).trans here, .refl c⟩

theorem ite {p : Prop} [Decidable p] (h : Ends m s t) (k : Ends m s u) : Ends m s (if p then t else u) := by
  split
  · exact h
  · exact k

end Ends

theorem ends_releasePins (s : State) (x : Cmd) : Ends m s (releasePins s x) := by
  unfold releasePins
  extract_lets s₁
  have freed : Ends m s s₁ := by
    change Ends m s (match x.search.scratch with
      | some (p, n) => s.modProtect fun y => { y with t2Free := (p, n) :: y.t2Free }
      | none => s)
    split
    · exact .of_changes ((Changes.refl [.protect] s).modProtect _)
    · exact .refl m s
  refine freed.trans ?_
  exact .modColl _ _ _ fun _ => ⟨rfl, rfl, rfl⟩

theorem ends_gone (s : State) (m : Nat) (x : Cmd) : Ends m s (releasePins { s with cmds := Tab.erase s.cmds m } x) := by
  have erased : Ends m s { s with cmds := Tab.erase s.cmds m } :=
    ⟨fun _ ne => Tab.get?_erase_ne _ ne, fun _ c here => ⟨c, here, .refl c⟩⟩
  exact erased.trans (ends_releasePins ..)

theorem ends_deliver (s : State) (m : Nat) (x : Cmd) (k : Completion) : Ends m s (deliver s m x k []) := by
  unfold deliver
  split
  · extract_lets t
    have gone : Ends m s t := ends_gone ..
    split
    · exact .ite (gone.trans (.of_changes ((Changes.refl [.port0, .port1] t).modMailbox _ _ _))) gone
    · exact gone
  · split
    · extract_lets t
      have frozen : Ends m s t := .ite (.of_changes (changes_freezeQueue ..)) (.refl m s)
      exact frozen.trans (.modCmd ..)
    · split
      · exact .modCmd ..
      · extract_lets t
        have gone : Ends m s t := ends_gone ..
        split
        · rw [devWrite_nil]
          exact gone.trans (.of_changes (changes_mailboxRespond ..))
        · exact gone.trans (.of_changes (changes_mailboxRespond ..))
    · exact (ends_gone ..).trans (.of_changes (changes_sidebandRespond ..))
    · exact (ends_gone ..).trans (.of_changes (changes_sendData ..))
    · exact ends_gone ..
    · exact .ite ((ends_gone ..).trans (.of_changes (changes_sendData ..))) ((ends_gone ..).trans (.of_changes (changes_sendData ..)))

theorem ends_decide (s : State) (m : Nat) (k : Completion) (unit : Nat) (z : Cause) : Ends m s (decide_ s m k [] unit z) := by
  unfold decide_
  split
  · exact .refl m s
  · next x _ =>
    split
    · exact .refl m s
    · split
      · exact .modCmd ..
      · extract_lets k₁ len k₂ k₃ res₁ s₁ s₂
        have empty : res₁ = [] := by
          change (if informational k₃.status then clipResult len unit [] else []) = []
          rw [clipResult, List.take_nil, ite_self]
        have left : Ends m s s₁ := .of_changes (changes_leftWork s m x)
        have freed : Ends m s s₂ := .ite left (left.trans (.modColl _ _ _ fun _ => ⟨rfl, rfl, rfl⟩))
        rw [empty]
        exact (freed.trans (.of_changes (changes_logStatus ..))).trans (ends_deliver ..)

theorem decide_of_closed {x : Cmd} (here : s.cmd? n = some x) (closed : x.stage = .decided) (k : Completion) (res : List Byte) (unit : Nat) (z : Cause) :
    decide_ s n k res unit z = s := by
  unfold decide_
  rw [here]
  exact if_pos closed

/-! ## What goes on beside a command that is decided -/

/-- The command is decided, and no FLUSH. -/
def Cmd.Closed (x : Cmd) : Prop := x.stage = .decided ∧ eOpcode x.entry ≠ 6

/-- From s to t a decided command n stayed as it is decided, and collection i kept its epoch. -/
structure Settles (n i : Nat) (s t : State) : Prop where
  cmd : ∀ x, s.cmd? n = some x → x.Closed → ∃ z, t.cmd? n = some z ∧ z.Closed ∧ z.completion = x.completion
  coll : ∀ c, s.coll? i = some c → ∃ y, t.coll? i = some y ∧ c.SameEpoch y

namespace Settles

theorem refl (n i : Nat) (s : State) : Settles n i s s := ⟨fun x here closed => ⟨x, here, closed, rfl⟩, fun c here => ⟨c, here, .refl c⟩⟩

theorem trans (h : Settles n i s t) (k : Settles n i t u) : Settles n i s u := by
  refine ⟨fun x here closed => ?_, fun c here => ?_⟩
  · obtain ⟨z, at_, closed', same⟩ := h.cmd x here closed
    obtain ⟨z', at', closed'', same'⟩ := k.cmd z at_ closed'
    exact ⟨z', at', closed'', same'.trans same⟩
  · obtain ⟨y, at_, same⟩ := h.coll c here
    obtain ⟨z, at', same'⟩ := k.coll y at_
    exact ⟨z, at', same.trans same'⟩

/-- Another command may end, and the decided one stays where nothing changes once it is decided. -/
theorem of_ends (h : Ends m s t) (stays : ∀ x, s.cmd? m = some x → x.Closed → t = s) : Settles n i s t := by
  refine ⟨fun x here closed => ?_, h.colls i⟩
  by_cases eq : n = m
  · subst eq
    rw [stays x here closed]
    exact ⟨x, here, closed, rfl⟩
  · exact ⟨x, (h.others n eq).trans here, closed, rfl⟩

theorem of_changes {l : List Part} (h : Changes l s t) (cmds : ∀ s t, (State.take l s t).cmds = s.cmds := by intro _ _; rfl)
    (colls : ∀ s t, (State.take l s t).colls = s.colls := by intro _ _; rfl) : Settles n i s t := by
  have ends : Ends (n + 1) s t := .of_changes h cmds colls
  exact ⟨fun x here closed => ⟨x, (ends.others n (by omega)).trans here, closed, rfl⟩, ends.colls i⟩

theorem modColl (s : State) (j : Nat) (f : Collection → Collection) (same : ∀ c, Collection.SameEpoch c (f c)) : Settles n i s (s.modColl j f) :=
  ⟨fun x here closed => ⟨x, here, closed, rfl⟩, (Ends.modColl (m := n) s j f same).colls i⟩

theorem modWork (s : State) (m : Nat) (f : OtherWork → OtherWork) : Settles n i s (s.modWork m f) := by
  refine ⟨fun x here closed => ?_, fun c here => ⟨c, here, .refl c⟩⟩
  rw [State.modWork, cmd?_modCmd]
  split
  · next eq =>
    subst eq
    rw [here]
    exact ⟨_, rfl, closed, rfl⟩
  · exact ⟨x, here, closed, rfl⟩

theorem ite {p : Prop} [Decidable p] (h : Settles n i s t) (k : Settles n i s u) : Settles n i s (if p then t else u) := by
  split
  · exact h
  · exact k

theorem foldl {α : Type} {g : State → α → State} (h : ∀ s a, Settles n i s (g s a)) (as : List α) (s : State) : Settles n i s (as.foldl g s) :=
  List.foldlRecOn as g (motive := Settles n i s) (refl n i s) fun t ht a _ => ht.trans (h t a)

end Settles

theorem settles_decide (s : State) (m : Nat) (k : Completion) (unit : Nat) (z : Cause) : Settles n i s (decide_ s m k [] unit z) :=
  .of_ends (ends_decide ..) fun _ here closed => decide_of_closed here closed.1 ..

/-! ## Durable commands and FLUSH -/

theorem settles_startImage {whole : Bool} {j : Nat} (h : startImage s j whole = some t) : Settles n i s t := by
  unfold startImage at h
  split at h
  · cases h
  · extract_lets old m append k at h
    split at h
    · cases h
    · split at h
      · cases h
      · next ts us v took =>
        obtain rfl := Option.some.inj h
        have taken : Settles n i s v := .of_changes (changes_takeMirrored _ took)
        refine taken.trans (Settles.trans (.modColl _ _ _ fun _ => ?_) (.of_changes (changes_queueT4 ..)))
        exact ⟨rfl, rfl, rfl⟩

theorem settles_startDurable (s : State) (m : Nat) : Settles n i s (startDurable s m) := by
  unfold startDurable
  have failed (s : State) (st : Status) (z : Cause) : Settles n i s (failDurable s m st z) := by
    unfold failDurable
    split
    · exact .refl n i s
    · exact settles_decide ..
  split
  · exact .refl n i s
  · refine .ite (.refl n i s) (.foldl (fun s y => ?_) _ s)
    dsimp only
    split
    · exact .refl n i s
    · refine .ite (.refl n i s) (.ite (failed ..) ?_)
      split
      · next t started => exact settles_startImage started
      · exact failed ..

theorem settles_homeRequest (s : State) (j : Nat) (w : PeerWaiter) (type off len : Nat) (b : List Byte) :
    Settles n i s (homeRequest s j w type off len b) := by
  unfold homeRequest
  split
  · exact .refl n i s
  · refine .of_changes (l := [.net]) ?_
    exact (show Changes [.net] s (openPeer s _ _) from by unfold openPeer; exact ((Changes.refl _ s).modNet _).modLink _ _).trans (changes_sendPacket ..)

theorem settles_settleFlush (s : State) (m : Nat) : Settles n i s (settleFlush s m) := by
  unfold settleFlush
  split
  · exact .refl n i s
  · refine .ite (.refl n i s) ?_
    dsimp only
    exact .ite (.ite (.refl n i s) (settles_homeRequest ..)) (.ite (settles_decide ..) (.modWork ..))

theorem settles_flushTargets (s : State) (m : Nat) : Settles n i s (flushTargets s m) := by
  unfold flushTargets
  split
  · exact .refl n i s
  · refine .ite (.refl n i s) ?_
    dsimp only
    exact (Settles.modWork ..).trans (settles_startDurable ..)

theorem settles_groupGone (s : State) (j g : Nat) : Settles n i s (groupGone s j g) := by
  unfold groupGone
  refine .foldl (fun s m => ?_) _ s
  exact ((Settles.modWork ..).trans (settles_flushTargets ..)).trans (settles_settleFlush ..)

end Sys2Proof.Machine
end

section
/-! SUPPORT. Commits of groups, and the statement about them (R63, R84, R163, R171, R172, R177, R186, R512). -/

namespace Sys2Proof.Machine

open Sys2Proof

-- Proofs are checked one at a time: each that waits for its turn would hold a thread's stack.
set_option Elab.async false

variable {s t u : State} {n i g e : Nat} {c y : Collection} {x : Cmd}

/-! ## The end of a commit window (R171) -/

/-- A member of a closed group has passed its commit point (R177). -/
def Cmd.committed (x : Cmd) : Cmd := { x with word := if x.word = .running then .committing else x.word }

theorem Cmd.committed_committed (x : Cmd) : x.committed.committed = x.committed := by
  unfold committed
  by_cases running : x.word = .running
  · simp [running]
  · simp [running]

theorem changes_foldl_committed (ms : List Nat) (s : State) : Changes [.cmds] s (ms.foldl (fun s n => s.modCmd n Cmd.committed) s) :=
  .foldl (fun s n => (Changes.refl _ s).modCmd n _) ms s

theorem cmd?_foldl_committed (ms : List Nat) (s : State) (n : Nat) :
    (ms.foldl (fun s n => s.modCmd n Cmd.committed) s).cmd? n = if n ∈ ms then (s.cmd? n).map Cmd.committed else s.cmd? n := by
  induction ms generalizing s with
  | nil => simp
  | cons m ms ih =>
    rw [List.foldl_cons, ih, cmd?_modCmd]
    by_cases here : n = m
    · subst here
      simp [Option.map_map, Function.comp_def, Cmd.committed_committed]
    · simp [here]

theorem closeGroup_spec {w : Group} (here : s.coll? i = some c) (group : Tab.get? c.groups g = some w) (open_ : w.closed = false)
    (ht : closeGroup s i g = t) :
    t.coll? i = some { c with groups := Tab.set c.groups g { w with closed := true } } ∧ Changes [.colls, .cmds] s t ∧
      ∀ n, t.cmd? n = if n ∈ w.members then (s.cmd? n).map Cmd.committed else s.cmd? n := by
  unfold closeGroup at ht
  rw [here, Option.bind_some, group] at ht
  dsimp only at ht
  rw [open_, if_neg Bool.false_ne_true] at ht
  have closed : Changes [.colls, .cmds] s (s.modColl i fun c => { c with groups := Tab.set c.groups g { w with closed := true } }) :=
    (Changes.refl _ s).modColl _ _
  have at_ := State.coll?_modColl here fun c => { c with groups := Tab.set c.groups g { w with closed := true } }
  have cmds (n : Nat) : (s.modColl i fun c => { c with groups := Tab.set c.groups g { w with closed := true } }).cmd? n = s.cmd? n := rfl
  generalize (s.modColl i fun c => { c with groups := Tab.set c.groups g { w with closed := true } }) = s₁ at *
  change w.members.foldl (fun s n => s.modCmd n Cmd.committed) s₁ = t at ht
  subst ht
  have frame := changes_foldl_committed w.members s₁
  refine ⟨(frame.same fun s => s.coll? i).trans at_, closed.andThen frame, fun n => ?_⟩
  rw [cmd?_foldl_committed, cmds]

/-! ## Deletions and insertions (R172) -/

theorem moves_logSize (c : Collection) (l e : Nat) (d : Int) : c.Moves (logSize c l e d) := ⟨rfl⟩

theorem moves_foldl {α : Type} {f : Collection → α → Collection} (h : ∀ c a, Collection.Moves c (f c a)) (as : List α) (c : Collection) :
    c.Moves (as.foldl f c) :=
  List.foldlRecOn as f (motive := c.Moves) (.refl c) fun _ moved a _ => moved.trans (h _ a)

theorem moves_deleteVersion (c : Collection) (v : IdEntry) (e : Nat) : c.Moves (deleteVersion c v e) := by
  unfold deleteVersion
  extract_lets lists c₁ c₂
  have staged : c.Moves c₁ := by
    change c.Moves (match v.staged with | some k => _ | none => c)
    split
    · exact ⟨rfl⟩
    · exact .refl c
  exact (staged.trans (moves_foldl (fun _ _ => ⟨rfl⟩) _ c₁)).trans (moves_foldl (fun c l => moves_logSize c l e (-1)) _ c₂)

/-- An insertion keeps the epoch and the attributes, and gives at most one LOCAL value. -/
theorem insertItem_spec (c : Collection) (book cents : List B16) (m : Option Maint) (dev : Nat) (e : Nat) (x : Item) (own : c.attrs.hostIds = false) :
    (insertItem c book cents m dev true e x).1.published = c.published ∧ (insertItem c book cents m dev true e x).1.attrs = c.attrs ∧
      (insertItem c book cents m dev true e x).1.nextLocal = c.nextLocal + 1 := by
  unfold insertItem
  extract_lets a vid c₁ old c₂ lists codes c₃
  have first : c₁ = { c with nextLocal := c.nextLocal + 1 } := if_pos (by rw [own]; rfl)
  have second : c₁.Moves c₂ := by
    change c₁.Moves (match old with | some o => if (entryDel c₁ o).isNone then deleteVersion c₁ o e else c₁ | none => c₁)
    generalize old = o
    cases o with
    | none => exact .refl c₁
    | some o =>
      dsimp only
      split
      · exact moves_deleteVersion ..
      · exact .refl c₁
  have last := moves_foldl (fun c l => moves_logSize c l e 1) lists c₃
  refine ⟨?_, ?_, ?_⟩
  · exact (last.same (·.published)).trans ((second.same (·.published)).trans (congrArg Collection.published first :))
  · exact (last.same (·.attrs)).trans ((second.same (·.attrs)).trans (congrArg Collection.attrs first :))
  · exact (last.same (·.nextLocal)).trans ((second.same (·.nextLocal)).trans (congrArg Collection.nextLocal first :))

theorem insertAll_spec (book cents : List B16) (m : Option Maint) (dev : Nat) (e : Nat) (xs : List Item) (c : Collection) (own : c.attrs.hostIds = false) :
    (insertAll book cents m dev true e xs c).1.published = c.published ∧
      (insertAll book cents m dev true e xs c).1.nextLocal = c.nextLocal + xs.length ∧ (insertAll book cents m dev true e xs c).2.length = xs.length := by
  induction xs generalizing c with
  | nil => exact ⟨rfl, rfl, rfl⟩
  | cons x xs ih =>
    obtain ⟨published, attrs, next⟩ := insertItem_spec c book cents m dev e x own
    obtain ⟨published', next', count⟩ := ih (insertItem c book cents m dev true e x).1 (by rw [attrs]; exact own)
    refine ⟨published'.trans published, next'.trans ?_, congrArg (· + 1) count⟩
    rw [next, List.length_cons]
    omega

/-! ## Members of a group (R172) -/

/-- The deletions of a DELETE that hits records. -/
theorem moves_deleteAll (e : Nat) (xs : List Item) (c : Collection) :
    c.Moves (xs.foldl (fun c y => match current c y.vid with | some v => deleteVersion c v e | none => c) c) := by
  refine moves_foldl (fun c y => ?_) xs c
  split
  · exact moves_deleteVersion ..
  · exact .refl c

/-- The IDs that a DELETE names and that have a current version. -/
def hitsOf (c : Collection) (x : Cmd) : List Item := x.work.items.filter fun z => (current c z.vid).isSome

theorem commitMember_delete (dev : Nat) (here : s.cmd? n = some x) (delete : eOpcode x.entry = 4) :
    ∃ r : Committed, commitMember s dev e { coll := c, changed := false, done := [] } n = r ∧ c.Moves r.coll ∧
      r.changed = !(hitsOf c x).isEmpty ∧ r.done =
        [(n, { epoch := if (hitsOf c x).isEmpty then c.published else e, dw2 := (hitsOf c x).length, dw3 := 0xFFFFFFFF }, [])] := by
  refine ⟨_, rfl, ?_⟩
  have check : commitCheck c x = none := by
    rw [commitCheck, delete]
    rfl
  unfold commitMember
  rw [here]
  dsimp only
  rw [check]
  dsimp only
  rw [if_pos delete]
  have moved := moves_deleteAll e (hitsOf c x) c
  refine ⟨moved, by rw [Bool.false_or]; rfl, ?_⟩
  exact congrArg (fun p => [(n, ({ epoch := if (hitsOf c x).isEmpty then p else e, dw2 := (hitsOf c x).length, dw3 := 0xFFFFFFFF } : Completion),
    ([] : List Byte))]) (moved.same (·.published))

theorem commitMember_insert (dev : Nat) (here : s.cmd? n = some x) (insert : eOpcode x.entry = 2) (own : c.attrs.hostIds = false)
    (room : c.nextLocal + x.work.items.length ≤ 2 ^ 34) :
    ∃ (r : Committed) (res : List Byte), commitMember s dev e { coll := c, changed := false, done := [] } n = r ∧ r.coll.published = c.published ∧
      r.coll.nextLocal = c.nextLocal + x.work.items.length ∧ r.changed = true ∧ res.length = 8 * x.work.items.length ∧ r.done =
        [(n, { epoch := e, dw2 := x.work.items.length, dw3 := 0xFFFFFFFF, resultLength := res.length }, res)] := by
  have check : commitCheck c x = none := by
    unfold commitCheck
    rw [insert]
    dsimp only
    rw [own, if_neg Bool.false_ne_true, if_neg (by omega)]
    rfl
  unfold commitMember
  rw [here]
  dsimp only
  rw [check]
  dsimp only
  rw [if_neg (by omega), insert]
  generalize bookOf s c _ _ = books
  generalize ((maintOf s (eIndex x.entry) _).map (·.2)) = m
  obtain ⟨published, next, count⟩ := insertAll_spec books.1 books.2 m dev e x.work.items { c with stagingUsed := c.stagingUsed - x.work.staged } own
  refine ⟨_, _, rfl, published, next, rfl, ?_, by rw [← count]; rfl⟩
  rw [← count, List.length_flatMap]
  simp [leBytes]
  omega

/-! ## A group of one member (R172) -/

theorem moves_storeTokens (h : storeTokens s i e = some t) : Moves i s t := by
  refine Moves.foldl_option (fun _ => ite_self _) (fun s a t h => ?_) _ h
  dsimp only at h
  split at h
  · obtain ⟨s', eq, h⟩ := Option.bind_eq_some_iff.mp h
    obtain rfl := Option.some.inj eq
    obtain ⟨c, -, put⟩ := Option.bind_eq_some_iff.mp h
    exact moves_putTokens put
  · cases h
    exact .refl i s

theorem performGroup_spec {r : Committed} {done : List (Nat × Completion × List Byte)} (here : s.coll? i = some c) (plain : c.newAttrs = none)
    (group : Tab.get? c.groups g = some { members := [n], closed := true })
    (member : commitMember s s.net.deviceNumber e { coll := c, changed := false, done := [] } n = r) (h : performGroup s i g e = some (u, done)) :
    done = r.done ∧ u.cmds = s.cmds ∧ ∃ y, u.coll? i = some y ∧ y.published = (if r.changed then e else c.published) ∧
      y.nextLocal = r.coll.nextLocal := by
  unfold performGroup at h
  rw [here] at h
  dsimp only at h
  rw [group] at h
  dsimp only at h
  rw [List.foldl_cons, List.foldl_nil, show applyAttrs c = c by rw [applyAttrs, plain], member] at h
  obtain ⟨s₂, stored, eq⟩ := Option.map_eq_some_iff.mp h
  obtain ⟨rfl, rfl⟩ := Prod.mk.inj eq
  obtain ⟨s₁, grown, tokens⟩ := Option.bind_eq_some_iff.mp stored
  have moved := (moves_growIndex grown).trans (moves_storeTokens tokens)
  obtain ⟨y, at_, place⟩ := moved.mine _ (Tab.get?_set_self s.colls i _)
  exact ⟨rfl, moved.cmds, y, at_, place.same (·.published), place.same (·.nextLocal)⟩

/-- A member whose completion informs is decided with it, and its collection keeps the epoch. -/
theorem deliverOne (u : s.undecided n x) {k : Completion} {res : List Byte} (info : informational k.status = true)
    (fits : ¬ (outBufLen (outBuf s x) < k.resultLength ∧ ¬ ((eOpcode x.entry = 2 ∨ eOpcode x.entry = 3) ∧ eOutLen x.entry = 0)))
    (ht : deliverDone s [(n, k, res)] = t) : (∃ z k', t.cmd? n = some z ∧ z.stage = .decided ∧ z.entry = x.entry ∧ z.completion = some k' ∧ k'.Means k) ∧
      t.colls = s.colls := by
  have freed : (s.modWork n fun w => { w with staged := 0 }).undecided n { x with work := { x.work with staged := 0 } } := by
    obtain ⟨held, origin, here, none_, open_, alone, going⟩ := u
    refine ⟨?_, origin, here, none_, open_, alone, going⟩
    rw [State.modWork, cmd?_modCmd, if_pos rfl, held]
    rfl
  have effect : deliverDone s [(n, k, res)] = decide_ (s.modWork n fun w => { w with staged := 0 }) n k res 8 {} := by
    unfold deliverDone
    rw [List.foldl_cons, List.foldl_nil]
    exact congrArg (decide_ · n k res 8 {}) (if_pos info)
  obtain ⟨⟨k', res', means, -, at_⟩, -, colls, -⟩ := decide_of_undecided freed k res 8 {} (fun ⟨_, short, other⟩ => fits ⟨short, other⟩) (effect.symm.trans ht)
  rw [info, if_pos rfl] at colls
  exact ⟨⟨_, k', at_, rfl, rfl, rfl, means⟩, colls⟩

theorem outBufLen_of_sq {p : PortId} {q : Nat} (h : x.origin = .sq p q) : outBufLen (outBuf s x) = eOutLen x.entry := by
  unfold outBuf
  rw [h]
  dsimp only [originPort]
  split <;> rfl

theorem settles_learnEpoch (s : State) (j e : Nat) : Settles n i s (learnEpoch s j e) := .modColl _ _ _ fun _ => ⟨rfl, rfl, rfl⟩

theorem settles_sendBeacons (s : State) : Settles n i s (sendBeacons s i) := by
  unfold sendBeacons
  split
  · exact .refl n i s
  · refine .ite ?_ (.refl n i s)
    refine Settles.trans ?_ (settles_learnEpoch _ i _)
    exact .of_changes (.foldl (fun s _ => changes_sendPacket s _) _ s)

/-- A commit that is ready at its epoch home is performed there. -/
theorem commit_occurs {w : Group} (up : live s = true) (still : awake s = true) (here : s.coll? i = some c) (ready : commitReady s i g = true)
    (home : isHome s c = true) (group : Tab.get? c.groups g = some w) : exec (.commit i g) s = .next (commitHere s i g c w) := by
  refine (occurs_of_true (by rw [up, still, ready]; rfl) _ s).trans (congrArg Host.Outcome.next ?_)
  unfold commitEffect
  rw [here]
  dsimp only
  rw [group]
  exact if_pos home

/-- What follows the writes of a commit keeps the epoch, and the decision of its member. -/
theorem commit_settles (up : live s = true) (still : awake s = true) (here : s.coll? i = some c) (ready : commitReady s i g = true)
    (home : isHome s c = true) (plain : c.newAttrs = none) (group : Tab.get? c.groups g = some { members := [n], closed := true })
    (undecided : s.undecided n x) (other : eOpcode x.entry ≠ 6) (below : c.published + 1 ≠ lastEpoch) {r : Committed} {k : Completion} {res : List Byte}
    (member : commitMember s s.net.deviceNumber (c.published + 1) { coll := c, changed := false, done := [] } n = r) (done : r.done = [(n, k, res)])
    (info : informational k.status = true)
    (fits : ¬ (eOutLen x.entry < k.resultLength ∧ ¬ ((eOpcode x.entry = 2 ∨ eOpcode x.entry = 3) ∧ eOutLen x.entry = 0))) :
    ∃ t y z k', exec (.commit i g) s = .next t ∧ t.coll? i = some y ∧ y.published = (if r.changed then c.published + 1 else c.published) ∧
      y.nextLocal = r.coll.nextLocal ∧ t.cmd? n = some z ∧ z.stage = .decided ∧ z.completion = some k' ∧ k'.Means k := by
  have room : (performGroup s i g (c.published + 1)).isSome = true := by
    unfold commitReady at ready
    rw [here] at ready
    dsimp only at ready
    rw [group] at ready
    simp only [home, if_true, Bool.and_eq_true, Bool.or_eq_true, beq_iff_eq, below, false_or] at ready
    exact ready.2.2
  obtain ⟨⟨u, l⟩, performed⟩ := Option.isSome_iff_exists.mp room
  obtain ⟨rfl, cmds, y, at_, published, next⟩ := performGroup_spec here plain group member performed
  rw [done] at performed
  have v : u.undecided n x := undecided_of_cmd? undecided (congrArg (Tab.get? · n) cmds)
  obtain ⟨p, q, origin⟩ := undecided.2.1
  obtain ⟨⟨z, k', decided, stage, entry, completion, means⟩, colls⟩ :=
    deliverOne (t := deliverDone u [(n, k, res)]) (res := res) v info (by rw [outBufLen_of_sq origin]; exact fits) rfl
  have goesOn : Settles n i (deliverDone u [(n, k, res)]) (groupGone (sendBeacons (deliverDone u [(n, k, res)]) i) i g) :=
    (settles_sendBeacons ..).trans (settles_groupGone ..)
  obtain ⟨z', at', closed, same⟩ := goesOn.cmd z decided ⟨stage, entry ▸ other⟩
  obtain ⟨y', in', epoch⟩ := goesOn.coll y ((congrArg (Tab.get? · i) colls).trans at_)
  refine ⟨_, y', z', k', commit_occurs up still here ready home group, ?_⟩
  rw [commitHere, if_neg below, performed]
  exact ⟨in', epoch.published.trans published, epoch.nextLocal.trans next, at', closed.1, same.trans completion, means⟩

/-- A member that can end no commit at the last epoch ends so, and its collection keeps the epoch. -/
theorem commit_exhausted (up : live s = true) (still : awake s = true) (here : s.coll? i = some c) (ready : commitReady s i g = true)
    (home : isHome s c = true) (group : Tab.get? c.groups g = some { members := [n], closed := true })
    (undecided : s.undecided n x) (other : eOpcode x.entry ≠ 6) (last : c.published + 1 = lastEpoch) :
    ∃ t y, exec (.commit i g) s = .next t ∧ t.coll? i = some y ∧ y.published = c.published ∧ y.idMap = c.idMap ∧
      t.decidedAs n .epochExhausted 0 0xFFFFFFFF := by
  have erased := State.coll?_modColl here fun c => { c with groups := Tab.erase c.groups g }
  have v : (s.modColl i fun c => { c with groups := Tab.erase c.groups g }).undecided n x := undecided_of_cmd? undecided rfl
  have row := commit_occurs up still here ready home group
  rw [commitHere, if_pos last] at row
  dsimp only [List.foldl_cons, List.foldl_nil] at row
  generalize (s.modColl i fun c => { c with groups := Tab.erase c.groups g }) = s₁ at *
  obtain ⟨⟨k', res', ⟨status, dw2, dw3, -⟩, -, at_⟩, -, colls, -⟩ :=
    decide_of_undecided (t := failItem s₁ n .epochExhausted 0xFFFFFFFF) v _ [] 1 {} (fun ⟨info, _⟩ => Bool.false_ne_true info) rfl
  rw [if_neg (by decide)] at colls
  have freed : Settles n i s₁ (releaseStaging s₁ n x) := .modColl _ _ _ fun _ => ⟨rfl, rfl, rfl⟩
  obtain ⟨y, in_, epoch⟩ := freed.coll _ erased
  have goesOn := settles_groupGone (n := n) (i := i) (failItem s₁ n .epochExhausted 0xFFFFFFFF) i g
  obtain ⟨z, at', ⟨stage, -⟩, same⟩ := goesOn.cmd _ at_ ⟨rfl, other⟩
  obtain ⟨y', in', epoch'⟩ := goesOn.coll y ((congrArg (Tab.get? · i) colls).trans in_)
  exact ⟨_, y', row, in', epoch'.published.trans epoch.published, epoch'.idMap.trans epoch.idMap, z, k', at', stage, same, status, dw2, dw3⟩

/-! ## The obligation -/

/-- Settles O33. A commit of one member writes its items, decides it and sends the beacons; what goes on beside that keeps the epoch and the
decision. -/
theorem groupsCommit : Obligations.GroupsCommit := by
  refine ⟨fun i g c w s up here group open_ some_ => ?_, fun i g n c x s up still here ready home plain group undecided =>
    ⟨fun below insert own room fits => ?_, fun below delete => ?_, fun last mutation => ?_⟩⟩
  · obtain ⟨at_, frame, cmds⟩ := closeGroup_spec here group open_ rfl
    refine ⟨_, _, ?_, at_, Tab.get?_set_self .., rfl, fun n z held member => ?_, fun n other => ?_, ?_⟩
    · refine occurs_of_true ?_ _ s
      rw [up, here, Option.bind_some, group]
      simp [open_, some_]
    · rw [cmds, if_pos member, held]
      rfl
    · rw [cmds, if_neg other]
    · exact frame
  · obtain ⟨r, res, member, -, next, changed, length, done⟩ := commitMember_insert (e := c.published + 1) s.net.deviceNumber undecided.1 insert own room
    obtain ⟨t, y, z, k', row, at_, published, next', at', stage, completion, status, dw2, dw3, epoch⟩ :=
      commit_settles up still here ready home plain group undecided (by omega) below member done rfl fun ⟨short, kept⟩ => by
        dsimp only at short
        rcases fits with none_ | enough
        · exact kept ⟨.inl insert, none_⟩
        · omega
    refine ⟨t, y, k', row, at_, by rw [published, changed, if_pos rfl], next'.trans next, ⟨z, k', at', stage, completion, status, dw2, dw3⟩, ?_, epoch⟩
    rw [at', Option.bind_some, completion]
  · obtain ⟨r, member, moved, changed, done⟩ := commitMember_delete (e := c.published + 1) s.net.deviceNumber undecided.1 delete
    obtain ⟨t, y, z, k', row, at_, published, next', at', stage, completion, status, dw2, dw3, epoch⟩ :=
      commit_settles up still here ready home plain group undecided (by omega) below member done rfl fun ⟨short, _⟩ => absurd short (Nat.not_lt_zero _)
    have published' : y.published = if hitsOf c x = [] then c.published else c.published + 1 := by
      rw [published, changed]
      by_cases none_ : hitsOf c x = [] <;> simp [none_]
    refine ⟨t, y, k', row, at_, next'.trans (moved.same (·.nextLocal)), published', ⟨z, k', at', stage, completion, status, dw2, dw3⟩, ?_, ?_⟩
    · rw [at', Option.bind_some, completion]
    · rw [epoch, published']
      by_cases none_ : hitsOf c x = [] <;> simp [none_]
  · refine commit_exhausted up still here ready home group undecided ?_ last
    intro eq
    rw [eq] at mutation
    exact Bool.false_ne_true mutation

end Sys2Proof.Machine
end

section
/-! SUPPORT. Shard searches, forwarded commands, sliced runs and what members fan out, and the statement about them (R225, R226, R233, R234,
R569 to R575). -/

namespace Sys2Proof.Machine

open Sys2Proof

-- Proofs are checked one at a time: each that waits for its turn would hold a thread's stack.
set_option Elab.async false

variable {s t u : State} {n i d : Nat} {c : Collection} {x : Cmd}

/-! ## Traffic changes routes and links alone -/

/-- From s to t packets went out: queues of routes and links changed alone. -/
structure Sends (s t : State) : Prop where
  eq : t = { s with net := { s.net with routes := t.net.routes, links := t.net.links } }

namespace Sends

theorem refl (s : State) : Sends s s := ⟨rfl⟩

theorem trans (h : Sends s t) (k : Sends t u) : Sends s u := by
  constructor
  rw [k.eq, h.eq]

theorem foldl {α : Type} {g : State → α → State} (h : ∀ s a, Sends s (g s a)) (as : List α) (s : State) : Sends s (as.foldl g s) :=
  List.foldlRecOn as g (motive := Sends s) (refl s) fun t ht a _ => ht.trans (h t a)

theorem sendPacket (s : State) (k : Packet) : Sends s (sendPacket s k) := by
  unfold Machine.sendPacket
  split
  · split <;> exact ⟨rfl⟩
  · exact refl s

theorem sendData (s : State) (type dest txn : Nat) (payload : List Byte) : Sends s (sendData s type dest txn payload) := by
  unfold Machine.sendData
  split
  · exact sendPacket ..
  · exact foldl (fun s b => sendPacket s _) _ s

theorem sendRunCtl (s : State) (d kind a b h : Nat) : Sends s (sendRunCtl s d kind a b h) := sendPacket ..

end Sends

/-- Traffic does not depend on the commands. -/
theorem sendPacket_withCmds (s : State) (m : Table Cmd) (k : Packet) : sendPacket { s with cmds := m } k = { sendPacket s k with cmds := m } := by
  unfold sendPacket
  dsimp only
  split
  · split <;> rfl
  · rfl

theorem sendData_withCmds (s : State) (m : Table Cmd) (type dest txn : Nat) (payload : List Byte) :
    sendData { s with cmds := m } type dest txn payload = { sendData s type dest txn payload with cmds := m } := by
  unfold sendData
  split
  · exact sendPacket_withCmds ..
  · generalize chunks 2048 payload = bs
    induction bs generalizing s with
    | nil => rfl
    | cons b bs ih => exact (congrArg (List.foldl _ · bs) (sendPacket_withCmds s m _)).trans (ih _)

/-! ## Shard requests (R572) -/

theorem shardOf_spec {co txn : Nat} (h : shardOf s co txn = some (n, x)) : (n, x) ∈ s.cmds ∧ x.origin = .shard co txn := by
  refine ⟨List.mem_of_find?_eq_some h, ?_⟩
  simpa using List.find?_some h

theorem dropShard_spec (once : s.cmds.filter (fun y => y.1 == n) = [(n, x)]) (ht : dropShard s n = t) :
    t.cmd? n = none ∧ (∀ m, m ≠ n → t.cmd? m = s.cmd? m) ∧
      t = { s with cmds := t.cmds, batches := t.batches, colls := t.colls, protect := { s.protect with t2Free := t.protect.t2Free } } := by
  obtain ⟨held, gone⟩ := Tab.get?_erase_of_once once
  unfold dropShard at ht
  rw [show s.cmd? n = some x from held] at ht
  subst ht
  refine ⟨?_, fun m other => ?_, ?_⟩
  · exact (congrArg (Tab.get? · n) (releasePins_cmds ..)).trans gone
  · exact (congrArg (Tab.get? · m) (releasePins_cmds ..)).trans (Tab.get?_erase_ne _ other)
  · unfold releasePins
    dsimp only
    split <;> rfl

/-! ## The exact distances of a shard's candidates (R225, R226, R575) -/

/-- The distance of a candidate, from the bytes of its full vector (R226). -/
def farOf (c : Collection) (x : Cmd) (y : Cand) : F32 :=
  let b := candBytes c (x.snapshot.getD 0) .vectors y
  if b.isEmpty then maxFinite else exactDist c.attrs.metric x.search.query (widen c.attrs.fullFormat c.attrs.int8Scale c.attrs.dim b)

/-- A candidate's full vector, where it has one, lies in T2 and can be read. -/
def NearBy (s : State) (c : Collection) (x : Cmd) (y : Cand) : Prop :=
  ∀ p, candPlace c (x.snapshot.getD 0) .vectors y = some p →
    (s.tile p.1).lost = false ∧ (s.tile p.1).tier = 2 ∧ t2Readable s (s.tile p.1) p.2.1 p.2.2 = true

/-- A command whose search has the distances given. -/
def Cmd.withDists (x : Cmd) (ds : Table F32) : Cmd := { x with search := { x.search with dists := ds } }

/-- A shard's search that reads its candidates for exact distances. -/
structure Cmd.Reranks (x : Cmd) (co txn : Nat) : Prop where
  origin : x.origin = .shard co txn
  stage : x.stage = .admitted
  exact_ : eRerank x.entry = 1
  tokens : x.search.candTokens = []

theorem candWaits_of_reranks {co txn : Nat} (shard : x.Reranks co txn) (s : State) (c : Collection) (y : Cand) (k : Nat) :
    candWaits s c x y k = !Tab.has x.search.dists k := by
  unfold candWaits
  rw [shard.origin, shard.tokens]
  simp [Tab.has]

theorem State.modCmd_held (held : s.cmd? n = some x) (f : Cmd → Cmd) : (s.modCmd n f).cmd? n = some (f x) := by
  rw [cmd?_modCmd, if_pos rfl, held]
  rfl

theorem readCand_near {co txn : Nat} {y : Cand} {k : Nat} (held : s.cmd? n = some x) (shard : x.Reranks co txn) (near : NearBy s c x y)
    (new : Tab.has x.search.dists k = false) : readCand s n c y k = setDist s n k (farOf c x y) := by
  have object : rerankObj x = .vectors := if_pos shard.exact_
  have arrives : candArrives s n x c k (candBytes c (x.snapshot.getD 0) .vectors y) = setDist s n k (farOf c x y) := if_pos shard.exact_
  unfold readCand
  rw [held]
  dsimp only
  rw [if_neg (by rw [candWaits_of_reranks shard, new, shard.stage]; decide), object]
  split
  · exact arrives
  · next t off len place =>
    obtain ⟨whole, tier, readable⟩ := near _ place
    dsimp only at whole tier readable ⊢
    rw [if_neg (by rw [whole]; decide), if_neg (by omega), if_neg (by omega), if_pos readable]
    exact arrives

/-- The distances of a run's candidates, by position from k on. -/
def putDists (f : Cand → F32) (l : List Cand) (k : Nat) (ds : Table F32) : Table F32 := (l.zipIdx k).foldl (fun ds y => Tab.set ds y.2 (f y.1)) ds

theorem get?_putDists (f : Cand → F32) (l : List Cand) (k : Nat) (ds : Table F32) (j : Nat) :
    Tab.get? (putDists f l k ds) j = if k ≤ j ∧ j < k + l.length then (l[j - k]?).map f else Tab.get? ds j := by
  unfold putDists
  induction l generalizing k ds with
  | nil => simp
  | cons y l ih =>
    rw [List.zipIdx_cons, List.foldl_cons, ih, Tab.get?_set, List.length_cons]
    rcases Nat.lt_trichotomy j k with low | rfl | high
    · rw [if_neg (by omega), if_neg (by omega), if_neg (by omega)]
    · rw [if_neg (by omega), if_pos rfl, if_pos (by omega), Nat.sub_self, List.getElem?_cons_zero, Option.map_some]
    · rw [if_neg (show ¬ j = k by omega), show j - k = (j - (k + 1)) + 1 by omega, List.getElem?_cons_succ]
      exact if_congr (by omega) rfl rfl

theorem readAll_near {co txn : Nat} (l : List Cand) (k : Nat) (held : s.cmd? n = some x) (shard : x.Reranks co txn)
    (near : ∀ y ∈ l, NearBy s c x y) (new : ∀ j, k ≤ j → Tab.has x.search.dists j = false)
    (ht : (l.zipIdx k).foldl (fun s y => readCand s n c y.1 y.2) s = t) :
    Changes [.cmds] s t ∧ t.cmd? n = some (x.withDists (putDists (farOf c x) l k x.search.dists)) := by
  induction l generalizing s x k with
  | nil =>
    subst ht
    exact ⟨.refl _ s, held⟩
  | cons y l ih =>
    rw [List.zipIdx_cons, List.foldl_cons, readCand_near held shard (near y (List.mem_cons_self ..)) (new k (Nat.le_refl k))] at ht
    have at_ : (setDist s n k (farOf c x y)).cmd? n = some (x.withDists (Tab.set x.search.dists k (farOf c x y))) := State.modCmd_held held _
    have first : Changes [.cmds] s (setDist s n k (farOf c x y)) := (Changes.refl _ s).modSearch n _
    have later (j : Nat) (high : k + 1 ≤ j) : Tab.has (Tab.set x.search.dists k (farOf c x y)) j = false := by
      rw [Tab.has, Tab.get?_set, if_neg (by omega)]
      exact new j (by omega)
    obtain ⟨changes, at'⟩ := ih (k + 1) at_ ⟨shard.origin, shard.stage, shard.exact_, shard.tokens⟩
      (fun z mem => near z (List.mem_cons_of_mem _ mem)) later ht
    exact ⟨first.trans changes, at'⟩

/-- Distances by the coordinator's positions (R575). -/
theorem rerank_body (f : Cand → F32) (ids : List (Nat × BitVec 48)) (l : List Cand) (same : l.length = ids.length) :
    ((ids.map (·.1)).zipIdx.flatMap fun y => leBytes 4 y.1 ++ leBytes 4 (Tab.getD (putDists f l 0 []) y.2 maxFinite).toNat) =
      (ids.zip l).flatMap fun y => leBytes 4 y.1.1 ++ leBytes 4 (f y.2).toNat := by
  rw [List.flatMap_def, List.flatMap_def]
  refine congrArg List.flatten (List.ext_getElem (by simp [same]) fun k low _ => ?_)
  have small : k < l.length := by simpa [same] using low
  have dist : Tab.getD (putDists f l 0 []) k maxFinite = f l[k] := by
    rw [Tab.getD, get?_putDists, if_pos (by omega), Nat.sub_zero, List.getElem?_eq_getElem small]
    rfl
  simp [dist]

theorem settleRerank_of_shard {co txn : Nat} (held : s.cmd? n = some x) (here : s.coll? (eIndex x.entry) = some c) (shard : x.origin = .shard co txn)
    (phase : x.search.phase = .reranking) (stage : x.stage = .admitted) (none_ : x.search.rerankWait = []) (read : allRead s c x = true) :
    settleRerank s n = sendRerank s n co txn x := by
  unfold settleRerank
  rw [held]
  dsimp only
  rw [here]
  dsimp only
  rw [if_neg (by simp [phase, stage, none_, read]), shard]

theorem allRead_of_putDists {co txn : Nat} (f : Cand → F32) (shard : x.Reranks co txn)
    (dists : x.search.dists = putDists f x.search.merged 0 []) : allRead s c x = true := by
  unfold allRead
  rw [Bool.not_eq_true', List.any_eq_false]
  rintro ⟨y, k⟩ mem
  obtain ⟨-, small, -⟩ := List.mem_zipIdx mem
  dsimp only
  rw [candWaits_of_reranks shard, dists, Tab.has, get?_putDists, if_pos (by omega), List.getElem?_eq_getElem (by omega)]
  exact Bool.false_ne_true

/-- A search at its shard that goes on to read its candidates for exact distances. -/
def Cmd.beginsRerank (x : Cmd) (l : List Cand) (asked : List Nat) : Cmd :=
  { x with search := { x.search with
      phase := .reranking, merged := l, dists := [], candTokens := [], pagesRead := [], paired := false, asked := asked } }

theorem shardRerank_spec {co txn : Nat} {ids : List (Nat × BitVec 48)} (held : s.cmd? n = some x) (here : s.coll? (eIndex x.entry) = some c)
    (origin : x.origin = .shard co txn) (stage : x.stage = .admitted) (none_ : x.search.rerankWait = []) (exact_ : eRerank x.entry = 1)
    (near : ∀ y ∈ askedCands x ids, NearBy s c x y) (ht : shardRerankEffect s n x ids = t) :
    ∃ z, t.cmd? n = some z ∧ z.search.phase = .ready ∧
      t = { sendData s 0x2C co txn (leBytes 2 0 ++ (ids.zip (askedCands x ids)).flatMap fun y =>
        leBytes 4 y.1.1 ++ leBytes 4 (farOf c x y.2).toNat) with cmds := t.cmds } := by
  have same : (askedCands x ids).length = ids.length := List.length_map ..
  have body := rerank_body (farOf c x) ids (askedCands x ids) same
  unfold shardRerankEffect at ht
  generalize askedCands x ids = l at *
  have asks := State.modCmd_held held fun y => { y with search := { y.search with asked := ids.map (·.1) } }
  change (s.modSearch n fun w => { w with asked := ids.map (·.1) }).cmd? n = _ at asks
  have asked : Changes [.cmds] s (s.modSearch n fun w => { w with asked := ids.map (·.1) }) := (Changes.refl _ s).modSearch n _
  have here₁ : (s.modSearch n fun w => { w with asked := ids.map (·.1) }).coll? (eIndex x.entry) = some c := here
  generalize (s.modSearch n fun w => { w with asked := ids.map (·.1) }) = s₁ at *
  unfold startRerank at ht
  rw [asks] at ht
  dsimp only at ht
  rw [here₁] at ht
  dsimp only at ht
  rw [if_pos (by rw [isShard, origin])] at ht
  have begins : (s₁.modSearch n fun w => { w with
      phase := .reranking, merged := l, dists := [], candTokens := [], pagesRead := [], paired := false }).cmd? n =
        some (x.beginsRerank l (ids.map (·.1))) := State.modCmd_held asks _
  have began : Changes [.cmds] s₁ (s₁.modSearch n fun w => { w with
      phase := .reranking, merged := l, dists := [], candTokens := [], pagesRead := [], paired := false }) := (Changes.refl _ s₁).modSearch n _
  generalize (s₁.modSearch n fun w => { w with
    phase := .reranking, merged := l, dists := [], candTokens := [], pagesRead := [], paired := false }) = s₂ at *
  have changes := asked.trans began
  have near₂ : ∀ y ∈ l, NearBy s₂ c (x.beginsRerank l (ids.map (·.1))) y := by
    rw [changes]
    exact near
  obtain ⟨read, at_⟩ := readAll_near l 0 begins ⟨origin, stage, exact_, rfl⟩ near₂ (fun _ _ => rfl) rfl
  generalize ((l.zipIdx 0).foldl (fun s y => readCand s n c y.1 y.2) s₂) = s₃ at *
  have all := changes.trans read
  have here₃ : s₃.coll? (eIndex x.entry) = some c := (all.same fun s => s.coll? (eIndex x.entry)).trans here
  have send := settleRerank_of_shard at_ here₃ origin rfl stage none_ (allRead_of_putDists (farOf c x) ⟨origin, stage, exact_, rfl⟩ rfl)
  subst ht
  rw [send]
  unfold sendRerank
  extract_lets w b
  have bytes : b = (ids.zip l).flatMap fun y => leBytes 4 y.1.1 ++ leBytes 4 (farOf c x y.2).toNat :=
    (congrArg (List.flatMap · _) (funext fun _ => if_pos exact_)).trans body
  rw [bytes]
  have sent : (sendData s₃ 0x2C co txn (leBytes 2 0 ++ (ids.zip l).flatMap fun y => leBytes 4 y.1.1 ++ leBytes 4 (farOf c x y.2).toNat)) =
      { sendData s 0x2C co txn (leBytes 2 0 ++ (ids.zip l).flatMap fun y => leBytes 4 y.1.1 ++ leBytes 4 (farOf c x y.2).toNat)
        with cmds := s₃.cmds } := (congrArg (sendData · 0x2C co txn _) all).trans (sendData_withCmds ..)
  rw [sent]
  exact ⟨_, State.modCmd_held (s := { sendData s 0x2C co txn _ with cmds := s₃.cmds }) at_ _, rfl, rfl⟩

/-! ## Sliced runs (R233, R234) -/

theorem advance_spec {k : Nat} {r : Run} (held : Tab.get? s.runs k = some r) (ht : advance s k = t) :
    ∃ w, Tab.get? t.runs k = some { r with worked := w } ∧ t = { s with runs := t.runs } := by
  unfold advance at ht
  rw [held] at ht
  dsimp only at ht
  split at ht
  · subst ht
    exact ⟨r.worked, held, rfl⟩
  · subst ht
    refine ⟨_, (Tab.get?_adjust_self ..).trans (congrArg (Option.map _) held), rfl⟩

theorem settleUnloads_of_none (none_ : s.noneUnloads) : settleUnloads s = s := by
  unfold settleUnloads
  generalize Tab.keys s.scheds = ks
  induction ks with
  | nil => rfl
  | cons k ks ih =>
    rw [List.foldl_cons, show settleUnload s k = s from ?_, ih]
    unfold settleUnload
    split
    · next d held =>
      obtain ⟨unload, going⟩ := none_ _ (Tab.mem_of_get? held)
      dsimp only at unload going
      rw [if_neg (by simp [unload, going])]
    · rfl

theorem dropRun_runs (s : State) (k : Nat) : (dropRun s k).runs = Tab.erase s.runs k := by
  unfold dropRun
  extract_lets ks t
  have idle : Changes [.cache, .streams] s t :=
    ((changes_releaseBlocksOf ..).mono (by decide)).trans (.foldl (fun s k => (Changes.refl _ s).modStream ..) _ _)
  exact congrArg (Tab.erase · k) (idle.same (·.runs))

/-! ## Answers at a coordinator (R226, R574, R575) -/

theorem awaitsShard_of_held (held : s.cmd? n = some x) (waits : x.search.shards.contains d = true) (own : isShard x = false) (stage : x.stage = .admitted) :
    awaitsShard s n d = true := by
  rw [awaitsShard, held]
  dsimp only
  rw [waits, own, stage]
  rfl

theorem failSearch_decided (undecided : s.undecided n x) (search : eOpcode x.entry = 1) {st : Status} (error : informational st = false) (z : Cause) :
    (failSearch s n st z).decidedAs n st 0 0 := by
  obtain ⟨⟨k, status, dw2, dw3, at_⟩, -⟩ := fail_of_undecided (t := failSearch s n st z) undecided st z error rfl
  exact State.decidedAs_of at_ status dw2 (dw3 (by rw [search]; rfl))

theorem exec_shardRerankRsp (up : live s = true) (still : awake s = true) (held : s.cmd? n = some x) (phase : x.search.phase = .reranking)
    (asked : x.search.rerankWait.contains d = true) (st : Status) (ds : List (Nat × F32)) (toks : List (Nat × List (BitVec 32))) :
    exec (.shardRerankRsp n d st ds toks) s = .next (rerankRspEffect s n d st ds toks) := by
  refine Eq.trans ?_ (occurs_of_true (show (live s && awake s && x.search.phase == .reranking && x.search.rerankWait.contains d) = true by
    rw [up, still, phase, asked]; rfl) _ s)
  change execShardRerankRsp n d st ds toks s = _
  unfold execShardRerankRsp
  rw [held]

theorem cmd?_foldl_setDist (ds : List (Nat × F32)) (held : s.cmd? n = some x) (ht : ds.foldl (fun s y => setDist s n y.1 y.2) s = t) :
    t.cmd? n = some (x.withDists (ds.foldl (fun a v => Tab.set a v.1 v.2) x.search.dists)) ∧ Changes [.cmds] s t := by
  induction ds generalizing s x with
  | nil =>
    subst ht
    exact ⟨held, .refl _ s⟩
  | cons y ds ih =>
    have at_ : (setDist s n y.1 y.2).cmd? n = some (x.withDists (Tab.set x.search.dists y.1 y.2)) := State.modCmd_held held _
    obtain ⟨at', changes⟩ := ih at_ ht
    exact ⟨at', ((Changes.refl [.cmds] s).modSearch n _).trans changes⟩

theorem settleRerank_of_waits (held : s.cmd? n = some x) (waits : x.search.rerankWait ≠ []) : settleRerank s n = s := by
  unfold settleRerank
  rw [held]
  dsimp only
  split
  · rfl
  · rw [if_pos (by simp [waits])]

theorem filter_ne_nil_of_other {ds : List Nat} (other : ∃ e ∈ ds, e ≠ d) : ds.filter (· != d) ≠ [] := by
  obtain ⟨e, mem, ne⟩ := other
  exact List.ne_nil_of_mem (List.mem_filter.mpr ⟨mem, by simpa using ne⟩)

theorem rerankRsp_spec {ds : List (Nat × F32)} (held : s.cmd? n = some x) (other : ∃ e ∈ x.search.rerankWait, e ≠ d)
    (ht : rerankRspEffect s n d .success ds [] = t) :
    ∃ y, t.cmd? n = some y ∧ y.search.rerankWait = x.search.rerankWait.filter (· != d) ∧
      y.search.dists = ds.foldl (fun a v => Tab.set a v.1 v.2) x.search.dists ∧ t = { s with cmds := t.cmds } := by
  unfold rerankRspEffect at ht
  rw [held] at ht
  dsimp only at ht
  rw [if_neg (by simp), List.foldl_nil] at ht
  have at_ := State.modCmd_held held fun y => { y with search := { y.search with rerankWait := y.search.rerankWait.filter (· != d) } }
  change (s.modSearch n fun w => { w with rerankWait := w.rerankWait.filter (· != d) }).cmd? n = _ at at_
  have left : Changes [.cmds] s (s.modSearch n fun w => { w with rerankWait := w.rerankWait.filter (· != d) }) := (Changes.refl _ s).modSearch n _
  generalize (s.modSearch n fun w => { w with rerankWait := w.rerankWait.filter (· != d) }) = s₁ at *
  obtain ⟨at', dists⟩ := cmd?_foldl_setDist ds at_ rfl
  rw [settleRerank_of_waits at' (filter_ne_nil_of_other other)] at ht
  subst ht
  exact ⟨_, at', rfl, rfl, left.trans dists⟩

theorem memberAnswers_spec {k f : Completion} (res : List Byte) (held : s.cmd? n = some x) (asked : x.work.members.contains d = true)
    (fanned : fannedOut (eOpcode x.entry) = true) (so_far : x.completion = some f) (other : ∃ e ∈ x.work.members, e ≠ d)
    (ht : memberAnswers s n d k res = t) :
    ∃ y g, t.cmd? n = some y ∧ y.work.members = x.work.members.filter (· != d) ∧ y.completion = some g ∧
      g.status = (if f.status = .success then k.status else f.status) ∧ t = { s with cmds := t.cmds } := by
  unfold memberAnswers at ht
  rw [held] at ht
  dsimp only at ht
  rw [asked, if_neg (by decide), fanned, if_neg (by decide), so_far, if_neg (by simpa using filter_ne_nil_of_other other)] at ht
  dsimp only at ht
  subst ht
  refine ⟨_, _, State.modCmd_held (State.modCmd_held held _) _, rfl, rfl, ?_, rfl⟩
  split <;> rfl

/-! ## The control packets of sliced runs (R233, R234) -/

theorem runCtl_start {co run setId cls : Nat} {e : Sched}
    (first : s.scheds.find? (fun y => y.2.loaded && y.2.header.sliced && y.2.header.setId == setId && y.2.members.contains co) = some (i, e))
    (ht : runCtlEffect s (.start co run setId cls) = t) :
    t.nextRun = s.nextRun + 1 ∧
      (∃ r, Tab.get? t.runs s.nextRun = some r ∧ r.sched = i ∧ r.slice = some (co, run) ∧ r.sliceClass = cls ∧ r.begun = false) ∧
      (∀ m, m ≠ s.nextRun → Tab.get? t.runs m = Tab.get? s.runs m) ∧ t = { s with runs := t.runs, nextRun := t.nextRun } := by
  unfold runCtlEffect at ht
  dsimp only at ht
  rw [first] at ht
  subst ht
  exact ⟨rfl, ⟨_, Tab.get?_set_self .., rfl, rfl, rfl, rfl⟩, fun m other => Tab.get?_set_ne _ _ other, rfl⟩

theorem runCtl_report {run slice : Nat} {r : Run} (held : Tab.get? s.runs run = some r) (launched : r.launched = true) (waits : r.begun = false)
    (mine : r.slice = none) (new : r.reports.contains slice = false) (ht : runCtlEffect s (.startReport run slice) = t) :
    (r.reports.length + 1 < (sliceOthers s (s.sched r.sched)).length →
      t = { s with runs := Tab.adjust s.runs run fun y => { y with reports := y.reports ++ [slice] } }) ∧
    ((sliceOthers s (s.sched r.sched)).length ≤ r.reports.length + 1 →
      ∃ y, Tab.get? t.runs run = some y ∧ y.begun = true ∧ y.start = s.time ∧ y.reports = r.reports ++ [slice] ∧
        t = { s with runs := t.runs, net := { s.net with routes := t.net.routes, links := t.net.links } }) := by
  unfold runCtlEffect at ht
  dsimp only at ht
  rw [held] at ht
  dsimp only at ht
  rw [launched, waits, mine, new, if_neg (by decide)] at ht
  have reports : (s.modRun run fun r => { r with reports := r.reports ++ [slice] }) =
      { s with runs := Tab.adjust s.runs run fun y => { y with reports := y.reports ++ [slice] } } := rfl
  have at_ : Tab.get? (s.modRun run fun r => { r with reports := r.reports ++ [slice] }).runs run = some { r with reports := r.reports ++ [slice] } :=
    (Tab.get?_adjust_self ..).trans (congrArg (Option.map _) held)
  have others : sliceOthers (s.modRun run fun r => { r with reports := r.reports ++ [slice] })
      ((s.modRun run fun r => { r with reports := r.reports ++ [slice] }).sched r.sched) = sliceOthers s (s.sched r.sched) := rfl
  rw [others] at ht
  generalize (s.modRun run fun r => { r with reports := r.reports ++ [slice] }) = s₁ at *
  generalize sliceOthers s (s.sched r.sched) = ds at *
  refine ⟨fun some_ => ?_, fun last => ?_⟩
  · rw [if_pos some_] at ht
    exact ht.symm.trans reports
  · rw [if_neg (by omega)] at ht
    obtain ⟨sent⟩ := Sends.foldl (fun s d => .sendRunCtl s d 2 s.net.deviceNumber run 0) ds s₁
    generalize ds.foldl (fun s d => sendRunCtl s d 2 s.net.deviceNumber run 0) s₁ = s₂ at *
    have begins : Tab.get? (s₂.modRun run fun r => { r with begun := true, start := s₂.time }).runs run =
        some { r with reports := r.reports ++ [slice], begun := true, start := s₂.time } := by
      refine (Tab.get?_adjust_self ..).trans ?_
      rw [sent, at_]
      rfl
    obtain ⟨w, at', eq⟩ := advance_spec begins ht
    refine ⟨_, at', rfl, ?_, rfl, ?_⟩
    · dsimp only
      rw [sent, reports]
    · rw [eq, State.modRun, sent, reports]

theorem runCtl_go {co run k : Nat} {r : Run} (held : Tab.get? s.runs k = some r)
    (first : s.runs.find? (fun y => y.2.slice == some (co, run) && y.2.launched && !y.2.begun) = some (k, r))
    (ht : runCtlEffect s (.go co run) = t) :
    ∃ y, Tab.get? t.runs k = some y ∧ y.begun = true ∧ y.start = s.time ∧ t = { s with runs := t.runs } := by
  unfold runCtlEffect at ht
  dsimp only at ht
  rw [first] at ht
  obtain ⟨w, at_, eq⟩ := advance_spec ((Tab.get?_adjust_self s.runs k _).trans (congrArg (Option.map _) held)) ht
  exact ⟨_, at_, rfl, rfl, eq⟩

theorem runCtl_finish {run k : Nat} {r : Run} (wf : Tab.wf s.runs = true) (first : s.runs.find? (fun y => y.2.slice == some (d, run)) = some (k, r))
    (none_ : s.noneUnloads) (ht : runCtlEffect s (.finish d run true) = t) : Tab.get? t.runs k = none ∧ t.net = s.net ∧ t.cmds = s.cmds := by
  have dropped := changes_dropRun s k
  have runs := dropRun_runs s k
  unfold runCtlEffect at ht
  dsimp only at ht
  rw [first] at ht
  dsimp only at ht
  generalize dropRun s k = u at *
  rw [settleUnloads_of_none (s := u) (by unfold State.noneUnloads; rw [dropped.same (·.scheds)]; exact none_)] at ht
  subst ht
  exact ⟨by rw [runs, Tab.get?_erase_self wf], dropped.same (·.net), dropped.same (·.cmds)⟩

/-! ## The obligation -/

theorem fan_creates {e : BitVec 1024} {inp : List Byte} (create : eOpcode e = 0x90) {a : Attrs} {ms : List Nat} (attrs : readAttrs (inp.take 128) = some a)
    (members : recordMembers inp = some ms) (new : Tab.has s.colls (eIndex e) = false)
    (made : createColl s (eIndex e) (eHandle e / 65536) a ms inp = some u) : fanEffect s e inp = u := by
  unfold fanEffect
  rw [create]
  dsimp only
  rw [attrs, members]
  dsimp only
  rw [new, if_neg (by decide), made]
  rfl

theorem fan_sets {e : BitVec 1024} {inp : List Byte} (set : eOpcode e = 0x91) {a : Attrs} (here : collOf s (eHandle e) = some (i, c))
    (attrs : setAttrs (c.newAttrs.getD c.attrs) inp (eSetMask e) = some a) (applied : applySet s i a = some u) : fanEffect s e inp = u := by
  unfold fanEffect
  rw [set]
  dsimp only
  rw [here]
  dsimp only
  rw [attrs, Option.bind_some, applied]
  rfl

theorem fan_deletes {e : BitVec 1024} {inp : List Byte} (delete : eOpcode e = 0x92) (here : collOf s (eHandle e) = some (i, c)) :
    fanEffect s e inp = beginDelete s i noCmd := by
  unfold fanEffect
  rw [delete]
  dsimp only
  rw [here]
  rfl

theorem forwarded_waits {src txn : Nat} {e : BitVec 1024} {inp : List Byte} (other : eOpcode e ≠ 6) (here : collOf s (eHandle e) = some (i, c))
    (hx : { origin := .forwarded src txn, entry := e, input := inp, word := fetchWord (eOpcode e), embed := c.embed, cross := c.cross
            keepTokens := c.keepTokens } = x) (passes : homeCheck (addCmd s x) x = none) : forwardCmdEffect s src txn e inp = addCmd s x := by
  unfold forwardCmdEffect
  rw [here]
  dsimp only [Option.map_some, Option.getD_some]
  rw [hx, if_neg (by rw [Option.isNone_some]; decide), passes]
  exact if_neg other

/-- Settles O55. A shard's re-rank reads its candidates one after the other, each at once, and so is answered in one step. -/
theorem shardsAndSlices : Obligations.ShardsAndSlices := by
  refine ⟨fun s up still => ⟨fun r member new => ⟨fun there => ?_, fun gone => ?_⟩, fun n d x held waits own stage => ⟨fun es => ?_, fun st l m info => ?_,
      fun st l m error undecided search => ?_⟩, fun co txn n x shard => ⟨fun once => ?_, fun c ids here held phase stage none_ exact_ near => ?_⟩,
      fun n d x held phase asked => ⟨fun ds other => ?_, fun st ds toks error undecided search => ?_⟩⟩, ⟨?_, ?_⟩, ⟨?_, ?_⟩⟩
  · have row : exec (.shardReq r) s = .next (shardReqEffect s r) := occurs_of_true (by rw [up, still, member, shardReady, new]; rfl) _ s
    obtain ⟨⟨i, c⟩, at_⟩ := Option.ne_none_iff_exists'.mp there
    unfold shardReqEffect at row
    rw [new] at row
    dsimp only at row
    rw [at_] at row
    exact ⟨_, _, row, Tab.get?_set_self .., rfl, rfl, rfl, rfl, rfl, rfl⟩
  · have row : exec (.shardReq r) s = .next (shardReqEffect s r) := occurs_of_true (by rw [up, still, member, shardReady, new]; rfl) _ s
    unfold shardReqEffect at row
    rw [new] at row
    dsimp only at row
    rw [gone] at row
    exact ⟨_, row, (Sends.sendData ..).eq⟩
  · exact occurs_of_true (by rw [up, still, awaitsShard_of_held held waits own stage]; rfl) _ s
  · refine (occurs_of_true (by rw [up, still, awaitsShard_of_held held waits own stage]; rfl) _ s).trans (congrArg Host.Outcome.next ?_)
    rw [shardEndEffect, info, if_neg (by decide)]
    rfl
  · refine ⟨_, occurs_of_true (by rw [up, still, awaitsShard_of_held held waits own stage]; rfl) _ s, ?_⟩
    rw [shardEndEffect, error, if_pos (by decide)]
    exact failSearch_decided undecided search error _
  · have row : exec (.shardCancel co txn) s = .next (dropShard s n) := by
      refine Eq.trans ?_ (occurs_of_true (show (live s && awake s) = true by rw [up, still]; rfl) _ s)
      change execShardCancel co txn s = _
      unfold execShardCancel
      rw [shard]
    obtain ⟨gone, others, eq⟩ := dropShard_spec once rfl
    exact ⟨_, row, gone, others, eq⟩
  · have row : exec (.shardRerank co txn false ids) s = .next (shardRerankEffect s n x ids) := by
      refine Eq.trans ?_ (occurs_of_true (show (live s && awake s && x.search.phase == .ready && false == (eRerank x.entry == 2)) = true by
        rw [up, still, phase, exact_]; rfl) _ s)
      change execShardRerank co txn false ids s = _
      unfold execShardRerank
      rw [shard]
    obtain ⟨z, at_, ready, eq⟩ := shardRerank_spec held here (shardOf_spec shard).2 stage none_ exact_ near rfl
    exact ⟨_, z, row, at_, ready, eq⟩
  · have row (st : Status) (ds : List (Nat × F32)) (toks : List (Nat × List (BitVec 32))) :
        exec (.shardRerankRsp n d st ds toks) s = .next (rerankRspEffect s n d st ds toks) := exec_shardRerankRsp up still held phase asked st ds toks
    obtain ⟨y, at_, left, dists, eq⟩ := rerankRsp_spec held other rfl
    exact ⟨_, y, row _ _ _, at_, left, dists, eq⟩
  · refine ⟨_, exec_shardRerankRsp up still held phase asked st ds toks, ?_⟩
    unfold rerankRspEffect
    rw [held]
    dsimp only
    rw [if_pos (by rintro rfl; cases error)]
    exact failSearch_decided undecided search error _
  · intro src txn e inp i c s up still member forwards_ other new here
    dsimp only
    intro passes
    refine (occurs_of_true ?_ _ s).trans (congrArg Host.Outcome.next (forwarded_waits other here rfl passes))
    rw [up, still, member, forwards_]
    simpa using fun a y mem => new (a, y) mem
  · intro n d k res x f s up still held asked fanned so_far other
    have row : exec (.forwardCpl n d k res) s = .next (memberAnswers s n d (readCqe k) res) := by
      refine Eq.trans ?_ (occurs_of_true (show (live s && awake s && x.work.members.contains d) = true by rw [up, still, asked]; rfl) _ s)
      change execForwardCpl n d k res s = _
      unfold execForwardCpl
      rw [held]
    obtain ⟨y, g, at_, members, keeps, status, eq⟩ := memberAnswers_spec (k := readCqe k) res held asked fanned so_far other rfl
    exact ⟨_, y, g, row, at_, members, keeps, status, eq⟩
  · intro s up still wf
    have row (m : RunCtl) : exec (.runCtl m) s = .next (runCtlEffect s m) := occurs_of_true (by rw [up, still]; rfl) _ s
    refine ⟨fun co run setId cls => ⟨fun i e first => ?_, fun none_ => ?_⟩, fun run slice r held launched waits mine new => ⟨fun some_ => ?_, fun last => ?_⟩,
      fun co run k r first => ?_, fun d run k r first none_ => ?_⟩
    · obtain ⟨next, new, others, eq⟩ := runCtl_start (run := run) (cls := cls) first rfl
      exact ⟨_, row _, next, new, others, eq⟩
    · refine (row _).trans (congrArg Host.Outcome.next ?_)
      unfold runCtlEffect
      dsimp only
      rw [List.find?_eq_none.mpr fun y mem => by simpa [and_assoc] using none_ y mem]
    · exact (row _).trans (congrArg Host.Outcome.next ((runCtl_report held launched waits mine new rfl).1 some_))
    · obtain ⟨y, at_, begun, start, reports, eq⟩ := (runCtl_report held launched waits mine new rfl).2 last
      exact ⟨_, y, row _, at_, begun, start, reports, eq⟩
    · obtain ⟨y, at_, begun, start, eq⟩ := runCtl_go (Tab.get?_of_mem wf (List.mem_of_find?_eq_some first)) first rfl
      exact ⟨_, y, row _, at_, begun, start, eq⟩
    · exact ⟨_, row _, runCtl_finish wf first none_ rfl⟩
  · intro src e inp s up still member
    have row (fanned : fans (eOpcode e) = true) : exec (.adminFan src e inp (eIndex e)) s = .next (fanEffect s e inp) :=
      occurs_of_true (by rw [up, still, member, fanned]; simp) _ s
    refine ⟨fun create a ms u attrs members new made => ?_, fun set i c a u here attrs applied => ?_, fun delete i c here => ?_⟩
    · exact (row (by rw [create]; rfl)).trans (congrArg Host.Outcome.next (fan_creates create attrs members new made))
    · exact (row (by rw [set]; rfl)).trans (congrArg Host.Outcome.next (fan_sets set here attrs applied))
    · exact (row (by rw [delete]; rfl)).trans (congrArg Host.Outcome.next (fan_deletes delete here))

end Sys2Proof.Machine
end

section
/-! SUPPORT. Coarse passes and the launch of batches, and the statement about them (R98 to R101, R106, R113 to R117, R242 to R244, R365). -/

namespace Sys2Proof.Machine

open Sys2Proof

-- Proofs are checked one at a time: each that waits for its turn would hold a thread's stack.
set_option Elab.async false

variable {s t u : State} {n i k die : Nat} {c : Collection} {x : Cmd} {b : Batch}

/-! ## Lists that name each entry once -/

theorem length_eraseDups_le (l : List Nat) : l.eraseDups.length ≤ l.length := by
  induction h : l.length using Nat.strong_induction_on generalizing l with
  | _ m ih =>
    cases l with
    | nil => simp
    | cons a as =>
      have fewer := List.length_filter_le (fun b => !b == a) as
      rw [List.length_cons] at h
      have rest := ih _ (by omega) (as.filter fun b => !b == a) rfl
      rw [List.eraseDups_cons, List.length_cons]
      omega

theorem nodup_of_length_eraseDups {l : List Nat} (h : l.length = l.eraseDups.length) : l.Nodup := by
  induction l with
  | nil => exact .nil
  | cons a as ih =>
    rw [List.eraseDups_cons, List.length_cons, List.length_cons] at h
    have fewer := List.length_filter_le (fun b => !b == a) as
    have bound := length_eraseDups_le (as.filter fun b => !b == a)
    have all : as.filter (fun b => !b == a) = as := List.filter_eq_self.mpr (List.length_filter_eq_length_iff.mp (by omega))
    rw [all] at h
    refine List.nodup_cons.mpr ⟨fun mem => ?_, ih (by omega)⟩
    simpa using List.filter_eq_self.mp all a mem

/-! ## Coarse passes (R98 to R101) -/

/-- A die's part of a probe order names lists of its stripe, at most P'. -/
theorem stripeOrder_spec (s : State) (c : Collection) (x : Cmd) (die : Nat) :
    (stripeOrder s c x die).length ≤ probeKeep x.entry x.search.listCount ∧
      ∀ y ∈ stripeOrder s c x die, y.2 % 8 = die ∧ y.2 < x.search.listCount := by
  unfold stripeOrder
  extract_lets v cents ls
  refine ⟨(List.length_map ..).trans_le (List.length_take_le ..), fun y mem => ?_⟩
  obtain ⟨z, taken, rfl⟩ := List.mem_map.mp mem
  obtain ⟨l, listed, rfl⟩ := List.mem_map.mp ((isort_perm ..).mem_iff.mp (List.mem_of_mem_take taken))
  obtain ⟨range, stripe⟩ := List.mem_filter.mp listed
  exact ⟨by simpa using stripe, List.mem_range.mp range⟩

theorem passLevel_single (n : Nat) (x : Cmd) : passLevel [(n, x)] = eClass x.entry := by
  have small : eClass x.entry < 4 := Nat.mod_lt _ (by decide)
  change min 3 (eClass x.entry) = _
  omega

/-- The command with the part of its probe order that a die has found. -/
def Cmd.withPartial (x : Cmd) (die : Nat) (o : List (BitVec 32 × Nat)) : Cmd :=
  { x with search := { x.search with partials := Tab.set x.search.partials die o } }

/-- From s to t a query joined batches, and changed in nothing else. -/
structure JoinsBatches (n : Nat) (s t : State) : Prop where
  changes : Changes [.cmds, .batches, .nextBatch] s t
  mine : ∀ x, s.cmd? n = some x → ∃ bs, t.cmd? n = some { x with search := { x.search with batches := bs } }

theorem JoinsBatches.refl (n : Nat) (s : State) : JoinsBatches n s s := ⟨.refl _ s, fun x held => ⟨x.search.batches, held⟩⟩

theorem JoinsBatches.trans (h : JoinsBatches n s t) (k : JoinsBatches n t u) : JoinsBatches n s u := by
  refine ⟨h.changes.trans k.changes, fun x held => ?_⟩
  obtain ⟨bs, at_⟩ := h.mine x held
  obtain ⟨bs', at'⟩ := k.mine _ at_
  exact ⟨bs', at'⟩

theorem joinBatch_joins (s : State) (n i dir limit l : Nat) : JoinsBatches n s (joinBatch s n i dir limit l) := by
  unfold joinBatch
  extract_lets room
  split
  · exact ⟨rfl, fun x held => ⟨_, State.modCmd_held held _⟩⟩
  · exact ⟨rfl, fun x held => ⟨_, State.modCmd_held held _⟩⟩

theorem startRound_spec {r : Nat} (held : s.cmd? n = some x) (here : s.coll? (eIndex x.entry) = some c) (ht : startRound s n r = t) :
    Changes [.cmds, .batches, .nextBatch] s t ∧ ∃ bs, t.cmd? n = some { x with search := { x.search with
      phase := .scanning, round := r, scanned := scannedSet c x r, squares := [], batches := bs } } := by
  unfold startRound at ht
  rw [held] at ht
  dsimp only at ht
  rw [here] at ht
  dsimp only at ht
  have at_ := State.modCmd_held held fun y => { y with search := { y.search with
    phase := .scanning, round := r, scanned := scannedSet c x r, squares := [] } }
  change (s.modSearch n fun w => { w with phase := .scanning, round := r, scanned := scannedSet c x r, squares := [] }).cmd? n = _ at at_
  have begins : Changes [.cmds, .batches, .nextBatch] s
    (s.modSearch n fun w => { w with phase := .scanning, round := r, scanned := scannedSet c x r, squares := [] }) := (Changes.refl _ s).modSearch n _
  generalize (s.modSearch n fun w => { w with phase := .scanning, round := r, scanned := scannedSet c x r, squares := [] }) = s₁ at *
  have joins : JoinsBatches n s₁ t := by
    subst ht
    exact List.foldlRecOn _ _ (motive := JoinsBatches n s₁) (.refl n s₁) fun u so_far l _ => so_far.trans (joinBatch_joins u ..)
  obtain ⟨bs, at'⟩ := joins.mine _ at_
  exact ⟨begins.trans joins.changes, bs, at'⟩

theorem mergeOrders_of_few (held : s.cmd? n = some x) (few : x.search.partials.length < 8) : mergeOrders s n = s := by
  unfold mergeOrders
  rw [held]
  exact if_pos few

theorem mergeOrders_spec (held : s.cmd? n = some x) (here : s.coll? (eIndex x.entry) = some c) (all : 8 ≤ x.search.partials.length)
    (ht : mergeOrders s n = t) :
    Changes [.cmds, .batches, .nextBatch] s t ∧ ∃ z, t.cmd? n = some z ∧ z.search.phase = .scanning ∧ z.search.partials = [] ∧
      z.search.order.length ≤ probeKeep x.entry x.search.listCount ∧ z.search.flights = x.search.flights := by
  unfold mergeOrders at ht
  rw [held] at ht
  dsimp only at ht
  rw [if_neg (by omega)] at ht
  have length : (((isort partialLt (Tab.vals x.search.partials).flatten).take (probeKeep x.entry x.search.listCount)).map (·.2)).length ≤
      probeKeep x.entry x.search.listCount := (List.length_map ..).trans_le (List.length_take_le ..)
  generalize ((isort partialLt (Tab.vals x.search.partials).flatten).take (probeKeep x.entry x.search.listCount)).map (·.2) = o at *
  have at_ := State.modCmd_held held fun y => { y with search := { y.search with order := o, partials := [] } }
  obtain ⟨changes, bs, at'⟩ := startRound_spec (s := s.modSearch n fun w => { w with order := o, partials := [] }) at_ here ht
  exact ⟨((Changes.refl _ s).modSearch n _).trans changes, _, at', rfl, rfl, length, rfl⟩

/-- What a pass of one query does before the parts of its order are merged. -/
theorem coarseEffect_single (here : s.coll? i = some c) (waits : passQueries s die i = [(n, x)]) :
    coarseEffect s die i = mergeOrders (({ s with coarseLevels := Tab.set s.coarseLevels die (eClass x.entry) } : State).modSearch n fun w =>
      { w with partials := Tab.set w.partials die (stripeOrder s c x die) }) n := by
  unfold coarseEffect
  rw [here]
  dsimp only
  rw [waits, passLevel_single]
  rfl

/-! ## The launch of a batch (R106, R113 to R117, R242 to R244, R365) -/

/-- A command whose search has the tables given. -/
def Cmd.withTables (x : Cmd) (ts : Table DistTable) : Cmd := { x with search := { x.search with tables := ts } }

/-- Command y is z with tables built: none where it is no member, and the one of the key where it is. -/
structure TablesOf (key : Nat) (member : Prop) (z y : Cmd) : Prop where
  eq : y = z.withTables y.search.tables
  other : ¬ member → y = z
  mine : member → Tab.has y.search.tables key = true
  kept : Tab.has z.search.tables key = true → Tab.has y.search.tables key = true

/-- From s to t tables were built for members, and commands changed in nothing else. -/
structure BuildsTables (key : Nat) (ms : List Nat) (s t : State) : Prop where
  changes : Changes [.cmds] s t
  gone : ∀ n, s.cmd? n = none → t.cmd? n = none
  cmds : ∀ n z, s.cmd? n = some z → ∃ y, t.cmd? n = some y ∧ TablesOf key (n ∈ ms) z y

namespace BuildsTables

variable {key : Nat} {ms ns : List Nat}

theorem refl (key : Nat) (s : State) : BuildsTables key [] s s :=
  ⟨.refl _ s, fun _ => id, fun _ z held => ⟨z, held, rfl, fun _ => rfl, fun mem => absurd mem List.not_mem_nil, id⟩⟩

theorem trans (h : BuildsTables key ms s t) (k : BuildsTables key ns t u) : BuildsTables key (ms ++ ns) s u := by
  refine ⟨h.changes.trans k.changes, fun n gone => k.gone n (h.gone n gone), fun n z held => ?_⟩
  obtain ⟨y, at_, first⟩ := h.cmds n z held
  obtain ⟨y', at', second⟩ := k.cmds n y at_
  refine ⟨y', at', ?_, fun out => ?_, fun mem => ?_, fun had => second.kept (first.kept had)⟩
  · rw [second.eq, first.eq]
    rfl
  · rw [List.mem_append, not_or] at out
    rw [second.other out.2, first.other out.1]
  · rcases List.mem_append.mp mem with early | late
    · exact second.kept (first.mine early)
    · exact second.mine late

/-- What reads no tables of commands reads the same. -/
theorem map_same {α : Type} (h : BuildsTables key ms s t) (f : Cmd → α) (out : ∀ z ts, f (Cmd.withTables z ts) = f z := by intro _ _; rfl) (n : Nat) :
    (t.cmd? n).map f = (s.cmd? n).map f := by
  cases held : s.cmd? n with
  | none => rw [h.gone n held]
  | some z =>
    obtain ⟨y, at_, tables⟩ := h.cmds n z held
    rw [at_, Option.map_some, Option.map_some, tables.eq, out]

theorem batchClass (h : BuildsTables key ms s t) (b : Batch) : batchClass t b = batchClass s b :=
  congrArg (fun f => minOf 3 (b.members.filterMap f)) (funext (h.map_same fun x => eClass x.entry))

theorem predsOf (h : BuildsTables key ms s t) (b : Batch) : predsOf t b = predsOf s b := by
  have terms (n : Nat) : ((t.cmd? n).map (·.search.terms)).getD [] = ((s.cmd? n).map (·.search.terms)).getD [] := by
    rw [h.map_same (·.search.terms)]
  simp only [Machine.predsOf, terms]

end BuildsTables

theorem buildTables_builds (s : State) (c : Collection) (b : Batch) :
    BuildsTables (tableKey c.attrs b.list) b.members s (buildTables s c b) := by
  unfold buildTables
  extract_lets v
  split
  next key _ book cents at_ =>
    clear at_
    generalize b.members = ms
    induction ms generalizing s with
    | nil => exact .refl key s
    | cons n ms ih =>
      rw [List.foldl_cons]
      refine BuildsTables.trans (ms := [n]) ?_ (ih _)
      cases held : s.cmd? n with
      | none =>
        refine ⟨.refl _ s, fun _ => id, fun m z at_ => ⟨z, at_, rfl, fun _ => rfl, fun mem => ?_, id⟩⟩
        rw [List.mem_singleton.mp mem, held] at at_
        cases at_
      | some x =>
        dsimp only
        by_cases has : Tab.has x.search.tables key = true
        · rw [if_pos has]
          refine ⟨.refl _ s, fun _ => id, fun m z at_ => ⟨z, at_, rfl, fun _ => rfl, fun mem => ?_, id⟩⟩
          rw [List.mem_singleton.mp mem, held] at at_
          rw [← Option.some.inj at_]
          exact has
        · rw [if_neg has]
          have new (ts : Table DistTable) (v : DistTable) : Tab.has (Tab.set ts key v) key = true := by rw [Tab.has, Tab.get?_set_self]; rfl
          refine ⟨rfl, fun m gone => ?_, fun m z at_ => ?_⟩
          · rw [State.modSearch, cmd?_modCmd]
            split
            · next eq => rw [← eq, gone]; rfl
            · exact gone
          · by_cases eq : m = n
            · subst eq
              exact ⟨_, State.modCmd_held at_ _, rfl, fun out => absurd (List.mem_singleton_self m) out, fun _ => new .., fun _ => new ..⟩
            · refine ⟨z, ?_, rfl, fun _ => rfl, fun mem => absurd (List.mem_singleton.mp mem) eq, id⟩
              rw [State.modSearch, cmd?_modCmd, if_neg eq]
              exact at_

/-! ### Table banks (R243) -/

theorem get?_foldl_range (t : Table Nat) (n p k j : Nat) :
    Tab.get? ((List.range k).foldl (fun t i => Tab.set t (p * k + i) n) t) j = if p * k ≤ j ∧ j < p * k + k then some n else Tab.get? t j := by
  generalize p * k = o
  induction k with
  | zero => rw [List.range_zero, List.foldl_nil, if_neg (by omega)]
  | succ k ih =>
    rw [List.range_succ, List.foldl_append, List.foldl_cons, List.foldl_nil, Tab.get?_set, ih]
    by_cases last : j = o + k
    · rw [if_pos last, if_pos (by omega)]
    · rw [if_neg last]
      exact if_congr (by omega) rfl rfl

/-- The banks of members from position m on. -/
def bankFrom (k : Nat) (ms : List Nat) (m : Nat) (t : Table Nat) : Table Nat :=
  (ms.zipIdx m).foldl (fun t y => (List.range k).foldl (fun t i => Tab.set t (y.2 * k + i) y.1) t) t

theorem bankFrom_cons (k n : Nat) (ms : List Nat) (m : Nat) (t : Table Nat) :
    bankFrom k (n :: ms) m t = bankFrom k ms (m + 1) ((List.range k).foldl (fun t i => Tab.set t (m * k + i) n) t) := rfl

theorem bankFrom_below (k : Nat) (ms : List Nat) (m : Nat) (t : Table Nat) {j : Nat} (low : j < m * k) :
    Tab.get? (bankFrom k ms m t) j = Tab.get? t j := by
  induction ms generalizing m t with
  | nil => rfl
  | cons n ms ih => rw [bankFrom_cons, ih _ _ (by rw [Nat.add_mul]; omega), get?_foldl_range, if_neg (by omega)]

theorem bankFrom_member (k : Nat) {ms : List Nat} {p n i : Nat} (at_ : ms[p]? = some n) (small : i < k) (m : Nat) (t : Table Nat) :
    Tab.get? (bankFrom k ms m t) ((m + p) * k + i) = some n := by
  induction ms generalizing m t p with
  | nil => cases at_
  | cons x ms ih =>
    rw [bankFrom_cons]
    cases p with
    | zero =>
      obtain rfl : x = n := Option.some.inj at_
      have next : (m + 1) * k = m * k + k := by rw [Nat.add_mul, Nat.one_mul]
      rw [show m + 0 = m from rfl, bankFrom_below _ _ _ _ (by omega), get?_foldl_range, if_pos (by omega)]
    | succ p =>
      rw [show m + (p + 1) = m + 1 + p by omega]
      exact ih (by simpa using at_) _ _

theorem bankOf_member {a : Attrs} {p n i : Nat} (at_ : b.members[p]? = some n) (small : i < tableSlots a) :
    Tab.get? (bankOf a b) (p * tableSlots a + i) = some n := by
  have := bankFrom_member (tableSlots a) at_ small 0 []
  rwa [Nat.zero_add] at this

/-! ### Tiles and cores (R117, R242, R365) -/

theorem get?_foldl_workers (l : List (Nat × TileWork)) (t : Table Worker) (once : (l.map (·.1)).Nodup) {n : Nat} {w : TileWork} (mem : (n, w) ∈ l) :
    Tab.get? (l.foldl (fun (t : Table Worker) y => Tab.set t y.1 { tile := y.2 }) t) n = some { tile := w } := by
  induction l using List.reverseRecOn with
  | nil => cases mem
  | append_singleton l y ih =>
    rw [List.foldl_append, List.foldl_cons, List.foldl_nil]
    rw [List.map_append, List.nodup_append] at once
    obtain ⟨nodup, -, apart⟩ := once
    rcases List.mem_append.mp mem with early | last
    · rw [Tab.get?_set_ne _ _ (apart n (List.mem_map_of_mem (f := (·.1)) early) y.1 (List.mem_singleton_self _))]
      exact ih nodup early
    · rw [← List.mem_singleton.mp last]
      exact Tab.get?_set_self ..

theorem core_foldl_modCore (l : List Nat) (f : Core → Core) (twice : ∀ c, f (f c) = f c) (s : State) (n : Nat) :
    (l.foldl (fun s m => s.modCore m f) s).core n = if n ∈ l then f (s.core n) else s.core n := by
  induction l generalizing s with
  | nil => simp
  | cons m l ih =>
    have one : (s.modCore m f).core n = if n = m then f (s.core n) else s.core n := by
      rw [State.core, State.modCore, Tab.getD_modify]
      split
      · next eq => rw [eq]; rfl
      · rfl
    rw [List.foldl_cons, ih, one]
    by_cases eq : n = m
    · simp [eq, twice]
    · simp [eq]

theorem changes_foldl_modCore (l : List Nat) (f : Core → Core) (s : State) : Changes [.cores] s (l.foldl (fun s m => s.modCore m f) s) :=
  .foldl (g := fun s m => s.modCore m f) (fun s m => show Changes [.cores] s (s.modCore m f) from rfl) l s

theorem map_fst_zip_sublist {α β : Type} (l : List α) (r : List β) : ((l.zip r).map (·.1)).Sublist l := by
  induction l generalizing r with
  | nil => exact .slnil
  | cons a l ih =>
    cases r with
    | nil => exact List.nil_sublist _
    | cons b r => exact (ih r).cons_cons a

/-- A core that begins to serve a batch. -/
def Core.serving (k : Nat) (grants : List Nat) (bank : Table Nat) (preds : Table (List (BitVec 64))) (x : Core) : Core :=
  { x with batch := some k, grants := grants, bank := bank, preds := preds }

theorem dealTiles_spec {cores grants : List Nat} (once : cores.Nodup) (idle : b.workers = []) (ht : dealTiles s k c b cores grants = t) :
    Changes [.batches, .cores] s t ∧
      (∃ ws, Tab.get? t.batches k = some { b with undealt := b.undealt.drop cores.length, workers := ws } ∧
        ∀ (j n : Nat) (w : TileWork), cores[j]? = some n → b.undealt[j]? = some w → Tab.get? ws n = some { tile := w }) ∧
      (∀ (j n : Nat) (w : TileWork), cores[j]? = some n → b.undealt[j]? = some w →
        t.core n = (s.core n).serving k grants (bankOf c.attrs b) (predsOf s b)) ∧
      ∀ n, n ∉ cores → t.core n = s.core n := by
  have pair {j n : Nat} {w : TileWork} (core : cores[j]? = some n) (tile : b.undealt[j]? = some w) : (n, w) ∈ cores.zip b.undealt :=
    List.mem_of_getElem? (List.getElem?_zip_eq_some.mpr ⟨core, tile⟩)
  have few : b.undealt.drop (cores.zip b.undealt).length = b.undealt.drop cores.length := by
    rw [List.length_zip, Nat.min_def]
    split
    · rfl
    · rw [List.drop_eq_nil_of_le (Nat.le_refl _), List.drop_eq_nil_of_le (by omega)]
  have keys := map_fst_zip_sublist cores b.undealt
  have workers (n : Nat) (w : TileWork) (mem : (n, w) ∈ cores.zip b.undealt) :=
    get?_foldl_workers (cores.zip b.undealt) [] (once.sublist keys) mem
  unfold dealTiles at ht
  extract_lets dealt ws bank preds s₁ at ht
  have fold : (dealt.map (·.1)).foldl (fun s m => s.modCore m (Core.serving k grants bank preds)) s₁ = t := (List.foldl_map ..).trans ht
  have cores_ := core_foldl_modCore (dealt.map (·.1)) (Core.serving k grants bank preds) (fun _ => rfl) s₁
  have frame := changes_foldl_modCore (dealt.map (·.1)) (Core.serving k grants bank preds) s₁
  rw [fold] at cores_ frame
  refine ⟨(show Changes [.batches, .cores] s s₁ from rfl).andThen frame, ⟨ws, ?_, fun j n w core tile => ?_⟩, fun j n w core tile => ?_, fun n out => ?_⟩
  · rw [frame.same (·.batches), ← few]
    exact Tab.get?_set_self ..
  · change Tab.get? (dealt.foldl (fun (t : Table Worker) y => Tab.set t y.1 { tile := y.2 }) b.workers) n = _
    rw [idle]
    exact workers n w (pair core tile)
  · rw [cores_, if_pos (List.mem_map_of_mem (f := (·.1)) (pair core tile))]
    rfl
  · rw [cores_, if_neg fun mem => out (keys.subset mem)]
    rfl

/-- What a launch of a batch with tiles does. -/
theorem launchEffect_eq {cores grants : List Nat} (held : Tab.get? s.batches k = some b) (here : s.coll? b.coll = some c) (new : b.launched = false)
    (tiles : batchTiles c (dirNum c b.dir) b.list ≠ []) :
    launchEffect s k cores grants = dealTiles (buildTables s c b) k c (launchBatch (buildTables s c b) c b) cores grants := by
  unfold launchEffect
  rw [held]
  dsimp only
  rw [here]
  dsimp only
  rw [new, if_neg Bool.false_ne_true, if_neg Bool.false_ne_true]
  exact if_neg (by simpa [launchBatch] using tiles)

/-! ## The obligation -/

/-- Settles O36. A launch builds the tables of members, which changes nothing of commands that the deal reads. -/
theorem coarsePassesAndBatches : Obligations.CoarsePassesAndBatches := by
  refine ⟨fun die i n c x s up still low here waits held mine => ?_, fun k cores grants b c s up still ok held here new idle some_ free turn tiles cmd h => ?_⟩
  · have row : exec (.coarsePass die i) s = .next (coarseEffect s die i) :=
      occurs_of_true (by rw [up, still, okDie, decide_eq_true low, waits]; rfl) _ s
    rw [coarseEffect_single here waits] at row
    obtain ⟨few, stripe⟩ := stripeOrder_spec s c x die
    generalize stripeOrder s c x die = o at *
    have at_ := State.modCmd_held (s := { s with coarseLevels := Tab.set s.coarseLevels die (eClass x.entry) }) held fun y =>
      { y with search := { y.search with partials := Tab.set y.search.partials die o } }
    change (({ s with coarseLevels := Tab.set s.coarseLevels die (eClass x.entry) } : State).modSearch n fun w =>
      { w with partials := Tab.set w.partials die o }).cmd? n = _ at at_
    have frame : Changes [.cmds, .coarseLevels] s (({ s with coarseLevels := Tab.set s.coarseLevels die (eClass x.entry) } : State).modSearch n fun w =>
      { w with partials := Tab.set w.partials die o }) := rfl
    have level : (({ s with coarseLevels := Tab.set s.coarseLevels die (eClass x.entry) } : State).modSearch n fun w =>
      { w with partials := Tab.set w.partials die o }).coarseLevels = Tab.set s.coarseLevels die (eClass x.entry) := rfl
    generalize (({ s with coarseLevels := Tab.set s.coarseLevels die (eClass x.entry) } : State).modSearch n fun w =>
      { w with partials := Tab.set w.partials die o }) = s₁ at *
    refine ⟨fun part => ?_, fun whole => ?_⟩
    · rw [mergeOrders_of_few at_ part] at row
      refine ⟨s₁, _, o, row, at_, Tab.get?_set_self .., few, stripe, rfl, ?_, frame⟩
      rw [level, Tab.getD_set_self]
    · have here₁ : s₁.coll? (eIndex x.entry) = some c := (frame.same fun s => s.coll? (eIndex x.entry)).trans (mine.symm ▸ here)
      obtain ⟨changes, z, at', phase, partials, length, flights⟩ := mergeOrders_spec at_ here₁ whole rfl
      exact ⟨_, z, row, at', phase, partials, length, flights, frame.comp (n := [.cmds, .batches, .nextBatch, .coarseLevels]) changes⟩
  · have row : exec cmd s = .next (launchEffect s k cores grants) := by
      have more : (cores.isEmpty || batchTurn s k b) = true := by simpa using turn
      have member : b.members.isEmpty = false := by simpa using some_
      rcases h with rfl | ⟨rfl, full⟩
      · exact occurs_of_true (by rw [up, still, ok, held]; simp only [new, member, free, more]; rfl) _ s
      · exact occurs_of_true (by rw [up, still, ok, held]; simp only [new, member, free, more, full]; simp) _ s
    rw [launchEffect_eq held here new tiles] at row
    have built := buildTables_builds s c b
    have once : cores.Nodup := nodup_of_length_eraseDups (by simpa using (Bool.and_eq_true_iff.mp free).2)
    generalize buildTables s c b = s₁ at *
    have level : (launchBatch s₁ c b).level = batchClass s b := built.batchClass b
    have preds : predsOf s₁ (launchBatch s₁ c b) = predsOf s b := built.predsOf b
    obtain ⟨frame, ⟨ws, at_, workers⟩, serving, others⟩ := dealTiles_spec (b := launchBatch s₁ c b) once idle rfl
    have core (n : Nat) : s₁.core n = s.core n := built.changes.same (·.core n)
    refine ⟨_, _, row, at_, rfl, rfl, rfl, level, rfl, fun j n w at_core at_tile => ⟨workers j n w at_core at_tile, ?_⟩,
      fun p n i member small => bankOf_member member small, fun n out => (others n out).trans (core n), fun n z held => ?_, ?_⟩
    · rw [serving j n w at_core at_tile, core, preds]
      rfl
    · obtain ⟨y, at', tables⟩ := built.cmds n z held
      exact ⟨y, (frame.same (·.cmd? n)).trans at', tables.eq, tables.other, tables.mine⟩
    · exact built.changes.comp (n := [.batches, .cores, .cmds]) frame

end Sys2Proof.Machine
end

section
/-! SUPPORT. Commands that fail together leave their batches and runs (R246, R497, R514). -/

namespace Sys2Proof.Machine

open Sys2Proof

-- Proofs are checked one at a time: each that waits for its turn would hold a thread's stack.
set_option Elab.async false

/-! ## Entries that a table lists once at most -/

namespace Tab

variable {α β : Type}

/-- At most one entry of a table has the number. -/
def AtMostOnce (t : Table α) (k : Nat) : Prop := (t.filter fun y => y.1 == k).length ≤ 1

theorem AtMostOnce.of_once {t : Table α} {k : Nat} {a : α} (h : t.filter (fun y => y.1 == k) = [(k, a)]) : AtMostOnce t k := by
  rw [AtMostOnce, h]
  exact Nat.le_refl 1

theorem AtMostOnce.get?_erase {t : Table α} {k : Nat} (h : AtMostOnce t k) : get? (erase t k) k = none := by
  unfold AtMostOnce at h
  match listed : t.filter fun y => y.1 == k with
  | [] =>
    have gone := get?_of_absent listed
    clear h listed
    induction t with
    | nil => rfl
    | cons y t ih =>
      obtain ⟨j, b⟩ := y
      rw [Tab.get?] at gone
      by_cases same : j = k
      · rw [if_pos same] at gone
        cases gone
      · rw [if_neg same] at gone
        simp [erase, get?, same, ih gone]
  | [(j, a)] =>
    obtain rfl : j = k := by simpa using (List.mem_filter.mp (listed ▸ List.mem_singleton_self (j, a) : (j, a) ∈ t.filter fun y => y.1 == k)).2
    exact (get?_erase_of_once listed).2
  | _ :: _ :: _ =>
    rw [listed] at h
    simp at h

theorem AtMostOnce.map {t : Table α} {k : Nat} (h : AtMostOnce t k) (f : α → β) : AtMostOnce (Tab.map t f) k := by
  unfold AtMostOnce Tab.map at *
  rw [List.filter_map, List.length_map]
  exact h

theorem AtMostOnce.keep {t : Table α} {k : Nat} (h : AtMostOnce t k) (p : Nat → α → Bool) : AtMostOnce (Tab.keep t p) k := by
  unfold AtMostOnce Tab.keep at *
  exact (List.Sublist.filter _ (List.filter_sublist ..)).length_le.trans h

end Tab

variable {s t u : State} {n m k : Nat} {x : Cmd} {st : Status} {z : Cause}

/-! ## A command that fails -/

/-- DW3 of a command that fails (R497). -/
def failedItem (x : Cmd) : Nat := if isMutation (eOpcode x.entry) then 0xFFFFFFFF else 0

theorem fail_eq_decide (held : s.cmd? n = some x) (st : Status) (z : Cause) :
    ∃ k : Completion, k.status = st ∧ k.dw2 = 0 ∧ k.dw3 = failedItem x ∧ fail s n st z = decide_ s n k [] 1 z := by
  unfold fail
  rw [held]
  refine ⟨_, ?_, ?_, ?_, rfl⟩
  · dsimp only
    split_ifs <;> rfl
  · dsimp only
    split_ifs <;> rfl
  · dsimp only [failedItem]
    split_ifs <;> rfl

/-- What a failing command leaves: it is decided, it is in no batch and in no run, and no other command changed. -/
structure Fails (n : Nat) (x : Cmd) (st : Status) (s t : State) : Prop where
  decided : t.decidedAs n st 0 (failedItem x)
  others : ∀ m, m ≠ n → t.cmd? m = s.cmd? m
  changes : Changes (.colls :: decidingParts) s t
  batches : t.batches = (leaveBatches s n).batches
  runs : t.runs = (dropRuns s n).runs

theorem fail_fails (u : s.undecided n x) (error : informational st = false) (z : Cause) : Fails n x st s (fail s n st z) := by
  obtain ⟨k, status, dw2, dw3, eq⟩ := fail_eq_decide u.1 st z
  have short : ¬ (informational k.status = true ∧ outBufLen (outBuf s x) < k.resultLength ∧
      ¬ ((eOpcode x.entry = 2 ∨ eOpcode x.entry = 3) ∧ eOutLen x.entry = 0)) := by
    rw [status, error]
    exact fun h => Bool.false_ne_true h.1
  obtain ⟨⟨k', res', ⟨status', dw2', dw3', -⟩, -, at_⟩, others, -, changes⟩ := decide_of_undecided u k [] 1 z short eq.symm
  obtain ⟨k₁, res₁, -, -, delivered⟩ := decide_eq u k [] 1 z short
  obtain ⟨-, ⟨p, q, origin⟩, here, -⟩ := u
  rw [deliver_of_sq origin here] at delivered
  have logged := changes_logStatus (givenUp s n x k.status) x k₁ z
  have gave : (givenUp s n x k.status).batches = (leaveBatches s n).batches ∧ (givenUp s n x k.status).runs = (dropRuns s n).runs := by
    have cancelled := changes_cancelShards s n x
    have left : (leftWork s n x).batches = (leaveBatches s n).batches ∧ (leftWork s n x).runs = (dropRuns s n).runs := by
      unfold leftWork
      generalize cancelShards s n x = s₁ at *
      rw [cancelled]
      exact ⟨rfl, rfl⟩
    unfold givenUp
    split
    · exact left
    · exact left
  generalize givenUp s n x k.status = s₁ at *
  generalize (logStatus s₁ x k₁ z).1 = s₂ at *
  generalize (logStatus s₁ x k₁ z).2 = k₂ at *
  have frozen : Changes [.logs, .port0, .port1] s₂ (if freezes k₂.status then freezeQueue s₂ p q (statusCode k₂.status) (eTag x.entry) else s₂) :=
    .ite (changes_freezeQueue ..) (.refl _ s₂)
  have last := logged.trans frozen
  refine ⟨State.decidedAs_of at_ (status'.trans status) (dw2'.trans dw2) (dw3'.trans dw3), others, changes, ?_, ?_⟩
  · rw [eq, delivered]
    exact (last.same (·.batches)).trans gave.1
  · rw [eq, delivered]
    exact (last.same (·.runs)).trans gave.2

/-! ## Commands that fail one after the other -/

theorem fail_of_decided {dw2 dw3 : Nat} {st' : Status} (done : s.decidedAs n st' dw2 dw3) : fail s n st z = s := by
  obtain ⟨x, k, held, stage, -⟩ := done
  obtain ⟨k', -, -, -, eq⟩ := fail_eq_decide held st z
  exact eq.trans (decide_of_closed held stage ..)

theorem decidedAs_of_cmd? {dw2 dw3 : Nat} (done : s.decidedAs n st dw2 dw3) (same : t.cmd? n = s.cmd? n) : t.decidedAs n st dw2 dw3 := by
  obtain ⟨x, k, held, rest⟩ := done
  exact ⟨x, k, same.trans held, rest⟩

theorem ne_of_decided {dw2 dw3 : Nat} (u : s.undecided n x) (done : s.decidedAs m st dw2 dw3) : m ≠ n := by
  rintro rfl
  obtain ⟨y, k, held, stage, -⟩ := done
  obtain rfl := Option.some.inj (held.symm.trans u.1)
  exact u.2.2.2.2.1 stage

/-- Commands that fail together: each of them is decided, and a batch or run that was listed once is so still. -/
structure AllFail (ms : List Nat) (st : Status) (d : Nat) (s t : State) : Prop where
  decided : ∀ m ∈ ms, t.decidedAs m st 0 d
  changes : Changes (.colls :: decidingParts) s t
  batches : ∀ k, Tab.AtMostOnce s.batches k → Tab.AtMostOnce t.batches k
  runs : ∀ k, Tab.AtMostOnce s.runs k → Tab.AtMostOnce t.runs k

theorem fails_all {d : Nat} (error : informational st = false) (z : Cause) (ms : List Nat) (s : State)
    (open_ : ∀ m ∈ ms, (∃ x, s.undecided m x ∧ failedItem x = d) ∨ s.decidedAs m st 0 d) :
    AllFail ms st d s (ms.foldl (fun s n => fail s n st z) s) ∧
      ∀ m, s.decidedAs m st 0 d → (ms.foldl (fun s n => fail s n st z) s).decidedAs m st 0 d := by
  induction ms generalizing s with
  | nil => exact ⟨⟨fun _ mem => absurd mem List.not_mem_nil, .refl _ s, fun _ => id, fun _ => id⟩, fun _ => id⟩
  | cons m ms ih =>
    rw [List.foldl_cons]
    rcases open_ m (List.mem_cons_self ..) with ⟨x, u, item⟩ | done
    · have one := fail_fails u error z
      have mine := one.decided
      rw [item] at mine
      generalize fail s m st z = s₁ at *
      have kept (j : Nat) (done : s.decidedAs j st 0 d) : s₁.decidedAs j st 0 d := decidedAs_of_cmd? done (one.others j (ne_of_decided u done))
      obtain ⟨all, rest⟩ := ih s₁ fun j mem => by
        by_cases same : j = m
        · exact .inr (same ▸ mine)
        · rcases open_ j (List.mem_cons_of_mem _ mem) with ⟨y, v, item'⟩ | done
          · exact .inl ⟨y, undecided_of_cmd? v (one.others j same), item'⟩
          · exact .inr (kept j done)
      refine ⟨⟨fun j mem => ?_, one.changes.trans all.changes, fun k once => all.batches k ?_, fun k once => all.runs k ?_⟩, fun j done => rest j (kept j done)⟩
      · rcases List.mem_cons.mp mem with rfl | later
        · exact rest _ mine
        · exact all.decided j later
      · rw [one.batches, leaveBatches_batches]
        exact (once.map _).keep _
      · rw [one.runs]
        unfold dropRuns
        dsimp only
        exact (once.map _).keep _
    · rw [fail_of_decided done]
      obtain ⟨all, rest⟩ := ih s fun j mem => open_ j (List.mem_cons_of_mem _ mem)
      refine ⟨⟨fun j mem => ?_, all.changes, all.batches, all.runs⟩, rest⟩
      rcases List.mem_cons.mp mem with rfl | later
      · exact rest _ done
      · exact all.decided j later

/-- The same as one event, or within an event that is open. -/
theorem failAll_fails {d : Nat} (error : informational st = false) (z : Cause) {ms : List Nat} (open_ : ∀ m ∈ ms, ∃ x, s.undecided m x ∧ failedItem x = d) :
    AllFail ms st d s (failAll s ms st z) := by
  unfold failAll oneEvent
  split
  · exact (fails_all error z ms s fun m mem => .inl (open_ m mem)).1
  · have opened : Changes [.logs] s (s.modLogs fun l => { l with event := some { kept := logKept s, ended := [] } }) := rfl
    obtain ⟨all, -⟩ := fails_all error z ms (s.modLogs fun l => { l with event := some { kept := logKept s, ended := [] } }) fun m mem => .inl (open_ m mem)
    generalize (s.modLogs fun l => { l with event := some { kept := logKept s, ended := [] } }) = s₁ at *
    have closed := changes_closeEvent (ms.foldl (fun s n => fail s n st z) s₁) false z
    generalize closeEvent (ms.foldl (fun s n => fail s n st z) s₁) false z = s₃ at *
    generalize ms.foldl (fun s n => fail s n st z) s₁ = s₂ at *
    refine ⟨fun m mem => decidedAs_of_cmd? (all.decided m mem) (closed.same (·.cmd? m)),
      (opened.comp (n := .colls :: decidingParts) all.changes).andThen closed, fun k once => ?_, fun k once => ?_⟩
    · rw [closed.same (·.batches)]
      exact all.batches k (opened.same (·.batches) ▸ once)
    · rw [closed.same (·.runs)]
      exact all.runs k (opened.same (·.runs) ▸ once)

end Sys2Proof.Machine
end

section
/-! SUPPORT. Cores score tiles and send their runs, and the statement about them (R117, R121, R140, R142, R242, R246). -/

namespace Sys2Proof.Machine

open Sys2Proof

-- Proofs are checked one at a time: each that waits for its turn would hold a thread's stack.
set_option Elab.async false

variable {s t u : State} {n i k core : Nat} {c : Collection} {x : Cmd} {b : Batch} {w : Worker}

/-! ## What a core selects (R121, R140) -/

theorem mem_selectN {m : Nat} {l : List Cand} {y : Cand} (h : y ∈ selectN m l) : y ∈ l := (isort_perm ..).mem_iff.mp (List.mem_of_mem_take h)

theorem mem_offer {m : Nat} {q : SelBuf} {y z : Cand} (h : z ∈ (offer m q y).entries) : z ∈ q.entries ∨ z = y := by
  unfold offer at h
  extract_lets pass l at h
  have listed (mem : z ∈ l) : z ∈ q.entries ∨ z = y := by simpa [l] using mem
  split at h
  · exact .inl h
  · split at h
    · exact listed (mem_selectN h)
    · exact listed h

/-- Candidates are records of the tile that pass the filter and the snapshot. -/
def Scored (x : Cmd) (rs : List Met) (y : Cand) : Prop :=
  ∃ r ∈ rs, y.vid = r.vid ∧ y.loc = r.loc ∧ filterPass x.search.terms r.attr = true ∧ sees (x.snapshot.getD 0) r.ins r.del = true

theorem mem_scoreTile (x : Cmd) (dt : DistTable) (biased : F32) (rs : List Met) {y : Cand} (h : y ∈ (scoreTile x dt biased rs {}).entries) :
    Scored x rs y := by
  unfold scoreTile at h
  have all : ∀ (l : List Met) (q : SelBuf), (∀ r ∈ l, r ∈ rs) → (∀ z ∈ q.entries, Scored x rs z) →
      ∀ z ∈ (l.foldl (fun q r => if filterPass x.search.terms r.attr && sees (x.snapshot.getD 0) r.ins r.del then
        offer (kEff x.entry) q { key := scoreKey dt biased r.code, vid := r.vid, loc := r.loc } else q) q).entries, Scored x rs z := by
    intro l
    induction l with
    | nil => exact fun q _ had => had
    | cons r l ih =>
      intro q sub had
      refine ih _ (fun r' mem => sub r' (List.mem_cons_of_mem _ mem)) fun z mem => ?_
      dsimp only at mem
      split at mem
      · next passes =>
        obtain ⟨filter, snapshot⟩ := Bool.and_eq_true_iff.mp passes
        rcases mem_offer mem with old | rfl
        · exact had z old
        · exact ⟨r, sub r (List.mem_cons_self ..), rfl, rfl, filter, snapshot⟩
      · exact had z mem
  exact all rs {} (fun _ => id) (fun _ mem => absurd mem List.not_mem_nil) y h

/-! ## The last tile of a core (R142) -/

theorem changes_gcColl (s : State) (i : Nat) : Changes [.colls, .protect, .flash, .tiers] s (gcColl s i) := by
  unfold gcColl
  split
  · exact .refl _ s
  · extract_lets floor dirs named goneSegs done goneStaged versions forget held segs blocks c₁ live fulls toks vt tt c₂ gone
    exact (show Changes [.colls] s { s with colls := Tab.set s.colls i c₂ } from rfl).comp (changes_dropTiles ..)

theorem core_freeOne (s : State) (n : Nat) : ((freeOne s n).core n).batch = none :=
  congrArg Core.batch (Tab.getD_modify_self s.cores n {} (idleAgain s.free))

theorem dropBatch_core (s : State) (k n : Nat) :
    (dropBatch s k).core n = if ((s.core n).batch == some k) = true then idleAgain s.free (s.core n) else s.core n := by
  change Tab.getD (Tab.map s.cores fun c => if c.batch == some k then idleAgain s.free c else c) n {} = _
  unfold State.core Tab.getD
  rw [Tab.get?_map]
  cases Tab.get? s.cores n with
  | none => rfl
  | some c => rfl

/-- A command that is in a batch no more. -/
def Cmd.outOfBatch (k : Nat) (x : Cmd) : Cmd := { x with search := { x.search with batches := x.search.batches.filter (· != k) } }

theorem dropBatch_cmd? (s : State) (k n : Nat) : (dropBatch s k).cmd? n = (s.cmd? n).map (Cmd.outOfBatch k) :=
  Tab.get?_map s.cmds (Cmd.outOfBatch k) n

/-- A core of a batch with one member sends the member's run, as the tile was scored. -/
theorem emitRuns_single {q : SelBuf} (held : s.cmd? n = some x) (one : w.bufs = [(n, q)]) (ht : emitRuns s core w = t) :
    t.cmd? n = some { x with search := { x.search with flights := x.search.flights ++ [
      { square := .pair (core / 2), input := core % 2, run := selectN (kEff x.entry) q.entries, arrived := s.arrivals + 1 }] } } ∧
      t.arrivals = s.arrivals + 1 := by
  unfold emitRuns at ht
  rw [one, List.foldl_cons, List.foldl_nil] at ht
  dsimp only at ht
  rw [held] at ht
  subst ht
  exact ⟨State.modCmd_held held _, rfl⟩

theorem tileScored_last (held : s.cmd? n = some x) (member : b.members = [n]) (new : w.bufs = []) (last : b.undealt = [])
    (whole : workLost s w.tile = none) (ht : tileScoredEffect s core k b w c = t) :
    ∃ z run, t.cmd? n = some z ∧ t.arrivals = s.arrivals + 1 ∧
      z.search.flights = x.search.flights ++ [{ square := .pair (core / 2), input := core % 2, run := run, arrived := s.arrivals + 1 }] ∧
      run.length ≤ kEff x.entry ∧ run.Pairwise (fun y z => sortKey y ≤ sortKey z) ∧ (∀ y ∈ run, Scored x (tileRecords c b.list w.tile) y) ∧
      (t.core core).batch = none := by
  have bufs : (scoreAll s c b (tileRecords c b.list w.tile) w).bufs =
      [(n, scoreTile x (memberTable c b x) (Tab.getD b.biased n 0) (tileRecords c b.list w.tile) {})] := by
    unfold scoreAll
    rw [member, List.foldl_cons, List.foldl_nil, held, new]
    rfl
  unfold tileScoredEffect at ht
  rw [whole] at ht
  dsimp only at ht
  rw [last] at ht
  dsimp only at ht
  obtain ⟨at_, arrivals⟩ := emitRuns_single (s := { s with batches := Tab.set s.batches k { b with undealt := [], workers := Tab.erase b.workers core } })
    (core := core) held bufs rfl
  generalize emitRuns { s with batches := Tab.set s.batches k { b with undealt := [], workers := Tab.erase b.workers core } } core
    (scoreAll s c b (tileRecords c b.list w.tile) w) = s₁ at *
  have idle := core_freeOne s₁ core
  have freed : (freeOne s₁ core).cmd? n = s₁.cmd? n := rfl
  have count : (freeOne s₁ core).arrivals = s₁.arrivals := rfl
  have short : (selectN (kEff x.entry) (scoreTile x (memberTable c b x) (Tab.getD b.biased n 0) (tileRecords c b.list w.tile) {}).entries).length ≤
      kEff x.entry := List.length_take_le ..
  have sorted := ascending_selectN (kEff x.entry) (scoreTile x (memberTable c b x) (Tab.getD b.biased n 0) (tileRecords c b.list w.tile) {}).entries
  have scored : ∀ y ∈ selectN (kEff x.entry) (scoreTile x (memberTable c b x) (Tab.getD b.biased n 0) (tileRecords c b.list w.tile) {}).entries,
    Scored x (tileRecords c b.list w.tile) y := fun y mem => mem_scoreTile x _ _ _ (mem_selectN mem)
  generalize freeOne s₁ core = s₂ at *
  split at ht
  · have collected := changes_gcColl (dropBatch s₂ k) b.coll
    have cmd := dropBatch_cmd? s₂ k n
    have core' := dropBatch_core s₂ k core
    have dropped := changes_dropBatch s₂ k
    generalize dropBatch s₂ k = s₃ at *
    rw [ht] at collected
    refine ⟨_, _, (collected.same (·.cmd? n)).trans (cmd.trans (congrArg (Option.map _) (freed.trans at_))), ?_, rfl, short, sorted, scored, ?_⟩
    · exact (collected.same (·.arrivals)).trans ((dropped.same (·.arrivals)).trans (count.trans arrivals))
    · rw [collected.same (·.core core), core']
      split
      · rfl
      · exact idle
  · subst ht
    exact ⟨_, _, freed.trans at_, count.trans arrivals, rfl, short, sorted, scored, idle⟩

/-! ## A program that faults (R246) -/

theorem endBatch_spec {st : Status} {z : Cause} (error : informational st = false) (once : s.batches.filter (fun y => y.1 == k) = [(k, b)])
    (serves : (s.core core).batch = some k) (open_ : ∀ m ∈ b.members, ∃ x, s.undecided m x ∧ failedItem x = 0) (ht : endBatch s k st z = t) :
    Tab.get? t.batches k = none ∧ (t.core core).batch = none ∧ ∀ m ∈ b.members, t.decidedAs m st 0 0 := by
  unfold endBatch at ht
  rw [(Tab.get?_erase_of_once once).1] at ht
  dsimp only at ht
  have failed := failAll_fails error z open_
  generalize failAll s b.members st z = s₁ at *
  subst ht
  refine ⟨(failed.batches k (.of_once once)).get?_erase, ?_, fun m mem => ?_⟩
  · have same : s₁.core core = s.core core := failed.changes.same (·.core core)
    rw [dropBatch_core, same, serves, if_pos (by simp)]
    rfl
  · obtain ⟨x, k', held, stage, rest⟩ := failed.decided m mem
    exact ⟨_, k', (dropBatch_cmd? ..).trans (congrArg (Option.map _) held), stage, rest⟩

/-- What a program that faults does on a core that works on no run. -/
theorem programFault_spec (once : s.batches.filter (fun y => y.1 == k) = [(k, b)]) (serves : (s.core core).batch = some k)
    (free : (s.core core).run = none) (open_ : ∀ m ∈ b.members, ∃ x, s.undecided m x ∧ eOpcode x.entry = 1)
    (ht : coreEvent s core .program = t) :
    Tab.get? t.batches k = none ∧ (t.core core).faulted = true ∧ (t.core core).batch = none ∧ ∀ m ∈ b.members, t.decidedAs m .coreFault 0 0 := by
  have searches : ∀ m ∈ b.members, ∃ x, s.undecided m x ∧ failedItem x = 0 := fun m mem => by
    obtain ⟨x, u, search⟩ := open_ m mem
    exact ⟨x, u, by rw [failedItem, search]; rfl⟩
  unfold coreEvent at ht
  extract_lets c z work at ht
  have work_eq (u : State) : work u .coreFault .scheduleFault = endBatch u k .coreFault z := by
    change (match (s.core core).run with | some k => _ | none => _) = _
    rw [free]
    change (match (s.core core).batch with | some k => endBatch u k .coreFault z | none => u) = _
    rw [serves]
  dsimp only at ht
  obtain ⟨l, reported⟩ := oneEvent_reports s true z fun s => work s .coreFault .scheduleFault
  generalize (oneEvent s true z fun s => work s .coreFault .scheduleFault) = s₂ at *
  rw [work_eq] at reported
  obtain ⟨gone, idle, decided⟩ := endBatch_spec (s := { s with logs := l }) (t := endBatch { s with logs := l } k .coreFault z) rfl once serves searches rfl
  generalize endBatch { s with logs := l } k .coreFault z = s₁ at *
  subst ht
  refine ⟨?_, ?_, ?_, fun m mem => decidedAs_of_cmd? (decided m mem) (reported.same (·.cmd? m))⟩
  · exact (congrArg (Tab.get? · k) (reported.same (·.batches))).trans gone
  · rw [State.core_modCore]
  · rw [State.core_modCore]
    exact (congrArg Core.batch (reported.same (·.core core))).trans idle

/-! ## The obligation -/

/-- Settles O37. A core selects from what its tile offers, so its run holds records of the tile alone. -/
theorem coresScoreTiles : Obligations.CoresScoreTiles := by
  intro core k b w c s up still low serves once worker here whole
  have row (e : Option CoreEvent) : exec (.tileScored ⟨core, e⟩) s = .next
      (match e with | some e => coreEvent s core e | none => tileScoredEffect s core k b w c) := by
    refine Eq.trans ?_ (occurs_of_true (show (live s && awake s && okCore core) = true by rw [up, still, okCore, decide_eq_true low]; rfl) _ s)
    change execTileScored ⟨core, e⟩ s = _
    unfold execTileScored
    dsimp only
    rw [serves]
    dsimp only
    rw [(Tab.get?_erase_of_once once).1]
    dsimp only
    rw [(Tab.get?_erase_of_once worker).1, here] <;> rfl
  refine ⟨fun y rest more => ?_, fun n x last member new held => ?_, fun free some_ open_ => ?_⟩
  · have next := row none
    dsimp only at next
    unfold tileScoredEffect at next
    rw [whole] at next
    dsimp only at next
    rw [more] at next
    exact ⟨_, _, _, next, Tab.get?_set_self .., rfl, Tab.get?_set_self .., rfl, rfl⟩
  · obtain ⟨z, run, at_, arrivals, flights, short, sorted, scored, idle⟩ := tileScored_last (core := core) (k := k) (c := c) held member new last whole rfl
    exact ⟨_, z, run, row none, at_, arrivals, flights, short, sorted, scored, idle⟩
  · obtain ⟨gone, faulted, idle, decided⟩ := programFault_spec once serves free open_ rfl
    exact ⟨_, row (some .program), gone, faulted, idle, decided⟩

end Sys2Proof.Machine
end

section
/-! SUPPORT. A command joins a commit group (R164, R170). -/

namespace Sys2Proof.Machine

open Sys2Proof

-- Proofs are checked one at a time: each that waits for its turn would hold a thread's stack.
set_option Elab.async false

variable {s t u : State} {n i g : Nat} {c y : Collection} {x z : Cmd} {w : Group}

/-- A collection whose groups alone have changed. -/
structure Collection.Regrouped (c y : Collection) : Prop where
  eq : y = { c with groups := y.groups, nextGroup := y.nextGroup }

theorem Collection.Regrouped.trans {y' : Collection} (h : c.Regrouped y) (k : y.Regrouped y') : c.Regrouped y' := ⟨by rw [k.eq, h.eq]⟩

/-- A command that has at most passed its commit point. -/
structure Cmd.PassedOn (x z : Cmd) : Prop where
  eq : z = { x with word := z.word }

theorem Cmd.PassedOn.trans {z' : Cmd} (h : x.PassedOn z) (k : z.PassedOn z') : x.PassedOn z' := ⟨by rw [k.eq, h.eq]⟩

/-- From s to t groups of collection i changed, and commands in their word alone. -/
structure Regroups (i : Nat) (s t : State) : Prop where
  changes : Changes [.colls, .cmds] s t
  coll : ∀ c, s.coll? i = some c → ∃ y, t.coll? i = some y ∧ c.Regrouped y
  cmd : ∀ n x, s.cmd? n = some x → ∃ z, t.cmd? n = some z ∧ x.PassedOn z

namespace Regroups

theorem refl (i : Nat) (s : State) : Regroups i s s := ⟨.refl _ s, fun c here => ⟨c, here, ⟨rfl⟩⟩, fun _ x held => ⟨x, held, ⟨rfl⟩⟩⟩

theorem trans (h : Regroups i s t) (k : Regroups i t u) : Regroups i s u := by
  refine ⟨h.changes.trans k.changes, fun c here => ?_, fun n x held => ?_⟩
  · obtain ⟨y, at_, same⟩ := h.coll c here
    obtain ⟨y', at', same'⟩ := k.coll y at_
    exact ⟨y', at', same.trans same'⟩
  · obtain ⟨z, at_, same⟩ := h.cmd n x held
    obtain ⟨z', at', same'⟩ := k.cmd n z at_
    exact ⟨z', at', same.trans same'⟩

theorem modColl (s : State) (i : Nat) (f : Collection → Collection) (same : ∀ c, Collection.Regrouped c (f c)) : Regroups i s (s.modColl i f) :=
  ⟨(Changes.refl _ s).modColl _ _, fun c here => ⟨f c, State.coll?_modColl here f, same c⟩, fun _ x held => ⟨x, held, ⟨rfl⟩⟩⟩

end Regroups

theorem closeGroup_eq_self (h : ∀ c w, s.coll? i = some c → Tab.get? c.groups g = some w → w.closed = true) : closeGroup s i g = s := by
  unfold closeGroup
  cases here : s.coll? i with
  | none => rfl
  | some c =>
    rw [Option.bind_some]
    cases group : Tab.get? c.groups g with
    | none => rfl
    | some w => exact if_pos (h c w here group)

/-- A group that closes keeps its members, and its collection everything else. -/
theorem closeGroup_regroups (s : State) (i g : Nat) : Regroups i s (closeGroup s i g) ∧
    ∀ c w, s.coll? i = some c → Tab.get? c.groups g = some w → ∃ y w', (closeGroup s i g).coll? i = some y ∧ Tab.get? y.groups g = some w' ∧
      w'.members = w.members := by
  by_cases open_ : ∃ c w, s.coll? i = some c ∧ Tab.get? c.groups g = some w ∧ w.closed = false
  · obtain ⟨c, w, here, group, open_⟩ := open_
    obtain ⟨at_, changes, cmds⟩ := closeGroup_spec here group open_ rfl
    refine ⟨⟨changes, fun c' here' => ?_, fun n x held => ?_⟩, fun c' w' here' group' => ?_⟩
    · obtain rfl := Option.some.inj (here.symm.trans here')
      exact ⟨_, at_, ⟨rfl⟩⟩
    · rw [cmds, held]
      split
      · exact ⟨_, rfl, ⟨rfl⟩⟩
      · exact ⟨x, rfl, ⟨rfl⟩⟩
    · obtain rfl := Option.some.inj (here.symm.trans here')
      obtain rfl := Option.some.inj (group.symm.trans group')
      exact ⟨_, _, at_, Tab.get?_set_self .., rfl⟩
  · have same : closeGroup s i g = s := closeGroup_eq_self fun c w here group => by
      by_contra no
      exact open_ ⟨c, w, here, group, by simpa using no⟩
    rw [same]
    exact ⟨.refl i s, fun c w here group => ⟨c, w, here, group, rfl⟩⟩

/-- A command and its collection once the command is in a group. -/
structure InGroup (n i : Nat) (x : Cmd) (c : Collection) (t : State) : Prop where
  joined : ∃ z y g w, t.cmd? n = some z ∧ z = { x with word := z.word, work := { x.work with group := some g } } ∧ t.coll? i = some y ∧
    c.Regrouped y ∧ Tab.get? y.groups g = some w ∧ n ∈ w.members

/-- A command that enters a group, which may close with it. -/
theorem enterGroup_spec {p : Prop} [Decidable p] (held : s.cmd? n = some x) (here : s.coll? i = some c) (g : Nat) (w : Group)
    (hu : ((s.modColl i fun c => { c with groups := Tab.set c.groups g { w with members := w.members ++ [n] } }).modWork n fun w =>
      { w with group := some g }) = u) :
    Changes [.colls, .cmds] s (if p then closeGroup u i g else u) ∧ InGroup n i x c (if p then closeGroup u i g else u) := by
  have entered : Changes [.colls, .cmds] s u := by
    subst hu
    exact ((Changes.refl _ s).modColl _ _).modWork _ _
  have at_ : u.cmd? n = some { x with work := { x.work with group := some g } } := by
    subst hu
    exact State.modCmd_held (s := s.modColl i _) held _
  have in_ : u.coll? i = some { c with groups := Tab.set c.groups g { w with members := w.members ++ [n] } } := by
    subst hu
    exact State.coll?_modColl here _
  have member : n ∈ w.members ++ [n] := List.mem_append_right _ (List.mem_singleton_self n)
  split
  · obtain ⟨regroups, keeps⟩ := closeGroup_regroups u i g
    obtain ⟨z, at', word⟩ := regroups.cmd n _ at_
    obtain ⟨y, in', same⟩ := regroups.coll _ in_
    obtain ⟨y', w', in'', group, members⟩ := keeps _ _ in_ (Tab.get?_set_self ..)
    obtain rfl := Option.some.inj (in'.symm.trans in'')
    refine ⟨entered.trans regroups.changes, ⟨z, y, g, w', at', ?_, in', Collection.Regrouped.trans ⟨rfl⟩ same, group, members ▸ member⟩⟩
    rw [word.eq]
  · exact ⟨entered, ⟨_, _, g, _, at_, rfl, in_, ⟨rfl⟩, Tab.get?_set_self .., member⟩⟩

theorem InGroup.of_regroups {x' : Cmd} {c' : Collection} (word : x.PassedOn x') (same : c.Regrouped c') (h : InGroup n i x' c' t) : InGroup n i x c t := by
  obtain ⟨z, y, g, w, at_, eq, in_, same', group, member⟩ := h.joined
  refine ⟨z, y, g, w, at_, ?_, in_, same.trans same', group, member⟩
  rw [eq, word.eq]

/-- A command that joins a group: it is in that group's list of members, and nothing else of it or its collection has changed. -/
theorem joinGroup_spec (held : s.cmd? n = some x) (here : s.coll? (eIndex x.entry) = some c) (ht : joinGroup s n = t) :
    Changes [.colls, .cmds] s t ∧ InGroup n (eIndex x.entry) x c t := by
  unfold joinGroup at ht
  split at ht
  · next none_ => rw [held] at none_; cases none_
  next x' held' =>
  obtain rfl := Option.some.inj (held.symm.trans held')
  extract_lets k at ht
  split at ht
  · next none_ => rw [here] at none_; cases none_
  next count put _ c' here' =>
  obtain rfl := Option.some.inj (here.symm.trans here')
  extract_lets ids fits s₁ g₀ at ht
  have first : Regroups k s s₁ := by
    change Regroups k s (match openGroup c with | some (g, y) => if fits y then s else closeGroup s k g | none => s)
    split
    · split
      · exact .refl k s
      · exact (closeGroup_regroups ..).1
    · exact .refl k s
  obtain ⟨x₁, at₁, word⟩ := first.cmd n x held
  obtain ⟨c₁, in₁, same⟩ := first.coll c here
  have puts (u : State) (c₂ : Collection) (at₂ : u.cmd? n = some x₁) (in₂ : u.coll? k = some c₂) (g : Nat) (w : Group) :
      Changes [.colls, .cmds] u (put g w u) ∧ InGroup n k x₁ c₂ (put g w u) := enterGroup_spec at₂ in₂ g w rfl
  clear_value put g₀ s₁
  split at ht
  · next g w _ =>
    subst ht
    obtain ⟨changes, joined⟩ := puts s₁ c₁ at₁ in₁ g w
    exact ⟨first.changes.trans changes, joined.of_regroups word same⟩
  · subst ht
    have numbered : Regroups k s₁ (s₁.modColl k fun c => { c with nextGroup := g₀ + 1 }) := .modColl _ _ _ fun _ => ⟨rfl⟩
    obtain ⟨c₂, in₂, same'⟩ := numbered.coll c₁ in₁
    obtain ⟨changes, joined⟩ := puts (s₁.modColl k fun c => { c with nextGroup := g₀ + 1 }) c₂ at₁ in₂ g₀ { members := [], closed := false }
    exact ⟨(first.changes.trans numbered.changes).trans changes, joined.of_regroups word (same.trans same')⟩

end Sys2Proof.Machine
end

section
/-! SUPPORT. The ends of model runs, and the statement about them (R164, R165, R213, R219, R220, R246). -/

namespace Sys2Proof.Machine

open Sys2Proof

-- Proofs are checked one at a time: each that waits for its turn would hold a thread's stack.
set_option Elab.async false

variable {s t u : State} {n i k : Nat} {c : Collection} {x : Cmd} {r : Run} {st : Status} {z : Cause}

theorem Tab.get?_filter_of_none {α : Type} {t : Table α} {k : Nat} (h : Tab.get? t k = none) (p : Nat × α → Bool) :
    Tab.get? (t.filter p) k = none := by
  induction t with
  | nil => rfl
  | cons y t ih =>
    obtain ⟨j, a⟩ := y
    by_cases same : j = k
    · simp [Tab.get?, same] at h
    · replace h : Tab.get? t k = none := (if_neg same).symm.trans h
      by_cases kept : p (j, a) = true
      · rw [List.filter_cons_of_pos kept]
        exact (if_neg same).trans (ih h)
      · rw [List.filter_cons_of_neg kept]
        exact ih h

/-! ## A run that ends with its commands (R213, R246) -/

theorem dropRun_core_run (s : State) (k j : Nat) : ((dropRun s k).core j).run ≠ some k := by
  unfold dropRun
  extract_lets ks t
  change (Tab.getD (Tab.map t.cores fun c => if c.run == some k then idleAgain t.free c else c) j {}).run ≠ some k
  unfold Tab.getD
  rw [Tab.get?_map]
  cases Tab.get? t.cores j with
  | none => exact nofun
  | some c =>
    rw [Option.map_some, Option.getD_some]
    split
    · exact nofun
    · next other => simpa using other

/-- A run with one sequence, that this device alone runs, and whose command is undecided. -/
structure RunsOne (k n i : Nat) (r : Run) (x : Cmd) (s : State) : Prop where
  once : s.runs.filter (fun y => y.1 == k) = [(k, r)]
  seqs : r.seqs = [⟨n, i⟩]
  slice : r.slice = none
  alone : (s.sched r.sched).header.sliced = false
  undecided : s.undecided n x

theorem RunsOne.held (h : RunsOne k n i r x s) : Tab.get? s.runs k = some r := (Tab.get?_erase_of_once h.once).1

/-- A run that has ended with its command. -/
structure RunEnded (k n : Nat) (x : Cmd) (st : Status) (ds : Table Sched) (t : State) : Prop where
  gone : Tab.get? t.runs k = none
  decided : t.decidedAs n st 0 (failedItem x)
  free : ∀ j, (t.core j).run ≠ some k
  scheds : t.scheds = ds

theorem RunEnded.of_changes {l : List Part} {ds : Table Sched} (h : RunEnded k n x st ds t) (c : Changes l t u)
    (runs : ∀ s t, (State.take l s t).runs = s.runs := by intro _ _; rfl) (cmds : ∀ s t, (State.take l s t).cmds = s.cmds := by intro _ _; rfl)
    (cores : ∀ s t, (State.take l s t).cores = s.cores := by intro _ _; rfl)
    (scheds : ∀ s t, (State.take l s t).scheds = s.scheds := by intro _ _; rfl) : RunEnded k n x st ds u :=
  ⟨(congrArg (Tab.get? · k) (c.same (·.runs) runs)).trans h.gone, decidedAs_of_cmd? h.decided (congrArg (Tab.get? · n) (c.same (·.cmds) cmds)),
    fun j => by rw [State.core, c.same (·.cores) cores]; exact h.free j, (c.same (·.scheds) scheds).trans h.scheds⟩

theorem endRun_ends (h : RunsOne k n i r x s) (error : informational st = false) (z : Cause) : RunEnded k n x st s.scheds (endRun s k st z) := by
  have members : runCmds r = [n] := by rw [runCmds, h.seqs]; rfl
  unfold endRun
  rw [h.held]
  dsimp only
  rw [members]
  have failed := failAll_fails (s := s) (ms := [n]) (d := failedItem x) error z fun m mem => by
    rw [List.mem_singleton.mp mem]
    exact ⟨x, h.undecided, rfl⟩
  generalize failAll s [n] st z = s₁ at *
  have dropped := changes_dropRun s₁ k
  have runs := dropRun_runs s₁ k
  have free := dropRun_core_run s₁ k
  generalize dropRun s₁ k = t at *
  refine ⟨?_, decidedAs_of_cmd? (failed.decided n (List.mem_singleton_self n)) (dropped.same (·.cmd? n)), free, ?_⟩
  · rw [runs]
    exact (failed.runs k (.of_once h.once)).get?_erase
  · exact (dropped.same (·.scheds)).trans (failed.changes.same (·.scheds))

theorem endEverywhere_ends (h : RunsOne k n i r x s) (error : informational st = false) (z : Cause) :
    RunEnded k n x st s.scheds (endEverywhere s k st z) := by
  unfold endEverywhere
  rw [h.held]
  dsimp only
  obtain ⟨l, reported⟩ := oneEvent_reports s r.seqs.isEmpty z fun s => endRun (tellFinish s k r) k st z
  have told : tellFinish { s with logs := l } k r = { s with logs := l } := by
    unfold tellFinish
    rw [h.slice]
    dsimp only
    exact if_neg (by rw [show ({ s with logs := l } : State).sched r.sched = s.sched r.sched from rfl, h.alone]; exact Bool.false_ne_true)
  rw [told] at reported
  have ended : RunEnded k n x st s.scheds (endRun { s with logs := l } k st z) :=
    endRun_ends (s := { s with logs := l }) ⟨h.once, h.seqs, h.slice, h.alone, h.undecided⟩ error z
  exact ended.of_changes reported

theorem settleUnloads_of_scheds (none_ : s.noneUnloads) (same : t.scheds = s.scheds) : settleUnloads t = t :=
  settleUnloads_of_none (by unfold State.noneUnloads; rw [same]; exact none_)

theorem endSliced_ends (h : RunsOne k n i r x s) (none_ : s.noneUnloads) (error : informational st = false) (z : Cause) :
    RunEnded k n x st s.scheds (endSliced s k st z) := by
  have ended := endEverywhere_ends h error z
  unfold endSliced
  rw [settleUnloads_of_scheds none_ ended.scheds]
  exact ended

/-- A program that faults on a core of a run, which serves no batch. -/
theorem runFault_ends {core : Nat} (h : RunsOne k n i r x s) (none_ : s.noneUnloads) (idle : (s.core core).batch = none)
    (works : (s.core core).run = some k) : RunEnded k n x .scheduleFault s.scheds (settleUnloads (coreEvent s core .program)) := by
  have ended : RunEnded k n x .scheduleFault s.scheds (coreEvent s core .program) := by
    unfold coreEvent
    extract_lets c z work
    have work_eq (u : State) : work u .coreFault .scheduleFault = endEverywhere u k .scheduleFault z := by
      change (match (s.core core).run with | some k => endEverywhere (match (s.core core).batch with | some k => _ | none => u) k _ z | none => _) = _
      rw [works, idle]
    dsimp only
    obtain ⟨l, reported⟩ := oneEvent_reports s true z fun s => work s .coreFault .scheduleFault
    rw [work_eq] at reported
    have ended : RunEnded k n x .scheduleFault s.scheds (endEverywhere { s with logs := l } k .scheduleFault z) :=
      endEverywhere_ends (s := { s with logs := l }) ⟨h.once, h.seqs, h.slice, h.alone, h.undecided⟩ rfl z
    have closed := ended.of_changes reported
    generalize (oneEvent s true z fun s => work s .coreFault .scheduleFault) = u at *
    refine ⟨closed.gone, closed.decided, fun j => ?_, closed.scheds⟩
    rw [State.core, State.modCore, Tab.getD_modify]
    split
    · exact closed.free core
    · exact closed.free j
  rw [settleUnloads_of_scheds none_ ended.scheds]
  exact ended

/-! ## The output of a run (R164, R165, R220) -/

theorem itemEmbedded_spec {a : Attrs} {v : List F32} {full : List Byte} {w : List F32} (held : s.cmd? n = some x)
    (here : s.coll? (eIndex x.entry) = some c) (prepared : prepareVec a v = some (full, w)) (small : i < x.work.items.length)
    (ht : itemEmbedded s n i x a v = t) :
    Changes [.colls, .cmds] s t ∧ ∃ z y, t.cmd? n = some z ∧ z.work.embedded = x.work.embedded + 1 ∧ z.work.items[i]? = some y ∧ y.full = full ∧
      y.working = w ∧ (x.work.embedded + 1 = x.work.items.length → z.work.group ≠ none) := by
  unfold itemEmbedded at ht
  split at ht
  · next none_ => rw [prepared] at none_; cases none_
  next _ full' w' prepared' =>
  obtain ⟨rfl, rfl⟩ := Prod.mk.inj (Option.some.inj (prepared.symm.trans prepared'))
  extract_lets put text s₁ s₂ at ht
  have put_ : ∃ y, (x.work.items.modify i put)[i]? = some y ∧ y.full = full ∧ y.working = w := by
    refine ⟨put x.work.items[i], ?_, rfl, rfl⟩
    rw [List.getElem?_modify_eq, List.getElem?_eq_getElem small]
    rfl
  obtain ⟨y, at_, full_, working⟩ := put_
  have held₂ : s₂.cmd? n = some { x with work := { x.work with
      items := x.work.items.modify i put, embedded := x.work.embedded + 1, staged := x.work.staged - text } } := State.modCmd_held held _
  have here₂ : s₂.coll? (eIndex x.entry) = some { c with stagingUsed := c.stagingUsed - text } := State.coll?_modColl (s := s₁) here _
  have put_in : Changes [.colls, .cmds] s s₂ := ((Changes.refl _ s).modWork n _).modColl _ _
  clear_value s₂
  split at ht
  · obtain ⟨changes, joined⟩ := joinGroup_spec held₂ here₂ ht
    obtain ⟨z, -, g, -, at', eq, -⟩ := joined.joined
    refine ⟨put_in.trans changes, z, y, at', ?_, ?_, full_, working, fun _ => ?_⟩
    · rw [eq]
    · rw [eq]
      exact at_
    · rw [eq]
      exact nofun
  · next more =>
    subst ht
    exact ⟨put_in, _, y, held₂, rfl, at_, full_, working, fun last => absurd last more⟩

/-- The output of a run with one sequence, of a schedule that embeds. -/
theorem outputEffect_eq (h : RunsOne k n i r x s) (embeds : (s.sched r.sched).header.kind = 1) (here : s.coll? (eIndex x.entry) = some c)
    (mutation : isMutation (eOpcode x.entry) = true) :
    outputEffect s k r = settleUnloads (if (embedOut s (s.sched r.sched) (seqText s ⟨n, i⟩)).any notFinite32 then fail (dropRun s k) n .numericFault {}
      else itemEmbedded (dropRun s k) n i x c.attrs (embedOut s (s.sched r.sched) (seqText s ⟨n, i⟩))) := by
  have other : eOpcode x.entry ≠ 1 := fun eq => by
    rw [eq] at mutation
    exact Bool.false_ne_true mutation
  obtain ⟨held, -, -, -, open_, -⟩ := h.undecided
  have dropped := changes_dropRun s k
  unfold outputEffect
  dsimp only
  rw [h.seqs, List.foldl_cons, List.foldl_nil]
  unfold deliverSeq
  dsimp only
  have held₁ : (dropRun s k).cmd? n = some x := (dropped.same (·.cmd? n)).trans held
  have here₁ : (dropRun s k).coll? (eIndex x.entry) = some c := (dropped.same (·.coll? (eIndex x.entry))).trans here
  have text : embedOut (dropRun s k) (s.sched r.sched) (seqText (dropRun s k) ⟨n, i⟩) = embedOut s (s.sched r.sched) (seqText s ⟨n, i⟩) :=
    dropped.same fun t => embedOut t (s.sched r.sched) (seqText t ⟨n, i⟩)
  rw [held₁]
  dsimp only
  rw [if_neg open_, here₁]
  dsimp only
  rw [if_pos embeds, text, if_neg other, if_neg other]

/-! ## The obligation -/

/-- Settles O42. A run with one sequence ends alone with its command. -/
theorem runsEnd : Obligations.RunsEnd := by
  intro k n i r x s up still once begun seqs slice alone undecided none_
  have one : RunsOne k n i r x s := ⟨once, seqs, slice, alone, undecided⟩
  have dropped := changes_dropRun s k
  have gone : Tab.get? (dropRun s k).runs k = none := by
    rw [dropRun_runs]
    exact (Tab.AtMostOnce.of_once once).get?_erase
  refine ⟨fun p c step op worked embeds here mutation => ?_, fun cmd st h => ?_⟩
  · have row : exec (.output k) s = .next (outputEffect s k r) := by
      refine Eq.trans ?_ (occurs_of_true (show (live s && awake s && stepReady s r 4) = true by
        rw [up, still, stepReady, begun, step]
        simp [op, worked]) _ s)
      change execOutput k s = _
      unfold execOutput
      rw [one.held]
    rw [outputEffect_eq one embeds here mutation] at row
    generalize embedOut s (s.sched r.sched) (seqText s ⟨n, i⟩) = v at *
    generalize dropRun s k = s₁ at *
    have undecided₁ : s₁.undecided n x := undecided_of_cmd? undecided (dropped.same (·.cmd? n))
    refine ⟨fun finite small some_ => ?_, fun bad => ?_⟩
    · rw [finite, if_neg Bool.false_ne_true] at row
      obtain ⟨⟨full, w⟩, prepared⟩ := Option.isSome_iff_exists.mp some_
      obtain ⟨changes, z, y, at_, embedded, item, full_, working, joined⟩ :=
        itemEmbedded_spec undecided₁.1 ((dropped.same (·.coll? (eIndex x.entry))).trans here) prepared small rfl
      generalize itemEmbedded s₁ n i x c.attrs v = t at *
      rw [settleUnloads_of_scheds none_ ((changes.same (·.scheds)).trans (dropped.same (·.scheds)))] at row
      exact ⟨t, z, y, full, w, row, (congrArg (Tab.get? · k) (changes.same (·.runs))).trans gone, at_, embedded, item, prepared, full_, working, joined⟩
    · rw [bad, if_pos rfl] at row
      have failed := fail_fails (st := .numericFault) undecided₁ rfl {}
      generalize fail s₁ n .numericFault {} = t at *
      rw [settleUnloads_of_scheds none_ ((failed.changes.same (·.scheds)).trans (dropped.same (·.scheds)))] at row
      refine ⟨t, row, ?_, ?_⟩
      · rw [failed.runs]
        unfold dropRuns
        dsimp only
        refine Tab.get?_filter_of_none ?_ _
        rw [Tab.get?_map, gone]
        rfl
      · have decided := failed.decided
        rwa [failedItem, mutation, if_pos rfl] at decided
  · have ends (st : Status) (error : informational st = false) (z : Cause) := endSliced_ends one none_ error z
    have finish {t : State} (row : exec cmd s = .next t) (ended : RunEnded k n x st s.scheds t) : ∃ t, exec cmd s = .next t ∧ Tab.get? t.runs k = none ∧
        t.decidedAs n st 0 (if isMutation (eOpcode x.entry) then 0xFFFFFFFF else 0) ∧ (∀ j, (t.core j).run ≠ some k) :=
      ⟨t, row, ended.gone, ended.decided, ended.free⟩
    rcases h with ⟨ref, rfl, listed, new, rfl⟩ | ⟨core, rfl, low, works, rfl⟩ | ⟨ref, f, bytes, rfl, issued, new, read, at_, lost, rfl⟩ |
      ⟨p, core, rfl, step, op, low, works, idle, rfl⟩
    · refine finish ?_ (ends _ rfl (runCause s r kindTier ref))
      refine Eq.trans ?_ (occurs_of_true (show (live s && r.begun && decide (ref < (s.sched r.sched).refs.length) && !r.landed.contains ref) = true by
        rw [up, begun, new, decide_eq_true listed]; rfl) _ s)
      change execDeadlineMiss k ref s = _
      unfold execDeadlineMiss
      rw [one.held]
    · refine finish ?_ (ends _ rfl (runCause s r kindTier r.worked))
      refine Eq.trans ?_ (occurs_of_true (show (live s && awake s && r.begun && decide (core < 4096) && (s.core core).run == some k) = true by
        rw [up, still, begun, decide_eq_true low, works]; simp) _ s)
      change execStepCycleOverrun k core s = _
      unfold execStepCycleOverrun
      rw [one.held]
    · refine finish ?_ (ends _ rfl (runCause s r kindTier ref))
      refine Eq.trans ?_ (occurs_of_true (show (live s && awake s && r.begun && decide (ref < r.issued) && !r.landed.contains ref && refRead s r ref) = true by
        rw [up, still, begun, decide_eq_true issued, new, read]; rfl) _ s)
      change execTileLanded k ⟨ref, bytes⟩ s = _
      unfold execTileLanded
      rw [one.held]
      dsimp only
      unfold landEffect
      dsimp only
      rw [at_]
      dsimp only
      rw [lost]
    · refine finish ?_ (runFault_ends one none_ idle works)
      refine Eq.trans ?_ (occurs_of_true (show (live s && awake s && r.begun && p.op == 2 && okCore core && (s.core core).run == some k) = true by
        rw [up, still, begun, op, okCore, decide_eq_true low, works]; simp) _ s)
      change execLayer ⟨k, [], some (core, .program)⟩ s = _
      unfold execLayer
      dsimp only
      rw [one.held]
      dsimp only
      rw [step]

end Sys2Proof.Machine
end

section
/-! SUPPORT. The admission of commands, and the statement about it (R89, R168, R170, R175, R178, R401, R409, R499, R522, R535). -/

namespace Sys2Proof.Machine

open Sys2Proof

-- Proofs are checked one at a time: each that waits for its turn would hold a thread's stack.
set_option Elab.async false

variable {s t u : State} {n i : Nat} {c y : Collection} {x z : Cmd}

/-! ## Pins (R401, R499) -/

/-- A collection whose pins alone have changed. -/
structure Collection.Repinned (c y : Collection) : Prop where
  eq : y = { c with pinIndex := y.pinIndex, pinVectors := y.pinVectors, pinTokens := y.pinTokens }

/-- A command whose pins alone have changed. -/
structure Cmd.Repinned (x z : Cmd) : Prop where
  eq : z = { x with pinIndex := z.pinIndex, pinVectors := z.pinVectors, pinTokens := z.pinTokens }

/-- A command and its collection once the command holds the pins of a list of objects, INDEX among them. -/
structure Pinned (os : List ObjKind) (x : Cmd) (c : Collection) (z : Cmd) (y : Collection) : Prop where
  coll : c.Repinned y
  cmd : x.Repinned z
  index : z.pinIndex = true
  count : x.pinIndex = false → y.pinIndex.pins = c.pinIndex.pins + 1
  vectors : os.contains .vectors = true → z.pinVectors = true

theorem takePins_spec {os : List ObjKind} (held : s.cmd? n = some x) (here : s.coll? i = some c) (index : os.contains .index = true)
    (ht : takePins s n i os = t) :
    Changes [.colls, .cmds] s t ∧ (∃ z y, t.cmd? n = some z ∧ t.coll? i = some y ∧ Pinned os x c z y) ∧
      ∀ j, (t.coll? j).bind (·.maint) = (s.coll? j).bind (·.maint) := by
  unfold takePins at ht
  rw [held] at ht
  dsimp only at ht
  subst ht
  refine ⟨((Changes.refl _ s).modColl _ _).modCmd _ _, ⟨_, _, State.modCmd_held (s := s.modColl i _) held _, State.coll?_modColl here _, ⟨rfl⟩, ⟨rfl⟩,
    ?_, fun new => ?_, fun vectors => ?_⟩, fun j => ?_⟩
  · dsimp only
    rw [index]
    cases x.pinIndex <;> rfl
  · dsimp only
    rw [index, new]
    rfl
  · dsimp only
    rw [vectors]
    cases x.pinVectors <;> rfl
  · change (Tab.get? (Tab.adjust s.colls i _) j).bind _ = (Tab.get? s.colls j).bind _
    rw [Tab.get?_adjust]
    split
    · next eq =>
      rw [eq]
      cases Tab.get? s.colls i <;> rfl
    · rfl

/-- What an INSERT or UPSERT reserves does not depend on pins. -/
theorem mutationNeed_of_maint (same : ∀ j, (t.coll? j).bind (·.maint) = (s.coll? j).bind (·.maint)) (i : Nat) (c : Collection) (e : BitVec 1024)
    (inp : List Byte) : mutationNeed t i c e inp = mutationNeed s i c e inp := by
  have shadow : shadowed t i c = shadowed s i c := by
    unfold shadowed maintOf
    simp only [same]
  unfold mutationNeed
  rw [shadow]

/-! ## Items (R164, R168, R170) -/

theorem stageItems_spec {its : List Item} {need : Nat} (held : s.cmd? n = some x) (here : s.coll? i = some c) (ht : stageItems s n i its need = t) :
    Changes [.colls, .cmds] s t ∧ ∃ ys st k, t.cmd? n = some { x with work := { x.work with items := ys, staged := need } } ∧
      t.coll? i = some { c with staging := st, nextStaged := k, stagingUsed := c.stagingUsed + need } := by
  unfold stageItems at ht
  rw [here] at ht
  dsimp only at ht
  subst ht
  exact ⟨((Changes.refl _ s).modColl _ _).modWork _ _, _, _, _, State.modCmd_held (s := s.modColl i _) held _, State.coll?_modColl here _⟩

/-! ## Readiness -/

theorem mayAdmit_of_data (data : dataOpcode (eOpcode x.entry) = true) (up : live s = true) (ok : admissible s n x = true) (turn : admitTurn s n x = true) :
    mayAdmit s n x = true := by
  unfold mayAdmit
  rw [if_pos data, up, ok, turn]
  rfl

theorem data_of_admissible (ok : admissible s n x = true) : dataOpcode (eOpcode x.entry) = true := by
  unfold admissible at ok
  simp only [Bool.and_eq_true] at ok
  exact ok.1.1.2

theorem exec_commandAdmit (held : s.cmd? n = some x) : exec (.commandAdmit n) s = occurs (mayAdmit s n x) (admitEffect s n x) s := by
  change execCommandAdmit n s = _
  unfold execCommandAdmit
  rw [held]

/-- The admission of a data-path command on a collection, no ID of which names another device. -/
theorem commandAdmit_data (held : s.cmd? n = some x) (up : live s = true) (ok : admissible s n x = true) (turn : admitTurn s n x = true)
    (small : eOpcode x.entry ≤ 5) (here : s.coll? (eIndex x.entry) = some c) (local_ : forwardTo s c x = none) :
    exec (.commandAdmit n) s = .next (if inT2 c then runCommand s n (eIndex x.entry) c x
      else if c.residency != .waking && !c.attrs.session then fail s n .collectionParked { kind := 0, loc := 4, detail := eHandle x.entry }
      else startWake s n (eIndex x.entry) c) := by
  have data := data_of_admissible ok
  refine (exec_commandAdmit held).trans ((occurs_of_true (mayAdmit_of_data data up ok turn) _ s).trans (congrArg Host.Outcome.next ?_))
  unfold admitEffect
  rw [if_pos data]
  unfold admitData
  dsimp only
  rw [if_neg (by omega), here]
  dsimp only
  rw [if_neg (by omega), local_]

/-! ## A mutation runs (R168, R170, R401) -/

/-- What a command that begins to run has: its pins, and the stage ADMITTED. -/
theorem runCommand_pins (held : s.cmd? n = some x) (here : s.coll? i = some c) (index : (pinsOf c x).contains .index = true)
    (other : eOpcode x.entry ≠ 1) : ∃ s₁ z y, (takeScratch (takePins (s.modCmd n fun y => { y with stage := .admitted }) n i (pinsOf c x)) n x).getD
        (takePins (s.modCmd n fun y => { y with stage := .admitted }) n i (pinsOf c x)) = s₁ ∧ Changes [.colls, .cmds] s s₁ ∧
      s₁.cmd? n = some z ∧ s₁.coll? i = some y ∧ Pinned (pinsOf c x) { x with stage := .admitted } c z y ∧
      ∀ j, (s₁.coll? j).bind (·.maint) = (s.coll? j).bind (·.maint) := by
  have admitted : (s.modCmd n fun y => { y with stage := .admitted }).cmd? n = some { x with stage := .admitted } := State.modCmd_held held _
  obtain ⟨changes, ⟨z, y, at_, in_, pinned⟩, maint⟩ := takePins_spec (os := pinsOf c x) admitted here index rfl
  refine ⟨_, z, y, ?_, ((Changes.refl [.colls, .cmds] s).modCmd n _).trans changes, at_, in_, pinned, maint⟩
  unfold takeScratch
  rw [if_pos (by simp [other])]
  rfl

/-- A mutation that has joined a group: its own state and its collection's are as they were but for the group. -/
structure Grouped (n i : Nat) (x : Cmd) (c : Collection) (t : State) (z : Cmd) (y : Collection) : Prop where
  cmd : t.cmd? n = some z
  coll : t.coll? i = some y
  pinned : z.pinIndex = x.pinIndex
  stage : z.stage = x.stage
  completion : z.completion = x.completion
  items : z.work.items = x.work.items
  staged : z.work.staged = x.work.staged
  pins : y.pinIndex = c.pinIndex
  published : y.published = c.published
  used : y.stagingUsed = c.stagingUsed
  member : ∃ g, z.work.group = some g ∧ ∃ w, Tab.get? y.groups g = some w ∧ n ∈ w.members

theorem InGroup.grouped (h : InGroup n i x c t) : ∃ z y, Grouped n i x c t z y := by
  obtain ⟨z, y, g, w, at_, eq, in_, ⟨same⟩, group, member⟩ := h.joined
  refine ⟨z, y, at_, in_, ?_, ?_, ?_, ?_, ?_, ?_, ?_, ?_, g, ?_, w, group, member⟩
  · rw [eq]
  · rw [eq]
  · rw [eq]
  · rw [eq]
  · rw [eq]
  · rw [same]
  · rw [same]
  · rw [same]
  · rw [eq]

theorem joinGroup_grouped (held : s.cmd? n = some x) (index : eIndex x.entry = i) (here : s.coll? i = some c) (ht : joinGroup s n = t) :
    Changes [.colls, .cmds] s t ∧ ∃ z y, Grouped n i x c t z y := by
  subst index
  obtain ⟨changes, joined⟩ := joinGroup_spec held here ht
  exact ⟨changes, joined.grouped⟩

theorem runCommand_delete (held : s.cmd? n = some x) (here : s.coll? (eIndex x.entry) = some c) (delete : eOpcode x.entry = 4)
    (ht : runCommand s n (eIndex x.entry) c x = t) :
    Changes [.colls, .cmds] s t ∧ ∃ x₁ c₁ z y, Pinned (pinsOf c x) { x with stage := .admitted } c x₁ c₁ ∧
      Grouped n (eIndex x.entry) { x₁ with work := { x₁.work with
        items := (readIds x.input (eCount x.entry)).map fun (w : BitVec 64) => ({ vid := w.setWidth 48 } : Item) } } c₁ t z y := by
  obtain ⟨s₁, z₁, y₁, begun, changes₁, at₁, in₁, pinned, -⟩ := runCommand_pins held here (by unfold pinsOf; rw [delete]; rfl) (by omega)
  unfold runCommand at ht
  dsimp only at ht
  rw [begun, delete] at ht
  unfold admitDelete at ht
  have named := State.modCmd_held at₁ fun y => { y with work := { y.work with
    items := (readIds x.input (eCount x.entry)).map fun (w : BitVec 64) => ({ vid := w.setWidth 48 } : Item) } }
  change (s₁.modWork n fun w => { w with
    items := (readIds x.input (eCount x.entry)).map fun (w : BitVec 64) => ({ vid := w.setWidth 48 } : Item) }).cmd? n = _ at named
  have entry : z₁.entry = x.entry := by rw [pinned.cmd.eq]
  have moved : Changes [.colls, .cmds] s₁ (s₁.modWork n fun w => { w with
    items := (readIds x.input (eCount x.entry)).map fun (w : BitVec 64) => ({ vid := w.setWidth 48 } : Item) }) := (Changes.refl _ s₁).modWork n _
  obtain ⟨changes₂, z, y, grouped⟩ := joinGroup_grouped named (congrArg eIndex entry) in₁ ht
  exact ⟨(changes₁.trans moved).trans changes₂, z₁, y₁, z, y, pinned, grouped⟩

theorem runCommand_insert (held : s.cmd? n = some x) (here : s.coll? (eIndex x.entry) = some c) (insert : eOpcode x.entry = 2 ∨ eOpcode x.entry = 3)
    (bytes : eInputFormat x.entry ≠ 3) (ht : runCommand s n (eIndex x.entry) c x = t) :
    Changes [.colls, .cmds] s t ∧ ∃ x₁ c₁ ys st k z y, Pinned (pinsOf c x) { x with stage := .admitted } c x₁ c₁ ∧
      Grouped n (eIndex x.entry) { x₁ with work := { x₁.work with items := ys, staged := mutationNeed s (eIndex x.entry) c x.entry x.input } }
        { c₁ with staging := st, nextStaged := k, stagingUsed := c₁.stagingUsed + mutationNeed s (eIndex x.entry) c x.entry x.input } t z y := by
  obtain ⟨s₁, z₁, y₁, begun, changes₁, at₁, in₁, pinned, maint⟩ := runCommand_pins held here
    (by unfold pinsOf; rcases insert with op | op <;> rw [op] <;> rfl) (by omega)
  have run : runCommand s n (eIndex x.entry) c x = admitItems s₁ n (eIndex x.entry) c x := by
    unfold runCommand
    dsimp only
    rw [begun]
    rcases insert with op | op <;> rw [op] <;> rfl
  rw [run] at ht
  unfold admitItems at ht
  dsimp only at ht
  rw [if_neg bytes, mutationNeed_of_maint maint] at ht
  have entry : z₁.entry = x.entry := by rw [pinned.cmd.eq]
  obtain ⟨changes₂, ys, st, k, at₂, in₂⟩ := stageItems_spec at₁ in₁ rfl
  obtain ⟨changes₃, z, y, grouped⟩ := joinGroup_grouped at₂ (congrArg eIndex entry) in₂ ht
  exact ⟨(changes₁.trans changes₂).trans changes₃, z₁, y₁, ys, st, k, z, y, pinned, grouped⟩

/-! ## A FETCH (R89, R178) -/

/-- A command that came by a submission queue and goes to no other member is decided, whatever its result, and holds its pins. -/
theorem decide_of_sq {p : PortId} {q : Nat} (held : s.cmd? n = some x) (origin : x.origin = .sq p q) (here : x.detached = false)
    (open_ : x.stage ≠ .decided) (alone : fannedOut (eOpcode x.entry) = false) (k : Completion) (res : List Byte) (unit : Nat) (cause : Cause) :
    ∃ k' res', (decide_ s n k res unit cause).cmd? n = some (x.decided k' res') := by
  have reached : ∃ s₁ k₁ res₁, s₁.cmds = s.cmds ∧ decide_ s n k res unit cause = deliver s₁ n x k₁ res₁ := by
    unfold decide_
    rw [held]
    dsimp only
    rw [if_neg open_, alone, Bool.false_and, if_neg Bool.false_ne_true]
    refine ⟨_, _, _, ?_, rfl⟩
    have left : Changes [.net, .batches, .runs, .colls] s (leftWork s n x) := (changes_leftWork ..).mono (by decide)
    exact ((left.trans (.ite (.refl _ _) ((changes_releaseStaging ..).mono (by decide)))).comp (n := [.net, .batches, .runs, .colls, .logs, .port0, .port1])
      (changes_logStatus ..)).same (·.cmds)
  obtain ⟨s₁, k₁, res₁, cmds, eq⟩ := reached
  have frozen : Changes [.logs, .port0, .port1] s₁ (if freezes k₁.status then freezeQueue s₁ p q (statusCode k₁.status) (eTag x.entry) else s₁) :=
    .ite (changes_freezeQueue ..) (.refl _ s₁)
  rw [eq, deliver_of_sq origin here]
  exact ⟨k₁, res₁, State.modCmd_held ((frozen.same (·.cmd? n)).trans ((congrArg (Tab.get? · n) cmds).trans held)) _⟩

theorem fetchAll_spec {p : PortId} {q : Nat} {snap : Nat} (held : s.cmd? n = some x) (origin : x.origin = .sq p q) (here : x.detached = false)
    (open_ : x.stage ≠ .decided) (fetch : eOpcode x.entry = 5) (c : Collection) (z : Cmd) :
    ∃ k res, (fetchAll s n snap c z).cmd? n = some (Cmd.decided { x with snapshot := some snap } k res) := by
  unfold fetchAll
  extract_lets fp32 rs s₁
  have at_ : s₁.cmd? n = some { x with snapshot := some snap } := State.modCmd_held held _
  have alone : fannedOut (eOpcode x.entry) = false := by rw [fetch]; rfl
  split
  · obtain ⟨k, -, -, -, eq⟩ := fail_eq_decide at_ .dataError (tileCause s₁ (fetchTile s₁ c snap _))
    rw [eq]
    exact decide_of_sq at_ origin here open_ alone ..
  · exact decide_of_sq at_ origin here open_ alone ..

theorem runCommand_fetch {p : PortId} {q : Nat} (held : s.cmd? n = some x) (here : s.coll? (eIndex x.entry) = some c) (fetch : eOpcode x.entry = 5)
    (latest : eFetchSnapValid x.entry = false) (home : isHome s c = true) (origin : x.origin = .sq p q) (attached : x.detached = false) :
    ∃ z, (runCommand s n (eIndex x.entry) c x).cmd? n = some z ∧ z.snapshot = some c.published ∧ z.pinIndex = true ∧ z.pinVectors = true ∧
      z.stage = .decided := by
  obtain ⟨s₁, z₁, y₁, begun, changes₁, at₁, in₁, pinned, -⟩ := runCommand_pins held here (by unfold pinsOf; rw [fetch]; rfl) (by omega)
  have run : runCommand s n (eIndex x.entry) c x = takeSnapshot s₁ n c.published := by
    unfold runCommand
    dsimp only
    rw [begun, fetch]
    have home₁ : isHome s₁ c = true := (changes₁.same (isHome · c)).trans home
    exact if_pos (by rw [home₁]; rfl)
  have entry : z₁.entry = x.entry := by rw [pinned.cmd.eq]
  have shard : isShard z₁ = false := by
    rw [pinned.cmd.eq, isShard]
    dsimp only
    rw [origin]
  have taken : takeSnapshot s₁ n c.published = fetchAll s₁ n c.published y₁ z₁ := by
    unfold takeSnapshot
    rw [at₁]
    dsimp only
    rw [entry, in₁]
    dsimp only
    rw [fetch, latest, shard]
    rfl
  obtain ⟨k, res, at_⟩ := fetchAll_spec (snap := c.published) at₁ (by rw [pinned.cmd.eq]; exact origin) (by rw [pinned.cmd.eq]; exact attached)
    (by rw [pinned.cmd.eq]; exact nofun) (by rw [entry]; exact fetch) y₁ z₁
  rw [run, taken]
  exact ⟨_, at_, rfl, pinned.index, pinned.vectors (by unfold pinsOf; rw [fetch]; rfl), rfl⟩

/-! ## A wake that starts (R409) -/

theorem takePages_spec {m a p : Nat} (h : takePages s m a = some (p, t)) : Changes [.protect] s t := by
  unfold takePages at h
  split at h
  · obtain ⟨-, rfl⟩ := Prod.mk.inj (Option.some.inj h)
    exact (Changes.refl _ s).modProtect _
  · dsimp only at h
    split at h
    · obtain ⟨-, rfl⟩ := Prod.mk.inj (Option.some.inj h)
      exact (Changes.refl _ s).modProtect _
    · cases h

theorem takeT2_spec {m : Nat} {ps : List Nat} (h : takeT2 m s = some (ps, t)) : Changes [.protect] s t ∧ ps.length = m := by
  induction m generalizing s ps with
  | zero =>
    obtain ⟨rfl, rfl⟩ := Prod.mk.inj (Option.some.inj h)
    exact ⟨.refl _ s, rfl⟩
  | succ m ih =>
    unfold takeT2 at h
    split at h
    · cases h
    · next took =>
      obtain ⟨⟨qs, v⟩, rest, eq⟩ := Option.map_eq_some_iff.mp h
      obtain ⟨rfl, rfl⟩ := Prod.mk.inj eq
      obtain ⟨changes, length⟩ := ih rest
      exact ⟨(takePages_spec took).trans changes, congrArg (· + 1) length⟩

theorem startWake_spec {ps : List Nat} {v : State} {p : Nat} (held : s.cmd? n = some x) (here : s.coll? i = some c) (asleep : c.residency ≠ .waking)
    (calm : c.evictions = []) (tiles : takeT2 (objTiles c .index).length s = some (ps, u)) (stage : takePages u (stagePages c.attrs) 16 = some (p, v))
    (ht : startWake s n i c = t) :
    ∃ y, t.coll? i = some y ∧ y.residency = .waking ∧ y.wakeCmds = [n] ∧ y.wakeTiles.map (·.1) = objTiles c .index ∧
      t.cmd? n = some { x with waitsWake := true } := by
  obtain ⟨took, length⟩ := takeT2_spec tiles
  have changes := took.trans (takePages_spec stage)
  have none_ : cancelEvictions s (movers s c.evictions [.index]) = s := by
    rw [calm]
    rfl
  unfold startWake at ht
  rw [if_neg asleep, none_] at ht
  dsimp only at ht
  rw [tiles] at ht
  dsimp only at ht
  rw [stage] at ht
  dsimp only at ht
  subst ht
  refine ⟨_, State.coll?_modColl ((changes.same (·.coll? i)).trans here) _, rfl, rfl, ?_, State.modCmd_held ((changes.same (·.cmd? n)).trans held) _⟩
  exact List.map_fst_zip (by rw [length])

/-! ## An admin command (R522, R535) -/

/-- A success of a command that coordinates no search: the command alone changes, and what it leaves. -/
theorem succeed_quiet (u : s.undecided n x) {k : Completion} (st : k.status = .success) (bare : k.resultLength = 0) (other : eOpcode x.entry ≠ 1) :
    ∃ k', k'.Means k ∧ (succeed s n k).cmd? n = some (x.decided k' []) ∧ Changes [.cmds, .batches, .runs] s (succeed s n k) := by
  obtain ⟨⟨k', means, at_⟩, -⟩ := succeed_of_undecided u st bare rfl
  refine ⟨k', means, at_, ?_⟩
  obtain ⟨k₁, res₁, ⟨status, -⟩, -, eq⟩ := decide_eq u k [] 1 {} (by rw [bare]; omega)
  obtain ⟨-, ⟨p, q, origin⟩, attached, -⟩ := u
  have none_ : cancelShards s n x = s := by
    unfold cancelShards
    split
    · rfl
    · rfl
    · exact if_neg fun (search : eOpcode x.entry = 1 ∧ x.snapshot.isSome = true) => other search.1
  have info : givenUp s n x k.status = leftWork s n x := if_pos (by rw [st]; rfl)
  have unlogged (s : State) : logStatus s x k₁ {} = (s, k₁) := by
    unfold logStatus
    rw [status, st]
    rfl
  have free : freezes k₁.status = false := by
    rw [status, st]
    rfl
  rw [info, unlogged, deliver_of_sq origin attached, free, if_neg Bool.false_ne_true, leftWork, none_] at eq
  change Changes _ s (decide_ s n k [] 1 {})
  rw [eq]
  exact rfl

theorem getFeature_spec (u : s.undecided n x) (get : eOpcode x.entry = 0x82) (current_ : eFlags x.entry % 4 = 0) (ready : mayStartAdmin s n x = true)
    (ht : startAdmin (adminEffect (eOpcode x.entry)) s n = t) :
    t.decidedAs n .success (currentFeature s (issuer x) (eFid x.entry) (eSel x.entry) % 2 ^ 32)
        (currentFeature s (issuer x) (eFid x.entry) (eSel x.entry) / 2 ^ 32) ∧
      t = { s with cmds := t.cmds, batches := t.batches, runs := t.runs } := by
  obtain ⟨held, origin, here, none_, open_, alone, going⟩ := u
  have at_ : (s.modCmd n fun y => { y with stage := .admitted }).cmd? n = some { x with stage := .admitted } := State.modCmd_held held _
  have admitted : Changes [.cmds, .batches, .runs] s (s.modCmd n fun y => { y with stage := .admitted }) := (Changes.refl _ s).modCmd n _
  have value : currentFeature (s.modCmd n fun y => { y with stage := .admitted }) (issuer x) (eFid x.entry) (eSel x.entry) =
    currentFeature s (issuer x) (eFid x.entry) (eSel x.entry) := rfl
  unfold startAdmin at ht
  rw [held] at ht
  dsimp only at ht
  rw [if_pos ready, get] at ht
  change getFeatureEffect (s.modCmd n fun y => { y with stage := .admitted }) n = t at ht
  generalize (s.modCmd n fun y => { y with stage := .admitted }) = s₁ at *
  have undecided : s₁.undecided n { x with stage := .admitted } := ⟨at_, origin, here, none_, nofun, alone, going⟩
  unfold getFeatureEffect withCmd at ht
  rw [at_] at ht
  dsimp only at ht
  rw [current_] at ht
  change succeed s₁ n (featureValue (currentFeature s₁ (issuer x) (eFid x.entry) (eSel x.entry))) = t at ht
  rw [value] at ht
  obtain ⟨k', ⟨status, dw2, dw3, -⟩, at', changes⟩ := succeed_quiet undecided (k := featureValue (currentFeature s (issuer x) (eFid x.entry) (eSel x.entry)))
    rfl rfl (by dsimp only; rw [get]; decide)
  rw [ht] at at' changes
  exact ⟨State.decidedAs_of at' status dw2 dw3, admitted.trans changes⟩

/-! ## The obligation -/

theorem not_admissible_of_earlier (reader : isReader (eOpcode x.entry) = true) (small : eOpcode x.entry ≤ 5) (here : s.coll? (eIndex x.entry) = some c)
    (waits : mutationsDone s n x = false) : admissible s n x = false := by
  have no : reservable s n x = false := by
    unfold reservable
    dsimp only
    rw [if_neg (by omega), here]
    dsimp only
    rw [if_pos reader, waits]
    simp
  unfold admissible
  rw [no, Bool.and_false]

/-- Settles O32. A command that runs takes its pins first; what it joins, reads or reserves after that leaves them. -/
theorem commandsAreAdmitted : Obligations.CommandsAreAdmitted := by
  refine ⟨fun n i x c s up held ok turn index here in_ local_ new op => ?_, fun n i x c s up undecided turn index here data small =>
    ⟨fun reader waits => ?_, fun ok local_ out => ⟨fun waking => ?_, fun awake_ plain => ?_, fun awake_ session calm room => ?_⟩⟩,
    fun n x s up held => ⟨fun c here fetch latest ok turn in_ local_ home origin attached => ?_, fun get current_ waiting ready undecided => ?_⟩⟩
  · subst index
    have row := commandAdmit_data held up ok turn (by omega) here local_
    rw [if_pos in_] at row
    rcases op with delete | ⟨insert, bytes⟩
    · obtain ⟨changes, x₁, c₁, z, y, pinned, grouped⟩ := runCommand_delete held here delete rfl
      obtain ⟨g, group, w, listed, member⟩ := grouped.member
      refine ⟨_, y, z, g, row, grouped.coll, grouped.cmd, ?_, grouped.pinned.trans pinned.index, ?_, ?_, fun _ => ⟨?_, ?_⟩, fun other => absurd delete other,
        group, ⟨w, listed, member⟩, ?_, changes⟩
      · rw [grouped.pins, pinned.count new]
      · rw [grouped.stage, pinned.cmd.eq]
      · rw [grouped.completion, pinned.cmd.eq]
      · rw [grouped.items, List.map_map]
        rfl
      · rw [grouped.used, pinned.coll.eq]
      · rw [grouped.published, pinned.coll.eq]
    · obtain ⟨changes, x₁, c₁, ys, st, k, z, y, pinned, grouped⟩ := runCommand_insert held here insert bytes rfl
      obtain ⟨g, group, w, listed, member⟩ := grouped.member
      refine ⟨_, y, z, g, row, grouped.coll, grouped.cmd, ?_, grouped.pinned.trans pinned.index, ?_, ?_, fun delete => absurd delete (by omega),
        fun _ => ⟨?_, grouped.staged⟩, group, ⟨w, listed, member⟩, ?_, changes⟩
      · rw [grouped.pins, pinned.count new]
      · rw [grouped.stage, pinned.cmd.eq]
      · rw [grouped.completion, pinned.cmd.eq]
      · rw [grouped.used, pinned.coll.eq]
      · rw [grouped.published, pinned.coll.eq]
  · subst index
    refine (exec_commandAdmit undecided.1).trans (occurs_of_false ?_ _ s)
    unfold mayAdmit
    rw [if_pos data, not_admissible_of_earlier reader small here waits]
    simp
  · subst index
    refine (commandAdmit_data undecided.1 up ok turn small here local_).trans (congrArg Host.Outcome.next ?_)
    rw [out, if_neg Bool.false_ne_true, waking, if_neg (by simp)]
    exact if_pos waking
  · subst index
    have row := commandAdmit_data undecided.1 up ok turn small here local_
    rw [out, if_neg Bool.false_ne_true, plain, if_pos (by simpa using awake_)] at row
    have failed := fail_fails (st := .collectionParked) undecided rfl { kind := 0, loc := 4, detail := eHandle x.entry }
    exact ⟨_, row, failed.decided, failed.changes.same (·.tiers)⟩
  · subst index
    have row := commandAdmit_data undecided.1 up ok turn small here local_
    rw [out, if_neg Bool.false_ne_true, session, if_neg (by simp)] at row
    obtain ⟨ps, u, p, v, tiles, stage⟩ := room
    obtain ⟨y, at_, waking, cmds, wakes, cmd⟩ := startWake_spec undecided.1 here awake_ calm tiles stage rfl
    exact ⟨_, y, row, at_, waking, cmds, wakes, cmd⟩
  · have row := commandAdmit_data held up ok turn (by omega) here local_
    rw [if_pos in_] at row
    obtain ⟨p, q, origin⟩ := origin
    obtain ⟨z, at_, snapshot, index, vectors, stage⟩ := runCommand_fetch held here fetch latest home origin attached
    exact ⟨_, z, row, at_, snapshot, index, vectors, stage⟩
  · have admin : dataOpcode (eOpcode x.entry) = false := by rw [get]; rfl
    have row : exec (.commandAdmit n) s = .next (startAdmin (adminEffect (eOpcode x.entry)) s n) := by
      refine (exec_commandAdmit held).trans ((occurs_of_true ?_ _ s).trans (congrArg Host.Outcome.next ?_))
      · unfold mayAdmit
        rw [admin, if_neg Bool.false_ne_true, waiting, ready]
        rfl
      · rw [admitEffect, admin, if_neg Bool.false_ne_true]
    obtain ⟨decided, frame⟩ := getFeature_spec undecided get current_ ready rfl
    exact ⟨_, _, row, rfl, decided, frame⟩

end Sys2Proof.Machine
end

section
/-! SUPPORT. Memory that is filled, cores and streams that are changed in turn, and the steps of model runs (R206, R211, R212, R215, R216). -/

namespace Sys2Proof.Machine

open Sys2Proof

-- Proofs are checked one at a time: each that waits for its turn would hold a thread's stack.
set_option Elab.async false

/-! ## Memory that is filled (R206) -/

theorem Tab.get?_append {α : Type} (t u : Table α) (k : Nat) : Tab.get? (t ++ u) k = (Tab.get? t k).or (Tab.get? u k) := by
  induction t with
  | nil => rfl
  | cons y t ih =>
    obtain ⟨j, a⟩ := y
    by_cases same : j = k
    · simp [Tab.get?, same]
    · simpa [Tab.get?, same] using ih

namespace Mem

/-- The bytes that are not zero, from an offset on. -/
def nonzeroFrom (a : Nat) (l : List Byte) (o : Nat) : List (Nat × Byte) :=
  ((l.zipIdx o).filter fun x => !(x.1 == 0)).map fun (v, i) => (a + i, v)

theorem getD_nonzeroFrom (a : Nat) (l : List Byte) (o j : Nat) :
    Tab.get? (nonzeroFrom a l o) (a + j) = if o ≤ j ∧ j < o + l.length ∧ l.getD (j - o) 0 ≠ 0 then some (l.getD (j - o) 0) else none := by
  induction l generalizing o with
  | nil => simp [nonzeroFrom]
  | cons b l ih =>
    have step : Tab.get? (nonzeroFrom a (b :: l) o) (a + j) =
        if b ≠ 0 ∧ o = j then some b else Tab.get? (nonzeroFrom a l (o + 1)) (a + j) := by
      unfold nonzeroFrom
      rw [List.zipIdx_cons]
      by_cases zero : b = 0
      · rw [List.filter_cons_of_neg (by simp [zero]), if_neg (fun h => h.1 zero)]
      · rw [List.filter_cons_of_pos (by simpa using zero), List.map_cons, Tab.get?]
        exact if_congr ⟨fun h => ⟨zero, by omega⟩, fun h => by rw [h.2]⟩ rfl rfl
    rw [step, ih, List.length_cons]
    rcases Nat.lt_trichotomy j o with low | rfl | high
    · rw [if_neg (by omega), if_neg (by omega), if_neg (by omega)]
    · rw [Nat.sub_self, List.getD_cons_zero]
      by_cases zero : b = 0
      · rw [if_neg (fun h => h.1 zero), if_neg (by omega), if_neg (fun h => h.2.2 zero)]
      · rw [if_pos ⟨zero, rfl⟩, if_pos ⟨Nat.le_refl j, by omega, zero⟩]
    · rw [if_neg (by omega), show j - o = (j - (o + 1)) + 1 by omega, List.getD_cons_succ]
      exact if_congr (by constructor <;> (rintro ⟨h, k, l⟩; exact ⟨by omega, by omega, l⟩)) rfl rfl

theorem read_fill_in (m : Memory) (a n : Nat) (b : List Byte) {i : Nat} (small : i < n) : read (fill m a n b) (a + i) = b.getD i 0 := by
  have below : Tab.get? (m.filter fun x => decide (x.1 < a)) (a + i) = none := by
    rw [Tab.get?_filter_key m (fun j => decide (j < a)), if_neg (by simp)]
  have above : Tab.get? (m.filter fun x => decide (a + n ≤ x.1)) (a + i) = none := by
    rw [Tab.get?_filter_key m (fun j => decide (a + n ≤ j)), if_neg (by simpa using small)]
  have middle := getD_nonzeroFrom a (b.take n) 0 i
  unfold read fill Tab.getD
  rw [Tab.get?_append, Tab.get?_append, below, above, Option.none_or, Option.or_none]
  change (Tab.get? (nonzeroFrom a (b.take n) 0) (a + i)).getD 0 = _
  rw [middle, Nat.sub_zero]
  have taken : (b.take n).getD i 0 = b.getD i 0 := by
    rw [List.getD_eq_getElem?_getD, List.getD_eq_getElem?_getD, List.getElem?_take, if_pos small]
  rw [taken]
  by_cases zero : b.getD i 0 = 0
  · rw [if_neg (fun h => h.2.2 zero), zero]
    rfl
  · have listed : i < b.length := by
      by_contra past
      exact zero (List.getD_eq_default _ _ (by omega))
    rw [if_pos ⟨Nat.zero_le i, by rw [List.length_take]; omega, zero⟩]
    rfl

theorem read_fill_out (m : Memory) (a n : Nat) (b : List Byte) {c : Nat} (out : c < a ∨ a + n ≤ c) : read (fill m a n b) c = read m c := by
  have middle : Tab.get? (nonzeroFrom a (b.take n) 0) c = none := by
    rcases out with low | high
    · cases at_ : Tab.get? (nonzeroFrom a (b.take n) 0) c with
      | none => rfl
      | some v =>
        obtain ⟨⟨v', i⟩, -, eq⟩ := List.mem_map.mp (Tab.mem_of_get? at_)
        obtain ⟨place, -⟩ := Prod.mk.inj eq
        omega
    · rw [show c = a + (c - a) by omega, getD_nonzeroFrom, if_neg (by rw [List.length_take]; omega)]
  unfold read fill Tab.getD
  rw [Tab.get?_append, Tab.get?_append]
  change (((Tab.get? (m.filter fun x => decide (x.1 < a)) c).or (Tab.get? (nonzeroFrom a (b.take n) 0) c)).or _).getD 0 = _
  rw [middle, Option.or_none, Tab.get?_filter_key m (fun j => decide (j < a)), Tab.get?_filter_key m (fun j => decide (a + n ≤ j))]
  rcases out with low | high
  · rw [if_pos (by simpa using low), if_neg (by simp; omega), Option.or_none]
  · rw [if_neg (by simp; omega), if_pos (by simpa using high), Option.none_or]

end Mem

variable {s t u : State} {k n : Nat} {r : Run}

/-! ## The tiles that a step works on (R211, R212) -/

theorem workTiles_spec (last : Nat) (landed : List Nat) (n w : Nat) :
    w ≤ workTiles last landed n w ∧ (∀ j, w ≤ j → j < workTiles last landed n w → j ∈ landed) ∧
      (last - w ≤ n → workTiles last landed n w < last → workTiles last landed n w ∉ landed) := by
  induction n generalizing w with
  | zero => exact ⟨Nat.le_refl w, fun j low high => by rw [workTiles] at high; omega, fun all more => by rw [workTiles] at more; omega⟩
  | succ n ih =>
    rw [workTiles]
    split
    · next more =>
      obtain ⟨low, landed_⟩ := more
      obtain ⟨grows, worked, stops⟩ := ih (w + 1)
      refine ⟨by omega, fun j from_ upto => ?_, fun all => stops (by omega)⟩
      rcases Nat.eq_or_lt_of_le from_ with rfl | later
      · simpa using landed_
      · exact worked j later upto
    · next stop =>
      exact ⟨Nat.le_refl w, fun j low high => by omega, fun _ more mem => stop ⟨more, by simpa using mem⟩⟩

/-- A run that works on the tiles of its step that have landed, and on no others. -/
theorem advance_works (held : Tab.get? s.runs k = some r) (ht : advance s k = t) :
    Changes [.runs] s t ∧ ∃ w, Tab.get? t.runs k = some { r with worked := w } ∧ r.worked ≤ w ∧ (∀ j, r.worked ≤ j → j < w → j ∈ r.landed) ∧
      ∀ p, stepOf s r = some p → w < p.tileFirst + p.tileCount → w ∉ r.landed := by
  unfold advance at ht
  rw [held] at ht
  dsimp only at ht
  split at ht
  · next none_ =>
    subst ht
    exact ⟨.refl _ s, r.worked, held, Nat.le_refl _, fun j low high => by omega, fun p step => by rw [none_] at step; cases step⟩
  · next p step =>
    subst ht
    obtain ⟨grows, worked, stops⟩ := workTiles_spec (p.tileFirst + p.tileCount) r.landed (p.tileFirst + p.tileCount - r.worked) r.worked
    refine ⟨rfl, _, (Tab.get?_adjust_self ..).trans (congrArg (Option.map _) held), grows, worked, fun p' step' => ?_⟩
    obtain rfl := Option.some.inj (step.symm.trans step')
    exact stops (Nat.le_refl _)

/-! ## Programs of cores (R207, R245) -/

/-- The core program of the step a run is in. -/
def programOf (s : State) (r : Run) : Option (List Byte) :=
  (stepOf s r).map fun p => ((s.sched r.sched).image.drop p.programOffset).take p.programBytes

theorem loadProgram_spec (held : Tab.get? s.runs k = some r) (ht : loadProgram s k = t) :
    Changes [.cores] s t ∧ ∀ n, t.core n =
      if (s.core n).run = some k then { s.core n with program := (programOf s r).getD (s.core n).program } else s.core n := by
  unfold loadProgram at ht
  rw [held, Option.bind_some] at ht
  unfold programOf
  cases step : stepOf s r with
  | none =>
    rw [step] at ht
    subst ht
    exact ⟨.refl _ s, fun n => (ite_self _).symm⟩
  | some p =>
    rw [step] at ht
    dsimp only [Option.map_some] at ht
    subst ht
    refine ⟨rfl, fun n => ?_⟩
    unfold State.core
    dsimp only
    unfold Tab.getD
    rw [Tab.get?_map]
    cases Tab.get? s.cores n with
    | none => rfl
    | some c =>
      dsimp only [Option.map_some, Option.getD_some]
      simp only [beq_iff_eq]

/-! ## Entries that are changed in turn -/

theorem Tab.getD_foldl_modify {α : Type} (l : List Nat) (d : α) (f : α → α) (twice : ∀ a, f (f a) = f a) (t : Table α) (j : Nat) :
    Tab.getD (l.foldl (fun t n => Tab.modify t n d f) t) j d = if j ∈ l then f (Tab.getD t j d) else Tab.getD t j d := by
  induction l generalizing t with
  | nil => simp
  | cons n l ih =>
    rw [List.foldl_cons, ih, Tab.getD_modify]
    by_cases eq : j = n
    · subst eq
      simp [twice]
    · simp [eq]

theorem streams_foldl_modStream (l : List (Nat × Nat)) (f : Stream → Stream) (s : State) :
    (l.foldl (fun s y => s.modStream y.1 y.2 f) s).streams = (l.map fun y => y.1 * 16 + y.2).foldl (fun t n => Tab.modify t n {} f) s.streams := by
  induction l generalizing s with
  | nil => rfl
  | cons y l ih =>
    rw [List.foldl_cons, ih, List.map_cons, List.foldl_cons]
    rfl

theorem changes_foldl_modStream (l : List (Nat × Nat)) (f : Stream → Stream) (s : State) :
    Changes [.streams] s (l.foldl (fun s y => s.modStream y.1 y.2 f) s) := by
  induction l generalizing s with
  | nil => exact .refl _ s
  | cons y l ih => exact (show Changes [.streams] s (s.modStream y.1 y.2 f) from rfl).trans (ih _)

theorem held_evictKey (s : State) (j : Nat) : (evictKey s j).cache.held = s.cache.held := by
  unfold evictKey
  split
  · rfl
  · next l _ =>
    change (writeBack s l).cache.held = _
    rw [(changes_writeBack s l).same State.cache]

/-- Blocks that are granted to one owner are all held by it. -/
theorem held_foldl_grantBlock (o : BlockOwner) (l : List (Nat × Nat)) (s : State) {b : Nat × Nat} (mem : b ∈ l) :
    Tab.get? (l.foldl (fun s y => grantBlock s y.1 y.2 o) s).cache.held (b.1 * 64 + b.2) = some o := by
  have granted (s : State) (y : Nat × Nat) : (grantBlock s y.1 y.2 o).cache.held = Tab.set s.cache.held (y.1 * 64 + y.2) o := by
    unfold grantBlock
    have kept : ((blockKeys y.1 y.2).foldl evictKey s).cache.held = s.cache.held :=
      List.foldlRecOn _ _ (motive := fun t : State => t.cache.held = s.cache.held) rfl fun t same j _ => (held_evictKey t j).trans same
    generalize (blockKeys y.1 y.2).foldl evictKey s = t at *
    rw [← kept]
    rfl
  induction l using List.reverseRecOn with
  | nil => cases mem
  | append_singleton l y ih =>
    rw [List.foldl_append, List.foldl_cons, List.foldl_nil, granted, Tab.get?_set]
    split
    · rfl
    · next other =>
      rcases List.mem_append.mp mem with early | last
      · exact ih early
      · exact absurd (by rw [List.mem_singleton.mp last]) other

theorem changes_foldl_grantBlock (o : BlockOwner) (l : List (Nat × Nat)) (s : State) :
    Changes [.cache, .hbm] s (l.foldl (fun s y => grantBlock s y.1 y.2 o) s) := by
  induction l generalizing s with
  | nil => exact .refl _ s
  | cons y l ih =>
    rw [List.foldl_cons]
    have one : Changes [.cache, .hbm] s (grantBlock s y.1 y.2 o) := changes_grantBlock s y.1 y.2 o
    exact one.trans (ih (grantBlock s y.1 y.2 o))

/-! ## The launch of a run (R215, R216) -/

/-- A core that a run takes. -/
def Core.taken (k : Nat) (grants : List Nat) (x : Core) : Core := { x with run := some k, grants := grants }

/-- A boulevard stream that a run arms for its reads. -/
def Stream.armedFor (prio : Nat) (x : Stream) : Stream := { x with state := .armed, owner := .scheduler, prio := prio }

theorem takeCores_spec (k : Nat) (qs grants : List Nat)
    (ht : qs.foldl (fun s q => (List.range 64).foldl (fun s c => s.modCore (q * 64 + c) fun x => { x with run := some k, grants := grants }) s) s = t) :
    Changes [.cores] s t ∧ ∀ n, t.core n = if n / 64 ∈ qs then (s.core n).taken k grants else s.core n := by
  have flat : t = (qs.flatMap fun q => (List.range 64).map fun c => q * 64 + c).foldl (fun s n => s.modCore n (Core.taken k grants)) s := by
    rw [← ht, List.foldl_flatMap]
    simp only [List.foldl_map]
    rfl
  rw [flat]
  refine ⟨changes_foldl_modCore .., fun n => ?_⟩
  rw [core_foldl_modCore _ (Core.taken k grants) (fun _ => rfl)]
  refine if_congr ⟨fun mem => ?_, fun mem => ?_⟩ rfl rfl
  · obtain ⟨q, listed, inside⟩ := List.mem_flatMap.mp mem
    obtain ⟨c, small, rfl⟩ := List.mem_map.mp inside
    have := List.mem_range.mp small
    rwa [show (q * 64 + c) / 64 = q by omega]
  · exact List.mem_flatMap.mpr ⟨n / 64, mem, List.mem_map.mpr ⟨n % 64, List.mem_range.mpr (by omega), by omega⟩⟩

theorem launchRun_spec {qs grants : List Nat} (held : Tab.get? s.runs k = some r) (mine : r.slice = none)
    (alone : (s.sched r.sched).header.sliced = false) (ht : launchRun s k r qs grants = t) :
    Changes [.runs, .cores, .streams, .cache, .hbm] s t ∧
      (∃ w, Tab.get? t.runs k = some { r with
        launched := true, begun := true, start := s.time, quarters := qs, worked := w
        streams := qs.filterMap fun q => (idleStream s q).map fun n => (q, n) }) ∧
      (∀ n, t.core n = if n / 64 ∈ qs then { s.core n with
          run := some k, grants := grants, program := (programOf s r).getD (s.core n).program }
        else if (s.core n).run = some k then { s.core n with program := (programOf s r).getD (s.core n).program } else s.core n) ∧
      (∀ q ∈ qs, ∀ n, idleStream s q = some n → t.stream q n = (s.stream q n).armedFor (runClass s r)) ∧
      ∀ b ∈ freeBlocks s (runBlocks (s.sched r.sched).header), Tab.get? t.cache.held (b.1 * 64 + b.2) = some (.run k) := by
  unfold launchRun at ht
  extract_lets d h s₁ s₂ waits streams prio s₃ s₄ s₅ s₆ at ht
  have granted : Changes [.cache, .hbm] s s₁ := changes_foldl_grantBlock (.run k) _ s
  have blocks (b) (mem : b ∈ freeBlocks s (runBlocks h)) : Tab.get? s₁.cache.held (b.1 * 64 + b.2) = some (.run k) :=
    held_foldl_grantBlock (.run k) _ s mem
  obtain ⟨taken, cores⟩ := takeCores_spec k qs grants (s := s₁) (t := s₂) rfl
  have early : Changes [.cores, .cache, .hbm] s s₂ := granted.comp taken
  have arms : Changes [.streams] s₂ s₃ := changes_foldl_modStream streams (Stream.armedFor prio) s₂
  have armed (q n : Nat) (small : n < 16) (mem : (q, n) ∈ streams) : s₃.stream q n = (s₂.stream q n).armedFor prio := by
    unfold State.stream
    rw [show s₃.streams = _ from streams_foldl_modStream streams (Stream.armedFor prio) s₂,
      Tab.getD_foldl_modify _ _ (Stream.armedFor prio) (fun _ => rfl), if_pos (List.mem_map.mpr ⟨_, mem, rfl⟩)]
  have class_ : runClass s₂ r = runClass s r := by
    unfold runClass State.cmd?
    rw [early.same State.cmds]
  have idle (q : Nat) : idleStream s₂ q = idleStream s q := by
    unfold idleStream State.stream
    rw [early.same State.streams]
  have third : Changes [.cores, .cache, .hbm, .streams] s s₃ := early.comp arms
  have fourth : Changes [.runs, .cores, .cache, .hbm, .streams] s s₄ := third.comp (m := [.runs]) rfl
  have mine₄ : Tab.get? s₄.runs k = some { r with
      launched := true, begun := !waits, start := s₃.time, quarters := qs, streams := streams } := by
    refine (Tab.get?_adjust_self ..).trans ?_
    rw [third.same State.runs, held]
    rfl
  obtain ⟨loads, programs⟩ := loadProgram_spec mine₄ (t := s₅) rfl
  have sliced : h.sliced = false := alone
  have begun : waits = false := by
    change (r.slice.isSome || (h.sliced && !(sliceOthers s₂ d).isEmpty)) = false
    rw [mine, sliced]
    rfl
  have last : s₆ = s₅ := by
    change (match r.slice with
      | some (co, n) => sendRunCtl s₅ co 1 n h.sliceIndex 0
      | none => if h.sliced then (sliceOthers s₅ d).foldl (fun s e => sendRunCtl s e 0 k (runClass s r) h.setId) s₅ else s₅) = s₅
    rw [mine]
    dsimp only
    rw [sliced]
    rfl
  rw [begun, last, if_neg Bool.false_ne_true] at ht
  obtain ⟨works, w, mine_, -⟩ := advance_works ((congrArg (Tab.get? · k) (loads.same State.runs)).trans mine₄) ht
  have fifth : Changes [.runs, .cores, .cache, .hbm, .streams] s t := (fourth.andThen loads).andThen works
  have streams_ : streams = qs.filterMap fun q => (idleStream s q).map fun n => (q, n) := by
    change (qs.filterMap fun q => (idleStream s₂ q).map fun n => (q, n)) = _
    simp only [idle]
  have program : programOf s₄ { r with launched := true, begun := !waits, start := s₃.time, quarters := qs, streams := streams } =
      programOf s r := by
    unfold programOf stepOf State.sched
    rw [fourth.same State.scheds]
  have coreT (n : Nat) : t.core n = s₅.core n := works.same (State.core · n)
  have core₄ (n : Nat) : s₄.core n = if n / 64 ∈ qs then (s.core n).taken k grants else s.core n := by
    have kept : s₄.core n = s₂.core n := arms.same (State.core · n)
    have first : s₁.core n = s.core n := granted.same (State.core · n)
    rw [kept, cores, first]
  refine ⟨fifth.mono (by decide), ⟨w, ?_⟩, fun n => ?_, fun q mem n found => ?_, fun b mem => ?_⟩
  · rw [mine_, begun, third.same State.time, ← streams_]
    rfl
  · rw [coreT, programs, program, core₄]
    by_cases mem : n / 64 ∈ qs
    · rw [if_pos mem, if_pos mem]
      exact if_pos rfl
    · rw [if_neg mem, if_neg mem]
  · have small : n < 16 := List.mem_range.mp (List.mem_of_find?_eq_some found)
    have listed : (q, n) ∈ streams := by
      rw [streams_]
      exact List.mem_filterMap.mpr ⟨q, mem, by rw [found]; rfl⟩
    have kept : t.stream q n = s₃.stream q n :=
      (((show Changes [.runs] s₃ s₄ from rfl).comp (n := [.runs, .cores]) loads).andThen works).same (State.stream · q n)
    have first : s₂.stream q n = s.stream q n := early.same (State.stream · q n)
    rw [kept, armed q n small listed, first]
    exact congrArg (Stream.armedFor · _) class_
  · have kept : t.cache = s₁.cache :=
      ((((taken.comp (n := [.cores, .streams]) arms).comp (n := [.runs, .cores, .streams]) (m := [.runs]) (u := s₄) rfl).andThen
        loads).andThen works).same State.cache
    rw [kept]
    exact blocks b mem

end Sys2Proof.Machine
end

section
/-! SUPPORT. The steps of model runs: references that issue and land, units that compute, and steps that end; O41. -/

namespace Sys2Proof.Machine

open Sys2Proof

-- Proofs are checked one at a time: each that waits for its turn would hold a thread's stack.
set_option Elab.async false

variable {s t u : State} {k n : Nat} {r : Run}

/-! ## References that issue (R211, R216, R436) -/

/-- The queue of flash reads after reads of some pages were asked for: they are there, what was there stays, and nothing else is new. -/
theorem reads_foldl_queueFlash (l : List Nat) (level : Nat) (s : State) (ht : l.foldl (fun s p => queueFlash s p level) s = t) :
    (∀ p ∈ l, ⟨p, level⟩ ∈ t.flash.reads) ∧ (∀ q ∈ s.flash.reads, q ∈ t.flash.reads) ∧
      (∀ q ∈ t.flash.reads, q ∈ s.flash.reads ∨ (q.page ∈ l ∧ q.level = level)) ∧
      t = { s with flash := { s.flash with reads := t.flash.reads } } := by
  induction l generalizing s with
  | nil =>
    subst ht
    exact ⟨fun _ mem => absurd mem List.not_mem_nil, fun _ mem => mem, fun _ mem => .inl mem, rfl⟩
  | cons p l ih =>
    have one : (⟨p, level⟩ ∈ (queueFlash s p level).flash.reads) ∧ (∀ q ∈ s.flash.reads, q ∈ (queueFlash s p level).flash.reads) ∧
        (∀ q ∈ (queueFlash s p level).flash.reads, q ∈ s.flash.reads ∨ (q.page = p ∧ q.level = level)) ∧
        queueFlash s p level = { s with flash := { s.flash with reads := (queueFlash s p level).flash.reads } } := by
      unfold queueFlash
      split
      · next there => exact ⟨by simpa using there, fun _ mem => mem, fun _ mem => .inl mem, rfl⟩
      · refine ⟨List.mem_append_right _ (List.mem_singleton_self _), fun _ mem => List.mem_append_left _ mem, fun q mem => ?_, rfl⟩
        rcases List.mem_append.mp mem with early | last
        · exact .inl early
        · obtain rfl := List.mem_singleton.mp last
          exact .inr ⟨rfl, rfl⟩
    obtain ⟨asked, kept, only, frame⟩ := one
    obtain ⟨asked', kept', only', frame'⟩ := ih (queueFlash s p level) ht
    refine ⟨fun p' mem => ?_, fun q mem => kept' q (kept q mem), fun q mem => ?_, ?_⟩
    · rcases List.mem_cons.mp mem with rfl | later
      · exact kept' _ asked
      · exact asked' p' later
    · rcases only' q mem with early | ⟨page, level_⟩
      · rcases only q early with old | ⟨rfl, level_⟩
        · exact .inl old
        · exact .inr ⟨List.mem_cons_self, level_⟩
      · exact .inr ⟨List.mem_cons_of_mem _ page, level_⟩
    · rw [frame', frame]

/-- The class of a run does not change while its reads are queued. -/
theorem foldl_queueFlash_runClass (l : List Nat) (r : Run) (s : State) :
    l.foldl (fun s p => queueFlash s p (runClass s r)) s = l.foldl (fun t p => queueFlash t p (runClass s r)) s := by
  have kept (s : State) (p level : Nat) : runClass (queueFlash s p level) r = runClass s r := by
    unfold queueFlash
    split
    · rfl
    · rfl
  induction l generalizing s with
  | nil => rfl
  | cons p l ih => rw [List.foldl_cons, List.foldl_cons, ih, kept]

theorem issueTile_spec {f : TileRef} (named : (s.sched r.sched).refs[r.issued]? = some f)
    (ht : issueTile s k r = t) :
    t.runs = Tab.adjust s.runs k (fun x => { x with issued := x.issued + 1 }) ∧
      (∀ p ∈ refPages s (s.sched r.sched) f, ⟨p, runClass s r⟩ ∈ t.flash.reads) ∧
      (∀ q ∈ t.flash.reads, q ∈ s.flash.reads ∨ (q.page ∈ refPages s (s.sched r.sched) f ∧ q.level = runClass s r)) ∧
      t = { s with runs := t.runs, flash := { s.flash with reads := t.flash.reads } } := by
  unfold issueTile at ht
  extract_lets d s₁ at ht
  rw [named] at ht
  dsimp only at ht
  rw [foldl_queueFlash_runClass] at ht
  obtain ⟨asked, -, only, frame⟩ := reads_foldl_queueFlash _ _ _ ht
  refine ⟨?_, asked, only, ?_⟩
  · rw [frame]
    rfl
  · rw [frame]
    rfl

/-! ## References that land (R206) -/

theorem landEffect_spec {ref : Nat} {f : TileRef} {bytes b : List Byte} (held : Tab.get? s.runs k = some r)
    (named : (s.sched r.sched).refs[ref]? = some f) (read_ : landedBytes s (s.sched r.sched) f bytes = some b)
    (ht : landEffect s k r ref bytes = t) :
    ∃ w, Tab.get? t.runs k = some { r with landed := r.landed ++ [ref], worked := w } ∧
      (∀ o, runBlock s k f.slot = some o → (∀ i, i < 65536 → Mem.read t.cache.t1 (o + i) = b.getD i 0) ∧
        ∀ a, a < o ∨ o + 65536 ≤ a → Mem.read t.cache.t1 a = Mem.read s.cache.t1 a) ∧
      r.worked ≤ w ∧ (∀ j, r.worked ≤ j → j < w → j ∈ r.landed ++ [ref]) ∧
      (∀ p, stepOf s r = some p → w < p.tileFirst + p.tileCount → w ∉ r.landed ++ [ref]) ∧
      t = { s with runs := t.runs, cache := { s.cache with t1 := t.cache.t1 } } := by
  unfold landEffect at ht
  extract_lets d at ht
  rw [named] at ht
  dsimp only at ht
  rw [read_] at ht
  dsimp only at ht
  generalize slot : landSlot _ k f.slot b = s₁ at ht
  have landed : s₁ = { s with
        runs := Tab.adjust s.runs k fun r => { r with landed := r.landed ++ [ref] }, cache := { s.cache with t1 := s₁.cache.t1 } } ∧
      ∀ o, runBlock s k f.slot = some o → s₁.cache.t1 = Mem.fill s.cache.t1 o 65536 b := by
    rw [← slot]
    unfold landSlot
    split
    · next o block =>
      refine ⟨rfl, fun o' block' => ?_⟩
      obtain rfl := Option.some.inj (block.symm.trans block')
      rfl
    · next none_ => exact ⟨rfl, fun o block => by rw [show runBlock s k f.slot = none from none_] at block; cases block⟩
  obtain ⟨frame, filled⟩ := landed
  have mine : Tab.get? s₁.runs k = some { r with landed := r.landed ++ [ref] } := by
    rw [frame]
    exact (Tab.get?_adjust_self ..).trans (congrArg (Option.map _) held)
  obtain ⟨works, w, mine_, grows, worked, stops⟩ := advance_works mine ht
  refine ⟨w, mine_, fun o block => ?_, grows, worked, fun p step => stops p ?_, ?_⟩
  · rw [works.same (·.cache.t1), filled o block]
    exact ⟨fun i small => Mem.read_fill_in _ _ _ _ small, fun a out => Mem.read_fill_out _ _ _ _ out⟩
  · rw [frame]
    exact step
  · have later : t = { s₁ with runs := t.runs } := works
    rw [later, frame]

/-! ## Steps that end (R212, R235) -/

theorem changes_openPeer (s : State) (d : Nat) (w : PeerWaiter) : Changes [.net] s (openPeer s d w) := by
  unfold openPeer
  exact ((Changes.refl _ s).modNet _).modLink _ _

theorem changes_sendPartials (s : State) (k : Nat) (r : Run) (p : StepRec) : Changes [.net] s (sendPartials s k r p) := by
  unfold sendPartials
  exact .foldl (fun s d => .foldl (fun s y => .foldl (fun s z => (changes_openPeer s d _).trans (changes_sendPacket ..)) _ s) _ s) _ s

theorem beginStep_spec (held : Tab.get? s.runs k = some r) (ht : beginStep s k = t) :
    Changes [.cores, .net] s t ∧ Changes [.net] (loadProgram s k) t ∧ ∀ m, stepOf s r = some m → m.op ≠ 3 → t.net = s.net := by
  unfold beginStep at ht
  extract_lets s₁ at ht
  have loads : Changes [.cores] s s₁ := (loadProgram_spec held rfl).1
  have mine : Tab.get? s₁.runs k = some r := (loads.same (Tab.get? ·.runs k)).trans held
  have step : stepOf s₁ r = stepOf s r := loads.same (stepOf · r)
  rw [mine, Option.bind_some, step] at ht
  have sends : Changes [.net] s₁ t := by
    subst ht
    split
    · exact .ite (changes_sendPartials ..) (.refl _ _)
    · exact .refl _ _
  refine ⟨loads.comp sends, sends, fun m named other => ?_⟩
  rw [named] at ht
  dsimp only [Option.map_some] at ht
  rw [if_neg other] at ht
  rw [← ht]
  exact loads.same (·.net)

theorem endStep_spec (held : Tab.get? s.runs k = some r) (ht : endStep s k = t) :
    Changes [.runs, .cores, .net] s t ∧ (∃ w, Tab.get? t.runs k = some { r with step := r.step + 1, worked := w }) ∧
      (∀ n, ∃ b, t.core n = { s.core n with program := b } ∧ ((s.core n).run ≠ some k → b = (s.core n).program)) ∧
      ∀ m, (s.sched r.sched).steps[r.step + 1]? = some m → m.op ≠ 3 → t.net = s.net := by
  unfold endStep at ht
  generalize next : s.modRun k (fun r => { r with step := r.step + 1 }) = s₁ at ht
  have stepped : Changes [.runs] s s₁ := by
    rw [← next]
    rfl
  have mine : Tab.get? s₁.runs k = some { r with step := r.step + 1 } := by
    rw [← next]
    exact (Tab.get?_adjust_self ..).trans (congrArg (Option.map _) held)
  obtain ⟨begins, sends, quiet⟩ := beginStep_spec mine rfl
  have runs₁ : (beginStep s₁ k).runs = s₁.runs := begins.same (·.runs)
  obtain ⟨works, w, mine_, -⟩ := advance_works ((congrArg (Tab.get? · k) runs₁).trans mine) ht
  refine ⟨(stepped.comp begins).andThen works, ⟨w, mine_⟩, fun n => ?_, fun m named other => ?_⟩
  · have kept : t.core n = (loadProgram s₁ k).core n := (sends.comp (n := [.runs, .net]) works).same (State.core · n)
    have first : s₁.core n = s.core n := stepped.same (State.core · n)
    rw [kept, (loadProgram_spec mine rfl).2, first]
    split
    · next own => exact ⟨_, rfl, fun other => absurd own other⟩
    · exact ⟨_, rfl, fun _ => rfl⟩
  · have step : stepOf s₁ { r with step := r.step + 1 } = some m := (stepped.same (stepOf · { r with step := r.step + 1 })).trans named
    rw [works.same (·.net), quiet m step other, stepped.same (·.net)]

/-! ## What the units leave in the local stores (R197 to R200, R203) -/

theorem changes_localWrite (s : State) (c o : Nat) (b : List Byte) : Changes [.localStore] s (localWrite s c o b) := rfl

theorem changes_performOp (s : State) (o : UnitOp) : Changes [.localStore] s (performOp s o) := by
  cases o with
  | dot => exact changes_localWrite ..
  | convert => exact (changes_localWrite ..).trans (changes_localWrite ..)
  | row => exact changes_localWrite ..
  | slots => exact changes_localWrite ..
  | function => exact changes_localWrite ..

theorem changes_actWrite (s : State) (k o : Nat) (b : List Byte) : Changes [.cache] s (actWrite s k o b) := by
  unfold actWrite
  refine .foldl (fun s x => ?_) _ s
  change Changes [.cache] s (actPut s k (o + x.2) x.1)
  unfold actPut
  split
  · exact (Changes.refl _ s).modCache _
  · exact .refl _ s

theorem changes_reduceTiles (s : State) (k : Nat) (r : Run) (p : StepRec) : Changes [.cache] s (reduceTiles s k r p) := by
  unfold reduceTiles
  exact .foldl (fun s y => changes_actWrite s k _ _) _ s

/-- Below the select buffers, a core reads what was written into its local store. -/
theorem localRead_localWrite {c o : Nat} {b : List Byte} (wf : Mem.wf s.localStore = true) (low : o + b.length ≤ 0x30000)
    (stored : t.localStore = (localWrite s c o b).localStore) (same : (t.core c).forgot = (s.core c).forgot) :
    localRead t c o b.length = b := by
  unfold localRead
  refine List.ext_getElem (by simp) fun i _ small => ?_
  have rest : localRest t c (o + i) = localRest s c (o + i) := by
    unfold localRest
    rw [if_pos (by omega), if_pos (by omega), same]
  have byte : Mem.read t.localStore (localKey c (o + i)) = b[i] ^^^ localRest s c (o + i) := by
    rw [stored]
    unfold localWrite
    dsimp only
    rw [show localKey c (o + i) = localKey c o + i by unfold localKey; omega, Mem.read_writeN wf _ _ _ (by simpa using small)]
    simp
  rw [List.getElem_map, List.getElem_range]
  unfold localByte
  rw [if_pos (by omega)]
  dsimp only
  rw [byte, rest]
  exact (BitVec.xor_assoc ..).trans ((congrArg _ BitVec.xor_self).trans BitVec.xor_zero)

/-! ## Texts that are tokenised (R164) -/

theorem tokeniseEffect_valid (held : Tab.get? s.runs k = some r) (kind : (s.sched r.sched).header.kind = 2)
    (alive : r.seqs ≠ [] ∨ r.slice ≠ none) (valid : ∀ x ∈ r.seqs, utf8Ok (seqText s x) = true) : tokeniseEffect s k r = endStep s k := by
  have noneBad : (r.seqs.filter fun x => !utf8Ok (seqText s x)) = [] :=
    List.filter_eq_nil_iff.mpr fun x mem => by rw [valid x mem]; exact Bool.false_ne_true
  have noneClipped : (r.seqs.filter fun x => (s.sched r.sched).header.kind == 1 && (embedTokens (s.sched r.sched) (seqText s x)).2) = [] :=
    List.filter_eq_nil_iff.mpr fun x mem => by rw [kind]; exact Bool.false_ne_true
  have going : (r.seqs.isEmpty && r.slice.isNone) = false := by
    rcases alive with some_ | coordinated
    · rw [List.isEmpty_eq_false_iff.mpr some_]
      rfl
    · rw [Option.isNone_eq_false_iff.mpr (Option.isSome_iff_ne_none.mpr coordinated), Bool.and_false]
  unfold tokeniseEffect
  extract_lets d bad clipped s₁ s₂
  have first : s₁ = s := by
    change List.foldl _ s (List.map _ (r.seqs.filter fun x => (s.sched r.sched).header.kind == 1 && (embedTokens (s.sched r.sched) (seqText s x)).2)) = s
    rw [noneClipped]
    rfl
  have second : s₂ = s := by
    have empty : bad = [] := congrArg (List.map (·.cmd)) noneBad
    change List.foldl _ s₁ bad.eraseDups = s
    rw [empty, first]
    rfl
  rw [second, held]
  dsimp only
  rw [going]
  rfl

theorem stepReady_of {p : StepRec} {op : Nat} (begun : r.begun = true) (step : stepOf s r = some p)
    (done : p.tileFirst + p.tileCount ≤ r.worked) (same : p.op = op) : stepReady s r op = true := by
  unfold stepReady
  rw [begun, step]
  simp [same, done]

theorem exec_layer {p : StepRec} {ops : List UnitOp} (up : live s = true) (awake_ : awake s = true) (held : Tab.get? s.runs k = some r)
    (begun : r.begun = true) (step : stepOf s r = some p) (done : p.tileFirst + p.tileCount ≤ r.worked) (op : p.op = 2)
    (fit : ops.all (opFits s k (s.sched r.sched).header p) = true) :
    exec (.layer ⟨k, ops, none⟩) s = .next (endStep (ops.foldl performOp s) k) := by
  refine Eq.trans ?_ (occurs_of_true (show (live s && awake s && stepReady s r 2 && ops.all (opFits s k (s.sched r.sched).header p)) = true by
    rw [up, awake_, stepReady_of begun step done op, fit]; rfl) _ s)
  change execLayer ⟨k, ops, none⟩ s = _
  unfold execLayer
  dsimp only
  rw [held]
  dsimp only
  rw [step]

/-! ## O41 -/

/-- Settles O41: the launch reserves cores, blocks and streams and works on what has landed; a reference that issues or lands, and a step that
ends, change the run's entry and what their rule names. -/
theorem runsLaunchAndStep : Obligations.RunsLaunchAndStep := by
  unfold Obligations.RunsLaunchAndStep
  refine ⟨fun k qs grants r s up awake_ listed held waits some_ mine alone turn room c which => ?_, fun k r s up awake_ held begun =>
    ⟨fun f may named => ?_, fun ref f bytes b early fresh named read_ whole => ?_, fun p c step done which => ?_,
      fun p core fa fb n a b sa sb out step done op wf low fits => ?_⟩⟩
  · have row : exec c s = .next (launchRun s k r qs grants) := by
      rcases which with rfl | ⟨rfl, due⟩
      · have queued : r.seqs.isEmpty = false := List.isEmpty_eq_false_iff.mpr some_
        refine Eq.trans ?_ (occurs_of_true (show (live s && awake s && !r.launched && !r.seqs.isEmpty && runTurn s k r &&
          canReserve s (s.sched r.sched).header qs && okGrants grants) = true by rw [up, awake_, waits, queued, turn, room, listed]; rfl) _ s)
        change execRunHoldExpiry k qs grants s = _
        unfold execRunHoldExpiry
        rw [held]
      · refine Eq.trans ?_ (occurs_of_true (show (live s && awake s && runDue s r && runTurn s k r &&
          canReserve s (s.sched r.sched).header qs && okGrants grants) = true by rw [up, awake_, due, turn, room, listed]; rfl) _ s)
        change execRunLaunch k qs grants s = _
        unfold execRunLaunch
        rw [held]
    obtain ⟨frame, ⟨w, mine_⟩, cores, streams, blocks⟩ := launchRun_spec held mine alone rfl (qs := qs) (grants := grants)
    refine ⟨_, _, row, mine_, rfl, rfl, rfl, rfl, rfl, rfl, fun q mem j small => ?_, fun n out other => ?_,
      fun q mem n idle => ⟨streams q mem n idle, ?_⟩, blocks, frame⟩
    · rw [cores, if_pos (by rwa [show (q * 64 + j) / 64 = q by omega])]
      rfl
    · rw [cores, if_neg out, if_neg other]
    · exact List.mem_filterMap.mpr ⟨q, mem, by rw [idle]; rfl⟩
  · have row : exec (.tileIssue k) s = .next (issueTile s k r) := by
      refine Eq.trans ?_ (occurs_of_true (show (live s && awake s && mayIssue s r) = true by rw [up, awake_, may]; rfl) _ s)
      change execTileIssue k s = _
      unfold execTileIssue
      rw [held]
    exact ⟨_, row, issueTile_spec named rfl⟩
  · have row : exec (.tileLanded k ⟨ref, bytes⟩) s = .next (landEffect s k r ref bytes) := by
      refine Eq.trans ?_ (occurs_of_true (show (live s && awake s && r.begun && decide (ref < r.issued) && !r.landed.contains ref &&
        refRead s r ref) = true by rw [up, awake_, begun, decide_eq_true early, fresh, read_]; rfl) _ s)
      change execTileLanded k ⟨ref, bytes⟩ s = _
      unfold execTileLanded
      rw [held]
    obtain ⟨w, mine, filled, grows, worked, stops, frame⟩ := landEffect_spec held named whole rfl
    exact ⟨_, _, row, mine, rfl, fun o _ block => filled o block, grows, worked, fun p step _ more => stops p step more, rfl, frame⟩
  · have live_ (op : Nat) (same : p.op = op) : (live s && awake s && stepReady s r op) = true := by
      rw [up, awake_, stepReady_of begun step done same]
      rfl
    obtain ⟨s₁, before, row, store, noStore, sums, noSums⟩ : ∃ s₁, Changes [.localStore, .cache] s s₁ ∧ exec c s = .next (endStep s₁ k) ∧
        (∀ ops, c = .layer ⟨k, ops, none⟩ → s₁.localStore = (ops.foldl performOp s).localStore) ∧ (p.op ≠ 2 → s₁.localStore = s.localStore) ∧
        (p.op = 3 → s₁.cache = (reduceTiles s k r p).cache) ∧ (p.op ≠ 3 → s₁.cache = s.cache) := by
      rcases which with ⟨ops, rfl, op, fit⟩ | ⟨rfl, op⟩ | ⟨rfl, op, kind, going, valid⟩
      · have row := exec_layer up awake_ held begun step done op fit
        have units : Changes [.localStore] s (ops.foldl performOp s) := .foldl changes_performOp ops s
        refine ⟨_, units.mono (by decide), row, fun ops' eq => ?_, fun other => absurd op other, fun is => absurd (is.symm.trans op) (by decide),
          fun _ => units.same State.cache⟩
        obtain rfl : ops = ops' := by
          injection eq with eq
          injection eq
        rfl
      · have row : exec (.peerReduce k) s = .next (endStep (reduceTiles s k r p) k) := by
          refine Eq.trans ?_ (occurs_of_true (live_ 3 op) _ s)
          change execPeerReduce k s = _
          unfold execPeerReduce
          rw [held]
          dsimp only
          rw [step]
        have reduced := changes_reduceTiles s k r p
        exact ⟨_, reduced.mono (by decide), row, fun _ eq => by injection eq, fun _ => reduced.same State.localStore, fun _ => rfl,
          fun other => absurd op other⟩
      · have row : exec (.tokenise k) s = .next (endStep s k) := by
          rw [← tokeniseEffect_valid held kind going valid]
          refine Eq.trans ?_ (occurs_of_true (live_ 1 op) _ s)
          change execTokenise k s = _
          unfold execTokenise
          rw [held]
        exact ⟨s, .refl _ s, row, fun _ eq => by injection eq, fun _ => rfl, fun is => absurd (is.symm.trans op) (by decide), fun _ => rfl⟩
    obtain ⟨frame, ⟨w, mine⟩, cores, quiet⟩ := endStep_spec ((before.same (Tab.get? ·.runs k)).trans held) rfl (t := endStep s₁ k)
    have local_ : (endStep s₁ k).localStore = s₁.localStore := frame.same State.localStore
    have cache_ : (endStep s₁ k).cache = s₁.cache := frame.same State.cache
    refine ⟨_, _, row, mine, rfl, rfl, rfl, fun ops eq => local_.trans (store ops eq), fun other => local_.trans (noStore other),
      fun is => cache_.trans (sums is), fun other => cache_.trans (noSums other), fun n other => ?_, fun m named m' => ?_,
      before.comp (n := [.runs, .cores, .localStore, .cache, .net]) frame⟩
    · have core_ : s₁.core n = s.core n := before.same (State.core · n)
      obtain ⟨b, at_, kept⟩ := cores n
      rw [at_, kept (by rwa [core_]), core_]
    · rw [quiet m (by rw [before.same (State.sched · r.sched)]; exact named) m', before.same (·.net)]
  · have units : Changes [.localStore] s (performOp s (.dot core fa fb n a b sa sb out)) := changes_performOp ..
    refine ⟨_, exec_layer up awake_ held begun step done op (by rw [List.all_cons, fits]; rfl), ?_⟩
    obtain ⟨frame, -, cores, -⟩ := endStep_spec ((units.same (Tab.get? ·.runs k)).trans held) rfl
      (t := endStep (performOp s (.dot core fa fb n a b sa sb out)) k)
    obtain ⟨program, at_, -⟩ := cores core
    exact localRead_localWrite (b := leBytes 4 _) wf low (frame.same State.localStore)
      ((congrArg Core.forgot at_).trans (units.same fun u => (u.core core).forgot))

end Sys2Proof.Machine
end

section
/-! SUPPORT. The posting of a completion: what the ports have sent stays sent, and the place in the completion queue is the pair's own (R469,
R482, R495). -/

namespace Sys2Proof.Machine

open Sys2Proof

-- Proofs are checked one at a time: each that waits for its turn would hold a thread's stack.
set_option Elab.async false

variable {s t u : State} {p : PortId} {q n : Nat} {x : Cmd} {k : Completion}

/-! ## Work at the ports that leaves the queues alone -/

/-- From s to t neither a queue pair nor a command changed, nor whether a port may send. -/
structure Apart (s t : State) : Prop where
  cmds : t.cmds = s.cmds
  pairs : ∀ p, (t.port p).pairs = (s.port p).pairs
  busMaster : ∀ p, (t.port p).busMaster = (s.port p).busMaster
  d3hot : ∀ p, (t.port p).d3hot = (s.port p).d3hot

namespace Apart

theorem refl (s : State) : Apart s s := ⟨rfl, fun _ => rfl, fun _ => rfl, fun _ => rfl⟩

theorem trans (h : Apart s t) (k : Apart t u) : Apart s u :=
  ⟨k.cmds.trans h.cmds, fun p => (k.pairs p).trans (h.pairs p), fun p => (k.busMaster p).trans (h.busMaster p),
    fun p => (k.d3hot p).trans (h.d3hot p)⟩

theorem ite {c : Prop} [Decidable c] (h : Apart s t) (k : Apart s u) : Apart s (if c then t else u) := by
  split
  · exact h
  · exact k

theorem foldl {α : Type} {g : State → α → State} (h : ∀ s a, Apart s (g s a)) (as : List α) (s : State) : Apart s (as.foldl g s) :=
  List.foldlRecOn as g (motive := Apart s) (refl s) fun t ht a _ => ht.trans (h t a)

theorem modPort (s : State) (p : PortId) (f : Port → Port) (pairs : ∀ x, (f x).pairs = x.pairs := by intro _; rfl)
    (busMaster : ∀ x, (f x).busMaster = x.busMaster := by intro _; rfl) (d3hot : ∀ x, (f x).d3hot = x.d3hot := by intro _; rfl) :
    Apart s (s.modPort p f) := by
  have same {α : Type} (g : Port → α) (kept : ∀ x, g (f x) = g x) (p' : PortId) : g ((s.modPort p f).port p') = g (s.port p') := by
    by_cases eq : p' = p
    · rw [eq, State.port_modPort, kept]
    · rw [State.port_modPort_ne s eq]
  exact ⟨State.modPort_cmds s p f, same _ pairs, same _ busMaster, same _ d3hot⟩

theorem emit (s : State) (p : PortId) (o : PortOut) : Apart s (Machine.emit s p o) :=
  modPort s p _ (fun x => by split <;> rfl) (fun x => by split <;> rfl) (fun x => by split <;> rfl)

theorem reports (h : Reports s t) : Apart s t :=
  ⟨h.changes.same State.cmds, fun p => by rw [h.port p]; rfl, fun p => by rw [h.port p]; rfl, fun p => by rw [h.port p]; rfl⟩

theorem pair (h : Apart s t) (p : PortId) (q : Nat) : t.pair p q = s.pair p q := by
  unfold State.pair
  rw [h.pairs]

theorem cmd? (h : Apart s t) (n : Nat) : t.cmd? n = s.cmd? n := congrArg (Tab.get? · n) h.cmds

end Apart

theorem apart_logStatus (s : State) (c : Cmd) (k : Completion) (z : Cause) : Apart s (logStatus s c k z).1 := by
  have ends (e : LogEntry) : Apart s (logEnd s e) := by
    unfold logEnd
    split
    · exact .reports (.write ..)
    · exact .reports (.of_logs s _)
  unfold logStatus
  split
  · dsimp only
    split
    · exact ends _
    · exact ends _
    · exact ends _
  · exact .refl s

theorem apart_countLookup (s : State) (p : PortId) (r : Lookup) : Apart s (countLookup s p r) :=
  .ite (.refl s) (.modPort s p _)

theorem apart_hotCount (s : State) (p : PortId) (a : Nat) : Apart s (hotCount s p a) := by
  unfold hotCount
  extract_lets page y c m hit s₁
  refine .ite (.modPort s p _) ?_
  have counted : Apart s s₁ := .modPort s p _
  exact .ite (counted.trans (.trans (.modPort s₁ p _) (.reports (.raise _ p _)))) counted

theorem apart_emitReads (s : State) (p : PortId) (m a len : Nat) : Apart s (emitReads s p m a len) :=
  .foldl (fun s _ => .emit s p _) _ s

theorem apart_emitWrites (s : State) (p : PortId) (w : Nat → List Byte → Bool → PortOut) (a : Nat) (b : List Byte) :
    Apart s (emitWrites s p w a b) := .foldl (fun s _ => .emit s p _) _ s

theorem apart_hotCountAll (s : State) (p : PortId) (write : Bool) (a m : Nat) : Apart s (hotCountAll s p write a m) :=
  .foldl (fun s _ => apart_hotCount s p _) _ s

theorem apart_sendAlleyHost (s : State) (k : Nat) : Apart s (sendAlleyHost s k) := by
  unfold sendAlleyHost
  split
  · exact .refl s
  · next y _ =>
    extract_lets m s₁ s₂
    have tagged : Apart s s₁ := .modPort s y.port _
    have sent : Apart s s₂ := ⟨tagged.cmds, tagged.pairs, tagged.busMaster, tagged.d3hot⟩
    exact .ite (sent.trans ((apart_hotCountAll ..).trans (apart_emitWrites ..))) (sent.trans ((apart_hotCountAll ..).trans (apart_emitReads ..)))

/-- A lookup that misses asks for the translation: who asked waits for it (R371). -/
theorem askTranslation_waits (s : State) (p : PortId) (a m : Nat) :
    Apart s (askTranslation s p a m) ∧ accessWaits (askTranslation s p a m) p m = true := by
  have one (f : Xlt → Xlt) : ((s.modXlt p f).port p).xlt = f (s.port p).xlt := by
    unfold State.modXlt
    rw [State.port_modPort]
  unfold askTranslation
  extract_lets y join
  split
  · next asked =>
    refine ⟨.modPort s p _, ?_⟩
    obtain ⟨r, listed, mine⟩ := List.any_eq_true.mp asked
    have waits : ((y.reqs.map join).any fun r => r.waiters.contains m) = true :=
      List.any_eq_true.mpr ⟨join r, List.mem_map_of_mem listed, by simp only [join, mine, if_true]; simp⟩
    unfold accessWaits
    rw [one]
    dsimp only
    rw [waits]
    rfl
  · split
    · refine ⟨.modPort s p _, ?_⟩
      unfold accessWaits
      rw [one]
      simp
    · refine ⟨.trans (.modPort s p _) (.emit _ p _), ?_⟩
      have kept (s : State) (o : PortOut) : ((emit s p o).port p).xlt = (s.port p).xlt := by
        unfold emit
        rw [State.port_modPort]
        split <;> rfl
      unfold accessWaits
      rw [kept, one]
      simp

/-! ## What goes on beside a queue -/

/-- Where a queue stands: what a completion entry names, and what is counted of it. -/
structure Place where
  cqTail : Nat
  phase : Bool
  outstanding : Nat
  completed : BitVec 32
  sqHead : Nat
  cqEntries : Nat

/-- Where the queue stands. -/
def QueuePair.place (y : QueuePair) : Place := ⟨y.cqTail, y.phase, y.outstanding, y.completed, y.sqHead, y.cqEntries⟩

/-- From s to t the port sent no less, a command that is gone stays gone, and a queue that is not being deleted stands where it stood. -/
structure Beside (p : PortId) (q n : Nat) (s t : State) : Prop where
  sent : ∀ o ∈ (s.port p).sent, o ∈ (t.port p).sent
  gone : s.cmd? n = none → t.cmd? n = none
  place : (s.pair p q).state ≠ .deleting → (t.pair p q).state ≠ .deleting ∧ (t.pair p q).place = (s.pair p q).place

namespace Beside

theorem refl (s : State) : Beside p q n s s := ⟨fun _ mem => mem, fun gone => gone, fun kept => ⟨kept, rfl⟩⟩

theorem trans (h : Beside p q n s t) (k : Beside p q n t u) : Beside p q n s u := by
  refine ⟨fun o mem => k.sent o (h.sent o mem), fun gone => k.gone (h.gone gone), fun kept => ?_⟩
  obtain ⟨kept', same⟩ := h.place kept
  obtain ⟨kept'', same'⟩ := k.place kept'
  exact ⟨kept'', same'.trans same⟩

theorem ite {c : Prop} [Decidable c] (h : Beside p q n s t) (k : Beside p q n s u) : Beside p q n s (if c then t else u) := by
  split
  · exact h
  · exact k

theorem foldl {α : Type} {g : State → α → State} (h : ∀ s a, Beside p q n s (g s a)) (as : List α) (s : State) :
    Beside p q n s (as.foldl g s) :=
  List.foldlRecOn as g (motive := Beside p q n s) (refl s) fun t ht a _ => ht.trans (h t a)

theorem of_changes {l : List Part} (h : Changes l s t) (cmds : ∀ s t, (State.take l s t).cmds = s.cmds := by intro _ _; rfl)
    (ports : ∀ s t, (State.take l s t).port p = s.port p := by intro _ _; rfl) : Beside p q n s t := by
  have port : t.port p = s.port p := h.same (State.port · p) ports
  have pair : t.pair p q = s.pair p q := by
    unfold State.pair
    rw [port]
  refine ⟨fun o mem => by rwa [port], fun gone => ?_, fun kept => ?_⟩
  · rw [State.cmd?, h.same State.cmds cmds]
    exact gone
  · rw [pair]
    exact ⟨kept, rfl⟩

theorem modCmd (s : State) (m : Nat) (f : Cmd → Cmd) : Beside p q n s (s.modCmd m f) := by
  refine ⟨fun _ mem => mem, fun gone => ?_, fun kept => ⟨kept, rfl⟩⟩
  refine (Tab.get?_adjust ..).trans ?_
  split
  · next same => rw [← same, show Tab.get? s.cmds n = none from gone]; rfl
  · exact gone

theorem modPort (s : State) (p' : PortId) (f : Port → Port) (sent : ∀ x, ∀ o ∈ x.sent, o ∈ (f x).sent := by intro _ _ mem; exact mem)
    (pairs : ∀ x, (f x).pairs = x.pairs := by intro _; rfl) : Beside p q n s (s.modPort p' f) := by
  by_cases eq : p = p'
  · subst eq
    refine ⟨fun o mem => by rw [State.port_modPort]; exact sent _ o mem, fun gone => ?_, fun kept => ?_⟩
    · rw [State.cmd?, State.modPort_cmds]
      exact gone
    · have pair : (s.modPort p f).pair p q = s.pair p q := by
        unfold State.pair
        rw [State.port_modPort, pairs]
      rw [pair]
      exact ⟨kept, rfl⟩
  · have port : (s.modPort p' f).port p = s.port p := State.port_modPort_ne s eq f
    refine ⟨fun o mem => by rwa [port], fun gone => ?_, fun kept => ?_⟩
    · rw [State.cmd?, State.modPort_cmds]
      exact gone
    · unfold State.pair at *
      rw [port]
      exact ⟨kept, rfl⟩

theorem emit (s : State) (p' : PortId) (o : PortOut) : Beside p q n s (Machine.emit s p' o) := by
  refine modPort s p' _ (fun x o mem => ?_) (fun x => ?_)
  · split
    · exact mem
    · exact List.mem_append_left _ mem
  · split
    · rfl
    · rfl

theorem signal (s : State) (p' : PortId) (v : Nat) : Beside p q n s (Machine.signal s p' v) :=
  .ite (.refl s) (.ite (modPort s p' _) (emit s p' _))

theorem raise (s : State) (p' : PortId) (b : Nat) : Beside p q n s (raiseEvent s p' b) := by
  unfold raiseEvent
  extract_lets y s₁
  have set_ : Beside p q n s s₁ := modPort s p' _
  exact .ite (.refl s) (.ite (set_.trans (modPort s₁ p' _)) (set_.trans (signal s₁ p' _)))

theorem writeLog (s : State) (e : LogEntry) (ps : List PortId) : Beside p q n s (Machine.writeLog s e ps) := by
  refine .trans ?_ (.foldl (fun s p' => raise s p' _) ps _)
  rw [recordLog_eq]
  exact of_changes (l := [.logs]) rfl

theorem logStatus (s : State) (c : Cmd) (k : Completion) (z : Cause) : Beside p q n s (Machine.logStatus s c k z).1 := by
  have ends (e : LogEntry) : Beside p q n s (logEnd s e) := by
    unfold logEnd
    split
    · exact writeLog ..
    · exact of_changes ((Changes.refl [.logs] s).modLogs _)
  unfold Machine.logStatus
  split
  · dsimp only
    split
    · exact ends _
    · exact ends _
    · exact ends _
  · exact .refl s

/-- Work on a queue that does not move it, nor begin or end its deletion. -/
theorem modPair (s : State) (p' : PortId) (q' : Nat) (f : QueuePair → QueuePair) (place : (f (s.pair p' q')).place = (s.pair p' q').place)
    (state : (s.pair p' q').state ≠ .deleting → (f (s.pair p' q')).state ≠ .deleting) : Beside p q n s (s.modPair p' q' f) := by
  refine ⟨fun o mem => ?_, fun gone => ?_, fun kept => ?_⟩
  · have same : ((s.modPair p' q' f).port p).sent = (s.port p).sent := by
      by_cases eq : p = p'
      · subst eq
        rw [State.port_modPair]
      · rw [State.modPair, State.port_modPort_ne s eq]
    rwa [same]
  · rw [State.cmd?, State.modPair, State.modPort_cmds]
    exact gone
  · by_cases eq : p = p' ∧ q = q'
    · obtain ⟨rfl, rfl⟩ := eq
      rw [State.pair_modPair]
      exact ⟨state kept, place⟩
    · have other : (s.modPair p' q' f).pair p q = s.pair p q := by
        by_cases same : p = p'
        · subst same
          rw [State.pair, State.port_modPair]
          exact (Tab.getD_modify ..).trans (if_neg fun h => eq ⟨rfl, h⟩)
        · rw [State.pair, State.modPair, State.port_modPort_ne s same]
          rfl
      rw [other]
      exact ⟨kept, rfl⟩

theorem freeze (s : State) (p' : PortId) (q' st tag : Nat) : Beside p q n s (freezeQueue s p' q' st tag) :=
  .ite (.trans (modPair s p' q' _ rfl fun _ => by intro h; cases h) (raise _ p' _)) (.refl s)

end Beside

theorem beside_mailboxRespond (s : State) (p' : PortId) (m : Nat) (x : Cmd) (k : Completion) (out : List Byte) :
    Beside p q n s (mailboxRespond s p' m x k out) :=
  .ite (.trans (.modPort s p' _) (.signal _ p' _)) (.modPort s p' _)

theorem beside_gone (s : State) (m : Nat) (x : Cmd) : Beside p q n s (releasePins { s with cmds := Tab.erase s.cmds m } x) := by
  refine .trans (t := { s with cmds := Tab.erase s.cmds m }) ⟨fun _ mem => mem, fun gone => ?_, fun kept => ⟨kept, rfl⟩⟩
    (.of_changes (changes_releasePins ..))
  change Tab.get? (Tab.erase s.cmds m) n = none
  by_cases eq : n = m
  · subst eq
    rw [Tab.erase_of_absent gone]
    exact gone
  · rw [Tab.get?_erase_ne _ eq]
    exact gone

theorem beside_deliver (s : State) (m : Nat) (x : Cmd) (k : Completion) : Beside p q n s (deliver s m x k []) := by
  unfold deliver
  split
  · extract_lets t
    have gone : Beside p q n s t := beside_gone ..
    split
    · exact .ite (gone.trans (.modPort t _ _)) gone
    · exact gone
  · split
    · extract_lets t
      have frozen : Beside p q n s t := .ite (.freeze ..) (.refl s)
      exact frozen.trans (.modCmd ..)
    · split
      · exact .modCmd ..
      · extract_lets t
        have gone : Beside p q n s t := beside_gone ..
        split
        · rw [devWrite_nil]
          exact gone.trans (beside_mailboxRespond ..)
        · exact gone.trans (beside_mailboxRespond ..)
    · exact (beside_gone ..).trans (.of_changes (changes_sidebandRespond ..))
    · exact (beside_gone ..).trans (.of_changes (changes_sendData ..))
    · exact beside_gone ..
    · exact .ite ((beside_gone ..).trans (.of_changes (changes_sendData ..))) ((beside_gone ..).trans (.of_changes (changes_sendData ..)))

theorem beside_succeed (s : State) (m : Nat) (k : Completion) : Beside p q n s (succeed s m k) := by
  unfold succeed decide_
  split
  · exact .refl s
  · next x _ =>
    split
    · exact .refl s
    · split
      · exact .modCmd ..
      · extract_lets k₁ len k₂ k₃ res₁ s₁ s₂
        have empty : res₁ = [] := by
          change (if informational k₃.status then clipResult len 1 [] else []) = []
          rw [clipResult, List.take_nil, ite_self]
        have left : Beside p q n s s₁ := .of_changes (changes_leftWork s m x)
        have freed : Beside p q n s s₂ := .ite left (left.trans (.of_changes (changes_releaseStaging ..)))
        rw [empty]
        exact (freed.trans (.logStatus ..)).trans (beside_deliver ..)

theorem beside_settleAborts (s : State) (m : Nat) (st : Status) : Beside p q n s (settleAborts s m st) :=
  .foldl (fun s _ => beside_succeed s _ _) _ s

theorem beside_settleUnloads (s : State) : Beside p q n s (settleUnloads s) := by
  refine .foldl (fun s i => ?_) _ s
  unfold settleUnload
  split
  · refine .ite ?_ (.refl s)
    unfold releaseSched
    extract_lets s₁ s₂
    have dropped : Beside p q n s s₁ := .of_changes (changes_dropTiles ..)
    have erased : Beside p q n s s₂ := dropped.trans (.of_changes (l := [.scheds]) rfl)
    split
    · exact erased.trans (beside_succeed ..)
    · exact erased
  · exact .refl s

/-- A queue whose deletion is done is not one that is not being deleted. -/
theorem beside_settleDelete (s : State) (p' : PortId) (q' : Nat) : Beside p q n s (settleDelete s p' q') := by
  unfold settleDelete
  extract_lets y
  split
  · next s₁ done =>
    refine .trans (t := s₁) ⟨fun o mem => ?_, fun gone => ?_, fun kept => ?_⟩ (.foldl (fun s _ => beside_succeed s _ _) _ s₁)
    · by_cases eq : p = p'
      · subst eq
        rwa [show s₁.port p = _ from State.port_modPort ..]
      · rwa [show s₁.port p = s.port p from State.port_modPort_ne s eq _]
    · rw [State.cmd?, show s₁.cmds = s.cmds from State.modPort_cmds ..]
      exact gone
    · have other : s₁.pair p q = s.pair p q := by
        unfold State.pair
        by_cases eq : p = p'
        · subst eq
          have ne : q ≠ q' := fun same => kept (by rw [same]; exact done.1)
          rw [show s₁.port p = _ from State.port_modPort ..]
          exact congrArg (Option.getD · ({} : QueuePair)) (Tab.get?_erase_ne _ ne)
        · rw [show s₁.port p = s.port p from State.port_modPort_ne s eq _]
      rw [other]
      exact ⟨kept, rfl⟩
  · exact .refl s

/-- What a posted completion lets go on goes on beside the queue. -/
theorem beside_afterPost (s : State) (m : Nat) (x : Cmd) (p' : PortId) (q' : Nat) (st : Status) : Beside p q n s (afterPost s m x p' q' st) := by
  unfold afterPost
  extract_lets s₁ s₂
  have gone : Beside p q n s s₁ := beside_gone ..
  have settled : Beside p q n s s₂ := gone.trans ((beside_settleAborts ..).trans (beside_settleDelete ..))
  exact (Beside.ite (settled.trans (.of_changes (changes_gcColl ..))) settled).trans (beside_settleUnloads ..)

theorem afterPost_gone {x : Cmd} (once : Tab.AtMostOnce s.cmds n) (p' : PortId) (q' : Nat) (st : Status) :
    (afterPost s n x p' q' st).cmd? n = none := by
  unfold afterPost
  extract_lets s₁ s₂
  have gone : s₁.cmd? n = none := by
    rw [State.cmd?, (changes_releasePins ..).same State.cmds]
    exact once.get?_erase
  have settled : Beside p' q' n s₁ s₂ := (beside_settleAborts ..).trans (beside_settleDelete ..)
  have last : Beside p' q' n s₁ (settleUnloads (if namesCollection x.entry then gcColl s₂ (eIndex x.entry) else s₂)) :=
    (Beside.ite (settled.trans (.of_changes (changes_gcColl ..))) settled).trans (beside_settleUnloads ..)
  exact last.gone gone

end Sys2Proof.Machine
end

section
/-! SUPPORT. Completions that are posted, entries that cannot be written, and fetches that fail (R469, R482, R495, R496, R673); O31. -/

namespace Sys2Proof.Machine

open Sys2Proof

-- Proofs are checked one at a time: each that waits for its turn would hold a thread's stack.
set_option Elab.async false

variable {s t u : State} {p : PortId} {q n : Nat} {x y : Cmd} {k : Completion}

/-! ## Queues that freeze (R482) -/

/-- A pair that is frozen with a status and a tag. -/
def QueuePair.frozenWith (y : QueuePair) (st tag : Nat) : QueuePair :=
  { y with state := .frozen, freezeStatus := BitVec.ofNat 16 st, freezeTag := BitVec.ofNat 16 tag }

theorem freezeQueue_active (active : (s.pair p q).state = .active) (st tag : Nat) :
    freezeQueue s p q st tag = s.modPort p fun x =>
      ({ x with pairs := Tab.modify x.pairs q {} fun y => y.frozenWith st tag } : Port).raise evQueueFrozen := by
  unfold freezeQueue
  rw [if_pos active, raiseEvent_eq, State.modPair, State.modPort_modPort]
  rfl

theorem freezeQueue_pair (s : State) (p : PortId) (q st tag : Nat) :
    (freezeQueue s p q st tag).pair p q = if (s.pair p q).state = .active then (s.pair p q).frozenWith st tag else s.pair p q := by
  split
  · next active =>
    unfold State.pair
    rw [freezeQueue_active active, State.port_modPort, Port.raise_pairs]
    dsimp only
    rw [Tab.getD_modify_self]
  · next other => rw [freezeQueue, if_neg other]

theorem freezeQueue_apart (s : State) (p : PortId) (q st tag : Nat) :
    (freezeQueue s p q st tag).cmds = s.cmds ∧ ((freezeQueue s p q st tag).port p).busMaster = (s.port p).busMaster ∧
      ((freezeQueue s p q st tag).port p).d3hot = (s.port p).d3hot := by
  refine ⟨(changes_freezeQueue ..).same State.cmds, ?_⟩
  by_cases active : (s.pair p q).state = .active
  · rw [freezeQueue_active active, State.port_modPort, Port.raise_fields]
    exact ⟨rfl, rfl⟩
  · rw [freezeQueue, if_neg active]
    exact ⟨rfl, rfl⟩

/-! ## An entry that is written (R469, R495) -/

/-- The place of a queue after an entry more. -/
def QueuePair.placeAfter (y : QueuePair) : Place where
  cqTail := (y.cqTail + 1) % max 1 y.cqEntries
  phase := if (y.cqTail + 1) % max 1 y.cqEntries = 0 then !y.phase else y.phase
  outstanding := y.outstanding - 1
  completed := y.completed + 1
  sqHead := y.sqHead
  cqEntries := y.cqEntries

theorem signalEntry_beside (s : State) (p : PortId) (q cls : Nat) : Beside p q n s (signalEntry s p q cls) := by
  unfold signalEntry
  extract_lets y
  exact .ite (.refl s) (.ite (.trans (.modPair s p q _ rfl fun kept => kept) (.signal ..)) (.modPair s p q _ rfl fun kept => kept))

theorem posted (once : Tab.AtMostOnce s.cmds n) {st : Status} (ht : afterPost (writeEntry s p q x k) n x p q st = t) :
    t.cmd? n = none ∧ ((s.pair p q).state ≠ .deleting → (t.pair p q).place = (s.pair p q).placeAfter) ∧
      ((s.port p).busMaster = true → (s.port p).d3hot = false →
        .cqe q (s.pair p q).cqTail (cqeOf k (s.pair p q).sqHead q (eTag x.entry) (s.pair p q).phase) ∈ (t.port p).sent) := by
  unfold writeEntry at ht
  extract_lets y s₁ next s₂ at ht
  have out : Apart s s₁ := .emit s p _
  have cmds : s₂.cmds = s.cmds := (State.modPort_cmds ..).trans out.cmds
  have signalled : Beside p q n s₂ (signalEntry s₂ p q (eClass x.entry)) := signalEntry_beside ..
  have later : Beside p q n s₂ t := by
    rw [← ht]
    exact signalled.trans (beside_afterPost ..)
  have pair₂ : s₂.pair p q = _ := State.pair_modPair ..
  refine ⟨?_, fun kept => ?_, fun master awake_ => later.sent _ ?_⟩
  · rw [← ht]
    refine afterPost_gone ?_ p q st
    have same : (signalEntry s₂ p q (eClass x.entry)).cmds = s₂.cmds := by
      unfold signalEntry
      dsimp only
      split
      · rfl
      · split
        · exact ((changes_signal ..).same State.cmds).trans (State.modPort_cmds ..)
        · exact State.modPort_cmds ..
    rw [same, cmds]
    exact once
  · have kept₂ : (s₂.pair p q).state ≠ .deleting := by
      rw [pair₂]
      change (s₁.pair p q).state ≠ .deleting
      rwa [out.pair]
    rw [(later.place kept₂).2, pair₂, out.pair]
    rfl
  · have sent : (s₂.port p).sent = (s₁.port p).sent := by
      change ((s₁.modPair p q _).port p).sent = _
      rw [State.port_modPair]
    rw [sent, show s₁.port p = _ from State.port_modPort ..]
    rw [master, awake_]
    exact List.mem_append_right _ (List.mem_singleton_self _)

/-! ## Translations at hand (R373) -/

/-- A queue and a command of it after the command's translations were at hand: but for counts of replays they are the same. -/
structure Ready (p : PortId) (q n : Nat) (s t : State) : Prop where
  pair : ∃ r, t.pair p q = { s.pair p q with replays := r }
  cmd : ∃ f : Cmd → Cmd, t.cmd? n = (s.cmd? n).map f
  once : Tab.AtMostOnce s.cmds n → Tab.AtMostOnce t.cmds n
  busMaster : (t.port p).busMaster = (s.port p).busMaster
  d3hot : (t.port p).d3hot = (s.port p).d3hot

theorem Ready.of_apart (h : Apart s t) : Ready p q n s t :=
  ⟨⟨(s.pair p q).replays, h.pair p q⟩, ⟨id, (h.cmd? n).trans Option.map_id'.symm⟩, fun once => by rw [h.cmds]; exact once,
    h.busMaster p, h.d3hot p⟩

theorem Tab.AtMostOnce.adjust {α : Type} {t : Table α} {k : Nat} (h : AtMostOnce t k) (m : Nat) (f : α → α) :
    AtMostOnce (Tab.adjust t m f) k := by
  unfold AtMostOnce at *
  have keys : ((Tab.adjust t m f).filter fun y => y.1 == k).length = (t.filter fun y => y.1 == k).length := by
    clear h
    induction t with
    | nil => rfl
    | cons y t ih =>
      obtain ⟨j, a⟩ := y
      rw [Tab.adjust]
      split
      · by_cases same : j = k
        · simp [same]
        · simp [same]
      · by_cases same : j = k
        · simp [same, ih]
        · simp [same, ih]
  rwa [keys]

theorem routeAccess_ready (pass : accessPasses s p (commandNum n) = true) : Ready p q n s (routeAccess s p (commandNum n)) := by
  unfold accessPasses at pass
  unfold routeAccess
  split at pass
  · next a len w access =>
    rw [access]
    dsimp only
    rw [eq_of_beq pass]
    dsimp only
    have counted : Apart s (countLookup s p .pass) := apart_countLookup ..
    generalize countLookup s p .pass = s₁ at *
    unfold accessGoes
    split
    · next m asker =>
      unfold askerOf commandNum at asker
      split at asker
      · omega
      · split at asker
        · cases asker
        · split at asker <;> cases asker
    · exact .of_apart (counted.trans (apart_sendAlleyHost ..))
    · next q' _ =>
      have port : ∀ f, ((s₁.modPair p q' f).port p).busMaster = (s₁.port p).busMaster ∧
          ((s₁.modPair p q' f).port p).d3hot = (s₁.port p).d3hot := fun f => by
        rw [State.port_modPair]
        exact ⟨rfl, rfl⟩
      have cmds : ∀ f, (s₁.modPair p q' f).cmds = s.cmds := fun f => (State.modPort_cmds ..).trans counted.cmds
      refine ⟨?_, ⟨id, ?_⟩, fun once => by rw [cmds]; exact once, (port _).1.trans (counted.busMaster p), (port _).2.trans (counted.d3hot p)⟩
      · by_cases same : q = q'
        · subst same
          exact ⟨0, by rw [State.pair_modPair, counted.pair]⟩
        · refine ⟨(s.pair p q).replays, ?_⟩
          rw [State.pair, State.port_modPair, Tab.getD_modify, if_neg same]
          exact counted.pair p q
      · rw [State.cmd?, cmds]
        exact Option.map_id'.symm
    · next m _ =>
      split
      · next c held =>
        extract_lets s₂
        have marked : Ready p q n s s₂ := by
          refine ⟨⟨(s.pair p q).replays, counted.pair p q⟩, ⟨if n = m then fun c => { c with hostReplays := 0 } else id, ?_⟩, fun once => ?_,
            counted.busMaster p, counted.d3hot p⟩
          · refine (Tab.get?_adjust ..).trans ?_
            rw [counted.cmds]
            split
            · next same =>
              subst same
              rfl
            · exact Option.map_id'.symm
          · change Tab.AtMostOnce (Tab.adjust s₁.cmds m _) n
            rw [counted.cmds]
            exact once.adjust ..
        have reads : Apart s₂ (if c.stage = .waiting then emitReads s₂ p (commandNum n) (eInAddr c.entry) (eInLen c.entry) else s₂) :=
          .ite (apart_emitReads ..) (.refl _)
        generalize (if c.stage = .waiting then emitReads s₂ p (commandNum n) (eInAddr c.entry) (eInLen c.entry) else s₂) = s₃ at *
        obtain ⟨pair, cmd, once, busMaster, d3hot⟩ := marked
        refine ⟨?_, ?_, fun h => by rw [reads.cmds]; exact once h, (reads.busMaster p).trans busMaster, (reads.d3hot p).trans d3hot⟩
        · rwa [reads.pair]
        · rwa [reads.cmd?]
      · exact .of_apart counted
  · next access =>
    rw [access]
    exact .of_apart (.refl s)

/-! ## The effects of COMPLETION_POST -/

theorem postEffect_written (empty : x.result = []) (fine : x.resultErr = false) (wrote : x.cqeErr = false) :
    postEffect s n x k p q = afterPost (writeEntry s p q x k) n x p q k.status := by
  unfold postEffect resultStep writeResult
  rw [fine, empty, wrote]
  rfl

/-- Where the entry cannot be written, the pair freezes and holds the write (R482). -/
theorem postEffect_unwritten (empty : x.result = []) (fine : x.resultErr = false) (err : x.cqeErr = true) (held : s.cmd? n = some y)
    (active : (s.pair p q).state = .active) (ht : postEffect s n x k p q = t) :
    (t.pair p q).state = .frozen ∧ (t.pair p q).freezeStatus.toNat = statusCode .hostFault ∧ (t.pair p q).heldWrite = some n ∧
      (t.cmd? n).bind (·.completion) = some k ∧ (t.pair p q).cqTail = (s.pair p q).cqTail := by
  have effect : postEffect s n x k p q = entryFails s n x k p q := by
    unfold postEffect resultStep writeResult
    rw [fine, empty, err]
    rfl
  rw [effect] at ht
  unfold entryFails at ht
  extract_lets kept s₁ s₂ s₃ at ht
  have logged : Apart s s₁ := .reports (.port_log ..)
  have active₁ : (s₁.pair p q).state = .active := by rw [logged.pair]; exact active
  have pair₂ : s₂.pair p q = (s₁.pair p q).frozenWith (statusCode .hostFault) (eTag x.entry) := by
    rw [show s₂.pair p q = _ from freezeQueue_pair .., if_pos active₁]
  have keeps : kept = true := by
    change ((s.pair p q).state != .deleting) = true
    rw [active]
    rfl
  rw [keeps, if_pos rfl] at ht
  subst ht
  have pair₃ : s₃.pair p q = s₂.pair p q := rfl
  have cmd₃ : s₃.cmd? n = some { y with completion := some k, result := [], resultErr := false, cqeErr := false } := by
    refine (Tab.get?_adjust_self ..).trans ?_
    rw [show s₂.cmds = s₁.cmds from (freezeQueue_apart ..).1, logged.cmds, show Tab.get? s.cmds n = some y from held]
    rfl
  rw [State.pair_modPair, pair₃, pair₂, logged.pair]
  refine ⟨rfl, rfl, rfl, ?_, rfl⟩
  rw [State.cmd?, State.modPair, State.modPort_cmds, show Tab.get? s₃.cmds n = _ from cmd₃]
  rfl

/-- Where the result cannot be written, the completion that is posted says so, and its queue freezes (R482, R496, R673). -/
theorem postEffect_resultErr (err : x.resultErr = true) (wrote : x.cqeErr = false) :
    ∃ s₂ k', postEffect s n x k p q = afterPost (writeEntry s₂ p q x k') n x p q k'.status ∧ k'.status = .hostFault ∧
      (isReader (eOpcode x.entry) = true ∨ isMutation (eOpcode x.entry) = true → k'.epoch = k.epoch) ∧ s₂.cmds = s.cmds ∧
      (s₂.pair p q).place = (s.pair p q).place ∧ (s₂.port p).busMaster = (s.port p).busMaster ∧ (s₂.port p).d3hot = (s.port p).d3hot := by
  unfold postEffect resultStep
  rw [err, wrote]
  simp only [if_true, Bool.false_eq_true, if_false]
  generalize kept : keptFields (eOpcode x.entry) k .hostFault = k₁
  generalize ({ kind := kindHost, loc := eOutAddr x.entry, detail := portNum p } : Cause) = z
  have logged : Apart s (logStatus s x k₁ z).1 := apart_logStatus ..
  obtain ⟨status, -, -, epoch⟩ := logStatus_means s x k₁ z
  obtain ⟨cmds, busMaster, d3hot⟩ := freezeQueue_apart (logStatus s x k₁ z).1 p q (statusCode .hostFault) (eTag x.entry)
  refine ⟨_, _, rfl, status.trans ?_, fun names => epoch.trans ?_, cmds.trans logged.cmds, ?_, busMaster.trans (logged.busMaster p),
    d3hot.trans (logged.d3hot p)⟩
  · rw [← kept]
    unfold keptFields
    split
    · rfl
    · split <;> rfl
  · rw [← kept]
    unfold keptFields
    split
    · rfl
    · next other =>
      rw [if_pos (names.resolve_right other)]
  · rw [freezeQueue_pair, logged.pair]
    split <;> rfl

/-! ## Fetches that fail (R482, R508) -/

/-- From s to t only one port and the logs changed. -/
def AtPort (p : PortId) (s t : State) : Prop := ∃ x l, t = { s.modPort p fun _ => x with logs := l }

namespace AtPort

theorem refl (p : PortId) (s : State) : AtPort p s s := ⟨s.port p, s.logs, by cases p <;> rfl⟩

theorem modPort (h : AtPort p s t) (f : Port → Port) : AtPort p s (t.modPort p f) := by
  obtain ⟨x, l, rfl⟩ := h
  exact ⟨f x, l, by cases p <;> rfl⟩

theorem modLogs (h : AtPort p s t) (l : Logs) : AtPort p s { t with logs := l } := by
  obtain ⟨x, -, rfl⟩ := h
  exact ⟨x, l, rfl⟩

theorem frame (h : AtPort p s t) : t = { s.modPort p fun _ => t.port p with logs := t.logs } := by
  obtain ⟨x, l, rfl⟩ := h
  cases p <;> rfl

end AtPort

/-- A pair whose fetch failed, and its port: what came of the port before the failure was logged. -/
theorem fetchFailed_spec (active : (s.pair p q).state = .active) {st : Status} {code : Nat} {tag : Nat} (z : Cause)
    (ht : freezeQueue ((portLog s p 0 q tag (some st) 0 0 0 z).modPair p q fun x => { x with fetchErr := false }) p q code tag = t) :
    t.pair p q = ({ s.pair p q with fetchErr := false } : QueuePair).frozenWith code tag ∧ (∀ r, r ≠ q → t.pair p r = s.pair p r) ∧
      (t.port p).eventStatus.getLsbD evQueueFrozen = true ∧ (t.port p).eventStatus.getLsbD evErrorLog = true ∧ (t.port p).aer = (s.port p).aer ∧
      AtPort p s t := by
  have logged : AtPort p s (portLog s p 0 q tag (some st) 0 0 0 z) := by
    rw [portLog_eq]
    exact ((AtPort.refl p s).modPort _).modLogs _
  have port : (portLog s p 0 q tag (some st) 0 0 0 z).port p = (s.port p).raise evErrorLog := by
    rw [portLog_eq]
    exact State.port_modPort ..
  have apart : Apart s (portLog s p 0 q tag (some st) 0 0 0 z) := .reports (.port_log ..)
  generalize portLog s p 0 q tag (some st) 0 0 0 z = s₁ at *
  have active₂ : ((s₁.modPair p q fun x => { x with fetchErr := false }).pair p q).state = .active := by
    rw [State.pair_modPair, apart.pair]
    exact active
  rw [freezeQueue_active active₂] at ht
  subst ht
  refine ⟨?_, fun r ne => ?_, ?_, ?_, ?_, (logged.modPort _).modPort _⟩
  · rw [State.pair, State.port_modPort, Port.raise_pairs]
    dsimp only
    rw [Tab.getD_modify_self, ← State.pair, State.pair_modPair, apart.pair]
  · rw [State.pair, State.port_modPort, Port.raise_pairs]
    dsimp only
    rw [Tab.getD_modify, if_neg ne, State.port_modPair]
    dsimp only
    rw [Tab.getD_modify, if_neg ne]
    exact apart.pair p r
  · rw [State.port_modPort, Port.raise_status]
    exact getLsbD_setBit_self _ (by decide)
  · rw [State.port_modPort, Port.raise_status, getLsbD_setBit, State.port_modPair, port]
    dsimp only
    rw [Port.raise_status, getLsbD_setBit_self _ (by decide)]
    rfl
  · rw [State.port_modPort, Port.raise_fields, State.port_modPair, port, Port.raise_fields]

/-! ## O31 -/

/-- Settles O31: what a posted completion lets go on happens beside its queue; a failure to write or to fetch freezes that queue alone. -/
theorem completionsArePosted : Obligations.CompletionsArePosted := by
  unfold Obligations.CompletionsArePosted
  refine ⟨fun n p q x k s up once origin done may ready => ?_, fun p q fault s can small err => ?_⟩
  · have held : s.cmd? n = some x := (Tab.get?_erase_of_once once).1
    have row : exec (.completionPost n p (.cq q)) s = .next (postQueued s n x k p q) := by
      refine Eq.trans ?_ (occurs_of_true (show (live s && p == p && PostTo.cq q == .cq q && mayPost s x p q &&
        !accessWaits s p (commandNum n)) = true by rw [up, may, ready, beq_self_eq_true, beq_self_eq_true]; rfl) _ s)
      change execCompletionPost n p (.cq q) s = _
      unfold execCompletionPost
      rw [held]
      dsimp only
      rw [origin, done]
    refine ⟨fun full => ?_, fun room => ?_⟩
    · rw [row, postQueued, if_pos full]
    · have passes (pass : accessPasses s p (commandNum n) = true) :
          exec (.completionPost n p (.cq q)) s = .next (postEffect (routeAccess s p (commandNum n)) n x k p q) := by
        rw [row, postQueued, if_neg (by rw [room]; exact Bool.false_ne_true), if_neg (by rw [pass]; exact Bool.false_ne_true)]
      refine ⟨fun pass empty fine => ?_, fun pass err wrote => ?_, fun a len w access miss => ?_⟩
      · obtain ⟨⟨r, pair⟩, ⟨f, cmd⟩, once', busMaster, d3hot⟩ := routeAccess_ready (q := q) pass
        refine ⟨fun wrote => ?_, fun cqeErr active => ?_⟩
        · obtain ⟨gone, place, sent⟩ := posted (once' (.of_once once)) rfl (p := p) (q := q) (x := x) (k := k) (st := k.status)
          rw [pair] at place sent
          refine ⟨_, (passes pass).trans (congrArg _ (postEffect_written empty fine wrote)), gone, fun kept => ?_, fun master awake_ =>
            sent (busMaster.trans master) (d3hot.trans awake_)⟩
          have after := place kept
          exact ⟨congrArg Place.cqTail after, congrArg Place.phase after, congrArg Place.outstanding after, congrArg Place.completed after⟩
        · have held' : (routeAccess s p (commandNum n)).cmd? n = some (f x) := by rw [cmd, held]; rfl
          obtain ⟨frozen, status, heldWrite, kept, tail⟩ := postEffect_unwritten empty fine cqeErr held' (by rw [pair]; exact active) rfl (k := k)
          rw [pair] at tail
          exact ⟨_, passes pass, frozen, status, heldWrite, kept, tail⟩
      · obtain ⟨⟨r, pair⟩, -, once', busMaster, d3hot⟩ := routeAccess_ready (q := q) pass
        obtain ⟨s₂, k', effect, status, epoch, cmds, place₂, busMaster₂, d3hot₂⟩ := postEffect_resultErr err wrote
          (s := routeAccess s p (commandNum n)) (n := n) (p := p) (q := q) (k := k)
        obtain ⟨gone, -, sent⟩ := posted (by rw [cmds]; exact once' (.of_once once)) rfl (p := p) (q := q) (x := x) (k := k') (st := k'.status)
        refine ⟨_, k', (passes pass).trans (congrArg _ effect), gone, status, epoch, fun master awake_ => ?_⟩
        rw [pair] at place₂
        have tail : (s₂.pair p q).cqTail = (s.pair p q).cqTail := congrArg Place.cqTail place₂
        have head : (s₂.pair p q).sqHead = (s.pair p q).sqHead := congrArg Place.sqHead place₂
        have phase : (s₂.pair p q).phase = (s.pair p q).phase := congrArg Place.phase place₂
        rw [tail, head, phase] at sent
        exact sent (busMaster₂.trans (busMaster.trans master)) (d3hot₂.trans (d3hot.trans awake_))
      · have misses : accessPasses s p (commandNum n) = false := by
          unfold accessPasses
          rw [access]
          dsimp only
          rw [miss]
          rfl
        have asks : routeAccess s p (commandNum n) = askTranslation (countLookup s p .miss) p (xltRange s p a len w).1 (commandNum n) := by
          unfold routeAccess
          rw [access]
          dsimp only
          rw [miss]
        obtain ⟨asked, waits⟩ := askTranslation_waits (countLookup s p .miss) p (xltRange s p a len w).1 (commandNum n)
        have all := (apart_countLookup s p .miss).trans asked
        refine ⟨_, by rw [row, postQueued, if_neg (by rw [room]; exact Bool.false_ne_true), if_pos (by rw [misses]; rfl), asks], all.cmds,
          fun r => all.pair p r, waits⟩
  · have active : (s.pair p q).state = .active := by
      unfold canFetch at can
      simp only [Bool.and_eq_true, beq_iff_eq] at can
      obtain ⟨⟨⟨⟨-, active⟩, -⟩, -⟩, -⟩ := can
      exact active
    cases fault with
    | true =>
      have row := occurs_of_true (show (canFetch s p q && decide (q < 2048) && (s.pair p q).fetchErr == true) = true by
        rw [can, err, decide_eq_true small]; rfl)
      obtain ⟨pair, others, frozen, logged, aer, only⟩ := fetchFailed_spec active (q := q) (st := .hostFault) (code := statusCode .hostFault)
        (tag := 0xFFFF) { kind := kindHost, loc := (s.pair p q).sqBase + 128 * (s.pair p q).sqHead, detail := portNum p } rfl
      exact ⟨_, row _ s, pair, others, frozen, logged, aer, only.frame⟩
    | false =>
      have row := occurs_of_true (show (canFetch s p q && decide (q < 2048) && (s.pair p q).fetchErr == false) = true by
        rw [can, err, decide_eq_true small]; rfl)
      have aborted (r : Nat) : (s.modPort p fun x => { x with aer := x.aer ++ [.completion] }).pair p r = s.pair p r := by
        unfold State.pair
        rw [State.port_modPort]
      obtain ⟨pair, others, frozen, logged, aer, x, l, only⟩ := fetchFailed_spec
        (s := s.modPort p fun x => { x with aer := x.aer ++ [.completion] })
        (by rw [aborted]; exact active) (q := q) (st := .hostAbort) (code := statusCode .hostAbort)
        (tag := 0xFFFF) { kind := kindHost, loc := (s.pair p q).sqBase + 128 * (s.pair p q).sqHead, detail := portNum p } rfl
      refine ⟨_, row _ s, pair.trans ?_, fun r ne => (others r ne).trans (aborted r), frozen, logged, aer.trans ?_, ?_⟩
      · rw [aborted]
        rfl
      · rw [State.port_modPort]
        rfl
      · exact AtPort.frame ⟨x, l, only.trans (by cases p <;> rfl)⟩

end Sys2Proof.Machine
end

section
/-! SUPPORT. Commands that end at their first failing check (R481, R482, R498, R508); O29. -/

namespace Sys2Proof.Machine

open Sys2Proof

-- Proofs are checked one at a time: each that waits for its turn would hold a thread's stack.
set_option Elab.async false

variable {s t : State} {p : PortId} {q n : Nat} {e : BitVec 1024} {x : Cmd} {k : Completion} {f : Failure}

/-! ## Errors that freeze a queue (R482, R508) -/

/-- A command of an active queue that ends with an error: it is decided with that error, its queue freezes, and the error log has the entry. -/
theorem decide_freezes (u : s.undecided n x) (origin : x.origin = .sq p q) (z : Cause) (frees : freezes k.status = true)
    (error : informational k.status = false) (active : (s.pair p q).state = .active) (idle : s.security.activating = none)
    (alone : s.logs.event = none) (plain : z.kind = 0) (ht : decide_ s n k [] 1 z = t) :
    (∃ k', k'.status = k.status ∧ k'.logged = true ∧ t.cmd? n = some (x.decided k' [])) ∧
      t.pair p q = (s.pair p q).frozenWith (statusCode k.status) (eTag x.entry) ∧
      (t.port p).eventStatus.getLsbD evQueueFrozen = true ∧ (t.port p).eventStatus.getLsbD evErrorLog = true ∧
      (∃ y, t.logs.entries.getLast? = some y ∧ y.status = some k.status ∧ y.queue = q ∧ y.tag = BitVec.ofNat 16 (eTag x.entry) ∧
        y.location = z.loc) ∧
      t.port (otherPort p) = s.port (otherPort p) := by
  obtain ⟨k', res', ⟨status, -⟩, empty, eq⟩ := decide_eq u k [] 1 z (fun h => by rw [error] at h; exact Bool.false_ne_true h.1)
  obtain ⟨held, -, here, -⟩ := u
  rw [empty rfl] at eq
  have given := changes_givenUp s n x k.status
  generalize givenUp s n x k.status = s₁ at *
  have port₁ (p' : PortId) : s₁.port p' = s.port p' := given.same (State.port · p')
  have pair₁ : s₁.pair p q = s.pair p q := by
    unfold State.pair
    rw [port₁]
  have kept : logKept s₁ = true := by
    unfold logKept
    rw [given.same State.security, idle]
    rfl
  obtain ⟨y, written, loc, named, queue, tag⟩ : ∃ y : LogEntry,
      logStatus s₁ x k' z = (writeLog s₁ y [p], { k' with logged := true, logDropped := false }) ∧ y.location = z.loc ∧ y.status = some k.status ∧ y.queue = q ∧ y.tag = BitVec.ofNat 16 (eTag x.entry) := by
    unfold logStatus
    rw [status, if_pos frees, given.same State.logs, alone, origin]
    dsimp only
    rw [kept, logEnd_alone (by rw [given.same State.logs]; exact alone), plain]
    exact ⟨_, rfl, rfl, rfl, rfl, rfl⟩
  rw [written, deliver_of_sq origin here] at eq
  dsimp only at eq
  rw [status, if_pos frees] at eq
  generalize logged : writeLog s₁ y [p] = s₂ at eq
  have apart : Apart s₁ s₂ := by
    rw [← logged]
    exact .reports (.write ..)
  have port₂ : s₂.port p = (s₁.port p).raise evErrorLog := by
    rw [← logged, writeLog_port]
    exact State.port_modPort ..
  have other₂ : s₂.port (otherPort p) = s₁.port (otherPort p) := by
    rw [← logged, writeLog_port]
    exact State.port_modPort_other ..
  have last : s₂.logs.entries.getLast? = some { y with seq := s₁.logs.total + 1 } := by
    rw [← logged, writeLog_port]
    exact recordLog_idle (by rw [given.same State.security]; exact idle) y
  have active₂ : (s₂.pair p q).state = .active := by
    rw [apart.pair, pair₁]
    exact active
  have frozen := freezeQueue_pair s₂ p q (statusCode k.status) (eTag x.entry)
  rw [if_pos active₂, apart.pair, pair₁] at frozen
  have port := congrArg (State.port · p) (freezeQueue_active active₂ (statusCode k.status) (eTag x.entry))
  have other := congrArg (State.port · (otherPort p)) (freezeQueue_active active₂ (statusCode k.status) (eTag x.entry))
  have logs := congrArg State.logs (freezeQueue_active active₂ (statusCode k.status) (eTag x.entry))
  have cmds := (freezeQueue_apart s₂ p q (statusCode k.status) (eTag x.entry)).1
  generalize freezeQueue s₂ p q (statusCode k.status) (eTag x.entry) = s₃ at *
  rw [State.port_modPort] at port
  rw [State.port_modPort_other] at other
  rw [State.modPort_logs] at logs
  subst ht
  rw [eq]
  refine ⟨⟨{ k' with status := k.status, logged := true, logDropped := false }, rfl, rfl, ?_⟩, frozen, ?_, ?_,
    ⟨{ y with seq := s₁.logs.total + 1 }, ?_, named, queue, tag, loc⟩, ?_⟩
  · refine (Tab.get?_adjust_self ..).trans ?_
    rw [cmds, apart.cmds, given.same State.cmds, show Tab.get? s.cmds n = some x from held]
    rfl
  · change (s₃.port p).eventStatus.getLsbD evQueueFrozen = true
    rw [port, Port.raise_status]
    exact getLsbD_setBit_self _ (by decide)
  · change (s₃.port p).eventStatus.getLsbD evErrorLog = true
    rw [port, Port.raise_status, getLsbD_setBit]
    dsimp only
    rw [port₂, Port.raise_status, getLsbD_setBit_self _ (by decide)]
    rfl
  · change s₃.logs.entries.getLast? = _
    rw [logs]
    exact last
  · change s₃.port (otherPort p) = _
    rw [other, other₂, port₁]

/-! ## The failing check (R498) -/

theorem failCheck_eq (held : s.cmd? n = some x) (f : Failure) :
    ∃ k : Completion, k.status = f.status ∧ failCheck s n f = decide_ s n k [] 1 { kind := 0, loc := f.off, detail := f.value } := by
  unfold failCheck
  rw [held]
  dsimp only
  split
  · exact ⟨_, rfl, rfl⟩
  · obtain ⟨k, status, -, -, eq⟩ := fail_eq_decide held f.status { kind := 0, loc := f.off, detail := f.value }
    exact ⟨k, status, eq⟩

theorem checksA_status (fails : checksA s p q e = some f) : f.status ∈ [.invalidOpcode, .invalidField, .duplicateTag] := by
  unfold checksA firstFailure at fails
  obtain ⟨y, found, rfl⟩ := Option.map_eq_some_iff.mp fails
  have listed := List.mem_of_find?_eq_some found
  simp only [List.mem_cons, List.not_mem_nil, or_false] at listed
  rcases listed with rfl | rfl | rfl | rfl | rfl <;> simp

/-! ## An entry that is taken (R367, R486) -/

/-- The lookup of an entry's place and the turn of its queue change nothing but counts of its port. -/
theorem turned_spec (pass : accessPasses s p (fetchNum q) = true) (ht : turned s p q = t) :
    Changes [.port0, .port1] s t ∧ t.port (otherPort p) = s.port (otherPort p) ∧ ∃ r, t.pair p q = { s.pair p q with replays := r } := by
  have asker : askerOf (fetchNum q) = .fetch q := by
    unfold askerOf fetchNum
    rw [if_neg (by omega), if_neg (by omega), if_neg (by omega), Nat.add_sub_cancel_left]
  obtain ⟨a, len, w, access⟩ : ∃ a len w, accessOf s p (fetchNum q) = some (a, len, w) := by
    unfold accessOf
    rw [asker]
    exact ⟨_, _, _, rfl⟩
  unfold accessPasses at pass
  rw [access] at pass
  have goes : routeAccess s p (fetchNum q) = (countLookup s p .pass).modPair p q fun x => { x with replays := 0 } := by
    unfold routeAccess
    rw [access]
    dsimp only
    rw [eq_of_beq pass]
    dsimp only
    unfold accessGoes
    rw [asker]
  have counted := apart_countLookup s p .pass
  have lookup : Changes [.port0, .port1] s (countLookup s p .pass) := .ite (.refl _ s) ((Changes.refl _ s).modPort p _)
  have other : (countLookup s p .pass).port (otherPort p) = s.port (otherPort p) := by
    unfold countLookup
    split
    · rfl
    · exact State.port_modPort_other ..
  unfold turned at ht
  rw [goes] at ht
  generalize countLookup s p .pass = s₁ at *
  generalize went : (s₁.modPair p q fun x => { x with replays := 0 }) = s₂ at ht
  have pair₂ : s₂.pair p q = { s.pair p q with replays := 0 } := by rw [← went, State.pair_modPair, counted.pair]
  have other₂ : s₂.port (otherPort p) = s₁.port (otherPort p) := by
    rw [← went]
    exact State.port_modPort_other ..
  have second : Changes [.port0, .port1] s s₂ := by
    rw [← went]
    exact lookup.trans ((Changes.refl _ s₁).modPair p q _)
  unfold noteTurn at ht
  subst ht
  refine ⟨second.trans ((Changes.refl _ s₂).modPort p _), ?_, 0, ?_⟩
  · exact (State.port_modPort_other ..).trans (other₂.trans other)
  · rw [← pair₂]
    unfold State.pair
    rw [State.port_modPort]
    split <;> rfl

theorem takeEntry_spec (inp : List Byte) (word : CmdWord) (ht : takeEntry s p q e inp word = t) :
    (∃ x, t.cmd? s.nextCmd = some x ∧ x.entry = e ∧ x.origin = .sq p q ∧ x.detached = false ∧ x.completion = none ∧ x.stage = .waiting ∧
      x.work.members = [] ∧ x.word = word) ∧ (∀ m, m ≠ s.nextCmd → t.cmd? m = s.cmd? m) ∧
      t.port (otherPort p) = s.port (otherPort p) ∧ (t.pair p q).state = (s.pair p q).state ∧ t.security = s.security ∧ t.logs = s.logs := by
  unfold takeEntry at ht
  extract_lets c named cmd s₁ s₂ at ht
  have power : Changes [.power] s₁ s₂ := .ite ((Changes.refl _ s₁).modPower _) (.refl _ s₁)
  have taken : Changes [.port0, .port1] s s₁ := (Changes.refl _ s).modPair p q _
  have early : Changes [.port0, .port1, .power] s s₂ := taken.comp power
  have next : s₂.nextCmd = s.nextCmd := early.same State.nextCmd
  have cmds : s₂.cmds = s.cmds := early.same State.cmds
  subst ht
  unfold addCmd State.cmd?
  rw [next, cmds]
  refine ⟨⟨cmd, Tab.get?_set_self .., rfl, rfl, rfl, rfl, rfl, rfl, rfl⟩, fun m ne => Tab.get?_set_ne _ _ ne, ?_, ?_,
    early.same State.security, early.same State.logs⟩
  · change s₂.port (otherPort p) = _
    rw [power.same (State.port · (otherPort p))]
    exact State.port_modPort_other ..
  · change (s₂.pair p q).state = _
    rw [show s₂.pair p q = s₁.pair p q from power.same (State.pair · p q), show s₁.pair p q = _ from State.pair_modPair ..]

/-! ## O29 -/

theorem exec_fetch {c : Instr} {op : Nat} {inp : List Byte}
    (which : (c, op) ∈ [(.search p q e inp, 1), (.insert p q e inp, 2), (.upsert p q e inp, 3), (.delete p q e inp, 4), (.fetch p q e inp, 5),
      (.flush p q e inp, 6), (.abort p q e inp, 7), (.tierMove p q e inp, 8), (.park p q e inp, 9), (.wake p q e inp, 10)]) :
    ∃ after, exec c s = fetchRow op p q e inp after s := by
  simp only [List.mem_cons, Prod.mk.injEq, List.not_mem_nil, or_false] at which
  rcases which with ⟨rfl, rfl⟩ | ⟨rfl, rfl⟩ | ⟨rfl, rfl⟩ | ⟨rfl, rfl⟩ | ⟨rfl, rfl⟩ | ⟨rfl, rfl⟩ | ⟨rfl, rfl⟩ | ⟨rfl, rfl⟩ | ⟨rfl, rfl⟩ |
      ⟨rfl, rfl⟩ <;>
    exact ⟨_, rfl⟩

/-- Settles O29: the entry is taken, and its command is decided with the status of the check that failed. -/
theorem failingChecksEndCommands : Obligations.FailingChecksEndCommands := by
  unfold Obligations.FailingChecksEndCommands
  intro p q e inp s c op f which fetches fails idle alone
  obtain ⟨can, small, turn, pass, ready, opcode⟩ := fetches
  obtain ⟨after, row⟩ := exec_fetch (s := s) which
  obtain ⟨frame, other, r, pair⟩ := turned_spec pass rfl
  have taken : exec c s = .next (fetchChecked (turned s p q) p q e inp after) := by
    rw [row]
    unfold fetchRow
    refine (occurs_of_true (show (canFetch s p q && decide (q < 2048) && fetchTurn s p q && rowTakes q op e && inputReady s p q e inp) = true by
      rw [can, decide_eq_true small, turn, ready, rowTakes, opcode, beq_self_eq_true]; rfl) _ s).trans ?_
    unfold turnTo
    dsimp only
    rw [pass, if_pos rfl]
    rfl
  have early : checksA (turned s p q) p q e = some f := by
    rw [← fails]
    unfold checksA
    rw [pair, frame.same State.cmds]
  have active : ((turned s p q).pair p q).state = .active := by
    unfold canFetch at can
    simp only [Bool.and_eq_true, beq_iff_eq] at can
    obtain ⟨⟨⟨⟨-, active⟩, -⟩, -⟩, -⟩ := can
    rw [pair]
    exact active
  have effect : ∃ l, fetchChecked (turned s p q) p q e inp after =
      failCheck (takeEntry (turned s p q) p q e l (fetchWord (eOpcode e))) s.nextCmd f := by
    unfold fetchChecked
    rw [early, frame.same State.nextCmd]
    exact ⟨_, rfl⟩
  obtain ⟨l, effect⟩ := effect
  obtain ⟨⟨x, held, entry, origin, here, none_, waiting, members, word⟩, others, other', state, security, logs⟩ :=
    takeEntry_spec (s := turned s p q) (p := p) (q := q) (e := e) l (fetchWord (eOpcode e)) rfl
  rw [frame.same State.nextCmd] at held others
  generalize takeEntry (turned s p q) p q e l (fetchWord (eOpcode e)) = s₂ at *
  have status := checksA_status fails
  obtain ⟨k, same, decides⟩ := failCheck_eq held f
  have frees : freezes k.status = true := by
    rw [same]
    simp only [List.mem_cons, List.not_mem_nil, or_false] at status
    rcases status with is | is | is <;> (rw [is]; rfl)
  have error : informational k.status = false := by
    rw [same]
    simp only [List.mem_cons, List.not_mem_nil, or_false] at status
    rcases status with is | is | is <;> (rw [is]; rfl)
  have u : s₂.undecided s.nextCmd x := by
    refine ⟨held, ⟨p, q, origin⟩, here, none_, by rw [waiting]; decide, members, ?_⟩
    rw [word]
    unfold fetchWord
    split <;> decide
  obtain ⟨⟨k', status', logged, at_⟩, pair', frozen, errorLog, ⟨y, last, named, queue, tag, loc⟩, other''⟩ :=
    decide_freezes u origin { kind := 0, loc := f.off, detail := f.value } frees error (state.trans active)
      (by rw [security, frame.same State.security]; exact idle) (by rw [logs, frame.same State.logs]; exact alone) rfl decides.symm
  rw [same] at status' pair' named
  rw [entry] at pair' tag
  have bound : eTag e < 2 ^ 16 := Nat.mod_lt _ (by decide)
  refine ⟨_, k', taken.trans (congrArg _ effect), by rw [at_]; rfl, status', by rw [at_]; rfl, fun m ne => ?_, status, by rw [pair']; rfl, ?_, ?_,
    frozen, errorLog, logged, ⟨y, last, named, queue, ?_, loc⟩, other''.trans (other'.trans other)⟩
  · obtain ⟨-, kept, -⟩ := decide_of_undecided u k [] 1 { kind := 0, loc := f.off, detail := f.value }
      (fun h => by rw [error] at h; exact Bool.false_ne_true h.1) decides.symm
    exact (kept m ne).trans ((others m ne).trans (congrArg (Tab.get? · m) (frame.same State.cmds)))
  · rw [pair']
    simp only [List.mem_cons, List.not_mem_nil, or_false] at status
    rcases status with is | is | is <;> (rw [is]; rfl)
  · rw [pair']
    exact Nat.mod_eq_of_lt bound
  · rw [tag]
    exact Nat.mod_eq_of_lt bound

end Sys2Proof.Machine
end

section
/-! SUPPORT. What waits on a translation leaves the translations alone (R371, R373 to R378). -/

namespace Sys2Proof.Machine

open Sys2Proof

-- Proofs are checked one at a time: each that waits for its turn would hold a thread's stack.
set_option Elab.async false

variable {s t u : State} {p : PortId} {q n : Nat}

/-! ## The translations are kept -/

/-- From s to t no host entry of a port's DTC changed. -/
structure SameDtc (s t : State) : Prop where
  dtc : ∀ p, (t.port p).xlt.dtc = (s.port p).xlt.dtc

namespace SameDtc

theorem refl (s : State) : SameDtc s s := ⟨fun _ => rfl⟩

theorem trans (h : SameDtc s t) (k : SameDtc t u) : SameDtc s u := ⟨fun p => (k.dtc p).trans (h.dtc p)⟩

theorem ite {c : Prop} [Decidable c] (h : SameDtc s t) (k : SameDtc s u) : SameDtc s (if c then t else u) := by
  split
  · exact h
  · exact k

theorem foldl {α : Type} {g : State → α → State} (h : ∀ s a, SameDtc s (g s a)) (as : List α) (s : State) : SameDtc s (as.foldl g s) :=
  List.foldlRecOn as g (motive := SameDtc s) (refl s) fun t ht a _ => ht.trans (h t a)

theorem of_changes {l : List Part} (h : Changes l s t) (ports : ∀ s t p, (State.take l s t).port p = s.port p := by intro _ _ p; cases p <;> rfl) :
    SameDtc s t := ⟨fun p => by rw [show t.port p = s.port p from h.same (State.port · p) fun s t => ports s t p]⟩

theorem modPort (s : State) (p : PortId) (f : Port → Port) (dtc : ∀ x, (f x).xlt.dtc = x.xlt.dtc := by intro _; rfl) :
    SameDtc s (s.modPort p f) := by
  refine ⟨fun p' => ?_⟩
  by_cases eq : p' = p
  · rw [eq, State.port_modPort, dtc]
  · rw [State.port_modPort_ne s eq]

theorem emit (s : State) (p : PortId) (o : PortOut) : SameDtc s (Machine.emit s p o) :=
  modPort s p _ fun x => by split <;> rfl

theorem reports (h : Reports s t) : SameDtc s t := ⟨fun p => by rw [h.port p]; rfl⟩

end SameDtc

theorem sameDtc_signal (s : State) (p : PortId) (v : Nat) : SameDtc s (signal s p v) :=
  .ite (.refl s) (.ite (.modPort s p _) (.emit s p _))

theorem sameDtc_freezeQueue (s : State) (p : PortId) (q st tag : Nat) : SameDtc s (freezeQueue s p q st tag) :=
  .ite (.trans (.modPort s p _) (.reports (.raise _ p _))) (.refl s)

theorem sameDtc_logStatus (s : State) (c : Cmd) (k : Completion) (z : Cause) : SameDtc s (logStatus s c k z).1 := by
  have ends (e : LogEntry) : SameDtc s (logEnd s e) := by
    unfold logEnd
    split
    · exact .reports (.write ..)
    · exact .reports (.of_logs s _)
  unfold logStatus
  split
  · dsimp only
    split
    · exact ends _
    · exact ends _
    · exact ends _
  · exact .refl s

theorem sameDtc_mailboxRespond (s : State) (p : PortId) (m : Nat) (x : Cmd) (k : Completion) (out : List Byte) :
    SameDtc s (mailboxRespond s p m x k out) := .ite (.trans (.modPort s p _) (sameDtc_signal _ p _)) (.modPort s p _)

theorem sameDtc_gone (s : State) (m : Nat) (x : Cmd) : SameDtc s (releasePins { s with cmds := Tab.erase s.cmds m } x) :=
  .of_changes (l := [.cmds, .protect, .colls])
    ((show Changes [.cmds, .protect, .colls] s { s with cmds := Tab.erase s.cmds m } from rfl).andThen (changes_releasePins ..))

theorem sameDtc_deliver (s : State) (m : Nat) (x : Cmd) (k : Completion) : SameDtc s (deliver s m x k []) := by
  unfold deliver
  split
  · extract_lets t
    have gone : SameDtc s t := sameDtc_gone ..
    split
    · exact .ite (gone.trans (.modPort t _ _)) gone
    · exact gone
  · split
    · extract_lets t
      have frozen : SameDtc s t := .ite (sameDtc_freezeQueue ..) (.refl s)
      exact frozen.trans (.of_changes ((Changes.refl [.cmds] t).modCmd _ _))
    · split
      · exact .of_changes ((Changes.refl [.cmds] s).modCmd _ _)
      · extract_lets t
        have gone : SameDtc s t := sameDtc_gone ..
        split
        · rw [devWrite_nil]
          exact gone.trans (sameDtc_mailboxRespond ..)
        · exact gone.trans (sameDtc_mailboxRespond ..)
    · exact (sameDtc_gone ..).trans (.of_changes (changes_sidebandRespond ..))
    · exact (sameDtc_gone ..).trans (.of_changes (changes_sendData ..))
    · exact sameDtc_gone ..
    · exact .ite ((sameDtc_gone ..).trans (.of_changes (changes_sendData ..))) ((sameDtc_gone ..).trans (.of_changes (changes_sendData ..)))

theorem sameDtc_fail (s : State) (m : Nat) (st : Status) (z : Cause) : SameDtc s (fail s m st z) := by
  unfold fail
  extract_lets k k₀
  clear_value k₀
  unfold decide_
  split
  · exact .refl s
  · next x _ =>
    split
    · exact .refl s
    · split
      · exact .of_changes ((Changes.refl [.cmds] s).modCmd _ _)
      · extract_lets k₁ len k₂ k₃ res₁ s₁ s₂
        have empty : res₁ = [] := by
          change (if informational k₃.status then clipResult len 1 [] else []) = []
          rw [clipResult, List.take_nil, ite_self]
        have left : SameDtc s s₁ := .of_changes (changes_leftWork s m x)
        have freed : SameDtc s s₂ := .ite left (left.trans (.of_changes (changes_releaseStaging ..)))
        rw [empty]
        exact (freed.trans (sameDtc_logStatus ..)).trans (sameDtc_deliver ..)

/-! ## Accesses that ask, fault or fail -/

theorem sameDtc_countLookup (s : State) (p : PortId) (r : Lookup) : SameDtc s (countLookup s p r) :=
  .ite (.refl s) (.modPort s p _ fun x => by dsimp only; split <;> rfl)

theorem sameDtc_askTranslation (s : State) (p : PortId) (a m : Nat) : SameDtc s (askTranslation s p a m) := by
  unfold askTranslation
  extract_lets x join
  exact .ite (.modPort s p _) (.ite (.modPort s p _) (.trans (.modPort s p _) (.emit _ p _)))

theorem sameDtc_joinPage (s : State) (p : PortId) (m a : Nat) (write : Bool) : SameDtc s (joinPage s p m a write) := by
  unfold joinPage
  extract_lets x
  split
  · exact .modPort s p _
  · split
    · exact .ite (.trans (.modPort s p _) (.emit _ p _)) (.modPort s p _)
    · exact .modPort s p _

theorem sameDtc_pieceErr (s : State) (m code : Nat) : SameDtc s (pieceErr s m code) := by
  unfold pieceErr
  split
  · exact .of_changes (l := [.alleys]) rfl
  · split
    · exact .refl s
    · next x _ =>
      extract_lets s₁
      have tags : SameDtc s s₁ := .modPort s _ _
      exact tags.trans (.of_changes (l := [.pieces]) rfl)

theorem changes_replayTags (s : State) (x : Piece) : Changes [.engines, .streams] s (replayTags s x) := rfl

theorem sameDtc_failAccess (s : State) (p : PortId) (m : Nat) : SameDtc s (failAccess s p m) := by
  unfold failAccess
  split
  · split
    · next x _ => exact .trans (.ite (.of_changes (changes_replayTags s x)) (.refl s)) (sameDtc_pieceErr ..)
    · exact .refl s
  · exact sameDtc_pieceErr ..
  · exact .modPort s p _
  · split
    · exact .refl s
    · exact .ite (sameDtc_fail ..) (.ite (.of_changes ((Changes.refl [.cmds] s).modCmd _ _)) (.of_changes ((Changes.refl [.cmds] s).modCmd _ _)))

theorem sameDtc_pieceFault (s : State) (p : PortId) (m a : Nat) (write : Bool) : SameDtc s (pieceFault s p m a write) := by
  unfold pieceFault
  split
  · exact .refl s
  · next x _ =>
    extract_lets xl s₁ s₂ s₃ s₄
    have waits : Changes [.pieces, .engines, .streams] s s₄ := rfl
    exact .ite (sameDtc_pieceErr ..) (.trans (.of_changes waits) (sameDtc_joinPage ..))

theorem sameDtc_alleyFault (s : State) (p : PortId) (k a : Nat) (write : Bool) : SameDtc s (alleyFault s p k a write) := by
  unfold alleyFault
  split
  · exact .refl s
  · next x _ =>
    extract_lets xl
    exact .ite (sameDtc_pieceErr ..) (.trans (.of_changes (l := [.alleys])
      (t := { s with alleys := Tab.set s.alleys k { x with replays := x.replays + 1 } }) rfl) (sameDtc_joinPage ..))

theorem sameDtc_queueFault (s : State) (p : PortId) (m a : Nat) (write : Bool) : SameDtc s (queueFault s p m a write) := by
  unfold queueFault
  extract_lets replays x s₁
  refine .ite (sameDtc_failAccess ..) (.trans ?_ (sameDtc_joinPage ..))
  change SameDtc s (match askerOf m with
    | .command m => s.modCmd m fun c => { c with hostReplays := replays + 1 }
    | .fetch q => s.modPair p q fun y => { y with replays := replays + 1 }
    | _ => s)
  split
  · exact .of_changes ((Changes.refl [.cmds] s).modCmd _ _)
  · exact .modPort s p _
  · exact .refl s

theorem sameDtc_accessFault (s : State) (p : PortId) (m a : Nat) (write : Bool) : SameDtc s (accessFault s p m a write) := by
  unfold accessFault
  split
  · exact sameDtc_pieceFault ..
  · exact sameDtc_alleyFault ..
  · exact sameDtc_queueFault ..

/-! ## Accesses that go on -/

theorem sameDtc_hotCount (s : State) (p : PortId) (a : Nat) : SameDtc s (hotCount s p a) := by
  unfold hotCount
  extract_lets page y c m hit s₁
  have counted : SameDtc s s₁ := .modPort s p _
  exact .ite (.modPort s p _) (.ite (counted.trans (.trans (.modPort s₁ p _) (.reports (.raise _ p _)))) counted)

theorem sameDtc_emitReads (s : State) (p : PortId) (m a len : Nat) : SameDtc s (emitReads s p m a len) := .foldl (fun s _ => .emit s p _) _ s

theorem sameDtc_sendReads (s : State) (p : PortId) (m a len : Nat) : SameDtc s (sendReads s p m a len) :=
  .trans (.foldl (fun s _ => sameDtc_hotCount s p _) _ s) (sameDtc_emitReads ..)

theorem sameDtc_sendWrites (s : State) (p : PortId) (m a : Nat) (b : List Byte) : SameDtc s (sendWrites s p m a b) :=
  .trans (.foldl (fun s _ => sameDtc_hotCount s p _) _ s) (.foldl (fun s _ => .emit s p _) _ _)

theorem sameDtc_sendAlleyHost (s : State) (k : Nat) : SameDtc s (sendAlleyHost s k) := by
  unfold sendAlleyHost
  split
  · exact .refl s
  · next x _ =>
    extract_lets m s₁ s₂
    have tagged : SameDtc s s₁ := .modPort s _ _
    have sent : SameDtc s s₂ := tagged.trans (.of_changes (l := [.alleys]) rfl)
    exact .ite (sent.trans (sameDtc_sendWrites ..)) (sent.trans (sameDtc_sendReads ..))

theorem changes_peerRead (s : State) (w off len : Nat) (k : PeerWaiter) : Changes [.net] s (peerRead s w off len k) :=
  (changes_openPeer ..).trans (changes_sendPacket ..)

theorem changes_peerWrite (s : State) (w off : Nat) (b : List Byte) (k : PeerWaiter) : Changes [.net] s (peerWrite s w off b k) :=
  (changes_openPeer ..).trans (changes_sendPacket ..)

theorem changes_haveData (s : State) (m : Nat) (b : List Byte) : Changes [.pieces, .net] s (haveData s m b) := by
  unfold haveData
  extract_lets s₁
  have held : Changes [.pieces, .net] s s₁ := rfl
  split
  · exact .ite (held.andThen (changes_peerWrite ..)) held
  · exact held

theorem changes_pieceGet (s : State) (a m : Nat) (hint : Hint) : Changes [.cache, .hbm] s (pieceGet s a m hint).1 := by
  have all (f : Nat) (s : State) (a m : Nat) : Changes [.cache, .hbm] s (cacheGetAll f s a m hint).1 := by
    induction f generalizing s a m with
    | zero => exact .refl _ s
    | succ f ih =>
      unfold cacheGetAll
      split
      · exact .refl _ s
      · exact (changes_cacheGet ..).trans (ih ..)
  unfold pieceGet
  split
  · exact changes_granuleGet ..
  · exact all ..

theorem sameDtc_sendPiece (s : State) (m : Nat) : SameDtc s (sendPiece s m) := by
  unfold sendPiece
  split
  · exact .refl s
  · next x _ =>
    extract_lets k p' s₁ s₂
    have taken : SameDtc s s₂ := .trans (.of_changes (l := [.pieces]) (t := s₁) rfl) (.modPort s₁ p' _)
    refine taken.trans ?_
    split
    · exact sameDtc_sendReads ..
    · exact .of_changes (changes_peerRead ..)
    · exact .of_changes (changes_haveData ..)
    · have got (hint : Hint) : SameDtc s₂ (pieceGet s₂ k.src k.len hint).1 := .of_changes (changes_pieceGet ..)
      dsimp only
      split
      · exact (got _).trans (.of_changes (changes_haveData ..))
      · exact (got _).trans (sameDtc_pieceErr ..)
    · exact .of_changes (changes_haveData ..)

theorem sameDtc_routePiece (s : State) (m : Nat) : SameDtc s (routePiece s m) := by
  unfold routePiece
  split
  · exact .refl s
  · next x _ =>
    dsimp only
    generalize (s.stream x.quarter x.stream).hostPort = p
    split
    · generalize xltRange s p (pieceHost x.spec).1 x.spec.len (pieceHost x.spec).2 = y
      have counted := sameDtc_countLookup s p y.2
      generalize countLookup s p y.2 = s₁ at *
      refine counted.trans ?_
      split
      · exact sameDtc_sendPiece ..
      · have missed : Changes [.pieces] s₁ { s₁ with pieces := Tab.adjust s₁.pieces m fun y => { y with state := .missed } } := rfl
        exact .trans (.of_changes missed) (sameDtc_askTranslation ..)
      · exact sameDtc_pieceFault ..
    · exact sameDtc_sendPiece ..

theorem sameDtc_accessGoes (s : State) (p : PortId) (m : Nat) : SameDtc s (accessGoes s p m) := by
  unfold accessGoes
  split
  · next m _ =>
    split
    · next x _ =>
      have woken (s : State) : SameDtc s (wakeStream s x.quarter x.stream) := .of_changes (l := [.streams]) rfl
      refine .trans ?_ (woken _)
      refine .trans (.of_changes (l := [.pieces]) (t := { s with pieces := Tab.set s.pieces m { x with replays := 0 } }) rfl) ?_
      unfold replayPiece
      split
      · exact .refl _
      · exact .trans (.ite (.of_changes (changes_replayTags ..)) (.refl _)) (sameDtc_routePiece ..)
    · exact .refl s
  · exact sameDtc_sendAlleyHost ..
  · exact .modPort s p _
  · split
    · next m _ c _ =>
      extract_lets s₁
      have marked : SameDtc s s₁ := .of_changes ((Changes.refl [.cmds] s).modCmd _ _)
      exact .ite (marked.trans (sameDtc_emitReads ..)) marked
    · exact .refl s

theorem sameDtc_afterTranslation (s : State) (p : PortId) (block m : Nat) : SameDtc s (afterTranslation s p block m) := by
  unfold afterTranslation
  split
  · exact .refl s
  · dsimp only
    exact .ite (sameDtc_accessGoes ..) (.ite (sameDtc_askTranslation ..) (sameDtc_accessFault ..))

theorem sameDtc_askNext (s : State) (p : PortId) : SameDtc s (askNext s p) :=
  .trans (.modPort s p _) (.foldl (fun s _ => sameDtc_askTranslation s p _ _) _ _)

end Sys2Proof.Machine
end

section
/-! SUPPORT. Translations that are stored, accesses that go on or fail, and page requests that are answered (R370 to R377). -/

namespace Sys2Proof.Machine

open Sys2Proof

-- Proofs are checked one at a time: each that waits for its turn would hold a thread's stack.
set_option Elab.async false

variable {s t u : State} {p : PortId} {q n m block : Nat} {x : Piece}

/-! ## Translations that are stored (R370, R371) -/

/-- Sixteen pages that merge make one entry of 64 KiB. -/
def mergedEntry (block : Nat) (u : AtsEntry) : DtcEntry :=
  { base := block * 65536, sizeLog2 := 16, addr := u.addr, read := u.read, write := u.write, untranslated := u.untranslated }

theorem storeEntries_merged {u : AtsEntry} {us : List AtsEntry} (merge : mergeable (u :: us) = true) (right : u.read = true ∨ u.write = true)
    (need : List Nat) : storeEntries block (u :: us) need = [mergedEntry block u] := by
  have parts := merge
  unfold mergeable at parts
  simp only [Bool.and_eq_true, beq_iff_eq, List.all_eq_true, List.mem_range] at parts
  obtain ⟨⟨-, aligned⟩, pages⟩ := parts
  obtain ⟨⟨⟨⟨size, -⟩, -⟩, -⟩, -⟩ := pages 0 (by decide)
  have size : u.size = 12 := size
  unfold storeEntries
  dsimp only
  rw [if_pos merge, if_pos (by simpa using right), size]
  have base : block * 65536 / 2 ^ 16 * 2 ^ 16 = block * 65536 := by omega
  have addr (a : Nat) (whole : a % 65536 = 0) : a / 2 ^ 12 * 2 ^ 12 + block * 65536 % 2 ^ 12 = a := by
    have multiple : block * 65536 % 2 ^ 12 = 0 := Nat.mod_eq_zero_of_dvd (Dvd.dvd.mul_left (by decide) _)
    rw [multiple, Nat.add_zero]
    exact Nat.div_mul_cancel ((by decide : 2 ^ 12 ∣ 65536).trans (Nat.dvd_of_mod_eq_zero whole))
  rw [base, addr _ aligned]
  rfl

theorem changes_addDtc (s : State) (p : PortId) (e : DtcEntry) : Changes [.port0, .port1, .cache] s (addDtc s p e) := by
  unfold addDtc
  extract_lets l ways gone
  exact .ite ((Changes.refl _ s).modPort p _) (((Changes.refl _ s).modPort p _).modCache _)

theorem addDtc_dtc (s : State) (p : PortId) (e : DtcEntry) :
    ((addDtc s p e).port p).xlt.dtc.getLast? = some e ∧ ∀ y ∈ ((addDtc s p e).port p).xlt.dtc, y = e ∨ y ∈ (s.port p).xlt.dtc := by
  have one (f : Xlt → Xlt) : ((s.modXlt p f).port p).xlt = f (s.port p).xlt := by
    unfold State.modXlt
    rw [State.port_modPort]
  have spec (l : List DtcEntry) (old : ∀ y ∈ l, y ∈ (s.port p).xlt.dtc) : (l ++ [e]).getLast? = some e ∧
      ∀ y ∈ l ++ [e], y = e ∨ y ∈ (s.port p).xlt.dtc := by
    refine ⟨List.getLast?_concat, fun y mem => ?_⟩
    rcases List.mem_append.mp mem with before | new
    · exact .inr (old y before)
    · exact .inl (List.mem_singleton.mp new)
  have kept (s : State) (f : Cache → Cache) : (s.modCache f).port p = s.port p := ((Changes.refl [.cache] s).modCache f).same (State.port · p)
  unfold addDtc
  extract_lets l ways gone
  split
  · rw [one]
    exact spec l fun y mem => List.mem_of_mem_filter mem
  · rw [kept, one]
    exact spec _ fun y mem => List.mem_of_mem_filter (List.mem_of_mem_filter mem)

/-- An access whose pages all lie in a block that one entry covers alone passes, where the entry gives the right. -/
theorem xltRange_passes {e : DtcEntry} {a len : Nat} {write : Bool} (first : a / 65536 = block)
    (last : (a + len - 1) / 65536 = block) (right : cond write e.write e.read = true) (stored : e ∈ (s.port p).xlt.dtc)
    (base : e.base = block * 65536) (size : e.sizeLog2 = 16)
    (alone : ∀ y ∈ (s.port p).xlt.dtc, y = e ∨ ∀ b, b / 65536 = block → covers y b = false) :
    xltRange s p a len write = (a, .pass) := by
  have passes (b : Nat) (inside : b / 65536 = block) : xltLookup s p b write = .pass := by
    have covered : covers e b = true := by
      unfold covers
      rw [base, size, beq_iff_eq]
      omega
    have found : dtcFind (s.port p).xlt b = some e := by
      unfold dtcFind
      cases find : (s.port p).xlt.dtc.find? fun y => covers y b with
      | none => exact absurd (List.find?_eq_none.mp find e stored) (by simp [covered])
      | some y =>
        have hit := List.find?_some find
        rcases alone y (List.mem_of_find?_eq_some find) with rfl | misses
        · rfl
        · rw [misses b inside] at hit
          cases hit
    unfold xltLookup
    dsimp only
    split
    · rfl
    · rw [found]
      dsimp only
      rw [if_pos right]
  unfold xltRange
  extract_lets pages
  have none_ : (pages.find? fun b => xltLookup s p b write != .pass) = none := by
    refine List.find?_eq_none.mpr fun b mem => ?_
    obtain ⟨i, small, rfl⟩ := List.mem_map.mp mem
    have := List.mem_range.mp small
    rw [passes _ (by omega)]
    simp
  rw [none_]

/-! ## Accesses of pieces (R373 to R378) -/

theorem askerOf_piece (low : n < 2 ^ 32) : askerOf n = .piece n := if_pos low

theorem accessOf_piece (low : n < 2 ^ 32) (held : Tab.get? s.pieces n = some x) (p : PortId) :
    accessOf s p n = some ((pieceHost x.spec).1, x.spec.len, (pieceHost x.spec).2) := by
  unfold accessOf
  rw [askerOf_piece low]
  dsimp only
  rw [held]
  rfl

theorem changes_sendReads (s : State) (p : PortId) (m a len : Nat) : Changes [.logs, .port0, .port1] s (sendReads s p m a len) := by
  have counts (s : State) (a : Nat) : Changes [.logs, .port0, .port1] s (hotCount s p a) := by
    unfold hotCount
    extract_lets page y c m hit s₁
    have counted : Changes [.logs, .port0, .port1] s s₁ := (Changes.refl _ s).modPort p _
    exact .ite ((Changes.refl _ s).modPort p _) (.ite ((counted.modPort p _).andThen (changes_raiseEvent ..)) counted)
  exact (Changes.foldl (fun s _ => counts s _) _ s).trans (.foldl (fun s _ => (changes_emit ..).mono (by decide)) _ _)

/-- A piece that waits for its translation and has it goes out. -/
theorem accessGoes_issues (low : n < 2 ^ 32) (held : Tab.get? s.pieces n = some x) (missed : x.state = .missed) (host : x.spec.srcSpace = 1)
    (port : (s.stream x.quarter x.stream).hostPort = p) (pass : xltRange s p x.spec.src x.spec.len false = (x.spec.src, .pass))
    (ht : accessGoes s p n = t) : ∃ y, Tab.get? t.pieces n = some y ∧ y.state = .issued ∧ y.replays = 0 := by
  unfold accessGoes at ht
  rw [askerOf_piece low] at ht
  dsimp only at ht
  rw [held] at ht
  dsimp only at ht
  generalize marked : ({ s with pieces := Tab.set s.pieces n { x with replays := 0 } } : State) = s₁ at ht
  have held₁ : Tab.get? s₁.pieces n = some { x with replays := 0 } := by
    rw [← marked]
    exact Tab.get?_set_self ..
  have frame₁ : Changes [.pieces] s s₁ := by
    rw [← marked]
    rfl
  have route : replayPiece s₁ n = routePiece s₁ n := by
    unfold replayPiece
    rw [held₁]
    dsimp only
    rw [if_neg (by rw [missed]; decide)]
  have counted : Changes [.port0, .port1] s₁ (countLookup s₁ p .pass) := .ite (.refl _ _) ((Changes.refl _ s₁).modPort p _)
  have sends : routePiece s₁ n = sendPiece (countLookup s₁ p .pass) n := by
    unfold routePiece
    rw [held₁]
    dsimp only
    have there : (s₁.stream x.quarter x.stream).hostPort = p := by
      rw [frame₁.same (State.stream · x.quarter x.stream)]
      exact port
    have range : xltRange s₁ p x.spec.src x.spec.len false = (x.spec.src, .pass) := by
      rw [← pass, ← marked]
      rfl
    have source : pieceHost x.spec = (x.spec.src, false) := if_pos host
    rw [if_pos (.inl host), there, source, range]
  rw [route, sends] at ht
  generalize countLookup s₁ p .pass = s₂ at *
  have held₂ : Tab.get? s₂.pieces n = some { x with replays := 0 } := (counted.same (Tab.get? ·.pieces n)).trans held₁
  obtain ⟨g, h, at_⟩ := issuedPiece_piece held₂
  have out : ∃ a, sendPiece s₂ n = sendReads (issuedPiece s₂ n { x with replays := 0 }) a n x.spec.src x.spec.len := by
    unfold sendPiece
    rw [held₂]
    dsimp only
    rw [host]
    exact ⟨_, rfl⟩
  obtain ⟨a, out⟩ := out
  rw [out] at ht
  have reads := changes_sendReads (issuedPiece s₂ n { x with replays := 0 }) a n x.spec.src x.spec.len
  have last : t.pieces = (issuedPiece s₂ n { x with replays := 0 }).pieces := by
    rw [← ht]
    exact reads.same State.pieces
  rw [last]
  exact ⟨_, at_, rfl, rfl⟩

theorem changes_askTranslation (s : State) (p : PortId) (a m : Nat) : Changes [.port0, .port1] s (askTranslation s p a m) := by
  unfold askTranslation
  extract_lets x join
  exact .ite ((Changes.refl _ s).modPort p _) (.ite ((Changes.refl _ s).modPort p _) (((Changes.refl _ s).modPort p _).andThen (changes_emit ..)))

theorem changes_askNext (s : State) (p : PortId) : Changes [.port0, .port1] s (askNext s p) := by
  have first : Changes [.port0, .port1] s (s.modXlt p fun x => { x with asks := [] }) := (Changes.refl _ s).modPort p _
  exact first.trans (.foldl (fun s _ => changes_askTranslation s p _ _) _ _)

theorem State.modXlt_self {f : Xlt → Xlt} (same : f (s.port p).xlt = (s.port p).xlt) : s.modXlt p f = s :=
  s.modPort_of_self p (by rw [same])

theorem askNext_of_none (none_ : (s.port p).xlt.asks = []) : askNext s p = s := by
  unfold askNext
  rw [none_, State.modXlt_self (by rw [← none_])]
  rfl

theorem unstarve_of_none (none_ : (s.port p).xlt.starved = []) : unstarve s p = s := by
  unfold unstarve
  rw [none_, State.modXlt_self (by rw [← none_])]
  rfl

/-! ## Pieces that fail (R345, R375, R377) -/

/-- From s to t the pieces with the given numbers failed with HOST_FAULT, and no translation state changed. -/
structure PiecesFail (ns : List Nat) (s t : State) : Prop where
  changes : Changes [.port0, .port1, .engines, .streams, .pieces] s t
  xlt : ∀ p, (t.port p).xlt = (s.port p).xlt
  others : ∀ m, m ∉ ns → Tab.get? t.pieces m = Tab.get? s.pieces m
  err : ∀ n ∈ ns, ∀ x, Tab.get? s.pieces n = some x → (Tab.get? t.pieces n).map (·.err) = some (some 3)

theorem failAccess_piece (low : n < 2 ^ 32) (s : State) (p : PortId) : PiecesFail [n] s (failAccess s p n) := by
  unfold failAccess
  rw [askerOf_piece low]
  dsimp only
  split
  · next x held =>
    generalize tagged : (if x.state = .faulted then replayTags s x else s) = s₁
    have frame : Changes [.engines, .streams] s s₁ := by
      rw [← tagged]
      exact .ite (changes_replayTags s x) (.refl _ s)
    have held₁ : Tab.get? s₁.pieces n = some x := (frame.same (Tab.get? ·.pieces n)).trans held
    rw [pieceErr_of_piece (by omega) held₁]
    refine ⟨?_, fun p' => ?_, fun m out => ?_, fun m mem y held' => ?_⟩
    · have tags : Changes [.port0, .port1] s₁
          (s₁.modPort (s₁.stream x.quarter x.stream).hostPort fun p => { p with tags := p.tags - x.portTags }) :=
        (Changes.refl _ s₁).modPort _ _
      exact (frame.comp (n := [.port0, .port1, .engines, .streams, .pieces]) tags).trans rfl
    · change ((s₁.modPort (s₁.stream x.quarter x.stream).hostPort _).port p').xlt = _
      rw [← frame.same (State.port · p')]
      by_cases same : p' = (s₁.stream x.quarter x.stream).hostPort
      · rw [same, State.port_modPort]
      · rw [State.port_modPort_ne s₁ same]
    · refine (Tab.get?_set_ne _ _ (by simpa using out)).trans ?_
      rw [frame.same State.pieces]
    · obtain rfl := List.mem_singleton.mp mem
      rw [Tab.get?_set_self]
      rfl
  · next none_ =>
    exact ⟨.refl _ s, fun _ => rfl, fun _ _ => rfl, fun m mem x held => by rw [List.mem_singleton.mp mem, none_] at held; cases held⟩

theorem failWaiters_pieces (p : PortId) (ns : List Nat) (low : ∀ n ∈ ns, n < 2 ^ 32) (s : State) : PiecesFail ns s (failWaiters s p ns) := by
  induction ns generalizing s with
  | nil => exact ⟨.refl _ s, fun _ => rfl, fun _ _ => rfl, fun _ mem => absurd mem List.not_mem_nil⟩
  | cons n ns ih =>
    have one := failAccess_piece (low n List.mem_cons_self) s p
    have rest := ih (fun m mem => low m (List.mem_cons_of_mem _ mem)) (failAccess s p n)
    have mine (x : Piece) (held : Tab.get? s.pieces n = some x) := one.err n (List.mem_singleton_self _) x held
    refine ⟨one.changes.trans rest.changes, fun p' => (rest.xlt p').trans (one.xlt p'), fun m out => ?_, fun m mem x held => ?_⟩
    · obtain ⟨ne, out⟩ := not_or.mp (mt List.mem_cons.mpr out)
      exact (rest.others m out).trans (one.others m (by simpa using ne))
    · by_cases later : m ∈ ns
      · by_cases same : m = n
        · subst same
          obtain ⟨y, held', -⟩ := Option.map_eq_some_iff.mp (mine x held)
          exact rest.err m later y held'
        · exact rest.err m later x ((one.others m (by simpa using same)).trans held)
      · obtain rfl := (List.mem_cons.mp mem).resolve_right later
        exact (congrArg (Option.map _) (rest.others m later)).trans (mine x held)

end Sys2Proof.Machine
end

section
/-! SUPPORT. The answers of the host's translation agent: Translation Completions, PRG Responses and their timeouts (R371 to R381); O12. -/

namespace Sys2Proof.Machine

open Sys2Proof

-- Proofs are checked one at a time: each that waits for its turn would hold a thread's stack.
set_option Elab.async false

variable {s t u : State} {p : PortId} {q n m i block : Nat} {x : Piece} {r : TransReq} {g : PageReq}

theorem State.xlt_modXlt (s : State) (p : PortId) (f : Xlt → Xlt) : ((s.modXlt p f).port p).xlt = f (s.port p).xlt := by
  unfold State.modXlt
  rw [State.port_modPort]

/-! ## Translation Completions (R371, R373, R381) -/

/-- What waited on an answer goes on in the state in which its translations are stored. -/
def answered (s : State) (p : PortId) (block : Nat) (r : TransReq) (ts : List AtsEntry) : State :=
  let s := s.modXlt p fun x => { x with reqs := x.reqs.erase r }
  if r.stale then s else translationEffect.storeAll s p r block ts

theorem translationEffect_eq (found : (s.port p).xlt.reqs.find? (fun r => r.block == block) = some r) (ts : List AtsEntry) :
    translationEffect s p block ts = askNext (r.waiters.foldl (fun s n =>
      if r.stale then askTranslation s p (block * 65536) n else afterTranslation s p block n) (answered s p block r ts)) p := by
  unfold translationEffect
  rw [found]
  rfl

theorem answered_merged {e : AtsEntry} {es : List AtsEntry} (fresh : r.stale = false) (merge : mergeable (e :: es) = true)
    (right : e.read = true ∨ e.write = true) : answered s p block r (e :: es) =
      addDtc (s.modXlt p fun x => { x with reqs := x.reqs.erase r }) p (mergedEntry block e) := by
  unfold answered
  dsimp only
  rw [fresh, if_neg Bool.false_ne_true]
  unfold translationEffect.storeAll
  dsimp only
  rw [storeEntries_merged merge right]
  rfl

theorem exec_translationCompletion (up : live s = true) (found : (s.port p).xlt.reqs.find? (fun r => r.block == block) = some r)
    (ts : List AtsEntry) : exec (.translationCompletion p block ts) s = .next (translationEffect s p block ts) := by
  have any : ((s.port p).xlt.reqs.any fun r => r.block == block) = true :=
    List.any_eq_true.mpr ⟨r, List.mem_of_find?_eq_some found, List.find?_some (p := fun r : TransReq => r.block == block) found⟩
  exact occurs_of_true (show (live s && (s.port p).xlt.reqs.any fun r => r.block == block) = true by rw [up, any]; rfl) _ s

/-- The answer of a request that no access waits on, and that brings nothing, ends the request alone. -/
theorem translationEffect_idle (found : (s.port p).xlt.reqs.find? (fun r => r.block == block) = some r) (none_ : r.waiters = [])
    (asks : (s.port p).xlt.asks = []) {ts : List AtsEntry} (empty : r.stale = true ∨ ts = []) :
    translationEffect s p block ts = s.modPort p fun x => { x with xlt := { x.xlt with reqs := x.xlt.reqs.erase r } } := by
  have answer : answered s p block r ts = s.modXlt p fun x => { x with reqs := x.reqs.erase r } := by
    unfold answered
    dsimp only
    rcases empty with stale | rfl
    · rw [stale, if_pos rfl]
    · split
      · rfl
      · rfl
  rw [translationEffect_eq found, none_, answer, List.foldl_nil]
  exact askNext_of_none (by rw [State.xlt_modXlt]; exact asks)

/-- Sixteen pages that merge are stored as one entry, and what waited leaves it there. -/
theorem translationEffect_merged (found : (s.port p).xlt.reqs.find? (fun r => r.block == block) = some r) {e : AtsEntry} {es : List AtsEntry}
    (fresh : r.stale = false) (merge : mergeable (e :: es) = true) (right : e.read = true ∨ e.write = true) :
    ((translationEffect s p block (e :: es)).port p).xlt.dtc.getLast? = some (mergedEntry block e) := by
  rw [translationEffect_eq found, answered_merged fresh merge right]
  have stored := (addDtc_dtc (s.modXlt p fun x => { x with reqs := x.reqs.erase r }) p (mergedEntry block e)).1
  generalize addDtc (s.modXlt p fun x => { x with reqs := x.reqs.erase r }) p (mergedEntry block e) = s₁ at *
  have later : SameDtc s₁ (askNext (r.waiters.foldl (fun s n =>
      if r.stale then askTranslation s p (block * 65536) n else afterTranslation s p block n) s₁) p) :=
    .trans (.foldl (fun s _ => .ite (sameDtc_askTranslation ..) (sameDtc_afterTranslation ..)) _ _) (sameDtc_askNext ..)
  rw [later.dtc]
  exact stored

/-- A piece whose bytes the answer covers goes out. -/
theorem translationEffect_issues (found : (s.port p).xlt.reqs.find? (fun r => r.block == block) = some r) {e : AtsEntry} {es : List AtsEntry}
    (fresh : r.stale = false) (merge : mergeable (e :: es) = true) (right : e.read = true) (low : n < 2 ^ 32) (waits : r.waiters = [n])
    (held : Tab.get? s.pieces n = some x) (missed : x.state = .missed) (host : x.spec.srcSpace = 1)
    (port : (s.stream x.quarter x.stream).hostPort = p) (first : x.spec.src / 65536 = block)
    (last : (x.spec.src + x.spec.len - 1) / 65536 = block)
    (alone : ∀ e ∈ (s.port p).xlt.dtc, ∀ a, a / 65536 = block → covers e a = false) (ht : translationEffect s p block (e :: es) = t) :
    ∃ y, Tab.get? t.pieces n = some y ∧ y.state = .issued ∧ y.replays = 0 := by
  rw [translationEffect_eq found, answered_merged fresh merge (.inl right), waits, List.foldl_cons, List.foldl_nil, fresh,
    if_neg Bool.false_ne_true] at ht
  obtain ⟨stored, only⟩ := addDtc_dtc (s.modXlt p fun x => { x with reqs := x.reqs.erase r }) p (mergedEntry block e)
  have frame : Changes [.port0, .port1, .cache] s (addDtc (s.modXlt p fun x => { x with reqs := x.reqs.erase r }) p (mergedEntry block e)) :=
    ((Changes.refl [.port0, .port1, .cache] s).modPort p _).trans (changes_addDtc ..)
  generalize addDtc (s.modXlt p fun x => { x with reqs := x.reqs.erase r }) p (mergedEntry block e) = s₁ at *
  have held₁ : Tab.get? s₁.pieces n = some x := (frame.same (Tab.get? ·.pieces n)).trans held
  have port₁ : (s₁.stream x.quarter x.stream).hostPort = p := by
    rw [frame.same (State.stream · x.quarter x.stream)]
    exact port
  have pass : xltRange s₁ p x.spec.src x.spec.len false = (x.spec.src, .pass) := by
    refine xltRange_passes (e := mergedEntry block e) first last right (List.mem_of_getLast? stored) rfl rfl fun y mem => ?_
    refine (only y mem).imp_right fun old => alone y ?_
    rw [State.xlt_modXlt] at old
    exact old
  have goes : afterTranslation s₁ p block n = accessGoes s₁ p n := by
    unfold afterTranslation
    rw [accessOf_piece low held₁]
    dsimp only
    rw [show pieceHost x.spec = (x.spec.src, false) from if_pos host]
    dsimp only
    rw [pass, if_pos rfl]
  rw [goes] at ht
  obtain ⟨y, at_, issued, replays⟩ := accessGoes_issues low held₁ missed host port₁ pass rfl
  refine ⟨y, ?_, issued, replays⟩
  rw [← ht, (changes_askNext ..).same State.pieces]
  exact at_

/-- A request that an invalidation made stale is asked again. -/
theorem translationEffect_again (only : (s.port p).xlt.reqs = [r]) (found : (s.port p).xlt.reqs.find? (fun r => r.block == block) = some r)
    (asks : (s.port p).xlt.asks = []) (stale : r.stale = true) (waits : r.waiters = [n]) (ts : List AtsEntry) :
    translationEffect s p block ts =
      emit (s.modPort p fun x => { x with xlt := { x.xlt with reqs := [⟨block, false, [n]⟩] } }) p (.transReq block) := by
  have answer : answered s p block r ts = s.modXlt p fun x => { x with reqs := x.reqs.erase r } := by
    unfold answered
    dsimp only
    rw [stale, if_pos rfl]
  have gone : ((s.modXlt p fun x => { x with reqs := x.reqs.erase r }).port p).xlt.reqs = [] := by
    rw [State.xlt_modXlt]
    dsimp only
    rw [only, List.erase_cons_head]
  rw [translationEffect_eq found, waits, List.foldl_cons, List.foldl_nil, stale, if_pos rfl, answer]
  have block_ : blk (block * 65536) = block := Nat.mul_div_cancel _ (by decide)
  have ask : askTranslation (s.modXlt p fun x => { x with reqs := x.reqs.erase r }) p (block * 65536) n =
      emit (s.modPort p fun x => { x with xlt := { x.xlt with reqs := [⟨block, false, [n]⟩] } }) p (.transReq block) := by
    unfold askTranslation
    dsimp only
    rw [gone, block_, List.any_nil, if_neg Bool.false_ne_true, if_neg (by decide)]
    congr 1
    unfold State.modXlt
    rw [State.modPort_modPort]
    refine s.modPort_congr p ?_
    dsimp only
    rw [only, List.erase_cons_head]
    rfl
  rw [ask]
  refine askNext_of_none ?_
  rw [emit_eq, State.port_modPort, State.port_modPort]
  unfold Port.emit
  split
  · exact asks
  · exact asks

/-! ## PRG Responses (R375, R377) -/

theorem exec_prgResponse (up : live s = true) (page : Tab.get? (s.port p).xlt.pages i = some g) (code : PrgCode) :
    exec (.prgResponse p i code) s = .next (prgEffect s p i code) :=
  occurs_of_true (show (live s && Tab.has (s.port p).xlt.pages i) = true by rw [up, Tab.has, page]; rfl) _ s

theorem exec_priTimeout (up : live s = true) (page : Tab.get? (s.port p).xlt.pages i = some g) (open_ : g.expired = false) :
    exec (.priTimeout p i) s = .next (priTimeoutEffect s p i) := by
  refine occurs_of_true (show (live s && _) = true from ?_) _ s
  rw [up, page]
  dsimp only
  rw [open_]
  rfl

/-- The index of a page request that was answered is free. -/
def indexFreed (s : State) (p : PortId) (i : Nat) : State := s.modXlt p fun x => { x with pages := Tab.erase x.pages i }

theorem changes_indexFreed (s : State) (p : PortId) (i : Nat) : Changes [.port0, .port1] s (indexFreed s p i) := by
  unfold indexFreed
  exact (Changes.refl _ s).modPort p _

theorem indexFreed_starved (none_ : (s.port p).xlt.starved = []) : ((indexFreed s p i).port p).xlt.starved = [] := by
  unfold indexFreed
  rw [State.xlt_modXlt]
  exact none_

theorem prgEffect_expired (page : Tab.get? (s.port p).xlt.pages i = some g) (late : g.expired = true) (none_ : (s.port p).xlt.starved = [])
    (code : PrgCode) : prgEffect s p i code = indexFreed s p i := by
  unfold prgEffect
  rw [page]
  dsimp only
  rw [late, if_pos rfl]
  exact unstarve_of_none (indexFreed_starved none_)

theorem prgEffect_invalid (page : Tab.get? (s.port p).xlt.pages i = some g) (open_ : g.expired = false) :
    prgEffect s p i .invalidRequest = unstarve (failWaiters (indexFreed s p i) p g.waiters) p := by
  unfold prgEffect
  rw [page]
  dsimp only
  rw [open_, if_neg Bool.false_ne_true]
  rfl

/-- The entries of an answered page are gone. -/
def pageDropped (s : State) (p : PortId) (page : Nat) : State :=
  s.modXlt p fun x => { x with dtc := x.dtc.filter fun e => !covers e (page * 4096) }

theorem changes_pageDropped (s : State) (p : PortId) (page : Nat) : Changes [.port0, .port1] s (pageDropped s p page) := by
  unfold pageDropped
  exact (Changes.refl _ s).modPort p _

theorem prgEffect_success (page : Tab.get? (s.port p).xlt.pages i = some g) (open_ : g.expired = false) :
    prgEffect s p i .success =
      unstarve (g.waiters.foldl (fun s n => replayAccess s p g.page n) (pageDropped (indexFreed s p i) p g.page)) p := by
  unfold prgEffect
  rw [page]
  dsimp only
  rw [open_, if_neg Bool.false_ne_true]
  rfl

/-- A piece that holds its tags again and has missed. -/
def missedAgain (s : State) (n : Nat) (x : Piece) : State :=
  { replayTags s x with pieces := Tab.adjust s.pieces n fun y => { y with state := .missed } }

/-- A piece that waits for a page asks for it anew. -/
theorem replayAccess_piece (low : n < 2 ^ 32) (held : Tab.get? s.pieces n = some x) (page : Nat) (room : (s.port p).xlt.reqs.length < 64)
    (new : ∀ r ∈ (s.port p).xlt.reqs, r.block ≠ page * 4096 / 65536) (ht : replayAccess s p page n = t) :
    Changes [.port0, .port1, .pieces, .engines, .streams] s t ∧ (Tab.get? t.pieces n).map (·.state) = some .missed ∧
      (∀ m, m ≠ n → Tab.get? t.pieces m = Tab.get? s.pieces m) ∧
      t.port p = ({ s.port p with xlt := { (s.port p).xlt with
        reqs := (s.port p).xlt.reqs ++ [⟨page * 4096 / 65536, false, [n]⟩] } } : Port).emit (.transReq (page * 4096 / 65536)) := by
  unfold replayAccess at ht
  rw [askerOf_piece low] at ht
  dsimp only at ht
  rw [held] at ht
  dsimp only at ht
  change (if (accessOf (missedAgain s n x) p n).isSome then askTranslation (missedAgain s n x) p (page * 4096) n else missedAgain s n x) = t at ht
  have frame : Changes [.engines, .streams, .pieces] s (missedAgain s n x) := ((changes_replayTags s x).mono (by decide)).trans rfl
  have pieces (m : Nat) : Tab.get? (missedAgain s n x).pieces m =
      if m = n then (Tab.get? s.pieces n).map (fun y => { y with state := .missed }) else Tab.get? s.pieces m := Tab.get?_adjust ..
  generalize missedAgain s n x = s₁ at *
  have held₁ : Tab.get? s₁.pieces n = some { x with state := .missed } := by
    rw [pieces, if_pos rfl, held]
    rfl
  have port : s₁.port p = s.port p := frame.same (State.port · p)
  rw [accessOf_piece low held₁, Option.isSome_some, if_pos rfl] at ht
  have asked : ((s.port p).xlt.reqs.any fun r => r.block == blk (page * 4096) && !r.stale) = false := by
    refine List.any_eq_false.mpr fun r mem => ?_
    have := new r mem
    simp [blk, this]
  have out : t = emit (s₁.modXlt p fun x => { x with reqs := x.reqs ++ [⟨page * 4096 / 65536, false, [n]⟩] }) p
      (.transReq (page * 4096 / 65536)) := by
    rw [← ht]
    unfold askTranslation
    dsimp only
    rw [port, asked, if_neg Bool.false_ne_true, if_neg (by omega)]
    rfl
  have asks : Changes [.port0, .port1] s₁ t := by
    rw [out]
    exact ((Changes.refl [.port0, .port1] s₁).modPort p _).trans (changes_emit ..)
  refine ⟨frame.comp asks, ?_, fun m ne => ?_, ?_⟩
  · rw [asks.same State.pieces, held₁]
    rfl
  · rw [asks.same State.pieces, pieces, if_neg ne]
  · rw [out, emit_eq, State.port_modPort, State.modXlt, State.port_modPort, port]

theorem Tab.mem_erase_of_ne {α : Type} {t : Table α} {j k : Nat} {a : α} (mem : (j, a) ∈ t) (ne : j ≠ k) : (j, a) ∈ Tab.erase t k := by
  have listed : (j, a) ∈ (Tab.erase t k).filter fun y => y.1 == j := by
    rw [Tab.filter_erase_ne t (Ne.symm ne)]
    exact List.mem_filter.mpr ⟨mem, beq_self_eq_true j⟩
  exact List.mem_of_mem_filter listed

/-- Everyone of a port who waits for a page, or for room to ask for one. -/
def pageWaiters (s : State) (p : PortId) (i : Nat) (g : PageReq) : List Nat :=
  g.waiters ++ ((Tab.erase (s.port p).xlt.pages i).flatMap fun (_, h) => if h.expired then [] else h.waiters) ++ (s.port p).xlt.starved

theorem prgEffect_failure (page : Tab.get? (s.port p).xlt.pages i = some g) (open_ : g.expired = false) :
    prgEffect s p i .responseFailure = (failWaiters (indexFreed s p i) p (pageWaiters s p i g)).modXlt p fun x =>
      { x with pages := Tab.keep x.pages fun _ h => h.expired, starved := [], priStopped := true } := by
  unfold prgEffect
  rw [page]
  dsimp only
  rw [open_, if_neg Bool.false_ne_true]
  unfold pageWaiters
  have freed : ((indexFreed s p i).port p).xlt = { (s.port p).xlt with pages := Tab.erase (s.port p).xlt.pages i } := State.xlt_modXlt ..
  unfold indexFreed at freed ⊢
  rw [freed]

theorem priTimeoutEffect_eq (page : Tab.get? (s.port p).xlt.pages i = some g) : priTimeoutEffect s p i =
    failWaiters (s.modXlt p fun x => { x with pages := Tab.set x.pages i { g with waiters := [], expired := true } }) p g.waiters := by
  unfold priTimeoutEffect
  rw [page]

/-! ## O12 -/

theorem pages_of_xlt {pages : Table PageReq} {f : Xlt → Xlt} (same : (t.port p).xlt = ((s.modXlt p f).port p).xlt)
    (kept : (f (s.port p).xlt).pages = pages) : (t.port p).xlt.pages = pages := by
  rw [same, State.xlt_modXlt, kept]

/-- The page of a piece that waits alone is not to be had: the piece fails. -/
theorem prgEffect_invalid_piece (page : Tab.get? (s.port p).xlt.pages i = some g) (open_ : g.expired = false) (low : n < 2 ^ 32)
    (waits : g.waiters = [n]) (held : Tab.get? s.pieces n = some x) (starved : (s.port p).xlt.starved = []) :
    (Tab.get? (prgEffect s p i .invalidRequest).pieces n).map (·.err) = some (some 3) ∧
      (∀ m, m ≠ n → Tab.get? (prgEffect s p i .invalidRequest).pieces m = Tab.get? s.pieces m) ∧
      ((prgEffect s p i .invalidRequest).port p).xlt.pages = Tab.erase (s.port p).xlt.pages i ∧
      Changes [.port0, .port1, .engines, .streams, .pieces] s (prgEffect s p i .invalidRequest) := by
  have freed : Changes [.port0, .port1] s (indexFreed s p i) := changes_indexFreed s p i
  have fails := failWaiters_pieces p g.waiters (by rw [waits]; simpa using low) (indexFreed s p i)
  have last : prgEffect s p i .invalidRequest = failWaiters (indexFreed s p i) p g.waiters := by
    rw [prgEffect_invalid page open_]
    refine unstarve_of_none ?_
    rw [fails.xlt]
    exact indexFreed_starved starved
  rw [last, waits] at *
  have pieces : (indexFreed s p i).pieces = s.pieces := freed.same State.pieces
  refine ⟨fails.err n (List.mem_singleton_self n) x (by rw [pieces]; exact held), fun m ne => ?_, ?_,
    freed.comp (n := [.port0, .port1, .engines, .streams, .pieces]) fails.changes⟩
  · rw [fails.others m (by simpa using ne), pieces]
  · exact pages_of_xlt (fails.xlt p) rfl

/-- The page of a piece that waits alone is there: the piece asks for its translation anew. -/
theorem prgEffect_success_piece (page : Tab.get? (s.port p).xlt.pages i = some g) (open_ : g.expired = false) (low : n < 2 ^ 32)
    (waits : g.waiters = [n]) (held : Tab.get? s.pieces n = some x) (starved : (s.port p).xlt.starved = [])
    (room : (s.port p).xlt.reqs.length < 64) (new : ∀ r ∈ (s.port p).xlt.reqs, r.block ≠ g.page * 4096 / 65536)
    (ht : prgEffect s p i .success = t) :
    t.port p = ({ s.port p with xlt := { (s.port p).xlt with
        pages := Tab.erase (s.port p).xlt.pages i, dtc := (s.port p).xlt.dtc.filter fun e => !covers e (g.page * 4096)
        reqs := (s.port p).xlt.reqs ++ [⟨g.page * 4096 / 65536, false, [n]⟩] } } : Port).emit (.transReq (g.page * 4096 / 65536)) ∧
      (Tab.get? t.pieces n).map (·.state) = some .missed ∧ (∀ m, m ≠ n → Tab.get? t.pieces m = Tab.get? s.pieces m) ∧
      Changes [.port0, .port1, .pieces, .engines, .streams] s t := by
  have dropped : Changes [.port0, .port1] s (pageDropped (indexFreed s p i) p g.page) :=
    (changes_indexFreed s p i).trans (changes_pageDropped ..)
  have port : (pageDropped (indexFreed s p i) p g.page).port p = { s.port p with xlt := { (s.port p).xlt with
      pages := Tab.erase (s.port p).xlt.pages i, dtc := (s.port p).xlt.dtc.filter fun e => !covers e (g.page * 4096) } } := by
    unfold pageDropped indexFreed State.modXlt
    rw [State.port_modPort, State.port_modPort]
  rw [prgEffect_success page open_, waits, List.foldl_cons, List.foldl_nil] at ht
  generalize pageDropped (indexFreed s p i) p g.page = s₁ at *
  have pieces : s₁.pieces = s.pieces := dropped.same State.pieces
  obtain ⟨frame, state, others, after⟩ := replayAccess_piece (s := s₁) (p := p) low (by rw [pieces]; exact held) g.page
    (by rw [port]; exact room) (by rw [port]; exact new) rfl
  have none_ : ((replayAccess s₁ p g.page n).port p).xlt.starved = [] := by
    rw [after, port]
    unfold Port.emit
    split
    · exact starved
    · exact starved
  rw [unstarve_of_none none_] at ht
  subst ht
  refine ⟨?_, state, fun m ne => (others m ne).trans (by rw [pieces]), dropped.comp (n := [.port0, .port1, .pieces, .engines, .streams]) frame⟩
  rw [after, port]

theorem Port.emit_xlt (x : Port) (o : PortOut) : (x.emit o).xlt = x.xlt := by rw [Port.emit_fields]

/-- Page requests that fail: every piece that waits for one fails, and no more are made. -/
theorem prgEffect_failure_spec (page : Tab.get? (s.port p).xlt.pages i = some g) (open_ : g.expired = false)
    (ht : prgEffect s p i .responseFailure = t) :
    (t.port p).xlt.priStopped = true ∧ (t.port p).xlt.starved = [] ∧ (∀ h ∈ (t.port p).xlt.pages, h.2.expired = true) ∧
      ((∀ n ∈ g.waiters, n < 2 ^ 32) → (∀ n ∈ (s.port p).xlt.starved, n < 2 ^ 32) →
        (∀ h ∈ (s.port p).xlt.pages, ∀ n ∈ h.2.waiters, n < 2 ^ 32) →
        ∀ n x, Tab.get? s.pieces n = some x → n ∈ g.waiters ∨ n ∈ (s.port p).xlt.starved ∨
            (∃ j h, j ≠ i ∧ (j, h) ∈ (s.port p).xlt.pages ∧ h.expired = false ∧ n ∈ h.waiters) →
          (Tab.get? t.pieces n).map (·.err) = some (some 3)) := by
  rw [prgEffect_failure page open_] at ht
  subst ht
  refine ⟨?_, ?_, fun h mem => ?_, fun lowG lowS lowP n x held waits => ?_⟩
  · rw [State.xlt_modXlt]
  · rw [State.xlt_modXlt]
  · rw [State.xlt_modXlt] at mem
    simpa using (List.mem_filter.mp mem).2
  · have low : ∀ m ∈ pageWaiters s p i g, m < 2 ^ 32 := by
      intro m mem
      unfold pageWaiters at mem
      rw [List.mem_append, List.mem_append, List.mem_flatMap] at mem
      rcases mem with (mine | ⟨h, listed, other⟩) | starved
      · exact lowG m mine
      · obtain ⟨j, h⟩ := h
        dsimp only at other
        split at other
        · cases other
        · exact lowP (j, h) (Mem.mem_erase listed) m other
      · exact lowS m starved
    have listed : n ∈ pageWaiters s p i g := by
      unfold pageWaiters
      rw [List.mem_append, List.mem_append, List.mem_flatMap]
      rcases waits with mine | starved | ⟨j, h, ne, mem, here, waits⟩
      · exact .inl (.inl mine)
      · exact .inr starved
      · refine .inl (.inr ⟨(j, h), Tab.mem_erase_of_ne mem ne, ?_⟩)
        dsimp only
        rw [here]
        exact waits
    have freed : Changes [.port0, .port1] s (indexFreed s p i) := changes_indexFreed s p i
    have fails := failWaiters_pieces p _ low (indexFreed s p i)
    have held₁ : Tab.get? (indexFreed s p i).pieces n = some x := (freed.same (Tab.get? ·.pieces n)).trans held
    unfold State.modXlt
    rw [State.modPort_pieces]
    exact fails.err n listed x held₁

/-- Settles O12: what an answer ends, stores and drops, and what its waiters do then. -/
theorem hostTranslation : Obligations.HostTranslation := by
  unfold Obligations.HostTranslation
  refine ⟨fun p s up => ⟨?_, fun itag base size small room new => ?_, fun itag i found drained => ?_⟩,
    fun p block r s up found => ⟨fun ts => ?_, fun ts none_ asks empty => ?_, fun e es fresh merge right => ?_,
      fun e es n x fresh merge right low waits held missed host port _ first last alone => ?_, fun ts n only asks stale waits => ?_⟩,
    fun p i g s up page => ⟨fun code => ?_, fun code late none_ => ?_, fun open_ none_ starved => ⟨?_, ?_⟩,
      fun n x open_ low waits held starved => ⟨?_, fun room new => ?_⟩, fun open_ => ?_, fun open_ => ⟨?_, fun low => ?_⟩⟩⟩
  · have row : exec (.hotPeriod p) s = .next (hotPeriodEffect s p) := occurs_of_true up _ s
    rw [row]
    unfold hotPeriodEffect State.modXlt
    dsimp only
    rw [State.modPort_modPort]
    refine congrArg _ (s.modPort_congr p ?_)
    dsimp only
    unfold Tab.keep Tab.map
    rfl
  · have others : ((s.port p).xlt.invs.all fun i => i.itag != itag) = true := List.all_eq_true.mpr fun i mem => by simpa using new i mem
    have row : exec (.invalidateRequest p itag base size) s = .next (invalidateEffect s p itag base size) :=
      occurs_of_true (show (live s && decide (itag < 32) && decide ((s.port p).xlt.invs.length < 32)
        && (s.port p).xlt.invs.all fun i => i.itag != itag) = true by rw [up, decide_eq_true small, decide_eq_true room, others]; rfl) _ s
    refine ⟨_, row, ?_⟩
    unfold invalidateEffect
    dsimp only
    rw [State.xlt_modXlt]
    dsimp only
    refine ⟨fun e => ?_, fun r mem low high => ?_, rfl, rfl, s.modPort_congr p rfl⟩
    · rw [List.mem_filter]
      refine and_congr Iff.rfl ?_
      rw [Bool.not_eq_true', ← Bool.not_eq_true, Bool.and_eq_true, decide_eq_true_eq, decide_eq_true_eq]
    · obtain ⟨r', -, same⟩ := List.mem_map.mp mem
      split at same
      · rw [← same]
      · next out =>
        subst same
        exact absurd (by rw [decide_eq_true low, decide_eq_true high]; rfl) out
  · have ok : (live s && match (s.port p).xlt.invs.find? fun i => i.itag == itag with
        | some i => drainedBefore s p i.gen
        | none => false) = true := by
      rw [up, found]
      exact drained
    exact occurs_of_true ok _ s
  · exact ⟨_, exec_translationCompletion up found ts, translationEffect_fixed ..⟩
  · rw [exec_translationCompletion up found, translationEffect_idle found none_ asks empty]
  · exact ⟨_, exec_translationCompletion up found _, translationEffect_merged found fresh merge right⟩
  · obtain ⟨y, at_, issued, replays⟩ := translationEffect_issues found fresh merge right low waits held missed host port first last alone rfl
    exact ⟨_, exec_translationCompletion up found _, by rw [at_]; exact congrArg some issued, by rw [at_]; exact congrArg some replays⟩
  · rw [exec_translationCompletion up found, translationEffect_again only found asks stale waits]
  · exact ⟨_, exec_prgResponse up page code, prgEffect_fixed ..⟩
  · rw [exec_prgResponse up page, prgEffect_expired page late none_]
    rfl
  · rw [exec_prgResponse up page, prgEffect_invalid page open_, none_]
    exact congrArg _ (unstarve_of_none (indexFreed_starved starved))
  · have empty : ((pageDropped (indexFreed s p i) p g.page).port p).xlt.starved = [] := by
      unfold pageDropped
      rw [State.xlt_modXlt]
      exact indexFreed_starved starved
    rw [exec_prgResponse up page, prgEffect_success page open_, none_, List.foldl_nil, unstarve_of_none empty]
    unfold pageDropped indexFreed State.modXlt
    rw [State.modPort_modPort]
  · obtain ⟨err, others, pages, frame⟩ := prgEffect_invalid_piece page open_ low waits held starved
    exact ⟨_, exec_prgResponse up page _, err, others, pages, frame⟩
  · obtain ⟨port, state, others, frame⟩ := prgEffect_success_piece page open_ low waits held starved room new rfl
    refine ⟨_, exec_prgResponse up page _, ?_, fun e => ?_, ?_, fun master awake_ => ?_, state, others, frame⟩
    · rw [port, Port.emit_xlt]
    · rw [port, Port.emit_xlt]
      simp [List.mem_filter]
    · rw [port, Port.emit_xlt]
    · rw [port]
      unfold Port.emit
      dsimp only
      rw [master, awake_]
      rfl
  · obtain ⟨stopped, starved, expired, errs⟩ := prgEffect_failure_spec page open_ rfl
    exact ⟨_, exec_prgResponse up page _, stopped, starved, expired, errs⟩
  · exact ⟨_, exec_priTimeout up page open_, priTimeoutEffect_fixed ..⟩
  · refine ⟨_, exec_priTimeout up page open_, ?_⟩
    rw [priTimeoutEffect_eq page]
    generalize marked : (s.modXlt p fun x => { x with pages := Tab.set x.pages i { g with waiters := [], expired := true } }) = s₁
    have frame : Changes [.port0, .port1] s s₁ := by
      rw [← marked]
      exact (Changes.refl _ s).modPort p _
    have pieces : s₁.pieces = s.pieces := frame.same State.pieces
    have fails := failWaiters_pieces p _ low s₁
    refine ⟨fun n x held mem => fails.err n mem x (by rw [pieces]; exact held), fun m out => (fails.others m out).trans (by rw [pieces]), ?_,
      frame.comp (n := [.port0, .port1, .pieces, .engines, .streams]) fails.changes⟩
    rw [fails.xlt, ← marked, State.xlt_modXlt]
    exact Tab.get?_set_self ..

end Sys2Proof.Machine
end

section
/-! SUPPORT. What the loss of pages, and the arrival of one, leave of the flash tier (R433, R434, R443). -/

namespace Sys2Proof.Machine

open Sys2Proof

-- Proofs are checked one at a time: each that waits for its turn would hold a thread's stack.
set_option Elab.async false

variable {s t u : State}

/-! ## The medium and what is counted of it stay -/

/-- From s to t the channels, the blocks, the pages to recover and the number of lost pages are the same. -/
structure FlashStays (s t : State) : Prop where
  channels : t.flash.channels = s.flash.channels
  blocks : t.flash.blocks = s.flash.blocks
  recoverDue : t.flash.recoverDue = s.flash.recoverDue
  lostPages : t.flash.lostPages = s.flash.lostPages

namespace FlashStays

theorem refl (s : State) : FlashStays s s := ⟨rfl, rfl, rfl, rfl⟩

theorem trans (h : FlashStays s t) (k : FlashStays t u) : FlashStays s u :=
  ⟨k.channels.trans h.channels, k.blocks.trans h.blocks, k.recoverDue.trans h.recoverDue, k.lostPages.trans h.lostPages⟩

theorem ite {c : Prop} [Decidable c] (h : FlashStays s t) (k : FlashStays s u) : FlashStays s (if c then t else u) := by
  split
  · exact h
  · exact k

theorem foldl {α : Type} {g : State → α → State} (h : ∀ s a, FlashStays s (g s a)) (as : List α) (s : State) :
    FlashStays s (as.foldl g s) :=
  List.foldlRecOn as g (motive := FlashStays s) (refl s) fun t ht a _ => ht.trans (h t a)

theorem of_changes {l : List Part} (h : Changes l s t) (flash : ∀ s t, (State.take l s t).flash = s.flash := by intro _ _; rfl) :
    FlashStays s t := by
  have same : t.flash = s.flash := h.same State.flash flash
  exact ⟨by rw [same], by rw [same], by rw [same], by rw [same]⟩

end FlashStays

theorem flashStays_dropTiles (s : State) (ts : List Nat) : FlashStays s (dropTiles s ts) := by
  refine .foldl (fun s t => ?_) ts s
  unfold dropTile
  split
  · exact .refl s
  · next e _ =>
    extract_lets s₁ s₂ s₃
    have freed (s : State) (t : Nat) : FlashStays s (freeT4 s t) := ⟨rfl, rfl, rfl, rfl⟩
    have pages : FlashStays s s₁ := .ite (.of_changes (changes_givePages ..)) (.refl s)
    have place : FlashStays s s₂ := .ite (pages.trans (freed ..)) pages
    have backing : FlashStays s s₃ := .ite (place.trans (freed ..)) place
    exact backing.trans (.of_changes ((Changes.refl [.tiers] s₃).modTiers _))

theorem flashStays_settleUnload (s : State) (i : Nat) : FlashStays s (settleUnload s i) := by
  unfold settleUnload
  split
  · refine .ite ?_ (.refl s)
    unfold releaseSched
    extract_lets s₁ s₂
    have dropped : FlashStays s s₁ := flashStays_dropTiles ..
    have erased : FlashStays s s₂ := dropped.trans (.of_changes (l := [.scheds]) rfl)
    split
    · exact erased.trans (.of_changes (quiet_succeed ..))
    · exact erased
  · exact .refl s

theorem flashStays_unloadSched (s : State) (i loc : Nat) : FlashStays s (unloadSched s i loc) := by
  unfold unloadSched
  split
  · exact .refl s
  · refine .ite (.refl s) (.ite (.of_changes ((Changes.refl [.scheds] s).modSched _ _)) ?_)
    extract_lets h u
    have marked : FlashStays s u :=
      .of_changes (l := [.colls, .scheds]) ((show Changes [.colls, .scheds] s (clearBindings s h) from rfl).modSched _ _)
    exact (marked.trans (.of_changes (changes_objectLog ..))).trans (flashStays_settleUnload ..)

theorem flashStays_loseTile (s : State) (t : Nat) : FlashStays s (loseTile s t) := by
  have logged (u : State) (kind : Nat) (h : BitVec 32) (loc detail : Nat) : FlashStays u (objectLog u kind h 0 loc detail) :=
    .of_changes (changes_objectLog ..)
  unfold loseTile
  split
  · exact .refl s
  · next e _ =>
    extract_lets log i
    have lost : FlashStays s (setTile s t { e with lost := true }) := .of_changes (changes_setTile ..)
    split
    · exact (lost.trans (logged ..)).trans (.of_changes ((Changes.refl [.colls] _).modColl _ _))
    · exact .trans (.ite (.refl s) lost) (logged ..)
    · exact .trans (.ite (.refl s) lost) (logged ..)
    · have first : FlashStays s (log s (schedHandle s e.owner)) := logged ..
      exact first.trans (flashStays_unloadSched ..)
    · exact .refl s

theorem flashStays_advanceGen (s : State) (i : Nat) : FlashStays s (advanceGen s i) := by
  unfold advanceGen
  split
  · exact .refl s
  · extract_lets old s₁ s₂ waiting
    have next : Changes [.gens, .colls] s s₂ := (show Changes [.gens, .colls] s s₁ from rfl).modColl _ _
    exact .trans (.of_changes next) (.of_changes (quiet_failAll ..))

theorem flashStays_imageLoses (s : State) (i t : Nat) (c : Collection) : FlashStays s (imageLoses s i t c) := by
  unfold imageLoses
  split
  · exact .refl s
  · dsimp only
    split
    · exact .refl s
    · exact .ite ⟨rfl, rfl, rfl, rfl⟩ (.ite ((flashStays_advanceGen ..).trans (.of_changes (changes_objectLog ..))) (.refl s))

theorem flashStays_logicalLost (s : State) (t : Nat) : FlashStays s (logicalLost s t) := by
  unfold logicalLost
  extract_lets s₁ s₂
  have lost : FlashStays s s₁ := .foldl flashStays_loseTile _ s
  have dirty : FlashStays s₁ s₂ := .foldl (fun s _ => .of_changes ((Changes.refl [.tiers] s).modTiers _)) _ s₁
  refine (lost.trans dirty).trans (.foldl (fun s i => ?_) _ s₂)
  split
  · exact flashStays_imageLoses ..
  · exact .refl s

/-! ## Pages that are lost (R434, R443) -/

theorem flashStays_notice (s : State) (lid : Nat) : FlashStays s (notice s lid) := .of_changes (Reports.notice s lid).changes

/-- A page that is lost is counted on its channel, in the medium's figures, and in the map. -/
def markLost (s : State) (p : Nat) : State :=
  match flashLoc s p with
  | none => s
  | some l =>
    if l = lostLoc then s
    else
      let s := modFlashCh s (locChannel (flashDie (p / 4)) l) fun x => { x with lostPages := satAdd 0xFFFFFFFF x.lostPages 1 }
      s.modFlash fun f => { f with map := Tab.set f.map p lostLoc, lostPages := satAdd 0xFFFFFFFF f.lostPages 1 }

theorem losePages_eq (s : State) (ps : List Nat) :
    losePages s ps = notice ((ps.map (· / 4)).eraseDups.foldl logicalLost (ps.foldl markLost s)) lidFlash := rfl

theorem flashStays_losePages (s : State) (ps : List Nat) : FlashStays (ps.foldl markLost s) (losePages s ps) := by
  rw [losePages_eq]
  exact .trans (.foldl flashStays_logicalLost _ _) (flashStays_notice ..)

theorem losePages_notice (s : State) (ps : List Nat) : (losePages s ps).logs.notice.getLsbD (lidFlash - 1) = true := by
  rw [losePages_eq, notice_logs]
  exact getLsbD_setBit_self _ (by decide)

theorem modFlashCh_state (s : State) (c k : Nat) (f : FlashCh → FlashCh) (same : ∀ x, (f x).state = x.state) :
    (flashCh (modFlashCh s c f) k).state = (flashCh s k).state := by
  unfold flashCh modFlashCh State.modFlash
  dsimp only
  rw [Tab.getD_modify]
  split
  · next eq => rw [same, eq]
  · rfl

theorem losePages_channel (s : State) (ps : List Nat) (c : Nat) : (flashCh (losePages s ps) c).state = (flashCh s c).state := by
  have mark (s : State) (p : Nat) : (flashCh (markLost s p) c).state = (flashCh s c).state := by
    unfold markLost
    split
    · rfl
    · split
      · rfl
      · next l _ _ =>
        exact modFlashCh_state s (locChannel (flashDie (p / 4)) l) c (fun x => { x with lostPages := satAdd 0xFFFFFFFF x.lostPages 1 }) fun _ => rfl
  have marks : (flashCh (ps.foldl markLost s) c).state = (flashCh s c).state :=
    List.foldlRecOn ps markLost (motive := fun t => (flashCh t c).state = (flashCh s c).state) rfl fun t same p _ => (mark t p).trans same
  rw [← marks]
  exact congrArg (fun t => (Tab.getD t c ({} : FlashCh)).state) (flashStays_losePages s ps).channels

/-! ## Pages that arrive (R433) -/

theorem flash_candRead (s : State) (n k : Nat) (b : Option (List Byte)) : (candRead s n k b).flash = s.flash := by
  have arrives (s : State) (x : Cmd) (c : Collection) (b : List Byte) : (candArrives s n x c k b).flash = s.flash := by
    unfold candArrives
    split
    · rfl
    · rfl
  have finish (s : State) (l : List Cand) : (finishSearch s n l).flash = s.flash := by
    unfold finishSearch
    split
    · rfl
    · split
      · rfl
      · exact (changes_decide ..).same State.flash
  have pairs (s : State) (x : Cmd) : (joinPairs s n x).flash = s.flash := by
    unfold joinPairs
    split
    · exact (changes_fail ..).same State.flash
    · next i _ =>
      extract_lets s₁ tokensAt ks s₂
      have empty : Changes [.cmds] s₁ s₂ := .foldl (fun s _ => (Changes.refl _ s).modCmd _ _) _ s₁
      have groups : Changes [.runs, .nextRun] s₂ (enqueueGroups s₂ i n (ks.filter fun k => !(tokensAt k).isEmpty)) := by
        unfold enqueueGroups
        refine .foldl (fun s g => ?_) _ s₂
        dsimp only
        split
        · exact (Changes.refl _ s).modRun _ _
        · rfl
      exact (groups.same State.flash).trans (empty.same State.flash)
  have settles (s : State) : (settleRerank s n).flash = s.flash := by
    unfold settleRerank
    split
    · rfl
    · split
      · rfl
      · split
        · rfl
        · split
          · unfold sendRerank
            exact (changes_sendData ..).same State.flash
          · extract_lets s₁
            have paired : s₁.flash = s.flash := by
              dsimp only [s₁]
              split
              · exact pairs s _
              · rfl
            split
            · exact paired
            · split
              · exact (finish ..).trans paired
              · exact paired
  unfold candRead
  split
  · rfl
  · split
    · split
      · exact (settles _).trans (arrives ..)
      · rfl
    · rfl

theorem flash_pageArrives (s : State) (page : Nat) : (pageArrives s page).flash = s.flash := by
  unfold pageArrives
  extract_lets needs readers
  refine List.foldlRecOn readers _ (motive := fun t : State => t.flash = s.flash) rfl fun t same y _ => ?_
  obtain ⟨n, x⟩ := y
  dsimp only
  split
  · exact same
  · split
    · exact same
    · refine List.foldlRecOn _ _ (motive := fun t : State => t.flash = s.flash) same fun t same z _ => ?_
      split
      · exact (flash_candRead ..).trans same
      · exact same

/-- A page that no search waits for arrives without an effect. -/
theorem pageArrives_of_none (none_ : ∀ y ∈ s.cmds, y.2.search.phase ≠ .reranking) (page : Nat) : pageArrives s page = s := by
  have empty : (s.cmds.filter fun (_, x) => x.stage == .admitted && x.search.phase == .reranking) = [] := by
    refine List.filter_eq_nil_iff.mpr fun y mem => ?_
    have := none_ y mem
    simp [this]
  unfold pageArrives
  extract_lets needs readers
  rw [show readers = [] from empty]
  rfl

end Sys2Proof.Machine
end

section
/-! SUPPORT. The rows of the flash tier: reads, erases, recovery, relocation and the retraining of channels (R433 to R443); O23. -/

namespace Sys2Proof.Machine

open Sys2Proof

-- Proofs are checked one at a time: each that waits for its turn would hold a thread's stack.
set_option Elab.async false

variable {s t u : State} {page level b c lun l : Nat}

/-! ## Blocks and channels that change -/

theorem flashBlock_modFlashBlock (s : State) (b k : Nat) (f : FlashBlock → FlashBlock) :
    flashBlock (modFlashBlock s b f) k = if k = b then f (flashBlock s b) else flashBlock s k := by
  unfold flashBlock modFlashBlock State.modFlash
  exact Tab.getD_modify ..

theorem flashBlock_of_blocks (same : t.flash.blocks = s.flash.blocks) (k : Nat) : flashBlock t k = flashBlock s k := by
  unfold flashBlock
  rw [same]

/-! ## Reads of pages (R433, R436, R439) -/

theorem flashLoc_queueFlash (s : State) (page level p : Nat) : flashLoc (queueFlash s page level) p = flashLoc s p := by
  unfold queueFlash
  split
  · rfl
  · rfl

theorem pageLun_queueFlash (s : State) (page level p : Nat) : pageLun (queueFlash s page level) p = pageLun s p := by
  unfold pageLun
  rw [flashLoc_queueFlash]

theorem pageLun_of_loc (at_ : flashLoc s page = some l) (kept : l ≠ lostLoc) : pageLun s page = some (lunKey (flashDie (page / 4)) l) := by
  unfold pageLun
  rw [at_]
  exact if_neg kept

/-- Whatever waits on a LUN still waits there when a read arrives. -/
theorem lunReads_queueFlash (waiting : lunReads s lun ≠ []) : lunReads (queueFlash s page level) lun ≠ [] := by
  obtain ⟨r, mem⟩ := List.exists_mem_of_ne_nil _ waiting
  obtain ⟨listed, urgent⟩ := List.mem_filter.mp mem
  refine List.ne_nil_of_mem (a := r) (List.mem_filter.mpr ⟨?_, ?_⟩)
  · unfold queueFlash
    split
    · exact listed
    · exact List.mem_append_left _ listed
  · rw [pageLun_queueFlash]
    exact urgent

/-- The only read of a LUN has its turn. -/
theorem readTurn_alone (none_ : s.flash.reads = []) (page level : Nat) : readTurn (queueFlash s page level) page level = true := by
  have reads : (queueFlash s page level).flash.reads = [⟨page, level⟩] := by
    unfold queueFlash
    rw [none_]
    change (s.flash.reads ++ [⟨page, level⟩]) = _
    rw [none_]
    rfl
  unfold readTurn
  split
  · rfl
  · next l lun =>
    split
    · next urgent =>
      have first : lunReads (queueFlash s page level) l = [⟨page, level⟩] := by
        unfold lunReads
        rw [reads]
        simp [urgent, lun]
      have busy : busyLuns (queueFlash s page level) (channelOf l) = [l] := by
        unfold busyLuns
        rw [reads]
        simp [urgent, lun, List.eraseDups_cons]
      have turn : busTurn (queueFlash s page level) (channelOf l) = some l := by
        unfold busTurn
        rw [busy]
        change ([l].find? _).or (some l) = some l
        rw [List.find?_singleton]
        split
        · rfl
        · rfl
      rw [first, turn]
      simp
    · next late =>
      unfold lunReads
      rw [reads]
      simp [late]

/-- A read that is taken off its LUN's queue changed the queue and its channel's turn alone. -/
theorem takeRead_frame (s : State) (page level : Nat) : ∃ cs rs, takeRead (queueFlash s page level) page level =
    { s with flash := { s.flash with channels := cs, reads := rs } } := by
  have queued : ∃ rs, queueFlash s page level = { s with flash := { s.flash with reads := rs } } := by
    unfold queueFlash
    split
    · exact ⟨_, rfl⟩
    · exact ⟨_, rfl⟩
  obtain ⟨rs, queued⟩ := queued
  rw [queued]
  unfold takeRead
  dsimp only
  split
  · split
    · exact ⟨_, _, rfl⟩
    · exact ⟨_, _, rfl⟩
  · exact ⟨_, _, rfl⟩

theorem countRead_block (s : State) (b retries : Nat) (corrected : List Nat) (k : Nat) : flashBlock (countRead s b retries corrected) k =
    if k = b then { flashBlock s b with
      reads := (flashBlock s b).reads + 1
      refreshDue := (flashBlock s b).refreshDue || decide (s.flash.profile.disturbLimit ≤ (flashBlock s b).reads + 1) || decide (2 ≤ retries)
        || corrected.any fun n => decide (s.flash.profile.refreshBits < n) }
    else flashBlock s k := flashBlock_modFlashBlock ..

/-- A page that is read with the retry table, or without a retry. -/
theorem readEffect_reads {tries : Nat} (at_ : flashLoc s page = some l) (kept : l ≠ lostLoc) (few : tries ≤ retriesAt s level)
    (corrected : List Nat) (soft : Bool) : readEffect s page level tries corrected soft =
      pageArrives (if tries = 0 then countRead s (blockKeyOf s (flashDie (page / 4)) l) tries corrected
        else modFlashBlock (countRead s (blockKeyOf s (flashDie (page / 4)) l) tries corrected) (blockKeyOf s (flashDie (page / 4)) l)
          fun x => { x with retryHint := tries }) page := by
  unfold readEffect
  rw [at_]
  dsimp only
  rw [if_neg kept, Nat.min_eq_left few, if_pos few]

/-! ## Blocks that are retired or erased (R435, R441) -/

theorem flash_updateT4 (s : State) : ∃ st, (updateT4 s).flash = { s.flash with state := st } := by
  obtain ⟨st, l, x, y, eq⟩ := updateT4_eq s
  exact ⟨st, by rw [eq]⟩

theorem flashBlock_updateT4 (s : State) (k : Nat) : flashBlock (updateT4 s) k = flashBlock s k := by
  obtain ⟨st, eq⟩ := flash_updateT4 s
  exact flashBlock_of_blocks (by rw [eq]) k

theorem pages_updateT4 (s : State) : (updateT4 s).flash.pages = s.flash.pages := by
  obtain ⟨st, eq⟩ := flash_updateT4 s
  rw [eq]

theorem fwServes_live (serves : fwServes s = true) : live s = true := by
  unfold fwServes at serves
  simp only [Bool.and_eq_true] at serves
  exact serves.1

/-- A block that fails while the firmware serves is bad, and its pages stay. -/
theorem blockFails_spec (serves : fwServes s = true) (b : Nat) :
    (flashBlock (blockFails s b) b).bad = true ∧ (blockFails s b).flash.pages = s.flash.pages := by
  unfold blockFails
  rw [if_pos serves]
  unfold retireBlock
  split
  · next bad => exact ⟨bad, rfl⟩
  · extract_lets valid s₁ s₂
    have noted : ∀ v d, (notice (deviceLog s₂ kindFlash v d) lidFlash).flash = s₂.flash := fun v d =>
      ((Reports.device_log s₂ kindFlash v d).trans (Reports.notice _ lidFlash)).changes.same State.flash
    refine ⟨?_, ?_⟩
    · rw [flashBlock_updateT4, flashBlock_of_blocks (congrArg Flash.blocks (noted _ _))]
      change (flashBlock s₁ b).bad = true
      rw [show flashBlock s₁ b = _ from flashBlock_modFlashBlock .., if_pos rfl]
    · rw [pages_updateT4, noted]
      rfl

theorem eraseEffect_pass (serves : fwServes s = true) (b : Nat) :
    ((flashBlock s b).retireAfter = false → flashBlock (eraseEffect s b true) b = { flashBlock s b with
      erases := (flashBlock s b).erases + 1, reads := 0, next := 0, refreshDue := false }) ∧
      (eraseEffect s b true).flash.pages = clearBlock s b := by
  unfold eraseEffect
  rw [Bool.not_true, if_neg Bool.false_ne_true]
  extract_lets s₁ retire s₂ s₃
  have block : flashBlock s₃ b = { flashBlock s b with erases := (flashBlock s b).erases + 1, reads := 0, next := 0, refreshDue := false } := by
    rw [show flashBlock s₃ b = _ from flashBlock_modFlashBlock .., if_pos rfl]
    rfl
  have serves₃ : fwServes s₃ = true := serves
  refine ⟨fun stays => ?_, ?_⟩
  · have stays : retire = false := stays
    rw [flashBlock_updateT4, stays, if_neg Bool.false_ne_true, block]
  · rw [pages_updateT4]
    split
    · rw [(blockFails_spec serves₃ b).2]
      rfl
    · rfl

theorem read_clearBlock (s : State) (b x : Nat) (small : x < max 1 s.flash.profile.pagesPerBlock * 16384) :
    Mem.read (clearBlock s b) (pageCell (dieOf b) (lunOf b % 2 ^ 32 + b % 2 ^ 23 * max 1 s.flash.profile.pagesPerBlock) + x) = 0 := by
  unfold clearBlock
  extract_lets ppb lo
  have gone : Tab.get? (s.flash.pages.filter fun (a, _) => decide (a < lo) || decide (lo + ppb * 16384 ≤ a)) (lo + x) = none := by
    rw [Tab.get?_filter_key s.flash.pages (fun a => decide (a < lo) || decide (lo + ppb * 16384 ≤ a)), if_neg]
    simp only [Bool.or_eq_true, decide_eq_true_eq]
    omega
  unfold Mem.read Tab.getD
  rw [show Tab.get? (s.flash.pages.filter _) _ = none from gone]
  rfl

/-! ## Pages that are relocated (R434, R435, R440, R441) -/

theorem relocate_holds (s : State) {ts : List Nat} {k : Nat} (mem : k ∈ ts) : (relocate s ts).flash.wbuf.contains k = true := by
  change (s.flash.wbuf ++ ts.filter fun t => !s.flash.wbuf.contains t).contains k = true
  rw [List.contains_iff_mem, List.mem_append]
  by_cases there : s.flash.wbuf.contains k = true
  · exact .inl (List.contains_iff_mem.mp there)
  · exact .inr (List.mem_filter.mpr ⟨mem, by rw [Bool.not_eq_true] at there; rw [there]; rfl⟩)

theorem mem_tilesOfBlock {p : Nat} (valid : p ∈ validPages s b) : p / 4 ∈ tilesOfBlock s b := by
  unfold tilesOfBlock
  rw [List.mem_eraseDups]
  exact List.mem_map_of_mem valid

/-- The block of a list that is chosen has the least measure. -/
theorem leastBlock_least {f : Nat → Nat} {bs : List Nat} (found : leastBlock f bs = some b) : b ∈ bs ∧ ∀ k ∈ bs, f b ≤ f k := by
  induction bs generalizing b with
  | nil => cases found
  | cons a bs ih =>
    unfold leastBlock at found
    split at found
    · next none_ =>
      obtain rfl := Option.some.inj found
      refine ⟨List.mem_cons_self, fun k mem => ?_⟩
      rcases List.mem_cons.mp mem with rfl | later
      · exact Nat.le_refl _
      · cases bs with
        | nil => cases later
        | cons d ds =>
          unfold leastBlock at none_
          split at none_
          · cases none_
          · split at none_ <;> cases none_
    · next d some_ =>
      obtain ⟨listed, least⟩ := ih some_
      split at found
      · next less =>
        obtain rfl := Option.some.inj found
        refine ⟨List.mem_cons_of_mem _ listed, fun k mem => ?_⟩
        rcases List.mem_cons.mp mem with rfl | later
        · exact Nat.le_of_lt less
        · exact least k later
      · next no =>
        obtain rfl := Option.some.inj found
        refine ⟨List.mem_cons_self, fun k mem => ?_⟩
        rcases List.mem_cons.mp mem with rfl | later
        · exact Nat.le_refl _
        · exact (Nat.le_of_not_lt no).trans (least k later)

/-! ## Recovery (R434) -/

theorem recoveryEffect_eq (at_ : flashLoc s page = some l) (kept : l ≠ lostLoc) (ok : Bool) : ∃ u, u.flash = { s.flash with
      recoverDue := s.flash.recoverDue.filter (· != page)
      blocks := Tab.modify s.flash.blocks (blockKeyOf s (flashDie (page / 4)) l) {} fun x => { x with retireAfter := true, refreshDue := true } } ∧
    recoveryEffect s page ok = if ok then relocate u [page / 4] else losePages u [page] := by
  unfold recoveryEffect
  dsimp only
  rw [show flashLoc (s.modFlash fun f => { f with recoverDue := f.recoverDue.filter (· != page) }) page = some l from at_]
  dsimp only
  rw [if_neg kept]
  exact ⟨_, (Reports.device_log _ kindFlash page _).changes.same State.flash, rfl⟩

theorem markLost_lostPages (at_ : flashLoc s page = some l) (kept : l ≠ lostLoc) :
    (markLost s page).flash.lostPages = min 0xFFFFFFFF (s.flash.lostPages + 1) ∧ (markLost s page).flash.recoverDue = s.flash.recoverDue := by
  unfold markLost
  rw [at_]
  dsimp only
  rw [if_neg kept]
  exact ⟨rfl, rfl⟩

end Sys2Proof.Machine
end

section
/-! SUPPORT. The flash tier is maintained: what each of its rows does, and O23 (R433 to R443). -/

namespace Sys2Proof.Machine

open Sys2Proof

-- Proofs are checked one at a time: each that waits for its turn would hold a thread's stack.
set_option Elab.async false

variable {s t u : State} {page level b c lun l ch : Nat}

/-! ## Reads (R433, R436, R439) -/

/-- What a read that succeeds leaves of the blocks: its own is counted and takes the hint and the refresh that are due. -/
def readBlock (s : State) (tries : Nat) (corrected : List Nat) (x : FlashBlock) : FlashBlock :=
  { x with
    reads := x.reads + 1
    refreshDue := x.refreshDue || decide (s.flash.profile.disturbLimit ≤ x.reads + 1) || decide (2 ≤ tries)
      || corrected.any fun n => decide (s.flash.profile.refreshBits < n)
    retryHint := if tries = 0 then x.retryHint else tries }

theorem readEffect_block {tries : Nat} (at_ : flashLoc s page = some l) (kept : l ≠ lostLoc) (few : tries ≤ retriesAt s level)
    (corrected : List Nat) (soft : Bool) (k : Nat) : flashBlock (readEffect s page level tries corrected soft) k =
      if k = blockKeyOf s (flashDie (page / 4)) l then readBlock s tries corrected (flashBlock s k) else flashBlock s k := by
  rw [readEffect_reads at_ kept few corrected soft, flashBlock_of_blocks (congrArg Flash.blocks (flash_pageArrives _ page))]
  unfold readBlock
  by_cases none_ : tries = 0
  · rw [if_pos none_, countRead_block]
    split
    · next eq => rw [eq]
    · rfl
  · rw [if_neg none_, flashBlock_modFlashBlock, countRead_block, countRead_block, if_pos rfl]
    split
    · next eq => rw [eq]
    · rfl

theorem readEffect_frame {tries : Nat} (at_ : flashLoc s page = some l) (kept : l ≠ lostLoc) (few : tries ≤ retriesAt s level)
    (corrected : List Nat) (soft : Bool) (none_ : ∀ y ∈ s.cmds, y.2.search.phase ≠ .reranking) :
    ∃ cs bs, readEffect s page level tries corrected soft = { s with flash := { s.flash with channels := cs, blocks := bs } } := by
  rw [readEffect_reads at_ kept few corrected soft]
  split
  · rw [pageArrives_of_none (by exact none_)]
    exact ⟨_, _, rfl⟩
  · rw [pageArrives_of_none (by exact none_)]
    exact ⟨_, _, rfl⟩

theorem flashRead_counts {tries : Nat} {corrected : List Nat} {soft : Bool} (alive : live s = true) (open_ : s.flash.isOpen = true)
    (inside : page < s.flash.top / 16384) (unbuffered : s.flash.wbuf.contains (page / 4) = false) (at_ : flashLoc s page = some l)
    (kept : l ≠ lostLoc) (serves : readable s page = true) (urgency : level < 4) (sectors : corrected.length ≤ 4)
    (few : tries ≤ retriesAt s level) (turn : readTurn (queueFlash s page level) page level = true) :
    ∃ t, exec (.flashRead page level tries corrected soft) s = .next t ∧
      (∀ k, flashBlock t k = if k = blockKeyOf s (flashDie (page / 4)) l then readBlock s tries corrected (flashBlock s k) else flashBlock s k) ∧
      ((∀ y ∈ s.cmds, y.2.search.phase ≠ .reranking) →
        t = { s with flash := { s.flash with channels := t.flash.channels, blocks := t.flash.blocks, reads := t.flash.reads } }) := by
  have row : exec (.flashRead page level tries corrected soft) s =
      .next (readEffect (takeRead (queueFlash s page level) page level) page level tries corrected soft) :=
    occurs_of_true (by rw [alive, open_, decide_eq_true inside, unbuffered, serves, decide_eq_true (Nat.le_of_lt_succ urgency),
      decide_eq_true sectors, turn]; rfl) _ s
  obtain ⟨cs, rs, taken⟩ := takeRead_frame s page level
  refine ⟨_, row, fun k => ?_, fun none_ => ?_⟩
  · rw [taken]
    exact readEffect_block (s := { s with flash := { s.flash with channels := cs, reads := rs } }) at_ kept few corrected soft k
  · obtain ⟨cs', bs, eq⟩ := readEffect_frame (s := { s with flash := { s.flash with channels := cs, reads := rs } })
      at_ kept few corrected soft none_
    rw [taken, eq]

theorem readBlock_spec (s : State) (tries : Nat) (corrected : List Nat) (x : FlashBlock) :
    (readBlock s tries corrected x).reads = x.reads + 1 ∧ (1 ≤ tries → (readBlock s tries corrected x).retryHint = tries) ∧
      ((readBlock s tries corrected x).refreshDue = true ↔ x.refreshDue = true ∨ s.flash.profile.disturbLimit ≤ x.reads + 1 ∨ 2 ≤ tries ∨
        ∃ n ∈ corrected, s.flash.profile.refreshBits < n) := by
  refine ⟨rfl, fun some_ => if_neg (by omega), ?_⟩
  unfold readBlock
  simp only [Bool.or_eq_true, decide_eq_true_eq, List.any_eq_true, or_assoc]

/-! ## What waits behind a read (R436) -/

/-- Whatever is in the queue, a read that a LUN holds keeps the reads of levels 2 and 3 from their turn there. -/
theorem readTurn_waits (at_ : flashLoc s page = some l) (kept : l ≠ lostLoc) (waiting : lunReads s (lunKey (flashDie (page / 4)) l) ≠ [])
    (late : 2 ≤ level) : readTurn (queueFlash s page level) page level = false := by
  unfold readTurn
  rw [pageLun_queueFlash, pageLun_of_loc at_ kept]
  dsimp only
  rw [if_neg (by omega), List.isEmpty_eq_false_iff]
  exact lunReads_queueFlash waiting

theorem lunQuiet_of_waiting (waiting : lunReads s lun ≠ []) : lunQuiet s lun = false := List.isEmpty_eq_false_iff.mpr waiting

theorem flashRead_waits (at_ : flashLoc s page = some l) (kept : l ≠ lostLoc)
    (waiting : lunReads s (lunKey (flashDie (page / 4)) l) ≠ []) {tries : Nat} {corrected : List Nat} {soft : Bool} (late : 2 ≤ level) :
    exec (.flashRead page level tries corrected soft) s = .next s :=
  occurs_of_false (by rw [readTurn_waits at_ kept waiting late, Bool.and_false]) _ s

theorem flashProgram_waits {tile loc : Nat} (pass : Bool) (waiting : lunReads s (lunKey (flashDie tile) loc) ≠ []) :
    exec (.flashProgram tile loc pass) s = .next s :=
  occurs_of_false (by rw [lunQuiet_of_waiting waiting, Bool.and_false, Bool.false_and]) _ s

theorem flashErase_waits (pass : Bool) (waiting : lunReads s (lunOf b) ≠ []) : exec (.flashErase b pass) s = .next s :=
  occurs_of_false (by rw [lunQuiet_of_waiting waiting, Bool.and_false, Bool.false_and]) _ s

/-! ## Erases and recoveries (R434, R435, R441) -/

theorem flashErase_occurs (serves : fwServes s = true) (open_ : s.flash.isOpen = true) (active : (flashCh s (channelOf b)).state = .active)
    (good : (flashBlock s b).bad = false) (written : 0 < (flashBlock s b).next) (none_ : validPages s b = [])
    (quiet : lunReads s (lunOf b) = []) (pass : Bool) : exec (.flashErase b pass) s = .next (eraseEffect s b pass) :=
  occurs_of_true (by
    rw [fwServes_live serves, open_, active, good, decide_eq_true written, none_, serves, show lunQuiet s (lunOf b) = true by
      unfold lunQuiet; rw [quiet]; rfl]
    rfl) _ s

theorem eraseEffect_fail (serves : fwServes s = true) (b : Nat) : (flashBlock (eraseEffect s b false) b).bad = true :=
  (blockFails_spec serves b).1

theorem pageRecovery_occurs (serves : fwServes s = true) (open_ : s.flash.isOpen = true) (due : s.flash.recoverDue.contains page = true)
    (ok : Bool) : exec (.pageRecovery page ok) s = .next (recoveryEffect s page ok) :=
  occurs_of_true (by rw [serves, open_, due]; rfl) _ s

theorem not_mem_filter_ne (l : List Nat) (p : Nat) : p ∉ l.filter (· != p) := fun mem => by
  have := (List.mem_filter.mp mem).2
  simp at this

theorem recoveryEffect_pass (at_ : flashLoc s page = some l) (kept : l ≠ lostLoc) :
    page ∉ (recoveryEffect s page true).flash.recoverDue ∧ (recoveryEffect s page true).flash.wbuf.contains (page / 4) = true ∧
      (flashBlock (recoveryEffect s page true) (blockKeyOf s (flashDie (page / 4)) l)).retireAfter = true := by
  obtain ⟨u, flash, eq⟩ := recoveryEffect_eq at_ kept true
  rw [eq, if_pos rfl]
  refine ⟨?_, relocate_holds u (List.mem_singleton_self _), ?_⟩
  · change page ∉ u.flash.recoverDue
    rw [flash]
    exact not_mem_filter_ne s.flash.recoverDue page
  · change (flashBlock u _).retireAfter = true
    unfold flashBlock
    rw [flash]
    dsimp only
    rw [Tab.getD_modify, if_pos rfl]

theorem recoveryEffect_lost (at_ : flashLoc s page = some l) (kept : l ≠ lostLoc) :
    page ∉ (recoveryEffect s page false).flash.recoverDue ∧
      (recoveryEffect s page false).flash.lostPages = min 0xFFFFFFFF (s.flash.lostPages + 1) ∧
      (recoveryEffect s page false).logs.notice.getLsbD (lidFlash - 1) = true := by
  obtain ⟨u, flash, eq⟩ := recoveryEffect_eq at_ kept false
  have atU : flashLoc u page = some l := by
    unfold flashLoc
    rw [flash]
    exact at_
  have stays : FlashStays (markLost u page) (losePages u [page]) := flashStays_losePages u [page]
  obtain ⟨lost, due⟩ := markLost_lostPages atU kept
  rw [eq, if_neg Bool.false_ne_true, stays.recoverDue, stays.lostPages, lost, due, flash]
  exact ⟨not_mem_filter_ne s.flash.recoverDue page, rfl, losePages_notice ..⟩

/-! ## Relocation and patrol (R435, R439 to R441) -/

theorem relocate_tilesOfBlock (s : State) (b : Nat) :
    ∀ p ∈ validPages s b, (relocate s (tilesOfBlock s b)).flash.wbuf.contains (p / 4) = true :=
  fun _ valid => relocate_holds s (mem_tilesOfBlock valid)

theorem flashRefresh_relocates (serves : fwServes s = true) (open_ : s.flash.isOpen = true) (due : (flashBlock s b).refreshDue = true) :
    ∃ t, exec (.flashRefresh b) s = .next t ∧ (∀ p ∈ validPages s b, t.flash.wbuf.contains (p / 4) = true) ∧
      (flashBlock t b).refreshDue = false ∧ t.flash.refreshes = min 0xFFFFFFFF (s.flash.refreshes + 1) ∧
      t = { s with flash := { s.flash with wbuf := t.flash.wbuf, blocks := t.flash.blocks, refreshes := t.flash.refreshes } } := by
  refine ⟨refreshEffect s b, occurs_of_true (by rw [serves, open_, due]; rfl) _ s, relocate_tilesOfBlock s b, ?_, rfl, rfl⟩
  have block := flashBlock_modFlashBlock (relocate s (tilesOfBlock s b)) b b fun x => { x with refreshDue := false }
  rw [if_pos rfl] at block
  exact congrArg FlashBlock.refreshDue block

theorem garbageCollection_relocates (serves : fwServes s = true) (open_ : s.flash.isOpen = true) (chosen : gcBlock s lun = some b)
    (active : (flashCh s (channelOf lun)).state = .active) :
    ∃ t, exec (.garbageCollection lun) s = .next t ∧ (∀ p ∈ validPages s b, t.flash.wbuf.contains (p / 4) = true) ∧
      (∀ k x, (k, x) ∈ s.flash.blocks → lunOf k = lunOf b → reclaimable s k x = true →
        (validPages s b).length ≤ (validPages s k).length) ∧
      t = { s with flash := { s.flash with wbuf := t.flash.wbuf } } := by
  have row : exec (.garbageCollection lun) s = .next (relocate s (tilesOfBlock s b)) := by
    change execGarbageCollection lun s = _
    unfold execGarbageCollection
    rw [chosen]
    exact occurs_of_true (by rw [serves, open_, active]; rfl) _ s
  obtain ⟨listed, least⟩ := leastBlock_least chosen
  obtain ⟨y, mem, rfl⟩ := List.mem_map.mp listed
  have here : lunOf y.1 = lun := by
    have picked : (lunOf y.1 == lun && reclaimable s y.1 y.2) = true := (List.mem_filter.mp mem).2
    rw [Bool.and_eq_true, beq_iff_eq] at picked
    exact picked.1
  refine ⟨_, row, relocate_tilesOfBlock s y.1, fun k x there same ok => least k ?_, rfl⟩
  exact List.mem_map.mpr ⟨(k, x), List.mem_filter.mpr ⟨there, show (lunOf k == lun && reclaimable s k x) = true by
    rw [same, here, ok, beq_self_eq_true]; rfl⟩, rfl⟩

theorem wearLevelling_relocates {die : Nat} (serves : fwServes s = true) (open_ : s.flash.isOpen = true) (chosen : coldestBlock s die = some b)
    (worn : s.flash.profile.ratedCycles < 10 * eraseSpread s die) :
    ∃ t, exec (.wearLevelling die) s = .next t ∧ (∀ p ∈ validPages s b, t.flash.wbuf.contains (p / 4) = true) ∧
      (∀ k x, (k, x) ∈ s.flash.blocks → dieOf k = die → x.bad = false → 0 < x.next →
        (flashBlock s b).erases ≤ (flashBlock s k).erases) ∧
      t = { s with flash := { s.flash with wbuf := t.flash.wbuf } } := by
  have row : exec (.wearLevelling die) s = .next (relocate s (tilesOfBlock s b)) := by
    change execWearLevelling die s = _
    unfold execWearLevelling
    rw [chosen]
    exact occurs_of_true (by rw [serves, open_, decide_eq_true worn]; rfl) _ s
  refine ⟨_, row, relocate_tilesOfBlock s b, fun k x there same good written => (leastBlock_least chosen).2 k ?_, rfl⟩
  exact List.mem_map.mpr ⟨(k, x), List.mem_filter.mpr ⟨there, show (dieOf k == die && !x.bad && decide (0 < x.next)) = true by
    rw [same, good, decide_eq_true written, beq_self_eq_true]; rfl⟩, rfl⟩

theorem flashPatrol_counts {retries : Nat} {corrected : List Nat} (serves : fwServes s = true) (open_ : s.flash.isOpen = true)
    (active : (flashCh s (channelOf b)).state = .active) (written : 0 < (flashBlock s b).next)
    (few : retries ≤ s.flash.profile.retryEntries) (sectors : corrected.length ≤ 4) (quiet : lunReads s (lunOf b) = []) :
    ∃ t, exec (.flashPatrol b retries corrected) s = .next t ∧ (flashBlock t b).reads = (flashBlock s b).reads + 1 ∧
      t = { s with flash := { s.flash with channels := t.flash.channels, blocks := t.flash.blocks } } := by
  have row : exec (.flashPatrol b retries corrected) s = .next (countRead s b retries corrected) := occurs_of_true (by
    rw [serves, open_, active, decide_eq_true written, decide_eq_true few, decide_eq_true sectors, show lunQuiet s (lunOf b) = true by
      unfold lunQuiet; rw [quiet]; rfl]
    rfl) _ s
  exact ⟨_, row, by rw [countRead_block, if_pos rfl], rfl⟩

/-! ## Channels that stop (R442, R443) -/

theorem flashChannelRetrain_occurs (alive : live s = true) (open_ : s.flash.isOpen = true) (inside : ch < 16)
    (runs : (s.island (98 + ch / 4)).state = .run) (used : (flashCh s ch).state = .active ∨ (flashCh s ch).state = .retraining)
    {rate : Option Nat} (ok : ∀ r, rate = some r → r ≤ 3) :
    exec (.flashChannelRetrain ch rate) s = .next (flashRetrainEffect s ch rate) := by
  have used : ((flashCh s ch).state == .active || (flashCh s ch).state == .retraining) = true := by
    rcases used with eq | eq
    · rw [eq]; rfl
    · rw [eq]; rfl
  refine occurs_of_true ?_ _ s
  rw [alive, open_, decide_eq_true inside, runs, used]
  cases rate with
  | none => rfl
  | some r => exact decide_eq_true (ok r rfl)

theorem notice_told (s : State) (lid : Nat) (low : lid - 1 < 32) : (notice s lid).logs.notice.getLsbD (lid - 1) = true := by
  rw [notice_logs]
  exact getLsbD_setBit_self _ low

/-- Only the medium's record and the notice of it changed. -/
theorem notice_frame (s : State) (f : Flash) (lid : Nat) : notice { s with flash := f } lid =
    { s with
      flash := (notice { s with flash := f } lid).flash, logs := (notice { s with flash := f } lid).logs
      port0 := (notice { s with flash := f } lid).port0, port1 := (notice { s with flash := f } lid).port1 } := by
  have same : Changes [.flash, .logs, .port0, .port1] s (notice { s with flash := f } lid) :=
    (show Changes [.flash, .logs, .port0, .port1] s { s with flash := f } from rfl).trans ((Reports.notice _ lid).changes.mono (by decide))
  exact same

theorem flashCh_notice (s : State) (lid c : Nat) : flashCh (notice s lid) c = flashCh s c := by
  unfold flashCh
  rw [(flashStays_notice s lid).channels]

theorem flashRetrain_stops (active : (flashCh s ch).state = .active) (rate : Option Nat) :
    (flashCh (flashRetrainEffect s ch rate) ch).state = .retraining ∧
      (flashRetrainEffect s ch rate).logs.notice.getLsbD (lidFlash - 1) = true ∧
      flashRetrainEffect s ch rate = { s with
        flash := (flashRetrainEffect s ch rate).flash, logs := (flashRetrainEffect s ch rate).logs
        port0 := (flashRetrainEffect s ch rate).port0, port1 := (flashRetrainEffect s ch rate).port1 } := by
  unfold flashRetrainEffect
  rw [if_pos active]
  refine ⟨?_, notice_told _ _ (by decide), notice_frame s _ lidFlash⟩
  rw [flashCh_notice, flashCh_modFlashCh, if_pos rfl]

/-- A channel of the table that is in retraining takes the common rate. -/
theorem commonRate_rate (retraining : (flashCh s ch).state = .retraining) (r : Nat) : (flashCh (commonRate s r) ch).rate ≤ r := by
  unfold flashCh commonRate State.modFlash Tab.getD at *
  dsimp only at *
  rw [Tab.get?_map]
  cases found : Tab.get? s.flash.channels ch with
  | none =>
    rw [found] at retraining
    cases retraining
  | some x =>
    rw [found] at retraining
    have retraining : x.state = .retraining := retraining
    change (if x.state = .active ∨ x.state = .retraining then { x with rate := min x.rate r } else x).rate ≤ r
    rw [if_pos (.inr retraining)]
    exact Nat.min_le_right ..

theorem flashRetrain_returns (retraining : (flashCh s ch).state = .retraining) (r : Nat) :
    (flashCh (flashRetrainEffect s ch (some r)) ch).state = .active ∧ (flashCh (flashRetrainEffect s ch (some r)) ch).rate ≤ r ∧
      flashRetrainEffect s ch (some r) = { s with
        flash := (flashRetrainEffect s ch (some r)).flash, logs := (flashRetrainEffect s ch (some r)).logs
        port0 := (flashRetrainEffect s ch (some r)).port0, port1 := (flashRetrainEffect s ch (some r)).port1 } := by
  unfold flashRetrainEffect
  rw [if_neg (by rw [retraining]; decide)]
  dsimp only
  refine ⟨?_, ?_, notice_frame s _ lidFlash⟩
  · rw [flashCh_notice, flashCh_modFlashCh, if_pos rfl]
  · rw [flashCh_notice, flashCh_modFlashCh, if_pos rfl]
    exact commonRate_rate retraining r

theorem flashRetrain_fails (retraining : (flashCh s ch).state = .retraining) :
    (flashCh (flashRetrainEffect s ch none) ch).state = .failed := by
  unfold flashRetrainEffect
  rw [if_neg (by rw [retraining]; decide)]
  dsimp only
  unfold channelFails
  extract_lets s₁
  have failed : (flashCh s₁ ch).state = .failed := by
    rw [show flashCh s₁ ch = _ from flashCh_modFlashCh .., if_pos rfl]
  obtain ⟨st, flash⟩ := flash_updateT4 (notice (losePages s₁ (pagesOn s₁ ch)) lidFlash)
  rw [flashCh, flash]
  change (flashCh (notice _ lidFlash) ch).state = _
  rw [flashCh_notice, losePages_channel, failed]

/-! ## O23 -/

/-- Settles O23: each row of the flash tier taken by its own lemma. -/
theorem flashIsMaintained : Obligations.FlashIsMaintained := by
  unfold Obligations.FlashIsMaintained
  refine ⟨?_, ?_, fun page level s none_ => readTurn_alone none_ page level, ?_, ?_⟩
  · intro page level tries l corrected soft s alive open_ inside unbuffered at_ kept serves urgency sectors few turn
    obtain ⟨t, row, blocks, frame⟩ := flashRead_counts (soft := soft) alive open_ inside unbuffered at_ kept serves urgency sectors few turn
    refine ⟨t, row, ?_, frame⟩
    dsimp only
    obtain ⟨reads, hint, due⟩ := readBlock_spec s tries corrected (flashBlock s (blockKeyOf s (flashDie (page / 4)) l))
    have own := (blocks (blockKeyOf s (flashDie (page / 4)) l)).trans (if_pos rfl)
    rw [own]
    exact ⟨reads, hint, due, fun k other => (blocks k).trans (if_neg other)⟩
  · intro page l s at_ kept waiting
    refine ⟨fun level tries corrected soft late => flashRead_waits at_ kept waiting late, fun tile loc pass same => ?_, fun b pass same => ?_⟩
    · exact flashProgram_waits pass (by rw [same]; exact waiting)
    · exact flashErase_waits pass (by rw [same]; exact waiting)
  · intro s serves open_
    refine ⟨fun b active good written none_ quiet => ?_, fun page l due at_ kept => ?_⟩
    · have row := flashErase_occurs serves open_ active good written none_ quiet
      obtain ⟨block, pages⟩ := eraseEffect_pass serves b
      refine ⟨⟨_, row true, block, fun x small => ?_⟩, _, row false, eraseEffect_fail serves b⟩
      rw [pages]
      exact read_clearBlock s b x small
    · have row := pageRecovery_occurs serves open_ due
      exact ⟨⟨_, row true, recoveryEffect_pass at_ kept⟩, _, row false, recoveryEffect_lost at_ kept⟩
  · intro s serves open_
    refine ⟨fun b due => flashRefresh_relocates serves open_ due, fun lun b chosen active => garbageCollection_relocates serves open_ chosen active,
      fun die b chosen worn => wearLevelling_relocates serves open_ chosen worn,
      fun b retries corrected active written few sectors quiet => flashPatrol_counts serves open_ active written few sectors quiet,
      fun ch inside runs => ?_⟩
    have row := fun used => @flashChannelRetrain_occurs s ch (fwServes_live serves) open_ inside runs used
    refine ⟨fun active => ⟨_, row (.inl active) (rate := none) nofun, flashRetrain_stops active none⟩, fun rate slow retraining => ?_,
      fun retraining => ⟨_, row (.inr retraining) (rate := none) nofun, flashRetrain_fails retraining⟩⟩
    have ok : ∀ r, some rate = some r → r ≤ 3 := fun r eq => by
      obtain rfl := Option.some.inj eq
      exact slow
    exact ⟨_, row (.inr retraining) ok, flashRetrain_returns retraining rate⟩

end Sys2Proof.Machine
end
